-- ==== Sys2Proof/Word.lean ====
section
/-!
DEFINITION. The word types of the Driso and the sparse maps its large arrays are held in.
R11: registers are 64 bits wide. R9: bit 0 is the least significant bit.
-/
namespace Sys2Proof

/-- A register, a program-store word or a packed-cask word (R11, R138, R269). -/
abbrev Word := BitVec 64

/-- One byte of memory. -/
abbrev Byte := BitVec 8

/-- An FP32 value by its bits (R143). -/
abbrev F32 := BitVec 32

/-- An M48 value by its bits (R142). -/
abbrev M48 := BitVec 48

/-- A cask value (R127). -/
abbrev CaskWord := BitVec 640

/-- A large array as the list of its entries that differ from the array's default, keys strictly
rising. -/
abbrev Sparse (α : Type) := List (Nat × α)

end Sys2Proof
end

