-- ==== Sys2Proof/Syntax.lean ====
section
/-!
DEFINITION. The commands of the Driso: one constructor of `Instr` for each row of
spec/opcode_table.json, and the operand types they carry.
-/
namespace Sys2Proof

/-- A logical tile p.t (R23). -/
structure TileRef where
  p : Nat
  t : Nat
deriving DecidableEq, Repr

/-- Who makes a register access: a DCT session or the I3C bus (R497). -/
inductive Who where
  | dct (session : Nat)
  | i3c
deriving DecidableEq, Repr

/-- What error checking found while a store or HBM range was read (R48, R285). -/
inductive Ecc where
  | clean
  | corrected (n : Nat)
  | uncorrectable
deriving DecidableEq, Repr

/-- Another client's write of the word at a store address in the same handshake as a write of this command (R47): its
client number, the address of the word and its bytes. -/
structure RaceIn where
  client : Nat
  addr : Nat
  word : Word
deriving DecidableEq, Repr

/-- What a command that reads and writes a tile store meets there: the outcome of its reads' error checking (R48), and
a write of one of its words by another client (R47). -/
structure StoreIn where
  ecc : Ecc
  race : Option RaceIn
deriving DecidableEq, Repr

/-- A vector operation's operands, with what the store does while it runs. -/
structure OnStore (α : Type) where
  d : α
  m : StoreIn
deriving DecidableEq, Repr

/-- A FLOW word at a tile, with what error checking finds where it reads the store (R48). -/
structure FlowIn where
  tl : TileRef
  ecc : Ecc
deriving DecidableEq, Repr

/-- What a BEAT says of its sender (R326, R323): its DEV_STATE and the digest of its image. -/
structure BeatFrom where
  devState : Nat
  image : BitVec 384
deriving DecidableEq, Repr

/-- A stash entry that an instruction saves (R202, log 5): its span, its length in bytes, and whether it is
the span's stash point. -/
structure SaveIn where
  span : Nat
  len : Nat
  point : Bool
deriving DecidableEq, Repr

/-- What an instruction does with the activation stash: the entry it saves, and the entries of its lot, by
their order of saving, that it reads last (R202). -/
structure StashUse where
  save : Option SaveIn
  frees : List Nat
deriving DecidableEq, Repr

/-- Where the stationary set of a product lies in a W tensor with a block mask (R244, R245; log 5): the first reduction
position and the first output column, how many of each, and whether the product takes W transposed. -/
structure MaskAt where
  tensor : Nat
  k0 : Nat
  n0 : Nat
  kLen : Nat
  nLen : Nat
  transposed : Bool
deriving DecidableEq, Repr

/-- What a LOAD takes from the image beside its word and descriptor (log 5): the place of the set in a masked tensor
(R244), the tensor slot whose single X is every block's scale (R183), and stash entries it reads last. -/
structure LoadDesc where
  mask : Option MaskAt
  xslot : Option Nat
  frees : List Nat
deriving DecidableEq, Repr

/-- What a DRAIN takes from the image beside its word and descriptor (log 5): stash use, a second list region whose rows
merge into the row lists (R114), and how many casks of the range hold elements of the output tensor (R156). -/
structure DrainDesc where
  stash : StashUse
  merge : Option Nat
  used : Option Nat
deriving DecidableEq, Repr

/-- Operations of VEC operation 0x00 (R59, R143, R167), and those of a router on a lot's assignments (R252, R253): the gated
sum of the returned rows, the gradient of the gate weights, the assignments admitted for each expert. -/
inductive EltOp where
  | add | sub | mul | fma | div | sqrt
  | gateSum | gateGrad | expertCounts
deriving DecidableEq, Repr

/-- Operands of an elementwise operation: store addresses of FP32 vectors, or of M48 vectors with the code of the rounding
mode (R143; log 5). A gated operation takes `count` elements of each of its lot's rows. -/
structure EltDesc where
  op : EltOp
  m48 : Option Nat
  a : Nat
  b : Nat
  c : Nat
  dst : Nat
  count : Nat
deriving DecidableEq, Repr

/-- Operands of a row operation (R57, R195, R58, R229; descriptor contents are log 5). `src`, `dst`, `dy`, `gain`, `target`
are tile-store addresses, `step` the bytes from one element of a row to the next; `xFmt` and `xScale` the format code of the
saved input and where its block scales lie (R193). `dGain` and `dBias` are addresses of 88-byte slots, in the tile store or
in SCRATCH (R198, R215). The lot's lees segment has `recCount` records from `firstRec`, its spilled ones begin at record
`spillFirst` of the spill space. `cols` is the number of value columns of a ring stage, `invN` the FP32 value of 1/n, or the
score factor of a ring stage, whose chunk's scores are kept at `scores` in SCRATCH, whose keys are admitted where the byte
map at `keys` is nonzero, and whose first backward sweep (`sweep`) forms the sums of the rows. `pDst` and `pSlot` say where
a backward softmax writes its probabilities. A ring stage's row operation with n = 0 forms outputs. -/
structure RowDesc where
  rows : Nat
  n : Nat
  step : Nat
  src : Nat
  xFmt : Nat
  xScale : Nat
  dst : Nat
  dy : Nat
  gain : Nat
  target : Nat
  dGain : Nat
  dBias : Nat
  cols : Nat
  firstRec : Nat
  recCount : Nat
  spillFirst : Nat
  scores : Option Nat
  keys : Option Nat
  sweep : Bool
  pDst : Option Nat
  pSlot : Nat
  invN : F32
  tabExp : Nat
  tabRcp : Nat
  seed : F32
  stash : StashUse
deriving DecidableEq, Repr

/-- Operands of UPDATE for whole blocks of 32 elements of one tensor (R169, R243; log 5). Addresses are
tile-store addresses of the reduced gradient (in format `gradFmt`), master, moments, forward copy, its
scales and its metadata; `elem` is the row-major index of the first element, `elemStep` from one element of
a block to the next, `blockStep` from one block to the next; `pattern` that of a sparse tensor; `norm2` the address of n2
(R167); `mom1Scale` and `mom2Scale` the block scales of moments in a narrow format. -/
structure UpdDesc where
  tensor : Nat
  slot : Nat
  wslot : Nat
  gradFmt : Nat
  grad : Nat
  master : Nat
  mom1 : Nat
  mom1Scale : Nat
  mom2 : Nat
  mom2Scale : Nat
  fwd : Nat
  fwdScale : Nat
  pattern : Nat
  idxAddr : Nat
  elem : Nat
  elemStep : Nat
  blockStep : Nat
  blocks : Nat
  norm2 : Nat
deriving DecidableEq, Repr

/-- Operands of a transpose conversion of one 32 x 32 square (R185, R186, R242, R245): 32 vectors of 32
elements, `srcStride` and `stride` bytes apart in the forward and the backward copy, their forward scales
`scaleStep` apart; the pattern and metadata of a compressed copy, and its place in a masked tensor. -/
structure TrDesc where
  fmt : Nat
  src : Nat
  srcScale : Nat
  srcStride : Nat
  scaleStep : Nat
  dst : Nat
  dstScale : Nat
  stride : Nat
  pattern : Nat
  idxAddr : Nat
  mask : Option MaskAt
deriving DecidableEq, Repr

/-- Operands of COMPRESS: groups of four masters of one column (R243). -/
structure CmpDesc where
  pattern : Nat
  master : Nat
  masterFmt : Nat
  idxAddr : Nat
  groups : Nat
deriving DecidableEq, Repr

/-- Operands of DW_ACCUMULATE: packed records and the accumulators they enter (R189, R190), the slots of the two operands
whose X give the alignment (R188; none for a bias gradient, R192), the store address of the token index that picks a row of
accumulators (R200), and the weight tensor with the place of the first element (R245). -/
structure DwDesc where
  src : Nat
  acc : Nat
  count : Nat
  slotA : Option Nat
  slotG : Nat
  token : Option Nat
  tensor : Nat
  elem : Nat
  elemStep : Nat
deriving DecidableEq, Repr

/-- Operands of the amax and finite count of an FP32 tensor part (R160, R175): where the amax of the slot so far is put for
the collective of R161, and the spare cask and line that take the squares of a clipped tensor's elements (R167). -/
structure AmaxDesc where
  slot : Nat
  src : Nat
  count : Nat
  dst : Option Nat
  norm : Option (Nat × Nat)
deriving DecidableEq, Repr

/-- Operands of a conversion between formats (R137). Format codes are those of R153. -/
structure ConvDesc where
  slot : Nat
  srcFmt : Nat
  src : Nat
  srcScale : Nat
  dst : Nat
  dstScale : Nat
  blocks : Nat
deriving DecidableEq, Repr

/-- Operands of COMPARE_COMBINE: FP32 vectors with the device each came from (R220). -/
structure CcDesc where
  takeMax : Bool
  a : Nat
  devA : Nat
  b : Nat
  devB : Nat
  dst : Nat
  count : Nat
deriving DecidableEq, Repr

/-- Header fields that the image fixes for a frame that a tile sends (R211). -/
structure FrameOut where
  route : Nat
  coll : Nat
  payload : Nat
  base : Nat
  count : Nat
deriving DecidableEq, Repr

/-- The endpoints of a transfer (R63). `fromLot`: the data lot at hand, from an offset. `toCask`: packed records into lines
of a spare cask (R215). `accToCask`: dW accumulators, at the alignment of the X of their operands' slots (R191). -/
inductive MoveKind where
  | toHbm (addr : Nat)
  | fromHbm (addr : Nat)
  | toTile (p t addr : Nat)
  | route (o : FrameOut)
  | fromLot (off : Nat)
  | toCask (cask line : Nat)
  | accToCask (cask line : Nat) (slotA : Option Nat) (slotG : Nat)
deriving DecidableEq, Repr

/-- Rows of the lot's assignments that a transfer gathers in slot order (R252, R253): of the assignments admitted to an expert,
or deferred there, its tokens' rows; or the rows returned for them, by (row, rank). -/
inductive Gather where
  | rows (expert : Nat) (deferred : Bool) (rowBytes : Nat)
  | returned (expert : Nat) (deferred : Bool) (rowBytes : Nat)
deriving DecidableEq, Repr

/-- Operands of a MOVE: its descriptor (log 5). -/
structure MoveDesc where
  kind : MoveKind
  loc : Nat
  len : Nat
  gather : Option Gather
  stash : StashUse
deriving DecidableEq, Repr

/-- Element payload types of a partial frame (R211). -/
structure Frame where
  w0 : Word
  w1 : Word
  w2 : Word
  recs : List Byte
deriving DecidableEq, Repr

/-- Fields the device reads from a DCT message and its datagram (R394 to R398). `wellSized` stands for
size, magic and version; `tagOk` for the AES-256-GCM tag (log 4); `reservedZero` for the reserved
fields. -/
structure DctHdr where
  session : Nat
  seq : Nat
  device : Nat
  anyDevice : Bool
  fromHost : Bool
  final : Bool
  evalFlag : Bool
  wellSized : Bool
  tagOk : Bool
  reservedZero : Bool
deriving DecidableEq, Repr

/-- The sealed envelope of a payload (R425): none, or its slot, whether it is well formed and whether
its tag verifies (log 4). -/
structure Envelope where
  present : Bool
  slot : Nat
  formed : Bool
  tagOk : Bool
deriving DecidableEq, Repr

/-- A non-finite verdict of a step (R176, R177): whether any SKIP count, FAIL count or OPT count is
nonzero, the tensors that counted, and the X values the host applied (R180). -/
structure Verdict where
  skip : Bool
  fail : Bool
  tensors : List Nat
  applied : List (Nat × Nat)
deriving DecidableEq, Repr

/-- What a device's slot of a tensor would change at the boundary (R159, R165, R177, R180): its X, the X it proposes where the
verdict skips the step, and where it does not. -/
structure ScaleProp where
  tensor : Nat
  loss : Bool
  x : Nat
  onSkip : Option Nat
  onPass : Option Nat
deriving DecidableEq, Repr

/-- A check report (R305 to R307, R311). `bits` are STEP_CHECK_STATUS [14:2]; `err` the code of a failure that is
not replayed (R305), 0 when there is none; `minority` the members that a REPLICA head found in the minority (R313);
`uncounted` marks a failure that comes of a reset or a graft alone (R312, R439); `image` is the digest of the reporter's
image (R266); `objects` the checkpoint objects written, by shard and partition, with their digests (R358). -/
structure CheckReport where
  vintage : Nat
  attempt : Nat
  device : Nat
  bits : Nat
  err : Nat
  minority : List Nat
  uncounted : Bool
  grad : BitVec 384
  shard : BitVec 384
  decant : Bool
  ckptDone : Bool
  image : BitVec 384
  objects : List (Nat × Nat × BitVec 384)
deriving DecidableEq, Repr

/-- A verdict report with its counts by recipe action (R176), and the changes of scale that it proposes (R180). -/
structure VerdictRep where
  vintage : Nat
  attempt : Nat
  device : Nat
  skipCount : Nat
  failCount : Nat
  tensors : List Nat
  props : List ScaleProp
deriving DecidableEq, Repr

/-- A region of a partition (R271, R291). -/
inductive RegionTy where
  | state | mirror | snap | cellar | stash | scratch | eval
deriving DecidableEq, Repr

structure Region where
  ty : RegionTy
  part : Nat
  base : Nat
  len : Nat
deriving DecidableEq, Repr

/-- A grant of memory to a tile (R271). -/
structure Grant where
  base : Nat
  len : Nat
  write : Bool
  forUpdate : Bool
deriving DecidableEq, Repr

/-- A router source (R248 to R251): routed count, list length, quota and overflow policy of each expert, defer quota, tokens
per lot, and the top-k DRAINs that complete the lists of a lot. -/
structure RouterCfg where
  k : Nat
  kList : Nat
  quotas : List Nat
  policies : List Nat
  deferQuota : Nat
  tokens : Nat
  parts : Nat
deriving DecidableEq, Repr

/-- A sequence ring of a stage (R226 to R228), with the route that passes chunks on, the collective that brings them, and
the frames of one chunk. -/
structure RingCfg where
  size : Nat
  index : Nat
  zigzag : Bool
  causal : Bool
  length : Nat
  route : Nat
  coll : Nat
  frames : Nat
deriving DecidableEq, Repr

/-- Kinds of collective (R218 to R221). -/
inductive CollKind where
  | sum | min | max | gather | alltoall
deriving DecidableEq, Repr

/-- A reduction or collective as one owner sees it (R211 to R222). `slotBase` is the address of its cask slots (88 bytes
each) or of its placed bytes, in the tile store or in SCRATCH; `comb` the combination of its casks (0 sum, 1 minimum, 2
maximum), `tree` its scheme (R219); a source's blocks lie `srcStride` apart, by its place among the contributors (R221).
`amax`: the tensor whose amax it combines (R161). `ret`: the expert whose results it returns, to (row, rank) (R252).
`full`: its frames come on a route marked FULL (R309). -/
structure Coll where
  id : Nat
  kind : CollKind
  owner : TileRef
  contributors : List (Nat × Nat × Nat)
  space : Nat
  expected : Nat
  slotBase : Nat
  srcStride : Nat
  recBytes : Nat
  counter : Nat
  timeoutUs : Nat
  comb : Nat
  tree : Bool
  amax : Option Nat
  ret : Option Nat
  full : Bool
deriving DecidableEq, Repr

/-- An output route of a stage: the header of its frames, and where the input that BYPASS forwards lies (R255). -/
structure OutRoute where
  frame : FrameOut
  src : Nat
  len : Nat
deriving DecidableEq, Repr

/-- A tile record (R268) with the tile it names, its tensor slots and stage data. `schedule` is the stage's
order of phases in STEP (R203, R275): (backward, lot) pairs; `evalStage` marks a stage for evaluation (R277); `spans`
the first and the last word of each span of its forward phase (R205); `outs` its output routes (R255). `leesLot` counts the
lees records of one lot (R197); `loads` gives LOAD words with the slot of the tensor they read and whether they read its
backward copy (R184), `dws` the slots of the two operands of each dW product (R182, R188), `products` the PASS words of
forward products with whether their dX and their dW product are run (R182). -/
structure TileRec where
  p : Nat
  t : Nat
  program : Option Nat
  funcs : Option Nat
  leesFirst : Nat
  leesCount : Nat
  leesSpill : Nat
  grants : List Grant
  t1 : Nat
  t1Len : Nat
  t2 : Nat
  t2Len : Nat
  t3Quota : Nat
  recompute : Bool
  rbuf : Nat
  rbufKib : Nat
  topk : Word
  sparse : Nat
  slots : List (Nat × Nat)
  router : Option RouterCfg
  ring : Option RingCfg
  forUpdate : Bool
  schedule : List (Bool × Nat)
  evalStage : Bool
  spans : List (Nat × Nat × Nat)
  outs : List OutRoute
  leesLot : Nat
  loads : List (Nat × Nat × Bool)
  dws : List (Nat × Nat)
  products : List (Nat × Bool × Bool) := []
deriving DecidableEq, Repr

/-- A device entry of DEVICES (R273). -/
structure DevEntry where
  id : Nat
  role : Nat
  b1 : Option Nat
  b2 : Option Nat
  tensor : Nat
  pipeline : Nat
  replica : Nat
  domain : Nat
  job : Nat
  extra : List Nat
  spare : Bool
  stateLen : List Nat
deriving DecidableEq, Repr

/-- A tensor descriptor (R152, R260). `mask`: the bitmap of masked blocks, bit i for block i in row-major order (R244). -/
structure Tensor where
  id : Nat
  kind : Nat
  mult : F32
  rows : Nat
  cols : Nat
  stateAddr : Nat
  histAddr : Nat
  repack : Nat
  masked : Bool
  mask : Nat
  clip : Bool
deriving DecidableEq, Repr

/-- An entry of a port die's transit table (R374): destination, primary and alternate groups. -/
structure Transit where
  dest : Nat
  primary : Nat
  alternate : Nat
  dateline : Bool
deriving DecidableEq, Repr

/-- A logical route (R272): its source tile, its destination, its fabric path, its credit count; its VC class and the datelines
that it crosses by the transit tables of the role (R374, R375; log 6). -/
structure Route where
  id : Nat
  src : TileRef
  dst : Nat
  tile : TileRef
  path : List Nat
  credits : Nat
  vc : Nat
  datelines : Nat
deriving DecidableEq, Repr

/-- The sections of one role (R260): expected peers are (port, peer) pairs; a port listed with none
has the mark "none"; a port not listed takes any peer. -/
structure RolePart where
  role : Nat
  regions : List Region
  programs : List (List Word)
  tiles : List TileRec
  funcs : List (List (Nat × BitVec 32))
  colls : List Coll
  peers : List (Nat × Option (Nat × Nat))
  groups : List Nat
  transit : List Transit
  cellarNeed : List Nat
  routes : List Route := []
deriving DecidableEq, Repr

/-- The step program (R275) and the ckpt item (R354). -/
structure StepProg where
  lots : Nat
  lotSize : Nat
  lotBytes : Nat
  lr : List (Nat × F32)
  b1 : F32
  b2 : F32
  eps : F32
  wd : F32
  maxnorm : F32
  evalPeriod : Nat
  evalPhase : Nat
  ckptPeriod : Nat
  endpoints : Nat
  deadlineMs : Nat
  last : Nat
deriving DecidableEq, Repr

/-- The decoded sections of an image (R260; their byte layouts are log 6). -/
structure Image where
  devices : List DevEntry
  groupBytes : List Byte
  tensors : List Tensor
  recipes : List Word
  formats : List Word
  step : StepProg
  roles : List RolePart
deriving DecidableEq, Repr

/-- What the device finds of the bytes of an image (logs 4 and 6): whether both signatures verify, whether every
section decodes in full, whether the analyses of whole programs and products that the validator makes pass, whether
DEVICES decodes, and the decoded sections. -/
structure ImageIn where
  sigOk : Bool
  decodes : Bool
  programsOk : Bool
  devicesOk : Bool
  img : Image
deriving DecidableEq, Repr

/-- Scale state of a tensor in a manifest's tensor table (R360). -/
structure TensorState where
  tensor : Nat
  x : Nat
  action : Nat
  hold : Nat
  t : Nat
  sinceBackoff : Nat
  hist : List F32
deriving DecidableEq, Repr

/-- A licence (R427) as the licensing CA issued it, and whether its signature block verifies (R414). -/
structure Lic where
  serial : BitVec 128
  issue : Nat
  gradeF : Bool
  ports : Nat
  features : Nat
  ownerHash : Nat
  verifies : Bool
deriving DecidableEq, Repr

/-- A firmware copy (R415, R463). -/
structure Firmware where
  svn : Nat
  major : Nat
  minor : Nat
  build : Nat
  verifies : Bool
deriving DecidableEq, Repr

/-- A FENCE message (R326, R331). -/
structure FenceMsg where
  fenced : Nat
  head : Nat
  ts : Nat
  reason : Nat
  reporters : Nat
deriving DecidableEq, Repr

/-- A flit as the receiver's decoder hands it on (R368, R369): header, whether its CRC-32C holds, whether
it overlaps an uncorrectable codeword, how many codewords were corrected, and its payload. -/
structure FlitIn where
  hdr : Word
  crcOk : Bool
  uncorr : Bool
  corr : Nat
  payload : List Byte
deriving DecidableEq, Repr

/-- The packet header of the first flit (R374), with the port it came in on (none: originated here). -/
structure Packet where
  dst : Nat
  src : Nat
  route : Nat
  seq : Nat
  flits : Nat
  vc : Nat
  last : Bool
  via : Option Nat
deriving DecidableEq, Repr

/-- A lane reading of a health scan (R383): eye height in percent, symbol errors per 10^8 symbols. -/
structure LaneScan where
  lane : Nat
  eye : Nat
  csym : Nat
  errE8 : Nat
deriving DecidableEq, Repr

/-- A lane as training found it (R379): the sender's lane number and its inversion. -/
structure TrainIn where
  lane : Nat
  sender : Nat
  inverted : Bool
  precode : Bool
  peerDev : Nat
  peerPort : Nat
deriving DecidableEq, Repr

/-- A HELLO exchange (R416, R417): hash of the owner public key and whether the signature verifies. -/
structure HelloIn where
  ownerHash : Nat
  sigOk : Bool
  bytes : Nat
  t : Nat
deriving DecidableEq, Repr

/-- A wrapped key (R422) and whether it unwraps under the present sealing pair (log 4). -/
structure WrapIn where
  slot : Nat
  keyId : Nat
  sealGen : Nat
  unwraps : Bool
  key : Word
deriving DecidableEq, Repr

/-- Site and unit results of a test: site number, failing units (bits of SITE_BIST [20:0]) at the first
test and at the retest. -/
structure SiteRes where
  p : Nat
  s : Nat
  first : Nat
  retest : Nat
deriving DecidableEq, Repr

/-- The object of a reset (R432, R435): an engine of a tile, a memory port, a router, a partition or
every partition. -/
inductive Scope where
  | unit (p t u : Nat)
  | memPort (p k pch : Nat)
  | router (p : Nat)
  | part (p : Nat)
  | compute
deriving DecidableEq, Repr

/-- A patrol-scrub result (R285): clean, corrected, uncorrectable, or an on-die severity report. -/
inductive ScrubRes where
  | clean | corrected | uncorrectable | onDie
deriving DecidableEq, Repr

/-- Telemetry of R456: temperatures in degrees C and voltages in mV. -/
structure Telemetry where
  tjMax : Nat
  tj : List Nat
  hbm : List Nat
  vout : List Nat
  rate : List Nat
  faults : Nat
deriving DecidableEq, Repr

/-- Open-drain outputs the module reads back (R485). -/
inductive OutPin where
  | pwrGood | faultN | thermTripN
deriving DecidableEq, Repr

/-- Results of stage 2 (R465). -/
structure Stage2In where
  pllOk : Bool
  tileLinksOk : Bool
  die0Ok : Bool
  dies : List Bool
  ms : Nat
deriving DecidableEq, Repr

/-- Results of stage 3 (R466): stacks that answered per partition, training, repairs. -/
structure Stage3In where
  missingStack : Bool
  phyFail : Bool
  unrepairable : Bool
  memStacks : List Nat
  repaired : List (Nat × Nat)
  hpprLeft : Nat
  storeFails : List (Nat × Nat)
  ms : Nat
deriving DecidableEq, Repr

/-- The commands. Each constructor is one row of spec/opcode_table.json. -/
inductive Instr where
  -- tile units and the stage program
  | load (tl : TileRef) (d : LoadDesc) (ecc : Ecc)
  | pass (tl : TileRef) (mask : Option MaskAt) (badVec : Option Nat)
  | swap (tl : TileRef) (array : Nat)
  | passDrained (tl : TileRef) (array : Nat)
  | drain (tl : TileRef) (d : DrainDesc) (m : StoreIn)
  | row (tl : TileRef) (d : RowDesc) (ecc : Ecc) (race : Option RaceIn)
  | spanRecompute (tl : TileRef) (lot span : Nat)
  | vecFp32Elementwise (tl : TileRef) (x : OnStore EltDesc)
  | update (tl : TileRef) (x : OnStore UpdDesc)
  | transposeConversion (tl : TileRef) (x : OnStore TrDesc)
  | compress (tl : TileRef) (x : OnStore CmpDesc)
  | dwAccumulate (tl : TileRef) (x : OnStore DwDesc)
  | amaxAndFiniteCount (tl : TileRef) (x : OnStore AmaxDesc)
  | conversion (tl : TileRef) (x : OnStore ConvDesc)
  | compareCombine (tl : TileRef) (x : OnStore CcDesc)
  | move (tl : TileRef) (d : MoveDesc) (ecc : Ecc)
  | transferComplete (tl : TileRef) (ch : Nat) (race : Option RaceIn)
  | copyOnWrite (p page : Nat) (ue : Bool)
  | syncSet (tl : TileRef)
  | syncInc (tl : TileRef)
  | syncWait (tl : TileRef)
  | waitSatisfied (tl : TileRef)
  | loopBegin (f : FlowIn)
  | loopEnd (tl : TileRef)
  | branchOnLoopCount (tl : TileRef)
  | predicate (p t : Nat) (ecc : Ecc)
  | endOfPhase (tl : TileRef)
  | mark (tl : TileRef) (stallUs : Nat)
  | tileHeartbeat (tl : TileRef)
  | tileGraft (tl : TileRef) (quickFail : List Nat)
  | bistStart (who : Who) (tl : TileRef) (value : Word)
  | selfTestComplete (p site fails : Nat)
  | funcTableAccess (who : Who) (tl : TileRef) (value : Word)
  -- frames and the step protocol
  | partialFrame (tl : TileRef) (f : Frame)
  | dataFeed (h : DctHdr) (vintage lot offset : Nat) (bytes : List Byte) (env : Envelope)
  | verdictReport
  | verdict (vintage attempt : Nat) (v : Verdict)
  | stepCheck (grad shard : BitVec 384)
  | checkReport (r : CheckReport)
  | agreementDeadline (vintage attempt : Nat)
  | commit (vintage : Nat) (pause : Bool)
  | evaluationEnd
  | rollback (vintage attempt stop : Nat)
  | replayStart
  | rackPage (buddy p page : Nat) (bytes : List Byte)
  | rackDigest (buddy p vintage : Nat) (digest : BitVec 384)
  | rackAck (buddy p vintage : Nat) (ok : Bool)
  | decisionAns (h : DctHdr) (request answer : Nat) (value : Word)
  | dutyDeadlineExpiry (request : Nat)
  | ledgerPull (h : DctHdr) (part count first : Nat)
  -- durable checkpoints
  | checkpointObjectAck (p : Nat) (digest : BitVec 384)
  | checkpointObjectTimeout (p : Nat)
  | checkpointDeadline
  | manifestWrite
  -- step control
  | start (h : DctHdr)
  | resume (h : DctHdr)
  | pause (h : DctHdr)
  | eval (h : DctHdr)
  | ckpt (h : DctHdr)
  | restore (h : DctHdr) (cands : List (Nat × Nat))
  | restoreCommit (vintage gen : Nat) (state : List (Nat × List Byte)) (scales : List TensorState)
  | endJob (h : DctHdr)
  | evalReq (who : Who) (value : Word)
  | pauseReq (who : Who) (value : Word)
  | epochStart
  | imageLoad (h : DctHdr) (offset : Nat) (bytes : List Byte) (inp : ImageIn)
  | imageCommit
  -- fault domains and grafts
  | beatSend
  | beat (src ts : Nat) (st : BeatFrom) (progress : Nat)
  | beatMiss (member : Nat)
  | report (reporter accused ts : Nat)
  | reportWaitExpiry (accused : Nat)
  | selfFail (src ts cause : Nat)
  | fence (m : FenceMsg)
  | wake (spare fenced epoch instant : Nat)
  | deviceSelfTest (fails : List SiteRes) (hbmOk exvOk : Bool)
  | stateLoad (p vintage : Nat) (pages : List (List Byte)) (digest : BitVec 384) (scales : List TensorState)
  | takeOver (attempt : Nat) (running : Bool)
  | graftDone (newId former source vintage : Nat)
  | planned (who : Who) (value : Word)
  | hostFence (who : Who) (value : Word)
  | admitDevice (who : Who) (value : Word)
  | admissionTestComplete (fails : List SiteRes) (memOk linksOk exvOk : Bool)
  -- hangs and resets
  | hang (vintage attempt : Nat)
  | replayDeadlineExpiry
  | tileUnitWatchdog (tl : TileRef) (unit : Nat)
  | heartbeatWatchdog (tl : TileRef)
  | collectiveWaitExpiry (tl : TileRef) (coll : Nat)
  | memoryPortWatchdog (p k pch : Nat)
  | routerWatchdog (p : Nat) (dieLink : Bool)
  | rootstockWatchdog (standbyServes : Bool)
  | resetTimeout (sc : Scope)
  | resetComplete (sc : Scope) (fails : List SiteRes)
  | compute (who : Who) (value : Word)
  | retireClear (who : Who) (value : Word)
  | partResetGo (who : Who) (p : Nat) (value : Word)
  | fenceCtlFence (who : Who) (p : Nat) (value : Word)
  -- fabric links
  | flitBundle (n : Nat) (flits : List FlitIn) (tagOk : Bool)
  | nakResend (n ack : Nat)
  | keepaliveSend (n : Nat)
  | keepalive (n dev port ts devState : Nat) (squelch tagOk : Bool)
  | keepaliveMiss (n : Nat)
  | retrainTimeout (n : Nat)
  | retrainComplete (n : Nat)
  | detectTimeout (n : Nat) (energised : Nat)
  | train (n : Nat) (t : TrainIn)
  | laneShort (n lane : Nat)
  | fecLock (n : Nat)
  | linkKeyExchange (n : Nat) (ok : Bool)
  | laneFailure (n lane : Nat) (lockLost : Bool)
  | dampingRelease (n : Nat) (lane : Option Nat)
  | healthScan (n : Nat) (scan : LaneScan)
  | cmisPoll (n temp laserPct : Nat)
  | moduleSilent (n : Nat)
  | timeExchange (n t1 t2 t3 t4 hops peer : Nat)
  | packetForward (pk : Packet) (whole : Bool)
  | e2eAck (route seq : Nat)
  | e2eResend (route seq : Nat)
  | abort (n route seq : Nat)
  | qualify (who : Who) (n : Nat) (value : Word)
  | retrain (who : Who) (n : Nat) (value : Word)
  | disable (who : Who) (n : Nat) (value : Word)
  -- security and sessions
  | hello (h : DctHdr) (x : HelloIn)
  | finish (h : DctHdr) (t : Nat)
  | wrapped (h : DctHdr) (w : WrapIn)
  | erase (h : DctHdr) (mask : Nat)
  | licence (h : DctHdr) (offset : Nat) (bytes : List Byte) (lic : Lic)
  | debugToken (h : DctHdr) (offset : Nat) (bytes : List Byte) (nonce : Nat) (sigOk : Bool)
  | pendingSessionTimeout (session : Nat)
  | sessionIdleTimeout (session : Nat)
  | attestReport (h : DctHdr) (nonce : Nat)
  | attestReadReport (h : DctHdr) (count offset : Nat)
  | attestReadChain (h : DctHdr) (count offset : Nat)
  | sealRenew (who : Who) (value : Word)
  | relock (who : Who) (value : Word)
  -- DCT registers, bulk, replies
  | regRead (h : DctHdr) (addrs : List Word)
  | regWrite (h : DctHdr) (pairs : List (Word × Word))
  | bulkWrite (h : DctHdr) (object : Bool) (addr offset : Nat) (bytes : List Byte) (env : Envelope)
  | bulkRead (h : DctHdr) (object : Bool) (addr offset count slot : Nat)
  | ack (h : DctHdr) (ackSeq : Nat)
  | nak (h : DctHdr) (ackSeq code : Nat)
  | eventRetransmit (session seq : Nat)
  | devIdAssign (who : Who) (value : Word)
  | softClear (who : Who) (value : Word)
  | dormantTableWrite (who : Who) (value : Word)
  -- power
  | powerActive (who : Who) (value : Word)
  | powerIdle (who : Who) (value : Word)
  | powerRetain (who : Who) (value : Word)
  | powerDormant (who : Who) (value : Word)
  | powerOff (who : Who) (value : Word)
  | deferReask
  | dormantWake (sources : List Int)
  | avsTimeout (p : Nat)
  | readPinSample (watts avg : Nat)
  | readPinLoss
  | pmbusTelemetry (t : Telemetry)
  | balancingLoop (w : List Nat)
  | thermalThrottle (p tj hbm : Nat)
  | thermalTrip (p : Nat)
  | patrolScrub (p k pch unit : Nat) (r : ScrubRes)
  | stackTemperatureReadout (p k temp : Nat)
  | refreshManagement (p k : Nat)
  -- power signals and bring-up
  | powerUp
  | powerDown
  | resetN
  | stage1FirmwareAndLicence (ms : Nat)
  | stage2Clocks (r : Stage2In)
  | stage3Memories (r : Stage3In)
  | stage4Links (up : List Nat) (ethRates : List Nat) (ms : Nat)
  | stage5Reconciliation (fails : List SiteRes) (ms : Nat)
  | stageBudgetExpiry
  | recoveryBegin (len : Nat)
  | recoveryData (offset : Nat) (bytes : List Byte)
  | recoveryEnd (fw : Firmware)
  | i3cRegisterWrite (addr value : Word)
  | setdasa (addr : Nat)
  | entdaa (addr : Nat)
  | inputUndervoltage (mv us : Nat)
  | inputOvervoltage (mv us : Nat)
  | sensePairOpen
  | sensePairRestored
  | sidebandShort (pin : OutPin)
  | refclkLoss
  | refclkHoldoverExpiry
  | refclkReturn
  | ppsEdge (freq : Int)
  | ppsLoss
  | ethLinkChange (e : Nat) (up : Bool) (rate : Nat)
  | routerAdvertisement (e : Nat) (pfx : Nat) (router : Nat)
  | neighbourDiscovery (e : Nat) (asker target : Nat)
  | arp (e : Nat) (asker target : Nat)
  | icmpEcho (e : Nat) (asker : Nat) (v6 : Bool) (data : Nat)
  | ptpEventMessage (e : Nat) (asker kind : Nat)
  -- later rows
  | verdictReportReceived (r : VerdictRep)
  | restoreReport (device stage code : Nat)
  | avsVdone (p : Nat)
  | portDieLoss (d : Nat)
  | internalRailShort
  | resetNRelease
  | trstN
deriving DecidableEq, Repr

end Sys2Proof
end

