-- ==== Sys2Proof/Decode.lean ====
section
/-!
DEFINITION. Commands spelled by words. spec/opcode_table.json gives no row any bits: a command reaches the
device as an event with operands, so no word spells one.
-/
namespace Sys2Proof

/-- The command that a word of the table's bits spells: the table gives none. -/
def decodeTableWord (_nbits _w : Nat) : Option Instr := none

end Sys2Proof
end

