-- ==== Sys2Proof/Machine/Fields.lean ====
section
/-!
DEFINITION. Bit fields of the registers, from the field maps of spec/ (R9, R12), and the masks of their
access codes: Rw, Wo, W1c, W1s and Rc name the bits of a register that carry the code.
-/
namespace Sys2Proof.Machine

/-- A field of bits hi down to lo (R9). -/
structure Field where
  hi : Nat
  lo : Nat
deriving DecidableEq, Repr

/-- All ones in the field's place. -/
def Field.mask (f : Field) : Word := BitVec.ofNat 64 ((2 ^ (f.hi + 1 - f.lo) - 1) * 2 ^ f.lo)

/-- The value of a field. -/
def getF (w : Word) (f : Field) : Nat := (w.toNat / 2 ^ f.lo) % 2 ^ (f.hi + 1 - f.lo)

/-- The word with a field set to the low bits of `v`. -/
def setF (w : Word) (f : Field) (v : Nat) : Word :=
  BitVec.ofNat 64 (w.toNat % 2 ^ f.lo + (v % 2 ^ (f.hi + 1 - f.lo)) * 2 ^ f.lo
    + (w.toNat / 2 ^ (f.hi + 1)) * 2 ^ (f.hi + 1))

/-- A one-bit field as a truth value. -/
def flagF (w : Word) (f : Field) : Bool := getF w f == 1

/-- Add to a counter field that saturates at all ones. -/
def bumpF (w : Word) (f : Field) (n : Nat) : Word := setF w f (min (getF w f + n) (2 ^ (f.hi + 1 - f.lo) - 1))

def bit (b : Bool) : Nat := if b then 1 else 0

/-- Lane k of LNK_LANE_MAP: eight bits (R389). -/
def laneMap_logical (k : Nat) : Field := ⟨8 * k + 7, 8 * k + 5⟩
def laneMap_inv (k : Nat) : Field := ⟨8 * k + 4, 8 * k + 4⟩
def laneMap_precode (k : Nat) : Field := ⟨8 * k + 3, 8 * k + 3⟩
def laneMap_status (k : Nat) : Field := ⟨8 * k + 2, 8 * k⟩

/-- The rail code of partition p in RAIL_SET (R460). -/
def railSet_vset (p : Nat) : Field := ⟨8 * p + 7, 8 * p⟩
def railSet_maskRw : Word := 0xffffffffffffffff

/-! TILE_CTL -/
def tileCtl_hbPeriod : Field := ⟨31, 24⟩
def tileCtl_bistMode : Field := ⟨19, 16⟩
def tileCtl_bistStart : Field := ⟨8, 8⟩
def tileCtl_ledgerDetail : Field := ⟨7, 6⟩
def tileCtl_maskRw : Word := 0xff0f00c0
def tileCtl_maskWo : Word := 0x100
/-! TILE_STATUS -/
def tileStatus_progress : Field := ⟨63, 48⟩
def tileStatus_sbEcc : Field := ⟨47, 32⟩
def tileStatus_s12For : Field := ⟨27, 24⟩
def tileStatus_faultCode : Field := ⟨23, 16⟩
def tileStatus_storeRace : Field := ⟨11, 11⟩
def tileStatus_dbEcc : Field := ⟨10, 10⟩
def tileStatus_bistResult : Field := ⟨9, 8⟩
def tileStatus_tileState : Field := ⟨2, 0⟩
def tileStatus_maskW1c : Word := 0xc00
def tileStatus_maskRc : Word := 0xffff00000000
/-! TILE_MAP -/
def tileMap_graftCount : Field := ⟨39, 32⟩
def tileMap_prevSite : Field := ⟨31, 24⟩
def tileMap_site : Field := ⟨23, 16⟩
/-! SITE_BIST -/
def siteBist_logicalT : Field := ⟨39, 32⟩
def siteBist_siteRole : Field := ⟨31, 24⟩
def siteBist_syncFail : Field := ⟨20, 20⟩
def siteBist_xferFail : Field := ⟨19, 19⟩
def siteBist_seqFail : Field := ⟨18, 18⟩
def siteBist_vectorFail : Field := ⟨17, 17⟩
def siteBist_rowFail : Field := ⟨16, 16⟩
def siteBist_caskFail : Field := ⟨15, 15⟩
def siteBist_storeFail : Field := ⟨14, 14⟩
def siteBist_lFail : Field := ⟨13, 13⟩
def siteBist_arrayFail : Field := ⟨12, 0⟩
/-! TOPK_CTL -/
def topkCtl_nanDrop : Field := ⟨63, 48⟩
def topkCtl_dupDrop : Field := ⟨47, 40⟩
def topkCtl_listBase : Field := ⟨37, 19⟩
def topkCtl_outKeep : Field := ⟨16, 16⟩
def topkCtl_order : Field := ⟨12, 12⟩
def topkCtl_k : Field := ⟨8, 0⟩
def topkCtl_maskRw : Word := 0x3ffff911ff
def topkCtl_maskRc : Word := 0xffffff0000000000
/-! FMT_TABLE -/
def fmtTable_valid : Field := ⟨31, 31⟩
def fmtTable_width : Field := ⟨27, 24⟩
def fmtTable_ebits : Field := ⟨23, 20⟩
def fmtTable_bias : Field := ⟨19, 12⟩
def fmtTable_special : Field := ⟨11, 10⟩
def fmtTable_maskRw : Word := 0x8ffffc00
/-! FUNC_TABLE -/
def funcTable_data : Field := ⟨63, 32⟩
def funcTable_wr : Field := ⟨16, 16⟩
def funcTable_table : Field := ⟨15, 13⟩
def funcTable_segment : Field := ⟨12, 5⟩
def funcTable_word : Field := ⟨4, 2⟩
def funcTable_maskRw : Word := 0xffffffff0000fffc
def funcTable_maskWo : Word := 0x10000
/-! NUM_FLAGS -/
def numFlags_nanOut : Field := ⟨63, 48⟩
def numFlags_infOut : Field := ⟨47, 32⟩
def numFlags_satOut : Field := ⟨31, 16⟩
def numFlags_pkBad : Field := ⟨15, 8⟩
def numFlags_caskOvf : Field := ⟨0, 0⟩
def numFlags_maskW1c : Word := 0x1
def numFlags_maskRc : Word := 0xffffffffffffff00
/-! SCALE_HIST -/
def scaleHist_data : Field := ⟨63, 32⟩
def scaleHist_slot : Field := ⟨21, 16⟩
def scaleHist_entry : Field := ⟨15, 8⟩
def scaleHist_word : Field := ⟨2, 0⟩
def scaleHist_maskRw : Word := 0x3fff07
/-! STASH_STATUS -/
def stashStatus_recSpans : Field := ⟨63, 48⟩
def stashStatus_spills : Field := ⟨47, 32⟩
def stashStatus_ovfPeak : Field := ⟨31, 12⟩
def stashStatus_exhausted : Field := ⟨3, 3⟩
def stashStatus_policy : Field := ⟨1, 0⟩
def stashStatus_maskW1c : Word := 0x8
def stashStatus_maskRc : Word := 0xffffffff00000000
/-! RED_STATUS -/
def redStatus_stale : Field := ⟨63, 48⟩
def redStatus_dup : Field := ⟨47, 40⟩
def redStatus_badFrames : Field := ⟨39, 32⟩
def redStatus_ringSize : Field := ⟨28, 16⟩
def redStatus_rotation : Field := ⟨15, 4⟩
def redStatus_collWait : Field := ⟨0, 0⟩
def redStatus_maskRc : Word := 0xffffffff00000000
/-! SPARSE_CTL -/
def sparseCtl_metaBad : Field := ⟨63, 56⟩
def sparseCtl_dropped : Field := ⟨55, 40⟩
def sparseCtl_rerouted : Field := ⟨39, 24⟩
def sparseCtl_deferred : Field := ⟨23, 8⟩
def sparseCtl_ovfPolicy : Field := ⟨7, 6⟩
def sparseCtl_pattern : Field := ⟨3, 2⟩
def sparseCtl_blockMask : Field := ⟨1, 1⟩
def sparseCtl_maskRc : Word := 0xffffffffffffff00
/-! MEM_CTL -/
def memCtl_scrubHours : Field := ⟨15, 8⟩
def memCtl_ecsEn : Field := ⟨1, 1⟩
def memCtl_scrubEn : Field := ⟨0, 0⟩
def memCtl_maskRw : Word := 0xff03
/-! MEM_ECC_COUNTS -/
def memEccCounts_ceCount : Field := ⟨63, 48⟩
def memEccCounts_ueCount : Field := ⟨47, 40⟩
def memEccCounts_ondieCount : Field := ⟨39, 32⟩
def memEccCounts_lastPch : Field := ⟨31, 27⟩
def memEccCounts_lastUnit : Field := ⟨21, 0⟩
def memEccCounts_maskRc : Word := 0xffffffff00000000
/-! MEM_REPAIR -/
def memRepair_hpprUsed : Field := ⟨63, 56⟩
def memRepair_hpprLeft : Field := ⟨55, 48⟩
def memRepair_softRows : Field := ⟨47, 40⟩
def memRepair_failedPch : Field := ⟨31, 0⟩
/-! STEP_CTL -/
def stepCtl_agreeMs : Field := ⟨31, 24⟩
def stepCtl_replayMax : Field := ⟨23, 20⟩
def stepCtl_evalReq : Field := ⟨2, 2⟩
def stepCtl_pauseReq : Field := ⟨1, 1⟩
def stepCtl_maskRw : Word := 0xfff00000
def stepCtl_maskW1s : Word := 0x6
/-! VINTAGE_OPEN -/
def vintageOpen_attempt : Field := ⟨63, 48⟩
def vintageOpen_vintage : Field := ⟨47, 0⟩
/-! VINTAGE_COMMITTED -/
def vintageCommitted_rackState : Field := ⟨49, 48⟩
def vintageCommitted_vintage : Field := ⟨47, 0⟩
/-! STEP_CHECK_STATUS -/
def stepCheckStatus_chkVintage : Field := ⟨63, 32⟩
def stepCheckStatus_attempt : Field := ⟨27, 24⟩
def stepCheckStatus_rackDigest : Field := ⟨14, 14⟩
def stepCheckStatus_stash : Field := ⟨13, 13⟩
def stepCheckStatus_ue : Field := ⟨12, 12⟩
def stepCheckStatus_tile : Field := ⟨11, 11⟩
def stepCheckStatus_divergent : Field := ⟨10, 10⟩
def stepCheckStatus_meta : Field := ⟨9, 9⟩
def stepCheckStatus_packed : Field := ⟨8, 8⟩
def stepCheckStatus_frame : Field := ⟨7, 7⟩
def stepCheckStatus_rack : Field := ⟨6, 6⟩
def stepCheckStatus_digState : Field := ⟨5, 5⟩
def stepCheckStatus_digGrad : Field := ⟨4, 4⟩
def stepCheckStatus_numeric : Field := ⟨3, 3⟩
def stepCheckStatus_minority : Field := ⟨2, 2⟩
def stepCheckStatus_result : Field := ⟨1, 0⟩
/-! CELLAR_STATUS -/
def cellarStatus_usedMib : Field := ⟨63, 40⟩
def cellarStatus_peakMib : Field := ⟨39, 16⟩
def cellarStatus_held : Field := ⟨15, 8⟩
/-! LEDGER_PTR -/
def ledgerPtr_lost : Field := ⟨63, 48⟩
def ledgerPtr_part : Field := ⟨42, 40⟩
def ledgerPtr_head : Field := ⟨21, 0⟩
def ledgerPtr_maskRw : Word := 0x70000000000
def ledgerPtr_maskRc : Word := 0xffff000000000000
/-! BUDDY_ID -/
def buddyId_b2Valid : Field := ⟨33, 33⟩
def buddyId_b1Valid : Field := ⟨32, 32⟩
def buddyId_buddy2 : Field := ⟨31, 16⟩
def buddyId_buddy1 : Field := ⟨15, 0⟩
/-! MIRROR_DEGREE -/
def mirrorDegree_degree : Field := ⟨1, 0⟩
/-! RACK_STATUS -/
def rackStatus_mismatches : Field := ⟨63, 48⟩
def rackStatus_inB2 : Field := ⟨47, 40⟩
def rackStatus_inB1 : Field := ⟨39, 32⟩
def rackStatus_ackB2 : Field := ⟨23, 16⟩
def rackStatus_ackB1 : Field := ⟨15, 8⟩
def rackStatus_maskRc : Word := 0xffff000000000000
/-! RACK_PROGRESS -/
def rackProgress_pagesSent : Field := ⟨63, 40⟩
def rackProgress_pagesTotal : Field := ⟨39, 16⟩
/-! SNAP_POOL_STATUS -/
def snapPoolStatus_copied : Field := ⟨63, 40⟩
def snapPoolStatus_peak : Field := ⟨39, 16⟩
/-! GRAFT_CTL -/
def graftCtl_target : Field := ⟨63, 48⟩
def graftCtl_spare : Field := ⟨47, 32⟩
def graftCtl_auto : Field := ⟨3, 3⟩
def graftCtl_op : Field := ⟨2, 1⟩
def graftCtl_go : Field := ⟨0, 0⟩
def graftCtl_maskRw : Word := 0xffffffff0000000e
def graftCtl_maskWo : Word := 0x1
/-! GRAFT_STATUS -/
def graftStatus_target : Field := ⟨63, 48⟩
def graftStatus_spare : Field := ⟨47, 32⟩
def graftStatus_err : Field := ⟨31, 16⟩
def graftStatus_phase : Field := ⟨15, 12⟩
def graftStatus_source : Field := ⟨11, 10⟩
def graftStatus_sparesLeft : Field := ⟨9, 0⟩
/-! FD_CFG -/
def fdCfg_head : Field := ⟨63, 48⟩
def fdCfg_deputy : Field := ⟨47, 32⟩
def fdCfg_suppressMs : Field := ⟨31, 24⟩
def fdCfg_q : Field := ⟨23, 20⟩
def fdCfg_missHb : Field := ⟨19, 16⟩
def fdCfg_domainSize : Field := ⟨10, 0⟩
def fdCfg_maskRw : Word := 0xffff0000
/-! FENCE_LIST -/
def fenceList_fencedId : Field := ⟨63, 48⟩
def fenceList_status : Field := ⟨47, 46⟩
def fenceList_reason : Field := ⟨45, 42⟩
def fenceList_reporters : Field := ⟨41, 31⟩
def fenceList_reports : Field := ⟨30, 21⟩
def fenceList_index : Field := ⟨20, 11⟩
def fenceList_count : Field := ⟨10, 0⟩
def fenceList_maskRw : Word := 0x1ff800
/-! LNK_CTL -/
def lnkCtl_scanS : Field := ⟨15, 8⟩
def lnkCtl_qualify : Field := ⟨4, 4⟩
def lnkCtl_retrain : Field := ⟨3, 3⟩
def lnkCtl_disable : Field := ⟨2, 2⟩
def lnkCtl_maskRw : Word := 0xff04
def lnkCtl_maskWo : Word := 0x18
/-! LNK_STATUS -/
def lnkStatus_peerDev : Field := ⟨63, 48⟩
def lnkStatus_peerPort : Field := ⟨47, 42⟩
def lnkStatus_state : Field := ⟨41, 38⟩
def lnkStatus_width : Field := ⟨37, 35⟩
def lnkStatus_spareUsed : Field := ⟨34, 34⟩
def lnkStatus_downCause : Field := ⟨33, 30⟩
def lnkStatus_retrains : Field := ⟨29, 22⟩
def lnkStatus_authFail : Field := ⟨21, 14⟩
def lnkStatus_e2eDup : Field := ⟨13, 6⟩
def lnkStatus_unreach : Field := ⟨5, 1⟩
def lnkStatus_up : Field := ⟨0, 0⟩
def lnkStatus_maskRc : Word := 0x3ffffffe
/-! LNK_LANE_MAP -/
/-! LNK_HEALTH -/
def lnkHealth_eyePct : Field := ⟨63, 56⟩
def lnkHealth_csymMs : Field := ⟨55, 40⟩
def lnkHealth_laserPct : Field := ⟨39, 32⟩
def lnkHealth_modTemp : Field := ⟨31, 24⟩
def lnkHealth_verdict : Field := ⟨23, 22⟩
def lnkHealth_lane : Field := ⟨2, 0⟩
def lnkHealth_maskRw : Word := 0x7
/-! LNK_FLAP_TABLE -/
def lnkFlapTable_holdMaxS : Field := ⟨63, 56⟩
def lnkFlapTable_halfLife : Field := ⟨55, 48⟩
def lnkFlapTable_suppress : Field := ⟨47, 32⟩
def lnkFlapTable_reuse : Field := ⟨31, 16⟩
def lnkFlapTable_penalty : Field := ⟨15, 0⟩
def lnkFlapTable_maskRw : Word := 0xffffffffffffffff
/-! LNK_FEC_COUNTS -/
def lnkFecCounts_cwCorr : Field := ⟨63, 32⟩
def lnkFecCounts_cwUncorr : Field := ⟨31, 16⟩
def lnkFecCounts_naks : Field := ⟨15, 0⟩
def lnkFecCounts_maskRc : Word := 0xffffffffffffffff
/-! TS_NOW -/
def tsNow_ts : Field := ⟨63, 0⟩
/-! TS_OFFSET -/
def tsOffset_offset : Field := ⟨63, 0⟩
/-! TS_SYNC_CTL -/
def tsSyncCtl_ppsEn : Field := ⟨0, 0⟩
def tsSyncCtl_maskRw : Word := 0x1
/-! TS_SYNC_STATUS -/
def tsSyncStatus_parent : Field := ⟨63, 48⟩
def tsSyncStatus_parentPort : Field := ⟨47, 42⟩
def tsSyncStatus_hops : Field := ⟨41, 36⟩
def tsSyncStatus_locked : Field := ⟨35, 35⟩
def tsSyncStatus_ppsLocked : Field := ⟨34, 34⟩
def tsSyncStatus_offEst : Field := ⟨31, 16⟩
def tsSyncStatus_freq : Field := ⟨15, 0⟩
/-! ETH_PORT_CTL -/
def ethPortCtl_ipv4 : Field := ⟨63, 32⟩
def ethPortCtl_ipv4Prefix : Field := ⟨31, 26⟩
def ethPortCtl_slaac : Field := ⟨12, 12⟩
def ethPortCtl_speed : Field := ⟨11, 10⟩
def ethPortCtl_enable : Field := ⟨0, 0⟩
def ethPortCtl_maskRw : Word := 0xfffffffffc001c01
/-! ETH_STATUS -/
def ethStatus_mac : Field := ⟨63, 16⟩
def ethStatus_rate : Field := ⟨15, 14⟩
def ethStatus_anDone : Field := ⟨13, 13⟩
def ethStatus_flaps : Field := ⟨12, 5⟩
def ethStatus_up : Field := ⟨0, 0⟩
def ethStatus_maskRc : Word := 0x1fe0
/-! DCT_CFG -/
def dctCfg_udpPort : Field := ⟨63, 48⟩
def dctCfg_mtu : Field := ⟨47, 34⟩
def dctCfg_rtoMs : Field := ⟨31, 24⟩
def dctCfg_retries : Field := ⟨23, 20⟩
def dctCfg_idleS : Field := ⟨15, 0⟩
def dctCfg_maskRw : Word := 0xfffffffcfff0ffff
/-! DCT_COUNTERS -/
def dctCounters_tagFail : Field := ⟨63, 48⟩
def dctCounters_dup : Field := ⟨47, 32⟩
def dctCounters_dropped : Field := ⟨31, 16⟩
def dctCounters_evLost : Field := ⟨15, 8⟩
def dctCounters_sessions : Field := ⟨3, 0⟩
def dctCounters_maskRc : Word := 0xffffffffffffff00
/-! SEC_MODE -/
def secMode_licIssue : Field := ⟨63, 32⟩
def secMode_fwSvn : Field := ⟨31, 24⟩
def secMode_standbyOk : Field := ⟨4, 4⟩
def secMode_core : Field := ⟨3, 3⟩
def secMode_jobKeys : Field := ⟨2, 2⟩
def secMode_sealed : Field := ⟨1, 1⟩
def secMode_prod : Field := ⟨0, 0⟩
/-! ATTEST_CTL -/
def attestCtl_reports : Field := ⟨63, 48⟩
def attestCtl_held : Field := ⟨1, 1⟩
def attestCtl_sealRenew : Field := ⟨0, 0⟩
def attestCtl_maskWo : Word := 0x1
def attestCtl_maskRc : Word := 0xffff000000000000
/-! KEY_SLOT_STATUS -/
def keySlotStatus_sessions : Field := ⟨63, 56⟩
def keySlotStatus_slots : Field := ⟨47, 32⟩
def keySlotStatus_ckKeyId : Field := ⟨31, 0⟩
/-! DEBUG_LOCK -/
def debugLock_state : Field := ⟨2, 1⟩
def debugLock_relock : Field := ⟨0, 0⟩
def debugLock_maskWo : Word := 0x1
/-! RST_CTL -/
def rstCtl_unitMs : Field := ⟨47, 40⟩
def rstCtl_mem100us : Field := ⟨39, 32⟩
def rstCtl_net100us : Field := ⟨31, 24⟩
def rstCtl_retireClear : Field := ⟨3, 3⟩
def rstCtl_compute : Field := ⟨2, 2⟩
def rstCtl_maskRw : Word := 0xffffff000000
def rstCtl_maskWo : Word := 0xc
/-! RST_ESC_TABLE -/
def rstEscTable_partWindowS : Field := ⟨63, 48⟩
def rstEscTable_partCount : Field := ⟨47, 44⟩
def rstEscTable_compWindowS : Field := ⟨43, 28⟩
def rstEscTable_compCount : Field := ⟨27, 24⟩
def rstEscTable_maskRw : Word := 0xffffffffff000000
/-! RST_HISTORY -/
def rstHistory_compInWindow : Field := ⟨63, 56⟩
def rstHistory_hung : Field := ⟨55, 48⟩
def rstHistory_lastLevel : Field := ⟨47, 40⟩
def rstHistory_lastCause : Field := ⟨39, 32⟩
def rstHistory_lastParts : Field := ⟨31, 24⟩
def rstHistory_resets : Field := ⟨23, 8⟩
def rstHistory_retiredParts : Field := ⟨7, 0⟩
def rstHistory_maskRc : Word := 0xff000000ffff00
/-! PART_CTL -/
def partCtl_captureDetail : Field := ⟨1, 0⟩
def partCtl_maskRw : Word := 0x3
/-! PART_STATUS -/
def partStatus_inWindow : Field := ⟨63, 56⟩
def partStatus_partResets : Field := ⟨55, 48⟩
def partStatus_engineResets : Field := ⟨47, 32⟩
def partStatus_lastCause : Field := ⟨31, 24⟩
def partStatus_pstate : Field := ⟨2, 0⟩
def partStatus_maskRc : Word := 0xffffff00000000
/-! FENCE_CTL -/
def fenceCtl_fence : Field := ⟨0, 0⟩
def fenceCtl_maskW1s : Word := 0x1
/-! FENCE_STATUS -/
def fenceStatus_refused : Field := ⟨63, 48⟩
def fenceStatus_errored : Field := ⟨47, 32⟩
def fenceStatus_drainUs : Field := ⟨31, 16⟩
def fenceStatus_reason : Field := ⟨7, 4⟩
def fenceStatus_fenced : Field := ⟨0, 0⟩
def fenceStatus_maskRc : Word := 0xffffffff00000000
/-! PART_RESET -/
def partReset_go : Field := ⟨0, 0⟩
def partReset_maskWo : Word := 0x1
/-! CAPTURE_PTR -/
def capturePtr_held : Field := ⟨39, 32⟩
def capturePtr_next : Field := ⟨31, 28⟩
/-! PWR_STATE -/
def pwrState_pinW : Field := ⟨63, 48⟩
def pwrState_pinAvgW : Field := ⟨47, 32⟩
def pwrState_tjMax : Field := ⟨31, 24⟩
def pwrState_excursions : Field := ⟨23, 16⟩
def pwrState_state : Field := ⟨2, 0⟩
def pwrState_maskRc : Word := 0xff0000
/-! PWR_REQ -/
def pwrReq_deferMs : Field := ⟨15, 8⟩
def pwrReq_deferMax : Field := ⟨7, 4⟩
def pwrReq_go : Field := ⟨3, 3⟩
def pwrReq_target : Field := ⟨2, 0⟩
def pwrReq_maskRw : Word := 0xfff7
def pwrReq_maskWo : Word := 0x8
/-! PWR_HANDSHAKE_STATUS -/
def pwrHandshakeStatus_accepted : Field := ⟨45, 32⟩
def pwrHandshakeStatus_refuser : Field := ⟨31, 24⟩
def pwrHandshakeStatus_reason : Field := ⟨23, 20⟩
def pwrHandshakeStatus_defers : Field := ⟨19, 16⟩
def pwrHandshakeStatus_target : Field := ⟨7, 5⟩
def pwrHandshakeStatus_result : Field := ⟨4, 2⟩
/-! RAIL_SET -/
/-! RAIL_STATUS -/
def railStatus_fault : Field := ⟨63, 56⟩
def railStatus_off : Field := ⟨55, 48⟩
def railStatus_settling : Field := ⟨47, 40⟩
def railStatus_rateMhz : Field := ⟨39, 28⟩
def railStatus_vout : Field := ⟨27, 20⟩
def railStatus_avsTimeouts : Field := ⟨19, 12⟩
def railStatus_pmbusFaults : Field := ⟨11, 4⟩
def railStatus_part : Field := ⟨2, 0⟩
def railStatus_maskRw : Word := 0x7
def railStatus_maskRc : Word := 0xffff0
/-! DORMANT_CFG -/
def dormantCfg_wakes : Field := ⟨63, 32⟩
def dormantCfg_lastHit : Field := ⟨31, 24⟩
def dormantCfg_period100us : Field := ⟨15, 0⟩
def dormantCfg_maskRw : Word := 0xffff
def dormantCfg_maskRc : Word := 0xffffffff00000000
/-! DORMANT_TABLE -/
def dormantTable_threshold : Field := ⟨63, 32⟩
def dormantTable_source : Field := ⟨31, 28⟩
def dormantTable_cmp : Field := ⟨27, 26⟩
def dormantTable_action : Field := ⟨25, 23⟩
def dormantTable_valid : Field := ⟨22, 22⟩
def dormantTable_wr : Field := ⟨8, 8⟩
def dormantTable_index : Field := ⟨3, 0⟩
def dormantTable_maskRw : Word := 0xffffffffffc0000f
def dormantTable_maskWo : Word := 0x100
/-! THERM_LIMITS -/
def thermLimits_tjThrottle : Field := ⟨63, 56⟩
def thermLimits_tjTrip : Field := ⟨55, 48⟩
def thermLimits_hbmThrottle : Field := ⟨47, 40⟩
def thermLimits_hbmTrip : Field := ⟨39, 32⟩
def thermLimits_pSustainW : Field := ⟨31, 16⟩
def thermLimits_pPeakW : Field := ⟨15, 0⟩
def thermLimits_maskRw : Word := 0xffffffff00000000
/-! BOOT_STAGE -/
def bootStage_stage : Field := ⟨63, 60⟩
def bootStage_t1Ms : Field := ⟨59, 48⟩
def bootStage_t2Ms : Field := ⟨47, 36⟩
def bootStage_t3Ms : Field := ⟨35, 24⟩
def bootStage_t4Ms : Field := ⟨23, 12⟩
def bootStage_t5Ms : Field := ⟨11, 0⟩
/-! BOOT_STATUS -/
def bootStatus_err : Field := ⟨63, 48⟩
def bootStatus_st5 : Field := ⟨47, 40⟩
def bootStatus_st4 : Field := ⟨39, 32⟩
def bootStatus_st3 : Field := ⟨31, 24⟩
def bootStatus_st2 : Field := ⟨23, 16⟩
def bootStatus_st1 : Field := ⟨15, 8⟩
def bootStatus_passes : Field := ⟨7, 0⟩
/-! FW_VERSION -/
def fwVersion_romVer : Field := ⟨63, 56⟩
def fwVersion_fwSvn : Field := ⟨55, 48⟩
def fwVersion_major : Field := ⟨47, 40⟩
def fwVersion_minor : Field := ⟨39, 32⟩
def fwVersion_build : Field := ⟨31, 16⟩
def fwVersion_fuseSvn : Field := ⟨15, 8⟩
def fwVersion_copy : Field := ⟨1, 1⟩
def fwVersion_fallback : Field := ⟨0, 0⟩
/-! LICENCE_STATUS -/
def licenceStatus_storedIssue : Field := ⟨63, 32⟩
def licenceStatus_stored : Field := ⟨31, 30⟩
def licenceStatus_grade : Field := ⟨29, 29⟩
def licenceStatus_applied : Field := ⟨28, 28⟩
def licenceStatus_portsApplied : Field := ⟨27, 22⟩
def licenceStatus_portsLicensed : Field := ⟨21, 16⟩
def licenceStatus_featApplied : Field := ⟨15, 12⟩
def licenceStatus_featStored : Field := ⟨11, 8⟩
/-! YIELD_SUMMARY -/
def yieldSummary_usable : Field := ⟨63, 56⟩
def yieldSummary_spares : Field := ⟨55, 48⟩
def yieldSummary_bad : Field := ⟨47, 40⟩
def yieldSummary_s12Used : Field := ⟨39, 32⟩
def yieldSummary_retestPass : Field := ⟨31, 24⟩
def yieldSummary_softNew : Field := ⟨23, 16⟩
def yieldSummary_softTotal : Field := ⟨15, 8⟩
def yieldSummary_softClear : Field := ⟨7, 7⟩
def yieldSummary_short : Field := ⟨3, 3⟩
def yieldSummary_part : Field := ⟨2, 0⟩
def yieldSummary_maskRw : Word := 0x7
def yieldSummary_maskWo : Word := 0x80
/-! DEV_ID -/
def devId_assigned : Field := ⟨16, 16⟩
def devId_id : Field := ⟨15, 0⟩
/-! DEV_ID_ASSIGN -/
def devIdAssign_go : Field := ⟨16, 16⟩
def devIdAssign_newId : Field := ⟨15, 0⟩
def devIdAssign_maskRw : Word := 0xffff
def devIdAssign_maskWo : Word := 0x10000
/-! DEV_SERIAL -/
def devSerial_serial : Field := ⟨63, 0⟩
/-! DEV_CAPS -/
def devCaps_portsEnabled : Field := ⟨61, 56⟩
def devCaps_portsPresent : Field := ⟨55, 50⟩
def devCaps_pdiesFused : Field := ⟨49, 47⟩
def devCaps_pdiesPresent : Field := ⟨46, 44⟩
def devCaps_stacksFused : Field := ⟨43, 41⟩
def devCaps_stacksPresent : Field := ⟨40, 38⟩
def devCaps_tiles : Field := ⟨37, 30⟩
def devCaps_feat : Field := ⟨3, 0⟩
/-! DEV_STATE -/
def devState_prevState : Field := ⟨23, 16⟩
def devState_spare : Field := ⟨8, 8⟩
def devState_state : Field := ⟨7, 0⟩
/-! DUTY_MAP -/
def dutyMap_duties : Field := ⟨7, 0⟩
def dutyMap_maskRw : Word := 0xff
/-! DUTY_DEADLINE -/
def dutyDeadline_deadlineMs : Field := ⟨15, 0⟩
def dutyDeadline_maskRw : Word := 0xffff
/-! ERR_LAST -/
def errLast_code : Field := ⟨63, 48⟩
def errLast_source : Field := ⟨47, 44⟩
def errLast_count : Field := ⟨39, 32⟩
def errLast_ms : Field := ⟨31, 0⟩
def errLast_maskRc : Word := 0xff00000000
/-! EVENT_CTL -/
def eventCtl_suppressed : Field := ⟨63, 32⟩
def eventCtl_mask : Field := ⟨9, 0⟩
def eventCtl_maskRw : Word := 0x3ff
def eventCtl_maskRc : Word := 0xffffffff00000000
end Sys2Proof.Machine
end

