-- ==== Sys2Proof/Config.lean ====
section
/-!
DEFINITION. What the spec leaves open: free values and the external functions the model does not
evaluate. Each is an opaque constant without a body, so no proof can use a value of it
(log entries 4, 12, 13 and 15).
-/
namespace Sys2Proof.Config

/-- DESIGN CHOICE (log 4). SHA-384 of a byte string: an external standard the spec names (R64, R259,
R302) and does not define. Left uninterpreted. -/
opaque sha384 : List Byte → BitVec 384

/-- DESIGN CHOICE (log 13). R86: the contents of masked stationary registers are undefined; what
cell `key` of a set loaded under the given format index holds there. -/
opaque undefElem : Nat → Nat → Nat

/-- DESIGN CHOICE (log 12). The spec gives forward row operations no rounding sequence for their
statistics (R57 names them only). `fwdStat kind row`: the statistic of a row of FP32 values. -/
opaque fwdStat : Nat → List F32 → F32

/-- DESIGN CHOICE (log 12). A forward row result the spec names and gives no formula for. -/
opaque fwdOut : Nat → List F32 → Nat → F32

/-- DESIGN CHOICE (log 12). R195 names the rotation of a row by its position and gives no angles and no order of operations:
the angle at an element, and element j of a row rotated by a list of angles. -/
opaque angle : Nat → Nat → F32
opaque rotated : List F32 → List F32 → Nat → F32

/-- DESIGN CHOICE (log 20). R243 orders masters by magnitude, which a NaN has none of: which positions COMPRESS keeps of a
group with the given master codes under a pattern. -/
opaque nanKeep : Nat → List Nat → Nat

/-- DESIGN CHOICE (log 4). R351 and R352 name AES-256-GCM and HKDF-SHA-384 and do not define them: the ciphertext and tag of a
chunk of a partition object, by the names that its key comes of (CK, job, ckpt_gen, vintage, shard, partition), its number and
its bytes. -/
opaque sealChunk : List Nat → Nat → List (BitVec 8) → List (BitVec 8)

/-- DESIGN CHOICE (log 15). A value the device draws (salts, nonces, key material): the `n`-th draw. -/
opaque drawn : Nat → Word

/-- DESIGN CHOICE (log 21). R144 names a 72-bit constant log2(e) and not how it is rounded to 72 bits:
whether it is rounded up. -/
opaque log2eUp : Bool

/-- DESIGN CHOICE (log 20). The bytes of a capture's records, which R437 names and gives no layout for: byte
`i` of the capture taken at `ts` in partition `p`. -/
opaque captured : Nat → Nat → Nat → BitVec 8

/-- DESIGN CHOICE (log 20). A value the spec states no result for: the `n`-th free value. -/
opaque free : Nat → Word

end Sys2Proof.Config
end

