-- ==== Sys2Proof/Machine/State.lean ====
section
/-!
DEFINITION. The state of one Driso module, the reasons a step can stop, and the state after reset.
Registers are 64-bit words under their own names; what they are built from and what the spec gives
the machine beside them stands in the structures here. INVENTORY.md lists each with its rule.
-/
namespace Sys2Proof.Machine

/-! ## Tiles: casks, arrays, loaders, sequencer, transfers, scales, stash -/

/-- Combination a cask holds (R127). -/
inductive CaskKind where
  | sum | min | max
deriving DecidableEq, Repr

/-- One line of a cask (R53, R127). -/
structure Line where
  value : CaskWord
  nan : Bool
  pinf : Bool
  ninf : Bool
  ovf : Bool
  kind : CaskKind
  empty : Bool
deriving DecidableEq, Repr

/-- A written-out line: exact +0, empty (R55, R127). -/
def Line.reset : Line :=
  { value := 0, nan := false, pinf := false, ninf := false, ovf := false, kind := .sum, empty := true }

/-- A stationary set (R72, R75, R239, R510). `cleared`: every register exact +0. Otherwise `elems` holds the
codes of the loaded cells, `rowMask` and `colMask` the extent of the LOAD, beyond which cells are
undefined (R86), `blocks` the masked 16 x 16 blocks, whose cells are absent (R244), `scales` the E8M0
scales by column * 4 + block, unlisted ones 0x7F, and `badGroups` (column, count) of malformed 2:4 groups
(R240). -/
structure StatSet where
  fmt : Nat
  pattern : Nat
  cleared : Bool
  elems : List (Nat × Nat)
  rowMask : Nat
  colMask : Nat
  scales : List (Nat × Nat)
  badGroups : List (Nat × Nat)
  blocks : List (Nat × Nat)
deriving DecidableEq, Repr

/-- Every stationary register exact +0, every scale 0x7F (R510). DESIGN CHOICE (log 73): the spec gives a cleared set no
element format; it has that of format-table entry 0. -/
def StatSet.reset : StatSet :=
  { fmt := 0, pattern := 0, cleared := true, elems := [], rowMask := 0, colMask := 0, scales := [], badGroups := [], blocks := [] }

/-- A pass an array holds (R60, R74): its instruction word, whether its vectors have entered, and the first vector
whose partial the residue check will reject (R50). -/
structure PassOp where
  word : Word
  rowMask : Nat
  colMask : Nat
  entered : Bool
  bad : Option Nat
deriving DecidableEq, Repr

/-- An array with its active and shadow sets (R75 to R80) and the passes it holds, oldest first. -/
structure Arr where
  active : StatSet
  shadow : StatSet
  complete : Bool
  untaken : Bool
  passes : List PassOp
  failed : Bool
deriving DecidableEq, Repr

def Arr.reset : Arr :=
  { active := StatSet.reset, shadow := StatSet.reset, complete := true, untaken := false, passes := [], failed := false }

/-- The moving stream a loader holds (R75): its instruction word, its descriptor words and its extent, and the single X
that stands for every block's scale (R183). -/
structure Stream where
  word : Word
  d0 : Word
  d1 : Word
  mask : Word
  x : Option Nat
deriving DecidableEq, Repr

/-- A lees record (R57). -/
structure Lees where
  max : F32
  sum : F32
  mean : F32
  rstd : F32
deriving DecidableEq, Repr

def Lees.reset : Lees := { max := 0, sum := 0, mean := 0, rstd := 0 }

/-- An open loop (R512): first word of the body, word of the loop end, iterations left. -/
structure Loop where
  body : Nat
  endAt : Nat
  left : Nat
deriving DecidableEq, Repr

/-- A span run again (R205): its number, its last word, and where the sequencer goes on after it. -/
structure Redo where
  span : Nat
  last : Nat
  index : Nat
  loops : List Loop
deriving DecidableEq, Repr

/-- The stage sequencer (R60, R61, R512). `redo`: the span that is run again. `pos` is the place in the stage's schedule (R203); `held` says since when and
for which stall code of R317 it waits to issue (R62). -/
structure Seq where
  index : Nat
  pos : Nat
  loops : List Loop
  wait : Option (Nat × Nat)
  lot : Nat
  evaluating : Bool
  inRows : Nat
  skipped : List Nat
  held : Option (Nat × Nat)
  redo : Option Redo
deriving DecidableEq, Repr

def Seq.reset : Seq :=
  { index := 0, pos := 0, loops := [], wait := none, lot := 0, evaluating := false, inRows := 0, skipped := [],
    held := none, redo := none }

/-- A transfer in flight on a channel (R63), with the TS64 and the lot it was issued in; `rerun` when a span that is run
again issued it (R205). -/
structure Xfer where
  word : Word
  d : MoveDesc
  bytes : List Byte
  since : Nat
  lot : Nat
  rerun : Bool
deriving DecidableEq, Repr

/-- A channel of the transfer engine: its transfers, oldest first, whether a fence halted it (R436), and the digest of
the latest transfer that carried the digest flag (R64). -/
structure Chan where
  queue : List Xfer
  halted : Bool
  digest : Option (BitVec 384)
deriving DecidableEq, Repr

def Chan.reset : Chan := { queue := [], halted := false, digest := none }

/-- A tensor slot of SCALE_HIST (R157 to R181). `hold` steps remain in which X is not below `floor` (R177). -/
structure Slot where
  valid : Bool
  tensor : Nat
  kind : Nat
  recipe : Word
  x : Nat
  hist : List F32
  amax : F32
  nonfinite : Nat
  action : Nat
  hold : Nat
  floor : Nat
  sinceBackoff : Nat
  sinceSkip : Nat
  t : Nat
  mult : F32
deriving DecidableEq, Repr

def Slot.reset : Slot :=
  { valid := false, tensor := 0, kind := 0, recipe := 0, x := 0, hist := [], amax := 0,
    nonfinite := 0, action := 0, hold := 0, floor := 0, sinceBackoff := 0, sinceSkip := 0, t := 0, mult := 0 }

/-- A stash entry (R202): its order of saving within its lot, lot, span, tier, first granule, granules, and
whether it is a stash point. Tier 4 is the recompute buffer (R205). -/
structure StashEntry where
  num : Nat
  lot : Nat
  span : Nat
  tier : Nat
  first : Nat
  len : Nat
  point : Bool
deriving DecidableEq, Repr

/-- The activation stash of a tile (R202 to R209): its entries, the dropped (lot, span) pairs with the number of the span's
first entry, the entries saved per lot, and the (lot, span) that the recompute buffer holds. `peakHeld`: ovf_peak keeps what
an exhaustion left there (R210). -/
structure Stash where
  entries : List StashEntry
  dropped : List (Nat × Nat × Nat)
  saved : List (Nat × Nat)
  rebuilt : Option (Nat × Nat)
  peakHeld : Bool
deriving DecidableEq, Repr

def Stash.reset : Stash := { entries := [], dropped := [], saved := [], rebuilt := none, peakHeld := false }

/-- Identity of an accepted frame (R213). -/
structure FrameId where
  dev : Nat
  p : Nat
  t : Nat
  coll : Nat
  base : Nat
  vintage : Nat
  attempt : Nat
deriving DecidableEq, Repr

/-- An assignment of a token to an expert (R249): token index, rank, expert, admission slot. -/
structure Assign where
  token : Nat
  rank : Nat
  expert : Nat
  slot : Nat
deriving DecidableEq, Repr

/-- A logical tile p.t. `rowIn` and `vecIn` hold the bytes of the latest write-out that a DRAIN handed to the
row engine and to the vector unit (R55); `slotsB` holds the scale state of the latest boundary, the copy of the
history records in STATE (R162). `ringSent` and `ringGot` count the frames of the ring that the tile has passed on in the
present rotation and has taken since the sweep began (R228); `routeParts` the top-k DRAINs of the lot at a router. -/
structure Tile where
  -- registers (R69)
  ctl : Word
  status : Word
  map : Word
  fmt : Sparse Word
  numFlags : Word
  stashStatus : Word
  redStatus : Word
  sparseCtl : Word
  topkCtl : Word
  -- contents
  store : List Host.Cell
  casks : Sparse Line
  arrays : Sparse Arr
  rowIn : List Byte
  vecIn : List Byte
  loaderA : Option Stream
  loaderB : Option Stream
  lees : Sparse Lees
  counters : Sparse Nat
  prog : Sparse Word
  funcs : Sparse (BitVec 32)
  seq : Seq
  chans : Sparse Chan
  slots : Sparse Slot
  slotsB : Sparse Slot
  stash : Stash
  admitted : List Assign
  deferred : List Assign
  routeParts : Nat
  ringSent : Nat
  ringGot : Nat
  accepted : List FrameId
  record : Option TileRec
  ueInJob : Nat
  raceInJob : Nat
  marks : Sparse Nat
  heartbeat : Nat
deriving DecidableEq, Repr

/-- A tile with every register at its Reset column and nothing loaded. -/
def Tile.reset : Tile :=
  { ctl := 0x10000040, status := 0x0f000001, map := 0xff000000, fmt := [], numFlags := 0, stashStatus := 0,
    redStatus := 0, sparseCtl := 0, topkCtl := 0,
    store := [], casks := [], arrays := [], rowIn := [], vecIn := [], loaderA := none, loaderB := none, lees := [], counters := [],
    prog := [], funcs := [], seq := Seq.reset, chans := [], slots := [], slotsB := [], stash := Stash.reset, admitted := [],
    deferred := [], routeParts := 0, ringSent := 0, ringGot := 0, accepted := [], record := none, ueInJob := 0, raceInJob := 0, marks := [], heartbeat := 0 }

/-- A physical tile site p:s (R71). -/
structure Site where
  bist : Word
  mode : Nat
  running : Bool
deriving DecidableEq, Repr

def Site.reset : Site := { bist := 0xff03000000, mode := 0, running := false }

/-! ## Memory -/

/-- The registers of one stack and its counts (R286, R288, R299). -/
structure Stack where
  ctl : Word
  ecc : Word
  repair : Word
  ueInJob : Sparse Nat
  rowCe : Sparse Nat
  temp : Nat
deriving DecidableEq, Repr

def Stack.reset : Stack := { ctl := 0x1803, ecc := 0, repair := 0, ueInJob := [], rowCe := [], temp := 0 }

/-- A page map entry (R294). -/
structure PageEntry where
  copied : Bool
  racked : Bool
  snap : Nat
  live : Nat
deriving DecidableEq, Repr

/-- A ledger record (R317). -/
structure LedgerRec where
  ts : Nat
  device : Nat
  seq : Nat
  vintage : Nat
  attempt : Nat
  cls : Nat
  code : Nat
  part : Nat
  tile : Nat
  epoch : Nat
  arg : Nat
deriving DecidableEq, Repr

/-- A ledger ring (R317, R318): slots by index, head, records lost, slots already delivered. -/
structure Ring where
  recs : List (Nat × LedgerRec)
  head : Nat
  lost : Nat
  undelivered : List Nat
deriving DecidableEq, Repr

def Ring.reset : Ring := { recs := [], head := 0, lost := 0, undelivered := [] }

/-- What a capture records of one site (R437). -/
structure SiteCap where
  site : Nat
  state : Nat
  fault : Nat
  arrays : List (Nat × List PassOp)
  loaderA : Option Stream
  loaderB : Option Stream
  counters : Sparse Nat
  index : Nat
  loops : List Loop
  chans : Sparse Chan
  marks : Sparse Nat
deriving DecidableEq, Repr

/-- A capture: its header, and its site records (R437). -/
structure Capture where
  level : Nat
  cause : Nat
  object : Nat
  ts : Nat
  vintage : Nat
  attempt : Nat
  bytes : Nat
  sites : List SiteCap
deriving DecidableEq, Repr

/-- A partition: its registers (R448), rail (R455), page map (R294), ledger and captures. -/
structure Part where
  ctl : Word
  status : Word
  fenceCtl : Word
  fenceStatus : Word
  capturePtr : Word
  captures : List (Nat × Capture)
  resetStarts : List Nat
  yield : Word
  verdicts : List (Nat × Nat)
  pages : List PageEntry
  ledger : Ring
  rail : Nat
  queued : Option Nat
  avsRetried : Bool
  hot : Bool
  vout : Nat
  rate : Nat
  tj : Nat
  hbmTemp : Nat
deriving DecidableEq, Repr

def Part.reset : Part :=
  { ctl := 1, status := 0, fenceCtl := 0, fenceStatus := 0, capturePtr := 0, captures := [], resetStarts := [],
    yield := 0, verdicts := [], pages := [], ledger := Ring.reset, rail := 0x64, queued := none,
    avsRetried := false, hot := false, vout := 0, rate := 0, tj := 0, hbmTemp := 0 }

/-! ## Fabric ports -/

/-- What a port knows of one lane (R379 to R383): `penalty` is its flap figure as it stood at `penAt`, in
units of 100 ms (R382). -/
structure Lane where
  health : Word
  warns : Nat
  penalty : Nat
  penAt : Nat
  dampedAt : Option Nat
  mapped : Option Nat
deriving DecidableEq, Repr

/-- LNK_HEALTH of a lane at reset, its selector bits 0. -/
def Lane.reset : Lane := { health := 0x000000ff80000000, warns := 0, penalty := 0, penAt := 0, dampedAt := none, mapped := none }

/-- A packet an origin holds until its end-to-end acknowledgement (R376), with the port it used and when it was sent last. -/
structure Held where
  pk : Packet
  port : Option Nat
  resends : Nat
  sentAt : Nat := 0
deriving DecidableEq, Repr

/-- What a destination has accepted of one source and route (R376). -/
structure Seen where
  src : Nat
  route : Nat
  upTo : Nat
  above : List Nat
deriving DecidableEq, Repr

/-- A packet whose first flits have been forwarded and whose last has not (R377): the ports it came in and
goes out on. -/
structure Partial where
  route : Nat
  seq : Nat
  via : Option Nat
  out : Nat
deriving DecidableEq, Repr

/-- A fabric port Fn (R369 to R389). `used` counts the flits sent per virtual channel without a returned credit
(R373), `retry` the sequence numbers unacknowledged (R372), `naks` the NAKs sent in a row for one number,
`downAt` when the port was declared down, `asked` that the host asked for the present exit from ACTIVE, `linkDelay` the delay the last TIME exchange measured, `hops`
what the neighbour advertises (R388). -/
structure Port where
  ctl : Word
  status : Word
  laneMap : Word
  flap : Word
  fec : Word
  lanes : Sparse Lane
  penalty : Nat
  penAt : Nat
  dampedAt : Option Nat
  txSeq : Nat
  rxSeq : Nat
  txc : Nat
  retry : List Nat
  used : Sparse Nat
  naks : Nat
  downAt : Option Nat
  asked : Bool
  hops : Nat
  linkDelay : Int
  keyGen : Nat
  authTimes : List Nat
  kaMissed : Nat
  retrainAt : Nat
  retrainCause : Nat
  squelchSeen : Bool
  squelchedFor : Option Nat
  dieLost : Bool
  swapDue : Option Nat
deriving DecidableEq, Repr

def Port.reset : Port :=
  { ctl := 0xa00, status := 0xfffffc0000000000, laneMap := 0xe0e0e0e0e0, flap := 0x3c640bb802ee03e8, fec := 0,
    lanes := [], penalty := 0, penAt := 0, dampedAt := none, txSeq := 0, rxSeq := 0, txc := 0, retry := [],
    used := [], naks := 0, downAt := none, asked := false, hops := 0x3f, linkDelay := 0,
    keyGen := 0, authTimes := [], kaMissed := 0, retrainAt := 0, retrainCause := 0,
    squelchSeen := false, squelchedFor := none, dieLost := false, swapDue := none }

/-! ## Register blocks -/

/-- DEVICE block (R501). -/
structure DevRegs where
  id : Word
  idAssign : Word
  caps : Word
  state : Word
  dutyMap : Word
  dutyDeadline : Word
  errLast : Word
  eventCtl : Word
deriving DecidableEq, Repr

def DevRegs.reset : DevRegs :=
  { id := 0, idAssign := 0, caps := 0, state := 1, dutyMap := 0, dutyDeadline := 0x32, errLast := 0, eventCtl := 0x3ff }

/-- ROOTSTOCK block (R475) but for YIELD_SUMMARY, which each partition holds. -/
structure BootRegs where
  stage : Word
  status : Word
  fw : Word
  lic : Word
deriving DecidableEq, Repr

def BootRegs.reset : BootRegs := { stage := 0, status := 0, fw := 0, lic := 0 }

/-- TIMEBASE block (R390): the free-running count of port die 0, TS_OFFSET, and the sync registers; `stepped` once the
discipline of this image has stepped the count (R17). -/
structure TimeRegs where
  count : Nat
  offset : Int
  syncCtl : Word
  syncStatus : Word
  epochE : Option Nat
  epoch : Nat
  stepped : Bool
deriving DecidableEq, Repr

def TimeRegs.reset : TimeRegs :=
  { count := 0, offset := 0, syncCtl := 0, syncStatus := 0xfffffff000000000, epochE := none, epoch := 0, stepped := false }

/-- POWER block (R460) and what the power controller keeps. -/
structure PowRegs where
  state : Word
  req : Word
  hs : Word
  railSet : Word
  railStatus : Word
  dormantCfg : Word
  table : Sparse Word
  therm : Word
  defers : List (Nat × Nat)
  excursionAt : Option Nat
  falls : Nat
  slowAt : Nat
  askedAt : Nat
  lastGoodPin : Nat
  pinLost : Bool
deriving DecidableEq, Repr

def PowRegs.reset : PowRegs :=
  { state := 0, req := 0x580, hs := 0xff000000, railSet := 0x6464646464646464, railStatus := 0, dormantCfg := 0xff00000a,
    table := [(0, 0x5f21400000), (1, 0x5a31400000), (2, 0x6922400000), (3, 0x106400000), (4, 0x9c4045400000)],
    therm := 0x5f735a690e101068, defers := [], excursionAt := none, falls := 0, slowAt := 0, askedAt := 0, lastGoodPin := 0, pinLost := false }

/-- A loaded key slot (R422). -/
structure KeySlot where
  keyId : Nat
  key : Word
deriving DecidableEq, Repr

/-- A held attestation report (R420), the length of its signature block, and what it binds. -/
structure Report where
  bytes : List Byte
  nonce : Nat
  sigLen : Nat
deriving DecidableEq, Repr

/-- A key operation that waits for the next boundary (R423). -/
structure DeferredKey where
  mask : Nat
  load : Option KeySlot
  session : Nat
  seq : Nat
deriving DecidableEq, Repr

/-- SECURITY block (R431) and the security engine. Generations count the draws of each key pair; no key
bits are state of the device's outside. -/
structure SecRegs where
  mode : Word
  attestCtl : Word
  slotStatus : Word
  debugLock : Word
  draws : Nat
  bootKey : Option Nat
  jobKey : Option Nat
  sealGen : Nat
  slots : List (Nat × KeySlot)
  deferred : List DeferredKey
  report : Option Report
  relocked : Bool
  licBuf : List Host.Cell
  tokBuf : List Host.Cell
deriving DecidableEq, Repr

def SecRegs.reset : SecRegs :=
  { mode := 1, attestCtl := 0, slotStatus := 0, debugLock := 0, draws := 0, bootKey := none, jobKey := none,
    sealGen := 0, slots := [], deferred := [], report := none, relocked := false, licBuf := [], tokBuf := [] }

/-- STEP block (R319); LEDGER_PTR is read from the rings. -/
structure StepRegs where
  ctl : Word
  openV : Word
  committed : Word
  check : Word
  cellar : Word
deriving DecidableEq, Repr

def StepRegs.reset : StepRegs :=
  { ctl := 0x32300000, openV := 0xffffffffffff, committed := 0xffffffffffff, check := 0, cellar := 0 }

/-- MIRROR block (R350); FENCE_LIST is read from the list of fences. -/
structure MirRegs where
  buddyId : Word
  degree : Word
  rackStatus : Word
  rackProgress : Word
  snapPool : Word
  graftCtl : Word
  graftStatus : Word
  fdCfg : Word
deriving DecidableEq, Repr

def MirRegs.reset : MirRegs :=
  { buddyId := 0xffffffff, degree := 0, rackStatus := 0, rackProgress := 0, snapPool := 0,
    graftCtl := 0xffffffff00000008, graftStatus := 0xffffffff00000c00, fdCfg := 0xffffffff64350000 }

/-- One Ethernet port (R391, R392, R411). -/
structure Eth where
  ctl : Word
  status : Word
  addrs : List Nat
  router : Option Nat
deriving DecidableEq, Repr

def Eth.reset : Eth := { ctl := 0x1001, status := 0, addrs := [], router := none }

/-- RESET block (R447) and the reset sequencer. -/
structure RstRegs where
  ctl : Word
  esc : Word
  history : Word
  active : List (Scope × Nat × Nat)
  levels : List (Scope × Nat)
  compStarts : List Nat
  held : List (Scope × Nat)
deriving DecidableEq, Repr

def RstRegs.reset : RstRegs :=
  { ctl := 0xa0a0a000000, esc := 0x25830e102000000, history := 0xff0000000000, active := [], levels := [],
    compStarts := [], held := [] }

/-! ## Sessions and messages -/

/-- A cached reply (R394, R398): the seq answered, its status code, the device state its header carries, and its
payload. -/
structure Reply where
  seq : Nat
  status : Nat
  devState : Nat
  payload : List Word
  bytes : List Byte
deriving DecidableEq, Repr

/-- A DCT session, open or pending (R395 to R398, R416 to R418). `sels` holds its selector copies by
register address (R497). `executing`: the message at `next` is being executed and not yet answered. -/
structure Session where
  num : Nat
  isOpen : Bool
  fromHost : Bool
  owner : Nat
  t : Nat
  next : Nat
  txNext : Nat
  replies : List Reply
  held : List (Nat × Instr)
  lastAt : Nat
  since : Nat
  executing : Bool
  sels : Sparse Word
deriving DecidableEq, Repr

/-- The name of a checkpoint object (R353), kind 0. -/
structure ObjName where
  job : Nat
  v : Nat
  gen : Nat
  shard : Nat
  part : Nat
deriving DecidableEq, Repr

/-- A manifest (R173, R360): the header fields, the objects with their digests and the shard digests, and the tensor table. Its
endpoint and layout tables are those of the image. -/
structure Manifest where
  job : Nat
  seed : Nat
  vintage : Nat
  gen : Nat
  keyId : Nat
  sealed : Bool
  endpoints : Nat
  layout : BitVec 384
  image : BitVec 384
  recipes : List Word
  objects : List (Nat × Nat × BitVec 384)
  shards : List (Nat × BitVec 384)
  tensors : List TensorState
deriving DecidableEq, Repr

/-- What the device sends (R326, R328, R331, R307, R399, R400 and others). A message for a head names none where the
domain or the job has no healthy one (R18, log 71). -/
inductive Msg where
  | dct (session : Nat) (r : Reply)
  | event (code cls arg : Nat) (vintage attempt : Nat)
  | decisionReq (id duty deadline : Nat) (ctx : List Nat)
  | beat (dst : Option Nat) (ts devState progress : Nat) (flags : Nat)
  | report (dst : Option Nat) (accused ts : Nat)
  | selfFail (dst : Option Nat) (cause : Nat)
  | fence (m : FenceMsg)
  | wake (spare fenced epoch instant : Nat)
  | noQuorum (dst : Option Nat) (accused : Nat)
  | noSpare (dst : Option Nat) (fenced : Nat)
  | graftDone (newId former source vintage : Nat)
  | verdictReport (dst : Option Nat) (r : VerdictRep)
  | verdict (vintage attempt : Nat) (v : Verdict)
  | check (dst : Option Nat) (r : CheckReport)
  | commit (vintage : Nat) (pause : Bool)
  | rollback (vintage attempt stop : Nat)
  | hang (dev vintage attempt : Nat)
  | missing (ids : List Nat)
  | askFence (dev reason : Nat)
  | rackPage (dst p page : Nat)
  | rackDigest (dst p vintage : Nat) (digest : BitVec 384)
  | rackAck (dst p vintage : Nat)
  | object (name : ObjName) (endpoint chunk : Nat) (stored : List Byte)
  | manifest (m : Manifest)
  | restoreReject (vintage gen stage code : Nat)
  | restoreCommit (vintage gen : Nat)
  | startAgreement (epoch : Nat)
  | frame (tl : TileRef) (route : Nat) (bytes : List Byte)
  | heartbeat (tl : TileRef) (ts progress : Nat)
  | flit (port ty seq ack : Nat) (nak : Bool)
  | keepalive (port dev ts devState : Nat) (squelch : Bool)
  | bundle (port seq txc : Nat)
  | packet (port : Nat) (pk : Packet)
  | packetIn (pk : Packet)
  | e2eAck (dst route seq : Nat)
  | abort (port route seq : Nat)
  | time (port ts : Nat)
  | eth (port kind : Nat) (dst : Nat) (data : Nat)
  | ptp (port dst kind ts : Nat)
  | inBandInterrupt
  | railWrite (p code : Nat)
deriving DecidableEq, Repr

/-- An unanswered message with its retransmissions and when it was sent last (R400). -/
structure Unacked where
  seq : Nat
  session : Nat
  msg : Msg
  tries : Nat
  sentAt : Nat
  isEvent : Bool
deriving DecidableEq, Repr

/-- A pending decision request (R409, R504). `arg` and `arg2` say what it is about; `st` 0 pending,
1 answered, 2 past its deadline. -/
structure Decision where
  id : Nat
  duty : Nat
  deadline : Nat
  arg : Nat
  arg2 : Nat
  st : Nat
deriving DecidableEq, Repr

/-! ## Image, job, fault domain -/

/-- Header fields of an image (R259). -/
structure ImgHdr where
  sealed : Bool
  jobId : Nat
  jobSeed : Nat
  imageLen : Nat
  sections : Nat
  roles : Nat
  devices : Nat
  caps : Word
  stacksMin : Nat
  pdiesMin : Nat
  tilesReq : Nat
  mirror : Nat
  portsReq : Nat
  suppress : Nat
  q : Nat
  missHb : Nat
  agree : Nat
  replay : Nat
  layoutDigest : BitVec 384
  dirDigest : BitVec 384
deriving DecidableEq, Repr

/-- An entry of the section directory (R259). -/
structure DirEntry where
  ty : Nat
  role : Nat
  offset : Nat
  length : Nat
  digest : BitVec 384
deriving DecidableEq, Repr

/-- The current image (R263). -/
structure Loaded where
  hdr : ImgHdr
  digest : BitVec 384
  img : Image
  half : Nat
deriving DecidableEq, Repr

/-- An image load in progress (R261, R262, R267). -/
structure Load where
  session : Nat
  hdrBytes : List Byte
  bytes : List Host.Cell
  devicesOk : Bool
  finalSeq : Option Nat
  step : Nat
  inp : Option ImageIn
deriving DecidableEq, Repr

structure ImgSt where
  cur : Option Loaded
  load : Option Load
deriving DecidableEq, Repr

/-- A received frame in the cellar (R309): the tile that took it, its identity with attempt 0, the attempt it came in, the
place in the stage's schedule, the digest of its records, and the whole frame where its route is marked FULL. -/
structure FrameEnt where
  tl : TileRef
  id : FrameId
  attempt : Nat
  pos : Nat
  digest : BitVec 384
  full : Option Frame
deriving DecidableEq, Repr

/-- An uncommitted vintage (R300, R309, R312). `absorbed` are the FULL frames whose regenerated copy has come in this
attempt. -/
structure Vint where
  v : Nat
  attempt : Nat
  counted : Nat
  lots : List (Nat × List Host.Cell)
  done : List Nat
  verdict : Option Verdict
  recorded : Option Verdict
  xs : List (Nat × Nat)
  skips : List (Nat × Nat × Nat)
  judged : List (Nat × Nat × Nat)
  frames : List FrameEnt
  absorbed : List (TileRef × FrameId)
  sends : List (List Byte × BitVec 384)
  checked : Bool
  verdictSent : Bool
deriving DecidableEq, Repr

/-- A checkpoint stream of one partition object (R355 to R357). -/
structure Stream2 where
  p : Nat
  endpoint : Nat
  refused : Nat
  done : Bool
  failed : Bool
deriving DecidableEq, Repr

/-- The checkpoint in progress (R354 to R358). `objects` are those that the reports of the writers name; `sent`: the manifest
is on its way, `acks` endpoints have acknowledged it. -/
structure Ckpt where
  v : Nat
  startAt : Nat
  streams : List Stream2
  doneDevs : List Nat
  objects : List (Nat × Nat × BitVec 384)
  sent : Bool
  acks : Nat
deriving DecidableEq, Repr

/-- A restore in progress (R361). -/
structure Restore where
  cands : List (Nat × Nat)
  reports : List Nat
  wrote : Bool
deriving DecidableEq, Repr

/-- The job as this device holds it (12, 14). `ownReport` waits for the digests of a REPLICA group (R305); `checkWait` is the
stall code of R317 for which the step check waits, and since when (R40, R356); `heldCommit` a COMMIT that waits for a tile
graft (R42). -/
structure Job where
  uncommitted : List Vint
  established : Bool
  gen : Nat
  ledgerSeq : Nat
  verdictReps : List VerdictRep
  checkReps : List CheckReport
  digests : List CheckReport
  ownReport : Option CheckReport
  uncounted : Bool
  decanted : List Nat
  firstRepAt : Option Nat
  askedAt : Option Nat
  bits : Nat
  failErr : Nat
  rackMismatch : List (Nat × Nat)
  sigmaOpen : Bool
  evaluating : Bool
  evalV : Nat
  evalAttempt : Nat
  evalDue : Bool
  ckptDue : Bool
  ckpt : Option Ckpt
  restore : Option Restore
  rollbackAt : Option Nat
  minority : List (Nat × Nat)
  evalBytes : List Host.Cell
  headVerdict : Option (Nat × Nat × Verdict)
  collExpired : List Nat
  checkWait : Option (Nat × Nat)
  heldCommit : Option (Nat × Bool)
deriving DecidableEq, Repr

def Job.reset : Job :=
  { uncommitted := [], established := false, gen := 0, ledgerSeq := 0, verdictReps := [], checkReps := [], digests := [],
    ownReport := none, uncounted := false, decanted := [], firstRepAt := none, askedAt := none, bits := 0, failErr := 0, rackMismatch := [],
    sigmaOpen := false, evaluating := false, evalV := 0, evalAttempt := 0, evalDue := false, ckptDue := false,
    ckpt := none, restore := none, rollbackAt := none, minority := [], evalBytes := [], headVerdict := none, collExpired := [],
    checkWait := none, heldCommit := none }

/-- An entry of FENCE_LIST (R350). -/
structure FenceEnt where
  id : Nat
  status : Nat
  reason : Nat
  reporters : Nat
  reports : Nat
deriving DecidableEq, Repr

/-- Reports held on one accused (R328). -/
structure Accuse where
  accused : Nat
  firstTs : Nat
  reporters : List Nat
  count : Nat
deriving DecidableEq, Repr

/-- A member's BEATs as the head has them (R326, R330), with the DEV_STATE of the latest and the digest of the sender's image
(R323, log 87). -/
structure BeatSt where
  id : Nat
  lastTs : Nat
  misses : Nat
  st : Nat
  image : BitVec 384 := 0
deriving DecidableEq, Repr

/-- A graft this head runs, or this spare takes part in (R337 to R344). The spare keeps the epoch and the instant E of
WAKE, and the vintage and scale state that its load brings. -/
structure Graft where
  fenced : Nat
  spare : Option Nat
  planned : Bool
  phase : Nat
  matched : List Nat
  mismatches : Nat
  source : Nat
  epoch : Nat := 0
  instant : Nat := 0
  vintage : Nat := 0
  scales : List TensorState := []
deriving DecidableEq, Repr

/-- The fault domain (13). `grafts` are those this head runs, the latest first; `taken` is the one this spare is in. -/
structure Fd where
  fences : List FenceEnt
  accuses : List Accuse
  beats : List BeatSt
  reported : List (Nat × Nat)
  spares : List Nat
  pendingAdmit : List Nat
  grafts : List Graft
  taken : Option Graft
  admitting : Bool
  waiting : List Nat
  sawFence : List Nat
  selfFailed : Option Nat
deriving DecidableEq, Repr

def Fd.reset : Fd :=
  { fences := [], accuses := [], beats := [], reported := [], spares := [], pendingAdmit := [], grafts := [],
    taken := none, admitting := false, waiting := [], sawFence := [], selfFailed := none }

/-- Packets the port dies hold and have accepted (R376). -/
structure Fabric where
  held : List Held
  seen : List Seen
  partials : List Partial
  transit : List Transit
  groups : List Nat
  peers : List (Nat × Option (Nat × Nat))
deriving DecidableEq, Repr

def Fabric.reset : Fabric :=
  { held := [], seen := [], partials := [], transit := [], groups := [], peers := [] }

/-! ## Module and non-volatile records -/

/-- Fuses and management flash (17, 20, 18). -/
structure Flash where
  serial : BitVec 128
  romVer : Nat
  fuseSvn : Nat
  mac0 : Nat
  mac1 : Nat
  prod : Bool
  memStacks : Nat
  pdies : Nat
  fwA : Firmware
  fwB : Firmware
  licence : Option Lic
  fuseBad : List (Nat × Nat × Nat)
  softBad : List (Nat × Nat × Nat)
  softRows : List (Nat × Nat)
  retired : Bool
  retireClear : Bool
  softClear : Bool
deriving DecidableEq, Repr

/-- The licence a module ships with (R491): grade F, every port, no feature, an owner key hash of zero. -/
def Lic.factory : Lic :=
  { serial := 0, issue := 0, gradeF := true, ports := 36, features := 0, ownerHash := 0, verifies := true }

/-- The flagship's fuses and flash (R2, R465); values set at manufacture are DESIGN CHOICE (logs 1 and 14). -/
def Flash.reset : Flash :=
  { serial := 0, romVer := 0, fuseSvn := 0, mac0 := 0, mac1 := 0, prod := true, memStacks := 4, pdies := 4,
    fwA := { svn := 0, major := 0, minor := 0, build := 0, verifies := true },
    fwB := { svn := 0, major := 0, minor := 0, build := 0, verifies := true },
    licence := some Lic.factory, fuseBad := [], softBad := [], softRows := [], retired := false,
    retireClear := false, softClear := false }

/-- Module pins and input stage (21). -/
structure Pins where
  pwrEn : Bool
  resetN : Bool
  pwrGood : Bool
  faultN : Bool
  thermTripN : Bool
  railsOn : Bool
  senseOpen : Bool
  refclkLost : Bool
  refclkDead : Bool
  shorted : List OutPin
  trstN : Bool
  ppsAt : Option Nat
deriving DecidableEq, Repr

/-- Powered, out of reset, nothing failed. The active-low outputs are held as their levels. -/
def Pins.reset : Pins :=
  { pwrEn := true, resetN := true, pwrGood := true, faultN := true, thermTripN := true, railsOn := true,
    senseOpen := false, refclkLost := false, refclkDead := false, shorted := [],
    trstN := true, ppsAt := none }

/-- The I3C target (R487, R488). -/
structure I3c where
  dyn : Option Nat
  recovery : Option (Nat × List Host.Cell)
  sels : Sparse Word
deriving DecidableEq, Repr

def I3c.reset : I3c := { dyn := none, recovery := none, sels := [] }

/-- What bring-up has found this power cycle (20): whether ROOTED was reached, the
licence that is applied (R428, R471), and the port dies that answered, by bit (R465). -/
structure Boot where
  rooted : Bool
  applied : Option Lic
  dies : Nat
deriving DecidableEq, Repr

def Boot.reset : Boot := { rooted := false, applied := none, dies := 0 }

/-! ## The state -/

/-- The whole state of one module. -/
structure State where
  pending : List Instr
  released : List Instr
  out : List Msg
  fresh : Nat
  flash : Flash
  pins : Pins
  i3c : I3c
  boot : Boot
  dev : DevRegs
  rootstock : BootRegs
  time : TimeRegs
  pow : PowRegs
  sec : SecRegs
  step : StepRegs
  mir : MirRegs
  eth0 : Eth
  eth1 : Eth
  dctCfg : Word
  dctCounters : Word
  rst : RstRegs
  ports : Sparse Port
  parts : Sparse Part
  memStacks : Sparse Stack
  tiles : Sparse Tile
  sites : Sparse Site
  mem : List Host.Cell
  sessions : List Session
  unacked : List Unacked
  decisions : List Decision
  nextReq : Nat
  img : ImgSt
  job : Job
  fd : Fd
  fabric : Fabric
deriving DecidableEq, Repr

/-- The module right after RESET_N is released, before bring-up stage 1 (R461, R481, R500): every register
at the value its Reset column gives. Log 1 names the point and the variant. -/
def State.reset : State :=
  { pending := [], released := [], out := [], fresh := 0, flash := Flash.reset, pins := Pins.reset,
    i3c := I3c.reset, boot := Boot.reset, dev := DevRegs.reset, rootstock := BootRegs.reset,
    time := TimeRegs.reset, pow := PowRegs.reset, sec := SecRegs.reset, step := StepRegs.reset,
    mir := MirRegs.reset, eth0 := Eth.reset, eth1 := Eth.reset, dctCfg := 0xb86d90000580003c,
    dctCounters := 0, rst := RstRegs.reset, ports := [], parts := [], memStacks := [], tiles := [],
    sites := [], mem := [], sessions := [], unacked := [], decisions := [], nextReq := 1,
    img := { cur := none, load := none }, job := Job.reset, fd := Fd.reset, fabric := Fabric.reset }

/-- Why the machine stops with a fault: it has no reason to. The spec gives every command an effect, in every state and
for every operand, or says that it has none. -/
inductive Fault
deriving DecidableEq, Repr

/-- Why the machine gives a command no meaning. -/
inductive Refusal where
  /-- A command whose meaning is not written. Raised by an arm of `exec`. Safe: nothing follows from it. -/
  | notModelled (mnemonic : String)
deriving DecidableEq, Repr

end Sys2Proof.Machine
end

