-- ==== Sys2Proof/Machine/Ops.lean ====
section
/-!
DEFINITION. The named operations over memory, registers and the shared bookkeeping of the device: time,
errors, events, the ledger, tile faults, groups and heads.
-/
namespace Sys2Proof.Machine

/-! ## Sparse maps and memory -/

/-- The entry at `k`, or the default `d`. -/
def Sparse.get {α : Type} (d : α) : Sparse α → Nat → α
  | [], _ => d
  | (j, v) :: m, k => if j = k then v else Sparse.get d m k

/-- Drop the entry at `k`. -/
def Sparse.drop {α : Type} : Sparse α → Nat → Sparse α
  | [], _ => []
  | (j, v) :: m, k => if j = k then Sparse.drop m k else (j, v) :: Sparse.drop m k

/-- Put an entry in its place, replacing one at the same key. -/
def Sparse.put {α : Type} : Sparse α → Nat → α → Sparse α
  | [], k, a => [(k, a)]
  | (j, v) :: m, k, a =>
    if j = k then (k, a) :: m else if k < j then (k, a) :: (j, v) :: m else (j, v) :: Sparse.put m k a

/-- Write: the default value is kept by listing nothing. -/
def Sparse.set {α : Type} [DecidableEq α] (d : α) (m : Sparse α) (k : Nat) (a : α) : Sparse α :=
  if a = d then Sparse.drop m k else Sparse.put m k a

/-- Change every entry, dropping those that become the default. -/
def Sparse.mapV {α : Type} [DecidableEq α] (d : α) (f : α → α) : Sparse α → Sparse α
  | [] => []
  | (k, v) :: m => if f v = d then Sparse.mapV d f m else (k, f v) :: Sparse.mapV d f m

/-- Every key lies above `b`, keys rise strictly, and no entry is the default. -/
def Sparse.wfFrom {α : Type} [DecidableEq α] (d : α) : Nat → Sparse α → Bool
  | _, [] => true
  | b, (j, v) :: m => decide (b ≤ j) && decide (v ≠ d) && Sparse.wfFrom d (j + 1) m

/-- The canonical form. -/
def Sparse.wf {α : Type} [DecidableEq α] (d : α) (m : Sparse α) : Bool := Sparse.wfFrom d 0 m

/-- What a byte reads as that nothing has written: DESIGN CHOICE, log 2. -/
def unwritten : Byte := 0

namespace Memory

def wf (m : List Host.Cell) : Bool := Sparse.wf unwritten m

def read (m : List Host.Cell) (a : Nat) : Byte := Sparse.get unwritten m a

def write (m : List Host.Cell) (a : Nat) (b : Byte) : List Host.Cell := Sparse.set unwritten m a b

def readN (m : List Host.Cell) (a : Nat) : Nat → List Byte
  | 0 => []
  | n + 1 => read m a :: readN m (a + 1) n

def writeN (m : List Host.Cell) (a : Nat) : List Byte → List Host.Cell
  | [] => m
  | b :: bs => writeN (write m a b) (a + 1) bs

/-- Little-endian value of bytes (R10). -/
def le : List Byte → Nat
  | [] => 0
  | b :: bs => b.toNat + 256 * le bs

/-- The low `n` bytes of a value, little-endian (R10). -/
def bytesLE (v : Nat) : Nat → List Byte
  | 0 => []
  | n + 1 => BitVec.ofNat 8 v :: bytesLE (v / 256) n

def readLE (m : List Host.Cell) (a n : Nat) : Nat := le (readN m a n)

def writeLE (m : List Host.Cell) (a n v : Nat) : List Host.Cell := writeN m a (bytesLE v n)

/-- Drop every byte of a range. -/
def clear (m : List Host.Cell) (base len : Nat) : List Host.Cell :=
  m.filter (fun c => ! (decide (base ≤ c.1) && decide (c.1 < base + len)))

/-- Copy `len` bytes from `src` to `dst`, ranges apart. -/
def copy (m : List Host.Cell) (src dst len : Nat) : List Host.Cell :=
  (m.filter (fun c => decide (src ≤ c.1) && decide (c.1 < src + len))).foldl
    (fun n c => write n (c.1 - src + dst) c.2) (clear m dst len)

end Memory

/-! ## Constants -/

namespace Err
def ok : Nat := 0
def state : Nat := 1
def length : Nat := 2
def absent : Nat := 3
def fenced : Nat := 4
def auth : Nat := 5
def format : Nat := 6
def timeout : Nat := 7
def stashFull : Nat := 8
def yield : Nat := 9
def digest : Nat := 10
def vintage : Nat := 11
def busy : Nat := 12
def range : Nat := 13
def lost : Nat := 14
def retired : Nat := 15
def numeric : Nat := 16
end Err

/-! Device states (R24). -/
namespace DS
def cold : Nat := 0
def rooted : Nat := 1
def clocked : Nat := 2
def memoryReady : Nat := 3
def linked : Nat := 4
def ready : Nat := 5
def loaded : Nat := 6
def running : Nat := 7
def paused : Nat := 8
def dormant : Nat := 9
def fenced : Nat := 10
def quarantine : Nat := 11
def retired : Nat := 12
end DS

/-! Tile states of TILE_STATUS. -/
namespace TS
def off : Nat := 0
def idle : Nat := 1
def running : Nat := 2
def waiting : Nat := 3
def faulted : Nat := 4
def bist : Nat := 5
end TS

/-! Port states of LNK_STATUS. -/
namespace LS
def disabled : Nat := 0
def detect : Nat := 1
def map : Nat := 2
def eq : Nat := 3
def fec : Nat := 4
def keys : Nat := 5
def active : Nat := 6
def retrain : Nat := 7
def damped : Nat := 8
end LS

/-! Sources of ERR_LAST (R505). -/
namespace Src
def dct : Nat := 0
def image : Nat := 1
def step : Nat := 2
def boot : Nat := 3
def reset : Nat := 4
def fault : Nat := 5
def power : Nat := 6
def security : Nat := 7
def i3c : Nat := 8
def link : Nat := 9
def module : Nat := 10
end Src

/-- TS64 ticks in a microsecond and a millisecond. -/
def usTicks : Nat := 4000
def msTicks : Nat := 4000000

/-- No vintage (R20). -/
def noVintage : Nat := 0xffffffffffff

/-! ## Places in the state -/

/-- Key of a logical tile in the sparse maps. -/
def tkey (tl : TileRef) : Nat := tl.p * 256 + tl.t

/-- Bytes of a vintage's cellar entries, each at the size R310 gives it (log 29): data lots, frames and the send
log, the keys, scales, verdict and skip records. -/
def cellarBytes (v : Vint) : Nat :=
  (v.lots.map (fun l => l.2.length)).sum + 72 * v.sends.length +
    (v.frames.map (fun e => match e.full with
      | none => 72
      | some f => 24 + f.recs.length)).sum +
    (if v.xs.isEmpty then 0 else 64 + 16 * v.xs.length) + (if v.recorded.isSome then 1024 else 0) + 32 * v.skips.length

namespace State

def tile (s : State) (tl : TileRef) : Tile := Sparse.get Tile.reset s.tiles (tkey tl)

def setTile (s : State) (tl : TileRef) (t : Tile) : State :=
  { s with tiles := Sparse.set Tile.reset s.tiles (tkey tl) t }

def part (s : State) (p : Nat) : Part := Sparse.get Part.reset s.parts p

def setPart (s : State) (p : Nat) (a : Part) : State := { s with parts := Sparse.set Part.reset s.parts p a }

def port (s : State) (n : Nat) : Port := Sparse.get Port.reset s.ports n

def setPort (s : State) (n : Nat) (a : Port) : State := { s with ports := Sparse.set Port.reset s.ports n a }

def stack (s : State) (p k : Nat) : Stack := Sparse.get Stack.reset s.memStacks (p * 4 + k)

def setStack (s : State) (p k : Nat) (a : Stack) : State :=
  { s with memStacks := Sparse.set Stack.reset s.memStacks (p * 4 + k) a }

def site (s : State) (p k : Nat) : Site := Sparse.get Site.reset s.sites (p * 256 + k)

def setSite (s : State) (p k : Nat) (a : Site) : State :=
  { s with sites := Sparse.set Site.reset s.sites (p * 256 + k) a }

/-- Change one tile, partition, port or the job in place. -/
def onTile (s : State) (tl : TileRef) (f : Tile → Tile) : State := s.setTile tl (f (s.tile tl))
def onPart (s : State) (p : Nat) (f : Part → Part) : State := s.setPart p (f (s.part p))
def onPort (s : State) (n : Nat) (f : Port → Port) : State := s.setPort n (f (s.port n))
def onJob (s : State) (f : Job → Job) : State := { s with job := f s.job }
def onFd (s : State) (f : Fd → Fd) : State := { s with fd := f s.fd }

/-- Change every tile that is not at its reset. -/
def allTiles (s : State) (f : Tile → Tile) : State := { s with tiles := Sparse.mapV Tile.reset f s.tiles }

/-- Change every partition, P0 to P7 (R23). -/
def allParts (s : State) (f : Part → Part) : State :=
  (List.range 8).foldl (fun s p => s.onPart p f) s

/-- FAULT_N is driven low, and the I3C target raises an in-band interrupt (R483, R487). -/
def driveFault (s : State) : State := { s with pins := { s.pins with faultN := false }, out := Msg.inBandInterrupt :: s.out }

/-- Send a message. -/
def send (s : State) (m : Msg) : State := { s with out := m :: s.out }

def sendAll (s : State) (ms : List Msg) : State := ms.foldl send s

/-- A value nothing constrains (log 20), and the state after it is drawn. -/
def freeValue (s : State) : Word := Config.free s.fresh

def useFree (s : State) : State := { s with fresh := s.fresh + 1 }

/-! ## Time (R15, R17, R390) -/

/-- TS64, or the count itself before an epoch. -/
def now (s : State) : Nat := ((s.time.count : Int) + s.time.offset).toNat % 2 ^ 64

/-- The count itself, on which the device measures spans that are not stated in TS64 (log 17). -/
def clock (s : State) : Nat := s.time.count

/-- The time base counts one tick (R15). -/
def tick (s : State) : State := { s with time := { s.time with count := s.time.count + 1 } }

/-! ## Device state (R24) -/

def devState (s : State) : Nat := getF s.dev.state devState_state

def devId (s : State) : Nat := getF s.dev.id devId_id

/-- Change DEV_STATE, keeping the state before the latest change. -/
def toState (s : State) (d : Nat) : State :=
  { s with dev := { s.dev with
      state := setF (setF s.dev.state devState_prevState (s.devState)) devState_state d } }

/-- Whether the device is powered and out of reset. -/
def alive (s : State) : Bool := s.pins.railsOn && s.pins.resetN

/-- TILE_STATUS: tile_state is OFF while the partition's compute rail is off (R70, R453). -/
def tileStatusRead (s : State) (tl : TileRef) : Word :=
  let w := (s.tile tl).status
  if (getF s.pow.railStatus railStatus_off).testBit tl.p then setF w tileStatus_tileState TS.off else w

/-- Whether DCT is served (R407): from LINKED onward. -/
def servesDct (s : State) : Bool := s.alive && s.boot.rooted && decide (DS.linked ≤ s.devState)

/-! ## Errors and the ledger (R317, R318, R505) -/

/-- ERR_LAST records a code other than OK with its source (R505). -/
def errRecord (s : State) (code src : Nat) : State :=
  if code = Err.ok then s else
  { s with dev := { s.dev with
      errLast := setF (setF (setF (bumpF s.dev.errLast errLast_count 1) errLast_code code) errLast_source src)
        errLast_ms (s.now / msTicks) } }

/-- The oldest uncommitted vintage and its attempt, or none (VINTAGE_OPEN). -/
def openVintage (s : State) : Nat := getF s.step.openV vintageOpen_vintage
def openAttempt (s : State) : Nat := getF s.step.openV vintageOpen_attempt

/-- The last committed vintage. -/
def committedV (s : State) : Nat := getF s.step.committed vintageCommitted_vintage

/-- An uncommitted vintage, and a change to it. -/
def vint (s : State) (v : Nat) : Option Vint := s.job.uncommitted.find? (fun x => x.v == v)

/-- CELLAR_STATUS shows what the uncommitted vintages hold, and the highest use (R319). -/
def refreshCellar (s : State) : State :=
  let use := (s.job.uncommitted.map cellarBytes).sum
  let mib := (use + 1048575) / 1048576
  { s with step := { s.step with
      cellar := setF (setF (setF s.step.cellar cellarStatus_usedMib mib) cellarStatus_peakMib
        (max (getF s.step.cellar cellarStatus_peakMib) mib)) cellarStatus_held
        ((s.job.uncommitted.filter (fun x => cellarBytes x != 0)).length) } }

/-- Change an uncommitted vintage, and the status of the cellar with it. -/
def onVint (s : State) (v : Nat) (f : Vint → Vint) : State :=
  (s.onJob (fun j => { j with uncommitted := j.uncommitted.map (fun x => if x.v = v then f x else x) })).refreshCellar

/-- Slots of a ledger ring (R317). -/
def ringSlots : Nat := 4194304

/-- Append a record to a partition's ring; an undelivered record that it overwrites is counted lost
(R318). -/
def ledger (s : State) (p cls code tile arg vintage attempt : Nat) : State :=
  let a := s.part p
  let r : LedgerRec :=
    { ts := s.now, device := s.devId, seq := s.job.ledgerSeq, vintage := vintage, attempt := attempt,
      cls := cls, code := code, part := p, tile := tile, epoch := s.time.epoch, arg := arg }
  let h := a.ledger.head
  let lost := if a.ledger.undelivered.contains h then min (a.ledger.lost + 1) 0xffff else a.ledger.lost
  let ring : Ring :=
    { recs := Sparse.put a.ledger.recs h r, head := (h + 1) % ringSlots, lost := lost,
      undelivered := h :: a.ledger.undelivered.filter (fun i => i != h) }
  { s.setPart p { a with ledger := ring } with job := { s.job with ledgerSeq := s.job.ledgerSeq + 1 } }

/-- A device-level phase record of the step program, in the ring of partition 0. -/
def phase (s : State) (code : Nat) : State := s.ledger 0 0 code 0xff 0 s.openVintage s.openAttempt

/-! ## EVENTs (R400, R506) -/

/-- Open host sessions. -/
def hostSessions (s : State) : List Session := s.sessions.filter (fun x => x.isOpen && x.fromHost)

/-- EVENTs the mask never holds back (R506): ERR_LOST, ERR_RETIRED, and those sent with class 16 or
above, which stand for a thermal trip or a refeed request. -/
def unmaskable (code : Nat) (always : Bool) : Bool := always || code == Err.lost || code == Err.retired

/-- Send a message in a session, under its next sequence number, and keep it until it is answered (R398, R400). -/
def sendTo (s : State) (x : Session) (m : Msg) (isEvent : Bool) : State :=
  { s.send m with
    sessions := s.sessions.map (fun y => if y.num = x.num then { y with txNext := y.txNext + 1 } else y)
    unacked := { seq := x.txNext, session := x.num, msg := m, tries := 0, sentAt := s.clock, isEvent := isEvent } :: s.unacked }

/-- Send a message to each open host session (R400). -/
def toHosts (s : State) (m : Msg) (isEvent : Bool) : State :=
  s.hostSessions.foldl
    (fun s x => s.sendTo x m isEvent) s

/-- An EVENT of a class: a class-4 ledger record, ERR_LAST, and the message unless it is masked (R506). -/
def event (s : State) (code cls arg src : Nat) (always : Bool) : State :=
  let s := (s.ledger 0 4 code 0xff arg s.openVintage s.openAttempt).errRecord code src
  if s.dev.eventCtl.getLsbD cls || unmaskable code always then
    s.toHosts (.event code cls arg s.openVintage s.openAttempt) true
  else { s with dev := { s.dev with eventCtl := bumpF s.dev.eventCtl eventCtl_suppressed 1 } }

/-! ## Image and groups (R273, R274, R325) -/

def image (s : State) : Option Image := s.img.cur.map (·.img)

/-- The digest of the loaded image. -/
def imageDigest (s : State) : BitVec 384 := (s.img.cur.map (·.digest)).getD 0

/-- The DEVICES entry of an ID. -/
def entry (s : State) (id : Nat) : Option DevEntry :=
  (s.image.map (·.devices)).getD [] |>.find? (fun d => d.id == id)

/-- This device's entry. -/
def me (s : State) : Option DevEntry := s.entry s.devId

/-- The role part this device runs; a spare runs none. -/
def role (s : State) : Option RolePart :=
  match s.image, s.me with
  | some i, some e => if e.spare then none else i.roles.find? (fun r => r.role == e.role)
  | _, _ => none

/-- Healthy (R325): absent from FENCE_LIST, or grafted there; the device itself also neither in
QUARANTINE nor RETIRED. -/
def healthy (s : State) (id : Nat) : Bool :=
  (s.fd.fences.all (fun f => f.id != id || f.status == 1)) &&
    (id != s.devId || (s.devState != DS.quarantine && s.devState != DS.retired))

/-- IDs of the devices of this device's domain, spares included. -/
def domainIds (s : State) : List Nat :=
  match s.image, s.me with
  | some i, some e => (i.devices.filter (fun d => d.domain == e.domain)).map (·.id)
  | _, _ => []

/-- IDs of the domain that hold a role (R325). -/
def roleIds (s : State) : List Nat :=
  match s.image, s.me with
  | some i, some e => (i.devices.filter (fun d => d.domain == e.domain && !d.spare)).map (·.id)
  | _, _ => []

/-- The lowest of a list (R18). -/
def lowest : List Nat → Option Nat
  | [] => none
  | a :: l => match lowest l with
    | none => some a
    | some b => some (min a b)

/-- The domain head: lowest healthy ID that holds a role (R325). -/
def domainHead (s : State) : Option Nat := lowest (s.roleIds.filter s.healthy)

/-- The deputy: the next lowest (R325). -/
def deputy (s : State) : Option Nat :=
  lowest (s.roleIds.filter (fun i => s.healthy i && some i != s.domainHead))

/-- Members of the JOB group: the devices that are not spares. -/
def jobIds (s : State) : List Nat :=
  match s.image, s.me with
  | some i, some e => (i.devices.filter (fun d => d.job == e.job && !d.spare)).map (·.id)
  | _, _ => []

def jobHead (s : State) : Option Nat := lowest (s.jobIds.filter s.healthy)

/-- Members of this device's REPLICA group. -/
def replicaIds (s : State) : List Nat :=
  match s.image, s.me with
  | some i, some e => (i.devices.filter (fun d => d.replica == e.replica && !d.spare)).map (·.id)
  | _, _ => []

def isJobHead (s : State) : Bool := s.jobHead == some s.devId
def isDomainHead (s : State) : Bool := s.domainHead == some s.devId

/-- FD_CFG shows the head, the deputy and the size of the domain (R350). DESIGN CHOICE (log 71): 0xFFFF where the domain
has no healthy head or no second healthy ID with a role. -/
def refreshHeads (s : State) : State :=
  { s with mir := { s.mir with
      fdCfg := setF (setF (setF s.mir.fdCfg fdCfg_head (s.domainHead.getD 0xffff)) fdCfg_deputy (s.deputy.getD 0xffff))
        fdCfg_domainSize s.domainIds.length } }

/-- The buddies this device has (R320). -/
def buddies (s : State) : List Nat :=
  (if flagF s.mir.buddyId buddyId_b1Valid then [getF s.mir.buddyId buddyId_buddy1] else []) ++
  (if flagF s.mir.buddyId buddyId_b2Valid then [getF s.mir.buddyId buddyId_buddy2] else [])

/-- The head that hears of this device: the domain head, or the deputy when this device is the head (R326); none where
the domain has no such device (log 71). -/
def myHead (s : State) : Option Nat := if s.isDomainHead then s.deputy else s.domainHead

/-- Causes of SELF_FAIL (R326). -/
def causeChannel : Nat := 1
def causeNoSpare : Nat := 2
def causeTile : Nat := 3
def causeFabric : Nat := 4

/-- The device declares itself failed, once (R287, R348): it sends SELF_FAIL to its head. -/
def declareFailed (s : State) (cause : Nat) : State :=
  if s.fd.selfFailed.isSome then s
  else { s.send (.selfFail s.myHead cause) with fd := { s.fd with selfFailed := some cause } }

/-! ## Failing a step, faulting a tile (R68, R305) -/

/-- A failed condition of the step check, by its bit of STEP_CHECK_STATUS. -/
def failBit (s : State) (f : Field) : State :=
  { s with job := { s.job with bits := s.job.bits ||| 2 ^ f.lo } }

/-- A failure that is not replayed (R305): its error code is kept, the first one. -/
def failFor (s : State) (f : Field) (code : Nat) : State :=
  let s := s.failBit f
  { s with job := { s.job with failErr := if s.job.failErr = 0 then code else s.job.failErr } }

/-- Set the state of a tile. -/
def tileSt (s : State) (tl : TileRef) (st : Nat) : State :=
  let t := s.tile tl
  s.setTile tl { t with status := setF t.status tileStatus_tileState st }

/-- A tile fault (R68): the latest code; every code but 0x01 halts the tile and fails the step, with
ERR_FORMAT for 0x06 and 0x07 and ERR_RANGE for 0x09, which are not replayed. -/
def tileFault (s : State) (tl : TileRef) (code : Nat) : State :=
  let t := s.tile tl
  let st := setF t.status tileStatus_faultCode code
  if code = 1 then s.setTile tl { t with status := st } else
  let s := s.setTile tl { t with status := setF st tileStatus_tileState TS.faulted }
  if code = 6 ∨ code = 7 then s.failFor stepCheckStatus_tile Err.format
  else if code = 9 then s.failFor stepCheckStatus_tile Err.range
  else s.failBit stepCheckStatus_tile

/-- A store race (R47): the store holds what the client with the higher number wrote, `own` being the number of the
client whose write has been made; store_race, fault 0x04, counted for the job. -/
def storeRace (s : State) (tl : TileRef) (own : Nat) (r : RaceIn) : State :=
  let t := s.tile tl
  (s.setTile tl { t with
    store := if own < r.client then Memory.writeLE t.store (r.addr / 8 * 8 % 0x400000) 8 r.word.toNat else t.store
    status := setF t.status tileStatus_storeRace 1, raceInJob := t.raceInJob + 1 }).tileFault tl 4

/-- The race that a command's write met, if any. -/
def raceIf (s : State) (tl : TileRef) (own : Nat) : Option RaceIn → State
  | none => s
  | some r => s.storeRace tl own r

/-- After the last word of a span that is run again the sequencer goes on where it was, and the recompute buffer holds the
span (R205). -/
def leaveSpan (t : Tile) : Tile :=
  match t.seq.redo with
  | none => t
  | some r =>
    if t.seq.index ≤ r.last then t
    else { t with seq := { t.seq with index := r.index, loops := r.loops, redo := none }
                  stash := { t.stash with rebuilt := some (t.seq.lot, r.span) } }

/-- Errors met while a store range was read (R48). -/
def storeEcc (s : State) (tl : TileRef) (e : Ecc) : State :=
  let t := s.tile tl
  match e with
  | .clean => s
  | .corrected n => s.setTile tl { t with status := bumpF t.status tileStatus_sbEcc n }
  | .uncorrectable =>
    (s.setTile tl { t with status := setF t.status tileStatus_dbEcc 1, ueInJob := t.ueInJob + 1 }).tileFault tl 3

/-- A command reads a store range and goes on with what it finds; an uncorrectable error stops it (R48). -/
def readStore (s : State) (tl : TileRef) (e : Ecc) (k : State → State) : State :=
  let s := s.storeEcc tl e
  if e = .uncorrectable then s else k s

/-! ## Sync counters and retiring (R60, R61) -/

/-- Increment a sync counter; a carry beyond 0xFFFF_FFFF faults the tile with 0x05, treated
as a store race (R61, R68). DESIGN CHOICE (log 72): the counter keeps the value it had. -/
def syncAdd (s : State) (tl : TileRef) (k n : Nat) : State :=
  let t := s.tile tl
  let v := Sparse.get 0 t.counters k + n
  if 0xffffffff < v then (s.setTile tl { t with raceInJob := t.raceInJob + 1 }).tileFault tl 5
  else s.setTile tl { t with counters := Sparse.set 0 t.counters k v, marks := Sparse.set 0 t.marks (256 + k) s.now }

/-- Record a unit's progress at the present TS64 (R432). -/
def markUnit (s : State) (tl : TileRef) (u : Nat) : State :=
  let t := s.tile tl
  s.setTile tl { t with marks := Sparse.set 0 t.marks u s.now }

/-- Whether the tile records stalls, and lots (TILE_CTL.ledger_detail). -/
def detail (s : State) (tl : TileRef) : Nat := getF (s.tile tl).ctl tileCtl_ledgerDetail

/-- The vintage and attempt that a tile's records bear: those of the evaluation it runs (R257, R278), or those open. -/
def tagOf (s : State) (tl : TileRef) : Nat × Nat :=
  if (s.tile tl).seq.evaluating then (s.job.evalV, s.job.evalAttempt) else (s.openVintage, s.openAttempt)

/-- A record of a stage: class, code and argument. -/
def stageRecord (s : State) (tl : TileRef) (cls code arg : Nat) : State :=
  s.ledger tl.p cls code tl.t arg (s.tagOf tl).1 (s.tagOf tl).2

/-- A stall of at least 1 microsecond, when the detail allows it (R62). -/
def stall (s : State) (tl : TileRef) (code us : Nat) : State :=
  if s.detail tl = 0 ∨ us = 0 then s else s.stageRecord tl 2 code (min us 0xffffffff)

/-- The sequencer's wait ends: a stall with its cause and its duration (R38, R62, R79). -/
def endWait (s : State) (tl : TileRef) : State :=
  match (s.tile tl).seq.held with
  | none => s
  | some (since, code) =>
    (s.stall tl code ((s.now - since) / usTicks)).onTile tl (fun t => { t with seq := { t.seq with held := none } })

/-- The instruction at the sequencer's index retires: a wait it had ends, progress counts it, and the sequencer goes on at
word `dest` (R60). -/
def goOn (s : State) (tl : TileRef) (dest : Nat) (loops : List Loop) : State :=
  let s := s.endWait tl
  let t := s.tile tl
  s.setTile tl (leaveSpan { t with
    status := setF (setF t.status tileStatus_progress (getF t.status tileStatus_progress + 1))
      tileStatus_tileState TS.running,
    seq := { t.seq with index := dest, loops := loops } })

/-- The instruction retires and the next word is at hand. -/
def retire (s : State) (tl : TileRef) : State :=
  s.goOn tl ((s.tile tl).seq.index + 1) (s.tile tl).seq.loops

/-- Causes of a stall (R317). -/
def stallFull : Nat := 1
def stallEmpty : Nat := 2
def stallRacking : Nat := 3
def stallShadow : Nat := 4
def stallCopy : Nat := 5
def stallVerdict : Nat := 6
def stallCommit : Nat := 7
def stallColl : Nat := 8
def stallSync : Nat := 9
def stallLoader : Nat := 0xa
def stallStream : Nat := 0xb

/-- The sequencer waits for the cause `code` (R60, R62): the instruction stays at its index and is issued again. -/
def hold (s : State) (tl : TileRef) (code : Nat) : State :=
  (s.tileSt tl TS.waiting).onTile tl (fun t => { t with
    seq := { t.seq with held := some (t.seq.held.getD (s.now, code)) } })

/-! ## The reset windows of a partition (R499) -/

/-- Whether a partition is fenced. -/
def partFenced (s : State) (p : Nat) : Bool := flagF (s.part p).fenceStatus fenceStatus_fenced

/-- Whether a partition is retired. -/
def partRetired (s : State) (p : Nat) : Bool := getF s.rst.history rstHistory_retiredParts / 2 ^ p % 2 == 1

/-- Draw a fresh secret: the generation number of the draw. -/
def draw (s : State) : State := { s with sec := { s.sec with draws := s.sec.draws + 1 } }

end State
end Sys2Proof.Machine
end

