-- ==== Sys2Proof/Machine/Numerics.lean ====
section
/-!
DEFINITION. The arithmetic of the formats: element and wide formats, their decoding, one rounding of an
exact value into a format, FP32 and M48 operations, stochastic rounding and Philox. Every value is held
exactly as a sign, a natural mantissa and a power of two.
-/
namespace Sys2Proof.Machine

/-- An exact value: NaN, an infinity, or (-1)^neg * m * 2^e. -/
inductive Val where
  | nan
  | inf (neg : Bool)
  | fin (neg : Bool) (m : Nat) (e : Int)
deriving DecidableEq, Repr

/-- A format (R122, R142, R143). `special`: 0 every code finite; 1 the all-ones code of each sign is NaN;
2 the top exponent field holds infinities and NaN. With `ebits` 0 a two's-complement integer times
2^-bias. -/
structure Fmt where
  w : Nat
  ebits : Nat
  bias : Int
  special : Nat
deriving DecidableEq, Repr

def fmtFp32 : Fmt := ⟨32, 8, 127, 2⟩
def fmtBf16 : Fmt := ⟨16, 8, 127, 2⟩
def fmtFp16 : Fmt := ⟨16, 5, 15, 2⟩
def fmtM48 : Fmt := ⟨48, 8, 127, 2⟩

namespace Fmt

def isInt (f : Fmt) : Bool := f.ebits == 0

/-- Fraction bits m (R122). -/
def frac (f : Fmt) : Nat := f.w - 1 - f.ebits

/-- Whether a wide format, whose canonical NaN is the quiet one of R135. -/
def wide (f : Fmt) : Bool := decide (16 ≤ f.w)

/-- The format has NaN codes (R122). -/
def hasNan (f : Fmt) : Bool := f.special == 1 || (f.special == 2 && decide (1 ≤ f.frac))

def hasInf (f : Fmt) : Bool := f.special == 2

/-- The largest finite magnitude code. For an integer format the largest positive code. -/
def maxCode (f : Fmt) : Nat :=
  if f.isInt then 2 ^ (f.w - 1) - 1
  else match f.special with
    | 0 => 2 ^ (f.w - 1) - 1
    | 1 => 2 ^ (f.w - 1) - 2
    | _ => (2 ^ f.ebits - 1) * 2 ^ f.frac - 1

/-- The weight exponent of the subnormal step, or of an integer code. -/
def qmin (f : Fmt) : Int := if f.isInt then - f.bias else 1 - f.bias - f.frac

/-- The code of infinity without its sign. -/
def infCode (f : Fmt) : Nat := (2 ^ f.ebits - 1) * 2 ^ f.frac

/-- Canonical NaN (R135). -/
def nanCode (f : Fmt) : Nat := if f.wide then f.infCode + 2 ^ (f.frac - 1) else 2 ^ (f.w - 1) - 1

/-- Sign applied to a magnitude code; two's complement for integers. -/
def signed (f : Fmt) (neg : Bool) (c : Nat) : Nat :=
  if f.isInt then (if neg then (2 ^ f.w - c) % 2 ^ f.w else c)
  else c + (if neg then 2 ^ (f.w - 1) else 0)

/-- The largest finite of a sign (R134): for an integer the most negative code when negative. -/
def largest (f : Fmt) (neg : Bool) : Nat :=
  if f.isInt && neg then 2 ^ (f.w - 1) else f.signed neg f.maxCode

/-- Decoding of a code (R118, R122). -/
def decode (f : Fmt) (code : Nat) : Val :=
  let c := code % 2 ^ f.w
  let neg := decide (2 ^ (f.w - 1) ≤ c)
  if f.isInt then .fin neg (if neg then 2 ^ f.w - c else c) (- f.bias)
  else
    let mag := c % 2 ^ (f.w - 1)
    let ex := mag / 2 ^ f.frac
    let fr := mag % 2 ^ f.frac
    if f.special = 1 ∧ mag = 2 ^ (f.w - 1) - 1 then .nan
    else if f.special = 2 ∧ ex = 2 ^ f.ebits - 1 then (if fr = 0 then .inf neg else .nan)
    else if ex = 0 then .fin neg fr f.qmin
    else .fin neg (2 ^ f.frac + fr) (f.qmin + ((ex : Int) - 1))

/-- The value of a magnitude code of the format, as mantissa and exponent. -/
def codeMag (f : Fmt) (c : Nat) : Nat × Int :=
  if f.isInt || c < 2 ^ f.frac then (c, f.qmin)
  else (2 ^ f.frac + c % 2 ^ f.frac, f.qmin + ((c / 2 ^ f.frac : Nat) : Int) - 1)

end Fmt

/-- Rounding modes (R131). -/
inductive RMode where
  | rne | rtz | rup | rdn
deriving DecidableEq, Repr

def RMode.ofCode : Nat → RMode
  | 0 => .rne
  | 1 => .rtz
  | 2 => .rup
  | _ => .rdn

/-- floor(log2 of m * 2^e) for m > 0. -/
def ilog2 (m : Nat) (e : Int) : Int := (Nat.log2 m : Int) + e

/-- The floor code of a nonzero magnitude and the bits below it: (code, remainder, shift); the magnitude
is (code's value) + remainder * 2^(quantum - shift). A magnitude far below the smallest step answers code 0
with a remainder that no rounding tells from it. -/
def floorCode (f : Fmt) (m : Nat) (e : Int) : Nat × Nat × Nat :=
  let q := if f.isInt then f.qmin else max (ilog2 m e - f.frac) f.qmin
  let sh := q - e
  if (Nat.log2 m : Int) + 40 < sh then (0, 1, 64) else
  let n := if sh ≤ 0 then m * 2 ^ (-sh).toNat else m / 2 ^ sh.toNat
  let r := if sh ≤ 0 then 0 else m % 2 ^ sh.toNat
  let code := if f.isInt then n else (q - f.qmin).toNat * 2 ^ f.frac + n
  (code, r, sh.toNat)

/-- One rounding of a magnitude in [m, m + 1) * 2^e, exactly m * 2^e when not `sticky`, to a magnitude
code in a mode (R132); the code may lie beyond the largest finite one. -/
def roundMag (f : Fmt) (mode : RMode) (neg : Bool) (m : Nat) (e : Int) (sticky : Bool) : Nat :=
  if m = 0 then
    match mode with
    | .rup => if sticky && !neg then 1 else 0
    | .rdn => if sticky && neg then 1 else 0
    | _ => 0
  else
    let (c, r, sh) := floorCode f m e
    let half := 2 ^ sh / 2
    let inexact := r != 0 || sticky
    let up := match mode with
      | .rne => sh != 0 && (decide (half < r) || (r == half && (sticky || c % 2 == 1)))
      | .rtz => false
      | .rup => inexact && !neg
      | .rdn => inexact && neg
    if up then c + 1 else c

/-- Overflow policy of a recipe (R153). -/
inductive Policy where
  | sat | inf
deriving DecidableEq, Repr

/-- A rounded output: its code, whether it was a finite overflow (R151), and whether it is a NaN in a
format without NaN, which makes its whole block NaN (R136). -/
structure Rounded where
  code : Nat
  overflow : Bool
  blockNan : Bool
deriving DecidableEq, Repr

/-- The code standing for infinity in the exceptional table: infinity, or canonical NaN where the format
has NaN and no infinity (E4M3's row), or the largest finite (R134). -/
def infOrNan (f : Fmt) (neg : Bool) : Nat :=
  if f.hasInf then f.signed neg f.infCode
  else if f.hasNan then f.nanCode
  else f.largest neg

/-- Finite overflow (R134). -/
def overflowCode (f : Fmt) (mode : RMode) (pol : Policy) (neg : Bool) : Nat :=
  if pol = .sat then f.largest neg
  else if !f.hasInf && !f.hasNan then f.largest neg
  else match mode with
    | .rne => infOrNan f neg
    | .rtz => f.largest neg
    | .rup => if neg then f.largest neg else infOrNan f neg
    | .rdn => if neg then infOrNan f neg else f.largest neg

/-- An infinite result (R134). -/
def infiniteCode (f : Fmt) (pol : Policy) (neg : Bool) : Nat :=
  if f.hasInf then f.signed neg f.infCode
  else if f.hasNan then (if pol = .sat then f.largest neg else f.nanCode)
  else f.largest neg

/-- One rounding of an exact value into a format with R134's exceptional results. `sticky` as in
`roundMag`. A code that is NaN in the format counts as a NaN output, an infinity as an infinite one. -/
def roundTo (f : Fmt) (mode : RMode) (pol : Policy) (v : Val) (sticky : Bool) : Rounded :=
  match v with
  | .nan => if f.hasNan then ⟨f.nanCode, false, false⟩ else ⟨0, false, true⟩
  | .inf neg => ⟨infiniteCode f pol neg, false, false⟩
  | .fin neg m e =>
    let c := roundMag f mode neg m e sticky
    let top := if f.isInt && neg then f.maxCode + 1 else f.maxCode
    if top < c then ⟨overflowCode f mode pol neg, true, false⟩
    else if m = 0 && !sticky then ⟨0, false, false⟩
    else ⟨f.signed neg c, false, false⟩

/-! ## Exact arithmetic on values -/

namespace Val

/-- Signed mantissa at exponent `e0`, for e0 not above the value's. -/
def signedAt (neg : Bool) (m : Nat) (e e0 : Int) : Int :=
  let n : Int := (m * 2 ^ (e - e0).toNat : Nat)
  if neg then -n else n

def ofInt (n : Int) (e : Int) : Val := .fin (decide (n < 0)) n.natAbs e

def neg : Val → Val
  | .nan => .nan
  | .inf s => .inf (!s)
  | .fin s m e => .fin (!s) m e

def isNan : Val → Bool
  | .nan => true
  | _ => false

def isZero : Val → Bool
  | .fin _ 0 _ => true
  | _ => false

def isFinite : Val → Bool
  | .fin _ _ _ => true
  | _ => false

/-- Exact sum; opposite infinities give NaN; a sum of zeros is -0 only for two -0. -/
def add : Val → Val → Val
  | .nan, _ => .nan
  | _, .nan => .nan
  | .inf a, .inf b => if a = b then .inf a else .nan
  | .inf a, _ => .inf a
  | _, .inf b => .inf b
  | .fin s m e, .fin t n f =>
    let e0 := min e f
    let z := Val.signedAt s m e e0 + Val.signedAt t n f e0
    if z = 0 then .fin (m == 0 && n == 0 && s && t) 0 0 else Val.ofInt z e0

/-- Exact product; zero times infinity is NaN. -/
def mul : Val → Val → Val
  | .nan, _ => .nan
  | _, .nan => .nan
  | .inf a, .inf b => .inf (a != b)
  | .inf a, .fin t n _ => if n = 0 then .nan else .inf (a != t)
  | .fin s m _, .inf b => if m = 0 then .nan else .inf (s != b)
  | .fin s m e, .fin t n f => .fin (s != t) (m * n) (e + f)

/-- Value scaled by a power of two. -/
def scale (k : Int) : Val → Val
  | .fin s m e => .fin s m (e + k)
  | v => v

/-- Order of two values that are not NaN: a < b. -/
def lt : Val → Val → Bool
  | .nan, _ => false
  | _, .nan => false
  | .inf a, .inf b => a && !b
  | .inf a, _ => a
  | _, .inf b => !b
  | .fin s m e, .fin t n f =>
    let e0 := min e f
    decide (Val.signedAt s m e e0 < Val.signedAt t n f e0)

/-- Equal as real values: +0 equals -0. -/
def eqv : Val → Val → Bool
  | .nan, _ => false
  | _, .nan => false
  | a, b => !(lt a b) && !(lt b a)

/-- Absolute value. -/
def abs : Val → Val
  | .nan => .nan
  | .inf _ => .inf false
  | .fin _ m e => .fin false m e

/-- The larger magnitude of two finite magnitudes, as (mantissa, exponent). -/
def maxMag (a b : Nat × Int) : Nat × Int :=
  if Val.lt (.fin false a.1 a.2) (.fin false b.1 b.2) then b else a

end Val

/-! ## Rounded operations of the vector unit and the row engine (R59, R143) -/

/-- Round an exact value to a wide format by IEEE 754 (overflow policy INF): zero keeps its sign. -/
def roundWide (f : Fmt) (mode : RMode) (v : Val) (sticky : Bool) : Nat :=
  match v with
  | .fin neg 0 _ => if sticky then (roundTo f mode .inf v true).code else f.signed neg 0
  | _ => (roundTo f mode .inf v sticky).code

/-- Exact quotient to `k` extra bits: mantissa, exponent, sticky. -/
def divMag (m : Nat) (e : Int) (n : Nat) (f : Int) (k : Nat) : Nat × Int × Bool :=
  let sh := k + Nat.log2 n + 1
  let num := m * 2 ^ sh
  (num / n, e - f - sh, num % n != 0)

def wdiv (g : Fmt) (a b : Val) : Nat :=
  match a, b with
  | .nan, _ => g.nanCode
  | _, .nan => g.nanCode
  | .inf _, .inf _ => g.nanCode
  | .inf s, .fin t _ _ => g.signed (s != t) g.infCode
  | .fin s _ _, .inf t => g.signed (s != t) 0
  | .fin s m e, .fin t n f =>
    if n = 0 then (if m = 0 then g.nanCode else g.signed (s != t) g.infCode)
    else if m = 0 then g.signed (s != t) 0
    else
      let (q, x, st) := divMag m e n f (g.frac + 4)
      roundWide g .rne (.fin (s != t) q x) st

/-- Integer square root by bits: the largest r with r * r <= n, from a root of the high bits. -/
def isqrtBits : Nat → Nat → Nat
  | 0, _ => 0
  | k + 1, n =>
    let r := 2 * isqrtBits k (n / 4)
    if (r + 1) * (r + 1) ≤ n then r + 1 else r

def isqrt (n : Nat) : Nat := isqrtBits (Nat.log2 n / 2 + 1) n

def wsqrt (g : Fmt) (a : Val) : Nat :=
  match a with
  | .nan => g.nanCode
  | .inf s => if s then g.nanCode else g.infCode
  | .fin s m e =>
    if m = 0 then g.signed s 0
    else if s then g.nanCode
    else
      let sh : Nat := 2 * (g.frac + 4) + (if (e % 2) = 0 then 0 else 1)
      let n := m * 2 ^ sh
      let r := isqrt n
      roundWide g .rne (.fin false r ((e - sh) / 2)) (r * r != n)

/-- FP32 by its bits. -/
def f32v (x : F32) : Val := fmtFp32.decode x.toNat
def f32of (c : Nat) : F32 := BitVec.ofNat 32 c

/-- A value rounded to FP32 as a write-out rounds it: a zero is +0 (R133, R137). -/
def f32Conv (v : Val) : F32 := f32of (roundTo fmtFp32 .rne .inf v false).code
def f32r (v : Val) : F32 := f32of (roundWide fmtFp32 .rne v false)
def fadd (a b : F32) : F32 := f32r (Val.add (f32v a) (f32v b))
def fsub (a b : F32) : F32 := f32r (Val.add (f32v a) (Val.neg (f32v b)))
def fmul (a b : F32) : F32 := f32r (Val.mul (f32v a) (f32v b))
def ffma (a b c : F32) : F32 := f32r (Val.add (Val.mul (f32v a) (f32v b)) (f32v c))
def fdiv (a b : F32) : F32 := f32of (wdiv fmtFp32 (f32v a) (f32v b))
def fsqrt (a : F32) : F32 := f32of (wsqrt fmtFp32 (f32v a))

/-- M48 operations by code, in RNE (R143). -/
def m48v (c : Nat) : Val := fmtM48.decode c
def m48r (v : Val) : Nat := roundWide fmtM48 .rne v false
def madd (a b : Nat) : Nat := m48r (Val.add (m48v a) (m48v b))
def msub (a b : Nat) : Nat := m48r (Val.add (m48v a) (Val.neg (m48v b)))
def mmul (a b : Nat) : Nat := m48r (Val.mul (m48v a) (m48v b))
def mdiv (a b : Nat) : Nat := wdiv fmtM48 (m48v a) (m48v b)

/-- M48 operations in the rounding mode that they name, each with one rounding (R143). -/
def maddIn (mode : RMode) (a b : Nat) : Nat := roundWide fmtM48 mode (Val.add (m48v a) (m48v b)) false
def msubIn (mode : RMode) (a b : Nat) : Nat := roundWide fmtM48 mode (Val.add (m48v a) (Val.neg (m48v b))) false
def mmulIn (mode : RMode) (a b : Nat) : Nat := roundWide fmtM48 mode (Val.mul (m48v a) (m48v b)) false
def mfmaIn (mode : RMode) (a b c : Nat) : Nat :=
  roundWide fmtM48 mode (Val.add (Val.mul (m48v a) (m48v b)) (m48v c)) false

/-- M48 rounded once to FP32 in RNE (R142). -/
def m48ToF32 (c : Nat) : F32 := f32Conv (m48v c)

/-- FP32 to M48: 16 zero bits appended (R142). -/
def f32ToM48 (x : F32) : Nat := x.toNat * 65536

/-- The FP32 ones and zeros used by rules. -/
def f32One : F32 := 0x3f800000
def f32PosInf : F32 := 0x7f800000
def f32NegInf : F32 := 0xff800000
def f32Nan : F32 := 0x7fc00000
def f32MaxFinite : F32 := 0x7f7fffff

/-! ## Stochastic rounding and Philox (R171, R172) -/

/-- sround: the exact value into a format with a 32-bit random word. -/
def sround (f : Fmt) (mode : RMode) (pol : Policy) (v : Val) (r : Nat) : Rounded :=
  match v with
  | .fin neg m e =>
    if m = 0 then ⟨0, false, false⟩ else
    let (c, rem, sh) := floorCode f m e
    let top := if f.isInt && neg then f.maxCode + 1 else f.maxCode
    if top < c || (c == top && rem != 0) then ⟨overflowCode f mode pol neg, true, false⟩
    else if rem = 0 then ⟨f.signed neg c, false, false⟩
    else
      let p := rem * 2 ^ 32 / 2 ^ sh
      ⟨f.signed neg (if r < p then c + 1 else c), false, false⟩
  | v => roundTo f mode pol v false

/-- One round of Philox-4x32. -/
def philoxRound (k0 k1 : Nat) (c : Nat × Nat × Nat × Nat) : Nat × Nat × Nat × Nat :=
  let p0 := 0xd2511f53 * c.1
  let p1 := 0xcd9e8d57 * c.2.2.1
  (((p1 / 2 ^ 32) ^^^ c.2.1) ^^^ k0, p1 % 2 ^ 32, ((p0 / 2 ^ 32) ^^^ c.2.2.2) ^^^ k1, p0 % 2 ^ 32)

/-- `n` rounds, the key bumped between rounds. -/
def philox : Nat → Nat → Nat → Nat × Nat × Nat × Nat → Nat × Nat × Nat × Nat
  | 0, _, _, c => c
  | n + 1, k0, k1, c =>
    philox n ((k0 + 0x9e3779b9) % 2 ^ 32) ((k1 + 0xbb67ae85) % 2 ^ 32) (philoxRound k0 k1 c)

/-- The words of an element (R172): job seed, element index, tensor id, vintage. -/
def philoxWords (seed elem tensor vint : Nat) : Nat × Nat :=
  let c := (elem % 2 ^ 32, tensor % 2 ^ 16 * 2 ^ 16 + elem / 2 ^ 32 % 2 ^ 16,
    vint % 2 ^ 32, vint / 2 ^ 32 % 2 ^ 16)
  let r := philox 10 (seed % 2 ^ 32) (seed / 2 ^ 32 % 2 ^ 32) c
  (r.1, r.2.1)

/-! ## Block scales (R120, R156, R157, R159) -/

/-- Scale exponent of an E8M0 code that is not NaN. -/
def scaleExp (x : Nat) : Int := (x : Int) - 127

/-- An element under its block scale: NaN when the scale is 0xFF (R120). -/
def scaled (f : Fmt) (code x : Nat) : Val :=
  if x = 0xff then .nan else Val.scale (scaleExp x) (f.decode code)

/-- Clamp an X to 0x00..0xFE (R159), with whether it was clamped. -/
def clampX (x : Int) : Nat × Bool :=
  if x < 0 then (0, true) else if 0xfe < x then (0xfe, true) else (x.toNat, false)

/-- emax of a format: floor(log2 fmax). -/
def Fmt.emax (f : Fmt) : Int :=
  let c := f.codeMag f.maxCode
  ilog2 c.1 c.2

/-- X under BLOCK from the block's largest finite magnitude (R156). -/
def blockX (f : Fmt) (amax : Nat × Int) (margin : Nat) : Nat :=
  if amax.1 = 0 then 127
  else (clampX (127 + ilog2 amax.1 amax.2 - f.emax + margin)).1

/-- The largest e with amax * 2^e <= fmax, for amax > 0 (R157, R185). -/
def fitExp (f : Fmt) (amax : Nat × Int) : Int :=
  let c := f.codeMag f.maxCode
  let d := ilog2 c.1 c.2 - ilog2 amax.1 amax.2
  if Val.lt (.fin false c.1 c.2) (.fin false amax.1 (amax.2 + d)) then d - 1 else d

/-- The largest finite magnitude of a list of values. -/
def amaxOf (vs : List Val) : Nat × Int :=
  vs.foldl (fun a v => match v with
    | .fin _ m e => Val.maxMag a (m, e)
    | _ => a) (0, 0)

/-- An amax as a history entry: rounded toward +inf to FP32, beyond the range 0x7F7FFFFF (R160). -/
def amaxEntry (a : Nat × Int) : F32 :=
  let c := roundMag fmtFp32 .rup false a.1 a.2 false
  if fmtFp32.maxCode < c then f32MaxFinite else f32of c

end Sys2Proof.Machine
end

