-- ==== Sys2Proof/Machine/Operands.lean ====
section
/-!
DEFINITION. The fields of the instruction words and descriptors of a stage program (R269, R512), the
format table and recipes (R124, R153), and how operands are read from a tile store (R45, R119, R239).
-/
namespace Sys2Proof.Machine

/-! ## Fields of instruction words (R269) -/

def iw_class : Field := ⟨63, 60⟩
def iw_syncEn : Field := ⟨59, 59⟩
def iw_counter : Field := ⟨58, 53⟩
def iw_inc : Field := ⟨52, 48⟩
def pass_array : Field := ⟨47, 44⟩
def pass_mode : Field := ⟨43, 41⟩
def pass_op : Field := ⟨40, 39⟩
def pass_swap : Field := ⟨38, 38⟩
def pass_loader : Field := ⟨37, 37⟩
def pass_movingFmt : Field := ⟨36, 33⟩
def pass_pattern : Field := ⟨32, 31⟩
def pass_mask : Field := ⟨30, 25⟩
def pass_m : Field := ⟨15, 0⟩
def load_target : Field := ⟨47, 46⟩
def load_loader : Field := ⟨45, 45⟩
def load_arrays : Field := ⟨44, 32⟩
def load_orient : Field := ⟨31, 31⟩
def load_fmt : Field := ⟨30, 27⟩
def load_pattern : Field := ⟨26, 25⟩
def load_mask : Field := ⟨24, 19⟩
def iw_desc : Field := ⟨11, 0⟩
def ldd_elem : Field := ⟨21, 0⟩
def ldd_scale : Field := ⟨43, 22⟩
def ldd_meta : Field := ⟨21, 0⟩
def ldd_stride : Field := ⟨37, 22⟩
def drain_f : Field := ⟨47, 40⟩
def drain_n : Field := ⟨39, 31⟩
def drain_slot : Field := ⟨30, 25⟩
def drain_packed : Field := ⟨24, 24⟩
def drain_topk : Field := ⟨23, 23⟩
def drain_fresh : Field := ⟨22, 22⟩
def drain_bias : Field := ⟨21, 21⟩
def drain_dest : Field := ⟨20, 19⟩
def drd_dest : Field := ⟨21, 0⟩
def drd_bias : Field := ⟨43, 22⟩
def drd_l0 : Field := ⟨51, 44⟩
def drd_m : Field := ⟨60, 52⟩
def drd_idxBase : Field := ⟨31, 0⟩
def drd_bound : Field := ⟨63, 32⟩
def drd_cand : Field := ⟨8, 0⟩
def drd_r0 : Field := ⟨31, 16⟩
def row_op : Field := ⟨47, 42⟩
def row_table : Field := ⟨41, 39⟩
def row_backward : Field := ⟨38, 38⟩
def row_slot : Field := ⟨37, 32⟩
def vec_op : Field := ⟨47, 40⟩
def vec_slot : Field := ⟨39, 34⟩
def move_channel : Field := ⟨47, 45⟩
def move_digest : Field := ⟨44, 44⟩
def move_dstCounter : Field := ⟨43, 38⟩
def move_dstInc : Field := ⟨37, 32⟩
def sync_op : Field := ⟨47, 46⟩
def sync_counter : Field := ⟨45, 40⟩
def sync_value : Field := ⟨31, 0⟩
def flow_op : Field := ⟨47, 44⟩
def flow_source : Field := ⟨43, 42⟩
def flow_empty : Field := ⟨41, 41⟩
def flow_flagCount : Field := ⟨40, 40⟩
def flow_count : Field := ⟨31, 0⟩
def flow_target : Field := ⟨11, 0⟩
def mark_kind : Field := ⟨47, 44⟩
def mark_code : Field := ⟨43, 32⟩

/-- Instruction classes (R269). -/
inductive Cls where
  | load | pass | drain | row | vec | move | sync | flow | mark
deriving DecidableEq, Repr

def clsOf (w : Word) : Option Cls :=
  match getF w iw_class with
  | 0 => some .load
  | 1 => some .pass
  | 2 => some .drain
  | 3 => some .row
  | 4 => some .vec
  | 5 => some .move
  | 6 => some .sync
  | 7 => some .flow
  | 8 => some .mark
  | _ => none

/-- A word of the program store. -/
def progWord (t : Tile) (i : Nat) : Word := Sparse.get 0 t.prog i

/-- The word at the sequencer's index. -/
def curWord (t : Tile) : Word := progWord t t.seq.index

/-- A mask entry: row mask and column mask (R269). -/
def maskEntry (t : Tile) (e : Nat) : Nat × Nat :=
  let w := (progWord t (4032 + e)).toNat
  (w % 2 ^ 32, w / 2 ^ 32)

/-- Depth of an array: 16, or 32 for L (R72). -/
def arrDepth (k : Nat) : Nat := if k = 12 then 32 else 16

/-! ## Formats and recipes -/

/-- Format-table entry n (R118, R124): a standard format, or a valid custom entry. -/
def fmtEntry (t : Tile) (n : Nat) : Option Fmt :=
  match n with
  | 0 => some ⟨8, 4, 7, 1⟩
  | 1 => some ⟨8, 5, 15, 2⟩
  | 2 => some ⟨6, 3, 3, 0⟩
  | 3 => some ⟨6, 2, 1, 0⟩
  | 4 => some ⟨4, 2, 1, 0⟩
  | 5 => some ⟨8, 0, 6, 0⟩
  | _ =>
    let w := Sparse.get 0 t.fmt n
    if n < 8 ∨ 16 ≤ n ∨ flagF w fmtTable_valid = false then none
    else
      let b := getF w fmtTable_bias
      some ⟨getF w fmtTable_width, getF w fmtTable_ebits, if b < 128 then b else (b : Int) - 256, getF w fmtTable_special⟩

/-- A format by the code of a recipe (R153). -/
def fmtByCode (t : Tile) (c : Nat) : Option Fmt :=
  match c with
  | 16 => some fmtFp32
  | 17 => some fmtBf16
  | 18 => some fmtFp16
  | 19 => some fmtM48
  | _ => if c < 16 then fmtEntry t c else none

/-- Recipe fields (R153). -/
def rc_initX : Field := ⟨63, 56⟩
def rc_growth : Field := ⟨55, 40⟩
def rc_backoff : Field := ⟨39, 36⟩
def rc_action : Field := ⟨35, 34⟩
def rc_check : Field := ⟨33, 33⟩
def rc_ovf : Field := ⟨32, 32⟩
def rc_margin : Field := ⟨31, 28⟩
def rc_histLen : Field := ⟨27, 26⟩
def rc_source : Field := ⟨25, 24⟩
def rc_rmode : Field := ⟨23, 22⟩
def rc_block : Field := ⟨21, 20⟩
def rc_fmt : Field := ⟨19, 15⟩
def rc_masterFmt : Field := ⟨14, 10⟩
def rc_optimizer : Field := ⟨9, 8⟩

/-- Scale sources. -/
def srcBlock : Nat := 0
def srcHist : Nat := 1
def srcFixed : Nat := 2
def srcNone : Nat := 3

/-- Tensor kinds in the order of R152. -/
def kindW : Nat := 0
def kindA : Nat := 1
def kindGA : Nat := 2
def kindGW : Nat := 3
def kindOPT : Nat := 4
def kindATT : Nat := 5
def kindEMB : Nat := 6
def kindLOSS : Nat := 7

def recipePolicy (r : Word) : Policy := if flagF r rc_ovf then .inf else .sat
def recipeMode (r : Word) : RMode := RMode.ofCode (getF r rc_rmode)

/-- History length in steps: 16 times a power of two (R153). -/
def recipeHist (r : Word) : Nat := 16 * 2 ^ getF r rc_histLen

/-- A tensor slot of a tile. -/
def slotOf (t : Tile) (k : Nat) : Slot := Sparse.get Slot.reset t.slots k

/-! ## Reading operands from the store -/

/-- Bytes of a tile store (R45). -/
def storeBytes : Nat := 0x400000

/-- A range reaches beyond the store (R511). -/
def beyondStore (a n : Nat) : Bool := decide (n ≠ 0 ∧ storeBytes < a + n)

/-- A store address decoded (R45): word block, row in the block, word in the row. -/
def storeAt (a : Nat) : Nat × Nat × Nat := (a / 8192 % 512, a / 256 % 32, a / 8 % 32)

/-- Bank and bank row of the word at a store address (R45). -/
def bankOf (a : Nat) : Nat × Nat :=
  let (b, i, j) := storeAt a
  ((i + j) % 32, 32 * b + i)

/-- Element i of width w of a packed bit string that begins `bit0` bits after byte `base` (R119). -/
def elemAt (st : List Host.Cell) (base bit0 w i : Nat) : Nat :=
  let b := bit0 + w * i
  Memory.readLE st (base + b / 8) 2 / 2 ^ (b % 8) % 2 ^ w

/-- Where the operand of a LOAD lies: its descriptor fields (R269); `x` is the single X that the loader sends as every
block's scale (R183). -/
structure LoadAt where
  elem : Nat
  scale : Nat
  idx : Nat
  stride : Nat
  column : Bool
  w : Nat
  x : Option Nat
deriving DecidableEq, Repr

def loadAt (word d0 d1 : Word) (w : Nat) (x : Option Nat) : LoadAt :=
  { elem := getF d0 ldd_elem, scale := getF d0 ldd_scale, idx := getF d1 ldd_meta, stride := getF d1 ldd_stride,
    column := flagF word load_orient, w := w, x := x }

/-- The X that a LOAD in column orientation sends for an operand whose source is HIST or FIXED (R157, R158, R183). -/
def loadX (t : Tile) (word : Word) (slot : Option Nat) : Option Nat :=
  match slot with
  | none => none
  | some k =>
    let sl := slotOf t k
    let src := getF sl.recipe rc_source
    if flagF word load_orient ∧ (src = srcHist ∨ src = srcFixed) then some sl.x else none

/-- Element r of vector v (log 10): packed at the vector's start in normal orientation; in column
orientation row r of the store rows at the element address, at bit position w * v. -/
def vecElem (st : List Host.Cell) (l : LoadAt) (v r : Nat) : Nat :=
  if l.column then elemAt st (l.elem + 256 * r) 0 l.w v
  else elemAt st (l.elem + v * l.stride) 0 l.w r

/-- Scale of block b of vector v, nb blocks to a vector (R81, R183, log 10). -/
def vecScale (st : List Host.Cell) (l : LoadAt) (nb v b : Nat) : Nat :=
  match l.x with
  | some x => x
  | none => (Memory.read st (l.scale + v * nb + b)).toNat

/-- The byte after element r of vector v. -/
def elemEnd (l : LoadAt) (v r : Nat) : Nat :=
  if l.column then l.elem + 256 * r + (l.w * (v + 1) + 7) / 8 else l.elem + v * l.stride + (l.w * (r + 1) + 7) / 8

/-- The byte after scale b of vector v; no scale is read where the loader sends a single X. -/
def scaleEnd (l : LoadAt) (nb v b : Nat) : Nat := if l.x.isSome then 0 else l.scale + v * nb + b + 1

/-- The last byte, plus 1, that `vs` vectors read whose highest position that fires is `r`, if any fires (R86). -/
def loadTop (l : LoadAt) (vs nb : Nat) (r : Option Nat) : Nat :=
  match vs, r with
  | v + 1, some r => max (elemEnd l v r) (scaleEnd l nb v (r / 32))
  | _, _ => 0

/-! ## Sparse patterns (R237 to R240) -/

/-- Kept elements of a group of four under a pattern: 2 under 2:4, 1 under 1:4. -/
def keptPer (pattern : Nat) : Nat := if pattern = 1 then 2 else 1

/-- Reduction positions that a pass covers: dense (R73, R81) or compressed (R238). -/
def positions (k pattern : Nat) (both4 : Bool) : Nat :=
  let d := arrDepth k * (if both4 then 2 else 1)
  if pattern = 0 then d else d * 2

/-- The cell row that forms the product of a position: dense, or the group's row (R73, R238). `ord` is the
order of the kept element in its group. -/
def rowOf (pattern : Nat) (both4 : Bool) (pos ord : Nat) : Nat :=
  if pattern = 0 then (if both4 then pos / 2 else pos)
  else if both4 then pos / 4
  else pos / 4 * 2 + (if pattern = 1 then ord else 0)

/-- Blocks of 32 positions that a pass covers, at least 1. -/
def blocksOf (n : Nat) : Nat := max 1 (n / 32)

/-- The stationary set of column c of a compressed operand (R239): (position, order, code) of the kept elements whose
cells `fires` names, and how many 2:4 groups with such a cell are malformed (R86, R240, R244). -/
def compressedCol (st : List Host.Cell) (l : LoadAt) (pattern n c : Nat) (fires : Nat → Nat → Bool) :
    List (Nat × Nat × Nat) × Nat :=
  let per := keptPer pattern
  let nb := blocksOf n
  let blkBytes := l.w * per
  let metaBytes := if pattern = 1 then 4 else 2
  let groups := List.range (n / 4)
  let one (g : Nat) : List (Nat × Nat × Nat) × Nat :=
    let b := g / 8
    let gi := g % 8
    let base := l.elem + c * l.stride + b * blkBytes
    let word := Memory.readLE st (l.idx + (c * nb + b) * metaBytes) metaBytes
    if pattern = 1 then
      let ix := word / 2 ^ (4 * gi) % 16
      let i0 := ix % 4
      let i1 := ix / 4
      ([(4 * g + i0, 0, elemAt st base 0 l.w (2 * gi)), (4 * g + i1, 1, elemAt st base 0 l.w (2 * gi + 1))].filter
          (fun e => fires e.1 e.2.1),
        if i1 ≤ i0 ∧ (fires (4 * g + i0) 0 ∨ fires (4 * g + i1) 1) then 1 else 0)
    else
      let i0 := word / 2 ^ (2 * gi) % 4
      ([(4 * g + i0, 0, elemAt st base 0 l.w gi)].filter (fun e => fires e.1 e.2.1), 0)
  groups.foldl (fun a g => let o := one g; (a.1 ++ o.1, a.2 + o.2)) ([], 0)

/-- Key of a cell in a stationary set. Compressed cells are keyed by position and order. -/
def cellKey (pos ord c : Nat) : Nat := (pos * 2 + ord) * 32 + c

/-! ## FP32 vectors in the store, or in a unit's write-out buffer (log 5) -/

/-- The tile store with the unit's latest write-out above it: an operand address a at or beyond the store
names byte a - 0x400000 of what the last DRAIN handed to the unit. -/
def unitByte (t : Tile) (buf : List Byte) (a : Nat) : Byte :=
  if a < storeBytes then Memory.read t.store a else buf.getD (a - storeBytes) 0

def unitLE (t : Tile) (buf : List Byte) (a : Nat) : Nat → Nat
  | 0 => 0
  | n + 1 => (unitByte t buf a).toNat + 256 * unitLE t buf (a + 1) n

def unitF32 (t : Tile) (buf : List Byte) (a i : Nat) : F32 := BitVec.ofNat 32 (unitLE t buf (a + 4 * i) 4)

def unitF32s (t : Tile) (buf : List Byte) (a n : Nat) : List F32 :=
  (List.range n).map (fun i => unitF32 t buf a i)

/-- An operand range of a unit that is neither in the store nor in its write-out (R511). -/
def badUnitRange (buf : List Byte) (a n : Nat) : Bool :=
  decide (n ≠ 0 ∧ ¬ (a + n ≤ storeBytes ∨ (storeBytes ≤ a ∧ a + n ≤ storeBytes + buf.length)))

/-- Write FP32 values to the store. -/
def putF32s (st : List Host.Cell) (a : Nat) : List F32 → List Host.Cell
  | [] => st
  | x :: xs => putF32s (Memory.writeLE st a 4 x.toNat) (a + 4) xs

end Sys2Proof.Machine
end

