-- ==== Sys2Proof/Machine/Flags.lean ====
section
/-!
DEFINITION. The flags the machine computes: the cask line with its nan, pinf, ninf and ovf flags (R127 to
R130, R508), packed casks (R138 to R141), write-out with the counts of NUM_FLAGS (R131 to R136, R151),
and the failed conditions of a step check that tile work sets.
-/
namespace Sys2Proof.Machine

/-! ## Lines of a cask -/

/-- Weight exponent of cask bit 0 (R127). -/
def caskWeight : Int := -300

/-- The mantissa of a finite value in units of cask bit 0. -/
def caskUnits (neg : Bool) (m : Nat) (e : Int) : Int :=
  let k := e - caskWeight
  let n : Int := if 0 ≤ k then (m * 2 ^ k.toNat : Nat) else (m / 2 ^ (-k).toNat : Nat)
  if neg then -n else n

/-- A signed integer lies in the cask's range (R129). -/
def inCask (z : Int) : Bool := decide (-(2 ^ 639 : Int) ≤ z ∧ z < (2 ^ 639 : Int))

namespace Line

/-- Finite part of a line as a value. -/
def finite (l : Line) : Val := Val.ofInt l.value.toInt caskWeight

/-- The kind a receiving line takes: its own, or the first record's when it is empty (R127, R140). -/
def kindFor (l : Line) (k : CaskKind) : CaskKind := if l.empty then k else l.kind

/-- Exact add of `z` units; leaving the range sets ovf and keeps the low 640 bits (R129). -/
def addUnits (l : Line) (z : Int) : Line :=
  let s := l.value.toInt + z
  { l with value := BitVec.ofInt 640 s, ovf := l.ovf || !inCask s }

/-- Extended value of a min or max line: pinf, ninf or the 640 bits (R508). -/
def ext (l : Line) : Val := if l.pinf then .inf false else if l.ninf then .inf true else l.finite

/-- Store an extended value; an out-of-range finite one sets ovf (R129). DESIGN CHOICE (log 76): the 640 bits of an infinite
value are 0. -/
def setExt (l : Line) (v : Val) : Line :=
  match v with
  | .nan => { l with nan := true }
  | .inf s => { l with pinf := !s, ninf := s, value := 0 }
  | .fin s m e =>
    let z := caskUnits s m e
    { l with pinf := false, ninf := false, value := BitVec.ofInt 640 z, ovf := l.ovf || !inCask z }

/-- The better of two extended values under a minimum or maximum; the held one wins a tie. -/
def better (k : CaskKind) (held new : Val) : Val :=
  if k = .max then (if Val.lt held new then new else held) else (if Val.lt new held then new else held)

/-- What one partial brings: its finite sum or its extremum, and its flags (R83). `val` is none when every
term of an extremum was NaN. -/
structure Part where
  kind : CaskKind
  val : Option Val
  nan : Bool
  pinf : Bool
  ninf : Bool
deriving DecidableEq, Repr

/-- A partial, a bias element or a wide value enters a line (R128 to R130, R508). DESIGN CHOICE (log 76): the 640 bits of a
minimum or maximum that has taken NaN terms alone are 0, and take part in the next comparison. -/
def take (l : Line) (p : Part) : Line :=
  let k := l.kindFor p.kind
  let l1 : Line := { l with kind := k, empty := false, nan := l.nan || p.nan }
  if k = .sum then
    let l2 : Line := { l1 with pinf := l1.pinf || p.pinf, ninf := l1.ninf || p.ninf }
    match p.val with
    | some (.fin s m e) => l2.addUnits (caskUnits s m e)
    | _ => l2
  else match p.val with
    | none => l1
    | some v => l1.setExt (if l.empty then v else better k l.ext v)

/-- A wide value as a partial of a sum (R129, R130). -/
def ofWide (v : Val) : Part :=
  match v with
  | .nan => ⟨.sum, none, true, false, false⟩
  | .inf s => ⟨.sum, none, false, !s, s⟩
  | .fin s m e => ⟨.sum, some (.fin s m e), false, false, false⟩

end Line

/-! ## Packed casks (R138 to R141) -/

/-- Word j of a cask value (R139). -/
def caskWordAt (v : CaskWord) (j : Nat) : Nat := v.toNat / 2 ^ (64 * j) % 2 ^ 64

/-- The sign extension word of word j. -/
def signExtWord (v : CaskWord) (j : Nat) : Nat := if caskWordAt v j / 2 ^ 63 = 1 then 2 ^ 64 - 1 else 0

/-- lo and hi of the packer, for a nonzero value (R139). -/
def packLo (v : CaskWord) : Nat := ((List.range 10).find? (fun j => caskWordAt v j != 0)).getD 0

def packHi (v : CaskWord) (lo : Nat) : Nat :=
  ((List.range 10).find? (fun j => decide (lo ≤ j) &&
    (List.range 10).all (fun i => decide (i ≤ j) || caskWordAt v i == signExtWord v j))).getD 9

/-- Packed form: the header and its words (R138, R139). An empty record has kind 0 (R141). -/
def packLine (l : Line) : List Nat :=
  let kindCode := if l.empty then 0 else match l.kind with
    | .sum => 0
    | .min => 1
    | .max => 2
  let flags := bit l.nan * 2 ^ 21 + bit l.pinf * 2 ^ 22 + bit l.ninf * 2 ^ 23 + bit l.ovf * 2 ^ 24
    + kindCode * 2 ^ 25 + bit l.empty * 2 ^ 27
  if l.value = 0 then [flags + 0xfed4]
  else
    let lo := packLo l.value
    let hi := packHi l.value lo
    let n := hi - lo + 1
    let off := (64 * lo + 65536 - 300) % 65536
    (flags + n * 2 ^ 16 + off) :: (List.range n).map (fun i => caskWordAt l.value (lo + i))

/-- A record's header fields, once its words have arrived. -/
structure Packed where
  header : Nat
  words : List Nat
deriving DecidableEq, Repr

namespace Packed

def n (r : Packed) : Nat := r.header / 2 ^ 16 % 16
def emptyBit (r : Packed) : Bool := r.header.testBit 27
def kindCode (r : Packed) : Nat := r.header / 2 ^ 25 % 4
def kind (r : Packed) : CaskKind := match r.kindCode with
  | 0 => .sum
  | 1 => .min
  | _ => .max

/-- lo of the record's offset, when it is -300 + 64 lo with lo from 0 to 9. -/
def lo? (r : Packed) : Option Nat :=
  let o := (r.header % 65536 + 300) % 65536
  if o % 64 = 0 ∧ o / 64 < 10 then some (o / 64) else none

/-- The 640-bit value: zeros below lo, sign extension above (R139). -/
def value (r : Packed) : CaskWord :=
  match r.lo?, r.words.getLast? with
  | some lo, some w =>
    let bits : Nat := r.words.foldr (fun x acc => x + 2 ^ 64 * acc) 0
    let k := 64 * r.words.length
    let z : Int := if w / 2 ^ 63 = 1 then (bits : Int) - (2 ^ k : Nat) else bits
    BitVec.ofInt 640 (z * 2 ^ (64 * lo))
  | _, _ => 0

/-- The line a record stands for. -/
def line (r : Packed) : Line :=
  { value := r.value, nan := r.header.testBit 21, pinf := r.header.testBit 22, ninf := r.header.testBit 23,
    ovf := r.header.testBit 24, kind := r.kind, empty := r.emptyBit }

/-- A record is malformed by itself (R141, but for the kind of the receiver; the kind of an empty record is not checked). An
empty cask holds zero (R127), so R139's packer writes no word for one. -/
def malformed (r : Packed) : Bool :=
  r.header / 2 ^ 28 != 0 || r.header.testBit 20 || r.kindCode == 3 || (r.emptyBit && r.n != 0) ||
    (match r.lo? with
      | none => true
      | some lo => decide (10 < lo + r.n)) ||
    r.words.length != r.n ||
    (packLine r.line).headD 0 % 2 ^ 20 != r.header % 2 ^ 20 || (packLine r.line).tail != r.words

end Packed

/-- A non-empty record whose kind differs from that of a non-empty receiving line (R141). -/
def kindClash (l : Line) (r : Packed) : Bool := !r.emptyBit && !l.empty && decide (r.kind ≠ l.kind)

/-- A well-formed packed record enters a line (R140, R508). DESIGN CHOICE (log 76): pinf and ninf of an empty record leave a
minimum or maximum as it is. -/
def takePacked (l : Line) (r : Packed) : Line :=
  let x := r.line
  let l1 : Line := { l with nan := l.nan || x.nan, ovf := l.ovf || x.ovf }
  if x.empty then
    if l1.kind = .sum ∨ l.empty then { l1 with pinf := l1.pinf || x.pinf, ninf := l1.ninf || x.ninf } else l1
  else
    let k := l.kindFor x.kind
    if k = .sum then
      ({ l1 with kind := k, empty := false, pinf := l1.pinf || x.pinf, ninf := l1.ninf || x.ninf } : Line).addUnits
        x.value.toInt
    else
      ({ l1 with kind := k, empty := false } : Line).setExt (if l.empty then x.ext else Line.better k l.ext x.ext)

/-- Multiply a line by 2^-d: an arithmetic shift, bits below bit 0 dropped (R230). -/
def shiftLine (l : Line) (d : Nat) : Line := { l with value := BitVec.ofInt 640 (l.value.toInt / (2 ^ d : Int)) }

/-- Bytes of a packed record, little-endian words. -/
def packBytes (l : Line) : List Byte := (packLine l).flatMap (fun w => Memory.bytesLE w 8)

/-- Read a packed record from a byte function: header, then n words. -/
def packedAt (rd : Nat → Nat → Nat) (a : Nat) : Packed :=
  let h := rd a 8
  { header := h, words := (List.range (h / 2 ^ 16 % 16)).map (fun i => rd (a + 8 + 8 * i) 8) }

/-! ## Write-out (R104, R131 to R136) -/

/-- The exact value that a write-out rounds: the line plus the bias, with its flags resolved (R89, R134,
R217). An empty line that a MINPLUS or MAXPLUS pass feeds holds +inf or -inf (R104, log 22). -/
def lineVal (l : Line) (bias : Option F32) : Val :=
  let b := match bias with
    | none => Val.fin false 0 0
    | some x => f32v x
  if l.nan || l.ovf || (l.pinf && l.ninf) then .nan
  else
    let v := if l.pinf then .inf false else if l.ninf then .inf true
      else if l.empty then (match l.kind with
        | .sum => Val.fin false 0 0
        | .min => .inf false
        | .max => .inf true)
      else l.finite
    match Val.add v b with
    | .fin _ 0 _ => .fin false 0 0
    | w => w

/-- An infinite result that stands for an empty minimum or maximum: no flag, and the largest finite where
the format has no infinity (R104). -/
def emptyExtremum (l : Line) (v : Val) : Bool :=
  l.empty && decide (l.kind ≠ .sum) && !l.nan && !l.pinf && !l.ninf && (match v with
    | .inf _ => true
    | _ => false)

/-- Write a value out into a format under mode, policy and scale X (none for a wide format) (R131). -/
def writeOut (f : Fmt) (mode : RMode) (pol : Policy) (x : Option Nat) (v : Val) (emptyExt : Bool) : Rounded :=
  let v := match x with
    | none => v
    | some x => Val.scale (127 - (x : Int)) v
  match emptyExt, v with
  | true, .inf s => if f.hasInf then ⟨f.signed s f.infCode, false, false⟩ else ⟨f.largest s, false, false⟩
  | _, _ => roundTo f mode pol v false

/-- Counts of a write-out: NaN outputs, infinite outputs, finite overflows, lines with ovf set (R151). -/
structure Counts where
  nan : Nat
  inf : Nat
  sat : Nat
  ovf : Bool
deriving DecidableEq, Repr

def Counts.zero : Counts := ⟨0, 0, 0, false⟩

def Counts.plus (a b : Counts) : Counts := ⟨a.nan + b.nan, a.inf + b.inf, a.sat + b.sat, a.ovf || b.ovf⟩

/-- Counts of one output. DESIGN CHOICE (log 76): an infinity that stands for an empty minimum or maximum is an infinite
output. -/
def countOut (f : Fmt) (r : Rounded) : Counts :=
  let v := f.decode r.code
  ⟨bit (r.blockNan || v.isNan), bit (match v with
    | .inf _ => !r.blockNan
    | _ => false), bit r.overflow, false⟩

/-- A finished block: codes and its scale; a NaN in a format without NaN makes the whole block NaN, all 32
elements counted (R136, R151). -/
def finishBlock (f : Fmt) (x : Nat) (rs : List Rounded) : List Nat × Nat × Counts :=
  if rs.any (·.blockNan) then
    (rs.map (fun _ => 0), 0xff, ⟨rs.length, 0, (rs.filter (·.overflow)).length, false⟩)
  else (rs.map (·.code), x, rs.foldl (fun c r => c.plus (countOut f r)) Counts.zero)

/-- Add counts to NUM_FLAGS (R151). -/
def addCounts (w : Word) (c : Counts) : Word :=
  let w := bumpF (bumpF (bumpF w numFlags_nanOut c.nan) numFlags_infOut c.inf) numFlags_satOut c.sat
  if c.ovf then setF w numFlags_caskOvf 1 else w

namespace State

/-- A malformed packed record was refused: pk_bad counts it and the step check fails (R141). -/
def packedBad (s : State) (tl : TileRef) : State :=
  let t := s.tile tl
  (s.setTile tl { t with numFlags := bumpF t.numFlags numFlags_pkBad 1 }).failBit stepCheckStatus_packed

end State

/-- The line of a cask. -/
def caskLine (t : Tile) (c i : Nat) : Line := Sparse.get Line.reset t.casks (c * 256 + i)

def setCaskLine (t : Tile) (c i : Nat) (l : Line) : Tile :=
  { t with casks := Sparse.set Line.reset t.casks (c * 256 + i) l }

/-- Every cask line cleared and every stationary register exact +0, complete, its scale 1 (R55, R510). -/
def clearTile (t : Tile) : Tile :=
  { t with
    casks := []
    arrays := Sparse.mapV Arr.reset (fun a =>
      { a with active := StatSet.reset, shadow := StatSet.reset, complete := true, untaken := false, passes := [] }) t.arrays }

end Sys2Proof.Machine
end

