-- ==== Sys2Proof/Machine/Hbm.lean ====
section
/-!
DEFINITION. HBM: the address map and interleave, regions, the state page map, errors and channel failures,
and the commands of the memory controllers: COPY_ON_WRITE, PATROL_SCRUB, STACK_TEMPERATURE_READOUT and
REFRESH_MANAGEMENT (R281 to R299).
-/
namespace Sys2Proof.Machine

/-- Bytes of a partition's window (R282) and of a page frame (R294). -/
def windowBytes : Nat := 0x2000000000
def pageBytes : Nat := 65536

/-- Base address of a partition. -/
def partBase (p : Nat) : Nat := p * windowBytes

/-- Offset and length of the system area of a partition (R284). -/
def sysBytes (p : Nat) : Nat := if p = 0 then 0xa0000000 else 0x20000000

/-- Stack, pseudo-channel and unit of a partition offset, with S stacks (R283). -/
def interleave (S o : Nat) : Nat × Nat × Nat :=
  let g := o / 256
  (g % S, g / S % 32, g / (32 * S))

/-- Row of a 256-byte unit: PRESUMED (log 25), the spec gives no row size. -/
def rowOfUnit (u : Nat) : Nat := u / 4

namespace State

/-- Stacks per partition. -/
def S (s : State) : Nat := max 1 s.flash.memStacks

/-- Bytes of populated memory of a partition (R282). -/
def populated (s : State) : Nat := s.S * 0x600000000

/-- Regions of a partition. -/
def regionsOf (s : State) (p : Nat) : List Region := ((s.role.map (·.regions)).getD []).filter (fun r => r.part == p)

def regionAt (s : State) (p o : Nat) : Option Region :=
  (s.regionsOf p).find? (fun r => decide (r.base ≤ o) && decide (o < r.base + r.len))

def regionTy (s : State) (p : Nat) (ty : RegionTy) : Option Region := (s.regionsOf p).find? (fun r => r.ty == ty)

/-! ## The state page map (R294 to R298) -/

def blankPage : PageEntry := { copied := false, racked := false, snap := 0, live := 0 }

def page (s : State) (p i : Nat) : PageEntry := (s.part p).pages.getD i blankPage

/-- The page of a STATE address, as partition and index. -/
def pageOf (s : State) (a : Nat) : Option (Nat × Nat) :=
  let p := a / windowBytes
  let o := a % windowBytes
  (s.regionTy p .state).bind (fun r =>
    if r.base ≤ o ∧ o < r.base + r.len then some (p, (o - r.base) / pageBytes) else none)

/-- Physical address of a byte; `snapView` reads the open snapshot, S(N) (R295). -/
def phys (s : State) (snapView : Bool) (a : Nat) : Nat :=
  match s.pageOf a with
  | none => a
  | some (p, i) =>
    let e := s.page p i
    let f := if snapView && e.copied then e.snap else e.live
    partBase p + f * pageBytes + a % pageBytes

/-- Read and write bytes at 48-bit addresses, through the page map. -/
def hbmRead (s : State) (snapView : Bool) (a : Nat) : Nat → List Byte
  | 0 => []
  | n + 1 => Memory.read s.mem (s.phys snapView a) :: s.hbmRead snapView (a + 1) n

def hbmWrite (s : State) (a : Nat) : List Byte → State
  | [] => s
  | b :: bs => hbmWrite { s with mem := Memory.write s.mem (s.phys false a) b } (a + 1) bs

/-- Pages that a range of STATE touches and that the open snapshot has not copied (R295). -/
def uncopied (s : State) (a n : Nat) : Bool :=
  s.job.sigmaOpen && (List.range ((n + pageBytes - 1) / pageBytes + 1)).any (fun i =>
    let x := if i * pageBytes < n then a + i * pageBytes else a + n - 1
    decide (n ≠ 0) && (match s.pageOf x with
      | none => false
      | some (p, j) => !(s.page p j).copied))

/-- Copied pages of a partition. -/
def copiedIn (s : State) (p : Nat) : Nat := ((s.part p).pages.filter (·.copied)).length

def copiedAll (s : State) : Nat := ((List.range 8).map s.copiedIn).sum

/-- SNAP_POOL_STATUS shows the pages copied and their peak. -/
def poolStatus (s : State) : State :=
  let c := s.copiedAll
  { s with mir := { s.mir with
      snapPool := setF (setF s.mir.snapPool snapPoolStatus_copied c) snapPoolStatus_peak
        (max (getF s.mir.snapPool snapPoolStatus_peak) c) } }

/-- The lowest frame of STATE or SNAP that no entry names (R294, R295). -/
def freeFrame (s : State) (p : Nat) : Option Nat :=
  let used := (s.part p).pages.flatMap (fun e => if e.copied then [e.live, e.snap] else [e.live])
  let frames (ty : RegionTy) : List Nat := match s.regionTy p ty with
    | none => []
    | some r => (List.range (r.len / pageBytes)).map (fun i => r.base / pageBytes + i)
  (frames .snap ++ frames .state).find? (fun f => !used.contains f)

/-- Copy a page's live frame to a free frame for the snapshot (R295). -/
def copyPage (s : State) (p i : Nat) : State :=
  match s.freeFrame p with
  | none => s
  | some f =>
    let e := s.page p i
    let m := Memory.copy s.mem (partBase p + e.live * pageBytes) (partBase p + f * pageBytes) pageBytes
    (({ s with mem := m }).onPart p (fun a => { a with pages := a.pages.set i { e with snap := f, copied := true } })).poolStatus

/-- A rollback walks the map: copied pages swap their frames (R297). -/
def decantPages (s : State) : State :=
  (s.allParts (fun a => { a with pages := a.pages.map (fun e =>
    if e.copied then { e with live := e.snap, snap := 0, copied := false } else e) })).poolStatus

/-- A commit returns the snapshot's frames and opens the next (R298). -/
def rotateSnapshot (s : State) : State :=
  let s := s.allParts (fun a => { a with pages := a.pages.map (fun e => { e with copied := false, racked := false, snap := 0 }) })
  ({ s with job := { s.job with sigmaOpen := true } }).poolStatus

/-! ## Errors (R285 to R288) -/

/-- The controller counts an error at a pseudo-channel and unit. -/
def memCount (s : State) (p k pch unit : Nat) (f : Field) (n : Nat) : State :=
  let st := s.stack p k
  s.setStack p k { st with
    ecc := setF (setF (bumpF st.ecc f n) memEccCounts_lastPch pch) memEccCounts_lastUnit unit }

/-- A row enters the soft repair record (R288). -/
def softRow (s : State) (p k row : Nat) : State :=
  let st := s.stack p k
  { s.setStack p k { st with repair := bumpF st.repair memRepair_softRows 1 } with
    flash := { s.flash with softRows := (p * 4 + k, row) :: s.flash.softRows } }

/-- A pseudo-channel fails (R287): its bit is set and the device declares itself failed. -/
def channelFail (s : State) (p k pch : Nat) : State :=
  let st := s.stack p k
  let m := getF st.repair memRepair_failedPch
  (s.setStack p k { st with repair := setF st.repair memRepair_failedPch (m ||| 2 ^ pch) }).declareFailed causeChannel

/-- A corrected read: counted, and at the 16th of a row the row is recorded (R285, R288). -/
def hbmCorrected (s : State) (p k pch unit : Nat) : State :=
  let s := s.memCount p k pch unit memEccCounts_ceCount 1
  let st := s.stack p k
  let key := pch * 2 ^ 24 + rowOfUnit unit
  let n := Sparse.get 0 st.rowCe key + 1
  let s := s.setStack p k { st with rowCe := Sparse.set 0 st.rowCe key n }
  if n = 16 then s.softRow p k key else s

/-- Regions whose data a step can lose (R286). -/
def transient : RegionTy → Bool
  | .stash => true
  | .scratch => true
  | .eval => true
  | _ => false

/-- An uncorrectable error by the region it falls in (R286). -/
def hbmUncorrectable (s : State) (p k pch unit o : Nat) : State :=
  let s := s.memCount p k pch unit memEccCounts_ueCount 1
  if o < sysBytes p then s.channelFail p k pch
  else match s.regionAt p o with
    | none => s.softRow p k (pch * 2 ^ 24 + rowOfUnit unit)
    | some r =>
      if transient r.ty then
        let st := s.stack p k
        let n := Sparse.get 0 st.ueInJob pch + 1
        let s := s.setStack p k { st with ueInJob := Sparse.set 0 st.ueInJob pch n }
        if 2 ≤ n then s.channelFail p k pch else s.failBit stepCheckStatus_ue
      else s.channelFail p k pch

/-- Errors met while a tile read a range of HBM that begins at address a. -/
def hbmEcc (s : State) (a : Nat) (e : Ecc) : State :=
  let p := a / windowBytes
  let o := a % windowBytes
  let (k, pch, unit) := interleave s.S o
  match e with
  | .clean => s
  | .corrected _ => s.hbmCorrected p k pch unit
  | .uncorrectable => s.hbmUncorrectable p k pch unit o

end State

/-! ## COPY_ON_WRITE -/

namespace State

/-- A transfer of a channel that has waited for its pages alone. -/
def copyWaited (s : State) (x : Xfer) (p i : Nat) : Bool :=
  match x.d.kind with
  | .toHbm a => !s.uncopied a x.d.len && (s.pageOf a == some (p, i) || s.pageOf (a + x.d.len - 1) == some (p, i))
  | _ => false

/-- The wait of each channel that a page's copy ends is a stall of its tile (R64, R295, R317). -/
def copyStalls (s : State) (p i : Nat) : State :=
  s.tiles.foldl (fun s t => t.2.chans.foldl (fun s c =>
    match c.2.queue with
    | x :: _ => if s.copyWaited x p i then s.stall ⟨t.1 / 256, t.1 % 256⟩ stallCopy ((s.now - x.since) / usTicks) else s
    | [] => s) s) s

/-- The first write to a page copies it (R295). `ue`: an uncorrectable error in either frame, a channel
failure (R296). -/
def copyOnWrite (s : State) (p i : Nat) (ue : Bool) : State :=
  if !s.alive || !s.job.sigmaOpen || decide ((s.part p).pages.length ≤ i) || (s.page p i).copied then s
  else if ue then
    let (k, pch, unit) := interleave s.S ((s.page p i).live * pageBytes)
    (s.memCount p k pch unit memEccCounts_ueCount 1).channelFail p k pch
  else (s.copyPage p i).copyStalls p i

end State

/-- COPY_ON_WRITE (R295). -/
def execCopyOnWrite (p page : Nat) (ue : Bool) (s : State) : Host.Outcome State Fault Refusal := .next (s.copyOnWrite p page ue)

/-! ## Scrub, temperature, refresh -/

namespace State

/-- HBM is trained and awake: from MEMORY_READY on, and not in the self-refresh of DORMANT or RETAIN (R449). -/
def hbmUp (s : State) : Bool :=
  s.alive && decide (DS.memoryReady ≤ s.devState) && s.devState != DS.dormant &&
    getF s.pow.state pwrState_state != 2 && getF s.pow.state pwrState_state != 3

/-- The scrub reads one unit while scrub_en is 1 (R285, R286); an on-die report counts while ECS is on (R281). -/
def patrolScrub (s : State) (p k pch unit : Nat) (r : ScrubRes) : State :=
  if !s.hbmUp then s else
  match r with
  | .clean => s
  | .corrected => if flagF (s.stack p k).ctl memCtl_scrubEn then s.hbmCorrected p k pch unit else s
  | .uncorrectable =>
    if flagF (s.stack p k).ctl memCtl_scrubEn then
      s.hbmUncorrectable p k pch unit (((unit * 32 + pch) * s.S + k) * 256)
    else s
  | .onDie => if flagF (s.stack p k).ctl memCtl_ecsEn then s.memCount p k pch unit memEccCounts_ondieCount 1 else s

/-- The stack's temperature is read out every 1 ms for the power controller (R281). -/
def stackTemperature (s : State) (p k temp : Nat) : State :=
  if !s.hbmUp then s else
  let s := s.setStack p k { s.stack p k with temp := temp }
  let hot := ((List.range s.S).map (fun j => (s.stack p j).temp)).foldl max 0
  s.onPart p (fun a => { a with hbmTemp := hot })

end State

/-- PATROL_SCRUB (R285). -/
def execPatrolScrub (p k pch unit : Nat) (r : ScrubRes) (s : State) : Host.Outcome State Fault Refusal :=
  .next (s.patrolScrub p k pch unit r)

/-- STACK_TEMPERATURE_READOUT (R281). -/
def execStackTemperatureReadout (p k temp : Nat) (s : State) : Host.Outcome State Fault Refusal :=
  .next (s.stackTemperature p k temp)

/-- REFRESH_MANAGEMENT (R281): the controller issues the refresh command that the stack asks for; nothing that
the spec gives state changes. -/
def execRefreshManagement (_p _k : Nat) (s : State) : Host.Outcome State Fault Refusal := .next s

end Sys2Proof.Machine
end

