-- ==== Sys2Proof/Machine/Sites.lean ====
section
/-!
DEFINITION. Tile sites: self-test results, verdicts, numbering, the soft repair record, loading a tile from
the image, and the tile graft's choice of a site (R30, R67, R71, R268, R348, R468 to R473).
-/
namespace Sys2Proof.Machine

/-- Sites of a partition (R71). -/
def siteCount : Nat := 176

/-- Units covered by a quick and by a full self-test (R71). -/
def quickUnits : Nat := 0x10ffff
def fullUnits : Nat := 0x1fffff

/-- Units S0 to S12. -/
def arrayUnits : Nat := 0x1fff

/-- Units recorded bad for a site in a list of (partition, site, units). -/
def unitsOf (l : List (Nat × Nat × Nat)) (p x : Nat) : Nat :=
  l.foldl (fun m e => if e.1 = p ∧ e.2.1 = x then m ||| e.2.2 else m) 0

/-- Number of bits of `m` below bit 21. -/
def unitCount (m : Nat) : Nat := ((List.range 21).filter m.testBit).length

/-- A site is usable when every unit but the arrays is good and at most one of S0 to S12 is bad (R468). -/
def usableUnits (m : Nat) : Bool := m % 2 ^ 21 == m % 2 ^ 13 && decide (unitCount m ≤ 1)

/-- Classes of R469: 0 all good, 1 S12 alone bad, 2 S12 substituted. -/
def unitClass (m : Nat) : Nat := if m = 0 then 0 else if m = 2 ^ 12 then 1 else 2

/-- The array that S12 replaces on a site, 15 for none (R468). -/
def s12Of (m : Nat) : Nat := ((List.range 12).find? m.testBit).getD 15

/-- The result bits of SITE_BIST after a test that covers `units` (R71). -/
def testBits (w : Word) (units fails : Nat) : Word :=
  setF w ⟨20, 0⟩ ((w.toNat &&& (2 ^ 21 - 1 - units)) ||| (fails &&& units))

/-- Self-test erases the store, the casks, the lees store and the sync counters, and clears the stationary
registers (R67, R510). -/
def eraseTile (t : Tile) : Tile := { t with store := [], casks := [], arrays := [], lees := [], counters := [] }

/-- Program words in their places (R269). -/
def progOf (ws : List Word) : Sparse Word :=
  ws.zipIdx.filterMap (fun w => if w.1 = 0 then none else some (w.2, w.1))

def funcsOf (fs : List (Nat × BitVec 32)) : Sparse (BitVec 32) :=
  fs.foldl (fun m f => Sparse.set 0 m f.1 f.2) []

namespace State

/-- Units of a site that are bad by the fuse map, the soft repair record and the recorded verdicts (R468). -/
def siteVerdict (s : State) (p x : Nat) : Nat :=
  unitsOf s.flash.fuseBad p x ||| unitsOf s.flash.softBad p x ||| Sparse.get 0 (s.part p).verdicts x

def usableSites (s : State) (p : Nat) : List Nat := (List.range siteCount).filter (fun x => usableUnits (s.siteVerdict p x))

/-- Enter units of a site in the soft repair record. -/
def softSite (s : State) (p x units : Nat) : State :=
  if units = 0 then s else
  { s with flash := { s.flash with softBad := (p, x, units) :: s.flash.softBad } }

def siteRole (s : State) (p x : Nat) : Nat := getF (s.site p x).bist siteBist_siteRole

def setSiteRole (s : State) (p x role t : Nat) : State :=
  let a := s.site p x
  s.setSite p x { a with bist := setF (setF a.bist siteBist_siteRole role) siteBist_logicalT t }

/-- Spare sites of a partition, ascending (R30). -/
def spareSites (s : State) (p : Nat) : List Nat := (List.range siteCount).filter (fun x => s.siteRole p x == 1)

/-- YIELD_SUMMARY of a partition counts its sites as they stand, against n tiles of the grade (R475). -/
def countYieldFor (s : State) (p n : Nat) : State :=
  let us := s.usableSites p
  s.onPart p (fun a => { a with
    yield := setF (setF (setF (setF (setF (setF a.yield
      yieldSummary_usable us.length)
      yieldSummary_bad (siteCount - us.length))
      yieldSummary_s12Used ((us.filter (fun x => s12Of (s.siteVerdict p x) != 15)).length))
      yieldSummary_spares (s.spareSites p).length)
      yieldSummary_softTotal ((List.range siteCount).filter (fun x => unitsOf s.flash.softBad p x != 0)).length)
      yieldSummary_short (bit (decide (us.length < n))) })

def countYield (s : State) (p : Nat) : State := s.countYieldFor p (getF s.dev.caps devCaps_tiles)

/-! ## Loading a tile from the image -/

/-- The record of a tile in the image's role (R268). -/
def recordOf (s : State) (tl : TileRef) : Option TileRec :=
  (s.role.map (·.tiles)).getD [] |>.find? (fun r => r.p == tl.p && r.t == tl.t)

/-- The program store and the function tables from the image (R67, R348). -/
def loadCode (s : State) (tl : TileRef) : State :=
  match s.role, s.recordOf tl with
  | some r, some rec =>
    s.onTile tl (fun t => { t with
      prog := progOf (((rec.program.bind (fun i => r.programs[i]?))).getD [])
      funcs := funcsOf (((rec.funcs.bind (fun i => r.funcs[i]?))).getD []) })
  | _, _ => s

/-! ## Self-test of one site -/

/-- A self-test of a site ends: its bits are rewritten, and the tile on the site is erased and takes its result
(R67, R71). -/
def siteTested (s : State) (p x units fails : Nat) : State :=
  let a := s.site p x
  let s := s.setSite p x { bist := testBits a.bist units fails, mode := 0, running := false }
  let t := getF a.bist siteBist_logicalT
  if getF a.bist siteBist_siteRole ≠ 0 then s
  else
    let tl : TileRef := ⟨p, t⟩
    let s := s.onTile tl (fun t => { eraseTile t with
      status := setF (setF (setF t.status tileStatus_bistResult (if fails &&& units = 0 then 1 else 2)) tileStatus_tileState TS.idle)
        tileStatus_s12For (if (fails &&& units).testBit 12 then 15 else getF t.status tileStatus_s12For) })
    s.loadCode tl

/-- A unit that fails its test and its retest is bad and enters the soft repair record; one that passes the retest
is counted (R468). -/
def judge (s : State) (r : SiteRes) : State :=
  let known := s.siteVerdict r.p r.s
  let failed := r.first &&& (fullUnits - known % 2 ^ 21)
  let bad := failed &&& r.retest
  let s := s.softSite r.p r.s bad
  s.onPart r.p (fun a => { a with
    verdicts := Sparse.set 0 a.verdicts r.s (known ||| bad)
    yield := bumpF (bumpF a.yield yieldSummary_retestPass (unitCount (failed - bad))) yieldSummary_softNew (unitCount bad) })

/-! ## Numbering (R469) -/

/-- The first n usable sites in rank, ascending. -/
def rankedSites (s : State) (p n : Nat) : List Nat :=
  let us := s.usableSites p
  let cls (k : Nat) : List Nat := us.filter (fun x => unitClass (s.siteVerdict p x) == k)
  let chosen := (cls 0 ++ cls 1 ++ cls 2).take n
  (List.range siteCount).filter chosen.contains

/-- Put a site under a logical number that had none (R469). -/
def numberTile (s : State) (p : Nat) (xt : Nat × Nat) : State :=
  let tl : TileRef := ⟨p, xt.2⟩
  (s.setSiteRole p xt.1 0 xt.2).onTile tl (fun t => { t with
    map := setF (setF (setF t.map tileMap_site xt.1) tileMap_prevSite 0xff) tileMap_graftCount 0
    status := setF t.status tileStatus_s12For (s12Of (s.siteVerdict p xt.1)) })

/-- Roles of every site by its verdict: usable 0x01, bad 0x02, no number (R470). -/
def roleSites (s : State) (p : Nat) : State :=
  (List.range siteCount).foldl (fun s x =>
    s.setSiteRole p x (if usableUnits (s.siteVerdict p x) then 1 else 2) 0xff) s

/-- Number the tiles of a partition. -/
def numberPart (s : State) (p n : Nat) : State :=
  ((s.rankedSites p n).zipIdx).foldl (fun s xt => s.numberTile p xt) (s.roleSites p)

/-! ## The tile graft (R348) -/

/-- A site is marked bad in a job: role, verdict and soft repair record in one update (R348, R468). -/
def siteBad (s : State) (p x units : Nat) : State :=
  let u := if units = 0 then 2 ^ 13 else units
  ((s.setSiteRole p x 2 0xff).softSite p x u).onPart p (fun a => { a with
    verdicts := Sparse.set 0 a.verdicts x (Sparse.get 0 a.verdicts x ||| u) })

/-- The spare sites tried in turn, each with the result of its quick self-test: bad ones are marked, and the first
that passes is answered. -/
def trySpares (s : State) (p : Nat) : List Nat → List Nat → State × Option Nat
  | [], _ => (s, none)
  | x :: xs, rs =>
    let fails := rs.headD 0
    let a := s.site p x
    let s := s.setSite p x { a with bist := testBits a.bist quickUnits fails }
    if fails &&& quickUnits = 0 then (s, some x) else (s.siteBad p x (fails &&& quickUnits)).trySpares p xs rs.tail

/-- A tile that has moved to a site: transient contents erased, numbers and registers kept. -/
def movedTo (t : Tile) (x s12 : Nat) : Tile :=
  let e := eraseTile t
  { e with
    map := setF (setF (bumpF e.map tileMap_graftCount 1) tileMap_prevSite (getF e.map tileMap_site)) tileMap_site x
    status := setF (setF (setF e.status tileStatus_s12For s12) tileStatus_bistResult 1) tileStatus_tileState TS.idle
    rowIn := [], vecIn := [], loaderA := none, loaderB := none, seq := Seq.reset, chans := [], stash := Stash.reset }

/-- Graft a logical tile onto a spare site; with no spare left the device asks for replacement (R348). `rs`:
quick self-test results of the sites tried, a failed one of which gives the tile fault 0x0A (R68). -/
def graftTile (s : State) (tl : TileRef) (rs : List Nat) : State :=
  let old := getF (s.tile tl).map tileMap_site
  let tried := s.spareSites tl.p
  let (s, found) := s.trySpares tl.p tried rs
  let s := if found = tried.head? then s
    else s.onTile tl (fun t => { t with status := setF t.status tileStatus_faultCode 10 })
  let s := ((s.siteBad tl.p old ((s.site tl.p old).bist.toNat % 2 ^ 21)).failBit stepCheckStatus_tile).onJob
    (fun j => { j with uncounted := true })
  match found with
  | none => (s.countYield tl.p).declareFailed causeNoSpare
  | some x =>
    let s := s.setSiteRole tl.p x 0 tl.t
    let s12 := s12Of (s.siteVerdict tl.p x)
    ((s.onTile tl (fun t => movedTo t x s12)).loadCode tl).countYield tl.p

end State
end Sys2Proof.Machine
end

