-- ==== Sys2Proof/Machine/Arrays.lean ====
section
/-!
DEFINITION. The sequencer's issue of one instruction, and the operand loaders and matrix arrays: LOAD,
PASS, SWAP and PASS_DRAINED (R60, R72 to R105, R237 to R246).
-/
namespace Sys2Proof.Machine
namespace State

/-! ## Issuing an instruction -/

/-- Free the stash entries of a lot that an instruction has read last (R202). -/
def freeLot (s : State) (tl : TileRef) (lot : Nat) (ns : List Nat) : State :=
  if ns.isEmpty then s else
  s.onTile tl (fun t => { t with stash := { t.stash with
    entries := t.stash.entries.filter (fun e => !(e.lot == lot && ns.contains e.num)) } })

/-- Those of the lot at hand. -/
def freeEntries (s : State) (tl : TileRef) (ns : List Nat) : State := s.freeLot tl (s.tile tl).seq.lot ns

/-- Stage programs run in RUNNING and during an evaluation, and not between a rollback and its replay. -/
def stagesRun (s : State) : Bool := s.alive && (s.devState == DS.running || s.job.evaluating) && s.job.rollbackAt.isNone

/-- The units of a tile go on with the operations they hold: the tile is not off, faulted or in self-test, its partition
not fenced (R60, R76). -/
def unitsRun (s : State) (tl : TileRef) : Bool :=
  let st := getF (s.tile tl).status tileStatus_tileState
  s.stagesRun && !s.partFenced tl.p && (st == TS.idle || st == TS.running || st == TS.waiting)

/-- A tile issues instructions when it holds a program with a phase left in its schedule (R203), is not off,
faulted or in self-test, its partition is not fenced, and the stash is not exhausted (R207). -/
def canIssue (s : State) (tl : TileRef) : Bool :=
  let t := s.tile tl
  let st := getF t.status tileStatus_tileState
  !(flagF t.stashStatus stashStatus_exhausted && s.job.bits.testBit 13) && s.stagesRun && !s.partFenced tl.p && (t.record.bind (·.program)).isSome &&
    decide (t.seq.pos < (t.record.map (·.schedule.length)).getD 0) &&
    (!t.seq.evaluating || (t.record.map (·.evalStage)).getD false) &&
    (st == TS.idle || st == TS.running || st == TS.waiting)

/-- Issue the instruction at the sequencer's index when it has class `c` (log 7); a reserved class and the
mask table are illegal (R270). -/
def issue (s : State) (tl : TileRef) (c : Cls) (body : Tile → Word → State) : State :=
  let t := s.tile tl
  let w := curWord t
  if !s.canIssue tl then s
  else if 4032 ≤ t.seq.index then s.tileFault tl 6
  else match clsOf w with
    | none => s.tileFault tl 6
    | some k => if k = c then body t w else s

/-- The counter that an instruction names is incremented on completion (R60). -/
def syncDone (s : State) (tl : TileRef) (w : Word) : State :=
  if flagF w iw_syncEn then s.syncAdd tl (getF w iw_counter) (getF w iw_inc + 1) else s

/-- The instruction retires and its operation completes at once. -/
def finish (s : State) (tl : TileRef) (w : Word) : State := (s.retire tl).syncDone tl w

/-- Progress of a unit that the instruction reaches, then go on. Units: arrays 0 to 13, loaders 14 and 15,
cask file 16, row engine 17, vector unit 18, sequencer 19, transfer channels 20 to 27. -/
def touch (s : State) (tl : TileRef) (u : Nat) : State := s.markUnit tl u

end State

/-! ## Arrays and S12 -/

/-- The array that carries out work on array k: S12 (13) when it stands in for Sk (R51, R93). -/
def physArray (t : Tile) (k : Nat) : Nat := if getF t.status tileStatus_s12For = k ∧ k < 12 then 13 else k

def arrOf (t : Tile) (k : Nat) : Arr := Sparse.get Arr.reset t.arrays (physArray t k)

def setArr (t : Tile) (k : Nat) (a : Arr) : Tile :=
  { t with arrays := Sparse.set Arr.reset t.arrays (physArray t k) a }

/-- First cask of an array's columns (R54). -/
def firstCask (k : Nat) : Nat := if k = 12 then 192 else 16 * k

/-- S12 can still stand in: it replaces nothing and no self-test of the site failed it (R51, R52). -/
def s12Free (s : State) (tl : TileRef) : Bool :=
  let t := s.tile tl
  getF t.status tileStatus_s12For == 15 &&
    !(s.site tl.p (getF t.map tileMap_site)).bist.getLsbD 12 && !(s.siteVerdict tl.p (getF t.map tileMap_site)).testBit 12

/-! ## LOAD -/

/-- Numbers below `n` whose bit of `mask` is set. -/
def maskBits (n mask : Nat) : List Nat := (List.range n).filter mask.testBit

/-- Whether a position and column lie in a masked block (R244). -/
def inBlock (blocks : List (Nat × Nat)) (pos c : Nat) : Bool := blocks.contains (pos / 16, c / 16)

/-- Whether block (i, j) of W's bitmap is masked: one bit for each 16 x 16 block, row-major (R244). -/
def maskedAt (x : Tensor) (i j : Nat) : Bool := x.masked && x.mask.testBit (i * ((x.cols + 15) / 16) + j)

/-- Blocks of a stationary set, as (row block, column block), and whether each is masked (R244, R245). -/
def setBlocks (ts : List Tensor) (m : MaskAt) : List ((Nat × Nat) × Bool) :=
  match ts.find? (fun x => x.id == m.tensor) with
  | none => []
  | some x => (List.range ((m.kLen + 15) / 16)).flatMap (fun i => (List.range ((m.nLen + 15) / 16)).map (fun j =>
      let a := m.k0 / 16 + i
      let b := m.n0 / 16 + j
      ((i, j), if m.transposed then maskedAt x b a else maskedAt x a b)))

/-- The masked blocks of a set. -/
def maskedBlocks (ts : List Tensor) : Option MaskAt → List (Nat × Nat)
  | none => []
  | some m => ((setBlocks ts m).filter (·.2)).map (·.1)

/-- Every block that the product's pass covers is masked: neither LOAD nor PASS is issued (R244). -/
def allMasked (ts : List Tensor) : Option MaskAt → Bool
  | none => false
  | some m => !(setBlocks ts m).isEmpty && (setBlocks ts m).all (·.2)

/-- A PASS that takes array k's shadow set. -/
def takes (k : Nat) (w : Word) : Bool :=
  decide (clsOf w = some .pass) && flagF w pass_swap && getF w pass_array == k

/-- The PASS that takes the set which a LOAD at the sequencer's index brings to array k: the next in program order up to
the end of the phase, or, in a loop, the first of the program (log 75). -/
def takerOf (t : Tile) (k : Nat) : Option Word :=
  let endOf (e : Nat × Word) : Bool := decide (clsOf e.2 = some .flow) && getF e.2 flow_op == 4
  let ahead := (t.prog.filter (fun e => decide (t.seq.index < e.1 ∧ e.1 < 4032))).takeWhile (fun e => !endOf e)
  match ahead.find? (fun e => takes k e.2) with
  | some e => some e.2
  | none => ((t.prog.filter (fun e => decide (e.1 < t.seq.index))).find? (fun e => takes k e.2)).map (·.2)

/-- Both operands of the pass that takes the set are 4-bit: a cell holds two elements (R73). -/
def pairCells (t : Tile) (k : Nat) (f : Fmt) : Bool :=
  f.w == 4 && (match takerOf t k with
    | none => false
    | some w => getF w pass_mode != 3 && ((fmtEntry t (getF w pass_movingFmt)).map (·.w)) == some 4)

/-- What a shadow LOAD of array k works from (R75, R86, R239, R244). -/
structure LoadRun where
  pattern : Nat
  both4 : Bool
  n : Nat
  nb : Nat
  l : LoadAt
  rowMask : Nat
  cols : List Nat
  blocks : List (Nat × Nat)
deriving DecidableEq, Repr

/-- The cell of a position loads: its row is in the extent and its block is not masked (R86, R244). -/
def LoadRun.fires (r : LoadRun) (c pos ord : Nat) : Bool :=
  r.rowMask.testBit (rowOf r.pattern r.both4 pos ord) && !inBlock r.blocks pos c

def loadRun (t : Tile) (k : Nat) (w d0 d1 : Word) (blocks : List (Nat × Nat)) (x : Option Nat) (f : Fmt) : LoadRun :=
  let pat := getF w load_pattern
  let both4 := pairCells t k f
  let n := positions k pat both4
  { pattern := pat, both4 := both4, n := n, nb := blocksOf n, l := loadAt w d0 d1 f.w x,
    rowMask := (maskEntry t (getF w load_mask)).1, cols := maskBits (arrDepth k) (maskEntry t (getF w load_mask)).2,
    blocks := blocks }

/-- The stationary set that a shadow LOAD brings. -/
def loadedSet (t : Tile) (w : Word) (r : LoadRun) : StatSet :=
  let col (c : Nat) : List (Nat × Nat) × Nat :=
    if r.pattern = 0 then
      (((List.range r.n).filter (fun p => r.fires c p 0)).map (fun p => (cellKey p 0 c, vecElem t.store r.l c p)), 0)
    else
      let (es, bad) := compressedCol t.store r.l r.pattern r.n c (r.fires c)
      (es.map (fun e => (cellKey e.1 e.2.1 c, e.2.2)), bad)
  { fmt := getF w load_fmt, pattern := r.pattern, cleared := false,
    elems := r.cols.flatMap (fun c => (col c).1), rowMask := r.rowMask, colMask := (maskEntry t (getF w load_mask)).2,
    scales := r.cols.flatMap (fun c => (List.range r.nb).map (fun b => (c * 4 + b, vecScale t.store r.l r.nb c b))),
    badGroups := (r.cols.map (fun c => (c, (col c).2))).filter (fun x => x.2 != 0),
    blocks := r.blocks }

/-- The last byte that a shadow LOAD reads, plus 1 (R86, R511). A compressed column reads the kept elements and the
metadata of its groups up to the highest that fires. -/
def loadReach (r : LoadRun) : Nat :=
  r.cols.foldl (fun m c =>
    let top := (List.range r.n).reverse.find? (fun p =>
      r.fires c p 0 || (r.pattern == 1 && !r.both4 && r.fires c p 1))
    max m (match top with
      | none => 0
      | some p =>
        if r.pattern = 0 then max (elemEnd r.l c p) (scaleEnd r.l r.nb c (p / 32))
        else
          let per := keptPer r.pattern
          let b := p / 32
          max (r.l.elem + c * r.l.stride + b * (r.l.w * per) + (r.l.w * per * (p / 4 % 8 + 1) + 7) / 8)
            (max (r.l.idx + (c * r.nb + b + 1) * (if r.pattern = 1 then 4 else 2)) (scaleEnd r.l r.nb c b)))) 0

/-- A word's descriptor index is illegal: odd, or above 4030 (R270). -/
def badDesc (i : Nat) : Bool := i % 2 == 1 || decide (4030 < i)

namespace State

/-- Tensors of the image. -/
def tensors (s : State) : List Tensor := (s.image.map (·.tensors)).getD []

/-- A LOAD of a moving stream: the loader holds it until the next; it waits while a pass that has not
entered still needs the stream the loader holds. -/
def loadStream (s : State) (tl : TileRef) (t : Tile) (w d0 d1 : Word) (d : LoadDesc) : State :=
  let b := getF w load_loader
  let st : Stream := { word := w, d0 := d0, d1 := d1, mask := progWord t (4032 + getF w load_mask), x := loadX t w d.xslot }
  (((s.onTile tl (fun t => if b = 0 then { t with loaderA := some st } else { t with loaderB := some st })).touch
    tl (14 + b)).finish tl w).freeEntries tl d.frees

/-- A pass that has not entered still needs the stream that loader b holds. -/
def loaderBusy (t : Tile) (b : Nat) : Bool :=
  t.arrays.any (fun a => a.2.passes.any (fun p => !p.entered && getF p.word pass_loader == b))

/-- A LOAD into shadow sets. -/
def loadShadow (s : State) (tl : TileRef) (t : Tile) (w d0 d1 : Word) (d : LoadDesc) (f : Fmt) : State :=
  let blocks := maskedBlocks s.tensors d.mask
  (((s.onTile tl (fun u => (maskBits 13 (getF w load_arrays)).foldl (fun u k =>
      setArr u k { arrOf u k with
        shadow := loadedSet t w (loadRun t k w d0 d1 blocks (loadX t w d.xslot) f), complete := true, untaken := true }) u)).touch
    tl (14 + getF w load_loader)).finish tl w).freeEntries tl d.frees

/-- LOAD. A LOAD whose blocks are all masked is not issued: the sequencer goes on (R244, log 47). A stream waits for its
loader; a shadow LOAD waits while a set that no swap has taken is held (R79); an access beyond the store does not start
(R511). -/
def load (s : State) (tl : TileRef) (d : LoadDesc) (ecc : Ecc) : State :=
  s.issue tl .load fun t w =>
    let i := getF w iw_desc
    let pat := getF w load_pattern
    let target := getF w load_target
    let ks := maskBits 13 (getF w load_arrays)
    let d0 := progWord t i
    let d1 := progWord t (i + 1)
    if badDesc i || decide (1 < target) || pat == 3 || (target == 0 && pat != 0) || (pat == 2 && ks.contains 12) then
      s.tileFault tl 6
    else match fmtEntry t (getF w load_fmt) with
      | none => s.tileFault tl 6
      | some f =>
        if target = 1 ∧ allMasked s.tensors d.mask then s.finish tl w
        else if target = 0 ∧ loaderBusy t (getF w load_loader) then s.hold tl stallLoader
        else if target = 1 ∧ ks.any (fun k => (arrOf t k).untaken) then s.hold tl stallShadow
        else if target = 1 ∧ ks.any (fun k => decide (storeBytes <
            loadReach (loadRun t k w d0 d1 (maskedBlocks s.tensors d.mask) (loadX t w d.xslot) f))) then s.tileFault tl 9
        else
          let s := s.storeEcc tl ecc
          if ecc = .uncorrectable then s
          else if target = 0 then s.loadStream tl t w d0 d1 d
          else s.loadShadow tl t w d0 d1 d f

end State

/-- LOAD (R75, R79, R86, R183, R239, R511). -/
def execLoad (tl : TileRef) (d : LoadDesc) (ecc : Ecc) (s : State) : Host.Outcome State Fault Refusal :=
  .next (s.load tl d ecc)

/-! ## PASS -/

/-- Cell modes (R98). -/
inductive Mode where
  | mac | l2 | l1 | ham | minplus | maxplus | ccount
deriving DecidableEq, Repr

def modeOf : Nat → Option Mode
  | 0 => some .mac
  | 1 => some .l2
  | 2 => some .l1
  | 3 => some .ham
  | 4 => some .minplus
  | 5 => some .maxplus
  | 6 => some .ccount
  | _ => none

def Mode.kind : Mode → CaskKind
  | .minplus => .min
  | .maxplus => .max
  | _ => .sum

/-- The residue check runs in MAC and L2 (R105). -/
def Mode.residue : Mode → Bool
  | .mac => true
  | .l2 => true
  | _ => false

/-- Bits set in a byte. -/
def popcount8 (n : Nat) : Nat := ((List.range 8).filter n.testBit).length

/-- Formats, scales and codes of one term. -/
structure TermIn where
  fx : Fmt
  fw : Fmt
  sx : Nat
  sw : Nat
  x : Nat
  w : Nat
deriving DecidableEq, Repr

/-- The term of a cell (R98, R99, R102); -0 enters as zero, and a scale of 0xFF makes the element NaN (R120). -/
def term (m : Mode) (op : Nat) (i : TermIn) : Val :=
  let x := if i.sx = 0xff then Val.nan else i.fx.decode i.x
  let w := if i.sw = 0xff then Val.nan else i.fw.decode i.w
  let diff := Val.add x (Val.neg w)
  match m with
  | .mac => Val.mul x w
  | .ham => .fin false (popcount8 (i.x ^^^ i.w)) 0
  | .ccount =>
    let a := scaled i.fx i.x i.sx
    let b := scaled i.fw i.w i.sw
    if a.isNan || b.isNan then .nan
    else
      let holds := match op with
        | 0 => Val.lt a b
        | 1 => !Val.lt b a
        | 2 => Val.eqv a b
        | _ => !Val.eqv a b
      .fin false (bit holds) 0
  | .l2 => if i.sx ≠ i.sw then .nan else Val.mul diff diff
  | .l1 => if i.sx ≠ i.sw then .nan else Val.abs diff
  | .minplus => if i.sx ≠ i.sw then .nan else Val.add x w
  | .maxplus => if i.sx ≠ i.sw then .nan else Val.add x w

/-- Scale shift at the cask (R98, R128). -/
def shiftFor (m : Mode) (sx sw : Nat) : Int :=
  match m with
  | .mac => scaleExp sx + scaleExp sw
  | .l2 => 2 * scaleExp sx
  | .l1 => scaleExp sx
  | .minplus => scaleExp sx
  | .maxplus => scaleExp sx
  | .ham => 0
  | .ccount => 0

/-- Sum of the terms of a window with its flags (R83, R126). -/
def windowSum (ts : List Val) : Line.Part :=
  ts.foldl (fun p v => match v with
    | .nan => { p with nan := true }
    | .inf true => { p with ninf := true }
    | .inf false => { p with pinf := true }
    | .fin s m e => { p with val := p.val.map (fun a => Val.add a (.fin s m e)) })
    ⟨.sum, some (.fin false 0 0), false, false, false⟩

/-- Minimum or maximum of the terms of a window; none when every term is absent (R85, R508). -/
def windowExt (k : CaskKind) (ts : List Val) : Option Line.Part :=
  if ts.isEmpty then none else
  some (ts.foldl (fun p v => match v with
    | .nan => { p with nan := true }
    | v => { p with val := some (match p.val with
        | none => v
        | some a => Line.better k a v) })
    ⟨k, none, false, false, false⟩)

/-- The scaled partial of a window, or none where the window delivers nothing. -/
def windowPart (m : Mode) (sx sw : Nat) (ts : List Val) : Option Line.Part :=
  let p := if m.kind = .sum then some (windowSum ts) else windowExt m.kind ts
  p.map (fun p => { p with val := p.val.map (Val.scale (shiftFor m sx sw)) })

/-- What a stationary cell holds for a pass: a code, or nothing where it is absent (R86, R244, R510). -/
def cellCode (a : StatSet) (row pos ord c : Nat) : Option Nat :=
  if a.cleared then some 0
  else if inBlock a.blocks pos c then none
  else if !a.rowMask.testBit row || !a.colMask.testBit c then some (Config.undefElem a.fmt (cellKey pos ord c))
  else (a.elems.find? (fun e => e.1 == cellKey pos ord c)).map (·.2)

/-- The kept positions of column c of a set under a pattern, as (position, order): every position for a
dense set; for a compressed one those loaded, and the group's first positions where nothing was loaded. -/
def keptOf (a : StatSet) (pattern n c : Nat) : List (Nat × Nat) :=
  if pattern = 0 then (List.range n).map (fun p => (p, 0))
  else if a.cleared || !a.colMask.testBit c then
    (List.range (n / 4)).flatMap (fun g => (List.range (keptPer pattern)).map (fun o => (4 * g + o, o)))
  else (a.elems.filter (fun e => e.1 % 32 == c)).map (fun e => (e.1 / 64, e.1 / 32 % 2))

/-- Everything a running pass works from. -/
structure PassRun where
  mode : Mode
  op : Nat
  pattern : Nat
  both4 : Bool
  n : Nat
  nb : Nat
  fx : Fmt
  fw : Fmt
  l : LoadAt
  rowMask : Nat
  set : StatSet
deriving DecidableEq, Repr

/-- The partials of vector i at column c, one per window that delivers (R72, R82, R238). -/
def partialsOf (st : List Host.Cell) (r : PassRun) (i c : Nat) : List Line.Part :=
  (List.range r.nb).filterMap (fun b =>
    let sx := if r.mode = .ham then 0x7f else vecScale st r.l r.nb i b
    let sw := if r.mode = .ham then 0x7f else ((r.set.scales.find? (fun e => e.1 == c * 4 + b)).map (·.2)).getD 0x7f
    let ts := ((keptOf r.set r.pattern r.n c).filter (fun p =>
        p.1 / 32 == b && r.rowMask.testBit (rowOf r.pattern r.both4 p.1 p.2))).filterMap (fun p =>
      (cellCode r.set (rowOf r.pattern r.both4 p.1 p.2) p.1 p.2 c).map (fun w =>
        term r.mode r.op ⟨r.fx, r.fw, sx, sw, vecElem st r.l i p.1, w⟩))
    windowPart r.mode sx sw ts)

/-- A line takes the partials of its vector. A column with a malformed 2:4 group delivers NaN (R240). An
empty line that an extremum pass feeds keeps that kind (log 22). -/
def takeParts (l : Line) (k : CaskKind) (bad : Bool) (ps : List Line.Part) : Line :=
  let l := if l.empty && decide (k ≠ .sum) then { l with kind := k } else l
  let l := ps.foldl Line.take l
  if bad then l.take ⟨k, none, true, false, false⟩ else l

/-- Vectors 0 to m - 1 delivered to the casks of the unmasked columns (R53, R74). -/
def deliver (t : Tile) (k : Nat) (r : PassRun) (cols : List Nat) (m : Nat) : Tile :=
  let pairs := (List.range m).flatMap (fun i => cols.map (fun c => (i, c)))
  let t' := pairs.foldl (fun u ic =>
    let cask := firstCask k + ic.2
    let bad := r.set.badGroups.any (fun g => g.1 == ic.2)
    setCaskLine u cask ic.1 (takeParts (caskLine u cask ic.1) r.mode.kind (bad && r.pattern == 1) (partialsOf t.store r ic.1 ic.2))) t
  let ovf := pairs.any (fun ic => (caskLine t' (firstCask k + ic.2) ic.1).ovf)
  if ovf then { t' with numFlags := setF t'.numFlags numFlags_caskOvf 1 } else t'

/-- The stream that feeds a pass: the loader's, when its LOAD names the array. -/
def streamFor (t : Tile) (w : Word) : Option Stream :=
  (if getF w pass_loader = 0 then t.loaderA else t.loaderB).bind (fun st =>
    if (getF st.word load_arrays).testBit (getF w pass_array) then some st else none)

/-- What a pass works from once it enters (R73, R75, R84); a pass with every row masked needs no stream (R88). -/
def passRun (t : Tile) (p : PassOp) : Option PassRun :=
  let w := p.word
  let k := getF w pass_array
  match modeOf (getF w pass_mode), (if p.rowMask = 0 then some ((streamFor t w).getD ⟨0, 0, 0, 0, none⟩) else streamFor t w) with
  | some m, some st =>
    let a := arrOf t k
    match fmtEntry t (getF st.word load_fmt), fmtEntry t a.active.fmt with
    | some fx, some fw =>
      let both4 := decide (fx.w = 4 ∧ fw.w = 4 ∧ m ≠ .ham)
      let pat := getF w pass_pattern
      let n := positions k pat both4
      some { mode := m, op := getF w pass_op, pattern := pat, both4 := both4, n := n, nb := blocksOf n, fx := fx,
             fw := fw, l := loadAt st.word st.d0 st.d1 fx.w st.x, rowMask := p.rowMask, set := a.active }
    | _, _ => none
  | _, _ => none

/-- Vectors of a pass. -/
def passM (w : Word) : Nat := getF w pass_m

/-- A pass that takes no vector: M is 0, or no column is unmasked (R88). -/
def PassOp.idle (p : PassOp) : Bool := passM p.word == 0 || p.colMask == 0

namespace State

/-- S12 takes over array k: its sets, its passes and its casks; s12_for and fault code 0x01 (R51). -/
def substitute (s : State) (tl : TileRef) (k : Nat) : State :=
  (s.onTile tl (fun t =>
    let a := Sparse.get Arr.reset t.arrays k
    let arrays := Sparse.set Arr.reset (Sparse.set Arr.reset t.arrays 13 a) k { Arr.reset with failed := true }
    { t with arrays := arrays, status := setF t.status tileStatus_s12For k })).tileFault tl 1

/-- The array that works for array k has failed and nothing can stand in: fault 0x02; S12 is no longer in use (R52,
R70). -/
def arrayLost (s : State) (tl : TileRef) (k : Nat) : State :=
  (s.onTile tl (fun t =>
    let x := physArray t k
    { t with
      arrays := Sparse.set Arr.reset t.arrays x { Sparse.get Arr.reset t.arrays x with failed := true }
      status := if x = 13 then setF t.status tileStatus_s12For 15 else t.status })).tileFault tl 2

/-- The highest position that fires in a pass: its elements and those below it are read (R86). -/
def topFires (r : PassRun) : Option Nat :=
  (List.range r.n).reverse.find? (fun p =>
    r.rowMask.testBit (rowOf r.pattern r.both4 p 0) || (r.pattern == 1 && r.rowMask.testBit (rowOf r.pattern r.both4 p 1)))

/-- A pass enters its array: the vectors flow, the partials reach the casks, and the pass is marked entered. The residue
check rejects the partial of the pass's vector `bad` (R50): with S12 free the array's work moves there and the rejected
partials are formed again (R51), else the tile is lost (R52). -/
def enter (s : State) (tl : TileRef) (k : Nat) (p : PassOp) : State :=
  let t := s.tile tl
  match passRun t p with
  | none => s
  | some r =>
    let m := passM p.word
    let cols := maskBits (arrDepth k) p.colMask
    if decide (storeBytes < (if cols = [] then 0 else loadTop r.l m r.nb (topFires r))) then s.tileFault tl 9
    else
      let fails := match p.bad with
        | none => none
        | some v => if r.mode.residue && decide (v < m) then some v else none
      let spare := decide (k < 12) && s12Free s tl
      let upTo := match fails with
        | some v => if spare then m else v
        | none => m
      let mbad := if r.pattern = 1 then ((r.set.badGroups.filter (fun g => cols.contains g.1)).map (·.2)).sum else 0
      let s := s.onTile tl (fun t =>
        let t := deliver t k r cols upTo
        let a := arrOf t k
        let t := setArr t k { a with passes := a.passes.map (fun q => if q = p then { q with entered := true } else q) }
        { t with sparseCtl := bumpF t.sparseCtl sparseCtl_metaBad mbad })
      let s := if mbad = 0 then s else s.failBit stepCheckStatus_meta
      let s := s.touch tl (physArray t k)
      match fails with
      | none => s
      | some _ => if spare then s.substitute tl k else s.arrayLost tl k

/-- A pass that is held with none before it, or behind entered passes of its mode, enters when it does not
swap (R77, R78). -/
def mayEnter (a : Arr) (p : PassOp) : Bool :=
  !flagF p.word pass_swap &&
    a.passes.all (fun q => q.entered && getF q.word pass_mode == getF p.word pass_mode)

/-- Encodings of a PASS that are illegal (R270, R237, R53, R106). -/
def badPass (w : Word) : Bool :=
  let pat := getF w pass_pattern
  decide (12 < getF w pass_array) || (modeOf (getF w pass_mode)).isNone || pat == 3 || decide (256 < passM w) ||
    (getF w pass_op != 0 && getF w pass_mode != 6) || (pat != 0 && getF w pass_mode != 0) ||
    (pat == 2 && getF w pass_array == 12) || getF w ⟨24, 16⟩ != 0

/-- PASS. One whose blocks are all masked is not issued: the sequencer goes on (R244, log 47). -/
def pass (s : State) (tl : TileRef) (mask : Option MaskAt) (bad : Option Nat) : State :=
  s.issue tl .pass fun t w =>
    let k := getF w pass_array
    let a := arrOf t k
    let (rm, cm) := maskEntry t (getF w pass_mask)
    let cm := cm % 2 ^ arrDepth k
    let rm := rm % 2 ^ arrDepth k
    let p : PassOp := { word := w, rowMask := rm, colMask := cm, entered := false, bad := bad }
    if badPass w then s.tileFault tl 6
    else if allMasked s.tensors mask then s.finish tl w
    else if decide (2 ≤ a.passes.length) then s.hold tl stallFull
    else if p.idle then
      let s := s.finish tl w
      if flagF w pass_swap then s.onTile tl (fun t => setArr t k { arrOf t k with passes := (arrOf t k).passes ++ [p] })
      else s
    else if rm ≠ 0 ∧ (streamFor t w).isNone then s.hold tl stallLoader
    else
      let go := mayEnter a p
      let s := (s.retire tl).onTile tl (fun t => setArr t k { arrOf t k with passes := (arrOf t k).passes ++ [p] })
      if go then s.enter tl k p else s

end State

/-- PASS (R74 to R93, R98 to R105, R126 to R130, R237 to R246). -/
def execPass (tl : TileRef) (mask : Option MaskAt) (badVec : Option Nat) (s : State) : Host.Outcome State Fault Refusal :=
  .next (s.pass tl mask badVec)

/-! ## SWAP and PASS_DRAINED -/

namespace State

/-- The oldest pass of array k enters when it has not and does not swap (R78). -/
def enterHead (s : State) (tl : TileRef) (k : Nat) : State :=
  match (arrOf (s.tile tl) k).passes with
  | q :: _ => if q.entered || flagF q.word pass_swap then s else s.enter tl k q
  | [] => s

/-- The swap of array k: its oldest pass asks for it, the array is drained and the shadow set is complete;
every cell exchanges its registers, and the pass enters; behind one that takes no vector, the next does (R77, R78, R80,
R88). DESIGN CHOICE (log 73): the registers that the exchange leaves in the shadow set count as a complete set. -/
def swap (s : State) (tl : TileRef) (k : Nat) : State :=
  let t := s.tile tl
  let a := arrOf t k
  match a.passes with
  | p :: rest =>
    if p.entered || !flagF p.word pass_swap || !a.complete || !s.unitsRun tl then s
    else
      let a' : Arr := { a with active := a.shadow, shadow := a.active, untaken := false,
                               passes := if p.idle then rest else p :: rest }
      let s := s.onTile tl (fun t => setArr t k a')
      if p.idle then s.enterHead tl k else s.enter tl k p
  | [] => s

/-- A pass has drained: its counter is incremented, and a following pass that does not swap enters (R76). -/
def passDrained (s : State) (tl : TileRef) (k : Nat) : State :=
  let t := s.tile tl
  let a := arrOf t k
  match a.passes with
  | p :: rest =>
    if !p.entered || !s.unitsRun tl then s
    else (((s.onTile tl (fun t => setArr t k { arrOf t k with passes := rest })).syncDone tl p.word)).enterHead tl k
  | [] => s

end State

/-- SWAP (R77, R79, R80, R510). -/
def execSwap (tl : TileRef) (array : Nat) (s : State) : Host.Outcome State Fault Refusal := .next (s.swap tl array)

/-- PASS_DRAINED (R76). -/
def execPassDrained (tl : TileRef) (array : Nat) (s : State) : Host.Outcome State Fault Refusal :=
  .next (s.passDrained tl array)

end Sys2Proof.Machine
end

