-- ==== Sys2Proof/Machine/Stash.lean ====
section
/-!
DEFINITION. The activation stash of a tile: placement in its three tiers, freeing, RECOMPUTE and
exhaustion (R202 to R210).
-/
namespace Sys2Proof.Machine

/-- Granules of a length. -/
def granules (len size : Nat) : Nat := (len + size - 1) / size

/-- The lowest-addressed free run of `need` granules among `total`, given the runs in use (R202). -/
def lowestRun (used : List (Nat × Nat)) (total need : Nat) : Option Nat :=
  let starts := 0 :: used.map (fun u => u.1 + u.2)
  let fits (a : Nat) : Bool := decide (a + need ≤ total) &&
    used.all (fun u => decide (a + need ≤ u.1) || decide (u.1 + u.2 ≤ a))
  (starts.filter fits).foldl (fun b a => match b with
    | none => some a
    | some c => some (min c a)) none

def tierRuns (t : Tile) (tier : Nat) : List (Nat × Nat) :=
  (t.stash.entries.filter (fun e => e.tier == tier)).map (fun e => (e.first, e.len))

def tierUse (t : Tile) (tier : Nat) : Nat := ((tierRuns t tier).map (·.2)).sum

/-- Number of entries saved so far in a lot. -/
def savedIn (t : Tile) (lot : Nat) : Nat := Sparse.get 0 t.stash.saved lot

/-- The number of the first entry of a dropped span (R205). -/
def droppedAt (t : Tile) (lot span : Nat) : Option Nat :=
  (t.stash.dropped.find? (fun x => x.1 == lot && x.2.1 == span)).map (·.2.2)

def putEntry (t : Tile) (e : StashEntry) : Tile :=
  { t with stash := { t.stash with entries := e :: t.stash.entries } }

namespace State

/-- Tier 3 (R204, R207): placed in the lowest run of the quota that holds it, with spills and ovf_peak; else the stash is
exhausted, the stage stops and the step fails with ERR_STASH_FULL. -/
def placeTier3 (s : State) (tl : TileRef) (r : TileRec) (e : StashEntry) (len : Nat) : State :=
  let t := s.tile tl
  let g := granules len 4096
  let occ := tierUse t 3 + g
  let peak := if t.stash.peakHeld then t.stashStatus
    else setF t.stashStatus stashStatus_ovfPeak (max (getF t.stashStatus stashStatus_ovfPeak) occ)
  match lowestRun (tierRuns t 3) r.t3Quota g with
  | some a =>
    let t' : Tile := { t with stashStatus := bumpF peak stashStatus_spills 1 }
    (s.setTile tl (putEntry t' { e with tier := 3, first := a, len := g })).ledger tl.p 1 (e.span % 4096) tl.t e.lot s.openVintage s.openAttempt
  | none =>
    let full := setF (setF t.stashStatus stashStatus_ovfPeak occ) stashStatus_exhausted 1
    (s.setTile tl { t with stashStatus := full, stash := { t.stash with peakHeld := true } }).failFor stepCheckStatus_stash Err.stashFull

/-- Drop a span under RECOMPUTE, at its save number `num`: its placed entries but the stash point are freed (R205). -/
def dropSpan (s : State) (tl : TileRef) (lot span num : Nat) : State :=
  (s.onTile tl (fun t =>
    { t with
      stashStatus := bumpF t.stashStatus stashStatus_recSpans 1
      stash := { t.stash with
        entries := t.stash.entries.filter (fun e => e.point || e.lot != lot || e.span != span)
        dropped := (lot, span, ((t.stash.entries.filter (fun e => !e.point && e.lot == lot && e.span == span)).map (·.num)).foldl
          min num) :: t.stash.dropped } })).ledger tl.p 1 (span % 4096) tl.t lot s.openVintage s.openAttempt

/-- A span that is run again puts its entries one behind the other in the recompute buffer, under the numbers they had
(R205). -/
def rebuildEntry (t : Tile) (x : SaveIn) (first : Nat) : Tile :=
  let held := t.stash.entries.filter (fun e => e.tier == 4 && e.lot == t.seq.lot && e.span == x.span)
  putEntry t { num := first + held.length, lot := t.seq.lot, span := x.span, tier := 4, first := tierUse t 4,
               len := granules x.len 256, point := false }

/-- Save an entry of the lot at hand (R202 to R205). An evaluation saves none (R209); a dropped span keeps the numbers of
the saves it skips. -/
def saveEntry (s : State) (tl : TileRef) (x : SaveIn) : State :=
  let t := s.tile tl
  let lot := t.seq.lot
  match t.record with
  | none => s
  | some r =>
    if t.seq.evaluating then s
    else if t.seq.redo.isSome then
      (if x.point then s else s.setTile tl (rebuildEntry t x ((droppedAt t lot x.span).getD 0)))
    else
      let s := s.setTile tl { t with stash := { t.stash with saved := Sparse.set 0 t.stash.saved lot (savedIn t lot + 1) } }
      if (droppedAt t lot x.span).isSome && !x.point then s else
      let e : StashEntry :=
        { num := savedIn t lot, lot := lot, span := x.span, tier := 1, first := 0, len := granules x.len 256, point := x.point }
      let t := s.tile tl
      match lowestRun (tierRuns t 1) r.t1Len (granules x.len 256) with
      | some a => s.setTile tl (putEntry t { e with first := a })
      | none =>
        match lowestRun (tierRuns t 2) r.t2Len (granules x.len 4096) with
        | some a => s.setTile tl (putEntry t { e with tier := 2, first := a, len := granules x.len 4096 })
        | none => if r.recompute && !x.point then s.dropSpan tl lot x.span e.num else s.placeTier3 tl r e x.len

/-- What an instruction does with the stash. -/
def useStash (s : State) (tl : TileRef) (u : StashUse) : State :=
  let s := match u.save with
    | none => s
    | some x => s.saveEntry tl x
  s.freeEntries tl u.frees

end State
end Sys2Proof.Machine
end

