-- ==== Sys2Proof/Machine/Drain.lean ====
section
/-!
DEFINITION. DRAIN: write-out of casks, the top-k unit, and a router source's admission of assignments
(R55, R89, R91, R104, R109 to R116, R131 to R139, R156 to R160, R247 to R251).
-/
namespace Sys2Proof.Machine

/-! ## The top-k unit (R109 to R115) -/

/-- An entry of a row list: FP32 key and index (R112). -/
structure TkEntry where
  key : F32
  idx : Nat
deriving DecidableEq, Repr

/-- Key a comes before key b in the list's order, as real values. -/
def keyBefore (largest : Bool) (a b : F32) : Bool :=
  if largest then Val.lt (f32v b) (f32v a) else Val.lt (f32v a) (f32v b)

/-- The strict total order of R111. -/
def tkBefore (largest : Bool) (a b : TkEntry) : Bool :=
  keyBefore largest a.key b.key || (Val.eqv (f32v a.key) (f32v b.key) && decide (a.idx < b.idx))

def tkSame (a b : TkEntry) : Bool := Val.eqv (f32v a.key) (f32v b.key) && a.idx == b.idx

/-- The padding entry of a mode (R112). -/
def tkPad (largest : Bool) : TkEntry := ⟨if largest then f32NegInf else f32PosInf, 0xffffffff⟩

/-- Insert in order; a candidate equal in key and index is discarded. Answers the list and whether it was a
duplicate (R111). -/
def tkInsert (largest : Bool) (e : TkEntry) : List TkEntry → List TkEntry × Bool
  | [] => ([e], false)
  | x :: xs =>
    if tkSame e x then (x :: xs, true)
    else if tkBefore largest e x then (e :: x :: xs, false)
    else
      let r := tkInsert largest e xs
      (x :: r.1, r.2)

/-- A list with its drops: NaN keys and duplicates. -/
structure TkAcc where
  list : List TkEntry
  nan : Nat
  dup : Nat
deriving DecidableEq, Repr

/-- A key beyond the bound is not admitted; a NaN bound excludes none (R110). -/
def tkBeyond (largest : Bool) (bound key : F32) : Bool :=
  if largest then Val.lt (f32v key) (f32v bound) else Val.lt (f32v bound) (f32v key)

/-- Offer a candidate (R110, R111). -/
def tkOffer (largest : Bool) (k : Nat) (a : TkAcc) (e : TkEntry) : TkAcc :=
  if (f32v e.key).isNan then { a with nan := a.nan + 1 }
  else
    let r := tkInsert largest e a.list
    { a with list := r.1.take k, dup := a.dup + bit r.2 }

/-- A held list without its padding and without NaN keys, which are dropped and counted (R110). DESIGN CHOICE (log 76): a
held entry equal to the padding entry is padding, so a candidate equal to it is no duplicate. -/
def tkClean (largest : Bool) (xs : List TkEntry) : TkAcc :=
  let real := xs.filter (fun e => e != tkPad largest)
  let bad := real.filter (fun e => (f32v e.key).isNan)
  { list := real.filter (fun e => !(f32v e.key).isNan), nan := bad.length, dup := 0 }

/-- Merge candidates into a row's list and pad it to k entries (R111, R112, R114). -/
def tkMerge (largest : Bool) (k : Nat) (bound : F32) (held : List TkEntry) (cands : List TkEntry) : TkAcc :=
  let a := (cands.filter (fun e => (f32v e.key).isNan || !tkBeyond largest bound e.key)).foldl
    (tkOffer largest k) (tkClean largest held)
  { a with list := a.list ++ List.replicate (k - a.list.length) (tkPad largest) }

/-- Two row lists of one k and mode merge into the list over the union of their candidates (R114). -/
def tkMergeLists (largest : Bool) (k : Nat) (held other : List TkEntry) : TkAcc :=
  let o := tkClean largest other
  let a := o.list.foldl (tkOffer largest k) (tkClean largest held)
  { a with nan := a.nan + o.nan, list := a.list ++ List.replicate (k - a.list.length) (tkPad largest) }

/-- Read and write a row list in the store (R112). -/
def tkRead (st : List Host.Cell) (a k : Nat) : List TkEntry :=
  (List.range k).map (fun i => ⟨BitVec.ofNat 32 (Memory.readLE st (a + 8 * i) 4), Memory.readLE st (a + 8 * i + 4) 4⟩)

def tkWrite (st : List Host.Cell) (a : Nat) : List TkEntry → List Host.Cell
  | [] => st
  | e :: es => tkWrite (Memory.writeLE (Memory.writeLE st a 4 e.key.toNat) (a + 4) 4 e.idx) (a + 8) es

/-! ## Admission at a router source (R247 to R251) -/

/-- Admission under way: free quota by expert, admitted, deferred, and the counts of SPARSE_CTL. -/
structure Adm where
  used : List (Nat × Nat)
  admitted : List Assign
  deferred : List Assign
  dropped : Nat
  rerouted : Nat
deriving DecidableEq, Repr

def Adm.usedOf (a : Adm) (e : Nat) : Nat := Sparse.get 0 a.used e

/-- Admit to an expert when it has free quota (R249); the slot is the admission order (R252). -/
def Adm.try (a : Adm) (quotas : List Nat) (token rank expert : Nat) : Option Adm :=
  let n := a.usedOf expert
  if n < quotas.getD expert 0 then
    some { a with used := Sparse.set 0 a.used expert (n + 1), admitted := a.admitted ++ [⟨token, rank, expert, n⟩] }
  else none

/-- An assignment that overflowed, with its token's row. -/
structure Over where
  row : Nat
  token : Nat
  rank : Nat
  expert : Nat
deriving DecidableEq, Repr

/-- Round 1: ranks 1 to k in (rank, token) order; padding is never dispatched (R248, R249). -/
def admitRound1 (quotas : List Nat) (lists : List (List TkEntry)) (k base : Nat) : Adm × List Over :=
  let asg := (List.range k).flatMap (fun r => (List.range lists.length).filterMap (fun i =>
    ((lists.getD i []).getD r (tkPad true) |> fun e => if e = tkPad true then none else some (i, r + 1, e.idx))))
  asg.foldl (fun a x =>
    match a.1.try quotas (base + x.1) x.2.1 x.2.2 with
    | some b => (b, a.2)
    | none => (a.1, a.2 ++ [⟨x.1, base + x.1, x.2.1, x.2.2⟩])) (⟨[], [], [], 0, 0⟩, [])

/-- Order of a REROUTE round: ascending token, then rank (R250). -/
def insertOver (o : Over) : List Over → List Over
  | [] => [o]
  | x :: xs => if o.token < x.token ∨ (o.token = x.token ∧ o.rank < x.rank) then o :: x :: xs else x :: insertOver o xs

def sortOver (os : List Over) : List Over := os.foldr insertOver []

/-- One REROUTE round: each assignment moves to its token's next untried list entry; `next` holds how many
entries of each row have been assigned or tried (R250). -/
def rerouteRound (quotas : List Nat) (lists : List (List TkEntry)) (os : List Over) (a : Adm) (next : List (Nat × Nat)) (k : Nat) :
    Adm × List Over × List (Nat × Nat) :=
  os.foldl (fun z o =>
    let (a, rest, next) := z
    let i := Sparse.get k next o.row
    match (lists.getD o.row [])[i]? with
    | none => ({ a with dropped := a.dropped + 1 }, rest, next)
    | some e =>
      if e = tkPad true then ({ a with dropped := a.dropped + 1 }, rest, next)
      else
        let next := Sparse.put next o.row (i + 1)
        match a.try quotas o.token o.rank e.idx with
        | some b => ({ b with rerouted := b.rerouted + 1 }, rest, next)
        | none => (a, rest ++ [o], next)) (a, [], next)

/-- Rounds until none overflows; `fuel` bounds them by the list length. -/
def reroute (quotas : List Nat) (lists : List (List TkEntry)) (k : Nat) : Nat → List Over → Adm → List (Nat × Nat) → Adm
  | 0, os, a, _ => { a with dropped := a.dropped + os.length }
  | n + 1, os, a, next =>
    if os.isEmpty then a else
    let (a, rest, next) := rerouteRound quotas lists (sortOver os) a next k
    reroute quotas lists k n rest a next

/-- Overflowed assignments in the defer areas of their experts: each takes the next slot of its expert's (R251). -/
def deferSlots : List Over → List Assign → List Assign
  | [], acc => acc
  | o :: os, acc => deferSlots os (acc ++ [⟨o.token, o.rank, o.expert, (acc.filter (fun a => a.expert == o.expert)).length⟩])

/-- Admission of a lot: an overflowed assignment falls to its expert's policy, 0 DROP, 1 REROUTE, 2 DEFER (R249 to R251). -/
def admitLot (c : RouterCfg) (lists : List (List TkEntry)) (base : Nat) : Adm :=
  let (a, os) := admitRound1 c.quotas lists c.k base
  let of (p : Nat) : List Over := os.filter (fun o => c.policies.getD o.expert 0 == p)
  let d := (of 2).take c.deferQuota
  let a := reroute c.quotas lists c.k (c.kList + 1) (of 1) a []
  { a with deferred := deferSlots d [], dropped := a.dropped + (of 0).length + ((of 2).length - d.length) }

/-! ## Write-out -/

/-- Everything a DRAIN names. -/
structure DrainRun where
  f : Nat
  n : Nat
  l0 : Nat
  m : Nat
  dest : Nat
  destAddr : Nat
  bias : Option Nat
  packed : Bool
  topk : Bool
  fresh : Bool
  idxBase : Nat
  bound : F32
  cand : Nat
  r0 : Nat
  slot : Nat
  merge : Option Nat
  used : Nat
deriving DecidableEq, Repr

/-- The fields of a DRAIN; with k = 0 the top-k unit is off (R115). -/
def drainRun (t : Tile) (w : Word) (d : DrainDesc) : DrainRun :=
  let i := getF w iw_desc
  let d0 := progWord t i
  let d1 := progWord t (i + 1)
  let d2 := progWord t (i + 2)
  { f := getF w drain_f, n := getF w drain_n, l0 := getF d0 drd_l0, m := getF d0 drd_m, dest := getF w drain_dest,
    destAddr := getF d0 drd_dest, bias := if flagF w drain_bias then some (getF d0 drd_bias) else none,
    packed := flagF w drain_packed, topk := flagF w drain_topk && getF t.topkCtl topkCtl_k != 0,
    fresh := flagF w drain_fresh, idxBase := getF d1 drd_idxBase, bound := BitVec.ofNat 32 (getF d1 drd_bound),
    cand := getF d2 drd_cand, r0 := getF d2 drd_r0, slot := getF w drain_slot,
    merge := d.merge, used := d.used.getD (getF w drain_n) }

/-- Illegal DRAIN encodings (R270). -/
def badDrain (t : Tile) (w : Word) : Bool :=
  let i := getF w iw_desc
  let tk := flagF w drain_topk
  (if tk then i % 4 != 0 || decide (4028 < i) || decide (getF w drain_n < getF (progWord t (i + 2)) drd_cand) else badDesc i) ||
    decide (256 < getF w drain_f + getF w drain_n) ||
    decide (256 < getF (progWord t i) drd_l0 + getF (progWord t i) drd_m) || getF w drain_dest == 3 ||
    getF (progWord t i) ⟨63, 61⟩ != 0 || getF w ⟨18, 12⟩ != 0 ||
    ((!flagF w drain_packed || tk) && !(slotOf t (getF w drain_slot)).valid)

/-- A pass held by an array still feeds a cask of the range (R91). -/
def feeds (t : Tile) (f n : Nat) : Bool :=
  (List.range 13).any (fun k => (arrOf t k).passes.any (fun p =>
    passM p.word != 0 && (maskBits (arrDepth k) p.colMask).any (fun c =>
      decide (f ≤ firstCask k + c) && decide (firstCask k + c < f + n))))

/-- The bias of cask j of the range: one FP32 value per cask (R89). -/
def biasAt (t : Tile) (b : Option Nat) (j : Nat) : Option F32 :=
  b.map (fun a => BitVec.ofNat 32 (Memory.readLE t.store (a + 4 * j) 4))

/-- The array whose column a cask is, if any (R54). -/
def caskArray (c : Nat) : Option Nat := if c < 192 then some (c / 16) else if c < 224 then some 12 else none

/-- The combination of a line that no partial has reached: that of the pass before this DRAIN in the program that names the
cask's array (R88, R104, log 22). -/
def emptyKind (t : Tile) (c : Nat) : CaskKind :=
  match caskArray c with
  | none => .sum
  | some k =>
    match (t.prog.filter (fun e => decide (e.1 < t.seq.index ∧ clsOf e.2 = some .pass) && getF e.2 pass_array == k)).getLast? with
    | none => .sum
    | some e => ((modeOf (getF e.2 pass_mode)).map Mode.kind).getD .sum

/-- A line as a write-out sees it (R104, R217). -/
def lineAt (t : Tile) (c i : Nat) : Line :=
  let l := caskLine t c i
  if l.empty && decide (l.kind = .sum) then { l with kind := emptyKind t c } else l

/-- The value that cask f + j hands out on line i (R89, R134); a cask that holds no element of the tensor contributes +0
(R156). -/
def outVal (t : Tile) (r : DrainRun) (i j : Nat) : Val × Bool :=
  if r.used ≤ j then (.fin false 0 0, false) else
  let l := lineAt t (r.f + j) i
  let v := lineVal l (biasAt t r.bias j)
  (v, emptyExtremum l v)

/-- Bytes that a DRAIN writes: its elements, then one scale byte per block of a narrow output (log 11). -/
structure OutBytes where
  bytes : List Byte
  counts : Counts
  amax : Nat × Int
  bad : Nat
  clamped : Bool
deriving DecidableEq, Repr

/-- Pack codes of width w into bytes, little-endian (R119). -/
def packCodes (w : Nat) (cs : List Nat) : List Byte :=
  Memory.bytesLE (cs.foldr (fun c acc => c + 2 ^ w * acc) 0) ((w * cs.length + 7) / 8)

/-- Groups of at most 32. -/
def chunks32 {α : Type} (fuel : Nat) (xs : List α) : List (List α) :=
  match fuel with
  | 0 => []
  | n + 1 => if xs.isEmpty then [] else xs.take 32 :: chunks32 n (xs.drop 32)

/-- Non-finite outputs of a list of codes. -/
def nonFinite (f : Fmt) (cs : List Nat) (x : Nat) : Nat :=
  if x = 0xff then cs.length else (cs.filter (fun c => !(f.decode c).isFinite)).length

/-- X that a recipe gives a block (R156, R157, R158). -/
def drainX (f : Fmt) (sl : Slot) (vs : List Val) : Nat :=
  let src := getF sl.recipe rc_source
  if src = srcBlock then blockX f (amaxOf vs) (getF sl.recipe rc_margin)
  else if src = srcFixed then getF sl.recipe rc_initX
  else sl.x

/-- X of a BLOCK write-out was clamped (R159). -/
def drainClamped (f : Fmt) (sl : Slot) (vs : List Val) : Bool :=
  let a := amaxOf vs
  getF sl.recipe rc_source == srcBlock && !f.wide && a.1 != 0 &&
    (clampX (127 + ilog2 a.1 a.2 - f.emax + getF sl.recipe rc_margin)).2

/-- One line written out in a format (R131 to R136): codes per block, scales, counts. -/
def lineOut (f : Fmt) (sl : Slot) (vs : List (Val × Bool)) : List (List Nat × Nat × Counts) :=
  let mode := recipeMode sl.recipe
  let pol := recipePolicy sl.recipe
  (chunks32 vs.length vs).map (fun b =>
    if f.wide then
      let rs := b.map (fun v => writeOut f mode pol none v.1 v.2)
      (rs.map (·.code), 0, rs.foldl (fun c r => c.plus (countOut f r)) Counts.zero)
    else
      let x := drainX f sl (b.map (·.1))
      finishBlock f x (b.map (fun v => writeOut f mode pol (some x) v.1 v.2)))

/-- Write-out of the whole range in a format. -/
def drainOut (f : Fmt) (sl : Slot) (lines : List (List (Val × Bool))) : OutBytes :=
  let bs := lines.map (lineOut f sl)
  let elems := bs.flatMap (fun b => packCodes f.w (b.flatMap (·.1)))
  let scales := if f.wide then [] else bs.flatMap (fun b => b.map (fun x => BitVec.ofNat 8 x.2.1))
  { bytes := elems ++ scales,
    counts := (bs.flatMap id).foldl (fun c b => c.plus b.2.2) Counts.zero,
    amax := amaxOf (lines.flatMap (fun l => l.map (·.1))),
    bad := ((bs.flatMap id).map (fun b => nonFinite f b.1 (if f.wide then 0 else b.2.1))).sum,
    clamped := lines.any (fun l => (chunks32 l.length l).any (fun b => drainClamped f sl (b.map (·.1)))) }

/-- The record that a packed DRAIN emits: the bias is added exactly into the value, which makes the record
carry it (R89). -/
def packedOut (t : Tile) (r : DrainRun) (i j : Nat) : Line :=
  let l := caskLine t (r.f + j) i
  match biasAt t r.bias j with
  | none => l
  | some b =>
    if l.kind = .sum then l.take (Line.ofWide (f32v b))
    else if (f32v b).isNan then { l with nan := true }
    else if l.empty then l
    else l.setExt (Val.add l.ext (f32v b))

/-- A record padded to an 88-byte slot (R215, log 11). -/
def slotBytes (l : Line) : List Byte :=
  let b := packBytes l
  b ++ List.replicate (88 - b.length) 0

/-- Record what a write-out measures in its tensor slot: amax under HIST (R160), the finite count of a
checked GA tensor (R175), a clamp of X (R159). None in an evaluation (R163) and none in a span run again (R205). -/
def measure (t : Tile) (k : Nat) (amax : Nat × Int) (bad : Nat) (counts clamped : Bool) : Tile :=
  let sl := slotOf t k
  let sl := if clamped then { sl with action := 3 } else sl
  if t.seq.evaluating || t.seq.redo.isSome then t else
  let sl := if getF sl.recipe rc_source = srcHist then
      { sl with amax := (if Val.lt (f32v sl.amax) (f32v (amaxEntry amax)) then amaxEntry amax else sl.amax) }
    else sl
  let sl := if counts && flagF sl.recipe rc_check then { sl with nonfinite := sl.nonfinite + bad } else sl
  { t with slots := Sparse.set Slot.reset t.slots k sl }

/-- The candidates of one drained line (R109, R110), and the counts of their write-outs (R151). -/
def lineCands (t : Tile) (r : DrainRun) (i : Nat) : List TkEntry × Counts :=
  let rc := (slotOf t r.slot).recipe
  let outs := (List.range r.cand).map (fun j =>
    let v := outVal t r i j
    writeOut fmtFp32 (recipeMode rc) (recipePolicy rc) none v.1 v.2)
  (outs.mapIdx (fun j o => ⟨f32of o.code, (r.idxBase + j) % 2 ^ 32⟩), outs.foldl (fun c o => c.plus (countOut fmtFp32 o)) Counts.zero)

/-- Row d of a top-k DRAIN: its list takes the line's candidates, then the list of the second region, if one is named. With
no candidate it stays as it is, or is set to padding (R109 to R112, R114, R115). -/
def topkLine (t : Tile) (r : DrainRun) (u : Tile) (d : Nat) : Tile :=
  let k := getF t.topkCtl topkCtl_k
  let largest := flagF t.topkCtl topkCtl_order
  let a := getF t.topkCtl topkCtl_listBase * 8 + 8 * k * (r.r0 + d)
  let held := if r.fresh then List.replicate k (tkPad largest) else tkRead u.store a k
  let (cands, counts) := lineCands t r (r.l0 + d)
  let x : TkAcc := if r.cand = 0 then ⟨held, 0, 0⟩ else tkMerge largest k r.bound held cands
  let y : TkAcc := match r.merge with
    | none => x
    | some b =>
      let z := tkMergeLists largest k x.list (tkRead u.store (b + 8 * k * (r.r0 + d)) k)
      { z with nan := x.nan + z.nan, dup := x.dup + z.dup }
  { u with
    store := tkWrite u.store a y.list
    numFlags := addCounts u.numFlags counts
    topkCtl := bumpF (bumpF u.topkCtl topkCtl_nanDrop y.nan) topkCtl_dupDrop y.dup }

def topkLines (t : Tile) (r : DrainRun) : Tile := (List.range r.m).foldl (topkLine t r) t

/-- The drained lines read as exact +0 from now on (R55). -/
def clearLines (t : Tile) (r : DrainRun) : Tile :=
  ((List.range r.m).flatMap (fun d => (List.range r.n).map (fun j => (r.f + j, r.l0 + d)))).foldl
    (fun u c => setCaskLine u c.1 c.2 Line.reset) t

/-- The row lists of a router's lot. -/
def routerLists (t : Tile) (tokens : Nat) : List (List TkEntry) :=
  let k := getF t.topkCtl topkCtl_k
  (List.range tokens).map (fun i => tkRead t.store (getF t.topkCtl topkCtl_listBase * 8 + 8 * k * i) k)

/-- The assignments of the lot at hand (R247). -/
def lotAssigns (t : Tile) (c : RouterCfg) (as : List Assign) : List Assign :=
  as.filter (fun a => a.token / max 1 c.tokens == t.seq.lot)

/-- The assignments of the step's other lots, whose backward phases are still to come (R253). -/
def otherLots (t : Tile) (c : RouterCfg) (as : List Assign) : List Assign :=
  as.filter (fun a => a.token / max 1 c.tokens != t.seq.lot)

/-- A router source admits the lot once the last of its top-k DRAINs has completed the lists (R249). -/
def routeLot (t : Tile) (r : DrainRun) : Tile :=
  match t.record.bind (·.router) with
  | none => t
  | some c =>
    if !r.topk || t.seq.redo.isSome then t
    else if t.routeParts + 1 < c.parts then { t with routeParts := t.routeParts + 1 }
    else
      let a := admitLot c (routerLists t c.tokens) (t.seq.lot * c.tokens)
      { t with
        routeParts := 0
        admitted := otherLots t c t.admitted ++ a.admitted
        deferred := otherLots t c t.deferred ++ a.deferred
        sparseCtl := bumpF (bumpF (bumpF t.sparseCtl sparseCtl_dropped a.dropped) sparseCtl_rerouted a.rerouted)
          sparseCtl_deferred a.deferred.length }

/-- Put the bytes where the DRAIN sends them: the store, the row engine or the vector unit (R55). -/
def sendOut (t : Tile) (r : DrainRun) (bs : List Byte) : Tile :=
  match r.dest with
  | 0 => { t with store := Memory.writeN t.store r.destAddr bs }
  | 1 => { t with rowIn := bs }
  | _ => { t with vecIn := bs }

/-- The whole effect of a DRAIN on its tile, once it starts. `f` is the output format. -/
def drainTile (t : Tile) (r : DrainRun) (f : Fmt) : Tile :=
  let writes := !r.topk || flagF t.topkCtl topkCtl_outKeep
  let ovf := (List.range r.m).any (fun d => (List.range r.n).any (fun j =>
    (if r.packed then packedOut t r (r.l0 + d) j else caskLine t (r.f + j) (r.l0 + d)).ovf))
  let t0 := if r.topk then topkLines t r else t
  let t1 :=
    if !writes then t0
    else if r.packed then
      sendOut t0 r ((List.range r.m).flatMap (fun d => (List.range r.n).flatMap (fun j =>
        slotBytes (packedOut t r (r.l0 + d) j))))
    else
      let sl := slotOf t r.slot
      let o := drainOut f sl ((List.range r.m).map (fun d => (List.range r.n).map (fun j => outVal t r (r.l0 + d) j)))
      let u := sendOut t0 r o.bytes
      measure { u with numFlags := addCounts u.numFlags o.counts } r.slot o.amax o.bad (sl.kind == kindGA) o.clamped
  let t2 := if ovf then { t1 with numFlags := setF t1.numFlags numFlags_caskOvf 1 } else t1
  routeLot (clearLines t2 r) r

/-- Bytes written at the destination. -/
def drainLen (r : DrainRun) (f : Fmt) : Nat :=
  if r.packed then 88 * r.n * r.m
  else r.m * ((f.w * r.n + 7) / 8) + (if f.wide then 0 else r.m * ((r.n + 31) / 32))

/-- Some access of a DRAIN reaches beyond the store (R511). -/
def drainBeyond (t : Tile) (r : DrainRun) (f : Fmt) : Bool :=
  let k := getF t.topkCtl topkCtl_k
  let writes := !r.topk || flagF t.topkCtl topkCtl_outKeep
  (writes && r.dest == 0 && beyondStore r.destAddr (drainLen r f)) ||
    (match r.bias with
      | none => false
      | some a => beyondStore a (4 * r.n)) ||
    (r.topk && decide (r.m ≠ 0) && (beyondStore (getF t.topkCtl topkCtl_listBase * 8) (8 * k * (r.r0 + r.m)) ||
      beyondStore (r.merge.getD 0) (8 * k * (r.r0 + r.m))))

namespace State

/-- The format that a DRAIN writes: its slot's recipe gives it; a packed DRAIN names none. -/
def drainFmt (t : Tile) (r : DrainRun) : Option Fmt :=
  if r.packed && !r.topk then some fmtFp32 else fmtByCode t (getF (slotOf t r.slot).recipe rc_fmt)

/-- DRAIN: waits for the passes that feed its casks; the bias and the row lists are read from the store; the lines are
written out and cleared. -/
def drain (s : State) (tl : TileRef) (d : DrainDesc) (m : StoreIn) : State :=
  s.issue tl .drain fun t w =>
    let r := drainRun t w d
    match (if badDrain t w then none else drainFmt t r) with
    | none => s.tileFault tl 6
    | some f =>
      if feeds t r.f r.n then s.hold tl stallEmpty
      else if drainBeyond t r f then s.tileFault tl 9
      else s.readStore tl m.ecc fun s =>
        let s := ((s.onTile tl (fun t => drainTile t r f)).touch tl 16).useStash tl d.stash
        match m.race with
        | some x => s.storeRace tl 2 x
        | none => s.finish tl w

end State

/-- DRAIN (R55, R104, R109 to R116, R131 to R139, R156 to R160, R247 to R251). -/
def execDrain (tl : TileRef) (d : DrainDesc) (m : StoreIn) (s : State) : Host.Outcome State Fault Refusal :=
  .next (s.drain tl d m)

end Sys2Proof.Machine
end

