-- ==== Sys2Proof/Machine/Tables.lean ====
section
/-!
DEFINITION. The function tables of the row engine and their evaluation (R56, R144 to R146).
-/
namespace Sys2Proof.Machine

/-- Place of a table word: coefficient `word` 0 to 2 of a segment, header lo (3) or header control (4). -/
def funcKey (table seg word : Nat) : Nat := table * 2048 + (if word < 3 then seg * 4 + word else 1024 + word)

def funcWord (t : Tile) (table seg word : Nat) : BitVec 32 := Sparse.get 0 t.funcs (funcKey table seg word)

/-- Header control fields (R146). -/
def ctlEw (c : BitVec 32) : Int := let n := c.toNat % 256; if n < 128 then n else (n : Int) - 256
def ctlMode (c : BitVec 32) : Nat := c.toNat / 256 % 8
def ctlBelow (c : BitVec 32) : Nat := c.toNat / 2048 % 4
def ctlAbove (c : BitVec 32) : Nat := c.toNat / 8192 % 4

/-- A header control word is legal: modes 0 to 4, policies 0 to 2, ew from -24 to 24, no reserved bit
(R146). -/
def ctlOk (c : BitVec 32) : Bool :=
  decide (ctlMode c ≤ 4) && ctlBelow c != 3 && ctlAbove c != 3 && decide (-24 ≤ ctlEw c ∧ ctlEw c ≤ 24) &&
    c.toNat / 2 ^ 15 == 0

/-- p = fma(fma(c2, u, c1), u, c0) (R144). -/
def quad (t : Tile) (table seg : Nat) (u : F32) : F32 :=
  ffma (ffma (funcWord t table seg 2) u (funcWord t table seg 1)) u (funcWord t table seg 0)

/-- floor of m * 2^e with a sign. -/
def floorVal (neg : Bool) (m : Nat) (e : Int) : Int :=
  let n : Int := if neg then -(m : Int) else m
  if 0 ≤ e then n * 2 ^ e.toNat else n / (2 ^ (-e).toNat : Nat)

/-- An integer over a power of two. -/
def dyadic (n : Int) (e : Int) : Val := Val.ofInt n e

/-- Normalised: m in [1, 2) as (fraction numerator over 2^23, k), for a nonzero FP32 magnitude. -/
def normF32 (m : Nat) (e : Int) : Nat × Int :=
  let k := ilog2 m e
  (m * 2 ^ (23 - Nat.log2 m), k)

/-- The 72-bit constant log2(e), its bit 0 weighing 2^-71 (R144). -/
def log2eCode : Nat := 3406467353048146557886 + bit Config.log2eUp

/-- t = x * log2(e) exactly, as integer part and FP32 fraction (R144): n, f. -/
def expSplit (neg : Bool) (m : Nat) (e : Int) : Int × F32 :=
  let tm := m * log2eCode
  let te := e - 71
  let n := floorVal neg tm te
  let f := f32r (Val.add (.fin neg tm te) (Val.ofInt (-n) 0))
  if f = f32One then (n + 1, 0) else (n, f)

/-- The table result c of EXP mode for a fraction f (R144). -/
def expTable (t : Tile) (table : Nat) (f : F32) : F32 :=
  let s := match f32v f with
    | .fin _ m e => (floorVal false m (e + 8)).toNat
    | _ => 0
  quad t table s (f32r (Val.add (f32v f) (dyadic (-(s : Int)) (-8))))

/-- An out-of-domain result of LIN (R145). -/
def linOut (t : Tile) (table : Nat) (x : F32) (policy : Nat) (above : Bool) (ew : Int) : F32 :=
  match policy with
  | 0 => if above then quad t table 255 (f32r (.fin false 1 ew)) else quad t table 0 0
  | 1 => x
  | _ => 0

/-- Evaluate a table at an FP32 argument (R144, R145). -/
def evalTable (t : Tile) (table : Nat) (x : F32) : F32 :=
  let ctl := funcWord t table 0 4
  let lo := funcWord t table 0 3
  let ew := ctlEw ctl
  match ctlMode ctl, f32v x with
  | _, .nan => f32Nan
  | 0, v =>
    match f32v lo with
    | .nan => Config.fwdOut 9 [x, lo] 0
    | l =>
      match Val.add v (Val.neg l) with
      | .nan => Config.fwdOut 9 [x, lo] 0
      | .inf true => linOut t table x (ctlBelow ctl) false ew
      | .inf false => linOut t table x (ctlAbove ctl) true ew
      | .fin neg m e =>
        let s := floorVal neg m (e - ew)
        if s < 0 then linOut t table x (ctlBelow ctl) false ew
        else if 255 < s then linOut t table x (ctlAbove ctl) true ew
        else quad t table s.toNat (f32r (Val.add (.fin neg m e) (dyadic (-s) ew)))
  | 1, .inf s => if s then 0x80000000 else 0
  | 1, .fin s m e =>
    if m = 0 then (if s then f32NegInf else f32PosInf) else
    let (fr, k) := normF32 m e
    let seg := fr / 2 ^ 15 % 256
    let u := f32r (dyadic (fr % 2 ^ 15) (-23))
    f32r (Val.mul (.fin s 1 (-k)) (f32v (quad t table seg u)))
  | 2, .inf s => if s then f32Nan else 0
  | 2, .fin s m e =>
    if m = 0 then (if s then f32NegInf else f32PosInf) else
    if s then f32Nan else
    let (fr, k) := normF32 m e
    let odd := (k % 2).toNat
    let seg := 128 * odd + fr / 2 ^ 16 % 128
    let u := f32r (dyadic (fr % 2 ^ 16) (odd - 23))
    f32r (Val.scale (-((k - odd) / 2)) (f32v (quad t table seg u)))
  | 3, .inf s => if s then f32Nan else f32PosInf
  | 3, .fin s m e =>
    if m = 0 then f32NegInf else
    if s then f32Nan else
    let (fr, k) := normF32 m e
    let seg := fr / 2 ^ 15 % 256
    let u := f32r (dyadic (fr % 2 ^ 15) (-23))
    ffma (f32r (Val.ofInt k 0)) 0x3f317218 (quad t table seg u)
  | _, .inf s => if s then 0 else f32PosInf
  | _, .fin s m e =>
    let (n, f) := expSplit s m e
    f32r (Val.scale n (f32v (expTable t table f)))

end Sys2Proof.Machine
end

