-- ==== Sys2Proof/Machine/Row.lean ====
section
/-!
DEFINITION. ROW: the row engine's operations, forward and backward, with the lees store, the offset form of
a ring stage, and the recompute of a span (R56 to R58, R144, R193 to R198, R205, R229 to R234).
-/
namespace Sys2Proof.Machine

/-! ## Lees records (R57, R58) -/

def leesBytes (l : Lees) : List Byte :=
  Memory.bytesLE l.max.toNat 4 ++ Memory.bytesLE l.sum.toNat 4 ++ Memory.bytesLE l.mean.toNat 4 ++ Memory.bytesLE l.rstd.toNat 4

def leesOf (rd : Nat → Nat) : Lees :=
  { max := BitVec.ofNat 32 (rd 0), sum := BitVec.ofNat 32 (rd 4), mean := BitVec.ofNat 32 (rd 8), rstd := BitVec.ofNat 32 (rd 12) }

/-- The stage's lees spill address; 0 is none (R268). -/
def spillAt (t : Tile) : Nat := (t.record.map (·.leesSpill)).getD 0

/-- Where a record beyond the lot's segment lies: the lot's part of the spill space (R58, R197). -/
def spillRec (t : Tile) (d : RowDesc) (i : Nat) : Nat := spillAt t + 16 * (d.spillFirst + (i - d.recCount))

namespace State

/-- The lees record of row i of a segment, spilled beyond it (R58, R197). -/
def leesGet (s : State) (tl : TileRef) (d : RowDesc) (i : Nat) : Lees :=
  let t := s.tile tl
  if i < d.recCount then Sparse.get Lees.reset t.lees (d.firstRec + i)
  else leesOf (fun o => Memory.readLE s.mem (spillRec t d i + o) 4)

/-- Write the lees record of row i, to the spill address beyond the segment (R58); a span run again writes none (R205). -/
def leesPut (s : State) (tl : TileRef) (d : RowDesc) (i : Nat) (l : Lees) : State :=
  if (s.tile tl).seq.redo.isSome then s
  else if i < d.recCount then s.onTile tl (fun t => { t with lees := Sparse.set Lees.reset t.lees (d.firstRec + i) l })
  else { s with mem := Memory.writeN s.mem (spillRec (s.tile tl) d i) (leesBytes l) }

end State

/-! ## Row arithmetic -/

/-- Row i of an FP32 operand of the row engine. -/
def rowVals (t : Tile) (a n i : Nat) : List F32 := (List.range n).map (fun j => unitF32 t t.rowIn a (i * n + j))

/-- Row i of the input, in the stash format that the image names for it (R193): FP32, another wide format, or a narrow one with
its block scales. -/
def inVals (t : Tile) (d : RowDesc) (i : Nat) : List F32 :=
  (List.range d.n).map (fun j =>
    match fmtByCode t d.xFmt with
    | none => f32Nan
    | some f =>
      if f.wide then
        let c := unitLE t t.rowIn (d.src + (i * d.n + j) * d.step) (f.w / 8)
        if f = fmtFp32 then f32of c else f32Conv (f.decode c)
      else
        let x := (Memory.read t.store (d.xScale + i * ((d.n + 31) / 32) + j / 32)).toNat
        f32Conv (scaled f (elemAt t.store (d.src + i * ((f.w * d.n + 7) / 8)) 0 f.w j) x))

/-- A per-element vector such as the gain. -/
def vecVals (t : Tile) (a n : Nat) : List F32 := (List.range n).map (fun j => BitVec.ofNat 32 (Memory.readLE t.store (a + 4 * j) 4))

/-- An exact sum at cask width, rounded once (R195); an exact zero is +0 (R133). -/
def sumExact (xs : List F32) : F32 :=
  let v := xs.foldl (fun a x => Val.add a (f32v x)) (.fin false 0 0)
  if v.isZero then 0 else f32r v

/-- The maximum of a row; the spec states none for an empty row or a row with NaN (log 12). -/
def rowMax (xs : List F32) : F32 :=
  if xs.any (fun x => (f32v x).isNan) then Config.fwdStat 0 xs
  else match xs with
    | [] => Config.fwdStat 0 []
    | x :: xs => xs.foldl (fun a b => if Val.lt (f32v a) (f32v b) then b else a) x

/-- A softmax probability, the same sequence forward and backward (R195, R196). -/
def softProb (t : Tile) (d : RowDesc) (max sum x : F32) : F32 :=
  fmul (evalTable t d.tabExp (fsub x max)) (evalTable t d.tabRcp sum)

/-- What a row operation makes of one row: its outputs, the probabilities of a backward softmax, its lees record, and the
terms that gain and bias gradients take in. -/
structure RowOut where
  out : List F32
  probs : List F32
  lees : Option Lees
  gain : List F32
  bias : List F32
deriving DecidableEq, Repr

/-- The 32-bit index of a row: a target or a position. -/
def rowIndex (t : Tile) (d : RowDesc) (i : Nat) : Nat := Memory.readLE t.store (d.target + 4 * i) 4

/-- Outputs alone. -/
def RowOut.of (out : List F32) : RowOut := { out := out, probs := [], lees := none, gain := [], bias := [] }

/-- The angles of a row at a position, negated in the backward pass (R195). -/
def rowAngles (n pos : Nat) (negated : Bool) : List F32 :=
  (List.range n).map (fun j => if negated then Config.angle pos j ^^^ 0x80000000 else Config.angle pos j)

/-- Forward row operations (R57, R144, R196). Results the spec gives no sequence for are free (log 12). -/
def rowForward (t : Tile) (d : RowDesc) (op table i : Nat) : RowOut :=
  let x := inVals t d i
  let ix := List.range d.n
  match op with
  | 0 =>
    let mx := rowMax x
    let sm := Config.fwdStat 1 x
    { RowOut.of (x.map (softProb t d mx sm)) with lees := some ⟨mx, sm, 0, 0⟩ }
  | 1 =>
    { RowOut.of (ix.map (Config.fwdOut 1 (x ++ vecVals t d.gain d.n))) with
      lees := some ⟨0, 0, Config.fwdStat 2 x, Config.fwdStat 3 x⟩ }
  | 2 => { RowOut.of (ix.map (Config.fwdOut 2 (x ++ vecVals t d.gain d.n))) with lees := some ⟨0, 0, 0, Config.fwdStat 4 x⟩ }
  | 3 => { RowOut.of [Config.fwdOut 3 x (rowIndex t d i)] with lees := some ⟨rowMax x, Config.fwdStat 1 x, 0, 0⟩ }
  | 4 => RowOut.of (ix.map (Config.rotated x (rowAngles d.n (rowIndex t d i) false)))
  | _ => RowOut.of (x.map (evalTable t table))

/-- dx = p * (dp - sum p dp) (R195). -/
def softGrad (p dp : List F32) : List F32 :=
  let sm := sumExact (List.zipWith fmul p dp)
  List.zipWith (fun a b => fmul a (fsub b sm)) p dp

/-- The seed gradient times 2^L, L from the tile's LOSS slot (R164). -/
def scaledSeed (t : Tile) (seed : F32) : F32 :=
  match (t.slots.find? (fun x => x.2.valid && x.2.kind == kindLOSS)) with
  | none => seed
  | some x => f32r (Val.scale (scaleExp x.2.x) (f32v seed))

/-- Backward row operations (R193 to R195). -/
def rowBackward (t : Tile) (d : RowDesc) (op table i : Nat) (l : Lees) : RowOut :=
  let x := inVals t d i
  let dy := rowVals t d.dy d.n i
  let g := vecVals t d.gain d.n
  let gh := List.zipWith fmul g dy
  match op with
  | 0 =>
    let p := x.map (softProb t d l.max l.sum)
    { RowOut.of (softGrad p dy) with probs := p }
  | 1 =>
    let xh := x.map (fun v => fmul (fsub v l.mean) l.rstd)
    let a := fmul (sumExact gh) d.invN
    let b := fmul (sumExact (List.zipWith fmul gh xh)) d.invN
    { RowOut.of (List.zipWith (fun u v => fmul l.rstd (fsub (fsub u a) (fmul v b))) gh xh) with
      gain := List.zipWith fmul dy xh, bias := dy }
  | 2 =>
    let xh := x.map (fun v => fmul v l.rstd)
    let b := fmul (sumExact (List.zipWith fmul gh xh)) d.invN
    { RowOut.of (List.zipWith (fun u v => fmul l.rstd (fsub u (fmul v b))) gh xh) with gain := List.zipWith fmul dy xh }
  | 3 =>
    let target := rowIndex t d i
    RowOut.of (x.mapIdx (fun j v => fmul (fsub (softProb t d l.max l.sum v) (if j = target then f32One else 0)) (scaledSeed t d.seed)))
  | 4 => RowOut.of ((List.range d.n).map (Config.rotated dy (rowAngles d.n (rowIndex t d i) true)))
  | _ => RowOut.of (List.zipWith (fun v w => fmul w (evalTable t table v)) x dy)

/-! ## Cask slots (R198, R215) -/

/-- The line that an 88-byte slot holds. A slot whose header word is 0 holds an empty cask (log 80). -/
def slotLine (r : Packed) : Line := if r.header = 0 then Line.reset else r.line

/-- A slot that a cask refuses to load (R141). -/
def badSlot (r : Packed) : Bool := r.header != 0 && r.malformed

namespace State

/-- The record in a slot: an address within a tile store names the tile's own, one beyond it SCRATCH (R215, log 80). -/
def slotAt (s : State) (tl : TileRef) (a : Nat) : Packed :=
  packedAt (Memory.readLE (if a < storeBytes then (s.tile tl).store else s.mem)) a

/-- Bytes to the tile store, or to SCRATCH beyond it. -/
def putAt (s : State) (tl : TileRef) (a : Nat) (bs : List Byte) : State :=
  if a < storeBytes then s.onTile tl (fun t => { t with store := Memory.writeN t.store a bs })
  else { s with mem := Memory.writeN s.mem a bs }

/-- A slot is loaded into a spare cask, changed there and written back (R215): a malformed one is refused, sets nan and is
counted (R141); a cask that leaves its range sets cask_ovf (R151). -/
def slotOp (s : State) (tl : TileRef) (a : Nat) (f : Line → Line) : State :=
  let r := s.slotAt tl a
  let l := f (if badSlot r then { Line.reset with nan := true } else slotLine r)
  let s := s.putAt tl a (slotBytes l)
  let s := if l.ovf then s.onTile tl (fun t => { t with numFlags := setF t.numFlags numFlags_caskOvf 1 }) else s
  if badSlot r then s.packedBad tl else s

/-- The value of a slot rounded once to FP32 (R195, R231). -/
def slotF32 (s : State) (tl : TileRef) (a : Nat) : F32 := f32Conv (lineVal (slotLine (s.slotAt tl a)) none)

/-- Add FP32 terms, one per slot, to consecutive slots (R198). -/
def addTerms (s : State) (tl : TileRef) (a : Nat) : List F32 → State
  | [] => s
  | x :: xs => (s.slotOp tl a (fun l => l.take (Line.ofWide (f32v x)))).addTerms tl (a + 88) xs

/-- Add every term to one slot (R230). -/
def addAll (s : State) (tl : TileRef) (a : Nat) (xs : List F32) : State :=
  s.slotOp tl a (fun l => xs.foldl (fun l x => l.take (Line.ofWide (f32v x))) l)

end State

/-! ## The offset form of a ring (R229 to R234) -/

/-- Integer and table parts of a score, none when it is NaN or infinite. -/
def ringParts (t : Tile) (d : RowDesc) (x : F32) : Option (Int × Int × F32) :=
  match f32v x with
  | .fin s m e =>
    let (n, f) := expSplit s m e
    let tm := m * log2eCode
    some (-(floorVal (!s) tm (e - 71)), n, expTable t d.tabExp f)
  | _ => none

/-- m* of a lees record: none before the first chunk (R229, R231). -/
def ringOffset (l : Lees) : Option Int :=
  match f32v l.max with
  | .fin s m e => some (floorVal s m e)
  | _ => none

/-- The larger of an offset and a ceiling. -/
def ringMax (a : Option Int) (b : Int) : Option Int := some (match a with
  | none => b
  | some x => max x b)

/-- p = c * 2^(n - m*) (R229); NaN for a score that is NaN or infinite (R230). -/
def ringProb (m : Option Int) (z : Option (Int × Int × F32)) : F32 :=
  match z, m with
  | some (_, n, c), some m => f32r (Val.scale (n - m) (f32v c))
  | _, _ => f32Nan

/-- Ring state of a tile: size and present rotation. -/
def ringSize (t : Tile) : Nat := getF t.redStatus redStatus_ringSize
def ringRotation (t : Tile) : Nat := getF t.redStatus redStatus_rotation

/-- The tokens that device j of a ring of R holds: CONTIG one piece, ZIGZAG pieces j and 2R - 1 - j of 2R (R227). -/
def ringTokens (c : RingCfg) (j : Nat) : List (Nat × Nat) :=
  let r := max 1 c.size
  if c.zigzag then
    let n := c.length / (2 * r)
    [(j * n, (j + 1) * n), ((2 * r - 1 - j) * n, (2 * r - j) * n)]
  else [(j * (c.length / r), (j + 1) * (c.length / r))]

/-- The device whose chunk rotation r brings (R228). -/
def ringOrigin (c : RingCfg) (r : Nat) : Nat := (c.index + max 1 c.size - r % max 1 c.size) % max 1 c.size

/-- Under causal attention a chunk whose every key follows every query of the device is skipped (R228). -/
def ringSkips (c : RingCfg) (r : Nat) : Bool :=
  c.causal && (ringTokens c (ringOrigin c r)).all (fun k => (ringTokens c c.index).all (fun q => decide (q.2 ≤ k.1)))

/-- The last rotation whose chunk the device processes (R231). -/
def lastRotation (c : RingCfg) : Nat := ((List.range (max 1 c.size)).filter (fun r => !ringSkips c r)).getLast?.getD 0

/-- Whether a key of a row is admitted (R232). -/
def keyAdmitted (t : Tile) (d : RowDesc) (i j : Nat) : Bool :=
  match d.keys with
  | none => true
  | some a => Memory.read t.store (a + i * d.n + j) != 0

/-- The scores of a chunk under the score factor (R229). -/
def ringScores (t : Tile) (d : RowDesc) (i : Nat) : List F32 := (inVals t d i).map (fun x => fmul x d.invN)

/-- The scores of the admitted keys, by key. -/
def ringKeys (t : Tile) (d : RowDesc) (i : Nat) : List (Option (Option (Int × Int × F32))) :=
  (ringScores t d i).mapIdx (fun j x => if keyAdmitted t d i j then some (ringParts t d x) else none)

/-- The offset of a row before a chunk: -inf before the first (R229). -/
def ringBefore (t : Tile) (l : Lees) : Option Int := if ringRotation t = 0 then none else ringOffset l

/-- Offset of row i after its chunk. -/
def ringNext (t : Tile) (d : RowDesc) (l : Lees) (i : Nat) : Option Int :=
  ((ringKeys t d i).filterMap (fun z => z.bind id)).foldl (fun a z => ringMax a z.1) (ringBefore t l)

/-- The probability of each key of a chunk under an offset; +0 for one that is not admitted. -/
def ringProbs (t : Tile) (d : RowDesc) (m : Option Int) (i : Nat) : List F32 :=
  (ringKeys t d i).map (fun z => match z with
    | none => 0
    | some z => ringProb m z)

/-- The slots of a row: its sum slot, then one per value column. -/
def rowSlots (d : RowDesc) (i : Nat) : List Nat :=
  (d.dBias + 88 * i) :: (List.range d.cols).map (fun j => d.dGain + 88 * (i * d.cols + j))

/-- Tiles' ring configuration. -/
def ringOf (t : Tile) : Option RingCfg := t.record.bind (·.ring)

/-- The record of a row after its chunk (R231): m*, and the sum slot rounded once after the last chunk. -/
def ringLees (t : Tile) (m : Option Int) (sum : F32) : Lees :=
  { max := (match m with
      | none => f32NegInf
      | some b => f32r (Val.ofInt b 0)),
    sum := if (ringOf t).any (fun c => ringRotation t == lastRotation c) then sum else 0, mean := 0, rstd := 0 }

namespace State

/-- One row of a chunk (R229, R230): the slots are shifted when m* rises, the probabilities enter the sum slot, a NaN or
infinite score makes every slot of the row NaN. Answers the state, the outputs, the record. -/
def ringRow (s : State) (tl : TileRef) (d : RowDesc) (l : Lees) (i : Nat) : State × List F32 × Lees :=
  let t := s.tile tl
  let m := ringNext t d l i
  let bad := (ringKeys t d i).any (fun z => z == some none)
  let shift := match ringBefore t l, m with
    | some a, some b => (b - a).toNat
    | _, _ => 0
  let ps := ringProbs t d m i
  let s := (rowSlots d i).foldl (fun s a => s.slotOp tl a (fun x =>
    let y := shiftLine x shift
    if bad then { y with nan := true } else y)) s
  let s := s.addAll tl (d.dBias + 88 * i) ((List.range d.n).filterMap (fun j => if keyAdmitted t d i j then ps[j]? else none))
  let s := match d.scores with
    | none => s
    | some a => { s with mem := Memory.writeN s.mem (a + 4 * d.n * i) ((ringScores t d i).flatMap (fun x => Memory.bytesLE x.toNat 4)) }
  (s, ps, ringLees t m (s.slotF32 tl (d.dBias + 88 * i)))

/-- The outputs of a row: o = mul(O, rcp(l)); +0 where no key was admitted, NaN where a score or a value element was NaN
(R230, R232). -/
def ringOutputs (s : State) (tl : TileRef) (d : RowDesc) (l : Lees) (i : Nat) : List F32 :=
  let bad := (rowSlots d i).any (fun a => (f32v (s.slotF32 tl a)).isNan)
  (List.range d.cols).map (fun j =>
    if bad then f32Nan
    else if (f32v l.sum).isZero then 0
    else fmul (s.slotF32 tl (d.dGain + 88 * (i * d.cols + j))) (evalTable (s.tile tl) d.tabRcp l.sum))

/-- Backward of a ring (R234, R195): the probabilities of the chunk under the final offset; the first sweep adds p * dp of
every chunk to the row's slot, the second forms the gradients from that sum (log 79). -/
def ringBack (s : State) (tl : TileRef) (d : RowDesc) (l : Lees) (i : Nat) : State × List F32 × List F32 :=
  let t := s.tile tl
  let dy := rowVals t d.dy d.n i
  let ps := if (f32v l.sum).isZero then dy.map (fun _ => 0)
    else (ringProbs t d (ringOffset l) i).map (fun p => fmul p (evalTable t d.tabRcp l.sum))
  let a := d.dBias + 88 * i
  if d.sweep then (s.addAll tl a (List.zipWith fmul ps dy), [], [])
  else if (f32v l.sum).isZero then (s, dy.map (fun _ => 0), ps)
  else (s, List.zipWith (fun p x => fmul p (fsub x (s.slotF32 tl a))) ps dy, ps)

end State

/-! ## The instruction -/

/-- Row operations that write a lees record (R57). -/
def writesLees (op : Nat) : Bool := decide (op < 4)

/-- A stage in a ring whose row operation is softmax works in the offset form (R229). -/
def isRing (t : Tile) (op : Nat) : Bool := op == 0 && (ringOf t).isSome

/-- Reserved operations, derivative tables that R56 does not allow, and a segment beyond the 4096 records (R58). -/
def badRow (t : Tile) (w : Word) (d : RowDesc) : Bool :=
  let op := getF w row_op
  let tb := getF w row_table
  decide (5 < op) || getF w ⟨31, 12⟩ != 0 || badDesc (getF w iw_desc) || (fmtByCode t d.xFmt).isNone ||
    decide (4096 < d.firstRec + d.recCount) ||
    (op == 5 && flagF w row_backward && tb % 2 == 0 && ctlMode (funcWord t tb 0 4) != 4)

/-- Output lines of a row operation in the format of the slot's recipe, or FP32 where the slot is empty. -/
def rowBytes (t : Tile) (slot : Nat) (f : Fmt) (outs : List (List F32)) : OutBytes :=
  drainOut f (slotOf t slot) (outs.map (fun o => o.map (fun x => (f32v x, false))))

/-- Write the outputs at dst, with the counts and the measurements of a conversion (R137, R151, R160). -/
def rowPut (t : Tile) (slot dst : Nat) (outs : List (List F32)) : Tile :=
  let sl := slotOf t slot
  if sl.valid then
    match fmtByCode t (getF sl.recipe rc_fmt) with
    | none => t
    | some f =>
      let o := rowBytes t slot f outs
      measure { t with store := Memory.writeN t.store dst o.bytes, numFlags := addCounts t.numFlags o.counts } slot o.amax o.bad
        (sl.kind == kindGA) o.clamped
  else { t with store := putF32s t.store dst (outs.flatMap id) }

/-- Elements of an output row. -/
def rowWidth (t : Tile) (d : RowDesc) (op : Nat) (back : Bool) : Nat :=
  if isRing t op then (if back then (if d.sweep then 0 else d.n) else if d.n = 0 then d.cols else d.n)
  else if op = 3 ∧ back = false then 1 else d.n

/-- Bytes of `rows` output rows of n elements under a slot's recipe, or in FP32. -/
def rowLen (t : Tile) (slot rows n : Nat) : Nat :=
  let sl := slotOf t slot
  match (if sl.valid then fmtByCode t (getF sl.recipe rc_fmt) else some fmtFp32) with
  | none => 0
  | some f => rows * ((f.w * n + 7) / 8 + (if f.wide then 0 else (n + 31) / 32))

/-- A slot range that begins in the tile store and leaves it. -/
def slotsBeyond (a n : Nat) : Bool := decide (a < storeBytes) && beyondStore a (88 * n)

/-- Bytes of the input rows. -/
def rowInLen (t : Tile) (d : RowDesc) : Nat :=
  match fmtByCode t d.xFmt with
  | none => 0
  | some f =>
    if d.rows * d.n = 0 then 0
    else if f.wide then (d.rows * d.n - 1) * d.step + f.w / 8
    else d.rows * ((f.w * d.n + 7) / 8)

/-- A range that a row operation reads or writes lies beyond the store (R511). -/
def rowBeyond (t : Tile) (slot : Nat) (d : RowDesc) (op : Nat) (back : Bool) : Bool :=
  badUnitRange t.rowIn d.src (rowInLen t d) ||
    (((fmtByCode t d.xFmt).map (fun f => !f.wide)).getD false && beyondStore d.xScale (d.rows * ((d.n + 31) / 32))) ||
    beyondStore d.dst (rowLen t slot d.rows (rowWidth t d op back)) ||
    (back && badUnitRange t.rowIn d.dy (4 * d.rows * d.n)) ||
    ((op == 1 || op == 2) && beyondStore d.gain (4 * d.n)) ||
    ((op == 3 || op == 4) && beyondStore d.target (4 * d.rows)) ||
    (back && (op == 1 || op == 2) && slotsBeyond d.dGain d.n) || (back && op == 1 && slotsBeyond d.dBias d.n) ||
    (isRing t op && (slotsBeyond d.dBias d.rows || (!back && slotsBeyond d.dGain (d.rows * d.cols)) ||
      (d.keys.any (fun a => beyondStore a (d.rows * d.n))))) ||
    (back && op == 0 && d.pDst.any (fun a => beyondStore a (rowLen t d.pSlot d.rows d.n)))

namespace State

/-- Every row in turn: lees records written and read, gain and bias slots added to. Answers the outputs, and the
probabilities of a backward softmax. -/
def rowLoop (s : State) (tl : TileRef) (d : RowDesc) (op table : Nat) (back : Bool) : Nat → State × List (List F32) × List (List F32)
  | 0 => (s, [], [])
  | k + 1 =>
    let (s, outs, probs) := rowLoop s tl d op table back k
    let t := s.tile tl
    let l := s.leesGet tl d k
    if isRing t op then
      if back then
        let r := s.ringBack tl d l k
        (r.1, outs ++ [r.2.1], probs ++ [r.2.2])
      else if d.n = 0 then (s, outs ++ [s.ringOutputs tl d l k], probs)
      else
        let r := s.ringRow tl d l k
        (r.1.leesPut tl d k r.2.2, outs ++ [r.2.1], probs)
    else
      let r := if back then rowBackward t d op table k l else rowForward t d op table k
      let s := match r.lees with
        | none => s
        | some l => s.leesPut tl d k l
      ((s.addTerms tl d.dGain r.gain).addTerms tl d.dBias r.bias, outs ++ [r.out], probs ++ [r.probs])

/-- The results are written: the outputs under the slot, and the probabilities of a backward softmax where they are asked
for. -/
def rowWrite (t : Tile) (w : Word) (d : RowDesc) (outs probs : List (List F32)) : Tile :=
  let t := rowPut t (getF w row_slot) d.dst outs
  match d.pDst with
  | none => t
  | some a => if flagF w row_backward then rowPut t d.pSlot a probs else t

/-- Row operations that read or write a lees record need one for each row: without spill space none lies beyond the segment
(R58). -/
def leesShort (t : Tile) (d : RowDesc) (op : Nat) : Bool := writesLees op && decide (d.recCount < d.rows) && spillAt t == 0

def row (s : State) (tl : TileRef) (d : RowDesc) (m : StoreIn) : State :=
  s.issue tl .row fun t w =>
    let op := getF w row_op
    let back := flagF w row_backward
    if badRow t w d then s.tileFault tl 6
    else if leesShort t d op then s.tileFault tl 7
    else if rowBeyond t (getF w row_slot) d op back then s.tileFault tl 9
    else s.readStore tl m.ecc fun s =>
      let (s, outs, probs) := s.rowLoop tl d op (getF w row_table) back d.rows
      let s := ((s.onTile tl (fun t => rowWrite t w d outs probs)).touch tl 17).useStash tl d.stash
      match m.race with
      | some x => s.storeRace tl 3 x
      | none => s.finish tl w

end State

/-- ROW (R56 to R58, R144, R193 to R198, R229 to R234). -/
def execRow (tl : TileRef) (d : RowDesc) (ecc : Ecc) (race : Option RaceIn) (s : State) : Host.Outcome State Fault Refusal :=
  .next (s.row tl d ⟨ecc, race⟩)

namespace State

/-- Before its backward phase a dropped span of the lot is run again from its stash point: the sequencer goes to the first
word of the span and comes back after the last (R205). -/
def spanRecompute (s : State) (tl : TileRef) (lot span : Nat) : State :=
  let t := s.tile tl
  let words := ((t.record.map (·.spans)).getD []).find? (fun x => x.1 == span)
  match words with
  | none => s
  | some (_, first, last) =>
    if !s.canIssue tl || (droppedAt t lot span).isNone || t.seq.lot != lot || t.seq.redo.isSome then s
    else s.onTile tl (fun t => { t with
      seq := { t.seq with index := first, loops := [], redo := some ⟨span, last, t.seq.index, t.seq.loops⟩ }
      stash := { t.stash with rebuilt := none, entries := t.stash.entries.filter (fun e => e.tier != 4) } })

end State

/-- SPAN_RECOMPUTE (R205). -/
def execSpanRecompute (tl : TileRef) (lot span : Nat) (s : State) : Host.Outcome State Fault Refusal :=
  .next (s.spanRecompute tl lot span)

end Sys2Proof.Machine
end

