-- ==== Sys2Proof/Machine/Transfer.lean ====
section
/-!
DEFINITION. The transfer engine: MOVE and TRANSFER_COMPLETE (R63, R64, R211, R215, R228, R309, R436).
-/
namespace Sys2Proof.Machine

/-- Channels, transfers on one channel, and the bytes of a cask slot. -/
def chanOf (t : Tile) (k : Nat) : Chan := Sparse.get Chan.reset t.chans k

def setChan (t : Tile) (k : Nat) (c : Chan) : Tile := { t with chans := Sparse.set Chan.reset t.chans k c }

def slotSize : Nat := 88

/-- The partition whose memory or tile a transfer reaches, when it is not a route or the tile itself. -/
def moveTarget (d : MoveDesc) : Option Nat :=
  match d.kind with
  | .toHbm a => some (a / windowBytes)
  | .fromHbm a => some (a / windowBytes)
  | .toTile p _ _ => some p
  | _ => none

/-- A range lies in a grant of the tile with the right it needs (R63, R271). -/
def granted (t : Tile) (a n : Nat) (write : Bool) : Bool :=
  ((t.record.map (·.grants)).getD []).any (fun g =>
    decide (g.base ≤ a) && decide (a + n ≤ g.base + g.len) && (!write || g.write))

/-- Bytes of one gathered row. -/
def gatherSize : Gather → Nat
  | .rows _ _ n => n
  | .returned _ _ n => n

namespace State

/-- Logical tiles per partition under the applied grade (R501). -/
def gradeTiles (s : State) : Nat := getF s.dev.caps devCaps_tiles

/-- The rows of the lot's assignments that a transfer gathers: where each lies, from the transfer's own address (R252,
R253). -/
def gatherAt (t : Tile) (g : Gather) : List Nat :=
  match t.record.bind (·.router) with
  | none => []
  | some c =>
    let row (a : Assign) : Nat := a.token % max 1 c.tokens
    let of (e : Nat) (d : Bool) : List Assign :=
      (lotAssigns t c (if d then t.deferred else t.admitted)).filter (fun a => a.expert == e)
    match g with
    | .rows e d n => (of e d).map (fun a => n * row a)
    | .returned e d n => (of e d).map (fun a => n * (row a * c.k + (a.rank - 1)))

/-- The source may lie in SCRATCH: cask slots, accumulators and the records of a frame (R215, R190). -/
def scratchSource (d : MoveDesc) : Bool :=
  decide (storeBytes ≤ d.loc) && d.gather.isNone && (match d.kind with
    | .route _ => true
    | .toCask _ _ => true
    | .accToCask _ _ _ _ => true
    | _ => false)

/-- Spare casks and the lines of `n` elements (R54). -/
def badSpare (c l n : Nat) : Bool := decide (c < 224 ∨ 256 ≤ c ∨ 256 < l + n)

/-- A transfer that does not start (R63, R511): outside a grant, at a tile beyond the applied grade, or beyond
a store at either end. -/
def badMove (s : State) (t : Tile) (d : MoveDesc) : Bool :=
  (if scratchSource d then !granted t d.loc d.len false else beyondStore d.loc d.len) ||
  (d.gather.any (fun g => (gatherAt t g).any (fun a => decide (d.len < a + gatherSize g)))) ||
  (match d.kind with
    | .toHbm a => !granted t a d.len true
    | .fromHbm a => !granted t a d.len false
    | .toTile _ t' a => decide (s.gradeTiles ≤ t') || beyondStore a d.len
    | .route o => o.payload == 0 && decide (d.len < slotSize * o.count)
    | .fromLot _ => false
    | .toCask c l => badSpare c l (d.len / slotSize)
    | .accToCask c l _ _ => badSpare c l (d.len / 16))

/-- The bytes of the data lot at hand that a transfer takes from the cellar, or from EVAL in an evaluation, once they have
arrived (R37, R203, R279, R309). -/
def lotBytes (s : State) (t : Tile) (off len : Nat) : Option (List Byte) :=
  let take (m : List Host.Cell) (a : Nat) : Option (List Byte) :=
    if (List.range len).all (fun i => m.any (fun c => c.1 == a + i)) then some (Memory.readN m a len) else none
  if t.seq.evaluating then take s.job.evalBytes (t.seq.lot * 2 ^ 32 + off)
  else (s.vint s.openVintage).bind (fun v => if v.done.contains t.seq.lot
    then take (((v.lots.find? (fun l => l.1 == t.seq.lot)).map (·.2)).getD []) off else none)

/-- A transfer waits for its data lot. -/
def awaitsLot (s : State) (t : Tile) (d : MoveDesc) : Bool :=
  match d.kind with
  | .fromLot o => (s.lotBytes t o d.len).isNone
  | _ => false

/-- The bytes a transfer carries, read when it starts; an evaluation reads the open snapshot (R278). -/
def moveBytes (s : State) (t : Tile) (d : MoveDesc) : List Byte :=
  match d.kind, d.gather with
  | .fromHbm a, _ => s.hbmRead t.seq.evaluating a d.len
  | .fromLot o, _ => (s.lotBytes t o d.len).getD []
  | _, some g => (gatherAt t g).flatMap (fun a => Memory.readN t.store (d.loc + a) (gatherSize g))
  | _, none => if scratchSource d then Memory.readN s.mem d.loc d.len else Memory.readN t.store d.loc d.len

/-- Errors met while the source was read: in HBM or in the store (R48, R285). -/
def moveEcc (s : State) (tl : TileRef) (d : MoveDesc) (e : Ecc) : State :=
  match d.kind with
  | .fromHbm a => s.hbmEcc a e
  | _ => s.storeEcc tl e

/-- The partition's fence refuses a request, or answers one still outstanding; the channel halts (R435,
R436). -/
def moveFenced (s : State) (tl : TileRef) (k p : Nat) (f : Field) : State :=
  (s.onPart p (fun a => { a with fenceStatus := bumpF a.fenceStatus f 1 })).onTile tl
    (fun t => setChan t k { chanOf t k with halted := true })

def moveStart (s : State) (tl : TileRef) (t : Tile) (w : Word) (d : MoveDesc) (ecc : Ecc) : State :=
  let k := getF w move_channel
  let c := chanOf t k
  if decide (2 ≤ c.queue.length) || c.halted then s.hold tl stallFull
  else if s.awaitsLot t d then s.hold tl stallEmpty
  else if s.badMove t d then s.tileFault tl 9
  else if (moveTarget d).any (fun p => s.partFenced p) then
    s.moveFenced tl k ((moveTarget d).getD 0) fenceStatus_refused
  else
    let x : Xfer := { word := w, d := d, bytes := s.moveBytes t d, since := s.now, lot := t.seq.lot, rerun := t.seq.redo.isSome }
    let s := s.moveEcc tl d ecc
    if ecc = .uncorrectable then
      (match d.kind with
        | .fromHbm _ => s.retire tl
        | _ => s)
    else
      (((s.onTile tl (fun t => setChan t k { c with queue := c.queue ++ [x] })).useStash tl { d.stash with frees := [] }).touch tl
        (20 + k)).retire tl

def move (s : State) (tl : TileRef) (d : MoveDesc) (ecc : Ecc) : State :=
  s.issue tl .move fun t w => if badDesc (getF w iw_desc) then s.tileFault tl 6 else s.moveStart tl t w d ecc

end State

/-- MOVE (R63). The instruction retires when its transfer is on the channel; an uncorrectable read returns no
data (R285). -/
def execMove (tl : TileRef) (d : MoveDesc) (ecc : Ecc) (s : State) : Host.Outcome State Fault Refusal :=
  .next (s.move tl d ecc)

/-! ## TRANSFER_COMPLETE -/

/-- A read function over bytes held in a list. -/
def readBytes (bs : List Byte) (a n : Nat) : Nat := Memory.le ((bs.drop a).take n)

/-- A dW accumulator: 16 bytes, value in [123:0], flags above (R189). -/
structure DwAcc where
  value : Int
  ovf : Bool
  ninf : Bool
  pinf : Bool
  nan : Bool
deriving DecidableEq, Repr

def dwOf (n : Nat) : DwAcc :=
  let v : Nat := n % 2 ^ 124
  { value := if v < 2 ^ 123 then (v : Int) else (v : Int) - (2 ^ 124 : Nat), ovf := n.testBit 124, ninf := n.testBit 125,
    pinf := n.testBit 126, nan := n.testBit 127 }

def dwBits (a : DwAcc) : Nat :=
  (a.value % (2 ^ 124 : Nat)).toNat + bit a.ovf * 2 ^ 124 + bit a.ninf * 2 ^ 125 + bit a.pinf * 2 ^ 126 + bit a.nan * 2 ^ 127

/-- The alignment sa + sg of a dW product: the X of the slots of its operands, sa = 0 for a bias gradient (R188, R192). -/
def dwShift (t : Tile) (slotA : Option Nat) (slotG : Nat) : Int :=
  (match slotA with
    | none => 0
    | some k => scaleExp (slotOf t k).x) + scaleExp (slotOf t slotG).x

/-- An accumulator enters a line of a cask: bit j at bit j - 32 + sa + sg + 300 (R191, R199). -/
def takeAcc (l : Line) (a : DwAcc) (shift : Int) : Line :=
  let l := l.take ⟨.sum, some (Val.ofInt a.value (shift - 32)), a.nan, a.pinf, a.ninf⟩
  { l with ovf := l.ovf || a.ovf }

namespace State

/-- Combinations of a cask by their code. -/
def combKind : Nat → CaskKind
  | 1 => .min
  | 2 => .max
  | _ => .sum

/-- The combination of the element whose slot lies at an address, by the collective that it belongs to (R214, R217). -/
def slotKind (s : State) (tl : TileRef) (a : Nat) : CaskKind :=
  match ((s.role.map (·.colls)).getD []).find? (fun c => c.owner == tl && decide (c.slotBase ≤ a) &&
      decide (a < c.slotBase + slotSize * c.space)) with
  | none => .sum
  | some c => combKind c.comb

/-- A packed record enters a line of a spare cask (R53, R140, R141, R215). An element that has received nothing, or empty
records alone, is written out as its combination says (R217). -/
def caskRecord (s : State) (tl : TileRef) (c l : Nat) (r : Packed) (k : CaskKind) : State :=
  let h := caskLine (s.tile tl) c l
  let h := if h.empty ∧ (r.header = 0 ∨ r.emptyBit) then { h with kind := k } else h
  if r.header = 0 then s.onTile tl (fun t => setCaskLine t c l h)
  else if r.malformed || kindClash h r then (s.onTile tl (fun t => setCaskLine t c l { h with nan := true })).packedBad tl
  else s.onTile tl (fun t =>
    let l' := takePacked h r
    let t := setCaskLine t c l l'
    if l'.ovf then { t with numFlags := setF t.numFlags numFlags_caskOvf 1 } else t)

def caskRecords (s : State) (tl : TileRef) (c l loc : Nat) (bs : List Byte) : Nat → State
  | 0 => s
  | n + 1 => (s.caskRecords tl c l loc bs n).caskRecord tl c (l + n) (packedAt (readBytes bs) (slotSize * n))
      (s.slotKind tl (loc + slotSize * n))

/-- Accumulators enter lines l, l + 1, … of a spare cask. -/
def caskAccs (s : State) (tl : TileRef) (c l : Nat) (shift : Int) (bs : List Byte) : Nat → State
  | 0 => s
  | n + 1 => (s.caskAccs tl c l shift bs n).onTile tl (fun t =>
      let x := takeAcc (caskLine t c (l + n)) (dwOf (readBytes bs (16 * n) 16)) shift
      let t := setCaskLine t c (l + n) x
      if x.ovf then { t with numFlags := setF t.numFlags numFlags_caskOvf 1 } else t)

/-- The record section of a frame: the records of payload 0 leave their slots in compact form (R138, R219), others as they
lie; a malformed slot goes out as NaN. -/
def frameRecs (o : FrameOut) (bs : List Byte) : List Byte :=
  if o.payload = 0 then (List.range o.count).flatMap (fun j =>
    let r := packedAt (readBytes bs) (slotSize * j)
    packBytes (if badSlot r then { Line.reset with nan := true } else slotLine r))
  else bs

/-- Some slot that a frame carries is malformed (R141). -/
def frameBad (o : FrameOut) (bs : List Byte) : Bool :=
  o.payload == 0 && (List.range o.count).any (fun j => badSlot (packedAt (readBytes bs) (slotSize * j)))

/-- A frame as the sender forms it (R211, R223): header and record section. -/
def frameOf (s : State) (tl : TileRef) (o : FrameOut) (count : Nat) (recs : List Byte) : List Byte :=
  let (v, a) := s.tagOf tl
  Memory.bytesLE (v % 2 ^ 32 * 2 ^ 32 + a % 2 ^ 16 * 2 ^ 16 + count % 2 ^ 16) 8 ++
    Memory.bytesLE (o.base % 2 ^ 32 * 2 ^ 32 + recs.length % 2 ^ 32) 8 ++
    Memory.bytesLE (s.devId % 2 ^ 16 * 2 ^ 48 + tl.p % 8 * 2 ^ 45 + tl.t % 256 * 2 ^ 37 + o.coll % 2 ^ 16 * 2 ^ 16 +
      o.payload % 16 * 2 ^ 12) 8 ++ recs

/-- The header bytes that identify a sent frame, its attempt left out. -/
def sendKey (bs : List Byte) : List Byte := (bs.take 2) ++ (bs.drop 4).take 20

/-- The send log holds the header and digest of every frame; a replay that sends other bytes sets divergent
(R309). -/
def logSend (s : State) (bs : List Byte) : State :=
  let k := sendKey bs
  let g := Config.sha384 (bs.drop 24)
  match ((s.vint s.openVintage).map (·.sends)).getD [] |>.find? (fun e => e.1 == k) with
  | some e => if e.2 = g then s else s.failBit stepCheckStatus_divergent
  | none => s.onVint s.openVintage (fun v => { v with sends := (k, g) :: v.sends })

/-- A ring that has passed a whole chunk on turns to the next rotation (R228). -/
def ringPassed (t : Tile) (route : Nat) : Tile :=
  match ringOf t with
  | none => t
  | some c =>
    if c.route ≠ route then t
    else if t.ringSent + 1 < c.frames then { t with ringSent := t.ringSent + 1 }
    else { t with ringSent := 0
                  redStatus := setF t.redStatus redStatus_rotation ((ringRotation t + 1) % max 1 (ringSize t)) }

/-- A frame leaves on a route. An evaluation logs nothing (R278). -/
def routeSend (s : State) (tl : TileRef) (o : FrameOut) (count : Nat) (recs : List Byte) : State :=
  let bs := s.frameOf tl o count recs
  ((if (s.tile tl).seq.evaluating then s else s.logSend bs).send (.frame tl o.route bs)).onTile tl (fun t => ringPassed t o.route)

/-- Records in a frame: those the image fixes, or one for each row gathered. -/
def frameCount (t : Tile) (o : FrameOut) : Option Gather → Nat
  | none => o.count
  | some g => (gatherAt t g).length

/-- The last byte arrives (R63). -/
def deliverXfer (s : State) (tl : TileRef) (x : Xfer) : State :=
  match x.d.kind with
  | .toHbm a => if x.rerun && (s.pageOf a).isSome then s else s.hbmWrite a x.bytes
  | .fromHbm _ => s.onTile tl (fun t => { t with store := Memory.writeN t.store x.d.loc x.bytes })
  | .fromLot _ => s.onTile tl (fun t => { t with store := Memory.writeN t.store x.d.loc x.bytes })
  | .toTile p t' a =>
    (s.onTile ⟨p, t'⟩ (fun t => { t with store := Memory.writeN t.store a x.bytes })).syncAdd ⟨p, t'⟩
      (getF x.word move_dstCounter) (getF x.word move_dstInc + 1)
  | .route o =>
    if x.rerun then s else
    let s := s.routeSend tl o (frameCount (s.tile tl) o x.d.gather) (frameRecs o x.bytes)
    if frameBad o x.bytes then s.packedBad tl else s
  | .toCask c l => s.caskRecords tl c l x.d.loc x.bytes (x.d.len / slotSize)
  | .accToCask c l ka kg => s.caskAccs tl c l (dwShift (s.tile tl) ka kg) x.bytes (x.d.len / 16)

/-- A write of STATE that must wait for its page's copy (R64, R295). -/
def awaitsCopy (s : State) (d : MoveDesc) : Bool :=
  match d.kind with
  | .toHbm a => s.uncopied a d.len
  | _ => false

/-- The tile whose store a transfer writes, if any. -/
def landing (tl : TileRef) (d : MoveDesc) : Option TileRef :=
  match d.kind with
  | .fromHbm _ => some tl
  | .fromLot _ => some tl
  | .toTile p t _ => some ⟨p, t⟩
  | _ => none

/-- The digest of a transfer that carries the digest flag, over its bytes in address order (R64). -/
def xferDigest (c : Chan) (x : Xfer) : Option (BitVec 384) :=
  if flagF x.word move_digest then some (Config.sha384 x.bytes) else c.digest

def transferComplete (s : State) (tl : TileRef) (k : Nat) (race : Option RaceIn) : State :=
  let t := s.tile tl
  let c := chanOf t k
  match c.queue with
  | [] => s
  | x :: rest =>
    if c.halted || !s.alive || s.awaitsCopy x.d then s
    else
      let s := s.onTile tl (fun t => setChan t k { c with queue := rest, digest := xferDigest c x })
      if (moveTarget x.d).any (fun p => s.partFenced p) then
        s.moveFenced tl k ((moveTarget x.d).getD 0) fenceStatus_errored
      else
        let s := (((s.deliverXfer tl x).freeLot tl x.lot x.d.stash.frees).touch tl (20 + k)).syncDone tl x.word
        match landing tl x.d with
        | some dst => s.raceIf dst 5 race
        | none => s

end State

/-- TRANSFER_COMPLETE (R63, R64). `race`: another client wrote a word of the destination in the same handshake
(R47). -/
def execTransferComplete (tl : TileRef) (ch : Nat) (race : Option RaceIn) (s : State) : Host.Outcome State Fault Refusal :=
  .next (s.transferComplete tl ch race)

end Sys2Proof.Machine
end

