-- ==== Sys2Proof/Machine/Vector.lean ====
section
/-!
DEFINITION. VEC: the vector unit's operations, the gated sums of a router's lot, the weight update with its constants and
stochastic rounding, transpose conversion, COMPRESS, dW accumulation, amax and finite counts, conversions and
compare-combine (R59, R137, R143, R160, R164 to R192, R220, R242, R243, R245, R252, R253, R276).
-/
namespace Sys2Proof.Machine

namespace State

/-- Issue of a VEC: an illegal word faults; the word of another VEC operation is not this command's. -/
def issueVec (s : State) (tl : TileRef) (code : Nat) (body : Tile → Word → State) : State :=
  s.issue tl .vec fun t w =>
    if decide (7 < getF w vec_op) || badDesc (getF w iw_desc) || getF w ⟨33, 12⟩ != 0 then s.tileFault tl 6
    else if getF w vec_op = code then body t w else s

/-- The operation has written its tile: progress and completion, or the race that its writes met (client 4, R47). -/
def vecEnd (s : State) (tl : TileRef) (w : Word) (m : StoreIn) : State :=
  let s := s.touch tl 18
  match m.race with
  | some x => s.storeRace tl 4 x
  | none => s.finish tl w

/-- The operation reads the store and changes the tile. -/
def vecDone (s : State) (tl : TileRef) (w : Word) (m : StoreIn) (f : Tile → Tile) : State :=
  s.readStore tl m.ecc fun s => (s.onTile tl f).vecEnd tl w m

end State

/-! ## FP32 and M48 elementwise, and the gated sums of a lot (R59, R143, R252, R253) -/

def eltOne (op : EltOp) (a b c : F32) : F32 :=
  match op with
  | .add => fadd a b
  | .sub => fsub a b
  | .mul => fmul a b
  | .fma => ffma a b c
  | .div => fdiv a b
  | .sqrt => fsqrt a
  | .gateSum => 0
  | .gateGrad => 0
  | .expertCounts => 0

/-- The same on M48 codes; R143 gives a rounding mode to add, subtract, multiply and fused multiply-add. -/
def eltM48 (op : EltOp) (mode : RMode) (a b c : Nat) : Nat :=
  match op with
  | .add => maddIn mode a b
  | .sub => msubIn mode a b
  | .mul => mmulIn mode a b
  | .fma => mfmaIn mode a b c
  | .div => mdiv a b
  | .sqrt => wsqrt fmtM48 (m48v a)
  | .gateSum => 0
  | .gateGrad => 0
  | .expertCounts => 0

/-- A router operation, on the assignments of a lot. -/
def gatedOp : EltOp → Bool
  | .gateSum => true
  | .gateGrad => true
  | .expertCounts => true
  | _ => false

def eltResults (t : Tile) (d : EltDesc) : List F32 :=
  (List.range d.count).map (fun i =>
    eltOne d.op (unitF32 t t.vecIn d.a i) (unitF32 t t.vecIn d.b i) (unitF32 t t.vecIn d.c i))

/-- Element i of an M48 vector. -/
def unitM48 (t : Tile) (a i : Nat) : Nat := unitLE t t.vecIn (a + 6 * i) 6

def eltM48s (t : Tile) (d : EltDesc) (mode : RMode) : List Byte :=
  (List.range d.count).flatMap (fun i =>
    Memory.bytesLE (eltM48 d.op mode (unitM48 t d.a i) (unitM48 t d.b i) (unitM48 t d.c i)) 6)

/-- The tile's router source. -/
def routerOf (t : Tile) : Option RouterCfg := t.record.bind (·.router)

/-- The assignments of the lot at hand that run: those admitted, then those deferred (R251, R252). -/
def ranAssigns (t : Tile) (c : RouterCfg) : List Assign :=
  lotAssigns t c t.admitted ++ lotAssigns t c t.deferred

/-- y of every token (R252): the products of its gate weights and returned rows, summed exactly and rounded once; +0 for a
token with no assignment that ran. -/
def gateSums (t : Tile) (d : EltDesc) (c : RouterCfg) : List F32 :=
  (List.range c.tokens).flatMap (fun row => (List.range d.count).map (fun j =>
    sumExact (((ranAssigns t c).filter (fun a => a.token % max 1 c.tokens == row)).map (fun a =>
      let i := row * c.k + (a.rank - 1)
      fmul (unitF32 t t.vecIn d.a i) (unitF32 t t.vecIn d.b (i * d.count + j))))))

/-- The gradient of every gate weight: the sum of dy * out over the row of an assignment that ran, +0 for one that did not
(R253). -/
def gateGrads (t : Tile) (d : EltDesc) (c : RouterCfg) : List F32 :=
  (List.range c.tokens).flatMap (fun row => (List.range c.k).map (fun r =>
    if (ranAssigns t c).any (fun a => a.token % max 1 c.tokens == row && a.rank == r + 1) then
      sumExact ((List.range d.count).map (fun j =>
        fmul (unitF32 t t.vecIn d.a (row * d.count + j)) (unitF32 t t.vecIn d.b ((row * c.k + r) * d.count + j))))
    else 0))

/-- The exact count of the lot's admitted assignments for each expert, as FP32 (R253). -/
def expertCounts (t : Tile) (c : RouterCfg) : List F32 :=
  (List.range c.quotas.length).map (fun e =>
    f32Conv (Val.ofInt ((lotAssigns t c t.admitted).filter (fun a => a.expert == e)).length 0))

def gatedResults (t : Tile) (d : EltDesc) (c : RouterCfg) : List F32 :=
  match d.op with
  | .gateSum => gateSums t d c
  | .gateGrad => gateGrads t d c
  | _ => expertCounts t c

/-- Elements of the operands a and b, and of the results, of an elementwise or a gated operation. -/
def eltCounts (t : Tile) (d : EltDesc) : Nat × Nat × Nat :=
  match d.op, routerOf t with
  | .gateSum, some c => (c.tokens * c.k, c.tokens * c.k * d.count, c.tokens * d.count)
  | .gateGrad, some c => (c.tokens * d.count, c.tokens * c.k * d.count, c.tokens * c.k)
  | .expertCounts, some c => (0, 0, c.quotas.length)
  | _, _ => (d.count, d.count, d.count)

def eltBeyond (t : Tile) (d : EltDesc) : Bool :=
  let w := if d.m48.isSome && !gatedOp d.op then 6 else 4
  let (na, nb, nd) := eltCounts t d
  badUnitRange t.vecIn d.a (w * na) || badUnitRange t.vecIn d.b (w * nb) ||
    (!gatedOp d.op && badUnitRange t.vecIn d.c (w * d.count)) || beyondStore d.dst (w * nd)

/-- The tile after an elementwise operation; none for a gated one without a router. -/
def eltTile (t : Tile) (d : EltDesc) : Option Tile :=
  if gatedOp d.op then (routerOf t).map (fun c => { t with store := putF32s t.store d.dst (gatedResults t d c) })
  else match d.m48 with
    | none => some { t with store := putF32s t.store d.dst (eltResults t d) }
    | some mode => some { t with store := Memory.writeN t.store d.dst (eltM48s t d (RMode.ofCode mode)) }

namespace State

def vecFp32Elementwise (s : State) (tl : TileRef) (d : EltDesc) (m : StoreIn) : State :=
  s.issueVec tl 0 fun t w =>
    if (eltTile t d).isNone then s.tileFault tl 6
    else if eltBeyond t d then s.tileFault tl 9
    else s.vecDone tl w m (fun t => (eltTile t d).getD t)

end State

/-- VEC_FP32_ELEMENTWISE (R59, R143, R167, R252, R253). -/
def execVecFp32Elementwise (tl : TileRef) (x : OnStore EltDesc) (s : State) : Host.Outcome State Fault Refusal :=
  .next (s.vecFp32Elementwise tl x.d x.m)

/-! ## The update (R166 to R173) -/

/-- b^t in M48 by square-and-multiply from the most significant of its bits, whose number is the last
argument (R166). -/
def mpow (b : Nat) (t : Nat) : Nat → Nat
  | 0 => f32ToM48 f32One
  | k + 1 =>
    let p := mpow b (t / 2) k
    let q := mmul p p
    if t % 2 = 1 then mmul q b else q

/-- Bits of a number. -/
def bitLen (t : Nat) : Nat := if t = 0 then 0 else Nat.log2 t + 1

/-- 1 / (1 - b^t), in M48, then once to FP32 (R166). -/
def biasFix (b : F32) (t : Nat) : F32 :=
  m48ToF32 (mdiv (f32ToM48 f32One) (msub (f32ToM48 f32One) (mpow (f32ToM48 b) t (bitLen t))))

/-- The learning rate of a vintage from the breakpoints (R276). -/
def lrAt : List (Nat × F32) → Nat → F32
  | [], _ => 0
  | [(_, a)], _ => a
  | (v, a) :: (u, b) :: rest, x =>
    if x ≤ v then a
    else if x < u then
      let d := msub (f32ToM48 b) (f32ToM48 a)
      let num := mmul d (m48r (Val.ofInt ((x : Int) - v) 0))
      m48ToF32 (madd (f32ToM48 a) (mdiv num (m48r (Val.ofInt ((u : Int) - v) 0))))
    else lrAt ((u, b) :: rest) x

/-- clip (R167); the minimum of 1 and a NaN is unstated (log 12). -/
def clipOf (maxnorm n2 : F32) : F32 :=
  if (f32v maxnorm).isZero || (f32v n2).isZero then f32One
  else
    let q := fdiv maxnorm (fsqrt n2)
    if (f32v q).isNan then Config.fwdStat 5 [maxnorm, n2]
    else if Val.lt (f32v q) (f32v f32One) then q else f32One

/-- Everything one update works from. -/
structure UpdRun where
  step : StepProg
  adamw : Bool
  su : F32
  k1 : F32
  k2 : F32
  lr : F32
  seed : Nat
  vint : Nat
  gradF : Fmt
  momF : Fmt
  masterF : Fmt
  wF : Fmt
  opt : Slot
  ws : Slot
  repack : Bool
  tensors : List Tensor
deriving DecidableEq, Repr

/-- One element: new moments and the exact E (R169, R170). -/
structure UpdElt where
  m : F32
  v : F32
  e : Val
deriving DecidableEq, Repr

def updElt (r : UpdRun) (gw w32 m v : F32) (w : Val) : UpdElt :=
  let g := fmul gw r.su
  let one := f32One
  let (m', v', d) :=
    if r.adamw then
      let m' := ffma r.step.b1 m (fmul (fsub one r.step.b1) g)
      let v' := ffma r.step.b2 v (fmul (fsub one r.step.b2) (fmul g g))
      (m', v', fdiv (fmul m' r.k1) (fadd (fsqrt (fmul v' r.k2)) r.step.eps))
    else
      let m' := ffma r.step.b1 m g
      (m', v, m')
  let d := ffma r.step.wd w32 d
  { m := m', v := v', e := Val.add w (Val.neg (Val.mul (f32v r.lr) (f32v d))) }

/-- The codes of block b of a tensor part in format f, 32 to a block. -/
def blockCodes (st : List Host.Cell) (f : Fmt) (a b : Nat) : List Nat :=
  (List.range 32).map (elemAt st (a + 4 * f.w * b) 0 f.w)

def putCodes (st : List Host.Cell) (f : Fmt) (a b : Nat) (cs : List Nat) : List Host.Cell :=
  Memory.writeN st (a + 4 * f.w * b) (packCodes f.w cs)

/-- A stored code of block b as a value: a narrow format has one scale byte to a block. -/
def codeVal (st : List Host.Cell) (f : Fmt) (scale b c : Nat) : Val :=
  if f.wide then f.decode c else scaled f c (Memory.read st (scale + b)).toNat

/-- An FP32 operand: FP32 codes as they are, others by their value. -/
def codeF32 (f : Fmt) (v : Val) (c : Nat) : F32 := if f = fmtFp32 then f32of c else f32r v

/-- Old codes where a lane is masked, new ones elsewhere (R245). -/
def mergeLanes (mk : List Bool) (old new : List Nat) : List Nat :=
  List.zipWith (fun k p => if k then p.1 else p.2) mk (old.zip new)

/-- Whether an element lies in a masked block of its tensor, by its row-major index (R244, R245). -/
def maskedElt (ts : List Tensor) (tensor i : Nat) : Bool :=
  match ts.find? (fun x => x.id == tensor) with
  | none => false
  | some x => maskedAt x (i / max 1 x.cols / 16) (i % max 1 x.cols / 16)

/-! ### COMPRESS (R243) -/

/-- Kept positions of a group under a pattern: the largest magnitudes, the lower index on a tie. -/
def keepOf (pattern : Nat) (vs : List Val) : List Nat :=
  let mag (i : Nat) : Val := ((vs.getD i (.fin false 0 0))).abs
  let rank (i : Nat) : Nat := ((List.range 4).filter (fun j =>
    Val.lt (mag i) (mag j) || (decide (j < i) && !Val.lt (mag j) (mag i)))).length
  (List.range 4).filter (fun i => decide (rank i < keptPer pattern))

/-- Positions of a group with a NaN master, whose magnitude has no order: free, by the codes of the group (log 20). -/
def freeKeep (pattern : Nat) (codes : List Nat) : List Nat :=
  let pairs := [[0, 1], [0, 2], [0, 3], [1, 2], [1, 3], [2, 3]]
  let n := Config.nanKeep pattern codes
  if pattern = 1 then pairs.getD (n % 6) [0, 1] else [n % 4]

/-- Metadata bits of a group's kept positions (R239). -/
def metaBits (pattern : Nat) (keep : List Nat) : Nat :=
  if pattern = 1 then keep.getD 0 0 + 4 * keep.getD 1 0 else keep.getD 0 0

def groupBits (pattern : Nat) (f : Fmt) (codes : List Nat) : Nat :=
  let vs := codes.map f.decode
  metaBits pattern (if vs.any (·.isNan) then freeKeep pattern codes else keepOf pattern vs)

/-- The metadata word of one block of 8 groups of masters; a group of a masked block keeps its bits (R245). -/
def blockMeta (pattern : Nat) (f : Fmt) (old : Nat) (mk : List Bool) (codes : List Nat) : Nat :=
  let n := if pattern = 1 then 4 else 2
  ((List.range 8).map (fun g =>
    (if mk.getD (4 * g) false then old / 2 ^ (n * g) % 2 ^ n else groupBits pattern f ((codes.drop (4 * g)).take 4)) *
      2 ^ (n * g))).sum

/-- Bytes of a metadata word. -/
def metaLen (pattern : Nat) : Nat := if pattern = 1 then 4 else 2

/-- Kept positions of a block by its metadata word. -/
def metaKept (pattern word : Nat) : List Nat :=
  (List.range 8).flatMap (fun g =>
    if pattern = 1 then
      let x := word / 2 ^ (4 * g) % 16
      [4 * g + x % 4, 4 * g + x / 4]
    else [4 * g + word / 2 ^ (2 * g) % 4])

/-! ### One block of 32 elements -/

/-- Positions of block b that its tensor's mask leaves out (R245). -/
def updMask (d : UpdDesc) (r : UpdRun) (b : Nat) : List Bool :=
  (List.range 32).map (fun j => maskedElt r.tensors d.tensor (d.elem + b * d.blockStep + j * d.elemStep))

/-- The elements of block b; one that is masked stands as zeros that nothing stores. -/
def updElts (t : Tile) (d : UpdDesc) (r : UpdRun) (mk : List Bool) (b : Nat) : List UpdElt :=
  let st := t.store
  let at_ (f : Fmt) (a scale j : Nat) : F32 :=
    let c := elemAt st (a + 4 * f.w * b) 0 f.w j
    codeF32 f (codeVal st f scale b c) c
  (List.range 32).map (fun j =>
    if mk.getD j false then ⟨0, 0, .fin false 0 0⟩
    else
      let w := r.masterF.decode (elemAt st (d.master + 4 * r.masterF.w * b) 0 r.masterF.w j)
      updElt r (at_ r.gradF d.grad 0 j) (f32Conv w) (at_ r.momF d.mom1 d.mom1Scale j)
        (if r.adamw then at_ r.momF d.mom2 d.mom2Scale j else 0) w)

/-- Non-finite codes among the lanes that are not masked (R175). -/
def badLanes (f : Fmt) (mk : List Bool) (cs : List Nat) : Nat :=
  ((List.zipWith (fun k c => !k && !(f.decode c).isFinite) mk cs).filter id).length

/-- Moments of a block written out under the OPT recipe with RNE (R137, R169): codes and scale, counts, and how many are not
finite. -/
def updMoment (t : Tile) (d : UpdDesc) (r : UpdRun) (mk : List Bool) (a scale b : Nat) (xs : List F32) : Tile × Nat :=
  let sl := { r.opt with recipe := setF r.opt.recipe rc_rmode 0 }
  let vs := xs.map f32v
  let (cs, x, counts) := ((lineOut r.momF sl (vs.map (fun v => (v, false))))[0]?).getD ([], 0, Counts.zero)
  let st := putCodes t.store r.momF a b (mergeLanes mk (blockCodes t.store r.momF a b) cs)
  let st := if r.momF.wide then st else Memory.write st (scale + b) (BitVec.ofNat 8 x)
  (measure { t with store := st, numFlags := addCounts t.numFlags counts } d.slot (amaxOf vs) 0 false (drainClamped r.momF sl vs),
    if x = 0xff && !r.momF.wide then (mk.filter (fun k => !k)).length else badLanes r.momF mk cs)

/-- The master of a block: E rounded with word 0 (R169 to R171). -/
def updMaster (t : Tile) (d : UpdDesc) (r : UpdRun) (mk : List Bool) (b : Nat) (es : List UpdElt) (words : List (Nat × Nat)) : Tile × Nat :=
  let rs := List.zipWith (fun e x => sround r.masterF (recipeMode r.opt.recipe) (recipePolicy r.opt.recipe) e.e x.1) es words
  let cs := rs.map (·.code)
  let counts := rs.foldl (fun c x => c.plus (countOut r.masterF x)) Counts.zero
  ({ t with store := putCodes t.store r.masterF d.master b (mergeLanes mk (blockCodes t.store r.masterF d.master b) cs)
            numFlags := addCounts t.numFlags counts }, badLanes r.masterF mk cs)

/-- COMPRESS of a block, when the vintage repacks the tensor (R243). -/
def updMeta (t : Tile) (d : UpdDesc) (r : UpdRun) (mk : List Bool) (b : Nat) : Tile :=
  let ml := metaLen d.pattern
  if d.pattern = 0 ∨ !r.repack then t
  else { t with store := Memory.writeLE t.store (d.idxAddr + ml * b) ml
                  (blockMeta d.pattern r.masterF (Memory.readLE t.store (d.idxAddr + ml * b) ml) mk
                    (blockCodes t.store r.masterF d.master b)) }

/-- X of a block of the forward copy: R156's under BLOCK, the tensor's own under HIST and FIXED (R157, R158, R169;
log 78). -/
def updX (r : UpdRun) (vs : List Val) : Nat := drainX r.wF r.ws vs

/-- The forward copy of a block: E rounded with word 1 at the kept positions, under its scale where the format is narrow
(R158, R169, R170, R243). -/
def updForward (t : Tile) (d : UpdDesc) (r : UpdRun) (mk : List Bool) (b : Nat) (es : List UpdElt) (words : List (Nat × Nat)) : Tile × Nat :=
  let ml := metaLen d.pattern
  let kept := if d.pattern = 0 then List.range 32 else metaKept d.pattern (Memory.readLE t.store (d.idxAddr + ml * b) ml)
  let vs := kept.map (fun j => (es.getD j ⟨0, 0, .nan⟩).e)
  let xb := updX r vs
  let qs := kept.map (fun j =>
    let e := (es.getD j ⟨0, 0, .nan⟩).e
    sround r.wF (recipeMode r.ws.recipe) (recipePolicy r.ws.recipe)
      (if r.wF.wide then e else Val.scale (127 - (xb : Int)) e) (words.getD j (0, 0)).2)
  let (cs, x, counts) := finishBlock r.wF xb qs
  let keptMk := kept.map (fun j => mk.getD j false)
  let a := d.fwd + (r.wF.w * kept.length + 7) / 8 * b
  let old := (List.range kept.length).map (elemAt t.store a 0 r.wF.w)
  let st := Memory.writeN t.store a (packCodes r.wF.w (mergeLanes keptMk old cs))
  let st := if r.wF.wide then st else Memory.write st (d.fwdScale + b) (BitVec.ofNat 8 x)
  (measure { t with store := st, numFlags := addCounts t.numFlags counts } d.wslot (amaxOf vs) 0 false (drainClamped r.wF r.ws vs),
    if x = 0xff && !r.wF.wide then (keptMk.filter (fun k => !k)).length else badLanes r.wF keptMk cs)

/-- Update one block of 32 elements of a tensor (R169 to R173, R243, R245). Answers the tile and its non-finite
results (R175). -/
def updBlock (t : Tile) (d : UpdDesc) (r : UpdRun) (b : Nat) : Tile × Nat :=
  let mk := updMask d r b
  if mk.all id then (t, 0) else
  let es := updElts t d r mk b
  let words := (List.range 32).map (fun j => philoxWords r.seed (d.elem + b * d.blockStep + j * d.elemStep) d.tensor r.vint)
  let (t, n1) := updMoment t d r mk d.mom1 d.mom1Scale b (es.map (·.m))
  let (t, n2) := if r.adamw then updMoment t d r mk d.mom2 d.mom2Scale b (es.map (·.v)) else (t, 0)
  if (f32v r.lr).isZero then (t, n1 + n2)
  else
    let (t, n3) := updMaster t d r mk b es words
    let (t, n4) := updForward (updMeta t d r mk b) d r mk b es words
    (t, n1 + n2 + n3 + n4)

/-- Every block of an update. -/
def updBlocks (t : Tile) (d : UpdDesc) (r : UpdRun) (n : Nat) : Tile × Nat :=
  (List.range n).foldl (fun a b =>
    let x := updBlock a.1 d r b
    (x.1, a.2 + x.2)) (t, 0)

namespace State

/-- The loss-scale exponent of a tile: its LOSS slot's X less 127. DESIGN CHOICE (log 78): 0 where the tile has no such slot,
the first where it has more. -/
def lossExp (t : Tile) : Int :=
  match (t.slots.find? (fun x => x.2.valid && x.2.kind == kindLOSS)) with
  | none => 0
  | some x => scaleExp x.2.x

/-- The uncommitted vintage whose update may write: the one after the committed vintage, its verdict
received (R301). -/
def updVint (s : State) : Option Vint :=
  s.job.uncommitted.find? (fun v => v.v == s.committedV + 1 && v.verdict.isSome)

/-- n2 as the tile store holds it (R167). -/
def normAt (t : Tile) (d : UpdDesc) : F32 := BitVec.ofNat 32 (Memory.readLE t.store d.norm2 4)

/-- What an UPDATE works from: the constants of its vintage and tensor (R166 to R168). -/
def updRun (s : State) (t : Tile) (d : UpdDesc) (v : Vint) : Option UpdRun :=
  match s.img.cur with
  | none => none
  | some im =>
    let sl := slotOf t d.slot
    let ws := slotOf t d.wslot
    let o := sl.recipe
    let p := im.img.step
    match fmtByCode t d.gradFmt, fmtByCode t (getF o rc_fmt), fmtByCode t (getF o rc_masterFmt), fmtByCode t (getF ws.recipe rc_fmt) with
    | some gf, some mf, some wf, some qf =>
      let n := sl.t + 1
      let clip := clipOf p.maxnorm (normAt t d)
      let per := ((im.img.tensors.find? (fun x => x.id == d.tensor)).map (·.repack)).getD 0
      some { step := p, adamw := getF o rc_optimizer == 0,
             su := m48ToF32 (m48r (Val.scale (-(lossExp t)) (m48v (f32ToM48 clip)))),
             k1 := biasFix p.b1 n, k2 := biasFix p.b2 n, lr := fmul (lrAt p.lr v.v) sl.mult,
             seed := im.hdr.jobSeed, vint := v.v, gradF := gf, momF := mf, masterF := wf, wF := qf,
             opt := sl, ws := ws, repack := per != 0 && v.v % per == 0, tensors := im.img.tensors }
    | _, _, _, _ => none

/-- Blocks up to the last that is not masked whole. -/
def updLast (d : UpdDesc) (r : UpdRun) : Nat :=
  match (List.range d.blocks).reverse.find? (fun b => !(updMask d r b).all id) with
  | none => 0
  | some b => b + 1

/-- Store bytes that an UPDATE names (R511). -/
def updBeyond (d : UpdDesc) (r : UpdRun) : Bool :=
  let n := updLast d r
  let part (f : Fmt) (a scale : Nat) : Bool := beyondStore a (4 * f.w * n) || (!f.wide && beyondStore scale n)
  let per := if d.pattern = 0 then 32 else 8 * keptPer d.pattern
  (!(f32v r.step.maxnorm).isZero && beyondStore d.norm2 4) ||
    beyondStore d.grad (4 * r.gradF.w * n) || beyondStore d.master (4 * r.masterF.w * n) ||
    part r.momF d.mom1 d.mom1Scale || (r.adamw && part r.momF d.mom2 d.mom2Scale) ||
    (!(f32v r.lr).isZero &&
      (beyondStore d.fwd ((r.wF.w * per + 7) / 8 * n) || (!r.wF.wide && beyondStore d.fwdScale n) ||
        (d.pattern != 0 && beyondStore d.idxAddr (n * metaLen d.pattern))))

/-- The blocks are updated and their non-finite results counted; a counted one fails the step (R175, R178). -/
def updateBlocks (s : State) (tl : TileRef) (d : UpdDesc) (r : UpdRun) (w : Word) (m : StoreIn) : State :=
  let x := updBlocks (s.tile tl) d r d.blocks
  let sl := slotOf x.1 d.slot
  let u := { x.1 with
    slots := Sparse.set Slot.reset x.1.slots d.slot
      (if flagF sl.recipe rc_check then { sl with nonfinite := sl.nonfinite + x.2 } else sl) }
  let s := (s.setTile tl u).vecEnd tl w m
  if flagF sl.recipe rc_check && x.2 != 0 then s.failFor stepCheckStatus_numeric Err.numeric else s

/-- UPDATE: waits for the commit of the previous vintage and the verdict (R301); a verdict with a SKIP count
leaves everything unchanged (R177); a rate that is not finite fails the step (R168). -/
def update (s : State) (tl : TileRef) (d : UpdDesc) (m : StoreIn) : State :=
  s.issueVec tl 1 fun t w =>
    match s.updVint with
    | none => s.hold tl (if (s.vint (s.committedV + 1)).isSome then stallVerdict else stallCommit)
    | some v =>
      if (v.verdict.map (·.skip)).getD false then s.finish tl w
      else match s.updRun t d v with
        | none => s.tileFault tl 6
        | some r =>
          if updBeyond d r then s.tileFault tl 9
          else if !(f32v r.lr).isFinite then (s.failFor stepCheckStatus_numeric Err.numeric).finish tl w
          else s.readStore tl m.ecc fun s => s.updateBlocks tl d r w m

end State

/-- UPDATE (R169). -/
def execUpdate (tl : TileRef) (x : OnStore UpdDesc) (s : State) : Host.Outcome State Fault Refusal :=
  .next (s.update tl x.d x.m)

/-! ## Transpose conversion (R185, R242, R245) -/

/-- Element (r, k) of the forward square, decoded with its forward scale; +0 at a pruned or masked place. -/
def trElem (t : Tile) (d : TrDesc) (f : Fmt) (blocks : List (Nat × Nat)) (r k : Nat) : Val :=
  if inBlock blocks k r then .fin false 0 0
  else
    let x := (Memory.read t.store (d.srcScale + r * d.scaleStep)).toNat
    let base := d.src + r * d.srcStride
    if d.pattern = 0 then scaled f (elemAt t.store base 0 f.w k) x
    else
      let ml := metaLen d.pattern
      match (metaKept d.pattern (Memory.readLE t.store (d.idxAddr + r * ml) ml)).findIdx? (· == k) with
      | none => .fin false 0 0
      | some i => scaled f (elemAt t.store base 0 f.w i) x

/-- The new block of position k: codes of 32 vectors, the new scale X' (R185), and the counts (R151). -/
def trBlock (t : Tile) (d : TrDesc) (f : Fmt) (blocks : List (Nat × Nat)) (k : Nat) : List Nat × Nat × Counts :=
  let vs := (List.range 32).map (fun r => trElem t d f blocks r k)
  let am := amaxOf vs
  let x := if am.1 = 0 then 127 else (clampX (127 - fitExp f am)).1
  finishBlock f x (vs.map (fun v => writeOut f .rne .inf (some x) v false))

def trTile (t : Tile) (d : TrDesc) (f : Fmt) (blocks : List (Nat × Nat)) : Tile :=
  let bs := (List.range 32).map (trBlock t d f blocks)
  let st := (List.range 32).foldl (fun st r =>
    Memory.writeN st (d.dst + r * d.stride) (packCodes f.w (bs.map (fun b => b.1.getD r 0)))) t.store
  { t with
    store := Memory.writeN st d.dstScale (bs.map (fun b => BitVec.ofNat 8 b.2.1))
    numFlags := addCounts t.numFlags (bs.foldl (fun c b => c.plus b.2.2) Counts.zero) }

/-- Bytes of a vector of the forward square. -/
def trSrcLen (d : TrDesc) (f : Fmt) : Nat := if d.pattern = 0 then 4 * f.w else f.w * keptPer d.pattern

def trBeyond (d : TrDesc) (f : Fmt) : Bool :=
  beyondStore d.src (31 * d.srcStride + trSrcLen d f) || beyondStore d.srcScale (31 * d.scaleStep + 1) ||
    (d.pattern != 0 && beyondStore d.idxAddr (32 * metaLen d.pattern)) ||
    beyondStore d.dst (31 * d.stride + 4 * f.w) || beyondStore d.dstScale 32

namespace State

def transposeConversion (s : State) (tl : TileRef) (d : TrDesc) (m : StoreIn) : State :=
  s.issueVec tl 2 fun t w =>
    match fmtEntry t d.fmt with
    | none => s.tileFault tl 6
    | some f =>
      if trBeyond d f then s.tileFault tl 9
      else s.vecDone tl w m (fun t => trTile t d f (maskedBlocks s.tensors d.mask))

end State

/-- TRANSPOSE_CONVERSION (R185). -/
def execTransposeConversion (tl : TileRef) (x : OnStore TrDesc) (s : State) : Host.Outcome State Fault Refusal :=
  .next (s.transposeConversion tl x.d x.m)

/-! ## COMPRESS -/

def compressTile (t : Tile) (d : CmpDesc) (f : Fmt) : Tile :=
  let ml := metaLen d.pattern
  let codes := (List.range (4 * d.groups)).map (elemAt t.store d.master 0 f.w)
  let st := (List.range ((d.groups + 7) / 8)).foldl (fun st b =>
    Memory.writeLE st (d.idxAddr + ml * b) ml (blockMeta d.pattern f 0 [] ((codes.drop (32 * b)).take 32))) t.store
  { t with store := st }

namespace State

def compress (s : State) (tl : TileRef) (d : CmpDesc) (m : StoreIn) : State :=
  s.issueVec tl 3 fun t w =>
    match fmtByCode t d.masterFmt with
    | none => s.tileFault tl 6
    | some f =>
      if beyondStore d.master (4 * d.groups * (f.w / 8)) || beyondStore d.idxAddr ((d.groups + 7) / 8 * metaLen d.pattern) then
        s.tileFault tl 9
      else s.vecDone tl w m (fun t => compressTile t d f)

end State

/-- COMPRESS (R243). -/
def execCompress (tl : TileRef) (x : OnStore CmpDesc) (s : State) : Host.Outcome State Fault Refusal :=
  .next (s.compress tl x.d x.m)

/-! ## dW accumulators (R188 to R192, R200, R245) -/

/-- Add a packed record at alignment `shift` = sa + sg: bit 0 weighs 2^(-32 + shift) (R189, R190). -/
def dwAdd (a : DwAcc) (l : Line) (shift : Int) : DwAcc :=
  let k := 268 + shift
  let z := l.value.toInt
  let q := if 0 ≤ k then z / (2 ^ k.toNat : Nat) else z * (2 ^ (-k).toNat : Nat)
  let lost := decide (0 ≤ k) && decide (z % (2 ^ k.toNat : Nat) ≠ 0)
  let sum := if l.empty then a.value else a.value + q
  let out (x : Int) : Bool := !decide (-(2 ^ 123 : Int) ≤ x ∧ x < (2 ^ 123 : Int))
  { value := (dwOf (sum % (2 ^ 124 : Nat)).toNat).value, ovf := a.ovf || l.ovf || (!l.empty && (lost || out q || out sum)),
    ninf := a.ninf || l.ninf, pinf := a.pinf || l.pinf, nan := a.nan || l.nan }

/-- The first accumulator of the operation: those of the row that the token index names, if it names one (R200). -/
def dwBase (t : Tile) (d : DwDesc) : Nat :=
  match d.token with
  | none => d.acc
  | some a => d.acc + 16 * d.count * Memory.readLE t.store a 4

namespace State

/-- One record enters its accumulator; a malformed one is refused, sets nan and counts (R141). An element of a masked
block is not formed (R245). -/
def dwOne (s : State) (tl : TileRef) (d : DwDesc) (i : Nat) : State :=
  let t := s.tile tl
  let r := packedAt (fun a n => unitLE t t.vecIn a n) (d.src + 88 * i)
  let at_ := dwBase t d + 16 * i
  let a := dwOf (Memory.readLE t.store at_ 16)
  let put (s : State) (b : DwAcc) : State :=
    s.onTile tl (fun t => { t with store := Memory.writeLE t.store at_ 16 (dwBits b) })
  if maskedElt s.tensors d.tensor (d.elem + i * d.elemStep) then s
  else if r.malformed then (put s { a with nan := true }).packedBad tl
  else put s (dwAdd a r.line (dwShift t d.slotA d.slotG))

def dwBeyond (t : Tile) (d : DwDesc) : Bool :=
  badUnitRange t.vecIn d.src (88 * d.count) || d.token.any (fun a => beyondStore a 4) || beyondStore (dwBase t d) (16 * d.count)

def dwAccumulate (s : State) (tl : TileRef) (d : DwDesc) (m : StoreIn) : State :=
  s.issueVec tl 4 fun t w =>
    if dwBeyond t d then s.tileFault tl 9
    else s.readStore tl m.ecc fun s => ((List.range d.count).foldl (fun s i => s.dwOne tl d i) s).vecEnd tl w m

end State

/-- DW_ACCUMULATE (R189, R190). -/
def execDwAccumulate (tl : TileRef) (x : OnStore DwDesc) (s : State) : Host.Outcome State Fault Refusal :=
  .next (s.dwAccumulate tl x.d x.m)

/-! ## amax and finite count, conversion, compare-combine -/

/-- The squares of the elements less their loss scale, each exact, enter a line of a spare cask (R167). -/
def normLine (l : Line) (loss : Int) (vs : List Val) : Line :=
  vs.foldl (fun l v =>
    let u := Val.scale (-loss) v
    l.take (match Val.mul u u with
      | .nan => ⟨.sum, none, true, false, false⟩
      | .inf s => ⟨.sum, none, false, !s, s⟩
      | x => ⟨.sum, some x, false, false, false⟩)) l

/-- The tile after the amax and finite count of a part of a tensor: the slot measures it, the sum of squares of a tensor
named for clipping takes it in (R167), and the amax so far goes where the collective of R161 sends it from. -/
def amaxTile (ts : List Tensor) (t : Tile) (d : AmaxDesc) : Tile :=
  let vs := (unitF32s t t.vecIn d.src d.count).map f32v
  let t := measure t d.slot (amaxOf vs) (vs.filter (fun v => !v.isFinite)).length true false
  let t := match d.norm with
    | none => t
    | some (c, l) =>
      if t.seq.evaluating || t.seq.redo.isSome || !ts.any (fun x => x.id == (slotOf t d.slot).tensor && x.clip) then t
      else
        let x := normLine (caskLine t c l) (State.lossExp t) vs
        let t := setCaskLine t c l x
        if x.ovf then { t with numFlags := setF t.numFlags numFlags_caskOvf 1 } else t
  match d.dst with
  | none => t
  | some a => { t with store := Memory.writeLE t.store a 4 (slotOf t d.slot).amax.toNat }

namespace State

def amaxAndFiniteCount (s : State) (tl : TileRef) (d : AmaxDesc) (m : StoreIn) : State :=
  s.issueVec tl 5 fun t w =>
    if badUnitRange t.vecIn d.src (4 * d.count) || d.dst.any (fun a => beyondStore a 4) ||
        d.norm.any (fun x => badSpare x.1 x.2 1) then s.tileFault tl 9
    else s.vecDone tl w m (fun t => amaxTile s.tensors t d)

end State

/-- AMAX_AND_FINITE_COUNT (R160, R161, R167, R175). -/
def execAmaxAndFiniteCount (tl : TileRef) (x : OnStore AmaxDesc) (s : State) : Host.Outcome State Fault Refusal :=
  .next (s.amaxAndFiniteCount tl x.d x.m)

/-- The decoded blocks of a conversion's source. -/
def convSource (t : Tile) (d : ConvDesc) (f : Fmt) : List (List (Val × Bool)) :=
  (List.range d.blocks).map (fun b => (List.range 32).map (fun i =>
    (if f.wide then f.decode (unitLE t t.vecIn (d.src + (f.w / 8) * (32 * b + i)) (f.w / 8))
     else scaled f (elemAt t.store (d.src + 4 * f.w * b) 0 f.w i) (Memory.read t.store (d.srcScale + b)).toNat, false)))

def convTile (t : Tile) (d : ConvDesc) (f g : Fmt) : Tile :=
  let sl := slotOf t d.slot
  let o := drainOut g sl (convSource t d f)
  let n := d.blocks * 4 * g.w
  let st := Memory.writeN (Memory.writeN t.store d.dst (o.bytes.take n)) d.dstScale (o.bytes.drop n)
  measure { t with store := st, numFlags := addCounts t.numFlags o.counts } d.slot o.amax o.bad (sl.kind == kindGA) o.clamped

namespace State

def conversion (s : State) (tl : TileRef) (d : ConvDesc) (m : StoreIn) : State :=
  s.issueVec tl 6 fun t w =>
    let sl := slotOf t d.slot
    match fmtByCode t d.srcFmt, (if sl.valid then fmtByCode t (getF sl.recipe rc_fmt) else none) with
    | some f, some g =>
      if badUnitRange t.vecIn d.src (4 * f.w * d.blocks) || (!f.wide && beyondStore d.srcScale d.blocks) ||
          beyondStore d.dst (4 * g.w * d.blocks) || (!g.wide && beyondStore d.dstScale d.blocks) then s.tileFault tl 9
      else s.vecDone tl w m (fun t => convTile t d f g)
    | _, _ => s.tileFault tl 6

end State

/-- CONVERSION (R137). -/
def execConversion (tl : TileRef) (x : OnStore ConvDesc) (s : State) : Host.Outcome State Fault Refusal :=
  .next (s.conversion tl x.d x.m)

/-- Maximum or minimum of two FP32 operands; equal ones keep the bits of the lower device, a NaN makes the
result NaN (R220). -/
def combineOne (takeMax : Bool) (a : F32) (devA : Nat) (b : F32) (devB : Nat) : F32 :=
  if (f32v a).isNan || (f32v b).isNan then f32Nan
  else if Val.eqv (f32v a) (f32v b) then (if devA ≤ devB then a else b)
  else if Val.lt (f32v a) (f32v b) = takeMax then b else a

/-- The combined vector of a compare-combine. -/
def ccResults (t : Tile) (d : CcDesc) : List F32 :=
  (List.range d.count).map (fun i =>
    combineOne d.takeMax (unitF32 t t.vecIn d.a i) d.devA (unitF32 t t.vecIn d.b i) d.devB)

namespace State

def compareCombine (s : State) (tl : TileRef) (d : CcDesc) (m : StoreIn) : State :=
  s.issueVec tl 7 fun t w =>
    let n := 4 * d.count
    if badUnitRange t.vecIn d.a n || badUnitRange t.vecIn d.b n || beyondStore d.dst n then s.tileFault tl 9
    else s.vecDone tl w m (fun t => { t with store := putF32s t.store d.dst (ccResults t d) })

end State

/-- COMPARE_COMBINE (R220). -/
def execCompareCombine (tl : TileRef) (x : OnStore CcDesc) (s : State) : Host.Outcome State Fault Refusal :=
  .next (s.compareCombine tl x.d x.m)

end Sys2Proof.Machine
end

