-- ==== Sys2Proof/Machine/Frames.lean ====
section
/-!
DEFINITION. PARTIAL_FRAME: the checks of a received frame, its order against the vintage at hand, and the
combining or placing of its records (R211 to R223, R309).
-/
namespace Sys2Proof.Machine

/-! Fields of the header words (R211). -/
def fr_vintage : Field := ⟨63, 32⟩
def fr_attempt : Field := ⟨31, 16⟩
def fr_count : Field := ⟨15, 0⟩
def fr_base : Field := ⟨63, 32⟩
def fr_bytes : Field := ⟨31, 0⟩
def fr_dev : Field := ⟨63, 48⟩
def fr_p : Field := ⟨47, 45⟩
def fr_t : Field := ⟨44, 37⟩
def fr_res1 : Field := ⟨36, 32⟩
def fr_coll : Field := ⟨31, 16⟩
def fr_payload : Field := ⟨15, 12⟩
def fr_res2 : Field := ⟨11, 0⟩

end Sys2Proof.Machine
namespace Sys2Proof.Frame
open Sys2Proof.Machine

def count (f : Frame) : Nat := getF f.w0 fr_count
def base (f : Frame) : Nat := getF f.w1 fr_base
def payload (f : Frame) : Nat := getF f.w2 fr_payload

/-- What identifies a frame (R213). -/
def ident (f : Frame) : FrameId :=
  { dev := getF f.w2 fr_dev, p := getF f.w2 fr_p, t := getF f.w2 fr_t, coll := getF f.w2 fr_coll,
    base := f.base, vintage := getF f.w0 fr_vintage, attempt := getF f.w0 fr_attempt }

/-- Format of a wide payload. -/
def wideFmt (f : Frame) : Option Fmt :=
  match f.payload with
  | 1 => some fmtFp32
  | 2 => some fmtBf16
  | 3 => some fmtFp16
  | 4 => some fmtM48
  | _ => none

/-- The packed records of the section, in order, with the bytes they take (R138). -/
def packedRecs (f : Frame) : List (Nat × Packed) × Nat :=
  (List.range f.count).foldl (fun a _ =>
    let r := packedAt (readBytes f.recs) a.2
    (a.1 ++ [(a.1.length, r)], a.2 + 8 + 8 * r.n)) ([], 0)

/-- The length of the count records that the frame holds (R212). -/
def recLen (f : Frame) (recBytes : Nat) : Nat :=
  match f.payload, f.wideFmt with
  | 0, _ => f.packedRecs.2
  | _, some g => f.count * (g.w / 8)
  | _, none => f.count * recBytes

end Sys2Proof.Frame
namespace Sys2Proof.Machine

/-- What a slot of a MAX or MIN collective holds (log 26): the FP32 value, the device it came from, and whether it holds one. -/
structure CmpSlot where
  value : F32
  dev : Nat
  held : Bool
deriving DecidableEq, Repr

def CmpSlot.bytes (x : CmpSlot) : List Byte :=
  Memory.bytesLE x.value.toNat 4 ++ Memory.bytesLE x.dev 2 ++ [BitVec.ofNat 8 (bit x.held)]

/-- A value enters the slot: of equal values that of the lower device stays (R220). -/
def CmpSlot.take (h : CmpSlot) (takeMax : Bool) (x : F32) (dev : Nat) : CmpSlot :=
  let z := if h.held then combineOne takeMax h.value h.dev x dev else x
  { value := z, dev := if h.held ∧ z = h.value ∧ (z ≠ x ∨ h.dev ≤ dev) then h.dev else dev, held := true }

/-- The place of a frame's sender among the contributors of a collective. -/
def collRank (c : Coll) (i : FrameId) : Nat := c.contributors.findIdx (fun x => x == (i.dev, i.p, i.t))

/-- Where the blocks of a frame of ALLGATHER or ALLTOALL go (R221). -/
def collPlace (c : Coll) (f : Frame) : Nat := c.slotBase + c.srcStride * collRank c f.ident + c.recBytes * f.base

/-- Slot of element j of a collective (R215). -/
def collSlot (c : Coll) (j : Nat) : Nat := c.slotBase + slotSize * j

namespace State

/-- The collective that a frame names at a tile which owns it. -/
def collOf (s : State) (tl : TileRef) (id : Nat) : Option Coll :=
  (s.role.map (·.colls)).getD [] |>.find? (fun c => c.id == id && c.owner == tl)

/-- Whether a frame is bad (R212, R141). -/
def badFrame (s : State) (tl : TileRef) (f : Frame) : Bool :=
  let i := f.ident
  getF f.w2 fr_res1 != 0 || getF f.w2 fr_res2 != 0 || decide (5 < f.payload) ||
    (match s.collOf tl i.coll with
      | none => true
      | some c =>
        !c.contributors.contains (i.dev, i.p, i.t) || decide (c.space < f.base + f.count) ||
          getF f.w1 fr_bytes != f.recLen c.recBytes || f.recs.length != getF f.w1 fr_bytes ||
          (f.payload == 0 && f.packedRecs.1.any (fun r => r.2.malformed ||
            kindClash (slotLine (s.slotAt tl (collSlot c (f.base + r.1)))) r.2)))

/-- The vintage and attempt at hand: of the step, or of an evaluation (R278). No lot of N+2 runs while N+1 awaits its check
(R300 lets it run; log 81), so no tile is ahead of the oldest uncommitted vintage. -/
def atHand (s : State) : Nat × Nat :=
  if s.job.evaluating then (s.job.evalV % 2 ^ 32, s.job.evalAttempt) else (s.openVintage % 2 ^ 32, s.openAttempt)

/-- Older, equal or newer than the vintage and attempt at hand. -/
def frameAge (s : State) (i : FrameId) : Ordering :=
  let (v, a) := s.atHand
  if i.vintage = v then compare i.attempt a else compare i.vintage v

/-- Bytes of the tile store, or of SCRATCH beyond it (R215, log 80). -/
def bytesAt (s : State) (tl : TileRef) (a n : Nat) : List Byte :=
  Memory.readN (if a < storeBytes then (s.tile tl).store else s.mem) a n

/-- The slot of a MAX or MIN collective at an address. -/
def cmpAt (s : State) (tl : TileRef) (a : Nat) : CmpSlot :=
  let b := readBytes (s.bytesAt tl a 7)
  { value := BitVec.ofNat 32 (b 0 4), dev := b 4 2, held := b 6 1 == 1 }

/-- The FP32 records of a frame enter the slots of a MAX or MIN collective (R220). -/
def combineCmp (s : State) (tl : TileRef) (c : Coll) (f : Frame) (takeMax : Bool) : State :=
  (List.range f.count).foldl (fun s j =>
    let a := collSlot c (f.base + j)
    s.putAt tl a ((s.cmpAt tl a).take takeMax (BitVec.ofNat 32 (readBytes f.recs (4 * j) 4)) f.ident.dev).bytes) s

/-- A packed record or a wide value is added into the slot of its element (R129, R140, R215, R219). -/
def combineSum (s : State) (tl : TileRef) (c : Coll) (f : Frame) : State :=
  match f.wideFmt with
  | some g => (List.range f.count).foldl (fun s j =>
      s.slotOp tl (collSlot c (f.base + j)) (fun l =>
        l.take (Line.ofWide (g.decode (readBytes f.recs (j * (g.w / 8)) (g.w / 8)))))) s
  | none => f.packedRecs.1.foldl (fun s r => s.slotOp tl (collSlot c (f.base + r.1)) (fun l => takePacked l r.2)) s

/-- The results of expert e return to the addresses of their (row, rank), in the order of its slots (R252). -/
def placeReturned (s : State) (tl : TileRef) (c : Coll) (f : Frame) (e : Nat) : State :=
  let t := s.tile tl
  match t.record.bind (·.router) with
  | none => s
  | some rc =>
    let as := (ranAssigns t rc).filter (fun a => a.expert == e)
    (List.range f.count).foldl (fun s j =>
      match as[f.base + j]? with
      | none => s
      | some a => s.putAt tl (c.slotBase + c.recBytes * (a.token % max 1 rc.tokens * rc.k + (a.rank - 1)))
          ((f.recs.drop (c.recBytes * j)).take c.recBytes)) s

/-- The records of an accepted frame are added or placed (R215, R218 to R221, R252). -/
def combine (s : State) (tl : TileRef) (c : Coll) (f : Frame) : State :=
  match c.kind, c.ret with
  | .gather, _ => s.putAt tl (collPlace c f) f.recs
  | .alltoall, none => s.putAt tl (collPlace c f) f.recs
  | .alltoall, some e => s.placeReturned tl c f e
  | .sum, _ => s.combineSum tl c f
  | .min, _ => s.combineCmp tl c f false
  | .max, _ => s.combineCmp tl c f true

/-- A frame's records reach beyond the owner's store (R511). -/
def frameBeyond (c : Coll) (f : Frame) : Bool :=
  let past (a n : Nat) : Bool := decide (a < storeBytes) && beyondStore a n
  match c.kind, c.ret with
  | .gather, _ => past (collPlace c f) f.recs.length
  | .alltoall, none => past (collPlace c f) f.recs.length
  | .alltoall, some _ => false
  | _, _ => f.count != 0 && past (collSlot c f.base) (slotSize * f.count)

/-- The entry of the cellar for a frame that a tile took. -/
def cellarEnt (s : State) (tl : TileRef) (i : FrameId) : Option FrameEnt :=
  (((s.vint s.openVintage).map (·.frames)).getD []).find? (fun e => e.tl == tl && e.id == { i with attempt := 0 })

/-- The cellar keeps the frame's header and digest, and the whole frame on a FULL route; in a replay the regenerated frame
must match (R309). -/
def cellarFrame (s : State) (tl : TileRef) (c : Coll) (f : Frame) : State :=
  let g := Config.sha384 f.recs
  if s.job.evaluating then s else
  match s.cellarEnt tl f.ident with
  | some e => if e.digest = g then s else s.failBit stepCheckStatus_divergent
  | none => s.onVint s.openVintage (fun v => { v with frames :=
      { tl := tl, id := { f.ident with attempt := 0 }, attempt := f.ident.attempt, pos := (s.tile tl).seq.pos, digest := g,
        full := if c.full then some f else none } :: v.frames })

/-- An element of a MAX or MIN collective that nothing reached holds -inf or +inf (R217). -/
def fillUnfed (s : State) (tl : TileRef) (c : Coll) : State :=
  match c.kind with
  | .sum => s
  | .gather => s
  | .alltoall => s
  | k => (List.range c.space).foldl (fun s j =>
      if (s.cmpAt tl (collSlot c j)).held then s
      else s.putAt tl (collSlot c j) (Memory.bytesLE (if k = .max then f32NegInf else f32PosInf).toNat 4)) s

/-- The amax that a collective brings is that of the tensor in every slot of the device (R161). -/
def takeAmax (s : State) (tl : TileRef) (c : Coll) : State :=
  match c.amax with
  | none => s
  | some id =>
    let x : F32 := BitVec.ofNat 32 (Memory.le (s.bytesAt tl c.slotBase 4))
    s.allTiles (fun t => { t with slots := Sparse.mapV Slot.reset (fun sl =>
      if sl.valid ∧ sl.tensor = id ∧ Val.lt (f32v sl.amax) (f32v x) = true then { sl with amax := x } else sl) t.slots })

/-- The last expected frame completes the collective: its counter is incremented, and a tile that waited for no more waits
for no frames (R222, R225). -/
def collDone (s : State) (tl : TileRef) (c : Coll) : State :=
  let s := (((s.fillUnfed tl c).takeAmax tl c).syncAdd tl c.counter 1)
  s.onTile tl (fun t => match t.seq.wait with
    | some (k, v) => if k = c.counter ∧ v ≤ Sparse.get 0 t.counters k then
        { t with redStatus := setF t.redStatus redStatus_collWait 0 } else t
    | none => t)

/-- The tile takes a frame: its records, the count of its rows, and the count of the ring's frames (R222, R228). -/
def takeFrame (s : State) (tl : TileRef) (c : Coll) (f : Frame) : State :=
  let i := f.ident
  let s := (s.combine tl c f).onTile tl (fun t => { t with
    accepted := i :: t.accepted
    ringGot := if (ringOf t).any (fun r => r.coll == c.id) then t.ringGot + 1 else t.ringGot
    seq := { t.seq with inRows := t.seq.inRows + f.count } })
  let got := ((s.tile tl).accepted.filter (fun x => x.coll == i.coll && x.vintage == i.vintage && x.attempt == i.attempt)).length
  if got = c.expected then s.collDone tl c else s

/-- The frame is accepted. -/
def acceptFrame (s : State) (tl : TileRef) (c : Coll) (f : Frame) : State := (s.takeFrame tl c f).cellarFrame tl c f

/-- A chunk of the ring that comes before its rotation finds both receive buffers full; its sender waits (R228). -/
def ringFull (t : Tile) (c : Coll) : Bool :=
  (ringOf t).any (fun r => r.coll == c.id && decide (max 1 (ringRotation t) + 1 < 1 + t.ringGot / max 1 r.frames))

/-- A FULL frame that the cellar holds from an earlier attempt. -/
def heldFull (s : State) (tl : TileRef) (i : FrameId) : Option Frame :=
  if s.job.evaluating then none else
  (s.cellarEnt tl i).bind (fun e => if e.attempt = s.openAttempt then none else e.full)

/-- The regenerated copy of a FULL frame is compared with the one that the cellar serves, byte for byte, and absorbed; a
second copy is a duplicate (R213, R309). -/
def absorb (s : State) (tl : TileRef) (f g : Frame) : State :=
  let k := (tl, { f.ident with attempt := 0 })
  if (((s.vint s.openVintage).map (·.absorbed)).getD []).contains k then
    (s.onTile tl (fun t => { t with redStatus := bumpF t.redStatus redStatus_dup 1 })).failBit stepCheckStatus_frame
  else
    let s := s.onVint s.openVintage (fun v => { v with absorbed := k :: v.absorbed })
    if setF f.w0 fr_attempt 0 = setF g.w0 fr_attempt 0 ∧ f.w1 = g.w1 ∧ f.w2 = g.w2 ∧ f.recs = g.recs then s
    else s.failBit stepCheckStatus_divergent

/-- In a replay a tile takes from the cellar the FULL frames of its place in the schedule, with the current attempt (R223,
R309). -/
def serveFrames (s : State) (tl : TileRef) : State :=
  if s.job.evaluating then s else
  let ents := ((s.vint s.openVintage).map (·.frames)).getD []
  ents.reverse.foldl (fun s e =>
    match e.full, s.collOf tl e.id.coll with
    | some f, some c =>
      let f := { f with w0 := setF f.w0 fr_attempt s.openAttempt }
      if e.tl = tl ∧ e.attempt ≠ s.openAttempt ∧ e.pos = (s.tile tl).seq.pos ∧ !(s.tile tl).accepted.contains f.ident then
        s.takeFrame tl c f
      else s
    | _, _ => s) s

def partialFrame (s : State) (tl : TileRef) (f : Frame) : State :=
  if !s.stagesRun || s.partFenced tl.p then s
  else if s.badFrame tl f then
    (s.onTile tl (fun t => { t with redStatus := bumpF t.redStatus redStatus_badFrames 1 })).failBit stepCheckStatus_frame
  else match s.frameAge f.ident, s.collOf tl f.ident.coll with
    | .lt, _ => s.onTile tl (fun t => { t with redStatus := bumpF t.redStatus redStatus_stale 1 })
    | .gt, _ => s
    | .eq, none => s
    | .eq, some c =>
      match s.heldFull tl f.ident with
      | some g => s.absorb tl f g
      | none =>
        if (s.tile tl).accepted.contains f.ident then
          (s.onTile tl (fun t => { t with redStatus := bumpF t.redStatus redStatus_dup 1 })).failBit stepCheckStatus_frame
        else if ringFull (s.tile tl) c then s
        else if frameBeyond c f then s.tileFault tl 9
        else s.acceptFrame tl c f

end State

/-- PARTIAL_FRAME (R212, R213, R222). A frame of a newer attempt is not acknowledged and waits (R213), and so
does a chunk of a ring that finds no receive buffer (R228). -/
def execPartialFrame (tl : TileRef) (f : Frame) (s : State) : Host.Outcome State Fault Refusal := .next (s.partialFrame tl f)

end Sys2Proof.Machine
end

