-- ==== Sys2Proof/Machine/Messages.lean ====
section
/-!
DEFINITION. The handling of one DCT message: session, tag, sequence, permission, replies (R394 to R401),
sealed envelopes (R425, R426), and decision requests (R409).
-/
namespace Sys2Proof.Machine

/-- An answer to a message: its status code, and the reply payload as words and as bytes. -/
structure Ans where
  status : Nat
  words : List Word
  bytes : List Byte
deriving DecidableEq, Repr

def Ans.ok : Ans := { status := Err.ok, words := [], bytes := [] }
def Ans.err (e : Nat) : Ans := { status := e, words := [], bytes := [] }

/-- Where a message may travel: session 0 only, an open session, a pending one, or session 0 and open ones
(R395, R418). -/
inductive Gate where
  | zero | opened | pending | zeroOrOpen
deriving DecidableEq, Repr

/-- Messages held ahead of their turn, and replies kept (R398). -/
def window : Nat := 64

/-- Greatest sequence number of a session (R396). -/
def seqLimit : Nat := 0x100000000

namespace State

def bumpDct (s : State) (f : Field) : State := { s with dctCounters := bumpF s.dctCounters f 1 }

def session (s : State) (n : Nat) : Option Session := s.sessions.find? (fun x => x.num == n)

def onSession (s : State) (n : Nat) (f : Session → Session) : State :=
  { s with sessions := s.sessions.map (fun x => if x.num = n then f x else x) }

/-- The held message whose turn has come is released for execution (R398). -/
def releaseHeld (s : State) (n : Nat) : State :=
  match s.session n with
  | none => s
  | some x =>
    match x.held.find? (fun h => h.1 == x.next) with
    | none => s
    | some h => { s.onSession n (fun y => { y with held := y.held.filter (fun k => k.1 != x.next) }) with
        released := s.released ++ [h.2] }

/-- Send the one ACK or NAK of a message, keep it in the reply cache, and turn to the next sequence number
(R398, R399). A NAK's code is recorded (R505). -/
def answer (s : State) (session seq : Nat) (a : Ans) (src : Nat) : State :=
  let r : Reply := { seq := seq, status := a.status, devState := s.devState, payload := a.words, bytes := a.bytes }
  ((((s.send (.dct session r)).errRecord a.status src).onSession session (fun x =>
    { x with next := seq + 1, executing := false, replies := (r :: x.replies).take window })).releaseHeld session)

/-- Checks 4 to 8 of a message whose turn it is (R397); no answer yet leaves it executing. The types that have a
meaning here come from the host (R402): from another peer they are unknown. -/
def execute (s : State) (h : DctHdr) (permit : Bool) (check src : Nat) (run : State → State × Option Ans) : State :=
  if !h.reservedZero || !h.fromHost || (!h.anyDevice && h.device != s.devId) then
    s.answer h.session h.seq (.err Err.format) src
  else if !permit then s.answer h.session h.seq (.err Err.state) src
  else if check ≠ Err.ok then s.answer h.session h.seq (.err check) src
  else
    match run s with
    | (s, some a) => s.answer h.session h.seq a src
    | (s, none) => s.onSession h.session (fun x => { x with executing := true })

/-- Checks 2 and 3 within a session: tag and sequence (R395, R396, R398). -/
def sequenced (s : State) (h : DctHdr) (c : Instr) (x : Session) (permit : Bool) (check src : Nat)
    (run : State → State × Option Ans) : State :=
  let s := s.onSession x.num (fun y => { y with lastAt := s.clock })
  if seqLimit ≤ h.seq then (s.send (.dct x.num { seq := h.seq, status := Err.auth, devState := s.devState, payload := [], bytes := [] })).errRecord Err.auth src
  else if h.seq < x.next ∨ (h.seq = x.next ∧ x.executing) then
    (match x.replies.find? (fun r => r.seq == h.seq) with
      | some r => (s.send (.dct x.num r)).bumpDct dctCounters_dup
      | none => s.bumpDct dctCounters_dup)
  else if x.next < h.seq then
    (if x.next + window < h.seq then s.bumpDct dctCounters_dropped
      else if x.held.any (fun k => k.1 == h.seq) then s.bumpDct dctCounters_dup
      else s.onSession x.num (fun y => { y with held := (h.seq, c) :: y.held }))
  else s.execute { h with fromHost := x.fromHost } permit check src run

/-- The handling of one message (R397). `c` is the message itself, held when it comes ahead of its turn. A
command in DORMANT stands for its handling at the rootstock's next wake (R407, log 27). -/
def dct (s : State) (h : DctHdr) (c : Instr) (g : Gate) (permit : Bool) (check src : Nat)
    (run : State → State × Option Ans) : State :=
  if !s.servesDct then s
  else if !h.wellSized then s.bumpDct dctCounters_dropped
  else if h.session = 0 then
    (if (g = .zero ∨ g = .zeroOrOpen) ∧ h.tagOk then s.execute h permit check src run else s.bumpDct dctCounters_tagFail)
  else match s.session h.session with
    | none => s.bumpDct dctCounters_tagFail
    | some x =>
      let fits := match g with
        | .zero => false
        | .opened => x.isOpen
        | .pending => !x.isOpen
        | .zeroOrOpen => x.isOpen
      if fits && h.tagOk then s.sequenced h c x permit check src run else s.bumpDct dctCounters_tagFail

/-! ## Permission by state (R407) -/

def inState (s : State) (l : List Nat) : Bool := l.contains s.devState

/-- States LOADED, RUNNING and PAUSED. -/
def inJob (s : State) : Bool := s.inState [DS.loaded, DS.running, DS.paused]

/-- Bytes of a datagram beside its payload: IPv6, UDP, header and tag. -/
def overhead : Nat := 128

/-- A reply of n bytes fits one datagram (R396, R401). -/
def fitsReply (s : State) (n : Nat) : Bool := decide (n + overhead ≤ getF s.dctCfg dctCfg_mtu)

/-! ## Sealed envelopes (R425) -/

def sealed (s : State) : Bool := flagF s.sec.mode secMode_sealed

/-- What a DATA_FEED or BULK_WRITE fails with for its envelope: malformed, its slot empty, or its tag. -/
def envelopeErr (s : State) (e : Envelope) : Nat :=
  if !s.sealed then Err.ok
  else if !e.present || !e.formed || e.slot == 0 || decide (15 < e.slot) then Err.format
  else if s.sec.slots.all (fun k => k.1 != e.slot) then Err.absent
  else if !e.tagOk then Err.auth
  else Err.ok

/-! ## Decisions (R409, R504) -/

/-- The DUTY_MAP bit of a duty. -/
def dutyBit (s : State) (duty : Nat) : Bool := s.dev.dutyMap.toNat / 2 ^ duty % 2 == 1

/-- Whether a duty asks the host: its DUTY_MAP bit, and a host session to ask. With none open the deadline
is met at once (R400). -/
def asks (s : State) (duty : Nat) : Bool := s.dutyBit duty && !s.hostSessions.isEmpty

/-- The deadline of a request made now. -/
def deadline (s : State) : Nat := s.now + getF s.dev.dutyDeadline dutyDeadline_deadlineMs * msTicks

/-- Send a DECISION_REQ and keep it pending. -/
def ask (s : State) (duty arg arg2 : Nat) (ctx : List Nat) : State :=
  let d : Decision := { id := s.nextReq, duty := duty, deadline := s.deadline, arg := arg, arg2 := arg2, st := 0 }
  { s.toHosts (.decisionReq d.id duty d.deadline ctx) false with
    decisions := d :: s.decisions, nextReq := (s.nextReq + 1) % 2 ^ 32 }

/-- Requests of a duty that are pending. -/
def pendingOn (s : State) (duty : Nat) : List Decision := s.decisions.filter (fun d => d.duty == duty && d.st == 0)

end State
end Sys2Proof.Machine
end

