-- ==== Sys2Proof/Machine/Keys.lean ====
section
/-!
DEFINITION. Key slots, key pairs, the halt of every stage, the abandonment of an image load, and the entry to
QUARANTINE (R267, R290, R332, R421 to R423, R439).
-/
namespace Sys2Proof.Machine

/-- Bits of the numbers in a list. -/
def bitsOf (l : List Nat) : Nat := l.foldl (fun m k => m ||| 2 ^ k) 0

/-- A tile stopped and idle: its sequencer and transfers dropped (R311, R332). -/
def haltTile (t : Tile) : Tile :=
  { t with
    status := setF t.status tileStatus_tileState TS.idle
    arrays := Sparse.mapV Arr.reset (fun a => { a with passes := [] }) t.arrays
    seq := Seq.reset, chans := [], loaderA := none, loaderB := none, rowIn := [], vecIn := [] }

namespace State

/-- KEY_SLOT_STATUS and the count of DCT_COUNTERS as the slots and sessions stand (R411, R431). Session number n is
session slot n - 1 (log 30). -/
def refreshKeys (s : State) : State :=
  let opened := s.sessions.filter (·.isOpen)
  { s with
    sec := { s.sec with
      slotStatus := setF (setF (setF s.sec.slotStatus keySlotStatus_sessions (bitsOf (opened.map (fun x => x.num - 1))))
        keySlotStatus_slots (bitsOf (s.sec.slots.map (·.1))))
        keySlotStatus_ckKeyId (((s.sec.slots.find? (fun k => k.1 == 0)).map (·.2.keyId)).getD 0) }
    dctCounters := setF s.dctCounters dctCounters_sessions opened.length }

/-- The mask of loaded slots. -/
def slotMask (s : State) : Nat := bitsOf (s.sec.slots.map (·.1))

/-- The reply to every KEY (R419): session number, slot mask, 2 zero bytes. -/
def keyReply (s : State) (session : Nat) : Ans :=
  { status := Err.ok, words := [BitVec.ofNat 64 (session + s.slotMask * 2 ^ 32)], bytes := [] }

/-- Load one slot, replacing what it held (R422). -/
def loadSlot (s : State) (k : Nat) (x : KeySlot) : State :=
  refreshKeys { s with sec := { s.sec with slots := (k, x) :: s.sec.slots.filter (fun y => y.1 != k) } }

/-- Erase the slots of a mask. -/
def eraseSlots (s : State) (mask : Nat) : State :=
  refreshKeys { s with sec := { s.sec with slots := s.sec.slots.filter (fun y => !mask.testBit y.1) } }

/-- Key operations that waited for the boundary take effect and are answered (R423). -/
def applyKeys (s : State) : State :=
  let ds := s.sec.deferred
  ds.reverse.foldl (fun s d =>
    let s := match d.load with
      | some x => s.loadSlot (Nat.log2 d.mask) x
      | none => s.eraseSlots d.mask
    s.answer d.session d.seq (s.keyReply d.session) Src.security) { s with sec := { s.sec with deferred := [] } }

/-- The job key pair is drawn or cleared: what HBM held under it can no longer be read (R290, log 15). -/
def drawJobKeys (s : State) : State :=
  { s.draw with sec := { s.draw.sec with jobKey := some s.sec.draws, mode := setF s.sec.mode secMode_jobKeys 1 }, mem := [] }

def clearJobKeys (s : State) : State :=
  { s with sec := { s.sec with jobKey := none, mode := setF s.sec.mode secMode_jobKeys 0 }, mem := [] }

/-- Every stage stops (R311, R332). -/
def haltStages (s : State) : State :=
  { s.allTiles haltTile with job := { s.job with evaluating := false } }

/-- A fence or a reset abandons an image load; a final message already there is answered ERR_FENCED with the
validation step reached, every earlier one has been answered (R267). -/
def abandonLoad (s : State) : State :=
  match s.img.load with
  | none => s
  | some l =>
    let s := { s with img := { s.img with load := none } }
    let a : Ans := { status := Err.fenced, words := [BitVec.ofNat 64 l.step], bytes := [] }
    match l.finalSeq with
    | some q => s.answer l.session q a Src.image
    | none => s

/-- Entry to QUARANTINE (R332, R423): every stage halts, the job keys and every key slot are erased. -/
def quarantine (s : State) : State :=
  let s := (s.haltStages.abandonLoad.clearJobKeys.eraseSlots 0xffff)
  ({ s with sec := { s.sec with deferred := [] } }).toState DS.quarantine

end State
end Sys2Proof.Machine
end

