-- ==== Sys2Proof/Machine/Rails.lean ====
section
/-!
DEFINITION. Partition rails and the return to ACTIVE (R449 to R455, R457).
-/
namespace Sys2Proof.Machine

/-! Power states of PWR_STATE (R460). -/
namespace PS
def active : Nat := 0
def idle : Nat := 1
def dormant : Nat := 2
def retain : Nat := 3
def enteringOff : Nat := 4
end PS

/-- Rail codes (R460): 0.50 V, 0.55 V, 0.60 V, 0.90 V. -/
def code050 : Nat := 0
def code055 : Nat := 0x14
def code060 : Nat := 0x28
def code090 : Nat := 0xa0

namespace State

/-- The power state. -/
def power (s : State) : Nat := getF s.pow.state pwrState_state

def setPower (s : State) (x : Nat) : State := { s with pow := { s.pow with state := setF s.pow.state pwrState_state x } }

/-- One of the per-partition bits of RAIL_STATUS. -/
def railBit (s : State) (f : Field) (p : Nat) : Bool := (getF s.pow.railStatus f).testBit p

def setRailBit (s : State) (f : Field) (p : Nat) (on : Bool) : State :=
  let m := getF s.pow.railStatus f
  let m' := if on then m ||| 2 ^ p else if m.testBit p then m - 2 ^ p else m
  { s with pow := { s.pow with railStatus := setF s.pow.railStatus f m' } }

/-- Where a rail is going: the code that waits, or the one written last. -/
def railGoal (s : State) (p : Nat) : Nat := (s.part p).queued.getD (s.part p).rail

/-- The code that a change to `c` asks of the regulator: 0.60 V while READ_PIN has no valid sample (R456), and no rise
of a partition that R459 holds down (log 89). -/
def railCode (s : State) (p c : Nat) : Nat :=
  if s.pow.pinLost then code060 else if (s.part p).hot then min c (s.railGoal p) else c

/-- A change of a rail is written to its regulator; one that comes while a change settles waits for it (R455). -/
def setRail (s : State) (p want : Nat) : State :=
  let a := s.part p
  let c := s.railCode p want
  if s.railBit railStatus_off p then s
  else if s.railBit railStatus_settling p then s.setPart p { a with queued := some c }
  else if a.rail = c then s
  else ((s.setPart p { a with rail := c, avsRetried := false }).setRailBit railStatus_settling p true).send (.railWrite p c)

def setRails (s : State) (f : Nat → Nat) : State := (List.range 8).foldl (fun s p => s.setRail p (f p)) s

/-- The code of RAIL_SET. -/
def railTarget (s : State) (p : Nat) : Nat := getF s.pow.railSet (railSet_vset p)

/-- A command that needs tiles or memory brings the device to ACTIVE from IDLE or RETAIN (R451). -/
def ensureActive (s : State) : State :=
  if s.power = PS.idle ∨ s.power = PS.retain then (s.setPower PS.active).setRails s.railTarget else s

/-- A power handshake is running (R452). -/
def handshaking (s : State) : Bool := getF s.pow.hs pwrHandshakeStatus_result == 1

/-- A running handshake is abandoned, with reason 0xA (R452, R453). -/
def abandonHandshake (s : State) : State :=
  if !s.handshaking then s
  else
    let w := setF (setF s.pow.hs pwrHandshakeStatus_result 4) pwrHandshakeStatus_reason 0xa
    ({ s with pow := { s.pow with hs := w, defers := [] } }).event Err.busy 4 (getF w pwrHandshakeStatus_target) Src.power false

/-- A block refuses (R452): the handshake ends there. -/
def refuseHandshake (s : State) (block reason n : Nat) : State :=
  let w := setF (setF (setF (setF s.pow.hs pwrHandshakeStatus_result 3) pwrHandshakeStatus_reason reason) pwrHandshakeStatus_refuser block)
    pwrHandshakeStatus_defers n
  ({ s with pow := { s.pow with hs := w, defers := [] } }).event Err.busy 4 (getF w pwrHandshakeStatus_target) Src.power false

/-- Every compute rail back on, at its RAIL_SET code. -/
def railsOn (s : State) : State :=
  ({ s with pow := { s.pow with railStatus := setF s.pow.railStatus railStatus_off 0 } }).setRails s.railTarget

/-- The compute rails of the partitions of a mask go off; a change that settles ends with them. -/
def railsOff (s : State) (mask : Nat) : State :=
  let w := s.pow.railStatus
  let keep := (255 - mask % 256) &&& getF w railStatus_settling
  { s with pow := { s.pow with railStatus := setF (setF w railStatus_off (getF w railStatus_off ||| mask)) railStatus_settling keep } }

/-- Return from DORMANT (R324, R453): DEV_STATE LOADED, ACTIVE, the job key pair drawn. Tile contents were lost with the
rails; the image stays. -/
def leaveDormant (s : State) : State := ((s.drawJobKeys.toState DS.loaded).setPower PS.active).railsOn

end State
end Sys2Proof.Machine
end

