-- ==== Sys2Proof/Machine/Ports.lean ====
section
/-!
DEFINITION. Fabric ports: lanes and widths, flap penalties, the causes of a port's being down, the moves between
the states of the Port training table, what follows a link's loss, and packets on their way (R327, R331, R332,
R365 to R382, R513).
-/
namespace Sys2Proof.Machine

/-! ## Lanes and widths (R380) -/

/-! Status codes of a lane in LNK_LANE_MAP. -/
namespace LaneSt
def good : Nat := 0
def opened : Nat := 1
def shorted : Nat := 2
def failed : Nat := 3
def damped : Nat := 4
end LaneSt

def laneSt (p : Port) (k : Nat) : Nat := getF p.laneMap (laneMap_status k)

def setLaneSt (p : Port) (k st : Nat) : Port := { p with laneMap := setF p.laneMap (laneMap_status k) st }

def laneOf (p : Port) (k : Nat) : Lane := Sparse.get Lane.reset p.lanes k

def setLane (p : Port) (k : Nat) (l : Lane) : Port := { p with lanes := Sparse.set Lane.reset p.lanes k l }

/-- Good lanes in ascending physical order. -/
def goodLanes (p : Port) : List Nat := (List.range 5).filter (fun k => laneSt p k == LaneSt.good)

/-- Data lanes that a number of good lanes gives. -/
def widthOf (n : Nat) : Nat := if 4 ≤ n then 4 else if 2 ≤ n then 2 else n

/-- Logical data lanes take the good physical lanes in ascending order; another good lane stands by. -/
def assignLanes (p : Port) : Port :=
  let g := goodLanes p
  let w := widthOf g.length
  let p := (List.range 5).foldl (fun (p : Port) k =>
    let i := match (g.take w).idxOf? k with
      | some i => i
      | none => if g.contains k then 4 else 7
    { p with laneMap := setF p.laneMap (laneMap_logical k) i }) p
  { p with status := setF (setF p.status lnkStatus_width w) lnkStatus_spareUsed (bit ((g.take w).contains 4)) }

/-- Physical lanes that carry data. -/
def dataLanes (p : Port) : List Nat := (List.range 5).filter (fun k => decide (getF p.laneMap (laneMap_logical k) < 4))

/-- The lane that stands by. -/
def standby (p : Port) : Option Nat := (List.range 5).find? (fun k => getF p.laneMap (laneMap_logical k) == 4)

/-- The lane that stands by takes over the logical place of lane k (R381). -/
def swapIn (p : Port) (k : Nat) : Port :=
  match standby p with
  | none => p
  | some j =>
    let i := getF p.laneMap (laneMap_logical k)
    let m := setF (setF p.laneMap (laneMap_logical j) i) (laneMap_logical k) 7
    let p : Port := { p with laneMap := m, swapDue := none }
    { p with status := setF p.status lnkStatus_spareUsed (bit ((dataLanes p).contains 4)) }

/-! ## Flap penalties (R382) -/

/-- Units of 100 ms. -/
def unit100ms (ts : Nat) : Nat := ts / (100 * msTicks)

/-- The greatest q with q^h * 2^d at most p^h: the figure p after d units with half-life h, rounded down
(log 31). -/
def decayed (p d h : Nat) : Nat :=
  let rec go : Nat → Nat → Nat
    | 0, q => q
    | n + 1, q => let c := q + 2 ^ n
      go n (if c ≤ p ∧ c ^ h * 2 ^ d ≤ p ^ h then c else q)
  if d = 0 then p else if h = 0 then 0 else go 20 0

def penaltyNow (p : Port) (fig at' now : Nat) : Nat := decayed fig (unit100ms now - at') (getF p.flap lnkFlapTable_halfLife)

/-- A flap of the port (R382): its figure, and whether it reaches suppress. -/
def flapPort (p : Port) (now : Nat) : Port × Bool :=
  let f := penaltyNow p p.penalty p.penAt now + getF p.flap lnkFlapTable_penalty
  ({ p with penalty := f, penAt := unit100ms now }, decide (getF p.flap lnkFlapTable_suppress ≤ f))

/-- A flap of a lane; at suppress the lane is damped. -/
def flapLane (p : Port) (k now : Nat) : Port :=
  let l := laneOf p k
  let f := penaltyNow p l.penalty l.penAt now + getF p.flap lnkFlapTable_penalty
  let l' : Lane := { l with penalty := f, penAt := unit100ms now }
  if getF p.flap lnkFlapTable_suppress ≤ f then setLaneSt (setLane p k { l' with dampedAt := some now }) k LaneSt.damped
  else setLane p k l'

/-! ## States and causes (R379, R513) -/

def linkSt (p : Port) : Nat := getF p.status lnkStatus_state

/-- A port in a state; `up` follows it, and ACTIVE clears the cause (R513). -/
def atState (p : Port) (st : Nat) : Port :=
  let w := setF (setF p.status lnkStatus_state st) lnkStatus_up (bit (st == LS.active))
  let w := if st = LS.active then setF w lnkStatus_downCause 0 else w
  { p with status := if st = LS.active ∨ st = LS.retrain then w else setF w lnkStatus_width 0 }

/-- Places of the causes in the list of R513. -/
def causeOrder : List Nat := [11, 7, 9, 10, 8, 5, 6, 4, 3, 1, 2]

def causeRank (c : Nat) : Nat := (causeOrder.idxOf? c).getD 99

/-- The first of a list of causes in that order. -/
def firstCause (l : List Nat) : Nat := (causeOrder.find? l.contains).getD 0

def activeSt (p : Port) : Bool := linkSt p == LS.active

namespace State

/-- The present port states of interest. -/
def portsPresent (s : State) : Nat := getF s.dev.caps devCaps_portsPresent
def portsEnabled (s : State) : Nat := getF s.dev.caps devCaps_portsEnabled

/-- A port whose die answered in stage 2 (R465). -/
def portOn (s : State) (n : Nat) : Bool := decide (n < 36) && s.boot.dies.testBit (n / 9)

/-- The ports present, ascending. -/
def presentPorts (s : State) : List Nat := (List.range 36).filter s.portOn

/-- Of the ports present, the lowest-numbered are enabled (R365). -/
def portEnabled (s : State) (n : Nat) : Bool := (s.presentPorts.take s.portsEnabled).contains n

def portActive (s : State) (n : Nat) : Bool := activeSt (s.port n)

/-- The fabric carries on whenever the module is powered, whatever the tiles do (R386). -/
def linksUp (s : State) : Bool := s.alive && s.boot.rooted

/-- The device has received a FENCE that names it, until its next compute reset or power cycle (R386). -/
def ownFence (s : State) : Bool := s.fd.sawFence.contains s.devId

/-- Causes that hold of a port as it stands (R513). -/
def standing (s : State) (n : Nat) : List Nat :=
  let p := s.port n
  (if s.ownFence || p.squelchedFor.isSome then [11] else []) ++ (if flagF p.ctl lnkCtl_disable then [7] else []) ++
    (if s.portEnabled n then [] else [9]) ++
    (if s.fabric.peers.any (fun e => e.1 == n && e.2.isNone) then [10] else []) ++ (if p.dieLost then [8] else [])

/-- A port leaves ACTIVE, which is a flap (R382), or is held out of it, for a cause. -/
def downWith (s : State) (n st c : Nat) : State :=
  let k := firstCause (c :: (if (s.port n).squelchSeen then [5] else []) ++ s.standing n)
  s.onPort n (fun p =>
    let p := atState (if activeSt p then (flapPort p s.clock).1 else p) st
    { p with status := setF p.status lnkStatus_downCause k })

/-- A port may train (R379): enabled, with no cause that holds it in DISABLED. -/
def mayTrain (s : State) (n : Nat) : Bool := (s.standing n).isEmpty

/-- DISABLED to DETECT when nothing holds it there: TRAIN on all five lanes. -/
def startPort (s : State) (n : Nat) : State :=
  if linkSt (s.port n) = LS.disabled ∧ s.mayTrain n = true then s.onPort n (fun p => atState p LS.detect) else s

/-- Training from DETECT begins afresh: the retry buffer is discarded (R379). -/
def toDetect (s : State) (n : Nat) : State :=
  s.onPort n (fun p => { atState p LS.detect with retry := [], used := [], naks := 0, kaMissed := 0 })

/-! ## Packets (R374 to R377) -/

/-- The entry of a destination in the transit table. -/
def transitOf (s : State) (dest : Nat) : Option Transit := s.fabric.transit.find? (fun t => t.dest == dest)

/-- ACTIVE ports of a group. -/
def groupPorts (s : State) (g : Nat) : List Nat :=
  (List.range 36).filter (fun n => (s.fabric.groups.getD g 0).testBit n && s.portActive n)

/-- The port that a packet takes: by rank within the primary group, then within the alternate. -/
def choosePort (s : State) (pk : Packet) : Option Nat :=
  match s.transitOf pk.dst with
  | none => none
  | some t =>
    let a := s.groupPorts t.primary
    let l := if a.isEmpty then s.groupPorts t.alternate else a
    if l.isEmpty then none else l[(pk.src + pk.route + pk.seq) % l.length]?

/-- Flits of a packet as they are sent: whole bundles (R370). -/
def bundled (n : Nat) : Nat := (n + 3) / 4 * 4

def credits (vc : Nat) : Nat := if vc = 0 then 64 else 128

/-- Whether a port can take a packet now: retry buffer and credits (R372, R373). -/
def hasRoom (p : Port) (pk : Packet) : Bool :=
  decide (p.retry.length + bundled pk.flits ≤ 1024) && decide (Sparse.get 0 p.used pk.vc + pk.flits ≤ credits pk.vc)

/-- A transmit count at 2^40 forces new keys (R370). -/
def rekeyAt : Nat := 2 ^ 40

/-- A packet leaves on a port: sequence numbers, transmit count, retry buffer and credits. -/
def sendOn (s : State) (n : Nat) (pk : Packet) : State :=
  let f := bundled pk.flits
  (s.onPort n (fun p => { p with
    txSeq := (p.txSeq + f) % 4096, txc := p.txc + f / 4
    retry := p.retry ++ (List.range f).map (fun i => (p.txSeq + i) % 4096)
    used := Sparse.set 0 p.used pk.vc (Sparse.get 0 p.used pk.vc + pk.flits) })).send (.packet n pk)

/-- Packets that went out on a port that is down are sent again at once (R376). -/
def resendVia (s : State) (n : Nat) : State :=
  (s.fabric.held.filter (fun h => h.port == some n)).foldl (fun s h =>
    let dest := s.choosePort h.pk
    let held := s.fabric.held.map (fun x =>
      if x.pk.route = h.pk.route ∧ x.pk.seq = h.pk.seq ∧ x.pk.dst = h.pk.dst then { x with port := dest, resends := x.resends + 1, sentAt := s.clock } else x)
    let s := { s with fabric := { s.fabric with held := held } }
    match dest with
    | some m => s.sendOn m h.pk
    | none => s) s

/-- Partial packets that came in on a port that is down: ABORT goes out after them (R377). -/
def abortVia (s : State) (n : Nat) : State :=
  let (gone, kept) := s.fabric.partials.partition (fun x => x.via == some n)
  gone.foldl (fun s x => s.send (.abort x.out x.route x.seq)) { s with fabric := { s.fabric with partials := kept } }

/-! ## Time parent (R388) -/

/-- The parent: the ACTIVE neighbour with the fewest hops, then the lowest ID. -/
def chooseParent (s : State) : State :=
  let w := s.time.syncStatus
  if s.isJobHead then
    { s with time := { s.time with syncStatus := setF (setF (setF w tsSyncStatus_parent 0xffff) tsSyncStatus_parentPort 0x3f) tsSyncStatus_hops 0 } }
  else
    let key (n : Nat) : Nat := (s.port n).hops * 2 ^ 22 + getF (s.port n).status lnkStatus_peerDev * 64 + n
    let best := lowest (((List.range 36).filter (fun n => s.portActive n && decide ((s.port n).hops < 0x3f))).map key)
    match best with
    | none =>
      let v := setF (setF (setF (setF w tsSyncStatus_parent 0xffff) tsSyncStatus_parentPort 0x3f) tsSyncStatus_hops 0x3f) tsSyncStatus_locked 0
      { s with time := { s.time with syncStatus := v } }
    | some k =>
      let v := setF (setF (setF w tsSyncStatus_parent (k / 64 % 65536)) tsSyncStatus_parentPort (k % 64)) tsSyncStatus_hops (min (k / 2 ^ 22 + 1) 0x3f)
      { s with time := { s.time with syncStatus := v } }

/-! ## What follows a link's loss (R327, R332) -/

/-- Ports of this device that lead to a peer. -/
def portsTo (s : State) (dev : Nat) : List Nat :=
  (List.range 36).filter (fun n => getF (s.port n).status lnkStatus_peerPort != 0x3f && getF (s.port n).status lnkStatus_peerDev == dev)

def suppressTicks (s : State) : Nat := getF s.mir.fdCfg fdCfg_suppressMs * msTicks

/-- A REPORT of a peer, at most once per suppression window and none after its FENCE (R327). -/
def accuse (s : State) (dev firstMiss : Nat) : State :=
  if s.fd.sawFence.contains dev || s.fd.reported.any (fun r => r.1 == dev && decide (s.clock < r.2 + s.suppressTicks)) then s
  else
    let dest := if s.domainHead == some dev then s.deputy else s.domainHead
    { s.send (.report dest dev firstMiss) with
      fd := { s.fd with reported := (dev, s.clock) :: s.fd.reported.filter (fun r => r.1 != dev) } }

/-- Every link to a peer is down within one suppression window (R327). -/
def linksLost (s : State) (dev : Nat) : State :=
  let ns := s.portsTo dev
  let all := ns.all (fun n => match (s.port n).downAt with
    | some a => decide (s.clock ≤ a + s.suppressTicks)
    | none => false)
  if all && s.img.cur.isSome then s.accuse dev s.now else s

/-- Every fabric link is down within miss_hb ms and none at the host's asking: the device is isolated and enters
QUARANTINE (R332). -/
def isolated (s : State) : Bool :=
  let w := getF s.mir.fdCfg fdCfg_missHb * msTicks
  let ns := (List.range 36).filter (fun n => (s.port n).downAt.isSome)
  s.inState [DS.loaded, DS.running, DS.paused] && !ns.isEmpty &&
    ((List.range 36).all (fun n => !s.portActive n && linkSt (s.port n) != LS.retrain)) &&
    ns.all (fun n => !(s.port n).asked && decide (s.clock ≤ (s.port n).downAt.getD 0 + w))

/-- A port's link is down (R379, R376, R377, R388). -/
def linkDown (s : State) (n : Nat) : State :=
  let dev := getF (s.port n).status lnkStatus_peerDev
  let known := getF (s.port n).status lnkStatus_peerPort != 0x3f
  let s := s.onPort n (fun p => { p with retry := [], used := [], naks := 0, kaMissed := 0, hops := 0x3f, downAt := some s.clock })
  let s := ((s.abortVia n).resendVia n).chooseParent
  let s := if known then s.linksLost dev else s
  if s.isolated then s.quarantine else s

/-- A port goes from an ACTIVE or training state to one of DISABLED, DETECT or DAMPED, with its cause; an ACTIVE
link squelched from this side first sends three marked KEEPALIVEs (R385). -/
def squelchPort (s : State) (n st c : Nat) (asked : Bool) : State :=
  let was := s.portActive n || linkSt (s.port n) == LS.retrain
  let m := Msg.keepalive n s.devId s.now s.devState true
  let s := if s.portActive n then s.sendAll [m, m, m] else s
  let s := (s.downWith n st c).onPort n (fun p => { p with asked := asked })
  if was then s.linkDown n else s.onPort n (fun p => { p with retry := [], used := [] })

/-- A port's flap figure reaches suppress: DAMPED (R379). -/
def damp (s : State) (n : Nat) : State :=
  (s.squelchPort n LS.damped 3 false).onPort n (fun p => { p with dampedAt := some s.clock })

/-- An ACTIVE port leaves ACTIVE for RETRAIN (R379); `c` is 1 for missed keepalives, 2 for any other cause. -/
def toRetrain (s : State) (n c : Nat) (asked : Bool) : State :=
  let (p, hot) := flapPort (s.port n) s.clock
  let s := s.setPort n { p with
    status := bumpF (atState p LS.retrain).status lnkStatus_retrains 1
    retrainAt := s.clock, retrainCause := c, asked := asked }
  if hot then s.damp n else s

/-- ACTIVE: new keys, transmit count 0, and everything in the retry buffer resent (R370, R372, R379). -/
def toActive (s : State) (n : Nat) : State :=
  let p := s.port n
  let gen := s.sec.draws
  let s := s.draw
  let firsts := (p.retry.zipIdx.filter (fun x => x.2 % 4 == 0)).map (·.1)
  let q := atState p LS.active
  let s := s.setPort n { q with
    status := setF q.status lnkStatus_width (dataLanes p).length
    keyGen := gen, txc := firsts.length, kaMissed := 0, naks := 0, squelchSeen := false, downAt := none
    asked := false }
  (s.sendAll (firsts.zipIdx.map (fun x => Msg.bundle n x.1 x.2))).chooseParent

/-- A lane is lost (R381). Where it carried data the spare takes its place, or the port retrains to a width that its
good lanes give; a lane that stood by stands by no more (R380). -/
def loseLane (s : State) (n k : Nat) : State :=
  let p := s.port n
  if !(dataLanes p).contains k then
    (if standby p = some k then s.setPort n { p with laneMap := setF p.laneMap (laneMap_logical k) 7 } else s)
  else if activeSt p then
    (if (standby p).isSome then s.onPort n (fun p => swapIn p k)
      else (s.onPort n assignLanes).toRetrain n 2 false)
  else if linkSt p = LS.retrain then s.onPort n assignLanes
  else s

/-- The swap that fell due on a port is made (R381), but for a port in RETRAIN. -/
def swapPort (s : State) (n : Nat) : State :=
  match (s.port n).swapDue with
  | none => s
  | some k =>
    if linkSt (s.port n) = LS.retrain then s
    else if s.portActive n && (standby (s.port n)).isSome then s.onPort n (fun p => swapIn p k)
    else s.onPort n (fun p => { p with swapDue := none })

/-- Swaps that fell due are made at a boundary. -/
def swapLanes (s : State) : State := (List.range 36).foldl swapPort s

/-- Release of the ports that were held only by what no longer holds, and hold of those that are held now: after an
image commits or is discarded, and when a fence is lifted (R374, R347). A link that the host's image or licence takes
down went down at the host's asking (R332, log 69). -/
def reholdPorts (s : State) : State :=
  (List.range 36).foldl (fun s n =>
    if !s.portOn n then s
    else if s.mayTrain n then s.startPort n
    else if linkSt (s.port n) = LS.disabled then s.downWith n LS.disabled (firstCause (s.standing n))
    else s.squelchPort n LS.disabled (firstCause (s.standing n)) true) s

end State
end Sys2Proof.Machine
end

