-- ==== Sys2Proof/Machine/Links.lean ====
section
/-!
DEFINITION. The commands of the fabric links: flits and keepalives, retraining and training, lane repair, damping
and health, the time base, packets, and the loss of a port die (R32, R368 to R388, R424, R513).
-/
namespace Sys2Proof.Machine

/-! ## Flits (R368 to R373) -/

/-- Fields of a flit header. -/
def flit_seq : Field := ⟨59, 48⟩
def flit_ack : Field := ⟨47, 36⟩
def flit_creditVc : Field := ⟨31, 29⟩
def flit_credit : Field := ⟨28, 24⟩

/-- Distance from a to b among sequence numbers. -/
def seqAhead (a b : Nat) : Nat := (b + 4096 - a) % 4096

/-- Numbers up to `ack` leave the retry buffer. -/
def ackRetry (p : Port) (ack : Nat) : Port :=
  match p.retry.idxOf? ack with
  | some i => { p with retry := p.retry.drop (i + 1) }
  | none => p

/-- Credits that a flit returns (R373). -/
def takeCredit (p : Port) (w : Word) : Port :=
  let vc := getF w flit_creditVc
  { p with used := Sparse.set 0 p.used vc (Sparse.get 0 p.used vc - getF w flit_credit) }

namespace State

/-- A tag failure (R371): counted; the third within 1 s disables the port, any other forces a retrain with new
keys. -/
def tagFailure (s : State) (n : Nat) : State :=
  let recent := (s.port n).authTimes.filter (fun t => decide (s.clock < t + 1000 * msTicks))
  let s := s.onPort n (fun p => { p with status := bumpF p.status lnkStatus_authFail 1, authTimes := s.clock :: recent })
  if 2 ≤ recent.length then s.squelchPort n LS.disabled 6 false else s.toRetrain n 2 false

/-- A NAK goes out (R371); the eighth of one sequence number retrains the port (R379). -/
def sendNak (s : State) (n : Nat) : State :=
  let p := s.port n
  let s := (s.setPort n { p with fec := bumpF p.fec lnkFecCounts_naks 1, naks := p.naks + 1 }).send
    (.flit n 2 p.txSeq ((p.rxSeq + 4095) % 4096) true)
  if 8 ≤ p.naks + 1 then s.toRetrain n 2 false else s

/-- A bundle that is taken: acknowledgements and credits count, and the next four numbers are expected. -/
def takeBundle (s : State) (n : Nat) (fs : List FlitIn) : State :=
  s.onPort n (fun p =>
    let p := fs.foldl (fun (p : Port) f => takeCredit (ackRetry p (getF f.hdr flit_ack)) f.hdr) p
    { p with rxSeq := (p.rxSeq + 4) % 4096, naks := 0 })

def flitBundle (s : State) (n : Nat) (fs : List FlitIn) (tagOk : Bool) : State :=
  if !s.linksUp || !s.portActive n then s
  else
    let corr := (fs.map (·.corr)).sum
    let unc := (fs.filter (·.uncorr)).length
    let s := s.onPort n (fun p => { p with fec := bumpF (bumpF p.fec lnkFecCounts_cwCorr corr) lnkFecCounts_cwUncorr unc })
    let x := (s.port n).rxSeq
    let clean := fs.all (fun f => f.crcOk && !f.uncorr)
    let inOrder := (fs.zipIdx).all (fun f => getF f.1.hdr flit_seq == (x + f.2) % 4096)
    let old := fs.all (fun f => decide (2048 ≤ seqAhead x (getF f.hdr flit_seq)))
    if !clean then s.sendNak n
    else if old then s
    else if !inOrder then s.sendNak n
    else if !tagOk then s.tagFailure n
    else s.takeBundle n fs

/-- The whole bundle after `ack` is sent again with a new transmit count (R371); at 2^40 the keys are renewed
(R370). -/
def nakResend (s : State) (n ack : Nat) : State :=
  if !s.linksUp || !s.portActive n then s
  else
    let p := ackRetry (s.port n) ack
    match p.retry.head? with
    | none => s.setPort n p
    | some q =>
      let s := (s.setPort n { p with txc := p.txc + 1 }).send (.bundle n q (p.txc + 1))
      if rekeyAt ≤ p.txc + 1 then s.toRetrain n 2 false else s

/-! ## Keepalives (R385) -/

def keepaliveSend (s : State) (n : Nat) : State :=
  if s.linksUp && s.portActive n then s.send (.keepalive n s.devId s.now s.devState false) else s

def keepaliveIn (s : State) (n dev port : Nat) (squelch tagOk : Bool) : State :=
  if !s.linksUp || !s.portActive n then s
  else if !tagOk then s.tagFailure n
  else s.onPort n (fun p => { p with
    kaMissed := 0, squelchSeen := p.squelchSeen || squelch
    status := setF (setF p.status lnkStatus_peerDev dev) lnkStatus_peerPort port })

def keepaliveMiss (s : State) (n : Nat) : State :=
  if !s.linksUp || !s.portActive n then s
  else
    let m := (s.port n).kaMissed + 1
    let s := s.onPort n (fun p => { p with kaMissed := m })
    if 5 ≤ m then s.toRetrain n 1 false else s

/-! ## Retraining (R379) -/

def retrainTimeout (s : State) (n : Nat) : State :=
  let p := s.port n
  if !s.linksUp || linkSt p != LS.retrain || decide (s.clock < p.retrainAt + 500 * usTicks) then s
  else (s.downWith n LS.detect p.retrainCause).linkDown n

def retrainComplete (s : State) (n : Nat) : State :=
  if s.linksUp && linkSt (s.port n) == LS.retrain && !(dataLanes (s.port n)).isEmpty then s.toActive n else s

/-! ## Training (R379, R380, R424) -/

/-- Lanes without energy are open; a lane found open, shorted or failed before is tried again. -/
def detectTimeout (s : State) (n energised : Nat) : State :=
  if !s.linksUp || linkSt (s.port n) != LS.detect then s
  else s.onPort n (fun p =>
    let p := (List.range 5).foldl (fun (p : Port) k =>
      let st := laneSt p k
      let p := setLane p k { laneOf p k with mapped := none }
      if !energised.testBit k then setLaneSt p k (if st = LaneSt.good ∨ st = LaneSt.failed then LaneSt.opened else st)
      else if st = LaneSt.opened ∨ (st = LaneSt.failed ∧ getF (laneOf p k).health lnkHealth_verdict ≠ 3) then setLaneSt p k LaneSt.good
      else p) p
    atState p LS.map)

/-- The peer that a port expects: none for any (R379), the mark "none" never trains. -/
def expectedPeer (s : State) (n : Nat) : Option (Nat × Nat) := (s.fabric.peers.find? (fun e => e.1 == n)).bind (·.2)

/-- A fenced neighbour's place trains under an ID that the expected peer names and that is not listed as fenced: the
squelch is lifted (R331). -/
def liftSquelch (s : State) (n dev : Nat) : State :=
  let listed := s.fd.fences.any (fun f => f.id == dev && (f.status == 0 || f.status == 3))
  if (s.port n).squelchedFor.isSome && ((s.expectedPeer n).map (·.1)) == some dev && !listed then
    (s.onPort n (fun p => { p with squelchedFor := none })).startPort n
  else s

/-- A TRAIN flit decoded on a lane: its mapping and the peer; a peer that is not expected disables the port; with
every energised lane mapped the width is chosen. -/
def trainLane (s : State) (n : Nat) (t : TrainIn) : State :=
  let s := s.onPort n (fun p =>
    let p := setLane p t.lane { laneOf p t.lane with mapped := some t.sender }
    { p with
      laneMap := setF (setF p.laneMap (laneMap_inv t.lane) (bit t.inverted)) (laneMap_precode t.lane) (bit t.precode)
      status := setF (setF p.status lnkStatus_peerDev t.peerDev) lnkStatus_peerPort t.peerPort })
  if (s.expectedPeer n).any (fun e => e != (t.peerDev, t.peerPort)) then
    (s.downWith n LS.disabled 4).event Err.format 3 (n * 2 ^ 22 + t.peerDev * 64 + t.peerPort) Src.link false
  else if (goodLanes (s.port n)).all (fun k => (laneOf (s.port n) k).mapped.isSome) then
    s.onPort n (fun p => assignLanes (atState p LS.eq))
  else s

def train (s : State) (n : Nat) (t : TrainIn) : State :=
  if !s.linksUp then s
  else if linkSt (s.port n) = LS.disabled then s.liftSquelch n t.peerDev
  else if linkSt (s.port n) = LS.map then s.trainLane n t
  else s

/-- A shorted transmitter leg: the lane is squelched (R379), and lost where it carried data (R381). -/
def laneShort (s : State) (n k : Nat) : State :=
  if !s.linksUp || linkSt (s.port n) == LS.disabled then s
  else (s.onPort n (fun p => setLaneSt p k LaneSt.shorted)).loseLane n k

/-- Codeword lock on every active lane for 1 ms. Adaptation, EQ to FEC, has no command of its own (log 32). -/
def fecLock (s : State) (n : Nat) : State :=
  let st := linkSt (s.port n)
  if s.linksUp && (st == LS.eq || st == LS.fec) then s.onPort n (fun p => atState p LS.keys) else s

def linkKeyExchange (s : State) (n : Nat) (ok : Bool) : State :=
  if !s.linksUp || linkSt (s.port n) != LS.keys then s
  else if ok then s.toActive n
  else s.downWith n LS.disabled 6

/-! ## Lane repair, damping, health (R381 to R384) -/

/-- A lane fails: its status, its flap figure, and its place (R381, R382). -/
def failLane (s : State) (n k : Nat) : State :=
  (s.onPort n (fun p =>
    let l := laneOf p k
    let p := setLane p k { l with health := setF l.health lnkHealth_verdict 3 }
    flapLane (setLaneSt p k LaneSt.failed) k s.clock)).loseLane n k

def laneFailure (s : State) (n k : Nat) (lockLost : Bool) : State :=
  if !s.linksUp || !(s.portActive n || linkSt (s.port n) == LS.retrain) then s
  else
    let s := s.failLane n k
    if lockLost then s.onPort n (fun p =>
      let l := laneOf p k
      setLane p k { l with health := setF l.health lnkHealth_verdict 0 })
    else s

/-- Whether a damped figure has come below reuse, or the longest damping has passed (R382). -/
def dampOver (s : State) (p : Port) (fig at' : Nat) (since : Option Nat) : Bool :=
  decide (penaltyNow p fig at' s.clock < getF p.flap lnkFlapTable_reuse) ||
    (match since with
      | some a => decide (a + getF p.flap lnkFlapTable_holdMaxS * 1000 * msTicks ≤ s.clock)
      | none => false)

/-- A damped lane is good again and stands by until the port next takes its lanes; a damped port goes to DETECT. -/
def dampingRelease (s : State) (n : Nat) (lane : Option Nat) : State :=
  let p := s.port n
  if !s.linksUp then s else
  match lane with
  | some k =>
    let l := laneOf p k
    if laneSt p k = LaneSt.damped ∧ s.dampOver p l.penalty l.penAt l.dampedAt = true then
      s.setPort n (setLane (setLaneSt { p with
          laneMap := setF p.laneMap (laneMap_logical k) (if (standby p).isSome then 7 else 4) } k LaneSt.good) k { l with dampedAt := none })
    else s
  | none =>
    if linkSt p = LS.damped ∧ s.dampOver p p.penalty p.penAt p.dampedAt = true then
      (s.onPort n (fun p => { p with dampedAt := none })).toDetect n
    else s

/-- A lane predicted to fail is swapped at the next boundary, or at once when the device is not RUNNING; with the
duty the host is asked at the boundary (R381, R409). -/
def predictLane (s : State) (n k : Nat) : State :=
  if s.devState = DS.running ∨ linkSt (s.port n) = LS.retrain then s.onPort n (fun p => { p with swapDue := some k })
  else if s.portActive n && (dataLanes (s.port n)).contains k then s.onPort n (fun p => swapIn p k)
  else s

/-- The verdict of a lane from its scan (R383): errors are per 10^8 symbols. -/
def scanVerdict (l : Lane) (x : LaneScan) : Nat × Nat :=
  let warn := decide (1000 < x.errE8) || decide (x.eye < 15)
  let w := if warn then l.warns + 1 else 0
  (w, if 3 ≤ w ∨ (90 ≤ getF l.health lnkHealth_laserPct ∧ getF l.health lnkHealth_laserPct ≠ 0xff) then 2 else if warn then 1 else 0)

def healthScan (s : State) (n : Nat) (x : LaneScan) : State :=
  if !s.linksUp || !s.portActive n || !(dataLanes (s.port n)).contains x.lane then s
  else
    let l := laneOf (s.port n) x.lane
    let (w, v) := scanVerdict l x
    let s := s.onPort n (fun p => setLane p x.lane { l with
      warns := w
      health := setF (setF (setF l.health lnkHealth_eyePct x.eye) lnkHealth_csymMs (min x.csym 0xffff)) lnkHealth_verdict v })
    if 10000 < x.errE8 then s.failLane n x.lane else if v = 2 then s.predictLane n x.lane else s

/-- CMIS pages of a pluggable (R384): temperature and laser bias, the latter a prediction at 90 % (R383). -/
def cmisPoll (s : State) (n temp laser : Nat) : State :=
  if !s.linksUp || !s.portOn n then s
  else
    let s := s.onPort n (fun p => (List.range 5).foldl (fun (p : Port) k =>
      let l := laneOf p k
      let h := setF (setF l.health lnkHealth_modTemp temp) lnkHealth_laserPct laser
      setLane p k { l with health := if 90 ≤ laser ∧ laser ≠ 0xff ∧ (dataLanes p).contains k then setF h lnkHealth_verdict 2 else h })
      p)
    if 90 ≤ laser ∧ laser ≠ 0xff then
      (match (dataLanes (s.port n)).head? with
        | some k => s.predictLane n k
        | none => s)
    else s

/-- A module silent for 5 s fails every lane it carries (R384). -/
def moduleSilent (s : State) (n : Nat) : State :=
  if !s.linksUp || !s.portOn n then s
  else
    let s := s.onPort n (fun p => (List.range 5).foldl (fun (p : Port) k => setLaneSt p k LaneSt.failed) p)
    if s.portActive n then (s.onPort n assignLanes).toRetrain n 2 false else s.onPort n assignLanes

end State

/-! ## Time base (R388) -/

/-- A signed value as 16 bits. -/
def s16 (z : Int) : Nat := (BitVec.ofInt 16 (max (-32768) (min 32767 z))).toNat

namespace State

/-- One exchange: delay and offset; the parent's offset disciplines the time base. Before the first epoch the count
may step once, at the first lock (R17); afterwards only the frequency changes, by an amount the spec does not state
within 10 ppm: a free value (log 20). -/
def timeExchange (s : State) (n t1 t2 t3 t4 hops peer : Nat) : State :=
  if !s.linksUp || !s.portActive n || getF (s.port n).status lnkStatus_peerDev != peer then s
  else
    let d : Int := (((t4 : Int) - t1) - ((t3 : Int) - t2)) / 2
    let off : Int := (((t2 : Int) - t1) + ((t3 : Int) - t4)) / 2
    let s := (s.onPort n (fun p => { p with
      hops := hops
      linkDelay := d })).chooseParent
    if s.isJobHead || getF s.time.syncStatus tsSyncStatus_parentPort != n || s.img.cur.isNone then s
    else
      let first := s.time.epoch == 0 && !s.time.stepped
      let near := decide (off.natAbs ≤ 8)
      let f : Int := (s.freeValue.toNat % 2001 : Nat) - 1000
      let w := setF (setF (setF s.time.syncStatus tsSyncStatus_offEst (s16 (if first then 0 else off))) tsSyncStatus_locked
        (bit (first || near))) tsSyncStatus_freq (s16 f)
      { s.useFree with time := { s.time with
          count := if first then ((s.time.count : Int) + off).toNat else s.time.count
          stepped := s.time.stepped || first
          syncStatus := w } }

/-! ## Packets (R375 to R378) -/

/-- A packet of a fenced ID, or for one, is dropped (R378). -/
def fencedPacket (s : State) (pk : Packet) : Bool :=
  s.fd.fences.any (fun f => f.status != 1 && (f.id == pk.src || f.id == pk.dst))

def seenOf (s : State) (src route : Nat) : Seen :=
  (s.fabric.seen.find? (fun x => x.src == src && x.route == route)).getD { src := src, route := route, upTo := 0, above := [] }

/-- Numbers below `n` are all accepted: the ones above that follow on join them. -/
def closeSeen (x : Seen) : Nat → Seen
  | 0 => x
  | n + 1 => if x.above.contains x.upTo then closeSeen { x with upTo := x.upTo + 1, above := x.above.filter (fun k => k != x.upTo) } n else x

/-- The destination accepts each packet once (R376); during a reset it is acknowledged and discarded
(R386). -/
def acceptPacket (s : State) (pk : Packet) : State :=
  let x := s.seenOf pk.src pk.route
  let ack := Msg.e2eAck pk.src pk.route pk.seq
  if pk.seq < x.upTo ∨ pk.seq ∈ x.above then
    let n := pk.via.getD 0
    (s.onPort n (fun p => { p with status := bumpF p.status lnkStatus_e2eDup 1 })).send ack
  else if x.upTo + 256 ≤ pk.seq then s
  else
    let y := closeSeen { x with above := pk.seq :: x.above } 257
    let s := { s with fabric := { s.fabric with seen := y :: s.fabric.seen.filter (fun z => z.src != pk.src || z.route != pk.route) } }
    if !s.rst.active.isEmpty then s.send ack else (s.send ack).send (.packetIn pk)

/-- Nothing can carry the packet: dropped and counted (R375), at the port it came in on, or at the first port. -/
def unreach (s : State) (pk : Packet) : State :=
  s.onPort (pk.via.getD 0) (fun p => { p with status := bumpF p.status lnkStatus_unreach 1 })

def partialKey (x : Partial) (pk : Packet) : Bool := x.route == pk.route && x.seq == pk.seq

/-- The packet buffer of a port die, 16 MiB, has no room for one more packet that starts there (R376, log 88). -/
def bufferFull (s : State) (n : Nat) (pk : Packet) : Bool :=
  pk.via.isNone && decide (0x1000000 <
    256 * (((s.fabric.held.filter (fun h => (h.port.map (· / 9)) == some (n / 9))).map (·.pk.flits)).sum + pk.flits))

/-- A packet goes on by the transit table, or is delivered here (R375). `whole`: its last flit has arrived. A packet
that finds no room on its port (R372, R373), or in the buffer of the die it starts from (R376), waits. -/
def packetForward (s : State) (pk : Packet) (whole : Bool) : State :=
  if !s.linksUp || s.fencedPacket pk then s
  else if pk.dst = s.devId then (if whole then s.acceptPacket pk else s)
  else if s.fabric.partials.any (fun x => partialKey x pk) then
    (if whole then { s with fabric := { s.fabric with partials := s.fabric.partials.filter (fun x => !partialKey x pk) } } else s)
  else match s.choosePort pk with
    | none => s.unreach pk
    | some n =>
      let vc := if (s.transitOf pk.dst).any (·.dateline) then pk.vc + 1 else pk.vc
      let pk' : Packet := { pk with vc := vc }
      if !hasRoom (s.port n) pk' || s.bufferFull n pk then s
      else
        let f := if pk.via.isNone then { s.fabric with held := { pk := pk', port := some n, resends := 0, sentAt := s.clock } :: s.fabric.held } else s.fabric
        let f := if whole then f else { f with partials := { route := pk.route, seq := pk.seq, via := pk.via, out := n } :: f.partials }
        let s := ({ s with fabric := f }).sendOn n pk'
        if rekeyAt ≤ (s.port n).txc then s.toRetrain n 2 false else s

/-- The origin frees the packet (R376). -/
def e2eAck (s : State) (route seq : Nat) : State :=
  if !s.linksUp then s
  else { s with fabric := { s.fabric with held := s.fabric.held.filter (fun h => h.pk.route != route || h.pk.seq != seq) } }

/-- A packet waits for its acknowledgement: 200 µs since it was sent last, on a port that is still up (R376). -/
def awaitsAck (s : State) (h : Held) : Bool :=
  (h.port.map s.portActive).getD false && decide (s.clock < h.sentAt + 200 * usTicks)

/-- No acknowledgement has come within 200 µs, or the port is down: the packet is sent again on a port as it stands (R376). -/
def e2eResend (s : State) (route seq : Nat) : State :=
  if !s.linksUp then s
  else match s.fabric.held.find? (fun h => h.pk.route == route && h.pk.seq == seq) with
    | none => s
    | some h =>
      if s.awaitsAck h then s else
      let dest := s.choosePort h.pk
      let held := s.fabric.held.map (fun x => if x = h then { x with port := dest, resends := x.resends + 1, sentAt := s.clock } else x)
      let s := { s with fabric := { s.fabric with held := held } }
      match dest with
      | none => s.unreach h.pk
      | some n => s.sendOn n h.pk

/-- A partial packet is discarded, and the ABORT goes on after it (R377). -/
def abortIn (s : State) (n route seq : Nat) : State :=
  if !s.linksUp then s
  else
    let (gone, kept) := s.fabric.partials.partition (fun x => x.route == route && x.seq == seq && x.via == some n)
    gone.foldl (fun s x => s.send (.abort x.out x.route x.seq)) { s with fabric := { s.fabric with partials := kept } }

/-! ## Register writes to a port (R379, R387, R389) -/

/-- retrain: a quick retrain, asked for by the host. -/
def retrainPort (s : State) (n : Nat) : State := if s.portActive n then s.toRetrain n 2 true else s

/-- qualify: full training of the port (R387); every good lane is tested afresh. A port whose figure this exit from ACTIVE
brings to suppress is damped (R379, R382). -/
def qualifyPort (s : State) (n : Nat) : State :=
  if linkSt (s.port n) = LS.disabled then s
  else
    let was := s.portActive n || linkSt (s.port n) == LS.retrain
    let hot := s.portActive n && (flapPort (s.port n) s.clock).2
    let s := (s.downWith n LS.detect 2).onPort n (fun p => { p with asked := true })
    let s := if was then s.linkDown n else s.toDetect n
    if hot then s.damp n else s

/-- disable: DISABLED with the port's transmitters squelched, or released. -/
def disablePort (s : State) (n : Nat) (on : Bool) : State :=
  let s := s.onPort n (fun p => { p with ctl := setF p.ctl lnkCtl_disable (bit on) })
  if on then s.squelchPort n LS.disabled 7 true else s.startPort n

/-! ## Loss of a port die (R32) -/

/-- Ports whose die is gone fail at once: each is DISABLED before any link's loss is dealt with, and none can send (R32). -/
def portsLost (s : State) (ns : List Nat) : State :=
  let were := ns.filter (fun n => s.portActive n || linkSt (s.port n) == LS.retrain)
  let s := ns.foldl (fun s n =>
    ((s.onPort n (fun p => { p with dieLost := true })).downWith n LS.disabled 8).onPort n (fun p =>
      { p with asked := false, retry := [], used := [], downAt := if were.contains n then some s.clock else p.downAt })) s
  were.foldl (fun s n => s.linkDown n) s

/-- Port die 0 fails the device: FAULT_N is driven and the device is as one whose rootstock does not run (log 33).
Another die takes its nine ports down. -/
def portDieLoss (s : State) (d : Nat) : State :=
  if !s.alive then s
  else if d = 0 then
    let s := s.haltStages
    ({ s with boot := { s.boot with rooted := false } }).driveFault.toState DS.cold
  else s.portsLost (((List.range 9).map (fun i => 9 * d + i)).filter (fun n => decide (n < 36)))

end State

/-- FLIT_BUNDLE (R368, R370, R371). -/
def execFlitBundle (n : Nat) (flits : List FlitIn) (tagOk : Bool) (s : State) : Host.Outcome State Fault Refusal :=
  .next (s.flitBundle n flits tagOk)

/-- NAK_RESEND (R370, R371). -/
def execNakResend (n ack : Nat) (s : State) : Host.Outcome State Fault Refusal := .next (s.nakResend n ack)

/-- KEEPALIVE_SEND (R385). -/
def execKeepaliveSend (n : Nat) (s : State) : Host.Outcome State Fault Refusal := .next (s.keepaliveSend n)

/-- KEEPALIVE (R385, R513). -/
def execKeepalive (n dev port _ts _devState : Nat) (squelch tagOk : Bool) (s : State) : Host.Outcome State Fault Refusal :=
  .next (s.keepaliveIn n dev port squelch tagOk)

/-- KEEPALIVE_MISS (R385). -/
def execKeepaliveMiss (n : Nat) (s : State) : Host.Outcome State Fault Refusal := .next (s.keepaliveMiss n)

/-- RETRAIN_TIMEOUT (R379, R513, R327, R332). -/
def execRetrainTimeout (n : Nat) (s : State) : Host.Outcome State Fault Refusal := .next (s.retrainTimeout n)

/-- RETRAIN_COMPLETE (R379, R372). -/
def execRetrainComplete (n : Nat) (s : State) : Host.Outcome State Fault Refusal := .next (s.retrainComplete n)

/-- DETECT_TIMEOUT (R379). -/
def execDetectTimeout (n energised : Nat) (s : State) : Host.Outcome State Fault Refusal := .next (s.detectTimeout n energised)

/-- TRAIN (R379, R331). -/
def execTrain (n : Nat) (t : TrainIn) (s : State) : Host.Outcome State Fault Refusal := .next (s.train n t)

/-- LANE_SHORT (R379). -/
def execLaneShort (n lane : Nat) (s : State) : Host.Outcome State Fault Refusal := .next (s.laneShort n lane)

/-- FEC_LOCK (R379). -/
def execFecLock (n : Nat) (s : State) : Host.Outcome State Fault Refusal := .next (s.fecLock n)

/-- LINK_KEY_EXCHANGE (R379, R424). -/
def execLinkKeyExchange (n : Nat) (ok : Bool) (s : State) : Host.Outcome State Fault Refusal := .next (s.linkKeyExchange n ok)

/-- LANE_FAILURE (R381, R382). -/
def execLaneFailure (n lane : Nat) (lockLost : Bool) (s : State) : Host.Outcome State Fault Refusal :=
  .next (s.laneFailure n lane lockLost)

/-- DAMPING_RELEASE (R382). -/
def execDampingRelease (n : Nat) (lane : Option Nat) (s : State) : Host.Outcome State Fault Refusal := .next (s.dampingRelease n lane)

/-- HEALTH_SCAN (R383). -/
def execHealthScan (n : Nat) (scan : LaneScan) (s : State) : Host.Outcome State Fault Refusal := .next (s.healthScan n scan)

/-- CMIS_POLL (R383, R384). -/
def execCmisPoll (n temp laserPct : Nat) (s : State) : Host.Outcome State Fault Refusal := .next (s.cmisPoll n temp laserPct)

/-- MODULE_SILENT (R384). -/
def execModuleSilent (n : Nat) (s : State) : Host.Outcome State Fault Refusal := .next (s.moduleSilent n)

/-- TIME_EXCHANGE (R388). -/
def execTimeExchange (n t1 t2 t3 t4 hops peer : Nat) (s : State) : Host.Outcome State Fault Refusal :=
  .next (s.timeExchange n t1 t2 t3 t4 hops peer)

/-- PACKET_FORWARD (R375 to R378). -/
def execPacketForward (pk : Packet) (whole : Bool) (s : State) : Host.Outcome State Fault Refusal := .next (s.packetForward pk whole)

/-- E2E_ACK (R376). -/
def execE2eAck (route seq : Nat) (s : State) : Host.Outcome State Fault Refusal := .next (s.e2eAck route seq)

/-- E2E_RESEND (R376). -/
def execE2eResend (route seq : Nat) (s : State) : Host.Outcome State Fault Refusal := .next (s.e2eResend route seq)

/-- ABORT (R377). -/
def execAbort (n route seq : Nat) (s : State) : Host.Outcome State Fault Refusal := .next (s.abortIn n route seq)

/-- PORT_DIE_LOSS (R32). -/
def execPortDieLoss (d : Nat) (s : State) : Host.Outcome State Fault Refusal := .next (s.portDieLoss d)

end Sys2Proof.Machine
end

