-- ==== Sys2Proof/Machine/Sequencer.lean ====
section
/-!
DEFINITION. The stage sequencer's own instructions (SYNC, FLOW, MARK), the tile heartbeat, self-test and the
tile graft (R60, R61, R66 to R71, R255 to R257, R269, R270, R317, R348, R512).
-/
namespace Sys2Proof.Machine
namespace State

/-! ## SYNC (R61) -/

/-- Issue a SYNC instruction of one operation; operation 3 is reserved. -/
def issueSync (s : State) (tl : TileRef) (op : Nat) (body : Tile → Word → State) : State :=
  s.issue tl .sync fun t w =>
    if getF w sync_op = 3 then s.tileFault tl 6 else if getF w sync_op = op then body t w else s

def syncSet (s : State) (tl : TileRef) : State :=
  s.issueSync tl 0 fun _ w =>
    (s.onTile tl (fun t => { t with counters := Sparse.set 0 t.counters (getF w sync_counter) (getF w sync_value) })).finish tl w

def syncInc (s : State) (tl : TileRef) : State :=
  s.issueSync tl 1 fun _ w => ((s.retire tl).syncAdd tl (getF w sync_counter) (getF w sync_value)).syncDone tl w

/-- The counter completes a collective that the tile owns (R222, coll_wait of R225). -/
def waitsColl (s : State) (tl : TileRef) (k : Nat) : Bool :=
  ((s.role.map (·.colls)).getD []).any (fun c => c.owner == tl && c.counter == k)

/-- A WAIT holds the sequencer until the counter reaches its target. -/
def syncWait (s : State) (tl : TileRef) : State :=
  s.issueSync tl 2 fun t w =>
    let k := getF w sync_counter
    let v := getF w sync_value
    if v ≤ Sparse.get 0 t.counters k then s.finish tl w
    else ((s.onTile tl (fun t => { t with
        seq := { t.seq with wait := some (k, v) }
        redStatus := setF t.redStatus redStatus_collWait (bit (s.waitsColl tl k)) })).touch tl 19).hold tl
          (if s.waitsColl tl k then stallColl else stallSync)

def waitSatisfied (s : State) (tl : TileRef) : State :=
  let t := s.tile tl
  match t.seq.wait with
  | none => s
  | some (k, v) =>
    if !s.canIssue tl || decide (Sparse.get 0 t.counters k < v) then s
    else
      (s.onTile tl (fun t => { t with
        seq := { t.seq with wait := none }
        redStatus := setF t.redStatus redStatus_collWait 0 })).finish tl (curWord t)

/-! ## FLOW (R512) -/

def issueFlow (s : State) (tl : TileRef) (op : Nat) (body : Tile → Word → State) : State :=
  s.issue tl .flow fun t w =>
    if 4 < getF w flow_op then s.tileFault tl 6 else if getF w flow_op = op then body t w else s

/-- A FLOW instruction `w` retires and completes, and the sequencer goes on at word `dest`. -/
def goTo (s : State) (tl : TileRef) (w : Word) (dest : Nat) (loops : List Loop) : State :=
  (s.goOn tl dest loops).syncDone tl w

end State

/-- The loop end that matches a loop begin: scanning from word i with `depth` loops open inside. -/
def matchEnd (t : Tile) (depth i : Nat) : Nat → Option Nat
  | 0 => none
  | n + 1 =>
    let w := progWord t i
    if clsOf w = some .flow ∧ getF w flow_op = 0 then matchEnd t (depth + 1) (i + 1) n
    else if clsOf w = some .flow ∧ getF w flow_op = 1 then
      (match depth with
        | 0 => some i
        | d + 1 => matchEnd t d (i + 1) n)
    else matchEnd t depth (i + 1) n

/-- The address that a descriptor names: its word 0 [21:0]. -/
def descAddr (t : Tile) (w : Word) : Nat := getF (progWord t (getF w iw_desc)) ldd_elem

namespace State

/-- The iteration count of a loop begin: in the word, or in the store (R512). -/
def loopCount (t : Tile) (w : Word) : Nat :=
  if flagF w flow_flagCount then Memory.readLE t.store (descAddr t w) 4 else getF w flow_count

/-- A FLAG word is read from the store (client 7): what its error checking found (R48). -/
def flagRead (s : State) (tl : TileRef) (isFlag : Bool) (ecc : Ecc) : State := if isFlag then s.storeEcc tl ecc else s

def loopBegin (s : State) (tl : TileRef) (ecc : Ecc) : State :=
  s.issueFlow tl 0 fun t w =>
    if (flagF w flow_flagCount && badDesc (getF w iw_desc)) || decide (8 ≤ t.seq.loops.length) then s.tileFault tl 6
    else if flagF w flow_flagCount && beyondStore (descAddr t w) 4 then s.tileFault tl 9
    else
      let s := s.flagRead tl (flagF w flow_flagCount) ecc
      if flagF w flow_flagCount && ecc == .uncorrectable then s else
      let i := t.seq.index
      let c := loopCount t w
      match matchEnd t 0 (i + 1) (4032 - (i + 1)) with
      | none => s.tileFault tl 6
      | some e =>
        if c = 0 then s.goTo tl w (e + 1) t.seq.loops
        else s.goTo tl w (i + 1) ({ body := i + 1, endAt := e, left := c } :: t.seq.loops)

def loopEnd (s : State) (tl : TileRef) : State :=
  s.issueFlow tl 1 fun t w =>
    match t.seq.loops with
    | [] => s.tileFault tl 6
    | l :: rest =>
      if l.left ≤ 1 then s.goTo tl w (t.seq.index + 1) rest
      else s.goTo tl w l.body ({ l with left := l.left - 1 } :: rest)

def branchOnLoopCount (s : State) (tl : TileRef) : State :=
  s.issueFlow tl 2 fun t w =>
    match t.seq.loops with
    | [] => s.tileFault tl 6
    | l :: _ =>
      let dest := getF w flow_target
      if l.left ≠ 1 then s.goTo tl w (t.seq.index + 1) t.seq.loops
      else if 4032 ≤ dest then s.tileFault tl 6
      else s.goTo tl w dest (t.seq.loops.dropWhile (fun l => decide (dest < l.body ∨ l.endAt < dest)))

/-- The run of the program for the lot ends: the next phase of the schedule is at hand; a backward phase of a
skipped lot is skipped as well, and every backward phase of an evaluation (R203, R256, R277, R512). A tile that its
last instruction has faulted stays where it is. -/
def endLot (s : State) (tl : TileRef) : State :=
  if getF (s.tile tl).status tileStatus_tileState = TS.faulted then s else
  (s.onTile tl (fun t =>
    let sched := (t.record.map (·.schedule)).getD []
    let rest := (sched.drop (t.seq.pos + 1)).takeWhile (fun ph => ph.1 && (t.seq.evaluating || t.seq.skipped.contains ph.2))
    let pos := t.seq.pos + 1 + rest.length
    let next := sched.getD pos (false, 0)
    { t with
      status := setF t.status tileStatus_tileState TS.idle
      seq := { t.seq with index := 0, loops := [], wait := none, pos := pos, lot := next.2, inRows := 0 } })).serveFrames tl

/-- Whether the predicate holds (R255): no rows of the lot have arrived, the FLAG word, or the schedule, whose period and
phase are the two words of the predicate's descriptor (log 74). -/
def predHolds (s : State) (tl : TileRef) (t : Tile) (w : Word) : Bool :=
  let i := getF w iw_desc
  let period := (progWord t i).toNat
  match getF w flow_source with
  | 0 => t.seq.inRows == 0
  | 1 => Memory.readLE t.store (descAddr t w) 4 != 0
  | _ => decide (period ≠ 0 ∧ (s.tagOf tl).1 % period = (progWord t (i + 1)).toNat)

/-- The vintage's record of a predicate at word `i` of the program (R257). -/
def predKey (tl : TileRef) (t : Tile) (src : Nat) : Nat × Nat × Nat := (tkey tl, t.seq.lot, t.seq.index * 4 + src)

/-- A decision enters the records of the vintage; a skip enters the ledger, with its source and its lot (R257,
log 74). -/
def recordPred (s : State) (tl : TileRef) (src : Nat) (holds : Bool) : State :=
  let t := s.tile tl
  let k := predKey tl t src
  let s := if holds then s.stageRecord tl 3 (t.seq.lot % 4096) (t.seq.lot % 65536 * 65536 + src) else s
  if t.seq.evaluating then s else s.onVint s.openVintage (fun v => { v with
    judged := if v.judged.contains k then v.judged else k :: v.judged
    skips := if holds && !v.skips.contains k then k :: v.skips else v.skips })

/-- The recorded decision of a predicate, if an earlier attempt made one; an evaluation has none (R257). -/
def recordedPred (s : State) (tl : TileRef) (src : Nat) : Option Bool :=
  let t := s.tile tl
  let k := predKey tl t src
  if t.seq.evaluating then none else
  (s.vint s.openVintage).bind (fun v => if v.judged.contains k then some (v.skips.contains k) else none)

/-- What a stage that skips a lot sends in place of its output (R255): its input lot unchanged, or frames of count 0. -/
def skipSend (s : State) (tl : TileRef) (empty : Bool) : State :=
  let t := s.tile tl
  ((t.record.map (·.outs)).getD []).foldl (fun s o =>
    if empty then s.routeSend tl o.frame 0 []
    else s.routeSend tl o.frame o.frame.count (frameRecs o.frame (Memory.readN t.store o.src o.len))) s

/-- A predicate that holds skips the lot with its action; a replay takes the recorded decision, and fails the check
where the predicate differs from it (R255, R257). -/
def predicate (s : State) (tl : TileRef) (ecc : Ecc) : State :=
  s.issueFlow tl 3 fun t w =>
    let src := getF w flow_source
    if src = 3 ∨ (src ≠ 0 ∧ badDesc (getF w iw_desc) = true) then s.tileFault tl 6
    else if src = 1 ∧ beyondStore (descAddr t w) 4 then s.tileFault tl 9
    else
      let s := s.flagRead tl (src == 1) ecc
      if src == 1 && ecc == .uncorrectable then s else
      let now := s.predHolds tl t w
      let held := s.recordedPred tl src
      let holds := held.getD now
      let s := if holds = now then s else s.failBit stepCheckStatus_divergent
      let s := s.recordPred tl src holds
      if holds then
        ((((s.skipSend tl (flagF w flow_empty)).finish tl w).onTile tl
          (fun t => { t with seq := { t.seq with skipped := t.seq.lot :: t.seq.skipped } })).endLot tl)
      else s.goTo tl w (t.seq.index + 1) t.seq.loops

def endOfPhase (s : State) (tl : TileRef) : State :=
  s.issueFlow tl 4 fun _ w => (s.finish tl w).endLot tl

/-! ## MARK (R317) -/

/-- Phase, lot and stall records, as TILE_CTL.ledger_detail allows them. -/
def mark (s : State) (tl : TileRef) (us : Nat) : State :=
  s.issue tl .mark fun t w =>
    let code := getF w mark_code
    match getF w mark_kind with
    | 0 => (s.stageRecord tl 0 code 0).finish tl w
    | 1 => (if s.detail tl = 2 then s.stageRecord tl 1 code t.seq.lot else s).finish tl w
    | 2 => (s.stall tl code us).finish tl w
    | _ => s.tileFault tl 6

/-! ## Heartbeat, self-test, graft -/

/-- The heartbeat period in TS64: hb_period microseconds, 16 where it is 0 (R66, R70). -/
def hbTicks (s : State) (tl : TileRef) : Nat :=
  let n := getF (s.tile tl).ctl tileCtl_hbPeriod
  (if n = 0 then 16 else n) * usTicks

/-- Every hb_period microseconds a tile whose state is not OFF sends a heartbeat (R66). -/
def tileHeartbeat (s : State) (tl : TileRef) : State :=
  let t := s.tile tl
  if !s.alive || getF (s.tileStatusRead tl) tileStatus_tileState == TS.off ||
      (decide (t.heartbeat ≤ s.now) && decide (s.now < t.heartbeat + s.hbTicks tl)) then s
  else (s.setTile tl { t with heartbeat := s.now }).send (.heartbeat tl s.now (getF t.status tileStatus_progress))

/-- A running self-test of a site ends. A retest of a faulted tile that fails faults it with 0x0A (R48, R68). -/
def selfTestComplete (s : State) (p x fails : Nat) : State :=
  let a := s.site p x
  if !a.running || !s.alive then s
  else
    let units := if a.mode = 1 then quickUnits else fullUnits
    let tl : TileRef := ⟨p, getF a.bist siteBist_logicalT⟩
    let retest := getF a.bist siteBist_siteRole == 0 && getF (s.tile tl).status tileStatus_faultCode == 3 &&
      (s.devState == DS.running || s.devState == DS.paused)
    let s := s.siteTested p x units fails
    if retest && fails &&& units != 0 then s.tileFault tl 10 else s

/-- Whether a tile has a fault that a tile graft takes (R348). -/
def graftDue (s : State) (tl : TileRef) : Bool :=
  let t := s.tile tl
  let f := getF t.status tileStatus_faultCode
  getF t.status tileStatus_tileState == TS.faulted &&
    (f == 2 || f == 10 || (f == 3 && decide (2 ≤ t.ueInJob)) || ((f == 4 || f == 5) && decide (2 ≤ t.raceInJob)))

end State

/-- SYNC_SET (R61). -/
def execSyncSet (tl : TileRef) (s : State) : Host.Outcome State Fault Refusal := .next (s.syncSet tl)

/-- SYNC_INC (R61). -/
def execSyncInc (tl : TileRef) (s : State) : Host.Outcome State Fault Refusal := .next (s.syncInc tl)

/-- SYNC_WAIT (R61). -/
def execSyncWait (tl : TileRef) (s : State) : Host.Outcome State Fault Refusal := .next (s.syncWait tl)

/-- WAIT_SATISFIED (R61, R62). -/
def execWaitSatisfied (tl : TileRef) (s : State) : Host.Outcome State Fault Refusal := .next (s.waitSatisfied tl)

/-- LOOP_BEGIN (R270, R512). -/
def execLoopBegin (f : FlowIn) (s : State) : Host.Outcome State Fault Refusal := .next (s.loopBegin f.tl f.ecc)

/-- LOOP_END (R270, R512). -/
def execLoopEnd (tl : TileRef) (s : State) : Host.Outcome State Fault Refusal := .next (s.loopEnd tl)

/-- BRANCH_ON_LOOP_COUNT (R270, R512). -/
def execBranchOnLoopCount (tl : TileRef) (s : State) : Host.Outcome State Fault Refusal :=
  .next (s.branchOnLoopCount tl)

/-- PREDICATE (R255 to R257). -/
def execPredicate (p t : Nat) (ecc : Ecc) (s : State) : Host.Outcome State Fault Refusal :=
  .next (s.predicate ⟨p, t⟩ ecc)

/-- END_OF_PHASE (R512). -/
def execEndOfPhase (tl : TileRef) (s : State) : Host.Outcome State Fault Refusal := .next (s.endOfPhase tl)

/-- MARK (R317). -/
def execMark (tl : TileRef) (stallUs : Nat) (s : State) : Host.Outcome State Fault Refusal := .next (s.mark tl stallUs)

/-- TILE_HEARTBEAT (R66). -/
def execTileHeartbeat (tl : TileRef) (s : State) : Host.Outcome State Fault Refusal := .next (s.tileHeartbeat tl)

/-- SELF_TEST_COMPLETE (R67, R71). -/
def execSelfTestComplete (p site fails : Nat) (s : State) : Host.Outcome State Fault Refusal :=
  .next (s.selfTestComplete p site fails)

end Sys2Proof.Machine
end

