-- ==== Sys2Proof/Machine/Boundary.lean ====
section
/-!
DEFINITION. What a step boundary does: scales (R157 to R165, R177, R180), vintages, racking (R302 to R304),
evaluations (R277 to R279), checkpoint streams (R354 to R357), the pause (R308).
-/
namespace Sys2Proof.Machine

/-! ## Scales -/

/-- X of a slot set to what the host applied, or to a proposed value clamped (R159, R180). -/
def putX (sl : Slot) (applied : List (Nat × Nat)) (x : Int) (act : Nat) : Slot :=
  match applied.find? (fun a => a.1 == sl.tensor) with
  | some a => { sl with x := a.2, action := 4 }
  | none => { sl with x := (clampX x).1, action := if (clampX x).2 then 3 else act }

/-- A history entry appended, the oldest dropped (R162). -/
def pushHist (n : Nat) (h : List F32) (a : F32) : List F32 := (h ++ [a]).drop (h.length + 1 - n)

/-- X from a history, when it holds a nonzero entry (R157). -/
def histX (t : Tile) (sl : Slot) : Option Int :=
  let a := amaxOf (sl.hist.map f32v)
  match fmtByCode t (getF sl.recipe rc_fmt) with
  | some f => if a.1 = 0 then none else some (127 - fitExp f a + getF sl.recipe rc_margin)
  | none => none

/-- A HIST slot without a back-off: X from the history, or the host's answer to a clamp of it, not below the floor while the
hold lasts (R157, R159, R177, R180). -/
def histSlot (t : Tile) (applied : List (Nat × Nat)) (sl : Slot) : Slot :=
  let y := match histX t sl with
    | some x => putX sl applied x sl.action
    | none => sl
  if 0 < sl.hold then { y with x := max y.x sl.floor } else y

/-- A slot at the commit of a step with verdict `vd` (R157, R165, R177). `amax`: what every tile measured. -/
def advanceSlot (t : Tile) (vd : Verdict) (amax : F32) (sl : Slot) : Slot :=
  let r := sl.recipe
  let back := getF r rc_backoff
  let grow := getF r rc_growth
  let b : Slot := { sl with amax := 0, nonfinite := 0, sinceBackoff := min (sl.sinceBackoff + 1) 0xffffffff }
  if !sl.valid then sl
  else if sl.kind = kindLOSS then
    if vd.skip then { putX b vd.applied ((sl.x : Int) - back) 1 with sinceBackoff := 0, sinceSkip := 0 }
    else if grow ≠ 0 ∧ grow ≤ sl.sinceSkip + 1 then { putX b vd.applied ((sl.x : Int) + 1) 2 with sinceSkip := 0 }
    else { b with sinceSkip := sl.sinceSkip + 1 }
  else if getF r rc_source = srcHist then
    if vd.skip && vd.tensors.contains sl.tensor then
      let y := putX b vd.applied ((sl.x : Int) + back) 1
      { y with floor := y.x, hold := recipeHist r, sinceBackoff := 0 }
    else histSlot t vd.applied { b with hist := if vd.skip then sl.hist else pushHist (recipeHist r) sl.hist amax, hold := sl.hold - 1 }
  else { b with t := if sl.kind = kindOPT ∧ vd.skip = false then sl.t + 1 else sl.t }

/-- The first phase of a tile's schedule; an evaluation runs its forward phases only. -/
def firstSeq (t : Tile) (evaluating : Bool) : Seq :=
  let sched := (t.record.map (·.schedule)).getD []
  let pos := if evaluating then (sched.takeWhile (·.1)).length else 0
  let ph := sched.getD pos (false, 0)
  { Seq.reset with pos := pos, lot := ph.2, evaluating := evaluating }

/-- What a boundary or a rollback takes from a tile beside its casks and sets: stash contents (R209), the ring's rotation and
the wait for frames (R225, R228), the lot's assignments (R251), frames taken. -/
def dropTransient (t : Tile) : Tile :=
  { t with
    redStatus := setF (setF t.redStatus redStatus_rotation 0) redStatus_collWait 0
    stash := { Stash.reset with peakHeld := t.stash.peakHeld }
    admitted := [], deferred := [], routeParts := 0, ringSent := 0, ringGot := 0, accepted := [] }

/-- A tile at a boundary: casks and stationary sets cleared (R55, R510), ovf_peak cleared but after an exhaustion (R210), the
program at its start. -/
def boundaryTile (evaluating : Bool) (t : Tile) : Tile :=
  { dropTransient (clearTile t) with
    seq := firstSeq t evaluating
    stashStatus := if t.stash.peakHeld then t.stashStatus else setF t.stashStatus stashStatus_ovfPeak 0 }

def noVerdict : Verdict := { skip := false, fail := false, tensors := [], applied := [] }

namespace State

/-- The largest amax that any tile of the device measured for a tensor (R161, log 28). -/
def tensorAmax (s : State) (id : Nat) : F32 :=
  (s.tiles.flatMap (fun t => (t.2.slots.filter (fun x => x.2.valid && x.2.tensor == id)).map (·.2.amax))).foldl
    (fun a b => if Val.lt (f32v a) (f32v b) then b else a) 0

/-- Scales for the next step, and the copy that S(N) holds of them (R157, R162). -/
def advanceScales (s : State) (vd : Verdict) : State :=
  s.allTiles (fun t =>
    let sl := Sparse.mapV Slot.reset (fun x => advanceSlot t vd (s.tensorAmax x.tensor) x) t.slots
    { t with slots := sl, slotsB := sl })

/-! ### Histories in STATE (R161, R162) -/

/-- A range of STATE is written by the device itself: its pages are copied first (R161, R295). -/
def writeState (s : State) (a : Nat) (bs : List Byte) : State :=
  let s := (List.range (bs.length / pageBytes + 2)).foldl (fun s i =>
    let x := min (a + i * pageBytes) (a + bs.length - 1)
    match s.pageOf x with
    | some (p, j) => if s.job.sigmaOpen && !(s.page p j).copied then s.copyPage p j else s
    | none => s) s
  s.hbmWrite a bs

/-- The slot of a tensor under HIST on this device. -/
def histOn (s : State) (id : Nat) : Option Slot :=
  (s.tiles.flatMap (fun t => t.2.slots.map (·.2))).find? (fun x => x.valid && x.tensor == id && getF x.recipe rc_source == srcHist)

/-- The entry of the step enters a tensor's history ring: behind a header of 16 bytes, entries held in the first 4 and the place
of the next in the second 4 (log 82). -/
def histEntry (s : State) (x : Tensor) : State :=
  match s.histOn x.id with
  | none => s
  | some sl =>
    if (s.pageOf x.histAddr).isNone then s
    else
      let n := recipeHist sl.recipe
      let h := readBytes (s.hbmRead false x.histAddr 8)
      let next := h 4 4 % n
      let s := s.writeState (x.histAddr + 16 + 4 * next) (Memory.bytesLE (s.tensorAmax x.id).toNat 4)
      s.writeState x.histAddr (Memory.bytesLE (min (h 0 4 + 1) n) 4 ++ Memory.bytesLE ((next + 1) % n) 4)

/-- In the update phase every HIST tensor's entry is written, unless the verdict skips the step (R161, R177). -/
def writeHist (s : State) (vd : Verdict) : State := if vd.skip then s else s.tensors.foldl histEntry s

/-- X of every slot, as the cellar records it (R162, R309). -/
def scalesNow (s : State) : List (Nat × Nat) :=
  (s.tiles.flatMap (fun t => (t.2.slots.filter (fun x => x.2.valid)).map (fun x => (x.2.tensor, x.2.x)))).eraseDups

/-! ## Vintages -/

def newVint (v : Nat) : Vint :=
  { v := v, attempt := 0, counted := 0, lots := [], done := [], verdict := none, recorded := none, xs := [], skips := [], judged := [],
    frames := [], absorbed := [], sends := [], checked := false, verdictSent := false }

/-- VINTAGE_OPEN shows the oldest uncommitted vintage and its attempt (R20, R319). -/
def refreshOpen (s : State) : State :=
  let w := match s.job.uncommitted with
    | [] => setF (setF s.step.openV vintageOpen_attempt 0) vintageOpen_vintage noVintage
    | v :: _ => setF (setF s.step.openV vintageOpen_attempt v.attempt) vintageOpen_vintage v.v
  { s with step := { s.step with openV := w } }.refreshCellar

/-- A vintage becomes uncommitted: intake begins (phase 1). -/
def openVint (s : State) (v : Nat) : State :=
  if (s.vint v).isSome then s
  else ((s.onJob (fun j => { j with uncommitted := j.uncommitted ++ [newVint v] })).refreshOpen).ledger 0 0 1 0xff 0 v 0

/-- Every vintage after the committed one up to `v`, at most two (R300). -/
def openUpTo (s : State) (v : Nat) : State :=
  let n := s.committedV
  let s := if n < v then s.openVint (n + 1) else s
  if n + 1 < v then s.openVint (n + 2) else s

/-! ## Racking (R302 to R304) -/

/-- S(N) of one partition, in page order, through the page map (R295). -/
def rackBytes (s : State) (p : Nat) : List Byte :=
  (List.range (s.part p).pages.length).flatMap (fun i =>
    let e := s.page p i
    Memory.readN s.mem (partBase p + (if e.copied then e.snap else e.live) * pageBytes) pageBytes)

/-- A partition's pages that are not racked go to the buddies `bs`, then its digest. -/
def rackPart (s : State) (bs : List Nat) (p : Nat) : State :=
  let todo := (List.range (s.part p).pages.length).filter (fun i => !(s.page p i).racked)
  let s := bs.foldl (fun s b =>
    (s.sendAll (todo.map (fun i => .rackPage b p i))).send (.rackDigest b p s.committedV (Config.sha384 (s.rackBytes p)))) s
  let s := s.onPart p (fun a => { a with pages := a.pages.map (fun e => { e with racked := true }) })
  let sent := getF s.mir.rackProgress rackProgress_pagesSent
  { s with mir := { s.mir with rackProgress := setF s.mir.rackProgress rackProgress_pagesSent (sent + todo.length) } }

/-- Forget the racked bits of a partition. -/
def unrack (s : State) (p : Nat) : State :=
  s.onPart p (fun a => { a with pages := a.pages.map (fun e => { e with racked := false }) })

/-- Every buddy has acknowledged all eight partitions (R303). -/
def acked (s : State) : Bool :=
  (!flagF s.mir.buddyId buddyId_b1Valid || getF s.mir.rackStatus rackStatus_ackB1 == 0xff) &&
    (!flagF s.mir.buddyId buddyId_b2Valid || getF s.mir.rackStatus rackStatus_ackB2 == 0xff)

def setRackState (s : State) (x : Nat) : State :=
  { s with step := { s.step with committed := setF s.step.committed vintageCommitted_rackState x } }

/-- S(N) is acknowledged once every buddy has answered for every partition (phase 0x00C). -/
def settleRack (s : State) : State :=
  if s.acked && getF s.step.committed vintageCommitted_rackState != 0 then (s.setRackState 0).ledger 0 0 12 0xff 0 s.committedV 0
  else s

/-- Racking of S(N) begins to every buddy (phase 0x00B). -/
def startRacking (s : State) : State :=
  let s := { s with mir := { s.mir with
    rackStatus := setF (setF s.mir.rackStatus rackStatus_ackB1 0) rackStatus_ackB2 0
    rackProgress := setF s.mir.rackProgress rackProgress_pagesSent 0 } }
  let s := (s.onJob (fun j => { j with rackMismatch := [] })).setRackState 1
  let s := s.ledger 0 0 11 0xff 0 s.committedV 0
  ((List.range 8).foldl (fun s p => (s.unrack p).rackPart s.buddies p) s).settleRack

/-- Racking again to one new or reset buddy (R304). -/
def rerack (s : State) (b : Nat) (ps : List Nat) : State :=
  let f := if getF s.mir.buddyId buddyId_buddy1 = b ∧ flagF s.mir.buddyId buddyId_b1Valid = true then rackStatus_ackB1 else rackStatus_ackB2
  let keep := ps.foldl (fun m p => m - (if m.testBit p then 2 ^ p else 0)) (getF s.mir.rackStatus f)
  let s := { s with mir := { s.mir with rackStatus := setF s.mir.rackStatus f keep } }
  let s := s.setRackState 2
  ps.foldl (fun s p => (s.unrack p).rackPart [b] p) s

/-! ## Evaluation (R277 to R279) -/

def clearReq (s : State) (f : Field) : State := { s with step := { s.step with ctl := setF s.step.ctl f 0 } }

/-- An evaluation of the committed vintage begins (phase 0x00F). -/
def startEval (s : State) (attempt : Nat) : State :=
  let s := (s.clearReq stepCtl_evalReq).onJob (fun j =>
    { j with evaluating := true, evalDue := false, evalV := s.committedV, evalAttempt := attempt })
  (s.allTiles (boundaryTile true)).ledger 0 0 15 0xff 0 s.committedV attempt

/-- Whether an evaluation falls due at the boundary of vintage v. -/
def evalAt (s : State) (v : Nat) : Bool :=
  flagF s.step.ctl stepCtl_evalReq || s.job.evalDue ||
    ((s.image.map (·.step)).map (fun p => p.evalPeriod != 0 && v % p.evalPeriod == p.evalPhase)).getD false

/-! ## Checkpoint streams (R352 to R357) -/

/-- The item of STEP that fixes checkpoints. -/
def ckptItem (s : State) : Option StepProg := s.image.map (·.step)

/-- This device's REPLICA group: number, healthy members ascending, and its rank (R355). -/
def replicaRank (s : State) : Nat × Nat × Nat :=
  let ids := s.replicaIds.filter s.healthy
  ((s.me.map (·.replica)).getD 0, ids.length, (ids.filter (fun i => decide (i < s.devId))).length)

/-- The name of the object of partition p that this device writes of S(v) (R353). -/
def objName (s : State) (v p : Nat) : ObjName :=
  { job := (s.img.cur.map (·.hdr.jobId)).getD 0, v := v, gen := s.job.gen, shard := s.replicaRank.1, part := p }

/-- Chunks of 1 MiB (R351); an object without a page has one empty chunk. -/
def chunks (fuel : Nat) (bs : List Byte) : List (List Byte) :=
  match fuel with
  | 0 => []
  | n + 1 => bs.take 1048576 :: (if (bs.drop 1048576).isEmpty then [] else chunks n (bs.drop 1048576))

/-- The stored chunks of a partition object: its STATE pages of S(v) in page order, each chunk as ciphertext and tag (R351,
R352). -/
def storedChunks (s : State) (v p : Nat) : List (List Byte) :=
  let bs := s.rackBytes p
  let n := s.objName v p
  let ck := ((s.sec.slots.find? (fun k => k.1 == 0)).map (·.2.keyId)).getD 0
  (chunks (bs.length / 1048576 + 1) bs).mapIdx (fun i b => Config.sealChunk [ck, n.job, n.gen, n.v, n.shard, n.part] i b)

/-- The object digest: SHA-384 of the stored bytes (R351). -/
def objDigest (s : State) (v p : Nat) : BitVec 384 := Config.sha384 (s.storedChunks v p).flatten

/-- An object goes to its endpoint from chunk 0 (R351, R357). -/
def sendObject (s : State) (v : Nat) (x : Stream2) : State :=
  s.sendAll ((s.storedChunks v x.p).mapIdx (fun i b => .object (s.objName v x.p) x.endpoint i b))

/-- An object begins at chunk 0 on its endpoint (phase 0x011). -/
def startObject (s : State) (x : Stream2) : State := (s.sendObject s.committedV x).ledger 0 0 17 0xff x.p s.committedV 0

/-- The objects that this device has written, with their digests (R358). -/
def ownObjects (s : State) : List (Nat × Nat × BitVec 384) :=
  match s.job.ckpt with
  | none => []
  | some c => (c.streams.filter (·.done)).map (fun x => (s.replicaRank.1, x.p, s.objDigest c.v x.p))

/-- The next object without an outcome begins: a member streams one at a time (R355). -/
def nextObject (s : State) : State :=
  match s.job.ckpt.bind (fun c => c.streams.find? (fun x => !x.done && !x.failed)) with
  | some x => s.startObject x
  | none => s

/-- The objects that this device writes of the shard, with their endpoints. -/
def ownStreams (s : State) (e : Nat) : List Stream2 :=
  let (grp, g, rank) := s.replicaRank
  ((List.range 8).filter (fun p => decide (p % max 1 g = rank))).map (fun p =>
    { p := p, endpoint := (grp * 8 + p) % max 1 e, refused := 0, done := false, failed := false })

/-- Streaming of S(v) begins (R356). -/
def startStreams (s : State) (v : Nat) : State :=
  match s.ckptItem with
  | none => s
  | some p =>
    let c : Ckpt := { v := v, startAt := s.now, streams := s.ownStreams p.endpoints, doneDevs := [], objects := [], sent := false, acks := 0 }
    (s.onJob (fun j => { j with ckpt := some c })).nextObject

/-- A checkpoint of vintage v is due (R354). -/
def ckptAt (s : State) (v : Nat) : Bool :=
  s.job.ckptDue || (s.ckptItem.map (fun p => p.ckptPeriod != 0 && v % p.ckptPeriod == 0)).getD false

/-- A due checkpoint: none without CK, which the job head reports (R352); with the duty the job head asks first
(R359). -/
def startCkpt (s : State) (v : Nat) : State :=
  let s := s.onJob (fun j => { j with ckptDue := false })
  if s.sec.slots.all (fun k => k.1 != 0) then (if s.isJobHead then s.event Err.absent 6 v Src.step false else s)
  else if s.isJobHead && s.asks 4 then s.ask 4 v 0 [v]
  else s.startStreams v

/-- Streams of this device without an outcome (R356). -/
def streaming (s : State) : Bool := (s.job.ckpt.map (fun c => c.streams.any (fun x => !x.done && !x.failed))).getD false

/-! ## Pause and admission -/

/-- Entry to PAUSED: the stopped lots leave no stash behind. -/
def enterPaused (s : State) : State :=
  let s := (s.applyKeys.clearReq stepCtl_pauseReq).allTiles (fun t => { boundaryTile false t with slots := t.slotsB })
  (s.refreshOpen.toState DS.paused).event Err.ok 0 s.committedV Src.step false

/-- The pause at a commit (R308): of the cellar of the uncommitted vintages the data lots stay, and frames of the stopped lots
are stale. A rollback that ends in PAUSED keeps the cellar, and has raised the attempts (R311). -/
def pauseJob (s : State) : State :=
  (s.onJob (fun j => { j with uncommitted := j.uncommitted.map (fun v =>
    { newVint v.v with attempt := v.attempt + 1, counted := v.counted, lots := v.lots, done := v.done }) })).enterPaused

/-- Devices admitted since the last commit join the spares (R345). -/
def admitSpares (s : State) : State :=
  s.onFd (fun f => { f with spares := f.pendingAdmit ++ f.spares.filter (fun i => !f.pendingAdmit.contains i), pendingAdmit := [] })

/-- What a step leaves behind it in the agreement; requests about it that the host has not answered are withdrawn
(log 43). -/
def clearRound (s : State) : State :=
  ({ s with decisions := s.decisions.filter (fun d => d.st != 0 || (d.duty != 2 && d.duty != 3)) }).onJob (fun j => { j with
    bits := 0, failErr := 0, uncounted := false, verdictReps := [], checkReps := [], digests := [], ownReport := none
    firstRepAt := none, askedAt := none, headVerdict := none, checkWait := none, heldCommit := none })

/-- The next step begins at intake: the vintage after the committed one is open and its scales are recorded. A job
that would reach the value that is no vintage fails with ERR_RANGE (R20). -/
def beginStep (s : State) : State :=
  let v := s.committedV + 1
  if noVintage ≤ v then (s.pauseJob).event Err.range 0 0 Src.step false
  else
    let s := s.openVint v
    let xs := s.scalesNow
    s.onVint v (fun x => if x.xs.isEmpty then { x with xs := xs } else x)

end State
end Sys2Proof.Machine
end

