-- ==== Sys2Proof/Machine/Fencing.lean ====
section
/-!
DEFINITION. FENCE_LIST, spares and the choice of one, the fence a head takes, and what a FENCE does where it arrives
(R323 to R337, R342, R378).
-/
namespace Sys2Proof.Machine

/-! Reasons of a fence (R350). -/
namespace FR
def reports : Nat := 1
def missed : Nat := 2
def selfFail : Nat := 3
def jobRequest : Nat := 4
def hostRequest : Nat := 5
def minority : Nat := 6
def spareLost : Nat := 7
def selfTest : Nat := 8
def planned : Nat := 9
end FR

/-! Phases of GRAFT_STATUS (R350). -/
namespace GP
def detected : Nat := 1
def fenced : Nat := 2
def selecting : Nat := 3
def waking : Nat := 4
def selfTest : Nat := 5
def loading : Nat := 6
def takeOver : Nat := 7
def replay : Nat := 8
def done : Nat := 9
def failed : Nat := 10
end GP

namespace State

def missHb (s : State) : Nat := getF s.mir.fdCfg fdCfg_missHb

def fenceOf (s : State) (id : Nat) : Option FenceEnt := s.fd.fences.find? (fun f => f.id == id)

/-- Fenced and not grafted. -/
def isFenced (s : State) (id : Nat) : Bool := s.fd.fences.any (fun f => f.id == id && f.status != 1)

/-- The spares of the domain: those the image lists, and those admitted since. -/
def isSpare (s : State) (id : Nat) : Bool := s.fd.spares.contains id

def beatOf (s : State) (id : Nat) : Option BeatSt := s.fd.beats.find? (fun b => b.id == id)

/-- The BEAT period of a member: 1 ms, or the dormant period for a spare. -/
def beatPeriod (s : State) (id : Nat) : Nat :=
  if s.isSpare id then getF s.pow.dormantCfg dormantCfg_period100us * 100 * usTicks else msTicks

/-- A spare takes part in a graft of this head that has not ended. -/
def inGraft (s : State) (id : Nat) : Bool := s.fd.grafts.any (fun g => g.spare == some id && g.phase != GP.failed && g.phase != GP.done)

/-- A spare is eligible (R323): DORMANT by its BEATs and under the job's image, not listed as fenced, in no graft, and heard
within the last miss_hb dormant periods. -/
def eligible (s : State) (id : Nat) : Bool :=
  s.isSpare id && (s.fenceOf id).isNone && !s.inGraft id &&
    (match s.beatOf id with
      | some b => b.st == DS.dormant && b.image == s.imageDigest && decide (b.misses < s.missHb) &&
          decide (s.now ≤ b.lastTs + s.missHb * s.beatPeriod id)
      | none => false)

/-- A spare that this head has not heard from since it became head, and that is neither fenced nor in a graft. -/
def unheard (s : State) : Bool := s.fd.spares.any (fun i => (s.fenceOf i).isNone && (s.beatOf i).isNone && !s.inGraft i)

def eligibleSpares (s : State) : List Nat := s.fd.spares.filter s.eligible

/-- GRAFT_STATUS shows a graft and the spares left (R350). -/
def graftStatus (s : State) (g : Graft) (err : Nat) : State :=
  let w := setF (setF (setF (setF (setF s.mir.graftStatus graftStatus_target g.fenced) graftStatus_spare (g.spare.getD 0xffff))
    graftStatus_err err) graftStatus_phase g.phase) graftStatus_source g.source
  ({ s with mir := { s.mir with graftStatus := setF w graftStatus_sparesLeft s.eligibleSpares.length } }).errRecord err Src.fault

/-- Change the grafts of this head, and show one. -/
def putGraft (s : State) (g : Graft) (err : Nat) : State :=
  (s.onFd (fun f => { f with grafts := g :: f.grafts.filter (fun x => x.fenced != g.fenced) })).graftStatus g err

def setFenceStatus (s : State) (id st : Nat) : State :=
  s.onFd (fun f => { f with fences := f.fences.map (fun x => if x.id = id then { x with status := st } else x) })

/-- A spare is woken for a graft (R337). -/
def wakeFor (s : State) (id spare : Nat) (planned : Bool) : State :=
  (s.putGraft { fenced := id, spare := some spare, planned := planned, phase := GP.waking, matched := [], mismatches := 0, source := 3 } Err.ok).send
    (.wake spare id s.time.epoch (-s.time.offset).toNat)

/-- ROLLBACK of the oldest uncommitted vintage goes out to every device of the job (R307, R311, R336): the attempt
that follows, and the code for which the job pauses, if any. -/
def multicastRollback (s : State) (stop : Nat) : State := s.send (.rollback s.openVintage (s.openAttempt + 1) stop)

/-- No spare: the job pauses with ERR_ABSENT, and the graft waits for an admitted one (R337). -/
def noSpare (s : State) (id : Nat) : State :=
  let g : Graft := { fenced := id, spare := none, planned := false, phase := GP.failed, matched := [], mismatches := 0, source := 3 }
  let s := ((s.setFenceStatus id 3).putGraft g Err.absent).onFd (fun f => { f with waiting := id :: f.waiting.filter (fun x => x != id) })
  if s.isJobHead then
    let s := s.event Err.absent 1 id Src.fault false
    if s.devState = DS.running then s.multicastRollback Err.absent else s
  else s.send (.noSpare s.jobHead id)

/-- A graft waits for the BEATs of spares that a new head has not heard from yet (R326, R341, log 87). -/
def awaitSpare (s : State) (id : Nat) : State :=
  let g : Graft := { fenced := id, spare := none, planned := false, phase := GP.selecting, matched := [], mismatches := 0, source := 3 }
  (s.putGraft g Err.ok).onFd (fun f => { f with waiting := id :: f.waiting.filter (fun x => x != id) })

/-- The head selects the lowest eligible spare for a fenced member, or asks the host (R337, R409). -/
def selectSpare (s : State) (id : Nat) : State :=
  match lowest s.eligibleSpares with
  | none => if s.unheard then s.awaitSpare id else s.noSpare id
  | some sp => if s.asks 1 then s.ask 1 id sp [id, sp] else s.wakeFor id sp false

/-- Fenced members that wait for a spare, in ascending order (R337). -/
def selectWaiting (s : State) : State :=
  let n := s.fd.waiting.length
  (List.range n).foldl (fun s _ =>
    match lowest s.fd.waiting, lowest s.eligibleSpares with
    | some id, some _ => ((s.onFd (fun f => { f with waiting := f.waiting.filter (fun x => x != id) })).setFenceStatus id 0).selectSpare id
    | _, _ => s) s

/-- Members that waited for spares which have now been lost have none (R337). -/
def settleWaiting (s : State) : State :=
  if s.unheard || !s.eligibleSpares.isEmpty then s
  else (s.fd.waiting.filter (fun id => s.fd.grafts.any (fun g => g.fenced == id && g.phase == GP.selecting))).foldl noSpare s

/-- A new head takes the grafts of the head before it (R341, log 87): in PAUSED the fenced members wait for a spare, in a running
job each has a spare under way, which its GRAFT_DONE names. -/
def inheritGrafts (s : State) (lost : Nat) : State :=
  (s.fd.fences.filter (fun f => f.status == 0 && f.id != lost && s.fd.grafts.all (fun g => g.fenced != f.id))).foldl (fun s f =>
    let g : Graft :=
      { fenced := f.id, spare := none, planned := false, phase := GP.loading, matched := [], mismatches := 0, source := 3 }
    if s.devState = DS.paused then (s.putGraft { g with phase := GP.failed } Err.absent).onFd (fun x => { x with waiting := f.id :: x.waiting })
    else s.putGraft g Err.ok) s

/-! ## Taking a fence (R328 to R330) -/

/-- The FENCE goes out and its entry is in the list; reports held on the accused are done with (R329). -/
def takeFence (s : State) (id reason reporters : Nat) : State :=
  let m : FenceMsg := { fenced := id, head := s.devId, ts := s.now, reason := reason, reporters := reporters }
  let n := ((s.fd.accuses.find? (fun a => a.accused == id)).map (·.count)).getD 0
  let e : FenceEnt := { id := id, status := if s.isSpare id then 2 else 0, reason := reason, reporters := reporters, reports := min n 0x3ff }
  (s.onFd (fun f => { f with
    fences := f.fences.filter (fun x => x.id != id) ++ [e]
    accuses := f.accuses.filter (fun a => a.accused != id) })).send (.fence m)

/-- A head fences once per accused (R329); with the duty it asks first (R333). -/
def headFence (s : State) (id reason reporters : Nat) : State :=
  if s.isFenced id then s
  else if (s.pendingOn 0).any (fun d => d.arg == id) then s
  else if s.asks 0 then s.ask 0 id (reason * 2 ^ 16 + reporters) [id, reason, reporters]
  else s.takeFence id reason reporters

/-- The job head has a device fenced: by itself where it heads that domain, else through the domain's head
(R306, R335). -/
def askFence (s : State) (id reason : Nat) : State :=
  if s.domainIds.contains id && s.isDomainHead then s.headFence id reason 0 else s.send (.askFence id reason)

/-! ## Where a FENCE arrives (R331, R332, R336, R342, R378) -/

/-- Links to the fenced device: the FENCE goes over each, then the port squelches (R331). -/
def squelchToward (s : State) (m : FenceMsg) : State :=
  (s.portsTo m.fenced).foldl (fun s n =>
    ((s.send (.fence m)).onPort n (fun p => { p with squelchedFor := some m.fenced })).squelchPort n LS.disabled 11 false) s

/-- Packets of the fenced ID, and for it, leave the buffers (R378). -/
def purgePackets (s : State) (id : Nat) : State :=
  { s with fabric := { s.fabric with held := s.fabric.held.filter (fun h => h.pk.dst != id && h.pk.src != id) } }

/-- Every fabric port of a device that has seen its own FENCE is DISABLED (R386). -/
def dropLinks (s : State) : State :=
  (List.range 36).foldl (fun s n => if !s.portOn n then s else s.downWith n LS.disabled 11) s

/-- A FENCE that names this device (R332, R444, R446). -/
def fencedSelf (s : State) : State :=
  let s := s.abandonHandshake.ensureActive.dropLinks
  if s.devState = DS.retired then s
  else if s.rst.active.isEmpty then s.quarantine
  else s.toState DS.fenced

/-- No copy of the fenced device's shard is left that this device could know of (R314, R343): no healthy peer of
its REPLICA group and no healthy buddy, or only this device as buddy with its mirror incomplete. -/
def shardLost (s : State) (id : Nat) : Bool :=
  match s.image, s.entry id with
  | some i, some e =>
    let peers := (i.devices.filter (fun d => d.replica == e.replica && !d.spare && d.id != id && s.healthy d.id))
    let bs := (e.b1.toList ++ e.b2.toList).filter s.healthy
    let mine (b : Nat) : Bool := b == s.devId &&
      !(getF s.mir.rackStatus (if getF s.mir.buddyId buddyId_buddy1 = id then rackStatus_inB1 else rackStatus_inB2) == 0xff)
    peers.isEmpty && bs.all mine
  | _, _ => false

/-- The job head's part (R314, R336, R343): rollback of a running job, to PAUSED where its domain has no spare left (R337), or
the end of it with ERR_LOST. -/
def fenceAtJobHead (s : State) (m : FenceMsg) : State :=
  if !s.isJobHead || !s.jobIds.contains m.fenced || m.reason == FR.planned then s
  else if s.shardLost m.fenced then
    let s := s.event Err.lost 1 m.fenced Src.fault true
    if s.devState = DS.running then s.multicastRollback Err.lost else s
  else if s.devState = DS.running then
    let none := s.isDomainHead && s.domainIds.contains m.fenced && s.eligibleSpares.isEmpty && !s.unheard
    (s.onJob (fun j => { j with uncounted := true })).multicastRollback (if none then Err.absent else 0)
  else s

/-- Objects of a fenced writer pass to the lowest healthy member of its REPLICA group (R357). -/
def takeStreams (s : State) (id : Nat) : State :=
  match s.job.ckpt, s.ckptItem with
  | some c, some p =>
    let ids := s.replicaIds
    if !ids.contains id || lowest (ids.filter s.healthy) != some s.devId then s
    else
      let before := ids.filter (fun i => s.healthy i || i == id)
      let g := max 1 before.length
      let rank := (before.filter (fun i => decide (i < id))).length
      let grp := (s.me.map (·.replica)).getD 0
      let more := ((List.range 8).filter (fun q => decide (q % g = rank) && c.streams.all (fun x => x.p != q))).map (fun q =>
        ({ p := q, endpoint := (grp * 8 + q) % max 1 p.endpoints, refused := 0, done := false, failed := false } : Stream2))
      let idle := c.streams.all (fun x => x.done || x.failed)
      let s := s.onJob (fun j => { j with ckpt := some { c with streams := c.streams ++ more } })
      if idle && !more.isEmpty then s.nextObject else s
  | _, _ => s

/-- The head of a load is fenced: its successor restarts the load (R341). -/
def headLost (s : State) (id : Nat) : State :=
  match s.fd.taken with
  | none => s
  | some g =>
    if s.domainHead = some id ∧ (g.phase = GP.loading ∨ g.phase = GP.takeOver) then
      let g' : Graft := { g with phase := GP.loading, matched := [], mismatches := 0, scales := [] }
      (s.onFd (fun f => { f with taken := some g' })).graftStatus g' Err.ok
    else s

/-- A load from the fenced source: complete partitions are kept, the rest goes to the next source (R342). -/
def sourceLost (s : State) (id : Nat) : State :=
  match s.fd.taken with
  | none => s
  | some g =>
    let e := s.entry g.fenced
    let isSrc := (g.source == 0 && (e.bind (·.b1)) == some id) || (g.source == 1 && (e.bind (·.b2)) == some id)
    if isSrc then
      let g' : Graft := { g with source := if g.source = 0 && ((e.bind (·.b2)).map (fun b => s.healthy b && b != id)).getD false then 1 else 2 }
      (s.onFd (fun f => { f with taken := some g' })).graftStatus g' Err.ok
    else s

/-- Every other device: list, links, packets, heads, and at the heads the rollback and the spare. -/
def fencedOther (s : State) (m : FenceMsg) : State :=
  let wasHead := s.isDomainHead
  let e : FenceEnt := { id := m.fenced, status := if s.isSpare m.fenced then 2 else 0, reason := m.reason, reporters := m.reporters, reports := 0 }
  let s := s.headLost m.fenced
  let s := if s.isFenced m.fenced then s else s.onFd (fun f => { f with fences := f.fences.filter (fun x => x.id != m.fenced) ++ [e] })
  let s := (((s.squelchToward m).purgePackets m.fenced).takeStreams m.fenced).sourceLost m.fenced
  let s := s.refreshHeads
  let s := if s.isDomainHead && !wasHead then (s.onFd (fun f => { f with accuses := [] })).inheritGrafts m.fenced else s
  let s := s.onFd (fun f => { f with spares := if s.isSpare m.fenced then f.spares.filter (fun i => i != m.fenced) else f.spares })
  let s := s.fenceAtJobHead m
  let member := s.roleIds.contains m.fenced || (s.entry m.fenced).any (fun d => !d.spare)
  if s.isDomainHead && s.domainIds.contains m.fenced && member && m.reason != FR.planned && !s.shardLost m.fenced then
    (s.putGraft { fenced := m.fenced, spare := none, planned := false, phase := GP.fenced, matched := [], mismatches := 0, source := 3 } Err.ok).selectSpare m.fenced
  else if s.isDomainHead then s.settleWaiting
  else s

/-- A graft whose spare is fenced before take-over restarts with the next eligible spare (R341). -/
def restartGraft (s : State) (spare : Nat) : State :=
  match s.fd.grafts.find? (fun g => g.spare == some spare && g.phase != GP.done && g.phase != GP.failed) with
  | none => s
  | some g =>
    if !s.isDomainHead then s
    else if g.planned then s.putGraft { g with phase := GP.failed } Err.absent
    else s.selectSpare g.fenced

/-- A FENCE is received (R331); once per fenced ID. A planned fence of the ID that this device has taken over means the
device that held it before (R344). -/
def fenceIn (s : State) (m : FenceMsg) : State :=
  let own := m.fenced == s.devId && m.reason == FR.planned && (s.fenceOf s.devId).any (fun f => f.status == 1)
  if !s.linksUp || s.img.cur.isNone || s.fd.sawFence.contains m.fenced || own then s
  else
    let s := s.onFd (fun f => { f with sawFence := m.fenced :: f.sawFence })
    let s := s.event Err.ok 1 m.fenced Src.fault false
    if m.fenced = s.devId then s.fencedSelf else (s.fencedOther m).restartGraft m.fenced

end State
end Sys2Proof.Machine
end

