-- ==== Sys2Proof/Machine/Agreement.lean ====
section
/-!
DEFINITION. The agreement on a step: verdict reports and verdicts (R176 to R180), the step check and check reports
(R305 to R307, R312, R313), the agreement deadline, and HANG (R306, R434, R445).
-/
namespace Sys2Proof.Machine

/-- The codes of bits in a report, as STEP_CHECK_STATUS numbers them, shifted down to bit 2 (R305). -/
def reportBit (f : Field) : Nat := 2 ^ (f.lo - 2)

/-- Bits whose failure ends, beyond replay_max, in ERR_DIGEST (R312). -/
def digestBits : Nat :=
  reportBit stepCheckStatus_digGrad ||| reportBit stepCheckStatus_digState ||| reportBit stepCheckStatus_frame |||
    reportBit stepCheckStatus_packed ||| reportBit stepCheckStatus_meta ||| reportBit stepCheckStatus_divergent |||
    reportBit stepCheckStatus_rackDigest

/-- The strict majority of a list of pairs of digests, if there is one (R313). -/
def majority (ds : List (BitVec 384 × BitVec 384)) : Option (BitVec 384 × BitVec 384) :=
  ds.find? (fun d => decide (ds.length < 2 * (ds.filter (fun x => x == d)).length))

namespace State

/-! ## Who reports to whom -/

/-- Heads of the job's domains, each its lowest healthy ID with a role (R274, R325). -/
def domainHeads (s : State) : List Nat :=
  match s.image, s.me with
  | some i, some e =>
    let ds := (i.devices.filter (fun d => d.job == e.job && !d.spare))
    (ds.map (·.domain)).eraseDups.filterMap (fun g => lowest ((ds.filter (fun d => d.domain == g)).map (·.id) |>.filter s.healthy))
  | _, _ => []

/-- IDs whose reports this device awaits: a domain head its healthy members, the job head those of its own domain
and the heads of the others (R306). -/
def awaited (s : State) : List Nat :=
  if !s.isDomainHead then [] else
  let own := s.roleIds.filter s.healthy
  if s.isJobHead then (own ++ s.domainHeads).eraseDups else own

def replicaHead (s : State) : Option Nat := lowest (s.replicaIds.filter s.healthy)

/-- Whether a report is of the vintage and attempt at hand. -/
def current (s : State) (v a : Nat) : Bool := v == s.openVintage && a == s.openAttempt && v != noVintage

/-! ## Verdict (R175 to R180) -/

/-- Slots whose counts enter the verdict: checked GA, GW and LOSS tensors (R176). -/
def countedSlots (s : State) : List Slot :=
  s.tiles.flatMap (fun t => (t.2.slots.map (·.2)).filter (fun x =>
    x.valid && flagF x.recipe rc_check && (x.kind == 2 || x.kind == 3 || x.kind == kindLOSS)))

/-- What a slot would change at the boundary (R159, R165, R177): a back-off where the verdict skips the step and its tensor
counted, a growth, or a clamp of the X that the history gives. -/
def scaleProp (s : State) (t : Tile) (sl : Slot) : ScaleProp :=
  let back := getF sl.recipe rc_backoff
  let grow := getF sl.recipe rc_growth
  if sl.kind = kindLOSS then
    { tensor := sl.tensor, loss := true, x := sl.x, onSkip := some (clampX ((sl.x : Int) - back)).1,
      onPass := if grow ≠ 0 ∧ grow ≤ sl.sinceSkip + 1 then some (clampX ((sl.x : Int) + 1)).1 else none }
  else if getF sl.recipe rc_source = srcHist then
    let next := histX t { sl with hist := pushHist (recipeHist sl.recipe) sl.hist (s.tensorAmax sl.tensor) }
    { tensor := sl.tensor, loss := false, x := sl.x, onSkip := some (clampX ((sl.x : Int) + back)).1,
      onPass := match next with
        | some x => if (clampX x).2 then some (clampX x).1 else none
        | none => none }
  else { tensor := sl.tensor, loss := false, x := sl.x, onSkip := none, onPass := none }

/-- The changes that this device's slots propose. -/
def ownProps (s : State) : List ScaleProp :=
  ((s.tiles.flatMap (fun t => ((t.2.slots.map (·.2)).filter (·.valid)).map (s.scaleProp t.2))).filter (fun x =>
    x.onSkip.isSome || x.onPass.isSome)).eraseDups

/-- This device's counts by recipe action, 1 SKIP, 2 FAIL, and what its scales propose. -/
def ownCounts (s : State) : VerdictRep :=
  let sum (a : Nat) : Nat := ((s.countedSlots.filter (fun x => getF x.recipe rc_action == a)).map (·.nonfinite)).sum
  { vintage := s.openVintage, attempt := s.openAttempt, device := s.devId, skipCount := sum 1, failCount := sum 2,
    tensors := ((s.countedSlots.filter (fun x => x.nonfinite != 0)).map (·.tensor)).eraseDups, props := s.ownProps }

/-- Changes of scale that a verdict brings to the tensors of the job: tensor, X, proposed X (R180). -/
def scaleAsks (s : State) (vd : Verdict) : List (Nat × Nat × Nat) :=
  ((s.job.verdictReps.flatMap (·.props)).filterMap (fun x =>
    let y := if vd.skip then (if x.loss || vd.tensors.contains x.tensor then x.onSkip else none) else x.onPass
    y.map (fun z => (x.tensor, x.x, z)))).eraseDups

/-- Whether two verdicts are one: the tensors in any order (R179). -/
def sameVerdict (a b : Verdict) : Bool :=
  a.skip == b.skip && a.fail == b.fail && a.tensors.all b.tensors.contains && b.tensors.all a.tensors.contains &&
    a.applied.all b.applied.contains && b.applied.all a.applied.contains

/-- A tensor's recipe names the action SKIP (R153, R177). -/
def skipTensor (s : State) (id : Nat) : Bool :=
  (s.image.bind (fun i => (i.tensors.find? (fun x => x.id == id)).map (fun x => getF (i.recipes.getD x.kind 0) rc_action == 1))).getD false

/-- The verdict goes out to every device of the job. -/
def multicastVerdict (s : State) : State :=
  match s.job.headVerdict with
  | none => s
  | some (v, a, vd) => (s.send (.verdict v a vd)).onJob (fun j => { j with headVerdict := none, firstRepAt := none, askedAt := none })

/-- Every report is held: the verdict, with the X values of the host once it has answered (R180); a replay applies
the recorded values. -/
def formVerdict (s : State) : State :=
  let rs := s.job.verdictReps
  let vd : Verdict :=
    { skip := rs.any (fun r => r.skipCount != 0), fail := rs.any (fun r => r.failCount != 0),
      tensors := (rs.flatMap (·.tensors)).eraseDups, applied := [] }
  let held := (s.vint s.openVintage).bind (·.recorded)
  match held with
  | some r => (s.onJob (fun j => { j with headVerdict := some (s.openVintage, s.openAttempt, { vd with applied := r.applied }) })).multicastVerdict
  | none =>
    let s := s.onJob (fun j => { j with headVerdict := some (s.openVintage, s.openAttempt, vd) })
    let xs := s.scaleAsks vd
    if s.asks 2 && !xs.isEmpty then xs.foldl (fun s x => s.ask 2 x.1 x.2.2 [x.1, x.2.1, x.2.2]) s
    else s.multicastVerdict

/-- A verdict report at a head: counted once; the last one makes the aggregate, or the verdict (R176, R306). -/
def takeVerdict (s : State) (r : VerdictRep) : State :=
  if !s.current r.vintage r.attempt || !s.awaited.contains r.device || s.job.verdictReps.any (fun x => x.device == r.device) then s
  else
    let s := s.onJob (fun j => { j with
      verdictReps := j.verdictReps ++ [r]
      firstRepAt := if j.firstRepAt.isNone then some s.now else j.firstRepAt })
    if s.awaited.all (fun i => s.job.verdictReps.any (fun x => x.device == i)) then
      (if s.isJobHead then s.formVerdict
        else
          let rs := s.job.verdictReps
          (s.send (.verdictReport s.jobHead
            { vintage := r.vintage, attempt := r.attempt, device := s.devId, skipCount := (rs.map (·.skipCount)).sum,
              failCount := (rs.map (·.failCount)).sum, tensors := (rs.flatMap (·.tensors)).eraseDups
              props := (rs.flatMap (·.props)).eraseDups })).onJob
            (fun j => { j with firstRepAt := none, askedAt := none }))
    else s

/-- A tile has run every phase of its schedule, and its transfers have ended. -/
def tileDone (t : Tile) : Bool :=
  (t.record.bind (·.program)).isNone ||
    (decide ((t.record.map (·.schedule.length)).getD 0 ≤ t.seq.pos) && t.chans.all (fun c => c.2.queue.isEmpty))

/-- A tile is done, or has come to its UPDATE: its lots and their reduction are behind it. -/
def tileReduced (t : Tile) : Bool :=
  tileDone t || (decide (clsOf (curWord t) = some .vec) && getF (curWord t) vec_op == 1)

/-- The lots of the step and the reduction are complete on this device, or the step has failed (R37, R176). -/
def reduced (s : State) : Bool := s.job.bits != 0 || s.tiles.all (fun t => tileReduced t.2)

/-- The update is complete as well (R37, R305). -/
def updated (s : State) : Bool := s.job.bits != 0 || s.tiles.all (fun t => tileDone t.2)

/-- Reduction is complete: this device reports its counts (phase 0x005). -/
def verdictReport (s : State) : State :=
  let v := s.openVintage
  if !s.alive || s.devState != DS.running || s.job.rollbackAt.isSome || s.job.evaluating || !s.reduced ||
      ((s.vint v).map (·.verdictSent)).getD true then s
  else
    let r := s.ownCounts
    let s := (s.phase 5).onVint v (fun x => { x with verdictSent := true })
    if s.isDomainHead then s.takeVerdict r else s.send (.verdictReport s.domainHead r)

/-- The job's verdict arrives (R177 to R179; phase 0x006). -/
def verdictIn (s : State) (v a : Nat) (vd : Verdict) : State :=
  if !s.alive || s.devState != DS.running || !s.current v a || s.job.rollbackAt.isSome || ((s.vint v).bind (·.verdict)).isSome then s
  else
    let held := (s.vint v).bind (·.recorded)
    let s := (s.phase 6).onVint v (fun x => { x with verdict := some vd, recorded := some (held.getD vd) })
    let s := if held.any (fun r => !sameVerdict r vd) then s.failBit stepCheckStatus_divergent else s
    let s := if vd.skip && !vd.fail then (vd.tensors.filter s.skipTensor).foldl (fun s t => s.ledger 0 3 0 0xff t v a) s else s
    if vd.fail then s.failFor stepCheckStatus_numeric Err.numeric
    else if vd.skip then s.event Err.ok 5 v Src.step false
    else s

/-! ## The check at the heads (R307, R312, R313) -/

/-- The reports of every awaited device as one: bits, codes, minorities together. -/
def joined (s : State) : CheckReport :=
  let rs := s.job.checkReps
  { vintage := s.openVintage, attempt := s.openAttempt, device := s.devId, bits := rs.foldl (fun m r => m ||| r.bits) 0,
    err := ((rs.find? (fun r => r.err != 0)).map (·.err)).getD 0, minority := rs.flatMap (·.minority),
    uncounted := (rs.filter (fun r => r.bits != 0)).all (·.uncounted), grad := 0, shard := 0, decant := false,
    ckptDone := rs.all (·.ckptDone), image := s.imageDigest, objects := rs.flatMap (·.objects) }

/-- Members in the minority: fenced at their second attempt of the vintage, remembered at the first (R313). -/
def noteMinority (s : State) (ids : List Nat) : State :=
  ids.foldl (fun s i =>
    if s.job.minority.contains (i, s.openVintage) then s.askFence i FR.minority
    else s.onJob (fun j => { j with minority := (i, s.openVintage) :: j.minority })) s

/-- The step that exhausted the stash failed for a cause that leads to replay as well, and for none that does not (R208). -/
def replaysFirst (s : State) (r : CheckReport) : Bool :=
  r.err == Err.stashFull && s.job.checkReps.all (fun x => x.err == 0 || x.err == Err.stashFull) &&
    !r.bits.testBit (stepCheckStatus_numeric.lo - 2) && r.bits != reportBit stepCheckStatus_stash

/-- The code for which a failed step pauses the job, or 0 for a replay (R208, R305, R312). -/
def stopCode (s : State) (r : CheckReport) : Nat :=
  let n := ((s.vint s.openVintage).map (·.counted)).getD 0
  if r.err ≠ 0 ∧ s.replaysFirst r = false then r.err
  else if r.uncounted then 0
  else if getF s.step.ctl stepCtl_replayMax < n + 1 then (if r.bits &&& digestBits = 0 then Err.timeout else Err.digest)
  else 0

/-- COMMIT or ROLLBACK goes out (R307, R308). -/
def decideCheck (s : State) (pass : Bool) : State :=
  let r := s.joined
  let v := s.openVintage
  if pass then
    let last := ((s.image.map (·.step)).map (fun p => p.last == v)).getD false
    s.send (.commit v (flagF s.step.ctl stepCtl_pauseReq || last))
  else
    let stop := s.stopCode { r with uncounted := r.uncounted && r.bits != 0 }
    let s := if r.uncounted && r.bits != 0 then s else s.onVint v (fun x => { x with counted := x.counted + 1 })
    (s.noteMinority r.minority).multicastRollback stop

/-- Every report is held at the job head: with the duty the host is asked first (R409). -/
def closeCheck (s : State) : State :=
  let r := s.joined
  let s := s.onJob (fun j => { j with ckpt := j.ckpt.map (fun c =>
    { c with doneDevs := (c.doneDevs ++ (j.checkReps.filter (·.ckptDone)).map (·.device)).eraseDups,
             objects := (c.objects ++ j.checkReps.flatMap (·.objects)).eraseDups }) })
  if s.dutyBit 3 then s.ask 3 s.openVintage (bit (r.bits == 0)) [s.openVintage, r.bits] else s.decideCheck (r.bits == 0)

/-- A check report at a head: counted once per vintage and attempt (R306). A device under another image does not join
the boundary, which the head holds, with an EVENT of ERR_FORMAT (R266). -/
def takeCheck (s : State) (r : CheckReport) : State :=
  if s.current r.vintage r.attempt && s.awaited.contains r.device && r.image != s.imageDigest then
    s.event Err.format 0 r.device Src.step false
  else if !s.current r.vintage r.attempt || !s.awaited.contains r.device || s.job.checkReps.any (fun x => x.device == r.device) then s
  else
    let s := s.onJob (fun j => { j with
      checkReps := j.checkReps ++ [r]
      firstRepAt := if j.firstRepAt.isNone then some s.now else j.firstRepAt })
    if s.awaited.all (fun i => s.job.checkReps.any (fun x => x.device == i)) then
      (if s.isJobHead then s.closeCheck else s.send (.check s.jobHead s.joined))
    else s

/-- A report of decanting, counted by the job head (R311). -/
def takeDecant (s : State) (id : Nat) : State :=
  s.onJob (fun j => { j with decanted := if j.decanted.contains id then j.decanted else id :: j.decanted })

/-- STEP_CHECK_STATUS shows a check: its vintage, its bits and its result. -/
def showCheck (s : State) (bits result : Nat) : State :=
  let w := BitVec.ofNat 64 (s.openVintage % 2 ^ 32 * 2 ^ 32 + s.openAttempt % 16 * 2 ^ 24 + bits % 2 ^ 13 * 4 + result)
  { s with step := { s.step with check := w } }

/-- This device's report is formed: shown, and sent to its domain head (phase 0x009). -/
def sendCheck (s : State) (r : CheckReport) : State :=
  let s := (s.showCheck r.bits (if r.bits = 0 then 1 else 2)).onJob (fun j => { j with ownReport := none })
  let s := (s.phase 9).onVint r.vintage (fun x => { x with checked := true })
  if s.isDomainHead then s.takeCheck r else s.send (.check s.domainHead r)

/-- A REPLICA head that holds the digests of every healthy member compares them, and reports (R305, R313). -/
def compareDigests (s : State) : State :=
  match s.job.ownReport with
  | none => s
  | some r =>
    let ids := s.replicaIds.filter s.healthy
    if !ids.all (fun i => s.job.digests.any (fun d => d.device == i)) then s
    else
      let ds := s.job.digests.filter (fun d => ids.contains d.device)
      let same (f : CheckReport → BitVec 384) : Bool := ds.all (fun d => f d == f r)
      let b := (if same (·.grad) then 0 else reportBit stepCheckStatus_digGrad) ||| (if same (·.shard) then 0 else reportBit stepCheckStatus_digState)
      let out := match majority (ds.map (fun d => (d.grad, d.shard))) with
        | some m => if 3 ≤ ds.length then (ds.filter (fun d => (d.grad, d.shard) != m)).map (·.device) else []
        | none => []
      let b := if out.contains s.devId then b ||| reportBit stepCheckStatus_minority else b
      s.sendCheck { r with bits := r.bits ||| b, minority := out }

/-- Digests of a member arrive at the REPLICA head. -/
def takeDigest (s : State) (r : CheckReport) : State :=
  if !s.current r.vintage r.attempt || s.replicaHead != some s.devId || !s.replicaIds.contains r.device ||
      s.job.digests.any (fun d => d.device == r.device) then s
  else (s.onJob (fun j => { j with digests := j.digests ++ [r] })).compareDigests

/-! ## The check on a device (R305) -/

/-- What this device's own conditions give: bits, code. -/
def ownCheck (s : State) (grad shard : BitVec 384) : CheckReport :=
  { vintage := s.openVintage, attempt := s.openAttempt, device := s.devId, bits := s.job.bits / 4, err := s.job.failErr, minority := [],
    uncounted := s.job.uncounted && s.job.bits == 2 ^ stepCheckStatus_tile.lo, grad := grad, shard := shard, decant := false,
    ckptDone := !(s.job.ckpt.map (fun c => c.streams.any (·.failed))).getD false, image := s.imageDigest
    objects := s.ownObjects }

/-- Recorded X values that differ from those at hand, in a replay (R162). -/
def scalesDiffer (s : State) (x : Vint) : Bool := x.attempt != 0 && !x.xs.isEmpty && x.xs != s.scalesNow

/-- The report is formed; with a REPLICA group of more than one member its digests go to that group's head. -/
def reportCheck (s : State) (grad shard : BitVec 384) : State :=
  let s := match s.vint s.openVintage with
    | some x => if s.scalesDiffer x then s.failBit stepCheckStatus_divergent else s
    | none => s
  let r := s.ownCheck grad shard
  if (s.replicaIds.filter s.healthy).length ≤ 1 then s.sendCheck r
  else if s.replicaHead = some s.devId then
    ((s.showCheck r.bits 3).onJob (fun j => { j with ownReport := some r, digests := j.digests ++ [r] })).compareDigests
  else
    let h := s.replicaHead
    if s.domainHead = h then s.sendCheck r else (s.send (.check h r)).sendCheck { r with grad := 0, shard := 0 }

/-- The wait of the step check ends: a stall with its cause and its duration (R40, R317, R356). -/
def endCheckWait (s : State) : State :=
  match s.job.checkWait with
  | none => s
  | some (code, since) =>
    (s.ledger 0 2 code 0xff (min ((s.now - since) / usTicks) 0xffffffff) s.openVintage s.openAttempt).onJob
      (fun j => { j with checkWait := none })

/-- The step check waits for a cause. -/
def startCheckWait (s : State) (code : Nat) : State :=
  if (s.job.checkWait.map (·.1)) = some code then s
  else
    let s := s.endCheckWait
    s.onJob (fun j => { j with checkWait := some (code, s.now) })

/-- The step check, once the update is complete: it waits for racking and for checkpoint streams, which the ledger records as a
stall (R40, R303, R356); the histories take the step's entries before its report (R161). A device that has declared itself
failed joins no boundary (R287). -/
def stepCheck (s : State) (grad shard : BitVec 384) : State :=
  match s.vint s.openVintage with
  | none => s
  | some x =>
    if !s.alive || s.devState != DS.running || s.job.rollbackAt.isSome || x.checked || x.verdict.isNone || s.job.ownReport.isSome ||
        s.job.evaluating || !s.updated || s.fd.selfFailed.isSome then s
    else if s.job.bits = 0 && (!s.acked || s.streaming) then
      (s.startCheckWait (if s.acked then stallStream else stallRacking)).showCheck (if s.acked then 0 else reportBit stepCheckStatus_rack) 3
    else
      let s := s.endCheckWait
      (if s.job.bits = 0 then s.writeHist (x.verdict.getD noVerdict) else s).reportCheck grad shard

/-- A failing report sent at once, without the step's end (R439, R445). -/
def failingReport (s : State) : State :=
  match s.vint s.openVintage with
  | none => s
  | some x =>
    let s := (s.failBit stepCheckStatus_tile).onJob (fun j => { j with uncounted := true })
    if s.devState != DS.running || x.checked || s.job.rollbackAt.isSome then s else s.sendCheck (s.ownCheck 0 0)

/-- A check report arrives at a head: of decanting, with digests, or of a step. -/
def checkReport (s : State) (r : CheckReport) : State :=
  if !s.alive || !s.inJob then s
  else if r.decant then (if s.isJobHead && s.current r.vintage r.attempt then s.takeDecant r.device else s)
  else if s.devState = DS.paused then
    (if s.isJobHead && r.ckptDone then s.onJob (fun j => { j with ckpt := j.ckpt.map (fun c =>
        { c with doneDevs := (c.doneDevs ++ [r.device]).eraseDups, objects := (c.objects ++ r.objects).eraseDups }) }) else s)
  else (s.takeDigest r).takeCheck r

/-! ## The agreement deadline (R306, R445) -/

/-- IDs whose reports are missing: of the check once verdicts are complete, else of the verdict. -/
def missingIds (s : State) : List Nat :=
  let got := if s.awaited.all (fun i => s.job.verdictReps.any (fun x => x.device == i)) then s.job.checkReps.map (·.device)
    else s.job.verdictReps.map (·.device)
  s.awaited.filter (fun i => !got.contains i)

/-- Device-level hang handling of a device: HANG from the job head (R445). -/
def startHang (s : State) (id v a : Nat) : State := s.send (.hang id v a)

def agreeTicks (s : State) : Nat := getF s.step.ctl stepCtl_agreeMs * msTicks

def agreementDeadline (s : State) (v a : Nat) : State :=
  if !s.alive || s.devState != DS.running || !s.current v a || !(s.pendingOn 3).isEmpty then s
  else match s.job.firstRepAt, s.job.askedAt with
    | none, _ => s
    | some t, none =>
      if s.now < t + s.agreeTicks || s.missingIds.isEmpty then s
      else
        let m := s.missingIds
        let s := (s.errRecord Err.timeout Src.step).onJob (fun j => { j with askedAt := some s.now })
        if s.isJobHead then m.foldl (fun s i => s.startHang i v a) s else s.send (.missing m)
    | some _, some t =>
      if s.now < t + 2 * s.agreeTicks || !s.isJobHead then s
      else s.missingIds.foldl (fun s i => s.askFence i FR.jobRequest) s

/-! ## Decanting reports (R311, R439) -/

/-- This device reports its decanting, once no reset runs and no scope waits or is held for one (R439, R442). -/
def reportDecant (s : State) : State :=
  if !s.rst.active.isEmpty || !s.rst.held.isEmpty then s
  else if s.isJobHead then s.takeDecant s.devId
  else s.send (.check s.jobHead
    { vintage := s.openVintage, attempt := s.openAttempt, device := s.devId, bits := 0, err := 0, minority := [], uncounted := false,
      grad := 0, shard := 0, decant := true, ckptDone := false, image := s.imageDigest, objects := [] })

end State

/-- VERDICT_REPORT (R175, R176). -/
def execVerdictReport (s : State) : Host.Outcome State Fault Refusal := .next s.verdictReport

/-- VERDICT_REPORT_RECEIVED (R176, R306). -/
def execVerdictReportReceived (r : VerdictRep) (s : State) : Host.Outcome State Fault Refusal :=
  .next (if s.alive && s.devState == DS.running then s.takeVerdict r else s)

/-- VERDICT (R177 to R179). -/
def execVerdict (vintage attempt : Nat) (v : Verdict) (s : State) : Host.Outcome State Fault Refusal :=
  .next (s.verdictIn vintage attempt v)

/-- STEP_CHECK (R305). -/
def execStepCheck (grad shard : BitVec 384) (s : State) : Host.Outcome State Fault Refusal := .next (s.stepCheck grad shard)

/-- CHECK_REPORT (R307, R311, R313). -/
def execCheckReport (r : CheckReport) (s : State) : Host.Outcome State Fault Refusal := .next (s.checkReport r)

/-- AGREEMENT_DEADLINE (R306). -/
def execAgreementDeadline (vintage attempt : Nat) (s : State) : Host.Outcome State Fault Refusal :=
  .next (s.agreementDeadline vintage attempt)

end Sys2Proof.Machine
end

