-- ==== Sys2Proof/Machine/StepJob.lean ====
section
/-!
DEFINITION. The commands of the step protocol on a device: intake, commit, evaluation, rollback and replay, racking,
the ledger (R300 to R318, R404), and the checkpoint streams (R354 to R358).
-/
namespace Sys2Proof.Machine

/-! ## Intake (R300, R404, R279) -/

/-- Bytes of a lot that have arrived, by offset. -/
def lotBytesOf (v : Vint) (lot : Nat) : List Host.Cell := ((v.lots.find? (fun l => l.1 == lot)).map (·.2)).getD []

/-- Bytes put at rising offsets: an offset is listed once its byte has arrived, whatever its value. -/
def putBytes (m : List Host.Cell) (a : Nat) : List Byte → List Host.Cell
  | [] => m
  | b :: bs => putBytes (Sparse.put m a b) (a + 1) bs

/-- The bytes would leave a complete lot as it is. -/
def sameBytes (m : List Host.Cell) (a : Nat) : List Byte → Bool
  | [] => true
  | b :: bs => m.contains (a, b) && sameBytes m (a + 1) bs

namespace State

def stepProg (s : State) : Option StepProg := s.image.map (·.step)

/-- Bytes of a data lot enter the cellar; a lot is complete when all its bytes have arrived (R404). -/
def intake (s : State) (v lot off : Nat) (bs : List Byte) : State × Option Ans :=
  let size := (s.stepProg.map (·.lotBytes)).getD 0
  let held := ((s.vint v).map (fun x => lotBytesOf x lot)).getD []
  let complete := ((s.vint v).map (fun x => x.done.contains lot)).getD false
  if bs.isEmpty then (s, some .ok)
  else if complete then (s, some (if sameBytes held off bs then .ok else .err Err.digest))
  else
    let s := s.openUpTo v
    let m := putBytes held off bs
    (s.onVint v (fun x => { x with
      lots := (lot, m) :: x.lots.filter (fun l => l.1 != lot)
      done := if m.length = size then lot :: x.done else x.done }), some .ok)

/-- Inputs of an evaluation stay in EVAL until it ends (R279). -/
def evalIntake (s : State) (lot off : Nat) (bs : List Byte) : State × Option Ans :=
  (s.onJob (fun j => { j with evalBytes := putBytes j.evalBytes (lot * 2 ^ 32 + off) bs }), some .ok)

/-- Length, range and window of a DATA_FEED, then its envelope (R397, R401, R404, R425); the value that is
no vintage is out of range (R20). -/
def feedCheck (s : State) (h : DctHdr) (v lot off n : Nat) (env : Envelope) : Nat :=
  let p := s.stepProg
  if (p.map (·.lotBytes)).getD 0 < off + n then Err.length
  else if (p.map (·.lots)).getD 0 ≤ lot then Err.range
  else if !h.evalFlag && v ≤ s.committedV && s.committedV != noVintage then Err.range
  else if !h.evalFlag && s.committedV + 2 < v then Err.busy
  else if !h.evalFlag && noVintage ≤ v then Err.range
  else s.envelopeErr env

def dataFeed (s : State) (h : DctHdr) (v lot off : Nat) (bs : List Byte) (env : Envelope) : State :=
  s.dct h (.dataFeed h v lot off bs env) .opened s.inJob (s.feedCheck h v lot off bs.length env) Src.dct fun s0 =>
    let s := s0.ensureActive
    if h.evalFlag then s.evalIntake lot off bs else s.intake v lot off bs

/-! ## Commit (R307, R308) -/

/-- Swaps of lanes that fell due, at the boundary; with the duty the host is asked for each (R381, R409). -/
def boundaryLanes (s : State) : State :=
  if s.asks 5 then
    (List.range 36).foldl (fun s n =>
      match (s.port n).swapDue with
      | some k => s.ask 5 n k [n, k]
      | none => s) s
  else s.swapLanes

/-- What falls due at a boundary beside the commit: keys, lanes, spares, a checkpoint, an evaluation. -/
def boundaryDue (s : State) (v : Nat) : State :=
  let s := s.applyKeys.boundaryLanes.admitSpares
  let s := s.onJob (fun j => { j with ckpt := j.ckpt.bind (fun c => if c.streams.any (·.failed) then none else some c) })
  if s.ckptAt v then s.startCkpt v else s

/-- The commit of a vintage, in the order of R307: snapshot, cellar, VINTAGE_COMMITTED and scales, racking, record. -/
def commitVintage (s : State) (v : Nat) : State :=
  let x := s.vint v
  let vd := (x.bind (·.verdict)).getD noVerdict
  let s := s.rotateSnapshot
  let s := (s.onJob (fun j => { j with uncommitted := j.uncommitted.filter (fun y => y.v != v), minority := [], collExpired := [] })).refreshOpen
  let s := { s with step := { s.step with committed := setF s.step.committed vintageCommitted_vintage v } }
  let s := (s.advanceScales vd).startRacking
  let s := s.ledger 0 0 10 0xff 0 v ((x.map (·.attempt)).getD 0)
  { s.clearRound with rst := { s.rst with levels := [] } }

/-- A tile of the device awaits its graft (R348). -/
def graftsDue (s : State) : Bool := s.tiles.any (fun x => s.graftDue ⟨x.1 / 256, x.1 % 256⟩)

/-- The commit and what falls due beside it. What has failed since the device's passing report fails the next step's check (R42,
log 83). -/
def takeCommit (s : State) (v : Nat) (pause : Bool) : State :=
  let j := s.job
  let s := (s.commitVintage v).onJob (fun k => { k with bits := j.bits, failErr := j.failErr, uncounted := j.uncounted })
  let s := ((s.allTiles (boundaryTile false)).event Err.ok 0 v Src.step false).boundaryDue v
  if pause then s.pauseJob
  else
    let s := s.beginStep
    if s.evalAt v then s.startEval 0 else s

/-- COMMIT(N+1) arrives (R307). A device whose S(N) is not acknowledged has sent no passing report, so none
arrives for it. It is not taken while a tile is being remapped: it waits for the graft (R42, log 83). -/
def commitIn (s : State) (v : Nat) (pause : Bool) : State :=
  if !s.alive || s.devState != DS.running || (s.vint v).isNone || v != s.committedV + 1 || !s.acked || s.job.rollbackAt.isSome then s
  else if s.graftsDue then s.onJob (fun j => { j with heldCommit := some (v, pause) })
  else s.takeCommit v pause

/-- A tile graft; a COMMIT that waited for the last one is taken after it (R42, R348). -/
def tileGraft (s : State) (tl : TileRef) (quickFail : List Nat) : State :=
  if s.alive && s.graftDue tl then
    let s := s.graftTile tl quickFail
    match s.job.heldCommit with
    | some (v, pause) =>
      if s.graftsDue then s else (s.onJob (fun j => { j with heldCommit := none })).commitIn v pause
    | none => s
  else s

/-! ## Evaluation's end (R278, R279) -/

/-- Every tile takes from the cellar the FULL frames of its place in the schedule (R309). -/
def serveAll (s : State) : State := s.tiles.foldl (fun s x => s.serveFrames ⟨x.1 / 256, x.1 % 256⟩) s

def evaluationEnd (s : State) : State :=
  if !s.alive || !s.job.evaluating then s
  else
    let v := s.job.evalV
    let a := s.job.evalAttempt
    let s := s.onJob (fun j => { j with evaluating := false, evalBytes := [] })
    (((s.allTiles (fun t => { boundaryTile false t with lees := [] })).serveAll).ledger 0 0 16 0xff 0 v a).event Err.ok 9 v Src.step false

/-! ## Rollback and replay (R304, R311, R312) -/

/-- Bytes of a region type leave every partition. -/
def clearRegions (s : State) (ty : RegionTy) : State :=
  (List.range 8).foldl (fun s p =>
    match s.regionTy p ty with
    | none => s
    | some r => { s with mem := Memory.clear s.mem (partBase p + r.base) r.len }) s

/-- A tile at a rollback: stopped, transient contents and stash cleared, scales those of S(N); a tile that awaits a
graft stays as it is. -/
def rolledTile (graft : Bool) (t : Tile) : Tile :=
  let u := { dropTransient (clearTile (haltTile t)) with lees := [], slots := t.slotsB }
  if graft then { u with status := setF u.status tileStatus_tileState TS.faulted } else u

/-- A first store fault of a tile: its site is tested at the rollback (R48). -/
def testFaulted (s : State) : State :=
  s.tiles.foldl (fun s x =>
    let p := x.1 / 256
    let t := x.2
    if getF t.status tileStatus_faultCode = 3 ∧ t.ueInJob = 1 ∧ getF t.status tileStatus_tileState = TS.faulted then
      let k := getF t.map tileMap_site
      (s.setSite p k { s.site p k with mode := 1, running := true }).tileSt ⟨p, x.1 % 256⟩ TS.bist
    else s) s

/-- Partitions whose racking mismatched too often restart from page 0 (R302). -/
def restartRacking (s : State) : State :=
  let m := getF s.step.ctl stepCtl_replayMax
  let ps := (s.job.rackMismatch.filter (fun x => decide (m < x.2))).map (·.1)
  let s := s.onJob (fun j => { j with rackMismatch := j.rackMismatch.filter (fun x => decide (x.2 ≤ m)) })
  ps.foldl (fun s p => (s.unrack p).rackPart s.buddies p) s

/-- Every uncommitted vintage's attempt rises: the oldest to `a`, a later one by 1 (R311). -/
def raiseAttempts (s : State) (a : Nat) : State :=
  let raise (x : Vint × Nat) : Vint :=
    { x.1 with attempt := (if x.2 = 0 then a else x.1.attempt + 1), verdict := none, absorbed := [], checked := false, verdictSent := false }
  (s.onJob (fun j => { j with uncommitted := j.uncommitted.zipIdx.map raise })).refreshOpen

/-- ROLLBACK arrives (R311). `stop`: the code for which the job pauses instead of a replay. -/
def rollbackIn (s : State) (v a stop : Nat) : State :=
  if !s.alive || s.devState != DS.running || v != s.openVintage || v == noVintage || a ≤ s.openAttempt || s.job.heldCommit.isSome then s
  else
    let s := s.endCheckWait
    let wasEval := s.job.evaluating
    let due := (s.tiles.filter (fun x => s.graftDue ⟨x.1 / 256, x.1 % 256⟩)).map (·.1)
    let s := s.testFaulted.haltStages
    let tested := (s.tiles.filter (fun x => getF x.2.status tileStatus_tileState == TS.bist)).map (·.1)
    let roll (x : Nat × Tile) : Nat × Tile := (x.1, if tested.contains x.1 then x.2 else rolledTile (due.contains x.1) x.2)
    let s : State := { s with tiles := (s.tiles.map roll).filter (fun x => x.2 != Tile.reset) }
    let s := (s.clearRegions .stash).clearRegions .scratch
    let s := if wasEval then (s.clearRegions .eval).onJob (fun j => { j with evalDue := true, evalAttempt := j.evalAttempt + 1 }) else s
    let s := (s.decantPages.raiseAttempts a).restartRacking
    let s := s.phase 13
    let s := (s.clearRound).onJob (fun j => { j with decanted := [], rollbackAt := some s.now })
    if stop ≠ 0 then
      let cls := if stop = Err.numeric ∨ stop = Err.stashFull then 5 else 0
      ((s.onJob (fun j => { j with rollbackAt := none })).enterPaused).event stop cls v Src.step false
    else (s.event Err.ok 0 v Src.step false).reportDecant

/-- The replay starts once every device has reported its decanting (phase 0x00E); an evaluation that was cut off
runs again from its first lot (R279). -/
def replayStart (s : State) : State :=
  let all := (s.jobIds.filter s.healthy).all (fun i => s.job.decanted.contains i)
  if !s.alive || s.devState != DS.running || s.job.rollbackAt.isNone || (s.isJobHead && !all) then s
  else
    let s := (s.onJob (fun j => { j with rollbackAt := none })).phase 14
    let s := (s.allTiles (fun t => { t with seq := firstSeq t false })).serveAll
    if s.job.evalDue then s.startEval s.job.evalAttempt else s

/-! ## Racking at the buddy, and its answers (R302 to R304) -/

/-- STATE pages of a device's partition, as DEVICES gives them (R273). -/
def statePages (s : State) (id p : Nat) : Nat := ((s.entry id).map (fun e => e.stateLen.getD p 0)).getD 0

/-- Where a buddy's mirror lies: the first buddy's pages come first (log 34). -/
def mirrorAt (s : State) (buddy p : Nat) : Option Nat :=
  match s.regionTy p .mirror with
  | none => none
  | some r =>
    if flagF s.mir.buddyId buddyId_b1Valid && getF s.mir.buddyId buddyId_buddy1 == buddy then some (partBase p + r.base)
    else if flagF s.mir.buddyId buddyId_b2Valid && getF s.mir.buddyId buddyId_buddy2 == buddy then
      some (partBase p + r.base + s.statePages (getF s.mir.buddyId buddyId_buddy1) p * pageBytes)
    else none

def inField (s : State) (buddy : Nat) : Field :=
  if flagF s.mir.buddyId buddyId_b1Valid && getF s.mir.buddyId buddyId_buddy1 == buddy then rackStatus_inB1 else rackStatus_inB2

def ackField (s : State) (buddy : Nat) : Field :=
  if flagF s.mir.buddyId buddyId_b1Valid && getF s.mir.buddyId buddyId_buddy1 == buddy then rackStatus_ackB1 else rackStatus_ackB2

/-- Set or clear partition p's bit of a byte of RACK_STATUS. -/
def rackBit (s : State) (f : Field) (p : Nat) (on : Bool) : State :=
  let m := getF s.mir.rackStatus f
  let m' := if on then m ||| 2 ^ p else if m.testBit p then m - 2 ^ p else m
  { s with mir := { s.mir with rackStatus := setF s.mir.rackStatus f m' } }

def rackMiss (s : State) : State :=
  { s with mir := { s.mir with rackStatus := bumpF s.mir.rackStatus rackStatus_mismatches 1 } }

/-- A page of a buddy's S(N) is written in place. -/
def rackPageIn (s : State) (buddy p page : Nat) (bs : List Byte) : State :=
  if !s.alive || s.partFenced p || s.statePages buddy p ≤ page then s
  else match s.mirrorAt buddy p with
    | none => s
    | some a => ({ s with mem := Memory.writeN s.mem (a + page * pageBytes) (bs.take pageBytes) }).rackBit (s.inField buddy) p false

/-- The sender's digest after the last page: a match is acknowledged (R302). -/
def rackDigestIn (s : State) (buddy p v : Nat) (d : BitVec 384) : State :=
  if !s.alive || s.partFenced p then s
  else match s.mirrorAt buddy p with
    | none => s
    | some a =>
      if Config.sha384 (Memory.readN s.mem a (s.statePages buddy p * pageBytes)) = d then
        (s.rackBit (s.inField buddy) p true).send (.rackAck buddy p v)
      else (s.rackBit (s.inField buddy) p false).rackMiss

/-- RACK_ACK, or its being withheld (`ok` false): the partition is sent again, and beyond replay_max mismatches of
one vintage the next check fails (R302). -/
def rackAckIn (s : State) (buddy p v : Nat) (ok : Bool) : State :=
  if !s.alive || v != s.committedV || !s.buddies.contains buddy || (getF s.mir.rackStatus (s.ackField buddy)).testBit p then s
  else if ok then (s.rackBit (s.ackField buddy) p true).settleRack
  else
    let n := Sparse.get 0 s.job.rackMismatch p + 1
    let s := (s.rackMiss).onJob (fun j => { j with rackMismatch := Sparse.put j.rackMismatch p n })
    if getF s.step.ctl stepCtl_replayMax < n then (s.failBit stepCheckStatus_rackDigest).errRecord Err.digest Src.step
    else (s.unrack p).rackPart s.buddies p

end State

/-! ## Ledger (R317, R318) -/

/-- The four words of a record. -/
def ledgerWords (r : LedgerRec) : List Word :=
  [BitVec.ofNat 64 r.ts,
   BitVec.ofNat 64 (r.device * 2 ^ 48 + r.seq % 2 ^ 48),
   BitVec.ofNat 64 (r.vintage * 2 ^ 16 + r.attempt % 2 ^ 16),
   BitVec.ofNat 64 (r.cls % 16 * 2 ^ 60 + r.code % 4096 * 2 ^ 48 + r.part % 8 * 2 ^ 45 + r.tile % 256 * 2 ^ 37
     + r.epoch % 32 * 2 ^ 32 + r.arg % 2 ^ 32)]

def zeroWords : List Word := [0, 0, 0, 0]

def slotWords (g : Ring) (i : Nat) : List Word := ((g.recs.find? (fun x => x.1 == i)).map (fun x => ledgerWords x.2)).getD zeroWords

namespace State

def ledgerCheck (s : State) (p n first : Nat) : Nat :=
  if n = 0 then Err.ok
  else if !s.fitsReply (32 * n) then Err.length
  else if 7 < p ∨ ringSlots ≤ first then Err.range
  else if ringSlots < first + n then Err.length
  else Err.ok

def ledgerPull (s : State) (h : DctHdr) (p n first : Nat) : State :=
  s.dct h (.ledgerPull h p n first) .opened true (s.ledgerCheck p n first) Src.dct fun s =>
    let g := (s.part p).ledger
    let g' : Ring := { g with undelivered := g.undelivered.filter (fun i => decide (i < first ∨ first + n ≤ i)) }
    (s.onPart p (fun a => { a with ledger := g' }),
      some { status := Err.ok, words := (List.range n).flatMap (fun i => slotWords g (first + i)), bytes := [] })

/-! ## Checkpoint streams (R355 to R358) -/

def onStream (s : State) (p : Nat) (f : Stream2 → Stream2) : State :=
  s.onJob (fun j => { j with ckpt := j.ckpt.map (fun c => { c with streams := c.streams.map (fun x => if x.p = p then f x else x) }) })

/-- The writer's outcome once every object has one (phase 0x012); in PAUSED it goes to the job head at once. -/
def ckptOutcome (s : State) : State :=
  match s.job.ckpt with
  | none => s
  | some c =>
    if s.streaming then s.nextObject
    else
      let ok := !c.streams.any (·.failed)
      let s := s.ledger 0 0 18 0xff (bit ok) c.v 0
      if s.devState = DS.paused && ok then
        (if s.isJobHead then s.onJob (fun j => { j with ckpt := some { c with doneDevs := (s.devId :: c.doneDevs).eraseDups } })
          else s.send (.check s.jobHead
            { vintage := c.v, attempt := 0, device := s.devId, bits := 0, err := 0, minority := [], uncounted := false, grad := 0,
              shard := 0, decant := false, ckptDone := true, image := s.imageDigest, objects := s.ownObjects }))
      else s

def streamOf (s : State) (p : Nat) : Option Stream2 :=
  s.job.ckpt.bind (fun c => c.streams.find? (fun x => x.p == p && !x.done && !x.failed))

/-- An endpoint has acknowledged the object whose digest it names: the next begins (R351, R355). -/
def objectAck (s : State) (p : Nat) (d : BitVec 384) : State :=
  if !s.alive || (s.streamOf p).isNone || (s.job.ckpt.map (fun c => s.objDigest c.v p)) != some d then s
  else (s.onStream p (fun x => { x with done := true })).ckptOutcome

/-- No acknowledgement within 50 ms, or a refusal: the object restarts on the next endpoint, or fails when all have
refused it. -/
def objectTimeout (s : State) (p : Nat) : State :=
  let e := (s.ckptItem.map (·.endpoints)).getD 0
  match s.streamOf p with
  | none => s
  | some x =>
    if !s.alive then s
    else if e ≤ x.refused + 1 then (s.onStream p (fun x => { x with refused := x.refused + 1, failed := true })).ckptOutcome
    else
      let y : Stream2 := { x with refused := x.refused + 1, endpoint := (x.endpoint + 1) % e }
      (s.onStream p (fun _ => y)).sendObject ((s.job.ckpt.map (·.v)).getD 0) y

/-- The deadline has passed since the commit of v: objects without an acknowledgement fail. -/
def ckptDeadline (s : State) : State :=
  match s.job.ckpt with
  | none => s
  | some c =>
    if !s.alive || !s.streaming || decide (s.now < c.startAt + (s.ckptItem.map (·.deadlineMs)).getD 0 * msTicks) then s
    else (s.onJob (fun j => { j with ckpt := some { c with streams := c.streams.map (fun x =>
      if x.done then x else { x with failed := true }) } })).ckptOutcome

/-- Every writer of the job is done: by its own report, or by the aggregate of its domain's head. -/
def allWritten (s : State) (c : Ckpt) : Bool :=
  let heads := s.domainHeads
  (s.jobIds.filter s.healthy).all (fun i => c.doneDevs.contains i ||
    heads.any (fun h => c.doneDevs.contains h && (s.entry h).map (·.domain) == (s.entry i).map (·.domain) && h != s.devId))

/-- The digest of the object of partition p of shard k. -/
def digestIn (os : List (Nat × Nat × BitVec 384)) (k p : Nat) : BitVec 384 :=
  match os.find? (fun o => o.1 == k && o.2.1 == p) with
  | some (_, _, d) => d
  | none => 0

/-- The shard digests of a list of objects: SHA-384 of a shard's eight object digests in partition order (R351). -/
def shardDigests (os : List (Nat × Nat × BitVec 384)) : List (Nat × BitVec 384) :=
  ((os.map (fun o => o.1)).eraseDups).map (fun k =>
    (k, Config.sha384 ((List.range 8).flatMap (fun p => Memory.bytesLE (digestIn os k p).toNat 48))))

/-- Scale state of the tensors, as the tensor table names it (R360). -/
def tensorTable (s : State) : List TensorState :=
  ((s.tiles.flatMap (fun t => (t.2.slotsB.map (·.2)).filter (·.valid))).map (fun x =>
    ({ tensor := x.tensor, x := x.x, action := x.action, hold := x.hold, t := x.t, sinceBackoff := x.sinceBackoff,
       hist := x.hist } : TensorState))).eraseDups

/-- The manifest of a checkpoint (R173, R360). -/
def manifestOf (s : State) (c : Ckpt) : Manifest :=
  let h := s.img.cur.map (·.hdr)
  let os := (c.objects ++ s.ownObjects).eraseDups
  { job := (h.map (·.jobId)).getD 0, seed := (h.map (·.jobSeed)).getD 0, vintage := c.v, gen := s.job.gen,
    keyId := getF s.sec.slotStatus keySlotStatus_ckKeyId, sealed := (h.map (·.sealed)).getD false,
    endpoints := (s.ckptItem.map (·.endpoints)).getD 0, layout := (h.map (·.layoutDigest)).getD 0, image := s.imageDigest,
    recipes := (s.image.map (·.recipes)).getD [], objects := os, shards := shardDigests os, tensors := s.tensorTable }

/-- The manifest goes to every endpoint (R358). -/
def manifestWrite (s : State) : State :=
  match s.job.ckpt with
  | none => s
  | some c =>
    if !s.alive || !s.isJobHead || c.sent || s.streaming || c.streams.any (·.failed) || !s.allWritten c then s
    else
      let m := Msg.manifest (s.manifestOf c)
      let s := (s.sessions.filter (fun x => x.isOpen && !x.fromHost)).foldl (fun s x => s.sendTo x m false) s
      s.onJob (fun j => { j with ckpt := some { c with sent := true } })

/-- An endpoint acknowledges the manifest: a majority makes it written (phase 0x013). -/
def manifestAck (s : State) : State :=
  match s.job.ckpt with
  | none => s
  | some c =>
    let e := (s.ckptItem.map (·.endpoints)).getD 0
    if e < 2 * (c.acks + 1) then ((s.onJob (fun j => { j with ckpt := none })).ledger 0 0 19 0xff 0 c.v 0).event Err.ok 6 c.v Src.step false
    else s.onJob (fun j => { j with ckpt := some { c with acks := c.acks + 1 } })

end State

/-- DATA_FEED (R300, R404, R425). -/
def execDataFeed (h : DctHdr) (vintage lot offset : Nat) (bytes : List Byte) (env : Envelope) (s : State) :
    Host.Outcome State Fault Refusal := .next (s.dataFeed h vintage lot offset bytes env)

/-- COMMIT (R307, R308). -/
def execCommit (vintage : Nat) (pause : Bool) (s : State) : Host.Outcome State Fault Refusal := .next (s.commitIn vintage pause)

/-- TILE_GRAFT (R42, R348, R349). -/
def execTileGraft (tl : TileRef) (quickFail : List Nat) (s : State) : Host.Outcome State Fault Refusal :=
  .next (s.tileGraft tl quickFail)

/-- EVALUATION_END (R278). -/
def execEvaluationEnd (s : State) : Host.Outcome State Fault Refusal := .next s.evaluationEnd

/-- ROLLBACK (R311). -/
def execRollback (vintage attempt stop : Nat) (s : State) : Host.Outcome State Fault Refusal := .next (s.rollbackIn vintage attempt stop)

/-- REPLAY_START (R311). -/
def execReplayStart (s : State) : Host.Outcome State Fault Refusal := .next s.replayStart

/-- RACK_PAGE (R302). -/
def execRackPage (buddy p page : Nat) (bytes : List Byte) (s : State) : Host.Outcome State Fault Refusal :=
  .next (s.rackPageIn buddy p page bytes)

/-- RACK_DIGEST (R302). -/
def execRackDigest (buddy p vintage : Nat) (digest : BitVec 384) (s : State) : Host.Outcome State Fault Refusal :=
  .next (s.rackDigestIn buddy p vintage digest)

/-- RACK_ACK (R302, R303). -/
def execRackAck (buddy p vintage : Nat) (ok : Bool) (s : State) : Host.Outcome State Fault Refusal :=
  .next (s.rackAckIn buddy p vintage ok)

/-- LEDGER_PULL (R318). -/
def execLedgerPull (h : DctHdr) (part count first : Nat) (s : State) : Host.Outcome State Fault Refusal :=
  .next (s.ledgerPull h part count first)

/-- CHECKPOINT_OBJECT_ACK (R357). -/
def execCheckpointObjectAck (p : Nat) (digest : BitVec 384) (s : State) : Host.Outcome State Fault Refusal :=
  .next (s.objectAck p digest)

/-- CHECKPOINT_OBJECT_TIMEOUT (R357). -/
def execCheckpointObjectTimeout (p : Nat) (s : State) : Host.Outcome State Fault Refusal := .next (s.objectTimeout p)

/-- CHECKPOINT_DEADLINE (R357). -/
def execCheckpointDeadline (s : State) : Host.Outcome State Fault Refusal := .next s.ckptDeadline

/-- MANIFEST_WRITE (R358). -/
def execManifestWrite (s : State) : Host.Outcome State Fault Refusal := .next s.manifestWrite

end Sys2Proof.Machine
end

