-- ==== Sys2Proof/Machine/Programs.lean ====
section
/-!
DEFINITION. What the image validator finds of stage programs (R262, step 8): their encodings and paths (R269, R270,
R512), and the rules on loads, passes, write-outs, tables, spans and lees that a program's own words decide.
-/
namespace Sys2Proof.Machine

/-! ## Programs (R269, R270, R512) -/

/-- A descriptor index that is odd or too high. -/
def badIndex (d : Nat) : Bool := d % 2 == 1 || decide (4030 < d)

/-- A reserved encoding or field of an instruction word, or a descriptor index that may not be (R106, R237, R269, R270). -/
def illegalWord (w : Word) : Bool :=
  let z (hi lo : Nat) : Bool := getF w ⟨hi, lo⟩ != 0
  let d := getF w iw_desc
  match clsOf w with
  | none => true
  | some .pass =>
    decide (12 < getF w pass_array) || getF w pass_mode == 7 || (getF w pass_mode != 6 && getF w pass_op != 0) ||
      getF w pass_pattern == 3 || z 24 16 || (getF w pass_mode != 0 && getF w pass_pattern != 0) || decide (256 < getF w pass_m) || (getF w pass_array == 12 && getF w pass_pattern == 2)
  | some .load =>
    decide (1 < getF w load_target) || getF w load_pattern == 3 || (getF w load_target == 0 && getF w load_pattern != 0) ||
      z 18 12 || badIndex d
  | some .drain =>
    getF w drain_dest == 3 || z 18 12 || decide (256 < getF w drain_n) || decide (256 < getF w drain_f + getF w drain_n) ||
      (if flagF w drain_topk then d % 4 != 0 || decide (4028 < d) else badIndex d)
  | some .row => decide (5 < getF w row_op) || z 31 12 || badIndex d
  | some .vec => decide (7 < getF w vec_op) || z 33 12 || badIndex d
  | some .move => z 31 12 || badIndex d
  | some .sync => getF w sync_op == 3 || z 39 32
  | some .flow =>
    (match getF w flow_op with
      | 0 => z 43 41 || z 39 32 || (flagF w flow_flagCount && (z 31 12 || badIndex d))
      | 1 => z 43 0
      | 2 => z 43 12
      | 3 => getF w flow_source == 3 || z 40 12 || badIndex d
      | 4 => z 43 0
      | _ => true)
  | some .mark => decide (2 < getF w mark_kind) || z 31 0

/-- Words that an instruction names as its descriptor. -/
def descWords (w : Word) : List Nat :=
  let d := getF w iw_desc
  match clsOf w with
  | some .drain => if flagF w drain_topk then [d, d + 1, d + 2, d + 3] else [d, d + 1]
  | some .load => [d, d + 1]
  | some .row => [d, d + 1]
  | some .vec => [d, d + 1]
  | some .move => [d, d + 1]
  | some .flow => if getF w flow_op = 3 ∨ (getF w flow_op = 0 ∧ flagF w flow_flagCount = true) then [d, d + 1] else []
  | _ => []

/-- The descriptor of a DRAIN has its reserved bits 0, and a top-k one a cand of at most n (R269, R270). -/
def badDrainDesc (ws : List Word) (w : Word) : Bool :=
  let d := getF w iw_desc
  let d0 := ws.getD d 0
  getF d0 ⟨63, 61⟩ != 0 || decide (256 < getF d0 drd_m) || decide (256 < getF d0 drd_l0 + getF d0 drd_m) ||
    (flagF w drain_topk && (getF (ws.getD (d + 2) 0) ⟨15, 9⟩ != 0 || getF (ws.getD (d + 2) 0) ⟨63, 32⟩ != 0 || ws.getD (d + 3) 0 != 0 ||
      decide (getF w drain_n < getF (ws.getD (d + 2) 0) drd_cand)))

/-- The loop end that matches the loop begin before word i. -/
def endOf (ws : List Word) (depth i : Nat) : Nat → Option Nat
  | 0 => none
  | n + 1 =>
    let w := ws.getD i 0
    if clsOf w = some .flow ∧ getF w flow_op = 0 then endOf ws (depth + 1) (i + 1) n
    else if clsOf w = some .flow ∧ getF w flow_op = 1 then
      (match depth with
        | 0 => some i
        | k + 1 => endOf ws k (i + 1) n)
    else endOf ws depth (i + 1) n

/-- Loops left open by a branch to word `to`: every loop whose body does not hold it closes, with those inside it
(R512). Loops are (begin, end), innermost first. -/
def keptLoops (dest : Nat) : List (Nat × Nat) → List (Nat × Nat)
  | [] => []
  | l :: ls => if (l :: ls).all (fun b => decide (b.1 < dest ∧ dest ≤ b.2)) then l :: ls else keptLoops dest ls

/-- Where the sequencer can go from word i with loops `st` open, or none where R270 refuses the program. -/
def flowNext (ws : List Word) (i : Nat) (st : List (Nat × Nat)) : Option (List (Nat × List (Nat × Nat))) :=
  let w := ws.getD i 0
  if 4032 ≤ i ∨ ws.length ≤ i ∨ illegalWord w = true then none
  else if clsOf w = some .drain ∧ badDrainDesc ws w = true then none
  else if clsOf w ≠ some .flow then some [(i + 1, st)]
  else match getF w flow_op, st with
    | 0, st =>
      (match endOf ws 0 (i + 1) (4032 - (i + 1)) with
        | none => none
        | some e =>
          if 8 ≤ st.length then none
          else if flagF w flow_flagCount then some [(i + 1, (i, e) :: st), (e + 1, st)]
          else if getF w flow_count = 0 then some [(e + 1, st)]
          else some [(i + 1, (i, e) :: st)])
    | 1, [] => none
    | 1, l :: ls => some [(i + 1, ls), (l.1 + 1, l :: ls)]
    | 2, [] => none
    | 2, l :: ls => some [(i + 1, l :: ls), (getF w flow_target, keptLoops (getF w flow_target) (l :: ls))]
    | 3, st => some [(i + 1, st)]
    | _, _ => some []

/-- The points that the program's paths can reach, a refused path ending where it is refused; none where the points do
not end. -/
def flowWalk (ws : List Word) : Nat → List (Nat × List (Nat × Nat)) → List (Nat × List (Nat × Nat)) → Option (List (Nat × List (Nat × Nat)))
  | 0, _, _ => none
  | _ + 1, [], seen => some seen
  | n + 1, x :: todo, seen =>
    if seen.contains x then flowWalk ws n todo seen
    else flowWalk ws n ((flowNext ws x.1 x.2).getD [] ++ todo) (x :: seen)

/-- Points of a walk: at most 4032 words, each with at most nine depths of loops, reached from at most two others. -/
def walkFuel : Nat := 200000

/-- A program as its paths run it: the words that they come to, which word follows which, and whether R270 takes it. -/
structure Walk where
  ws : List Word
  run : List Nat
  next : List (Nat × Nat)
  legal : Bool
deriving DecidableEq, Repr

def walkOf (ws : List Word) : Walk :=
  let l := (flowWalk ws walkFuel [(0, [])] []).getD []
  let run := (l.map (·.1)).eraseDups
  { ws := ws, run := run,
    next := (l.flatMap (fun x => ((flowNext ws x.1 x.2).getD []).map (fun y => (x.1, y.1)))).eraseDups,
    legal := decide (ws.length ≤ 4096) && (flowWalk ws walkFuel [(0, [])] []).isSome && l.all (fun x => (flowNext ws x.1 x.2).isSome) &&
      !run.any ((run.flatMap (fun i => descWords (ws.getD i 0))).contains) }

def Walk.word (p : Walk) (i : Nat) : Word := p.ws.getD i 0

/-- Instructions that a program comes to. -/
def Walk.words (p : Walk) : List Word := p.run.map p.word

/-- A DRAIN that rounds has a slot that the image gives the tile (R270). -/
def drainSlots (p : Walk) (r : TileRec) : Bool :=
  p.words.all (fun w => clsOf w != some .drain || (flagF w drain_packed && !flagF w drain_topk) ||
    r.slots.any (fun x => x.1 == getF w drain_slot))

/-- The width of format code c under the entries `fs`, or none for an entry that is not valid. -/
def codeWidth (fs : List Word) (c : Nat) : Option Nat :=
  if c < 2 ∨ c = 5 then some 8 else if c = 2 ∨ c = 3 then some 6 else if c = 4 then some 4
  else if c < 8 ∨ 15 < c then none
  else (fs[c - 8]?).bind (fun w => if flagF w fmtTable_valid then some (getF w fmtTable_width) else none)

/-! ## What runs between two words -/

/-- The words that run after those of `todo`, a path ending at a word that stops it. -/
def Walk.spread (p : Walk) (stop : Nat → Bool) : Nat → List Nat → List Nat → List Nat
  | 0, _, seen => seen
  | _ + 1, [], seen => seen
  | n + 1, i :: todo, seen =>
    if seen.contains i then p.spread stop n todo seen
    else p.spread stop n ((if stop i then [] else (p.next.filter (·.1 == i)).map (·.2)) ++ todo) (i :: seen)

/-- The words that can run after word i with no stopping word between. -/
def Walk.after (p : Walk) (stop : Nat → Bool) (i : Nat) : List Nat :=
  p.spread stop walkFuel ((p.next.filter (·.1 == i)).map (·.2)) []

/-- No word j that `bad i j` forbids runs after a word i of `first` with no stopping word between. -/
def Walk.none (p : Walk) (first : Word → Bool) (stop : Nat → Nat → Bool) (bad : Nat → Nat → Bool) : Bool :=
  (p.run.filter (fun i => first (p.word i))).all (fun i => (p.after (stop i) i).all (fun j => !bad i j))

def isWait (w : Word) : Bool := clsOf w == some .sync && getF w sync_op == 2
def isStream (w : Word) : Bool := clsOf w == some .load && getF w load_target == 0
def isShadow (w : Word) : Bool := clsOf w == some .load && getF w load_target == 1
def isPass (w : Word) : Bool := clsOf w == some .pass
def isDrain (w : Word) : Bool := clsOf w == some .drain

/-- The descriptor words of an instruction. -/
def Walk.desc (p : Walk) (w : Word) (k : Nat) : Word := p.word (getF w iw_desc + k)

/-- Row mask and column mask of a mask entry (R269). -/
def Walk.rowMask (p : Walk) (e : Nat) : Nat := (p.word (4032 + e)).toNat % 2 ^ 32
def Walk.colMask (p : Walk) (e : Nat) : Nat := (p.word (4032 + e)).toNat / 2 ^ 32

/-! ## Streams and sets (R75, R81, R99) -/

/-- A LOAD's stream and the passes that it feeds (R75): the loader holds it until its next stream. -/
def Walk.feeds (p : Walk) : List (Nat × Nat) :=
  (p.run.filter (fun i => isStream (p.word i))).flatMap (fun i =>
    let w := p.word i
    ((p.after (fun j => isStream (p.word j) && getF (p.word j) load_loader == getF w load_loader) i).filter (fun j =>
      isPass (p.word j) && getF (p.word j) pass_loader == getF w load_loader && (getF w load_arrays).testBit (getF (p.word j) pass_array))).map
      (fun j => (i, j)))

/-- A shadow LOAD and the passes that run on its set (R75, R77): the pass that takes it by its swap, and those after it up to
the array's next swap. -/
def Walk.sets (p : Walk) : List (Nat × Nat) :=
  (p.run.filter (fun i => isShadow (p.word i))).flatMap (fun i =>
    (maskBits 13 (getF (p.word i) load_arrays)).flatMap (fun a =>
      let on (j : Nat) : Bool := isPass (p.word j) && getF (p.word j) pass_array == a
      let swaps (j : Nat) : Bool := on j && flagF (p.word j) pass_swap
      let takers := (p.after (fun j => swaps j || (isShadow (p.word j) && (getF (p.word j) load_arrays).testBit a)) i).filter swaps
      (takers ++ takers.flatMap (fun j => (p.after swaps j).filter (fun k => on k && !swaps k))).map (fun j => (i, j))))

/-- A pass names the format of the LOAD that feeds it (R75). -/
def Walk.fmtsOk (p : Walk) : Bool :=
  p.feeds.all (fun x => getF (p.word x.1) load_fmt == getF (p.word x.2) pass_movingFmt)

/-- A HAM pass has both operands under 8-bit entries (R99). -/
def Walk.hamOk (p : Walk) (fs : List Word) : Bool :=
  (p.feeds ++ p.sets).all (fun x => getF (p.word x.2) pass_mode != 3 || codeWidth fs (getF (p.word x.1) load_fmt) == some 8)

/-- Every set that pass j may run on is 4-bit and so is its stream: a cell holds two elements (R73). -/
def Walk.paired (p : Walk) (fs : List Word) (j : Nat) : Bool :=
  getF (p.word j) pass_mode != 3 && codeWidth fs (getF (p.word j) pass_movingFmt) == some 4 &&
    (p.sets.filter (·.2 == j)).all (fun x => codeWidth fs (getF (p.word x.1) load_fmt) == some 4)

/-- Bytes at whose multiples the elements of a LOAD of width w begin, for pass j (R81): a dense block is 4w bytes, a
half-block pass on a small array may begin at its middle, and a compressed block has the size of R239. -/
def Walk.unit (p : Walk) (fs : List Word) (w pattern j : Nat) : Nat :=
  if pattern = 1 then 2 * w
  else if pattern = 2 then w
  else if getF (p.word j) pass_array ≠ 12 ∧ getF (p.word j) pass_pattern = 0 ∧ p.paired fs j = false then 2 * w
  else 4 * w

/-- The elements of a LOAD lie at multiples of u: at each of `count` steps of its stride, or along the store rows that it
reads in column orientation (R81, log 85). -/
def Walk.aligned (p : Walk) (w : Word) (count u : Nat) : Bool :=
  getF (p.desc w 0) ldd_elem % u == 0 && (flagF w load_orient || decide (count ≤ 1) || getF (p.desc w 1) ldd_stride % u == 0)

/-- R81: the LOADs that feed a pass begin at blocks. A LOAD's scale address advances by one byte a block by the form of its
descriptor (log 10). -/
def Walk.alignOk (p : Walk) (fs : List Word) : Bool :=
  let width (i : Nat) : Nat := (codeWidth fs (getF (p.word i) load_fmt)).getD 8
  p.feeds.all (fun x => p.aligned (p.word x.1) (passM (p.word x.2)) (p.unit fs (width x.1) 0 x.2)) &&
    p.sets.all (fun x =>
      let w := p.word x.1
      p.aligned w (if p.colMask (getF w load_mask) % 2 ^ 32 / 2 = 0 then 1 else 2) (p.unit fs (width x.1) (getF w load_pattern) x.2))

/-! ## Bytes that a LOAD reads and a DRAIN writes (R94, R112, R511) -/

def rangesMeet (x y : Nat × Nat) : Bool := decide (x.1 < y.2) && decide (y.1 < x.2)

/-- Byte ranges, first and end, that LOAD i reads for pass j: the moving vectors of the pass, or the set's columns. -/
def Walk.reads (p : Walk) (fs : List Word) (i j : Nat) : List (Nat × Nat) :=
  let w := p.word i
  let wd := (codeWidth fs (getF w load_fmt)).getD 8
  let a := getF (p.word j) pass_array
  let d := arrDepth a * (if p.paired fs j then 2 else 1)
  let pat := if isShadow w then getF w load_pattern else 0
  let n := if isShadow w then positions a pat (p.paired fs j) else positions a (getF (p.word j) pass_pattern) (p.paired fs j)
  let vs := if isShadow w then maskBits (arrDepth a) (p.colMask (getF w load_mask)) else List.range (passM (p.word j))
  let e := getF (p.desc w 0) ldd_elem
  let st := getF (p.desc w 1) ldd_stride
  let bytes := if pat = 0 then (wd * n + 7) / 8 else (wd * d + 7) / 8
  if d = 0 ∨ vs = [] ∨ p.rowMask (getF w load_mask) = 0 then [] else
  (if flagF w load_orient then [(e, e + 256 * (n - 1) + (wd * (vs.foldl max 0 + 1) + 7) / 8)] else vs.map (fun v => (e + v * st, e + v * st + bytes))) ++
    (if getF (p.word j) pass_mode = 3 then [] else
      vs.map (fun v => let s := getF (p.desc w 0) ldd_scale + v * blocksOf n; (s, s + blocksOf n))) ++
    (if pat = 0 then [] else
      let mb := blocksOf n * (if pat = 1 then 4 else 2)
      vs.map (fun v => let s := getF (p.desc w 1) ldd_meta + v * mb; (s, s + mb)))

/-- The slot of a tile that the image fills with a tensor, as its recipe. -/
def recipeAt (i : Image) (r : TileRec) (slot : Nat) : Option Word :=
  (r.slots.find? (fun x => x.1 == slot)).bind (fun x => (i.tensors.find? (fun d => d.id == x.2)).map (fun d => i.recipes.getD d.kind 0))

/-- A top-k DRAIN that offers its casks as candidates (R109, R115). -/
def offers (r : TileRec) (w : Word) : Bool := isDrain w && flagF w drain_topk && getF r.topk topkCtl_k != 0

/-- A DRAIN that writes its casks out (R109, R116). -/
def writesOut (r : TileRec) (w : Word) : Bool := isDrain w && (!offers r w || flagF r.topk topkCtl_outKeep)

/-- The byte range of the row lists that a top-k DRAIN touches (R112). -/
def Walk.listRange (p : Walk) (r : TileRec) (w : Word) : List (Nat × Nat) :=
  if offers r w then
    let b := getF r.topk topkCtl_listBase * 8
    let k := 8 * getF r.topk topkCtl_k
    let r0 := getF (p.desc w 2) drd_r0
    [(b + k * r0, b + k * (r0 + getF (p.desc w 0) drd_m))]
  else []

/-- The byte range of a write-out to the store (R137, log 11). -/
def Walk.outRange (p : Walk) (i : Image) (r : TileRec) (w : Word) : List (Nat × Nat) :=
  if writesOut r w && getF w drain_dest == 0 then
    let m := getF (p.desc w 0) drd_m
    let n := getF w drain_n
    let a := getF (p.desc w 0) drd_dest
    let code := (((recipeAt i r (getF w drain_slot)).map (fun x => getF x rc_fmt)).getD 16)
    let len :=
      if flagF w drain_packed && !offers r w then 88 * n * m
      else if 16 ≤ code then m * n * (if code = 16 then 4 else if code = 19 then 6 else 2)
      else m * ((((codeWidth i.formats code).getD 8) * n + 7) / 8 + (n + 31) / 32)
    [(a, a + len)]
  else []

/-- Ranges of store words that meet. -/
def meets (xs ys : List (Nat × Nat)) : Bool :=
  xs.any (fun x => ys.any (fun y => rangesMeet (x.1 / 8, (x.2 + 7) / 8) (y.1 / 8, (y.2 + 7) / 8)))

/-- R94, R112: a shadow LOAD or the stream of a pass that follows a DRAIN with no WAIT between reads no word that the DRAIN
writes, and no top-k list lies where one writes out. -/
def Walk.racesOk (p : Walk) (i : Image) (r : TileRec) : Bool :=
  let feeds := p.feeds
  let sets := p.sets
  p.none isDrain (fun _ j => isWait (p.word j)) (fun x j =>
    let out := p.outRange i r (p.word x)
    let wr := out ++ p.listRange r (p.word x)
    (isShadow (p.word j) && (sets.filter (·.1 == j)).any (fun y => meets wr (p.reads i.formats j y.2))) ||
      (isPass (p.word j) && (feeds.filter (·.2 == j)).any (fun y => meets wr (p.reads i.formats y.1 j))) ||
      meets out (p.listRange r (p.word j)))

/-- R112, R511: no LOAD, write-out or row list of the program reaches beyond the store. -/
def Walk.boundsOk (p : Walk) (i : Image) (r : TileRec) : Bool :=
  p.words.all (fun w => (p.outRange i r w ++ p.listRange r w).all (fun x => decide (x.1 = x.2 ∨ x.2 ≤ storeBytes))) &&
    (p.feeds ++ p.sets).all (fun x => (p.reads i.formats x.1 x.2).all (fun y => decide (y.2 ≤ storeBytes)))

/-! ## Casks and lists (R103, R115, R156) -/

/-- The casks that a pass delivers to. -/
def Walk.casks (p : Walk) (w : Word) : List Nat :=
  if passM w = 0 then [] else (maskBits (arrDepth (getF w pass_array)) (p.colMask (getF w pass_mask))).map (firstCask (getF w pass_array) + ·)

def combOf (w : Word) : CaskKind := (((modeOf (getF w pass_mode)).map Mode.kind).getD .sum)

/-- The lines of cask c that a pass fed are all written out by a DRAIN. -/
def Walk.clears (p : Walk) (w : Word) (c m : Nat) : Bool :=
  isDrain w && decide (getF w drain_f ≤ c) && decide (c < getF w drain_f + getF w drain_n) && getF (p.desc w 0) drd_l0 == 0 &&
    decide (m ≤ getF (p.desc w 0) drd_m)

/-- R103: no cask takes two combinations between write-outs. -/
def Walk.combsOk (p : Walk) : Bool :=
  (p.run.filter (fun i => isPass (p.word i))).all (fun i => (p.casks (p.word i)).all (fun c =>
    (p.after (fun j => p.clears (p.word j) c (passM (p.word i))) i).all (fun j =>
      !(isPass (p.word j) && (p.casks (p.word j)).contains c && combOf (p.word j) != combOf (p.word i)))))

/-- R115: two DRAINs with the fresh flag do not touch one row with no WAIT between. -/
def Walk.freshOk (p : Walk) (r : TileRec) : Bool :=
  let fresh (w : Word) : Bool := offers r w && flagF w drain_fresh
  p.none fresh (fun _ j => isWait (p.word j)) (fun x j =>
    fresh (p.word j) && (p.listRange r (p.word x)).any (fun a => (p.listRange r (p.word j)).any (rangesMeet a)))

/-- R156: a BLOCK write-out takes whole groups of 32 casks of C0 to C223. -/
def Walk.groupsOk (p : Walk) (i : Image) (r : TileRec) : Bool :=
  p.words.all (fun w => !writesOut r w || (flagF w drain_packed && !offers r w) ||
    ((recipeAt i r (getF w drain_slot)).map (fun x => getF x rc_source)) != some srcBlock ||
    (getF w drain_f % 32 == 0 && getF w drain_n % 32 == 0 && decide (getF w drain_f + getF w drain_n ≤ 224)))

/-! ## Derivatives, spans, lees and products (R56, R184, R188, R197, R206) -/

/-- R56: a derivative is read from an odd table, or from an even one in EXP mode. -/
def Walk.tablesOk (p : Walk) (fn : List (Nat × BitVec 32)) : Bool :=
  p.words.all (fun w => clsOf w != some .row || getF w row_op != 5 || !flagF w row_backward || getF w row_table % 2 == 1 ||
    ((fn.find? (fun x => x.1 == funcKey (getF w row_table) 0 4)).map (fun x => ctlMode x.2)) == some 4)

/-- R206: a span holds no update, which draws random bits and writes state. -/
def Walk.spansOk (p : Walk) (r : TileRec) : Bool :=
  p.run.all (fun i => clsOf (p.word i) != some .vec || getF (p.word i) vec_op != 1 || r.spans.all (fun x => decide (i < x.2.1 ∨ x.2.2 < i)))

/-- R184, R188: a column-orientation LOAD of a BLOCK tensor reads its backward copy, and both operands of a dW product have
recipe source HIST or FIXED. -/
def Walk.operandsOk (p : Walk) (i : Image) (r : TileRec) : Bool :=
  let source (slot : Nat) : Option Nat := (recipeAt i r slot).map (fun x => getF x rc_source)
  r.loads.all (fun x => !(p.run.contains x.1 && flagF (p.word x.1) load_orient && !x.2.2 && source x.2.1 == some srcBlock)) &&
    r.dws.all (fun x => [x.1, x.2].all (fun y => source y == some srcHist || source y == some srcFixed))

/-- Lots whose forward phase has run and whose backward phase has not, at most, in a schedule (R203). -/
def inFlight (l : List (Bool × Nat)) : Nat :=
  (l.foldl (fun (x : Nat × Nat) (e : Bool × Nat) => if e.1 then (x.1 - 1, x.2) else (x.1 + 1, max x.2 (x.1 + 1))) (0, 0)).2

/-- R197: the lees records of every lot in flight lie in the stage's segments, or in its spill space, which ends with its
tier 2 (R201). -/
def leesOk (r : TileRec) : Bool :=
  let spill := inFlight r.schedule * r.leesLot - r.leesCount
  decide (r.leesFirst + r.leesCount ≤ 4096) &&
    (spill == 0 || (decide (0 < r.leesSpill ∧ r.t2 ≤ r.leesSpill) && decide (r.leesSpill + 16 * spill ≤ r.t2 + 4096 * r.t2Len)))

/-! ## Mode combinations (R280) -/

/-- R280 d, w: a ring stage has an ATT recipe of E4M3, FIXED, X = 0x77, and no predicate. -/
def Walk.ringOk (p : Walk) (i : Image) (r : TileRec) : Bool :=
  let att := i.recipes.getD kindATT 0
  r.ring.isNone || (getF att rc_fmt == 0 && getF att rc_source == srcFixed && getF att rc_initX == 0x77 &&
    p.words.all (fun w => clsOf w != some .flow || getF w flow_op != 3))

/-- R280 i: a distance-mode forward product has no backward product. -/
def Walk.productsOk (p : Walk) (r : TileRec) : Bool :=
  r.products.all (fun x => !(x.2.1 || x.2.2) || getF (p.word x.1) pass_mode == 0)

/-- R280 j: the score passes of a ring stage, whose casks go to the row engine, and those of a router, whose casks are offered
as candidates, are MAC (log 86). -/
def Walk.scoresOk (p : Walk) (r : TileRec) : Bool :=
  (r.ring.isNone && r.router.isNone) || (p.run.filter (fun i => isPass (p.word i) && getF (p.word i) pass_mode != 0)).all (fun i =>
    (p.casks (p.word i)).all (fun c => (p.after (fun j => p.clears (p.word j) c (passM (p.word i))) i).all (fun j =>
      let w := p.word j
      !(isDrain w && decide (getF w drain_f ≤ c) && decide (c < getF w drain_f + getF w drain_n) &&
        ((r.ring.isSome && getF w drain_dest == 1) || (r.router.isSome && offers r w))))))

/-- The phase code 0x003 of MARK: a backward lot begins (R317). -/
def marksBackward (w : Word) : Bool := clsOf w == some .mark && getF w mark_kind == 0 && getF w mark_code == 3

/-- R280 k: no top-k DRAIN follows the MARK of a backward phase with no MARK of another phase between (log 86). -/
def Walk.phasesOk (p : Walk) (r : TileRec) : Bool :=
  p.none marksBackward (fun _ j => clsOf (p.word j) == some .mark && getF (p.word j) mark_kind == 0 && !marksBackward (p.word j))
    (fun _ j => offers r (p.word j))

/-- What the words of a tile's program decide. -/
def Walk.stageOk (p : Walk) (i : Image) (r : TileRec) (fn : List (Nat × BitVec 32)) : Bool :=
  drainSlots p r && p.fmtsOk && p.hamOk i.formats && p.alignOk i.formats && p.racesOk i r && p.boundsOk i r && p.combsOk && p.freshOk r &&
    p.groupsOk i r && p.tablesOk fn && p.spansOk r && p.operandsOk i r && leesOk r &&
    p.ringOk i r && p.productsOk r && p.scoresOk r && p.phasesOk r

end Sys2Proof.Machine
end

