-- ==== Sys2Proof/Machine/Validate.lean ====
section
/-!
DEFINITION. Image validation (R262, steps 1 to 8 of the Image validation table): the header, the directory, the
sections by their digests, licences, ranges, and the rules that name the image validator. What only an analysis of
whole programs and products can find is an operand (`programsOk`, log 6).
-/
namespace Sys2Proof.Machine

/-! ## Header and directory (R259) -/

/-- n bytes at offset a, little-endian (R10). -/
def fieldAt (bs : List Byte) (a n : Nat) : Nat := Memory.le ((bs.drop a).take n)

def imageMagic : Nat := 0x54524c53

def hdrOf (bs : List Byte) : ImgHdr :=
  { sealed := fieldAt bs 6 2 % 2 == 1, jobId := fieldAt bs 8 8, jobSeed := fieldAt bs 16 8, imageLen := fieldAt bs 24 8,
    sections := fieldAt bs 32 2, roles := fieldAt bs 34 2, devices := fieldAt bs 36 4, caps := BitVec.ofNat 64 (fieldAt bs 40 8),
    stacksMin := fieldAt bs 48 1, pdiesMin := fieldAt bs 49 1, tilesReq := fieldAt bs 50 1, mirror := fieldAt bs 51 1,
    portsReq := fieldAt bs 52 2, suppress := fieldAt bs 54 1, q := fieldAt bs 55 1, missHb := fieldAt bs 56 1,
    agree := fieldAt bs 57 1, replay := fieldAt bs 58 1, layoutDigest := BitVec.ofNat 384 (fieldAt bs 64 48),
    dirDigest := BitVec.ofNat 384 (fieldAt bs 112 48) }

/-- Magic, version, reserved bytes of the header, and reserved bits of caps_req (R259, R503). -/
def hdrWellFormed (bs : List Byte) : Bool :=
  fieldAt bs 0 4 == imageMagic && fieldAt bs 4 2 == 1 && decide (fieldAt bs 6 2 < 2) && fieldAt bs 59 5 == 0 &&
    fieldAt bs 160 96 == 0 && fieldAt bs 40 8 / 2 ^ 62 == 0 && fieldAt bs 40 8 % 2 ^ 30 / 16 == 0

/-- First byte after the directory. -/
def dirEnd (h : ImgHdr) : Nat := 256 + 72 * h.sections

/-- n bytes that have arrived at offset a of a load; a byte that has not arrived reads as 0. -/
def loadBytes (m : List Host.Cell) (a n : Nat) : List Byte := (List.range n).map (fun i => Sparse.get (0 : Byte) m (a + i))

/-- Every byte of a range has arrived. -/
def arrived (m : List Host.Cell) (a n : Nat) : Bool :=
  decide ((m.filter (fun c => decide (a ≤ c.1) && decide (c.1 < a + n))).length = n)

def entryAt (m : List Host.Cell) (i : Nat) : DirEntry :=
  let bs := loadBytes m (256 + 72 * i) 72
  { ty := fieldAt bs 0 2, role := fieldAt bs 2 2, offset := fieldAt bs 8 8, length := fieldAt bs 16 8,
    digest := BitVec.ofNat 384 (fieldAt bs 24 48) }

def directory (h : ImgHdr) (m : List Host.Cell) : List DirEntry := (List.range h.sections).map (entryAt m)

/-- A common section (R260). -/
def DirEntry.common (e : DirEntry) : Bool := e.role == 0xffff

def DirEntry.holds (e : DirEntry) (a : Nat) : Bool := decide (e.offset ≤ a) && decide (a < e.offset + e.length)

/-- First byte of the signature block: after the last section, rounded up to 4 KiB (R262). -/
def sigStart (h : ImgHdr) (es : List DirEntry) : Nat :=
  (es.foldl (fun a e => max a (e.offset + e.length)) (dirEnd h) + 4095) / 4096 * 4096

/-- Entries within the image and apart from each other. -/
def entriesFit (h : ImgHdr) : List DirEntry → Bool
  | [] => true
  | e :: es =>
    decide (e.offset + e.length ≤ h.imageLen) && decide (dirEnd h ≤ e.offset ∨ e.length = 0) &&
      es.all (fun d => decide (e.length = 0 ∨ d.length = 0 ∨ e.offset + e.length ≤ d.offset ∨ d.offset + d.length ≤ e.offset)) &&
      entriesFit h es

/-- Section numbers in the table Section types: every common section once, and of a role one each of the sections it
must have. Offsets are multiples of 4096, reserved bytes 0. -/
def dirWellFormed (h : ImgHdr) (m : List Host.Cell) : Bool :=
  let es := directory h m
  let count (t r : Nat) : Nat := (es.filter (fun e => e.ty == t && e.role == r)).length
  let roles := ((es.filter (fun e => !e.common)).map (·.role)).eraseDups
  [1, 2, 3, 4, 5, 6].all (fun t => count t 0xffff == 1) &&
    roles.all (fun r => decide (r < 4096) && [7, 8, 9, 11].all (fun t => count t r == 1) && [10, 12, 13].all (fun t => decide (count t r ≤ 1))) &&
    es.all (fun e => e.offset % 4096 == 0 && (if e.common then decide (1 ≤ e.ty ∧ e.ty ≤ 6) else decide (7 ≤ e.ty ∧ e.ty ≤ 13)) &&
      (decide (e.length ≠ 0) || e.ty == 5)) &&
    (List.range h.sections).all (fun i => fieldAt (loadBytes m (256 + 72 * i) 72) 4 4 == 0)

/-! ## Formats and recipes (R122, R123, R154) -/

/-- A custom entry's parameters (R123). -/
def customOk (w : Word) : Bool :=
  let wd := getF w fmtTable_width
  let e := getF w fmtTable_ebits
  let b : Int := if getF w fmtTable_bias < 128 then getF w fmtTable_bias else (getF w fmtTable_bias : Int) - 256
  let sp := getF w fmtTable_special
  let m : Int := (wd : Int) - 1 - e
  let top : Int := (2 : Int) ^ e - (if sp = 2 then 2 else 1)
  decide (4 ≤ wd ∧ wd ≤ 8 ∧ e < wd ∧ sp ≠ 3) &&
    (if e = 0 then decide (b ≤ 16 ∧ (wd : Int) - 1 - b ≤ 15 ∧ sp = 0)
      else decide (b + m ≤ 17 ∧ top - b ≤ 15 ∧ (sp = 1 → 1 ≤ e) ∧ (sp = 2 → 2 ≤ e)))

/-- FORMATS hold entries 8 to 15: reserved bits 0, and a valid entry passes R123 (R125). -/
def formatsOk (fs : List Word) : Bool :=
  decide (fs.length ≤ 8) && fs.all (fun w => w &&& ~~~(fmtTable_maskRw) == 0 && (!flagF w fmtTable_valid || customOk w))

/-- A recipe of a kind (R153, R154). -/
def recipeOk (fs : List Word) (kind : Nat) (r : Word) : Bool :=
  let fmt := getF r rc_fmt
  let narrow := decide (fmt < 16)
  let src := getF r rc_source
  getF r ⟨7, 0⟩ == 0 && getF r rc_action != 3 && decide (getF r rc_block < 2) && decide (fmt ≤ 19) && decide (getF r rc_optimizer < 2) &&
    (getF r rc_masterFmt == 0 || getF r rc_masterFmt == 0x13 || getF r rc_masterFmt == 0x11) &&
    (if narrow then getF r rc_block == 1 && src != srcNone && (codeWidth fs fmt).isSome else getF r rc_block == 0 && src == srcNone) &&
    !(src == srcFixed && getF r rc_initX == 0xff) && !(getF r rc_action == 1 && getF r rc_backoff == 0) &&
    (kind == kindLOSS || (getF r rc_growth == 0 && (src == srcHist || src == srcFixed || getF r rc_initX == 0))) &&
    (if kind = kindOPT then getF r rc_masterFmt != 0 else getF r rc_masterFmt == 0 && getF r rc_optimizer == 0)

/-! ## Features an image names (R97, R107, R226, R280, R320) -/

def fmtCodes (w : Word) : List Nat :=
  match clsOf w with
  | some .load => [getF w load_fmt]
  | some .pass => [getF w pass_movingFmt]
  | _ => []

def distanceWord (w : Word) : Bool :=
  (clsOf w == some .pass && getF w pass_mode != 0) || (clsOf w == some .drain && flagF w drain_topk)

/-- The feature bits that the taken sections need. Every word that a program comes to counts, also of a program that step 8
refuses. -/
def featNeeded (h : ImgHdr) (i : Image) : Nat :=
  let ws := i.roles.flatMap (fun r => r.programs.flatMap (fun p => (walkOf p).words))
  let codes := ws.flatMap fmtCodes ++ (i.recipes.map (fun r => getF r rc_fmt))
  let tiles := i.roles.flatMap (·.tiles)
  bit (codes.any (fun c => codeWidth i.formats c == some 4)) +
    2 * bit (ws.any distanceWord) + 4 * bit (h.mirror == 2) +
    8 * bit (tiles.any (fun t => (t.ring.map (fun g => decide (1048576 < g.length))).getD false))

/-! ## Ranges (step 7) -/

/-- Ranges of a tile record: R116's list length, R226's ring, and R248's list of a router: k entries, or k + 1 to k + 4
where some expert's policy is REROUTE. -/
def recRanges (t : TileRec) : Bool :=
  decide (t.p < 8) && decide (t.leesFirst < 4096) && decide (t.leesCount ≤ 4096) && decide (t.leesSpill < 2 ^ 48) && decide (t.t1 < 2 ^ 22) &&
    decide (t.t2 < 2 ^ 48) && decide (t.t3Quota ≤ 0xfffff) && decide (t.grants.length ≤ 16) && decide (getF t.topk topkCtl_k ≤ 256) &&
    (match t.router with
      | some g => (if g.policies.contains 1 then decide (g.k + 1 ≤ g.kList ∧ g.kList ≤ g.k + 4) else g.kList == g.k) &&
          g.policies.length == g.quotas.length && g.policies.all (fun x => decide (x < 3)) && g.quotas.all (fun q => decide (q < 65536))
      | none => true) &&
    (match t.ring with
      | some g => decide (g.length ≤ 4194304) && decide (1 ≤ g.size ∧ g.size ≤ 4096) && decide (g.index < g.size) && g.length % (32 * g.size) == 0
      | none => true)

/-- Breakpoints ascend. -/
def ascending : List (Nat × F32) → Bool
  | a :: b :: l => decide (a.1 < b.1) && ascending (b :: l)
  | _ => true

def stepRanges (p : StepProg) : Bool :=
  decide (1 ≤ p.lots ∧ p.lots < 65536) && decide (1 ≤ p.lotSize ∧ p.lotSize < 65536) && decide (1 ≤ p.lr.length ∧ p.lr.length ≤ 64) &&
    ascending p.lr && decide (p.endpoints ≤ 16) && decide (100 ≤ p.deadlineMs ∧ p.deadlineMs < 65536) && decide (p.last < noVintage)

def hdrRanges (h : ImgHdr) : Bool :=
  decide (1 ≤ h.sections) && decide (1 ≤ h.roles ∧ h.roles ≤ 4096) && decide (2 ≤ h.devices ∧ h.devices ≤ 65536) &&
    decide (2 ≤ h.stacksMin ∧ h.stacksMin ≤ 4) && decide (2 ≤ h.pdiesMin ∧ h.pdiesMin ≤ 4) && (h.tilesReq == 128 || h.tilesReq == 160) &&
    (h.mirror == 1 || h.mirror == 2) && decide (1 ≤ h.portsReq ∧ h.portsReq ≤ 36) && decide (h.q ≤ 15) &&
    (h.missHb == 0 || decide (4 ≤ h.missHb ∧ h.missHb ≤ 15)) && decide (h.replay ≤ 15)

def rangesOk (h : ImgHdr) (i : Image) : Bool :=
  hdrRanges h && stepRanges i.step && i.roles.all (fun r => r.tiles.all recRanges) && i.devices.all (fun d => decide (d.role < 4096) && decide (d.id < 65536))

/-! ## Devices (R273, R320, R321, R325) -/

/-- Entries of a list that satisfy a test. -/
def countIf {α : Type} (l : List α) (f : α → Bool) : Nat := (l.filter f).length

/-- Buddies of an entry. -/
def buddiesOf (d : DevEntry) : List Nat := d.b1.toList ++ d.b2.toList

/-- The rules of buddies for one entry. -/
def buddyOk (mirror : Nat) (ds : List DevEntry) (d : DevEntry) : Bool :=
  let bs := buddiesOf d
  if d.spare then bs.isEmpty
  else
    bs.length == mirror && d.b1.isSome && bs.eraseDups.length == mirror && !bs.contains d.id &&
      bs.all (fun b => match ds.find? (fun e => e.id == b) with
        | none => false
        | some e => !e.spare && e.replica != d.replica && e.domain == d.domain &&
          (buddiesOf e).contains d.id && (buddiesOf e).all (fun c => c == d.id || bs.contains c))

def domainSizes (ds : List DevEntry) : Bool :=
  let gs := (ds.map (·.domain)).eraseDups
  if ds.length < 16 then gs.length == 1 else gs.all (fun g => let n := countIf ds (fun d => d.domain == g); decide (16 ≤ n ∧ n ≤ 1024))

def devicesValid (h : ImgHdr) (i : Image) : Bool :=
  let ds := i.devices
  (ds.map (·.id)).eraseDups.length == ds.length && ds.all (buddyOk h.mirror ds) && domainSizes ds &&
    ds.all (fun d => decide (d.extra.length ≤ 8) && d.stateLen.length == 8 && (!d.spare || d.stateLen.all (· == 0))) &&
    ds.all (fun d => match i.roles.find? (fun r => r.role == d.role) with
      | some r => d.spare || (List.range 8).all (fun p =>
          d.stateLen.getD p 0 * pageBytes == ((r.regions.find? (fun g => g.ty == .state && g.part == p)).map (·.len)).getD 0)
      | none => true) &&
    ds.length == h.devices && (((ds.filter (fun d => !d.spare)).map (·.role)).eraseDups).length == h.roles

/-! ## Regions and grants (R271, R284, R291, R292, R310) -/

def rangesApart (a m b n : Nat) : Bool := decide (a + m ≤ b ∨ b + n ≤ a)

def regionsApart : List Region → Bool
  | [] => true
  | r :: rs => rs.all (fun q => q.part != r.part || (rangesApart r.base r.len q.base q.len && q.ty != r.ty)) && regionsApart rs

/-- Bytes that MIRROR of a partition must hold for a device (R292). -/
def mirrorNeed (ds : List DevEntry) (id p : Nat) : Nat :=
  ((ds.filter (fun d => (buddiesOf d).contains id)).map (fun d => d.stateLen.getD p 0)).sum * pageBytes

def lenOf (r : RolePart) (p : Nat) (ty : RegionTy) : Nat := ((r.regions.find? (fun g => g.part == p && g.ty == ty)).map (·.len)).getD 0

/-- Types a grant may lie in (R291). -/
def grantable : RegionTy → Bool
  | .state => true
  | .stash => true
  | .scratch => true
  | .eval => true
  | _ => false

def grantOk (r : RolePart) (t : TileRec) (g : Grant) : Bool :=
  let p := g.base / windowBytes
  let o := g.base % windowBytes
  r.regions.any (fun x => x.part == p && decide (x.base ≤ o) && decide (o + g.len ≤ x.base + x.len) && grantable x.ty &&
    (x.ty != .state || !g.write || (t.forUpdate && g.forUpdate)))

/-- A route has a path of at most 8 ports, of which the first lies in the primary group of its destination (R272, R374), and
its VC class with its datelines is at most 7 (R375). -/
def routeOk (r : RolePart) (x : Route) : Bool :=
  decide (x.path.length ≤ 8) && decide (x.vc + x.datelines ≤ 7) &&
    x.path.head?.all (fun n => (r.transit.find? (fun t => t.dest == x.dst)).any (fun t => (r.groups.getD t.primary 0).testBit n))

/-- The transit table and port groups of this device (R374): entries name groups that hold a port, and a group holds
enabled ports with a peer only; and the routes. -/
def fabricOk (enabled : Nat) (r : RolePart) : Bool :=
  r.transit.all (fun t => r.groups.getD t.primary 0 != 0 && r.groups.getD t.alternate 0 != 0) &&
    r.groups.all (fun g => decide (g < 2 ^ enabled) && r.peers.all (fun e => e.2.isSome || !g.testBit e.1)) &&
    r.peers.all (fun e => decide (e.1 < enabled)) && r.routes.all (routeOk r) &&
    (r.routes.map (·.id)).eraseDups.length == r.routes.length

/-- Tier 2 areas of one partition, first byte and end (R201). -/
def tier2Areas (r : RolePart) (p : Nat) : List (Nat × Nat) :=
  (r.tiles.filter (fun t => t.p == p && t.t2Len != 0)).map (fun t => (t.t2, t.t2 + 4096 * t.t2Len))

def areasApart : List (Nat × Nat) → Bool
  | [] => true
  | a :: as => as.all (fun b => !rangesMeet a b) && areasApart as

/-- Stash tiers (R201): the tier 2 areas of a partition lie apart from each other in its STASH region, the quotas of tier 3
fit what they leave of it, and a tile's tier 1 and recompute buffer lie apart in its store. -/
def tiersOk (r : RolePart) : Bool :=
  (List.range 8).all (fun p =>
    let as := tier2Areas r p
    let ts := r.tiles.filter (·.p == p)
    areasApart as &&
      as.all (fun a => r.regions.any (fun g => g.ty == .stash && g.part == p && decide (p * windowBytes + g.base ≤ a.1) &&
        decide (a.2 ≤ p * windowBytes + g.base + g.len))) &&
      decide (4096 * (ts.map (·.t3Quota)).sum + (as.map (fun a => a.2 - a.1)).sum ≤ lenOf r p .stash)) &&
    r.tiles.all (fun t => decide (256 * (t.t1 + t.t1Len) ≤ storeBytes) && decide (t.rbuf + 1024 * t.rbufKib ≤ storeBytes) &&
      !rangesMeet (256 * t.t1, 256 * (t.t1 + t.t1Len)) (t.rbuf, t.rbuf + 1024 * t.rbufKib))

/-- A stored header control word is legal (R146). -/
def funcsLegal (fn : List (Nat × BitVec 32)) : Bool := fn.all (fun x => x.1 % 2048 != 1028 || ctlOk x.2)

/-- The program of a tile's record keeps the rules that its words decide. -/
def tileOk (i : Image) (r : RolePart) (t : TileRec) : Bool :=
  match t.program with
  | none => true
  | some k => match r.programs[k]? with
    | none => false
    | some ws => (walkOf ws).stageOk i t (((t.funcs.bind (fun j => r.funcs[j]?))).getD [])

/-! ## Collectives (R212, R214, R221, R255) -/

/-- An owner holds one range of a collective, whose elements are numbered within it (R214); that the ranges of all owners make
up the tensor is log 6's. -/
def collsApart : List Coll → Bool
  | [] => true
  | c :: cs => cs.all (fun d => c.id != d.id || c.owner != d.owner) && collsApart cs

/-- The contributions to an element are fixed: the contributors are distinct, and there is one where frames are expected
(R214). -/
def collOk (c : Coll) : Bool :=
  c.contributors.eraseDups.length == c.contributors.length && (c.expected == 0 || !c.contributors.isEmpty)

/-- A stage that may BYPASS has equal input and output shapes: what each output route forwards has the length of the frame's
records (R255). -/
def outOk (o : OutRoute) : Bool :=
  let size := match o.frame.payload with
    | 1 => 4
    | 4 => 6
    | 5 => 1
    | _ => 2
  o.frame.payload == 0 || o.len == o.frame.count * size

def roleOk (populated : Nat) (i : Image) (h : ImgHdr) (r : RolePart) : Bool :=
  let ds := i.devices
  r.regions.all (fun g => decide (g.part < 8) && g.base % 65536 == 0 && g.len % 65536 == 0 && decide (sysBytes g.part ≤ g.base) &&
      decide (g.base + g.len ≤ populated)) &&
    regionsApart r.regions && r.tiles.all (fun t => t.grants.all (grantOk r t)) &&
    (List.range 8).all (fun p => decide (lenOf r p .state ≤ lenOf r p .snap) && decide (2 * r.cellarNeed.getD p 0 ≤ lenOf r p .cellar)) &&
    (ds.filter (fun d => d.role == r.role && !d.spare)).all (fun d =>
      (List.range 8).all (fun p => decide (mirrorNeed ds d.id p ≤ lenOf r p .mirror))) &&
    r.tiles.length == 8 * h.tilesReq && r.tiles.all (fun t => decide (t.t < h.tilesReq)) &&
    r.programs.all (fun ws => (walkOf ws).legal) && r.tiles.all (tileOk i r) && tiersOk r && r.funcs.all funcsLegal &&
    r.colls.all collOk && collsApart r.colls && r.tiles.all (fun t => t.outs.all outOk)

namespace State

/-! ## The sections a device takes (R260) -/

/-- Roles of a device by DEVICES: its own, or for a spare every role of its domain. -/
def rolesTaken (s : State) (ds : List DevEntry) : List Nat :=
  match ds.find? (fun d => d.id == s.devId) with
  | none => []
  | some d => if d.spare then ((ds.filter (fun e => e.domain == d.domain && !e.spare)).map (·.role)).eraseDups else [d.role]

def takenEntries (s : State) (l : Load) : List DirEntry :=
  let h := hdrOf l.hdrBytes
  let rs := (l.inp.map (fun x => s.rolesTaken x.img.devices)).getD []
  (directory h l.bytes).filter (fun e => e.common || (l.devicesOk && rs.contains e.role))

/-- Bytes the device takes, with header, directory and signature block. -/
def takenTotal (s : State) (l : Load) : Nat :=
  let h := hdrOf l.hdrBytes
  dirEnd h + (h.imageLen - sigStart h (directory h l.bytes)) + ((s.takenEntries l).map (·.length)).sum

/-- The common part and the roles that this device takes. -/
def takenImage (s : State) (i : Image) : Image :=
  { i with roles := i.roles.filter (fun r => (s.rolesTaken i.devices).contains r.role) }

/-! ## Steps 5 and 6 -/

/-- Every count of caps_req and of the header within DEV_CAPS, every feature licensed (R503). -/
def capsOk (s : State) (h : ImgHdr) (i : Image) : Bool :=
  let c := s.dev.caps
  let le (f : Field) : Bool := decide (getF h.caps f ≤ getF c f)
  let need := getF h.caps devCaps_feat ||| featNeeded h i
  [devCaps_portsEnabled, devCaps_portsPresent, devCaps_pdiesFused, devCaps_pdiesPresent, devCaps_stacksFused, devCaps_stacksPresent,
    devCaps_tiles].all le && decide (h.stacksMin ≤ getF c devCaps_stacksPresent) && decide (h.pdiesMin ≤ getF c devCaps_pdiesPresent) &&
    decide (h.tilesReq ≤ getF c devCaps_tiles) && decide (h.portsReq ≤ getF c devCaps_portsEnabled) &&
    (need &&& getF c devCaps_feat) == need

/-- The re-trellis test of R265. -/
def retrellisOk (s : State) (h : ImgHdr) (i : Image) : Bool :=
  match s.img.cur with
  | none => false
  | some l =>
    let keep (r : RolePart) : List Region := r.regions.filter (fun g => g.ty == .state || g.ty == .snap || g.ty == .mirror)
    l.hdr.jobId == h.jobId && l.hdr.jobSeed == h.jobSeed && l.hdr.sealed == h.sealed && l.hdr.mirror == h.mirror &&
      l.hdr.layoutDigest == h.layoutDigest && l.img.groupBytes == i.groupBytes &&
      (s.rolesTaken l.img.devices).all (fun r =>
        match l.img.roles.find? (fun x => x.role == r), i.roles.find? (fun x => x.role == r) with
        | some a, some b => keep a == keep b
        | _, _ => false)

/-- The rules that name the image validator (step 8), and the re-trellis test in PAUSED (R264). -/
def validatorOk (s : State) (l : Load) (x : ImageIn) : Bool :=
  let h := hdrOf l.hdrBytes
  let i := s.takenImage x.img
  x.decodes && x.programsOk && dirWellFormed h l.bytes && devicesValid h i && i.recipes.length == 8 && formatsOk i.formats &&
    (i.recipes.zipIdx.all (fun r => recipeOk i.formats r.2 r.1)) && (i.tensors.map (·.id)).eraseDups.length == i.tensors.length &&
    (i.recipes.zipIdx.all (fun r => (codeWidth i.formats (getF r.1 rc_fmt)).isSome || decide (16 ≤ getF r.1 rc_fmt))) &&
    (i.roles.flatMap (fun r => r.programs.flatMap (fun p => (walkOf p).words))).all (fun w => (fmtCodes w).all (fun c => (codeWidth i.formats c).isSome)) &&
    i.roles.all (roleOk s.populated i h) && i.roles.all (fabricOk (getF s.dev.caps devCaps_portsEnabled)) && (s.devState != DS.paused || s.retrellisOk h i)

/-! ## The checks in order -/

/-- The code and the step of the first check that fails, or OK with step 9. -/
def validate (s : State) (l : Load) (x : ImageIn) : Nat × Nat :=
  let h := hdrOf l.hdrBytes
  let es := directory h l.bytes
  let taken := s.takenEntries l
  let sg := sigStart h es
  if !arrived l.bytes 256 (72 * h.sections) || !taken.all (fun e => arrived l.bytes e.offset e.length) || !l.devicesOk ||
      !arrived l.bytes sg (h.imageLen - sg) || !entriesFit h es then (Err.length, 1)
  else if !hdrWellFormed l.hdrBytes then (Err.format, 2)
  else if !x.sigOk then (Err.auth, 3)
  else if Config.sha384 (loadBytes l.bytes 256 (72 * h.sections)) != h.dirDigest ||
      !taken.all (fun e => Config.sha384 (loadBytes l.bytes e.offset e.length) == e.digest) then (Err.digest, 4)
  else if !flagF s.dev.id devId_assigned || !x.img.devices.any (fun d => d.id == s.devId) then (Err.range, 5)
  else if !s.capsOk h (s.takenImage x.img) then (Err.absent, 6)
  else if !rangesOk h (s.takenImage x.img) then (Err.range, 7)
  else if h.sealed && getF s.sec.debugLock debugLock_state != 0 then (Err.auth, 8)
  else if !s.validatorOk l x then (Err.format, 8)
  else (Err.ok, 9)

end State
end Sys2Proof.Machine
end

