-- ==== Sys2Proof/Machine/Image.lean ====
section
/-!
DEFINITION. IMAGE_LOAD and IMAGE_COMMIT: how bytes of an image are taken (R261, R262), and what step 9 writes (R263 to
R265, R267).
-/
namespace Sys2Proof.Machine

/-- Bytes of the image store's half (R260, R261). -/
def imageHalf : Nat := 0x40000000

/-- The bytes of a message that lie in the range [a, b) of the image, and where they begin. -/
def overlap (off : Nat) (bs : List Byte) (a b : Nat) : Nat × List Byte :=
  let lo := max off a
  (lo, (bs.drop (lo - off)).take (min (off + bs.length) b - lo))

/-- Bytes listed at rising offsets equal those of a message, where they have arrived. -/
def agrees (m : List Host.Cell) (a : Nat) : List Byte → Bool
  | [] => true
  | b :: bs => m.all (fun c => c.1 != a || c.2 == b) && agrees m (a + 1) bs

namespace State

/-- An IMAGE_LOAD cannot begin or go on: another session's load, an admission test, a handshake (R267). -/
def loadBusy (s : State) (session : Nat) : Bool :=
  s.fd.admitting || s.handshaking || (s.img.load.map (fun l => l.session != session)).getD false

/-- The load as the message finds it, a new or restarted one for a message at offset 0 (R262), or none. -/
def loadFor (s : State) (session off : Nat) (bs : List Byte) : Option Load :=
  let fresh : Load := { session := session, hdrBytes := bs.take 256, bytes := [], devicesOk := false, finalSeq := none, step := 0, inp := none }
  match s.img.load with
  | none => if off = 0 ∧ 256 ≤ bs.length then some fresh else none
  | some l => if off = 0 ∧ 256 ≤ bs.length ∧ bs.take 256 ≠ l.hdrBytes then some fresh else some l

/-- Whether byte a of the image lies in the header, the directory, a section or the signature block. -/
def somewhere (h : ImgHdr) (es : List DirEntry) (a : Nat) : Bool :=
  decide (a < dirEnd h) || decide (sigStart h es ≤ a) || es.any (fun e => e.holds a)

/-- Whether byte a lies in a section of a role that the device does not take, or does not know to take yet. -/
def untaken (es taken : List DirEntry) (a : Nat) : Bool := es.any (fun e => e.holds a) && !taken.any (fun e => e.holds a)

/-- The checks of one message against its load (R261, R262). -/
def loadFieldCheck (s : State) (l : Load) (off : Nat) (bs : List Byte) : Nat :=
  let h := hdrOf l.hdrBytes
  let top := off + bs.length
  let hd := overlap off bs 0 256
  let dirDone := arrived l.bytes 256 (72 * h.sections)
  let dr := overlap off bs 256 (dirEnd h)
  let es := directory h l.bytes
  let rest := overlap off bs (dirEnd h) top
  let places := (List.range rest.2.length).map (fun i => rest.1 + i)
  if hd.2 ≠ (l.hdrBytes.drop hd.1).take hd.2.length then Err.format
  else if !dirDone then (if dirEnd h < top then Err.state else Err.ok)
  else if !agrees l.bytes dr.1 dr.2 then Err.format
  else if places.any (fun a => !somewhere h es a) then Err.range
  else if places.any (untaken es (s.takenEntries l)) then (if l.devicesOk then Err.range else Err.state)
  else Err.ok

/-- The bytes held after a message. -/
def bytesWith (l : Load) (off : Nat) (bs : List Byte) : List Host.Cell :=
  let r := overlap off bs 256 (off + bs.length)
  putBytes l.bytes r.1 r.2

/-- Length, then the session, then the fields. A message of no bytes writes none (R401). -/
def loadCheck (s : State) (session off : Nat) (bs : List Byte) : Nat :=
  match s.loadFor session off bs with
  | none => if s.loadBusy session then Err.busy else if bs.isEmpty then Err.ok else Err.format
  | some l =>
    if (hdrOf l.hdrBytes).imageLen < off + bs.length ∧ bs ≠ [] then Err.length
    else if imageHalf < 256 + (bytesWith l off bs).length then Err.length
    else if s.loadBusy session then Err.busy
    else s.loadFieldCheck l off bs

/-- DEVICES has arrived and matches its digest. -/
def devicesMatch (l : Load) : Bool :=
  let h := hdrOf l.hdrBytes
  arrived l.bytes 256 (72 * h.sections) &&
    (match (directory h l.bytes).find? (fun e => e.ty == 1 && e.common) with
      | some e => arrived l.bytes e.offset e.length && Config.sha384 (loadBytes l.bytes e.offset e.length) == e.digest
      | none => false)

/-- The load ends without effect. -/
def dropLoad (s : State) : State := { s with img := { s.img with load := none } }

def keepLoad (s : State) (l : Load) : State := { s with img := { s.img with load := some l } }

/-- The final message has arrived: steps 1 to 8. A NAK carries the step that failed; a load that passes waits for
step 9 with its message unanswered. -/
def finalMessage (s : State) (l : Load) (seq : Nat) (x : ImageIn) : State × Option Ans :=
  let y : ImageIn := if l.devicesOk then x else { x with img := { x.img with devices := [] } }
  let (e, k) := s.validate l y
  if e = Err.ok then (s.keepLoad { l with finalSeq := some seq, step := 9, inp := some x }, none)
  else (s.dropLoad, some { status := e, words := [BitVec.ofNat 64 k], bytes := [] })

/-- The message is taken (R261, R262). -/
def takeImage (s : State) (h : DctHdr) (off : Nat) (bs : List Byte) (x : ImageIn) : State × Option Ans :=
  match s.loadFor h.session off bs with
  | none => (s, some .ok)
  | some l =>
    let l : Load := { l with bytes := bytesWith l off bs }
    if !l.devicesOk && devicesMatch l then
      let l2 : Load := { l with devicesOk := true, inp := some x }
      if !x.devicesOk then (s.dropLoad, some (.err Err.format))
      else if imageHalf < s.takenTotal l2 then (s.dropLoad, some (.err Err.length))
      else if h.final then s.finalMessage l2 h.seq x else (s.keepLoad l2, some .ok)
    else if h.final then s.finalMessage l h.seq x else (s.keepLoad l, some .ok)

def imageLoad (s : State) (h : DctHdr) (off : Nat) (bs : List Byte) (x : ImageIn) : State :=
  s.dct h (.imageLoad h off bs x) .opened (s.inState [DS.ready, DS.loaded, DS.paused]) (s.loadCheck h.session off bs) Src.image
    fun s => s.ensureActive.takeImage h off bs x

end State

/-! ## Step 9: what an image load writes (R263) -/

/-- A tensor slot at the start of a job: X is init_x where the recipe has one (R153, R157, R158, R164). DESIGN CHOICE (log
78): X of a tensor under BLOCK or NONE, which has none of its own (R177), shows the recipe's init_x as well. -/
def freshSlot (i : Image) (id : Nat) : Slot :=
  match i.tensors.find? (fun t => t.id == id) with
  | none => Slot.reset
  | some d =>
    let r := i.recipes.getD d.kind 0
    { Slot.reset with valid := true, tensor := id, kind := d.kind, recipe := r, x := getF r rc_initX, mult := d.mult }

/-- What the image gives every tile: format entries, no fault, no graft yet, cleared arrays (R263, R510). -/
def commonTile (fs : List Word) (t : Tile) : Tile :=
  { (clearTile t) with
    fmt := (fs.zipIdx.foldl (fun m x => Sparse.set 0 m (8 + x.2) (x.1 &&& fmtTable_maskRw)) []),
    status := setF (setF t.status tileStatus_faultCode 0) tileStatus_tileState TS.idle,
    map := setF (setF t.map tileMap_prevSite 0xff) tileMap_graftCount 0,
    stashStatus := setF (setF t.stashStatus stashStatus_ovfPeak 0) stashStatus_policy 0,
    redStatus := setF (setF (setF t.redStatus redStatus_ringSize 0) redStatus_rotation 0) redStatus_collWait 0,
    sparseCtl := setF t.sparseCtl ⟨7, 0⟩ 0,
    topkCtl := t.topkCtl &&& topkCtl_maskRc,
    prog := [], funcs := [], record := none, slots := [], slotsB := [], seq := Seq.reset, chans := [], stash := Stash.reset, admitted := [],
    deferred := [], routeParts := 0, ringSent := 0, ringGot := 0, accepted := [], loaderA := none, loaderB := none, rowIn := [], vecIn := [], lees := [], counters := [] }

/-- The stage of a tile: program, tables, registers and slots of its record (R268). `old`: the slots that a re-trellis
keeps, by tensor. -/
def stageTile (i : Image) (r : RolePart) (old : List Slot) (c : TileRec) (t : Tile) : Tile :=
  let slots := c.slots.foldl (fun m x =>
    Sparse.set Slot.reset m x.1 ((old.find? (fun o => o.valid && o.tensor == x.2)).getD (freshSlot i x.2))) []
  let u : Tile := { t with
    prog := progOf ((c.program.bind (fun k => r.programs[k]?)).getD [])
    funcs := funcsOf ((c.funcs.bind (fun k => r.funcs[k]?)).getD [])
    topkCtl := (t.topkCtl &&& topkCtl_maskRc) ||| (c.topk &&& topkCtl_maskRw)
    sparseCtl := setF t.sparseCtl ⟨7, 0⟩ (c.sparse &&& 0xce)
    stashStatus := setF t.stashStatus stashStatus_policy (bit c.recompute)
    redStatus := setF t.redStatus redStatus_ringSize ((c.ring.map (·.size)).getD 0)
    record := some c
    slots := slots
    slotsB := slots }
  { u with seq := firstSeq u false }

/-- The page map at the start: each entry names its own frame (R294). -/
def freshPages (r : RolePart) (p : Nat) : List PageEntry :=
  match r.regions.find? (fun g => g.part == p && g.ty == .state) with
  | none => []
  | some g => (List.range (g.len / pageBytes)).map (fun k => { copied := false, racked := false, snap := 0, live := g.base / pageBytes + k })

namespace State

/-- Tiles of every partition under the applied grade (R23). -/
def tileRefs (s : State) : List TileRef :=
  (List.range 8).flatMap (fun p => (List.range (getF s.dev.caps devCaps_tiles)).map (fun t => (⟨p, t⟩ : TileRef)))

/-- The tiles of a role are set up; a spare's hold no program. -/
def writeTiles (s : State) (i : Image) (role : Option RolePart) (old : List Slot) : State :=
  s.tileRefs.foldl (fun s tl =>
    let c := (role.map (·.tiles)).getD [] |>.find? (fun c => c.p == tl.p && c.t == tl.t)
    s.onTile tl (fun t =>
      let u := commonTile i.formats t
      match role, c with
      | some r, some c => stageTile i r old c u
      | _, _ => u)) s

/-- Port tables of the image; packets of an earlier job are gone (R374). -/
def writeFabric (s : State) (role : Option RolePart) (keep : Bool) : State :=
  let f := if keep then s.fabric else Fabric.reset
  { s with fabric := { f with
      transit := (role.map (·.transit)).getD [], groups := (role.map (·.groups)).getD [], peers := (role.map (·.peers)).getD [] } }

/-- A field that the header sets where it is nonzero. -/
def nzF (w : Word) (f : Field) (v : Nat) : Word := if v = 0 then w else setF w f v

/-- Buddies, mirror degree, fault-domain and step values (R263, R273). -/
def writeRegs (s : State) (h : ImgHdr) (d : DevEntry) (keep : Bool) : State :=
  let b := setF (setF (setF (setF s.mir.buddyId buddyId_b1Valid (bit d.b1.isSome)) buddyId_b2Valid (bit d.b2.isSome))
    buddyId_buddy1 (d.b1.getD 0xffff)) buddyId_buddy2 (d.b2.getD 0xffff)
  let m : MirRegs := { s.mir with
    buddyId := b
    degree := setF s.mir.degree mirrorDegree_degree (if d.spare then 0 else h.mirror)
    rackStatus := if keep then s.mir.rackStatus else 0
    rackProgress := setF (if keep then s.mir.rackProgress else 0) rackProgress_pagesTotal d.stateLen.sum
    snapPool := setF (if keep then s.mir.snapPool else 0) snapPoolStatus_peak (if keep then getF s.mir.snapPool snapPoolStatus_copied else 0)
    fdCfg := nzF (nzF (nzF s.mir.fdCfg fdCfg_suppressMs h.suppress) fdCfg_q h.q) fdCfg_missHb h.missHb }
  let st : StepRegs :=
    { ctl := nzF (nzF s.step.ctl stepCtl_agreeMs h.agree) stepCtl_replayMax h.replay
      openV := 0xffffffffffff
      committed := if keep then s.step.committed else 0
      check := if keep then s.step.check else 0
      cellar := 0 }
  { s with
    mir := m
    step := st
    dev := { s.dev with state := setF s.dev.state devState_spare (bit d.spare) }
    sec := { s.sec with mode := setF s.sec.mode secMode_sealed (bit h.sealed) } }

/-- The fault domain at an image load: no fence, no graft, the spares that DEVICES lists (R350). -/
def freshFd (s : State) : Fd :=
  { Fd.reset with spares := match s.image, s.me with
      | some i, some e => (i.devices.filter (fun d => d.domain == e.domain && d.spare)).map (·.id)
      | _, _ => [] }

/-- Time before the first epoch of an image: TS64 is the count (R17). -/
def beforeEpoch (s : State) : State :=
  { s with time := { s.time with epoch := 0, epochE := none, offset := 0, stepped := false, syncStatus := setF s.time.syncStatus tsSyncStatus_locked 0 } }

/-- A re-trellis keeps state, committed vintage, histories and the epoch, and empties the cellar (R265, R17). -/
def keptJob (j : Job) : Job := { Job.reset with established := j.established, gen := j.gen, sigmaOpen := j.sigmaOpen, rackMismatch := j.rackMismatch }

/-- Step 9 (R263, R264): a member or a spare from READY or LOADED, or a re-trellis in PAUSED. -/
def commitImage (s : State) (l : Load) (x : ImageIn) : State :=
  let keep := s.devState == DS.paused
  let i := s.takenImage x.img
  let h := hdrOf l.hdrBytes
  let half := (s.img.cur.map (fun c => 1 - c.half)).getD 0
  let old := if keep then s.tiles.flatMap (fun t => t.2.slotsB.map (·.2)) else []
  match i.devices.find? (fun d => d.id == s.devId) with
  | none => s
  | some d =>
    let role := if d.spare then i.roles.head? else i.roles.find? (fun r => r.role == d.role)
    let stage := if d.spare then none else role
    let s := if keep then s else (s.drawJobKeys.beforeEpoch.toState DS.loaded)
    let s : State := { s with img := { cur := some { hdr := h, digest := Config.sha384 l.hdrBytes, img := i, half := half }, load := none } }
    let s := s.writeRegs h d keep
    let s : State := { s with job := if keep then keptJob s.job else Job.reset, fd := s.freshFd, rst := { s.rst with levels := [] } }
    let s := (s.writeTiles i stage old).writeFabric role keep
    let s := if keep then s else
      (List.range 8).foldl (fun s p => s.onPart p (fun a => { a with pages := ((stage.map (fun r => freshPages r p)).getD []) })) s
    let s := s.refreshHeads.reholdPorts
    s.ledger 0 4 Err.ok 0xff ((s.imageDigest).toNat % 2 ^ 32) noVintage 0

/-- IMAGE_COMMIT: step 9 of a load that has passed, and the reply to its final message. -/
def imageCommit (s : State) : State :=
  match s.img.load with
  | none => s
  | some l =>
    match l.finalSeq, l.inp with
    | some q, some x =>
      if !s.alive || !s.inState [DS.ready, DS.loaded, DS.paused] then s
      else ((s.commitImage l x).dropLoad).answer l.session q .ok Src.image
    | _, _ => s

end State

/-- IMAGE_LOAD (R261, R262). -/
def execImageLoad (h : DctHdr) (offset : Nat) (bytes : List Byte) (inp : ImageIn) (s : State) : Host.Outcome State Fault Refusal :=
  .next (s.imageLoad h offset bytes inp)

/-- IMAGE_COMMIT (R263). -/
def execImageCommit (s : State) : Host.Outcome State Fault Refusal := .next s.imageCommit

end Sys2Proof.Machine
end

