-- ==== Sys2Proof/Machine/StepCtl.lean ====
section
/-!
DEFINITION. STEP_CTRL (R406), the epoch (R17), restore (R361 to R363), and the end of a job.
-/
namespace Sys2Proof.Machine
namespace State

/-! ## Establishing a job (R17) -/

/-- Counts "in the job" start afresh (R17). -/
def newCounts (s : State) : State :=
  { s.allTiles (fun t => { t with ueInJob := 0, raceInJob := 0 }) with
    memStacks := Sparse.mapV Stack.reset (fun k => { k with ueInJob := [] }) s.memStacks
    job := { s.job with uncounted := false, minority := [], established := false } }

/-- The job head fixes the epoch instant, at least 10 ms ahead on its own count (R17): how far beyond is open, a free
value (log 20). -/
def agreeEpoch (s : State) : State :=
  if s.isJobHead then
    let e := s.time.count + 10 * msTicks + s.freeValue.toNat
    ({ s.useFree with time := { s.time with epochE := some e } }).send (.startAgreement e)
  else s

/-- The count has reached E: TS64 counts from 0, in the next epoch (R17). Where this device has no E of its own it is
the present count, which the start agreement named (log 35). -/
def epochStart (s : State) : State :=
  if !s.alive || s.img.cur.isNone || s.job.established || !s.inState [DS.running, DS.paused] then s
  else
    let e := s.time.epochE.getD s.time.count
    if s.time.count < e then s
    else { s with
      time := { s.time with offset := -(e : Int), epochE := none, epoch := s.time.epoch % 31 + 1 }
      job := { s.job with established := true } }

/-! ## START, RESUME, PAUSE, EVAL, CKPT (R406) -/

def isSpareHere (s : State) : Bool := flagF s.dev.state devState_spare

/-- One STEP_CTRL message: permitted in `l`, checked, run with the device ACTIVE (R407, R451). -/
def stepOp (s : State) (h : DctHdr) (c : Instr) (l : List Nat) (ok : Bool) (check : Nat) (run : State → State) : State :=
  s.dct h c .opened (s.inState l && ok) check Src.dct fun s => (run s.ensureActive, some .ok)

/-- The job starts: the snapshot of S(0) opens, racking begins, and the first step is at intake (R19, R302, log 36). -/
def startRun (s : State) : State :=
  let s := (s.newCounts.toState DS.running).agreeEpoch
  (s.rotateSnapshot.startRacking).beginStep

def start (s : State) (h : DctHdr) : State := s.stepOp h (.start h) [DS.loaded] (!s.isSpareHere) Err.ok startRun

/-- The next step begins at intake (R308), from what the cellar holds of it (R309); an evaluation that runs goes on first. -/
def resumeRun (s : State) : State :=
  let s := (s.toState DS.running).beginStep
  if s.job.evaluating then s else (s.allTiles (fun t => { t with seq := firstSeq t false })).serveAll

def resume (s : State) (h : DctHdr) : State := s.stepOp h (.resume h) [DS.paused] true Err.ok resumeRun

def setReq (s : State) (f : Field) : State := { s with step := { s.step with ctl := setF s.step.ctl f 1 } }

def pause (s : State) (h : DctHdr) : State :=
  s.stepOp h (.pause h) [DS.running] true Err.ok (fun s => s.setReq stepCtl_pauseReq)

/-- In RUNNING at the next boundary, in PAUSED at once; a second one while one runs in PAUSED is busy. -/
def eval (s : State) (h : DctHdr) : State :=
  s.stepOp h (.eval h) [DS.running, DS.paused] true (if s.devState = DS.paused ∧ s.job.evaluating = true then Err.busy else Err.ok)
    (fun s => if s.devState = DS.paused then s.startEval 0 else s.setReq stepCtl_evalReq)

/-- In RUNNING the next committed vintage, in PAUSED the committed one (R354). -/
def ckpt (s : State) (h : DctHdr) : State :=
  s.stepOp h (.ckpt h) [DS.running, DS.paused] true (if s.devState = DS.paused ∧ s.job.ckpt.isSome = true then Err.busy else Err.ok)
    (fun s => if s.devState = DS.paused then s.startCkpt s.committedV else s.onJob (fun j => { j with ckptDue := true }))

/-! ## END (R406) -/

/-- State regions and cellar cleared, scale state at its start, vintage 0 committed, LOADED. -/
def clearJob (s : State) : State :=
  let s := (s.haltStages.clearRegions .state).clearRegions .snap
  let s := ((s.clearRegions .cellar).clearRegions .stash).clearRegions .scratch
  let i := s.image
  let r := s.role
  let s := s.allTiles (fun t =>
    let slots := match i with
      | some i => Sparse.mapV Slot.reset (fun x => if x.valid then freshSlot i x.tensor else x) t.slots
      | none => t.slots
    { boundaryTile false t with slots := slots, slotsB := slots })
  let s := (List.range 8).foldl (fun s p => s.onPart p (fun a => { a with pages := (r.map (fun r => freshPages r p)).getD [] })) s
  let ctl := setF (setF s.step.ctl stepCtl_pauseReq 0) stepCtl_evalReq 0
  let s : State := { s with
    step := { s.step with ctl := ctl, openV := 0xffffffffffff, committed := 0 }
    job := { Job.reset with ledgerSeq := s.job.ledgerSeq } }
  s.refreshOpen.poolStatus.toState DS.loaded

def endJob (s : State) (h : DctHdr) : State := s.stepOp h (.endJob h) [DS.paused] true Err.ok clearJob

/-! ## RESTORE (R361 to R363) -/

/-- Descending vintage, then descending ckpt_gen. -/
def candBefore (a b : Nat × Nat) : Bool := decide (b.1 < a.1) || (a.1 == b.1 && decide (b.2 ≤ a.2))

def insertCand (c : Nat × Nat) : List (Nat × Nat) → List (Nat × Nat)
  | [] => [c]
  | d :: l => if candBefore c d then c :: d :: l else d :: insertCand c l

def sortCands : List (Nat × Nat) → List (Nat × Nat)
  | [] => []
  | c :: l => insertCand c (sortCands l)

/-- The restore begins with the first candidate. -/
def restore (s : State) (h : DctHdr) (cs : List (Nat × Nat)) : State :=
  s.stepOp h (.restore h cs) [DS.loaded, DS.paused] (!s.isSpareHere)
    (if 16 < cs.length then Err.length else if s.job.restore.isSome then Err.busy else Err.ok)
    (fun s => if cs.isEmpty then s else s.onJob (fun j => { j with restore := some { cands := sortCands cs, reports := [], wrote := false } }))

/-- No candidate passes: the restore fails, and where any reached step 5 the device stands as after END. -/
def failRestore (s : State) (wrote : Bool) : State :=
  let s := (s.onJob (fun j => { j with restore := none })).event Err.vintage 6 0 Src.step false
  if wrote then s.clearJob else s

/-- A device's report on a candidate reaches the job head: `stage` is the step of the Restore sequence it got to, `code`
its error, 0 after step 6. A candidate that fails is rejected with that code, which the other devices hear from the job head
(log 88); when every device has passed step 6, RESTORE_COMMIT goes out. -/
def restoreReport (s : State) (dev stage code : Nat) : State :=
  match s.job.restore with
  | none => s
  | some r =>
    if !s.alive || !(s.isJobHead || s.jobHead == some dev && code != Err.ok) || !s.inState [DS.loaded, DS.paused] ||
        !(s.jobIds.filter s.healthy).contains dev then s
    else
      let wrote := r.wrote || decide (5 ≤ stage)
      match r.cands with
      | [] => s.failRestore wrote
      | c :: rest =>
        if code ≠ Err.ok then
          let s := if s.isJobHead then (s.event code 6 c.1 Src.step false).send (.restoreReject c.1 c.2 stage code) else s
          if rest.isEmpty then s.failRestore wrote
          else s.onJob (fun j => { j with restore := some { cands := rest, reports := [], wrote := wrote } })
        else if stage < 6 then s.onJob (fun j => { j with restore := some { r with wrote := wrote } })
        else
          let rs := (dev :: r.reports).eraseDups
          let s := s.onJob (fun j => { j with restore := some { r with reports := rs, wrote := wrote } })
          if (s.jobIds.filter s.healthy).all (fun i => rs.contains i) then s.send (.restoreCommit c.1 c.2) else s

/-- A device of the job is fenced before RESTORE_COMMIT: the restore fails (R363). -/
def restoreFence (s : State) (id : Nat) : State :=
  match s.job.restore with
  | some r => if s.jobIds.contains id then s.failRestore r.wrote else s
  | none => s

/-- The slot of a tensor takes the scale state that the manifest's tensor table names (R360, R362). -/
def restoredSlot (ts : List TensorState) (x : Slot) : Slot :=
  match ts.find? (fun y => y.tensor == x.tensor) with
  | some y =>
    if x.valid then
      { x with x := y.x, action := y.action, hold := y.hold, floor := y.x, t := y.t, sinceBackoff := y.sinceBackoff, hist := y.hist,
               amax := 0, nonfinite := 0, sinceSkip := 0 }
    else x
  | none => x

/-- RESTORE_COMMIT (R363). `state`: the bytes that this device's fetches of step 5 place, `scales` the tensor table
(log 37). -/
def restoreCommit (s : State) (v gen : Nat) (state : List (Nat × List Byte)) (scales : List TensorState) : State :=
  if !s.alive || !s.inState [DS.loaded, DS.paused] || s.job.restore.isNone || s.isSpareHere then s
  else
    let s := s.clearJob
    let s := state.foldl (fun s x => if (s.pageOf x.1).isSome then s.hbmWrite x.1 x.2 else s) s
    let s := s.allTiles (fun t =>
      let slots := Sparse.mapV Slot.reset (restoredSlot scales) t.slots
      { t with slots := slots, slotsB := slots })
    let s := (s.newCounts).onJob (fun j => { j with gen := gen + 1 })
    let s : State := { s with step := { s.step with committed := setF 0 vintageCommitted_vintage v } }
    let s := (s.refreshOpen.rotateSnapshot.startRacking).agreeEpoch
    ((s.toState DS.paused).ledger 0 0 20 0xff 0 v 0).event Err.ok 6 v Src.step false

end State

/-- START (R406, R17). -/
def execStart (h : DctHdr) (s : State) : Host.Outcome State Fault Refusal := .next (s.start h)

/-- RESUME (R406). -/
def execResume (h : DctHdr) (s : State) : Host.Outcome State Fault Refusal := .next (s.resume h)

/-- PAUSE (R406). -/
def execPause (h : DctHdr) (s : State) : Host.Outcome State Fault Refusal := .next (s.pause h)

/-- EVAL (R406, R277). -/
def execEval (h : DctHdr) (s : State) : Host.Outcome State Fault Refusal := .next (s.eval h)

/-- CKPT (R354). -/
def execCkpt (h : DctHdr) (s : State) : Host.Outcome State Fault Refusal := .next (s.ckpt h)

/-- RESTORE (R361). -/
def execRestore (h : DctHdr) (cands : List (Nat × Nat)) (s : State) : Host.Outcome State Fault Refusal := .next (s.restore h cands)

/-- RESTORE_REPORT (R361). -/
def execRestoreReport (device stage code : Nat) (s : State) : Host.Outcome State Fault Refusal :=
  .next (s.restoreReport device stage code)

/-- RESTORE_COMMIT (R363). -/
def execRestoreCommit (vintage gen : Nat) (state : List (Nat × List Byte)) (scales : List TensorState) (s : State) :
    Host.Outcome State Fault Refusal := .next (s.restoreCommit vintage gen state scales)

/-- END (R406). -/
def execEndJob (h : DctHdr) (s : State) : Host.Outcome State Fault Refusal := .next (s.endJob h)

/-- EPOCH_START (R17). -/
def execEpochStart (s : State) : Host.Outcome State Fault Refusal := .next s.epochStart

end Sys2Proof.Machine
end

