-- ==== Sys2Proof/Machine/FaultDomain.lean ====
section
/-!
DEFINITION. The commands of the fault domain: BEATs, reports and fences (R323 to R335), the device graft (R337 to
R343), planned replacement and admission (R344, R345).
-/
namespace Sys2Proof.Machine
namespace State

/-! ## BEATs (R326, R330) -/

/-- Progress of R66 summed over tiles. -/
def progressSum (s : State) : Nat := (s.tiles.map (fun t => getF t.2.status tileStatus_progress)).sum

/-- A BEAT goes to the head, the head's own to the deputy; `flags` are those of a dormant wake (R454). -/
def sendBeat (s : State) (flags : Nat) : State := s.send (.beat s.myHead s.now s.devState s.progressSum flags)

/-- A device that holds a role, in a job or loaded for one, sends one every 1 ms; a spare at each dormant wake. -/
def beatSend (s : State) : State :=
  if !s.linksUp || s.img.cur.isNone then s
  else if s.inJob && !s.isSpareHere then s.sendBeat 0
  else if s.devState = DS.dormant then s.sendBeat 0
  else s

/-- Whether this device watches a member: the head every other, the deputy the head (R326). -/
def watches (s : State) (id : Nat) : Bool :=
  s.domainIds.contains id && id != s.devId &&
    (s.isDomainHead || (s.deputy == some s.devId && s.domainHead == some id))

/-- A spare entry of DEVICES that is not in the list of spares sends BEATs once it has been admitted: it joins at the next
commit, or at once when the job is PAUSED (R345). -/
def noteAdmitted (s : State) (id : Nat) : State :=
  if (s.entry id).any (·.spare) && !s.isSpare id && (s.fenceOf id).isNone && !s.fd.pendingAdmit.contains id then
    let s := s.onFd (fun f => { f with pendingAdmit := id :: f.pendingAdmit })
    if s.devState = DS.paused then s.admitSpares else s
  else s

/-- A BEAT is kept as the sender's latest (R326). -/
def beatIn (s : State) (src ts st : Nat) (image : BitVec 384) : State :=
  if !s.linksUp || s.img.cur.isNone || !s.watches src then s
  else
    let b : BeatSt := { id := src, lastTs := ts, misses := 0, st := st, image := image }
    let s := s.onFd (fun f => { f with beats := b :: f.beats.filter (fun x => x.id != src) })
    let s := if s.isDomainHead then s.noteAdmitted src else s
    if s.isDomainHead then s.selectWaiting.settleWaiting else s

/-- BEATs have come within the last miss_hb periods from more than half of the domain's healthy devices other than the
accused; a domain of fewer than 16 devices counts its head (R325, R330). -/
def heardMost (s : State) (accused : Nat) : Bool :=
  let ids := s.domainIds.filter (fun i => s.healthy i && i != accused)
  let heard := ids.filter (fun i =>
    (i == s.devId && decide (s.domainIds.length < 16)) ||
      (s.fd.beats.any (fun b => b.id == i && decide (s.now ≤ b.lastTs + s.missHb * s.beatPeriod i))))
  decide (ids.length < 2 * heard.length)

/-- miss_hb BEATs of a member have not come (R330): a head that hears most of its domain fences, another reports that it
cannot. A spare that has been woken for a graft sends none until it has taken over (R326). -/
def beatMiss (s : State) (id : Nat) : State :=
  let soon := match s.beatOf id with
    | some b => decide (s.now < b.lastTs + s.missHb * s.beatPeriod id)
    | none => false
  if !s.linksUp || s.img.cur.isNone || !s.watches id || soon || s.isFenced id || s.inGraft id then s
  else
    let s := s.onFd (fun f => { f with beats := f.beats.map (fun b => if b.id = id then { b with misses := s.missHb } else b) })
    if !s.heardMost id then
      (if s.isJobHead then s.event Err.timeout 1 id Src.fault false
        else (s.errRecord Err.timeout Src.fault).send (.noQuorum s.jobHead id))
    else s.headFence id (if s.isSpare id then FR.spareLost else FR.missed) 0

/-! ## Reports (R327 to R329) -/

def accuseOf (s : State) (id : Nat) : Option Accuse := s.fd.accuses.find? (fun a => a.accused == id)

/-- The reports on an accused after one more: the earliest first-miss, the distinct reporters, the count (R328). -/
def withReport (a : Option Accuse) (accused reporter ts : Nat) : Accuse :=
  match a with
  | none => { accused := accused, firstTs := ts, reporters := [reporter], count := 1 }
  | some a => { a with firstTs := min a.firstTs ts, reporters := (reporter :: a.reporters).eraseDups, count := a.count + 1 }

def report (s : State) (reporter accused ts : Nat) : State :=
  if !s.linksUp || s.img.cur.isNone || !s.watches accused then s
  else if s.isFenced accused then
    s.onFd (fun f => { f with fences := f.fences.map (fun x => if x.id = accused then { x with reports := min (x.reports + 1) 0x3ff } else x) })
  else
    let a := withReport (s.accuseOf accused) accused reporter ts
    s.onFd (fun f => { f with accuses := a :: f.accuses.filter (fun x => x.accused != accused) })

/-- q of FD_CFG. -/
def quorum (s : State) : Nat := getF s.mir.fdCfg fdCfg_q

/-- 1 ms after the earliest first-miss, with q reporters: a fence, unless a BEAT stamped later has come. -/
def reportWait (s : State) (accused : Nat) : State :=
  match s.accuseOf accused with
  | none => s
  | some a =>
    if !s.linksUp || !s.watches accused || decide (a.reporters.length < s.quorum) || decide (s.now < a.firstTs + msTicks) then s
    else if (s.beatOf accused).any (fun b => decide (a.firstTs < b.lastTs)) then
      s.onFd (fun f => { f with accuses := f.accuses.filter (fun x => x.accused != accused) })
    else s.headFence accused FR.reports a.reporters.length

/-- SELF_FAIL: fenced at once (R328); a spare that fails its self-test in a graft is fenced for that (R338). -/
def selfFailIn (s : State) (src : Nat) : State :=
  if !s.linksUp || s.img.cur.isNone || !s.watches src then s
  else
    s.headFence src (if s.inGraft src then FR.selfTest else FR.selfFail) 0

/-- A FENCE that is taken ends a restore under way as well (R363). -/
def fenceAll (s : State) (m : FenceMsg) : State :=
  let t := s.fenceIn m
  if !s.fd.sawFence.contains m.fenced && t.fd.sawFence.contains m.fenced then t.restoreFence m.fenced else t

/-! ## The graft at the spare (R324, R338 to R342) -/

def graftPhase (s : State) (ph err : Nat) : State :=
  match s.fd.taken with
  | none => s
  | some g => (s.onFd (fun f => { f with taken := some { g with phase := ph } })).graftStatus { g with phase := ph } err

/-- WAKE (R324): the spare leaves DORMANT, or a handshake toward it, and its self-test is due. -/
def wakeIn (s : State) (spare fenced epoch instant : Nat) : State :=
  let entering := s.handshaking && getF s.pow.hs pwrHandshakeStatus_target == PS.dormant
  if !s.linksUp || spare != s.devId || !s.isSpareHere || !(s.devState == DS.dormant || (s.devState == DS.loaded && entering)) ||
      (s.entry fenced).isNone then s
  else
    let s := if s.devState = DS.dormant then s.leaveDormant else s.abandonHandshake.drawJobKeys
    let g : Graft :=
      { fenced := fenced
        spare := some spare
        planned := !s.isFenced fenced
        phase := GP.selfTest
        matched := []
        mismatches := 0
        source := 3
        epoch := epoch
        instant := instant }
    (s.onFd (fun f => { f with taken := some g })).graftStatus g Err.ok

/-- The role of an ID by DEVICES. -/
def roleOf (s : State) (id : Nat) : Option RolePart :=
  match s.image, s.entry id with
  | some i, some e => i.roles.find? (fun r => r.role == e.role)
  | _, _ => none

/-- The first source: the lower-ID healthy buddy, else a REPLICA peer (R339; log 39). -/
def firstSource (s : State) (fenced : Nat) : Nat :=
  match s.entry fenced with
  | none => 2
  | some e =>
    match e.b1.filter s.healthy, e.b2.filter s.healthy with
    | some a, some b => if b < a then 1 else 0
    | some _, none => 0
    | none, some _ => 1
    | none, none => 2

/-- The source after one whose digests did not match (R339). -/
def nextSource (s : State) (g : Graft) : Nat :=
  let other := 1 - g.source
  let e := s.entry g.fenced
  let b := if other = 0 then e.bind (·.b1) else e.bind (·.b2)
  if g.source < 2 ∧ (b.map s.healthy).getD false = true ∧ s.firstSource g.fenced = g.source then other else 2

/-- Sites that fail the device's test: judged, and a logical tile on one moves to a spare site (R338, R348). -/
def testSites (s : State) (rs : List SiteRes) : State :=
  rs.foldl (fun s r =>
    let s := s.judge r
    let bad := !usableUnits (s.siteVerdict r.p r.s)
    if !bad then s
    else if s.siteRole r.p r.s = 0 then s.graftTile ⟨r.p, getF (s.site r.p r.s).bist siteBist_logicalT⟩ []
    else (s.setSiteRole r.p r.s 2 0xff).countYield r.p) s

/-- The quick device self-test ends (R338). A failure is told to the head, which fences the spare. -/
def deviceSelfTest (s : State) (rs : List SiteRes) (hbmOk exvOk : Bool) : State :=
  match s.fd.taken with
  | none => s
  | some g =>
    if !s.alive || g.phase != GP.selfTest then s
    else
      let s := s.testSites rs
      if !hbmOk || !exvOk || s.fd.selfFailed.isSome then
        let s := s.graftPhase GP.failed (if exvOk then Err.yield else Err.digest)
        if s.fd.selfFailed.isSome then s else s.send (.selfFail s.myHead causeNoSpare)
      else
        let g' : Graft := { g with phase := GP.loading, source := s.firstSource g.fenced }
        (s.onFd (fun f => { f with taken := some g' })).graftStatus g' Err.ok

/-- STATE pages of one partition arrive with their digest (R339): written to STATE of the fenced ID's role. -/
def stateLoad (s : State) (p v : Nat) (pages : List (List Byte)) (d : BitVec 384) (scales : List TensorState) : State :=
  match s.fd.taken with
  | none => s
  | some g =>
    if !s.alive || g.phase != GP.loading || g.matched.contains p then s
    else
      let r := s.roleOf g.fenced
      let base := (r.bind (fun r => r.regions.find? (fun x => x.part == p && x.ty == .state))).map (·.base)
      let bs := pages.flatMap (fun x => x.take pageBytes)
      let s := match base with
        | some b => { s with mem := Memory.writeN s.mem (partBase p + b) bs }
        | none => s
      let s := match r with
        | some r => s.onPart p (fun a => { a with pages := freshPages r p })
        | none => s
      if Config.sha384 bs = d then
        let m := p :: g.matched
        let g' : Graft := { g with matched := m, vintage := v, scales := g.scales ++ scales, phase := if m.length = 8 then GP.takeOver else GP.loading }
        (s.onFd (fun f => { f with taken := some g' })).graftStatus g' Err.ok
      else
        let n := g.mismatches + 1
        let spent := decide (getF s.step.ctl stepCtl_replayMax ≤ n)
        let g' : Graft := { g with mismatches := if spent then 0 else n, source := if spent then s.nextSource g else g.source }
        ((s.onFd (fun f => { f with taken := some g' })).graftStatus g' Err.ok).errRecord Err.digest Src.fault

/-- The image as the device holds it under its new ID. -/
def asMember (s : State) (fenced : Nat) : State :=
  { s with dev := { s.dev with id := setF s.dev.id devId_id fenced, state := setF s.dev.state devState_spare 0 } }

/-- The objects of the checkpoint of S(v) that fell due by its period pass to the spare where it is the only healthy member of
its REPLICA group (R357, log 84). -/
def takeOverStreams (s : State) (v : Nat) : State :=
  let due := (s.ckptItem.map (fun p => p.ckptPeriod != 0 && v % p.ckptPeriod == 0)).getD false
  if due && (s.replicaIds.filter s.healthy).length == 1 && s.sec.slots.any (fun k => k.1 == 0) then s.startStreams v else s

/-- Take-over (R340): ID, role, buddies and memberships; S(N) as loaded, its scale state, an empty cellar; GRAFT_DONE and
the decanting report. `attempt` is that of the open vintage and `running` whether the job runs, as its heads have them
(log 38). A spare whose count is not disciplined yet does not take over (R17). -/
def takeOver (s : State) (attempt : Nat) (running : Bool) : State :=
  match s.fd.taken, s.img.cur with
  | some g, some cur =>
    if !s.alive || g.phase != GP.takeOver || !flagF s.time.syncStatus tsSyncStatus_locked then s
    else match cur.img.devices.find? (fun d => d.id == g.fenced) with
      | none => s
      | some d =>
        let role := cur.img.roles.find? (fun r => r.role == d.role)
        let former := s.devId
        let s := (s.asMember g.fenced).writeRegs cur.hdr d false
        let s : State := { s with job := { Job.reset with ledgerSeq := s.job.ledgerSeq, gen := s.job.gen, established := true } }
        let s := s.writeTiles cur.img role []
        let s := s.allTiles (fun t =>
          let slots := Sparse.mapV Slot.reset (restoredSlot g.scales) t.slots
          { t with slots := slots, slotsB := slots })
        let s : State := { s with
          time := { s.time with epoch := g.epoch, offset := -(g.instant : Int) }
          step := { s.step with committed := setF 0 vintageCommitted_vintage g.vintage } }
        let done : Graft := { g with phase := if running then GP.replay else GP.done }
        let s := s.onFd (fun f => { f with
          taken := some done
          spares := f.spares.filter (fun i => some i != g.spare)
          fences := (f.fences.filter (fun x => x.id != g.fenced)) ++ [{ id := g.fenced, status := 1, reason := FR.selfFail, reporters := 0, reports := 0 }]
          sawFence := f.sawFence.filter (fun i => i != g.fenced) })
        let s := (s.graftStatus done Err.ok).refreshHeads
        let m := Msg.graftDone g.fenced former g.source g.vintage
        let s := (s.send m).rotateSnapshot.startRacking.takeOverStreams g.vintage
        if running then
          let s := (s.toState DS.running).openVint (g.vintage + 1)
          let s := (s.onVint (g.vintage + 1) (fun x => { x with attempt := attempt })).refreshOpen
          (s.onJob (fun j => { j with rollbackAt := some s.now })).reportDecant
        else s.toState DS.paused
  | _, _ => s

/-! ## GRAFT_DONE everywhere (R331, R340, R304, R315, R378) -/

/-- Exchange two IDs. -/
def swapId (a b x : Nat) : Nat := if x = a then b else if x = b then a else x

/-- The port dies' tables in one update (R378). -/
def moveEntry (s : State) (newId former : Nat) : State :=
  let f := s.fabric
  let t := match f.transit.find? (fun t => t.dest == former) with
    | some e => { e with dest := newId } :: f.transit.filter (fun t => t.dest != newId && t.dest != former)
    | none => f.transit
  { s with fabric := { f with transit := t, peers := f.peers.map (fun e => (e.1, e.2.map (fun q => (swapId newId former q.1, q.2)))) } }

/-- A buddy has been replaced: its mirror here is empty, and S(N) is racked to it (R304, R340). -/
def newBuddy (s : State) (id : Nat) : State :=
  if !s.buddies.contains id then s
  else
    let f := s.inField id
    let s : State := { s with mir := { s.mir with rackStatus := setF s.mir.rackStatus f 0 } }
    if s.inState [DS.running, DS.paused] then s.rerack id (List.range 8) else s

/-- The job head asks for the data lots of every uncommitted vintage (R315). -/
def askRefeed (s : State) (id : Nat) : State :=
  if s.isJobHead && s.devState == DS.running then s.job.uncommitted.foldl (fun s _ => s.event Err.ok 0 id Src.step true) s else s

/-- The head's graft is done; a planned one has the outgoing device fenced first (R344). -/
def graftDoneAtHead (s : State) (newId former source : Nat) : State :=
  if !s.isDomainHead then s
  else
    let g := (s.fd.grafts.find? (fun g => g.fenced == newId)).getD
      { fenced := newId, spare := some former, planned := false, phase := GP.done, matched := [], mismatches := 0, source := source }
    let s := if g.planned then s.takeFence newId FR.planned 0 else s
    s.putGraft { g with spare := some former, phase := GP.done, source := source } Err.ok

def graftDone (s : State) (newId former source _vintage : Nat) : State :=
  if !s.linksUp || s.img.cur.isNone || newId == s.devId then s
  else
    let s := (s.graftDoneAtHead newId former source).moveEntry newId former
    let s := (s.setFenceStatus newId 1).onFd (fun f => { f with
      sawFence := f.sawFence.filter (fun i => i != newId)
      spares := f.spares.filter (fun i => i != former)
      beats := f.beats.filter (fun b => b.id != newId && b.id != former)
      reported := f.reported.filter (fun r => r.1 != newId) })
    let s := s.refreshHeads
    let s := s.event Err.ok 1 newId Src.fault false
    (s.newBuddy newId).askRefeed newId

/-! ## GRAFT_CTL (R344, R345, R350) -/

def graftRunning (s : State) : Bool :=
  s.fd.grafts.any (fun g => g.phase != GP.done && g.phase != GP.failed) || s.fd.admitting

/-- What a go with a given op fails with. -/
def graftCheck (s : State) (w : Word) : Nat :=
  let op := getF w graftCtl_op
  let target := getF w graftCtl_target
  let named := !flagF w graftCtl_auto
  if op = 0 then Err.ok
  else if op = 1 ∧ (s.devState ≠ DS.paused ∨ s.isDomainHead = false) then Err.state
  else if op = 2 ∧ (s.inState [DS.running, DS.paused] = false ∨ s.isDomainHead = false) then Err.state
  else if op = 3 ∧ (s.devState ≠ DS.loaded ∨ s.isSpareHere = false) then Err.state
  else if !s.domainIds.contains target then Err.range
  else if op = 1 ∧ s.acked = false then Err.state
  else if op = 1 ∧ named = true ∧ s.eligible (getF w graftCtl_spare) = false then Err.absent
  else if op = 1 ∧ named = false ∧ s.eligibleSpares = [] then Err.absent
  else if (op = 1 ∨ op = 3) ∧ s.graftRunning = true then Err.busy
  else if op = 2 ∧ s.graftRunning = true then Err.busy
  else Err.ok

/-- The op starts. -/
def graftGo (s : State) (w : Word) : State :=
  let target := getF w graftCtl_target
  match getF w graftCtl_op with
  | 1 =>
    let sp := if flagF w graftCtl_auto then (lowest s.eligibleSpares).getD 0xffff else getF w graftCtl_spare
    if flagF w graftCtl_auto && s.asks 1 then s.ask 1 target (sp + 2 ^ 16) [target, sp] else s.wakeFor target sp true
  | 2 => s.headFence target FR.hostRequest 0
  | 3 =>
    { s with
      fd := { s.fd with admitting := true }
      mir := { s.mir with graftStatus := setF s.mir.graftStatus graftStatus_err Err.ok } }
  | _ => s

/-- The admission test ends (R345, R473): a device that passes is a spare that may go DORMANT, one that fails stays LOADED
with its code. -/
def admissionDone (s : State) (rs : List SiteRes) (memOk linksOk exvOk : Bool) : State :=
  if !s.alive || !s.fd.admitting then s
  else
    let s := s.onFd (fun f => { f with admitting := false })
    let s := s.testSites rs
    let bad := s.fd.selfFailed.isSome || (List.range 8).any (fun p => flagF (s.part p).yield yieldSummary_short)
    let e := if !exvOk then Err.digest else if !memOk || !linksOk || bad then Err.yield else Err.ok
    let s : State := { s with mir := { s.mir with graftStatus := setF s.mir.graftStatus graftStatus_err e } }
    let s := if e = Err.ok then s.onFd (fun f => { f with spares := if f.spares.contains s.devId then f.spares else s.devId :: f.spares }) else s
    s.event e 1 s.devId Src.fault false

end State

/-- BEAT_SEND (R326). -/
def execBeatSend (s : State) : Host.Outcome State Fault Refusal := .next s.beatSend

/-- BEAT (R326, R330). -/
def execBeat (src ts : Nat) (st : BeatFrom) (_progress : Nat) (s : State) : Host.Outcome State Fault Refusal :=
  .next (s.beatIn src ts st.devState st.image)

/-- BEAT_MISS (R330). -/
def execBeatMiss (member : Nat) (s : State) : Host.Outcome State Fault Refusal := .next (s.beatMiss member)

/-- REPORT (R328, R329). -/
def execReport (reporter accused ts : Nat) (s : State) : Host.Outcome State Fault Refusal := .next (s.report reporter accused ts)

/-- REPORT_WAIT_EXPIRY (R328). -/
def execReportWaitExpiry (accused : Nat) (s : State) : Host.Outcome State Fault Refusal := .next (s.reportWait accused)

/-- SELF_FAIL (R328). -/
def execSelfFail (src _ts _cause : Nat) (s : State) : Host.Outcome State Fault Refusal := .next (s.selfFailIn src)

/-- FENCE (R331, R332, R363). -/
def execFence (m : FenceMsg) (s : State) : Host.Outcome State Fault Refusal := .next (s.fenceAll m)

/-- WAKE (R324). -/
def execWake (spare fenced epoch instant : Nat) (s : State) : Host.Outcome State Fault Refusal := .next (s.wakeIn spare fenced epoch instant)

/-- DEVICE_SELF_TEST (R338). -/
def execDeviceSelfTest (fails : List SiteRes) (hbmOk exvOk : Bool) (s : State) : Host.Outcome State Fault Refusal :=
  .next (s.deviceSelfTest fails hbmOk exvOk)

/-- STATE_LOAD (R339). -/
def execStateLoad (p vintage : Nat) (pages : List (List Byte)) (digest : BitVec 384) (scales : List TensorState) (s : State) :
    Host.Outcome State Fault Refusal := .next (s.stateLoad p vintage pages digest scales)

/-- TAKE_OVER (R340). -/
def execTakeOver (attempt : Nat) (running : Bool) (s : State) : Host.Outcome State Fault Refusal := .next (s.takeOver attempt running)

/-- GRAFT_DONE (R340, R378). -/
def execGraftDone (newId former source vintage : Nat) (s : State) : Host.Outcome State Fault Refusal :=
  .next (s.graftDone newId former source vintage)

/-- ADMISSION_TEST_COMPLETE (R345). -/
def execAdmissionTestComplete (fails : List SiteRes) (memOk linksOk exvOk : Bool) (s : State) : Host.Outcome State Fault Refusal :=
  .next (s.admissionDone fails memOk linksOk exvOk)

end Sys2Proof.Machine
end

