-- ==== Sys2Proof/Machine/Stage5.lean ====
section
/-!
DEFINITION. Licences as they are stored and applied (R427, R428, R471), and the passes through bring-up stage 5: site
verdicts, numbering and the grade (R467 to R472).
-/
namespace Sys2Proof.Machine

/-- Tiles of a partition that a licence grants (R427, R469). -/
def licTiles (l : Lic) : Nat := if l.gradeF then 160 else 128

/-- Stage status codes (R462) of stage 5. -/
def st5Passed : Nat := 2
def st5Short : Nat := 0x50
def st5NoLicence : Nat := 0x51

namespace State

/-- The stored licence when it verifies and names this device (R464). -/
def goodLicence (s : State) : Option Lic := s.flash.licence.filter (fun l => l.verifies && l.serial == s.flash.serial)

/-- LICENCE_STATUS shows the stored and the applied licence (R475). A verified licence that is not the applied one is
pending. -/
def refreshLicence (s : State) : State :=
  let code := match s.flash.licence, s.goodLicence with
    | none, _ => 0
    | some _, none => 2
    | some _, some l => if s.boot.applied = some l then 1 else 3
  let w := setF (0 : Word) licenceStatus_stored code
  let w := match s.flash.licence with
    | some l => setF (setF (setF w licenceStatus_storedIssue l.issue) licenceStatus_portsLicensed l.ports) licenceStatus_featStored l.features
    | none => w
  let w := match s.boot.applied with
    | some l => setF (setF (setF (setF w licenceStatus_applied 1) licenceStatus_grade (bit l.gradeF)) licenceStatus_portsApplied s.portsEnabled)
        licenceStatus_featApplied l.features
    | none => w
  { s with rootstock := { s.rootstock with lic := w } }

/-- Licence application (R471): grade, features and port count in DEV_CAPS; newly enabled ports train. -/
def applyLicence (s : State) (l : Lic) : State :=
  let c := setF (setF (setF s.dev.caps devCaps_tiles (licTiles l)) devCaps_feat l.features) devCaps_portsEnabled (min l.ports s.portsPresent)
  let s : State := { s with
    dev := { s.dev with caps := c }
    boot := { s.boot with applied := some l }
    sec := { s.sec with mode := setF s.sec.mode secMode_licIssue l.issue } }
  s.refreshLicence.reholdPorts

/-- No grade is applied (R470). -/
def unapply (s : State) : State :=
  ({ s with
    dev := { s.dev with caps := setF s.dev.caps devCaps_tiles 0 }
    boot := { s.boot with applied := none } }).refreshLicence

/-! ## Site verdicts of a pass (R466, R468, R472) -/

/-- A site's result joined with its tile-store march (R466). -/
def withMarch (s : State) (rs : List SiteRes) : List SiteRes :=
  let marked := s.sites.filter (fun x => flagF x.2.bist siteBist_storeFail)
  rs.map (fun r => if flagF (s.site r.p r.s).bist siteBist_storeFail then { r with first := r.first ||| 2 ^ 14 } else r) ++
    (marked.filter (fun x => rs.all (fun r => r.p * 256 + r.s != x.1))).map (fun x =>
      ({ p := x.1 / 256, s := x.1 % 256, first := 2 ^ 14, retest := 0 } : SiteRes))

/-- SITE_BIST after every site has been tested: what failed a retest (R71, R467). -/
def writeBists (s : State) (units : Nat) (rs : List SiteRes) : State :=
  (List.range 8).foldl (fun s p => (List.range siteCount).foldl (fun s x =>
    let fails := rs.foldl (fun m r => if r.p = p ∧ r.s = x then m ||| (r.first &&& r.retest) else m) 0
    let a := s.site p x
    s.setSite p x { a with bist := testBits a.bist units fails }) s) s

/-- The counts of the latest pass begin at 0. -/
def clearPass (s : State) : State :=
  s.allParts (fun a => { a with yield := setF (setF a.yield yieldSummary_retestPass 0) yieldSummary_softNew 0 })

/-- Verdicts of every unit after the tests of a pass. -/
def decideSites (s : State) (units : Nat) (rs : List SiteRes) : State :=
  rs.foldl judge ((s.clearPass).writeBists units rs)

/-! ## Numbering and the end of the pass (R469 to R471) -/

/-- The outcome of stage 5 in BOOT_STATUS and BOOT_STAGE, and the state it leads to. -/
def endStage5 (s : State) (code err : Nat) : State :=
  let st := setF (setF s.rootstock.status bootStatus_st5 code) bootStatus_err err
  let stage := setF s.rootstock.stage bootStage_stage (if err = Err.ok then 6 else 0xf)
  let s := ({ s with rootstock := { s.rootstock with status := st, stage := stage } }).errRecord err Src.boot
  s.toState (if err = Err.ok then DS.ready else DS.linked)

/-- Tiles beyond the grade hold no number. -/
def dropTiles (s : State) (n : Nat) : State := { s with tiles := s.tiles.filter (fun x => decide (x.1 % 256 < n)) }

/-- The running firmware's security version enters the fuse counter (R415). -/
def advanceFuse (s : State) : State :=
  let v := max s.flash.fuseSvn (getF s.rootstock.fw fwVersion_fwSvn)
  { s with
    flash := { s.flash with fuseSvn := v }
    rootstock := { s.rootstock with fw := setF s.rootstock.fw fwVersion_fuseSvn v } }

/-- Numbering and licence application from the recorded verdicts. -/
def numberAll (s : State) : State :=
  match s.goodLicence with
  | none =>
    let s := (List.range 8).foldl (fun s p => (s.roleSites p).countYieldFor p 0) s
    (s.dropTiles 0).unapply.endStage5 st5NoLicence Err.absent
  | some l =>
    let n := licTiles l
    if (List.range 8).any (fun p => decide ((s.usableSites p).length < n)) then
      let s := (List.range 8).foldl (fun s p => (s.roleSites p).countYieldFor p n) s
      (s.dropTiles 0).unapply.endStage5 st5Short Err.yield
    else
      let s := (s.dropTiles n).applyLicence l
      let s := (List.range 8).foldl (fun s p => (s.numberPart p n).countYieldFor p n) s
      s.advanceFuse.endStage5 st5Passed Err.ok

/-- A pass counts in BOOT_STATUS (R475). -/
def countPass (s : State) : State :=
  { s with rootstock := { s.rootstock with status := bumpF s.rootstock.status bootStatus_passes 1 } }

/-- A pass with no image loaded (R467 to R472). -/
def passStage5 (s : State) (units : Nat) (rs : List SiteRes) : State := (s.countPass.decideSites units rs).numberAll

/-- A device that stage 5 has left at LINKED applies a licence at once (R428, R470). -/
def heldAtLinked (s : State) : Bool :=
  s.devState == DS.linked && [st5Short, st5NoLicence].contains (getF s.rootstock.status bootStatus_st5)

end State
end Sys2Proof.Machine
end

