-- ==== Sys2Proof/Machine/Resets.lean ====
section
/-!
DEFINITION. Hangs, fences and resets: captures, the reset levels, escalation, retirement, and the watchdogs
(R432 to R448).
-/
namespace Sys2Proof.Machine

/-! Causes of the capture header (R437): rows of the Watchdogs table, then host, escalation, HANG. -/
namespace RC
def unit : Nat := 1
def heartbeat : Nat := 2
def memPort : Nat := 4
def router : Nat := 5
def host : Nat := 9
def escalation : Nat := 10
def hang : Nat := 11
end RC

/-! Reasons of FENCE_STATUS (R448). -/
namespace FS
def watchdog : Nat := 1
def escalation : Nat := 2
def host : Nat := 3
def compute : Nat := 4
def hang : Nat := 5
end FS

/-- Partition states of PART_STATUS. -/
def pUp : Nat := 0
def pFenced : Nat := 1
def pResetting : Nat := 4
def pHeld : Nat := 5
def pRetired : Nat := 6

/-- The partition of a reset's scope. -/
def scopePart : Scope → Option Nat
  | .unit p _ _ => some p
  | .memPort p _ _ => some p
  | .router p => some (p % 8)
  | .part p => some p
  | .compute => none

/-- Number of a watched object in a decision request. A router of partition p is p, its die link p + 8. -/
def scopeCode : Scope → Nat
  | .unit p t u => ((1 * 8 + p) * 256 + t) * 256 + u
  | .memPort p k pch => ((2 * 8 + p) * 256 + k) * 256 + pch
  | .router p => (3 * 8 * 256 + p) * 256
  | .part p => (4 * 8 + p) * 65536
  | .compute => 5 * 8 * 65536

/-- The unit number under which a tile's heartbeat is watched. -/
def heartbeatUnit : Nat := 28

/-- Timeouts of the reset levels, in ticks of TS64: engine, partition, compute (R441). -/
def engineBound : Nat := 100 * usTicks
def partBound : Nat := 50 * msTicks
def testRound : Nat := 8 * msTicks
def computeBound : Nat := 2000 * msTicks

/-- What a capture takes of one tile (R437). -/
def siteCap (t : Tile) : SiteCap :=
  { site := getF t.map tileMap_site, state := getF t.status tileStatus_tileState, fault := getF t.status tileStatus_faultCode,
    arrays := t.arrays.map (fun a => (a.1, a.2.passes)), loaderA := t.loaderA, loaderB := t.loaderB, counters := t.counters,
    index := t.seq.index, loops := t.seq.loops, chans := t.chans, marks := t.marks }

/-- A tile after a partition reset (R440): transient contents lost, IDLE, fault code 0x00. -/
def resetTile (t : Tile) : Tile :=
  let u := eraseTile (haltTile t)
  { u with
    status := setF u.status tileStatus_faultCode 0
    stash := Stash.reset, accepted := [], marks := [], heartbeat := 0 }

/-- An engine cleared to idle (R440): what its unit holds is lost, and the fault of its watchdog with it. -/
def clearUnit (t : Tile) (u : Nat) : Tile :=
  let st := t.status
  let st := if getF st tileStatus_faultCode = 8 then setF (setF st tileStatus_faultCode 0) tileStatus_tileState TS.idle else st
  let t := { t with status := st, marks := Sparse.drop t.marks u }
  if u < 14 then { t with arrays := Sparse.drop t.arrays u }
  else if u = 14 then { t with loaderA := none }
  else if u = 15 then { t with loaderB := none }
  else if u = 16 then { t with casks := [] }
  else if u = 17 then { t with lees := [], rowIn := [] }
  else if u = 18 then { t with vecIn := [] }
  else if u = 19 then { t with seq := Seq.reset, counters := [] }
  else { t with chans := Sparse.drop t.chans (u - 20) }

namespace State

/-! ## Fences and captures (R435, R437) -/

/-- Bytes of a capture: the header, or more than the spec gives a size for (log 20). -/
def captureBytes (s : State) (p : Nat) : Nat :=
  if getF (s.part p).ctl partCtl_captureDetail = 0 then 32 else s.freeValue.toNat % 0x1000000

/-- A capture fills the next slot of a partition's ring. -/
def capture (s : State) (p level cause object : Nat) (ts : List Tile) : State :=
  let a := s.part p
  let detail := getF a.ctl partCtl_captureDetail
  let c : Capture :=
    { level := level, cause := cause, object := object, ts := s.now, vintage := s.openVintage, attempt := s.openAttempt,
      bytes := s.captureBytes p, sites := if detail = 0 then [] else ts.map siteCap }
  let k := getF a.capturePtr capturePtr_next
  (s.useFree).setPart p { a with
    captures := Sparse.put a.captures k c
    capturePtr := setF (setF a.capturePtr capturePtr_next (k + 1)) capturePtr_held (min (getF a.capturePtr capturePtr_held + 1) 16)
    status := setF a.status partStatus_lastCause cause }

/-- Tiles of a partition. -/
def partTiles (s : State) (p : Nat) : List Tile := (s.tiles.filter (fun x => x.1 / 256 == p)).map (·.2)

/-- RST_HISTORY counts a reset (R447). -/
def noteReset (s : State) (level cause parts : Nat) : State :=
  let w := setF (setF (setF (bumpF s.rst.history rstHistory_resets 1) rstHistory_lastLevel level) rstHistory_lastCause cause)
    rstHistory_lastParts parts
  { s with rst := { s.rst with history := w } }

/-- The fence of a partition (R435): requests are refused from now on; the drain takes at most 10 ms. -/
def fencePart (s : State) (p reason pst : Nat) : State :=
  let us := s.freeValue.toNat % 10001
  (s.useFree).onPart p (fun a => { a with
    fenceStatus := setF (setF (setF a.fenceStatus fenceStatus_fenced 1) fenceStatus_reason reason) fenceStatus_drainUs us
    status := setF a.status partStatus_pstate pst })

/-- The fence of a partition is lifted. -/
def unfencePart (s : State) (p : Nat) : State :=
  s.onPart p (fun a => { a with
    fenceStatus := setF (setF a.fenceStatus fenceStatus_fenced 0) fenceStatus_reason 0
    fenceCtl := setF a.fenceCtl fenceCtl_fence 0
    status := setF a.status partStatus_pstate pUp })

/-! ## What every reset does at its start (R439, R446, R451) -/

/-- The running step fails at once (R439). -/
def failNow (s : State) : State := if s.devState = DS.running then s.failingReport else s

/-- Power returns to ACTIVE, a handshake is refused by the reset partition, an image load is abandoned. -/
def beforeReset (s : State) (p : Nat) : State :=
  let s := if s.devState = DS.dormant then s.leaveDormant else s.ensureActive
  let s := if s.handshaking then s.refuseHandshake p 4 0 else s
  s.abandonLoad.failNow

/-- Waits and holds of a partition's scopes end with its reset (R442); their requests are withdrawn. -/
def withdraw (s : State) (inScope : Scope → Bool) : State :=
  let gone := (s.rst.held.filter (fun h => inScope h.1)).map (fun h => scopeCode h.1)
  { s with
    decisions := s.decisions.filter (fun d => d.duty != 6 || !gone.contains d.arg)
    rst := { s.rst with held := s.rst.held.filter (fun h => !inScope h.1) } }

/-- Resets in progress within a partition, or all. -/
def ofPart (p : Nat) (sc : Scope) : Bool := scopePart sc == some p

/-- A reset begins: its scope, its start and its timeout. -/
def beginReset (s : State) (sc : Scope) (bound : Nat) : State :=
  { s with rst := { s.rst with active := (sc, s.clock, bound) :: s.rst.active } }

/-- Engine reset of a tile unit or of a memory port. -/
def startEngine (s : State) (sc : Scope) (p cause object : Nat) (ts : List Tile) : State :=
  let s := ((s.beforeReset p).capture p 0 cause object ts).noteReset 0 cause (2 ^ p)
  (s.onPart p (fun a => { a with status := bumpF a.status partStatus_engineResets 1 })).beginReset sc engineBound

/-- Tiles of a partition whose watchdogs have expired since the last commit: their sites are tested (R438). -/
def expiredTiles (s : State) (p : Nat) : Nat :=
  ((s.rst.levels.filterMap (fun x => match x.1 with
    | .unit q t _ => if q = p then some t else none
    | _ => none)).eraseDups).length

/-- Timeout of a partition reset (R438): 8 ms more for each further round of 16 tested sites, expired and spare. The
extension for grafts onto untested spare sites is log 89's. -/
def partTimeout (s : State) (p : Nat) : Nat :=
  let n := s.expiredTiles p
  partBound + (n + min n (s.spareSites p).length - 1) / 16 * testRound

/-- Transfers of a partition's tiles that have not drained when its reset takes them are answered ERR_FENCED and counted in
errored (R435). How many drain first is open: a free value (log 20). -/
def dropTransfers (s : State) (p : Nat) : State :=
  let n := (s.partTiles p).foldl (fun n t => n + (t.chans.filter (fun c => !c.2.queue.isEmpty)).length) 0
  let k := s.freeValue.toNat % (n + 1)
  (s.useFree).onPart p (fun a => { a with fenceStatus := bumpF a.fenceStatus fenceStatus_errored k })

/-- Partition reset: fence, capture, and the loss of what the tiles hold. -/
def startPart (s : State) (p cause reason object : Nat) : State :=
  let s := (((s.beforeReset p).withdraw (ofPart p)).fencePart p reason pResetting).dropTransfers p
  let s := (s.capture p 1 cause object (s.partTiles p)).noteReset 1 cause (2 ^ p)
  let s : State := { s with
    tiles := (s.tiles.map (fun x => if x.1 / 256 = p then (x.1, resetTile x.2) else x)).filter (fun x => x.2 != Tile.reset)
    rst := { s.rst with active := s.rst.active.filter (fun r => !ofPart p r.1) } }
  s.beginReset (.part p) (s.partTimeout p)

/-! ## Counting and retirement (R443, R444) -/

/-- Starts that lie in a window of n seconds. -/
def inWindow (s : State) (n : Nat) (starts : List Nat) : Nat := (starts.filter (fun t => decide (s.clock < t + n * 1000 * msTicks))).length

def partWindow (s : State) (p : Nat) : Nat := s.inWindow (getF s.rst.esc rstEscTable_partWindowS) (s.part p).resetStarts

def compWindow (s : State) : Nat := s.inWindow (getF s.rst.esc rstEscTable_compWindowS) s.rst.compStarts

/-- A partition reset counts, completed or not. -/
def countPart (s : State) (p start : Nat) : State :=
  s.onPart p (fun a => { a with
    resetStarts := start :: a.resetStarts
    status := bumpF a.status partStatus_partResets 1 })

/-- Uncommitted state is discarded; S(N) stays as it is (R440). -/
def dropUncommitted (s : State) : State :=
  ((s.decantPages).onJob (fun j => { j with uncommitted := [], evaluating := false, rollbackAt := none, ckpt := none })).refreshOpen

/-- The device goes out of service (R444): RETIRED, compute rails off, a retirement record. -/
def outOfService (s : State) : State :=
  if s.devState = DS.retired then s
  else
    let s := ((s.abandonHandshake.abandonLoad.withdraw (fun _ => true)).haltStages).dropUncommitted
    let s := s.allTiles (fun t => { resetTile t with prog := [], funcs := [] })
    let s : State := { s with
      flash := { s.flash with retired := true }
      rst := { s.rst with active := [], history := setF s.rst.history rstHistory_lastLevel 3 } }
    ((s.railsOff 0xff).toState DS.retired).event Err.retired 2 0 Src.reset true

/-- A partition whose count is reached is retired, and the device with it. -/
def retirePart (s : State) (p : Nat) : State :=
  let s := (s.fencePart p (getF (s.part p).fenceStatus fenceStatus_reason) pRetired).railsOff (2 ^ p)
  let s : State := { s with rst := { s.rst with
    history := setF s.rst.history rstHistory_retiredParts (getF s.rst.history rstHistory_retiredParts ||| 2 ^ p) } }
  s.outOfService

/-- The counts of RST_ESC_TABLE against the windows. -/
def checkCounts (s : State) : State :=
  let full := (List.range 8).filter (fun p => !s.partRetired p && decide (getF s.rst.esc rstEscTable_partCount ≤ s.partWindow p))
  let s := full.foldl retirePart s
  if getF s.rst.esc rstEscTable_compCount ≤ s.compWindow then s.outOfService else s

/-! ## Compute reset (R347, R439, R446) -/

/-- A compute reset in FENCED or QUARANTINE discards the loaded image and the assignment of the ID (R347). -/
def discardImage (s : State) : State :=
  if !s.inState [DS.fenced, DS.quarantine] then s
  else
    let s : State := { s with
      img := { cur := none, load := none }
      job := { Job.reset with ledgerSeq := s.job.ledgerSeq, gen := s.job.gen }
      fd := Fd.reset, fabric := Fabric.reset
      dev := { s.dev with id := setF s.dev.id devId_assigned 0, state := setF s.dev.state devState_spare 0 }
      sec := { s.sec with mode := setF s.sec.mode secMode_sealed 0 } }
    let s := (List.range 36).foldl (fun s n => s.onPort n (fun p => { p with squelchedFor := none })) s
    s.refreshOpen.reholdPorts

/-- A compute reset: partition resets in progress are abandoned and count. -/
def startCompute (s : State) (cause reason object : Nat) : State :=
  let s := (s.beforeReset 0).withdraw (fun _ => true)
  let s := s.rst.active.foldl (fun s r => match r.1 with
    | .part p => s.countPart p r.2.1
    | _ => s) s
  let s := (List.range 8).foldl (fun s p => ((s.fencePart p reason pResetting).dropTransfers p).capture p 2 cause object (s.partTiles p)) s
  let s := (s.noteReset 2 cause 0xff).discardImage
  let s : State := { s.allTiles resetTile with rst := { s.rst with active := [] } }
  s.beginReset .compute computeBound

/-! ## Escalation (R441, R442) -/

/-- A reset of an object at a level. -/
def takeReset (s : State) (o : Scope) (level cause reason object : Nat) (ts : List Tile) : State :=
  let s : State := { s with rst := { s.rst with levels := (o, level) :: s.rst.levels.filter (fun x => x.1 != o) } }
  match level, scopePart o with
  | 0, some p => s.startEngine o p cause object ts
  | 1, some p => s.startPart p cause reason object
  | 1, none => s.startCompute cause FS.compute object
  | 2, _ => s.startCompute cause FS.compute object
  | _, _ => s.outOfService

/-- A running reset, or the fence of a partition, covers an object (R446). -/
def covered (s : State) (o : Scope) : Bool :=
  s.rst.active.any (fun r => r.1 == .compute || r.1 == o) || s.rst.held.any (fun h => h.1 == o) ||
    (scopePart o).any (fun p => s.partFenced p)

/-- The scope of a level stays fenced while an escalation waits for its decision. -/
def waitFenced (s : State) (o : Scope) (level : Nat) : State :=
  match level, scopePart o with
  | 0, _ => s
  | 1, some p => s.fencePart p FS.escalation pFenced
  | _, _ => (List.range 8).foldl (fun s p => s.fencePart p FS.escalation pFenced) s

/-- A watchdog expires on an object whose first level is `base`: again before the next commit, one level above the last
(R441); with the duty the host is asked first (R442). -/
def expire (s : State) (o : Scope) (base cause object : Nat) (ts : List Tile) : State :=
  if s.covered o then s
  else match s.rst.levels.find? (fun x => x.1 == o) with
    | none => s.takeReset o base cause FS.watchdog object ts
    | some (_, l) =>
      if s.asks 6 then
        let s := (s.failNow).waitFenced o l
        let s : State := { s with rst := { s.rst with held := (o, l + 1) :: s.rst.held } }
        s.ask 6 (scopeCode o) (l + 1) [l + 1, object, (scopePart o).getD 0xff]
      else s.takeReset o (l + 1) RC.escalation FS.escalation object ts

/-- The escalation that a decision, or its deadline, lets go on (R442). -/
def escalate (s : State) (code : Nat) : State :=
  match s.rst.held.find? (fun h => scopeCode h.1 == code) with
  | none => s
  | some (o, l) =>
    let s : State := { s with rst := { s.rst with held := s.rst.held.filter (fun h => h.1 != o) } }
    s.takeReset o l RC.escalation FS.escalation 0xffff []

/-- The host holds the scope fenced with no reset (R442). -/
def holdScope (s : State) (code : Nat) : State :=
  match s.rst.held.find? (fun h => scopeCode h.1 == code) with
  | none => s
  | some (o, l) =>
    let mark (s : State) (p : Nat) : State := s.onPart p (fun a => { a with status := setF a.status partStatus_pstate pHeld })
    match l, scopePart o with
    | 2, some p => mark s p
    | 3, _ => (List.range 8).foldl mark s
    | _, _ => s

/-- A device that serves takes resets from READY on, and none once out of service. -/
def resettable (s : State) : Bool :=
  s.alive && s.boot.rooted && decide (DS.ready ≤ s.devState) && s.devState != DS.retired

/-! ## Watchdogs (R432 to R434) -/

/-- A unit of a tile holds a running operation. -/
def unitBusy (t : Tile) (u : Nat) : Bool :=
  if u < 14 then !(Sparse.get Arr.reset t.arrays u).passes.isEmpty
  else if u = 14 then t.loaderA.isSome
  else if u = 15 then t.loaderB.isSome
  else if u < 20 then getF t.status tileStatus_tileState == TS.running
  else decide (u < 28) && !(Sparse.get Chan.reset t.chans (u - 20)).queue.isEmpty

def tileUnitWatchdog (s : State) (tl : TileRef) (u : Nat) : State :=
  let t := s.tile tl
  let late := decide (Sparse.get 0 t.marks u + getF s.rst.ctl rstCtl_unitMs * msTicks < s.now)
  let o : Scope := .unit tl.p tl.t u
  if !s.resettable || !unitBusy t u || !late || s.covered o then s
  else (s.tileFault tl 8).expire o 0 RC.unit (getF t.map tileMap_site) [t]

def heartbeatWatchdog (s : State) (tl : TileRef) : State :=
  let t := s.tile tl
  let late := decide (t.heartbeat + 4 * s.hbTicks tl < s.now)
  if !s.resettable || (t.record.bind (·.program)).isNone || !late then s
  else s.expire (.unit tl.p tl.t heartbeatUnit) 1 RC.heartbeat (getF t.map tileMap_site) []

/-- Number of a memory port of a partition: 32 to a stack. -/
def portNumber (k pch : Nat) : Nat := 32 * k + pch

/-- A memory port again, after a partition reset, is a channel failure (R441). -/
def memoryPortWatchdog (s : State) (p k pch : Nat) : State :=
  let o : Scope := .memPort p k pch
  if !s.resettable || 7 < p || s.S ≤ k || 31 < pch || s.covered o then s
  else if s.rst.levels.any (fun x => x.1 == o && x.2 == 1) then s.channelFail p k pch
  else s.expire o 0 RC.memPort (portNumber k pch) []

/-- A link between dies has the whole device as its first level. -/
def routerWatchdog (s : State) (p : Nat) (dieLink : Bool) : State :=
  if !s.resettable || 7 < p then s
  else if dieLink then s.expire (.router (p + 8)) 2 RC.router p []
  else s.expire (.router p) 1 RC.router p []

/-- Contributors of a collective whose frames have not come. -/
def missingFrom (t : Tile) (c : Coll) : List Nat :=
  ((c.contributors.filter (fun x => t.accepted.all (fun f =>
    !(f.coll == c.id && f.dev == x.1 && f.p == x.2.1 && f.t == x.2.2)))).map (·.1)).eraseDups

/-- A WAIT on a collective's counter expires (R434): fault 0x08 without a reset; again in one vintage, HANG for those
whose frames are missing. -/
def collectiveWaitExpiry (s : State) (tl : TileRef) (id : Nat) : State :=
  match (s.role.map (·.colls)).getD [] |>.find? (fun c => c.id == id && c.owner == tl) with
  | none => s
  | some c =>
    let t := s.tile tl
    let waits := getF t.status tileStatus_tileState == TS.waiting && (t.seq.wait.map (·.1)) == some c.counter
    if !s.alive || !waits || s.covered (.unit tl.p tl.t 19) || c.timeoutUs = 0 ||
        s.now ≤ Sparse.get 0 t.marks (256 + c.counter) + c.timeoutUs * usTicks then s
    else
      let ids := missingFrom t c
      let again := s.job.collExpired.contains id
      let s := s.tileFault tl 8
      let s := ids.foldl (fun s d => s.ledger tl.p 4 Err.timeout tl.t d s.openVintage s.openAttempt) s
      let s := s.onJob (fun j => { j with collExpired := id :: j.collExpired })
      if !again then s
      else if s.isJobHead then ids.foldl (fun s d => s.startHang d s.openVintage s.openAttempt) s
      else s.send (.missing ids)

/-- The rootstock watchdog (R430): the standby core takes over, or FAULT_N is driven. -/
def rootstockWatchdog (s : State) (serves : Bool) : State :=
  if !s.alive || !s.boot.rooted then s
  else if flagF s.sec.mode secMode_standbyOk && serves then
    { s with sec := { s.sec with
        mode := setF (setF s.sec.mode secMode_standbyOk 0) secMode_core (1 - getF s.sec.mode secMode_core) } }
  else
    { s with sec := { s.sec with mode := setF s.sec.mode secMode_standbyOk 0 } }.driveFault

/-! ## HANG and the replay deadline (R445) -/

def hangIn (s : State) (v a : Nat) : State :=
  if !s.alive || s.devState != DS.running || !s.current v a || s.rst.active.any (fun r => r.1 == .compute) then s
  else s.startCompute RC.hang FS.hang 0xffff

/-- The job head has every device fenced whose decanting report is missing. -/
def replayDeadline (s : State) : State :=
  match s.job.rollbackAt with
  | none => s
  | some t =>
    if !s.alive || s.devState != DS.running || !s.isJobHead || s.now < t + 2000 * msTicks + 2 * s.agreeTicks then s
    else ((s.jobIds.filter s.healthy).filter (fun i => !s.job.decanted.contains i)).foldl (fun s i => s.askFence i FR.jobRequest) s

/-! ## The end of a reset (R438 to R443) -/

/-- Objects of a partition whose reset hung have taken the next level. -/
def raiseLevels (s : State) (inScope : Scope → Bool) (l : Nat) : State :=
  { s with rst := { s.rst with levels := s.rst.levels.map (fun x => if inScope x.1 then (x.1, max x.2 l) else x) } }

/-- A reset not complete at its timeout escalates at once (R441). -/
def resetTimeout (s : State) (sc : Scope) : State :=
  match s.rst.active.find? (fun r => r.1 == sc) with
  | none => s
  | some (_, start, bound) =>
    if !s.alive || s.clock < start + bound then s
    else
      let s : State := { s with rst := { s.rst with
        active := s.rst.active.filter (fun r => r.1 != sc)
        history := bumpF s.rst.history rstHistory_hung 1 } }
      match sc with
      | .compute => ({ s with rst := { s.rst with compStarts := start :: s.rst.compStarts } }).outOfService
      | .part p => ((s.countPart p start).raiseLevels (ofPart p) 2).startCompute RC.escalation FS.compute 0xffff
      | .router p => (s.raiseLevels (fun o => o == sc) 1).startPart (p % 8) RC.escalation FS.escalation 0xffff
      | .unit p _ _ => (s.raiseLevels (fun o => o == sc) 1).startPart p RC.escalation FS.escalation 0xffff
      | .memPort p _ _ => (s.raiseLevels (fun o => o == sc) 1).startPart p RC.escalation FS.escalation 0xffff

/-- Racking and streams of a partition restart when it leaves the fence (R446). -/
def restartPart (s : State) (p : Nat) : State :=
  let late := if getF s.step.committed vintageCommitted_rackState = 0 then []
    else s.buddies.filter (fun b => !(getF s.mir.rackStatus (s.ackField b)).testBit p)
  let s := if late.isEmpty then s else (s.unrack p).rackPart late p
  match s.job.ckpt.bind (fun c => c.streams.find? (fun x => !x.done && !x.failed)) with
  | some x => if x.p = p then s.startObject x else s
  | none => s

/-- Programs and function tables of the logical tiles of a partition, from the image store. -/
def reloadPart (s : State) (p : Nat) : State :=
  (s.tileRefs.filter (fun tl => tl.p == p)).foldl (fun s tl => s.loadCode tl) s

/-- Results of the quick self-tests that a partition reset makes (R438): spare sites first, then grafts of the sites that
failed. -/
def resetTests (s : State) (rs : List SiteRes) : State :=
  let spares := rs.filter (fun r => s.siteRole r.p r.s == 1)
  let tiles := rs.filter (fun r => s.siteRole r.p r.s == 0)
  let write (s : State) (r : SiteRes) : State :=
    let a := s.site r.p r.s
    s.setSite r.p r.s { a with bist := testBits a.bist quickUnits r.first }
  let s := spares.foldl (fun s r =>
    let s := write s r
    if r.first &&& quickUnits = 0 then s else (s.siteBad r.p r.s (r.first &&& quickUnits)).countYield r.p) s
  tiles.foldl (fun s r =>
    let s := write s r
    if r.first &&& quickUnits = 0 then s else s.graftTile ⟨r.p, getF (s.site r.p r.s).bist siteBist_logicalT⟩ []) s

/-- After the last reset: QUARANTINE for a device that was fenced meanwhile (R446), else the decanting report. -/
def afterReset (s : State) : State :=
  if s.devState = DS.fenced && s.rst.active.isEmpty then s.quarantine
  else if s.devState = DS.running && s.job.rollbackAt.isSome then s.reportDecant
  else s

def resetComplete (s : State) (sc : Scope) (rs : List SiteRes) : State :=
  match s.rst.active.find? (fun r => r.1 == sc) with
  | none => s
  | some (_, start, _) =>
    if !s.alive then s
    else
      let s : State := { s with rst := { s.rst with active := s.rst.active.filter (fun r => r.1 != sc) } }
      match sc with
      | .unit p t u => (s.onTile ⟨p, t⟩ (fun x => clearUnit x u)).afterReset
      | .memPort _ _ _ => s.afterReset
      | .router _ => s.afterReset
      | .part p =>
        let s := ((s.reloadPart p).resetTests (rs.filter (fun r => r.p == p))).countPart p start
        ((s.unfencePart p).restartPart p).checkCounts.afterReset
      | .compute =>
        let s : State := { s with rst := { s.rst with compStarts := start :: s.rst.compStarts } }
        let s := (List.range 8).foldl (fun s p => if s.partRetired p then s else s.unfencePart p) s
        if s.img.cur.isNone then (s.passStage5 quickUnits rs).checkCounts
        else
          let s := (List.range 8).foldl (fun s p => s.reloadPart p) s
          let s := ((s.clearPass.writeBists quickUnits rs).testSites rs)
          let s := s.countPass
          let s := (List.range 8).foldl (fun s p => s.restartPart p) s
          s.checkCounts.afterReset

/-! ## Register writes of this chapter (R447, R448) -/

/-- compute of RST_CTL. -/
def hostCompute (s : State) : State := s.startCompute RC.host FS.compute 0xffff

/-- retire_clear of RST_CTL. -/
def hostRetireClear (s : State) : State := { s with flash := { s.flash with retireClear := true } }

/-- go of PART_RESET. -/
def hostPartReset (s : State) (p : Nat) : State := s.startPart p RC.host FS.host 0xffff

/-- fence of FENCE_CTL: the partition is fenced, drained and captured, and held until a PART_RESET. -/
def hostFence (s : State) (p : Nat) : State :=
  let s := if s.devState = DS.dormant then s.leaveDormant else s.ensureActive
  let s := if s.handshaking then s.refuseHandshake p 4 0 else s
  let s := s.abandonLoad.fencePart p FS.host pFenced
  (s.onPart p (fun a => { a with fenceCtl := setF a.fenceCtl fenceCtl_fence 1 })).capture p 1 RC.host 0xffff (s.partTiles p)

end State

/-- HANG (R445). -/
def execHang (vintage attempt : Nat) (s : State) : Host.Outcome State Fault Refusal := .next (s.hangIn vintage attempt)

/-- REPLAY_DEADLINE_EXPIRY (R445). -/
def execReplayDeadlineExpiry (s : State) : Host.Outcome State Fault Refusal := .next s.replayDeadline

/-- TILE_UNIT_WATCHDOG (R432, R439). -/
def execTileUnitWatchdog (tl : TileRef) (unit : Nat) (s : State) : Host.Outcome State Fault Refusal := .next (s.tileUnitWatchdog tl unit)

/-- HEARTBEAT_WATCHDOG (R432). -/
def execHeartbeatWatchdog (tl : TileRef) (s : State) : Host.Outcome State Fault Refusal := .next (s.heartbeatWatchdog tl)

/-- COLLECTIVE_WAIT_EXPIRY (R434). -/
def execCollectiveWaitExpiry (tl : TileRef) (coll : Nat) (s : State) : Host.Outcome State Fault Refusal :=
  .next (s.collectiveWaitExpiry tl coll)

/-- MEMORY_PORT_WATCHDOG (R432, R441). -/
def execMemoryPortWatchdog (p k pch : Nat) (s : State) : Host.Outcome State Fault Refusal := .next (s.memoryPortWatchdog p k pch)

/-- ROUTER_WATCHDOG (R432). -/
def execRouterWatchdog (p : Nat) (dieLink : Bool) (s : State) : Host.Outcome State Fault Refusal := .next (s.routerWatchdog p dieLink)

/-- ROOTSTOCK_WATCHDOG (R430). -/
def execRootstockWatchdog (standbyServes : Bool) (s : State) : Host.Outcome State Fault Refusal :=
  .next (s.rootstockWatchdog standbyServes)

/-- RESET_TIMEOUT (R441). -/
def execResetTimeout (sc : Scope) (s : State) : Host.Outcome State Fault Refusal := .next (s.resetTimeout sc)

/-- RESET_COMPLETE (R438 to R443, R472). -/
def execResetComplete (sc : Scope) (fails : List SiteRes) (s : State) : Host.Outcome State Fault Refusal :=
  .next (s.resetComplete sc fails)

end Sys2Proof.Machine
end

