-- ==== Sys2Proof/Machine/Security.lean ====
section
/-!
DEFINITION. Sessions, key slots, attestation, licences, the debug lock (R395, R396, R412 to R431).
-/
namespace Sys2Proof.Machine

/-- Bytes that the spec leaves to fuses, firmware and draws (log 15): item k. -/
def secretBytes (k n : Nat) : List Byte := (List.range n).map (fun i => BitVec.ofNat 8 (Config.drawn (k * 65536 + i)).toNat)

/-- Bytes of the device certificate chain, a length fixed at manufacture and at least one (log 15). -/
def chainBytes : Nat := 1 + (Config.drawn 1).toNat % 65535

/-- Bytes of a report and its signature block (R414, R420). -/
def reportBytes : Nat := 2048
def sigBytes : Nat := 16624 + chainBytes

/-- Buffer of a licence or token upload (R419). -/
def uploadBytes : Nat := 65536

/-- Most sessions, open and pending (R396, R418). -/
def maxSessions : Nat := 8

/-- A second, in ticks. -/
def secTicks : Nat := 1000 * msTicks

/-- What a 48-byte digest reads as, byte by byte. -/
def digestBytes (d : BitVec 384) : List Byte := Memory.bytesLE d.toNat 48

namespace State

/-! ## HELLO and FINISH (R416 to R418) -/

/-- The lowest session number that is not in use (log 30). -/
def freeSession (s : State) : Nat := ((List.range maxSessions).map (· + 1)).find? (fun n => s.sessions.all (fun x => x.num != n)) |>.getD 0

def closeSession (s : State) (n : Nat) : State :=
  ({ s with
    sessions := s.sessions.filter (fun x => x.num != n)
    unacked := s.unacked.filter (fun u => u.session != n) }).refreshKeys

/-- A pending session is made; the reply holds its number beside what the device has drawn for it. -/
def openPending (s : State) (h : DctHdr) (x : HelloIn) : State × Option Ans :=
  match s.boot.applied with
  | none => (s, some (.err Err.auth))
  | some l =>
    if l.ownerHash ≠ x.ownerHash ∨ x.sigOk = false then (s, some (.err Err.auth))
    else if maxSessions ≤ s.sessions.length then (s, some (.err Err.busy))
    else
      let n := s.freeSession
      let y : Session :=
        { num := n, isOpen := false, fromHost := h.fromHost, owner := x.ownerHash, t := x.t, next := 1, txNext := 1, replies := [], held := [],
          lastAt := s.clock, since := s.clock, executing := false, sels := [] }
      let a : Ans := { status := Err.ok, words := [BitVec.ofNat 64 n], bytes := secretBytes (16 + 8 * s.sec.draws) 1697 }
      ({ s.draw with sessions := s.sessions ++ [y] }, some a)

/-- A message with owner fields is 1904 bytes long. -/
def hello (s : State) (h : DctHdr) (x : HelloIn) : State :=
  s.dct { h with fromHost := true } (.hello h x) .zero true (if x.bytes = 1904 then Err.ok else Err.length) Src.security fun s =>
    s.openPending h x

def keyFinish (s : State) (h : DctHdr) (t : Nat) : State :=
  s.dct h (.finish h t) .pending true Err.ok Src.security fun s =>
    match s.session h.session with
    | none => (s, some (.err Err.auth))
    | some x =>
      if x.t ≠ t then (s.closeSession x.num, some (.err Err.auth))
      else
        let s := (s.onSession x.num (fun y => { y with isOpen := true })).refreshKeys
        (s, some (s.keyReply x.num))

def pendingTimeout (s : State) (n : Nat) : State :=
  match s.session n with
  | none => s
  | some x => if s.alive && !x.isOpen && decide (x.since + secTicks ≤ s.clock) then s.closeSession n else s

def idleTimeout (s : State) (n : Nat) : State :=
  match s.session n with
  | none => s
  | some x =>
    if s.alive && x.isOpen && decide (x.lastAt + getF s.dctCfg dctCfg_idleS * secTicks ≤ s.clock) then s.closeSession n else s

/-! ## Key slots (R421 to R423) -/

/-- Within a running step the operation waits for the boundary, and its ACK with it. -/
def keyOrLater (s : State) (h : DctHdr) (mask : Nat) (x : Option KeySlot) : State × Option Ans :=
  if s.devState = DS.running then
    let d : DeferredKey := { mask := mask, load := x, session := h.session, seq := h.seq }
    ({ s with sec := { s.sec with deferred := d :: s.sec.deferred } }, none)
  else
    let s := match x with
      | some k => s.loadSlot (Nat.log2 mask) k
      | none => s.eraseSlots mask
    (s, some (s.keyReply h.session))

def wrapped (s : State) (h : DctHdr) (w : WrapIn) : State :=
  s.dct h (.wrapped h w) .opened true (if 15 < w.slot then Err.range else Err.ok) Src.security fun s =>
    if w.unwraps = false ∨ w.sealGen ≠ s.sec.sealGen then (s, some (.err Err.auth))
    else s.keyOrLater h (2 ^ w.slot) (some { keyId := w.keyId, key := w.key })

def erase (s : State) (h : DctHdr) (mask : Nat) : State :=
  s.dct h (.erase h mask) .opened true Err.ok Src.security fun s =>
    if mask % 2 = 1 ∧ s.streaming = true then (s, some (.err Err.busy)) else s.keyOrLater h (mask % 65536) none

/-- seal_renew (R421). -/
def sealRenew (s : State) : State :=
  ({ s.draw with sec := { s.draw.sec with sealGen := s.sec.draws } }).eraseSlots 0xfffe

/-! ## Attestation (R420) -/

/-- The report as it is made. -/
def makeReport (s : State) (nonce t : Nat) : List Byte :=
  let b (v n : Nat) : List Byte := Memory.bytesLE v n
  let lock := getF s.sec.debugLock debugLock_state
  b 0x54525441 4 ++ b 1 2 ++ b s.devState 1 ++
  b (getF s.sec.mode secMode_sealed + 2 * bit (lock != 0) + 4 * getF s.sec.mode secMode_prod) 1 ++
  b s.flash.serial.toNat 16 ++ b s.devId 2 ++ b (getF s.rootstock.fw fwVersion_fwSvn) 1 ++ b (getF s.sec.mode secMode_core) 1 ++ b 0 4 ++
  b s.now 8 ++ b (if s.img.cur.isSome then s.committedV else noVintage) 8 ++ b nonce 32 ++ b t 48 ++
  secretBytes 2 48 ++ secretBytes (3 + getF s.rootstock.fw fwVersion_copy) 48 ++
  (match s.boot.applied with
    | some l => secretBytes (1000000 + l.issue) 48
    | none => b 0 48) ++
  digestBytes s.imageDigest ++ b s.dev.caps.toNat 8 ++ b s.slotMask 2 ++ b 0 6 ++
  secretBytes (17 + 8 * s.sec.sealGen) 97 ++ b 0 15 ++ secretBytes (18 + 8 * s.sec.sealGen) 1568 ++ b 0 32

/-- Op 0: a report replaces any held one. -/
def attestReport (s : State) (h : DctHdr) (nonce : Nat) : State :=
  s.dct h (.attestReport h nonce) .zeroOrOpen true Err.ok Src.security fun s =>
    let bs := s.makeReport nonce (((s.session h.session).map (·.t)).getD 0)
    let r : Report := { bytes := bs, nonce := nonce, sigLen := sigBytes }
    ({ s with sec := { s.sec with
        report := some r
        attestCtl := setF (bumpF s.sec.attestCtl attestCtl_reports 1) attestCtl_held 1 } },
      some { status := Err.ok, words := [BitVec.ofNat 64 reportBytes], bytes := digestBytes (Config.sha384 bs) })

/-- Bytes of a held object from an offset. -/
def readHeld (s : State) (held : List Byte) (count offset : Nat) : State × Option Ans :=
  (s, some { status := Err.ok, words := [], bytes := (held.drop offset).take count })

/-- Length of a read of `n` held bytes. -/
def heldCheck (s : State) (n count offset : Nat) : Nat :=
  if count = 0 then Err.ok else if n < offset + count then Err.length else if !s.fitsReply count then Err.length else Err.ok

/-- Op 1. -/
def attestReadReport (s : State) (h : DctHdr) (count offset : Nat) : State :=
  let check := if count ≠ 0 ∧ s.sec.report = none then Err.absent else s.heldCheck (reportBytes + sigBytes) count offset
  s.dct h (.attestReadReport h count offset) .zeroOrOpen true check Src.security fun s =>
    s.readHeld (((s.sec.report.map (fun r => r.bytes ++ secretBytes (2000000 + r.nonce) r.sigLen))).getD []) count offset

/-- Op 2. -/
def attestReadChain (s : State) (h : DctHdr) (count offset : Nat) : State :=
  s.dct h (.attestReadChain h count offset) .zeroOrOpen true (s.heldCheck chainBytes count offset) Src.security fun s =>
    s.readHeld (secretBytes 5 chainBytes) count offset

/-! ## Licences and debug tokens (R419, R428, R429) -/

def uploadCheck (offset : Nat) (bs : List Byte) : Nat :=
  if bs.isEmpty then Err.ok else if uploadBytes < offset + bs.length then Err.length else Err.ok

/-- A verified licence of this device with a higher issue is stored; a device held at LINKED applies it at once. -/
def storeLicence (s : State) (l : Lic) : State × Nat :=
  if l.verifies = false ∨ l.serial ≠ s.flash.serial then (s, Err.auth)
  else if (s.flash.licence.map (fun x => decide (l.issue ≤ x.issue))).getD false then (s, Err.range)
  else
    let s := ({ s with flash := { s.flash with licence := some l } }).refreshLicence
    (if s.heldAtLinked then s.numberAll else s, Err.ok)

/-- The reply to a KEY: its result, or the error. -/
def keyAns (s : State) (h : DctHdr) (e : Nat) : Option Ans := some (if e = Err.ok then s.keyReply h.session else .err e)

def licence (s : State) (h : DctHdr) (offset : Nat) (bs : List Byte) (l : Lic) : State :=
  s.dct h (.licence h offset bs l) .zeroOrOpen true (uploadCheck offset bs) Src.security fun s =>
    let s : State := { s with sec := { s.sec with licBuf := Memory.writeN s.sec.licBuf offset bs } }
    if h.final then
      let r := ({ s with sec := { s.sec with licBuf := [] } }).storeLicence l
      (r.1, r.1.keyAns h r.2)
    else (s, s.keyAns h Err.ok)

/-- A token is accepted (R429): every key is erased first. -/
def acceptToken (s : State) : State :=
  let s := s.clearJobKeys.eraseSlots 0xffff
  { s with sec := { s.sec with bootKey := none, debugLock := setF s.sec.debugLock debugLock_state 1 } }

/-- The final part of a token: READY, no relock since power-on, the nonce of the held report, both signatures. -/
def takeToken (s : State) (nonce : Nat) (sigOk : Bool) : State × Nat :=
  if s.devState ≠ DS.ready then (s, Err.state)
  else if sigOk = false ∨ s.sec.relocked = true ∨ (s.sec.report.map (·.nonce)) ≠ some nonce then (s, Err.auth)
  else (s.acceptToken, Err.ok)

def debugToken (s : State) (h : DctHdr) (offset : Nat) (bs : List Byte) (nonce : Nat) (sigOk : Bool) : State :=
  s.dct h (.debugToken h offset bs nonce sigOk) .zeroOrOpen true (uploadCheck offset bs) Src.security fun s =>
    let s : State := { s with sec := { s.sec with tokBuf := Memory.writeN s.sec.tokBuf offset bs } }
    if h.final then
      let r := ({ s with sec := { s.sec with tokBuf := [] } }).takeToken nonce sigOk
      (r.1, r.1.keyAns h r.2)
    else (s, s.keyAns h Err.ok)

/-- relock (R429, R431): locked until power loss. -/
def relock (s : State) : State :=
  { s with sec := { s.sec with relocked := true, debugLock := setF s.sec.debugLock debugLock_state 0 } }

end State

/-- HELLO (R416, R417, R418). -/
def execHello (h : DctHdr) (x : HelloIn) (s : State) : Host.Outcome State Fault Refusal := .next (s.hello h x)

/-- FINISH (R418). -/
def execFinish (h : DctHdr) (t : Nat) (s : State) : Host.Outcome State Fault Refusal := .next (s.keyFinish h t)

/-- WRAPPED (R422, R423). -/
def execWrapped (h : DctHdr) (w : WrapIn) (s : State) : Host.Outcome State Fault Refusal := .next (s.wrapped h w)

/-- ERASE (R423). -/
def execErase (h : DctHdr) (mask : Nat) (s : State) : Host.Outcome State Fault Refusal := .next (s.erase h mask)

/-- LICENCE (R428). -/
def execLicence (h : DctHdr) (offset : Nat) (bytes : List Byte) (lic : Lic) (s : State) : Host.Outcome State Fault Refusal :=
  .next (s.licence h offset bytes lic)

/-- DEBUG_TOKEN (R429). -/
def execDebugToken (h : DctHdr) (offset : Nat) (bytes : List Byte) (nonce : Nat) (sigOk : Bool) (s : State) :
    Host.Outcome State Fault Refusal := .next (s.debugToken h offset bytes nonce sigOk)

/-- PENDING_SESSION_TIMEOUT (R418). -/
def execPendingSessionTimeout (session : Nat) (s : State) : Host.Outcome State Fault Refusal := .next (s.pendingTimeout session)

/-- SESSION_IDLE_TIMEOUT (R396). -/
def execSessionIdleTimeout (session : Nat) (s : State) : Host.Outcome State Fault Refusal := .next (s.idleTimeout session)

/-- ATTEST_REPORT (R420). -/
def execAttestReport (h : DctHdr) (nonce : Nat) (s : State) : Host.Outcome State Fault Refusal := .next (s.attestReport h nonce)

/-- ATTEST_READ_REPORT (R420). -/
def execAttestReadReport (h : DctHdr) (count offset : Nat) (s : State) : Host.Outcome State Fault Refusal :=
  .next (s.attestReadReport h count offset)

/-- ATTEST_READ_CHAIN (R420). -/
def execAttestReadChain (h : DctHdr) (count offset : Nat) (s : State) : Host.Outcome State Fault Refusal :=
  .next (s.attestReadChain h count offset)

end Sys2Proof.Machine
end

