-- ==== Sys2Proof/Machine/Power.lean ====
section
/-!
DEFINITION. The power controller: entry handshakes, dormant watch, regulators, the input envelope, balancing, and the
thermal limits (R449 to R460), and the loss of power (R481, R482).
-/
namespace Sys2Proof.Machine

/-- Steps of a rail, in codes of 2.5 mV. -/
def code5mV : Nat := 2
def code25mV : Nat := 10
def code50mV : Nat := 20

/-- Handshake blocks (R452). -/
def blockDie0 : Nat := 8
def blockRootstock : Nat := 12
def blockSecurity : Nat := 13

/-- The answer of a block: nothing to say against the state, a DEFER or a REFUSE with its reason. -/
inductive BlockAns where
  | accept
  | defer (reason : Nat)
  | refuse (reason : Nat)
deriving DecidableEq, Repr

/-- OFF as a target of PWR_REQ. -/
def targetOff : Nat := 4

namespace State

/-! ## Loss of power and restart (R481, R482, R484) -/

/-- A power cycle: everything volatile is lost; flash, fuses, pins and the waiting commands stay, and what was asked for
the next power cycle is done (R447, R475). -/
def powerCycle (s : State) : State :=
  let f := s.flash
  let f : Flash := { f with
    retired := f.retired && !f.retireClear
    softBad := if f.softClear then [] else f.softBad
    retireClear := false
    softClear := false }
  { State.reset with
    pending := s.pending
    out := s.out
    fresh := s.fresh
    flash := f
    pins := { s.pins with ppsAt := none }
    sec := { SecRegs.reset with
      draws := s.sec.draws
      mode := setF SecRegs.reset.mode secMode_prod (bit f.prod)
      debugLock := setF SecRegs.reset.debugLock debugLock_state (if f.prod then 0 else 2) } }

/-- The rails go off in reverse order of bring-up, PWR_GOOD is deasserted; only PWR_EN low and high again powers up. -/
def railsDown (s : State) : State :=
  let s := s.powerCycle
  { s with pins := { s.pins with railsOn := false, pwrGood := false, refclkDead := false } }

/-! ## Entry handshakes (R451 to R453) -/

/-- DEV_STATE and power state from which a target may be asked for. -/
def powerMay (s : State) (target : Nat) : Bool :=
  let fromActive := s.power == PS.active && s.devState != DS.dormant
  if target = PS.active then true
  else if target = PS.idle then fromActive && s.inState [DS.ready, DS.loaded, DS.paused]
  else if target = PS.retain then fromActive && s.inState [DS.loaded, DS.paused]
  else if target = PS.dormant then fromActive && s.devState == DS.loaded && s.isSpareHere
  else fromActive && s.inState [DS.ready, DS.loaded, DS.paused, DS.quarantine, DS.retired]

/-- Present blocks: partitions, port dies that answered, rootstock, security engine. -/
def blocks (s : State) : List Nat :=
  List.range 8 ++ (List.range (getF s.dev.caps devCaps_pdiesPresent)).map (· + blockDie0) ++ [blockRootstock, blockSecurity]

/-- A partition's answer (Handshake reasons). -/
def partAnswer (s : State) (p : Nat) : BlockAns :=
  let late (b : Nat) : Bool := !(getF s.mir.rackStatus (s.ackField b)).testBit p
  if s.devState = DS.running ∨ s.job.evaluating = true then .refuse 1
  else if s.partFenced p && s.devState != DS.retired then .refuse 4
  else if s.rst.active.any (fun r => ofPart p r.1) then .refuse 4
  else if getF s.step.committed vintageCommitted_rackState ≠ 0 ∧ s.buddies.any late = true then .defer 2
  else if (s.job.ckpt.map (fun c => c.streams.any (fun x => x.p == p && !x.done && !x.failed))).getD false then .defer 3
  else .accept

/-- A port training or retraining (R379). -/
def training (p : Port) : Bool := [LS.detect, LS.map, LS.eq, LS.fec, LS.keys, LS.retrain].contains (linkSt p)

def dieAnswer (s : State) (d : Nat) : BlockAns :=
  if (List.range 9).any (fun i => training (s.port (9 * d + i))) then .defer 8 else .accept

def rootAnswer (s : State) : BlockAns :=
  if s.rst.active.any (fun r => r.1 == .compute) then .refuse 4
  else if s.graftRunning || (s.fd.taken.map (fun g => g.phase != GP.done && g.phase != GP.failed)).getD false then .refuse 5
  else if s.img.load.isSome then .refuse 6
  else if s.sessions.any (·.executing) then .defer 7
  else .accept

def blockAnswer (s : State) (b : Nat) : BlockAns :=
  if b < blockDie0 then s.partAnswer b
  else if b < blockRootstock then s.dieAnswer (b - blockDie0)
  else if b = blockRootstock then s.rootAnswer
  else .accept

def hsTarget (s : State) : Nat := getF s.pow.hs pwrHandshakeStatus_target

/-- Every block has accepted: the state is entered (R453). -/
def powerEnter (s : State) : State :=
  let t := s.hsTarget
  let w := setF s.pow.hs pwrHandshakeStatus_result 2
  let s := ({ s with pow := { s.pow with hs := w, defers := [] } }).event Err.ok 4 t Src.power false
  if t = PS.idle then (s.setPower PS.idle).setRails (fun _ => code055)
  else if t = PS.retain then (s.setPower PS.retain).setRails (fun _ => code050)
  else if t = PS.dormant then
    let s := s.allTiles (fun t => { resetTile t with prog := [], funcs := [] })
    ((s.setPower PS.dormant).railsOff 0xff).toState DS.dormant
  else s.railsDown

/-- Answers of the blocks asked: the lowest refusal ends the handshake, DEFERs are counted, and without any the handshake
succeeds. `n` is the DEFERs a block has answered before. -/
def takeAnswers (s : State) (bs : List Nat) (n : Nat → Nat) : State :=
  let max := getF s.pow.req pwrReq_deferMax
  let refusal (b : Nat) : Option (Nat × Nat × Nat) := match s.blockAnswer b with
    | .refuse r => some (b, r, n b)
    | .defer _ => if n b = max then some (b, 9, n b) else none
    | .accept => none
  let later := bs.filter (fun b => match s.blockAnswer b with
    | .defer _ => true
    | _ => false)
  let ok := bs.filter (fun b => s.blockAnswer b == .accept)
  let acc := getF s.pow.hs pwrHandshakeStatus_accepted ||| bitsOf ok
  let s : State := { s with pow := { s.pow with hs := setF s.pow.hs pwrHandshakeStatus_accepted acc } }
  match bs.findSome? refusal with
  | some (b, r, k) => s.refuseHandshake b r k
  | none =>
    if later.isEmpty then s.powerEnter
    else { s with pow := { s.pow with defers := later.map (fun b => (b, n b + 1)), askedAt := s.clock } }

/-- What a write of go fails with. -/
def goCheck (s : State) (target : Nat) : Nat :=
  if !s.powerMay target then Err.state else if s.handshaking then Err.busy else Err.ok

/-- A handshake toward a target, or the return to ACTIVE. -/
def powerGo (s : State) (target : Nat) : State :=
  if target = PS.active then (if s.devState = DS.dormant then s.leaveDormant else s.ensureActive)
  else
    let w := setF (setF (0xff000000 : Word) pwrHandshakeStatus_target target) pwrHandshakeStatus_result 1
    let s : State := { s with pow := { s.pow with hs := w, defers := [] } }
    s.takeAnswers s.blocks (fun _ => 0)

/-- defer_ms after a DEFER the blocks that deferred are asked again (R452). -/
def deferReask (s : State) : State :=
  if !s.alive || !s.handshaking || s.clock < s.pow.askedAt + getF s.pow.req pwrReq_deferMs * msTicks then s
  else if !s.powerMay s.hsTarget then s.refuseHandshake 0 1 0
  else s.takeAnswers (s.pow.defers.map (·.1)) (fun b => Sparse.get 0 s.pow.defers b)

/-! ## Dormant watch (R454) -/

/-- The comparison of a table entry: signed 32-bit. -/
def tableHit (w : Word) (v : Int) : Bool :=
  let t := (BitVec.ofNat 32 (getF w dormantTable_threshold)).toInt
  match getF w dormantTable_cmp with
  | 0 => decide (t < v)
  | 1 => decide (v < t)
  | 2 => v == t
  | _ => v != t

/-- Sources of the table: 0 from the ports, the others as sampled. -/
def sourceValue (s : State) (sources : List Int) (k : Nat) : Int :=
  if k = 0 then ((List.range 36).filter (fun n => s.portActive n)).length else sources.getD k 0

/-- Valid entries that match, ascending. -/
def tableHits (s : State) (sources : List Int) : List Nat :=
  (List.range 16).filter (fun i =>
    let w := Sparse.get 0 s.pow.table i
    flagF w dormantTable_valid && tableHit w (s.sourceValue sources (getF w dormantTable_source)))

/-- The action of a matching entry. -/
def tableAct (s : State) (i : Nat) : State :=
  let w := Sparse.get 0 s.pow.table i
  let s : State := { s with pow := { s.pow with dormantCfg := setF s.pow.dormantCfg dormantCfg_lastHit i } }
  match getF w dormantTable_action with
  | 2 => s.event Err.ok 4 i Src.power false
  | 3 => if s.devState = DS.dormant then s.leaveDormant else s
  | 4 => s.declareFailed (if getF w dormantTable_source = 0 then causeFabric else 0)
  | _ => s

def dormantWake (s : State) (sources : List Int) : State :=
  if !s.linksUp || s.devState != DS.dormant then s
  else
    let s : State := { s with pow := { s.pow with dormantCfg := bumpF s.pow.dormantCfg dormantCfg_wakes 1 } }
    let hits := s.tableHits sources
    let flags := bitsOf (hits.filter (fun i => getF (Sparse.get 0 s.pow.table i) dormantTable_action == 1))
    (hits.foldl tableAct s).sendBeat flags

/-! ## Regulators (R455, R456) -/

/-- No VDone within 500 µs: the change is written once more, and at the second timeout the rail has faulted. -/
def avsTimeout (s : State) (p : Nat) : State :=
  let a := s.part p
  if !s.alive || !s.railBit railStatus_settling p then s
  else if !a.avsRetried then (s.setPart p { a with avsRetried := true }).send (.railWrite p a.rail)
  else
    let s := s.setRailBit railStatus_fault p true
    let s : State := { s with pow := { s.pow with railStatus := bumpF s.pow.railStatus railStatus_avsTimeouts 1 } }
    (s.railsOff (2 ^ p)).outOfService

def avsVdone (s : State) (p : Nat) : State :=
  if !s.alive || !s.railBit railStatus_settling p then s
  else
    let q := (s.part p).queued
    let s := (s.onPart p (fun a => { a with queued := none, avsRetried := false })).setRailBit railStatus_settling p false
    match q with
    | some c => s.setRail p c
    | none => s

/-- Telemetry other than READ_PIN. -/
def telemetry (s : State) (t : Telemetry) : State :=
  if !s.alive then s
  else
    let s : State := { s with pow := { s.pow with
      state := setF s.pow.state pwrState_tjMax (min t.tjMax 255)
      railStatus := bumpF s.pow.railStatus railStatus_pmbusFaults t.faults } }
    (List.range 8).foldl (fun s p => s.onPart p (fun a => { a with
      tj := t.tj.getD p a.tj, hbmTemp := t.hbm.getD p a.hbmTemp, vout := t.vout.getD p a.vout, rate := t.rate.getD p a.rate })) s

/-! ## The input envelope (R457) -/

/-- A rail is lowered by some codes, not below 0.55 V. -/
def lowerRail (s : State) (p codes : Nat) : State :=
  let c := s.railGoal p
  if c ≤ code055 then s else s.setRail p (max code055 (c - codes))

def lowerAll (s : State) (codes : Nat) : State := (List.range 8).foldl (fun s p => s.lowerRail p codes) s

/-- The highest rail, the lowest partition of equals. -/
def highestRail (s : State) : Nat :=
  (List.range 8).foldl (fun b p => if s.railGoal b < s.railGoal p then p else b) 0

/-- A rail returns toward its target by 5 mV, unless R459 holds it down. -/
def raiseRail (s : State) (p : Nat) : State :=
  let c := s.railGoal p
  let t := s.railTarget p
  if (s.part p).hot || t ≤ c then s else s.setRail p (min t (c + code5mV))

def raiseAll (s : State) : State := (List.range 8).foldl (fun s p => s.raiseRail p) s

/-- Rails of the present power state when samples return (R456). -/
def restoreRails (s : State) : State :=
  if s.power = PS.active then s.setRails s.railTarget
  else if s.power = PS.idle then s.setRails (fun _ => code055)
  else s.setRails (fun _ => code050)

def sustainW (s : State) : Nat := getF s.pow.therm thermLimits_pSustainW

/-- Falls of step 3 that an excursion which began at `t` has earned by now. -/
def fallsDue (s : State) (t : Nat) : Nat := if s.clock < t + 5 * msTicks then 0 else 1 + (s.clock - t - 5 * msTicks) / msTicks

/-- Steps 1 to 3 for a sample above p_sustain_w. -/
def overSample (s : State) (watts : Nat) : State :=
  let s := match s.pow.excursionAt with
    | some _ => s
    | none => { s with pow := { s.pow with excursionAt := some s.clock, falls := 0, state := bumpF s.pow.state pwrState_excursions 1 } }
  let s := if getF s.pow.therm thermLimits_pPeakW < watts + 200 then s.lowerAll code50mV else s
  let due := s.fallsDue (s.pow.excursionAt.getD s.clock)
  if due ≤ s.pow.falls then s
  else ({ s with pow := { s.pow with falls := due } }).lowerAll (code25mV * (due - s.pow.falls))

/-- The sample that ends an excursion. -/
def underSample (s : State) : State :=
  match s.pow.excursionAt with
  | some _ => { s with pow := { s.pow with excursionAt := none, falls := 0, slowAt := s.clock } }
  | none => s

/-- Steps 4 and 5, every 10 ms. -/
def slowStep (s : State) (avg : Nat) : State :=
  if s.clock < s.pow.slowAt + 10 * msTicks then s
  else if s.sustainW < avg then ({ s with pow := { s.pow with slowAt := s.clock } }).lowerRail s.highestRail code5mV
  else if s.pow.excursionAt.isNone && decide (avg + 100 < s.sustainW) then ({ s with pow := { s.pow with slowAt := s.clock } }).raiseAll
  else s

def pinSample (s : State) (watts avg : Nat) : State :=
  if !s.alive then s
  else
    let s : State := { s with pow := { s.pow with
      state := setF (setF s.pow.state pwrState_pinW (min watts 0xffff)) pwrState_pinAvgW (min avg 0xffff)
      lastGoodPin := s.clock } }
    let s := if s.pow.pinLost then ({ s with pow := { s.pow with pinLost := false } }).restoreRails else s
    if s.power != PS.active || s.devState == DS.dormant then s
    else
      let s := if s.sustainW < watts then s.overSample watts else s.underSample
      s.slowStep avg

/-- READ_PIN has had no valid sample for 10 ms (R456). -/
def pinLoss (s : State) : State :=
  if !s.alive || s.clock < s.pow.lastGoodPin + 10 * msTicks then s
  else ({ s with pow := { s.pow with pinLost := true } }).setRails (fun _ => code060)

/-! ## Balancing (R458) -/

/-- The rail codes that one interval proposes: `w` is the stalled fraction of each partition's tile time, in parts of a
million. -/
def balanced (s : State) (w : List Nat) : List Nat :=
  let f (p : Nat) : Nat := w.getD p 0
  let b := (List.range 8).foldl (fun b p => if f p < f b then p else b) 0
  let held := (s.part b).hot || s.pow.pinLost || decide (s.railGoal b < s.railTarget b)
  let mayRise := s.pow.excursionAt.isNone && decide (getF s.pow.state pwrState_pinAvgW + 100 < s.sustainW)
  (List.range 8).map (fun p =>
    let c := s.railTarget p
    if p = b then (if c < code090 && mayRise && !held then min code090 (c + code5mV) else c)
    else if f b + 50000 < f p then (if c ≤ code055 then c else max code055 (c - code5mV))
    else c)

/-- New balancing targets; a rail that is held below its target is not raised by them. -/
def applyRails (s : State) (codes : List Nat) : State :=
  (List.range 8).foldl (fun s p =>
    let c := codes.getD p (s.railTarget p)
    let free := s.railGoal p == s.railTarget p
    let s : State := { s with pow := { s.pow with railSet := setF s.pow.railSet (railSet_vset p) c } }
    if free || decide (c < s.railGoal p) then s.setRail p c else s) s

/-- Codes of a value, byte p for partition p. -/
def codesOf (v : Word) : List Nat := (List.range 8).map (fun p => getF v (railSet_vset p))

def packCodes (l : List Nat) : Nat := (l.zipIdx.map (fun (x : Nat × Nat) => x.1 * 2 ^ (8 * x.2))).sum

def balancing (s : State) (w : List Nat) : State :=
  if !s.alive || s.devState != DS.running || !(s.pendingOn 7).isEmpty then s
  else
    let c := s.balanced w
    if s.asks 7 then s.ask 7 (packCodes c) 0 c else s.applyRails c

/-! ## Thermal limits (R459) -/

def thermalThrottle (s : State) (p tj hbm : Nat) : State :=
  if !s.alive then s
  else
    let tl := getF s.pow.therm thermLimits_tjThrottle
    let hl := getF s.pow.therm thermLimits_hbmThrottle
    let above := decide (tl < tj ∨ hl < hbm)
    let cool := decide (tj + 3 ≤ tl ∧ hbm + 3 ≤ hl)
    let hot := above || ((s.part p).hot && !cool)
    let s := s.onPart p (fun a => { a with tj := tj, hbmTemp := hbm, hot := hot })
    if hot then s.lowerRail p code5mV else s

/-- Every compute rail off, THERMTRIP_N driven, and the device out of service. -/
def thermalTrip (s : State) (p : Nat) : State :=
  if !s.alive then s
  else
    let s : State := { s with pins := { s.pins with thermTripN := false }, out := Msg.inBandInterrupt :: s.out }
    ((s.railsOff 0xff).event Err.ok 4 p Src.power true).outOfService

end State

/-- DEFER_REASK (R452). -/
def execDeferReask (s : State) : Host.Outcome State Fault Refusal := .next s.deferReask

/-- DORMANT_WAKE (R454). -/
def execDormantWake (sources : List Int) (s : State) : Host.Outcome State Fault Refusal := .next (s.dormantWake sources)

/-- AVS_TIMEOUT (R455). -/
def execAvsTimeout (p : Nat) (s : State) : Host.Outcome State Fault Refusal := .next (s.avsTimeout p)

/-- AVS_VDONE (R455). -/
def execAvsVdone (p : Nat) (s : State) : Host.Outcome State Fault Refusal := .next (s.avsVdone p)

/-- READ_PIN_SAMPLE (R457). -/
def execReadPinSample (watts avg : Nat) (s : State) : Host.Outcome State Fault Refusal := .next (s.pinSample watts avg)

/-- READ_PIN_LOSS (R456). -/
def execReadPinLoss (s : State) : Host.Outcome State Fault Refusal := .next s.pinLoss

/-- PMBUS_TELEMETRY (R456). -/
def execPmbusTelemetry (t : Telemetry) (s : State) : Host.Outcome State Fault Refusal := .next (s.telemetry t)

/-- BALANCING_LOOP (R458). -/
def execBalancingLoop (w : List Nat) (s : State) : Host.Outcome State Fault Refusal := .next (s.balancing w)

/-- THERMAL_THROTTLE (R459). -/
def execThermalThrottle (p tj hbm : Nat) (s : State) : Host.Outcome State Fault Refusal := .next (s.thermalThrottle p tj hbm)

/-- THERMAL_TRIP (R459). -/
def execThermalTrip (p : Nat) (s : State) : Host.Outcome State Fault Refusal := .next (s.thermalTrip p)

end Sys2Proof.Machine
end

