-- ==== Sys2Proof/Machine/BringUp.lean ====
section
/-!
DEFINITION. Power signals, the five stages of bring-up and the recovery of firmware (R461 to R475, R478 to R484, R488).
-/
namespace Sys2Proof.Machine

/-- Values of BOOT_STAGE's stage field beside the numbers of the stages. -/
def stageComplete : Nat := 6
def stageStopped : Nat := 0xf

/-- Stage status codes (R462). -/
def stRunning : Nat := 1
def stPassed : Nat := 2
def stLosses : Nat := 3
def stBudget : Nat := 0x7f

/-- The status field and the time field of a stage. -/
def stField (k : Nat) : Field := ⟨8 * k + 7, 8 * k⟩
def msField (k : Nat) : Field := ⟨71 - 12 * k, 60 - 12 * k⟩

/-- Budgets in ms (R461). -/
def budgetOf (k : Nat) : Nat :=
  match k with
  | 1 => 150
  | 2 => 50
  | 3 => 2000
  | 4 => 3200
  | _ => 1000

/-- A firmware copy that the ROM accepts (R415). -/
def fwOk (f : Flash) (c : Firmware) : Bool := c.verifies && decide (f.fuseSvn ≤ c.svn)

/-- The longest recovery load (R488). -/
def recoveryMax : Nat := 0x4000000

/-- Interface identifier of a MAC address: modified EUI-64 (R391). -/
def eui64 (mac : Nat) : Nat := ((mac / 2 ^ 24) ^^^ 0x020000) * 2 ^ 40 + 0xfffe * 2 ^ 24 + mac % 2 ^ 24

/-- The link-local address of a MAC address. -/
def linkLocal (mac : Nat) : Nat := 0xfe80 * 2 ^ 112 + eui64 mac

namespace State

/-! ## Progress of bring-up -/

def stageNow (s : State) : Nat := getF s.rootstock.stage bootStage_stage

def setStage (s : State) (k : Nat) : State := { s with rootstock := { s.rootstock with stage := setF s.rootstock.stage bootStage_stage k } }

def setStatus (s : State) (k code : Nat) : State := { s with rootstock := { s.rootstock with status := setF s.rootstock.status (stField k) code } }

def setMs (s : State) (k ms : Nat) : State := { s with rootstock := { s.rootstock with stage := setF s.rootstock.stage (msField k) (min ms 0xfff) } }

/-- A stage starts. -/
def startStage (s : State) (k : Nat) : State := (s.setStage k).setStatus k stRunning

/-- A stage stops bring-up: its status, the error code, and FAULT_N but for stage 5 (R461, R463). -/
def stopStage (s : State) (k code err : Nat) : State :=
  let s := (s.setStage stageStopped).setStatus k code
  let s := ({ s with rootstock := { s.rootstock with status := setF s.rootstock.status bootStatus_err err } }).errRecord err Src.boot
  if k = 5 then s else s.driveFault

/-- A stage passes, and the next one starts. -/
def passStage (s : State) (k code ds next : Nat) : State := ((s.setStatus k code).toState ds).startStage next

/-- Bring-up has reached stage k and runs it. -/
def inStage (s : State) (k : Nat) : Bool := s.alive && s.stageNow == k && getF s.rootstock.status (stField k) == stRunning

/-! ## Power signals (R478 to R482) -/

/-- The module comes out of reset with its rails up: FAULT_N is released, stage 1 starts. -/
def restart (s : State) : State :=
  ({ s with pins := { s.pins with faultN := true, refclkDead := false } }).startStage 1

/-- PWR_EN rises after it was low (R478, R482). -/
def powerUp (s : State) : State :=
  if s.pins.pwrEn then s
  else
    let s : State := { s with pins := { s.pins with pwrEn := true, railsOn := true, pwrGood := true } }
    if s.pins.resetN then s.restart else s

/-- PWR_EN falls. -/
def powerDown (s : State) : State :=
  let s := if s.pins.railsOn then s.railsDown else s
  { s with pins := { s.pins with pwrEn := false, thermTripN := true } }

/-- RESET_N falls: as a power cycle, with the rails up. -/
def resetLow (s : State) : State :=
  let s := if s.pins.railsOn then s.powerCycle else s
  { s with pins := { s.pins with resetN := false } }

/-- RESET_N rises. -/
def resetHigh (s : State) : State :=
  if s.pins.resetN then s
  else
    let s : State := { s with pins := { s.pins with resetN := true } }
    if s.pins.railsOn then s.restart else s

/-! ## Stage 1 (R463, R464, R488) -/

/-- The ROM boots a copy: ROOTED, the boot and sealing pairs drawn, time from 0. -/
def bootFrom (s : State) (copy : Nat) (c : Firmware) (fallback : Bool) : State :=
  let w := setF (setF (setF (setF (0 : Word) fwVersion_romVer s.flash.romVer) fwVersion_fwSvn c.svn) fwVersion_major c.major) fwVersion_minor c.minor
  let w := setF (setF (setF (setF w fwVersion_build c.build) fwVersion_fuseSvn s.flash.fuseSvn) fwVersion_copy copy) fwVersion_fallback (bit fallback)
  let n := s.sec.draws
  let s : State := { s with
    rootstock := { s.rootstock with fw := w, status := setF s.rootstock.status bootStatus_err Err.ok }
    boot := { s.boot with rooted := true }
    time := { s.time with count := 0 }
    eth0 := { s.eth0 with status := setF s.eth0.status ethStatus_mac s.flash.mac0, addrs := [linkLocal s.flash.mac0] }
    eth1 := { s.eth1 with status := setF s.eth1.status ethStatus_mac s.flash.mac1, addrs := [linkLocal s.flash.mac1] }
    sec := { s.sec with
      draws := n + 2, bootKey := some n, sealGen := n + 1
      mode := setF (setF (setF s.sec.mode secMode_fwSvn c.svn) secMode_standbyOk 1) secMode_core 0 } }
  (s.refreshLicence).passStage 1 stPassed DS.rooted 2

/-- The copy with the higher security version first, on a tie copy A. -/
def stage1Run (s : State) : State :=
  let a := s.flash.fwA
  let b := s.flash.fwB
  let aFirst := decide (b.svn ≤ a.svn)
  let okA := fwOk s.flash a
  let okB := fwOk s.flash b
  if okA && (aFirst || !okB) then s.bootFrom 0 a (!aFirst)
  else if okB then s.bootFrom 1 b aFirst
  else s.stopStage 1 (if a.verifies || b.verifies then 0x11 else 0x10) Err.auth

/-- Bring-up begins at the first ROM instruction (R461); State.reset stands there, with no stage shown as started. -/
def stage1 (s : State) (ms : Nat) : State :=
  if !s.alive || s.boot.rooted || !(s.stageNow == 0 || s.inStage 1) then s
  else
    let s := (s.startStage 1).setMs 1 ms
    if budgetOf 1 < ms then s.stopStage 1 stBudget Err.timeout else s.stage1Run

/-! ## Stages 2 to 4 (R465 to R467, R474) -/

/-- Port dies that answered: die 0, and those of the others fused that did. -/
def answered (s : State) (dies : List Bool) : List Nat :=
  (List.range s.flash.pdies).filter (fun d => d == 0 || dies.getD d false)

/-- The variant and what answered, in DEV_CAPS; ports of a missing die are down (R32). -/
def identify (s : State) (dies : List Nat) : State :=
  let c := setF (setF (setF (setF s.dev.caps devCaps_pdiesFused s.flash.pdies) devCaps_pdiesPresent dies.length)
    devCaps_portsPresent (9 * dies.length)) devCaps_stacksFused s.flash.memStacks
  let s : State := { s with dev := { s.dev with caps := c }, boot := { s.boot with dies := bitsOf dies } }
  ((List.range (9 * s.flash.pdies)).filter (fun n => !dies.contains (n / 9))).foldl (fun s n =>
    s.onPort n (fun p => { p with dieLost := true, status := setF p.status lnkStatus_downCause 8 })) s

def stage2 (s : State) (r : Stage2In) : State :=
  if !s.inStage 2 then s
  else
    let s := s.setMs 2 r.ms
    if budgetOf 2 < r.ms then s.stopStage 2 stBudget Err.timeout
    else if !r.pllOk || s.pins.refclkLost then s.stopStage 2 0x20 Err.timeout
    else if !r.tileLinksOk then s.stopStage 2 0x21 Err.timeout
    else if !r.die0Ok then s.stopStage 2 0x22 Err.timeout
    else
      let ds := s.answered r.dies
      (s.identify ds).passStage 2 (if ds.length = s.flash.pdies then stPassed else stLosses) DS.clocked (if s.flash.retired then 4 else 3)

/-- Rows repaired by hPPR leave the soft repair record; MEM_REPAIR shows what each stack has used and has left (R288, R466). -/
def repairRows (s : State) (rows : List (Nat × Nat)) (left : Nat) : State :=
  let s : State := { s with flash := { s.flash with softRows := s.flash.softRows.filter (fun x => !rows.contains x) } }
  (List.range 8).foldl (fun s p => (List.range s.S).foldl (fun s k =>
    let a := s.stack p k
    let used := (rows.filter (fun x => x.1 == p * 4 + k)).length
    let soft := (s.flash.softRows.filter (fun x => x.1 == p * 4 + k)).length
    s.setStack p k { a with
      repair := setF (setF (setF a.repair memRepair_hpprUsed used) memRepair_hpprLeft left) memRepair_softRows (min soft 255) }) s) s

/-- Stores that failed the march show in SITE_BIST (R466). -/
def marchFails (s : State) (l : List (Nat × Nat)) : State :=
  l.foldl (fun s x =>
    let a := s.site x.1 x.2
    s.setSite x.1 x.2 { a with bist := setF a.bist siteBist_storeFail 1 }) s

def stage3 (s : State) (r : Stage3In) : State :=
  if !s.inStage 3 then s
  else
    let s := s.setMs 3 r.ms
    if budgetOf 3 < r.ms then s.stopStage 3 stBudget Err.timeout
    else if r.missingStack then s.stopStage 3 0x30 Err.yield
    else if r.phyFail then s.stopStage 3 0x31 Err.yield
    else if r.unrepairable then s.stopStage 3 0x32 Err.yield
    else
      let least := (r.memStacks.foldl min s.flash.memStacks)
      let s : State := { s with dev := { s.dev with caps := setF s.dev.caps devCaps_stacksPresent least } }
      ((s.repairRows r.repaired r.hpprLeft).marchFails r.storeFails).passStage 3 stPassed DS.memoryReady 4

/-- The ports that stage 4 trains: the lowest of those present, up to the verified licence's count (R467). -/
def stage4Ports (s : State) : List Nat := s.presentPorts.take ((s.goodLicence.map (·.ports)).getD 0)

/-- An Ethernet port's state at the end of its training: rate 0 is down (R391). -/
def ethSet (x : Eth) (rate : Nat) : Eth :=
  let on := flagF x.ctl ethPortCtl_enable && rate != 0
  let w := setF (setF x.status ethStatus_up (bit on)) ethStatus_rate (if on then rate else 0)
  { x with status := setF w ethStatus_anDone (bit (on && getF x.ctl ethPortCtl_speed == 0)) }

/-- RETIRED after every power cycle while a retirement record stands (R444, R474). -/
def comeUpRetired (s : State) : State :=
  (((s.setStage stageComplete).railsOff 0xff).toState DS.retired).event Err.retired 2 0 Src.reset true

/-- Stage 4 ends with the ports that have come up. -/
def endStage4 (s : State) (up : List Nat) (rates : List Nat) : State :=
  let ports := s.stage4Ports
  let s := ports.foldl (fun s n => if up.contains n then (s.onPort n assignLanes).toActive n else s.onPort n (fun p => atState p LS.detect)) s
  let s : State := { s with eth0 := ethSet s.eth0 (rates.getD 0 0), eth1 := ethSet s.eth1 (rates.getD 1 0) }
  let all := ports.all up.contains && rates.all (fun r => r != 0)
  let s := s.passStage 4 (if all then stPassed else stLosses) DS.linked 5
  if s.flash.retired then (s.setStatus 5 0).comeUpRetired else s

def stage4 (s : State) (up : List Nat) (rates : List Nat) (ms : Nat) : State :=
  if !s.inStage 4 then s else (s.setMs 4 (min ms (budgetOf 4))).endStage4 up rates

/-! ## Stage 5 and the budgets (R462, R467) -/

def stage5 (s : State) (rs : List SiteRes) (ms : Nat) : State :=
  if !s.inStage 5 || s.devState != DS.linked then s
  else
    let s := s.setMs 5 ms
    if budgetOf 5 < ms then s.countPass.stopStage 5 stBudget Err.timeout else s.passStage5 fullUnits (s.withMarch rs)

/-- The stage that runs has overrun its budget; stage 4 ends instead, with whatever links are up. -/
def budgetExpiry (s : State) : State :=
  let k := s.stageNow
  if !s.inStage k || k = 0 || 5 < k then s
  else
    let s := s.setMs k (budgetOf k)
    if k = 4 then s.endStage4 ((List.range 36).filter (fun n => s.portActive n)) [getF s.eth0.status ethStatus_rate, getF s.eth1.status ethStatus_rate]
    else s.stopStage k stBudget Err.timeout

/-! ## Firmware recovery over I3C (R463, R488) -/

/-- Stage 1 has failed. -/
def recovering (s : State) : Bool := s.alive && !s.boot.rooted && s.stageNow == stageStopped

/-- A load that is ended for its length or an offset. -/
def endRecovery (s : State) : State := ({ s with i3c := { s.i3c with recovery := none } }).setStatus 1 0x10

def recoveryBegin (s : State) (len : Nat) : State :=
  if !s.recovering then s
  else if recoveryMax < len then s.endRecovery
  else { s with i3c := { s.i3c with recovery := some (len, []) } }

def recoveryData (s : State) (off : Nat) (bs : List Byte) : State :=
  match s.i3c.recovery with
  | none => s
  | some (len, m) =>
    if !s.recovering then s
    else if len < off + bs.length then s.endRecovery
    else { s with i3c := { s.i3c with recovery := some (len, Memory.writeN m off bs) } }

/-- The load is verified: it takes the place of the failed copy and is booted from, or is discarded. -/
def recoveryEnd (s : State) (fw : Firmware) : State :=
  if !s.recovering || s.i3c.recovery.isNone then s
  else
    let s : State := { s with i3c := { s.i3c with recovery := none } }
    if !fwOk s.flash fw then s
    else if fwOk s.flash s.flash.fwA then ({ s with flash := { s.flash with fwB := fw } }).bootFrom 1 fw false
    else ({ s with flash := { s.flash with fwA := fw } }).bootFrom 0 fw false

end State

/-- POWER_UP (R478). -/
def execPowerUp (s : State) : Host.Outcome State Fault Refusal := .next s.powerUp

/-- POWER_DOWN (R481). -/
def execPowerDown (s : State) : Host.Outcome State Fault Refusal := .next s.powerDown

/-- RESET_N (R481). -/
def execResetN (s : State) : Host.Outcome State Fault Refusal := .next s.resetLow

/-- RESET_N_RELEASE (R481). -/
def execResetNRelease (s : State) : Host.Outcome State Fault Refusal := .next s.resetHigh

/-- STAGE_1_FIRMWARE_AND_LICENCE (R463, R464). -/
def execStage1FirmwareAndLicence (ms : Nat) (s : State) : Host.Outcome State Fault Refusal := .next (s.stage1 ms)

/-- STAGE_2_CLOCKS (R465). -/
def execStage2Clocks (r : Stage2In) (s : State) : Host.Outcome State Fault Refusal := .next (s.stage2 r)

/-- STAGE_3_MEMORIES (R466). -/
def execStage3Memories (r : Stage3In) (s : State) : Host.Outcome State Fault Refusal := .next (s.stage3 r)

/-- STAGE_4_LINKS (R467). -/
def execStage4Links (up ethRates : List Nat) (ms : Nat) (s : State) : Host.Outcome State Fault Refusal := .next (s.stage4 up ethRates ms)

/-- STAGE_5_RECONCILIATION (R467 to R471). -/
def execStage5Reconciliation (fails : List SiteRes) (ms : Nat) (s : State) : Host.Outcome State Fault Refusal := .next (s.stage5 fails ms)

/-- STAGE_BUDGET_EXPIRY (R462). -/
def execStageBudgetExpiry (s : State) : Host.Outcome State Fault Refusal := .next s.budgetExpiry

/-- RECOVERY_BEGIN (R488). -/
def execRecoveryBegin (len : Nat) (s : State) : Host.Outcome State Fault Refusal := .next (s.recoveryBegin len)

/-- RECOVERY_DATA (R488). -/
def execRecoveryData (offset : Nat) (bytes : List Byte) (s : State) : Host.Outcome State Fault Refusal := .next (s.recoveryData offset bytes)

/-- RECOVERY_END (R488). -/
def execRecoveryEnd (fw : Firmware) (s : State) : Host.Outcome State Fault Refusal := .next (s.recoveryEnd fw)

end Sys2Proof.Machine
end

