-- ==== Sys2Proof/Machine/Module.lean ====
section
/-!
DEFINITION. The module's input stage, sideband, reference and PPS; I3C addresses; the Ethernet ports (R388, R391 to
R393, R479, R480, R485 to R488).
-/
namespace Sys2Proof.Machine

/-- Number of an open-drain output in an EVENT. -/
def pinCode : OutPin → Nat
  | .pwrGood => 0
  | .faultN => 1
  | .thermTripN => 2

/-- PTP message kinds that the clock serves (R393): a delay request, and a request for unicast service. -/
def ptpDelayReq : Nat := 0
def ptpUnicastReq : Nat := 1

/-- A frequency as the 16-bit signed field of TS_SYNC_STATUS. -/
def freqField (f : Int) : Nat := (f % 65536).toNat

/-- A packet address on the link of an IPv4 address (R391). -/
def onLink4 (x : Eth) (a : Nat) : Bool :=
  let n := 2 ^ (32 - min 32 (getF x.ctl ethPortCtl_ipv4Prefix))
  decide (getF x.ctl ethPortCtl_ipv4 ≠ 0 ∧ getF x.ctl ethPortCtl_ipv4 / n = a / n)

/-- An IPv6 address on the link: link-local, or of a prefix that this port has an address in. -/
def onLink6 (x : Eth) (a : Nat) : Bool := x.addrs.any (fun b => b / 2 ^ 64 == a / 2 ^ 64)

namespace State

/-! ## Input and sideband -/

/-- The input monitor shuts the module down (R479). -/
def inputShutdown (s : State) : State := if s.pins.railsOn then s.railsDown.driveFault else s

def undervoltage (s : State) (mv us : Nat) : State := if mv < 38000 ∧ 1000 < us then s.inputShutdown else s

def overvoltage (s : State) (mv us : Nat) : State := if 62000 < mv ∧ 100 < us then s.inputShutdown else s

/-- The sense pair counts as open (R480). -/
def senseOpen (s : State) : State :=
  if !s.alive || s.pins.senseOpen then s
  else ({ s with pins := { s.pins with senseOpen := true } }).event Err.absent 4 0 Src.module false

def senseRestored (s : State) : State := if s.alive then { s with pins := { s.pins with senseOpen := false } } else s

/-- An output counts as shorted, and one EVENT names it (R485). -/
def sidebandShort (s : State) (x : OutPin) : State :=
  if !s.alive || s.pins.shorted.contains x then s
  else ({ s with pins := { s.pins with shorted := x :: s.pins.shorted } }).event Err.format 3 (pinCode x) Src.module false

/-! ## Reference and PPS (R388, R390, R486) -/

def refclkLoss (s : State) : State := if s.pins.railsOn then { s with pins := { s.pins with refclkLost := true } } else s

/-- REFCLK has been absent for 100 ms: FAULT_N, and every partition fenced. -/
def refclkExpiry (s : State) : State :=
  if !s.alive || !s.pins.refclkLost || s.pins.refclkDead then s
  else
    let s := ({ s with pins := { s.pins with refclkDead := true } }).driveFault
    (List.range 8).foldl (fun s p => s.fencePart p 0 pFenced) s

/-- REFCLK returns: within the 100 ms one EVENT records it, later it restores nothing. -/
def refclkReturn (s : State) : State :=
  if !s.pins.refclkLost then s
  else
    let s : State := { s with pins := { s.pins with refclkLost := false } }
    if s.alive && !s.pins.refclkDead then s.event Err.ok 4 0 Src.module false else s

/-- A PPS edge, used by a job head with pps_en. -/
def ppsEdge (s : State) (freq : Int) : State :=
  if !s.alive || !s.isJobHead || !flagF s.time.syncCtl tsSyncCtl_ppsEn then s
  else
    { s with
      pins := { s.pins with ppsAt := some s.clock }
      time := { s.time with syncStatus := setF (setF s.time.syncStatus tsSyncStatus_ppsLocked 1) tsSyncStatus_freq (freqField freq) } }

/-- No edge for 2 s. -/
def ppsLoss (s : State) : State :=
  match s.pins.ppsAt with
  | none => s
  | some t =>
    if s.clock < t + 2 * secTicks then s
    else
      { s with
        pins := { s.pins with ppsAt := none }
        time := { s.time with syncStatus := setF s.time.syncStatus tsSyncStatus_ppsLocked 0 } }

/-! ## I3C addresses (R487) -/

def setAddress (s : State) (a : Nat) : State := if s.pins.railsOn then { s with i3c := { s.i3c with dyn := some a } } else s

/-! ## Ethernet (R391 to R393) -/

def eth (s : State) (e : Nat) : Eth := if e = 0 then s.eth0 else s.eth1

def setEth (s : State) (e : Nat) (x : Eth) : State := if e = 0 then { s with eth0 := x } else { s with eth1 := x }

/-- E0 and E1 work from ROOTED on, on port die 0. -/
def ethUp (s : State) (e : Nat) : Bool := s.alive && s.boot.rooted && decide (e < 2) && flagF (s.eth e).status ethStatus_up

/-- A link comes up at a rate, or is lost. -/
def ethLink (s : State) (e : Nat) (up : Bool) (rate : Nat) : State :=
  if !s.alive || !s.boot.rooted || 1 < e then s
  else
    let x := s.eth e
    let was := flagF x.status ethStatus_up
    if up then (if flagF x.ctl ethPortCtl_enable then s.setEth e (ethSet x rate) else s)
    else if was then s.setEth e (ethSet { x with status := bumpF x.status ethStatus_flaps 1 } 0)
    else s

/-- A router advertisement: an address in its prefix, and the default router. -/
def routerAdvert (s : State) (e pfx router : Nat) : State :=
  let x := s.eth e
  if !s.ethUp e || !flagF x.ctl ethPortCtl_slaac then s
  else
    let a := pfx * 2 ^ 64 + eui64 (getF x.status ethStatus_mac)
    s.setEth e { x with addrs := if x.addrs.contains a then x.addrs else x.addrs ++ [a], router := some router }

/-- Kinds of answers on an Ethernet port. -/
def ethNd : Nat := 0
def ethArp : Nat := 1
def ethEcho4 : Nat := 2
def ethEcho6 : Nat := 3

def neighbour (s : State) (e asker target : Nat) : State :=
  if s.ethUp e && (s.eth e).addrs.contains target then s.send (.eth e ethNd asker target) else s

def arp (s : State) (e asker target : Nat) : State :=
  let x := s.eth e
  if s.ethUp e && onLink4 x asker && target == getF x.ctl ethPortCtl_ipv4 then s.send (.eth e ethArp asker target) else s

/-- An echo is answered on the link, and over IPv6 through the default router beyond it. -/
def echo (s : State) (e asker : Nat) (v6 : Bool) (data : Nat) : State :=
  let x := s.eth e
  if !s.ethUp e then s
  else if v6 then (if onLink6 x asker || x.router.isSome then s.send (.eth e ethEcho6 asker data) else s)
  else if onLink4 x asker then s.send (.eth e ethEcho4 asker data)
  else s

/-- The master-only clock answers delay requests and requests for unicast service, stamped with TS64, and takes time
from no message. -/
def ptpEvent (s : State) (e asker kind : Nat) : State :=
  if s.ethUp e && (kind == ptpDelayReq || kind == ptpUnicastReq) then s.send (.ptp e asker kind s.now) else s

end State

/-- INPUT_UNDERVOLTAGE (R479). -/
def execInputUndervoltage (mv us : Nat) (s : State) : Host.Outcome State Fault Refusal := .next (s.undervoltage mv us)

/-- INPUT_OVERVOLTAGE (R479). -/
def execInputOvervoltage (mv us : Nat) (s : State) : Host.Outcome State Fault Refusal := .next (s.overvoltage mv us)

/-- INTERNAL_RAIL_SHORT (R485). -/
def execInternalRailShort (s : State) : Host.Outcome State Fault Refusal := .next s.inputShutdown

/-- SENSE_PAIR_OPEN (R480). -/
def execSensePairOpen (s : State) : Host.Outcome State Fault Refusal := .next s.senseOpen

/-- SENSE_PAIR_RESTORED (R480). -/
def execSensePairRestored (s : State) : Host.Outcome State Fault Refusal := .next s.senseRestored

/-- SIDEBAND_SHORT (R485). -/
def execSidebandShort (pin : OutPin) (s : State) : Host.Outcome State Fault Refusal := .next (s.sidebandShort pin)

/-- REFCLK_LOSS (R486). -/
def execRefclkLoss (s : State) : Host.Outcome State Fault Refusal := .next s.refclkLoss

/-- REFCLK_HOLDOVER_EXPIRY (R486). -/
def execRefclkHoldoverExpiry (s : State) : Host.Outcome State Fault Refusal := .next s.refclkExpiry

/-- REFCLK_RETURN (R486). -/
def execRefclkReturn (s : State) : Host.Outcome State Fault Refusal := .next s.refclkReturn

/-- PPS_EDGE (R388, R390). -/
def execPpsEdge (freq : Int) (s : State) : Host.Outcome State Fault Refusal := .next (s.ppsEdge freq)

/-- PPS_LOSS (R388, R486). -/
def execPpsLoss (s : State) : Host.Outcome State Fault Refusal := .next s.ppsLoss

/-- SETDASA (R487). -/
def execSetdasa (addr : Nat) (s : State) : Host.Outcome State Fault Refusal := .next (s.setAddress addr)

/-- ENTDAA (R487). -/
def execEntdaa (addr : Nat) (s : State) : Host.Outcome State Fault Refusal := .next (s.setAddress addr)

/-- ETH_LINK_CHANGE (R391, R411). -/
def execEthLinkChange (e : Nat) (up : Bool) (rate : Nat) (s : State) : Host.Outcome State Fault Refusal := .next (s.ethLink e up rate)

/-- ROUTER_ADVERTISEMENT (R391, R392). -/
def execRouterAdvertisement (e pfx router : Nat) (s : State) : Host.Outcome State Fault Refusal := .next (s.routerAdvert e pfx router)

/-- NEIGHBOUR_DISCOVERY (R391). -/
def execNeighbourDiscovery (e asker target : Nat) (s : State) : Host.Outcome State Fault Refusal := .next (s.neighbour e asker target)

/-- ARP (R391). -/
def execArp (e asker target : Nat) (s : State) : Host.Outcome State Fault Refusal := .next (s.arp e asker target)

/-- ICMP_ECHO (R391). -/
def execIcmpEcho (e asker : Nat) (v6 : Bool) (data : Nat) (s : State) : Host.Outcome State Fault Refusal := .next (s.echo e asker v6 data)

/-- PTP_EVENT_MESSAGE (R393). -/
def execPtpEventMessage (e asker kind : Nat) (s : State) : Host.Outcome State Fault Refusal := .next (s.ptpEvent e asker kind)

/-- TRST_N (R488). -/
def execTrstN (s : State) : Host.Outcome State Fault Refusal := .next { s with pins := { s.pins with trstN := false } }

end Sys2Proof.Machine
end

