-- ==== Sys2Proof/Machine/RegMap.lean ====
section
/-!
DEFINITION. The register address space: what lies at each address, what a register reads, and what a read clears
(R11, R12, R492 to R500).
-/
namespace Sys2Proof.Machine

/-- The registers of the Register index, with the port, partition, stack, tile, site or entry that owns them. -/
inductive Reg where
  -- DEVICE
  | devId | devSerial | devSerialHi | devCaps | devState | devIdAssign | dutyMap | dutyDeadline | errLast | eventCtl
  -- ROOTSTOCK
  | bootStage | bootStatus | fwVersion | licenceStatus | yieldSummary
  -- TIMEBASE
  | tsNow | tsOffset | tsSyncCtl | tsSyncStatus
  -- POWER
  | pwrState | pwrReq | pwrHandshakeStatus | railSet | railStatus | dormantCfg | dormantTable | thermLimits
  -- SECURITY
  | secMode | attestCtl | keySlotStatus | debugLock
  -- STEP
  | stepCtl | vintageOpen | vintageCommitted | stepCheckStatus | cellarStatus | ledgerPtr
  -- MIRROR
  | buddyId | mirrorDegree | rackStatus | rackProgress | snapPoolStatus | graftCtl | graftStatus | fdCfg | fenceList
  -- HOSTETH
  | ethPortCtl (e : Nat) | ethStatus (e : Nat) | dctCfg | dctCounters
  -- RESET
  | rstCtl | rstEscTable | rstHistory
  -- link port Fn
  | lnkCtl (n : Nat) | lnkStatus (n : Nat) | lnkLaneMap (n : Nat) | lnkHealth (n : Nat) | lnkFlapTable (n : Nat) | lnkFecCounts (n : Nat)
  -- partition p
  | partCtl (p : Nat) | partStatus (p : Nat) | fenceCtl (p : Nat) | fenceStatus (p : Nat) | partReset (p : Nat) | capturePtr (p : Nat)
  -- stack k of partition p
  | memCtl (p k : Nat) | memEccCounts (p k : Nat) | memRepair (p k : Nat)
  -- logical tile
  | tileCtl (tl : TileRef) | tileStatus (tl : TileRef) | tileMap (tl : TileRef) | fmtTable (tl : TileRef) (n : Nat)
  | funcTable (tl : TileRef) | numFlags (tl : TileRef) | scaleHist (tl : TileRef) | stashStatus (tl : TileRef)
  | redStatus (tl : TileRef) | sparseCtl (tl : TileRef) | topkCtl (tl : TileRef)
  -- site x of partition p
  | siteBist (p x : Nat)
deriving DecidableEq, Repr

/-! ## Addresses (R492, R493) -/

/-- Bases of the blocks that repeat. -/
def portBase (n : Nat) : Nat := 0x00100000 + n * 0x1000
def partRegBase (p : Nat) : Nat := 0x01000000 + p * 0x01000000
def stackBase (p k : Nat) : Nat := partRegBase p + 0x020000 + k * 0x4000
def tileBase (tl : TileRef) : Nat := partRegBase tl.p + 0x100000 + tl.t * 0x1000
def siteBase (p x : Nat) : Nat := partRegBase p + 0xc00000 + x * 0x1000

/-- The blocks below 0x0009_0000, at 8-byte steps. -/
def blockReg (block o : Nat) : Option Reg :=
  match block with
  | 0 => [Reg.devId, .devSerial, .devSerialHi, .devCaps, .devState, .devIdAssign, .dutyMap, .dutyDeadline, .errLast, .eventCtl][o / 8]?
  | 1 => [Reg.bootStage, .bootStatus, .fwVersion, .licenceStatus, .yieldSummary][o / 8]?
  | 2 => [Reg.tsNow, .tsOffset, .tsSyncCtl, .tsSyncStatus][o / 8]?
  | 3 => [Reg.pwrState, .pwrReq, .pwrHandshakeStatus, .railSet, .railStatus, .dormantCfg, .dormantTable, .thermLimits][o / 8]?
  | 4 => [Reg.secMode, .attestCtl, .keySlotStatus, .debugLock][o / 8]?
  | 5 => [Reg.stepCtl, .vintageOpen, .vintageCommitted, .stepCheckStatus, .cellarStatus, .ledgerPtr][o / 8]?
  | 6 => [Reg.buddyId, .mirrorDegree, .rackStatus, .rackProgress, .snapPoolStatus, .graftCtl, .graftStatus, .fdCfg, .fenceList][o / 8]?
  | 7 =>
    match o with
    | 0x000 => some (.ethPortCtl 0)
    | 0x008 => some (.ethStatus 0)
    | 0x100 => some (.ethPortCtl 1)
    | 0x108 => some (.ethStatus 1)
    | 0x200 => some .dctCfg
    | 0x208 => some .dctCounters
    | _ => none
  | 8 => [Reg.rstCtl, .rstEscTable, .rstHistory][o / 8]?
  | _ => none

def portReg (n o : Nat) : Option Reg :=
  [Reg.lnkCtl n, .lnkStatus n, .lnkLaneMap n, .lnkHealth n, .lnkFlapTable n, .lnkFecCounts n][o / 8]?

/-- The tile block (R69). -/
def tileReg (tl : TileRef) (o : Nat) : Option Reg :=
  if 0x100 ≤ o ∧ o < 0x180 then some (.fmtTable tl ((o - 0x100) / 8))
  else match o with
    | 0x000 => some (.tileCtl tl)
    | 0x008 => some (.tileStatus tl)
    | 0x010 => some (.tileMap tl)
    | 0x180 => some (.funcTable tl)
    | 0x188 => some (.numFlags tl)
    | 0x200 => some (.scaleHist tl)
    | 0x300 => some (.stashStatus tl)
    | 0x400 => some (.redStatus tl)
    | 0x500 => some (.sparseCtl tl)
    | 0x800 => some (.topkCtl tl)
    | _ => none

namespace State

/-- The partition block: its own registers, its stacks, its tiles under the applied grade, its sites. -/
def partReg (s : State) (p o : Nat) : Option Reg :=
  if o < 0x30 then [Reg.partCtl p, .partStatus p, .fenceCtl p, .fenceStatus p, .partReset p, .capturePtr p][o / 8]?
  else if 0x020000 ≤ o ∧ o < 0x020000 + 0x4000 * s.flash.memStacks then
    let k := (o - 0x020000) / 0x4000
    if (o - 0x020000) % 0x4000 < 0x18 then [Reg.memCtl p k, .memEccCounts p k, .memRepair p k][(o - 0x020000) % 0x4000 / 8]? else none
  else if 0x100000 ≤ o ∧ o < 0x100000 + 0x1000 * getF s.dev.caps devCaps_tiles then tileReg ⟨p, (o - 0x100000) / 0x1000⟩ ((o - 0x100000) % 0x1000)
  else if 0xc00000 ≤ o ∧ o < 0xc00000 + 0x1000 * siteCount then
    (if (o - 0xc00000) % 0x1000 = 0 then some (.siteBist p ((o - 0xc00000) / 0x1000)) else none)
  else none

/-- The register at an aligned address, or none where the address is unmapped. A port that the variant has is mapped,
whether or not its die answered (R465, log 41). -/
def regAt (s : State) (a : Nat) : Option Reg :=
  if a < 0x90000 then blockReg (a / 0x10000) (a % 0x10000)
  else if portBase 0 ≤ a ∧ a < portBase (9 * s.flash.pdies) then portReg ((a - portBase 0) / 0x1000) ((a - portBase 0) % 0x1000)
  else if partRegBase 0 ≤ a ∧ a < partRegBase 8 then s.partReg ((a - partRegBase 0) / 0x1000000) (a % 0x1000000)
  else none

end State

/-- The partition whose condition decides the access (R499): of stack, tile and site registers only. -/
def Reg.inner : Reg → Option Nat
  | .memCtl p _ | .memEccCounts p _ | .memRepair p _ | .siteBist p _ => some p
  | .tileCtl tl | .tileStatus tl | .tileMap tl | .fmtTable tl _ | .funcTable tl | .numFlags tl | .scaleHist tl | .stashStatus tl
  | .redStatus tl | .sparseCtl tl | .topkCtl tl => some tl.p
  | _ => none

/-! ## Access codes (R12) -/

/-- RW bits. -/
def Reg.rw : Reg → Word
  | .devIdAssign => devIdAssign_maskRw
  | .dutyMap => dutyMap_maskRw
  | .dutyDeadline => dutyDeadline_maskRw
  | .eventCtl => eventCtl_maskRw
  | .yieldSummary => yieldSummary_maskRw
  | .tsSyncCtl => tsSyncCtl_maskRw
  | .pwrReq => pwrReq_maskRw
  | .railSet => railSet_maskRw
  | .railStatus => railStatus_maskRw
  | .dormantCfg => dormantCfg_maskRw
  | .dormantTable => dormantTable_maskRw
  | .thermLimits => thermLimits_maskRw
  | .stepCtl => stepCtl_maskRw
  | .ledgerPtr => ledgerPtr_maskRw
  | .graftCtl => graftCtl_maskRw
  | .fdCfg => fdCfg_maskRw
  | .fenceList => fenceList_maskRw
  | .ethPortCtl _ => ethPortCtl_maskRw
  | .dctCfg => dctCfg_maskRw
  | .rstCtl => rstCtl_maskRw
  | .rstEscTable => rstEscTable_maskRw
  | .lnkCtl _ => lnkCtl_maskRw
  | .lnkHealth _ => lnkHealth_maskRw
  | .lnkFlapTable _ => lnkFlapTable_maskRw
  | .partCtl _ => partCtl_maskRw
  | .memCtl _ _ => memCtl_maskRw
  | .tileCtl _ => tileCtl_maskRw
  | .fmtTable _ n => if n < 8 then 0 else fmtTable_maskRw
  | .funcTable _ => funcTable_maskRw
  | .scaleHist _ => scaleHist_maskRw
  | .topkCtl _ => topkCtl_maskRw
  | _ => 0

/-- WO bits. -/
def Reg.wo : Reg → Word
  | .devIdAssign => devIdAssign_maskWo
  | .yieldSummary => yieldSummary_maskWo
  | .pwrReq => pwrReq_maskWo
  | .dormantTable => dormantTable_maskWo
  | .attestCtl => attestCtl_maskWo
  | .debugLock => debugLock_maskWo
  | .graftCtl => graftCtl_maskWo
  | .rstCtl => rstCtl_maskWo
  | .lnkCtl _ => lnkCtl_maskWo
  | .partReset _ => partReset_maskWo
  | .tileCtl _ => tileCtl_maskWo
  | .funcTable _ => funcTable_maskWo
  | _ => 0

/-- W1C bits. -/
def Reg.w1c : Reg → Word
  | .tileStatus _ => tileStatus_maskW1c
  | .numFlags _ => numFlags_maskW1c
  | .stashStatus _ => stashStatus_maskW1c
  | _ => 0

/-- W1S bits. -/
def Reg.w1s : Reg → Word
  | .stepCtl => stepCtl_maskW1s
  | .fenceCtl _ => fenceCtl_maskW1s
  | _ => 0

/-- RC bits. -/
def Reg.rc : Reg → Word
  | .errLast => errLast_maskRc
  | .eventCtl => eventCtl_maskRc
  | .pwrState => pwrState_maskRc
  | .railStatus => railStatus_maskRc
  | .dormantCfg => dormantCfg_maskRc
  | .attestCtl => attestCtl_maskRc
  | .ledgerPtr => ledgerPtr_maskRc
  | .rackStatus => rackStatus_maskRc
  | .ethStatus _ => ethStatus_maskRc
  | .dctCounters => dctCounters_maskRc
  | .rstHistory => rstHistory_maskRc
  | .lnkStatus _ => lnkStatus_maskRc
  | .lnkFecCounts _ => lnkFecCounts_maskRc
  | .partStatus _ => partStatus_maskRc
  | .fenceStatus _ => fenceStatus_maskRc
  | .memEccCounts _ _ => memEccCounts_maskRc
  | .tileStatus _ => tileStatus_maskRc
  | .numFlags _ => numFlags_maskRc
  | .stashStatus _ => stashStatus_maskRc
  | .redStatus _ => redStatus_maskRc
  | .sparseCtl _ => sparseCtl_maskRc
  | .topkCtl _ => topkCtl_maskRc
  | _ => 0

/-- Selector bits, of which each session and the I3C bus hold their own copy (R497). -/
def Reg.sel : Reg → Word
  | .ledgerPtr => ledgerPtr_maskRw
  | .railStatus => railStatus_maskRw
  | .yieldSummary => yieldSummary_maskRw
  | .lnkHealth _ => lnkHealth_maskRw
  | .fenceList => fenceList_maskRw
  | .dormantTable => dormantTable_index.mask
  | .funcTable _ => funcTable_table.mask ||| funcTable_segment.mask ||| funcTable_word.mask
  | .scaleHist _ => scaleHist_maskRw
  | _ => 0

/-! ## Values -/

/-- Standard entries of FMT_TABLE read their parameters, entries 6 and 7 read 0 (R124). -/
def standardFmt (n : Nat) : Word :=
  let e (w eb b sp : Nat) : Word :=
    setF (setF (setF (setF (setF 0 fmtTable_valid 1) fmtTable_width w) fmtTable_ebits eb) fmtTable_bias b) fmtTable_special sp
  match n with
  | 0 => e 8 4 7 1
  | 1 => e 8 5 15 2
  | 2 => e 6 3 3 0
  | 3 => e 6 2 1 0
  | 4 => e 4 2 1 0
  | 5 => e 8 0 6 0
  | _ => 0

/-- The words of SCALE_HIST (R181): of slot `sl`, history entry `entry`. -/
def slotWord (sl : Slot) (word entry : Nat) : Nat :=
  if !sl.valid then 0
  else match word with
    | 0 => sl.hist.length * 2 ^ 24 + sl.kind % 16 * 2 ^ 20 + 2 ^ 19 + sl.action % 8 * 2 ^ 16 + sl.hold % 256 * 2 ^ 8 + sl.x % 256
    | 1 => (amaxF32 sl.hist).toNat
    | 2 => (sl.hist.getD entry 0).toNat
    | 3 => sl.tensor % 2 ^ 16 * 2 ^ 16 + sl.recipe.toNat / 2 ^ 20 % 2 ^ 16
    | 4 => min sl.sinceBackoff 0xffffffff
    | 5 => sl.t % 2 ^ 32
    | _ => 0
where
  /-- The largest of a history (R157). -/
  amaxF32 (h : List F32) : F32 := h.foldl (fun a b => if Val.lt (f32v a) (f32v b) then b else a) 0

namespace State

/-- The selector copy of a DCT session or of the I3C bus, by register address. -/
def selOf (s : State) (who : Who) (a : Nat) : Word :=
  match who with
  | .dct n => ((s.session n).map (fun x => Sparse.get 0 x.sels a)).getD 0
  | .i3c => Sparse.get 0 s.i3c.sels a

def setSel (s : State) (who : Who) (a : Nat) (w : Word) : State :=
  match who with
  | .dct n => s.onSession n (fun x => { x with sels := Sparse.set 0 x.sels a w })
  | .i3c => { s with i3c := { s.i3c with sels := Sparse.set 0 s.i3c.sels a w } }

/-- FENCE_LIST: the entry of the index, and the count (R350). -/
def fenceWord (s : State) (w : Word) : Word :=
  let w := setF (w &&& fenceList_maskRw) fenceList_count (min s.fd.fences.length 1024)
  match s.fd.fences[getF w fenceList_index]? with
  | none => w
  | some f =>
    setF (setF (setF (setF (setF w fenceList_fencedId f.id) fenceList_status f.status) fenceList_reason f.reason)
      fenceList_reporters f.reporters) fenceList_reports (min f.reports 0x3ff)

/-- What a register reads. `w` is the reader's selector copy. Every WO bit reads 0 (R12). -/
def regValue (s : State) (w : Word) : Reg → Word
  | .devId => s.dev.id
  | .devSerial => s.flash.serial.setWidth 64
  | .devSerialHi => (s.flash.serial >>> 64).setWidth 64
  | .devCaps => s.dev.caps
  | .devState => s.dev.state
  | .devIdAssign => s.dev.idAssign
  | .dutyMap => s.dev.dutyMap
  | .dutyDeadline => s.dev.dutyDeadline
  | .errLast => s.dev.errLast
  | .eventCtl => s.dev.eventCtl
  | .bootStage => s.rootstock.stage
  | .bootStatus => s.rootstock.status
  | .fwVersion => s.rootstock.fw
  | .licenceStatus => s.rootstock.lic
  | .yieldSummary => setF (s.part (getF w yieldSummary_part)).yield yieldSummary_part (getF w yieldSummary_part)
  | .tsNow => BitVec.ofNat 64 s.now
  | .tsOffset => BitVec.ofInt 64 s.time.offset
  | .tsSyncCtl => s.time.syncCtl
  | .tsSyncStatus => s.time.syncStatus
  | .pwrState => s.pow.state
  | .pwrReq => s.pow.req
  | .pwrHandshakeStatus => s.pow.hs
  | .railSet => s.pow.railSet
  | .railStatus =>
    let p := getF w railStatus_part
    setF (setF (setF s.pow.railStatus railStatus_rateMhz (s.part p).rate) railStatus_vout (s.part p).vout) railStatus_part p
  | .dormantCfg => s.pow.dormantCfg
  | .dormantTable => setF (Sparse.get 0 s.pow.table (getF w dormantTable_index)) dormantTable_index (getF w dormantTable_index)
  | .thermLimits => s.pow.therm
  | .secMode => s.sec.mode
  | .attestCtl => s.sec.attestCtl
  | .keySlotStatus => s.sec.slotStatus
  | .debugLock => s.sec.debugLock
  | .stepCtl => s.step.ctl
  | .vintageOpen => s.step.openV
  | .vintageCommitted => s.step.committed
  | .stepCheckStatus => s.step.check
  | .cellarStatus => s.step.cellar
  | .ledgerPtr =>
    let p := getF w ledgerPtr_part
    setF (setF (setF 0 ledgerPtr_lost (s.part p).ledger.lost) ledgerPtr_part p) ledgerPtr_head (s.part p).ledger.head
  | .buddyId => s.mir.buddyId
  | .mirrorDegree => s.mir.degree
  | .rackStatus => s.mir.rackStatus
  | .rackProgress => s.mir.rackProgress
  | .snapPoolStatus => s.mir.snapPool
  | .graftCtl => s.mir.graftCtl
  | .graftStatus => setF s.mir.graftStatus graftStatus_sparesLeft s.eligibleSpares.length
  | .fdCfg => s.mir.fdCfg
  | .fenceList => s.fenceWord w
  | .ethPortCtl e => (s.eth e).ctl
  | .ethStatus e => (s.eth e).status
  | .dctCfg => s.dctCfg
  | .dctCounters => s.dctCounters
  | .rstCtl => s.rst.ctl
  | .rstEscTable => s.rst.esc
  | .rstHistory => setF s.rst.history rstHistory_compInWindow (min s.compWindow 255)
  | .lnkCtl n => (s.port n).ctl
  | .lnkStatus n => (s.port n).status
  | .lnkLaneMap n => (s.port n).laneMap
  | .lnkHealth n =>
    let k := min (getF w lnkHealth_lane) 4
    setF (Sparse.get Lane.reset (s.port n).lanes k).health lnkHealth_lane k
  | .lnkFlapTable n => (s.port n).flap
  | .lnkFecCounts n => (s.port n).fec
  | .partCtl p => (s.part p).ctl
  | .partStatus p => setF (s.part p).status partStatus_inWindow (min (s.partWindow p) 255)
  | .fenceCtl p => (s.part p).fenceCtl
  | .fenceStatus p => (s.part p).fenceStatus
  | .partReset _ => 0
  | .capturePtr p => (s.part p).capturePtr
  | .memCtl p k => (s.stack p k).ctl
  | .memEccCounts p k => (s.stack p k).ecc
  | .memRepair p k => (s.stack p k).repair
  | .tileCtl tl => (s.tile tl).ctl
  | .tileStatus tl => s.tileStatusRead tl
  | .tileMap tl => (s.tile tl).map
  | .fmtTable tl n => if n < 8 then standardFmt n else Sparse.get 0 (s.tile tl).fmt n
  | .funcTable tl =>
    let d := funcWord (s.tile tl) (getF w funcTable_table) (getF w funcTable_segment) (getF w funcTable_word)
    setF (w &&& Reg.sel (.funcTable tl)) funcTable_data d.toNat
  | .numFlags tl => (s.tile tl).numFlags
  | .scaleHist tl =>
    let d := slotWord (Sparse.get Slot.reset (s.tile tl).slots (getF w scaleHist_slot)) (getF w scaleHist_word) (getF w scaleHist_entry)
    setF (w &&& Reg.sel (.scaleHist tl)) scaleHist_data d
  | .stashStatus tl => (s.tile tl).stashStatus
  | .redStatus tl => (s.tile tl).redStatus
  | .sparseCtl tl => (s.tile tl).sparseCtl
  | .topkCtl tl => (s.tile tl).topkCtl
  | .siteBist p x => (s.site p x).bist

/-- Change the stored word of a register; LEDGER_PTR stands for the lost count of the reader's partition. A register
without a word of its own stays. -/
def onReg (s : State) (w : Word) (r : Reg) (f : Word → Word) : State :=
  match r with
  | .devIdAssign => { s with dev := { s.dev with idAssign := f s.dev.idAssign } }
  | .dutyMap => { s with dev := { s.dev with dutyMap := f s.dev.dutyMap } }
  | .dutyDeadline => { s with dev := { s.dev with dutyDeadline := f s.dev.dutyDeadline } }
  | .errLast => { s with dev := { s.dev with errLast := f s.dev.errLast } }
  | .eventCtl => { s with dev := { s.dev with eventCtl := f s.dev.eventCtl } }
  | .tsSyncCtl => { s with time := { s.time with syncCtl := f s.time.syncCtl } }
  | .pwrState => { s with pow := { s.pow with state := f s.pow.state } }
  | .pwrReq => { s with pow := { s.pow with req := f s.pow.req } }
  | .railStatus => { s with pow := { s.pow with railStatus := f s.pow.railStatus } }
  | .dormantCfg => { s with pow := { s.pow with dormantCfg := f s.pow.dormantCfg } }
  | .thermLimits => { s with pow := { s.pow with therm := f s.pow.therm } }
  | .attestCtl => { s with sec := { s.sec with attestCtl := f s.sec.attestCtl } }
  | .stepCtl => { s with step := { s.step with ctl := f s.step.ctl } }
  | .ledgerPtr =>
    s.onPart (getF w ledgerPtr_part) (fun a =>
      { a with ledger := { a.ledger with lost := getF (f (setF 0 ledgerPtr_lost a.ledger.lost)) ledgerPtr_lost } })
  | .rackStatus => { s with mir := { s.mir with rackStatus := f s.mir.rackStatus } }
  | .graftCtl => { s with mir := { s.mir with graftCtl := f s.mir.graftCtl } }
  | .fdCfg => { s with mir := { s.mir with fdCfg := f s.mir.fdCfg } }
  | .ethPortCtl e => s.setEth e { s.eth e with ctl := f (s.eth e).ctl }
  | .ethStatus e => s.setEth e { s.eth e with status := f (s.eth e).status }
  | .dctCfg => { s with dctCfg := f s.dctCfg }
  | .dctCounters => { s with dctCounters := f s.dctCounters }
  | .rstCtl => { s with rst := { s.rst with ctl := f s.rst.ctl } }
  | .rstEscTable => { s with rst := { s.rst with esc := f s.rst.esc } }
  | .rstHistory => { s with rst := { s.rst with history := f s.rst.history } }
  | .lnkCtl n => s.onPort n (fun p => { p with ctl := f p.ctl })
  | .lnkStatus n => s.onPort n (fun p => { p with status := f p.status })
  | .lnkFlapTable n => s.onPort n (fun p => { p with flap := f p.flap })
  | .lnkFecCounts n => s.onPort n (fun p => { p with fec := f p.fec })
  | .partCtl p => s.onPart p (fun a => { a with ctl := f a.ctl })
  | .partStatus p => s.onPart p (fun a => { a with status := f a.status })
  | .fenceStatus p => s.onPart p (fun a => { a with fenceStatus := f a.fenceStatus })
  | .memCtl p k => s.setStack p k { s.stack p k with ctl := f (s.stack p k).ctl }
  | .memEccCounts p k => s.setStack p k { s.stack p k with ecc := f (s.stack p k).ecc }
  | .tileCtl tl => s.onTile tl (fun t => { t with ctl := f t.ctl })
  | .tileStatus tl => s.onTile tl (fun t => { t with status := f t.status })
  | .fmtTable tl n => s.onTile tl (fun t => { t with fmt := Sparse.set 0 t.fmt n (f (Sparse.get 0 t.fmt n)) })
  | .numFlags tl => s.onTile tl (fun t => { t with numFlags := f t.numFlags })
  | .stashStatus tl => s.onTile tl (fun t => { t with stashStatus := f t.stashStatus })
  | .redStatus tl => s.onTile tl (fun t => { t with redStatus := f t.redStatus })
  | .sparseCtl tl => s.onTile tl (fun t => { t with sparseCtl := f t.sparseCtl })
  | .topkCtl tl => s.onTile tl (fun t => { t with topkCtl := f t.topkCtl })
  | _ => s

/-! ## Conditions of an access (R497 to R499) -/

/-- A partition under reset, its own or the compute reset (R448, R499, log 42). -/
def underReset (s : State) (p : Nat) : Bool := s.rst.active.any (fun r => r.1 == .compute || r.1 == .part p)

/-- What refuses an access to a register of a partition: its reset, or for a write its retirement (R499). -/
def innerErr (s : State) (r : Reg) (write : Bool) : Nat :=
  match r.inner with
  | none => Err.ok
  | some p => if s.underReset p then Err.fenced else if write && s.partRetired p then Err.retired else Err.ok

/-- A request that the fence of a partition refuses is counted (R448). -/
def countRefused (s : State) (p e : Nat) : State :=
  if e = Err.fenced then s.onPart p (fun a => { a with fenceStatus := bumpF a.fenceStatus fenceStatus_refused 1 }) else s

/-- Read a register: its value, and its RC fields cleared (R12). An address that is not a multiple of 8 fails (R494), an
unmapped one reads 0 (R493). -/
def readReg (s : State) (who : Who) (a : Nat) : State × Except Nat Word :=
  if a % 8 ≠ 0 then (s, .error Err.range)
  else match s.regAt a with
    | none => (s, .ok 0)
    | some r =>
      let e := s.innerErr r false
      if e ≠ Err.ok then (s.countRefused (r.inner.getD 0) e, .error e)
      else
        let w := s.selOf who a
        ((if r.rc = 0 then s else s.onReg w r (fun v => v &&& ~~~r.rc)), .ok (s.regValue w r))

end State
end Sys2Proof.Machine
end

