-- ==== Sys2Proof/Machine/RegWrite.lean ====
section
/-!
DEFINITION. A register write: which fields it acts on, the states and values that its register's chapter accepts, and
what it does (R12 to R14, R25, R492 to R509); the commands that are one register write.
-/
namespace Sys2Proof.Machine

/-- READY, LOADED and PAUSED. -/
def quietStates : List Nat := [DS.ready, DS.loaded, DS.paused]

/-- Every state that serves DCT (R407). -/
def dctStates : List Nat :=
  [DS.linked, DS.ready, DS.loaded, DS.running, DS.paused, DS.dormant, DS.fenced, DS.quarantine, DS.retired]

/-- Bits of a register that are written in some states only, with those states. The others are written in every state
in which the register is reached. -/
def Reg.states : Reg → List (Word × List Nat)
  | .devIdAssign => [(devIdAssign_maskRw ||| devIdAssign_maskWo, [DS.linked, DS.ready])]
  | .dutyMap => [(dutyMap_maskRw, [DS.ready, DS.loaded, DS.running, DS.paused])]
  | .dutyDeadline => [(dutyDeadline_maskRw, [DS.ready, DS.loaded, DS.running, DS.paused])]
  | .yieldSummary => [(yieldSummary_maskWo, [DS.linked, DS.ready])]
  | .tsSyncCtl => [(tsSyncCtl_maskRw, quietStates)]
  | .pwrReq => [(pwrReq_maskRw ||| pwrReq_maskWo, dctStates)]
  | .railSet => [(railSet_maskRw, quietStates)]
  | .thermLimits => [(thermLimits_maskRw, quietStates)]
  | .dormantCfg => [(dormantCfg_maskRw, [DS.ready, DS.loaded, DS.dormant])]
  | .dormantTable => [(dormantTable_maskRw ||| dormantTable_maskWo, [DS.ready, DS.loaded, DS.dormant])]
  | .attestCtl => [(attestCtl_maskWo, [DS.ready, DS.loaded])]
  | .stepCtl => [(stepCtl_maskRw ||| stepCtl_maskW1s, [DS.loaded, DS.running, DS.paused])]
  | .graftCtl => [(graftCtl_maskRw ||| graftCtl_maskWo, [DS.loaded, DS.running, DS.paused])]
  | .fdCfg => [(fdCfg_maskRw, quietStates)]
  | .fenceList => [(fenceList_maskRw, [DS.loaded, DS.running, DS.paused, DS.dormant, DS.fenced, DS.quarantine, DS.retired])]
  | .ethPortCtl _ => [(ethPortCtl_maskRw, [DS.linked, DS.ready, DS.loaded, DS.paused])]
  | .dctCfg => [(dctCfg_maskRw, [DS.linked, DS.ready, DS.loaded, DS.paused])]
  | .rstCtl =>
    [(rstCtl_maskRw, quietStates),
     (rstCtl_compute.mask, [DS.ready, DS.loaded, DS.running, DS.paused, DS.fenced, DS.quarantine]),
     (rstCtl_retireClear.mask, [DS.linked, DS.retired])]
  | .rstEscTable => [(rstEscTable_maskRw, quietStates)]
  | .lnkCtl _ => [(lnkCtl_maskRw ||| lnkCtl_maskWo, quietStates), (lnkCtl_qualify.mask, [DS.ready, DS.loaded])]
  | .lnkFlapTable _ => [(lnkFlapTable_maskRw, quietStates)]
  | .partCtl _ => [(partCtl_maskRw, quietStates)]
  | .fenceCtl _ => [(fenceCtl_maskW1s, quietStates)]
  | .partReset _ => [(partReset_maskWo, [DS.ready, DS.loaded, DS.running, DS.paused, DS.fenced, DS.quarantine])]
  | .memCtl _ _ => [(memCtl_maskRw, quietStates)]
  | .tileCtl _ => [(tileCtl_maskRw, quietStates), (tileCtl_maskWo, [DS.ready])]
  | .fmtTable _ _ => [(fmtTable_maskRw, [DS.ready])]
  | .funcTable _ => [(funcTable_maskRw ||| funcTable_maskWo, [DS.ready])]
  | .scaleHist _ => [(scaleHist_maskRw, [DS.ready, DS.loaded, DS.running, DS.paused])]
  | .stashStatus _ => [(stashStatus_maskW1c, [DS.loaded, DS.running, DS.paused])]
  | .topkCtl _ => [(topkCtl_maskRw, quietStates)]
  | _ => []

/-- Registers that step 9 of an image load writes (R263, R498). -/
def Reg.fromImage : Reg → Bool
  | .fmtTable _ n => decide (8 ≤ n)
  | .funcTable _ | .topkCtl _ | .sparseCtl _ | .tileStatus _ | .stashStatus _ | .buddyId | .mirrorDegree | .fdCfg | .stepCtl => true
  | _ => false

/-- What the I3C bus reaches (R507): the bits it may write, or none where it reaches nothing. -/
def Reg.i3cReach : Reg → Option Word
  | .devId | .devSerial | .devSerialHi | .devCaps | .devState | .errLast => some 0
  | .devIdAssign => some (devIdAssign_maskRw ||| devIdAssign_maskWo)
  | .bootStage | .bootStatus | .fwVersion | .licenceStatus => some 0
  | .yieldSummary => some (yieldSummary_maskRw ||| yieldSummary_maskWo)
  | .tsNow | .pwrState | .pwrHandshakeStatus | .thermLimits => some 0
  | .pwrReq => some (pwrReq_maskRw ||| pwrReq_maskWo)
  | .railStatus => some railStatus_maskRw
  | .ethPortCtl _ => some ethPortCtl_maskRw
  | .dctCfg => some dctCfg_maskRw
  | .ethStatus _ | .dctCounters | .secMode | .debugLock | .rstHistory | .lnkStatus _ => some 0
  | .rstCtl => some (rstCtl_maskRw ||| rstCtl_maskWo)
  | _ => none

/-- The bits that a write of `v` over `cur` acts on, of those in `allow` (R509). -/
def Reg.acted (r : Reg) (cur v allow : Word) : Word := (((cur ^^^ v) &&& r.rw) ||| (v &&& (r.wo ||| r.w1c ||| r.w1s))) &&& allow

/-- The stored word after a write (R12). -/
def Reg.merged (r : Reg) (v allow old : Word) : Word :=
  let m := r.rw &&& ~~~r.sel &&& allow
  ((old &&& ~~~m ||| v &&& m) &&& ~~~(v &&& r.w1c &&& allow)) ||| (v &&& r.w1s &&& allow)

/-- A rail code that RAIL_SET accepts (R460). -/
def railCodeOk (c : Nat) : Bool := decide (code055 ≤ c ∧ c ≤ code090)

/-- A write that sets a field it acts on to a value its chapter refuses with ERR_RANGE. `v` is the value, `m` the bits
it acts on. -/
def Reg.badRange (r : Reg) (v m : Word) : Bool :=
  let on (f : Field) : Bool := m &&& f.mask != 0
  let zero (f : Field) : Bool := on f && getF v f == 0
  match r with
  | .dutyDeadline => zero dutyDeadline_deadlineMs
  | .pwrReq => (on pwrReq_target && decide (targetOff < getF v pwrReq_target)) || zero pwrReq_deferMs || zero pwrReq_deferMax
  | .railSet => (List.range 8).any (fun p => on (railSet_vset p) && !railCodeOk (getF v (railSet_vset p)))
  | .dormantCfg =>
    on dormantCfg_period100us && (decide (getF v dormantCfg_period100us < 10) || decide (1000 < getF v dormantCfg_period100us))
  | .dormantTable =>
    flagF v dormantTable_wr && flagF v dormantTable_valid &&
      (decide (5 < getF v dormantTable_source) || decide (4 < getF v dormantTable_action))
  | .thermLimits =>
    (on thermLimits_tjTrip && decide (0x73 < getF v thermLimits_tjTrip)) ||
    ((on thermLimits_tjTrip || on thermLimits_tjThrottle) && decide (getF v thermLimits_tjTrip < getF v thermLimits_tjThrottle + 5)) ||
    ((on thermLimits_hbmTrip || on thermLimits_hbmThrottle) && decide (getF v thermLimits_hbmTrip < getF v thermLimits_hbmThrottle + 5))
  | .stepCtl => zero stepCtl_agreeMs || zero stepCtl_replayMax
  | .fdCfg => zero fdCfg_suppressMs || zero fdCfg_q || (on fdCfg_missHb && decide (getF v fdCfg_missHb < 4))
  | .ethPortCtl _ => on ethPortCtl_ipv4Prefix && decide (32 < getF v ethPortCtl_ipv4Prefix)
  | .dctCfg =>
    (on dctCfg_mtu && (decide (getF v dctCfg_mtu < 1500) || decide (9216 < getF v dctCfg_mtu))) ||
    zero dctCfg_rtoMs || zero dctCfg_retries || zero dctCfg_idleS
  | .rstCtl => zero rstCtl_unitMs || zero rstCtl_mem100us || zero rstCtl_net100us
  | .rstEscTable => zero rstEscTable_partWindowS || zero rstEscTable_partCount || zero rstEscTable_compWindowS || zero rstEscTable_compCount
  | .lnkCtl _ => zero lnkCtl_scanS
  | .lnkFlapTable _ =>
    zero lnkFlapTable_holdMaxS || zero lnkFlapTable_halfLife || zero lnkFlapTable_suppress || zero lnkFlapTable_reuse ||
    zero lnkFlapTable_penalty ||
    ((on lnkFlapTable_reuse || on lnkFlapTable_suppress) && decide (getF v lnkFlapTable_suppress ≤ getF v lnkFlapTable_reuse))
  | .partCtl _ => on partCtl_captureDetail && getF v partCtl_captureDetail == 3
  | .memCtl _ _ => zero memCtl_scrubHours
  | .tileCtl _ =>
    (on tileCtl_bistMode && decide (2 < getF v tileCtl_bistMode)) || (on tileCtl_ledgerDetail && getF v tileCtl_ledgerDetail == 3)
  | .fmtTable _ _ => flagF v fmtTable_valid && !customOk v
  | .funcTable _ =>
    decide (4 < getF v funcTable_word) ||
      (flagF v funcTable_wr && getF v funcTable_word == 4 && !ctlOk (BitVec.ofNat 32 (getF v funcTable_data % 2 ^ 15)))
  | .topkCtl _ => on topkCtl_k && decide (256 < getF v topkCtl_k)
  | _ => false

namespace State

/-- Checks of what a write starts, in the words of its chapter. -/
def startErr (s : State) (r : Reg) (v : Word) : Nat :=
  match r with
  | .tileCtl tl =>
    if flagF v tileCtl_bistStart && getF (s.tile tl).status tileStatus_bistResult == 3 then Err.busy else Err.ok
  | .graftCtl => if flagF v graftCtl_go then s.graftCheck v else Err.ok
  | .pwrReq => if flagF v pwrReq_go then s.goCheck (getF v pwrReq_target) else Err.ok
  | .rstCtl => if flagF v rstCtl_compute && s.rst.active.any (fun x => x.1 == .compute) then Err.busy else Err.ok
  | .partReset p => if s.partRetired p then Err.retired else if s.underReset p then Err.busy else Err.ok
  | _ => Err.ok

/-- The error of a write that acts on the bits `m`: state, value, then what it would start (R25, R509). -/
def writeErr (s : State) (r : Reg) (v m : Word) : Nat :=
  if r.states.any (fun x => m &&& x.1 != 0 && !s.inState x.2) then Err.state
  else if r.badRange v m then Err.range
  else s.startErr r v

/-- bist_start (R67, R70): the site of the tile runs the test of bist_mode; mode 0 starts none. -/
def startBist (s : State) (tl : TileRef) (mode : Nat) : State :=
  if mode = 0 then s
  else
    let x := getF (s.tile tl).map tileMap_site
    let s := s.setSite tl.p x { s.site tl.p x with mode := mode, running := true }
    s.onTile tl (fun t => { t with status := setF (setF t.status tileStatus_bistResult 3) tileStatus_tileState TS.bist })

/-- A word stored through FUNC_TABLE; the reserved bits of a control word read 0 (R146). -/
def storeFunc (s : State) (tl : TileRef) (v : Word) : State :=
  let k := funcKey (getF v funcTable_table) (getF v funcTable_segment) (getF v funcTable_word)
  let d := getF v funcTable_data
  s.onTile tl (fun t => { t with funcs := Sparse.set 0 t.funcs k (BitVec.ofNat 32 (if getF v funcTable_word = 4 then d % 2 ^ 15 else d)) })

/-- DEV_ID takes new_id (R502). -/
def assignId (s : State) (v : Word) : State :=
  { s with dev := { s.dev with id := setF (setF s.dev.id devId_id (getF v devIdAssign_newId)) devId_assigned 1 } }

/-- pps_en: a device that no longer follows PPS is not locked to it (R390). -/
def syncCtlWritten (s : State) (v : Word) : State :=
  if flagF v tsSyncCtl_ppsEn then s
  else { s with
    pins := { s.pins with ppsAt := none }
    time := { s.time with syncStatus := setF s.time.syncStatus tsSyncStatus_ppsLocked 0 } }

/-- New rail codes: in ACTIVE the rails move to them (R455). -/
def railsWritten (s : State) (v : Word) : State :=
  if s.power = PS.active then s.applyRails (codesOf v) else { s with pow := { s.pow with railSet := v } }

/-- A DORMANT_TABLE entry stored (R460). -/
def storeWatch (s : State) (v : Word) : State :=
  { s with pow := { s.pow with table := Sparse.set 0 s.pow.table (getF v dormantTable_index) (v &&& 0xffffffffffc00000) } }

/-- The parts of LNK_CTL that act: disable where it changes, then qualify, then retrain. -/
def lnkWritten (s : State) (n : Nat) (v m : Word) : State :=
  let s := if m &&& lnkCtl_disable.mask != 0 then s.disablePort n (flagF v lnkCtl_disable) else s
  let s := if flagF v lnkCtl_qualify then s.qualifyPort n else s
  if flagF v lnkCtl_retrain then s.retrainPort n else s

/-- fence of FENCE_CTL; in a partition that is fenced already it holds the fence. -/
def fenceWritten (s : State) (p : Nat) : State :=
  if s.partFenced p then s.onPart p (fun a => { a with fenceCtl := setF a.fenceCtl fenceCtl_fence 1 }) else s.hostFence p

/-- What a write does beside storing its RW fields. `m`: the bits it acts on. -/
def writeActs (s : State) (r : Reg) (v m : Word) : State :=
  match r with
  | .devIdAssign => if flagF v devIdAssign_go then s.assignId v else s
  | .yieldSummary =>
    if m &&& yieldSummary_softClear.mask != 0 then { s with flash := { s.flash with softClear := true } } else s
  | .tsSyncCtl => s.syncCtlWritten v
  | .pwrReq => if flagF v pwrReq_go then s.powerGo (getF v pwrReq_target) else s
  | .railSet => s.railsWritten v
  | .dormantTable => if flagF v dormantTable_wr then s.storeWatch v else s
  | .attestCtl => s.sealRenew
  | .debugLock => s.relock
  | .graftCtl => if flagF v graftCtl_go then s.graftGo v else s
  | .ethPortCtl e => if flagF v ethPortCtl_enable then s else s.setEth e (ethSet (s.eth e) 0)
  | .rstCtl =>
    let s := if flagF v rstCtl_retireClear then s.hostRetireClear else s
    if flagF v rstCtl_compute then s.hostCompute else s
  | .lnkCtl n => s.lnkWritten n v m
  | .fenceCtl p => s.fenceWritten p
  | .partReset p => s.hostPartReset p
  | .tileCtl tl => if flagF v tileCtl_bistStart then s.startBist tl (getF v tileCtl_bistMode) else s
  | .funcTable tl => if flagF v funcTable_wr then s.storeFunc tl v else s
  | _ => s

/-- The write takes place: selectors and RW fields, then what it starts. -/
def writeDone (s : State) (who : Who) (a : Nat) (r : Reg) (v m allow : Word) : State :=
  let s := if r.sel = 0 then s else s.setSel who a (v &&& r.sel)
  (s.onReg 0 r (r.merged v allow)).writeActs r v m

/-- Write a register, on the bits in `allow`: the state after it, and its error code (R493 to R499, R509). -/
def writeReg (s : State) (who : Who) (a : Nat) (v allow : Word) : State × Nat :=
  if a % 8 ≠ 0 then (s, Err.range)
  else match s.regAt a with
    | none => (s, Err.range)
    | some r =>
      let e := s.innerErr r true
      if e ≠ Err.ok then (s.countRefused (r.inner.getD 0) e, e)
      else if r.fromImage && (s.img.load.bind (·.finalSeq)).isSome then (s, Err.busy)
      else
        let m := r.acted (s.regValue (s.selOf who a) r) v allow
        if m = 0 then (s, Err.ok)
        else
          let e := s.writeErr r v m
          if e ≠ Err.ok then (s, e) else (s.writeDone who a r v m allow, Err.ok)

/-- A write over I3C (R487, R507): from ROOTED, to what the bus reaches; a refusal shows in ERR_LAST alone. -/
def i3cWrite (s : State) (a : Nat) (v : Word) : State :=
  if !s.alive then s
  else if a % 8 ≠ 0 then s.errRecord Err.range Src.i3c
  else if !s.boot.rooted then s
  else match (s.regAt a).bind Reg.i3cReach with
    | none => s
    | some allow =>
      if allow = 0 then s
      else
        let r := s.writeReg .i3c a v allow
        r.1.errRecord r.2 Src.i3c

/-- A register write that is a command by itself (log 40): as a REG_WRITE pair of an open host session carries it, or as
a private write on I3C. The message that carries a pair is answered by REG_WRITE. -/
def regCommand (s : State) (who : Who) (a : Nat) (v : Word) : State :=
  match who with
  | .i3c => s.i3cWrite a v
  | .dct n =>
    if s.servesDct && (s.session n).any (fun x => x.isOpen && x.fromHost) then
      let r := s.writeReg who a v (BitVec.allOnes 64)
      r.1.errRecord r.2 Src.dct
    else s

/-- PWR_REQ with go and a target. -/
def powerCommand (s : State) (who : Who) (v : Word) (target : Nat) : State :=
  s.regCommand who 0x00030008 (setF (setF v pwrReq_target target) pwrReq_go 1)

/-- GRAFT_CTL with go and an op. -/
def graftCommand (s : State) (who : Who) (v : Word) (op : Nat) : State :=
  s.regCommand who 0x00060028 (setF (setF v graftCtl_op op) graftCtl_go 1)

end State

/-- BIST_START (R67, R70): TILE_CTL with bist_start. -/
def execBistStart (who : Who) (tl : TileRef) (value : Word) (s : State) : Host.Outcome State Fault Refusal :=
  .next (s.regCommand who (tileBase tl) (setF value tileCtl_bistStart 1))

/-- FUNC_TABLE_ACCESS (R146). -/
def execFuncTableAccess (who : Who) (tl : TileRef) (value : Word) (s : State) : Host.Outcome State Fault Refusal :=
  .next (s.regCommand who (tileBase tl + 0x180) value)

/-- EVAL_REQ (R277, R319). -/
def execEvalReq (who : Who) (value : Word) (s : State) : Host.Outcome State Fault Refusal :=
  .next (s.regCommand who 0x00050000 (setF value stepCtl_evalReq 1))

/-- PAUSE_REQ (R308, R319). -/
def execPauseReq (who : Who) (value : Word) (s : State) : Host.Outcome State Fault Refusal :=
  .next (s.regCommand who 0x00050000 (setF value stepCtl_pauseReq 1))

/-- PLANNED (R344, R350). -/
def execPlanned (who : Who) (value : Word) (s : State) : Host.Outcome State Fault Refusal := .next (s.graftCommand who value 1)

/-- HOST_FENCE (R350). -/
def execHostFence (who : Who) (value : Word) (s : State) : Host.Outcome State Fault Refusal := .next (s.graftCommand who value 2)

/-- ADMIT (R345, R350). -/
def execAdmitDevice (who : Who) (value : Word) (s : State) : Host.Outcome State Fault Refusal := .next (s.graftCommand who value 3)

/-- COMPUTE (R447). -/
def execCompute (who : Who) (value : Word) (s : State) : Host.Outcome State Fault Refusal :=
  .next (s.regCommand who 0x00080000 (setF value rstCtl_compute 1))

/-- RETIRE_CLEAR (R447). -/
def execRetireClear (who : Who) (value : Word) (s : State) : Host.Outcome State Fault Refusal :=
  .next (s.regCommand who 0x00080000 (setF value rstCtl_retireClear 1))

/-- PART_RESET_GO (R448). -/
def execPartResetGo (who : Who) (p : Nat) (value : Word) (s : State) : Host.Outcome State Fault Refusal :=
  .next (s.regCommand who (partRegBase p + 0x20) (setF value partReset_go 1))

/-- FENCE_CTL_FENCE (R448). -/
def execFenceCtlFence (who : Who) (p : Nat) (value : Word) (s : State) : Host.Outcome State Fault Refusal :=
  .next (s.regCommand who (partRegBase p + 0x10) (setF value fenceCtl_fence 1))

/-- QUALIFY (R387, R389). -/
def execQualify (who : Who) (n : Nat) (value : Word) (s : State) : Host.Outcome State Fault Refusal :=
  .next (s.regCommand who (portBase n) (setF value lnkCtl_qualify 1))

/-- RETRAIN (R379, R389). -/
def execRetrain (who : Who) (n : Nat) (value : Word) (s : State) : Host.Outcome State Fault Refusal :=
  .next (s.regCommand who (portBase n) (setF value lnkCtl_retrain 1))

/-- DISABLE (R379, R389). -/
def execDisable (who : Who) (n : Nat) (value : Word) (s : State) : Host.Outcome State Fault Refusal :=
  .next (s.regCommand who (portBase n) value)

/-- SEAL_RENEW (R421, R431). -/
def execSealRenew (who : Who) (value : Word) (s : State) : Host.Outcome State Fault Refusal :=
  .next (s.regCommand who 0x00040008 (setF value attestCtl_sealRenew 1))

/-- RELOCK (R429, R431). -/
def execRelock (who : Who) (value : Word) (s : State) : Host.Outcome State Fault Refusal :=
  .next (s.regCommand who 0x00040018 (setF value debugLock_relock 1))

/-- DEV_ID_ASSIGN (R502). -/
def execDevIdAssign (who : Who) (value : Word) (s : State) : Host.Outcome State Fault Refusal :=
  .next (s.regCommand who 0x00000028 (setF value devIdAssign_go 1))

/-- SOFT_CLEAR (R475). -/
def execSoftClear (who : Who) (value : Word) (s : State) : Host.Outcome State Fault Refusal :=
  .next (s.regCommand who 0x00010020 (setF value yieldSummary_softClear 1))

/-- DORMANT_TABLE_WRITE (R460). -/
def execDormantTableWrite (who : Who) (value : Word) (s : State) : Host.Outcome State Fault Refusal :=
  .next (s.regCommand who 0x00030030 value)

/-- POWER_ACTIVE (R453). -/
def execPowerActive (who : Who) (value : Word) (s : State) : Host.Outcome State Fault Refusal := .next (s.powerCommand who value PS.active)

/-- POWER_IDLE (R452, R453). -/
def execPowerIdle (who : Who) (value : Word) (s : State) : Host.Outcome State Fault Refusal := .next (s.powerCommand who value PS.idle)

/-- POWER_RETAIN (R452, R453). -/
def execPowerRetain (who : Who) (value : Word) (s : State) : Host.Outcome State Fault Refusal := .next (s.powerCommand who value PS.retain)

/-- POWER_DORMANT (R452, R453). -/
def execPowerDormant (who : Who) (value : Word) (s : State) : Host.Outcome State Fault Refusal := .next (s.powerCommand who value PS.dormant)

/-- POWER_OFF (R452, R453, R482). -/
def execPowerOff (who : Who) (value : Word) (s : State) : Host.Outcome State Fault Refusal := .next (s.powerCommand who value targetOff)

/-- I3C_REGISTER_WRITE (R487, R507). -/
def execI3cRegisterWrite (addr value : Word) (s : State) : Host.Outcome State Fault Refusal := .next (s.i3cWrite addr.toNat value)

end Sys2Proof.Machine
end

