-- ==== Sys2Proof/Machine/Dct.lean ====
section
/-!
DEFINITION. REG_READ and REG_WRITE messages, BULK_WRITE and BULK_READ, replies from the other side, and retransmission
(R399 to R405, R425, R426, R436).
-/
namespace Sys2Proof.Machine

/-- The capture buffer of a partition within its window (R437): 16 slots of 16 MiB. -/
def captureBase : Nat := 0x08800000
def captureSlot : Nat := 0x01000000

/-- The header of a capture (R437). -/
def captureHeader (c : Capture) : List Byte :=
  let b (v n : Nat) : List Byte := Memory.bytesLE v n
  b 0x50524143 4 ++ b c.level 1 ++ b c.cause 1 ++ b c.object 2 ++ b c.ts 8 ++ b c.vintage 6 ++ b c.attempt 2 ++ b c.bytes 4 ++ b 0 4

/-- Byte i of a slot of the capture buffer of partition p: the header, then records whose layout the spec leaves open. -/
def captureByte (a : Part) (p k i : Nat) : Byte :=
  match a.captures.find? (fun x => x.1 == k) with
  | none => unwritten
  | some (_, c) => if i < 32 then (captureHeader c).getD i 0 else Config.captured p c.ts i

/-- Bytes of a sealed envelope beside its ciphertext (R425). -/
def envelopeBytes : Nat := 72

/-- What a host's address names (R405): a region with its end within the window, or the capture buffer. -/
inductive BulkAt where
  | region (ty : RegionTy) (stop : Nat)
  | captures
deriving DecidableEq, Repr

/-- The end, within the window, of what an address names. -/
def BulkAt.stopAt : BulkAt → Nat
  | .region _ e => e
  | .captures => captureBase + 16 * captureSlot

namespace State

/-! ## REG_READ, REG_WRITE (R403, R494, R496) -/

/-- Addresses are read in order; the first that fails ends the message, and the NAK carries its index. -/
def readAll (s : State) (who : Who) (vs : List Word) (i : Nat) : List Word → State × Option Ans
  | [] => (s, some { status := Err.ok, words := vs.reverse, bytes := [] })
  | a :: as =>
    match s.readReg who a.toNat with
    | (s, .ok v) => s.readAll who (v :: vs) (i + 1) as
    | (s, .error e) => (s, some { status := e, words := [BitVec.ofNat 64 i], bytes := [] })

def regRead (s : State) (h : DctHdr) (addrs : List Word) : State :=
  s.dct h (.regRead h addrs) .opened true (if s.fitsReply (8 * addrs.length) then Err.ok else Err.length) Src.dct fun s =>
    s.readAll (.dct h.session) [] 0 addrs

/-- Pairs are written in order; those before the first that fails stand. -/
def writeAll (s : State) (who : Who) (i : Nat) : List (Word × Word) → State × Option Ans
  | [] => (s, some .ok)
  | x :: xs =>
    let r := s.writeReg who x.1.toNat x.2 (BitVec.allOnes 64)
    if r.2 = Err.ok then r.1.writeAll who (i + 1) xs
    else (r.1, some { status := r.2, words := [BitVec.ofNat 64 i], bytes := [] })

def regWrite (s : State) (h : DctHdr) (pairs : List (Word × Word)) : State :=
  s.dct h (.regWrite h pairs) .opened true Err.ok Src.dct fun s => s.writeAll (.dct h.session) 0 pairs

/-! ## BULK_WRITE, BULK_READ (R401, R405, R425, R426, R436) -/

def bulkAt (s : State) (a : Nat) : Option BulkAt :=
  let p := a / windowBytes
  let o := a % windowBytes
  if 7 < p then none
  else if captureBase ≤ o ∧ o < captureBase + 16 * captureSlot then some .captures
  else (s.regionAt p o).map (fun r => .region r.ty (r.base + r.len))

/-- What the host's messages reach in the present state (R405). -/
def bulkReach (s : State) (write : Bool) : BulkAt → Bool
  | .captures => !write
  | .region .eval _ => s.inJob
  | .region .state _ => if write then s.devState == DS.loaded else s.inState [DS.loaded, DS.paused]
  | .region .scratch _ => !write && s.inState [DS.loaded, DS.paused]
  | .region _ _ => false

/-- Length, then region and range. An object name names nothing on the device (log 44). -/
def bulkCheck (s : State) (write object : Bool) (a n : Nat) : Nat :=
  let reply := n + (if s.sealed then envelopeBytes else 0)
  if n = 0 then Err.ok
  else if !write && !s.fitsReply reply then Err.length
  else if object then Err.range
  else match s.bulkAt a with
    | none => Err.range
    | some b => if b.stopAt < a % windowBytes + n then Err.length else if !s.bulkReach write b then Err.range else Err.ok

/-- The partition that a host's access reaches refuses it when it is retired or fenced (R436, R444). -/
def partRefuses (s : State) (p : Nat) : Nat :=
  if s.partRetired p then Err.retired else if s.partFenced p then Err.fenced else Err.ok

def bulkWrite (s : State) (h : DctHdr) (object : Bool) (addr offset : Nat) (bs : List Byte) (env : Envelope) : State :=
  let a := addr + offset
  s.dct h (.bulkWrite h object addr offset bs env) .opened s.inJob (s.bulkCheck true object a bs.length) Src.dct fun s0 =>
    let s := s0.ensureActive
    let p := a / windowBytes
    let e := s.partRefuses p
    if bs.isEmpty then (s, some .ok)
    else if e ≠ Err.ok then (s.countRefused p e, some (.err e))
    else if s.envelopeErr env ≠ Err.ok then (s, some (.err (s.envelopeErr env)))
    else (s.hbmWrite a bs, some .ok)

/-- Bytes of a range of the capture buffer. -/
def captureRead (s : State) (a n : Nat) : List Byte :=
  let p := a / windowBytes
  let o := a % windowBytes - captureBase
  (List.range n).map (fun i => captureByte (s.part p) p ((o + i) / captureSlot) ((o + i) % captureSlot))

/-- A reply under an envelope (R425, R426): its slot and plaintext length, and the plaintext that it protects
(log 4); the device draws its salt. -/
def sealReply (s : State) (slot : Nat) (bs : List Byte) : State × Option Ans :=
  if slot = 0 ∨ 15 < slot then (s, some (.err Err.format))
  else if s.sec.slots.all (fun k => k.1 != slot) then (s, some (.err Err.absent))
  else (s.draw, some { status := Err.ok, words := [BitVec.ofNat 64 (slot + bs.length * 2 ^ 32)], bytes := bs })

def bulkRead (s : State) (h : DctHdr) (object : Bool) (addr offset n slot : Nat) : State :=
  let a := addr + offset
  let cap := !object && s.bulkAt a == some .captures
  let permit := s.inJob || (s.inState [DS.linked, DS.ready, DS.fenced, DS.quarantine, DS.retired] && cap)
  s.dct h (.bulkRead h object addr offset n slot) .opened permit (s.bulkCheck false object a n) Src.dct fun s0 =>
    let s := s0.ensureActive
    let p := a / windowBytes
    let e := s.partRefuses p
    if n = 0 then (s, some .ok)
    else if e ≠ Err.ok then (s.countRefused p e, some (.err e))
    else
      let bs := if cap then s.captureRead a n else s.hbmRead false a n
      if s.sealed then s.sealReply (if cap then 1 else slot) bs else (s, some { status := Err.ok, words := [], bytes := bs })

/-! ## Replies and retransmission (R399, R400) -/

/-- A verified reply of an open session takes the message it answers out of retransmission. -/
def replyIn (s : State) (h : DctHdr) (seq : Nat) (acked : Msg → State → State) : State :=
  if !s.servesDct then s
  else if !h.wellSized then s.bumpDct dctCounters_dropped
  else match s.session h.session with
    | none => s.bumpDct dctCounters_tagFail
    | some x =>
      if !x.isOpen || !h.tagOk then s.bumpDct dctCounters_tagFail
      else
        let s := s.onSession x.num (fun y => { y with lastAt := s.clock })
        match s.unacked.find? (fun u => u.session == x.num && u.seq == seq) with
        | none => s
        | some u => acked u.msg { s with unacked := s.unacked.filter (fun v => v.session != x.num || v.seq != seq) }

/-- An ACK; of a manifest it counts toward its majority (R358). -/
def ackIn (s : State) (h : DctHdr) (seq : Nat) : State :=
  s.replyIn h seq (fun m s => match m with
    | .manifest _ => s.manifestAck
    | _ => s)

/-- A NAK answers a message and nothing more: an endpoint that refuses a manifest does not count for it. -/
def nakIn (s : State) (h : DctHdr) (seq : Nat) : State := s.replyIn h seq (fun _ s => s)

/-- A manifest follows R357 and R358, not the retransmission of R400. -/
def retransmits : Msg → Bool
  | .manifest _ => false
  | _ => true

/-- rto_ms after it was last sent, an unanswered message is sent again, up to `retries` times; then it is given up, and
an EVENT so lost is counted. -/
def retransmit (s : State) (session seq : Nat) : State :=
  match s.unacked.find? (fun u => u.session == session && u.seq == seq) with
  | none => s
  | some u =>
    if !s.servesDct || !retransmits u.msg || s.clock < u.sentAt + getF s.dctCfg dctCfg_rtoMs * msTicks then s
    else if u.tries < getF s.dctCfg dctCfg_retries then
      { s.send u.msg with unacked := s.unacked.map (fun v =>
        if v.session = session ∧ v.seq = seq then { v with tries := v.tries + 1, sentAt := s.clock } else v) }
    else
      let s := { s with unacked := s.unacked.filter (fun v => v.session != session || v.seq != seq) }
      if u.isEvent then s.bumpDct dctCounters_evLost else s

end State

/-- REG_READ (R403, R493, R496). -/
def execRegRead (h : DctHdr) (addrs : List Word) (s : State) : Host.Outcome State Fault Refusal := .next (s.regRead h addrs)

/-- REG_WRITE (R403, R496). -/
def execRegWrite (h : DctHdr) (pairs : List (Word × Word)) (s : State) : Host.Outcome State Fault Refusal := .next (s.regWrite h pairs)

/-- BULK_WRITE (R405, R425). -/
def execBulkWrite (h : DctHdr) (object : Bool) (addr offset : Nat) (bytes : List Byte) (env : Envelope) (s : State) :
    Host.Outcome State Fault Refusal := .next (s.bulkWrite h object addr offset bytes env)

/-- BULK_READ (R405, R426). -/
def execBulkRead (h : DctHdr) (object : Bool) (addr offset count slot : Nat) (s : State) : Host.Outcome State Fault Refusal :=
  .next (s.bulkRead h object addr offset count slot)

/-- ACK (R399, R358). -/
def execAck (h : DctHdr) (ackSeq : Nat) (s : State) : Host.Outcome State Fault Refusal := .next (s.ackIn h ackSeq)

/-- NAK (R399). -/
def execNak (h : DctHdr) (ackSeq _code : Nat) (s : State) : Host.Outcome State Fault Refusal := .next (s.nakIn h ackSeq)

/-- EVENT_RETRANSMIT (R400). -/
def execEventRetransmit (session seq : Nat) (s : State) : Host.Outcome State Fault Refusal := .next (s.retransmit session seq)

end Sys2Proof.Machine
end

