-- ==== Sys2Proof/Machine/Decisions.lean ====
section
/-!
DEFINITION. Answers to decision requests, and what happens at their deadlines (R409, R504).
-/
namespace Sys2Proof.Machine
namespace State

/-- An answer that the duty permits (Duty table). -/
def permitted (s : State) (d : Decision) (answer : Nat) (v : Word) : Bool :=
  match d.duty, answer with
  | 1, 1 => s.eligible v.toNat
  | 1, 2 => true
  | 2, 1 => decide (v.toNat ≤ 0xfe)
  | 7, 1 => (codesOf v).all railCodeOk
  | _, 0 => true
  | 0, 1 | 3, 1 | 4, 1 | 5, 1 | 6, 1 => true
  | _, _ => false

/-- The spare that the head proposed, or that the host names, takes part in the graft (R337). -/
def useSpare (s : State) (d : Decision) (sp : Nat) : State :=
  let planned := d.arg2 / 2 ^ 16 == 1
  if s.eligible sp then s.wakeFor d.arg sp planned
  else if planned then
    s.putGraft { fenced := d.arg, spare := some sp, planned := true, phase := GP.failed, matched := [], mismatches := 0, source := 3 } Err.absent
  else s.selectSpare d.arg

/-- The host holds a graft: the job stays PAUSED, and the fenced member waits for a spare (log 45). -/
def holdGraft (s : State) (d : Decision) : State :=
  if d.arg2 / 2 ^ 16 = 1 then s
  else
    let s := s.onFd (fun f => { f with waiting := d.arg :: f.waiting.filter (fun x => x != d.arg) })
    if s.isJobHead && s.devState == DS.running then s.multicastRollback Err.absent else s

/-- X of a tensor as the host answers it goes into the verdict (R180). -/
def applyX (s : State) (tensor x : Nat) : State :=
  s.onJob (fun j => { j with headVerdict := j.headVerdict.map (fun y =>
    (y.1, y.2.1, { y.2.2 with applied := (tensor, x) :: y.2.2.applied })) })

/-- The verdict goes out once no request about its scales is pending. -/
def scalesSettled (s : State) : State := if (s.pendingOn 2).isEmpty then s.multicastVerdict else s

/-- What an answer decides (Duty table); answer 0 is also what every deadline but that of duty 3 does. -/
def settle (s : State) (d : Decision) (answer : Nat) (v : Word) : State :=
  match d.duty, answer with
  | 0, 0 => if s.isFenced d.arg then s else s.takeFence d.arg (d.arg2 / 2 ^ 16) (d.arg2 % 2 ^ 16)
  | 0, _ => s
  | 1, 0 => s.useSpare d (d.arg2 % 2 ^ 16)
  | 1, 1 => s.useSpare d v.toNat
  | 1, _ => s.holdGraft d
  | 2, 0 => s.scalesSettled
  | 2, _ => (s.applyX d.arg v.toNat).scalesSettled
  | 3, a => s.decideCheck (d.arg2 == 1 && a == 0)
  | 4, 0 => if s.committedV = d.arg then s.startStreams d.arg else s
  | 4, _ => s
  | 5, 0 => s.swapPort d.arg
  | 5, _ => s
  | 6, 0 => s.escalate d.arg
  | 6, _ => s.holdScope d.arg
  | 7, a => if s.devState = DS.running then s.applyRails (codesOf (if a = 0 then BitVec.ofNat 64 d.arg else v)) else s
  | _, _ => s

def markDecision (s : State) (id st : Nat) : State :=
  { s with decisions := s.decisions.map (fun x => if x.id = id then { x with st := st } else x) }

def decisionOf (s : State) (id : Nat) : Option Decision := s.decisions.find? (fun d => d.id == id)

/-- An answer: unknown, decided, too late, not permitted, or it counts (R409). -/
def takeAnswer (s : State) (id answer : Nat) (v : Word) : State × Option Ans :=
  match s.decisionOf id with
  | none => (s, some (.err Err.range))
  | some d =>
    if d.st = 1 then (s, some (.err Err.busy))
    else if d.st = 2 ∨ d.deadline ≤ s.now then (s, some (.err Err.timeout))
    else if !s.permitted d answer v then (s, some (.err Err.range))
    else ((s.markDecision id 1).settle d answer v, some .ok)

def decisionAns (s : State) (h : DctHdr) (id answer : Nat) (v : Word) : State :=
  s.dct h (.decisionAns h id answer v) .opened s.inJob Err.ok Src.dct fun s => s.takeAnswer id answer v

/-- A deadline, which a request without an open host session meets at once (R400). Duty 3 waits: an EVENT, and a further
deadline. -/
def deadlinePasses (s : State) (id : Nat) : State :=
  match s.decisionOf id with
  | none => s
  | some d =>
    if !s.alive || !s.boot.rooted || d.st ≠ 0 then s
    else if s.now < d.deadline ∧ s.hostSessions ≠ [] then s
    else if d.duty = 3 then
      let s : State := { s with decisions := s.decisions.map (fun x => if x.id = id then { x with deadline := s.deadline } else x) }
      s.event Err.timeout 0 id Src.step false
    else (s.markDecision id 2).settle d 0 0

end State

/-- DECISION_ANS (R409). -/
def execDecisionAns (h : DctHdr) (request answer : Nat) (value : Word) (s : State) : Host.Outcome State Fault Refusal :=
  .next (s.decisionAns h request answer value)

/-- DUTY_DEADLINE_EXPIRY (R409, R400). -/
def execDutyDeadlineExpiry (request : Nat) (s : State) : Host.Outcome State Fault Refusal := .next (s.deadlinePasses request)

end Sys2Proof.Machine
end

