-- ==== Sys2Proof/Machine/Dispatch.lean ====
section
/-! DEFINITION. The meaning of each command: one arm per row of spec/opcode_table.json. -/
namespace Sys2Proof.Machine
open Sys2Proof

def exec (i : Instr) (s : State) : Host.Outcome State Fault Refusal :=
  match i with
  | .load tl d ecc => Sys2Proof.Machine.execLoad tl d ecc s
  | .pass tl mask badVec => Sys2Proof.Machine.execPass tl mask badVec s
  | .swap tl array => Sys2Proof.Machine.execSwap tl array s
  | .passDrained tl array => Sys2Proof.Machine.execPassDrained tl array s
  | .drain tl d m => Sys2Proof.Machine.execDrain tl d m s
  | .row tl d ecc race => Sys2Proof.Machine.execRow tl d ecc race s
  | .spanRecompute tl lot span => Sys2Proof.Machine.execSpanRecompute tl lot span s
  | .vecFp32Elementwise tl x => Sys2Proof.Machine.execVecFp32Elementwise tl x s
  | .update tl x => Sys2Proof.Machine.execUpdate tl x s
  | .transposeConversion tl x => Sys2Proof.Machine.execTransposeConversion tl x s
  | .compress tl x => Sys2Proof.Machine.execCompress tl x s
  | .dwAccumulate tl x => Sys2Proof.Machine.execDwAccumulate tl x s
  | .amaxAndFiniteCount tl x => Sys2Proof.Machine.execAmaxAndFiniteCount tl x s
  | .conversion tl x => Sys2Proof.Machine.execConversion tl x s
  | .compareCombine tl x => Sys2Proof.Machine.execCompareCombine tl x s
  | .move tl d ecc => Sys2Proof.Machine.execMove tl d ecc s
  | .transferComplete tl ch race => Sys2Proof.Machine.execTransferComplete tl ch race s
  | .copyOnWrite p page ue => Sys2Proof.Machine.execCopyOnWrite p page ue s
  | .syncSet tl => Sys2Proof.Machine.execSyncSet tl s
  | .syncInc tl => Sys2Proof.Machine.execSyncInc tl s
  | .syncWait tl => Sys2Proof.Machine.execSyncWait tl s
  | .waitSatisfied tl => Sys2Proof.Machine.execWaitSatisfied tl s
  | .loopBegin f => Sys2Proof.Machine.execLoopBegin f s
  | .loopEnd tl => Sys2Proof.Machine.execLoopEnd tl s
  | .branchOnLoopCount tl => Sys2Proof.Machine.execBranchOnLoopCount tl s
  | .predicate p t ecc => Sys2Proof.Machine.execPredicate p t ecc s
  | .endOfPhase tl => Sys2Proof.Machine.execEndOfPhase tl s
  | .mark tl stallUs => Sys2Proof.Machine.execMark tl stallUs s
  | .tileHeartbeat tl => Sys2Proof.Machine.execTileHeartbeat tl s
  | .tileGraft tl quickFail => Sys2Proof.Machine.execTileGraft tl quickFail s
  | .bistStart who tl value => Sys2Proof.Machine.execBistStart who tl value s
  | .selfTestComplete p site fails => Sys2Proof.Machine.execSelfTestComplete p site fails s
  | .funcTableAccess who tl value => Sys2Proof.Machine.execFuncTableAccess who tl value s
  | .partialFrame tl f => Sys2Proof.Machine.execPartialFrame tl f s
  | .dataFeed h vintage lot offset bytes env => Sys2Proof.Machine.execDataFeed h vintage lot offset bytes env s
  | .verdictReport => Sys2Proof.Machine.execVerdictReport s
  | .verdict vintage attempt v => Sys2Proof.Machine.execVerdict vintage attempt v s
  | .stepCheck grad shard => Sys2Proof.Machine.execStepCheck grad shard s
  | .checkReport r => Sys2Proof.Machine.execCheckReport r s
  | .agreementDeadline vintage attempt => Sys2Proof.Machine.execAgreementDeadline vintage attempt s
  | .commit vintage pause => Sys2Proof.Machine.execCommit vintage pause s
  | .evaluationEnd => Sys2Proof.Machine.execEvaluationEnd s
  | .rollback vintage attempt stop => Sys2Proof.Machine.execRollback vintage attempt stop s
  | .replayStart => Sys2Proof.Machine.execReplayStart s
  | .rackPage buddy p page bytes => Sys2Proof.Machine.execRackPage buddy p page bytes s
  | .rackDigest buddy p vintage digest => Sys2Proof.Machine.execRackDigest buddy p vintage digest s
  | .rackAck buddy p vintage ok => Sys2Proof.Machine.execRackAck buddy p vintage ok s
  | .decisionAns h request answer value => Sys2Proof.Machine.execDecisionAns h request answer value s
  | .dutyDeadlineExpiry request => Sys2Proof.Machine.execDutyDeadlineExpiry request s
  | .ledgerPull h part count first => Sys2Proof.Machine.execLedgerPull h part count first s
  | .checkpointObjectAck p digest => Sys2Proof.Machine.execCheckpointObjectAck p digest s
  | .checkpointObjectTimeout p => Sys2Proof.Machine.execCheckpointObjectTimeout p s
  | .checkpointDeadline => Sys2Proof.Machine.execCheckpointDeadline s
  | .manifestWrite => Sys2Proof.Machine.execManifestWrite s
  | .start h => Sys2Proof.Machine.execStart h s
  | .resume h => Sys2Proof.Machine.execResume h s
  | .pause h => Sys2Proof.Machine.execPause h s
  | .eval h => Sys2Proof.Machine.execEval h s
  | .ckpt h => Sys2Proof.Machine.execCkpt h s
  | .restore h cands => Sys2Proof.Machine.execRestore h cands s
  | .restoreCommit vintage gen state scales => Sys2Proof.Machine.execRestoreCommit vintage gen state scales s
  | .endJob h => Sys2Proof.Machine.execEndJob h s
  | .evalReq who value => Sys2Proof.Machine.execEvalReq who value s
  | .pauseReq who value => Sys2Proof.Machine.execPauseReq who value s
  | .epochStart => Sys2Proof.Machine.execEpochStart s
  | .imageLoad h offset bytes inp => Sys2Proof.Machine.execImageLoad h offset bytes inp s
  | .imageCommit => Sys2Proof.Machine.execImageCommit s
  | .beatSend => Sys2Proof.Machine.execBeatSend s
  | .beat src ts st progress => Sys2Proof.Machine.execBeat src ts st progress s
  | .beatMiss member => Sys2Proof.Machine.execBeatMiss member s
  | .report reporter accused ts => Sys2Proof.Machine.execReport reporter accused ts s
  | .reportWaitExpiry accused => Sys2Proof.Machine.execReportWaitExpiry accused s
  | .selfFail src ts cause => Sys2Proof.Machine.execSelfFail src ts cause s
  | .fence m => Sys2Proof.Machine.execFence m s
  | .wake spare fenced epoch instant => Sys2Proof.Machine.execWake spare fenced epoch instant s
  | .deviceSelfTest fails hbmOk exvOk => Sys2Proof.Machine.execDeviceSelfTest fails hbmOk exvOk s
  | .stateLoad p vintage pages digest scales => Sys2Proof.Machine.execStateLoad p vintage pages digest scales s
  | .takeOver attempt running => Sys2Proof.Machine.execTakeOver attempt running s
  | .graftDone newId former source vintage => Sys2Proof.Machine.execGraftDone newId former source vintage s
  | .planned who value => Sys2Proof.Machine.execPlanned who value s
  | .hostFence who value => Sys2Proof.Machine.execHostFence who value s
  | .admitDevice who value => Sys2Proof.Machine.execAdmitDevice who value s
  | .admissionTestComplete fails memOk linksOk exvOk => Sys2Proof.Machine.execAdmissionTestComplete fails memOk linksOk exvOk s
  | .hang vintage attempt => Sys2Proof.Machine.execHang vintage attempt s
  | .replayDeadlineExpiry => Sys2Proof.Machine.execReplayDeadlineExpiry s
  | .tileUnitWatchdog tl unit => Sys2Proof.Machine.execTileUnitWatchdog tl unit s
  | .heartbeatWatchdog tl => Sys2Proof.Machine.execHeartbeatWatchdog tl s
  | .collectiveWaitExpiry tl coll => Sys2Proof.Machine.execCollectiveWaitExpiry tl coll s
  | .memoryPortWatchdog p k pch => Sys2Proof.Machine.execMemoryPortWatchdog p k pch s
  | .routerWatchdog p dieLink => Sys2Proof.Machine.execRouterWatchdog p dieLink s
  | .rootstockWatchdog standbyServes => Sys2Proof.Machine.execRootstockWatchdog standbyServes s
  | .resetTimeout sc => Sys2Proof.Machine.execResetTimeout sc s
  | .resetComplete sc fails => Sys2Proof.Machine.execResetComplete sc fails s
  | .compute who value => Sys2Proof.Machine.execCompute who value s
  | .retireClear who value => Sys2Proof.Machine.execRetireClear who value s
  | .partResetGo who p value => Sys2Proof.Machine.execPartResetGo who p value s
  | .fenceCtlFence who p value => Sys2Proof.Machine.execFenceCtlFence who p value s
  | .flitBundle n flits tagOk => Sys2Proof.Machine.execFlitBundle n flits tagOk s
  | .nakResend n ack => Sys2Proof.Machine.execNakResend n ack s
  | .keepaliveSend n => Sys2Proof.Machine.execKeepaliveSend n s
  | .keepalive n dev port ts devState squelch tagOk => Sys2Proof.Machine.execKeepalive n dev port ts devState squelch tagOk s
  | .keepaliveMiss n => Sys2Proof.Machine.execKeepaliveMiss n s
  | .retrainTimeout n => Sys2Proof.Machine.execRetrainTimeout n s
  | .retrainComplete n => Sys2Proof.Machine.execRetrainComplete n s
  | .detectTimeout n energised => Sys2Proof.Machine.execDetectTimeout n energised s
  | .train n t => Sys2Proof.Machine.execTrain n t s
  | .laneShort n lane => Sys2Proof.Machine.execLaneShort n lane s
  | .fecLock n => Sys2Proof.Machine.execFecLock n s
  | .linkKeyExchange n ok => Sys2Proof.Machine.execLinkKeyExchange n ok s
  | .laneFailure n lane lockLost => Sys2Proof.Machine.execLaneFailure n lane lockLost s
  | .dampingRelease n lane => Sys2Proof.Machine.execDampingRelease n lane s
  | .healthScan n scan => Sys2Proof.Machine.execHealthScan n scan s
  | .cmisPoll n temp laserPct => Sys2Proof.Machine.execCmisPoll n temp laserPct s
  | .moduleSilent n => Sys2Proof.Machine.execModuleSilent n s
  | .timeExchange n t1 t2 t3 t4 hops peer => Sys2Proof.Machine.execTimeExchange n t1 t2 t3 t4 hops peer s
  | .packetForward pk whole => Sys2Proof.Machine.execPacketForward pk whole s
  | .e2eAck route seq => Sys2Proof.Machine.execE2eAck route seq s
  | .e2eResend route seq => Sys2Proof.Machine.execE2eResend route seq s
  | .abort n route seq => Sys2Proof.Machine.execAbort n route seq s
  | .qualify who n value => Sys2Proof.Machine.execQualify who n value s
  | .retrain who n value => Sys2Proof.Machine.execRetrain who n value s
  | .disable who n value => Sys2Proof.Machine.execDisable who n value s
  | .hello h x => Sys2Proof.Machine.execHello h x s
  | .finish h t => Sys2Proof.Machine.execFinish h t s
  | .wrapped h w => Sys2Proof.Machine.execWrapped h w s
  | .erase h mask => Sys2Proof.Machine.execErase h mask s
  | .licence h offset bytes lic => Sys2Proof.Machine.execLicence h offset bytes lic s
  | .debugToken h offset bytes nonce sigOk => Sys2Proof.Machine.execDebugToken h offset bytes nonce sigOk s
  | .pendingSessionTimeout session => Sys2Proof.Machine.execPendingSessionTimeout session s
  | .sessionIdleTimeout session => Sys2Proof.Machine.execSessionIdleTimeout session s
  | .attestReport h nonce => Sys2Proof.Machine.execAttestReport h nonce s
  | .attestReadReport h count offset => Sys2Proof.Machine.execAttestReadReport h count offset s
  | .attestReadChain h count offset => Sys2Proof.Machine.execAttestReadChain h count offset s
  | .sealRenew who value => Sys2Proof.Machine.execSealRenew who value s
  | .relock who value => Sys2Proof.Machine.execRelock who value s
  | .regRead h addrs => Sys2Proof.Machine.execRegRead h addrs s
  | .regWrite h pairs => Sys2Proof.Machine.execRegWrite h pairs s
  | .bulkWrite h object addr offset bytes env => Sys2Proof.Machine.execBulkWrite h object addr offset bytes env s
  | .bulkRead h object addr offset count slot => Sys2Proof.Machine.execBulkRead h object addr offset count slot s
  | .ack h ackSeq => Sys2Proof.Machine.execAck h ackSeq s
  | .nak h ackSeq code => Sys2Proof.Machine.execNak h ackSeq code s
  | .eventRetransmit session seq => Sys2Proof.Machine.execEventRetransmit session seq s
  | .devIdAssign who value => Sys2Proof.Machine.execDevIdAssign who value s
  | .softClear who value => Sys2Proof.Machine.execSoftClear who value s
  | .dormantTableWrite who value => Sys2Proof.Machine.execDormantTableWrite who value s
  | .powerActive who value => Sys2Proof.Machine.execPowerActive who value s
  | .powerIdle who value => Sys2Proof.Machine.execPowerIdle who value s
  | .powerRetain who value => Sys2Proof.Machine.execPowerRetain who value s
  | .powerDormant who value => Sys2Proof.Machine.execPowerDormant who value s
  | .powerOff who value => Sys2Proof.Machine.execPowerOff who value s
  | .deferReask => Sys2Proof.Machine.execDeferReask s
  | .dormantWake sources => Sys2Proof.Machine.execDormantWake sources s
  | .avsTimeout p => Sys2Proof.Machine.execAvsTimeout p s
  | .readPinSample watts avg => Sys2Proof.Machine.execReadPinSample watts avg s
  | .readPinLoss => Sys2Proof.Machine.execReadPinLoss s
  | .pmbusTelemetry t => Sys2Proof.Machine.execPmbusTelemetry t s
  | .balancingLoop w => Sys2Proof.Machine.execBalancingLoop w s
  | .thermalThrottle p tj hbm => Sys2Proof.Machine.execThermalThrottle p tj hbm s
  | .thermalTrip p => Sys2Proof.Machine.execThermalTrip p s
  | .patrolScrub p k pch unit r => Sys2Proof.Machine.execPatrolScrub p k pch unit r s
  | .stackTemperatureReadout p k temp => Sys2Proof.Machine.execStackTemperatureReadout p k temp s
  | .refreshManagement p k => Sys2Proof.Machine.execRefreshManagement p k s
  | .powerUp => Sys2Proof.Machine.execPowerUp s
  | .powerDown => Sys2Proof.Machine.execPowerDown s
  | .resetN => Sys2Proof.Machine.execResetN s
  | .stage1FirmwareAndLicence ms => Sys2Proof.Machine.execStage1FirmwareAndLicence ms s
  | .stage2Clocks r => Sys2Proof.Machine.execStage2Clocks r s
  | .stage3Memories r => Sys2Proof.Machine.execStage3Memories r s
  | .stage4Links up ethRates ms => Sys2Proof.Machine.execStage4Links up ethRates ms s
  | .stage5Reconciliation fails ms => Sys2Proof.Machine.execStage5Reconciliation fails ms s
  | .stageBudgetExpiry => Sys2Proof.Machine.execStageBudgetExpiry s
  | .recoveryBegin len => Sys2Proof.Machine.execRecoveryBegin len s
  | .recoveryData offset bytes => Sys2Proof.Machine.execRecoveryData offset bytes s
  | .recoveryEnd fw => Sys2Proof.Machine.execRecoveryEnd fw s
  | .i3cRegisterWrite addr value => Sys2Proof.Machine.execI3cRegisterWrite addr value s
  | .setdasa addr => Sys2Proof.Machine.execSetdasa addr s
  | .entdaa addr => Sys2Proof.Machine.execEntdaa addr s
  | .inputUndervoltage mv us => Sys2Proof.Machine.execInputUndervoltage mv us s
  | .inputOvervoltage mv us => Sys2Proof.Machine.execInputOvervoltage mv us s
  | .sensePairOpen => Sys2Proof.Machine.execSensePairOpen s
  | .sensePairRestored => Sys2Proof.Machine.execSensePairRestored s
  | .sidebandShort pin => Sys2Proof.Machine.execSidebandShort pin s
  | .refclkLoss => Sys2Proof.Machine.execRefclkLoss s
  | .refclkHoldoverExpiry => Sys2Proof.Machine.execRefclkHoldoverExpiry s
  | .refclkReturn => Sys2Proof.Machine.execRefclkReturn s
  | .ppsEdge freq => Sys2Proof.Machine.execPpsEdge freq s
  | .ppsLoss => Sys2Proof.Machine.execPpsLoss s
  | .ethLinkChange e up rate => Sys2Proof.Machine.execEthLinkChange e up rate s
  | .routerAdvertisement e pfx router => Sys2Proof.Machine.execRouterAdvertisement e pfx router s
  | .neighbourDiscovery e asker target => Sys2Proof.Machine.execNeighbourDiscovery e asker target s
  | .arp e asker target => Sys2Proof.Machine.execArp e asker target s
  | .icmpEcho e asker v6 data => Sys2Proof.Machine.execIcmpEcho e asker v6 data s
  | .ptpEventMessage e asker kind => Sys2Proof.Machine.execPtpEventMessage e asker kind s
  | .verdictReportReceived r => Sys2Proof.Machine.execVerdictReportReceived r s
  | .restoreReport device stage code => Sys2Proof.Machine.execRestoreReport device stage code s
  | .avsVdone p => Sys2Proof.Machine.execAvsVdone p s
  | .portDieLoss d => Sys2Proof.Machine.execPortDieLoss d s
  | .internalRailShort => Sys2Proof.Machine.execInternalRailShort s
  | .resetNRelease => Sys2Proof.Machine.execResetNRelease s
  | .trstN => Sys2Proof.Machine.execTrstN s

end Sys2Proof.Machine
end

