-- ==== Sys2Proof/Safety.lean ====
section
/-!
DEFINITION. What a safe run is, and the invariants that claims speak of.
-/
namespace Sys2Proof

/-- The step answers a next state. -/
def Goes (s : Machine.State) : Prop := ∃ t, Machine.step s = .next t

/-- `k` steps each answer a next state. -/
def SafeFor : Nat → Machine.State → Prop
  | 0, _ => True
  | k + 1, s => ∃ t, Machine.step s = .next t ∧ SafeFor k t

namespace Machine

/-- Every tile store listed is in its canonical form. -/
def StoresOk (m : Sparse Tile) : Prop := ∀ x ∈ m, Memory.wf x.2.store = true

/-- HBM, every tile store and every map of the state are in their canonical form: keys strictly rising, no entry
equal to what an unlisted key reads as. Equal contents are then equal data. -/
structure Canonical (s : State) : Prop where
  mem : Memory.wf s.mem = true
  tiles : Sparse.wf Tile.reset s.tiles = true
  stores : StoresOk s.tiles
  parts : Sparse.wf Part.reset s.parts = true
  ports : Sparse.wf Port.reset s.ports = true
  memStacks : Sparse.wf Stack.reset s.memStacks = true
  sites : Sparse.wf Site.reset s.sites = true

/-- DEV_STATE holds one of the thirteen device states of R24. -/
def LegalState (s : State) : Prop := s.devState ≤ DS.retired

/-! ## Terms that claims use -/

/-- The sequencer of a tile issues the instruction word `w`, of class `c`, outside a span that is run again: the tile may
issue, its index lies in the program, and the word at the index is `w` (R60, R205, R270). -/
structure Issues (s : State) (tl : TileRef) (c : Cls) (w : Word) : Prop where
  may : s.canIssue tl = true
  inside : (s.tile tl).seq.index < 4032
  word : curWord (s.tile tl) = w
  cls : clsOf w = some c
  own : (s.tile tl).seq.redo = none

/-- `u` is `t` with its instruction retired: one more in `progress`, the index at `next`, RUNNING; sequence state, sync
counters and time marks apart, nothing else of the tile has changed (R60). -/
structure Retired (t u : Tile) (next : Nat) : Prop where
  index : u.seq.index = next
  progress : getF u.status tileStatus_progress = (getF t.status tileStatus_progress + 1) % 2 ^ 16
  running : getF u.status tileStatus_tileState = TS.running
  fault : getF u.status tileStatus_faultCode = getF t.status tileStatus_faultCode
  rest : { u with status := t.status, seq := t.seq, counters := t.counters, marks := t.marks } = t

/-- A sync counter of a tile. -/
def counter (t : Tile) (k : Nat) : Nat := Sparse.get 0 t.counters k

/-- What the word's own completion adds to a counter (R60). -/
def adds (w : Word) (k : Nat) : Nat := if flagF w iw_syncEn ∧ getF w iw_counter = k then getF w iw_inc + 1 else 0

/-- `u` is `t` after its instruction `w` has retired and completed: one more in `progress`, the index at `next`, RUNNING,
no new fault, and the counter that the word names increased (R60). The rest of the tile is not spoken of. -/
structure Advanced (t u : Tile) (w : Word) (next : Nat) : Prop where
  index : u.seq.index = next
  progress : getF u.status tileStatus_progress = (getF t.status tileStatus_progress + 1) % 2 ^ 16
  running : getF u.status tileStatus_tileState = TS.running
  fault : getF u.status tileStatus_faultCode = getF t.status tileStatus_faultCode
  counts : ∀ k, counter u k = counter t k + adds w k

/-- No counter overflows when the word completes. -/
def CountsFit (t : Tile) (w : Word) : Prop := ∀ k, counter t k + adds w k ≤ 0xffffffff

/-- From `t` to `u` the store has changed in the bytes `bs` at `a` alone. -/
structure Wrote (t u : Tile) (a : Nat) (bs : List Byte) : Prop where
  bytes : Memory.readN u.store a bs.length = bs
  outside : ∀ x, x < a ∨ a + bs.length ≤ x → Memory.read u.store x = Memory.read t.store x

/-- What an instruction keeps of its tile when it changes only the store, sync counters, marks, sequence state and
status. -/
def SameButStore (t u : Tile) : Prop :=
  { u with store := t.store, status := t.status, seq := t.seq, counters := t.counters, marks := t.marks } = t

/-- The state in which an instruction of a tile has retired: where a wait of its sequencer has ended with it, the ledger holds
the stall; the tile is `u` (R60, R62). -/
def retiredTo (s : State) (tl : TileRef) (u : Tile) : State := (s.endWait tl).setTile tl u

/-- `u` is `t` with its sequencer waiting for the cause `code`, since now or since its wait began (R60, R62). -/
structure Waits (s : State) (t u : Tile) (code : Nat) : Prop where
  waiting : getF u.status tileStatus_tileState = TS.waiting
  held : u.seq.held = some (t.seq.held.getD (s.now, code))
  same : SameButStore t u
  store : u.store = t.store
  seq : { u.seq with held := t.seq.held } = t.seq
  counters : u.counters = t.counters

/-- The cellar serves the tile no frame of an earlier attempt (R223). -/
def Unserved (s : State) (tl : TileRef) : Prop :=
  ∀ y ∈ s.job.uncommitted, ∀ e ∈ y.frames, e.tl = tl → e.full = none ∨ e.attempt = s.openAttempt

/-- FP32 values as bytes, little-endian. -/
def f32Bytes (xs : List F32) : List Byte := xs.flatMap (fun x => Memory.bytesLE x.toNat 4)

/-- Neither a stash entry saved nor one freed. -/
def noStash : StashUse := { save := none, frees := [] }

/-- A record of a partition's ledger ring. -/
def recordAt (s : State) (p i : Nat) : Option LedgerRec := ((s.part p).ledger.recs.find? (fun x => x.1 == i)).map (·.2)

/-- The record that the next append writes: where it lands, and what it holds (R317). -/
def ledgerHead (s : State) (p : Nat) : Nat := (s.part p).ledger.head

/-! ## DCT messages -/

/-- The message with header `h` is the next of the host session `x` and passes checks 1 to 4 of R397: served, whole,
tagged, in sequence, for this device. -/
structure NextOf (s : State) (h : DctHdr) (x : Session) : Prop where
  serves : s.servesDct = true
  sized : h.wellSized = true
  nonzero : h.session ≠ 0
  session : s.session h.session = some x
  tag : h.tagOk = true
  limit : h.seq < seqLimit
  seq : h.seq = x.next
  idle : x.executing = false
  reserved : h.reservedZero = true
  host : x.fromHost = true
  device : h.anyDevice = true ∨ h.device = s.devId

/-- The state in which the message `h` has had its effect, `t`, and is answered OK (R398, R399). -/
def answeredOk (t : State) (h : DctHdr) : State := t.answer h.session h.seq .ok Src.dct

/-- The same in an open session. -/
structure Turn (s : State) (h : DctHdr) (x : Session) : Prop extends NextOf s h x where
  isOpen : x.isOpen = true

/-- A message outside any session, which passes the checks that apply to it (R395, R397). -/
structure Bare (s : State) (h : DctHdr) : Prop where
  serves : s.servesDct = true
  sized : h.wellSized = true
  session : h.session = 0
  tag : h.tagOk = true
  reserved : h.reservedZero = true
  device : h.anyDevice = true ∨ h.device = s.devId

/-- The state that the message is checked and run on: its session has been heard from (R396). -/
def heard (s : State) (x : Session) : State := s.onSession x.num (fun y => { y with lastAt := s.clock })

/-- The last message sent is the one reply to `h`, of status `e`, and its session awaits the next number (R398, R399). -/
def Answered (t : State) (h : DctHdr) (e : Nat) : Prop :=
  (∃ r : Reply, t.out.head? = some (.dct h.session r) ∧ r.seq = h.seq ∧ r.status = e) ∧
    ((t.session h.session).map (fun y => (y.next, y.executing))) = some (h.seq + 1, false)

/-- The last message sent is a reply to `h` of status `e`. -/
def LastReply (t : State) (h : DctHdr) (e : Nat) : Prop :=
  ∃ r : Reply, t.out.head? = some (.dct h.session r) ∧ r.seq = h.seq ∧ r.status = e

/-- The words and bytes of the reply to `h`. -/
def Replied (t : State) (h : DctHdr) (ws : List Word) (bs : List Byte) : Prop :=
  ∃ r : Reply, t.out.head? = some (.dct h.session r) ∧ r.seq = h.seq ∧ r.status = Err.ok ∧ r.payload = ws ∧ r.bytes = bs

/-- Beside the session, the reply, a held message released and ERR_LAST nothing has changed. -/
def OnlyReplied (s t : State) : Prop :=
  t = { s with out := t.out, sessions := t.sessions, released := t.released, dev := t.dev } ∧
    t.dev = { s.dev with errLast := t.dev.errLast }

/-! ## Commands that are one register write (R492 to R499, R509) -/

/-- The access that a register-write command makes: who, the address, the value. -/
def asWrite : Instr → Option (Who × Nat × Word)
  | .bistStart who tl v => some (who, tileBase tl, setF v tileCtl_bistStart 1)
  | .funcTableAccess who tl v => some (who, tileBase tl + 0x180, v)
  | .evalReq who v => some (who, 0x00050000, setF v stepCtl_evalReq 1)
  | .pauseReq who v => some (who, 0x00050000, setF v stepCtl_pauseReq 1)
  | .planned who v => some (who, 0x00060028, setF (setF v graftCtl_op 1) graftCtl_go 1)
  | .hostFence who v => some (who, 0x00060028, setF (setF v graftCtl_op 2) graftCtl_go 1)
  | .admitDevice who v => some (who, 0x00060028, setF (setF v graftCtl_op 3) graftCtl_go 1)
  | .compute who v => some (who, 0x00080000, setF v rstCtl_compute 1)
  | .retireClear who v => some (who, 0x00080000, setF v rstCtl_retireClear 1)
  | .partResetGo who p v => some (who, partRegBase p + 0x20, setF v partReset_go 1)
  | .fenceCtlFence who p v => some (who, partRegBase p + 0x10, setF v fenceCtl_fence 1)
  | .qualify who n v => some (who, portBase n, setF v lnkCtl_qualify 1)
  | .retrain who n v => some (who, portBase n, setF v lnkCtl_retrain 1)
  | .disable who n v => some (who, portBase n, v)
  | .sealRenew who v => some (who, 0x00040008, setF v attestCtl_sealRenew 1)
  | .relock who v => some (who, 0x00040018, setF v debugLock_relock 1)
  | .devIdAssign who v => some (who, 0x00000028, setF v devIdAssign_go 1)
  | .softClear who v => some (who, 0x00010020, setF v yieldSummary_softClear 1)
  | .dormantTableWrite who v => some (who, 0x00030030, v)
  | .powerActive who v => some (who, 0x00030008, setF (setF v pwrReq_target PS.active) pwrReq_go 1)
  | .powerIdle who v => some (who, 0x00030008, setF (setF v pwrReq_target PS.idle) pwrReq_go 1)
  | .powerRetain who v => some (who, 0x00030008, setF (setF v pwrReq_target PS.retain) pwrReq_go 1)
  | .powerDormant who v => some (who, 0x00030008, setF (setF v pwrReq_target PS.dormant) pwrReq_go 1)
  | .powerOff who v => some (who, 0x00030008, setF (setF v pwrReq_target targetOff) pwrReq_go 1)
  | _ => none

/-- A write of `v` to the register `r` at `a` by a host session reaches it and acts on the bits `m`. -/
structure Reaches (s : State) (who : Who) (a : Nat) (r : Reg) (v m : Word) : Prop where
  serves : s.servesDct = true
  sender : ∃ n x, who = .dct n ∧ s.session n = some x ∧ x.isOpen = true ∧ x.fromHost = true
  aligned : a % 8 = 0
  reg : s.regAt a = some r
  inner : s.innerErr r true = Err.ok
  free : r.fromImage = false ∨ s.img.load.bind (·.finalSeq) = none
  acted : r.acted (s.regValue (s.selOf who a) r) v (BitVec.allOnes 64) = m
  some : m ≠ 0

/-- The write of the register-write command `c` reaches `r` and is accepted. -/
def Accepted (s : State) (c : Instr) (r : Reg) : Prop :=
  ∃ who a v m, asWrite c = some (who, a, v) ∧ Reaches s who a r v m ∧ s.writeErr r v m = Err.ok

/-- From `s` the pairs are written in order, every one accepted, which leaves `t` (R403). -/
def WritesTo (who : Who) : State → List (Word × Word) → State → Prop
  | s, [], t => s = t
  | s, p :: ps, t =>
    (s.writeReg who p.1.toNat p.2 (BitVec.allOnes 64)).2 = Err.ok ∧ WritesTo who (s.writeReg who p.1.toNat p.2 (BitVec.allOnes 64)).1 ps t

/-- The header of a message that travels in an open session (R395). -/
def messageOf : Instr → Option DctHdr
  | .dataFeed h _ _ _ _ _ => some h
  | .decisionAns h _ _ _ => some h
  | .ledgerPull h _ _ _ => some h
  | .start h => some h
  | .resume h => some h
  | .pause h => some h
  | .eval h => some h
  | .ckpt h => some h
  | .restore h _ => some h
  | .endJob h => some h
  | .imageLoad h _ _ _ => some h
  | .wrapped h _ => some h
  | .erase h _ => some h
  | .licence h _ _ _ => some h
  | .debugToken h _ _ _ _ => some h
  | .attestReport h _ => some h
  | .attestReadReport h _ _ => some h
  | .attestReadChain h _ _ => some h
  | .regRead h _ => some h
  | .regWrite h _ => some h
  | .bulkWrite h _ _ _ _ _ => some h
  | .bulkRead h _ _ _ _ _ => some h
  | _ => none

/-- The formats of the format table's standard entries and the wide formats (R122, R142, R143). -/
def allFormats : List Fmt :=
  [⟨8, 4, 7, 1⟩, ⟨8, 5, 15, 2⟩, ⟨6, 3, 3, 0⟩, ⟨6, 2, 1, 0⟩, ⟨4, 2, 1, 0⟩, ⟨8, 0, 6, 0⟩, fmtFp32, fmtBf16, fmtFp16, fmtM48]

end Machine
end Sys2Proof
end

