-- ==== Sys2Proof/Certificates/Slice0/Obligations.lean ====
section
/-!
DEFINITION. The statements for the provers. Each is stated of every state and of every operand that its premises
admit; `Canonical` is the invariant of statements ResetState and CanonicalKept.
-/
open Sys2Proof Sys2Proof.Machine

/-! ## The block and its queue -/

/-- The front of the queue is what a step runs, on the state with the rest of the queue. It rests on choices or
readings of the model: log 19. -/
def Obligations.StepRunsTheFront : Prop := ∀ (c : Instr) (rest : List Instr) (s : State),
  step { s with pending := c :: rest } = exec c { s with pending := rest }

/-- No command waits: a DCT message that was held ahead of its turn and whose turn has come runs next (R398); with
none released the time base counts one tick and nothing else changes (the model's choice, log 3). It rests on choices
or readings of the model: log 19. -/
def Obligations.StepWithoutCommand : Prop := ∀ s : State, s.pending = [] →
  (∀ c rest, s.released = c :: rest → step s = exec c { s with released := rest }) ∧
  (s.released = [] → step s = .next { s with time := { s.time with count := s.time.count + 1 } })

/-- No command stops the block: every command answers a next state, whatever the state and the operands, and leaves
the queue of waiting commands alone. It rests on choices or readings of the model: log 19. -/
def Obligations.EveryCommandAnswers : Prop := ∀ (c : Instr) (s : State), ∃ t, exec c s = .next t ∧ t.pending = s.pending

/-- Every register whose field map gives all its reset values reads them at reset (the columns Reset of the chapters'
field maps), nothing waits and nothing is stored, and the invariants of CanonicalKept and LegalStateKept hold. It
rests on choices or readings of the model: log 1. -/
def Obligations.ResetState : Prop := Canonical State.reset ∧ LegalState State.reset ∧ ∀ (n k : Nat) (tl : TileRef),
  (∀ x ∈ ([(.tileCtl tl, 0x10000040), (.tileStatus tl, 0xf000001), (.siteBist n k, 0xff03000000), (.memCtl n k, 0x1803),
    (.stepCtl, 0x32300000), (.vintageOpen, 0xffffffffffff), (.vintageCommitted, 0xffffffffffff), (.buddyId, 0xffffffff),
    (.graftCtl, 0xffffffff00000008), (.graftStatus, 0xffffffff00000c00), (.fdCfg, 0xffffffff64350000),
    (.lnkCtl n, 0xa00), (.lnkStatus n, 0xfffffc0000000000), (.lnkHealth n, 0xff80000000),
    (.lnkFlapTable n, 0x3c640bb802ee03e8), (.tsSyncStatus, 0xfffffff000000000), (.ethPortCtl n, 0x1001),
    (.dctCfg, 0xb86d90000580003c), (.rstCtl, 0xa0a0a000000), (.rstEscTable, 0x25830e102000000),
    (.rstHistory, 0xff0000000000), (.partCtl n, 0x1), (.pwrReq, 0x580), (.pwrHandshakeStatus, 0xff000000),
    (.dormantCfg, 0xff00000a), (.thermLimits, 0x5f735a690e101068), (.devState, 0x1), (.dutyDeadline, 0x32),
    (.eventCtl, 0x3ff)] : List (Reg × Word)), State.reset.regValue 0 x.1 = x.2) ∧
  (∀ r ∈ ([.topkCtl tl, .funcTable tl, .numFlags tl, .scaleHist tl, .stashStatus tl, .redStatus tl, .sparseCtl tl,
    .memEccCounts n k, .stepCheckStatus, .cellarStatus, .ledgerPtr, .mirrorDegree, .rackStatus, .rackProgress,
    .snapPoolStatus, .fenceList, .lnkFecCounts n, .tsNow, .tsOffset, .tsSyncCtl, .dctCounters, .attestCtl,
    .keySlotStatus, .debugLock, .partStatus n, .fenceCtl n, .fenceStatus n, .partReset n, .capturePtr n, .pwrState,
    .railStatus, .bootStage, .bootStatus, .licenceStatus, .yieldSummary, .devIdAssign, .dutyMap, .errLast] : List Reg), State.reset.regValue 0 r = 0) ∧
  State.reset.regValue 0 .railSet = 0x6464646464646464 ∧ State.reset.regValue 0 (.lnkLaneMap n) = 0xe0e0e0e0e0 ∧
  State.reset.pending = [] ∧ State.reset.mem = [] ∧ State.reset.tiles = [] ∧ State.reset.sessions = [] ∧ State.reset.img.cur = none

/-- Every step keeps every map and memory in its canonical form. -/
def Obligations.CanonicalKept : Prop := ∀ s t : State, Canonical s → step s = .next t → Canonical t

/-- DEV_STATE holds one of the thirteen states of R24 after every step from a state where it does. -/
def Obligations.LegalStateKept : Prop := ∀ s t : State, LegalState s → step s = .next t → LegalState t

/-! ## Sync counters (R60, R61) -/

/-- SYNC_SET, SYNC_INC and SYNC_WAIT; an increment past 0xFFFF_FFFF faults the tile with code 0x05 and fails the step;
a wait below its target holds the sequencer, and WAIT_SATISFIED lets it go on once the counter has reached it; a wait
of at least a microsecond leaves its cause and duration in the ledger where the tile records stalls (R60, R61, R62,
R68). It rests on choices or readings of the model: logs 14, 72. It rests on choices or readings of the model: logs
14, 72. -/
def Obligations.SyncCounters : Prop := ∀ (s : State) (tl : TileRef) (w : Word), Canonical s →
  let t := s.tile tl
  let k := getF w sync_counter
  let v := getF w sync_value
  (Issues s tl .sync w → (∀ j, counter t j + v + adds w j ≤ 0xffffffff) →
    (getF w sync_op = 0 → ∃ u, exec (.syncSet tl) s = .next (retiredTo s tl u) ∧ Retired t u (t.seq.index + 1) ∧
      ∀ j, counter u j = (if j = k then v else counter t j) + adds w j) ∧
    (getF w sync_op = 1 → ∃ u, exec (.syncInc tl) s = .next (retiredTo s tl u) ∧ Retired t u (t.seq.index + 1) ∧
      ∀ j, counter u j = counter t j + (if j = k then v else 0) + adds w j) ∧
    (getF w sync_op = 2 → v ≤ counter t k → ∃ u, exec (.syncWait tl) s = .next (retiredTo s tl u) ∧
      Retired t u (t.seq.index + 1) ∧ ∀ j, counter u j = counter t j + adds w j)) ∧
  (Issues s tl .sync w → getF w sync_op = 1 → flagF w iw_syncEn = false → 0xffffffff < counter t k + v →
    ∃ s', exec (.syncInc tl) s = .next s' ∧ s' = { s with tiles := s'.tiles, parts := s'.parts, job := s'.job } ∧
      (t.seq.held = none → s'.parts = s.parts) ∧ (∀ u, tkey u ≠ tkey tl → s'.tile u = s.tile u) ∧
      getF (s'.tile tl).status tileStatus_faultCode = 5 ∧ getF (s'.tile tl).status tileStatus_tileState = TS.faulted ∧
      (s'.tile tl).counters = t.counters ∧ s'.job.bits.testBit stepCheckStatus_tile.lo = true) ∧
  (Issues s tl .sync w → getF w sync_op = 2 → counter t k < v →
    ∃ u, exec (.syncWait tl) s = .next (s.setTile tl u) ∧ u.seq.index = t.seq.index ∧
      getF u.status tileStatus_tileState = TS.waiting ∧ u.seq.wait = some (k, v) ∧
      u.seq.held = some (t.seq.held.getD (s.now, if s.waitsColl tl k then State.stallColl else State.stallSync)) ∧
      u.counters = t.counters ∧ SameButStore { t with redStatus := u.redStatus } u ∧ u.store = t.store) ∧
  (∀ c n, t.seq.wait = some (c, n) → n ≤ counter t c → s.canIssue tl = true → t.seq.redo = none → CountsFit t (curWord t) →
    ∃ u, exec (.waitSatisfied tl) s = .next (retiredTo s tl u) ∧ Advanced t u (curWord t) (t.seq.index + 1) ∧
      u.seq.wait = none ∧ u.seq.held = none ∧ SameButStore { t with redStatus := u.redStatus } u ∧ u.store = t.store) ∧
  (∀ u since code, t.seq.held = some (since, code) →
    (getF t.ctl tileCtl_ledgerDetail ≠ 0 → since + usTicks ≤ s.now →
      (recordAt (retiredTo s tl u) tl.p (ledgerHead s tl.p)).map (fun r => (r.cls, r.code, r.tile, r.arg)) =
        some (2, code, tl.t, min ((s.now - since) / usTicks) 0xffffffff)) ∧
    (getF t.ctl tileCtl_ledgerDetail = 0 ∨ s.now < since + usTicks → retiredTo s tl u = s.setTile tl u)) ∧
  (∀ u, t.seq.held = none → retiredTo s tl u = s.setTile tl u)

/-! ## FLOW (R512) -/

/-- LOOP_BEGIN, LOOP_END and BRANCH_ON_LOOP_COUNT. -/
def Obligations.Loops : Prop := ∀ (s : State) (tl : TileRef) (w : Word), Canonical s → Issues s tl .flow w →
  let t := s.tile tl
  let i := t.seq.index
  CountsFit t w →
  (∀ e, getF w flow_op = 0 → matchEnd t 0 (i + 1) (4032 - (i + 1)) = some e → t.seq.loops.length < 8 →
    (flagF w flow_flagCount = true → badDesc (getF w iw_desc) = false ∧ beyondStore (descAddr t w) 4 = false) →
    ∃ u, exec (.loopBegin ⟨tl, .clean⟩) s = .next (retiredTo s tl u) ∧ SameButStore t u ∧ u.store = t.store ∧
      (State.loopCount t w = 0 → Advanced t u w (e + 1) ∧ u.seq.loops = t.seq.loops) ∧
      (State.loopCount t w ≠ 0 → Advanced t u w (i + 1) ∧
        u.seq.loops = { body := i + 1, endAt := e, left := State.loopCount t w } :: t.seq.loops)) ∧
  (∀ l rest, getF w flow_op = 1 → t.seq.loops = l :: rest →
    ∃ u, exec (.loopEnd tl) s = .next (retiredTo s tl u) ∧ SameButStore t u ∧ u.store = t.store ∧
      (l.left ≤ 1 → Advanced t u w (i + 1) ∧ u.seq.loops = rest) ∧
      (1 < l.left → Advanced t u w l.body ∧ u.seq.loops = { l with left := l.left - 1 } :: rest)) ∧
  (∀ l rest, getF w flow_op = 2 → t.seq.loops = l :: rest → getF w flow_target < 4032 →
    ∃ u, exec (.branchOnLoopCount tl) s = .next (retiredTo s tl u) ∧ SameButStore t u ∧ u.store = t.store ∧
      (l.left ≠ 1 → Advanced t u w (i + 1) ∧ u.seq.loops = t.seq.loops) ∧
      (l.left = 1 → Advanced t u w (getF w flow_target) ∧
        u.seq.loops = t.seq.loops.dropWhile (fun l => decide (getF w flow_target < l.body ∨ l.endAt < getF w flow_target))))

/-- PREDICATE where the vintage holds no decision of it: where it does not hold the sequencer goes on; where it holds
the stage's outputs leave on their routes, as BYPASS or EMPTY sends them, the skip stands in the ledger and in the
vintage's records, and the lot is over. A recorded decision is taken, and one that the predicate now differs from
fails the check. END_OF_PHASE ends the lot (R255 to R257, R512). It rests on choices or readings of the model: log 74.
-/
def Obligations.PredicateAndPhase : Prop := ∀ (s : State) (tl : TileRef) (w : Word), Canonical s →
  Issues s tl .flow w → CountsFit (s.tile tl) w →
  let t := s.tile tl
  let src := getF w flow_source
  (getF w flow_op = 3 → src ≠ 3 → (src ≠ 0 → badDesc (getF w iw_desc) = false) →
    (src = 1 → beyondStore (descAddr t w) 4 = false) → t.seq.held = none →
    (s.predHolds tl t w = false → s.recordedPred tl src = none →
      ∃ s' u, exec (.predicate tl.p tl.t .clean) s = .next s' ∧ s' = { s.setTile tl u with job := s'.job, step := s'.step } ∧
        s'.job = { s.job with uncommitted := s'.job.uncommitted } ∧ Advanced t u w (t.seq.index + 1) ∧
        SameButStore t u ∧ u.store = t.store ∧ u.seq.loops = t.seq.loops ∧
        (t.seq.evaluating = false → ∀ y, s.vint s.openVintage = some y →
          (s'.vint s.openVintage).map (·.skips) = some y.skips ∧
          (s'.vint s.openVintage).map (·.judged.contains (State.predKey tl t src)) = some true)) ∧
    (s.predHolds tl t w = true → s.recordedPred tl src = none → Unserved s tl →
      ∃ s', exec (.predicate tl.p tl.t .clean) s = .next s' ∧
        (∀ o, (t.record.map (·.outs)) = some [o] →
          s'.out = .frame tl o.frame.route (if flagF w flow_empty then s.frameOf tl o.frame 0 []
            else s.frameOf tl o.frame o.frame.count (State.frameRecs o.frame (Memory.readN t.store o.src o.len))) :: s.out) ∧
        (recordAt s' tl.p (ledgerHead s tl.p)).map (fun r => (r.cls, r.code, r.tile, r.arg, r.vintage, r.attempt)) =
          some (3, t.seq.lot % 4096, tl.t, t.seq.lot % 65536 * 65536 + src, (s.tagOf tl).1, (s.tagOf tl).2) ∧
        getF (s'.tile tl).status tileStatus_tileState = TS.idle ∧ (s'.tile tl).seq.index = 0 ∧
        (s'.tile tl).seq.loops = [] ∧ t.seq.lot ∈ (s'.tile tl).seq.skipped ∧
        s' = { s with tiles := s'.tiles, parts := s'.parts, job := s'.job, step := s'.step, out := s'.out } ∧
        ∀ u, tkey u ≠ tkey tl → s'.tile u = s.tile u) ∧
    (∀ b, s.recordedPred tl src = some b → b ≠ s.predHolds tl t w →
      ∃ s', exec (.predicate tl.p tl.t .clean) s = .next s' ∧ s'.job.bits.testBit stepCheckStatus_divergent.lo = true ∧
        (b = true → t.seq.lot ∈ (s'.tile tl).seq.skipped) ∧
        (b = false → (s'.tile tl).seq.index = t.seq.index + 1 ∧ (s'.tile tl).store = t.store))) ∧
  (getF w flow_op = 4 → Unserved s tl →
    ∃ u, exec (.endOfPhase tl) s = .next (retiredTo s tl u) ∧ getF u.status tileStatus_tileState = TS.idle ∧
      u.seq.index = 0 ∧ u.seq.loops = [] ∧ t.seq.pos < u.seq.pos ∧ (∀ k, counter u k = counter t k + adds w k) ∧
      getF u.status tileStatus_progress = (getF t.status tileStatus_progress + 1) % 2 ^ 16 ∧ SameButStore t u ∧ u.store = t.store)

/-! ## MARK and the tile heartbeat (R66, R317) -/

/-- MARK writes its record where the detail of the tile allows it and retires; TILE_HEARTBEAT sends the tile's progress every
hb_period microseconds, 16 where it is 0, unless the tile is OFF. -/
def Obligations.MarkAndHeartbeat : Prop := ∀ (s : State) (tl : TileRef) (w : Word) (us : Nat), Canonical s →
  let t := s.tile tl
  let code := getF w mark_code
  (Issues s tl .mark w → CountsFit t w →
    (getF w mark_kind = 0 → ∃ u, exec (.mark tl us) s = .next (retiredTo (s.stageRecord tl 0 code 0) tl u) ∧
      (recordAt (retiredTo (s.stageRecord tl 0 code 0) tl u) tl.p (ledgerHead s tl.p)).map (fun r => (r.cls, r.code, r.tile, r.arg)) =
        some (0, code, tl.t, 0) ∧ Advanced t u w (t.seq.index + 1) ∧ SameButStore t u ∧ u.store = t.store) ∧
    (getF w mark_kind = 1 → getF t.ctl tileCtl_ledgerDetail ≠ 2 → ∃ u, exec (.mark tl us) s = .next (retiredTo s tl u) ∧
      Advanced t u w (t.seq.index + 1) ∧ SameButStore t u ∧ u.store = t.store) ∧
    (getF w mark_kind = 2 → getF t.ctl tileCtl_ledgerDetail = 0 ∨ us = 0 → ∃ u, exec (.mark tl us) s = .next (retiredTo s tl u) ∧
      Advanced t u w (t.seq.index + 1) ∧ SameButStore t u ∧ u.store = t.store) ∧
    (getF w mark_kind = 1 → getF t.ctl tileCtl_ledgerDetail = 2 → ∃ u,
      exec (.mark tl us) s = .next (retiredTo (s.stageRecord tl 1 code t.seq.lot) tl u) ∧
      (recordAt (retiredTo (s.stageRecord tl 1 code t.seq.lot) tl u) tl.p (ledgerHead s tl.p)).map (fun r => (r.cls, r.code, r.tile, r.arg)) =
        some (1, code, tl.t, t.seq.lot) ∧ Advanced t u w (t.seq.index + 1) ∧ SameButStore t u ∧ u.store = t.store) ∧
    (getF w mark_kind = 2 → getF t.ctl tileCtl_ledgerDetail ≠ 0 → us ≠ 0 → ∃ u,
      exec (.mark tl us) s = .next (retiredTo (s.stageRecord tl 2 code (min us 0xffffffff)) tl u) ∧
      (recordAt (retiredTo (s.stageRecord tl 2 code (min us 0xffffffff)) tl u) tl.p (ledgerHead s tl.p)).map
        (fun r => (r.cls, r.code, r.tile, r.arg)) = some (2, code, tl.t, min us 0xffffffff) ∧
      Advanced t u w (t.seq.index + 1) ∧ SameButStore t u ∧ u.store = t.store)) ∧
  (s.alive = true → getF (s.tileStatusRead tl) tileStatus_tileState ≠ TS.off →
    (s.now < t.heartbeat ∨ t.heartbeat + s.hbTicks tl ≤ s.now → exec (.tileHeartbeat tl) s =
      .next ((s.setTile tl { t with heartbeat := s.now }).send (.heartbeat tl s.now (getF t.status tileStatus_progress)))) ∧
    (t.heartbeat ≤ s.now → s.now < t.heartbeat + s.hbTicks tl → exec (.tileHeartbeat tl) s = .next s)) ∧
  (getF (s.tileStatusRead tl) tileStatus_tileState = TS.off → exec (.tileHeartbeat tl) s = .next s) ∧
  s.hbTicks tl = (if getF t.ctl tileCtl_hbPeriod = 0 then 16 else getF t.ctl tileCtl_hbPeriod) * usTicks

/-! ## LOAD, PASS, SWAP, PASS_DRAINED (R74 to R105) -/

/-- A LOAD of a moving stream is held by its loader; a LOAD of shadow sets fills the shadow set of every array it
names, complete and untaken, and leaves the active sets; it waits for its loader, or for a shadow set that no swap has
taken; one whose blocks are all masked only advances (R62, R75, R79, R244). It rests on choices or readings of the model:
logs 5, 10, 47, 75. -/
def Obligations.Loads : Prop := ∀ (s : State) (tl : TileRef) (w : Word) (d : LoadDesc) (f : Fmt), Canonical s →
  Issues s tl .load w → CountsFit (s.tile tl) w →
  let t := s.tile tl
  let d0 := progWord t (getF w iw_desc)
  let d1 := progWord t (getF w iw_desc + 1)
  let run := fun k => loadRun t k w d0 d1 (maskedBlocks s.tensors d.mask) (loadX t w d.xslot) f
  badDesc (getF w iw_desc) = false → fmtEntry t (getF w load_fmt) = some f →
  (getF w load_target = 0 → getF w load_pattern = 0 →
    (State.loaderBusy t (getF w load_loader) = false → d.frees = [] →
      ∃ u, exec (.load tl d .clean) s = .next (retiredTo s tl u) ∧ Advanced t u w (t.seq.index + 1) ∧
        (if getF w load_loader = 0 then u.loaderA else u.loaderB) =
          some { word := w, d0 := d0, d1 := d1, mask := progWord t (4032 + getF w load_mask), x := loadX t w d.xslot } ∧
        SameButStore { t with loaderA := u.loaderA, loaderB := u.loaderB } u ∧
        (if getF w load_loader = 0 then u.loaderB = t.loaderB else u.loaderA = t.loaderA) ∧ u.store = t.store) ∧
    (State.loaderBusy t (getF w load_loader) = true → ∀ e, ∃ u, exec (.load tl d e) s = .next (s.setTile tl u) ∧
      Waits s t u State.stallLoader)) ∧
  (getF w load_target = 1 → getF w load_pattern < 3 → (getF w load_pattern = 2 → (getF w load_arrays).testBit 12 = false) →
    (allMasked s.tensors d.mask = false → d.frees = [] →
      (∀ k ∈ maskBits 13 (getF w load_arrays), (arrOf t k).untaken = false ∧ loadReach (run k) ≤ storeBytes) →
      ∃ u, exec (.load tl d .clean) s = .next (retiredTo s tl u) ∧ Advanced t u w (t.seq.index + 1) ∧
        (∀ k ∈ maskBits 13 (getF w load_arrays), arrOf u k =
          { arrOf t k with shadow := loadedSet t w (run k), complete := true, untaken := true }) ∧
        (∀ k, k ∉ maskBits 13 (getF w load_arrays) → k < 13 → arrOf u k = arrOf t k) ∧
        SameButStore { t with arrays := u.arrays } u ∧ u.store = t.store) ∧
    (allMasked s.tensors d.mask = false → (∃ k ∈ maskBits 13 (getF w load_arrays), (arrOf t k).untaken = true) →
      ∀ e, ∃ u, exec (.load tl d e) s = .next (s.setTile tl u) ∧ Waits s t u State.stallShadow) ∧
    (allMasked s.tensors d.mask = true → ∀ e, ∃ u, exec (.load tl d e) s = .next (retiredTo s tl u) ∧
      Advanced t u w (t.seq.index + 1) ∧ SameButStore t u ∧ u.store = t.store))

/-- A PASS that may enter at once: every unmasked column's cask takes, line by line, the partials of its vector; no
other cask, no store byte and no stationary register changes, and the counter of the pass waits for the drain. One
that takes no vector only advances; one behind two others, or without its stream, waits; one whose check fails on a
vector moves to S12 or loses the tile (R50 to R53, R62, R74 to R88, R126). It rests on choices or readings of the
model: log 47. -/
def Obligations.PassDelivers : Prop := ∀ (s : State) (tl : TileRef) (w : Word) (r : PassRun) (mask : Option MaskAt), Canonical s →
  Issues s tl .pass w →
  let t := s.tile tl
  let k := getF w pass_array
  let p : PassOp :=
    { word := w, rowMask := (maskEntry t (getF w pass_mask)).1 % 2 ^ arrDepth k,
      colMask := (maskEntry t (getF w pass_mask)).2 % 2 ^ arrDepth k, entered := false, bad := none }
  let cols := maskBits (arrDepth k) p.colMask
  State.badPass w = false → allMasked s.tensors mask = false →
  (∀ bad, 2 ≤ (arrOf t k).passes.length → ∃ u, exec (.pass tl mask bad) s = .next (s.setTile tl u) ∧ Waits s t u State.stallFull) ∧
  (∀ bad, (arrOf t k).passes.length < 2 → p.idle = false → p.rowMask ≠ 0 → streamFor t w = none →
    ∃ u, exec (.pass tl mask bad) s = .next (s.setTile tl u) ∧ Waits s t u State.stallLoader) ∧
  (∀ bad, (arrOf t k).passes.length < 2 → p.idle = true → flagF w pass_swap = false → CountsFit t w →
    ∃ u, exec (.pass tl mask bad) s = .next (retiredTo s tl u) ∧ Advanced t u w (t.seq.index + 1) ∧ SameButStore t u ∧
      u.store = t.store) ∧
  ((arrOf t k).passes = [] → flagF w pass_swap = false → p.idle = false → p.rowMask ≠ 0 →
    passRun t p = some r → loadTop r.l (passM w) r.nb (State.topFires r) ≤ storeBytes → (r.pattern = 1 → r.set.badGroups = []) →
    (streamFor t w).isSome = true →
    (∃ u, exec (.pass tl mask none) s = .next (retiredTo s tl u) ∧ u.seq.index = t.seq.index + 1 ∧
      (∀ i < passM w, ∀ c ∈ cols, caskLine u (firstCask k + c) i =
        takeParts (caskLine t (firstCask k + c) i) r.mode.kind false (partialsOf t.store r i c)) ∧
      (∀ x i, i < 256 → (x < firstCask k ∨ x - firstCask k ∉ cols ∨ passM w ≤ i) → caskLine u x i = caskLine t x i) ∧
      u.store = t.store ∧ u.counters = t.counters ∧
      (arrOf u k).active = (arrOf t k).active ∧ (arrOf u k).shadow = (arrOf t k).shadow ∧
      (arrOf u k).passes = [{ p with entered := true }]) ∧
    (∀ v, v < passM w → r.mode.residue = true → k < 12 → s12Free s tl = true →
      ∃ s', exec (.pass tl mask (some v)) s = .next s' ∧ getF (s'.tile tl).status tileStatus_s12For = k ∧
        getF (s'.tile tl).status tileStatus_faultCode = 1 ∧ (s'.tile tl).store = t.store ∧
        (Sparse.get Arr.reset (s'.tile tl).arrays k).failed = true ∧
        (∀ i < passM w, ∀ c ∈ cols, caskLine (s'.tile tl) (firstCask k + c) i =
          takeParts (caskLine t (firstCask k + c) i) r.mode.kind false (partialsOf t.store r i c))) ∧
    (∀ v, v < passM w → r.mode.residue = true → k = 12 ∨ s12Free s tl = false →
      ∃ s', exec (.pass tl mask (some v)) s = .next s' ∧ getF (s'.tile tl).status tileStatus_faultCode = 2 ∧
        getF (s'.tile tl).status tileStatus_tileState = TS.faulted ∧ s'.job.bits.testBit stepCheckStatus_tile.lo = true))

/-- SWAP exchanges the active and the shadow set of the array when the oldest pass asks for it and the shadow set is
complete; PASS_DRAINED retires the oldest pass, which then counts on its counter, and lets the next enter that does
not swap (R76, R77, R80, R88). It rests on choices or readings of the model: log 73. -/
def Obligations.SwapAndDrained : Prop := ∀ (s : State) (tl : TileRef) (k : Nat) (p : PassOp) (rest : List PassOp), Canonical s →
  let t := s.tile tl
  let a := arrOf t k
  a.passes = p :: rest → s.unitsRun tl = true →
  (p.entered = false → flagF p.word pass_swap = true → a.complete = true →
    (p.idle = false → p.bad = none → ∃ s', exec (.swap tl k) s = .next s' ∧ (arrOf (s'.tile tl) k).active = a.shadow ∧
      (arrOf (s'.tile tl) k).shadow = a.active ∧ (arrOf (s'.tile tl) k).untaken = false ∧
      (s'.tile tl).store = t.store ∧ s' = { s with tiles := s'.tiles, job := s'.job } ∧
      ∀ u, tkey u ≠ tkey tl → s'.tile u = s.tile u) ∧
    (p.idle = true → rest = [] → ∃ u, exec (.swap tl k) s = .next (s.setTile tl u) ∧ (arrOf u k).active = a.shadow ∧
      (arrOf u k).shadow = a.active ∧ (arrOf u k).untaken = false ∧ (arrOf u k).passes = [] ∧ u.store = t.store ∧ u.casks = t.casks)) ∧
  (p.entered = false → a.complete = false → exec (.swap tl k) s = .next s) ∧
  (p.entered = true → rest = [] → CountsFit t p.word →
    ∃ u, exec (.passDrained tl k) s = .next (s.setTile tl u) ∧ (arrOf u k).passes = [] ∧
      (∀ j, counter u j = counter t j + adds p.word j) ∧ u.seq = t.seq ∧ u.store = t.store ∧ u.casks = t.casks) ∧
  (∀ q r, p.entered = true → rest = [q] → q.entered = false → flagF q.word pass_swap = false → q.bad = none → q.idle = false →
    passM q.word ≤ 256 → CountsFit t p.word → passRun t q = some r → loadTop r.l (passM q.word) r.nb (State.topFires r) ≤ storeBytes →
    (r.pattern = 1 → r.set.badGroups = []) →
    ∃ u, exec (.passDrained tl k) s = .next (s.setTile tl u) ∧ (arrOf u k).passes = [{ q with entered := true }] ∧
      (∀ j, counter u j = counter t j + adds p.word j) ∧ u.seq = t.seq ∧ u.store = t.store ∧
      (∀ i < passM q.word, ∀ c ∈ maskBits (arrDepth k) q.colMask, caskLine u (firstCask k + c) i =
        takeParts (caskLine t (firstCask k + c) i) r.mode.kind false (partialsOf t.store r i c)))

/-! ## DRAIN (R55, R91, R131, R511) -/

/-- A DRAIN waits while a pass issued before it still feeds one of its casks; else the written-out bytes, or the packed
records, land at the destination and nowhere else, or the row lists take their candidates, and the drained lines read exact +0
from then on; a second writer of a word it writes faults the tile with code 0x04, and an uncorrectable error in what it reads
with 0x03 (R47, R48, R55, R62, R91, R109 to R115). It rests on choices or readings of the model: logs 11, 14. -/
def Obligations.Drains : Prop := ∀ (s : State) (tl : TileRef) (w : Word) (d : DrainDesc) (f : Fmt), Canonical s → Issues s tl .drain w →
  let t := s.tile tl
  let r := drainRun t w d
  let bs := (drainOut f (slotOf t r.slot) ((List.range r.m).map (fun i => (List.range r.n).map (fun j => outVal t r (r.l0 + i) j)))).bytes
  let recs := (List.range r.m).flatMap (fun i => (List.range r.n).flatMap (fun j => slotBytes (packedOut t r (r.l0 + i) j)))
  let cleared := fun u : Tile => (∀ i < r.m, ∀ j < r.n, caskLine u (r.f + j) (r.l0 + i) = Line.reset) ∧
    (∀ c i, (c < r.f ∨ r.f + r.n ≤ c ∨ i < r.l0 ∨ r.l0 + r.m ≤ i) → i < 256 → caskLine u c i = caskLine t c i) ∧ u.arrays = t.arrays
  badDrain t w = false → State.drainFmt t r = some f →
  (feeds t r.f r.n = true → ∀ m, ∃ u, exec (.drain tl d m) s = .next (s.setTile tl u) ∧ Waits s t u State.stallEmpty) ∧
  (feeds t r.f r.n = false → drainBeyond t r f = false →
    (CountsFit t w → d.stash = noStash →
      (r.topk = false → r.packed = false →
        (r.dest = 0 → ∃ u, exec (.drain tl d ⟨.clean, none⟩) s = .next (retiredTo s tl u) ∧ Advanced t u w (t.seq.index + 1) ∧
          Wrote t u r.destAddr bs ∧ cleared u) ∧
        (r.dest = 1 → ∃ u, exec (.drain tl d ⟨.clean, none⟩) s = .next (retiredTo s tl u) ∧ Advanced t u w (t.seq.index + 1) ∧
          u.rowIn = bs ∧ u.store = t.store ∧ cleared u) ∧
        (1 < r.dest → ∃ u, exec (.drain tl d ⟨.clean, none⟩) s = .next (retiredTo s tl u) ∧ Advanced t u w (t.seq.index + 1) ∧
          u.vecIn = bs ∧ u.store = t.store ∧ cleared u)) ∧
      (r.topk = false → r.packed = true → r.dest = 0 → ∃ u, exec (.drain tl d ⟨.clean, none⟩) s = .next (retiredTo s tl u) ∧
        Advanced t u w (t.seq.index + 1) ∧ Wrote t u r.destAddr recs ∧ cleared u) ∧
      (r.topk = true → flagF t.topkCtl topkCtl_outKeep = false →
        ∃ u, exec (.drain tl d ⟨.clean, none⟩) s = .next (retiredTo s tl u) ∧ Advanced t u w (t.seq.index + 1) ∧
          u.store = (topkLines t r).store ∧ u.topkCtl = (topkLines t r).topkCtl ∧ cleared u)) ∧
    (∀ x, ∃ s', exec (.drain tl d ⟨.clean, some x⟩) s = .next s' ∧ getF (s'.tile tl).status tileStatus_faultCode = 4 ∧
      getF (s'.tile tl).status tileStatus_tileState = TS.faulted ∧ flagF (s'.tile tl).status tileStatus_storeRace = true ∧
      (2 < x.client → Memory.readLE (s'.tile tl).store (x.addr / 8 * 8 % 0x400000) 8 = x.word.toNat) ∧
      s'.job.bits.testBit stepCheckStatus_tile.lo = true) ∧
    (∀ x, ∃ s', exec (.drain tl d ⟨.uncorrectable, x⟩) s = .next s' ∧ getF (s'.tile tl).status tileStatus_faultCode = 3 ∧
      getF (s'.tile tl).status tileStatus_tileState = TS.faulted ∧ (s'.tile tl).store = t.store ∧ (s'.tile tl).casks = t.casks ∧
      s'.job.bits.testBit stepCheckStatus_tile.lo = true))

/-! ## Rounding (R133) -/

/-- A write-out of exact zero is +0 in every mode, policy and scale; a nonzero value that rounds to zero gives a zero of
its sign, 0x00 in INT8. -/
def Obligations.ZeroResults : Prop := ∀ f ∈ allFormats, ∀ (mode : RMode) (pol : Policy) (x : Option Nat) (neg : Bool) (e : Int),
  writeOut f mode pol x (.fin neg 0 e) false = { code := 0, overflow := false, blockNan := false } ∧
  ∀ m : Nat, m ≠ 0 → (f.decode (writeOut f mode pol x (.fin neg m e) false).code).isZero = true →
    (writeOut f mode pol x (.fin neg m e) false).code = if f.isInt then 0 else if neg then 2 ^ (f.w - 1) else 0

/-! ## ROW and VEC (R56 to R59, R165 to R190, R195, R205, R220) -/

/-- ROW: an element-wise function, forward and backward, with its outputs in FP32 or in the format of a slot, a
softmax with its lees records, the fault of an operation that has nowhere to keep its records, and the run of a
dropped span from its stash point (R56, R58, R193, R205). It rests on choices or readings of the model: logs 5, 12. -/
def Obligations.RowOperations : Prop := ∀ (s : State) (tl : TileRef) (w : Word) (d : RowDesc), Canonical s →
  let t := s.tile tl
  let slot := getF w row_slot
  let sl := slotOf t slot
  let fn := (List.range d.rows).map (fun i => (inVals t d i).map (evalTable t (getF w row_table)))
  let dx := (List.range d.rows).map (fun i =>
    List.zipWith (fun v y => fmul y (evalTable t (getF w row_table) v)) (inVals t d i) (rowVals t d.dy d.n i))
  let probs := (List.range d.rows).map (fun i =>
    let x := inVals t d i
    x.map (softProb t d (rowMax x) (Config.fwdStat 1 x)))
  (Issues s tl .row w → CountsFit t w → badRow t w d = false → d.stash = noStash →
    rowBeyond t slot d (getF w row_op) (flagF w row_backward) = false →
    (getF w row_op = 5 → sl.valid = false →
      (flagF w row_backward = false → ∃ u, exec (.row tl d .clean none) s = .next (retiredTo s tl u) ∧
        Advanced t u w (t.seq.index + 1) ∧ Wrote t u d.dst (f32Bytes fn.flatten) ∧ SameButStore t u) ∧
      (flagF w row_backward = true → d.pDst = none → ∃ u, exec (.row tl d .clean none) s = .next (retiredTo s tl u) ∧
        Advanced t u w (t.seq.index + 1) ∧ Wrote t u d.dst (f32Bytes dx.flatten) ∧ SameButStore t u)) ∧
    (∀ f, getF w row_op = 5 → flagF w row_backward = false → sl.valid = true → fmtByCode t (getF sl.recipe rc_fmt) = some f →
      ∃ u, exec (.row tl d .clean none) s = .next (retiredTo s tl u) ∧ Advanced t u w (t.seq.index + 1) ∧
        Wrote t u d.dst (rowBytes t slot f fn).bytes ∧
        SameButStore { t with numFlags := u.numFlags, slots := u.slots } u) ∧
    (getF w row_op = 0 → flagF w row_backward = false → isRing t 0 = false → d.rows ≤ d.recCount → sl.valid = false →
      ∃ u, exec (.row tl d .clean none) s = .next (retiredTo s tl u) ∧ Advanced t u w (t.seq.index + 1) ∧
        Wrote t u d.dst (f32Bytes probs.flatten) ∧ SameButStore { t with lees := u.lees } u ∧
        (∀ i < d.rows, Sparse.get Lees.reset u.lees (d.firstRec + i) =
          ⟨rowMax (inVals t d i), Config.fwdStat 1 (inVals t d i), 0, 0⟩) ∧
        (∀ k, k < d.firstRec ∨ d.firstRec + d.rows ≤ k →
          Sparse.get Lees.reset u.lees k = Sparse.get Lees.reset t.lees k))) ∧
  (∀ e race, Issues s tl .row w → badRow t w d = false → getF w row_op < 4 → d.recCount < d.rows → spillAt t = 0 →
    ∃ s', exec (.row tl d e race) s = .next s' ∧ s' = { s with tiles := s'.tiles, job := s'.job } ∧
      getF (s'.tile tl).status tileStatus_faultCode = 7 ∧ getF (s'.tile tl).status tileStatus_tileState = TS.faulted ∧
      SameButStore t (s'.tile tl) ∧ (s'.tile tl).store = t.store) ∧
  (∀ span first last n, s.canIssue tl = true → t.seq.redo = none → droppedAt t t.seq.lot span = some n →
    ((t.record.map (·.spans)).getD []).find? (fun x => x.1 == span) = some (span, first, last) →
    ∃ u, exec (.spanRecompute tl t.seq.lot span) s = .next (s.setTile tl u) ∧ u.seq.index = first ∧ u.seq.loops = [] ∧
      u.seq.redo = some ⟨span, last, t.seq.index, t.seq.loops⟩ ∧ u.store = t.store ∧ u.counters = t.counters ∧
      (∀ e ∈ u.stash.entries, e.tier ≠ 4) ∧ SameButStore { t with stash := u.stash } u) ∧
  (∀ lot span, droppedAt t lot span = none → exec (.spanRecompute tl lot span) s = .next s) ∧
  (∀ span last i ls, (s.tile tl).seq.redo = some ⟨span, last, i, ls⟩ → t.seq.held = none → s.canIssue tl = true →
    t.seq.index < 4032 → last ≤ t.seq.index → curWord t = w → clsOf w = some .mark → getF w mark_kind = 1 →
    getF t.ctl tileCtl_ledgerDetail = 0 → flagF w iw_syncEn = false →
    ∃ u, exec (.mark tl 0) s = .next (s.setTile tl u) ∧ u.seq.index = i ∧ u.seq.loops = ls ∧ u.seq.redo = none ∧
      u.stash.rebuilt = some (t.seq.lot, span) ∧ u.store = t.store)

/-- VEC on FP32 values: element-wise results in FP32 or M48, the gated sums, gate gradients and counts of a router,
and compare-combine land at their destination and nowhere else; amax with the finite count changes the tensor slot,
puts the amax where the collective of R161 takes it, and adds the squares of a clipped tensor to a cask (R59, R143,
R160, R161, R167, R175, R220, R252, R253). It rests on choices or readings of the model: log 5. -/
def Obligations.VectorElementwise : Prop := ∀ (s : State) (tl : TileRef) (w : Word), Canonical s → Issues s tl .vec w →
  let t := s.tile tl
  CountsFit t w → badDesc (getF w iw_desc) = false → getF w ⟨33, 12⟩ = 0 →
  (∀ d, getF w vec_op = 0 → eltBeyond t d = false →
    (gatedOp d.op = false → d.m48 = none →
      ∃ u, exec (.vecFp32Elementwise tl ⟨d, ⟨.clean, none⟩⟩) s = .next (retiredTo s tl u) ∧ Advanced t u w (t.seq.index + 1) ∧
        Wrote t u d.dst (f32Bytes (eltResults t d)) ∧ SameButStore t u) ∧
    (∀ mode, gatedOp d.op = false → d.m48 = some mode →
      ∃ u, exec (.vecFp32Elementwise tl ⟨d, ⟨.clean, none⟩⟩) s = .next (retiredTo s tl u) ∧ Advanced t u w (t.seq.index + 1) ∧
        Wrote t u d.dst (eltM48s t d (RMode.ofCode mode)) ∧ SameButStore t u) ∧
    (∀ c, gatedOp d.op = true → routerOf t = some c →
      ∃ u, exec (.vecFp32Elementwise tl ⟨d, ⟨.clean, none⟩⟩) s = .next (retiredTo s tl u) ∧ Advanced t u w (t.seq.index + 1) ∧
        Wrote t u d.dst (f32Bytes (gatedResults t d c)) ∧ SameButStore t u)) ∧
  (∀ d, getF w vec_op = 7 →
    (badUnitRange t.vecIn d.a (4 * d.count) || badUnitRange t.vecIn d.b (4 * d.count) || beyondStore d.dst (4 * d.count)) = false →
    ∃ u, exec (.compareCombine tl ⟨d, ⟨.clean, none⟩⟩) s = .next (retiredTo s tl u) ∧ Advanced t u w (t.seq.index + 1) ∧
      Wrote t u d.dst (f32Bytes (ccResults t d)) ∧ SameButStore t u) ∧
  (∀ d, getF w vec_op = 5 → badUnitRange t.vecIn d.src (4 * d.count) = false → (∀ a, d.dst = some a → beyondStore a 4 = false) →
    (∀ c l, d.norm = some (c, l) → State.badSpare c l 1 = false) →
    let vs := (unitF32s t t.vecIn d.src d.count).map f32v
    let sl := slotOf t d.slot
    ∃ u, exec (.amaxAndFiniteCount tl ⟨d, ⟨.clean, none⟩⟩) s = .next (retiredTo s tl u) ∧ Advanced t u w (t.seq.index + 1) ∧
      (d.dst = none → u.store = t.store) ∧ (∀ a, d.dst = some a → Memory.readLE u.store a 4 = (slotOf u d.slot).amax.toNat) ∧
      (d.norm = none → SameButStore { t with slots := u.slots } u) ∧
      (∀ c l, d.norm = some (c, l) → t.seq.evaluating = false → (s.tensors.any (fun x => x.id == sl.tensor && x.clip)) = true →
        caskLine u c l = normLine (caskLine t c l) (State.lossExp t) vs) ∧
      (t.seq.evaluating = true → u.slots = t.slots) ∧
      (∀ k ≠ d.slot, slotOf u k = slotOf t k) ∧
      (t.seq.evaluating = false → (slotOf u d.slot).nonfinite = sl.nonfinite +
        (if flagF sl.recipe rc_check then (vs.filter (fun v => !v.isFinite)).length else 0)) ∧
      (t.seq.evaluating = false → getF sl.recipe rc_source = srcHist → (slotOf u d.slot).amax =
        if Val.lt (f32v sl.amax) (f32v (amaxEntry (amaxOf vs))) then amaxEntry (amaxOf vs) else sl.amax))

/-- VEC conversions: CONVERSION, TRANSPOSE_CONVERSION and COMPRESS write the bytes, the scales and the metadata that
their descriptors name, and nothing else of the store (R137, R185, R242, R243, R245). It rests on choices or readings
of the model: logs 5, 20. It rests on choices or readings of the model: logs 5, 20. -/
def Obligations.VectorConversions : Prop := ∀ (s : State) (tl : TileRef) (w : Word), Canonical s → Issues s tl .vec w →
  let t := s.tile tl
  CountsFit t w → badDesc (getF w iw_desc) = false → getF w ⟨33, 12⟩ = 0 →
  (∀ d f g, getF w vec_op = 6 → fmtByCode t d.srcFmt = some f → (slotOf t d.slot).valid = true →
    fmtByCode t (getF (slotOf t d.slot).recipe rc_fmt) = some g →
    (badUnitRange t.vecIn d.src (4 * f.w * d.blocks) || (!f.wide && beyondStore d.srcScale d.blocks) ||
      beyondStore d.dst (4 * g.w * d.blocks) || (!g.wide && beyondStore d.dstScale d.blocks)) = false →
    let bs := (drainOut g (slotOf t d.slot) (convSource t d f)).bytes
    let n := d.blocks * 4 * g.w
    ∃ u, exec (.conversion tl ⟨d, ⟨.clean, none⟩⟩) s = .next (retiredTo s tl u) ∧ Advanced t u w (t.seq.index + 1) ∧
      u.store = Memory.writeN (Memory.writeN t.store d.dst (bs.take n)) d.dstScale (bs.drop n) ∧
      SameButStore { t with slots := u.slots, numFlags := u.numFlags } u ∧ (∀ k ≠ d.slot, slotOf u k = slotOf t k)) ∧
  (∀ d f, getF w vec_op = 2 → fmtEntry t d.fmt = some f → trBeyond d f = false →
    let blocks := maskedBlocks s.tensors d.mask
    ∃ u, exec (.transposeConversion tl ⟨d, ⟨.clean, none⟩⟩) s = .next (retiredTo s tl u) ∧ Advanced t u w (t.seq.index + 1) ∧
      SameButStore { t with numFlags := u.numFlags } u ∧
      (∀ k < 32, Memory.read u.store (d.dstScale + k) = BitVec.ofNat 8 (trBlock t d f blocks k).2.1) ∧
      (∀ x, (x < d.dstScale ∨ d.dstScale + 32 ≤ x) →
        (∀ r < 32, x < d.dst + r * d.stride ∨
          d.dst + r * d.stride + (packCodes f.w ((List.range 32).map (fun k => (trBlock t d f blocks k).1.getD r 0))).length ≤ x) →
        Memory.read u.store x = Memory.read t.store x)) ∧
  (∀ d f, getF w vec_op = 3 → fmtByCode t d.masterFmt = some f →
    (beyondStore d.master (4 * d.groups * (f.w / 8)) || beyondStore d.idxAddr ((d.groups + 7) / 8 * metaLen d.pattern)) = false →
    ∃ u, exec (.compress tl ⟨d, ⟨.clean, none⟩⟩) s = .next (retiredTo s tl u) ∧ Advanced t u w (t.seq.index + 1) ∧
      SameButStore t u ∧ u.store = (compressTile t d f).store ∧
      (∀ x, (x < d.idxAddr ∨ d.idxAddr + (d.groups + 7) / 8 * metaLen d.pattern ≤ x) →
        Memory.read u.store x = Memory.read t.store x))

/-- DW_ACCUMULATE: each well-formed packed record enters its 16-byte accumulator, shifted by the scales of the two
operands, and no other byte changes; an element of a masked block has no accumulator; a malformed record sets nan
there, counts in pk_bad and fails the step (R141, R188 to R192, R200, R245). It rests on choices or readings of the
model: log 5. -/
def Obligations.DwAccumulate : Prop := ∀ (s : State) (tl : TileRef) (w : Word) (d : DwDesc), Canonical s → Issues s tl .vec w →
  let t := s.tile tl
  let rec' := fun i => packedAt (fun a n => unitLE t t.vecIn a n) (d.src + 88 * i)
  let acc := dwBase t d
  let masked := fun i => maskedElt s.tensors d.tensor (d.elem + i * d.elemStep)
  CountsFit t w → badDesc (getF w iw_desc) = false → getF w ⟨33, 12⟩ = 0 → getF w vec_op = 4 → State.dwBeyond t d = false →
  ((d.src + 88 * d.count ≤ acc ∨ acc + 16 * d.count ≤ d.src) → (∀ a, d.token = some a → a + 4 ≤ acc ∨ acc + 16 * d.count ≤ a) →
    (∀ i < d.count, (rec' i).malformed = false ∨ masked i = true) →
    ∃ u, exec (.dwAccumulate tl ⟨d, ⟨.clean, none⟩⟩) s = .next (retiredTo s tl u) ∧ Advanced t u w (t.seq.index + 1) ∧ SameButStore t u ∧
      (∀ i < d.count, masked i = false → Memory.readLE u.store (acc + 16 * i) 16 =
        dwBits (dwAdd (dwOf (Memory.readLE t.store (acc + 16 * i) 16)) (rec' i).line (dwShift t d.slotA d.slotG))) ∧
      (∀ i < d.count, masked i = true → Memory.readLE u.store (acc + 16 * i) 16 = Memory.readLE t.store (acc + 16 * i) 16) ∧
      (∀ x, x < acc ∨ acc + 16 * d.count ≤ x → Memory.read u.store x = Memory.read t.store x)) ∧
  (d.count = 1 → masked 0 = false → (rec' 0).malformed = true →
    ∃ s', exec (.dwAccumulate tl ⟨d, ⟨.clean, none⟩⟩) s = .next s' ∧ s' = { s with tiles := s'.tiles, parts := s'.parts, job := s'.job } ∧
      (∀ v, tkey v ≠ tkey tl → s'.tile v = s.tile v) ∧ s'.job.bits.testBit stepCheckStatus_packed.lo = true ∧
      getF (s'.tile tl).numFlags numFlags_pkBad = getF (bumpF t.numFlags numFlags_pkBad 1) numFlags_pkBad ∧
      dwOf (Memory.readLE (s'.tile tl).store acc 16) = { dwOf (Memory.readLE t.store acc 16) with nan := true })

/-- UPDATE: it waits for the verdict of the next vintage, leaves everything unchanged under a SKIP verdict, and
otherwise writes the moments, the master and the weight of every block, and measures them in the two slots; a learning
rate of zero leaves master and weight as they are, one that is not finite fails the step, and so does a non-finite
result of a checked tensor (R168 to R173, R175, R177, R301). It rests on choices or readings of the model: log 20. -/
def Obligations.WeightUpdate : Prop := ∀ (s : State) (tl : TileRef) (w : Word) (d : UpdDesc), Canonical s → Issues s tl .vec w →
  let t := s.tile tl
  CountsFit t w → badDesc (getF w iw_desc) = false → getF w ⟨33, 12⟩ = 0 → getF w vec_op = 1 →
  (s.updVint = none → ∀ m, ∃ u, exec (.update tl ⟨d, m⟩) s = .next (s.setTile tl u) ∧
    Waits s t u (if (s.vint (s.committedV + 1)).isSome then State.stallVerdict else State.stallCommit)) ∧
  (∀ v, s.updVint = some v →
    ((v.verdict.map (·.skip)).getD false = true → ∀ m, ∃ u, exec (.update tl ⟨d, m⟩) s = .next (retiredTo s tl u) ∧
      Advanced t u w (t.seq.index + 1) ∧ SameButStore t u ∧ u.store = t.store) ∧
    (∀ r, (v.verdict.map (·.skip)).getD false = false → s.updRun t d v = some r → State.updBeyond d r = false →
      let x := updBlocks t d r d.blocks
      let outside := fun a from_ n => a < from_ ∨ from_ + n ≤ a
      ((f32v r.lr).isFinite = true → (flagF (slotOf x.1 d.slot).recipe rc_check = false ∨ x.2 = 0) →
        ∃ u, exec (.update tl ⟨d, ⟨.clean, none⟩⟩) s = .next (retiredTo s tl u) ∧ Advanced t u w (t.seq.index + 1) ∧
          u.store = x.1.store ∧ SameButStore { t with slots := u.slots, numFlags := u.numFlags } u ∧
          (∀ k, k ≠ d.slot → k ≠ d.wslot → slotOf u k = slotOf t k) ∧
          ((f32v r.lr).isZero = true → ∀ a, outside a d.mom1 (4 * r.momF.w * d.blocks) →
            (r.momF.wide = false → outside a d.mom1Scale d.blocks) →
            (r.adamw = true → outside a d.mom2 (4 * r.momF.w * d.blocks) ∧ (r.momF.wide = false → outside a d.mom2Scale d.blocks)) →
            Memory.read u.store a = Memory.read t.store a)) ∧
      ((f32v r.lr).isFinite = true → flagF (slotOf x.1 d.slot).recipe rc_check = true → x.2 ≠ 0 →
        ∃ s', exec (.update tl ⟨d, ⟨.clean, none⟩⟩) s = .next s' ∧ (s'.tile tl).store = x.1.store ∧
          (slotOf (s'.tile tl) d.slot).nonfinite = (slotOf x.1 d.slot).nonfinite + x.2 ∧
          s'.job.bits.testBit stepCheckStatus_numeric.lo = true) ∧
      ((f32v r.lr).isFinite = false → ∀ m, ∃ s', exec (.update tl ⟨d, m⟩) s = .next s' ∧ (s'.tile tl).store = t.store ∧
        (s'.tile tl).seq.index = t.seq.index + 1 ∧
        s'.job.bits.testBit stepCheckStatus_numeric.lo = true ∧ s' = { s with tiles := s'.tiles, parts := s'.parts, job := s'.job })))

/-- An illegal instruction word faults the tile with code 0x06 and fails the step, whichever operation it was issued
as: a reserved class, a reserved operation of its class, or a descriptor index that is odd or above 4030 (R68, R270).
It rests on choices or readings of the model: log 5. -/
def Obligations.IllegalWords : Prop := ∀ (s : State) (tl : TileRef) (w : Word) (c : Instr),
  s.canIssue tl = true → (s.tile tl).seq.index < 4032 → curWord (s.tile tl) = w →
  ((clsOf w = none ∧ (c = .syncSet tl ∨ (∃ e, c = .loopBegin ⟨tl, e⟩) ∨ c = .endOfPhase tl)) ∨
   (clsOf w = some .sync ∧ getF w sync_op = 3 ∧ (c = .syncSet tl ∨ c = .syncInc tl ∨ c = .syncWait tl)) ∨
   (clsOf w = some .flow ∧ 4 < getF w flow_op ∧ ((∃ e, c = .loopBegin ⟨tl, e⟩ ∨ c = .predicate tl.p tl.t e) ∨ c = .loopEnd tl ∨ c = .branchOnLoopCount tl ∨ c = .endOfPhase tl)) ∨
   (clsOf w = some .mark ∧ getF w mark_kind = 3 ∧ ∃ us, c = .mark tl us) ∨
   (clsOf w = some .row ∧ ∃ d e r, c = .row tl d e r ∧ badRow (s.tile tl) w d = true) ∨
   (clsOf w = some .vec ∧ (7 < getF w vec_op ∨ badDesc (getF w iw_desc) = true) ∧ ∃ x, c = .update tl x) ∨
   (clsOf w = some .move ∧ badDesc (getF w iw_desc) = true ∧ ∃ d e, c = .move tl d e) ∨
   (clsOf w = some .load ∧ badDesc (getF w iw_desc) = true ∧ ∃ d e, c = .load tl d e)) →
  ∃ s', exec c s = .next s' ∧ s' = { s with tiles := s'.tiles, job := s'.job } ∧ (∀ u, tkey u ≠ tkey tl → s'.tile u = s.tile u) ∧
    getF (s'.tile tl).status tileStatus_faultCode = 6 ∧ getF (s'.tile tl).status tileStatus_tileState = TS.faulted ∧
    { s'.tile tl with status := (s.tile tl).status } = s.tile tl ∧
    s'.job.bits.testBit stepCheckStatus_tile.lo = true ∧ (s.job.failErr = 0 → s'.job.failErr = Err.format)

/-! ## Packed casks (R138 to R141) -/

/-- The record of a cask line read back from where its bytes lie is well formed and stands for the line: no bit of the
value, of a flag or of the kind is lost. -/
def Obligations.PackedCasks : Prop := ∀ (l : Line) (m : List Host.Cell) (a : Nat),
  (l.empty = true → l.kind = .sum ∧ l.value = 0) →
  let r := packedAt (Memory.readLE (Memory.writeN m a (packBytes l))) a
  r.header :: r.words = packLine l ∧ r.malformed = false ∧ r.line = l

/-! ## MOVE and the transfer engine (R63, R64) -/

/-- MOVE puts its transfer, with the bytes it reads, at the end of its channel's queue and retires; a full or halted
channel, or a data lot that has not arrived, holds it; a range it may not touch faults 0x09; a fenced partition
refuses it and halts the channel (R37, R62, R63, R435, R436). It rests on choices or readings of the model: log 5. -/
def Obligations.Moves : Prop := ∀ (s : State) (tl : TileRef) (w : Word) (d : MoveDesc), Canonical s → Issues s tl .move w →
  let t := s.tile tl
  let k := getF w move_channel
  let c := chanOf t k
  badDesc (getF w iw_desc) = false →
  (∀ e, 2 ≤ c.queue.length ∨ c.halted = true → ∃ u, exec (.move tl d e) s = .next (s.setTile tl u) ∧ Waits s t u State.stallFull) ∧
  (c.queue.length < 2 → c.halted = false →
    (∀ e, s.awaitsLot t d = true → ∃ u, exec (.move tl d e) s = .next (s.setTile tl u) ∧ Waits s t u State.stallEmpty) ∧
    (s.awaitsLot t d = false → s.badMove t d = false → (moveTarget d).any (fun p => s.partFenced p) = false →
      d.stash.save = none → ∃ u, exec (.move tl d .clean) s = .next (retiredTo s tl u) ∧ u.seq.index = t.seq.index + 1 ∧
        u.counters = t.counters ∧ getF u.status tileStatus_progress = (getF t.status tileStatus_progress + 1) % 2 ^ 16 ∧
        chanOf u k = { c with queue := c.queue ++
          [{ word := w, d := d, bytes := s.moveBytes t d, since := s.now, lot := t.seq.lot, rerun := false }] } ∧
        (∀ j ≠ k, chanOf u j = chanOf t j) ∧ SameButStore { t with chans := u.chans } u ∧ u.store = t.store) ∧
    (∀ e, s.awaitsLot t d = false → s.badMove t d = true → ∃ s', exec (.move tl d e) s = .next s' ∧
      s' = { s with tiles := s'.tiles, job := s'.job } ∧ getF (s'.tile tl).status tileStatus_faultCode = 9 ∧
      (s'.tile tl).store = t.store ∧ (s'.tile tl).chans = t.chans) ∧
    (∀ e p, s.awaitsLot t d = false → s.badMove t d = false → moveTarget d = some p → s.partFenced p = true →
      ∃ s', exec (.move tl d e) s = .next s' ∧ s' = { s with tiles := s'.tiles, parts := s'.parts } ∧
        (chanOf (s'.tile tl) k).halted = true ∧ (chanOf (s'.tile tl) k).queue = c.queue ∧ (s'.tile tl).store = t.store ∧
        getF (s'.part p).fenceStatus fenceStatus_refused =
          getF (bumpF (s.part p).fenceStatus fenceStatus_refused 1) fenceStatus_refused))

/-- TRANSFER_COMPLETE: the oldest transfer of the channel delivers its bytes, to the tile's store, to HBM, to another
tile's store, to a route or to lines of a spare cask, where nothing else changes, and increments its counters; a write of the
same word by another client faults the tile that holds it (R47, R63, R64, R191, R211, R215). It rests on choices or readings of
the model: log 5. -/
def Obligations.TransferCompletes : Prop := ∀ (s : State) (tl : TileRef) (k : Nat) (x : Xfer) (rest : List Xfer), Canonical s →
  let t := s.tile tl
  let c := chanOf t k
  let left := { c with queue := rest, digest := State.xferDigest c x }
  c.queue = x :: rest → c.halted = false → s.alive = true → s.awaitsCopy x.d = false → x.d.stash.frees = [] →
  (moveTarget x.d).any (fun p => s.partFenced p) = false → CountsFit t x.word →
  (((∃ a, x.d.kind = .fromHbm a) ∨ ∃ a, x.d.kind = .fromLot a) → ∃ u, exec (.transferComplete tl k none) s = .next (s.setTile tl u) ∧
    Wrote t u x.d.loc x.bytes ∧ (∀ j, counter u j = counter t j + adds x.word j) ∧ u.seq = t.seq ∧ u.status = t.status ∧
    chanOf u k = left ∧ (∀ j ≠ k, chanOf u j = chanOf t j) ∧ SameButStore { t with chans := u.chans } u) ∧
  (∀ a, x.d.kind = .toHbm a → x.rerun = false → ∃ s', exec (.transferComplete tl k none) s = .next s' ∧
    s' = { s with tiles := s'.tiles, mem := s'.mem } ∧ s'.mem = (s.hbmWrite a x.bytes).mem ∧
    (∀ b, (∀ i < x.bytes.length, b ≠ s.phys false (a + i)) → Memory.read s'.mem b = Memory.read s.mem b) ∧
    (∀ v, tkey v ≠ tkey tl → s'.tile v = s.tile v) ∧ (s'.tile tl).store = t.store ∧
    (∀ j, counter (s'.tile tl) j = counter t j + adds x.word j) ∧ chanOf (s'.tile tl) k = left) ∧
  (∀ p t' a, x.d.kind = .toTile p t' a → tkey ⟨p, t'⟩ ≠ tkey tl →
    counter (s.tile ⟨p, t'⟩) (getF x.word move_dstCounter) + (getF x.word move_dstInc + 1) ≤ 0xffffffff →
    ∃ s', exec (.transferComplete tl k none) s = .next s' ∧ s' = { s with tiles := s'.tiles } ∧
      Wrote (s.tile ⟨p, t'⟩) (s'.tile ⟨p, t'⟩) a x.bytes ∧
      (∀ j, counter (s'.tile ⟨p, t'⟩) j = counter (s.tile ⟨p, t'⟩) j +
        if j = getF x.word move_dstCounter then getF x.word move_dstInc + 1 else 0) ∧
      SameButStore (s.tile ⟨p, t'⟩) (s'.tile ⟨p, t'⟩) ∧ (s'.tile tl).store = t.store ∧
      (∀ j, counter (s'.tile tl) j = counter t j + adds x.word j) ∧
      (∀ v, tkey v ≠ tkey tl → tkey v ≠ tkey ⟨p, t'⟩ → s'.tile v = s.tile v)) ∧
  (∀ o, x.d.kind = .route o → x.rerun = false → State.frameBad o x.bytes = false → ∃ s', exec (.transferComplete tl k none) s = .next s' ∧
    s'.out = .frame tl o.route (s.frameOf tl o (State.frameCount t o x.d.gather) (State.frameRecs o x.bytes)) :: s.out ∧
    s' = { s with tiles := s'.tiles, job := s'.job, step := s'.step, out := s'.out } ∧ (s'.tile tl).store = t.store ∧
    (∀ j, counter (s'.tile tl) j = counter t j + adds x.word j) ∧ (∀ v, tkey v ≠ tkey tl → s'.tile v = s.tile v)) ∧
  (∀ q l, x.d.kind = .toCask q l → x.d.len / slotSize = 1 → let r := packedAt (readBytes x.bytes) 0
    r.header ≠ 0 → r.malformed = false → kindClash (caskLine t q l) r = false → r.emptyBit = false →
    ∃ u, exec (.transferComplete tl k none) s = .next (s.setTile tl u) ∧ caskLine u q l = takePacked (caskLine t q l) r ∧
      (∀ i, i ≠ q * 256 + l → Sparse.get Line.reset u.casks i = Sparse.get Line.reset t.casks i) ∧ u.store = t.store ∧
      (∀ j, counter u j = counter t j + adds x.word j)) ∧
  (∀ q l ka kg, x.d.kind = .accToCask q l ka kg → l + x.d.len / 16 ≤ 256 →
    ∃ u, exec (.transferComplete tl k none) s = .next (s.setTile tl u) ∧ u.store = t.store ∧
      (∀ n < x.d.len / 16, caskLine u q (l + n) =
        takeAcc (caskLine t q (l + n)) (dwOf (readBytes x.bytes (16 * n) 16)) (dwShift t ka kg)) ∧
      (∀ i, (i < q * 256 + l ∨ q * 256 + l + x.d.len / 16 ≤ i) →
        Sparse.get Line.reset u.casks i = Sparse.get Line.reset t.casks i) ∧
      (∀ j, counter u j = counter t j + adds x.word j)) ∧
  (∀ dst y, State.landing tl x.d = some dst →
    ∃ s', exec (.transferComplete tl k (some y)) s = .next s' ∧ getF (s'.tile dst).status tileStatus_faultCode = 4 ∧
      flagF (s'.tile dst).status tileStatus_storeRace = true ∧ s'.job.bits.testBit stepCheckStatus_tile.lo = true)

/-! ## HBM (R281, R285 to R287, R295) -/

/-- COPY_ON_WRITE copies the page's live frame, byte for byte, to the lowest free frame, and marks the page copied; no
other byte of HBM and no other page changes. A page already copied is left alone (R295). -/
def Obligations.PageCopies : Prop := ∀ (s : State) (p i : Nat), Canonical s → s.alive = true → s.job.sigmaOpen = true →
  i < (s.part p).pages.length →
  (∀ f, (s.page p i).copied = false → s.freeFrame p = some f →
    let e := s.page p i
    ∃ s', exec (.copyOnWrite p i false) s = .next s' ∧ s' = { s with mem := s'.mem, parts := s'.parts, mir := s'.mir } ∧
      s'.page p i = { e with snap := f, copied := true } ∧ (∀ j ≠ i, s'.page p j = s.page p j) ∧
      (∀ q ≠ p, s'.part q = s.part q) ∧
      (∀ o < pageBytes, Memory.read s'.mem (partBase p + f * pageBytes + o) =
        Memory.read s.mem (partBase p + e.live * pageBytes + o)) ∧
      (∀ a, a < partBase p + f * pageBytes ∨ partBase p + f * pageBytes + pageBytes ≤ a →
        Memory.read s'.mem a = Memory.read s.mem a)) ∧
  (∀ ue, (s.page p i).copied = true → exec (.copyOnWrite p i ue) s = .next s)

/-- The memory controllers: a corrected error is counted, an uncorrectable one fails the step where its region can be
lost and fails the channel in the system area, an on-die report counts under ECS, a temperature read-out gives the
partition the hottest stack, refresh management changes nothing (R281, R285 to R287). It rests on choices or readings
of the model: log 25. -/
def Obligations.MemoryMaintenance : Prop := ∀ (s : State) (p k pch unit temp : Nat), Canonical s → s.hbmUp = true →
  let st := s.stack p k
  let key := pch * 2 ^ 24 + rowOfUnit unit
  let o := ((unit * 32 + pch) * s.S + k) * 256
  (exec (.patrolScrub p k pch unit .clean) s = .next s) ∧
  (flagF st.ctl memCtl_scrubEn = true → Sparse.get 0 st.rowCe key ≠ 15 →
    ∃ z, exec (.patrolScrub p k pch unit .corrected) s = .next (s.setStack p k z) ∧
      Sparse.get 0 z.rowCe key = Sparse.get 0 st.rowCe key + 1 ∧ z = { st with ecc := z.ecc, rowCe := z.rowCe } ∧
      getF z.ecc memEccCounts_ceCount = getF (bumpF st.ecc memEccCounts_ceCount 1) memEccCounts_ceCount) ∧
  (flagF st.ctl memCtl_scrubEn = true → o < sysBytes p →
    ∃ s', exec (.patrolScrub p k pch unit .uncorrectable) s = .next s' ∧
      s' = { s with memStacks := s'.memStacks, fd := s'.fd, out := s'.out } ∧ s'.fd.selfFailed.isSome = true ∧
      (pch < 32 → (getF (s'.stack p k).repair memRepair_failedPch).testBit pch = true)) ∧
  (∀ r, flagF st.ctl memCtl_scrubEn = true → sysBytes p ≤ o → s.regionAt p o = some r → State.transient r.ty = true →
    Sparse.get 0 st.ueInJob pch = 0 →
    ∃ s', exec (.patrolScrub p k pch unit .uncorrectable) s = .next s' ∧ s' = { s with memStacks := s'.memStacks, job := s'.job } ∧
      s'.job.bits.testBit stepCheckStatus_ue.lo = true) ∧
  (flagF st.ctl memCtl_ecsEn = true → ∃ z, exec (.patrolScrub p k pch unit .onDie) s = .next (s.setStack p k z) ∧
    getF z.ecc memEccCounts_ondieCount = getF (bumpF st.ecc memEccCounts_ondieCount 1) memEccCounts_ondieCount ∧
    z = { st with ecc := z.ecc }) ∧
  (∃ s', exec (.stackTemperatureReadout p k temp) s = .next s' ∧ s' = { s with memStacks := s'.memStacks, parts := s'.parts } ∧
    (s'.stack p k).temp = temp ∧ (k < s.S → temp ≤ (s'.part p).hbmTemp) ∧
    (s'.part p).hbmTemp = ((List.range s.S).map (fun j => (s'.stack p j).temp)).foldl max 0) ∧
  (exec (.refreshManagement p k) s = .next s)

/-! ## Sites: self-test and graft (R67, R71, R348) -/

/-- A self-test that ends rewrites the result bits of its site, and erases the tile on it (R67, R71). A tile graft moves
the tile onto the first spare site that passes, and asks for replacement when there is none (R348). -/
def Obligations.SelfTestAndGraft : Prop := ∀ (s : State) (p x fails : Nat) (tl : TileRef), Canonical s → s.alive = true →
  ((s.site p x).running = true → getF (s.site p x).bist siteBist_siteRole = 0 →
    getF (s.site p x).bist siteBist_logicalT = tl.t → tl.p = p → getF (s.tile tl).status tileStatus_faultCode ≠ 3 →
    let units := if (s.site p x).mode = 1 then quickUnits else fullUnits
    ∃ s', exec (.selfTestComplete p x fails) s = .next s' ∧ s' = { s with sites := s'.sites, tiles := s'.tiles } ∧
      s'.site p x = { bist := testBits (s.site p x).bist units fails, mode := 0, running := false } ∧
      (∀ v, tkey v ≠ tkey tl → s'.tile v = s.tile v) ∧
      (s'.tile tl).store = [] ∧ (s'.tile tl).casks = [] ∧ (s'.tile tl).arrays = [] ∧ (s'.tile tl).lees = [] ∧
      (s'.tile tl).counters = [] ∧ getF (s'.tile tl).status tileStatus_tileState = TS.idle ∧
      getF (s'.tile tl).status tileStatus_bistResult = if fails &&& units = 0 then 1 else 2) ∧
  ((s.site p x).running = false → exec (.selfTestComplete p x fails) s = .next s) ∧
  (s.graftDue tl = false → exec (.tileGraft tl []) s = .next s) ∧
  (∀ y ys, s.graftDue tl = true → s.job.heldCommit = none → s.spareSites tl.p = y :: ys → y ≠ getF (s.tile tl).map tileMap_site →
    let old := getF (s.tile tl).map tileMap_site
    ∃ s', exec (.tileGraft tl []) s = .next s' ∧ getF (s'.tile tl).map tileMap_site = y ∧
      getF (s'.tile tl).map tileMap_prevSite = old ∧ getF (s'.tile tl).status tileStatus_tileState = TS.idle ∧
      (s'.tile tl).store = [] ∧ (s'.tile tl).casks = [] ∧ s'.siteRole tl.p y = 0 ∧ s'.siteRole tl.p old = 2 ∧
      s'.job.bits.testBit stepCheckStatus_tile.lo = true ∧ (∀ v, tkey v ≠ tkey tl → s'.tile v = s.tile v)) ∧
  (∀ y z ys f, s.graftDue tl = true → s.job.heldCommit = none → s.spareSites tl.p = y :: z :: ys → f &&& quickUnits ≠ 0 →
    z ≠ getF (s.tile tl).map tileMap_site →
    ∃ s', exec (.tileGraft tl [f]) s = .next s' ∧ getF (s'.tile tl).status tileStatus_faultCode = 10 ∧ s'.siteRole tl.p y = 2 ∧
      getF (s'.tile tl).map tileMap_site = z ∧ s'.job.bits.testBit stepCheckStatus_tile.lo = true) ∧
  (s.graftDue tl = true → s.job.heldCommit = none → s.spareSites tl.p = [] →
    ∃ s', exec (.tileGraft tl []) s = .next s' ∧ s'.fd.selfFailed.isSome = true ∧ s'.tiles = s.tiles ∧
      s'.job.bits.testBit stepCheckStatus_tile.lo = true)

/-! ## STEP_CTRL (R308, R406, R407) -/

/-- START, RESUME, PAUSE, EVAL, CKPT and END complete in the states that permit them: each has its effect on the device,
brought to ACTIVE, and is answered OK; what the effect is follows. In a state that does not permit it a message is answered
ERR_STATE and nothing else changes; an evaluation or a checkpoint under way in PAUSED answers ERR_BUSY (R406, R407, R451). It
rests on choices or readings of the model: log 50. -/
def Obligations.StepControl : Prop := ∀ (s : State) (h : DctHdr) (x : Session), Canonical s → Turn s h x →
  let on := (heard s x).ensureActive
  (s.devState = DS.loaded → s.isSpareHere = false → exec (.start h) s = .next (answeredOk on.startRun h)) ∧
  (s.devState = DS.paused → exec (.resume h) s = .next (answeredOk on.resumeRun h)) ∧
  (s.devState = DS.running → exec (.pause h) s = .next (answeredOk
    { on with step := { on.step with ctl := setF on.step.ctl stepCtl_pauseReq 1 } } h)) ∧
  (s.devState = DS.running → exec (.eval h) s = .next (answeredOk
    { on with step := { on.step with ctl := setF on.step.ctl stepCtl_evalReq 1 } } h)) ∧
  (s.devState = DS.paused → s.job.evaluating = false → exec (.eval h) s = .next (answeredOk (on.startEval 0) h)) ∧
  (s.devState = DS.running → exec (.ckpt h) s = .next (answeredOk { on with job := { on.job with ckptDue := true } } h)) ∧
  (s.devState = DS.paused → s.job.ckpt = none → exec (.ckpt h) s = .next (answeredOk (on.startCkpt s.committedV) h)) ∧
  (s.devState = DS.paused → exec (.endJob h) s = .next (answeredOk on.clearJob h)) ∧
  (s.devState = DS.loaded → s.isSpareHere = false → s.committedV + 1 < noVintage →
    ∃ t, exec (.start h) s = .next t ∧ Answered t h Err.ok ∧ t.devState = DS.running ∧ t.job.sigmaOpen = true ∧
      (t.vint (s.committedV + 1)).isSome = true ∧ t.committedV = s.committedV) ∧
  (s.devState = DS.paused → s.committedV + 1 < noVintage →
    ∃ t, exec (.resume h) s = .next t ∧ Answered t h Err.ok ∧ t.devState = DS.running ∧
      (t.vint (s.committedV + 1)).isSome = true ∧ t.committedV = s.committedV) ∧
  (s.devState = DS.running → ∃ t, exec (.pause h) s = .next t ∧ Answered t h Err.ok ∧ t.devState = DS.running ∧
    t.step = { s.step with ctl := setF s.step.ctl stepCtl_pauseReq 1 } ∧ t.job = s.job ∧ t.tiles = s.tiles) ∧
  (s.devState = DS.running → ∃ t, exec (.eval h) s = .next t ∧ Answered t h Err.ok ∧
    t.step = { s.step with ctl := setF s.step.ctl stepCtl_evalReq 1 } ∧ t.job = s.job ∧ t.tiles = s.tiles) ∧
  (s.devState = DS.paused → s.job.evaluating = false → ∃ t, exec (.eval h) s = .next t ∧ Answered t h Err.ok ∧
    t.job.evaluating = true ∧ t.job.evalV = s.committedV ∧ t.devState = DS.paused) ∧
  (s.devState = DS.running → ∃ t, exec (.ckpt h) s = .next t ∧ Answered t h Err.ok ∧ t.job = { s.job with ckptDue := true } ∧
    t.step = s.step ∧ t.tiles = s.tiles) ∧
  (s.devState = DS.paused → s.job.ckpt = none → (∃ k ∈ s.sec.slots, k.1 = 0) → s.ckptItem.isSome = true → s.isJobHead = false →
    ∃ t, exec (.ckpt h) s = .next t ∧ Answered t h Err.ok ∧ t.job.ckpt.isSome = true ∧ t.devState = DS.paused ∧ t.tiles = s.tiles) ∧
  (s.devState = DS.paused → ∃ t, exec (.endJob h) s = .next t ∧ Answered t h Err.ok ∧ t.devState = DS.loaded ∧
    t.job.uncommitted = [] ∧ t.committedV = 0 ∧ t.openVintage = noVintage) ∧
  (s.devState ≠ DS.loaded ∨ s.isSpareHere = true → ∃ t, exec (.start h) s = .next t ∧ Answered t h Err.state ∧ OnlyReplied s t) ∧
  (s.devState ≠ DS.paused → ∃ t, exec (.resume h) s = .next t ∧ Answered t h Err.state ∧ OnlyReplied s t) ∧
  (s.devState ≠ DS.running → ∃ t, exec (.pause h) s = .next t ∧ Answered t h Err.state ∧ OnlyReplied s t) ∧
  (s.devState ≠ DS.paused → ∃ t, exec (.endJob h) s = .next t ∧ Answered t h Err.state ∧ OnlyReplied s t) ∧
  (s.devState = DS.paused → s.job.evaluating = true → ∃ t, exec (.eval h) s = .next t ∧ Answered t h Err.busy ∧ OnlyReplied s t) ∧
  (s.devState = DS.paused → s.job.ckpt.isSome = true → ∃ t, exec (.ckpt h) s = .next t ∧ Answered t h Err.busy ∧ OnlyReplied s t)

/-! ## Restore and the epoch (R17, R361 to R363) -/

/-- RESTORE, RESTORE_REPORT, RESTORE_COMMIT and EPOCH_START. -/
def Obligations.RestoreAndEpoch : Prop := ∀ (s : State), Canonical s →
  (∀ h x cs, Turn s h x → s.devState = DS.loaded ∨ s.devState = DS.paused → s.isSpareHere = false → cs ≠ [] → cs.length ≤ 16 →
    s.job.restore = none → ∃ t, exec (.restore h cs) s = .next t ∧ Answered t h Err.ok ∧
      t.job = { s.job with restore := some { cands := State.sortCands cs, reports := [], wrote := false } } ∧ t.tiles = s.tiles) ∧
  (∀ r c rest dev stage code, s.job.restore = some r → r.cands = c :: rest → s.alive = true → s.isJobHead = true →
    s.devState = DS.loaded ∨ s.devState = DS.paused → dev ∈ s.jobIds.filter s.healthy →
    (code = Err.ok → stage < 6 → exec (.restoreReport dev stage code) s =
      .next (s.onJob (fun j => { j with restore := some { r with wrote := r.wrote || decide (5 ≤ stage) } }))) ∧
    (code = Err.ok → 6 ≤ stage → (∀ i ∈ s.jobIds.filter s.healthy, i ∈ dev :: r.reports) →
      ∃ t, exec (.restoreReport dev stage code) s = .next t ∧ t.out = .restoreCommit c.1 c.2 :: s.out ∧
        t = { s with job := t.job, out := t.out }) ∧
    (code ≠ Err.ok → rest ≠ [] → ∃ t, exec (.restoreReport dev stage code) s = .next t ∧
      t.job.restore = some { cands := rest, reports := [], wrote := r.wrote || decide (5 ≤ stage) } ∧ t.mem = s.mem ∧ t.tiles = s.tiles) ∧
    (code ≠ Err.ok → rest = [] → ∃ t, exec (.restoreReport dev stage code) s = .next t ∧ t.job.restore = none)) ∧
  (∀ v gen st sc, s.alive = true → s.devState = DS.loaded ∨ s.devState = DS.paused → s.job.restore.isSome = true →
    s.isSpareHere = false → v < 2 ^ 48 →
    ∃ t, exec (.restoreCommit v gen st sc) s = .next t ∧ t.devState = DS.paused ∧ t.committedV = v ∧ t.job.gen = gen + 1 ∧
      t.job.restore = none ∧ t.job.sigmaOpen = true) ∧
  (s.alive = true → s.img.cur.isSome = true → s.job.established = false → s.devState = DS.running ∨ s.devState = DS.paused →
    s.time.epochE.getD s.time.count ≤ s.time.count →
    ∃ t, exec .epochStart s = .next t ∧ t = { s with time := t.time, job := { s.job with established := true } } ∧
      t.time.count = s.time.count ∧ t.time.epoch = s.time.epoch % 31 + 1 ∧ t.time.epochE = none ∧
      t.now = (s.time.count - s.time.epochE.getD s.time.count) % 2 ^ 64) ∧
  (s.time.count < s.time.epochE.getD s.time.count → exec .epochStart s = .next s)

/-! ## Agreement on a step (R175 to R180, R303, R305, R306, R311) -/

/-- VERDICT_REPORT, VERDICT_REPORT_RECEIVED and VERDICT: the report goes out once, when the lots and the reduction are behind
the device (R37, R176); reports are counted once; the verdict is kept, a replay's must equal the recorded one (R177 to R179). -/
def Obligations.Verdicts : Prop := ∀ (s : State) (y : Vint), s.alive = true → s.devState = DS.running → s.job.rollbackAt = none →
  s.openVintage ≠ noVintage → s.vint s.openVintage = some y →
  (y.verdictSent = false → s.isDomainHead = false → s.job.evaluating = false → s.reduced = true →
    ∃ t, exec .verdictReport s = .next t ∧ t.out = .verdictReport s.domainHead s.ownCounts :: s.out ∧
      (t.vint s.openVintage).map (·.verdictSent) = some true ∧ t.tiles = s.tiles) ∧
  (y.verdictSent = true ∨ s.job.evaluating = true ∨ s.reduced = false → exec .verdictReport s = .next s) ∧
  (∀ r : VerdictRep, r.vintage = s.openVintage → r.attempt = s.openAttempt → r.device ∈ s.awaited →
    (∀ z ∈ s.job.verdictReps, z.device ≠ r.device) → (∃ i ∈ s.awaited, i ≠ r.device ∧ ∀ z ∈ s.job.verdictReps, z.device ≠ i) →
    ∃ t, exec (.verdictReportReceived r) s = .next t ∧ t = { s with job := t.job } ∧
      t.job.verdictReps = s.job.verdictReps ++ [r]) ∧
  (∀ r : VerdictRep, r.vintage ≠ s.openVintage ∨ r.attempt ≠ s.openAttempt ∨ (∃ z ∈ s.job.verdictReps, z.device = r.device) →
    exec (.verdictReportReceived r) s = .next s) ∧
  (∀ vd : Verdict, y.verdict = none → y.recorded = none →
    ∃ t, exec (.verdict s.openVintage s.openAttempt vd) s = .next t ∧ (t.vint s.openVintage).bind (·.verdict) = some vd ∧
      (t.vint s.openVintage).bind (·.recorded) = some vd ∧
      (vd.fail = true → t.job.bits.testBit stepCheckStatus_numeric.lo = true) ∧
      (vd.fail = false → t.job.bits = s.job.bits ∧ t.job.failErr = s.job.failErr) ∧ t.tiles = s.tiles) ∧
  (∀ vd r : Verdict, y.verdict = none → y.recorded = some r → State.sameVerdict r vd = false →
    ∃ t, exec (.verdict s.openVintage s.openAttempt vd) s = .next t ∧ (t.vint s.openVintage).bind (·.recorded) = some r ∧
      t.job.bits.testBit stepCheckStatus_divergent.lo = true ∧ t.tiles = s.tiles) ∧
  (∀ v a vd, v ≠ s.openVintage ∨ a ≠ s.openAttempt ∨ y.verdict.isSome = true → exec (.verdict v a vd) s = .next s)

/-- STEP_CHECK waits while the device has nothing failed and S(N) is not acknowledged, and else reports; CHECK_REPORT
is counted once at its head; AGREEMENT_DEADLINE names the missing reports (R303, R305, R306, R311). It rests on
choices or readings of the model: log 55. -/
def Obligations.StepChecks : Prop := ∀ (s : State) (y : Vint), s.alive = true → s.devState = DS.running → s.job.rollbackAt = none →
  s.openVintage ≠ noVintage → s.vint s.openVintage = some y →
  (∀ g d, s.fd.selfFailed = none → y.checked = false → y.verdict.isSome = true → s.job.ownReport = none → s.job.evaluating = false →
    s.updated = true → s.job.bits = 0 → s.acked = false ∨ s.streaming = true →
    ∃ t, exec (.stepCheck g d) s = .next t ∧ getF t.step.check stepCheckStatus_result = 3 ∧ t.out = s.out ∧ t.tiles = s.tiles ∧
      (t.job.checkWait).map (·.1) = some (if s.acked then State.stallStream else State.stallRacking) ∧
      (t.vint s.openVintage).map (·.checked) = some false) ∧
  (∀ g d, s.fd.selfFailed = none → y.checked = false → y.verdict.isSome = true → s.job.ownReport = none → s.job.evaluating = false →
    s.updated = true → (s.job.bits ≠ 0 ∨ (s.acked = true ∧ s.streaming = false)) →
    let r := if s.job.bits = 0 then s.endCheckWait.writeHist (y.verdict.getD noVerdict) else s.endCheckWait
    r.scalesDiffer y = false → (s.replicaIds.filter s.healthy).length ≤ 1 → s.isDomainHead = false →
    ∃ t, exec (.stepCheck g d) s = .next t ∧ t.out = .check s.domainHead (r.ownCheck g d) :: r.out ∧
      getF t.step.check stepCheckStatus_result = (if r.job.bits / 4 = 0 then 1 else 2) ∧ t.mem = r.mem ∧
      (t.vint s.openVintage).map (·.checked) = some true) ∧
  (∀ g d since code, s.fd.selfFailed = none → y.checked = false → y.verdict.isSome = true → s.job.ownReport = none →
    s.job.evaluating = false → s.job.bits ≠ 0 → s.job.checkWait = some (code, since) → ∃ t, exec (.stepCheck g d) s = .next t ∧ t.job.checkWait = none ∧
      (recordAt t 0 (ledgerHead s 0)).map (fun r => (r.cls, r.code, r.tile, r.arg)) =
        some (2, code, 0xff, min ((s.now - since) / usTicks) 0xffffffff)) ∧
  (∀ g d, y.checked = true ∨ y.verdict = none ∨ s.job.evaluating = true ∨ s.updated = false ∨ s.fd.selfFailed.isSome = true →
    exec (.stepCheck g d) s = .next s) ∧
  (∀ r : CheckReport, r.decant = false → s.replicaHead ≠ some s.devId → r.vintage = s.openVintage → r.attempt = s.openAttempt →
    r.device ∈ s.awaited → r.image = s.imageDigest → (∀ z ∈ s.job.checkReps, z.device ≠ r.device) →
    (∃ i ∈ s.awaited, i ≠ r.device ∧ ∀ z ∈ s.job.checkReps, z.device ≠ i) →
    ∃ t, exec (.checkReport r) s = .next t ∧ t = { s with job := t.job } ∧ t.job.checkReps = s.job.checkReps ++ [r]) ∧
  (∀ r : CheckReport, r.decant = true → s.isJobHead = true → r.vintage = s.openVintage → r.attempt = s.openAttempt →
    ∃ t, exec (.checkReport r) s = .next t ∧ t = { s with job := { s.job with decanted := t.job.decanted } } ∧ r.device ∈ t.job.decanted) ∧
  (∀ t0, s.job.firstRepAt = some t0 → s.job.askedAt = none → t0 + s.agreeTicks ≤ s.now → s.missingIds ≠ [] → s.pendingOn 3 = [] →
    (s.isJobHead = false → ∃ t, exec (.agreementDeadline s.openVintage s.openAttempt) s = .next t ∧
      t.out = .missing s.missingIds :: s.out ∧ t.job = { s.job with askedAt := some s.now } ∧
      getF t.dev.errLast errLast_code = Err.timeout) ∧
    (s.isJobHead = true → ∃ t, exec (.agreementDeadline s.openVintage s.openAttempt) s = .next t ∧
      (∀ i ∈ s.missingIds, Msg.hang i s.openVintage s.openAttempt ∈ t.out) ∧ t.job = { s.job with askedAt := some s.now })) ∧
  (∀ v a, s.job.firstRepAt = none → exec (.agreementDeadline v a) s = .next s)

/-! ## Commit, rollback, replay (R307, R308, R311) -/

/-- COMMIT advances the committed vintage by one and takes the vintage out of the uncommitted ones; ROLLBACK raises the
attempt and gives every copied page its snapshot's frame; REPLAY_START begins every schedule anew; EVALUATION_END ends an
evaluation. -/
def Obligations.CommitAndRollback : Prop := ∀ (s : State), Canonical s → s.alive = true → s.devState = DS.running →
  (∀ v pause, (s.vint v).isSome = true → v = s.committedV + 1 → v + 1 < noVintage → s.acked = true → s.job.rollbackAt = none →
    s.graftsDue = false → ∃ t, exec (.commit v pause) s = .next t ∧ t.committedV = v ∧ t.vint v = none ∧
      t.devState = if pause then DS.paused else DS.running) ∧
  (∀ v pause, (s.vint v).isSome = true → v = s.committedV + 1 → s.acked = true → s.job.rollbackAt = none → s.graftsDue = true →
    exec (.commit v pause) s = .next { s with job := { s.job with heldCommit := some (v, pause) } }) ∧
  (∀ v pause, v ≠ s.committedV + 1 ∨ s.acked = false → exec (.commit v pause) s = .next s) ∧
  (∀ a y ys, s.job.uncommitted = y :: ys → s.openVintage = y.v → y.v ≠ noVintage → s.openAttempt < a → s.job.rackMismatch = [] →
    s.job.heldCommit = none →
    ∃ t, exec (.rollback y.v a 0) s = .next t ∧ t.devState = DS.running ∧ t.openAttempt = a % 2 ^ 16 ∧ t.committedV = s.committedV ∧
      t.job.rollbackAt.isSome = true ∧ t.job.bits = 0 ∧
      (∀ p < 8, (t.part p).pages = (s.part p).pages.map (fun e =>
        if e.copied then { e with live := e.snap, snap := 0, copied := false } else e))) ∧
  (∀ v a stop, v ≠ s.openVintage ∨ a ≤ s.openAttempt ∨ s.job.heldCommit.isSome = true → exec (.rollback v a stop) s = .next s) ∧
  (s.job.rollbackAt.isSome = true → s.isJobHead = false → s.job.evalDue = false → (∀ tl, Unserved s tl) →
    ∃ t, exec .replayStart s = .next t ∧ t.job = { s.job with rollbackAt := none, ledgerSeq := t.job.ledgerSeq } ∧
      (∀ tl, (t.tile tl).seq = firstSeq (s.tile tl) false) ∧ (∀ tl, (t.tile tl).store = (s.tile tl).store)) ∧
  (s.job.rollbackAt = none → exec .replayStart s = .next s) ∧
  (s.job.evaluating = true → (∀ tl, Unserved s tl) → ∃ t, exec .evaluationEnd s = .next t ∧ t.job.evaluating = false ∧ t.job.evalBytes = [] ∧
    t.committedV = s.committedV ∧ (∀ tl, (t.tile tl).store = (s.tile tl).store)) ∧
  (s.job.evaluating = false → exec .evaluationEnd s = .next s)

/-! ## Frames and data (R211 to R223, R300, R404) -/

/-- PARTIAL_FRAME: a bad frame and a second copy fail the step, a stale one is counted, one of a newer attempt waits, a
regenerated copy of a frame that the cellar serves is compared and absorbed, and an accepted one combines or places its records
in the owner's slots and nowhere else, the last one counting on the collective's counter (R212, R213, R215, R218 to R223,
R309). It rests on choices or readings of the model: logs 26, 80, 81. -/
def Obligations.PartialFrames : Prop := ∀ (s : State) (tl : TileRef) (f : Frame), Canonical s → s.stagesRun = true →
  s.partFenced tl.p = false →
  let t := s.tile tl
  (s.badFrame tl f = true → ∃ t', exec (.partialFrame tl f) s = .next t' ∧ t'.job.bits.testBit stepCheckStatus_frame.lo = true ∧
    t' = (s.setTile tl { t with redStatus := bumpF t.redStatus redStatus_badFrames 1 }).failBit stepCheckStatus_frame) ∧
  (s.badFrame tl f = false →
    (s.frameAge f.ident = .lt → exec (.partialFrame tl f) s =
      .next (s.setTile tl { t with redStatus := bumpF t.redStatus redStatus_stale 1 })) ∧
    (s.frameAge f.ident = .gt → exec (.partialFrame tl f) s = .next s) ∧
    (∀ c g y, s.frameAge f.ident = .eq → s.collOf tl f.ident.coll = some c → s.heldFull tl f.ident = some g →
      s.vint s.openVintage = some y → (tl, { f.ident with attempt := 0 }) ∉ y.absorbed →
      ∃ t', exec (.partialFrame tl f) s = .next t' ∧ t' = { s with job := t'.job, step := t'.step } ∧
        (setF f.w0 fr_attempt 0 = setF g.w0 fr_attempt 0 → f.w1 = g.w1 → f.w2 = g.w2 → f.recs = g.recs → t'.job.bits = s.job.bits) ∧
        (f.recs ≠ g.recs → t'.job.bits.testBit stepCheckStatus_divergent.lo = true)) ∧
    (∀ c, s.frameAge f.ident = .eq → s.collOf tl f.ident.coll = some c → s.heldFull tl f.ident = none →
      (f.ident ∈ t.accepted → ∃ t', exec (.partialFrame tl f) s = .next t' ∧ t'.job.bits.testBit stepCheckStatus_frame.lo = true ∧
        t'.tile tl = { t with redStatus := bumpF t.redStatus redStatus_dup 1 } ∧ ∀ u, tkey u ≠ tkey tl → t'.tile u = s.tile u) ∧
      (f.ident ∉ t.accepted → State.ringFull t c = true → exec (.partialFrame tl f) s = .next s) ∧
      (f.ident ∉ t.accepted → State.ringFull t c = false → State.frameBeyond c f = true →
        ∃ t', exec (.partialFrame tl f) s = .next t' ∧ getF (t'.tile tl).status tileStatus_faultCode = 9 ∧ (t'.tile tl).store = t.store) ∧
      (f.ident ∉ t.accepted → State.ringFull t c = false → State.frameBeyond c f = false →
        let ids := (f.ident :: t.accepted).filter (fun x => x.coll == f.ident.coll && x.vintage == f.ident.vintage &&
          x.attempt == f.ident.attempt)
        let done := s.combine tl c f
        (ids.length ≠ c.expected →
          ∃ t', exec (.partialFrame tl f) s = .next t' ∧ t' = { s with tiles := t'.tiles, mem := t'.mem, job := t'.job, step := t'.step } ∧
            (t'.tile tl).store = (done.tile tl).store ∧ t'.mem = done.mem ∧ (t'.tile tl).accepted = f.ident :: t.accepted ∧
            (t'.tile tl).counters = t.counters ∧ (t'.tile tl).casks = t.casks ∧
            (t'.tile tl).seq = { t.seq with inRows := t.seq.inRows + f.count } ∧
            (∀ u, tkey u ≠ tkey tl → t'.tile u = s.tile u) ∧
            (c.kind = .gather → collPlace c f < storeBytes → Wrote t (t'.tile tl) (collPlace c f) f.recs) ∧
            (c.kind = .sum → f.count = 1 → f.payload = 1 → collSlot c f.base < storeBytes →
              badSlot (s.slotAt tl (collSlot c f.base)) = false → Wrote t (t'.tile tl) (collSlot c f.base)
                (slotBytes ((slotLine (s.slotAt tl (collSlot c f.base))).take
                  (Line.ofWide (fmtFp32.decode (readBytes f.recs 0 4))))))) ∧
        (ids.length = c.expected → c.amax = none → counter t c.counter < 0xffffffff →
          ∃ t', exec (.partialFrame tl f) s = .next t' ∧
            (t'.tile tl).store = ((done.fillUnfed tl c).tile tl).store ∧ (t'.tile tl).accepted = f.ident :: t.accepted ∧
            (∀ j, counter (t'.tile tl) j = counter t j + if j = c.counter then 1 else 0) ∧
            ∀ u, tkey u ≠ tkey tl → t'.tile u = s.tile u))))

/-- DATA_FEED: the bytes of a lot enter the cellar of their vintage at their offset, and the lot is complete with its
last byte; one that repeats bytes of a complete lot is acknowledged, one that would change them is not; the window;
the bytes of an evaluation join its inputs; a message that fails its checks is answered with their code and places
nothing (R300, R404, R279). It rests on choices or readings of the model: log 56. -/
def Obligations.DataFeeds : Prop := ∀ (s : State) (h : DctHdr) (x : Session) (v lot off : Nat) (bs : List Byte) (env : Envelope),
  Turn s h x → s.inJob = true →
  let e := s.feedCheck h v lot off bs.length env
  let size := (s.stepProg.map (·.lotBytes)).getD 0
  (e = Err.ok → h.evalFlag = false → bs ≠ [] → s.committedV < v → v ≤ s.committedV + 2 →
    (∀ y, s.vint v = some y → lot ∉ y.done) →
    let held := ((s.vint v).map (fun y => lotBytesOf y lot)).getD []
    ∃ t, exec (.dataFeed h v lot off bs env) s = .next t ∧ Answered t h Err.ok ∧
      (t.vint v).map (fun y => lotBytesOf y lot) = some (putBytes held off bs) ∧
      (t.vint v).map (fun y => decide (lot ∈ y.done)) = some (decide ((putBytes held off bs).length = size)) ∧
      t.committedV = s.committedV ∧ t.tiles = s.tiles) ∧
  (∀ y, e = Err.ok → h.evalFlag = false → bs ≠ [] → s.power = PS.active → s.vint v = some y → lot ∈ y.done →
    ∃ t, exec (.dataFeed h v lot off bs env) s = .next t ∧ OnlyReplied s t ∧
      Answered t h (if sameBytes (lotBytesOf y lot) off bs then Err.ok else Err.digest)) ∧
  (off + bs.length ≤ size → lot < (s.stepProg.map (·.lots)).getD 0 → h.evalFlag = false → s.committedV ≠ noVintage →
    (v ≤ s.committedV → ∃ t, exec (.dataFeed h v lot off bs env) s = .next t ∧ Answered t h Err.range ∧ OnlyReplied s t) ∧
    (s.committedV + 2 < v → ∃ t, exec (.dataFeed h v lot off bs env) s = .next t ∧ Answered t h Err.busy ∧ OnlyReplied s t)) ∧
  (e = Err.ok → h.evalFlag = true → ∃ t, exec (.dataFeed h v lot off bs env) s = .next t ∧ Answered t h Err.ok ∧
    t.job = { s.job with evalBytes := putBytes s.job.evalBytes (lot * 2 ^ 32 + off) bs } ∧ t.tiles = s.tiles) ∧
  (e ≠ Err.ok → ∃ t, exec (.dataFeed h v lot off bs env) s = .next t ∧ Answered t h e ∧ OnlyReplied s t)

/-! ## Racking (R302, R303) -/

/-- RACK_PAGE, RACK_DIGEST and RACK_ACK. It rests on choices or readings of the model: log 34. -/
def Obligations.Racking : Prop := ∀ (s : State) (b p : Nat), s.alive = true → p < 8 →
  (∀ page bs a, s.partFenced p = false → page < s.statePages b p → s.mirrorAt b p = some a →
    ∃ t, exec (.rackPage b p page bs) s = .next t ∧ t = { s with mem := t.mem, mir := t.mir } ∧
      t.mem = Memory.writeN s.mem (a + page * pageBytes) (bs.take pageBytes) ∧
      (getF t.mir.rackStatus (s.inField b)).testBit p = false) ∧
  (∀ page bs, s.partFenced p = true ∨ s.statePages b p ≤ page → exec (.rackPage b p page bs) s = .next s) ∧
  (∀ v d a, s.partFenced p = false → s.mirrorAt b p = some a →
    (Config.sha384 (Memory.readN s.mem a (s.statePages b p * pageBytes)) = d → ∃ t, exec (.rackDigest b p v d) s = .next t ∧
      t = { s with mir := t.mir, out := .rackAck b p v :: s.out } ∧ (getF t.mir.rackStatus (s.inField b)).testBit p = true) ∧
    (Config.sha384 (Memory.readN s.mem a (s.statePages b p * pageBytes)) ≠ d → ∃ t, exec (.rackDigest b p v d) s = .next t ∧
      t = { s with mir := t.mir } ∧ (getF t.mir.rackStatus (s.inField b)).testBit p = false)) ∧
  (b ∈ s.buddies → (getF s.mir.rackStatus (s.ackField b)).testBit p = false →
    (∃ t, exec (.rackAck b p s.committedV true) s = .next t ∧ (getF t.mir.rackStatus (s.ackField b)).testBit p = true ∧
      t = { s with mir := t.mir, step := t.step, parts := t.parts, job := t.job }) ∧
    (getF s.step.ctl stepCtl_replayMax < Sparse.get 0 s.job.rackMismatch p + 1 →
      ∃ t, exec (.rackAck b p s.committedV false) s = .next t ∧
        t.job.bits.testBit stepCheckStatus_rackDigest.lo = true ∧ t.out = s.out)) ∧
  (∀ v ok, v ≠ s.committedV → exec (.rackAck b p v ok) s = .next s)

/-! ## Ledger and decisions (R318, R400, R409) -/

/-- LEDGER_PULL reads the slots it names and takes them out of the undelivered ones; an answer to a decision request is
checked against the request; a deadline decides what the host has not. -/
def Obligations.LedgerAndDecisions : Prop := ∀ (s : State) (h : DctHdr) (x : Session), Turn s h x →
  (∀ p n first, s.ledgerCheck p n first = Err.ok →
    ∃ t, exec (.ledgerPull h p n first) s = .next t ∧ Answered t h Err.ok ∧
      Replied t h ((List.range n).flatMap (fun i => slotWords (s.part p).ledger (first + i))) [] ∧
      (t.part p).ledger.undelivered = (s.part p).ledger.undelivered.filter (fun i => decide (i < first ∨ first + n ≤ i)) ∧
      (t.part p).ledger.recs = (s.part p).ledger.recs ∧ (∀ q ≠ p, t.part q = s.part q)) ∧
  (∀ p n first, s.ledgerCheck p n first ≠ Err.ok →
    ∃ t, exec (.ledgerPull h p n first) s = .next t ∧ Answered t h (s.ledgerCheck p n first) ∧ OnlyReplied s t) ∧
  (∀ id a w, s.inJob = true →
    (s.decisionOf id = none → ∃ t, exec (.decisionAns h id a w) s = .next t ∧ Answered t h Err.range ∧ OnlyReplied s t) ∧
    (∀ d, s.decisionOf id = some d →
      (d.st = 1 → ∃ t, exec (.decisionAns h id a w) s = .next t ∧ Answered t h Err.busy ∧ OnlyReplied s t) ∧
      (d.st = 2 ∨ (d.st = 0 ∧ d.deadline ≤ s.now) → ∃ t, exec (.decisionAns h id a w) s = .next t ∧ Answered t h Err.timeout ∧ OnlyReplied s t) ∧
      (d.st = 0 → s.now < d.deadline → s.permitted d a w = false →
        ∃ t, exec (.decisionAns h id a w) s = .next t ∧ Answered t h Err.range ∧ OnlyReplied s t) ∧
      (d.st = 0 → s.now < d.deadline → d.duty = 0 → a = 1 → ∃ t, exec (.decisionAns h id a w) s = .next t ∧ Answered t h Err.ok ∧
        (t.decisionOf id).map (·.st) = some 1 ∧ t.fd = s.fd))) ∧
  (∀ id d, s.decisionOf id = some d → d.st = 0 → s.now < d.deadline → exec (.dutyDeadlineExpiry id) s = .next s) ∧
  (∀ id d, s.decisionOf id = some d → d.st = 0 → d.deadline ≤ s.now →
    (d.duty = 3 → ∃ t, exec (.dutyDeadlineExpiry id) s = .next t ∧ (t.decisionOf id).map (fun d => (d.st, d.deadline)) = some (0, s.deadline)) ∧
    (d.duty = 0 → s.isFenced d.arg = false → ∃ t, exec (.dutyDeadlineExpiry id) s = .next t ∧
      (t.decisionOf id).map (·.st) = some 2 ∧ t.isFenced d.arg = true))

/-! ## Checkpoint streams (R355 to R358) -/

/-- CHECKPOINT_OBJECT_ACK, CHECKPOINT_OBJECT_TIMEOUT, CHECKPOINT_DEADLINE and MANIFEST_WRITE: an object is done when its
endpoint names the digest of its stored bytes, goes again to the next endpoint from chunk 0, or fails; the manifest names every
object and shard with its digest, and the recipes and the seed (R173, R351, R353, R355 to R358, R360). It rests on choices or
readings of the model: logs 70, 84. -/
def Obligations.Checkpoints : Prop := ∀ (s : State) (c : Ckpt), s.alive = true → s.job.ckpt = some c →
  (∀ p x, s.streamOf p = some x → ∃ t, exec (.checkpointObjectAck p (s.objDigest c.v p)) s = .next t ∧
    (∀ c', t.job.ckpt = some c' → ∀ y ∈ c'.streams, y.p = p → y.done = true) ∧ t.tiles = s.tiles ∧ t.mem = s.mem) ∧
  (∀ p d, s.streamOf p = none ∨ d ≠ s.objDigest c.v p → exec (.checkpointObjectAck p d) s = .next s) ∧
  (∀ p x, s.streamOf p = some x → x.refused + 1 < (s.ckptItem.map (·.endpoints)).getD 0 →
    let e := (x.endpoint + 1) % (s.ckptItem.map (·.endpoints)).getD 0
    ∃ t, exec (.checkpointObjectTimeout p) s = .next t ∧ t = { s with job := t.job, out := t.out } ∧
      t.out = ((s.storedChunks c.v p).mapIdx (fun i b => Msg.object (s.objName c.v p) e i b)).reverse ++ s.out ∧
      ∀ c', t.job.ckpt = some c' → ∀ y ∈ c'.streams, y.p = p → y.endpoint = e ∧ y.refused = x.refused + 1) ∧
  (∀ p x, s.streamOf p = some x → (s.ckptItem.map (·.endpoints)).getD 0 ≤ x.refused + 1 →
    ∃ t, exec (.checkpointObjectTimeout p) s = .next t ∧
      (∀ c', t.job.ckpt = some c' → ∀ y ∈ c'.streams, y.p = p → y.failed = true)) ∧
  (s.streaming = true → c.startAt + (s.ckptItem.map (·.deadlineMs)).getD 0 * msTicks ≤ s.now →
    ∃ t, exec .checkpointDeadline s = .next t ∧ t.streaming = false ∧
      (∀ c', t.job.ckpt = some c' → ∀ y ∈ c'.streams, y.done = true ∨ y.failed = true)) ∧
  (s.now < c.startAt + (s.ckptItem.map (·.deadlineMs)).getD 0 * msTicks → exec .checkpointDeadline s = .next s) ∧
  (s.isJobHead = true → c.sent = false → s.streaming = false → (∀ y ∈ c.streams, y.failed = false) → s.allWritten c = true →
    ∃ t, exec .manifestWrite s = .next t ∧ t.job.ckpt = some { c with sent := true } ∧
      ((∃ z ∈ s.sessions, z.isOpen = true ∧ z.fromHost = false) → t.out.head? = some (.manifest (s.manifestOf c)))) ∧
  (s.manifestOf c).vintage = c.v ∧ (s.manifestOf c).gen = s.job.gen ∧
  (∀ x ∈ s.ownObjects, x ∈ (s.manifestOf c).objects ∧ x.2.2 = Config.sha384 (s.storedChunks c.v x.2.1).flatten) ∧
  (∀ im, s.img.cur = some im → (s.manifestOf c).recipes = im.img.recipes ∧ (s.manifestOf c).seed = im.hdr.jobSeed) ∧
  (c.sent = true → exec .manifestWrite s = .next s)

/-! ## Image load (R261 to R267) -/

/-- IMAGE_LOAD keeps the bytes of a message that passes its checks and changes nothing for one that does not;
IMAGE_COMMIT sets up the job, or keeps state and committed vintage in a re-trellis, and answers the final message. It
rests on choices or readings of the model: log 6. -/
def Obligations.ImageLoading : Prop := ∀ (s : State), Canonical s →
  (∀ h x off bs inp, Turn s h x → s.inState [DS.ready, DS.loaded, DS.paused] = true →
    (s.loadCheck h.session off bs ≠ Err.ok →
      ∃ t, exec (.imageLoad h off bs inp) s = .next t ∧ Answered t h (s.loadCheck h.session off bs) ∧ OnlyReplied s t) ∧
    (∀ l, s.loadCheck h.session off bs = Err.ok → s.loadFor h.session off bs = some l → h.final = false →
      l.devicesOk = true ∨ State.devicesMatch { l with bytes := State.bytesWith l off bs } = false →
      ∃ t, exec (.imageLoad h off bs inp) s = .next t ∧ Answered t h Err.ok ∧
        t.img = { s.img with load := some { l with bytes := State.bytesWith l off bs } } ∧ t.tiles = s.tiles ∧ t.job = s.job)) ∧
  (∀ h x off bs inp, Turn s h x → s.inState [DS.ready, DS.loaded, DS.paused] = false →
    ∃ t, exec (.imageLoad h off bs inp) s = .next t ∧ Answered t h Err.state ∧ OnlyReplied s t) ∧
  (∀ l q x d, s.img.load = some l → l.finalSeq = some q → l.inp = some x → s.alive = true →
    (s.takenImage x.img).devices.find? (fun d => d.id == s.devId) = some d →
    (s.devState = DS.ready ∨ s.devState = DS.loaded →
      ∃ t, exec .imageCommit s = .next t ∧ t.devState = DS.loaded ∧ t.img.load = none ∧
        (t.img.cur.map (fun c => (c.hdr, c.img))) = some (hdrOf l.hdrBytes, s.takenImage x.img) ∧
        t.committedV = 0 ∧ t.openVintage = noVintage ∧ t.mem = [] ∧ t.sec.jobKey = some s.sec.draws ∧
        t.job = { Job.reset with ledgerSeq := t.job.ledgerSeq } ∧ flagF t.mir.buddyId buddyId_b1Valid = d.b1.isSome ∧
        ∃ r, t.out.head? = some (.dct l.session r) ∧ r.seq = q ∧ r.status = Err.ok) ∧
    (s.devState = DS.paused →
      ∃ t, exec .imageCommit s = .next t ∧ t.devState = DS.paused ∧ t.img.load = none ∧ t.committedV = s.committedV ∧
        t.openVintage = noVintage ∧ t.mem = s.mem ∧ t.sec.jobKey = s.sec.jobKey)) ∧
  (s.img.load = none → exec .imageCommit s = .next s)

/-! ## Sessions and keys (R395, R396, R416 to R423) -/

/-- HELLO makes a pending session, FINISH opens it, and the time-outs close what is pending for a second or idle. -/
def Obligations.Sessions : Prop := ∀ (s : State) (h : DctHdr),
  (∀ x : HelloIn, Bare s h → x.bytes = 1904 →
    (∀ l, s.boot.applied = some l → l.ownerHash = x.ownerHash → x.sigOk = true → s.sessions.length < 8 →
      ∃ t, exec (.hello h x) s = .next t ∧ LastReply t h Err.ok ∧ ∃ y ∈ t.sessions, (∀ z ∈ s.sessions, z.num ≠ y.num) ∧
        1 ≤ y.num ∧ y.num ≤ 8 ∧ y.isOpen = false ∧ y.t = x.t ∧ y.next = 1 ∧ y.since = s.clock) ∧
    (∀ l, s.boot.applied = some l → l.ownerHash ≠ x.ownerHash ∨ x.sigOk = false →
      ∃ t, exec (.hello h x) s = .next t ∧ LastReply t h Err.auth ∧ t.sessions.length = s.sessions.length) ∧
    (∀ l, s.boot.applied = some l → l.ownerHash = x.ownerHash → x.sigOk = true → 8 ≤ s.sessions.length →
      ∃ t, exec (.hello h x) s = .next t ∧ LastReply t h Err.busy ∧ t.sessions.length = s.sessions.length)) ∧
  (∀ x k, NextOf s h x → x.isOpen = false →
    (x.t = k → ∃ t, exec (.finish h k) s = .next t ∧ Answered t h Err.ok ∧ (t.session h.session).map (·.isOpen) = some true ∧
      Replied t h [BitVec.ofNat 64 (h.session + s.slotMask * 2 ^ 32)] []) ∧
    (x.t ≠ k → ∃ t, exec (.finish h k) s = .next t ∧ LastReply t h Err.auth ∧ t.session h.session = none)) ∧
  (∀ n y, s.session n = some y → s.alive = true → y.isOpen = false → y.since + secTicks ≤ s.clock →
    ∃ t, exec (.pendingSessionTimeout n) s = .next t ∧ t.session n = none ∧ (∀ m ≠ n, t.session m = s.session m)) ∧
  (∀ n y, s.session n = some y → y.isOpen = true ∨ s.clock < y.since + secTicks → exec (.pendingSessionTimeout n) s = .next s) ∧
  (∀ n y, s.session n = some y → s.alive = true → y.isOpen = true → y.lastAt + getF s.dctCfg dctCfg_idleS * secTicks ≤ s.clock →
    ∃ t, exec (.sessionIdleTimeout n) s = .next t ∧ t.session n = none ∧ (∀ m ≠ n, t.session m = s.session m)) ∧
  (∀ n y, s.session n = some y → y.isOpen = false ∨ s.clock < y.lastAt + getF s.dctCfg dctCfg_idleS * secTicks →
    exec (.sessionIdleTimeout n) s = .next s)

/-- WRAPPED loads a key slot and ERASE erases slots, at once outside RUNNING; in RUNNING they wait, unanswered, for the
boundary (R422, R423). The sealing pair is drawn anew at each entry to ROOTED and by seal_renew, which erases slots 1 to
15; a key wrapped to an earlier pair does not unwrap (R421). -/
def Obligations.KeySlots : Prop := ∀ (s : State),
  (∀ (h : DctHdr) (x : Session), Turn s h x →
    (∀ w : WrapIn, w.slot ≤ 15 → w.unwraps = true → w.sealGen = s.sec.sealGen →
      (s.devState ≠ DS.running → ∃ t, exec (.wrapped h w) s = .next t ∧ Answered t h Err.ok ∧
        t.sec.slots = (w.slot, { keyId := w.keyId, key := w.key }) :: s.sec.slots.filter (fun y => y.1 != w.slot) ∧
        t.sec = { s.sec with slots := t.sec.slots, slotStatus := t.sec.slotStatus }) ∧
      (s.devState = DS.running → ∃ t, exec (.wrapped h w) s = .next t ∧ t.out = s.out ∧
        t.sec = { s.sec with deferred := { mask := 2 ^ w.slot, load := some { keyId := w.keyId, key := w.key }, session := h.session, seq := h.seq } :: s.sec.deferred } ∧
        (t.session h.session).map (·.executing) = some true)) ∧
    (∀ w : WrapIn, w.slot ≤ 15 → w.unwraps = false ∨ w.sealGen ≠ s.sec.sealGen →
      ∃ t, exec (.wrapped h w) s = .next t ∧ Answered t h Err.auth ∧ OnlyReplied s t) ∧
    (∀ w : WrapIn, 15 < w.slot → ∃ t, exec (.wrapped h w) s = .next t ∧ Answered t h Err.range ∧ OnlyReplied s t) ∧
    (∀ m, m % 2 = 0 ∨ s.streaming = false → s.devState ≠ DS.running →
      ∃ t, exec (.erase h m) s = .next t ∧ Answered t h Err.ok ∧ t.sec.slots = s.sec.slots.filter (fun y => !(m % 65536).testBit y.1)) ∧
    (∀ m, m % 2 = 1 → s.streaming = true → ∃ t, exec (.erase h m) s = .next t ∧ Answered t h Err.busy ∧ OnlyReplied s t)) ∧
  (∀ ms, s.alive = true → s.boot.rooted = false → s.inStage 1 = true → ms ≤ 150 → fwOk s.flash s.flash.fwA = true ∨ fwOk s.flash s.flash.fwB = true →
    ∃ t, exec (.stage1FirmwareAndLicence ms) s = .next t ∧ t.devState = DS.rooted ∧ s.sec.draws ≤ t.sec.sealGen ∧ t.sec.sealGen < t.sec.draws) ∧
  (∀ fw : Firmware, s.recovering = true → s.i3c.recovery.isSome = true → fw.verifies = true → s.flash.fuseSvn ≤ fw.svn →
    ∃ t, exec (.recoveryEnd fw) s = .next t ∧ t.devState = DS.rooted ∧ s.sec.draws ≤ t.sec.sealGen ∧ t.sec.sealGen < t.sec.draws) ∧
  (∀ who v, Accepted s (.sealRenew who v) .attestCtl → ∃ t, exec (.sealRenew who v) s = .next t ∧ s.sec.draws ≤ t.sec.sealGen ∧
    t.sec.sealGen < t.sec.draws ∧ t.sec.slots = s.sec.slots.filter (fun y => !(1 ≤ y.1 && y.1 ≤ 15)))

/-! ## Attestation, licences, tokens (R419, R420, R428, R429) -/

/-- The attestation messages read what the device holds; a licence that verifies, names this device and is newer is
stored; a token that verifies erases every key and unlocks. It rests on choices or readings of the model: logs 4, 15.
-/
def Obligations.Security : Prop := ∀ (s : State) (h : DctHdr) (x : Session), Turn s h x →
  (∀ n, ∃ t, exec (.attestReport h n) s = .next t ∧ Answered t h Err.ok ∧
    t.sec.report = some { bytes := s.makeReport n x.t, nonce := n, sigLen := sigBytes } ∧
    Replied t h [BitVec.ofNat 64 reportBytes] (digestBytes (Config.sha384 (s.makeReport n x.t)))) ∧
  (∀ r c off, s.sec.report = some r → c ≠ 0 → off + c ≤ reportBytes + sigBytes → s.fitsReply c = true →
    ∃ t, exec (.attestReadReport h c off) s = .next t ∧ OnlyReplied s t ∧
      Replied t h [] (((r.bytes ++ secretBytes (2000000 + r.nonce) r.sigLen).drop off).take c)) ∧
  (∀ c off, s.sec.report = none → c ≠ 0 → ∃ t, exec (.attestReadReport h c off) s = .next t ∧ Answered t h Err.absent ∧ OnlyReplied s t) ∧
  (∀ c off, c ≠ 0 → off + c ≤ chainBytes → s.fitsReply c = true →
    ∃ t, exec (.attestReadChain h c off) s = .next t ∧ OnlyReplied s t ∧ Replied t h [] (((secretBytes 5 chainBytes).drop off).take c)) ∧
  (∀ off bs l, bs ≠ [] → off + bs.length ≤ uploadBytes →
    (h.final = false → ∃ t, exec (.licence h off bs l) s = .next t ∧ Answered t h Err.ok ∧
      t.sec = { s.sec with licBuf := Memory.writeN s.sec.licBuf off bs } ∧ t.flash = s.flash) ∧
    (h.final = true → l.verifies = true → l.serial = s.flash.serial → (∀ k, s.flash.licence = some k → k.issue < l.issue) →
      ∃ t, exec (.licence h off bs l) s = .next t ∧ Answered t h Err.ok ∧ t.flash.licence = some l ∧ t.sec.licBuf = []) ∧
    (h.final = true → l.verifies = false ∨ l.serial ≠ s.flash.serial →
      ∃ t, exec (.licence h off bs l) s = .next t ∧ Answered t h Err.auth ∧ t.flash = s.flash)) ∧
  (∀ off bs n ok, bs ≠ [] → off + bs.length ≤ uploadBytes → h.final = true →
    (s.devState = DS.ready → ok = true → s.sec.relocked = false → s.sec.report.map (·.nonce) = some n →
      ∃ t, exec (.debugToken h off bs n ok) s = .next t ∧ Answered t h Err.ok ∧ getF t.sec.debugLock debugLock_state = 1 ∧
        t.sec.jobKey = none ∧ t.sec.bootKey = none ∧ t.mem = [] ∧ (∀ k ∈ t.sec.slots, 16 ≤ k.1)) ∧
    (s.devState ≠ DS.ready → ∃ t, exec (.debugToken h off bs n ok) s = .next t ∧ Answered t h Err.state ∧
      t.sec = { s.sec with tokBuf := [] }) ∧
    (s.devState = DS.ready → ok = false ∨ s.sec.relocked = true → ∃ t, exec (.debugToken h off bs n ok) s = .next t ∧
      Answered t h Err.auth ∧ t.sec = { s.sec with tokBuf := [] }))

/-! ## REG_READ, REG_WRITE, BULK and replies (R399 to R405) -/

/-- REG_WRITE applies its pairs in order; the first that fails ends the message, the NAK carries its index, and the pairs
before it stand. REG_READ answers with the values, or stops at the first address that fails; an unmapped one reads 0 and
does not fail (R403). -/
def Obligations.RegisterMessages : Prop := ∀ (s : State) (h : DctHdr) (x : Session), Turn s h x →
  (∀ ps s1, WritesTo (.dct h.session) (heard s x) ps s1 → ∃ t, exec (.regWrite h ps) s = .next t ∧ LastReply t h Err.ok ∧
    t = { s1 with out := t.out, sessions := t.sessions, released := t.released }) ∧
  (∀ ps a v qs s1 s2 e, e ≠ Err.ok → WritesTo (.dct h.session) (heard s x) ps s1 →
    s1.writeReg (.dct h.session) a.toNat v (BitVec.allOnes 64) = (s2, e) →
    ∃ t, exec (.regWrite h (ps ++ (a, v) :: qs)) s = .next t ∧
      t = { s2 with out := t.out, sessions := t.sessions, released := t.released, dev := t.dev } ∧
      t.dev = { s2.dev with errLast := t.dev.errLast } ∧
      ∃ r, t.out.head? = some (.dct h.session r) ∧ r.seq = h.seq ∧ r.status = e ∧ r.payload = [BitVec.ofNat 64 ps.length]) ∧
  (∀ as, s.fitsReply (8 * as.length) = false → ∃ t, exec (.regRead h as) s = .next t ∧ Answered t h Err.length ∧ OnlyReplied s t) ∧
  (∀ a v s1, s.fitsReply 8 = true → (heard s x).readReg (.dct h.session) a.toNat = (s1, .ok v) →
    ∃ t, exec (.regRead h [a]) s = .next t ∧ Replied t h [v] [] ∧ t = { s1 with out := t.out, sessions := t.sessions, released := t.released }) ∧
  (∀ a, s.fitsReply 8 = true → a.toNat % 8 = 0 → s.regAt a.toNat = none →
    ∃ t, exec (.regRead h [a]) s = .next t ∧ Replied t h [0] [] ∧ OnlyReplied s t) ∧
  (∀ a as e s1, s.fitsReply (8 * (as.length + 1)) = true → e ≠ Err.ok → (heard s x).readReg (.dct h.session) a.toNat = (s1, .error e) →
    ∃ t, exec (.regRead h (a :: as)) s = .next t ∧ t = { s1 with out := t.out, sessions := t.sessions, released := t.released, dev := t.dev } ∧
      ∃ r, t.out.head? = some (.dct h.session r) ∧ r.seq = h.seq ∧ r.status = e ∧ r.payload = [0])

/-- An address that is not a multiple of 8 fails with ERR_RANGE, over DCT and over I3C; a write that acts on no field
completes with no effect, and no write acts on an RO bit or through a 0 on a W1C or W1S bit; a register that the image
writes refuses writes while an image load ends (R14, R494, R498). -/
def Obligations.RegisterAccess : Prop := ∀ (s : State) (h : DctHdr) (x : Session), Turn s h x →
  (∀ a as v, a.toNat % 8 ≠ 0 → s.fitsReply (8 * (as.length + 1)) = true →
    (∃ t, exec (.regRead h (a :: as)) s = .next t ∧ Answered t h Err.range ∧ OnlyReplied s t) ∧
    (∀ ps, ∃ t, exec (.regWrite h ((a, v) :: ps)) s = .next t ∧ Answered t h Err.range ∧ OnlyReplied s t) ∧
    (∃ t, exec (.i3cRegisterWrite a v) s = .next t ∧ t = { s with dev := { s.dev with errLast := t.dev.errLast } } ∧
      getF t.dev.errLast errLast_code = Err.range ∧ getF t.dev.errLast errLast_source = 8)) ∧
  (∀ a v r, a.toNat % 8 = 0 → s.regAt a.toNat = some r → s.innerErr r true = Err.ok → r.fromImage = false ∨ s.img.load.bind (·.finalSeq) = none →
    r.acted (s.regValue (s.selOf (.dct h.session) a.toNat) r) v (BitVec.allOnes 64) = 0 →
    ∃ t, exec (.regWrite h [(a, v)]) s = .next t ∧ Answered t h Err.ok ∧ OnlyReplied s t) ∧
  (∀ (r : Reg) cur v, r.acted cur v (BitVec.allOnes 64) &&& ~~~(r.rw ||| r.wo ||| r.w1c ||| r.w1s) = 0 ∧
    r.acted cur v (BitVec.allOnes 64) &&& (r.w1c ||| r.w1s) &&& ~~~r.rw &&& ~~~v = 0) ∧
  (∀ a v r q, a.toNat % 8 = 0 → s.regAt a.toNat = some r → s.innerErr r true = Err.ok → r.fromImage = true →
    s.img.load.bind (·.finalSeq) = some q → ∃ t, exec (.regWrite h [(a, v)]) s = .next t ∧ Answered t h Err.busy ∧ OnlyReplied s t)

/-- Messages of a session count from 1 in each direction and run strictly in the order of their numbers: an answered one
is answered again from the cache and counted, without running again; one that still runs, and a second copy of one held,
is counted; up to 64 ahead are held, those beyond are dropped; a held one is released when its turn comes; the cache keeps
64 replies (R398). -/
def Obligations.MessageOrder : Prop := ∀ (s : State) (c : Instr) (h : DctHdr) (x : Session), messageOf c = some h →
  s.servesDct = true → h.wellSized = true → h.session ≠ 0 → s.session h.session = some x → x.isOpen = true → h.tagOk = true →
  h.seq < seqLimit →
  (∀ r, h.seq < x.next → x.replies.find? (fun r => r.seq == h.seq) = some r →
    exec c s = .next (((heard s x).send (.dct x.num r)).bumpDct dctCounters_dup)) ∧
  (h.seq < x.next ∨ (h.seq = x.next ∧ x.executing = true) → x.replies.find? (fun r => r.seq == h.seq) = none →
    exec c s = .next ((heard s x).bumpDct dctCounters_dup)) ∧
  (x.next < h.seq → h.seq ≤ x.next + 64 → (∀ k ∈ x.held, k.1 ≠ h.seq) →
    exec c s = .next ((heard s x).onSession x.num (fun y => { y with held := (h.seq, c) :: y.held }))) ∧
  (x.next < h.seq → h.seq ≤ x.next + 64 → (∃ k ∈ x.held, k.1 = h.seq) → exec c s = .next ((heard s x).bumpDct dctCounters_dup)) ∧
  (x.next + 64 < h.seq → exec c s = .next ((heard s x).bumpDct dctCounters_dropped)) ∧
  (c = .regWrite h [] → Turn s h x → ∃ t y, exec c s = .next t ∧ Answered t h Err.ok ∧ t.session h.session = some y ∧ y.replies.length ≤ 64 ∧
    (y.replies.drop 1) = x.replies.take 63 ∧
    (∀ k, x.held.find? (fun k => k.1 == h.seq + 1) = some k → t.released = s.released ++ [k.2] ∧ ∀ j ∈ y.held, j.1 ≠ h.seq + 1)) ∧
  (∀ g i, Bare s g → i.bytes = 1904 → s.boot.applied.map (·.ownerHash) = some i.ownerHash → i.sigOk = true →
    s.sessions.length < 8 → ∃ t, exec (.hello g i) s = .next t ∧ ∃ y ∈ t.sessions,
      (∀ z ∈ s.sessions, z.num ≠ y.num) ∧ y.next = 1 ∧ y.txNext = 1 ∧ y.replies = [] ∧ y.held = []) ∧
  (∀ m ev, (s.sendTo x m ev).unacked.head?.map (·.seq) = some x.txNext ∧
    ((s.sendTo x m ev).session x.num).map (·.txNext) = some (x.txNext + 1))

/-- BULK_WRITE and BULK_READ reach HBM through the page map; ACK and NAK end the retransmission of the message they
answer; EVENT_RETRANSMIT sends it again until its tries are spent (R400, R405, R436). -/
def Obligations.BulkAndReplies : Prop := ∀ (s : State) (h : DctHdr) (x : Session), Turn s h x →
  (∀ a off bs env, s.inJob = true → bs ≠ [] → s.bulkCheck true false (a + off) bs.length = Err.ok →
    (s.partRefuses ((a + off) / windowBytes) = Err.ok → s.envelopeErr env = Err.ok →
      ∃ t, exec (.bulkWrite h false a off bs env) s = .next t ∧ Answered t h Err.ok ∧ t.mem = (s.hbmWrite (a + off) bs).mem ∧
        t.tiles = s.tiles) ∧
    (s.partRefuses ((a + off) / windowBytes) ≠ Err.ok → ∃ t, exec (.bulkWrite h false a off bs env) s = .next t ∧
      Answered t h (s.partRefuses ((a + off) / windowBytes)) ∧ t.mem = s.mem)) ∧
  (∀ a off n k, s.inJob = true → n ≠ 0 → s.sealed = false → s.bulkCheck false false (a + off) n = Err.ok →
    s.bulkAt (a + off) ≠ some .captures → s.partRefuses ((a + off) / windowBytes) = Err.ok →
    ∃ t, exec (.bulkRead h false a off n k) s = .next t ∧ Answered t h Err.ok ∧ Replied t h [] (s.hbmRead false (a + off) n) ∧
      t.mem = s.mem) ∧
  (∀ u q c, s.unacked.find? (fun z => z.session == x.num && z.seq == q) = some u →
    ((∀ m, u.msg ≠ .manifest m) → ∃ t, exec (.ack h q) s = .next t ∧
      t = { s with sessions := t.sessions, unacked := s.unacked.filter (fun v => v.session != x.num || v.seq != q) }) ∧
    (∃ t, exec (.nak h q c) s = .next t ∧
      t = { s with sessions := t.sessions, unacked := s.unacked.filter (fun v => v.session != x.num || v.seq != q) })) ∧
  (∀ n q u, s.unacked.find? (fun z => z.session == n && z.seq == q) = some u → State.retransmits u.msg = true →
    u.sentAt + getF s.dctCfg dctCfg_rtoMs * msTicks ≤ s.clock →
    (u.tries < getF s.dctCfg dctCfg_retries → ∃ t, exec (.eventRetransmit n q) s = .next t ∧ t.out = u.msg :: s.out ∧
      t = { s with out := t.out, unacked := t.unacked } ∧ t.unacked.length = s.unacked.length) ∧
    (getF s.dctCfg dctCfg_retries ≤ u.tries → ∃ t, exec (.eventRetransmit n q) s = .next t ∧ t.out = s.out ∧
      t.unacked = s.unacked.filter (fun v => v.session != n || v.seq != q))) ∧
  (∀ n q u, s.unacked.find? (fun z => z.session == n && z.seq == q) = some u →
    s.clock < u.sentAt + getF s.dctCfg dctCfg_rtoMs * msTicks → exec (.eventRetransmit n q) s = .next s)

/-! ## Register writes (R12, R25, R492 to R509) -/

/-- Every command that is one register write: accepted, it stores what the register's RW fields take and starts what
the register starts; refused, it changes nothing but ERR_LAST. The same over I3C on the bits that the bus may write.
It rests on choices or readings of the model: log 40. -/
def Obligations.RegisterCommands : Prop := ∀ (s : State),
  (∀ c who a v r m, asWrite c = some (who, a, v) → Reaches s who a r v m →
    (s.writeErr r v m = Err.ok → exec c s = .next (s.writeDone who a r v m (BitVec.allOnes 64))) ∧
    (s.writeErr r v m ≠ Err.ok → exec c s = .next (s.errRecord (s.writeErr r v m) Src.dct))) ∧
  (∀ a v r allow m, s.alive = true → s.boot.rooted = true → a.toNat % 8 = 0 → s.regAt a.toNat = some r → Reg.i3cReach r = some allow →
    allow ≠ 0 → s.innerErr r true = Err.ok → r.fromImage = false ∨ s.img.load.bind (·.finalSeq) = none →
    r.acted (s.regValue (s.selOf .i3c a.toNat) r) v allow = m → m ≠ 0 →
    (s.writeErr r v m = Err.ok → exec (.i3cRegisterWrite a v) s = .next (s.writeDone .i3c a.toNat r v m allow)) ∧
    (s.writeErr r v m ≠ Err.ok → exec (.i3cRegisterWrite a v) s = .next (s.errRecord (s.writeErr r v m) Src.i3c))) ∧
  (∀ a v r, a.toNat % 8 = 0 → s.regAt a.toNat = some r → Reg.i3cReach r = none → exec (.i3cRegisterWrite a v) s = .next s)

/-- What the accepted register writes of tiles, of the step, of security and of the device do. -/
def Obligations.RegisterEffects : Prop := ∀ (s : State) (who : Who) (v : Word), Canonical s →
  (∀ tl, Accepted s (.bistStart who tl v) (.tileCtl tl) → getF v tileCtl_bistMode ≠ 0 →
    let x := getF (s.tile tl).map tileMap_site
    ∃ t, exec (.bistStart who tl v) s = .next t ∧ t.site tl.p x = { s.site tl.p x with mode := getF v tileCtl_bistMode, running := true } ∧
      getF (t.tile tl).status tileStatus_bistResult = 3 ∧ getF (t.tile tl).status tileStatus_tileState = TS.bist ∧
      (t.tile tl).store = (s.tile tl).store ∧ ∀ u, tkey u ≠ tkey tl → t.tile u = s.tile u) ∧
  (∀ tl, Accepted s (.funcTableAccess who tl v) (.funcTable tl) → flagF v funcTable_wr = true → getF v funcTable_word < 4 →
    ∃ t, exec (.funcTableAccess who tl v) s = .next t ∧ (t.tile tl).store = (s.tile tl).store ∧
      Sparse.get 0 (t.tile tl).funcs (funcKey (getF v funcTable_table) (getF v funcTable_segment) (getF v funcTable_word)) =
        BitVec.ofNat 32 (getF v funcTable_data)) ∧
  (Accepted s (.evalReq who v) .stepCtl → ∃ t, exec (.evalReq who v) s = .next t ∧ getF t.step.ctl stepCtl_evalReq = 1 ∧
    t = { s with step := { s.step with ctl := t.step.ctl } }) ∧
  (Accepted s (.pauseReq who v) .stepCtl → ∃ t, exec (.pauseReq who v) s = .next t ∧ getF t.step.ctl stepCtl_pauseReq = 1 ∧
    t = { s with step := { s.step with ctl := t.step.ctl } }) ∧
  (Accepted s (.sealRenew who v) .attestCtl → ∃ t, exec (.sealRenew who v) s = .next t ∧ t.sec.sealGen = s.sec.draws ∧
    t.sec.draws = s.sec.draws + 1 ∧ t.sec.slots = s.sec.slots.filter (fun y => !Nat.testBit 0xfffe y.1)) ∧
  (Accepted s (.relock who v) .debugLock → ∃ t, exec (.relock who v) s = .next t ∧ t.sec.relocked = true ∧
    getF t.sec.debugLock debugLock_state = 0 ∧ t = { s with sec := { s.sec with relocked := true, debugLock := t.sec.debugLock } }) ∧
  (Accepted s (.devIdAssign who v) .devIdAssign → ∃ t, exec (.devIdAssign who v) s = .next t ∧ t.devId = getF v devIdAssign_newId ∧
    getF t.dev.id devId_assigned = 1 ∧ t = { s with dev := { s.dev with id := t.dev.id, idAssign := t.dev.idAssign } }) ∧
  (Accepted s (.softClear who v) .yieldSummary → ∃ t, exec (.softClear who v) s = .next t ∧ t.flash = { s.flash with softClear := true }) ∧
  (Accepted s (.retireClear who v) .rstCtl → flagF v rstCtl_compute = false → ∃ t, exec (.retireClear who v) s = .next t ∧
    t.flash = { s.flash with retireClear := true } ∧ t = { s with flash := t.flash, rst := { s.rst with ctl := t.rst.ctl } }) ∧
  (Accepted s (.dormantTableWrite who v) .dormantTable → flagF v dormantTable_wr = true → ∃ t, exec (.dormantTableWrite who v) s = .next t ∧
    Sparse.get 0 t.pow.table (getF v dormantTable_index) = v &&& 0xffffffffffc00000) ∧
  (Accepted s (.admitDevice who v) .graftCtl → ∃ t, exec (.admitDevice who v) s = .next t ∧ t.fd = { s.fd with admitting := true }) ∧
  (Accepted s (.planned who v) .graftCtl → flagF v graftCtl_auto = false → ∃ t, exec (.planned who v) s = .next t ∧
    t.out.head? = some (.wake (getF v graftCtl_spare) (getF v graftCtl_target) s.time.epoch (-s.time.offset).toNat)) ∧
  (Accepted s (.hostFence who v) .graftCtl → s.asks 0 = false → (∀ d ∈ s.pendingOn 0, d.arg ≠ getF v graftCtl_target) →
    ∃ t, exec (.hostFence who v) s = .next t ∧ t.isFenced (getF v graftCtl_target) = true)

/-! ## Fault domain (R323 to R345) -/

/-- BEAT_SEND, BEAT, BEAT_MISS, REPORT, REPORT_WAIT_EXPIRY and SELF_FAIL; a fenced device is fenced once: later reports on
it are counted alone (R329). A spare woken for a graft is not missed (R326, R338): a reading of the model, log 87. -/
def Obligations.Heartbeats : Prop := ∀ (s : State) (id : Nat), s.linksUp = true → s.img.cur.isSome = true →
  (s.inJob = true → s.isSpareHere = false →
    exec .beatSend s = .next (s.send (.beat s.myHead s.now s.devState s.progressSum 0))) ∧
  (∀ ts st pr d, s.watches id = true → ∃ t, exec (.beat id ts ⟨st, d⟩ pr) s = .next t ∧
    t.beatOf id = some { id := id, lastTs := ts, misses := 0, st := st, image := d } ∧ t.tiles = s.tiles ∧ t.mem = s.mem) ∧
  (∀ ts st pr d, s.watches id = false → exec (.beat id ts ⟨st, d⟩ pr) s = .next s) ∧
  (s.inGraft id = true → exec (.beatMiss id) s = .next s) ∧
  (s.watches id = true → s.isFenced id = false → s.inGraft id = false → (∀ b, s.beatOf id = some b → b.lastTs + s.missHb * s.beatPeriod id ≤ s.now) →
    (s.heardMost id = false → s.isJobHead = false → ∃ t, exec (.beatMiss id) s = .next t ∧
      t.out = .noQuorum s.jobHead id :: s.out ∧ getF t.dev.errLast errLast_code = Err.timeout ∧ t.isFenced id = false) ∧
    (s.heardMost id = true → s.asks 0 = false → (∀ d ∈ s.pendingOn 0, d.arg ≠ id) →
      ∃ t, exec (.beatMiss id) s = .next t ∧ t.isFenced id = true ∧ ∃ m, t.out.head? = some (.fence m) ∧ m.fenced = id)) ∧
  (∀ b, s.beatOf id = some b → s.now < b.lastTs + s.missHb * s.beatPeriod id → exec (.beatMiss id) s = .next s) ∧
  (∀ rep ts, s.watches id = true → s.isFenced id = false →
    exec (.report rep id ts) s = .next (s.onFd (fun f => { f with
      accuses := State.withReport (s.accuseOf id) id rep ts :: f.accuses.filter (fun x => x.accused != id) }))) ∧
  (∀ a, s.accuseOf id = some a → s.watches id = true → s.quorum ≤ a.reporters.length → a.firstTs + msTicks ≤ s.now →
    ((∃ b, s.beatOf id = some b ∧ a.firstTs < b.lastTs) → exec (.reportWaitExpiry id) s =
      .next (s.onFd (fun f => { f with accuses := f.accuses.filter (fun x => x.accused != id) }))) ∧
    ((∀ b, s.beatOf id = some b → b.lastTs ≤ a.firstTs) → s.isFenced id = false → s.asks 0 = false →
      (∀ d ∈ s.pendingOn 0, d.arg ≠ id) → ∃ t, exec (.reportWaitExpiry id) s = .next t ∧ t.isFenced id = true)) ∧
  (∀ a, s.accuseOf id = some a → a.reporters.length < s.quorum ∨ s.now < a.firstTs + msTicks → exec (.reportWaitExpiry id) s = .next s) ∧
  (∀ ts cause, s.watches id = true → s.isFenced id = false → s.asks 0 = false → (∀ d ∈ s.pendingOn 0, d.arg ≠ id) →
    ∃ t, exec (.selfFail id ts cause) s = .next t ∧ t.isFenced id = true) ∧
  (s.isFenced id = true → s.watches id = true →
    (∀ rep ts, exec (.report rep id ts) s = .next (s.onFd (fun f => { f with
      fences := f.fences.map (fun y => if y.id = id then { y with reports := min (y.reports + 1) 0x3ff } else y) }))) ∧
    exec (.beatMiss id) s = .next s ∧ (∀ ts cause, exec (.selfFail id ts cause) s = .next s) ∧
    ∃ t, exec (.reportWaitExpiry id) s = .next t ∧ t.out = s.out ∧ t.fd.fences = s.fd.fences)

/-- FENCE of another device and of this one, once each: the list, the packets, QUARANTINE with every key erased (R331,
R332, R378, R423, R444). -/
def Obligations.Fences : Prop := ∀ (s : State) (m : FenceMsg), s.linksUp = true → s.img.cur.isSome = true →
  (m.fenced ∈ s.fd.sawFence → exec (.fence m) s = .next s) ∧
  (m.fenced ∉ s.fd.sawFence → m.fenced ≠ s.devId → ∃ t, exec (.fence m) s = .next t ∧ t.isFenced m.fenced = true ∧
    m.fenced ∈ t.fd.sawFence ∧ (∀ k ∈ t.fabric.held, k.pk.dst ≠ m.fenced ∧ k.pk.src ≠ m.fenced) ∧
    (s.portsTo m.fenced = [] ∨ (∃ n < 36, s.portActive n = true ∧ n ∉ s.portsTo m.fenced) → t.mem = s.mem)) ∧
  (m.fenced ∉ s.fd.sawFence → m.fenced = s.devId → m.reason ≠ FR.planned → s.devState ≠ DS.retired → s.rst.active = [] →
    ∃ t, exec (.fence m) s = .next t ∧ t.devState = DS.quarantine ∧ t.sec.jobKey = none ∧ t.mem = [] ∧ (∀ k ∈ t.sec.slots, 16 ≤ k.1)) ∧
  (m.fenced ∉ s.fd.sawFence → m.fenced = s.devId → m.reason ≠ FR.planned → s.devState ≠ DS.retired → s.rst.active ≠ [] →
    ∃ t, exec (.fence m) s = .next t ∧ t.devState = DS.fenced)

/-- WAKE, DEVICE_SELF_TEST, STATE_LOAD, TAKE_OVER, GRAFT_DONE and ADMISSION_TEST_COMPLETE (R324, R338 to R345). It
rests on choices or readings of the model: logs 38, 39. It rests on choices or readings of the model: logs 38, 39. -/
def Obligations.Grafts : Prop := ∀ (s : State), Canonical s → s.linksUp = true → s.img.cur.isSome = true →
  (∀ f e i, s.isSpareHere = true → s.devState = DS.dormant → (s.entry f).isSome = true →
    ∃ t, exec (.wake s.devId f e i) s = .next t ∧ t.devState = DS.loaded ∧
      t.fd.taken.map (fun g => (g.fenced, g.spare, g.phase, g.epoch, g.instant)) = some (f, some s.devId, GP.selfTest, e, i)) ∧
  (∀ sp f e i, sp ≠ s.devId → exec (.wake sp f e i) s = .next s) ∧
  (∀ g, s.fd.taken = some g → g.phase = GP.selfTest →
    (s.fd.selfFailed = none → ∃ t, exec (.deviceSelfTest [] true true) s = .next t ∧
      t.fd.taken = some { g with phase := GP.loading, source := s.firstSource g.fenced }) ∧
    (s.fd.selfFailed = none → ∃ t, exec (.deviceSelfTest [] false true) s = .next t ∧
      t.fd.taken = some { g with phase := GP.failed } ∧ t.out.head? = some (.selfFail s.myHead State.causeNoSpare))) ∧
  (∀ g p v pages d sc r b, s.fd.taken = some g → g.phase = GP.loading → p ∉ g.matched → s.roleOf g.fenced = some r →
    r.regions.find? (fun x => x.part == p && x.ty == .state) = some b →
    let bs := pages.flatMap (fun x => x.take pageBytes)
    (Config.sha384 bs = d → ∃ t, exec (.stateLoad p v pages d sc) s = .next t ∧ t.mem = Memory.writeN s.mem (partBase p + b.base) bs ∧
      t.fd.taken = some { g with matched := p :: g.matched, vintage := v, scales := g.scales ++ sc, phase := if g.matched.length = 7 then GP.takeOver else GP.loading }) ∧
    (Config.sha384 bs ≠ d → g.mismatches + 1 < getF s.step.ctl stepCtl_replayMax → ∃ t, exec (.stateLoad p v pages d sc) s = .next t ∧
      t.fd.taken = some { g with mismatches := g.mismatches + 1 } ∧ getF t.dev.errLast errLast_code = Err.digest)) ∧
  (∀ g a running, s.fd.taken = some g → flagF s.time.syncStatus tsSyncStatus_locked = false → exec (.takeOver a running) s = .next s) ∧
  (∀ g cur d a running, s.fd.taken = some g → g.phase = GP.takeOver → flagF s.time.syncStatus tsSyncStatus_locked = true →
    s.img.cur = some cur → cur.img.devices.find? (fun d => d.id == g.fenced) = some d → g.fenced < 2 ^ 16 → g.vintage < 2 ^ 48 →
    ∃ t, exec (.takeOver a running) s = .next t ∧ t.devId = g.fenced ∧ t.isSpareHere = false ∧ t.committedV = g.vintage ∧
      t.devState = (if running then DS.running else DS.paused) ∧ Msg.graftDone g.fenced s.devId g.source g.vintage ∈ t.out ∧
      t.time.epoch = g.epoch ∧ (∃ f ∈ t.fd.fences, f.id = g.fenced ∧ f.status = 1)) ∧
  (∀ n f so v, n ≠ s.devId → ∃ t, exec (.graftDone n f so v) s = .next t ∧ (∀ e ∈ t.fd.fences, e.id = n → e.status = 1) ∧
    f ∉ t.fd.spares ∧ n ∉ t.fd.sawFence ∧ t.mem = s.mem) ∧
  (∀ f so v, exec (.graftDone s.devId f so v) s = .next s) ∧
  (s.fd.admitting = true → s.fd.selfFailed = none → (∀ p < 8, flagF (s.part p).yield yieldSummary_short = false) →
    (∃ t, exec (.admissionTestComplete [] true true true) s = .next t ∧ t.fd.admitting = false ∧ s.devId ∈ t.fd.spares ∧
      getF t.mir.graftStatus graftStatus_err = Err.ok) ∧
    (∃ t, exec (.admissionTestComplete [] false true true) s = .next t ∧ t.fd = { s.fd with admitting := false } ∧
      getF t.mir.graftStatus graftStatus_err = Err.yield)) ∧
  (s.fd.admitting = false → ∀ rs a b c, exec (.admissionTestComplete rs a b c) s = .next s)

/-! ## Watchdogs and resets (R430 to R448) -/

/-- A watchdog that expires on an object for the first time starts the reset of its first level; one on a unit also faults
its tile with 0x08; HANG starts a compute reset. -/
def Obligations.Watchdogs : Prop := ∀ (s : State), Canonical s →
  (∀ tl u, s.resettable = true → State.unitBusy (s.tile tl) u = true → s.covered (.unit tl.p tl.t u) = false →
    s.rst.levels.find? (fun x => x.1 == .unit tl.p tl.t u) = none →
    (Sparse.get 0 (s.tile tl).marks u + getF s.rst.ctl rstCtl_unitMs * msTicks < s.now →
      ∃ t, exec (.tileUnitWatchdog tl u) s = .next t ∧ (Scope.unit tl.p tl.t u, s.clock, engineBound) ∈ t.rst.active ∧
        getF (t.tile tl).status tileStatus_faultCode = 8 ∧ (Scope.unit tl.p tl.t u, 0) ∈ t.rst.levels) ∧
    (s.now ≤ Sparse.get 0 (s.tile tl).marks u + getF s.rst.ctl rstCtl_unitMs * msTicks → exec (.tileUnitWatchdog tl u) s = .next s)) ∧
  (∀ tl, s.resettable = true → ((s.tile tl).record.bind (·.program)).isSome = true → s.covered (.unit tl.p tl.t heartbeatUnit) = false →
    s.rst.levels.find? (fun x => x.1 == .unit tl.p tl.t heartbeatUnit) = none →
    (s.tile tl).heartbeat + 4 * s.hbTicks tl < s.now →
    ∃ t, exec (.heartbeatWatchdog tl) s = .next t ∧ (Scope.part tl.p, s.clock, t.partTimeout tl.p) ∈ t.rst.active ∧ t.partFenced tl.p = true) ∧
  (∀ p k pch, s.resettable = true → p ≤ 7 → k < s.S → pch ≤ 31 → s.covered (.memPort p k pch) = false →
    (s.rst.levels.find? (fun x => x.1 == .memPort p k pch) = none →
      ∃ t, exec (.memoryPortWatchdog p k pch) s = .next t ∧ (Scope.memPort p k pch, s.clock, engineBound) ∈ t.rst.active) ∧
    ((Scope.memPort p k pch, 1) ∈ s.rst.levels →
      ∃ t, exec (.memoryPortWatchdog p k pch) s = .next t ∧ t.fd.selfFailed.isSome = true ∧ t.rst = s.rst)) ∧
  (∀ p, s.resettable = true → p ≤ 7 →
    (s.covered (.router p) = false → s.rst.levels.find? (fun x => x.1 == .router p) = none →
      ∃ t, exec (.routerWatchdog p false) s = .next t ∧ (Scope.part p, s.clock, t.partTimeout p) ∈ t.rst.active) ∧
    (s.covered (.router (p + 8)) = false → s.rst.levels.find? (fun x => x.1 == .router (p + 8)) = none →
      ∃ t, exec (.routerWatchdog p true) s = .next t ∧ (Scope.compute, s.clock, computeBound) ∈ t.rst.active)) ∧
  (∀ tl id c k v, List.find? (fun (c : Coll) => c.id == id && c.owner == tl) ((s.role.map (·.colls)).getD []) = some c → s.alive = true →
    getF (s.tile tl).status tileStatus_tileState = TS.waiting → (s.tile tl).seq.wait = some (k, v) → k = c.counter →
    s.covered (.unit tl.p tl.t 19) = false → c.timeoutUs ≠ 0 → Sparse.get 0 (s.tile tl).marks (256 + k) + c.timeoutUs * usTicks < s.now →
    ∃ t, exec (.collectiveWaitExpiry tl id) s = .next t ∧ getF (t.tile tl).status tileStatus_faultCode = 8 ∧
      t.job.collExpired = id :: s.job.collExpired ∧ t.rst = s.rst ∧
      (id ∈ s.job.collExpired → s.isJobHead = false → t.out = .missing (State.missingFrom (s.tile tl) c) :: s.out)) ∧
  (s.alive = true → s.boot.rooted = true → flagF s.sec.mode secMode_standbyOk = true →
    ∃ t, exec (.rootstockWatchdog true) s = .next t ∧ t = { s with sec := { s.sec with mode := t.sec.mode } } ∧
      getF t.sec.mode secMode_core = (1 - getF s.sec.mode secMode_core) % 2 ∧ flagF t.sec.mode secMode_standbyOk = false) ∧
  (s.alive = true → s.boot.rooted = true → ∃ t, exec (.rootstockWatchdog false) s = .next t ∧ t.pins.faultN = false ∧ t.tiles = s.tiles) ∧
  (∀ v a, s.alive = true → s.devState = DS.running → s.current v a = true → (∀ r ∈ s.rst.active, r.1 ≠ .compute) →
    ∃ t, exec (.hang v a) s = .next t ∧ (Scope.compute, s.clock, computeBound) ∈ t.rst.active ∧ ∀ p < 8, t.partFenced p = true) ∧
  (∀ v a, s.current v a = false → exec (.hang v a) s = .next s) ∧
  (∀ t0, s.job.rollbackAt = some t0 → s.now < t0 + 2000 * msTicks + 2 * s.agreeTicks → exec .replayDeadlineExpiry s = .next s) ∧
  (∀ t0, s.job.rollbackAt = some t0 → s.alive = true → s.devState = DS.running → s.isJobHead = true →
    t0 + 2000 * msTicks + 2 * s.agreeTicks ≤ s.now → exec .replayDeadlineExpiry s =
      .next (((s.jobIds.filter s.healthy).filter (fun i => !s.job.decanted.contains i)).foldl (fun s i => s.askFence i FR.jobRequest) s))

/-- Resets asked for by the host, their completion and their time-outs: an engine that hangs takes its partition, a
partition the whole device, and a compute reset that hangs retires the device (R435, R438, R440, R441, R447, R448). It rests on
choices or readings of the model: log 89. -/
def Obligations.Resets : Prop := ∀ (s : State), Canonical s →
  (∀ who v, Accepted s (.compute who v) .rstCtl → ∃ t, exec (.compute who v) s = .next t ∧
    (Scope.compute, s.clock, computeBound) ∈ t.rst.active ∧ (∀ p < 8, t.partFenced p = true) ∧ (∀ tl, (t.tile tl).store = [])) ∧
  (∀ who p v, p < 8 → Accepted s (.partResetGo who p v) (.partReset p) → ∃ t, exec (.partResetGo who p v) s = .next t ∧
    (Scope.part p, s.clock, t.partTimeout p) ∈ t.rst.active ∧ t.partFenced p = true ∧ (∀ k < 256, (t.tile ⟨p, k⟩).store = []) ∧
    (∀ q k, q ≠ p → k < 256 → (t.tile ⟨q, k⟩).store = (s.tile ⟨q, k⟩).store)) ∧
  (∀ who p v, p < 8 → Accepted s (.fenceCtlFence who p v) (.fenceCtl p) → ∃ t, exec (.fenceCtlFence who p v) s = .next t ∧
    t.partFenced p = true ∧ getF (t.part p).fenceCtl fenceCtl_fence = 1 ∧ t.tiles = s.tiles ∧ t.rst.active = s.rst.active) ∧
  (∀ sc start b, s.rst.active.find? (fun r => r.1 == sc) = some (sc, start, b) → s.alive = true →
    (s.clock < start + b → exec (.resetTimeout sc) s = .next s) ∧
    (start + b ≤ s.clock →
      (sc = .compute → s.devState ≠ DS.retired → ∃ t, exec (.resetTimeout sc) s = .next t ∧ t.devState = DS.retired ∧ t.flash.retired = true) ∧
      (∀ p, sc = .part p → ∃ t, exec (.resetTimeout sc) s = .next t ∧ (Scope.compute, s.clock, computeBound) ∈ t.rst.active) ∧
      (∀ p t' u, sc = .unit p t' u → ∃ t, exec (.resetTimeout sc) s = .next t ∧ (Scope.part p, s.clock, t.partTimeout p) ∈ t.rst.active)) ∧
    (∀ rs, ∃ t, exec (.resetComplete sc rs) s = .next t ∧ ∀ r ∈ t.rst.active, r.1 ≠ sc) ∧
    (∀ p t' u rs, sc = .unit p t' u → s.devState ≠ DS.fenced → s.job.rollbackAt = none → exec (.resetComplete sc rs) s =
      .next ({ s with rst := { s.rst with active := s.rst.active.filter (fun r => r.1 != sc) } }.onTile ⟨p, t'⟩ (fun x => clearUnit x u))) ∧
    (∀ p rs, sc = .part p → p < 8 → ∃ t, exec (.resetComplete sc rs) s = .next t ∧ (t.devState ≠ DS.retired → t.partFenced p = false)))

/-! ## Fabric links (R32, R331, R368 to R388, R513) -/

/-- FLIT_BUNDLE, NAK_RESEND, KEEPALIVE_SEND, KEEPALIVE and KEEPALIVE_MISS on an ACTIVE port: a damaged or out-of-order
bundle is not taken and a NAK asks for it again, an old one is dropped, one in order is taken; a failed tag and the
eighth NAK or fifth missed keepalive take the port out of ACTIVE (R368, R370, R371, R379, R385). -/
def Obligations.LinkFlits : Prop := ∀ (s : State) (n : Nat), Canonical s → s.linksUp = true → s.portActive n = true →
  (∀ fs tagOk, (∃ f ∈ fs, f.crcOk = false ∨ f.uncorr = true) ∨ ((∃ f ∈ fs, seqAhead (s.port n).rxSeq (getF f.hdr flit_seq) < 2048) ∧
      ∃ i f, fs[i]? = some f ∧ getF f.hdr flit_seq ≠ ((s.port n).rxSeq + i) % 4096) →
    ((s.port n).naks < 7 → ∃ t, exec (.flitBundle n fs tagOk) s = .next t ∧
      t.out = .flit n 2 (s.port n).txSeq (((s.port n).rxSeq + 4095) % 4096) true :: s.out ∧ (t.port n).naks = (s.port n).naks + 1 ∧
      (t.port n).rxSeq = (s.port n).rxSeq ∧ t.portActive n = true) ∧
    (7 ≤ (s.port n).naks → ∃ t, exec (.flitBundle n fs tagOk) s = .next t ∧ t.portActive n = false)) ∧
  (∀ fs tagOk, (∀ f ∈ fs, f.crcOk = true ∧ f.uncorr = false) → (∀ f ∈ fs, 2048 ≤ seqAhead (s.port n).rxSeq (getF f.hdr flit_seq)) →
    ∃ t, exec (.flitBundle n fs tagOk) s = .next t ∧ (t.port n).rxSeq = (s.port n).rxSeq ∧ t = { s with ports := t.ports }) ∧
  (∀ fs, fs ≠ [] → (∀ f ∈ fs, f.crcOk = true ∧ f.uncorr = false) →
    (∀ i f, fs[i]? = some f → getF f.hdr flit_seq = ((s.port n).rxSeq + i) % 4096) →
    (∃ t, exec (.flitBundle n fs true) s = .next t ∧ (t.port n).rxSeq = ((s.port n).rxSeq + 4) % 4096 ∧ (t.port n).naks = 0 ∧
      t = { s with ports := t.ports }) ∧
    (∃ t, exec (.flitBundle n fs false) s = .next t ∧ t.portActive n = false ∧
      getF (t.port n).status lnkStatus_authFail = getF (bumpF (s.port n).status lnkStatus_authFail 1) lnkStatus_authFail ∧
      (2 ≤ ((s.port n).authTimes.filter (fun a => decide (s.clock < a + 1000 * msTicks))).length → linkSt (t.port n) = LS.disabled ∧
        ((s.port n).squelchSeen = false → s.standing n = [] → getF (t.port n).status lnkStatus_downCause = 6)))) ∧
  (∀ ack, (ackRetry (s.port n) ack).retry = [] → exec (.nakResend n ack) s = .next (s.setPort n (ackRetry (s.port n) ack))) ∧
  (∀ ack q, (ackRetry (s.port n) ack).retry.head? = some q → (s.port n).txc + 1 < State.rekeyAt → ∃ t, exec (.nakResend n ack) s = .next t ∧
    t.out = .bundle n q ((s.port n).txc + 1) :: s.out ∧ (t.port n).txc = (s.port n).txc + 1 ∧ t.portActive n = true) ∧
  exec (.keepaliveSend n) s = .next { s with out := .keepalive n s.devId s.now s.devState false :: s.out } ∧
  (∀ d pt ts ds sq, d < 65536 → pt < 64 → ∃ t, exec (.keepalive n d pt ts ds sq true) s = .next t ∧ (t.port n).kaMissed = 0 ∧
    getF (t.port n).status lnkStatus_peerDev = d ∧ getF (t.port n).status lnkStatus_peerPort = pt ∧ t = { s with ports := t.ports }) ∧
  (∀ d pt ts ds sq, ∃ t, exec (.keepalive n d pt ts ds sq false) s = .next t ∧ t.portActive n = false) ∧
  ((s.port n).kaMissed < 4 → ∃ t, exec (.keepaliveMiss n) s = .next t ∧ (t.port n).kaMissed = (s.port n).kaMissed + 1 ∧
    t.portActive n = true) ∧
  (4 ≤ (s.port n).kaMissed → ∃ t, exec (.keepaliveMiss n) s = .next t ∧ t.portActive n = false)

/-- Training and retraining of a port, state by state; a lane that fails gives its place to the one that stands by or
retrains the port; the register writes that retrain, qualify and disable (R331, R379 to R382, R387, R424, R513). It
rests on choices or readings of the model: logs 31, 32. It rests on choices or readings of the model: logs 31, 32. -/
def Obligations.LinkTraining : Prop := ∀ (s : State) (n : Nat), Canonical s → s.linksUp = true →
  (linkSt (s.port n) = LS.retrain →
    (s.clock < (s.port n).retrainAt + 500 * usTicks → exec (.retrainTimeout n) s = .next s) ∧
    ((s.port n).retrainAt + 500 * usTicks ≤ s.clock → ∃ t, exec (.retrainTimeout n) s = .next t ∧
      linkSt (t.port n) = LS.detect ∧ (t.port n).downAt = some s.clock) ∧
    (dataLanes (s.port n) ≠ [] → ∃ t, exec (.retrainComplete n) s = .next t ∧ t.portActive n = true ∧
      getF (t.port n).status lnkStatus_downCause = 0 ∧ (t.port n).keyGen = s.sec.draws ∧ t.sec.draws = s.sec.draws + 1)) ∧
  (linkSt (s.port n) = LS.detect → ∀ e, ∃ t, exec (.detectTimeout n e) s = .next t ∧ linkSt (t.port n) = LS.map ∧
    (∀ k < 5, laneSt (s.port n) k = LaneSt.good → laneSt (t.port n) k = if e.testBit k then LaneSt.good else LaneSt.opened) ∧
    t = { s with ports := t.ports }) ∧
  (linkSt (s.port n) = LS.map → ∀ x : TrainIn, x.lane < 5 →
    ((∃ e, s.expectedPeer n = some e ∧ e ≠ (x.peerDev, x.peerPort)) → ∃ t, exec (.train n x) s = .next t ∧
      linkSt (t.port n) = LS.disabled) ∧
    ((∀ e, s.expectedPeer n = some e → e = (x.peerDev, x.peerPort)) → ∃ t, exec (.train n x) s = .next t ∧
      (laneOf (t.port n) x.lane).mapped = some x.sender ∧
      linkSt (t.port n) = if (goodLanes (t.port n)).all (fun k => (laneOf (t.port n) k).mapped.isSome) then LS.eq else LS.map)) ∧
  (linkSt (s.port n) ≠ LS.disabled → linkSt (s.port n) ≠ LS.map → ∀ x, exec (.train n x) s = .next s) ∧
  (linkSt (s.port n) ≠ LS.disabled → ∀ k < 5, ∃ t, exec (.laneShort n k) s = .next t ∧ laneSt (t.port n) k = LaneSt.shorted) ∧
  (linkSt (s.port n) = LS.eq ∨ linkSt (s.port n) = LS.fec → ∃ t, exec (.fecLock n) s = .next t ∧ linkSt (t.port n) = LS.keys ∧
    t = { s with ports := t.ports }) ∧
  (linkSt (s.port n) = LS.keys → (∃ t, exec (.linkKeyExchange n true) s = .next t ∧ t.portActive n = true ∧
      (t.port n).keyGen = s.sec.draws) ∧
    (∃ t, exec (.linkKeyExchange n false) s = .next t ∧ linkSt (t.port n) = LS.disabled ∧ t.sec = s.sec)) ∧
  (s.portActive n = true → ∀ k lost, k ∈ dataLanes (s.port n) → ∃ t, exec (.laneFailure n k lost) s = .next t ∧
    (laneSt (t.port n) k = LaneSt.failed ∨ laneSt (t.port n) k = LaneSt.damped) ∧
    ((standby (s.port n)).isSome = true → t.portActive n = true ∧ k ∉ dataLanes (t.port n)) ∧
    (standby (s.port n) = none → t.portActive n = false)) ∧
  (linkSt (s.port n) = LS.damped →
    (s.dampOver (s.port n) (s.port n).penalty (s.port n).penAt (s.port n).dampedAt = true →
      ∃ t, exec (.dampingRelease n none) s = .next t ∧ linkSt (t.port n) = LS.detect ∧ (t.port n).retry = []) ∧
    (s.dampOver (s.port n) (s.port n).penalty (s.port n).penAt (s.port n).dampedAt = false → exec (.dampingRelease n none) s = .next s)) ∧
  (∀ who v, Accepted s (.retrain who n v) (.lnkCtl n) → flagF v lnkCtl_qualify = false →
    flagF v lnkCtl_disable = flagF (s.port n).ctl lnkCtl_disable → s.portActive n = true →
    ∃ t, exec (.retrain who n v) s = .next t ∧ t.portActive n = false) ∧
  (∀ who v, Accepted s (.qualify who n v) (.lnkCtl n) → flagF v lnkCtl_retrain = false →
    flagF v lnkCtl_disable = flagF (s.port n).ctl lnkCtl_disable → linkSt (s.port n) ≠ LS.disabled →
    ∃ t, exec (.qualify who n v) s = .next t ∧
      linkSt (t.port n) = if s.portActive n && (flapPort (s.port n) s.clock).2 then LS.damped else LS.detect) ∧
  (∀ who v, Accepted s (.disable who n v) (.lnkCtl n) → flagF v lnkCtl_retrain = false → flagF v lnkCtl_qualify = false →
    flagF v lnkCtl_disable = true → flagF (s.port n).ctl lnkCtl_disable = false →
    ∃ t, exec (.disable who n v) s = .next t ∧ linkSt (t.port n) = LS.disabled ∧ flagF (t.port n).ctl lnkCtl_disable = true)

/-- HEALTH_SCAN, CMIS_POLL, MODULE_SILENT, TIME_EXCHANGE, and packets: forwarded, delivered once, acknowledged, sent
again, aborted; loss of a port die (R32, R375 to R378, R383, R384, R388). It rests on choices or readings of the
model: logs 33, 88. It rests on choices or readings of the model: logs 33, 88. -/
def Obligations.LinkHealthAndPackets : Prop := ∀ (s : State), Canonical s → s.linksUp = true →
  (∀ n (x : LaneScan), s.portActive n = true → x.lane ∈ dataLanes (s.port n) →
    (x.errE8 ≤ 10000 → ∃ t, exec (.healthScan n x) s = .next t ∧
      (laneOf (t.port n) x.lane).warns = (State.scanVerdict (laneOf (s.port n) x.lane) x).1 ∧
      getF (laneOf (t.port n) x.lane).health lnkHealth_verdict = (State.scanVerdict (laneOf (s.port n) x.lane) x).2) ∧
    (10000 < x.errE8 → ∃ t, exec (.healthScan n x) s = .next t ∧
      (laneSt (t.port n) x.lane = LaneSt.failed ∨ laneSt (t.port n) x.lane = LaneSt.damped))) ∧
  (∀ n c l, s.portOn n = true → c < 256 → l < 256 → ∃ t, exec (.cmisPoll n c l) s = .next t ∧ ∀ k < 5,
    getF (laneOf (t.port n) k).health lnkHealth_modTemp = c ∧ getF (laneOf (t.port n) k).health lnkHealth_laserPct = l) ∧
  (∀ n, s.portOn n = true → ∃ t, exec (.moduleSilent n) s = .next t ∧ t.portActive n = false ∧
    ∀ k < 5, laneSt (t.port n) k = LaneSt.failed) ∧
  (∀ n t1 t2 t3 t4 h, s.portActive n = true →
    (∃ t, exec (.timeExchange n t1 t2 t3 t4 h (getF (s.port n).status lnkStatus_peerDev)) s = .next t ∧ (t.port n).hops = h ∧
      (t.port n).linkDelay = (((t4 : Int) - t1) - ((t3 : Int) - t2)) / 2 ∧ (s.time.epoch ≠ 0 → t.clock = s.clock)) ∧
    (∀ d, d ≠ getF (s.port n).status lnkStatus_peerDev → exec (.timeExchange n t1 t2 t3 t4 h d) s = .next s)) ∧
  (∀ (pk : Packet) w, s.fencedPacket pk = true → exec (.packetForward pk w) s = .next s) ∧
  (∀ pk : Packet, s.fencedPacket pk = false → pk.dst = s.devId →
    let x := s.seenOf pk.src pk.route
    (pk.seq < x.upTo ∨ pk.seq ∈ x.above → ∃ t, exec (.packetForward pk true) s = .next t ∧ t.out = .e2eAck pk.src pk.route pk.seq :: s.out ∧
      t.fabric = s.fabric) ∧
    (x.upTo ≤ pk.seq → pk.seq ∉ x.above → pk.seq < x.upTo + 256 → s.rst.active ≠ [] →
      ∃ t, exec (.packetForward pk true) s = .next t ∧ t.out = .e2eAck pk.src pk.route pk.seq :: s.out) ∧
    (x.upTo ≤ pk.seq → pk.seq ∉ x.above → pk.seq < x.upTo + 256 → s.rst.active = [] →
      ∃ t, exec (.packetForward pk true) s = .next t ∧ t.out = .packetIn pk :: .e2eAck pk.src pk.route pk.seq :: s.out ∧
        (pk.seq < (t.seenOf pk.src pk.route).upTo ∨ pk.seq ∈ (t.seenOf pk.src pk.route).above))) ∧
  (∀ (pk : Packet) w, s.fencedPacket pk = false → pk.dst ≠ s.devId → (∀ x ∈ s.fabric.partials, State.partialKey x pk = false) →
    (s.choosePort pk = none → exec (.packetForward pk w) s = .next (s.unreach pk)) ∧
    (∀ n, s.choosePort pk = some n → (s.transitOf pk.dst).any (·.dateline) = false → State.hasRoom (s.port n) pk = true →
      s.bufferFull n pk = false → (s.port n).txc + State.bundled pk.flits / 4 < State.rekeyAt → ∃ t, exec (.packetForward pk w) s = .next t ∧ t.out = .packet n pk :: s.out ∧
        (t.port n).txSeq = ((s.port n).txSeq + State.bundled pk.flits) % 4096 ∧ t.portActive n = true)) ∧
  (∀ r q, ∃ t, exec (.e2eAck r q) s = .next t ∧ (∀ h ∈ t.fabric.held, h.pk.route ≠ r ∨ h.pk.seq ≠ q) ∧
    t = { s with fabric := { s.fabric with held := t.fabric.held } }) ∧
  (∀ r q h, s.fabric.held.find? (fun h => h.pk.route == r && h.pk.seq == q) = some h → s.awaitsAck h = true →
    exec (.e2eResend r q) s = .next s) ∧
  (∀ r q h n, s.fabric.held.find? (fun h => h.pk.route == r && h.pk.seq == q) = some h → s.awaitsAck h = false →
    s.choosePort h.pk = some n → ∃ t, exec (.e2eResend r q) s = .next t ∧ t.out = .packet n h.pk :: s.out) ∧
  (∀ r q, s.fabric.held.find? (fun h => h.pk.route == r && h.pk.seq == q) = none → exec (.e2eResend r q) s = .next s) ∧
  (∀ n r q, ∃ t, exec (.abort n r q) s = .next t ∧ (∀ x ∈ t.fabric.partials, x.route = r → x.seq = q → x.via ≠ some n) ∧
    ∀ x ∈ s.fabric.partials, x.route = r → x.seq = q → x.via = some n → Msg.abort x.out r q ∈ t.out) ∧
  (∃ t, exec (.portDieLoss 0) s = .next t ∧ t.devState = DS.cold ∧ t.boot.rooted = false ∧ t.pins.faultN = false) ∧
  (∀ d, 1 ≤ d → d < 4 → ∃ t, exec (.portDieLoss d) s = .next t ∧ ∀ i < 9, linkSt (t.port (9 * d + i)) = LS.disabled ∧
    (t.port (9 * d + i)).dieLost = true)

/-! ## Power (R449 to R460) -/

/-- Writes of PWR_REQ: a state is entered once every block has accepted, a refusal keeps the state, a DEFER is asked
again after defer_ms; the return to ACTIVE; the dormant watch (R451 to R454). It rests on choices or readings of the
model: log 59. -/
def Obligations.PowerStates : Prop := ∀ (s : State), Canonical s →
  (∀ who v, Accepted s (.powerActive who v) .pwrReq → ∃ t, exec (.powerActive who v) s = .next t ∧
    (s.devState = DS.dormant → t.devState = DS.loaded ∧ t.power = PS.active ∧ getF t.pow.railStatus railStatus_off = 0) ∧
    (s.devState ≠ DS.dormant → s.power = PS.idle ∨ s.power = PS.retain → t.power = PS.active ∧ t.devState = s.devState)) ∧
  (∀ c target who v, (c, target) ∈ [(Instr.powerIdle who v, PS.idle), (.powerRetain who v, PS.retain), (.powerDormant who v, PS.dormant),
      (.powerOff who v, targetOff)] → Accepted s c .pwrReq →
    ((∀ b ∈ s.blocks, s.blockAnswer b = .accept) → ∃ t, exec c s = .next t ∧
      (target ≤ PS.retain → t.power = target ∧ getF t.pow.hs pwrHandshakeStatus_result = 2) ∧
      (target = PS.dormant → t.devState = DS.dormant ∧ ∀ tl, (t.tile tl).store = []) ∧
      (target = targetOff → t.pins.railsOn = false ∧ t.pins.pwrGood = false ∧ t.mem = [] ∧ t.tiles = [])) ∧
    ((∃ b ∈ s.blocks, ∃ r, s.blockAnswer b = .refuse r) → ∃ t, exec c s = .next t ∧
      getF t.pow.hs pwrHandshakeStatus_result = 3 ∧ t.power = s.power ∧ t.devState = s.devState) ∧
    ((∀ b ∈ s.blocks, ∀ r, s.blockAnswer b ≠ .refuse r) → (∃ b ∈ s.blocks, s.blockAnswer b ≠ .accept) → getF v pwrReq_deferMax ≠ 0 →
      ∃ t, exec c s = .next t ∧ getF t.pow.hs pwrHandshakeStatus_result = 1 ∧ t.power = s.power ∧ t.pow.askedAt = s.clock ∧
        ∀ b ∈ s.blocks, s.blockAnswer b ≠ .accept → (b, 1) ∈ t.pow.defers)) ∧
  (s.alive = true → s.handshaking = true →
    (s.clock < s.pow.askedAt + getF s.pow.req pwrReq_deferMs * msTicks → exec .deferReask s = .next s) ∧
    (s.pow.askedAt + getF s.pow.req pwrReq_deferMs * msTicks ≤ s.clock →
      (s.powerMay s.hsTarget = false → ∃ t, exec .deferReask s = .next t ∧ getF t.pow.hs pwrHandshakeStatus_result = 3 ∧ t.power = s.power) ∧
      (s.powerMay s.hsTarget = true → s.hsTarget = PS.idle ∨ s.hsTarget = PS.retain → (∀ x ∈ s.pow.defers, s.blockAnswer x.1 = .accept) →
        ∃ t, exec .deferReask s = .next t ∧ t.power = s.hsTarget ∧ getF t.pow.hs pwrHandshakeStatus_result = 2))) ∧
  (s.handshaking = false → exec .deferReask s = .next s) ∧
  (s.linksUp = true → s.devState = DS.dormant → ∀ src,
    (s.tableHits src = [] → ∃ t, exec (.dormantWake src) s = .next t ∧ t.devState = DS.dormant ∧
      t.out = .beat s.myHead s.now DS.dormant s.progressSum 0 :: s.out) ∧
    ((∃ i ∈ s.tableHits src, getF (Sparse.get 0 s.pow.table i) dormantTable_action = 3) →
      (∀ i ∈ s.tableHits src, getF (Sparse.get 0 s.pow.table i) dormantTable_action ≠ 4) →
      ∃ t, exec (.dormantWake src) s = .next t ∧ t.devState = DS.loaded ∧ t.power = PS.active)) ∧
  (s.devState ≠ DS.dormant → ∀ src, exec (.dormantWake src) s = .next s)

/-- Regulators, the input envelope, balancing and the thermal limits (R455 to R459). It rests on choices or readings
of the model: logs 59, 89. It rests on choices or readings of the model: logs 59, 89. -/
def Obligations.RailsAndThermal : Prop := ∀ (s : State), Canonical s → s.alive = true →
  (∀ p < 8, s.railBit railStatus_settling p = true →
    ((s.part p).avsRetried = false → ∃ t, exec (.avsTimeout p) s = .next t ∧ t.out = .railWrite p (s.part p).rail :: s.out ∧
      (t.part p).avsRetried = true ∧ t.pow = s.pow) ∧
    ((s.part p).avsRetried = true → ∃ t, exec (.avsTimeout p) s = .next t ∧ t.railBit railStatus_fault p = true ∧
      t.railBit railStatus_off p = true ∧ t.devState = DS.retired) ∧
    ((s.part p).queued = none → ∃ t, exec (.avsVdone p) s = .next t ∧ t.railBit railStatus_settling p = false ∧ t.out = s.out) ∧
    (∀ c, (s.part p).queued = some c → c ≠ (s.part p).rail → s.railBit railStatus_off p = false → s.pow.pinLost = false →
      ((s.part p).hot = false ∨ c < (s.part p).rail → ∃ t, exec (.avsVdone p) s = .next t ∧
        t.out = .railWrite p c :: s.out ∧ (t.part p).rail = c ∧ t.railBit railStatus_settling p = true) ∧
      ((s.part p).hot = true → (s.part p).rail < c → ∃ t, exec (.avsVdone p) s = .next t ∧
        t.out = s.out ∧ (t.part p).rail = (s.part p).rail))) ∧
  (∀ p, s.railBit railStatus_settling p = false → exec (.avsTimeout p) s = .next s ∧ exec (.avsVdone p) s = .next s) ∧
  (∀ w a, w < 65536 → a < 65536 → ∃ t, exec (.readPinSample w a) s = .next t ∧ getF t.pow.state pwrState_pinW = w ∧
    getF t.pow.state pwrState_pinAvgW = a ∧ t.pow.lastGoodPin = s.clock ∧ t.pow.pinLost = false ∧
    (s.power = PS.active → s.devState ≠ DS.dormant →
      (s.sustainW < w → s.pow.excursionAt = none → t.pow.excursionAt = some s.clock) ∧ (w ≤ s.sustainW → t.pow.excursionAt = none))) ∧
  (s.clock < s.pow.lastGoodPin + 10 * msTicks → exec .readPinLoss s = .next s) ∧
  (s.pow.lastGoodPin + 10 * msTicks ≤ s.clock → ∃ t, exec .readPinLoss s = .next t ∧ t.pow.pinLost = true ∧
    ∀ p < 8, s.railBit railStatus_off p = false → (s.railBit railStatus_settling p = false → (s.part p).queued = none) →
      t.railGoal p = code060) ∧
  (∀ x : Telemetry, ∃ t, exec (.pmbusTelemetry x) s = .next t ∧ getF t.pow.state pwrState_tjMax = min x.tjMax 255 ∧
    (∀ p < 8, (t.part p).tj = x.tj.getD p (s.part p).tj ∧ (t.part p).hbmTemp = x.hbm.getD p (s.part p).hbmTemp) ∧ t.tiles = s.tiles) ∧
  (∀ w, s.devState = DS.running → s.pendingOn 7 = [] →
    (s.asks 7 = false → ∃ t, exec (.balancingLoop w) s = .next t ∧ ∀ p < 8,
      t.railTarget p ≤ s.railTarget p + code5mV ∧ s.railTarget p ≤ t.railTarget p + code5mV ∧
      (s.railTarget p < t.railTarget p → ∀ q < 8, w.getD p 0 ≤ w.getD q 0) ∧
      (t.railTarget p < s.railTarget p → ∃ q < 8, w.getD q 0 + 50000 < w.getD p 0)) ∧
    (s.asks 7 = true → ∃ t, exec (.balancingLoop w) s = .next t ∧ t.pow = s.pow ∧ t.pendingOn 7 ≠ [])) ∧
  (s.devState ≠ DS.running → ∀ w, exec (.balancingLoop w) s = .next s) ∧
  (∀ p tj h, ∃ t, exec (.thermalThrottle p tj h) s = .next t ∧ (t.part p).tj = tj ∧ (t.part p).hbmTemp = h ∧
    (getF s.pow.therm thermLimits_tjThrottle < tj ∨ getF s.pow.therm thermLimits_hbmThrottle < h → (t.part p).hot = true) ∧
    (tj + 3 ≤ getF s.pow.therm thermLimits_tjThrottle ∧ h + 3 ≤ getF s.pow.therm thermLimits_hbmThrottle →
      (t.part p).hot = false ∧ t.out = s.out)) ∧
  (∀ p, ∃ t, exec (.thermalTrip p) s = .next t ∧ t.pins.thermTripN = false ∧ getF t.pow.railStatus railStatus_off = 255 ∧
    t.devState = DS.retired)

/-! ## Bring-up and the module (R461 to R488) -/

/-- POWER_UP, POWER_DOWN, RESET_N and its release, the five stages with their budgets, and recovery over I3C (R461 to
R474, R478, R481, R482, R488). It rests on choices or readings of the model: log 60. -/
def Obligations.BringUp : Prop := ∀ (s : State), Canonical s →
  (s.pins.pwrEn = false → ∃ t, exec .powerUp s = .next t ∧ t.pins.pwrEn = true ∧ t.pins.railsOn = true ∧ t.pins.pwrGood = true ∧
    (s.pins.resetN = true → t.stageNow = 1 ∧ t.pins.faultN = true)) ∧
  (∃ t, exec .powerDown s = .next t ∧ t.pins.pwrEn = false ∧ t.pins.thermTripN = true ∧ t.flash.fwA = s.flash.fwA ∧
    t.flash.licence = s.flash.licence ∧ (s.pins.railsOn = true → t.pins.railsOn = false ∧ t.pins.pwrGood = false ∧ t.mem = [] ∧ t.tiles = [])) ∧
  (∃ t, exec .resetN s = .next t ∧ t.pins.resetN = false ∧ t.flash.licence = s.flash.licence ∧
    (s.pins.railsOn = true → t.pins.railsOn = true ∧ t.mem = [] ∧ t.tiles = [] ∧ t.devState = State.reset.devState)) ∧
  (s.pins.resetN = false → ∃ t, exec .resetNRelease s = .next t ∧ t.pins.resetN = true ∧ (s.pins.railsOn = true → t.stageNow = 1)) ∧
  (s.alive = true → s.boot.rooted = false → s.inStage 1 = true → ∀ ms,
    (ms ≤ 150 → fwOk s.flash s.flash.fwA = true ∨ fwOk s.flash s.flash.fwB = true → ∃ t, exec (.stage1FirmwareAndLicence ms) s = .next t ∧
      t.devState = DS.rooted ∧ t.stageNow = 2 ∧ t.boot.rooted = true ∧ t.clock = 0 ∧
      (fwOk s.flash s.flash.fwA = true → s.flash.fwB.svn ≤ s.flash.fwA.svn → getF t.rootstock.fw fwVersion_copy = 0) ∧
      (fwOk s.flash s.flash.fwB = true → s.flash.fwA.svn < s.flash.fwB.svn → getF t.rootstock.fw fwVersion_copy = 1)) ∧
    (ms ≤ 150 → fwOk s.flash s.flash.fwA = false → fwOk s.flash s.flash.fwB = false → ∃ t, exec (.stage1FirmwareAndLicence ms) s = .next t ∧
      t.stageNow = 15 ∧ t.pins.faultN = false ∧ getF t.dev.errLast errLast_code = Err.auth ∧ t.devState = s.devState) ∧
    (150 < ms → ∃ t, exec (.stage1FirmwareAndLicence ms) s = .next t ∧ t.stageNow = 15 ∧ t.pins.faultN = false ∧
      getF t.rootstock.status bootStatus_st1 = 0x7f)) ∧
  (s.inStage 2 = true → ∀ r : Stage2In, r.ms ≤ 50 →
    (r.pllOk = true → s.pins.refclkLost = false → r.tileLinksOk = true → r.die0Ok = true → ∃ t, exec (.stage2Clocks r) s = .next t ∧
      t.devState = DS.clocked ∧ t.stageNow = (if s.flash.retired then 4 else 3) ∧
      getF t.dev.caps devCaps_pdiesPresent = (s.answered r.dies).length % 8) ∧
    (r.pllOk = false → ∃ t, exec (.stage2Clocks r) s = .next t ∧ t.stageNow = 15 ∧ getF t.rootstock.status bootStatus_st2 = 0x20 ∧
      t.devState = s.devState)) ∧
  (s.inStage 3 = true → ∀ r : Stage3In, r.ms ≤ 2000 →
    (r.missingStack = false → r.phyFail = false → r.unrepairable = false → ∃ t, exec (.stage3Memories r) s = .next t ∧
      t.devState = DS.memoryReady ∧ t.stageNow = 4 ∧ t.tiles = s.tiles) ∧
    (r.missingStack = true → ∃ t, exec (.stage3Memories r) s = .next t ∧ t.stageNow = 15 ∧ getF t.rootstock.status bootStatus_st3 = 0x30 ∧
      getF t.dev.errLast errLast_code = Err.yield)) ∧
  (s.inStage 4 = true → ∀ up rates ms, ∃ t, exec (.stage4Links up rates ms) s = .next t ∧
    (s.flash.retired = false → t.devState = DS.linked ∧ t.stageNow = 5) ∧ (s.flash.retired = true → t.devState = DS.retired ∧ t.stageNow = 6 ∧
      getF t.pow.railStatus railStatus_off = 255) ∧
    ∀ n ∈ s.stage4Ports, n ∈ up → t.portActive n = true) ∧
  (s.inStage 5 = true → s.devState = DS.linked → ∀ rs ms,
    let u := ((s.setMs 5 ms).countPass).decideSites fullUnits (s.withMarch rs)
    (ms ≤ 1000 → s.goodLicence = none → ∃ t, exec (.stage5Reconciliation rs ms) s = .next t ∧ t.devState = DS.linked ∧
      getF t.rootstock.status bootStatus_st5 = 0x51 ∧ getF t.dev.errLast errLast_code = Err.absent) ∧
    (∀ l, ms ≤ 1000 → s.goodLicence = some l → (∀ p < 8, licTiles l ≤ (u.usableSites p).length) →
      ∃ t, exec (.stage5Reconciliation rs ms) s = .next t ∧ t.devState = DS.ready ∧ t.boot.applied = some l ∧
        getF t.dev.caps devCaps_tiles = licTiles l) ∧
    (∀ l, ms ≤ 1000 → s.goodLicence = some l → (∃ p < 8, (u.usableSites p).length < licTiles l) →
      ∃ t, exec (.stage5Reconciliation rs ms) s = .next t ∧ t.devState = DS.linked ∧ t.boot.applied = none ∧
        getF t.rootstock.status bootStatus_st5 = 0x50) ∧
    (1000 < ms → ∃ t, exec (.stage5Reconciliation rs ms) s = .next t ∧ t.devState = DS.linked ∧ getF t.rootstock.status bootStatus_st5 = 0x7f)) ∧
  (∀ k, s.inStage k = true → (k = 1 ∨ k = 2 ∨ k = 3 ∨ k = 5 → ∃ t, exec .stageBudgetExpiry s = .next t ∧ t.stageNow = 15 ∧
      getF t.rootstock.status (stField k) = 0x7f ∧ getF t.dev.errLast errLast_code = Err.timeout ∧ t.devState = s.devState ∧
      t.pins.faultN = (s.pins.faultN && k == 5)) ∧
    (k = 4 → s.flash.retired = false → ∃ t, exec .stageBudgetExpiry s = .next t ∧ t.devState = DS.linked ∧ t.stageNow = 5)) ∧
  (s.recovering = true →
    (∀ len, len ≤ recoveryMax → exec (.recoveryBegin len) s = .next { s with i3c := { s.i3c with recovery := some (len, []) } }) ∧
    (∀ len, recoveryMax < len → ∃ t, exec (.recoveryBegin len) s = .next t ∧ t.i3c.recovery = none ∧ getF t.rootstock.status bootStatus_st1 = 0x10) ∧
    (∀ off bs len m, s.i3c.recovery = some (len, m) →
      (off + bs.length ≤ len → exec (.recoveryData off bs) s =
        .next { s with i3c := { s.i3c with recovery := some (len, Memory.writeN m off bs) } }) ∧
      (len < off + bs.length → ∃ t, exec (.recoveryData off bs) s = .next t ∧ t.i3c.recovery = none)) ∧
    (∀ fw : Firmware, s.i3c.recovery.isSome = true →
      (fw.verifies = true → s.flash.fuseSvn ≤ fw.svn → ∃ t, exec (.recoveryEnd fw) s = .next t ∧ t.boot.rooted = true ∧
        t.devState = DS.rooted ∧ t.i3c.recovery = none ∧ (t.flash.fwA = fw ∨ t.flash.fwB = fw)) ∧
      (fw.verifies = false ∨ fw.svn < s.flash.fuseSvn → exec (.recoveryEnd fw) s = .next { s with i3c := { s.i3c with recovery := none } })))

/-- The input stage, the sideband, REFCLK and PPS, I3C addresses and TRST_N (R388, R390, R479, R480, R485 to R488). It
rests on choices or readings of the model: log 20. -/
def Obligations.ModuleSignals : Prop := ∀ (s : State), Canonical s →
  (s.pins.railsOn = true →
    (∀ mv us, mv < 38000 → 1000 < us → ∃ t, exec (.inputUndervoltage mv us) s = .next t ∧ t.pins.railsOn = false ∧ t.pins.pwrGood = false ∧
      t.pins.faultN = false ∧ t.mem = []) ∧
    (∀ mv us, 62000 < mv → 100 < us → ∃ t, exec (.inputOvervoltage mv us) s = .next t ∧ t.pins.railsOn = false ∧ t.pins.pwrGood = false ∧
      t.pins.faultN = false ∧ t.mem = []) ∧
    (∃ t, exec .internalRailShort s = .next t ∧ t.pins.railsOn = false ∧ t.pins.pwrGood = false ∧ t.pins.faultN = false) ∧
    (∀ a, exec (.setdasa a) s = .next { s with i3c := { s.i3c with dyn := some a } } ∧
      exec (.entdaa a) s = .next { s with i3c := { s.i3c with dyn := some a } }) ∧
    exec .refclkLoss s = .next { s with pins := { s.pins with refclkLost := true } }) ∧
  (∀ mv us, 38000 ≤ mv ∨ us ≤ 1000 → exec (.inputUndervoltage mv us) s = .next s) ∧
  (∀ mv us, mv ≤ 62000 ∨ us ≤ 100 → exec (.inputOvervoltage mv us) s = .next s) ∧
  (s.alive = true →
    (s.pins.senseOpen = false → ∃ t, exec .sensePairOpen s = .next t ∧ t.pins = { s.pins with senseOpen := true } ∧
      getF t.dev.errLast errLast_code = Err.absent ∧ t.devState = s.devState) ∧
    exec .sensePairRestored s = .next { s with pins := { s.pins with senseOpen := false } } ∧
    (∀ x, x ∉ s.pins.shorted → ∃ t, exec (.sidebandShort x) s = .next t ∧ t.pins = { s.pins with shorted := x :: s.pins.shorted } ∧
      getF t.dev.errLast errLast_code = Err.format) ∧
    (∀ x ∈ s.pins.shorted, exec (.sidebandShort x) s = .next s) ∧
    (s.pins.refclkLost = true → s.pins.refclkDead = false →
      (∃ t, exec .refclkHoldoverExpiry s = .next t ∧ t.pins.faultN = false ∧ t.pins.refclkDead = true ∧ ∀ p < 8, t.partFenced p = true) ∧
      (∃ t, exec .refclkReturn s = .next t ∧ t.pins = { s.pins with refclkLost := false } ∧ t.tiles = s.tiles)) ∧
    (s.pins.refclkDead = true → exec .refclkHoldoverExpiry s = .next s) ∧
    (s.isJobHead = true → flagF s.time.syncCtl tsSyncCtl_ppsEn = true → ∀ f, ∃ t, exec (.ppsEdge f) s = .next t ∧
      flagF t.time.syncStatus tsSyncStatus_ppsLocked = true ∧ getF t.time.syncStatus tsSyncStatus_freq = freqField f ∧ t.clock = s.clock ∧
      t.pins = { s.pins with ppsAt := some s.clock })) ∧
  (s.isJobHead = false → ∀ f, exec (.ppsEdge f) s = .next s) ∧
  (s.pins.refclkLost = true → s.pins.refclkDead = true → exec .refclkReturn s = .next { s with pins := { s.pins with refclkLost := false } }) ∧
  (∀ a, s.pins.ppsAt = some a →
    (s.clock < a + 2 * secTicks → exec .ppsLoss s = .next s) ∧
    (a + 2 * secTicks ≤ s.clock → ∃ t, exec .ppsLoss s = .next t ∧ t.pins.ppsAt = none ∧
      flagF t.time.syncStatus tsSyncStatus_ppsLocked = false ∧ t.clock = s.clock)) ∧
  exec .trstN s = .next { s with pins := { s.pins with trstN := false } }

/-- What the Ethernet ports take and answer: link changes, a router's advertisement, neighbour discovery, ARP, echo
and PTP; each is answered only on a link that is up and for this device's own addresses (R391 to R393). It rests on
choices or readings of the model: log 61. -/
def Obligations.Ethernet : Prop := ∀ (s : State) (e : Nat), s.alive = true → s.boot.rooted = true → e < 2 →
  (∀ rate, rate < 4 → rate ≠ 0 → flagF (s.eth e).ctl ethPortCtl_enable = true → ∃ t, exec (.ethLinkChange e true rate) s = .next t ∧
    t.ethUp e = true ∧ getF (t.eth e).status ethStatus_rate = rate ∧ t.eth (1 - e) = s.eth (1 - e)) ∧
  (flagF (s.eth e).ctl ethPortCtl_enable = false → ∀ rate, exec (.ethLinkChange e true rate) s = .next s) ∧
  (∀ rate, flagF (s.eth e).status ethStatus_up = true → ∃ t, exec (.ethLinkChange e false rate) s = .next t ∧ t.ethUp e = false ∧
    getF (t.eth e).status ethStatus_flaps = min 255 (getF (s.eth e).status ethStatus_flaps + 1)) ∧
  (s.ethUp e = true →
    (∀ pfx r, flagF (s.eth e).ctl ethPortCtl_slaac = true → ∃ t, exec (.routerAdvertisement e pfx r) s = .next t ∧
      pfx * 2 ^ 64 + eui64 (getF (s.eth e).status ethStatus_mac) ∈ (t.eth e).addrs ∧ (t.eth e).router = some r ∧
      (∀ a ∈ (s.eth e).addrs, a ∈ (t.eth e).addrs) ∧ t.eth (1 - e) = s.eth (1 - e)) ∧
    (∀ pfx r, flagF (s.eth e).ctl ethPortCtl_slaac = false → exec (.routerAdvertisement e pfx r) s = .next s) ∧
    (∀ x a, a ∈ (s.eth e).addrs → exec (.neighbourDiscovery e x a) s = .next { s with out := .eth e State.ethNd x a :: s.out }) ∧
    (∀ x a, a ∉ (s.eth e).addrs → exec (.neighbourDiscovery e x a) s = .next s) ∧
    (∀ x, onLink4 (s.eth e) x = true → exec (.arp e x (getF (s.eth e).ctl ethPortCtl_ipv4)) s =
      .next { s with out := .eth e State.ethArp x (getF (s.eth e).ctl ethPortCtl_ipv4) :: s.out }) ∧
    (∀ x a, a ≠ getF (s.eth e).ctl ethPortCtl_ipv4 → exec (.arp e x a) s = .next s) ∧
    (∀ x d, onLink4 (s.eth e) x = true → exec (.icmpEcho e x false d) s = .next { s with out := .eth e State.ethEcho4 x d :: s.out }) ∧
    (∀ x d, onLink6 (s.eth e) x = true ∨ (s.eth e).router.isSome = true →
      exec (.icmpEcho e x true d) s = .next { s with out := .eth e State.ethEcho6 x d :: s.out }) ∧
    (∀ x k, k = ptpDelayReq ∨ k = ptpUnicastReq → exec (.ptpEventMessage e x k) s = .next { s with out := .ptp e x k s.now :: s.out }) ∧
    (∀ x k, k ≠ ptpDelayReq → k ≠ ptpUnicastReq → exec (.ptpEventMessage e x k) s = .next s)) ∧
  (s.ethUp e = false → ∀ x a d v6, exec (.neighbourDiscovery e x a) s = .next s ∧ exec (.arp e x a) s = .next s ∧
    exec (.icmpEcho e x v6 d) s = .next s ∧ exec (.ptpEventMessage e x a) s = .next s ∧ exec (.routerAdvertisement e x a) s = .next s)
end

