-- ==== Sys2Proof/Laws/Fields.lean ====
section
/-!
SUPPORT. Bit fields: what a field reads after it, or a field beside it, is written.
-/
namespace Sys2Proof.Machine

/-- A field within a 64-bit word. -/
def Field.ok (f : Field) : Prop := f.lo ≤ f.hi ∧ f.hi < 64

/-- Two fields that share no bit. -/
def Field.apart (f g : Field) : Prop := f.hi < g.lo ∨ g.hi < f.lo

theorem getF_lt (w : Word) (f : Field) : getF w f < 2 ^ (f.hi + 1 - f.lo) := Nat.mod_lt _ (Nat.two_pow_pos _)

theorem testBit_getF (w : Word) (f : Field) (i : Nat) :
    (getF w f).testBit i = (decide (i < f.hi + 1 - f.lo) && w.getLsbD (f.lo + i)) := by
  simp [getF, Nat.testBit_mod_two_pow, Nat.testBit_div_two_pow, BitVec.getLsbD, Nat.add_comm]

theorem toNat_setF (w : Word) {f : Field} (h : f.ok) (v : Nat) :
    (setF w f v).toNat = w.toNat % 2 ^ f.lo + (v % 2 ^ (f.hi + 1 - f.lo)) * 2 ^ f.lo
      + (w.toNat / 2 ^ (f.hi + 1)) * 2 ^ (f.hi + 1) := by
  obtain ⟨h1, h2⟩ := h
  unfold setF
  rw [BitVec.toNat_ofNat, Nat.mod_eq_of_lt]
  have e1 : 2 ^ (f.hi + 1 - f.lo) * 2 ^ f.lo = 2 ^ (f.hi + 1) := by rw [← pow_add]; congr 1; omega
  have a := Nat.mod_lt w.toNat (Nat.two_pow_pos f.lo)
  have b := Nat.mod_lt v (Nat.two_pow_pos (f.hi + 1 - f.lo))
  have c : w.toNat / 2 ^ (f.hi + 1) < 2 ^ (64 - (f.hi + 1)) := by
    rw [Nat.div_lt_iff_lt_mul (Nat.two_pow_pos _), ← pow_add, show 64 - (f.hi + 1) + (f.hi + 1) = 64 by omega]
    exact w.isLt
  have e2 : 2 ^ (64 - (f.hi + 1)) * 2 ^ (f.hi + 1) = 2 ^ 64 := by rw [← pow_add]; congr 1; omega
  have d : (v % 2 ^ (f.hi + 1 - f.lo) + 1) * 2 ^ f.lo ≤ 2 ^ (f.hi + 1) := e1 ▸ Nat.mul_le_mul_right _ b
  have e : (w.toNat / 2 ^ (f.hi + 1) + 1) * 2 ^ (f.hi + 1) ≤ 2 ^ 64 := e2 ▸ Nat.mul_le_mul_right _ c
  simp only [Nat.add_mul, Nat.one_mul] at d e
  omega

theorem getLsbD_setF (w : Word) {f : Field} (h : f.ok) (v i : Nat) (_ : i < 64) :
    (setF w f v).getLsbD i = if f.lo ≤ i ∧ i ≤ f.hi then v.testBit (i - f.lo) else w.getLsbD i := by
  have hn := toNat_setF w h v
  obtain ⟨h1, h2⟩ := h
  set n := v % 2 ^ (f.hi + 1 - f.lo) with hvn
  have hn2 : n < 2 ^ (f.hi + 1 - f.lo) := Nat.mod_lt _ (Nat.two_pow_pos _)
  have e1 : 2 ^ (f.hi + 1) = 2 ^ (f.hi + 1 - f.lo) * 2 ^ f.lo := by rw [← pow_add]; congr 1; omega
  have low : w.toNat % 2 ^ f.lo < 2 ^ f.lo := Nat.mod_lt _ (Nat.two_pow_pos _)
  have inner : w.toNat % 2 ^ f.lo + n * 2 ^ f.lo < 2 ^ (f.hi + 1) := by
    have := Nat.mul_le_mul_right (2 ^ f.lo) (Nat.succ_le_of_lt hn2)
    rw [e1]; simp only [Nat.succ_eq_add_one, Nat.add_mul, Nat.one_mul] at this; omega
  have key : (setF w f v).toNat = 2 ^ (f.hi + 1) * (w.toNat / 2 ^ (f.hi + 1)) + (2 ^ f.lo * n + w.toNat % 2 ^ f.lo) := by
    rw [hn]; ring
  unfold BitVec.getLsbD
  rw [key, Nat.testBit_two_pow_mul_add _ (by rw [Nat.mul_comm]; omega), Nat.testBit_two_pow_mul_add _ low]
  by_cases c1 : i < f.hi + 1
  · by_cases c2 : i < f.lo
    · rw [if_pos c1, if_pos c2, if_neg (by omega), Nat.testBit_mod_two_pow]; simp [c2]
    · rw [if_pos c1, if_neg c2, if_pos (by omega), hvn, Nat.testBit_mod_two_pow]
      simp; intro _; omega
  · rw [if_neg c1, if_neg (by omega), Nat.testBit_div_two_pow]
    congr 1; omega

/-- A field just written reads the low bits of the value. -/
theorem getF_setF (w : Word) {f : Field} (h : f.ok) (v : Nat) : getF (setF w f v) f = v % 2 ^ (f.hi + 1 - f.lo) := by
  apply Nat.eq_of_testBit_eq
  intro i
  rw [testBit_getF, Nat.testBit_mod_two_pow]
  by_cases c : i < f.hi + 1 - f.lo
  · obtain ⟨h1, h2⟩ := id h
    rw [getLsbD_setF w h v _ (by omega), if_pos (by omega)]
    simp
  · simp [c]

/-- A field that shares no bit with the one written reads as before. -/
theorem getF_setF_apart (w : Word) {f g : Field} (hf : f.ok) (hg : g.ok) (h : g.apart f) (v : Nat) :
    getF (setF w f v) g = getF w g := by
  apply Nat.eq_of_testBit_eq
  intro i
  rw [testBit_getF, testBit_getF]
  by_cases c : i < g.hi + 1 - g.lo
  · obtain ⟨h1, h2⟩ := hg
    rw [getLsbD_setF w hf v _ (by omega), if_neg]
    unfold Field.apart at h; omega
  · simp [c]

/-- Writing a field its own value changes nothing. -/
theorem setF_getF (w : Word) {f : Field} (h : f.ok) : setF w f (getF w f) = w := by
  apply BitVec.eq_of_getLsbD_eq
  intro i hi
  rw [getLsbD_setF w h _ _ hi]
  obtain ⟨h1, h2⟩ := h
  split
  · rename_i c
    rw [testBit_getF, show f.lo + (i - f.lo) = i by omega, decide_eq_true (by omega), Bool.true_and]
  · rfl

/-- The last value written to a field is the one it holds. -/
theorem setF_setF (w : Word) {f : Field} (h : f.ok) (u v : Nat) : setF (setF w f u) f v = setF w f v := by
  apply BitVec.eq_of_getLsbD_eq
  intro i hi
  rw [getLsbD_setF _ h _ _ hi, getLsbD_setF w h _ _ hi, getLsbD_setF w h _ _ hi]
  split <;> rfl

/-- A counter field that saturates. -/
theorem getF_bumpF (w : Word) {f : Field} (h : f.ok) (n : Nat) :
    getF (bumpF w f n) f = min (getF w f + n) (2 ^ (f.hi + 1 - f.lo) - 1) := by
  have := Nat.two_pow_pos (f.hi + 1 - f.lo)
  rw [bumpF, getF_setF w h, Nat.mod_eq_of_lt]; omega

theorem getF_bumpF_apart (w : Word) {f g : Field} (hf : f.ok) (hg : g.ok) (h : g.apart f) (n : Nat) :
    getF (bumpF w f n) g = getF w g := getF_setF_apart w hf hg h _

end Sys2Proof.Machine
end

