-- ==== Sys2Proof/Laws/Memory.lean ====
section
/-!
SUPPORT. Sparse maps and memory: a read after a write, and that every operation keeps the canonical form.
-/
namespace Sys2Proof.Machine

namespace Sparse
variable {α : Type}

/-! ## Reads after writes -/

theorem get_put_same (d : α) (m : Sparse α) (k : Nat) (a : α) : Sparse.get d (Sparse.put m k a) k = a := by
  induction m with
  | nil => simp [Sparse.put, Sparse.get]
  | cons x m ih =>
    obtain ⟨j, v⟩ := x
    unfold Sparse.put
    split
    · simp [Sparse.get]
    · split
      · simp [Sparse.get]
      · rename_i h _; simp [Sparse.get, h, ih]

theorem get_put_other (d : α) (m : Sparse α) {k i : Nat} (a : α) (h : i ≠ k) :
    Sparse.get d (Sparse.put m k a) i = Sparse.get d m i := by
  induction m with
  | nil => simp [Sparse.put, Sparse.get, Ne.symm h]
  | cons x m ih =>
    obtain ⟨j, v⟩ := x
    unfold Sparse.put
    split
    · subst_vars; simp [Sparse.get, Ne.symm h]
    · split
      · simp [Sparse.get, Ne.symm h]
      · simp only [Sparse.get, ih]

theorem get_drop_other (d : α) (m : Sparse α) {k i : Nat} (h : i ≠ k) :
    Sparse.get d (Sparse.drop m k) i = Sparse.get d m i := by
  induction m with
  | nil => rfl
  | cons x m ih =>
    obtain ⟨j, v⟩ := x
    unfold Sparse.drop
    split
    · subst_vars; simp [Sparse.get, Ne.symm h, ih]
    · simp only [Sparse.get, ih]

theorem get_drop_same (d : α) (m : Sparse α) (k : Nat) : Sparse.get d (Sparse.drop m k) k = d := by
  induction m with
  | nil => rfl
  | cons x m ih =>
    obtain ⟨j, v⟩ := x
    unfold Sparse.drop
    split
    · exact ih
    · rename_i c; simp only [Sparse.get, if_neg c]; exact ih

variable [DecidableEq α]

theorem wfFrom_mono {d : α} {b c : Nat} {m : Sparse α} (h : Sparse.wfFrom d c m = true) (hb : b ≤ c) :
    Sparse.wfFrom d b m = true := by
  cases m with
  | nil => rfl
  | cons x m => obtain ⟨j, v⟩ := x; simp only [Sparse.wfFrom, Bool.and_eq_true, decide_eq_true_eq] at h ⊢; exact ⟨⟨by omega, h.1.2⟩, h.2⟩

/-- Below its bound a canonical map lists nothing. -/
theorem get_below {d : α} {b k : Nat} {m : Sparse α} (h : Sparse.wfFrom d b m = true) (hk : k < b) :
    Sparse.get d m k = d := by
  induction m generalizing b with
  | nil => rfl
  | cons x m ih =>
    obtain ⟨j, v⟩ := x
    simp only [Sparse.wfFrom, Bool.and_eq_true, decide_eq_true_eq] at h
    simp only [Sparse.get]
    rw [if_neg (by omega)]
    exact ih h.2 (by omega)

/-- A read of another place after a write reads what it read before. -/
theorem get_set_other (d : α) (m : Sparse α) {k i : Nat} (a : α) (h : i ≠ k) :
    Sparse.get d (Sparse.set d m k a) i = Sparse.get d m i := by
  unfold Sparse.set
  split
  · exact get_drop_other d m h
  · exact get_put_other d m a h

/-- A read after a write to the same place gives the value written. -/
theorem get_set_same (d : α) (m : Sparse α) (k : Nat) (a : α) : Sparse.get d (Sparse.set d m k a) k = a := by
  unfold Sparse.set
  split
  · rename_i c; rw [get_drop_same d m k, c]
  · exact get_put_same d m k a

/-! ## The canonical form -/

theorem wfFrom_drop {d : α} {b : Nat} {m : Sparse α} (k : Nat) (h : Sparse.wfFrom d b m = true) :
    Sparse.wfFrom d b (Sparse.drop m k) = true := by
  induction m generalizing b with
  | nil => rfl
  | cons x m ih =>
    obtain ⟨j, v⟩ := x
    have h' := h
    simp only [Sparse.wfFrom, Bool.and_eq_true, decide_eq_true_eq] at h
    unfold Sparse.drop
    split
    · exact wfFrom_mono (ih h.2) (by omega)
    · simp only [Sparse.wfFrom, Bool.and_eq_true, decide_eq_true_eq]
      exact ⟨h.1, ih h.2⟩

theorem wfFrom_put {d : α} {b : Nat} {m : Sparse α} {k : Nat} {a : α} (h : Sparse.wfFrom d b m = true)
    (hk : b ≤ k) (ha : a ≠ d) : Sparse.wfFrom d b (Sparse.put m k a) = true := by
  induction m generalizing b with
  | nil => simp [Sparse.put, Sparse.wfFrom, hk, ha]
  | cons x m ih =>
    obtain ⟨j, v⟩ := x
    simp only [Sparse.wfFrom, Bool.and_eq_true, decide_eq_true_eq] at h
    unfold Sparse.put
    split
    · subst_vars; simp [Sparse.wfFrom, hk, ha, h.2]
    · split
      · simp only [Sparse.wfFrom, Bool.and_eq_true, decide_eq_true_eq]
        exact ⟨⟨hk, ha⟩, ⟨by omega, h.1.2⟩, h.2⟩
      · simp only [Sparse.wfFrom, Bool.and_eq_true, decide_eq_true_eq]
        exact ⟨h.1, ih h.2 (by omega)⟩

/-- A write keeps the canonical form. -/
theorem wf_set {d : α} {m : Sparse α} (k : Nat) (a : α) (h : Sparse.wf d m = true) :
    Sparse.wf d (Sparse.set d m k a) = true := by
  unfold Sparse.set
  split
  · exact wfFrom_drop k h
  · rename_i c; exact wfFrom_put h (Nat.zero_le _) c

theorem wfFrom_mapV {d : α} {b : Nat} {f : α → α} {m : Sparse α} (h : Sparse.wfFrom d b m = true) :
    Sparse.wfFrom d b (Sparse.mapV d f m) = true := by
  induction m generalizing b with
  | nil => rfl
  | cons x m ih =>
    obtain ⟨j, v⟩ := x
    simp only [Sparse.wfFrom, Bool.and_eq_true, decide_eq_true_eq] at h
    unfold Sparse.mapV
    split
    · exact wfFrom_mono (ih h.2) (by omega)
    · rename_i c
      simp only [Sparse.wfFrom, Bool.and_eq_true, decide_eq_true_eq]
      exact ⟨⟨h.1.1, c⟩, ih h.2⟩

theorem wf_mapV {d : α} {f : α → α} {m : Sparse α} (h : Sparse.wf d m = true) : Sparse.wf d (Sparse.mapV d f m) = true :=
  wfFrom_mapV h

theorem wfFrom_filter {d : α} {b : Nat} {f : Nat × α → Bool} {m : Sparse α} (h : Sparse.wfFrom d b m = true) :
    Sparse.wfFrom d b (m.filter f) = true := by
  induction m generalizing b with
  | nil => rfl
  | cons x m ih =>
    obtain ⟨j, v⟩ := x
    simp only [Sparse.wfFrom, Bool.and_eq_true, decide_eq_true_eq] at h
    by_cases c : f (j, v) = true
    · rw [List.filter_cons_of_pos c]
      simp only [Sparse.wfFrom, Bool.and_eq_true, decide_eq_true_eq]
      exact ⟨h.1, ih h.2⟩
    · rw [List.filter_cons_of_neg c]
      exact wfFrom_mono (ih h.2) (by omega)

theorem wf_filter {d : α} {f : Nat × α → Bool} {m : Sparse α} (h : Sparse.wf d m = true) :
    Sparse.wf d (m.filter f : Sparse α) = true := wfFrom_filter h

/-- Entries changed in place and those that became the default dropped. -/
theorem wfFrom_map_filter {d : α} {b : Nat} {f : Nat × α → α} {m : Sparse α} (h : Sparse.wfFrom d b m = true) :
    Sparse.wfFrom d b ((m.map (fun x => (x.1, f x))).filter (fun x => x.2 != d)) = true := by
  induction m generalizing b with
  | nil => rfl
  | cons x m ih =>
    obtain ⟨j, v⟩ := x
    simp only [Sparse.wfFrom, Bool.and_eq_true, decide_eq_true_eq] at h
    rw [List.map_cons, List.filter_cons]
    split
    · rename_i c
      simp only [Sparse.wfFrom, Bool.and_eq_true, decide_eq_true_eq]
      simp only [bne_iff_ne, ne_eq] at c
      exact ⟨⟨h.1.1, c⟩, ih h.2⟩
    · exact wfFrom_mono (ih h.2) (by omega)

/-- Canonical maps that read alike everywhere are equal. -/
theorem ext_get {d : α} {b : Nat} {m n : Sparse α} (hm : Sparse.wfFrom d b m = true) (hn : Sparse.wfFrom d b n = true)
    (h : ∀ k, Sparse.get d m k = Sparse.get d n k) : m = n := by
  induction m generalizing b n with
  | nil =>
    cases n with
    | nil => rfl
    | cons y n =>
      obtain ⟨j, v⟩ := y
      simp only [Sparse.wfFrom, Bool.and_eq_true, decide_eq_true_eq] at hn
      exact absurd (by simpa [Sparse.get] using (h j).symm) hn.1.2
  | cons x m ih =>
    obtain ⟨i, u⟩ := x
    cases n with
    | nil =>
      simp only [Sparse.wfFrom, Bool.and_eq_true, decide_eq_true_eq] at hm
      exact absurd (by simpa [Sparse.get] using h i) hm.1.2
    | cons y n =>
      obtain ⟨j, v⟩ := y
      have hm0 := hm
      have hn0 := hn
      simp only [Sparse.wfFrom, Bool.and_eq_true, decide_eq_true_eq] at hm hn
      have hij : i = j := by
        rcases Nat.lt_trichotomy i j with c | c | c
        · have e := h i
          rw [get_below (b := j) (m := (j, v) :: n) (by simp only [Sparse.wfFrom, Bool.and_eq_true, decide_eq_true_eq]; exact ⟨⟨le_refl _, hn.1.2⟩, hn.2⟩) c] at e
          exact absurd (by simpa [Sparse.get] using e) hm.1.2
        · exact c
        · have e := h j
          rw [get_below (b := i) (m := (i, u) :: m) (by simp only [Sparse.wfFrom, Bool.and_eq_true, decide_eq_true_eq]; exact ⟨⟨le_refl _, hm.1.2⟩, hm.2⟩) c] at e
          exact absurd (by simpa [Sparse.get] using e.symm) hn.1.2
      subst hij
      have huv : u = v := by simpa [Sparse.get] using h i
      subst huv
      rw [ih hm.2 hn.2 fun k => ?_]
      by_cases c : k = i
      · subst c; rw [get_below hm.2 (Nat.lt_succ_self _), get_below hn.2 (Nat.lt_succ_self _)]
      · simpa [Sparse.get, Ne.symm c] using h k

/-- A second write to a key replaces the first. -/
theorem set_set {d : α} {m : Sparse α} (k : Nat) (a c : α) (h : Sparse.wf d m = true) :
    Sparse.set d (Sparse.set d m k a) k c = Sparse.set d m k c :=
  ext_get (wf_set _ _ (wf_set _ _ h)) (wf_set _ _ h) fun i => by
    by_cases e : i = k
    · subst e; rw [get_set_same, get_set_same]
    · rw [get_set_other _ _ _ e, get_set_other _ _ _ e, get_set_other _ _ _ e]

/-- A write of what is there changes nothing. -/
theorem set_get {d : α} {m : Sparse α} (k : Nat) (h : Sparse.wf d m = true) : Sparse.set d m k (Sparse.get d m k) = m :=
  ext_get (wf_set _ _ h) h fun i => by
    by_cases e : i = k
    · subst e; rw [get_set_same]
    · rw [get_set_other _ _ _ e]

end Sparse

namespace Memory

theorem wf_nil : wf [] = true := rfl

theorem wf_write {m : List Host.Cell} (a : Nat) (b : Byte) (h : wf m = true) : wf (write m a b) = true := Sparse.wf_set a b h

theorem wf_writeN {m : List Host.Cell} (a : Nat) (bs : List Byte) (h : wf m = true) : wf (writeN m a bs) = true := by
  induction bs generalizing m a with
  | nil => exact h
  | cons b bs ih => exact ih (a + 1) (wf_write a b h)

theorem wf_writeLE {m : List Host.Cell} (a n v : Nat) (h : wf m = true) : wf (writeLE m a n v) = true := wf_writeN a _ h

theorem wf_clear {m : List Host.Cell} (a n : Nat) (h : wf m = true) : wf (clear m a n) = true := Sparse.wf_filter h

theorem wf_copy {m : List Host.Cell} (a b n : Nat) (h : wf m = true) : wf (copy m a b n) = true := by
  unfold copy
  generalize m.filter _ = cs
  have h' := wf_clear b n h
  revert h'
  generalize clear m b n = r
  intro h'
  induction cs generalizing r with
  | nil => exact h'
  | cons c cs ih => exact ih _ (wf_write _ _ h')

/-- A read after a write of the same byte. -/
theorem read_write_same (m : List Host.Cell) (a : Nat) (b : Byte) : read (write m a b) a = b :=
  Sparse.get_set_same _ m a b

/-- A write of one byte leaves every other byte. -/
theorem read_write_other (m : List Host.Cell) {a i : Nat} (b : Byte) (h : i ≠ a) : read (write m a b) i = read m i :=
  Sparse.get_set_other _ m b h

/-- A write of a range leaves every byte outside it. -/
theorem read_writeN_outside (m : List Host.Cell) (a : Nat) (bs : List Byte) {i : Nat} (h : i < a ∨ a + bs.length ≤ i) :
    read (writeN m a bs) i = read m i := by
  induction bs generalizing m a with
  | nil => rfl
  | cons b bs ih =>
    simp only [List.length_cons] at h
    show read (writeN (write m a b) (a + 1) bs) i = read m i
    rw [ih _ _ (by omega), read_write_other m b (by omega)]

/-- A byte of a range just written reads what was written there. -/
theorem read_writeN_inside (m : List Host.Cell) (a : Nat) (bs : List Byte) {i : Nat} (hi : i < bs.length) :
    read (writeN m a bs) (a + i) = bs[i] := by
  induction bs generalizing m a i with
  | nil => exact absurd hi (Nat.not_lt_zero _)
  | cons b bs ih =>
    show read (writeN (write m a b) (a + 1) bs) (a + i) = _
    cases i with
    | zero =>
      rw [read_writeN_outside _ _ _ (by omega)]
      exact read_write_same _ a b
    | succ i =>
      have := ih (write m a b) (a + 1) (i := i) (by simpa using hi)
      rw [show a + (i + 1) = a + 1 + i by omega, this]; rfl

theorem readN_length (m : List Host.Cell) (a n : Nat) : (readN m a n).length = n := by
  induction n generalizing a with
  | zero => rfl
  | succ n ih => simp [readN, ih]

theorem bytesLE_length (v n : Nat) : (bytesLE v n).length = n := by
  induction n generalizing v with
  | zero => rfl
  | succ n ih => simp [bytesLE, ih]

/-- Little-endian bytes of a value that fits read back as the value. -/
theorem le_bytesLE (v n : Nat) : le (bytesLE v n) = v % 256 ^ n := by
  induction n generalizing v with
  | zero => simp [bytesLE, le, Nat.mod_one]
  | succ n ih =>
    simp only [bytesLE, le, ih, BitVec.toNat_ofNat]
    rw [show 256 ^ (n + 1) = 256 * 256 ^ n by ring, Nat.mod_mul]

/-- A range just written reads back. -/
theorem readN_writeN (m : List Host.Cell) (a : Nat) (bs : List Byte) :
    readN (writeN m a bs) a bs.length = bs := by
  induction bs generalizing m a with
  | nil => rfl
  | cons b bs ih =>
    simp only [List.length_cons, readN]
    rw [show writeN m a (b :: bs) = writeN (write m a b) (a + 1) bs from rfl, ih (write m a b) (a + 1),
      read_writeN_outside _ _ _ (by omega), read_write_same]

end Memory
end Sys2Proof.Machine
end

