-- ==== Sys2Proof/Laws/State.lean ====
section
/-!
SUPPORT. What each update of the state leaves as it was, field by field, and what a part reads after it is written.
-/
namespace Sys2Proof.Machine
namespace State

/-! ## Fields an update does not touch -/

@[simp] theorem setTile_pending (s : State) (tl : TileRef) (t : Tile) : (s.setTile tl t).pending = s.pending := by unfold setTile; rfl
@[simp] theorem setTile_released (s : State) (tl : TileRef) (t : Tile) : (s.setTile tl t).released = s.released := by unfold setTile; rfl
@[simp] theorem setTile_out (s : State) (tl : TileRef) (t : Tile) : (s.setTile tl t).out = s.out := by unfold setTile; rfl
@[simp] theorem setTile_fresh (s : State) (tl : TileRef) (t : Tile) : (s.setTile tl t).fresh = s.fresh := by unfold setTile; rfl
@[simp] theorem setTile_flash (s : State) (tl : TileRef) (t : Tile) : (s.setTile tl t).flash = s.flash := by unfold setTile; rfl
@[simp] theorem setTile_pins (s : State) (tl : TileRef) (t : Tile) : (s.setTile tl t).pins = s.pins := by unfold setTile; rfl
@[simp] theorem setTile_i3c (s : State) (tl : TileRef) (t : Tile) : (s.setTile tl t).i3c = s.i3c := by unfold setTile; rfl
@[simp] theorem setTile_boot (s : State) (tl : TileRef) (t : Tile) : (s.setTile tl t).boot = s.boot := by unfold setTile; rfl
@[simp] theorem setTile_dev (s : State) (tl : TileRef) (t : Tile) : (s.setTile tl t).dev = s.dev := by unfold setTile; rfl
@[simp] theorem setTile_rootstock (s : State) (tl : TileRef) (t : Tile) : (s.setTile tl t).rootstock = s.rootstock := by unfold setTile; rfl
@[simp] theorem setTile_time (s : State) (tl : TileRef) (t : Tile) : (s.setTile tl t).time = s.time := by unfold setTile; rfl
@[simp] theorem setTile_pow (s : State) (tl : TileRef) (t : Tile) : (s.setTile tl t).pow = s.pow := by unfold setTile; rfl
@[simp] theorem setTile_sec (s : State) (tl : TileRef) (t : Tile) : (s.setTile tl t).sec = s.sec := by unfold setTile; rfl
@[simp] theorem setTile_step (s : State) (tl : TileRef) (t : Tile) : (s.setTile tl t).step = s.step := by unfold setTile; rfl
@[simp] theorem setTile_mir (s : State) (tl : TileRef) (t : Tile) : (s.setTile tl t).mir = s.mir := by unfold setTile; rfl
@[simp] theorem setTile_eth0 (s : State) (tl : TileRef) (t : Tile) : (s.setTile tl t).eth0 = s.eth0 := by unfold setTile; rfl
@[simp] theorem setTile_eth1 (s : State) (tl : TileRef) (t : Tile) : (s.setTile tl t).eth1 = s.eth1 := by unfold setTile; rfl
@[simp] theorem setTile_dctCfg (s : State) (tl : TileRef) (t : Tile) : (s.setTile tl t).dctCfg = s.dctCfg := by unfold setTile; rfl
@[simp] theorem setTile_dctCounters (s : State) (tl : TileRef) (t : Tile) : (s.setTile tl t).dctCounters = s.dctCounters := by unfold setTile; rfl
@[simp] theorem setTile_rst (s : State) (tl : TileRef) (t : Tile) : (s.setTile tl t).rst = s.rst := by unfold setTile; rfl
@[simp] theorem setTile_ports (s : State) (tl : TileRef) (t : Tile) : (s.setTile tl t).ports = s.ports := by unfold setTile; rfl
@[simp] theorem setTile_parts (s : State) (tl : TileRef) (t : Tile) : (s.setTile tl t).parts = s.parts := by unfold setTile; rfl
@[simp] theorem setTile_memStacks (s : State) (tl : TileRef) (t : Tile) : (s.setTile tl t).memStacks = s.memStacks := by unfold setTile; rfl
@[simp] theorem setTile_sites (s : State) (tl : TileRef) (t : Tile) : (s.setTile tl t).sites = s.sites := by unfold setTile; rfl
@[simp] theorem setTile_mem (s : State) (tl : TileRef) (t : Tile) : (s.setTile tl t).mem = s.mem := by unfold setTile; rfl
@[simp] theorem setTile_sessions (s : State) (tl : TileRef) (t : Tile) : (s.setTile tl t).sessions = s.sessions := by unfold setTile; rfl
@[simp] theorem setTile_unacked (s : State) (tl : TileRef) (t : Tile) : (s.setTile tl t).unacked = s.unacked := by unfold setTile; rfl
@[simp] theorem setTile_decisions (s : State) (tl : TileRef) (t : Tile) : (s.setTile tl t).decisions = s.decisions := by unfold setTile; rfl
@[simp] theorem setTile_nextReq (s : State) (tl : TileRef) (t : Tile) : (s.setTile tl t).nextReq = s.nextReq := by unfold setTile; rfl
@[simp] theorem setTile_img (s : State) (tl : TileRef) (t : Tile) : (s.setTile tl t).img = s.img := by unfold setTile; rfl
@[simp] theorem setTile_job (s : State) (tl : TileRef) (t : Tile) : (s.setTile tl t).job = s.job := by unfold setTile; rfl
@[simp] theorem setTile_fd (s : State) (tl : TileRef) (t : Tile) : (s.setTile tl t).fd = s.fd := by unfold setTile; rfl
@[simp] theorem setTile_fabric (s : State) (tl : TileRef) (t : Tile) : (s.setTile tl t).fabric = s.fabric := by unfold setTile; rfl

@[simp] theorem onTile_pending (s : State) (tl : TileRef) (f : Tile → Tile) : (s.onTile tl f).pending = s.pending := by unfold onTile setTile; rfl
@[simp] theorem onTile_released (s : State) (tl : TileRef) (f : Tile → Tile) : (s.onTile tl f).released = s.released := by unfold onTile setTile; rfl
@[simp] theorem onTile_out (s : State) (tl : TileRef) (f : Tile → Tile) : (s.onTile tl f).out = s.out := by unfold onTile setTile; rfl
@[simp] theorem onTile_fresh (s : State) (tl : TileRef) (f : Tile → Tile) : (s.onTile tl f).fresh = s.fresh := by unfold onTile setTile; rfl
@[simp] theorem onTile_flash (s : State) (tl : TileRef) (f : Tile → Tile) : (s.onTile tl f).flash = s.flash := by unfold onTile setTile; rfl
@[simp] theorem onTile_pins (s : State) (tl : TileRef) (f : Tile → Tile) : (s.onTile tl f).pins = s.pins := by unfold onTile setTile; rfl
@[simp] theorem onTile_i3c (s : State) (tl : TileRef) (f : Tile → Tile) : (s.onTile tl f).i3c = s.i3c := by unfold onTile setTile; rfl
@[simp] theorem onTile_boot (s : State) (tl : TileRef) (f : Tile → Tile) : (s.onTile tl f).boot = s.boot := by unfold onTile setTile; rfl
@[simp] theorem onTile_dev (s : State) (tl : TileRef) (f : Tile → Tile) : (s.onTile tl f).dev = s.dev := by unfold onTile setTile; rfl
@[simp] theorem onTile_rootstock (s : State) (tl : TileRef) (f : Tile → Tile) : (s.onTile tl f).rootstock = s.rootstock := by unfold onTile setTile; rfl
@[simp] theorem onTile_time (s : State) (tl : TileRef) (f : Tile → Tile) : (s.onTile tl f).time = s.time := by unfold onTile setTile; rfl
@[simp] theorem onTile_pow (s : State) (tl : TileRef) (f : Tile → Tile) : (s.onTile tl f).pow = s.pow := by unfold onTile setTile; rfl
@[simp] theorem onTile_sec (s : State) (tl : TileRef) (f : Tile → Tile) : (s.onTile tl f).sec = s.sec := by unfold onTile setTile; rfl
@[simp] theorem onTile_step (s : State) (tl : TileRef) (f : Tile → Tile) : (s.onTile tl f).step = s.step := by unfold onTile setTile; rfl
@[simp] theorem onTile_mir (s : State) (tl : TileRef) (f : Tile → Tile) : (s.onTile tl f).mir = s.mir := by unfold onTile setTile; rfl
@[simp] theorem onTile_eth0 (s : State) (tl : TileRef) (f : Tile → Tile) : (s.onTile tl f).eth0 = s.eth0 := by unfold onTile setTile; rfl
@[simp] theorem onTile_eth1 (s : State) (tl : TileRef) (f : Tile → Tile) : (s.onTile tl f).eth1 = s.eth1 := by unfold onTile setTile; rfl
@[simp] theorem onTile_dctCfg (s : State) (tl : TileRef) (f : Tile → Tile) : (s.onTile tl f).dctCfg = s.dctCfg := by unfold onTile setTile; rfl
@[simp] theorem onTile_dctCounters (s : State) (tl : TileRef) (f : Tile → Tile) : (s.onTile tl f).dctCounters = s.dctCounters := by unfold onTile setTile; rfl
@[simp] theorem onTile_rst (s : State) (tl : TileRef) (f : Tile → Tile) : (s.onTile tl f).rst = s.rst := by unfold onTile setTile; rfl
@[simp] theorem onTile_ports (s : State) (tl : TileRef) (f : Tile → Tile) : (s.onTile tl f).ports = s.ports := by unfold onTile setTile; rfl
@[simp] theorem onTile_parts (s : State) (tl : TileRef) (f : Tile → Tile) : (s.onTile tl f).parts = s.parts := by unfold onTile setTile; rfl
@[simp] theorem onTile_memStacks (s : State) (tl : TileRef) (f : Tile → Tile) : (s.onTile tl f).memStacks = s.memStacks := by unfold onTile setTile; rfl
@[simp] theorem onTile_sites (s : State) (tl : TileRef) (f : Tile → Tile) : (s.onTile tl f).sites = s.sites := by unfold onTile setTile; rfl
@[simp] theorem onTile_mem (s : State) (tl : TileRef) (f : Tile → Tile) : (s.onTile tl f).mem = s.mem := by unfold onTile setTile; rfl
@[simp] theorem onTile_sessions (s : State) (tl : TileRef) (f : Tile → Tile) : (s.onTile tl f).sessions = s.sessions := by unfold onTile setTile; rfl
@[simp] theorem onTile_unacked (s : State) (tl : TileRef) (f : Tile → Tile) : (s.onTile tl f).unacked = s.unacked := by unfold onTile setTile; rfl
@[simp] theorem onTile_decisions (s : State) (tl : TileRef) (f : Tile → Tile) : (s.onTile tl f).decisions = s.decisions := by unfold onTile setTile; rfl
@[simp] theorem onTile_nextReq (s : State) (tl : TileRef) (f : Tile → Tile) : (s.onTile tl f).nextReq = s.nextReq := by unfold onTile setTile; rfl
@[simp] theorem onTile_img (s : State) (tl : TileRef) (f : Tile → Tile) : (s.onTile tl f).img = s.img := by unfold onTile setTile; rfl
@[simp] theorem onTile_job (s : State) (tl : TileRef) (f : Tile → Tile) : (s.onTile tl f).job = s.job := by unfold onTile setTile; rfl
@[simp] theorem onTile_fd (s : State) (tl : TileRef) (f : Tile → Tile) : (s.onTile tl f).fd = s.fd := by unfold onTile setTile; rfl
@[simp] theorem onTile_fabric (s : State) (tl : TileRef) (f : Tile → Tile) : (s.onTile tl f).fabric = s.fabric := by unfold onTile setTile; rfl

@[simp] theorem setPart_pending (s : State) (p : Nat) (a : Part) : (s.setPart p a).pending = s.pending := by unfold setPart; rfl
@[simp] theorem setPart_released (s : State) (p : Nat) (a : Part) : (s.setPart p a).released = s.released := by unfold setPart; rfl
@[simp] theorem setPart_out (s : State) (p : Nat) (a : Part) : (s.setPart p a).out = s.out := by unfold setPart; rfl
@[simp] theorem setPart_fresh (s : State) (p : Nat) (a : Part) : (s.setPart p a).fresh = s.fresh := by unfold setPart; rfl
@[simp] theorem setPart_flash (s : State) (p : Nat) (a : Part) : (s.setPart p a).flash = s.flash := by unfold setPart; rfl
@[simp] theorem setPart_pins (s : State) (p : Nat) (a : Part) : (s.setPart p a).pins = s.pins := by unfold setPart; rfl
@[simp] theorem setPart_i3c (s : State) (p : Nat) (a : Part) : (s.setPart p a).i3c = s.i3c := by unfold setPart; rfl
@[simp] theorem setPart_boot (s : State) (p : Nat) (a : Part) : (s.setPart p a).boot = s.boot := by unfold setPart; rfl
@[simp] theorem setPart_dev (s : State) (p : Nat) (a : Part) : (s.setPart p a).dev = s.dev := by unfold setPart; rfl
@[simp] theorem setPart_rootstock (s : State) (p : Nat) (a : Part) : (s.setPart p a).rootstock = s.rootstock := by unfold setPart; rfl
@[simp] theorem setPart_time (s : State) (p : Nat) (a : Part) : (s.setPart p a).time = s.time := by unfold setPart; rfl
@[simp] theorem setPart_pow (s : State) (p : Nat) (a : Part) : (s.setPart p a).pow = s.pow := by unfold setPart; rfl
@[simp] theorem setPart_sec (s : State) (p : Nat) (a : Part) : (s.setPart p a).sec = s.sec := by unfold setPart; rfl
@[simp] theorem setPart_step (s : State) (p : Nat) (a : Part) : (s.setPart p a).step = s.step := by unfold setPart; rfl
@[simp] theorem setPart_mir (s : State) (p : Nat) (a : Part) : (s.setPart p a).mir = s.mir := by unfold setPart; rfl
@[simp] theorem setPart_eth0 (s : State) (p : Nat) (a : Part) : (s.setPart p a).eth0 = s.eth0 := by unfold setPart; rfl
@[simp] theorem setPart_eth1 (s : State) (p : Nat) (a : Part) : (s.setPart p a).eth1 = s.eth1 := by unfold setPart; rfl
@[simp] theorem setPart_dctCfg (s : State) (p : Nat) (a : Part) : (s.setPart p a).dctCfg = s.dctCfg := by unfold setPart; rfl
@[simp] theorem setPart_dctCounters (s : State) (p : Nat) (a : Part) : (s.setPart p a).dctCounters = s.dctCounters := by unfold setPart; rfl
@[simp] theorem setPart_rst (s : State) (p : Nat) (a : Part) : (s.setPart p a).rst = s.rst := by unfold setPart; rfl
@[simp] theorem setPart_ports (s : State) (p : Nat) (a : Part) : (s.setPart p a).ports = s.ports := by unfold setPart; rfl
@[simp] theorem setPart_memStacks (s : State) (p : Nat) (a : Part) : (s.setPart p a).memStacks = s.memStacks := by unfold setPart; rfl
@[simp] theorem setPart_tiles (s : State) (p : Nat) (a : Part) : (s.setPart p a).tiles = s.tiles := by unfold setPart; rfl
@[simp] theorem setPart_sites (s : State) (p : Nat) (a : Part) : (s.setPart p a).sites = s.sites := by unfold setPart; rfl
@[simp] theorem setPart_mem (s : State) (p : Nat) (a : Part) : (s.setPart p a).mem = s.mem := by unfold setPart; rfl
@[simp] theorem setPart_sessions (s : State) (p : Nat) (a : Part) : (s.setPart p a).sessions = s.sessions := by unfold setPart; rfl
@[simp] theorem setPart_unacked (s : State) (p : Nat) (a : Part) : (s.setPart p a).unacked = s.unacked := by unfold setPart; rfl
@[simp] theorem setPart_decisions (s : State) (p : Nat) (a : Part) : (s.setPart p a).decisions = s.decisions := by unfold setPart; rfl
@[simp] theorem setPart_nextReq (s : State) (p : Nat) (a : Part) : (s.setPart p a).nextReq = s.nextReq := by unfold setPart; rfl
@[simp] theorem setPart_img (s : State) (p : Nat) (a : Part) : (s.setPart p a).img = s.img := by unfold setPart; rfl
@[simp] theorem setPart_job (s : State) (p : Nat) (a : Part) : (s.setPart p a).job = s.job := by unfold setPart; rfl
@[simp] theorem setPart_fd (s : State) (p : Nat) (a : Part) : (s.setPart p a).fd = s.fd := by unfold setPart; rfl
@[simp] theorem setPart_fabric (s : State) (p : Nat) (a : Part) : (s.setPart p a).fabric = s.fabric := by unfold setPart; rfl

@[simp] theorem onPart_pending (s : State) (p : Nat) (f : Part → Part) : (s.onPart p f).pending = s.pending := by unfold onPart setPart; rfl
@[simp] theorem onPart_released (s : State) (p : Nat) (f : Part → Part) : (s.onPart p f).released = s.released := by unfold onPart setPart; rfl
@[simp] theorem onPart_out (s : State) (p : Nat) (f : Part → Part) : (s.onPart p f).out = s.out := by unfold onPart setPart; rfl
@[simp] theorem onPart_fresh (s : State) (p : Nat) (f : Part → Part) : (s.onPart p f).fresh = s.fresh := by unfold onPart setPart; rfl
@[simp] theorem onPart_flash (s : State) (p : Nat) (f : Part → Part) : (s.onPart p f).flash = s.flash := by unfold onPart setPart; rfl
@[simp] theorem onPart_pins (s : State) (p : Nat) (f : Part → Part) : (s.onPart p f).pins = s.pins := by unfold onPart setPart; rfl
@[simp] theorem onPart_i3c (s : State) (p : Nat) (f : Part → Part) : (s.onPart p f).i3c = s.i3c := by unfold onPart setPart; rfl
@[simp] theorem onPart_boot (s : State) (p : Nat) (f : Part → Part) : (s.onPart p f).boot = s.boot := by unfold onPart setPart; rfl
@[simp] theorem onPart_dev (s : State) (p : Nat) (f : Part → Part) : (s.onPart p f).dev = s.dev := by unfold onPart setPart; rfl
@[simp] theorem onPart_rootstock (s : State) (p : Nat) (f : Part → Part) : (s.onPart p f).rootstock = s.rootstock := by unfold onPart setPart; rfl
@[simp] theorem onPart_time (s : State) (p : Nat) (f : Part → Part) : (s.onPart p f).time = s.time := by unfold onPart setPart; rfl
@[simp] theorem onPart_pow (s : State) (p : Nat) (f : Part → Part) : (s.onPart p f).pow = s.pow := by unfold onPart setPart; rfl
@[simp] theorem onPart_sec (s : State) (p : Nat) (f : Part → Part) : (s.onPart p f).sec = s.sec := by unfold onPart setPart; rfl
@[simp] theorem onPart_step (s : State) (p : Nat) (f : Part → Part) : (s.onPart p f).step = s.step := by unfold onPart setPart; rfl
@[simp] theorem onPart_mir (s : State) (p : Nat) (f : Part → Part) : (s.onPart p f).mir = s.mir := by unfold onPart setPart; rfl
@[simp] theorem onPart_eth0 (s : State) (p : Nat) (f : Part → Part) : (s.onPart p f).eth0 = s.eth0 := by unfold onPart setPart; rfl
@[simp] theorem onPart_eth1 (s : State) (p : Nat) (f : Part → Part) : (s.onPart p f).eth1 = s.eth1 := by unfold onPart setPart; rfl
@[simp] theorem onPart_dctCfg (s : State) (p : Nat) (f : Part → Part) : (s.onPart p f).dctCfg = s.dctCfg := by unfold onPart setPart; rfl
@[simp] theorem onPart_dctCounters (s : State) (p : Nat) (f : Part → Part) : (s.onPart p f).dctCounters = s.dctCounters := by unfold onPart setPart; rfl
@[simp] theorem onPart_rst (s : State) (p : Nat) (f : Part → Part) : (s.onPart p f).rst = s.rst := by unfold onPart setPart; rfl
@[simp] theorem onPart_ports (s : State) (p : Nat) (f : Part → Part) : (s.onPart p f).ports = s.ports := by unfold onPart setPart; rfl
@[simp] theorem onPart_memStacks (s : State) (p : Nat) (f : Part → Part) : (s.onPart p f).memStacks = s.memStacks := by unfold onPart setPart; rfl
@[simp] theorem onPart_tiles (s : State) (p : Nat) (f : Part → Part) : (s.onPart p f).tiles = s.tiles := by unfold onPart setPart; rfl
@[simp] theorem onPart_sites (s : State) (p : Nat) (f : Part → Part) : (s.onPart p f).sites = s.sites := by unfold onPart setPart; rfl
@[simp] theorem onPart_mem (s : State) (p : Nat) (f : Part → Part) : (s.onPart p f).mem = s.mem := by unfold onPart setPart; rfl
@[simp] theorem onPart_sessions (s : State) (p : Nat) (f : Part → Part) : (s.onPart p f).sessions = s.sessions := by unfold onPart setPart; rfl
@[simp] theorem onPart_unacked (s : State) (p : Nat) (f : Part → Part) : (s.onPart p f).unacked = s.unacked := by unfold onPart setPart; rfl
@[simp] theorem onPart_decisions (s : State) (p : Nat) (f : Part → Part) : (s.onPart p f).decisions = s.decisions := by unfold onPart setPart; rfl
@[simp] theorem onPart_nextReq (s : State) (p : Nat) (f : Part → Part) : (s.onPart p f).nextReq = s.nextReq := by unfold onPart setPart; rfl
@[simp] theorem onPart_img (s : State) (p : Nat) (f : Part → Part) : (s.onPart p f).img = s.img := by unfold onPart setPart; rfl
@[simp] theorem onPart_job (s : State) (p : Nat) (f : Part → Part) : (s.onPart p f).job = s.job := by unfold onPart setPart; rfl
@[simp] theorem onPart_fd (s : State) (p : Nat) (f : Part → Part) : (s.onPart p f).fd = s.fd := by unfold onPart setPart; rfl
@[simp] theorem onPart_fabric (s : State) (p : Nat) (f : Part → Part) : (s.onPart p f).fabric = s.fabric := by unfold onPart setPart; rfl

@[simp] theorem setPort_pending (s : State) (n : Nat) (a : Port) : (s.setPort n a).pending = s.pending := by unfold setPort; rfl
@[simp] theorem setPort_released (s : State) (n : Nat) (a : Port) : (s.setPort n a).released = s.released := by unfold setPort; rfl
@[simp] theorem setPort_out (s : State) (n : Nat) (a : Port) : (s.setPort n a).out = s.out := by unfold setPort; rfl
@[simp] theorem setPort_fresh (s : State) (n : Nat) (a : Port) : (s.setPort n a).fresh = s.fresh := by unfold setPort; rfl
@[simp] theorem setPort_flash (s : State) (n : Nat) (a : Port) : (s.setPort n a).flash = s.flash := by unfold setPort; rfl
@[simp] theorem setPort_pins (s : State) (n : Nat) (a : Port) : (s.setPort n a).pins = s.pins := by unfold setPort; rfl
@[simp] theorem setPort_i3c (s : State) (n : Nat) (a : Port) : (s.setPort n a).i3c = s.i3c := by unfold setPort; rfl
@[simp] theorem setPort_boot (s : State) (n : Nat) (a : Port) : (s.setPort n a).boot = s.boot := by unfold setPort; rfl
@[simp] theorem setPort_dev (s : State) (n : Nat) (a : Port) : (s.setPort n a).dev = s.dev := by unfold setPort; rfl
@[simp] theorem setPort_rootstock (s : State) (n : Nat) (a : Port) : (s.setPort n a).rootstock = s.rootstock := by unfold setPort; rfl
@[simp] theorem setPort_time (s : State) (n : Nat) (a : Port) : (s.setPort n a).time = s.time := by unfold setPort; rfl
@[simp] theorem setPort_pow (s : State) (n : Nat) (a : Port) : (s.setPort n a).pow = s.pow := by unfold setPort; rfl
@[simp] theorem setPort_sec (s : State) (n : Nat) (a : Port) : (s.setPort n a).sec = s.sec := by unfold setPort; rfl
@[simp] theorem setPort_step (s : State) (n : Nat) (a : Port) : (s.setPort n a).step = s.step := by unfold setPort; rfl
@[simp] theorem setPort_mir (s : State) (n : Nat) (a : Port) : (s.setPort n a).mir = s.mir := by unfold setPort; rfl
@[simp] theorem setPort_eth0 (s : State) (n : Nat) (a : Port) : (s.setPort n a).eth0 = s.eth0 := by unfold setPort; rfl
@[simp] theorem setPort_eth1 (s : State) (n : Nat) (a : Port) : (s.setPort n a).eth1 = s.eth1 := by unfold setPort; rfl
@[simp] theorem setPort_dctCfg (s : State) (n : Nat) (a : Port) : (s.setPort n a).dctCfg = s.dctCfg := by unfold setPort; rfl
@[simp] theorem setPort_dctCounters (s : State) (n : Nat) (a : Port) : (s.setPort n a).dctCounters = s.dctCounters := by unfold setPort; rfl
@[simp] theorem setPort_rst (s : State) (n : Nat) (a : Port) : (s.setPort n a).rst = s.rst := by unfold setPort; rfl
@[simp] theorem setPort_parts (s : State) (n : Nat) (a : Port) : (s.setPort n a).parts = s.parts := by unfold setPort; rfl
@[simp] theorem setPort_memStacks (s : State) (n : Nat) (a : Port) : (s.setPort n a).memStacks = s.memStacks := by unfold setPort; rfl
@[simp] theorem setPort_tiles (s : State) (n : Nat) (a : Port) : (s.setPort n a).tiles = s.tiles := by unfold setPort; rfl
@[simp] theorem setPort_sites (s : State) (n : Nat) (a : Port) : (s.setPort n a).sites = s.sites := by unfold setPort; rfl
@[simp] theorem setPort_mem (s : State) (n : Nat) (a : Port) : (s.setPort n a).mem = s.mem := by unfold setPort; rfl
@[simp] theorem setPort_sessions (s : State) (n : Nat) (a : Port) : (s.setPort n a).sessions = s.sessions := by unfold setPort; rfl
@[simp] theorem setPort_unacked (s : State) (n : Nat) (a : Port) : (s.setPort n a).unacked = s.unacked := by unfold setPort; rfl
@[simp] theorem setPort_decisions (s : State) (n : Nat) (a : Port) : (s.setPort n a).decisions = s.decisions := by unfold setPort; rfl
@[simp] theorem setPort_nextReq (s : State) (n : Nat) (a : Port) : (s.setPort n a).nextReq = s.nextReq := by unfold setPort; rfl
@[simp] theorem setPort_img (s : State) (n : Nat) (a : Port) : (s.setPort n a).img = s.img := by unfold setPort; rfl
@[simp] theorem setPort_job (s : State) (n : Nat) (a : Port) : (s.setPort n a).job = s.job := by unfold setPort; rfl
@[simp] theorem setPort_fd (s : State) (n : Nat) (a : Port) : (s.setPort n a).fd = s.fd := by unfold setPort; rfl
@[simp] theorem setPort_fabric (s : State) (n : Nat) (a : Port) : (s.setPort n a).fabric = s.fabric := by unfold setPort; rfl

@[simp] theorem onPort_pending (s : State) (n : Nat) (f : Port → Port) : (s.onPort n f).pending = s.pending := by unfold onPort setPort; rfl
@[simp] theorem onPort_released (s : State) (n : Nat) (f : Port → Port) : (s.onPort n f).released = s.released := by unfold onPort setPort; rfl
@[simp] theorem onPort_out (s : State) (n : Nat) (f : Port → Port) : (s.onPort n f).out = s.out := by unfold onPort setPort; rfl
@[simp] theorem onPort_fresh (s : State) (n : Nat) (f : Port → Port) : (s.onPort n f).fresh = s.fresh := by unfold onPort setPort; rfl
@[simp] theorem onPort_flash (s : State) (n : Nat) (f : Port → Port) : (s.onPort n f).flash = s.flash := by unfold onPort setPort; rfl
@[simp] theorem onPort_pins (s : State) (n : Nat) (f : Port → Port) : (s.onPort n f).pins = s.pins := by unfold onPort setPort; rfl
@[simp] theorem onPort_i3c (s : State) (n : Nat) (f : Port → Port) : (s.onPort n f).i3c = s.i3c := by unfold onPort setPort; rfl
@[simp] theorem onPort_boot (s : State) (n : Nat) (f : Port → Port) : (s.onPort n f).boot = s.boot := by unfold onPort setPort; rfl
@[simp] theorem onPort_dev (s : State) (n : Nat) (f : Port → Port) : (s.onPort n f).dev = s.dev := by unfold onPort setPort; rfl
@[simp] theorem onPort_rootstock (s : State) (n : Nat) (f : Port → Port) : (s.onPort n f).rootstock = s.rootstock := by unfold onPort setPort; rfl
@[simp] theorem onPort_time (s : State) (n : Nat) (f : Port → Port) : (s.onPort n f).time = s.time := by unfold onPort setPort; rfl
@[simp] theorem onPort_pow (s : State) (n : Nat) (f : Port → Port) : (s.onPort n f).pow = s.pow := by unfold onPort setPort; rfl
@[simp] theorem onPort_sec (s : State) (n : Nat) (f : Port → Port) : (s.onPort n f).sec = s.sec := by unfold onPort setPort; rfl
@[simp] theorem onPort_step (s : State) (n : Nat) (f : Port → Port) : (s.onPort n f).step = s.step := by unfold onPort setPort; rfl
@[simp] theorem onPort_mir (s : State) (n : Nat) (f : Port → Port) : (s.onPort n f).mir = s.mir := by unfold onPort setPort; rfl
@[simp] theorem onPort_eth0 (s : State) (n : Nat) (f : Port → Port) : (s.onPort n f).eth0 = s.eth0 := by unfold onPort setPort; rfl
@[simp] theorem onPort_eth1 (s : State) (n : Nat) (f : Port → Port) : (s.onPort n f).eth1 = s.eth1 := by unfold onPort setPort; rfl
@[simp] theorem onPort_dctCfg (s : State) (n : Nat) (f : Port → Port) : (s.onPort n f).dctCfg = s.dctCfg := by unfold onPort setPort; rfl
@[simp] theorem onPort_dctCounters (s : State) (n : Nat) (f : Port → Port) : (s.onPort n f).dctCounters = s.dctCounters := by unfold onPort setPort; rfl
@[simp] theorem onPort_rst (s : State) (n : Nat) (f : Port → Port) : (s.onPort n f).rst = s.rst := by unfold onPort setPort; rfl
@[simp] theorem onPort_parts (s : State) (n : Nat) (f : Port → Port) : (s.onPort n f).parts = s.parts := by unfold onPort setPort; rfl
@[simp] theorem onPort_memStacks (s : State) (n : Nat) (f : Port → Port) : (s.onPort n f).memStacks = s.memStacks := by unfold onPort setPort; rfl
@[simp] theorem onPort_tiles (s : State) (n : Nat) (f : Port → Port) : (s.onPort n f).tiles = s.tiles := by unfold onPort setPort; rfl
@[simp] theorem onPort_sites (s : State) (n : Nat) (f : Port → Port) : (s.onPort n f).sites = s.sites := by unfold onPort setPort; rfl
@[simp] theorem onPort_mem (s : State) (n : Nat) (f : Port → Port) : (s.onPort n f).mem = s.mem := by unfold onPort setPort; rfl
@[simp] theorem onPort_sessions (s : State) (n : Nat) (f : Port → Port) : (s.onPort n f).sessions = s.sessions := by unfold onPort setPort; rfl
@[simp] theorem onPort_unacked (s : State) (n : Nat) (f : Port → Port) : (s.onPort n f).unacked = s.unacked := by unfold onPort setPort; rfl
@[simp] theorem onPort_decisions (s : State) (n : Nat) (f : Port → Port) : (s.onPort n f).decisions = s.decisions := by unfold onPort setPort; rfl
@[simp] theorem onPort_nextReq (s : State) (n : Nat) (f : Port → Port) : (s.onPort n f).nextReq = s.nextReq := by unfold onPort setPort; rfl
@[simp] theorem onPort_img (s : State) (n : Nat) (f : Port → Port) : (s.onPort n f).img = s.img := by unfold onPort setPort; rfl
@[simp] theorem onPort_job (s : State) (n : Nat) (f : Port → Port) : (s.onPort n f).job = s.job := by unfold onPort setPort; rfl
@[simp] theorem onPort_fd (s : State) (n : Nat) (f : Port → Port) : (s.onPort n f).fd = s.fd := by unfold onPort setPort; rfl
@[simp] theorem onPort_fabric (s : State) (n : Nat) (f : Port → Port) : (s.onPort n f).fabric = s.fabric := by unfold onPort setPort; rfl

@[simp] theorem setStack_pending (s : State) (p k : Nat) (a : Stack) : (s.setStack p k a).pending = s.pending := by unfold setStack; rfl
@[simp] theorem setStack_released (s : State) (p k : Nat) (a : Stack) : (s.setStack p k a).released = s.released := by unfold setStack; rfl
@[simp] theorem setStack_out (s : State) (p k : Nat) (a : Stack) : (s.setStack p k a).out = s.out := by unfold setStack; rfl
@[simp] theorem setStack_fresh (s : State) (p k : Nat) (a : Stack) : (s.setStack p k a).fresh = s.fresh := by unfold setStack; rfl
@[simp] theorem setStack_flash (s : State) (p k : Nat) (a : Stack) : (s.setStack p k a).flash = s.flash := by unfold setStack; rfl
@[simp] theorem setStack_pins (s : State) (p k : Nat) (a : Stack) : (s.setStack p k a).pins = s.pins := by unfold setStack; rfl
@[simp] theorem setStack_i3c (s : State) (p k : Nat) (a : Stack) : (s.setStack p k a).i3c = s.i3c := by unfold setStack; rfl
@[simp] theorem setStack_boot (s : State) (p k : Nat) (a : Stack) : (s.setStack p k a).boot = s.boot := by unfold setStack; rfl
@[simp] theorem setStack_dev (s : State) (p k : Nat) (a : Stack) : (s.setStack p k a).dev = s.dev := by unfold setStack; rfl
@[simp] theorem setStack_rootstock (s : State) (p k : Nat) (a : Stack) : (s.setStack p k a).rootstock = s.rootstock := by unfold setStack; rfl
@[simp] theorem setStack_time (s : State) (p k : Nat) (a : Stack) : (s.setStack p k a).time = s.time := by unfold setStack; rfl
@[simp] theorem setStack_pow (s : State) (p k : Nat) (a : Stack) : (s.setStack p k a).pow = s.pow := by unfold setStack; rfl
@[simp] theorem setStack_sec (s : State) (p k : Nat) (a : Stack) : (s.setStack p k a).sec = s.sec := by unfold setStack; rfl
@[simp] theorem setStack_step (s : State) (p k : Nat) (a : Stack) : (s.setStack p k a).step = s.step := by unfold setStack; rfl
@[simp] theorem setStack_mir (s : State) (p k : Nat) (a : Stack) : (s.setStack p k a).mir = s.mir := by unfold setStack; rfl
@[simp] theorem setStack_eth0 (s : State) (p k : Nat) (a : Stack) : (s.setStack p k a).eth0 = s.eth0 := by unfold setStack; rfl
@[simp] theorem setStack_eth1 (s : State) (p k : Nat) (a : Stack) : (s.setStack p k a).eth1 = s.eth1 := by unfold setStack; rfl
@[simp] theorem setStack_dctCfg (s : State) (p k : Nat) (a : Stack) : (s.setStack p k a).dctCfg = s.dctCfg := by unfold setStack; rfl
@[simp] theorem setStack_dctCounters (s : State) (p k : Nat) (a : Stack) : (s.setStack p k a).dctCounters = s.dctCounters := by unfold setStack; rfl
@[simp] theorem setStack_rst (s : State) (p k : Nat) (a : Stack) : (s.setStack p k a).rst = s.rst := by unfold setStack; rfl
@[simp] theorem setStack_ports (s : State) (p k : Nat) (a : Stack) : (s.setStack p k a).ports = s.ports := by unfold setStack; rfl
@[simp] theorem setStack_parts (s : State) (p k : Nat) (a : Stack) : (s.setStack p k a).parts = s.parts := by unfold setStack; rfl
@[simp] theorem setStack_tiles (s : State) (p k : Nat) (a : Stack) : (s.setStack p k a).tiles = s.tiles := by unfold setStack; rfl
@[simp] theorem setStack_sites (s : State) (p k : Nat) (a : Stack) : (s.setStack p k a).sites = s.sites := by unfold setStack; rfl
@[simp] theorem setStack_mem (s : State) (p k : Nat) (a : Stack) : (s.setStack p k a).mem = s.mem := by unfold setStack; rfl
@[simp] theorem setStack_sessions (s : State) (p k : Nat) (a : Stack) : (s.setStack p k a).sessions = s.sessions := by unfold setStack; rfl
@[simp] theorem setStack_unacked (s : State) (p k : Nat) (a : Stack) : (s.setStack p k a).unacked = s.unacked := by unfold setStack; rfl
@[simp] theorem setStack_decisions (s : State) (p k : Nat) (a : Stack) : (s.setStack p k a).decisions = s.decisions := by unfold setStack; rfl
@[simp] theorem setStack_nextReq (s : State) (p k : Nat) (a : Stack) : (s.setStack p k a).nextReq = s.nextReq := by unfold setStack; rfl
@[simp] theorem setStack_img (s : State) (p k : Nat) (a : Stack) : (s.setStack p k a).img = s.img := by unfold setStack; rfl
@[simp] theorem setStack_job (s : State) (p k : Nat) (a : Stack) : (s.setStack p k a).job = s.job := by unfold setStack; rfl
@[simp] theorem setStack_fd (s : State) (p k : Nat) (a : Stack) : (s.setStack p k a).fd = s.fd := by unfold setStack; rfl
@[simp] theorem setStack_fabric (s : State) (p k : Nat) (a : Stack) : (s.setStack p k a).fabric = s.fabric := by unfold setStack; rfl

@[simp] theorem setSite_pending (s : State) (p k : Nat) (a : Site) : (s.setSite p k a).pending = s.pending := by unfold setSite; rfl
@[simp] theorem setSite_released (s : State) (p k : Nat) (a : Site) : (s.setSite p k a).released = s.released := by unfold setSite; rfl
@[simp] theorem setSite_out (s : State) (p k : Nat) (a : Site) : (s.setSite p k a).out = s.out := by unfold setSite; rfl
@[simp] theorem setSite_fresh (s : State) (p k : Nat) (a : Site) : (s.setSite p k a).fresh = s.fresh := by unfold setSite; rfl
@[simp] theorem setSite_flash (s : State) (p k : Nat) (a : Site) : (s.setSite p k a).flash = s.flash := by unfold setSite; rfl
@[simp] theorem setSite_pins (s : State) (p k : Nat) (a : Site) : (s.setSite p k a).pins = s.pins := by unfold setSite; rfl
@[simp] theorem setSite_i3c (s : State) (p k : Nat) (a : Site) : (s.setSite p k a).i3c = s.i3c := by unfold setSite; rfl
@[simp] theorem setSite_boot (s : State) (p k : Nat) (a : Site) : (s.setSite p k a).boot = s.boot := by unfold setSite; rfl
@[simp] theorem setSite_dev (s : State) (p k : Nat) (a : Site) : (s.setSite p k a).dev = s.dev := by unfold setSite; rfl
@[simp] theorem setSite_rootstock (s : State) (p k : Nat) (a : Site) : (s.setSite p k a).rootstock = s.rootstock := by unfold setSite; rfl
@[simp] theorem setSite_time (s : State) (p k : Nat) (a : Site) : (s.setSite p k a).time = s.time := by unfold setSite; rfl
@[simp] theorem setSite_pow (s : State) (p k : Nat) (a : Site) : (s.setSite p k a).pow = s.pow := by unfold setSite; rfl
@[simp] theorem setSite_sec (s : State) (p k : Nat) (a : Site) : (s.setSite p k a).sec = s.sec := by unfold setSite; rfl
@[simp] theorem setSite_step (s : State) (p k : Nat) (a : Site) : (s.setSite p k a).step = s.step := by unfold setSite; rfl
@[simp] theorem setSite_mir (s : State) (p k : Nat) (a : Site) : (s.setSite p k a).mir = s.mir := by unfold setSite; rfl
@[simp] theorem setSite_eth0 (s : State) (p k : Nat) (a : Site) : (s.setSite p k a).eth0 = s.eth0 := by unfold setSite; rfl
@[simp] theorem setSite_eth1 (s : State) (p k : Nat) (a : Site) : (s.setSite p k a).eth1 = s.eth1 := by unfold setSite; rfl
@[simp] theorem setSite_dctCfg (s : State) (p k : Nat) (a : Site) : (s.setSite p k a).dctCfg = s.dctCfg := by unfold setSite; rfl
@[simp] theorem setSite_dctCounters (s : State) (p k : Nat) (a : Site) : (s.setSite p k a).dctCounters = s.dctCounters := by unfold setSite; rfl
@[simp] theorem setSite_rst (s : State) (p k : Nat) (a : Site) : (s.setSite p k a).rst = s.rst := by unfold setSite; rfl
@[simp] theorem setSite_ports (s : State) (p k : Nat) (a : Site) : (s.setSite p k a).ports = s.ports := by unfold setSite; rfl
@[simp] theorem setSite_parts (s : State) (p k : Nat) (a : Site) : (s.setSite p k a).parts = s.parts := by unfold setSite; rfl
@[simp] theorem setSite_memStacks (s : State) (p k : Nat) (a : Site) : (s.setSite p k a).memStacks = s.memStacks := by unfold setSite; rfl
@[simp] theorem setSite_tiles (s : State) (p k : Nat) (a : Site) : (s.setSite p k a).tiles = s.tiles := by unfold setSite; rfl
@[simp] theorem setSite_mem (s : State) (p k : Nat) (a : Site) : (s.setSite p k a).mem = s.mem := by unfold setSite; rfl
@[simp] theorem setSite_sessions (s : State) (p k : Nat) (a : Site) : (s.setSite p k a).sessions = s.sessions := by unfold setSite; rfl
@[simp] theorem setSite_unacked (s : State) (p k : Nat) (a : Site) : (s.setSite p k a).unacked = s.unacked := by unfold setSite; rfl
@[simp] theorem setSite_decisions (s : State) (p k : Nat) (a : Site) : (s.setSite p k a).decisions = s.decisions := by unfold setSite; rfl
@[simp] theorem setSite_nextReq (s : State) (p k : Nat) (a : Site) : (s.setSite p k a).nextReq = s.nextReq := by unfold setSite; rfl
@[simp] theorem setSite_img (s : State) (p k : Nat) (a : Site) : (s.setSite p k a).img = s.img := by unfold setSite; rfl
@[simp] theorem setSite_job (s : State) (p k : Nat) (a : Site) : (s.setSite p k a).job = s.job := by unfold setSite; rfl
@[simp] theorem setSite_fd (s : State) (p k : Nat) (a : Site) : (s.setSite p k a).fd = s.fd := by unfold setSite; rfl
@[simp] theorem setSite_fabric (s : State) (p k : Nat) (a : Site) : (s.setSite p k a).fabric = s.fabric := by unfold setSite; rfl

@[simp] theorem onJob_pending (s : State) (f : Job → Job) : (s.onJob f).pending = s.pending := by unfold onJob; rfl
@[simp] theorem onJob_released (s : State) (f : Job → Job) : (s.onJob f).released = s.released := by unfold onJob; rfl
@[simp] theorem onJob_out (s : State) (f : Job → Job) : (s.onJob f).out = s.out := by unfold onJob; rfl
@[simp] theorem onJob_fresh (s : State) (f : Job → Job) : (s.onJob f).fresh = s.fresh := by unfold onJob; rfl
@[simp] theorem onJob_flash (s : State) (f : Job → Job) : (s.onJob f).flash = s.flash := by unfold onJob; rfl
@[simp] theorem onJob_pins (s : State) (f : Job → Job) : (s.onJob f).pins = s.pins := by unfold onJob; rfl
@[simp] theorem onJob_i3c (s : State) (f : Job → Job) : (s.onJob f).i3c = s.i3c := by unfold onJob; rfl
@[simp] theorem onJob_boot (s : State) (f : Job → Job) : (s.onJob f).boot = s.boot := by unfold onJob; rfl
@[simp] theorem onJob_dev (s : State) (f : Job → Job) : (s.onJob f).dev = s.dev := by unfold onJob; rfl
@[simp] theorem onJob_rootstock (s : State) (f : Job → Job) : (s.onJob f).rootstock = s.rootstock := by unfold onJob; rfl
@[simp] theorem onJob_time (s : State) (f : Job → Job) : (s.onJob f).time = s.time := by unfold onJob; rfl
@[simp] theorem onJob_pow (s : State) (f : Job → Job) : (s.onJob f).pow = s.pow := by unfold onJob; rfl
@[simp] theorem onJob_sec (s : State) (f : Job → Job) : (s.onJob f).sec = s.sec := by unfold onJob; rfl
@[simp] theorem onJob_step (s : State) (f : Job → Job) : (s.onJob f).step = s.step := by unfold onJob; rfl
@[simp] theorem onJob_mir (s : State) (f : Job → Job) : (s.onJob f).mir = s.mir := by unfold onJob; rfl
@[simp] theorem onJob_eth0 (s : State) (f : Job → Job) : (s.onJob f).eth0 = s.eth0 := by unfold onJob; rfl
@[simp] theorem onJob_eth1 (s : State) (f : Job → Job) : (s.onJob f).eth1 = s.eth1 := by unfold onJob; rfl
@[simp] theorem onJob_dctCfg (s : State) (f : Job → Job) : (s.onJob f).dctCfg = s.dctCfg := by unfold onJob; rfl
@[simp] theorem onJob_dctCounters (s : State) (f : Job → Job) : (s.onJob f).dctCounters = s.dctCounters := by unfold onJob; rfl
@[simp] theorem onJob_rst (s : State) (f : Job → Job) : (s.onJob f).rst = s.rst := by unfold onJob; rfl
@[simp] theorem onJob_ports (s : State) (f : Job → Job) : (s.onJob f).ports = s.ports := by unfold onJob; rfl
@[simp] theorem onJob_parts (s : State) (f : Job → Job) : (s.onJob f).parts = s.parts := by unfold onJob; rfl
@[simp] theorem onJob_memStacks (s : State) (f : Job → Job) : (s.onJob f).memStacks = s.memStacks := by unfold onJob; rfl
@[simp] theorem onJob_tiles (s : State) (f : Job → Job) : (s.onJob f).tiles = s.tiles := by unfold onJob; rfl
@[simp] theorem onJob_sites (s : State) (f : Job → Job) : (s.onJob f).sites = s.sites := by unfold onJob; rfl
@[simp] theorem onJob_mem (s : State) (f : Job → Job) : (s.onJob f).mem = s.mem := by unfold onJob; rfl
@[simp] theorem onJob_sessions (s : State) (f : Job → Job) : (s.onJob f).sessions = s.sessions := by unfold onJob; rfl
@[simp] theorem onJob_unacked (s : State) (f : Job → Job) : (s.onJob f).unacked = s.unacked := by unfold onJob; rfl
@[simp] theorem onJob_decisions (s : State) (f : Job → Job) : (s.onJob f).decisions = s.decisions := by unfold onJob; rfl
@[simp] theorem onJob_nextReq (s : State) (f : Job → Job) : (s.onJob f).nextReq = s.nextReq := by unfold onJob; rfl
@[simp] theorem onJob_img (s : State) (f : Job → Job) : (s.onJob f).img = s.img := by unfold onJob; rfl
@[simp] theorem onJob_fd (s : State) (f : Job → Job) : (s.onJob f).fd = s.fd := by unfold onJob; rfl
@[simp] theorem onJob_fabric (s : State) (f : Job → Job) : (s.onJob f).fabric = s.fabric := by unfold onJob; rfl

@[simp] theorem onFd_pending (s : State) (f : Fd → Fd) : (s.onFd f).pending = s.pending := by unfold onFd; rfl
@[simp] theorem onFd_released (s : State) (f : Fd → Fd) : (s.onFd f).released = s.released := by unfold onFd; rfl
@[simp] theorem onFd_out (s : State) (f : Fd → Fd) : (s.onFd f).out = s.out := by unfold onFd; rfl
@[simp] theorem onFd_fresh (s : State) (f : Fd → Fd) : (s.onFd f).fresh = s.fresh := by unfold onFd; rfl
@[simp] theorem onFd_flash (s : State) (f : Fd → Fd) : (s.onFd f).flash = s.flash := by unfold onFd; rfl
@[simp] theorem onFd_pins (s : State) (f : Fd → Fd) : (s.onFd f).pins = s.pins := by unfold onFd; rfl
@[simp] theorem onFd_i3c (s : State) (f : Fd → Fd) : (s.onFd f).i3c = s.i3c := by unfold onFd; rfl
@[simp] theorem onFd_boot (s : State) (f : Fd → Fd) : (s.onFd f).boot = s.boot := by unfold onFd; rfl
@[simp] theorem onFd_dev (s : State) (f : Fd → Fd) : (s.onFd f).dev = s.dev := by unfold onFd; rfl
@[simp] theorem onFd_rootstock (s : State) (f : Fd → Fd) : (s.onFd f).rootstock = s.rootstock := by unfold onFd; rfl
@[simp] theorem onFd_time (s : State) (f : Fd → Fd) : (s.onFd f).time = s.time := by unfold onFd; rfl
@[simp] theorem onFd_pow (s : State) (f : Fd → Fd) : (s.onFd f).pow = s.pow := by unfold onFd; rfl
@[simp] theorem onFd_sec (s : State) (f : Fd → Fd) : (s.onFd f).sec = s.sec := by unfold onFd; rfl
@[simp] theorem onFd_step (s : State) (f : Fd → Fd) : (s.onFd f).step = s.step := by unfold onFd; rfl
@[simp] theorem onFd_mir (s : State) (f : Fd → Fd) : (s.onFd f).mir = s.mir := by unfold onFd; rfl
@[simp] theorem onFd_eth0 (s : State) (f : Fd → Fd) : (s.onFd f).eth0 = s.eth0 := by unfold onFd; rfl
@[simp] theorem onFd_eth1 (s : State) (f : Fd → Fd) : (s.onFd f).eth1 = s.eth1 := by unfold onFd; rfl
@[simp] theorem onFd_dctCfg (s : State) (f : Fd → Fd) : (s.onFd f).dctCfg = s.dctCfg := by unfold onFd; rfl
@[simp] theorem onFd_dctCounters (s : State) (f : Fd → Fd) : (s.onFd f).dctCounters = s.dctCounters := by unfold onFd; rfl
@[simp] theorem onFd_rst (s : State) (f : Fd → Fd) : (s.onFd f).rst = s.rst := by unfold onFd; rfl
@[simp] theorem onFd_ports (s : State) (f : Fd → Fd) : (s.onFd f).ports = s.ports := by unfold onFd; rfl
@[simp] theorem onFd_parts (s : State) (f : Fd → Fd) : (s.onFd f).parts = s.parts := by unfold onFd; rfl
@[simp] theorem onFd_memStacks (s : State) (f : Fd → Fd) : (s.onFd f).memStacks = s.memStacks := by unfold onFd; rfl
@[simp] theorem onFd_tiles (s : State) (f : Fd → Fd) : (s.onFd f).tiles = s.tiles := by unfold onFd; rfl
@[simp] theorem onFd_sites (s : State) (f : Fd → Fd) : (s.onFd f).sites = s.sites := by unfold onFd; rfl
@[simp] theorem onFd_mem (s : State) (f : Fd → Fd) : (s.onFd f).mem = s.mem := by unfold onFd; rfl
@[simp] theorem onFd_sessions (s : State) (f : Fd → Fd) : (s.onFd f).sessions = s.sessions := by unfold onFd; rfl
@[simp] theorem onFd_unacked (s : State) (f : Fd → Fd) : (s.onFd f).unacked = s.unacked := by unfold onFd; rfl
@[simp] theorem onFd_decisions (s : State) (f : Fd → Fd) : (s.onFd f).decisions = s.decisions := by unfold onFd; rfl
@[simp] theorem onFd_nextReq (s : State) (f : Fd → Fd) : (s.onFd f).nextReq = s.nextReq := by unfold onFd; rfl
@[simp] theorem onFd_img (s : State) (f : Fd → Fd) : (s.onFd f).img = s.img := by unfold onFd; rfl
@[simp] theorem onFd_job (s : State) (f : Fd → Fd) : (s.onFd f).job = s.job := by unfold onFd; rfl
@[simp] theorem onFd_fabric (s : State) (f : Fd → Fd) : (s.onFd f).fabric = s.fabric := by unfold onFd; rfl

@[simp] theorem allTiles_pending (s : State) (f : Tile → Tile) : (s.allTiles f).pending = s.pending := by unfold allTiles; rfl
@[simp] theorem allTiles_released (s : State) (f : Tile → Tile) : (s.allTiles f).released = s.released := by unfold allTiles; rfl
@[simp] theorem allTiles_out (s : State) (f : Tile → Tile) : (s.allTiles f).out = s.out := by unfold allTiles; rfl
@[simp] theorem allTiles_fresh (s : State) (f : Tile → Tile) : (s.allTiles f).fresh = s.fresh := by unfold allTiles; rfl
@[simp] theorem allTiles_flash (s : State) (f : Tile → Tile) : (s.allTiles f).flash = s.flash := by unfold allTiles; rfl
@[simp] theorem allTiles_pins (s : State) (f : Tile → Tile) : (s.allTiles f).pins = s.pins := by unfold allTiles; rfl
@[simp] theorem allTiles_i3c (s : State) (f : Tile → Tile) : (s.allTiles f).i3c = s.i3c := by unfold allTiles; rfl
@[simp] theorem allTiles_boot (s : State) (f : Tile → Tile) : (s.allTiles f).boot = s.boot := by unfold allTiles; rfl
@[simp] theorem allTiles_dev (s : State) (f : Tile → Tile) : (s.allTiles f).dev = s.dev := by unfold allTiles; rfl
@[simp] theorem allTiles_rootstock (s : State) (f : Tile → Tile) : (s.allTiles f).rootstock = s.rootstock := by unfold allTiles; rfl
@[simp] theorem allTiles_time (s : State) (f : Tile → Tile) : (s.allTiles f).time = s.time := by unfold allTiles; rfl
@[simp] theorem allTiles_pow (s : State) (f : Tile → Tile) : (s.allTiles f).pow = s.pow := by unfold allTiles; rfl
@[simp] theorem allTiles_sec (s : State) (f : Tile → Tile) : (s.allTiles f).sec = s.sec := by unfold allTiles; rfl
@[simp] theorem allTiles_step (s : State) (f : Tile → Tile) : (s.allTiles f).step = s.step := by unfold allTiles; rfl
@[simp] theorem allTiles_mir (s : State) (f : Tile → Tile) : (s.allTiles f).mir = s.mir := by unfold allTiles; rfl
@[simp] theorem allTiles_eth0 (s : State) (f : Tile → Tile) : (s.allTiles f).eth0 = s.eth0 := by unfold allTiles; rfl
@[simp] theorem allTiles_eth1 (s : State) (f : Tile → Tile) : (s.allTiles f).eth1 = s.eth1 := by unfold allTiles; rfl
@[simp] theorem allTiles_dctCfg (s : State) (f : Tile → Tile) : (s.allTiles f).dctCfg = s.dctCfg := by unfold allTiles; rfl
@[simp] theorem allTiles_dctCounters (s : State) (f : Tile → Tile) : (s.allTiles f).dctCounters = s.dctCounters := by unfold allTiles; rfl
@[simp] theorem allTiles_rst (s : State) (f : Tile → Tile) : (s.allTiles f).rst = s.rst := by unfold allTiles; rfl
@[simp] theorem allTiles_ports (s : State) (f : Tile → Tile) : (s.allTiles f).ports = s.ports := by unfold allTiles; rfl
@[simp] theorem allTiles_parts (s : State) (f : Tile → Tile) : (s.allTiles f).parts = s.parts := by unfold allTiles; rfl
@[simp] theorem allTiles_memStacks (s : State) (f : Tile → Tile) : (s.allTiles f).memStacks = s.memStacks := by unfold allTiles; rfl
@[simp] theorem allTiles_sites (s : State) (f : Tile → Tile) : (s.allTiles f).sites = s.sites := by unfold allTiles; rfl
@[simp] theorem allTiles_mem (s : State) (f : Tile → Tile) : (s.allTiles f).mem = s.mem := by unfold allTiles; rfl
@[simp] theorem allTiles_sessions (s : State) (f : Tile → Tile) : (s.allTiles f).sessions = s.sessions := by unfold allTiles; rfl
@[simp] theorem allTiles_unacked (s : State) (f : Tile → Tile) : (s.allTiles f).unacked = s.unacked := by unfold allTiles; rfl
@[simp] theorem allTiles_decisions (s : State) (f : Tile → Tile) : (s.allTiles f).decisions = s.decisions := by unfold allTiles; rfl
@[simp] theorem allTiles_nextReq (s : State) (f : Tile → Tile) : (s.allTiles f).nextReq = s.nextReq := by unfold allTiles; rfl
@[simp] theorem allTiles_img (s : State) (f : Tile → Tile) : (s.allTiles f).img = s.img := by unfold allTiles; rfl
@[simp] theorem allTiles_job (s : State) (f : Tile → Tile) : (s.allTiles f).job = s.job := by unfold allTiles; rfl
@[simp] theorem allTiles_fd (s : State) (f : Tile → Tile) : (s.allTiles f).fd = s.fd := by unfold allTiles; rfl
@[simp] theorem allTiles_fabric (s : State) (f : Tile → Tile) : (s.allTiles f).fabric = s.fabric := by unfold allTiles; rfl

@[simp] theorem send_pending (s : State) (m : Msg) : (s.send m).pending = s.pending := by unfold send; rfl
@[simp] theorem send_released (s : State) (m : Msg) : (s.send m).released = s.released := by unfold send; rfl
@[simp] theorem send_fresh (s : State) (m : Msg) : (s.send m).fresh = s.fresh := by unfold send; rfl
@[simp] theorem send_flash (s : State) (m : Msg) : (s.send m).flash = s.flash := by unfold send; rfl
@[simp] theorem send_pins (s : State) (m : Msg) : (s.send m).pins = s.pins := by unfold send; rfl
@[simp] theorem send_i3c (s : State) (m : Msg) : (s.send m).i3c = s.i3c := by unfold send; rfl
@[simp] theorem send_boot (s : State) (m : Msg) : (s.send m).boot = s.boot := by unfold send; rfl
@[simp] theorem send_dev (s : State) (m : Msg) : (s.send m).dev = s.dev := by unfold send; rfl
@[simp] theorem send_rootstock (s : State) (m : Msg) : (s.send m).rootstock = s.rootstock := by unfold send; rfl
@[simp] theorem send_time (s : State) (m : Msg) : (s.send m).time = s.time := by unfold send; rfl
@[simp] theorem send_pow (s : State) (m : Msg) : (s.send m).pow = s.pow := by unfold send; rfl
@[simp] theorem send_sec (s : State) (m : Msg) : (s.send m).sec = s.sec := by unfold send; rfl
@[simp] theorem send_step (s : State) (m : Msg) : (s.send m).step = s.step := by unfold send; rfl
@[simp] theorem send_mir (s : State) (m : Msg) : (s.send m).mir = s.mir := by unfold send; rfl
@[simp] theorem send_eth0 (s : State) (m : Msg) : (s.send m).eth0 = s.eth0 := by unfold send; rfl
@[simp] theorem send_eth1 (s : State) (m : Msg) : (s.send m).eth1 = s.eth1 := by unfold send; rfl
@[simp] theorem send_dctCfg (s : State) (m : Msg) : (s.send m).dctCfg = s.dctCfg := by unfold send; rfl
@[simp] theorem send_dctCounters (s : State) (m : Msg) : (s.send m).dctCounters = s.dctCounters := by unfold send; rfl
@[simp] theorem send_rst (s : State) (m : Msg) : (s.send m).rst = s.rst := by unfold send; rfl
@[simp] theorem send_ports (s : State) (m : Msg) : (s.send m).ports = s.ports := by unfold send; rfl
@[simp] theorem send_parts (s : State) (m : Msg) : (s.send m).parts = s.parts := by unfold send; rfl
@[simp] theorem send_memStacks (s : State) (m : Msg) : (s.send m).memStacks = s.memStacks := by unfold send; rfl
@[simp] theorem send_tiles (s : State) (m : Msg) : (s.send m).tiles = s.tiles := by unfold send; rfl
@[simp] theorem send_sites (s : State) (m : Msg) : (s.send m).sites = s.sites := by unfold send; rfl
@[simp] theorem send_mem (s : State) (m : Msg) : (s.send m).mem = s.mem := by unfold send; rfl
@[simp] theorem send_sessions (s : State) (m : Msg) : (s.send m).sessions = s.sessions := by unfold send; rfl
@[simp] theorem send_unacked (s : State) (m : Msg) : (s.send m).unacked = s.unacked := by unfold send; rfl
@[simp] theorem send_decisions (s : State) (m : Msg) : (s.send m).decisions = s.decisions := by unfold send; rfl
@[simp] theorem send_nextReq (s : State) (m : Msg) : (s.send m).nextReq = s.nextReq := by unfold send; rfl
@[simp] theorem send_img (s : State) (m : Msg) : (s.send m).img = s.img := by unfold send; rfl
@[simp] theorem send_job (s : State) (m : Msg) : (s.send m).job = s.job := by unfold send; rfl
@[simp] theorem send_fd (s : State) (m : Msg) : (s.send m).fd = s.fd := by unfold send; rfl
@[simp] theorem send_fabric (s : State) (m : Msg) : (s.send m).fabric = s.fabric := by unfold send; rfl

@[simp] theorem useFree_pending (s : State) : (s.useFree).pending = s.pending := by unfold useFree; rfl
@[simp] theorem useFree_released (s : State) : (s.useFree).released = s.released := by unfold useFree; rfl
@[simp] theorem useFree_out (s : State) : (s.useFree).out = s.out := by unfold useFree; rfl
@[simp] theorem useFree_flash (s : State) : (s.useFree).flash = s.flash := by unfold useFree; rfl
@[simp] theorem useFree_pins (s : State) : (s.useFree).pins = s.pins := by unfold useFree; rfl
@[simp] theorem useFree_i3c (s : State) : (s.useFree).i3c = s.i3c := by unfold useFree; rfl
@[simp] theorem useFree_boot (s : State) : (s.useFree).boot = s.boot := by unfold useFree; rfl
@[simp] theorem useFree_dev (s : State) : (s.useFree).dev = s.dev := by unfold useFree; rfl
@[simp] theorem useFree_rootstock (s : State) : (s.useFree).rootstock = s.rootstock := by unfold useFree; rfl
@[simp] theorem useFree_time (s : State) : (s.useFree).time = s.time := by unfold useFree; rfl
@[simp] theorem useFree_pow (s : State) : (s.useFree).pow = s.pow := by unfold useFree; rfl
@[simp] theorem useFree_sec (s : State) : (s.useFree).sec = s.sec := by unfold useFree; rfl
@[simp] theorem useFree_step (s : State) : (s.useFree).step = s.step := by unfold useFree; rfl
@[simp] theorem useFree_mir (s : State) : (s.useFree).mir = s.mir := by unfold useFree; rfl
@[simp] theorem useFree_eth0 (s : State) : (s.useFree).eth0 = s.eth0 := by unfold useFree; rfl
@[simp] theorem useFree_eth1 (s : State) : (s.useFree).eth1 = s.eth1 := by unfold useFree; rfl
@[simp] theorem useFree_dctCfg (s : State) : (s.useFree).dctCfg = s.dctCfg := by unfold useFree; rfl
@[simp] theorem useFree_dctCounters (s : State) : (s.useFree).dctCounters = s.dctCounters := by unfold useFree; rfl
@[simp] theorem useFree_rst (s : State) : (s.useFree).rst = s.rst := by unfold useFree; rfl
@[simp] theorem useFree_ports (s : State) : (s.useFree).ports = s.ports := by unfold useFree; rfl
@[simp] theorem useFree_parts (s : State) : (s.useFree).parts = s.parts := by unfold useFree; rfl
@[simp] theorem useFree_memStacks (s : State) : (s.useFree).memStacks = s.memStacks := by unfold useFree; rfl
@[simp] theorem useFree_tiles (s : State) : (s.useFree).tiles = s.tiles := by unfold useFree; rfl
@[simp] theorem useFree_sites (s : State) : (s.useFree).sites = s.sites := by unfold useFree; rfl
@[simp] theorem useFree_mem (s : State) : (s.useFree).mem = s.mem := by unfold useFree; rfl
@[simp] theorem useFree_sessions (s : State) : (s.useFree).sessions = s.sessions := by unfold useFree; rfl
@[simp] theorem useFree_unacked (s : State) : (s.useFree).unacked = s.unacked := by unfold useFree; rfl
@[simp] theorem useFree_decisions (s : State) : (s.useFree).decisions = s.decisions := by unfold useFree; rfl
@[simp] theorem useFree_nextReq (s : State) : (s.useFree).nextReq = s.nextReq := by unfold useFree; rfl
@[simp] theorem useFree_img (s : State) : (s.useFree).img = s.img := by unfold useFree; rfl
@[simp] theorem useFree_job (s : State) : (s.useFree).job = s.job := by unfold useFree; rfl
@[simp] theorem useFree_fd (s : State) : (s.useFree).fd = s.fd := by unfold useFree; rfl
@[simp] theorem useFree_fabric (s : State) : (s.useFree).fabric = s.fabric := by unfold useFree; rfl

@[simp] theorem tick_pending (s : State) : (s.tick).pending = s.pending := by unfold tick; rfl
@[simp] theorem tick_released (s : State) : (s.tick).released = s.released := by unfold tick; rfl
@[simp] theorem tick_out (s : State) : (s.tick).out = s.out := by unfold tick; rfl
@[simp] theorem tick_fresh (s : State) : (s.tick).fresh = s.fresh := by unfold tick; rfl
@[simp] theorem tick_flash (s : State) : (s.tick).flash = s.flash := by unfold tick; rfl
@[simp] theorem tick_pins (s : State) : (s.tick).pins = s.pins := by unfold tick; rfl
@[simp] theorem tick_i3c (s : State) : (s.tick).i3c = s.i3c := by unfold tick; rfl
@[simp] theorem tick_boot (s : State) : (s.tick).boot = s.boot := by unfold tick; rfl
@[simp] theorem tick_dev (s : State) : (s.tick).dev = s.dev := by unfold tick; rfl
@[simp] theorem tick_rootstock (s : State) : (s.tick).rootstock = s.rootstock := by unfold tick; rfl
@[simp] theorem tick_pow (s : State) : (s.tick).pow = s.pow := by unfold tick; rfl
@[simp] theorem tick_sec (s : State) : (s.tick).sec = s.sec := by unfold tick; rfl
@[simp] theorem tick_step (s : State) : (s.tick).step = s.step := by unfold tick; rfl
@[simp] theorem tick_mir (s : State) : (s.tick).mir = s.mir := by unfold tick; rfl
@[simp] theorem tick_eth0 (s : State) : (s.tick).eth0 = s.eth0 := by unfold tick; rfl
@[simp] theorem tick_eth1 (s : State) : (s.tick).eth1 = s.eth1 := by unfold tick; rfl
@[simp] theorem tick_dctCfg (s : State) : (s.tick).dctCfg = s.dctCfg := by unfold tick; rfl
@[simp] theorem tick_dctCounters (s : State) : (s.tick).dctCounters = s.dctCounters := by unfold tick; rfl
@[simp] theorem tick_rst (s : State) : (s.tick).rst = s.rst := by unfold tick; rfl
@[simp] theorem tick_ports (s : State) : (s.tick).ports = s.ports := by unfold tick; rfl
@[simp] theorem tick_parts (s : State) : (s.tick).parts = s.parts := by unfold tick; rfl
@[simp] theorem tick_memStacks (s : State) : (s.tick).memStacks = s.memStacks := by unfold tick; rfl
@[simp] theorem tick_tiles (s : State) : (s.tick).tiles = s.tiles := by unfold tick; rfl
@[simp] theorem tick_sites (s : State) : (s.tick).sites = s.sites := by unfold tick; rfl
@[simp] theorem tick_mem (s : State) : (s.tick).mem = s.mem := by unfold tick; rfl
@[simp] theorem tick_sessions (s : State) : (s.tick).sessions = s.sessions := by unfold tick; rfl
@[simp] theorem tick_unacked (s : State) : (s.tick).unacked = s.unacked := by unfold tick; rfl
@[simp] theorem tick_decisions (s : State) : (s.tick).decisions = s.decisions := by unfold tick; rfl
@[simp] theorem tick_nextReq (s : State) : (s.tick).nextReq = s.nextReq := by unfold tick; rfl
@[simp] theorem tick_img (s : State) : (s.tick).img = s.img := by unfold tick; rfl
@[simp] theorem tick_job (s : State) : (s.tick).job = s.job := by unfold tick; rfl
@[simp] theorem tick_fd (s : State) : (s.tick).fd = s.fd := by unfold tick; rfl
@[simp] theorem tick_fabric (s : State) : (s.tick).fabric = s.fabric := by unfold tick; rfl

@[simp] theorem toState_pending (s : State) (d : Nat) : (s.toState d).pending = s.pending := by unfold toState; rfl
@[simp] theorem toState_released (s : State) (d : Nat) : (s.toState d).released = s.released := by unfold toState; rfl
@[simp] theorem toState_out (s : State) (d : Nat) : (s.toState d).out = s.out := by unfold toState; rfl
@[simp] theorem toState_fresh (s : State) (d : Nat) : (s.toState d).fresh = s.fresh := by unfold toState; rfl
@[simp] theorem toState_flash (s : State) (d : Nat) : (s.toState d).flash = s.flash := by unfold toState; rfl
@[simp] theorem toState_pins (s : State) (d : Nat) : (s.toState d).pins = s.pins := by unfold toState; rfl
@[simp] theorem toState_i3c (s : State) (d : Nat) : (s.toState d).i3c = s.i3c := by unfold toState; rfl
@[simp] theorem toState_boot (s : State) (d : Nat) : (s.toState d).boot = s.boot := by unfold toState; rfl
@[simp] theorem toState_rootstock (s : State) (d : Nat) : (s.toState d).rootstock = s.rootstock := by unfold toState; rfl
@[simp] theorem toState_time (s : State) (d : Nat) : (s.toState d).time = s.time := by unfold toState; rfl
@[simp] theorem toState_pow (s : State) (d : Nat) : (s.toState d).pow = s.pow := by unfold toState; rfl
@[simp] theorem toState_sec (s : State) (d : Nat) : (s.toState d).sec = s.sec := by unfold toState; rfl
@[simp] theorem toState_step (s : State) (d : Nat) : (s.toState d).step = s.step := by unfold toState; rfl
@[simp] theorem toState_mir (s : State) (d : Nat) : (s.toState d).mir = s.mir := by unfold toState; rfl
@[simp] theorem toState_eth0 (s : State) (d : Nat) : (s.toState d).eth0 = s.eth0 := by unfold toState; rfl
@[simp] theorem toState_eth1 (s : State) (d : Nat) : (s.toState d).eth1 = s.eth1 := by unfold toState; rfl
@[simp] theorem toState_dctCfg (s : State) (d : Nat) : (s.toState d).dctCfg = s.dctCfg := by unfold toState; rfl
@[simp] theorem toState_dctCounters (s : State) (d : Nat) : (s.toState d).dctCounters = s.dctCounters := by unfold toState; rfl
@[simp] theorem toState_rst (s : State) (d : Nat) : (s.toState d).rst = s.rst := by unfold toState; rfl
@[simp] theorem toState_ports (s : State) (d : Nat) : (s.toState d).ports = s.ports := by unfold toState; rfl
@[simp] theorem toState_parts (s : State) (d : Nat) : (s.toState d).parts = s.parts := by unfold toState; rfl
@[simp] theorem toState_memStacks (s : State) (d : Nat) : (s.toState d).memStacks = s.memStacks := by unfold toState; rfl
@[simp] theorem toState_tiles (s : State) (d : Nat) : (s.toState d).tiles = s.tiles := by unfold toState; rfl
@[simp] theorem toState_sites (s : State) (d : Nat) : (s.toState d).sites = s.sites := by unfold toState; rfl
@[simp] theorem toState_mem (s : State) (d : Nat) : (s.toState d).mem = s.mem := by unfold toState; rfl
@[simp] theorem toState_sessions (s : State) (d : Nat) : (s.toState d).sessions = s.sessions := by unfold toState; rfl
@[simp] theorem toState_unacked (s : State) (d : Nat) : (s.toState d).unacked = s.unacked := by unfold toState; rfl
@[simp] theorem toState_decisions (s : State) (d : Nat) : (s.toState d).decisions = s.decisions := by unfold toState; rfl
@[simp] theorem toState_nextReq (s : State) (d : Nat) : (s.toState d).nextReq = s.nextReq := by unfold toState; rfl
@[simp] theorem toState_img (s : State) (d : Nat) : (s.toState d).img = s.img := by unfold toState; rfl
@[simp] theorem toState_job (s : State) (d : Nat) : (s.toState d).job = s.job := by unfold toState; rfl
@[simp] theorem toState_fd (s : State) (d : Nat) : (s.toState d).fd = s.fd := by unfold toState; rfl
@[simp] theorem toState_fabric (s : State) (d : Nat) : (s.toState d).fabric = s.fabric := by unfold toState; rfl

@[simp] theorem draw_pending (s : State) : (s.draw).pending = s.pending := by unfold draw; rfl
@[simp] theorem draw_released (s : State) : (s.draw).released = s.released := by unfold draw; rfl
@[simp] theorem draw_out (s : State) : (s.draw).out = s.out := by unfold draw; rfl
@[simp] theorem draw_fresh (s : State) : (s.draw).fresh = s.fresh := by unfold draw; rfl
@[simp] theorem draw_flash (s : State) : (s.draw).flash = s.flash := by unfold draw; rfl
@[simp] theorem draw_pins (s : State) : (s.draw).pins = s.pins := by unfold draw; rfl
@[simp] theorem draw_i3c (s : State) : (s.draw).i3c = s.i3c := by unfold draw; rfl
@[simp] theorem draw_boot (s : State) : (s.draw).boot = s.boot := by unfold draw; rfl
@[simp] theorem draw_dev (s : State) : (s.draw).dev = s.dev := by unfold draw; rfl
@[simp] theorem draw_rootstock (s : State) : (s.draw).rootstock = s.rootstock := by unfold draw; rfl
@[simp] theorem draw_time (s : State) : (s.draw).time = s.time := by unfold draw; rfl
@[simp] theorem draw_pow (s : State) : (s.draw).pow = s.pow := by unfold draw; rfl
@[simp] theorem draw_step (s : State) : (s.draw).step = s.step := by unfold draw; rfl
@[simp] theorem draw_mir (s : State) : (s.draw).mir = s.mir := by unfold draw; rfl
@[simp] theorem draw_eth0 (s : State) : (s.draw).eth0 = s.eth0 := by unfold draw; rfl
@[simp] theorem draw_eth1 (s : State) : (s.draw).eth1 = s.eth1 := by unfold draw; rfl
@[simp] theorem draw_dctCfg (s : State) : (s.draw).dctCfg = s.dctCfg := by unfold draw; rfl
@[simp] theorem draw_dctCounters (s : State) : (s.draw).dctCounters = s.dctCounters := by unfold draw; rfl
@[simp] theorem draw_rst (s : State) : (s.draw).rst = s.rst := by unfold draw; rfl
@[simp] theorem draw_ports (s : State) : (s.draw).ports = s.ports := by unfold draw; rfl
@[simp] theorem draw_parts (s : State) : (s.draw).parts = s.parts := by unfold draw; rfl
@[simp] theorem draw_memStacks (s : State) : (s.draw).memStacks = s.memStacks := by unfold draw; rfl
@[simp] theorem draw_tiles (s : State) : (s.draw).tiles = s.tiles := by unfold draw; rfl
@[simp] theorem draw_sites (s : State) : (s.draw).sites = s.sites := by unfold draw; rfl
@[simp] theorem draw_mem (s : State) : (s.draw).mem = s.mem := by unfold draw; rfl
@[simp] theorem draw_sessions (s : State) : (s.draw).sessions = s.sessions := by unfold draw; rfl
@[simp] theorem draw_unacked (s : State) : (s.draw).unacked = s.unacked := by unfold draw; rfl
@[simp] theorem draw_decisions (s : State) : (s.draw).decisions = s.decisions := by unfold draw; rfl
@[simp] theorem draw_nextReq (s : State) : (s.draw).nextReq = s.nextReq := by unfold draw; rfl
@[simp] theorem draw_img (s : State) : (s.draw).img = s.img := by unfold draw; rfl
@[simp] theorem draw_job (s : State) : (s.draw).job = s.job := by unfold draw; rfl
@[simp] theorem draw_fd (s : State) : (s.draw).fd = s.fd := by unfold draw; rfl
@[simp] theorem draw_fabric (s : State) : (s.draw).fabric = s.fabric := by unfold draw; rfl

@[simp] theorem driveFault_pending (s : State) : (s.driveFault).pending = s.pending := by unfold driveFault; rfl
@[simp] theorem driveFault_released (s : State) : (s.driveFault).released = s.released := by unfold driveFault; rfl
@[simp] theorem driveFault_fresh (s : State) : (s.driveFault).fresh = s.fresh := by unfold driveFault; rfl
@[simp] theorem driveFault_flash (s : State) : (s.driveFault).flash = s.flash := by unfold driveFault; rfl
@[simp] theorem driveFault_i3c (s : State) : (s.driveFault).i3c = s.i3c := by unfold driveFault; rfl
@[simp] theorem driveFault_boot (s : State) : (s.driveFault).boot = s.boot := by unfold driveFault; rfl
@[simp] theorem driveFault_dev (s : State) : (s.driveFault).dev = s.dev := by unfold driveFault; rfl
@[simp] theorem driveFault_rootstock (s : State) : (s.driveFault).rootstock = s.rootstock := by unfold driveFault; rfl
@[simp] theorem driveFault_time (s : State) : (s.driveFault).time = s.time := by unfold driveFault; rfl
@[simp] theorem driveFault_pow (s : State) : (s.driveFault).pow = s.pow := by unfold driveFault; rfl
@[simp] theorem driveFault_sec (s : State) : (s.driveFault).sec = s.sec := by unfold driveFault; rfl
@[simp] theorem driveFault_step (s : State) : (s.driveFault).step = s.step := by unfold driveFault; rfl
@[simp] theorem driveFault_mir (s : State) : (s.driveFault).mir = s.mir := by unfold driveFault; rfl
@[simp] theorem driveFault_eth0 (s : State) : (s.driveFault).eth0 = s.eth0 := by unfold driveFault; rfl
@[simp] theorem driveFault_eth1 (s : State) : (s.driveFault).eth1 = s.eth1 := by unfold driveFault; rfl
@[simp] theorem driveFault_dctCfg (s : State) : (s.driveFault).dctCfg = s.dctCfg := by unfold driveFault; rfl
@[simp] theorem driveFault_dctCounters (s : State) : (s.driveFault).dctCounters = s.dctCounters := by unfold driveFault; rfl
@[simp] theorem driveFault_rst (s : State) : (s.driveFault).rst = s.rst := by unfold driveFault; rfl
@[simp] theorem driveFault_ports (s : State) : (s.driveFault).ports = s.ports := by unfold driveFault; rfl
@[simp] theorem driveFault_parts (s : State) : (s.driveFault).parts = s.parts := by unfold driveFault; rfl
@[simp] theorem driveFault_memStacks (s : State) : (s.driveFault).memStacks = s.memStacks := by unfold driveFault; rfl
@[simp] theorem driveFault_tiles (s : State) : (s.driveFault).tiles = s.tiles := by unfold driveFault; rfl
@[simp] theorem driveFault_sites (s : State) : (s.driveFault).sites = s.sites := by unfold driveFault; rfl
@[simp] theorem driveFault_mem (s : State) : (s.driveFault).mem = s.mem := by unfold driveFault; rfl
@[simp] theorem driveFault_sessions (s : State) : (s.driveFault).sessions = s.sessions := by unfold driveFault; rfl
@[simp] theorem driveFault_unacked (s : State) : (s.driveFault).unacked = s.unacked := by unfold driveFault; rfl
@[simp] theorem driveFault_decisions (s : State) : (s.driveFault).decisions = s.decisions := by unfold driveFault; rfl
@[simp] theorem driveFault_nextReq (s : State) : (s.driveFault).nextReq = s.nextReq := by unfold driveFault; rfl
@[simp] theorem driveFault_img (s : State) : (s.driveFault).img = s.img := by unfold driveFault; rfl
@[simp] theorem driveFault_job (s : State) : (s.driveFault).job = s.job := by unfold driveFault; rfl
@[simp] theorem driveFault_fd (s : State) : (s.driveFault).fd = s.fd := by unfold driveFault; rfl
@[simp] theorem driveFault_fabric (s : State) : (s.driveFault).fabric = s.fabric := by unfold driveFault; rfl

@[simp] theorem failBit_pending (s : State) (f : Field) : (s.failBit f).pending = s.pending := by unfold failBit; rfl
@[simp] theorem failBit_released (s : State) (f : Field) : (s.failBit f).released = s.released := by unfold failBit; rfl
@[simp] theorem failBit_out (s : State) (f : Field) : (s.failBit f).out = s.out := by unfold failBit; rfl
@[simp] theorem failBit_fresh (s : State) (f : Field) : (s.failBit f).fresh = s.fresh := by unfold failBit; rfl
@[simp] theorem failBit_flash (s : State) (f : Field) : (s.failBit f).flash = s.flash := by unfold failBit; rfl
@[simp] theorem failBit_pins (s : State) (f : Field) : (s.failBit f).pins = s.pins := by unfold failBit; rfl
@[simp] theorem failBit_i3c (s : State) (f : Field) : (s.failBit f).i3c = s.i3c := by unfold failBit; rfl
@[simp] theorem failBit_boot (s : State) (f : Field) : (s.failBit f).boot = s.boot := by unfold failBit; rfl
@[simp] theorem failBit_dev (s : State) (f : Field) : (s.failBit f).dev = s.dev := by unfold failBit; rfl
@[simp] theorem failBit_rootstock (s : State) (f : Field) : (s.failBit f).rootstock = s.rootstock := by unfold failBit; rfl
@[simp] theorem failBit_time (s : State) (f : Field) : (s.failBit f).time = s.time := by unfold failBit; rfl
@[simp] theorem failBit_pow (s : State) (f : Field) : (s.failBit f).pow = s.pow := by unfold failBit; rfl
@[simp] theorem failBit_sec (s : State) (f : Field) : (s.failBit f).sec = s.sec := by unfold failBit; rfl
@[simp] theorem failBit_step (s : State) (f : Field) : (s.failBit f).step = s.step := by unfold failBit; rfl
@[simp] theorem failBit_mir (s : State) (f : Field) : (s.failBit f).mir = s.mir := by unfold failBit; rfl
@[simp] theorem failBit_eth0 (s : State) (f : Field) : (s.failBit f).eth0 = s.eth0 := by unfold failBit; rfl
@[simp] theorem failBit_eth1 (s : State) (f : Field) : (s.failBit f).eth1 = s.eth1 := by unfold failBit; rfl
@[simp] theorem failBit_dctCfg (s : State) (f : Field) : (s.failBit f).dctCfg = s.dctCfg := by unfold failBit; rfl
@[simp] theorem failBit_dctCounters (s : State) (f : Field) : (s.failBit f).dctCounters = s.dctCounters := by unfold failBit; rfl
@[simp] theorem failBit_rst (s : State) (f : Field) : (s.failBit f).rst = s.rst := by unfold failBit; rfl
@[simp] theorem failBit_ports (s : State) (f : Field) : (s.failBit f).ports = s.ports := by unfold failBit; rfl
@[simp] theorem failBit_parts (s : State) (f : Field) : (s.failBit f).parts = s.parts := by unfold failBit; rfl
@[simp] theorem failBit_memStacks (s : State) (f : Field) : (s.failBit f).memStacks = s.memStacks := by unfold failBit; rfl
@[simp] theorem failBit_tiles (s : State) (f : Field) : (s.failBit f).tiles = s.tiles := by unfold failBit; rfl
@[simp] theorem failBit_sites (s : State) (f : Field) : (s.failBit f).sites = s.sites := by unfold failBit; rfl
@[simp] theorem failBit_mem (s : State) (f : Field) : (s.failBit f).mem = s.mem := by unfold failBit; rfl
@[simp] theorem failBit_sessions (s : State) (f : Field) : (s.failBit f).sessions = s.sessions := by unfold failBit; rfl
@[simp] theorem failBit_unacked (s : State) (f : Field) : (s.failBit f).unacked = s.unacked := by unfold failBit; rfl
@[simp] theorem failBit_decisions (s : State) (f : Field) : (s.failBit f).decisions = s.decisions := by unfold failBit; rfl
@[simp] theorem failBit_nextReq (s : State) (f : Field) : (s.failBit f).nextReq = s.nextReq := by unfold failBit; rfl
@[simp] theorem failBit_img (s : State) (f : Field) : (s.failBit f).img = s.img := by unfold failBit; rfl
@[simp] theorem failBit_fd (s : State) (f : Field) : (s.failBit f).fd = s.fd := by unfold failBit; rfl
@[simp] theorem failBit_fabric (s : State) (f : Field) : (s.failBit f).fabric = s.fabric := by unfold failBit; rfl

@[simp] theorem refreshCellar_pending (s : State) : (s.refreshCellar).pending = s.pending := by unfold refreshCellar; rfl
@[simp] theorem refreshCellar_released (s : State) : (s.refreshCellar).released = s.released := by unfold refreshCellar; rfl
@[simp] theorem refreshCellar_out (s : State) : (s.refreshCellar).out = s.out := by unfold refreshCellar; rfl
@[simp] theorem refreshCellar_fresh (s : State) : (s.refreshCellar).fresh = s.fresh := by unfold refreshCellar; rfl
@[simp] theorem refreshCellar_flash (s : State) : (s.refreshCellar).flash = s.flash := by unfold refreshCellar; rfl
@[simp] theorem refreshCellar_pins (s : State) : (s.refreshCellar).pins = s.pins := by unfold refreshCellar; rfl
@[simp] theorem refreshCellar_i3c (s : State) : (s.refreshCellar).i3c = s.i3c := by unfold refreshCellar; rfl
@[simp] theorem refreshCellar_boot (s : State) : (s.refreshCellar).boot = s.boot := by unfold refreshCellar; rfl
@[simp] theorem refreshCellar_dev (s : State) : (s.refreshCellar).dev = s.dev := by unfold refreshCellar; rfl
@[simp] theorem refreshCellar_rootstock (s : State) : (s.refreshCellar).rootstock = s.rootstock := by unfold refreshCellar; rfl
@[simp] theorem refreshCellar_time (s : State) : (s.refreshCellar).time = s.time := by unfold refreshCellar; rfl
@[simp] theorem refreshCellar_pow (s : State) : (s.refreshCellar).pow = s.pow := by unfold refreshCellar; rfl
@[simp] theorem refreshCellar_sec (s : State) : (s.refreshCellar).sec = s.sec := by unfold refreshCellar; rfl
@[simp] theorem refreshCellar_mir (s : State) : (s.refreshCellar).mir = s.mir := by unfold refreshCellar; rfl
@[simp] theorem refreshCellar_eth0 (s : State) : (s.refreshCellar).eth0 = s.eth0 := by unfold refreshCellar; rfl
@[simp] theorem refreshCellar_eth1 (s : State) : (s.refreshCellar).eth1 = s.eth1 := by unfold refreshCellar; rfl
@[simp] theorem refreshCellar_dctCfg (s : State) : (s.refreshCellar).dctCfg = s.dctCfg := by unfold refreshCellar; rfl
@[simp] theorem refreshCellar_dctCounters (s : State) : (s.refreshCellar).dctCounters = s.dctCounters := by unfold refreshCellar; rfl
@[simp] theorem refreshCellar_rst (s : State) : (s.refreshCellar).rst = s.rst := by unfold refreshCellar; rfl
@[simp] theorem refreshCellar_ports (s : State) : (s.refreshCellar).ports = s.ports := by unfold refreshCellar; rfl
@[simp] theorem refreshCellar_parts (s : State) : (s.refreshCellar).parts = s.parts := by unfold refreshCellar; rfl
@[simp] theorem refreshCellar_memStacks (s : State) : (s.refreshCellar).memStacks = s.memStacks := by unfold refreshCellar; rfl
@[simp] theorem refreshCellar_tiles (s : State) : (s.refreshCellar).tiles = s.tiles := by unfold refreshCellar; rfl
@[simp] theorem refreshCellar_sites (s : State) : (s.refreshCellar).sites = s.sites := by unfold refreshCellar; rfl
@[simp] theorem refreshCellar_mem (s : State) : (s.refreshCellar).mem = s.mem := by unfold refreshCellar; rfl
@[simp] theorem refreshCellar_sessions (s : State) : (s.refreshCellar).sessions = s.sessions := by unfold refreshCellar; rfl
@[simp] theorem refreshCellar_unacked (s : State) : (s.refreshCellar).unacked = s.unacked := by unfold refreshCellar; rfl
@[simp] theorem refreshCellar_decisions (s : State) : (s.refreshCellar).decisions = s.decisions := by unfold refreshCellar; rfl
@[simp] theorem refreshCellar_nextReq (s : State) : (s.refreshCellar).nextReq = s.nextReq := by unfold refreshCellar; rfl
@[simp] theorem refreshCellar_img (s : State) : (s.refreshCellar).img = s.img := by unfold refreshCellar; rfl
@[simp] theorem refreshCellar_job (s : State) : (s.refreshCellar).job = s.job := by unfold refreshCellar; rfl
@[simp] theorem refreshCellar_fd (s : State) : (s.refreshCellar).fd = s.fd := by unfold refreshCellar; rfl
@[simp] theorem refreshCellar_fabric (s : State) : (s.refreshCellar).fabric = s.fabric := by unfold refreshCellar; rfl

@[simp] theorem refreshHeads_pending (s : State) : (s.refreshHeads).pending = s.pending := by unfold refreshHeads; rfl
@[simp] theorem refreshHeads_released (s : State) : (s.refreshHeads).released = s.released := by unfold refreshHeads; rfl
@[simp] theorem refreshHeads_out (s : State) : (s.refreshHeads).out = s.out := by unfold refreshHeads; rfl
@[simp] theorem refreshHeads_fresh (s : State) : (s.refreshHeads).fresh = s.fresh := by unfold refreshHeads; rfl
@[simp] theorem refreshHeads_flash (s : State) : (s.refreshHeads).flash = s.flash := by unfold refreshHeads; rfl
@[simp] theorem refreshHeads_pins (s : State) : (s.refreshHeads).pins = s.pins := by unfold refreshHeads; rfl
@[simp] theorem refreshHeads_i3c (s : State) : (s.refreshHeads).i3c = s.i3c := by unfold refreshHeads; rfl
@[simp] theorem refreshHeads_boot (s : State) : (s.refreshHeads).boot = s.boot := by unfold refreshHeads; rfl
@[simp] theorem refreshHeads_dev (s : State) : (s.refreshHeads).dev = s.dev := by unfold refreshHeads; rfl
@[simp] theorem refreshHeads_rootstock (s : State) : (s.refreshHeads).rootstock = s.rootstock := by unfold refreshHeads; rfl
@[simp] theorem refreshHeads_time (s : State) : (s.refreshHeads).time = s.time := by unfold refreshHeads; rfl
@[simp] theorem refreshHeads_pow (s : State) : (s.refreshHeads).pow = s.pow := by unfold refreshHeads; rfl
@[simp] theorem refreshHeads_sec (s : State) : (s.refreshHeads).sec = s.sec := by unfold refreshHeads; rfl
@[simp] theorem refreshHeads_step (s : State) : (s.refreshHeads).step = s.step := by unfold refreshHeads; rfl
@[simp] theorem refreshHeads_eth0 (s : State) : (s.refreshHeads).eth0 = s.eth0 := by unfold refreshHeads; rfl
@[simp] theorem refreshHeads_eth1 (s : State) : (s.refreshHeads).eth1 = s.eth1 := by unfold refreshHeads; rfl
@[simp] theorem refreshHeads_dctCfg (s : State) : (s.refreshHeads).dctCfg = s.dctCfg := by unfold refreshHeads; rfl
@[simp] theorem refreshHeads_dctCounters (s : State) : (s.refreshHeads).dctCounters = s.dctCounters := by unfold refreshHeads; rfl
@[simp] theorem refreshHeads_rst (s : State) : (s.refreshHeads).rst = s.rst := by unfold refreshHeads; rfl
@[simp] theorem refreshHeads_ports (s : State) : (s.refreshHeads).ports = s.ports := by unfold refreshHeads; rfl
@[simp] theorem refreshHeads_parts (s : State) : (s.refreshHeads).parts = s.parts := by unfold refreshHeads; rfl
@[simp] theorem refreshHeads_memStacks (s : State) : (s.refreshHeads).memStacks = s.memStacks := by unfold refreshHeads; rfl
@[simp] theorem refreshHeads_tiles (s : State) : (s.refreshHeads).tiles = s.tiles := by unfold refreshHeads; rfl
@[simp] theorem refreshHeads_sites (s : State) : (s.refreshHeads).sites = s.sites := by unfold refreshHeads; rfl
@[simp] theorem refreshHeads_mem (s : State) : (s.refreshHeads).mem = s.mem := by unfold refreshHeads; rfl
@[simp] theorem refreshHeads_sessions (s : State) : (s.refreshHeads).sessions = s.sessions := by unfold refreshHeads; rfl
@[simp] theorem refreshHeads_unacked (s : State) : (s.refreshHeads).unacked = s.unacked := by unfold refreshHeads; rfl
@[simp] theorem refreshHeads_decisions (s : State) : (s.refreshHeads).decisions = s.decisions := by unfold refreshHeads; rfl
@[simp] theorem refreshHeads_nextReq (s : State) : (s.refreshHeads).nextReq = s.nextReq := by unfold refreshHeads; rfl
@[simp] theorem refreshHeads_img (s : State) : (s.refreshHeads).img = s.img := by unfold refreshHeads; rfl
@[simp] theorem refreshHeads_job (s : State) : (s.refreshHeads).job = s.job := by unfold refreshHeads; rfl
@[simp] theorem refreshHeads_fd (s : State) : (s.refreshHeads).fd = s.fd := by unfold refreshHeads; rfl
@[simp] theorem refreshHeads_fabric (s : State) : (s.refreshHeads).fabric = s.fabric := by unfold refreshHeads; rfl

/-! ## What a part reads after it is written -/

theorem tile_setTile_same (s : State) (tl : TileRef) (t : Tile) : (s.setTile tl t).tile tl = t :=
  Sparse.get_set_same _ _ _ _

/-- A second write to a tile replaces the first. -/
theorem setTile_setTile {s : State} (h : Sparse.wf Tile.reset s.tiles = true) (tl : TileRef) (t u : Tile) :
    (s.setTile tl t).setTile tl u = s.setTile tl u := by
  unfold setTile; simp only [Sparse.set_set _ _ _ h]

theorem tile_setTile_other (s : State) {a b : TileRef} (t : Tile) (h : tkey b ≠ tkey a) :
    (s.setTile a t).tile b = s.tile b := Sparse.get_set_other _ _ _ h

theorem tile_onTile_same (s : State) (tl : TileRef) (f : Tile → Tile) : (s.onTile tl f).tile tl = f (s.tile tl) :=
  tile_setTile_same s _ _

theorem tile_onTile_other (s : State) {a b : TileRef} (f : Tile → Tile) (h : tkey b ≠ tkey a) :
    (s.onTile a f).tile b = s.tile b := Sparse.get_set_other _ _ _ h

theorem part_setPart_same (s : State) (p : Nat) (a : Part) : (s.setPart p a).part p = a :=
  Sparse.get_set_same _ _ _ _

theorem part_setPart_other (s : State) {p q : Nat} (a : Part) (h : q ≠ p) : (s.setPart p a).part q = s.part q :=
  Sparse.get_set_other _ _ _ h

theorem part_onPart_same (s : State) (p : Nat) (f : Part → Part) : (s.onPart p f).part p = f (s.part p) :=
  part_setPart_same s _ _

theorem part_onPart_other (s : State) {p q : Nat} (f : Part → Part) (h : q ≠ p) : (s.onPart p f).part q = s.part q :=
  Sparse.get_set_other _ _ _ h

theorem port_setPort_same (s : State) (n : Nat) (a : Port) : (s.setPort n a).port n = a :=
  Sparse.get_set_same _ _ _ _

theorem port_setPort_other (s : State) {n k : Nat} (a : Port) (h : k ≠ n) : (s.setPort n a).port k = s.port k :=
  Sparse.get_set_other _ _ _ h

theorem port_onPort_same (s : State) (n : Nat) (f : Port → Port) : (s.onPort n f).port n = f (s.port n) :=
  port_setPort_same s _ _

theorem port_onPort_other (s : State) {n k : Nat} (f : Port → Port) (h : k ≠ n) : (s.onPort n f).port k = s.port k :=
  Sparse.get_set_other _ _ _ h

theorem stack_setStack_same (s : State) (p k : Nat) (a : Stack) : (s.setStack p k a).stack p k = a :=
  Sparse.get_set_same _ _ _ _

theorem site_setSite_same (s : State) (p k : Nat) (a : Site) : (s.setSite p k a).site p k = a :=
  Sparse.get_set_same _ _ _ _

/-! ## The device state -/

theorem devState_toState (s : State) (d : Nat) (h : d < 256) : (s.toState d).devState = d := by
  show getF (setF _ devState_state d) devState_state = d
  rw [getF_setF _ ⟨by decide, by decide⟩]
  exact Nat.mod_eq_of_lt h

end State
end Sys2Proof.Machine
end

