-- ==== Sys2Proof/Laws/Keeps/Base.lean ====
section
/-!
SUPPORT. What every operation of the device keeps: the queue of waiting commands, the canonical forms, a legal device
state, and the serial number. One lemma per operation follows, file by file.
-/
namespace Sys2Proof.Machine

/-- What no command touches or breaks, from `r` to `s`. -/
structure Keeps (r s : State) : Prop where
  queue : s.pending = r.pending
  canon : Canonical r → Canonical s
  legal : LegalState r → LegalState s
  serial : s.flash.serial = r.flash.serial

/-- The store of a tile stays canonical. -/
abbrev TKeeps (t u : Tile) : Prop := Memory.wf t.store = true → Memory.wf u.store = true

theorem Keeps.refl (s : State) : Keeps s s := ⟨rfl, id, id, rfl⟩

theorem Keeps.trans {r s t : State} (a : Keeps r s) (b : Keeps s t) : Keeps r t :=
  ⟨b.queue.trans a.queue, fun h => b.canon (a.canon h), fun h => b.legal (a.legal h), b.serial.trans a.serial⟩

/-- An update of anything else. -/
theorem Keeps.same {r s t : State} (h : Keeps r s) (h1 : t.pending = s.pending) (h2 : t.mem = s.mem) (h3 : t.tiles = s.tiles)
    (h4 : t.parts = s.parts) (h5 : t.ports = s.ports) (h6 : t.memStacks = s.memStacks) (h7 : t.sites = s.sites)
    (h8 : t.dev.state = s.dev.state) (h9 : t.flash.serial = s.flash.serial) : Keeps r t where
  queue := h1.trans h.queue
  canon c := by
    obtain ⟨a, b, c, d, e, f, g⟩ := h.canon c
    exact ⟨h2 ▸ a, h3 ▸ b, h3 ▸ c, h4 ▸ d, h5 ▸ e, h6 ▸ f, h7 ▸ g⟩
  legal c := by have := h.legal c; unfold LegalState State.devState at *; rw [h8]; exact this
  serial := h9.trans h.serial

theorem Keeps.ite {r a b : State} {c : Prop} [Decidable c] (ha : Keeps r a) (hb : Keeps r b) : Keeps r (if c then a else b) := by
  split <;> assumption

theorem Keeps.foldl {α : Type} {r s : State} {f : State → α → State} (l : List α) (h : Keeps r s)
    (hf : ∀ s x, Keeps r s → Keeps r (f s x)) : Keeps r (l.foldl f s) := by
  induction l generalizing s with
  | nil => exact h
  | cons x l ih => exact ih (hf s x h)

theorem Keeps.foldl_fst {α β : Type} {r : State} {z : State × β} {f : State × β → α → State × β} (l : List α)
    (h : Keeps r z.1) (hf : ∀ z x, Keeps r z.1 → Keeps r (f z x).1) : Keeps r (l.foldl f z).1 := by
  induction l generalizing z with
  | nil => exact h
  | cons x l ih => exact ih (hf z x h)

theorem Keeps.setMem {r s t : State} (h : Keeps r s) (hm : Canonical r → Memory.wf t.mem = true) (h1 : t.pending = s.pending)
    (h3 : t.tiles = s.tiles) (h4 : t.parts = s.parts) (h5 : t.ports = s.ports) (h6 : t.memStacks = s.memStacks)
    (h7 : t.sites = s.sites) (h8 : t.dev.state = s.dev.state) (h9 : t.flash.serial = s.flash.serial) : Keeps r t where
  queue := h1.trans h.queue
  canon c := by
    obtain ⟨_, b, c', d, e, f, g⟩ := h.canon c
    exact ⟨hm c, h3 ▸ b, h3 ▸ c', h4 ▸ d, h5 ▸ e, h6 ▸ f, h7 ▸ g⟩
  legal c := by have := h.legal c; unfold LegalState State.devState at *; rw [h8]; exact this
  serial := h9.trans h.serial

theorem Keeps.ofPair {α : Type} {r t : State} {z : State × α} {x : α} (h : Keeps r z.1) (e : z = (t, x)) : Keeps r t := by
  subst e; exact h

/-- An update of anything else, in the form the state's own record takes. -/
theorem Keeps.upd {r s : State} (h : Keeps r s)
    {released : List Instr} {out : List Msg} {fresh : Nat} {flash : Flash} {pins : Pins} {i3c : I3c} {boot : Boot} {dev
    : DevRegs} {rootstock : BootRegs} {time : TimeRegs} {pow : PowRegs} {sec : SecRegs} {step : StepRegs} {mir :
    MirRegs} {eth0 : Eth} {eth1 : Eth} {dctCfg : Word} {dctCounters : Word} {rst : RstRegs} {sessions : List
    Session} {unacked : List Unacked} {decisions : List Decision} {nextReq : Nat} {img : ImgSt} {job : Job} {fd :
    Fd} {fabric : Fabric}
    (hd : dev.state = s.dev.state) (hf : flash.serial = s.flash.serial) :
    Keeps r
      (State.mk s.pending released out fresh flash pins i3c boot dev rootstock time pow sec step mir eth0 eth1 dctCfg
      dctCounters rst s.ports s.parts s.memStacks s.tiles s.sites s.mem sessions unacked decisions nextReq img
      job fd fabric) :=
  h.same rfl rfl rfl rfl rfl rfl rfl hd hf

/-- An update of HBM and of anything else. -/
theorem Keeps.updMem {r s : State} (h : Keeps r s)
    {released : List Instr} {out : List Msg} {fresh : Nat} {flash : Flash} {pins : Pins} {i3c : I3c} {boot : Boot} {dev
    : DevRegs} {rootstock : BootRegs} {time : TimeRegs} {pow : PowRegs} {sec : SecRegs} {step : StepRegs} {mir :
    MirRegs} {eth0 : Eth} {eth1 : Eth} {dctCfg : Word} {dctCounters : Word} {rst : RstRegs} {mem : List Host.Cell}
    {sessions : List Session} {unacked : List Unacked} {decisions : List Decision} {nextReq : Nat} {img : ImgSt}
    {job : Job} {fd : Fd} {fabric : Fabric}
    (hm : Canonical r → Memory.wf mem = true) (hd : dev.state = s.dev.state) (hf : flash.serial = s.flash.serial) :
    Keeps r
      (State.mk s.pending released out fresh flash pins i3c boot dev rootstock time pow sec step mir eth0 eth1 dctCfg
      dctCounters rst s.ports s.parts s.memStacks s.tiles s.sites mem sessions unacked decisions nextReq img job
      fd fabric) :=
  h.setMem hm rfl rfl rfl rfl rfl rfl hd hf

/-! ## Parts of the state -/

theorem get_of_forall {α : Type} (P : α → Prop) (d : α) (m : Sparse α) (k : Nat) (hd : P d) (h : ∀ x ∈ m, P x.2) :
    P (Sparse.get d m k) := by
  induction m with
  | nil => exact hd
  | cons x m ih =>
    obtain ⟨j, v⟩ := x
    unfold Sparse.get
    split
    · exact h (j, v) List.mem_cons_self
    · exact ih fun y hy => h y (List.mem_cons_of_mem _ hy)

theorem forall_put {α : Type} (P : α → Prop) (m : Sparse α) (k : Nat) (a : α) (ha : P a) (h : ∀ x ∈ m, P x.2) :
    ∀ x ∈ Sparse.put m k a, P x.2 := by
  induction m with
  | nil => intro x hx; simp only [Sparse.put, List.mem_singleton] at hx; subst hx; exact ha
  | cons x m ih =>
    obtain ⟨j, v⟩ := x
    intro y hy
    unfold Sparse.put at hy
    split at hy
    · rcases List.mem_cons.1 hy with rfl | hy
      · exact ha
      · exact h y (List.mem_cons_of_mem _ hy)
    · split at hy
      · rcases List.mem_cons.1 hy with rfl | hy
        · exact ha
        · exact h y hy
      · rcases List.mem_cons.1 hy with rfl | hy
        · exact h _ List.mem_cons_self
        · exact ih (fun z hz => h z (List.mem_cons_of_mem _ hz)) y hy

theorem mem_drop {α : Type} {m : Sparse α} {k : Nat} {x : Nat × α} (h : x ∈ Sparse.drop m k) : x ∈ m := by
  induction m with
  | nil => exact h
  | cons y m ih =>
    obtain ⟨j, v⟩ := y
    unfold Sparse.drop at h
    split at h
    · exact List.mem_cons_of_mem _ (ih h)
    · rcases List.mem_cons.1 h with rfl | h
      · exact List.mem_cons_self
      · exact List.mem_cons_of_mem _ (ih h)

theorem storesOk_set {m : Sparse Tile} (k : Nat) (t : Tile) (h : StoresOk m) (ht : Memory.wf t.store = true) :
    StoresOk (Sparse.set Tile.reset m k t) := by
  unfold Sparse.set
  split
  · exact fun x hx => h x (mem_drop hx)
  · exact forall_put (fun (t : Tile) => Memory.wf t.store = true) m k t ht h

theorem storesOk_mapV {m : Sparse Tile} {f : Tile → Tile} (h : StoresOk m) (hf : ∀ t, TKeeps t (f t)) :
    StoresOk (Sparse.mapV Tile.reset f m) := by
  induction m with
  | nil => exact h
  | cons x m ih =>
    obtain ⟨k, v⟩ := x
    have ih := ih fun y hy => h y (List.mem_cons_of_mem _ hy)
    unfold Sparse.mapV
    split
    · exact ih
    · intro y hy
      rcases List.mem_cons.1 hy with rfl | hy
      · exact hf v (h (k, v) List.mem_cons_self)
      · exact ih y hy

/-- The store of a tile of a canonical state is canonical. -/
theorem Canonical.tile {s : State} (h : Canonical s) (tl : TileRef) : Memory.wf (s.tile tl).store = true :=
  get_of_forall (fun (t : Tile) => Memory.wf t.store = true) _ _ _ rfl h.stores

theorem Keeps.wfTile {r s : State} (c : Canonical r) (h : Keeps r s) (tl : TileRef) : Memory.wf (s.tile tl).store = true :=
  (h.canon c).tile tl

theorem Keeps.tile {r s : State} (h : Keeps r s) (tl : TileRef) : Canonical r → Memory.wf (s.tile tl).store = true :=
  fun c => (h.canon c).tile tl

/-- One map changed, everything else that `Keeps` speaks of left. -/
theorem Keeps.maps {r s t : State} (h : Keeps r s) (h1 : t.pending = s.pending) (h2 : t.mem = s.mem)
    (ht : Canonical r → Sparse.wf Tile.reset t.tiles = true ∧ StoresOk t.tiles)
    (hp : Canonical r → Sparse.wf Part.reset t.parts = true) (hn : Canonical r → Sparse.wf Port.reset t.ports = true)
    (hk : Canonical r → Sparse.wf Stack.reset t.memStacks = true) (hx : Canonical r → Sparse.wf Site.reset t.sites = true)
    (h8 : t.dev.state = s.dev.state) (h9 : t.flash.serial = s.flash.serial) : Keeps r t where
  queue := h1.trans h.queue
  canon c := ⟨h2 ▸ (h.canon c).mem, (ht c).1, (ht c).2, hp c, hn c, hk c, hx c⟩
  legal c := by have := h.legal c; unfold LegalState State.devState at *; rw [h8]; exact this
  serial := h9.trans h.serial

namespace State

theorem setTile_keeps {r s : State} (h : Keeps r s) (tl : TileRef) (t : Tile) (ht : Canonical r → Memory.wf t.store = true) :
    Keeps r (s.setTile tl t) := by
  unfold setTile
  exact Keeps.maps h rfl rfl (fun c => ⟨Sparse.wf_set _ _ (h.canon c).tiles, storesOk_set _ _ (h.canon c).stores (ht c)⟩) (fun c => (h.canon c).parts) (fun c => (h.canon c).ports) (fun c => (h.canon c).memStacks) (fun c => (h.canon c).sites) rfl rfl

theorem onTile_keeps {r s : State} (h : Keeps r s) (tl : TileRef) (f : Tile → Tile) (hf : ∀ t, TKeeps t (f t)) :
    Keeps r (s.onTile tl f) := setTile_keeps h tl _ fun c => hf _ (h.tile tl c)

theorem allTiles_keeps {r s : State} (h : Keeps r s) (f : Tile → Tile) (hf : ∀ t, TKeeps t (f t)) :
    Keeps r (s.allTiles f) := by
  unfold allTiles
  exact Keeps.maps h rfl rfl (fun c => ⟨Sparse.wf_mapV (h.canon c).tiles, storesOk_mapV (h.canon c).stores hf⟩) (fun c => (h.canon c).parts) (fun c => (h.canon c).ports) (fun c => (h.canon c).memStacks) (fun c => (h.canon c).sites) rfl rfl

theorem setPart_keeps {r s : State} (h : Keeps r s) (p : Nat) (a : Part) :
    Keeps r (s.setPart p a) := by
  unfold setPart
  exact Keeps.maps h rfl rfl (fun c => ⟨(h.canon c).tiles, (h.canon c).stores⟩) (fun c => Sparse.wf_set _ _ (h.canon c).parts) (fun c => (h.canon c).ports) (fun c => (h.canon c).memStacks) (fun c => (h.canon c).sites) rfl rfl

theorem onPart_keeps {r s : State} (h : Keeps r s) (p : Nat) (f : Part → Part) : Keeps r (s.onPart p f) := setPart_keeps h p _

theorem setPort_keeps {r s : State} (h : Keeps r s) (n : Nat) (a : Port) :
    Keeps r (s.setPort n a) := by
  unfold setPort
  exact Keeps.maps h rfl rfl (fun c => ⟨(h.canon c).tiles, (h.canon c).stores⟩) (fun c => (h.canon c).parts) (fun c => Sparse.wf_set _ _ (h.canon c).ports) (fun c => (h.canon c).memStacks) (fun c => (h.canon c).sites) rfl rfl

theorem onPort_keeps {r s : State} (h : Keeps r s) (n : Nat) (f : Port → Port) : Keeps r (s.onPort n f) := setPort_keeps h n _

theorem setStack_keeps {r s : State} (h : Keeps r s) (p k : Nat) (a : Stack) :
    Keeps r (s.setStack p k a) := by
  unfold setStack
  exact Keeps.maps h rfl rfl (fun c => ⟨(h.canon c).tiles, (h.canon c).stores⟩) (fun c => (h.canon c).parts) (fun c => (h.canon c).ports) (fun c => Sparse.wf_set _ _ (h.canon c).memStacks) (fun c => (h.canon c).sites) rfl rfl

theorem setSite_keeps {r s : State} (h : Keeps r s) (p k : Nat) (a : Site) :
    Keeps r (s.setSite p k a) := by
  unfold setSite
  exact Keeps.maps h rfl rfl (fun c => ⟨(h.canon c).tiles, (h.canon c).stores⟩) (fun c => (h.canon c).parts) (fun c => (h.canon c).ports) (fun c => (h.canon c).memStacks) (fun c => Sparse.wf_set _ _ (h.canon c).sites) rfl rfl

end State

/-- Listed tiles changed in place, those that became their reset value dropped. -/
theorem Keeps.mapTiles {r s : State} (h : Keeps r s) (g : Nat × Tile → Nat × Tile) (hk : ∀ x, (g x).1 = x.1)
    (hf : ∀ x, Memory.wf x.2.store = true → Memory.wf (g x).2.store = true) :
    Keeps r { s with tiles := (s.tiles.map g).filter (fun x => x.2 != Tile.reset) } := by
  have e : g = fun x => (x.1, (g x).2) := funext fun x => Prod.ext (hk x) rfl
  refine Keeps.maps h rfl rfl (fun c => ⟨?_, ?_⟩) (fun c => (h.canon c).parts) (fun c => (h.canon c).ports)
    (fun c => (h.canon c).memStacks) (fun c => (h.canon c).sites) rfl rfl
  · dsimp only
    rw [e]
    exact Sparse.wfFrom_map_filter (f := fun x => (g x).2) (h.canon c).tiles
  · intro x hx
    obtain ⟨y, hy, rfl⟩ := List.mem_map.1 (List.mem_filter.1 hx).1
    exact hf y ((h.canon c).stores y hy)

/-- A change of DEV_STATE's other fields. -/
theorem Keeps.devWord {r s t : State} (h : Keeps r s) (h1 : t.pending = s.pending) (h2 : t.mem = s.mem) (h3 : t.tiles = s.tiles)
    (h4 : t.parts = s.parts) (h5 : t.ports = s.ports) (h6 : t.memStacks = s.memStacks) (h7 : t.sites = s.sites)
    (h8 : t.devState = s.devState) (h9 : t.flash.serial = s.flash.serial) : Keeps r t where
  queue := h1.trans h.queue
  canon c := by
    obtain ⟨a, b, c, d, e, f, g⟩ := h.canon c
    exact ⟨h2 ▸ a, h3 ▸ b, h3 ▸ c, h4 ▸ d, h5 ▸ e, h6 ▸ f, h7 ▸ g⟩
  legal c := by have := h.legal c; unfold LegalState at *; rw [h8]; exact this
  serial := h9.trans h.serial

/-- The spare bit lies apart from the state. -/
theorem State.devState_spare (w : Word) (v : Nat) : getF (setF w Sys2Proof.Machine.devState_spare v) devState_state = getF w devState_state :=
  getF_setF_apart w ⟨by decide, by decide⟩ ⟨by decide, by decide⟩ (Or.inl (by decide)) v

theorem State.toState_keeps {r s : State} (h : Keeps r s) (d : Nat) (hd : d ≤ DS.retired) : Keeps r (s.toState d) where
  queue := (State.toState_pending s d).trans h.queue
  canon c := by
    obtain ⟨a, b, e, d', f, g, i⟩ := h.canon c
    constructor
    · rw [State.toState_mem]; exact a
    · rw [State.toState_tiles]; exact b
    · rw [State.toState_tiles]; exact e
    · rw [State.toState_parts]; exact d'
    · rw [State.toState_ports]; exact f
    · rw [State.toState_memStacks]; exact g
    · rw [State.toState_sites]; exact i
  legal _ := by unfold LegalState; rw [State.devState_toState s d (lt_of_le_of_lt hd (by decide))]; exact hd
  serial := (congrArg Flash.serial (State.toState_flash s d)).trans h.serial

end Sys2Proof.Machine
end

