-- ==== Sys2Proof/Laws/Keeps/Cells.lean ====
section
/-!
SUPPORT. The writers of a byte map keep its canonical form.
-/
namespace Sys2Proof.Machine

theorem wf_foldl {α : Type} {m : List Host.Cell} {f : List Host.Cell → α → List Host.Cell} (l : List α)
    (h : Memory.wf m = true) (hf : ∀ m x, Memory.wf m = true → Memory.wf (f m x) = true) : Memory.wf (l.foldl f m) = true := by
  induction l generalizing m with
  | nil => exact h
  | cons x l ih => exact ih (hf m x h)

theorem wf_foldl_fst {α β : Type} {z : List Host.Cell × β} {f : List Host.Cell × β → α → List Host.Cell × β} (l : List α)
    (h : Memory.wf z.1 = true) (hf : ∀ z x, Memory.wf z.1 = true → Memory.wf (f z x).1 = true) :
    Memory.wf (l.foldl f z).1 = true := by
  induction l generalizing z with
  | nil => exact h
  | cons x l ih => exact ih (hf z x h)

theorem store_foldl {α : Type} {t : Tile} {f : Tile → α → Tile} (l : List α) (h : Memory.wf t.store = true)
    (hf : ∀ t x, Memory.wf t.store = true → Memory.wf (f t x).store = true) : Memory.wf (l.foldl f t).store = true := by
  induction l generalizing t with
  | nil => exact h
  | cons x l ih => exact ih (hf t x h)

theorem store_foldl_fst {α β : Type} {z : Tile × β} {f : Tile × β → α → Tile × β} (l : List α)
    (h : Memory.wf z.1.store = true) (hf : ∀ z x, Memory.wf z.1.store = true → Memory.wf (f z x).1.store = true) :
    Memory.wf (l.foldl f z).1.store = true := by
  induction l generalizing z with
  | nil => exact h
  | cons x l ih => exact ih (hf z x h)

theorem wf_ite {a b : List Host.Cell} {c : Prop} [Decidable c] (ha : Memory.wf a = true) (hb : Memory.wf b = true) :
    Memory.wf (if c then a else b) = true := by split <;> assumption

theorem wf_putF32s {m : List Host.Cell} (a : Nat) (xs : List F32) (h : Memory.wf m = true) : Memory.wf (putF32s m a xs) = true := by
  induction xs generalizing m a with
  | nil => exact h
  | cons x xs ih => exact ih _ (Memory.wf_writeLE _ _ _ h)

theorem wf_tkWrite {m : List Host.Cell} (a : Nat) (es : List TkEntry) (h : Memory.wf m = true) : Memory.wf (tkWrite m a es) = true := by
  induction es generalizing m a with
  | nil => exact h
  | cons x xs ih => exact ih _ (Memory.wf_writeLE _ _ _ (Memory.wf_writeLE _ _ _ h))

theorem wf_putCodes {m : List Host.Cell} (f : Fmt) (a b : Nat) (cs : List Nat) (h : Memory.wf m = true) :
    Memory.wf (putCodes m f a b cs) = true := Memory.wf_writeN _ _ h

end Sys2Proof.Machine
end

