-- ==== Sys2Proof/Laws/Keeps/Ops.lean ====
section
/-!
SUPPORT. What the operations of Machine/Ops.lean keep.
-/
set_option linter.unusedTactic false
set_option linter.unreachableTactic false
namespace Sys2Proof.Machine

theorem State.onJob_keeps {r₀ s : State} (hk : Keeps r₀ s) (f : Job → Job) :
    Keeps r₀ (s.onJob f) := by
  unfold State.onJob
  try dsimp only
  repeat' first
    | with_reducible assumption
    | with_reducible apply Keeps.ite
    | with_reducible rfl
    | with_reducible refine Keeps.wfTile (by assumption) ?_ _
    | with_reducible apply Keeps.foldl
    | with_reducible apply Keeps.foldl_fst
    | (with_reducible refine Keeps.ofPair ?_ (by assumption))
    | split
    | dsimp only
    | fail_if_no_progress with_reducible refine Keeps.upd ?_ rfl rfl
    | fail_if_no_progress with_reducible refine Keeps.updMem ?_ (fun c => ?_) rfl rfl
    | (intro)
    | decide

theorem State.onFd_keeps {r₀ s : State} (hk : Keeps r₀ s) (f : Fd → Fd) :
    Keeps r₀ (s.onFd f) := by
  unfold State.onFd
  try dsimp only
  repeat' first
    | with_reducible assumption
    | with_reducible apply Keeps.ite
    | with_reducible rfl
    | with_reducible refine Keeps.wfTile (by assumption) ?_ _
    | with_reducible apply Keeps.foldl
    | with_reducible apply Keeps.foldl_fst
    | (with_reducible refine Keeps.ofPair ?_ (by assumption))
    | split
    | dsimp only
    | fail_if_no_progress with_reducible refine Keeps.upd ?_ rfl rfl
    | fail_if_no_progress with_reducible refine Keeps.updMem ?_ (fun c => ?_) rfl rfl
    | (intro)
    | decide

theorem State.allParts_keeps {r₀ s : State} (hk : Keeps r₀ s) (f : Part → Part) :
    Keeps r₀ (s.allParts f) := by
  unfold State.allParts
  try dsimp only
  repeat' first
    | with_reducible assumption
    | with_reducible apply Keeps.ite
    | with_reducible apply State.onPart_keeps
    | with_reducible rfl
    | with_reducible refine Keeps.wfTile (by assumption) ?_ _
    | with_reducible apply Keeps.foldl
    | with_reducible apply Keeps.foldl_fst
    | (with_reducible refine Keeps.ofPair ?_ (by assumption))
    | split
    | dsimp only
    | fail_if_no_progress with_reducible refine Keeps.upd ?_ rfl rfl
    | fail_if_no_progress with_reducible refine Keeps.updMem ?_ (fun c => ?_) rfl rfl
    | (intro)
    | decide

theorem State.driveFault_keeps {r₀ s : State} (hk : Keeps r₀ s) :
    Keeps r₀ (s.driveFault) := by
  unfold State.driveFault
  try dsimp only
  repeat' first
    | with_reducible assumption
    | with_reducible apply Keeps.ite
    | with_reducible rfl
    | with_reducible refine Keeps.wfTile (by assumption) ?_ _
    | with_reducible apply Keeps.foldl
    | with_reducible apply Keeps.foldl_fst
    | (with_reducible refine Keeps.ofPair ?_ (by assumption))
    | split
    | dsimp only
    | fail_if_no_progress with_reducible refine Keeps.upd ?_ rfl rfl
    | fail_if_no_progress with_reducible refine Keeps.updMem ?_ (fun c => ?_) rfl rfl
    | (intro)
    | decide

theorem State.send_keeps {r₀ s : State} (hk : Keeps r₀ s) (m : Msg) :
    Keeps r₀ (s.send m) := by
  unfold State.send
  try dsimp only
  repeat' first
    | with_reducible assumption
    | with_reducible apply Keeps.ite
    | with_reducible rfl
    | with_reducible refine Keeps.wfTile (by assumption) ?_ _
    | with_reducible apply Keeps.foldl
    | with_reducible apply Keeps.foldl_fst
    | (with_reducible refine Keeps.ofPair ?_ (by assumption))
    | split
    | dsimp only
    | fail_if_no_progress with_reducible refine Keeps.upd ?_ rfl rfl
    | fail_if_no_progress with_reducible refine Keeps.updMem ?_ (fun c => ?_) rfl rfl
    | (intro)
    | decide

theorem State.sendAll_keeps {r₀ s : State} (hk : Keeps r₀ s) (ms : List Msg) :
    Keeps r₀ (s.sendAll ms) := by
  unfold State.sendAll
  try dsimp only
  repeat' first
    | with_reducible assumption
    | with_reducible apply Keeps.ite
    | with_reducible apply State.send_keeps
    | with_reducible rfl
    | with_reducible refine Keeps.wfTile (by assumption) ?_ _
    | with_reducible apply Keeps.foldl
    | with_reducible apply Keeps.foldl_fst
    | (with_reducible refine Keeps.ofPair ?_ (by assumption))
    | split
    | dsimp only
    | fail_if_no_progress with_reducible refine Keeps.upd ?_ rfl rfl
    | fail_if_no_progress with_reducible refine Keeps.updMem ?_ (fun c => ?_) rfl rfl
    | (intro)
    | decide

theorem State.useFree_keeps {r₀ s : State} (hk : Keeps r₀ s) :
    Keeps r₀ (s.useFree) := by
  unfold State.useFree
  try dsimp only
  repeat' first
    | with_reducible assumption
    | with_reducible apply Keeps.ite
    | with_reducible rfl
    | with_reducible refine Keeps.wfTile (by assumption) ?_ _
    | with_reducible apply Keeps.foldl
    | with_reducible apply Keeps.foldl_fst
    | (with_reducible refine Keeps.ofPair ?_ (by assumption))
    | split
    | dsimp only
    | fail_if_no_progress with_reducible refine Keeps.upd ?_ rfl rfl
    | fail_if_no_progress with_reducible refine Keeps.updMem ?_ (fun c => ?_) rfl rfl
    | (intro)
    | decide

theorem State.tick_keeps {r₀ s : State} (hk : Keeps r₀ s) :
    Keeps r₀ (s.tick) := by
  unfold State.tick
  try dsimp only
  repeat' first
    | with_reducible assumption
    | with_reducible apply Keeps.ite
    | with_reducible rfl
    | with_reducible refine Keeps.wfTile (by assumption) ?_ _
    | with_reducible apply Keeps.foldl
    | with_reducible apply Keeps.foldl_fst
    | (with_reducible refine Keeps.ofPair ?_ (by assumption))
    | split
    | dsimp only
    | fail_if_no_progress with_reducible refine Keeps.upd ?_ rfl rfl
    | fail_if_no_progress with_reducible refine Keeps.updMem ?_ (fun c => ?_) rfl rfl
    | (intro)
    | decide

theorem State.errRecord_keeps {r₀ s : State} (hk : Keeps r₀ s) (code : ℕ) (src : ℕ) :
    Keeps r₀ (s.errRecord code src) := by
  unfold State.errRecord
  try dsimp only
  repeat' first
    | with_reducible assumption
    | with_reducible apply Keeps.ite
    | with_reducible rfl
    | with_reducible refine Keeps.wfTile (by assumption) ?_ _
    | with_reducible apply Keeps.foldl
    | with_reducible apply Keeps.foldl_fst
    | (with_reducible refine Keeps.ofPair ?_ (by assumption))
    | split
    | dsimp only
    | fail_if_no_progress with_reducible refine Keeps.upd ?_ rfl rfl
    | fail_if_no_progress with_reducible refine Keeps.updMem ?_ (fun c => ?_) rfl rfl
    | (intro)
    | decide

theorem State.refreshCellar_keeps {r₀ s : State} (hk : Keeps r₀ s) :
    Keeps r₀ (s.refreshCellar) := by
  unfold State.refreshCellar
  try dsimp only
  repeat' first
    | with_reducible assumption
    | with_reducible apply Keeps.ite
    | with_reducible rfl
    | with_reducible refine Keeps.wfTile (by assumption) ?_ _
    | with_reducible apply Keeps.foldl
    | with_reducible apply Keeps.foldl_fst
    | (with_reducible refine Keeps.ofPair ?_ (by assumption))
    | split
    | dsimp only
    | fail_if_no_progress with_reducible refine Keeps.upd ?_ rfl rfl
    | fail_if_no_progress with_reducible refine Keeps.updMem ?_ (fun c => ?_) rfl rfl
    | (intro)
    | decide

theorem State.onVint_keeps {r₀ s : State} (hk : Keeps r₀ s) (v : ℕ) (f : Vint → Vint) :
    Keeps r₀ (s.onVint v f) := by
  unfold State.onVint
  try dsimp only
  repeat' first
    | with_reducible assumption
    | with_reducible apply Keeps.ite
    | with_reducible apply State.refreshCellar_keeps
    | with_reducible apply State.onJob_keeps
    | with_reducible rfl
    | with_reducible refine Keeps.wfTile (by assumption) ?_ _
    | with_reducible apply Keeps.foldl
    | with_reducible apply Keeps.foldl_fst
    | (with_reducible refine Keeps.ofPair ?_ (by assumption))
    | split
    | dsimp only
    | fail_if_no_progress with_reducible refine Keeps.upd ?_ rfl rfl
    | fail_if_no_progress with_reducible refine Keeps.updMem ?_ (fun c => ?_) rfl rfl
    | (intro)
    | decide

theorem State.ledger_keeps {r₀ s : State} (hk : Keeps r₀ s) (p : ℕ) (cls : ℕ) (code : ℕ) (tile : ℕ) (arg : ℕ) (vintage : ℕ) (attempt : ℕ) :
    Keeps r₀ (s.ledger p cls code tile arg vintage attempt) := by
  unfold State.ledger
  try dsimp only
  repeat' first
    | with_reducible assumption
    | with_reducible apply Keeps.ite
    | with_reducible apply State.setPart_keeps
    | with_reducible rfl
    | with_reducible refine Keeps.wfTile (by assumption) ?_ _
    | with_reducible apply Keeps.foldl
    | with_reducible apply Keeps.foldl_fst
    | (with_reducible refine Keeps.ofPair ?_ (by assumption))
    | split
    | dsimp only
    | fail_if_no_progress with_reducible refine Keeps.upd ?_ rfl rfl
    | fail_if_no_progress with_reducible refine Keeps.updMem ?_ (fun c => ?_) rfl rfl
    | (intro)
    | decide

theorem State.phase_keeps {r₀ s : State} (hk : Keeps r₀ s) (code : ℕ) :
    Keeps r₀ (s.phase code) := by
  unfold State.phase
  try dsimp only
  repeat' first
    | with_reducible assumption
    | with_reducible apply Keeps.ite
    | with_reducible apply State.ledger_keeps
    | with_reducible rfl
    | with_reducible refine Keeps.wfTile (by assumption) ?_ _
    | with_reducible apply Keeps.foldl
    | with_reducible apply Keeps.foldl_fst
    | (with_reducible refine Keeps.ofPair ?_ (by assumption))
    | split
    | dsimp only
    | fail_if_no_progress with_reducible refine Keeps.upd ?_ rfl rfl
    | fail_if_no_progress with_reducible refine Keeps.updMem ?_ (fun c => ?_) rfl rfl
    | (intro)
    | decide

theorem State.sendTo_keeps {r₀ s : State} (hk : Keeps r₀ s) (x : Session) (m : Msg) (isEvent : Bool) :
    Keeps r₀ (s.sendTo x m isEvent) := by
  unfold State.sendTo
  try dsimp only
  repeat' first
    | with_reducible assumption
    | with_reducible apply Keeps.ite
    | with_reducible apply State.send_keeps
    | with_reducible rfl
    | with_reducible refine Keeps.wfTile (by assumption) ?_ _
    | with_reducible apply Keeps.foldl
    | with_reducible apply Keeps.foldl_fst
    | (with_reducible refine Keeps.ofPair ?_ (by assumption))
    | split
    | dsimp only
    | fail_if_no_progress with_reducible refine Keeps.upd ?_ rfl rfl
    | fail_if_no_progress with_reducible refine Keeps.updMem ?_ (fun c => ?_) rfl rfl
    | (intro)
    | decide

theorem State.toHosts_keeps {r₀ s : State} (hk : Keeps r₀ s) (m : Msg) (isEvent : Bool) :
    Keeps r₀ (s.toHosts m isEvent) := by
  unfold State.toHosts
  try dsimp only
  repeat' first
    | with_reducible assumption
    | with_reducible apply Keeps.ite
    | with_reducible apply State.sendTo_keeps
    | with_reducible rfl
    | with_reducible refine Keeps.wfTile (by assumption) ?_ _
    | with_reducible apply Keeps.foldl
    | with_reducible apply Keeps.foldl_fst
    | (with_reducible refine Keeps.ofPair ?_ (by assumption))
    | split
    | dsimp only
    | fail_if_no_progress with_reducible refine Keeps.upd ?_ rfl rfl
    | fail_if_no_progress with_reducible refine Keeps.updMem ?_ (fun c => ?_) rfl rfl
    | (intro)
    | decide

theorem State.event_keeps {r₀ s : State} (hk : Keeps r₀ s) (code : ℕ) (cls : ℕ) (arg : ℕ) (src : ℕ) (always : Bool) :
    Keeps r₀ (s.event code cls arg src always) := by
  unfold State.event
  try dsimp only
  repeat' first
    | with_reducible assumption
    | with_reducible apply Keeps.ite
    | with_reducible apply State.errRecord_keeps
    | with_reducible apply State.ledger_keeps
    | with_reducible apply State.toHosts_keeps
    | with_reducible rfl
    | with_reducible refine Keeps.wfTile (by assumption) ?_ _
    | with_reducible apply Keeps.foldl
    | with_reducible apply Keeps.foldl_fst
    | (with_reducible refine Keeps.ofPair ?_ (by assumption))
    | split
    | dsimp only
    | fail_if_no_progress with_reducible refine Keeps.upd ?_ rfl rfl
    | fail_if_no_progress with_reducible refine Keeps.updMem ?_ (fun c => ?_) rfl rfl
    | (intro)
    | decide

theorem State.refreshHeads_keeps {r₀ s : State} (hk : Keeps r₀ s) :
    Keeps r₀ (s.refreshHeads) := by
  unfold State.refreshHeads
  try dsimp only
  repeat' first
    | with_reducible assumption
    | with_reducible apply Keeps.ite
    | with_reducible rfl
    | with_reducible refine Keeps.wfTile (by assumption) ?_ _
    | with_reducible apply Keeps.foldl
    | with_reducible apply Keeps.foldl_fst
    | (with_reducible refine Keeps.ofPair ?_ (by assumption))
    | split
    | dsimp only
    | fail_if_no_progress with_reducible refine Keeps.upd ?_ rfl rfl
    | fail_if_no_progress with_reducible refine Keeps.updMem ?_ (fun c => ?_) rfl rfl
    | (intro)
    | decide

theorem State.declareFailed_keeps {r₀ s : State} (hk : Keeps r₀ s) (cause : ℕ) :
    Keeps r₀ (s.declareFailed cause) := by
  unfold State.declareFailed
  try dsimp only
  repeat' first
    | with_reducible assumption
    | with_reducible apply Keeps.ite
    | with_reducible apply State.send_keeps
    | with_reducible rfl
    | with_reducible refine Keeps.wfTile (by assumption) ?_ _
    | with_reducible apply Keeps.foldl
    | with_reducible apply Keeps.foldl_fst
    | (with_reducible refine Keeps.ofPair ?_ (by assumption))
    | split
    | dsimp only
    | fail_if_no_progress with_reducible refine Keeps.upd ?_ rfl rfl
    | fail_if_no_progress with_reducible refine Keeps.updMem ?_ (fun c => ?_) rfl rfl
    | (intro)
    | decide

theorem State.failBit_keeps {r₀ s : State} (hk : Keeps r₀ s) (f : Field) :
    Keeps r₀ (s.failBit f) := by
  unfold State.failBit
  try dsimp only
  repeat' first
    | with_reducible assumption
    | with_reducible apply Keeps.ite
    | with_reducible rfl
    | with_reducible refine Keeps.wfTile (by assumption) ?_ _
    | with_reducible apply Keeps.foldl
    | with_reducible apply Keeps.foldl_fst
    | (with_reducible refine Keeps.ofPair ?_ (by assumption))
    | split
    | dsimp only
    | fail_if_no_progress with_reducible refine Keeps.upd ?_ rfl rfl
    | fail_if_no_progress with_reducible refine Keeps.updMem ?_ (fun c => ?_) rfl rfl
    | (intro)
    | decide

theorem State.failFor_keeps {r₀ s : State} (hk : Keeps r₀ s) (f : Field) (code : ℕ) :
    Keeps r₀ (s.failFor f code) := by
  unfold State.failFor
  try dsimp only
  repeat' first
    | with_reducible assumption
    | with_reducible apply Keeps.ite
    | with_reducible apply State.failBit_keeps
    | with_reducible rfl
    | with_reducible refine Keeps.wfTile (by assumption) ?_ _
    | with_reducible apply Keeps.foldl
    | with_reducible apply Keeps.foldl_fst
    | (with_reducible refine Keeps.ofPair ?_ (by assumption))
    | split
    | dsimp only
    | fail_if_no_progress with_reducible refine Keeps.upd ?_ rfl rfl
    | fail_if_no_progress with_reducible refine Keeps.updMem ?_ (fun c => ?_) rfl rfl
    | (intro)
    | decide

theorem State.tileSt_keeps {r₀ s : State} (hk : Keeps r₀ s) (tl : TileRef) (st : ℕ) :
    Keeps r₀ (s.tileSt tl st) := by
  unfold State.tileSt
  try dsimp only
  repeat' first
    | with_reducible assumption
    | with_reducible apply Keeps.ite
    | with_reducible apply State.setTile_keeps
    | with_reducible rfl
    | with_reducible refine Keeps.wfTile (by assumption) ?_ _
    | with_reducible apply Keeps.foldl
    | with_reducible apply Keeps.foldl_fst
    | (with_reducible refine Keeps.ofPair ?_ (by assumption))
    | split
    | dsimp only
    | fail_if_no_progress with_reducible refine Keeps.upd ?_ rfl rfl
    | fail_if_no_progress with_reducible refine Keeps.updMem ?_ (fun c => ?_) rfl rfl
    | (intro)
    | decide

theorem State.tileFault_keeps {r₀ s : State} (hk : Keeps r₀ s) (tl : TileRef) (code : ℕ) :
    Keeps r₀ (s.tileFault tl code) := by
  unfold State.tileFault
  try dsimp only
  repeat' first
    | with_reducible assumption
    | with_reducible apply Keeps.ite
    | with_reducible apply State.setTile_keeps
    | with_reducible apply State.failFor_keeps
    | with_reducible apply State.failBit_keeps
    | with_reducible rfl
    | with_reducible refine Keeps.wfTile (by assumption) ?_ _
    | with_reducible apply Keeps.foldl
    | with_reducible apply Keeps.foldl_fst
    | (with_reducible refine Keeps.ofPair ?_ (by assumption))
    | split
    | dsimp only
    | fail_if_no_progress with_reducible refine Keeps.upd ?_ rfl rfl
    | fail_if_no_progress with_reducible refine Keeps.updMem ?_ (fun c => ?_) rfl rfl
    | (intro)
    | decide

theorem State.storeRace_keeps {r₀ s : State} (hk : Keeps r₀ s) (tl : TileRef) (own : ℕ) (r : RaceIn) :
    Keeps r₀ (s.storeRace tl own r) := by
  unfold State.storeRace
  try dsimp only
  repeat' first
    | with_reducible assumption
    | with_reducible apply Keeps.ite
    | with_reducible apply State.tileFault_keeps
    | with_reducible apply State.setTile_keeps
    | with_reducible rfl
    | with_reducible refine Keeps.wfTile (by assumption) ?_ _
    | with_reducible apply Keeps.foldl
    | with_reducible apply Keeps.foldl_fst
    | (with_reducible refine Keeps.ofPair ?_ (by assumption))
    | split
    | dsimp only
    | fail_if_no_progress with_reducible refine Keeps.upd ?_ rfl rfl
    | fail_if_no_progress with_reducible refine Keeps.updMem ?_ (fun c => ?_) rfl rfl
    | with_reducible apply Memory.wf_nil
    | with_reducible apply Memory.wf_writeLE
    | with_reducible apply Memory.wf_writeN
    | with_reducible apply Memory.wf_write
    | with_reducible apply Memory.wf_clear
    | with_reducible apply Memory.wf_copy
    | with_reducible apply wf_putF32s
    | with_reducible apply wf_tkWrite
    | with_reducible apply wf_putCodes
    | with_reducible apply wf_foldl
    | with_reducible apply store_foldl
    | with_reducible apply store_foldl_fst
    | with_reducible apply wf_ite
    | with_reducible refine Canonical.mem (Keeps.canon ?_ (by assumption))
    | (with_reducible refine (by assumption : Canonical _ → Memory.wf _ = true) (by assumption))
    | (intro)
    | decide

theorem State.raceIf_keeps {r₀ s : State} (hk : Keeps r₀ s) (tl : TileRef) (own : ℕ) (x3 : Option RaceIn) :
    Keeps r₀ (s.raceIf tl own x3) := by
  unfold State.raceIf
  try dsimp only
  repeat' first
    | with_reducible assumption
    | with_reducible apply Keeps.ite
    | with_reducible apply State.storeRace_keeps
    | with_reducible rfl
    | with_reducible refine Keeps.wfTile (by assumption) ?_ _
    | with_reducible apply Keeps.foldl
    | with_reducible apply Keeps.foldl_fst
    | (with_reducible refine Keeps.ofPair ?_ (by assumption))
    | split
    | dsimp only
    | fail_if_no_progress with_reducible refine Keeps.upd ?_ rfl rfl
    | fail_if_no_progress with_reducible refine Keeps.updMem ?_ (fun c => ?_) rfl rfl
    | (intro)
    | decide

theorem State.leaveSpan_tkeeps (t : Tile) : TKeeps t (State.leaveSpan t) := by
  unfold State.leaveSpan
  try dsimp only
  repeat' first
    | with_reducible assumption
    | with_reducible apply Keeps.ite
    | with_reducible rfl
    | with_reducible refine Keeps.wfTile (by assumption) ?_ _
    | with_reducible apply Keeps.foldl
    | with_reducible apply Keeps.foldl_fst
    | (with_reducible refine Keeps.ofPair ?_ (by assumption))
    | split
    | dsimp only
    | fail_if_no_progress with_reducible refine Keeps.upd ?_ rfl rfl
    | fail_if_no_progress with_reducible refine Keeps.updMem ?_ (fun c => ?_) rfl rfl
    | with_reducible apply Memory.wf_nil
    | with_reducible apply Memory.wf_writeLE
    | with_reducible apply Memory.wf_writeN
    | with_reducible apply Memory.wf_write
    | with_reducible apply Memory.wf_clear
    | with_reducible apply Memory.wf_copy
    | with_reducible apply wf_putF32s
    | with_reducible apply wf_tkWrite
    | with_reducible apply wf_putCodes
    | with_reducible apply wf_foldl
    | with_reducible apply store_foldl
    | with_reducible apply store_foldl_fst
    | with_reducible apply wf_ite
    | with_reducible refine Canonical.mem (Keeps.canon ?_ (by assumption))
    | (with_reducible refine (by assumption : Canonical _ → Memory.wf _ = true) (by assumption))
    | (intro)
    | decide

theorem State.storeEcc_keeps {r₀ s : State} (hk : Keeps r₀ s) (tl : TileRef) (e : Ecc) :
    Keeps r₀ (s.storeEcc tl e) := by
  unfold State.storeEcc
  try dsimp only
  repeat' first
    | with_reducible assumption
    | with_reducible apply Keeps.ite
    | with_reducible apply State.setTile_keeps
    | with_reducible apply State.tileFault_keeps
    | with_reducible rfl
    | with_reducible refine Keeps.wfTile (by assumption) ?_ _
    | with_reducible apply Keeps.foldl
    | with_reducible apply Keeps.foldl_fst
    | (with_reducible refine Keeps.ofPair ?_ (by assumption))
    | split
    | dsimp only
    | fail_if_no_progress with_reducible refine Keeps.upd ?_ rfl rfl
    | fail_if_no_progress with_reducible refine Keeps.updMem ?_ (fun c => ?_) rfl rfl
    | (intro)
    | decide

theorem State.readStore_keeps {r₀ s : State} (hk : Keeps r₀ s) (tl : TileRef) (e : Ecc) (k : State → State) (hk : ∀ s, Keeps r₀ s → Keeps r₀ (k s)) :
    Keeps r₀ (s.readStore tl e k) := by
  unfold State.readStore
  try dsimp only
  repeat' first
    | with_reducible assumption
    | with_reducible apply hk
    | with_reducible apply Keeps.ite
    | with_reducible apply State.storeEcc_keeps
    | with_reducible rfl
    | with_reducible refine Keeps.wfTile (by assumption) ?_ _
    | with_reducible apply Keeps.foldl
    | with_reducible apply Keeps.foldl_fst
    | (with_reducible refine Keeps.ofPair ?_ (by assumption))
    | split
    | dsimp only
    | fail_if_no_progress with_reducible refine Keeps.upd ?_ rfl rfl
    | fail_if_no_progress with_reducible refine Keeps.updMem ?_ (fun c => ?_) rfl rfl
    | (intro)
    | decide

theorem State.syncAdd_keeps {r₀ s : State} (hk : Keeps r₀ s) (tl : TileRef) (k : ℕ) (n : ℕ) :
    Keeps r₀ (s.syncAdd tl k n) := by
  unfold State.syncAdd
  try dsimp only
  repeat' first
    | with_reducible assumption
    | with_reducible apply Keeps.ite
    | with_reducible apply State.tileFault_keeps
    | with_reducible apply State.setTile_keeps
    | with_reducible rfl
    | with_reducible refine Keeps.wfTile (by assumption) ?_ _
    | with_reducible apply Keeps.foldl
    | with_reducible apply Keeps.foldl_fst
    | (with_reducible refine Keeps.ofPair ?_ (by assumption))
    | split
    | dsimp only
    | fail_if_no_progress with_reducible refine Keeps.upd ?_ rfl rfl
    | fail_if_no_progress with_reducible refine Keeps.updMem ?_ (fun c => ?_) rfl rfl
    | (intro)
    | decide

theorem State.markUnit_keeps {r₀ s : State} (hk : Keeps r₀ s) (tl : TileRef) (u : ℕ) :
    Keeps r₀ (s.markUnit tl u) := by
  unfold State.markUnit
  try dsimp only
  repeat' first
    | with_reducible assumption
    | with_reducible apply Keeps.ite
    | with_reducible apply State.setTile_keeps
    | with_reducible rfl
    | with_reducible refine Keeps.wfTile (by assumption) ?_ _
    | with_reducible apply Keeps.foldl
    | with_reducible apply Keeps.foldl_fst
    | (with_reducible refine Keeps.ofPair ?_ (by assumption))
    | split
    | dsimp only
    | fail_if_no_progress with_reducible refine Keeps.upd ?_ rfl rfl
    | fail_if_no_progress with_reducible refine Keeps.updMem ?_ (fun c => ?_) rfl rfl
    | (intro)
    | decide

theorem State.stageRecord_keeps {r₀ s : State} (hk : Keeps r₀ s) (tl : TileRef) (cls : ℕ) (code : ℕ) (arg : ℕ) :
    Keeps r₀ (s.stageRecord tl cls code arg) := by
  unfold State.stageRecord
  try dsimp only
  repeat' first
    | with_reducible assumption
    | with_reducible apply Keeps.ite
    | with_reducible apply State.ledger_keeps
    | with_reducible rfl
    | with_reducible refine Keeps.wfTile (by assumption) ?_ _
    | with_reducible apply Keeps.foldl
    | with_reducible apply Keeps.foldl_fst
    | (with_reducible refine Keeps.ofPair ?_ (by assumption))
    | split
    | dsimp only
    | fail_if_no_progress with_reducible refine Keeps.upd ?_ rfl rfl
    | fail_if_no_progress with_reducible refine Keeps.updMem ?_ (fun c => ?_) rfl rfl
    | (intro)
    | decide

theorem State.stall_keeps {r₀ s : State} (hk : Keeps r₀ s) (tl : TileRef) (code : ℕ) (us : ℕ) :
    Keeps r₀ (s.stall tl code us) := by
  unfold State.stall
  try dsimp only
  repeat' first
    | with_reducible assumption
    | with_reducible apply Keeps.ite
    | with_reducible apply State.stageRecord_keeps
    | with_reducible rfl
    | with_reducible refine Keeps.wfTile (by assumption) ?_ _
    | with_reducible apply Keeps.foldl
    | with_reducible apply Keeps.foldl_fst
    | (with_reducible refine Keeps.ofPair ?_ (by assumption))
    | split
    | dsimp only
    | fail_if_no_progress with_reducible refine Keeps.upd ?_ rfl rfl
    | fail_if_no_progress with_reducible refine Keeps.updMem ?_ (fun c => ?_) rfl rfl
    | (intro)
    | decide

theorem State.endWait_keeps {r₀ s : State} (hk : Keeps r₀ s) (tl : TileRef) :
    Keeps r₀ (s.endWait tl) := by
  unfold State.endWait
  try dsimp only
  repeat' first
    | with_reducible assumption
    | with_reducible apply Keeps.ite
    | with_reducible apply State.onTile_keeps
    | with_reducible apply State.stall_keeps
    | with_reducible rfl
    | with_reducible refine Keeps.wfTile (by assumption) ?_ _
    | with_reducible apply Keeps.foldl
    | with_reducible apply Keeps.foldl_fst
    | (with_reducible refine Keeps.ofPair ?_ (by assumption))
    | split
    | dsimp only
    | fail_if_no_progress with_reducible refine Keeps.upd ?_ rfl rfl
    | fail_if_no_progress with_reducible refine Keeps.updMem ?_ (fun c => ?_) rfl rfl
    | (intro)
    | decide

theorem State.goOn_keeps {r₀ s : State} (hk : Keeps r₀ s) (tl : TileRef) (dest : ℕ) (loops : List Loop) :
    Keeps r₀ (s.goOn tl dest loops) := by
  unfold State.goOn
  try dsimp only
  repeat' first
    | with_reducible assumption
    | with_reducible apply Keeps.ite
    | with_reducible apply State.endWait_keeps
    | with_reducible apply State.setTile_keeps
    | with_reducible apply State.leaveSpan_tkeeps
    | with_reducible rfl
    | with_reducible refine Keeps.wfTile (by assumption) ?_ _
    | with_reducible apply Keeps.foldl
    | with_reducible apply Keeps.foldl_fst
    | (with_reducible refine Keeps.ofPair ?_ (by assumption))
    | split
    | dsimp only
    | fail_if_no_progress with_reducible refine Keeps.upd ?_ rfl rfl
    | fail_if_no_progress with_reducible refine Keeps.updMem ?_ (fun c => ?_) rfl rfl
    | (intro)
    | decide

theorem State.retire_keeps {r₀ s : State} (hk : Keeps r₀ s) (tl : TileRef) :
    Keeps r₀ (s.retire tl) := by
  unfold State.retire
  try dsimp only
  repeat' first
    | with_reducible assumption
    | with_reducible apply Keeps.ite
    | with_reducible apply State.goOn_keeps
    | with_reducible rfl
    | with_reducible refine Keeps.wfTile (by assumption) ?_ _
    | with_reducible apply Keeps.foldl
    | with_reducible apply Keeps.foldl_fst
    | (with_reducible refine Keeps.ofPair ?_ (by assumption))
    | split
    | dsimp only
    | fail_if_no_progress with_reducible refine Keeps.upd ?_ rfl rfl
    | fail_if_no_progress with_reducible refine Keeps.updMem ?_ (fun c => ?_) rfl rfl
    | (intro)
    | decide

theorem State.hold_keeps {r₀ s : State} (hk : Keeps r₀ s) (tl : TileRef) (code : ℕ) :
    Keeps r₀ (s.hold tl code) := by
  unfold State.hold
  try dsimp only
  repeat' first
    | with_reducible assumption
    | with_reducible apply Keeps.ite
    | with_reducible apply State.onTile_keeps
    | with_reducible apply State.tileSt_keeps
    | with_reducible rfl
    | with_reducible refine Keeps.wfTile (by assumption) ?_ _
    | with_reducible apply Keeps.foldl
    | with_reducible apply Keeps.foldl_fst
    | (with_reducible refine Keeps.ofPair ?_ (by assumption))
    | split
    | dsimp only
    | fail_if_no_progress with_reducible refine Keeps.upd ?_ rfl rfl
    | fail_if_no_progress with_reducible refine Keeps.updMem ?_ (fun c => ?_) rfl rfl
    | (intro)
    | decide

theorem State.draw_keeps {r₀ s : State} (hk : Keeps r₀ s) :
    Keeps r₀ (s.draw) := by
  unfold State.draw
  try dsimp only
  repeat' first
    | with_reducible assumption
    | with_reducible apply Keeps.ite
    | with_reducible rfl
    | with_reducible refine Keeps.wfTile (by assumption) ?_ _
    | with_reducible apply Keeps.foldl
    | with_reducible apply Keeps.foldl_fst
    | (with_reducible refine Keeps.ofPair ?_ (by assumption))
    | split
    | dsimp only
    | fail_if_no_progress with_reducible refine Keeps.upd ?_ rfl rfl
    | fail_if_no_progress with_reducible refine Keeps.updMem ?_ (fun c => ?_) rfl rfl
    | (intro)
    | decide

end Sys2Proof.Machine
end

