-- ==== Sys2Proof/Laws/Keeps/Messages.lean ====
section
/-!
SUPPORT. What the operations of Machine/Messages.lean keep.
-/
set_option linter.unusedTactic false
set_option linter.unreachableTactic false
namespace Sys2Proof.Machine

theorem State.bumpDct_keeps {r₀ s : State} (hk : Keeps r₀ s) (f : Field) :
    Keeps r₀ (s.bumpDct f) := by
  unfold State.bumpDct
  try dsimp only
  repeat' first
    | with_reducible assumption
    | with_reducible apply Keeps.ite
    | with_reducible rfl
    | with_reducible refine Keeps.wfTile (by assumption) ?_ _
    | with_reducible apply Keeps.foldl
    | with_reducible apply Keeps.foldl_fst
    | (with_reducible refine Keeps.ofPair ?_ (by assumption))
    | split
    | dsimp only
    | fail_if_no_progress with_reducible refine Keeps.upd ?_ rfl rfl
    | fail_if_no_progress with_reducible refine Keeps.updMem ?_ (fun c => ?_) rfl rfl
    | (intro)
    | decide

theorem State.onSession_keeps {r₀ s : State} (hk : Keeps r₀ s) (n : ℕ) (f : Session → Session) :
    Keeps r₀ (s.onSession n f) := by
  unfold State.onSession
  try dsimp only
  repeat' first
    | with_reducible assumption
    | with_reducible apply Keeps.ite
    | with_reducible rfl
    | with_reducible refine Keeps.wfTile (by assumption) ?_ _
    | with_reducible apply Keeps.foldl
    | with_reducible apply Keeps.foldl_fst
    | (with_reducible refine Keeps.ofPair ?_ (by assumption))
    | split
    | dsimp only
    | fail_if_no_progress with_reducible refine Keeps.upd ?_ rfl rfl
    | fail_if_no_progress with_reducible refine Keeps.updMem ?_ (fun c => ?_) rfl rfl
    | (intro)
    | decide

theorem State.releaseHeld_keeps {r₀ s : State} (hk : Keeps r₀ s) (n : ℕ) :
    Keeps r₀ (s.releaseHeld n) := by
  unfold State.releaseHeld
  try dsimp only
  repeat' first
    | with_reducible assumption
    | with_reducible apply Keeps.ite
    | with_reducible apply State.onSession_keeps
    | with_reducible rfl
    | with_reducible refine Keeps.wfTile (by assumption) ?_ _
    | with_reducible apply Keeps.foldl
    | with_reducible apply Keeps.foldl_fst
    | (with_reducible refine Keeps.ofPair ?_ (by assumption))
    | split
    | dsimp only
    | fail_if_no_progress with_reducible refine Keeps.upd ?_ rfl rfl
    | fail_if_no_progress with_reducible refine Keeps.updMem ?_ (fun c => ?_) rfl rfl
    | (intro)
    | decide

theorem State.answer_keeps {r₀ s : State} (hk : Keeps r₀ s) (session : ℕ) (seq : ℕ) (a : Ans) (src : ℕ) :
    Keeps r₀ (s.answer session seq a src) := by
  unfold State.answer
  try dsimp only
  repeat' first
    | with_reducible assumption
    | with_reducible apply Keeps.ite
    | with_reducible apply State.releaseHeld_keeps
    | with_reducible apply State.onSession_keeps
    | with_reducible apply State.errRecord_keeps
    | with_reducible apply State.send_keeps
    | with_reducible rfl
    | with_reducible refine Keeps.wfTile (by assumption) ?_ _
    | with_reducible apply Keeps.foldl
    | with_reducible apply Keeps.foldl_fst
    | (with_reducible refine Keeps.ofPair ?_ (by assumption))
    | split
    | dsimp only
    | fail_if_no_progress with_reducible refine Keeps.upd ?_ rfl rfl
    | fail_if_no_progress with_reducible refine Keeps.updMem ?_ (fun c => ?_) rfl rfl
    | (intro)
    | decide

theorem State.execute_keeps {r₀ s : State} (hk : Keeps r₀ s) (h : DctHdr) (permit : Bool) (check : ℕ) (src : ℕ) (run : State → State × Option Ans) (hrun : ∀ s, Keeps r₀ s → Keeps r₀ (run s).1) :
    Keeps r₀ (s.execute h permit check src run) := by
  unfold State.execute
  try dsimp only
  repeat' first
    | with_reducible assumption
    | with_reducible apply hrun
    | with_reducible apply Keeps.ite
    | with_reducible apply State.answer_keeps
    | with_reducible apply State.onSession_keeps
    | with_reducible rfl
    | with_reducible refine Keeps.wfTile (by assumption) ?_ _
    | with_reducible apply Keeps.foldl
    | with_reducible apply Keeps.foldl_fst
    | (with_reducible refine Keeps.ofPair ?_ (by assumption))
    | split
    | dsimp only
    | fail_if_no_progress with_reducible refine Keeps.upd ?_ rfl rfl
    | fail_if_no_progress with_reducible refine Keeps.updMem ?_ (fun c => ?_) rfl rfl
    | (intro)
    | decide

theorem State.sequenced_keeps {r₀ s : State} (hk : Keeps r₀ s) (h : DctHdr) (c : Instr) (x : Session) (permit : Bool) (check : ℕ) (src : ℕ) (run : State → State × Option Ans) (hrun : ∀ s, Keeps r₀ s → Keeps r₀ (run s).1) :
    Keeps r₀ (s.sequenced h c x permit check src run) := by
  unfold State.sequenced
  try dsimp only
  repeat' first
    | with_reducible assumption
    | with_reducible apply hrun
    | with_reducible apply Keeps.ite
    | with_reducible apply State.onSession_keeps
    | with_reducible apply State.errRecord_keeps
    | with_reducible apply State.send_keeps
    | with_reducible apply State.bumpDct_keeps
    | with_reducible apply State.execute_keeps
    | with_reducible rfl
    | with_reducible refine Keeps.wfTile (by assumption) ?_ _
    | with_reducible apply Keeps.foldl
    | with_reducible apply Keeps.foldl_fst
    | (with_reducible refine Keeps.ofPair ?_ (by assumption))
    | split
    | dsimp only
    | fail_if_no_progress with_reducible refine Keeps.upd ?_ rfl rfl
    | fail_if_no_progress with_reducible refine Keeps.updMem ?_ (fun c => ?_) rfl rfl
    | (intro)
    | decide

theorem State.dct_keeps {r₀ s : State} (hk : Keeps r₀ s) (h : DctHdr) (c : Instr) (g : Gate) (permit : Bool) (check : ℕ) (src : ℕ) (run : State → State × Option Ans) (hrun : ∀ s, Keeps r₀ s → Keeps r₀ (run s).1) :
    Keeps r₀ (s.dct h c g permit check src run) := by
  unfold State.dct
  try dsimp only
  repeat' first
    | with_reducible assumption
    | with_reducible apply hrun
    | with_reducible apply Keeps.ite
    | with_reducible apply State.bumpDct_keeps
    | with_reducible apply State.execute_keeps
    | with_reducible apply State.sequenced_keeps
    | with_reducible rfl
    | with_reducible refine Keeps.wfTile (by assumption) ?_ _
    | with_reducible apply Keeps.foldl
    | with_reducible apply Keeps.foldl_fst
    | (with_reducible refine Keeps.ofPair ?_ (by assumption))
    | split
    | dsimp only
    | fail_if_no_progress with_reducible refine Keeps.upd ?_ rfl rfl
    | fail_if_no_progress with_reducible refine Keeps.updMem ?_ (fun c => ?_) rfl rfl
    | (intro)
    | decide

theorem State.ask_keeps {r₀ s : State} (hk : Keeps r₀ s) (duty : ℕ) (arg : ℕ) (arg2 : ℕ) (ctx : List ℕ) :
    Keeps r₀ (s.ask duty arg arg2 ctx) := by
  unfold State.ask
  try dsimp only
  repeat' first
    | with_reducible assumption
    | with_reducible apply Keeps.ite
    | with_reducible apply State.toHosts_keeps
    | with_reducible rfl
    | with_reducible refine Keeps.wfTile (by assumption) ?_ _
    | with_reducible apply Keeps.foldl
    | with_reducible apply Keeps.foldl_fst
    | (with_reducible refine Keeps.ofPair ?_ (by assumption))
    | split
    | dsimp only
    | fail_if_no_progress with_reducible refine Keeps.upd ?_ rfl rfl
    | fail_if_no_progress with_reducible refine Keeps.updMem ?_ (fun c => ?_) rfl rfl
    | (intro)
    | decide

end Sys2Proof.Machine
end

