-- ==== Sys2Proof/Laws/Keeps/Keys.lean ====
section
/-!
SUPPORT. What the operations of Machine/Keys.lean keep.
-/
set_option linter.unusedTactic false
set_option linter.unreachableTactic false
namespace Sys2Proof.Machine

theorem haltTile_tkeeps (t : Tile) : TKeeps t (haltTile t) := by
  unfold haltTile
  try dsimp only
  repeat' first
    | with_reducible assumption
    | with_reducible apply Keeps.ite
    | with_reducible rfl
    | with_reducible refine Keeps.wfTile (by assumption) ?_ _
    | with_reducible apply Keeps.foldl
    | with_reducible apply Keeps.foldl_fst
    | (with_reducible refine Keeps.ofPair ?_ (by assumption))
    | split
    | dsimp only
    | fail_if_no_progress with_reducible refine Keeps.upd ?_ rfl rfl
    | fail_if_no_progress with_reducible refine Keeps.updMem ?_ (fun c => ?_) rfl rfl
    | with_reducible apply Memory.wf_nil
    | with_reducible apply Memory.wf_writeLE
    | with_reducible apply Memory.wf_writeN
    | with_reducible apply Memory.wf_write
    | with_reducible apply Memory.wf_clear
    | with_reducible apply Memory.wf_copy
    | with_reducible apply wf_putF32s
    | with_reducible apply wf_tkWrite
    | with_reducible apply wf_putCodes
    | with_reducible apply wf_foldl
    | with_reducible apply store_foldl
    | with_reducible apply store_foldl_fst
    | with_reducible apply wf_ite
    | with_reducible refine Canonical.mem (Keeps.canon ?_ (by assumption))
    | (with_reducible refine (by assumption : Canonical _ → Memory.wf _ = true) (by assumption))
    | (intro)
    | decide

theorem State.refreshKeys_keeps {r₀ s : State} (hk : Keeps r₀ s) :
    Keeps r₀ (s.refreshKeys) := by
  unfold State.refreshKeys
  try dsimp only
  repeat' first
    | with_reducible assumption
    | with_reducible apply Keeps.ite
    | with_reducible rfl
    | with_reducible refine Keeps.wfTile (by assumption) ?_ _
    | with_reducible apply Keeps.foldl
    | with_reducible apply Keeps.foldl_fst
    | (with_reducible refine Keeps.ofPair ?_ (by assumption))
    | split
    | dsimp only
    | fail_if_no_progress with_reducible refine Keeps.upd ?_ rfl rfl
    | fail_if_no_progress with_reducible refine Keeps.updMem ?_ (fun c => ?_) rfl rfl
    | (intro)
    | decide

theorem State.loadSlot_keeps {r₀ s : State} (hk : Keeps r₀ s) (k : ℕ) (x : KeySlot) :
    Keeps r₀ (s.loadSlot k x) := by
  unfold State.loadSlot
  try dsimp only
  repeat' first
    | with_reducible assumption
    | with_reducible apply Keeps.ite
    | with_reducible apply State.refreshKeys_keeps
    | with_reducible rfl
    | with_reducible refine Keeps.wfTile (by assumption) ?_ _
    | with_reducible apply Keeps.foldl
    | with_reducible apply Keeps.foldl_fst
    | (with_reducible refine Keeps.ofPair ?_ (by assumption))
    | split
    | dsimp only
    | fail_if_no_progress with_reducible refine Keeps.upd ?_ rfl rfl
    | fail_if_no_progress with_reducible refine Keeps.updMem ?_ (fun c => ?_) rfl rfl
    | (intro)
    | decide

theorem State.eraseSlots_keeps {r₀ s : State} (hk : Keeps r₀ s) (mask : ℕ) :
    Keeps r₀ (s.eraseSlots mask) := by
  unfold State.eraseSlots
  try dsimp only
  repeat' first
    | with_reducible assumption
    | with_reducible apply Keeps.ite
    | with_reducible apply State.refreshKeys_keeps
    | with_reducible rfl
    | with_reducible refine Keeps.wfTile (by assumption) ?_ _
    | with_reducible apply Keeps.foldl
    | with_reducible apply Keeps.foldl_fst
    | (with_reducible refine Keeps.ofPair ?_ (by assumption))
    | split
    | dsimp only
    | fail_if_no_progress with_reducible refine Keeps.upd ?_ rfl rfl
    | fail_if_no_progress with_reducible refine Keeps.updMem ?_ (fun c => ?_) rfl rfl
    | (intro)
    | decide

theorem State.applyKeys_keeps {r₀ s : State} (hk : Keeps r₀ s) :
    Keeps r₀ (s.applyKeys) := by
  unfold State.applyKeys
  try dsimp only
  repeat' first
    | with_reducible assumption
    | with_reducible apply Keeps.ite
    | with_reducible apply State.loadSlot_keeps
    | with_reducible apply State.eraseSlots_keeps
    | with_reducible apply State.answer_keeps
    | with_reducible rfl
    | with_reducible refine Keeps.wfTile (by assumption) ?_ _
    | with_reducible apply Keeps.foldl
    | with_reducible apply Keeps.foldl_fst
    | (with_reducible refine Keeps.ofPair ?_ (by assumption))
    | split
    | dsimp only
    | fail_if_no_progress with_reducible refine Keeps.upd ?_ rfl rfl
    | fail_if_no_progress with_reducible refine Keeps.updMem ?_ (fun c => ?_) rfl rfl
    | (intro)
    | decide

theorem State.drawJobKeys_keeps {r₀ s : State} (hk : Keeps r₀ s) :
    Keeps r₀ (s.drawJobKeys) := by
  unfold State.drawJobKeys
  try dsimp only
  repeat' first
    | with_reducible assumption
    | with_reducible apply Keeps.ite
    | with_reducible apply State.draw_keeps
    | with_reducible rfl
    | with_reducible refine Keeps.wfTile (by assumption) ?_ _
    | with_reducible apply Keeps.foldl
    | with_reducible apply Keeps.foldl_fst
    | (with_reducible refine Keeps.ofPair ?_ (by assumption))
    | split
    | dsimp only
    | fail_if_no_progress with_reducible refine Keeps.upd ?_ rfl rfl
    | fail_if_no_progress with_reducible refine Keeps.updMem ?_ (fun c => ?_) rfl rfl
    | with_reducible apply Memory.wf_nil
    | with_reducible apply Memory.wf_writeLE
    | with_reducible apply Memory.wf_writeN
    | with_reducible apply Memory.wf_write
    | with_reducible apply Memory.wf_clear
    | with_reducible apply Memory.wf_copy
    | with_reducible apply wf_putF32s
    | with_reducible apply wf_tkWrite
    | with_reducible apply wf_putCodes
    | with_reducible apply wf_foldl
    | with_reducible apply store_foldl
    | with_reducible apply store_foldl_fst
    | with_reducible apply wf_ite
    | with_reducible refine Canonical.mem (Keeps.canon ?_ (by assumption))
    | (with_reducible refine (by assumption : Canonical _ → Memory.wf _ = true) (by assumption))
    | (intro)
    | decide

theorem State.clearJobKeys_keeps {r₀ s : State} (hk : Keeps r₀ s) :
    Keeps r₀ (s.clearJobKeys) := by
  unfold State.clearJobKeys
  try dsimp only
  repeat' first
    | with_reducible assumption
    | with_reducible apply Keeps.ite
    | with_reducible rfl
    | with_reducible refine Keeps.wfTile (by assumption) ?_ _
    | with_reducible apply Keeps.foldl
    | with_reducible apply Keeps.foldl_fst
    | (with_reducible refine Keeps.ofPair ?_ (by assumption))
    | split
    | dsimp only
    | fail_if_no_progress with_reducible refine Keeps.upd ?_ rfl rfl
    | fail_if_no_progress with_reducible refine Keeps.updMem ?_ (fun c => ?_) rfl rfl
    | with_reducible apply Memory.wf_nil
    | with_reducible apply Memory.wf_writeLE
    | with_reducible apply Memory.wf_writeN
    | with_reducible apply Memory.wf_write
    | with_reducible apply Memory.wf_clear
    | with_reducible apply Memory.wf_copy
    | with_reducible apply wf_putF32s
    | with_reducible apply wf_tkWrite
    | with_reducible apply wf_putCodes
    | with_reducible apply wf_foldl
    | with_reducible apply store_foldl
    | with_reducible apply store_foldl_fst
    | with_reducible apply wf_ite
    | with_reducible refine Canonical.mem (Keeps.canon ?_ (by assumption))
    | (with_reducible refine (by assumption : Canonical _ → Memory.wf _ = true) (by assumption))
    | (intro)
    | decide

theorem State.haltStages_keeps {r₀ s : State} (hk : Keeps r₀ s) :
    Keeps r₀ (s.haltStages) := by
  unfold State.haltStages
  try dsimp only
  repeat' first
    | with_reducible assumption
    | with_reducible apply Keeps.ite
    | with_reducible apply State.allTiles_keeps
    | with_reducible apply haltTile_tkeeps
    | with_reducible rfl
    | with_reducible refine Keeps.wfTile (by assumption) ?_ _
    | with_reducible apply Keeps.foldl
    | with_reducible apply Keeps.foldl_fst
    | (with_reducible refine Keeps.ofPair ?_ (by assumption))
    | split
    | dsimp only
    | fail_if_no_progress with_reducible refine Keeps.upd ?_ rfl rfl
    | fail_if_no_progress with_reducible refine Keeps.updMem ?_ (fun c => ?_) rfl rfl
    | (intro)
    | decide

theorem State.abandonLoad_keeps {r₀ s : State} (hk : Keeps r₀ s) :
    Keeps r₀ (s.abandonLoad) := by
  unfold State.abandonLoad
  try dsimp only
  repeat' first
    | with_reducible assumption
    | with_reducible apply Keeps.ite
    | with_reducible apply State.answer_keeps
    | with_reducible rfl
    | with_reducible refine Keeps.wfTile (by assumption) ?_ _
    | with_reducible apply Keeps.foldl
    | with_reducible apply Keeps.foldl_fst
    | (with_reducible refine Keeps.ofPair ?_ (by assumption))
    | split
    | dsimp only
    | fail_if_no_progress with_reducible refine Keeps.upd ?_ rfl rfl
    | fail_if_no_progress with_reducible refine Keeps.updMem ?_ (fun c => ?_) rfl rfl
    | (intro)
    | decide

theorem State.quarantine_keeps {r₀ s : State} (hk : Keeps r₀ s) :
    Keeps r₀ (s.quarantine) := by
  unfold State.quarantine
  try dsimp only
  repeat' first
    | with_reducible assumption
    | with_reducible apply Keeps.ite
    | with_reducible apply State.eraseSlots_keeps
    | with_reducible apply State.clearJobKeys_keeps
    | with_reducible apply State.abandonLoad_keeps
    | with_reducible apply State.haltStages_keeps
    | with_reducible apply State.toState_keeps
    | with_reducible rfl
    | with_reducible refine Keeps.wfTile (by assumption) ?_ _
    | with_reducible apply Keeps.foldl
    | with_reducible apply Keeps.foldl_fst
    | (with_reducible refine Keeps.ofPair ?_ (by assumption))
    | split
    | dsimp only
    | fail_if_no_progress with_reducible refine Keeps.upd ?_ rfl rfl
    | fail_if_no_progress with_reducible refine Keeps.updMem ?_ (fun c => ?_) rfl rfl
    | (intro)
    | decide

end Sys2Proof.Machine
end

