-- ==== Sys2Proof/Laws/Keeps/Rails.lean ====
section
/-!
SUPPORT. What the operations of Machine/Rails.lean keep.
-/
set_option linter.unusedTactic false
set_option linter.unreachableTactic false
namespace Sys2Proof.Machine

theorem State.setPower_keeps {r₀ s : State} (hk : Keeps r₀ s) (x : ℕ) :
    Keeps r₀ (s.setPower x) := by
  unfold State.setPower
  try dsimp only
  repeat' first
    | with_reducible assumption
    | with_reducible apply Keeps.ite
    | with_reducible rfl
    | with_reducible refine Keeps.wfTile (by assumption) ?_ _
    | with_reducible apply Keeps.foldl
    | with_reducible apply Keeps.foldl_fst
    | (with_reducible refine Keeps.ofPair ?_ (by assumption))
    | split
    | dsimp only
    | fail_if_no_progress with_reducible refine Keeps.upd ?_ rfl rfl
    | fail_if_no_progress with_reducible refine Keeps.updMem ?_ (fun c => ?_) rfl rfl
    | (intro)
    | decide

theorem State.setRailBit_keeps {r₀ s : State} (hk : Keeps r₀ s) (f : Field) (p : ℕ) (on : Bool) :
    Keeps r₀ (s.setRailBit f p on) := by
  unfold State.setRailBit
  try dsimp only
  repeat' first
    | with_reducible assumption
    | with_reducible apply Keeps.ite
    | with_reducible rfl
    | with_reducible refine Keeps.wfTile (by assumption) ?_ _
    | with_reducible apply Keeps.foldl
    | with_reducible apply Keeps.foldl_fst
    | (with_reducible refine Keeps.ofPair ?_ (by assumption))
    | split
    | dsimp only
    | fail_if_no_progress with_reducible refine Keeps.upd ?_ rfl rfl
    | fail_if_no_progress with_reducible refine Keeps.updMem ?_ (fun c => ?_) rfl rfl
    | (intro)
    | decide

theorem State.setRail_keeps {r₀ s : State} (hk : Keeps r₀ s) (p : ℕ) (want : ℕ) :
    Keeps r₀ (s.setRail p want) := by
  unfold State.setRail
  try dsimp only
  repeat' first
    | with_reducible assumption
    | with_reducible apply Keeps.ite
    | with_reducible apply State.setPart_keeps
    | with_reducible apply State.send_keeps
    | with_reducible apply State.setRailBit_keeps
    | with_reducible rfl
    | with_reducible refine Keeps.wfTile (by assumption) ?_ _
    | with_reducible apply Keeps.foldl
    | with_reducible apply Keeps.foldl_fst
    | (with_reducible refine Keeps.ofPair ?_ (by assumption))
    | split
    | dsimp only
    | fail_if_no_progress with_reducible refine Keeps.upd ?_ rfl rfl
    | fail_if_no_progress with_reducible refine Keeps.updMem ?_ (fun c => ?_) rfl rfl
    | (intro)
    | decide

theorem State.setRails_keeps {r₀ s : State} (hk : Keeps r₀ s) (f : ℕ → ℕ) :
    Keeps r₀ (s.setRails f) := by
  unfold State.setRails
  try dsimp only
  repeat' first
    | with_reducible assumption
    | with_reducible apply Keeps.ite
    | with_reducible apply State.setRail_keeps
    | with_reducible rfl
    | with_reducible refine Keeps.wfTile (by assumption) ?_ _
    | with_reducible apply Keeps.foldl
    | with_reducible apply Keeps.foldl_fst
    | (with_reducible refine Keeps.ofPair ?_ (by assumption))
    | split
    | dsimp only
    | fail_if_no_progress with_reducible refine Keeps.upd ?_ rfl rfl
    | fail_if_no_progress with_reducible refine Keeps.updMem ?_ (fun c => ?_) rfl rfl
    | (intro)
    | decide

theorem State.ensureActive_keeps {r₀ s : State} (hk : Keeps r₀ s) :
    Keeps r₀ (s.ensureActive) := by
  unfold State.ensureActive
  try dsimp only
  repeat' first
    | with_reducible assumption
    | with_reducible apply Keeps.ite
    | with_reducible apply State.setRails_keeps
    | with_reducible apply State.setPower_keeps
    | with_reducible rfl
    | with_reducible refine Keeps.wfTile (by assumption) ?_ _
    | with_reducible apply Keeps.foldl
    | with_reducible apply Keeps.foldl_fst
    | (with_reducible refine Keeps.ofPair ?_ (by assumption))
    | split
    | dsimp only
    | fail_if_no_progress with_reducible refine Keeps.upd ?_ rfl rfl
    | fail_if_no_progress with_reducible refine Keeps.updMem ?_ (fun c => ?_) rfl rfl
    | (intro)
    | decide

theorem State.abandonHandshake_keeps {r₀ s : State} (hk : Keeps r₀ s) :
    Keeps r₀ (s.abandonHandshake) := by
  unfold State.abandonHandshake
  try dsimp only
  repeat' first
    | with_reducible assumption
    | with_reducible apply Keeps.ite
    | with_reducible apply State.event_keeps
    | with_reducible rfl
    | with_reducible refine Keeps.wfTile (by assumption) ?_ _
    | with_reducible apply Keeps.foldl
    | with_reducible apply Keeps.foldl_fst
    | (with_reducible refine Keeps.ofPair ?_ (by assumption))
    | split
    | dsimp only
    | fail_if_no_progress with_reducible refine Keeps.upd ?_ rfl rfl
    | fail_if_no_progress with_reducible refine Keeps.updMem ?_ (fun c => ?_) rfl rfl
    | (intro)
    | decide

theorem State.refuseHandshake_keeps {r₀ s : State} (hk : Keeps r₀ s) (block : ℕ) (reason : ℕ) (n : ℕ) :
    Keeps r₀ (s.refuseHandshake block reason n) := by
  unfold State.refuseHandshake
  try dsimp only
  repeat' first
    | with_reducible assumption
    | with_reducible apply Keeps.ite
    | with_reducible apply State.event_keeps
    | with_reducible rfl
    | with_reducible refine Keeps.wfTile (by assumption) ?_ _
    | with_reducible apply Keeps.foldl
    | with_reducible apply Keeps.foldl_fst
    | (with_reducible refine Keeps.ofPair ?_ (by assumption))
    | split
    | dsimp only
    | fail_if_no_progress with_reducible refine Keeps.upd ?_ rfl rfl
    | fail_if_no_progress with_reducible refine Keeps.updMem ?_ (fun c => ?_) rfl rfl
    | (intro)
    | decide

theorem State.railsOn_keeps {r₀ s : State} (hk : Keeps r₀ s) :
    Keeps r₀ (s.railsOn) := by
  unfold State.railsOn
  try dsimp only
  repeat' first
    | with_reducible assumption
    | with_reducible apply Keeps.ite
    | with_reducible apply State.setRails_keeps
    | with_reducible rfl
    | with_reducible refine Keeps.wfTile (by assumption) ?_ _
    | with_reducible apply Keeps.foldl
    | with_reducible apply Keeps.foldl_fst
    | (with_reducible refine Keeps.ofPair ?_ (by assumption))
    | split
    | dsimp only
    | fail_if_no_progress with_reducible refine Keeps.upd ?_ rfl rfl
    | fail_if_no_progress with_reducible refine Keeps.updMem ?_ (fun c => ?_) rfl rfl
    | (intro)
    | decide

theorem State.railsOff_keeps {r₀ s : State} (hk : Keeps r₀ s) (mask : ℕ) :
    Keeps r₀ (s.railsOff mask) := by
  unfold State.railsOff
  try dsimp only
  repeat' first
    | with_reducible assumption
    | with_reducible apply Keeps.ite
    | with_reducible rfl
    | with_reducible refine Keeps.wfTile (by assumption) ?_ _
    | with_reducible apply Keeps.foldl
    | with_reducible apply Keeps.foldl_fst
    | (with_reducible refine Keeps.ofPair ?_ (by assumption))
    | split
    | dsimp only
    | fail_if_no_progress with_reducible refine Keeps.upd ?_ rfl rfl
    | fail_if_no_progress with_reducible refine Keeps.updMem ?_ (fun c => ?_) rfl rfl
    | (intro)
    | decide

theorem State.leaveDormant_keeps {r₀ s : State} (hk : Keeps r₀ s) :
    Keeps r₀ (s.leaveDormant) := by
  unfold State.leaveDormant
  try dsimp only
  repeat' first
    | with_reducible assumption
    | with_reducible apply Keeps.ite
    | with_reducible apply State.railsOn_keeps
    | with_reducible apply State.setPower_keeps
    | with_reducible apply State.toState_keeps
    | with_reducible apply State.drawJobKeys_keeps
    | with_reducible rfl
    | with_reducible refine Keeps.wfTile (by assumption) ?_ _
    | with_reducible apply Keeps.foldl
    | with_reducible apply Keeps.foldl_fst
    | (with_reducible refine Keeps.ofPair ?_ (by assumption))
    | split
    | dsimp only
    | fail_if_no_progress with_reducible refine Keeps.upd ?_ rfl rfl
    | fail_if_no_progress with_reducible refine Keeps.updMem ?_ (fun c => ?_) rfl rfl
    | (intro)
    | decide

end Sys2Proof.Machine
end

