-- ==== Sys2Proof/Laws/Keeps/Ports.lean ====
section
/-!
SUPPORT. What the operations of Machine/Ports.lean keep.
-/
set_option linter.unusedTactic false
set_option linter.unreachableTactic false
namespace Sys2Proof.Machine

theorem State.downWith_keeps {r₀ s : State} (hk : Keeps r₀ s) (n : ℕ) (st : ℕ) (c : ℕ) :
    Keeps r₀ (s.downWith n st c) := by
  unfold State.downWith
  try dsimp only
  repeat' first
    | with_reducible assumption
    | with_reducible apply Keeps.ite
    | with_reducible apply State.onPort_keeps
    | with_reducible rfl
    | with_reducible refine Keeps.wfTile (by assumption) ?_ _
    | with_reducible apply Keeps.foldl
    | with_reducible apply Keeps.foldl_fst
    | (with_reducible refine Keeps.ofPair ?_ (by assumption))
    | split
    | dsimp only
    | fail_if_no_progress with_reducible refine Keeps.upd ?_ rfl rfl
    | fail_if_no_progress with_reducible refine Keeps.updMem ?_ (fun c => ?_) rfl rfl
    | (intro)
    | decide

theorem State.startPort_keeps {r₀ s : State} (hk : Keeps r₀ s) (n : ℕ) :
    Keeps r₀ (s.startPort n) := by
  unfold State.startPort
  try dsimp only
  repeat' first
    | with_reducible assumption
    | with_reducible apply Keeps.ite
    | with_reducible apply State.onPort_keeps
    | with_reducible rfl
    | with_reducible refine Keeps.wfTile (by assumption) ?_ _
    | with_reducible apply Keeps.foldl
    | with_reducible apply Keeps.foldl_fst
    | (with_reducible refine Keeps.ofPair ?_ (by assumption))
    | split
    | dsimp only
    | fail_if_no_progress with_reducible refine Keeps.upd ?_ rfl rfl
    | fail_if_no_progress with_reducible refine Keeps.updMem ?_ (fun c => ?_) rfl rfl
    | (intro)
    | decide

theorem State.toDetect_keeps {r₀ s : State} (hk : Keeps r₀ s) (n : ℕ) :
    Keeps r₀ (s.toDetect n) := by
  unfold State.toDetect
  try dsimp only
  repeat' first
    | with_reducible assumption
    | with_reducible apply Keeps.ite
    | with_reducible apply State.onPort_keeps
    | with_reducible rfl
    | with_reducible refine Keeps.wfTile (by assumption) ?_ _
    | with_reducible apply Keeps.foldl
    | with_reducible apply Keeps.foldl_fst
    | (with_reducible refine Keeps.ofPair ?_ (by assumption))
    | split
    | dsimp only
    | fail_if_no_progress with_reducible refine Keeps.upd ?_ rfl rfl
    | fail_if_no_progress with_reducible refine Keeps.updMem ?_ (fun c => ?_) rfl rfl
    | (intro)
    | decide

theorem State.sendOn_keeps {r₀ s : State} (hk : Keeps r₀ s) (n : ℕ) (pk : Packet) :
    Keeps r₀ (s.sendOn n pk) := by
  unfold State.sendOn
  try dsimp only
  repeat' first
    | with_reducible assumption
    | with_reducible apply Keeps.ite
    | with_reducible apply State.send_keeps
    | with_reducible apply State.onPort_keeps
    | with_reducible rfl
    | with_reducible refine Keeps.wfTile (by assumption) ?_ _
    | with_reducible apply Keeps.foldl
    | with_reducible apply Keeps.foldl_fst
    | (with_reducible refine Keeps.ofPair ?_ (by assumption))
    | split
    | dsimp only
    | fail_if_no_progress with_reducible refine Keeps.upd ?_ rfl rfl
    | fail_if_no_progress with_reducible refine Keeps.updMem ?_ (fun c => ?_) rfl rfl
    | (intro)
    | decide

theorem State.resendVia_keeps {r₀ s : State} (hk : Keeps r₀ s) (n : ℕ) :
    Keeps r₀ (s.resendVia n) := by
  unfold State.resendVia
  try dsimp only
  repeat' first
    | with_reducible assumption
    | with_reducible apply Keeps.ite
    | with_reducible apply State.sendOn_keeps
    | with_reducible rfl
    | with_reducible refine Keeps.wfTile (by assumption) ?_ _
    | with_reducible apply Keeps.foldl
    | with_reducible apply Keeps.foldl_fst
    | (with_reducible refine Keeps.ofPair ?_ (by assumption))
    | split
    | dsimp only
    | fail_if_no_progress with_reducible refine Keeps.upd ?_ rfl rfl
    | fail_if_no_progress with_reducible refine Keeps.updMem ?_ (fun c => ?_) rfl rfl
    | (intro)
    | decide

theorem State.abortVia_keeps {r₀ s : State} (hk : Keeps r₀ s) (n : ℕ) :
    Keeps r₀ (s.abortVia n) := by
  unfold State.abortVia
  try dsimp only
  repeat' first
    | with_reducible assumption
    | with_reducible apply Keeps.ite
    | with_reducible apply State.send_keeps
    | with_reducible rfl
    | with_reducible refine Keeps.wfTile (by assumption) ?_ _
    | with_reducible apply Keeps.foldl
    | with_reducible apply Keeps.foldl_fst
    | (with_reducible refine Keeps.ofPair ?_ (by assumption))
    | split
    | dsimp only
    | fail_if_no_progress with_reducible refine Keeps.upd ?_ rfl rfl
    | fail_if_no_progress with_reducible refine Keeps.updMem ?_ (fun c => ?_) rfl rfl
    | (intro)
    | decide

theorem State.chooseParent_keeps {r₀ s : State} (hk : Keeps r₀ s) :
    Keeps r₀ (s.chooseParent) := by
  unfold State.chooseParent
  try dsimp only
  repeat' first
    | with_reducible assumption
    | with_reducible apply Keeps.ite
    | with_reducible rfl
    | with_reducible refine Keeps.wfTile (by assumption) ?_ _
    | with_reducible apply Keeps.foldl
    | with_reducible apply Keeps.foldl_fst
    | (with_reducible refine Keeps.ofPair ?_ (by assumption))
    | split
    | dsimp only
    | fail_if_no_progress with_reducible refine Keeps.upd ?_ rfl rfl
    | fail_if_no_progress with_reducible refine Keeps.updMem ?_ (fun c => ?_) rfl rfl
    | (intro)
    | decide

theorem State.accuse_keeps {r₀ s : State} (hk : Keeps r₀ s) (dev : ℕ) (firstMiss : ℕ) :
    Keeps r₀ (s.accuse dev firstMiss) := by
  unfold State.accuse
  try dsimp only
  repeat' first
    | with_reducible assumption
    | with_reducible apply Keeps.ite
    | with_reducible apply State.send_keeps
    | with_reducible rfl
    | with_reducible refine Keeps.wfTile (by assumption) ?_ _
    | with_reducible apply Keeps.foldl
    | with_reducible apply Keeps.foldl_fst
    | (with_reducible refine Keeps.ofPair ?_ (by assumption))
    | split
    | dsimp only
    | fail_if_no_progress with_reducible refine Keeps.upd ?_ rfl rfl
    | fail_if_no_progress with_reducible refine Keeps.updMem ?_ (fun c => ?_) rfl rfl
    | (intro)
    | decide

theorem State.linksLost_keeps {r₀ s : State} (hk : Keeps r₀ s) (dev : ℕ) :
    Keeps r₀ (s.linksLost dev) := by
  unfold State.linksLost
  try dsimp only
  repeat' first
    | with_reducible assumption
    | with_reducible apply Keeps.ite
    | with_reducible apply State.accuse_keeps
    | with_reducible rfl
    | with_reducible refine Keeps.wfTile (by assumption) ?_ _
    | with_reducible apply Keeps.foldl
    | with_reducible apply Keeps.foldl_fst
    | (with_reducible refine Keeps.ofPair ?_ (by assumption))
    | split
    | dsimp only
    | fail_if_no_progress with_reducible refine Keeps.upd ?_ rfl rfl
    | fail_if_no_progress with_reducible refine Keeps.updMem ?_ (fun c => ?_) rfl rfl
    | (intro)
    | decide

theorem State.linkDown_keeps {r₀ s : State} (hk : Keeps r₀ s) (n : ℕ) :
    Keeps r₀ (s.linkDown n) := by
  unfold State.linkDown
  try dsimp only
  repeat' first
    | with_reducible assumption
    | with_reducible apply Keeps.ite
    | with_reducible apply State.onPort_keeps
    | with_reducible apply State.chooseParent_keeps
    | with_reducible apply State.resendVia_keeps
    | with_reducible apply State.abortVia_keeps
    | with_reducible apply State.linksLost_keeps
    | with_reducible apply State.quarantine_keeps
    | with_reducible rfl
    | with_reducible refine Keeps.wfTile (by assumption) ?_ _
    | with_reducible apply Keeps.foldl
    | with_reducible apply Keeps.foldl_fst
    | (with_reducible refine Keeps.ofPair ?_ (by assumption))
    | split
    | dsimp only
    | fail_if_no_progress with_reducible refine Keeps.upd ?_ rfl rfl
    | fail_if_no_progress with_reducible refine Keeps.updMem ?_ (fun c => ?_) rfl rfl
    | (intro)
    | decide

theorem State.squelchPort_keeps {r₀ s : State} (hk : Keeps r₀ s) (n : ℕ) (st : ℕ) (c : ℕ) (asked : Bool) :
    Keeps r₀ (s.squelchPort n st c asked) := by
  unfold State.squelchPort
  try dsimp only
  repeat' first
    | with_reducible assumption
    | with_reducible apply Keeps.ite
    | with_reducible apply State.sendAll_keeps
    | with_reducible apply State.onPort_keeps
    | with_reducible apply State.downWith_keeps
    | with_reducible apply State.linkDown_keeps
    | with_reducible rfl
    | with_reducible refine Keeps.wfTile (by assumption) ?_ _
    | with_reducible apply Keeps.foldl
    | with_reducible apply Keeps.foldl_fst
    | (with_reducible refine Keeps.ofPair ?_ (by assumption))
    | split
    | dsimp only
    | fail_if_no_progress with_reducible refine Keeps.upd ?_ rfl rfl
    | fail_if_no_progress with_reducible refine Keeps.updMem ?_ (fun c => ?_) rfl rfl
    | (intro)
    | decide

theorem State.damp_keeps {r₀ s : State} (hk : Keeps r₀ s) (n : ℕ) :
    Keeps r₀ (s.damp n) := by
  unfold State.damp
  try dsimp only
  repeat' first
    | with_reducible assumption
    | with_reducible apply Keeps.ite
    | with_reducible apply State.onPort_keeps
    | with_reducible apply State.squelchPort_keeps
    | with_reducible rfl
    | with_reducible refine Keeps.wfTile (by assumption) ?_ _
    | with_reducible apply Keeps.foldl
    | with_reducible apply Keeps.foldl_fst
    | (with_reducible refine Keeps.ofPair ?_ (by assumption))
    | split
    | dsimp only
    | fail_if_no_progress with_reducible refine Keeps.upd ?_ rfl rfl
    | fail_if_no_progress with_reducible refine Keeps.updMem ?_ (fun c => ?_) rfl rfl
    | (intro)
    | decide

theorem State.toRetrain_keeps {r₀ s : State} (hk : Keeps r₀ s) (n : ℕ) (c : ℕ) (asked : Bool) :
    Keeps r₀ (s.toRetrain n c asked) := by
  unfold State.toRetrain
  try dsimp only
  repeat' first
    | with_reducible assumption
    | with_reducible apply Keeps.ite
    | with_reducible apply State.setPort_keeps
    | with_reducible apply State.damp_keeps
    | with_reducible rfl
    | with_reducible refine Keeps.wfTile (by assumption) ?_ _
    | with_reducible apply Keeps.foldl
    | with_reducible apply Keeps.foldl_fst
    | (with_reducible refine Keeps.ofPair ?_ (by assumption))
    | split
    | dsimp only
    | fail_if_no_progress with_reducible refine Keeps.upd ?_ rfl rfl
    | fail_if_no_progress with_reducible refine Keeps.updMem ?_ (fun c => ?_) rfl rfl
    | (intro)
    | decide

theorem State.toActive_keeps {r₀ s : State} (hk : Keeps r₀ s) (n : ℕ) :
    Keeps r₀ (s.toActive n) := by
  unfold State.toActive
  try dsimp only
  repeat' first
    | with_reducible assumption
    | with_reducible apply Keeps.ite
    | with_reducible apply State.draw_keeps
    | with_reducible apply State.setPort_keeps
    | with_reducible apply State.chooseParent_keeps
    | with_reducible apply State.sendAll_keeps
    | with_reducible rfl
    | with_reducible refine Keeps.wfTile (by assumption) ?_ _
    | with_reducible apply Keeps.foldl
    | with_reducible apply Keeps.foldl_fst
    | (with_reducible refine Keeps.ofPair ?_ (by assumption))
    | split
    | dsimp only
    | fail_if_no_progress with_reducible refine Keeps.upd ?_ rfl rfl
    | fail_if_no_progress with_reducible refine Keeps.updMem ?_ (fun c => ?_) rfl rfl
    | (intro)
    | decide

theorem State.loseLane_keeps {r₀ s : State} (hk : Keeps r₀ s) (n : ℕ) (k : ℕ) :
    Keeps r₀ (s.loseLane n k) := by
  unfold State.loseLane
  try dsimp only
  repeat' first
    | with_reducible assumption
    | with_reducible apply Keeps.ite
    | with_reducible apply State.setPort_keeps
    | with_reducible apply State.onPort_keeps
    | with_reducible apply State.toRetrain_keeps
    | with_reducible rfl
    | with_reducible refine Keeps.wfTile (by assumption) ?_ _
    | with_reducible apply Keeps.foldl
    | with_reducible apply Keeps.foldl_fst
    | (with_reducible refine Keeps.ofPair ?_ (by assumption))
    | split
    | dsimp only
    | fail_if_no_progress with_reducible refine Keeps.upd ?_ rfl rfl
    | fail_if_no_progress with_reducible refine Keeps.updMem ?_ (fun c => ?_) rfl rfl
    | (intro)
    | decide

theorem State.swapPort_keeps {r₀ s : State} (hk : Keeps r₀ s) (n : ℕ) :
    Keeps r₀ (s.swapPort n) := by
  unfold State.swapPort
  try dsimp only
  repeat' first
    | with_reducible assumption
    | with_reducible apply Keeps.ite
    | with_reducible apply State.onPort_keeps
    | with_reducible rfl
    | with_reducible refine Keeps.wfTile (by assumption) ?_ _
    | with_reducible apply Keeps.foldl
    | with_reducible apply Keeps.foldl_fst
    | (with_reducible refine Keeps.ofPair ?_ (by assumption))
    | split
    | dsimp only
    | fail_if_no_progress with_reducible refine Keeps.upd ?_ rfl rfl
    | fail_if_no_progress with_reducible refine Keeps.updMem ?_ (fun c => ?_) rfl rfl
    | (intro)
    | decide

theorem State.swapLanes_keeps {r₀ s : State} (hk : Keeps r₀ s) :
    Keeps r₀ (s.swapLanes) := by
  unfold State.swapLanes
  try dsimp only
  repeat' first
    | with_reducible assumption
    | with_reducible apply Keeps.ite
    | with_reducible apply State.swapPort_keeps
    | with_reducible rfl
    | with_reducible refine Keeps.wfTile (by assumption) ?_ _
    | with_reducible apply Keeps.foldl
    | with_reducible apply Keeps.foldl_fst
    | (with_reducible refine Keeps.ofPair ?_ (by assumption))
    | split
    | dsimp only
    | fail_if_no_progress with_reducible refine Keeps.upd ?_ rfl rfl
    | fail_if_no_progress with_reducible refine Keeps.updMem ?_ (fun c => ?_) rfl rfl
    | (intro)
    | decide

theorem State.reholdPorts_keeps {r₀ s : State} (hk : Keeps r₀ s) :
    Keeps r₀ (s.reholdPorts) := by
  unfold State.reholdPorts
  try dsimp only
  repeat' first
    | with_reducible assumption
    | with_reducible apply Keeps.ite
    | with_reducible apply State.startPort_keeps
    | with_reducible apply State.downWith_keeps
    | with_reducible apply State.squelchPort_keeps
    | with_reducible rfl
    | with_reducible refine Keeps.wfTile (by assumption) ?_ _
    | with_reducible apply Keeps.foldl
    | with_reducible apply Keeps.foldl_fst
    | (with_reducible refine Keeps.ofPair ?_ (by assumption))
    | split
    | dsimp only
    | fail_if_no_progress with_reducible refine Keeps.upd ?_ rfl rfl
    | fail_if_no_progress with_reducible refine Keeps.updMem ?_ (fun c => ?_) rfl rfl
    | (intro)
    | decide

end Sys2Proof.Machine
end

