-- ==== Sys2Proof/Laws/Keeps/Flags.lean ====
section
/-!
SUPPORT. What the operations of Machine/Flags.lean keep.
-/
set_option linter.unusedTactic false
set_option linter.unreachableTactic false
namespace Sys2Proof.Machine

theorem State.packedBad_keeps {r₀ s : State} (hk : Keeps r₀ s) (tl : TileRef) :
    Keeps r₀ (s.packedBad tl) := by
  unfold State.packedBad
  try dsimp only
  repeat' first
    | with_reducible assumption
    | with_reducible apply Keeps.ite
    | with_reducible apply State.failBit_keeps
    | with_reducible apply State.setTile_keeps
    | with_reducible rfl
    | with_reducible refine Keeps.wfTile (by assumption) ?_ _
    | with_reducible apply Keeps.foldl
    | with_reducible apply Keeps.foldl_fst
    | (with_reducible refine Keeps.ofPair ?_ (by assumption))
    | split
    | dsimp only
    | fail_if_no_progress with_reducible refine Keeps.upd ?_ rfl rfl
    | fail_if_no_progress with_reducible refine Keeps.updMem ?_ (fun c => ?_) rfl rfl
    | (intro)
    | decide

theorem setCaskLine_tkeeps (t : Tile) (c : ℕ) (i : ℕ) (l : Line) : TKeeps t (setCaskLine t c i l) := by
  unfold setCaskLine
  try dsimp only
  repeat' first
    | with_reducible assumption
    | with_reducible apply Keeps.ite
    | with_reducible rfl
    | with_reducible refine Keeps.wfTile (by assumption) ?_ _
    | with_reducible apply Keeps.foldl
    | with_reducible apply Keeps.foldl_fst
    | (with_reducible refine Keeps.ofPair ?_ (by assumption))
    | split
    | dsimp only
    | fail_if_no_progress with_reducible refine Keeps.upd ?_ rfl rfl
    | fail_if_no_progress with_reducible refine Keeps.updMem ?_ (fun c => ?_) rfl rfl
    | with_reducible apply Memory.wf_nil
    | with_reducible apply Memory.wf_writeLE
    | with_reducible apply Memory.wf_writeN
    | with_reducible apply Memory.wf_write
    | with_reducible apply Memory.wf_clear
    | with_reducible apply Memory.wf_copy
    | with_reducible apply wf_putF32s
    | with_reducible apply wf_tkWrite
    | with_reducible apply wf_putCodes
    | with_reducible apply wf_foldl
    | with_reducible apply store_foldl
    | with_reducible apply store_foldl_fst
    | with_reducible apply wf_ite
    | with_reducible refine Canonical.mem (Keeps.canon ?_ (by assumption))
    | (with_reducible refine (by assumption : Canonical _ → Memory.wf _ = true) (by assumption))
    | (intro)
    | decide

theorem clearTile_tkeeps (t : Tile) : TKeeps t (clearTile t) := by
  unfold clearTile
  try dsimp only
  repeat' first
    | with_reducible assumption
    | with_reducible apply Keeps.ite
    | with_reducible rfl
    | with_reducible refine Keeps.wfTile (by assumption) ?_ _
    | with_reducible apply Keeps.foldl
    | with_reducible apply Keeps.foldl_fst
    | (with_reducible refine Keeps.ofPair ?_ (by assumption))
    | split
    | dsimp only
    | fail_if_no_progress with_reducible refine Keeps.upd ?_ rfl rfl
    | fail_if_no_progress with_reducible refine Keeps.updMem ?_ (fun c => ?_) rfl rfl
    | with_reducible apply Memory.wf_nil
    | with_reducible apply Memory.wf_writeLE
    | with_reducible apply Memory.wf_writeN
    | with_reducible apply Memory.wf_write
    | with_reducible apply Memory.wf_clear
    | with_reducible apply Memory.wf_copy
    | with_reducible apply wf_putF32s
    | with_reducible apply wf_tkWrite
    | with_reducible apply wf_putCodes
    | with_reducible apply wf_foldl
    | with_reducible apply store_foldl
    | with_reducible apply store_foldl_fst
    | with_reducible apply wf_ite
    | with_reducible refine Canonical.mem (Keeps.canon ?_ (by assumption))
    | (with_reducible refine (by assumption : Canonical _ → Memory.wf _ = true) (by assumption))
    | (intro)
    | decide

end Sys2Proof.Machine
end

