-- ==== Sys2Proof/Laws/Keeps/Hbm.lean ====
section
/-!
SUPPORT. What the operations of Machine/Hbm.lean keep.
-/
set_option linter.unusedTactic false
set_option linter.unreachableTactic false
namespace Sys2Proof.Machine

theorem State.hbmWrite_keeps {r₀ s : State} (hk : Keeps r₀ s) (a : Nat) (bs : List Byte) : Keeps r₀ (s.hbmWrite a bs) := by
  induction bs generalizing s a with
  | nil => exact hk
  | cons b bs ih =>
    unfold State.hbmWrite
    exact ih (Keeps.updMem hk (fun c => Memory.wf_write _ _ (hk.canon c).mem) rfl rfl) _

theorem State.poolStatus_keeps {r₀ s : State} (hk : Keeps r₀ s) :
    Keeps r₀ (s.poolStatus) := by
  unfold State.poolStatus
  try dsimp only
  repeat' first
    | with_reducible assumption
    | with_reducible apply Keeps.ite
    | with_reducible rfl
    | with_reducible refine Keeps.wfTile (by assumption) ?_ _
    | with_reducible apply Keeps.foldl
    | with_reducible apply Keeps.foldl_fst
    | (with_reducible refine Keeps.ofPair ?_ (by assumption))
    | split
    | dsimp only
    | fail_if_no_progress with_reducible refine Keeps.upd ?_ rfl rfl
    | fail_if_no_progress with_reducible refine Keeps.updMem ?_ (fun c => ?_) rfl rfl
    | (intro)
    | decide

theorem State.copyPage_keeps {r₀ s : State} (hk : Keeps r₀ s) (p : ℕ) (i : ℕ) :
    Keeps r₀ (s.copyPage p i) := by
  unfold State.copyPage
  try dsimp only
  repeat' first
    | with_reducible assumption
    | with_reducible apply Keeps.ite
    | with_reducible apply State.poolStatus_keeps
    | with_reducible apply State.onPart_keeps
    | with_reducible rfl
    | with_reducible refine Keeps.wfTile (by assumption) ?_ _
    | with_reducible apply Keeps.foldl
    | with_reducible apply Keeps.foldl_fst
    | (with_reducible refine Keeps.ofPair ?_ (by assumption))
    | split
    | dsimp only
    | fail_if_no_progress with_reducible refine Keeps.upd ?_ rfl rfl
    | fail_if_no_progress with_reducible refine Keeps.updMem ?_ (fun c => ?_) rfl rfl
    | with_reducible apply Memory.wf_nil
    | with_reducible apply Memory.wf_writeLE
    | with_reducible apply Memory.wf_writeN
    | with_reducible apply Memory.wf_write
    | with_reducible apply Memory.wf_clear
    | with_reducible apply Memory.wf_copy
    | with_reducible apply wf_putF32s
    | with_reducible apply wf_tkWrite
    | with_reducible apply wf_putCodes
    | with_reducible apply wf_foldl
    | with_reducible apply store_foldl
    | with_reducible apply store_foldl_fst
    | with_reducible apply wf_ite
    | with_reducible refine Canonical.mem (Keeps.canon ?_ (by assumption))
    | (with_reducible refine (by assumption : Canonical _ → Memory.wf _ = true) (by assumption))
    | (intro)
    | decide

theorem State.decantPages_keeps {r₀ s : State} (hk : Keeps r₀ s) :
    Keeps r₀ (s.decantPages) := by
  unfold State.decantPages
  try dsimp only
  repeat' first
    | with_reducible assumption
    | with_reducible apply Keeps.ite
    | with_reducible apply State.poolStatus_keeps
    | with_reducible apply State.allParts_keeps
    | with_reducible rfl
    | with_reducible refine Keeps.wfTile (by assumption) ?_ _
    | with_reducible apply Keeps.foldl
    | with_reducible apply Keeps.foldl_fst
    | (with_reducible refine Keeps.ofPair ?_ (by assumption))
    | split
    | dsimp only
    | fail_if_no_progress with_reducible refine Keeps.upd ?_ rfl rfl
    | fail_if_no_progress with_reducible refine Keeps.updMem ?_ (fun c => ?_) rfl rfl
    | (intro)
    | decide

theorem State.rotateSnapshot_keeps {r₀ s : State} (hk : Keeps r₀ s) :
    Keeps r₀ (s.rotateSnapshot) := by
  unfold State.rotateSnapshot
  try dsimp only
  repeat' first
    | with_reducible assumption
    | with_reducible apply Keeps.ite
    | with_reducible apply State.allParts_keeps
    | with_reducible apply State.poolStatus_keeps
    | with_reducible rfl
    | with_reducible refine Keeps.wfTile (by assumption) ?_ _
    | with_reducible apply Keeps.foldl
    | with_reducible apply Keeps.foldl_fst
    | (with_reducible refine Keeps.ofPair ?_ (by assumption))
    | split
    | dsimp only
    | fail_if_no_progress with_reducible refine Keeps.upd ?_ rfl rfl
    | fail_if_no_progress with_reducible refine Keeps.updMem ?_ (fun c => ?_) rfl rfl
    | (intro)
    | decide

theorem State.memCount_keeps {r₀ s : State} (hk : Keeps r₀ s) (p : ℕ) (k : ℕ) (pch : ℕ) (unit : ℕ) (f : Field) (n : ℕ) :
    Keeps r₀ (s.memCount p k pch unit f n) := by
  unfold State.memCount
  try dsimp only
  repeat' first
    | with_reducible assumption
    | with_reducible apply Keeps.ite
    | with_reducible apply State.setStack_keeps
    | with_reducible rfl
    | with_reducible refine Keeps.wfTile (by assumption) ?_ _
    | with_reducible apply Keeps.foldl
    | with_reducible apply Keeps.foldl_fst
    | (with_reducible refine Keeps.ofPair ?_ (by assumption))
    | split
    | dsimp only
    | fail_if_no_progress with_reducible refine Keeps.upd ?_ rfl rfl
    | fail_if_no_progress with_reducible refine Keeps.updMem ?_ (fun c => ?_) rfl rfl
    | (intro)
    | decide

theorem State.softRow_keeps {r₀ s : State} (hk : Keeps r₀ s) (p : ℕ) (k : ℕ) (row : ℕ) :
    Keeps r₀ (s.softRow p k row) := by
  unfold State.softRow
  try dsimp only
  repeat' first
    | with_reducible assumption
    | with_reducible apply Keeps.ite
    | with_reducible apply State.setStack_keeps
    | with_reducible rfl
    | with_reducible refine Keeps.wfTile (by assumption) ?_ _
    | with_reducible apply Keeps.foldl
    | with_reducible apply Keeps.foldl_fst
    | (with_reducible refine Keeps.ofPair ?_ (by assumption))
    | split
    | dsimp only
    | fail_if_no_progress with_reducible refine Keeps.upd ?_ rfl rfl
    | fail_if_no_progress with_reducible refine Keeps.updMem ?_ (fun c => ?_) rfl rfl
    | (intro)
    | decide

theorem State.channelFail_keeps {r₀ s : State} (hk : Keeps r₀ s) (p : ℕ) (k : ℕ) (pch : ℕ) :
    Keeps r₀ (s.channelFail p k pch) := by
  unfold State.channelFail
  try dsimp only
  repeat' first
    | with_reducible assumption
    | with_reducible apply Keeps.ite
    | with_reducible apply State.declareFailed_keeps
    | with_reducible apply State.setStack_keeps
    | with_reducible rfl
    | with_reducible refine Keeps.wfTile (by assumption) ?_ _
    | with_reducible apply Keeps.foldl
    | with_reducible apply Keeps.foldl_fst
    | (with_reducible refine Keeps.ofPair ?_ (by assumption))
    | split
    | dsimp only
    | fail_if_no_progress with_reducible refine Keeps.upd ?_ rfl rfl
    | fail_if_no_progress with_reducible refine Keeps.updMem ?_ (fun c => ?_) rfl rfl
    | (intro)
    | decide

theorem State.hbmCorrected_keeps {r₀ s : State} (hk : Keeps r₀ s) (p : ℕ) (k : ℕ) (pch : ℕ) (unit : ℕ) :
    Keeps r₀ (s.hbmCorrected p k pch unit) := by
  unfold State.hbmCorrected
  try dsimp only
  repeat' first
    | with_reducible assumption
    | with_reducible apply Keeps.ite
    | with_reducible apply State.memCount_keeps
    | with_reducible apply State.setStack_keeps
    | with_reducible apply State.softRow_keeps
    | with_reducible rfl
    | with_reducible refine Keeps.wfTile (by assumption) ?_ _
    | with_reducible apply Keeps.foldl
    | with_reducible apply Keeps.foldl_fst
    | (with_reducible refine Keeps.ofPair ?_ (by assumption))
    | split
    | dsimp only
    | fail_if_no_progress with_reducible refine Keeps.upd ?_ rfl rfl
    | fail_if_no_progress with_reducible refine Keeps.updMem ?_ (fun c => ?_) rfl rfl
    | (intro)
    | decide

theorem State.hbmUncorrectable_keeps {r₀ s : State} (hk : Keeps r₀ s) (p : ℕ) (k : ℕ) (pch : ℕ) (unit : ℕ) (o : ℕ) :
    Keeps r₀ (s.hbmUncorrectable p k pch unit o) := by
  unfold State.hbmUncorrectable
  try dsimp only
  repeat' first
    | with_reducible assumption
    | with_reducible apply Keeps.ite
    | with_reducible apply State.memCount_keeps
    | with_reducible apply State.channelFail_keeps
    | with_reducible apply State.softRow_keeps
    | with_reducible apply State.setStack_keeps
    | with_reducible apply State.failBit_keeps
    | with_reducible rfl
    | with_reducible refine Keeps.wfTile (by assumption) ?_ _
    | with_reducible apply Keeps.foldl
    | with_reducible apply Keeps.foldl_fst
    | (with_reducible refine Keeps.ofPair ?_ (by assumption))
    | split
    | dsimp only
    | fail_if_no_progress with_reducible refine Keeps.upd ?_ rfl rfl
    | fail_if_no_progress with_reducible refine Keeps.updMem ?_ (fun c => ?_) rfl rfl
    | (intro)
    | decide

theorem State.hbmEcc_keeps {r₀ s : State} (hk : Keeps r₀ s) (a : ℕ) (e : Ecc) :
    Keeps r₀ (s.hbmEcc a e) := by
  unfold State.hbmEcc
  try dsimp only
  repeat' first
    | with_reducible assumption
    | with_reducible apply Keeps.ite
    | with_reducible apply State.hbmCorrected_keeps
    | with_reducible apply State.hbmUncorrectable_keeps
    | with_reducible rfl
    | with_reducible refine Keeps.wfTile (by assumption) ?_ _
    | with_reducible apply Keeps.foldl
    | with_reducible apply Keeps.foldl_fst
    | (with_reducible refine Keeps.ofPair ?_ (by assumption))
    | split
    | dsimp only
    | fail_if_no_progress with_reducible refine Keeps.upd ?_ rfl rfl
    | fail_if_no_progress with_reducible refine Keeps.updMem ?_ (fun c => ?_) rfl rfl
    | (intro)
    | decide

theorem State.copyStalls_keeps {r₀ s : State} (hk : Keeps r₀ s) (p i : ℕ) : Keeps r₀ (s.copyStalls p i) := by
  unfold State.copyStalls
  refine Keeps.foldl _ hk fun s t h => Keeps.foldl _ h fun s c h => ?_
  split
  · exact Keeps.ite (State.stall_keeps h _ _ _) h
  · exact h

theorem State.copyOnWrite_keeps {r₀ s : State} (hk : Keeps r₀ s) (p : ℕ) (i : ℕ) (ue : Bool) :
    Keeps r₀ (s.copyOnWrite p i ue) := by
  unfold State.copyOnWrite
  try dsimp only
  repeat' first
    | with_reducible assumption
    | with_reducible apply Keeps.ite
    | with_reducible apply State.channelFail_keeps
    | with_reducible apply State.memCount_keeps
    | with_reducible apply State.copyStalls_keeps
    | with_reducible apply State.copyPage_keeps
    | with_reducible rfl
    | with_reducible refine Keeps.wfTile (by assumption) ?_ _
    | with_reducible apply Keeps.foldl
    | with_reducible apply Keeps.foldl_fst
    | (with_reducible refine Keeps.ofPair ?_ (by assumption))
    | split
    | dsimp only
    | fail_if_no_progress with_reducible refine Keeps.upd ?_ rfl rfl
    | fail_if_no_progress with_reducible refine Keeps.updMem ?_ (fun c => ?_) rfl rfl
    | (intro)
    | decide

theorem State.patrolScrub_keeps {r₀ s : State} (hk : Keeps r₀ s) (p : ℕ) (k : ℕ) (pch : ℕ) (unit : ℕ) (r : ScrubRes) :
    Keeps r₀ (s.patrolScrub p k pch unit r) := by
  unfold State.patrolScrub
  try dsimp only
  repeat' first
    | with_reducible assumption
    | with_reducible apply Keeps.ite
    | with_reducible apply State.hbmCorrected_keeps
    | with_reducible apply State.hbmUncorrectable_keeps
    | with_reducible apply State.memCount_keeps
    | with_reducible rfl
    | with_reducible refine Keeps.wfTile (by assumption) ?_ _
    | with_reducible apply Keeps.foldl
    | with_reducible apply Keeps.foldl_fst
    | (with_reducible refine Keeps.ofPair ?_ (by assumption))
    | split
    | dsimp only
    | fail_if_no_progress with_reducible refine Keeps.upd ?_ rfl rfl
    | fail_if_no_progress with_reducible refine Keeps.updMem ?_ (fun c => ?_) rfl rfl
    | (intro)
    | decide

theorem State.stackTemperature_keeps {r₀ s : State} (hk : Keeps r₀ s) (p : ℕ) (k : ℕ) (temp : ℕ) :
    Keeps r₀ (s.stackTemperature p k temp) := by
  unfold State.stackTemperature
  try dsimp only
  repeat' first
    | with_reducible assumption
    | with_reducible apply Keeps.ite
    | with_reducible apply State.setStack_keeps
    | with_reducible apply State.onPart_keeps
    | with_reducible rfl
    | with_reducible refine Keeps.wfTile (by assumption) ?_ _
    | with_reducible apply Keeps.foldl
    | with_reducible apply Keeps.foldl_fst
    | (with_reducible refine Keeps.ofPair ?_ (by assumption))
    | split
    | dsimp only
    | fail_if_no_progress with_reducible refine Keeps.upd ?_ rfl rfl
    | fail_if_no_progress with_reducible refine Keeps.updMem ?_ (fun c => ?_) rfl rfl
    | (intro)
    | decide

end Sys2Proof.Machine
end

