-- ==== Sys2Proof/Laws/Keeps/Sites.lean ====
section
/-!
SUPPORT. What the operations of Machine/Sites.lean keep.
-/
set_option linter.unusedTactic false
set_option linter.unreachableTactic false
namespace Sys2Proof.Machine

theorem eraseTile_tkeeps (t : Tile) : TKeeps t (eraseTile t) := by
  unfold eraseTile
  try dsimp only
  repeat' first
    | with_reducible assumption
    | with_reducible apply Keeps.ite
    | with_reducible rfl
    | with_reducible refine Keeps.wfTile (by assumption) ?_ _
    | with_reducible apply Keeps.foldl
    | with_reducible apply Keeps.foldl_fst
    | (with_reducible refine Keeps.ofPair ?_ (by assumption))
    | split
    | dsimp only
    | fail_if_no_progress with_reducible refine Keeps.upd ?_ rfl rfl
    | fail_if_no_progress with_reducible refine Keeps.updMem ?_ (fun c => ?_) rfl rfl
    | with_reducible apply Memory.wf_nil
    | with_reducible apply Memory.wf_writeLE
    | with_reducible apply Memory.wf_writeN
    | with_reducible apply Memory.wf_write
    | with_reducible apply Memory.wf_clear
    | with_reducible apply Memory.wf_copy
    | with_reducible apply wf_putF32s
    | with_reducible apply wf_tkWrite
    | with_reducible apply wf_putCodes
    | with_reducible apply wf_foldl
    | with_reducible apply store_foldl
    | with_reducible apply store_foldl_fst
    | with_reducible apply wf_ite
    | with_reducible refine Canonical.mem (Keeps.canon ?_ (by assumption))
    | (with_reducible refine (by assumption : Canonical _ → Memory.wf _ = true) (by assumption))
    | (intro)
    | decide

theorem State.softSite_keeps {r₀ s : State} (hk : Keeps r₀ s) (p : ℕ) (x : ℕ) (units : ℕ) :
    Keeps r₀ (s.softSite p x units) := by
  unfold State.softSite
  try dsimp only
  repeat' first
    | with_reducible assumption
    | with_reducible apply Keeps.ite
    | with_reducible rfl
    | with_reducible refine Keeps.wfTile (by assumption) ?_ _
    | with_reducible apply Keeps.foldl
    | with_reducible apply Keeps.foldl_fst
    | (with_reducible refine Keeps.ofPair ?_ (by assumption))
    | split
    | dsimp only
    | fail_if_no_progress with_reducible refine Keeps.upd ?_ rfl rfl
    | fail_if_no_progress with_reducible refine Keeps.updMem ?_ (fun c => ?_) rfl rfl
    | (intro)
    | decide

theorem State.setSiteRole_keeps {r₀ s : State} (hk : Keeps r₀ s) (p : ℕ) (x : ℕ) (role : ℕ) (t : ℕ) :
    Keeps r₀ (s.setSiteRole p x role t) := by
  unfold State.setSiteRole
  try dsimp only
  repeat' first
    | with_reducible assumption
    | with_reducible apply Keeps.ite
    | with_reducible apply State.setSite_keeps
    | with_reducible rfl
    | with_reducible refine Keeps.wfTile (by assumption) ?_ _
    | with_reducible apply Keeps.foldl
    | with_reducible apply Keeps.foldl_fst
    | (with_reducible refine Keeps.ofPair ?_ (by assumption))
    | split
    | dsimp only
    | fail_if_no_progress with_reducible refine Keeps.upd ?_ rfl rfl
    | fail_if_no_progress with_reducible refine Keeps.updMem ?_ (fun c => ?_) rfl rfl
    | (intro)
    | decide

theorem State.countYieldFor_keeps {r₀ s : State} (hk : Keeps r₀ s) (p : ℕ) (n : ℕ) :
    Keeps r₀ (s.countYieldFor p n) := by
  unfold State.countYieldFor
  try dsimp only
  repeat' first
    | with_reducible assumption
    | with_reducible apply Keeps.ite
    | with_reducible apply State.onPart_keeps
    | with_reducible rfl
    | with_reducible refine Keeps.wfTile (by assumption) ?_ _
    | with_reducible apply Keeps.foldl
    | with_reducible apply Keeps.foldl_fst
    | (with_reducible refine Keeps.ofPair ?_ (by assumption))
    | split
    | dsimp only
    | fail_if_no_progress with_reducible refine Keeps.upd ?_ rfl rfl
    | fail_if_no_progress with_reducible refine Keeps.updMem ?_ (fun c => ?_) rfl rfl
    | (intro)
    | decide

theorem State.countYield_keeps {r₀ s : State} (hk : Keeps r₀ s) (p : ℕ) :
    Keeps r₀ (s.countYield p) := by
  unfold State.countYield
  try dsimp only
  repeat' first
    | with_reducible assumption
    | with_reducible apply Keeps.ite
    | with_reducible apply State.countYieldFor_keeps
    | with_reducible rfl
    | with_reducible refine Keeps.wfTile (by assumption) ?_ _
    | with_reducible apply Keeps.foldl
    | with_reducible apply Keeps.foldl_fst
    | (with_reducible refine Keeps.ofPair ?_ (by assumption))
    | split
    | dsimp only
    | fail_if_no_progress with_reducible refine Keeps.upd ?_ rfl rfl
    | fail_if_no_progress with_reducible refine Keeps.updMem ?_ (fun c => ?_) rfl rfl
    | (intro)
    | decide

theorem State.loadCode_keeps {r₀ s : State} (hk : Keeps r₀ s) (tl : TileRef) :
    Keeps r₀ (s.loadCode tl) := by
  unfold State.loadCode
  try dsimp only
  repeat' first
    | with_reducible assumption
    | with_reducible apply Keeps.ite
    | with_reducible apply State.onTile_keeps
    | with_reducible rfl
    | with_reducible refine Keeps.wfTile (by assumption) ?_ _
    | with_reducible apply Keeps.foldl
    | with_reducible apply Keeps.foldl_fst
    | (with_reducible refine Keeps.ofPair ?_ (by assumption))
    | split
    | dsimp only
    | fail_if_no_progress with_reducible refine Keeps.upd ?_ rfl rfl
    | fail_if_no_progress with_reducible refine Keeps.updMem ?_ (fun c => ?_) rfl rfl
    | (intro)
    | decide

theorem State.siteTested_keeps {r₀ s : State} (hk : Keeps r₀ s) (p : ℕ) (x : ℕ) (units : ℕ) (fails : ℕ) :
    Keeps r₀ (s.siteTested p x units fails) := by
  unfold State.siteTested
  try dsimp only
  repeat' first
    | with_reducible assumption
    | with_reducible apply Keeps.ite
    | with_reducible apply State.setSite_keeps
    | with_reducible apply State.onTile_keeps
    | with_reducible apply eraseTile_tkeeps
    | with_reducible apply State.loadCode_keeps
    | with_reducible rfl
    | with_reducible refine Keeps.wfTile (by assumption) ?_ _
    | with_reducible apply Keeps.foldl
    | with_reducible apply Keeps.foldl_fst
    | (with_reducible refine Keeps.ofPair ?_ (by assumption))
    | split
    | dsimp only
    | fail_if_no_progress with_reducible refine Keeps.upd ?_ rfl rfl
    | fail_if_no_progress with_reducible refine Keeps.updMem ?_ (fun c => ?_) rfl rfl
    | (intro)
    | decide

theorem State.judge_keeps {r₀ s : State} (hk : Keeps r₀ s) (r : SiteRes) :
    Keeps r₀ (s.judge r) := by
  unfold State.judge
  try dsimp only
  repeat' first
    | with_reducible assumption
    | with_reducible apply Keeps.ite
    | with_reducible apply State.softSite_keeps
    | with_reducible apply State.onPart_keeps
    | with_reducible rfl
    | with_reducible refine Keeps.wfTile (by assumption) ?_ _
    | with_reducible apply Keeps.foldl
    | with_reducible apply Keeps.foldl_fst
    | (with_reducible refine Keeps.ofPair ?_ (by assumption))
    | split
    | dsimp only
    | fail_if_no_progress with_reducible refine Keeps.upd ?_ rfl rfl
    | fail_if_no_progress with_reducible refine Keeps.updMem ?_ (fun c => ?_) rfl rfl
    | (intro)
    | decide

theorem State.numberTile_keeps {r₀ s : State} (hk : Keeps r₀ s) (p : ℕ) (xt : ℕ × ℕ) :
    Keeps r₀ (s.numberTile p xt) := by
  unfold State.numberTile
  try dsimp only
  repeat' first
    | with_reducible assumption
    | with_reducible apply Keeps.ite
    | with_reducible apply State.onTile_keeps
    | with_reducible apply State.setSiteRole_keeps
    | with_reducible rfl
    | with_reducible refine Keeps.wfTile (by assumption) ?_ _
    | with_reducible apply Keeps.foldl
    | with_reducible apply Keeps.foldl_fst
    | (with_reducible refine Keeps.ofPair ?_ (by assumption))
    | split
    | dsimp only
    | fail_if_no_progress with_reducible refine Keeps.upd ?_ rfl rfl
    | fail_if_no_progress with_reducible refine Keeps.updMem ?_ (fun c => ?_) rfl rfl
    | (intro)
    | decide

theorem State.roleSites_keeps {r₀ s : State} (hk : Keeps r₀ s) (p : ℕ) :
    Keeps r₀ (s.roleSites p) := by
  unfold State.roleSites
  try dsimp only
  repeat' first
    | with_reducible assumption
    | with_reducible apply Keeps.ite
    | with_reducible apply State.setSiteRole_keeps
    | with_reducible rfl
    | with_reducible refine Keeps.wfTile (by assumption) ?_ _
    | with_reducible apply Keeps.foldl
    | with_reducible apply Keeps.foldl_fst
    | (with_reducible refine Keeps.ofPair ?_ (by assumption))
    | split
    | dsimp only
    | fail_if_no_progress with_reducible refine Keeps.upd ?_ rfl rfl
    | fail_if_no_progress with_reducible refine Keeps.updMem ?_ (fun c => ?_) rfl rfl
    | (intro)
    | decide

theorem State.numberPart_keeps {r₀ s : State} (hk : Keeps r₀ s) (p : ℕ) (n : ℕ) :
    Keeps r₀ (s.numberPart p n) := by
  unfold State.numberPart
  try dsimp only
  repeat' first
    | with_reducible assumption
    | with_reducible apply Keeps.ite
    | with_reducible apply State.numberTile_keeps
    | with_reducible apply State.roleSites_keeps
    | with_reducible rfl
    | with_reducible refine Keeps.wfTile (by assumption) ?_ _
    | with_reducible apply Keeps.foldl
    | with_reducible apply Keeps.foldl_fst
    | (with_reducible refine Keeps.ofPair ?_ (by assumption))
    | split
    | dsimp only
    | fail_if_no_progress with_reducible refine Keeps.upd ?_ rfl rfl
    | fail_if_no_progress with_reducible refine Keeps.updMem ?_ (fun c => ?_) rfl rfl
    | (intro)
    | decide

theorem State.siteBad_keeps {r₀ s : State} (hk : Keeps r₀ s) (p : ℕ) (x : ℕ) (units : ℕ) :
    Keeps r₀ (s.siteBad p x units) := by
  unfold State.siteBad
  try dsimp only
  repeat' first
    | with_reducible assumption
    | with_reducible apply Keeps.ite
    | with_reducible apply State.onPart_keeps
    | with_reducible apply State.softSite_keeps
    | with_reducible apply State.setSiteRole_keeps
    | with_reducible rfl
    | with_reducible refine Keeps.wfTile (by assumption) ?_ _
    | with_reducible apply Keeps.foldl
    | with_reducible apply Keeps.foldl_fst
    | (with_reducible refine Keeps.ofPair ?_ (by assumption))
    | split
    | dsimp only
    | fail_if_no_progress with_reducible refine Keeps.upd ?_ rfl rfl
    | fail_if_no_progress with_reducible refine Keeps.updMem ?_ (fun c => ?_) rfl rfl
    | (intro)
    | decide

theorem State.trySpares_keeps {r₀ s : State} (hk : Keeps r₀ s) (p : Nat) (xs rs : List Nat) : Keeps r₀ (s.trySpares p xs rs).1 := by
  induction xs generalizing s rs with
  | nil => exact hk
  | cons x xs ih =>
    unfold State.trySpares
    dsimp only
    split
    · exact State.setSite_keeps hk _ _ _
    · exact ih (State.siteBad_keeps (State.setSite_keeps hk _ _ _) _ _ _) _

theorem State.movedTo_tkeeps (t : Tile) (x : ℕ) (s12 : ℕ) : TKeeps t (State.movedTo t x s12) := by
  unfold State.movedTo
  try dsimp only
  repeat' first
    | with_reducible assumption
    | with_reducible apply Keeps.ite
    | with_reducible apply eraseTile_tkeeps
    | with_reducible rfl
    | with_reducible refine Keeps.wfTile (by assumption) ?_ _
    | with_reducible apply Keeps.foldl
    | with_reducible apply Keeps.foldl_fst
    | (with_reducible refine Keeps.ofPair ?_ (by assumption))
    | split
    | dsimp only
    | fail_if_no_progress with_reducible refine Keeps.upd ?_ rfl rfl
    | fail_if_no_progress with_reducible refine Keeps.updMem ?_ (fun c => ?_) rfl rfl
    | with_reducible apply Memory.wf_nil
    | with_reducible apply Memory.wf_writeLE
    | with_reducible apply Memory.wf_writeN
    | with_reducible apply Memory.wf_write
    | with_reducible apply Memory.wf_clear
    | with_reducible apply Memory.wf_copy
    | with_reducible apply wf_putF32s
    | with_reducible apply wf_tkWrite
    | with_reducible apply wf_putCodes
    | with_reducible apply wf_foldl
    | with_reducible apply store_foldl
    | with_reducible apply store_foldl_fst
    | with_reducible apply wf_ite
    | with_reducible refine Canonical.mem (Keeps.canon ?_ (by assumption))
    | (with_reducible refine (by assumption : Canonical _ → Memory.wf _ = true) (by assumption))
    | (intro)
    | decide

theorem State.graftTile_keeps {r₀ s : State} (hk : Keeps r₀ s) (tl : TileRef) (rs : List ℕ) :
    Keeps r₀ (s.graftTile tl rs) := by
  unfold State.graftTile
  try dsimp only
  repeat' first
    | with_reducible assumption
    | with_reducible apply Keeps.ite
    | with_reducible apply State.trySpares_keeps
    | with_reducible apply State.onTile_keeps
    | with_reducible apply State.onJob_keeps
    | with_reducible apply State.failBit_keeps
    | with_reducible apply State.siteBad_keeps
    | with_reducible apply State.declareFailed_keeps
    | with_reducible apply State.countYield_keeps
    | with_reducible apply State.setSiteRole_keeps
    | with_reducible apply State.loadCode_keeps
    | with_reducible apply State.movedTo_tkeeps
    | with_reducible rfl
    | with_reducible refine Keeps.wfTile (by assumption) ?_ _
    | with_reducible apply Keeps.foldl
    | with_reducible apply Keeps.foldl_fst
    | (with_reducible refine Keeps.ofPair ?_ (by assumption))
    | split
    | dsimp only
    | fail_if_no_progress with_reducible refine Keeps.upd ?_ rfl rfl
    | fail_if_no_progress with_reducible refine Keeps.updMem ?_ (fun c => ?_) rfl rfl
    | (intro)
    | decide

end Sys2Proof.Machine
end

