-- ==== Sys2Proof/Laws/Keeps/Arrays.lean ====
section
/-!
SUPPORT. What the operations of Machine/Arrays.lean keep.
-/
set_option linter.unusedTactic false
set_option linter.unreachableTactic false
namespace Sys2Proof.Machine

theorem State.freeLot_keeps {r₀ s : State} (hk : Keeps r₀ s) (tl : TileRef) (lot : ℕ) (ns : List ℕ) :
    Keeps r₀ (s.freeLot tl lot ns) := by
  unfold State.freeLot
  try dsimp only
  repeat' first
    | with_reducible assumption
    | with_reducible apply Keeps.ite
    | with_reducible apply State.onTile_keeps
    | with_reducible rfl
    | with_reducible refine Keeps.wfTile (by assumption) ?_ _
    | with_reducible apply Keeps.foldl
    | with_reducible apply Keeps.foldl_fst
    | (with_reducible refine Keeps.ofPair ?_ (by assumption))
    | split
    | dsimp only
    | fail_if_no_progress with_reducible refine Keeps.upd ?_ rfl rfl
    | fail_if_no_progress with_reducible refine Keeps.updMem ?_ (fun c => ?_) rfl rfl
    | (intro)
    | decide

theorem State.freeEntries_keeps {r₀ s : State} (hk : Keeps r₀ s) (tl : TileRef) (ns : List ℕ) :
    Keeps r₀ (s.freeEntries tl ns) := by
  unfold State.freeEntries
  try dsimp only
  repeat' first
    | with_reducible assumption
    | with_reducible apply Keeps.ite
    | with_reducible apply State.freeLot_keeps
    | with_reducible rfl
    | with_reducible refine Keeps.wfTile (by assumption) ?_ _
    | with_reducible apply Keeps.foldl
    | with_reducible apply Keeps.foldl_fst
    | (with_reducible refine Keeps.ofPair ?_ (by assumption))
    | split
    | dsimp only
    | fail_if_no_progress with_reducible refine Keeps.upd ?_ rfl rfl
    | fail_if_no_progress with_reducible refine Keeps.updMem ?_ (fun c => ?_) rfl rfl
    | (intro)
    | decide

theorem State.issue_keeps {r₀ s : State} (hk : Keeps r₀ s) (tl : TileRef) (c : Cls) (body : Tile → Word → State) (hbody : ∀ t w, (Canonical r₀ → Memory.wf t.store = true) → Keeps r₀ (body t w)) :
    Keeps r₀ (s.issue tl c body) := by
  unfold State.issue
  try dsimp only
  repeat' first
    | with_reducible assumption
    | with_reducible apply hbody
    | with_reducible apply Keeps.ite
    | with_reducible apply State.tileFault_keeps
    | with_reducible rfl
    | with_reducible refine Keeps.wfTile (by assumption) ?_ _
    | with_reducible apply Keeps.foldl
    | with_reducible apply Keeps.foldl_fst
    | (with_reducible refine Keeps.ofPair ?_ (by assumption))
    | split
    | dsimp only
    | fail_if_no_progress with_reducible refine Keeps.upd ?_ rfl rfl
    | fail_if_no_progress with_reducible refine Keeps.updMem ?_ (fun c => ?_) rfl rfl
    | (with_reducible refine (by assumption : Canonical _ → Memory.wf _ = true) (by assumption))
    | (intro)
    | decide

theorem State.syncDone_keeps {r₀ s : State} (hk : Keeps r₀ s) (tl : TileRef) (w : Word) :
    Keeps r₀ (s.syncDone tl w) := by
  unfold State.syncDone
  try dsimp only
  repeat' first
    | with_reducible assumption
    | with_reducible apply Keeps.ite
    | with_reducible apply State.syncAdd_keeps
    | with_reducible rfl
    | with_reducible refine Keeps.wfTile (by assumption) ?_ _
    | with_reducible apply Keeps.foldl
    | with_reducible apply Keeps.foldl_fst
    | (with_reducible refine Keeps.ofPair ?_ (by assumption))
    | split
    | dsimp only
    | fail_if_no_progress with_reducible refine Keeps.upd ?_ rfl rfl
    | fail_if_no_progress with_reducible refine Keeps.updMem ?_ (fun c => ?_) rfl rfl
    | (intro)
    | decide

theorem State.finish_keeps {r₀ s : State} (hk : Keeps r₀ s) (tl : TileRef) (w : Word) :
    Keeps r₀ (s.finish tl w) := by
  unfold State.finish
  try dsimp only
  repeat' first
    | with_reducible assumption
    | with_reducible apply Keeps.ite
    | with_reducible apply State.syncDone_keeps
    | with_reducible apply State.retire_keeps
    | with_reducible rfl
    | with_reducible refine Keeps.wfTile (by assumption) ?_ _
    | with_reducible apply Keeps.foldl
    | with_reducible apply Keeps.foldl_fst
    | (with_reducible refine Keeps.ofPair ?_ (by assumption))
    | split
    | dsimp only
    | fail_if_no_progress with_reducible refine Keeps.upd ?_ rfl rfl
    | fail_if_no_progress with_reducible refine Keeps.updMem ?_ (fun c => ?_) rfl rfl
    | (intro)
    | decide

theorem State.touch_keeps {r₀ s : State} (hk : Keeps r₀ s) (tl : TileRef) (u : ℕ) :
    Keeps r₀ (s.touch tl u) := by
  unfold State.touch
  try dsimp only
  repeat' first
    | with_reducible assumption
    | with_reducible apply Keeps.ite
    | with_reducible apply State.markUnit_keeps
    | with_reducible rfl
    | with_reducible refine Keeps.wfTile (by assumption) ?_ _
    | with_reducible apply Keeps.foldl
    | with_reducible apply Keeps.foldl_fst
    | (with_reducible refine Keeps.ofPair ?_ (by assumption))
    | split
    | dsimp only
    | fail_if_no_progress with_reducible refine Keeps.upd ?_ rfl rfl
    | fail_if_no_progress with_reducible refine Keeps.updMem ?_ (fun c => ?_) rfl rfl
    | (intro)
    | decide

theorem setArr_tkeeps (t : Tile) (k : ℕ) (a : Arr) : TKeeps t (setArr t k a) := by
  unfold setArr
  try dsimp only
  repeat' first
    | with_reducible assumption
    | with_reducible apply Keeps.ite
    | with_reducible rfl
    | with_reducible refine Keeps.wfTile (by assumption) ?_ _
    | with_reducible apply Keeps.foldl
    | with_reducible apply Keeps.foldl_fst
    | (with_reducible refine Keeps.ofPair ?_ (by assumption))
    | split
    | dsimp only
    | fail_if_no_progress with_reducible refine Keeps.upd ?_ rfl rfl
    | fail_if_no_progress with_reducible refine Keeps.updMem ?_ (fun c => ?_) rfl rfl
    | with_reducible apply Memory.wf_nil
    | with_reducible apply Memory.wf_writeLE
    | with_reducible apply Memory.wf_writeN
    | with_reducible apply Memory.wf_write
    | with_reducible apply Memory.wf_clear
    | with_reducible apply Memory.wf_copy
    | with_reducible apply wf_putF32s
    | with_reducible apply wf_tkWrite
    | with_reducible apply wf_putCodes
    | with_reducible apply wf_foldl
    | with_reducible apply store_foldl
    | with_reducible apply store_foldl_fst
    | with_reducible apply wf_ite
    | with_reducible refine Canonical.mem (Keeps.canon ?_ (by assumption))
    | (with_reducible refine (by assumption : Canonical _ → Memory.wf _ = true) (by assumption))
    | (intro)
    | decide

theorem State.loadStream_keeps {r₀ s : State} (hk : Keeps r₀ s) (tl : TileRef) (t : Tile) (w : Word) (d0 : Word) (d1 : Word) (d : LoadDesc) :
    Keeps r₀ (s.loadStream tl t w d0 d1 d) := by
  unfold State.loadStream
  try dsimp only
  repeat' first
    | with_reducible assumption
    | with_reducible apply Keeps.ite
    | with_reducible apply State.freeEntries_keeps
    | with_reducible apply State.finish_keeps
    | with_reducible apply State.touch_keeps
    | with_reducible apply State.onTile_keeps
    | with_reducible rfl
    | with_reducible refine Keeps.wfTile (by assumption) ?_ _
    | with_reducible apply Keeps.foldl
    | with_reducible apply Keeps.foldl_fst
    | (with_reducible refine Keeps.ofPair ?_ (by assumption))
    | split
    | dsimp only
    | fail_if_no_progress with_reducible refine Keeps.upd ?_ rfl rfl
    | fail_if_no_progress with_reducible refine Keeps.updMem ?_ (fun c => ?_) rfl rfl
    | (intro)
    | decide

theorem State.loadShadow_keeps {r₀ s : State} (hk : Keeps r₀ s) (tl : TileRef) (t : Tile) (w d0 d1 : Word) (d : LoadDesc) (f : Fmt) :
    Keeps r₀ (s.loadShadow tl t w d0 d1 d f) := by
  unfold State.loadShadow
  refine State.freeEntries_keeps (State.finish_keeps (State.touch_keeps (State.onTile_keeps hk _ _ fun u hu => ?_) _ _) _ _) _ _
  exact store_foldl _ hu fun u k h => setArr_tkeeps u k _ h

theorem State.load_keeps {r₀ s : State} (hk : Keeps r₀ s) (tl : TileRef) (d : LoadDesc) (ecc : Ecc) :
    Keeps r₀ (s.load tl d ecc) := by
  unfold State.load
  try dsimp only
  repeat' first
    | with_reducible assumption
    | with_reducible apply Keeps.ite
    | with_reducible apply State.issue_keeps
    | with_reducible apply State.tileFault_keeps
    | with_reducible apply State.finish_keeps
    | with_reducible apply State.hold_keeps
    | with_reducible apply State.storeEcc_keeps
    | with_reducible apply State.loadStream_keeps
    | with_reducible apply State.loadShadow_keeps
    | with_reducible rfl
    | with_reducible refine Keeps.wfTile (by assumption) ?_ _
    | with_reducible apply Keeps.foldl
    | with_reducible apply Keeps.foldl_fst
    | (with_reducible refine Keeps.ofPair ?_ (by assumption))
    | split
    | dsimp only
    | fail_if_no_progress with_reducible refine Keeps.upd ?_ rfl rfl
    | fail_if_no_progress with_reducible refine Keeps.updMem ?_ (fun c => ?_) rfl rfl
    | (with_reducible refine (by assumption : Canonical _ → Memory.wf _ = true) (by assumption))
    | (intro)
    | decide

theorem deliver_tkeeps (t : Tile) (k : ℕ) (r : PassRun) (cols : List ℕ) (m : ℕ) : TKeeps t (deliver t k r cols m) := by
  unfold deliver
  try dsimp only
  repeat' first
    | with_reducible assumption
    | with_reducible apply Keeps.ite
    | with_reducible apply setCaskLine_tkeeps
    | with_reducible rfl
    | with_reducible refine Keeps.wfTile (by assumption) ?_ _
    | with_reducible apply Keeps.foldl
    | with_reducible apply Keeps.foldl_fst
    | (with_reducible refine Keeps.ofPair ?_ (by assumption))
    | split
    | dsimp only
    | fail_if_no_progress with_reducible refine Keeps.upd ?_ rfl rfl
    | fail_if_no_progress with_reducible refine Keeps.updMem ?_ (fun c => ?_) rfl rfl
    | with_reducible apply Memory.wf_nil
    | with_reducible apply Memory.wf_writeLE
    | with_reducible apply Memory.wf_writeN
    | with_reducible apply Memory.wf_write
    | with_reducible apply Memory.wf_clear
    | with_reducible apply Memory.wf_copy
    | with_reducible apply wf_putF32s
    | with_reducible apply wf_tkWrite
    | with_reducible apply wf_putCodes
    | with_reducible apply wf_foldl
    | with_reducible apply store_foldl
    | with_reducible apply store_foldl_fst
    | with_reducible apply wf_ite
    | with_reducible refine Canonical.mem (Keeps.canon ?_ (by assumption))
    | (with_reducible refine (by assumption : Canonical _ → Memory.wf _ = true) (by assumption))
    | (intro)
    | decide

theorem State.substitute_keeps {r₀ s : State} (hk : Keeps r₀ s) (tl : TileRef) (k : ℕ) :
    Keeps r₀ (s.substitute tl k) := by
  unfold State.substitute
  try dsimp only
  repeat' first
    | with_reducible assumption
    | with_reducible apply Keeps.ite
    | with_reducible apply State.tileFault_keeps
    | with_reducible apply State.onTile_keeps
    | with_reducible rfl
    | with_reducible refine Keeps.wfTile (by assumption) ?_ _
    | with_reducible apply Keeps.foldl
    | with_reducible apply Keeps.foldl_fst
    | (with_reducible refine Keeps.ofPair ?_ (by assumption))
    | split
    | dsimp only
    | fail_if_no_progress with_reducible refine Keeps.upd ?_ rfl rfl
    | fail_if_no_progress with_reducible refine Keeps.updMem ?_ (fun c => ?_) rfl rfl
    | (intro)
    | decide

theorem State.arrayLost_keeps {r₀ s : State} (hk : Keeps r₀ s) (tl : TileRef) (k : ℕ) :
    Keeps r₀ (s.arrayLost tl k) := by
  unfold State.arrayLost
  try dsimp only
  repeat' first
    | with_reducible assumption
    | with_reducible apply Keeps.ite
    | with_reducible apply State.tileFault_keeps
    | with_reducible apply State.onTile_keeps
    | with_reducible rfl
    | with_reducible refine Keeps.wfTile (by assumption) ?_ _
    | with_reducible apply Keeps.foldl
    | with_reducible apply Keeps.foldl_fst
    | (with_reducible refine Keeps.ofPair ?_ (by assumption))
    | split
    | dsimp only
    | fail_if_no_progress with_reducible refine Keeps.upd ?_ rfl rfl
    | fail_if_no_progress with_reducible refine Keeps.updMem ?_ (fun c => ?_) rfl rfl
    | (intro)
    | decide

theorem State.enter_keeps {r₀ s : State} (hk : Keeps r₀ s) (tl : TileRef) (k : ℕ) (p : PassOp) :
    Keeps r₀ (s.enter tl k p) := by
  unfold State.enter
  try dsimp only
  repeat' first
    | with_reducible assumption
    | with_reducible apply Keeps.ite
    | with_reducible apply State.tileFault_keeps
    | with_reducible apply State.onTile_keeps
    | with_reducible apply deliver_tkeeps
    | with_reducible apply setArr_tkeeps
    | with_reducible apply State.failBit_keeps
    | with_reducible apply State.touch_keeps
    | with_reducible apply State.substitute_keeps
    | with_reducible apply State.arrayLost_keeps
    | with_reducible rfl
    | with_reducible refine Keeps.wfTile (by assumption) ?_ _
    | with_reducible apply Keeps.foldl
    | with_reducible apply Keeps.foldl_fst
    | (with_reducible refine Keeps.ofPair ?_ (by assumption))
    | split
    | dsimp only
    | fail_if_no_progress with_reducible refine Keeps.upd ?_ rfl rfl
    | fail_if_no_progress with_reducible refine Keeps.updMem ?_ (fun c => ?_) rfl rfl
    | (intro)
    | decide

theorem State.pass_keeps {r₀ s : State} (hk : Keeps r₀ s) (tl : TileRef) (mask : Option MaskAt) (bad : Option ℕ) :
    Keeps r₀ (s.pass tl mask bad) := by
  unfold State.pass
  try dsimp only
  repeat' first
    | with_reducible assumption
    | with_reducible apply Keeps.ite
    | with_reducible apply State.issue_keeps
    | with_reducible apply State.tileFault_keeps
    | with_reducible apply State.finish_keeps
    | with_reducible apply State.hold_keeps
    | with_reducible apply State.onTile_keeps
    | with_reducible apply setArr_tkeeps
    | with_reducible apply State.retire_keeps
    | with_reducible apply State.enter_keeps
    | with_reducible rfl
    | with_reducible refine Keeps.wfTile (by assumption) ?_ _
    | with_reducible apply Keeps.foldl
    | with_reducible apply Keeps.foldl_fst
    | (with_reducible refine Keeps.ofPair ?_ (by assumption))
    | split
    | dsimp only
    | fail_if_no_progress with_reducible refine Keeps.upd ?_ rfl rfl
    | fail_if_no_progress with_reducible refine Keeps.updMem ?_ (fun c => ?_) rfl rfl
    | (with_reducible refine (by assumption : Canonical _ → Memory.wf _ = true) (by assumption))
    | (intro)
    | decide

theorem State.enterHead_keeps {r₀ s : State} (hk : Keeps r₀ s) (tl : TileRef) (k : ℕ) :
    Keeps r₀ (s.enterHead tl k) := by
  unfold State.enterHead
  try dsimp only
  repeat' first
    | with_reducible assumption
    | with_reducible apply Keeps.ite
    | with_reducible apply State.enter_keeps
    | with_reducible rfl
    | with_reducible refine Keeps.wfTile (by assumption) ?_ _
    | with_reducible apply Keeps.foldl
    | with_reducible apply Keeps.foldl_fst
    | (with_reducible refine Keeps.ofPair ?_ (by assumption))
    | split
    | dsimp only
    | fail_if_no_progress with_reducible refine Keeps.upd ?_ rfl rfl
    | fail_if_no_progress with_reducible refine Keeps.updMem ?_ (fun c => ?_) rfl rfl
    | (intro)
    | decide

theorem State.swap_keeps {r₀ s : State} (hk : Keeps r₀ s) (tl : TileRef) (k : ℕ) :
    Keeps r₀ (s.swap tl k) := by
  unfold State.swap
  try dsimp only
  repeat' first
    | with_reducible assumption
    | with_reducible apply Keeps.ite
    | with_reducible apply State.onTile_keeps
    | with_reducible apply setArr_tkeeps
    | with_reducible apply State.enterHead_keeps
    | with_reducible apply State.enter_keeps
    | with_reducible rfl
    | with_reducible refine Keeps.wfTile (by assumption) ?_ _
    | with_reducible apply Keeps.foldl
    | with_reducible apply Keeps.foldl_fst
    | (with_reducible refine Keeps.ofPair ?_ (by assumption))
    | split
    | dsimp only
    | fail_if_no_progress with_reducible refine Keeps.upd ?_ rfl rfl
    | fail_if_no_progress with_reducible refine Keeps.updMem ?_ (fun c => ?_) rfl rfl
    | (intro)
    | decide

theorem State.passDrained_keeps {r₀ s : State} (hk : Keeps r₀ s) (tl : TileRef) (k : ℕ) :
    Keeps r₀ (s.passDrained tl k) := by
  unfold State.passDrained
  try dsimp only
  repeat' first
    | with_reducible assumption
    | with_reducible apply Keeps.ite
    | with_reducible apply State.enterHead_keeps
    | with_reducible apply State.syncDone_keeps
    | with_reducible apply State.onTile_keeps
    | with_reducible apply setArr_tkeeps
    | with_reducible rfl
    | with_reducible refine Keeps.wfTile (by assumption) ?_ _
    | with_reducible apply Keeps.foldl
    | with_reducible apply Keeps.foldl_fst
    | (with_reducible refine Keeps.ofPair ?_ (by assumption))
    | split
    | dsimp only
    | fail_if_no_progress with_reducible refine Keeps.upd ?_ rfl rfl
    | fail_if_no_progress with_reducible refine Keeps.updMem ?_ (fun c => ?_) rfl rfl
    | (intro)
    | decide

end Sys2Proof.Machine
end

