-- ==== Sys2Proof/Laws/Keeps/Drain.lean ====
section
/-!
SUPPORT. What the operations of Machine/Drain.lean keep.
-/
set_option linter.unusedTactic false
set_option linter.unreachableTactic false
namespace Sys2Proof.Machine

theorem measure_tkeeps (t : Tile) (k : ℕ) (amax : ℕ × ℤ) (bad : ℕ) (counts : Bool) (clamped : Bool) : TKeeps t (measure t k amax bad counts clamped) := by
  unfold measure
  try dsimp only
  repeat' first
    | with_reducible assumption
    | with_reducible apply Keeps.ite
    | with_reducible rfl
    | with_reducible refine Keeps.wfTile (by assumption) ?_ _
    | with_reducible apply Keeps.foldl
    | with_reducible apply Keeps.foldl_fst
    | (with_reducible refine Keeps.ofPair ?_ (by assumption))
    | split
    | dsimp only
    | fail_if_no_progress with_reducible refine Keeps.upd ?_ rfl rfl
    | fail_if_no_progress with_reducible refine Keeps.updMem ?_ (fun c => ?_) rfl rfl
    | with_reducible apply Memory.wf_nil
    | with_reducible apply Memory.wf_writeLE
    | with_reducible apply Memory.wf_writeN
    | with_reducible apply Memory.wf_write
    | with_reducible apply Memory.wf_clear
    | with_reducible apply Memory.wf_copy
    | with_reducible apply wf_putF32s
    | with_reducible apply wf_tkWrite
    | with_reducible apply wf_putCodes
    | with_reducible apply wf_foldl
    | with_reducible apply store_foldl
    | with_reducible apply store_foldl_fst
    | with_reducible apply wf_ite
    | with_reducible refine Canonical.mem (Keeps.canon ?_ (by assumption))
    | (with_reducible refine (by assumption : Canonical _ → Memory.wf _ = true) (by assumption))
    | (intro)
    | decide

theorem topkLine_tkeeps (t : Tile) (r : DrainRun) (u : Tile) (d : ℕ) : TKeeps u (topkLine t r u d) := fun h => wf_tkWrite _ _ h

theorem topkLines_tkeeps (t : Tile) (r : DrainRun) : TKeeps t (topkLines t r) := fun h =>
  store_foldl _ h fun u d hu => topkLine_tkeeps t r u d hu

theorem clearLines_tkeeps (t : Tile) (r : DrainRun) : TKeeps t (clearLines t r) := fun h =>
  store_foldl _ h fun u _ hu => setCaskLine_tkeeps u _ _ _ hu

theorem routeLot_tkeeps (t : Tile) (r : DrainRun) : TKeeps t (routeLot t r) := by
  unfold routeLot
  try dsimp only
  repeat' first
    | with_reducible assumption
    | with_reducible apply Keeps.ite
    | with_reducible rfl
    | with_reducible refine Keeps.wfTile (by assumption) ?_ _
    | with_reducible apply Keeps.foldl
    | with_reducible apply Keeps.foldl_fst
    | (with_reducible refine Keeps.ofPair ?_ (by assumption))
    | split
    | dsimp only
    | fail_if_no_progress with_reducible refine Keeps.upd ?_ rfl rfl
    | fail_if_no_progress with_reducible refine Keeps.updMem ?_ (fun c => ?_) rfl rfl
    | with_reducible apply Memory.wf_nil
    | with_reducible apply Memory.wf_writeLE
    | with_reducible apply Memory.wf_writeN
    | with_reducible apply Memory.wf_write
    | with_reducible apply Memory.wf_clear
    | with_reducible apply Memory.wf_copy
    | with_reducible apply wf_putF32s
    | with_reducible apply wf_tkWrite
    | with_reducible apply wf_putCodes
    | with_reducible apply wf_foldl
    | with_reducible apply store_foldl
    | with_reducible apply store_foldl_fst
    | with_reducible apply wf_ite
    | with_reducible refine Canonical.mem (Keeps.canon ?_ (by assumption))
    | (with_reducible refine (by assumption : Canonical _ → Memory.wf _ = true) (by assumption))
    | (intro)
    | decide

theorem sendOut_tkeeps (t : Tile) (r : DrainRun) (bs : List Byte) : TKeeps t (sendOut t r bs) := by
  unfold sendOut
  try dsimp only
  repeat' first
    | with_reducible assumption
    | with_reducible apply Keeps.ite
    | with_reducible rfl
    | with_reducible refine Keeps.wfTile (by assumption) ?_ _
    | with_reducible apply Keeps.foldl
    | with_reducible apply Keeps.foldl_fst
    | (with_reducible refine Keeps.ofPair ?_ (by assumption))
    | split
    | dsimp only
    | fail_if_no_progress with_reducible refine Keeps.upd ?_ rfl rfl
    | fail_if_no_progress with_reducible refine Keeps.updMem ?_ (fun c => ?_) rfl rfl
    | with_reducible apply Memory.wf_nil
    | with_reducible apply Memory.wf_writeLE
    | with_reducible apply Memory.wf_writeN
    | with_reducible apply Memory.wf_write
    | with_reducible apply Memory.wf_clear
    | with_reducible apply Memory.wf_copy
    | with_reducible apply wf_putF32s
    | with_reducible apply wf_tkWrite
    | with_reducible apply wf_putCodes
    | with_reducible apply wf_foldl
    | with_reducible apply store_foldl
    | with_reducible apply store_foldl_fst
    | with_reducible apply wf_ite
    | with_reducible refine Canonical.mem (Keeps.canon ?_ (by assumption))
    | (with_reducible refine (by assumption : Canonical _ → Memory.wf _ = true) (by assumption))
    | (intro)
    | decide

theorem drainTile_tkeeps (t : Tile) (r : DrainRun) (f : Fmt) : TKeeps t (drainTile t r f) := by
  unfold drainTile
  try dsimp only
  repeat' first
    | with_reducible assumption
    | with_reducible apply Keeps.ite
    | with_reducible apply topkLines_tkeeps
    | with_reducible apply sendOut_tkeeps
    | with_reducible apply measure_tkeeps
    | with_reducible apply routeLot_tkeeps
    | with_reducible apply clearLines_tkeeps
    | with_reducible rfl
    | with_reducible refine Keeps.wfTile (by assumption) ?_ _
    | with_reducible apply Keeps.foldl
    | with_reducible apply Keeps.foldl_fst
    | (with_reducible refine Keeps.ofPair ?_ (by assumption))
    | split
    | dsimp only
    | fail_if_no_progress with_reducible refine Keeps.upd ?_ rfl rfl
    | fail_if_no_progress with_reducible refine Keeps.updMem ?_ (fun c => ?_) rfl rfl
    | with_reducible apply Memory.wf_nil
    | with_reducible apply Memory.wf_writeLE
    | with_reducible apply Memory.wf_writeN
    | with_reducible apply Memory.wf_write
    | with_reducible apply Memory.wf_clear
    | with_reducible apply Memory.wf_copy
    | with_reducible apply wf_putF32s
    | with_reducible apply wf_tkWrite
    | with_reducible apply wf_putCodes
    | with_reducible apply wf_foldl
    | with_reducible apply store_foldl
    | with_reducible apply store_foldl_fst
    | with_reducible apply wf_ite
    | with_reducible refine Canonical.mem (Keeps.canon ?_ (by assumption))
    | (with_reducible refine (by assumption : Canonical _ → Memory.wf _ = true) (by assumption))
    | (intro)
    | decide

theorem State.drain_keeps {r₀ s : State} (hk : Keeps r₀ s) (tl : TileRef) (d : DrainDesc) (m : StoreIn) : Keeps r₀ (s.drain tl d m) := by
  unfold State.drain
  refine State.issue_keeps hk _ _ _ fun t w ht => ?_
  dsimp only
  split
  · exact State.tileFault_keeps hk _ _
  · rename_i f _
    refine Keeps.ite (State.hold_keeps hk _ _) (Keeps.ite (State.tileFault_keeps hk _ _) ?_)
    refine State.readStore_keeps hk _ _ _ fun s hs => ?_
    split
    · exact State.storeRace_keeps (State.useStash_keeps (State.touch_keeps (State.onTile_keeps hs tl _ fun u => drainTile_tkeeps u _ f) tl 16) tl d.stash) _ _ _
    · exact State.finish_keeps (State.useStash_keeps (State.touch_keeps (State.onTile_keeps hs tl _ fun u => drainTile_tkeeps u _ f) tl 16) tl d.stash) _ _

end Sys2Proof.Machine
end

