-- ==== Sys2Proof/Laws/Keeps/Transfer.lean ====
section
/-!
SUPPORT. What the operations of Machine/Transfer.lean keep.
-/
set_option linter.unusedTactic false
set_option linter.unreachableTactic false
namespace Sys2Proof.Machine

theorem setChan_tkeeps (t : Tile) (k : ℕ) (c : Chan) : TKeeps t (setChan t k c) := by
  unfold setChan
  try dsimp only
  repeat' first
    | with_reducible assumption
    | with_reducible apply Keeps.ite
    | with_reducible rfl
    | with_reducible refine Keeps.wfTile (by assumption) ?_ _
    | with_reducible apply Keeps.foldl
    | with_reducible apply Keeps.foldl_fst
    | (with_reducible refine Keeps.ofPair ?_ (by assumption))
    | split
    | dsimp only
    | fail_if_no_progress with_reducible refine Keeps.upd ?_ rfl rfl
    | fail_if_no_progress with_reducible refine Keeps.updMem ?_ (fun c => ?_) rfl rfl
    | with_reducible apply Memory.wf_nil
    | with_reducible apply Memory.wf_writeLE
    | with_reducible apply Memory.wf_writeN
    | with_reducible apply Memory.wf_write
    | with_reducible apply Memory.wf_clear
    | with_reducible apply Memory.wf_copy
    | with_reducible apply wf_putF32s
    | with_reducible apply wf_tkWrite
    | with_reducible apply wf_putCodes
    | with_reducible apply wf_foldl
    | with_reducible apply store_foldl
    | with_reducible apply store_foldl_fst
    | with_reducible apply wf_ite
    | with_reducible refine Canonical.mem (Keeps.canon ?_ (by assumption))
    | (with_reducible refine (by assumption : Canonical _ → Memory.wf _ = true) (by assumption))
    | (intro)
    | decide

theorem State.moveEcc_keeps {r₀ s : State} (hk : Keeps r₀ s) (tl : TileRef) (d : MoveDesc) (e : Ecc) :
    Keeps r₀ (s.moveEcc tl d e) := by
  unfold State.moveEcc
  try dsimp only
  repeat' first
    | with_reducible assumption
    | with_reducible apply Keeps.ite
    | with_reducible apply State.hbmEcc_keeps
    | with_reducible apply State.storeEcc_keeps
    | with_reducible rfl
    | with_reducible refine Keeps.wfTile (by assumption) ?_ _
    | with_reducible apply Keeps.foldl
    | with_reducible apply Keeps.foldl_fst
    | (with_reducible refine Keeps.ofPair ?_ (by assumption))
    | split
    | dsimp only
    | fail_if_no_progress with_reducible refine Keeps.upd ?_ rfl rfl
    | fail_if_no_progress with_reducible refine Keeps.updMem ?_ (fun c => ?_) rfl rfl
    | (intro)
    | decide

theorem State.moveFenced_keeps {r₀ s : State} (hk : Keeps r₀ s) (tl : TileRef) (k : ℕ) (p : ℕ) (f : Field) :
    Keeps r₀ (s.moveFenced tl k p f) := by
  unfold State.moveFenced
  try dsimp only
  repeat' first
    | with_reducible assumption
    | with_reducible apply Keeps.ite
    | with_reducible apply State.onTile_keeps
    | with_reducible apply State.onPart_keeps
    | with_reducible apply setChan_tkeeps
    | with_reducible rfl
    | with_reducible refine Keeps.wfTile (by assumption) ?_ _
    | with_reducible apply Keeps.foldl
    | with_reducible apply Keeps.foldl_fst
    | (with_reducible refine Keeps.ofPair ?_ (by assumption))
    | split
    | dsimp only
    | fail_if_no_progress with_reducible refine Keeps.upd ?_ rfl rfl
    | fail_if_no_progress with_reducible refine Keeps.updMem ?_ (fun c => ?_) rfl rfl
    | (intro)
    | decide

theorem State.moveStart_keeps {r₀ s : State} (hk : Keeps r₀ s) (tl : TileRef) (t : Tile) (w : Word) (d : MoveDesc) (ecc : Ecc) :
    Keeps r₀ (s.moveStart tl t w d ecc) := by
  unfold State.moveStart
  try dsimp only
  repeat' first
    | with_reducible assumption
    | with_reducible apply Keeps.ite
    | with_reducible apply State.hold_keeps
    | with_reducible apply State.tileFault_keeps
    | with_reducible apply State.moveFenced_keeps
    | with_reducible apply State.moveEcc_keeps
    | with_reducible apply State.retire_keeps
    | with_reducible apply State.touch_keeps
    | with_reducible apply State.useStash_keeps
    | with_reducible apply State.onTile_keeps
    | with_reducible apply setChan_tkeeps
    | with_reducible rfl
    | with_reducible refine Keeps.wfTile (by assumption) ?_ _
    | with_reducible apply Keeps.foldl
    | with_reducible apply Keeps.foldl_fst
    | (with_reducible refine Keeps.ofPair ?_ (by assumption))
    | split
    | dsimp only
    | fail_if_no_progress with_reducible refine Keeps.upd ?_ rfl rfl
    | fail_if_no_progress with_reducible refine Keeps.updMem ?_ (fun c => ?_) rfl rfl
    | (intro)
    | decide

theorem State.move_keeps {r₀ s : State} (hk : Keeps r₀ s) (tl : TileRef) (d : MoveDesc) (ecc : Ecc) :
    Keeps r₀ (s.move tl d ecc) := by
  unfold State.move
  try dsimp only
  repeat' first
    | with_reducible assumption
    | with_reducible apply Keeps.ite
    | with_reducible apply State.issue_keeps
    | with_reducible apply State.tileFault_keeps
    | with_reducible apply State.moveStart_keeps
    | with_reducible rfl
    | with_reducible refine Keeps.wfTile (by assumption) ?_ _
    | with_reducible apply Keeps.foldl
    | with_reducible apply Keeps.foldl_fst
    | (with_reducible refine Keeps.ofPair ?_ (by assumption))
    | split
    | dsimp only
    | fail_if_no_progress with_reducible refine Keeps.upd ?_ rfl rfl
    | fail_if_no_progress with_reducible refine Keeps.updMem ?_ (fun c => ?_) rfl rfl
    | (with_reducible refine (by assumption : Canonical _ → Memory.wf _ = true) (by assumption))
    | (intro)
    | decide

theorem State.caskRecord_keeps {r₀ s : State} (hk : Keeps r₀ s) (tl : TileRef) (c : ℕ) (l : ℕ) (r : Packed) (k : CaskKind) :
    Keeps r₀ (s.caskRecord tl c l r k) := by
  unfold State.caskRecord
  try dsimp only
  repeat' first
    | with_reducible assumption
    | with_reducible apply Keeps.ite
    | with_reducible apply State.onTile_keeps
    | with_reducible apply setCaskLine_tkeeps
    | with_reducible apply State.packedBad_keeps
    | with_reducible rfl
    | with_reducible refine Keeps.wfTile (by assumption) ?_ _
    | with_reducible apply Keeps.foldl
    | with_reducible apply Keeps.foldl_fst
    | (with_reducible refine Keeps.ofPair ?_ (by assumption))
    | split
    | dsimp only
    | fail_if_no_progress with_reducible refine Keeps.upd ?_ rfl rfl
    | fail_if_no_progress with_reducible refine Keeps.updMem ?_ (fun c => ?_) rfl rfl
    | (intro)
    | decide

theorem State.caskRecords_keeps {r₀ s : State} (hk : Keeps r₀ s) (tl : TileRef) (c l loc : Nat) (bs : List Byte) (n : Nat) :
    Keeps r₀ (s.caskRecords tl c l loc bs n) := by
  induction n with
  | zero => exact hk
  | succ n ih =>
    unfold State.caskRecords
    exact State.caskRecord_keeps ih _ _ _ _ _

theorem State.caskAccs_keeps {r₀ s : State} (hk : Keeps r₀ s) (tl : TileRef) (c l : Nat) (shift : Int) (bs : List Byte) (n : Nat) :
    Keeps r₀ (s.caskAccs tl c l shift bs n) := by
  induction n with
  | zero => exact hk
  | succ n ih =>
    unfold State.caskAccs
    refine State.onTile_keeps ih _ _ fun t ht => ?_
    dsimp only
    split
    · exact ht
    · exact ht

theorem State.logSend_keeps {r₀ s : State} (hk : Keeps r₀ s) (bs : List Byte) :
    Keeps r₀ (s.logSend bs) := by
  unfold State.logSend
  try dsimp only
  repeat' first
    | with_reducible assumption
    | with_reducible apply Keeps.ite
    | with_reducible apply State.failBit_keeps
    | with_reducible apply State.onVint_keeps
    | with_reducible rfl
    | with_reducible refine Keeps.wfTile (by assumption) ?_ _
    | with_reducible apply Keeps.foldl
    | with_reducible apply Keeps.foldl_fst
    | (with_reducible refine Keeps.ofPair ?_ (by assumption))
    | split
    | dsimp only
    | fail_if_no_progress with_reducible refine Keeps.upd ?_ rfl rfl
    | fail_if_no_progress with_reducible refine Keeps.updMem ?_ (fun c => ?_) rfl rfl
    | (intro)
    | decide

theorem State.ringPassed_tkeeps (t : Tile) (route : ℕ) : TKeeps t (State.ringPassed t route) := by
  unfold State.ringPassed
  try dsimp only
  repeat' first
    | with_reducible assumption
    | with_reducible apply Keeps.ite
    | with_reducible rfl
    | with_reducible refine Keeps.wfTile (by assumption) ?_ _
    | with_reducible apply Keeps.foldl
    | with_reducible apply Keeps.foldl_fst
    | (with_reducible refine Keeps.ofPair ?_ (by assumption))
    | split
    | dsimp only
    | fail_if_no_progress with_reducible refine Keeps.upd ?_ rfl rfl
    | fail_if_no_progress with_reducible refine Keeps.updMem ?_ (fun c => ?_) rfl rfl
    | with_reducible apply Memory.wf_nil
    | with_reducible apply Memory.wf_writeLE
    | with_reducible apply Memory.wf_writeN
    | with_reducible apply Memory.wf_write
    | with_reducible apply Memory.wf_clear
    | with_reducible apply Memory.wf_copy
    | with_reducible apply wf_putF32s
    | with_reducible apply wf_tkWrite
    | with_reducible apply wf_putCodes
    | with_reducible apply wf_foldl
    | with_reducible apply store_foldl
    | with_reducible apply store_foldl_fst
    | with_reducible apply wf_ite
    | with_reducible refine Canonical.mem (Keeps.canon ?_ (by assumption))
    | (with_reducible refine (by assumption : Canonical _ → Memory.wf _ = true) (by assumption))
    | (intro)
    | decide

theorem State.routeSend_keeps {r₀ s : State} (hk : Keeps r₀ s) (tl : TileRef) (o : FrameOut) (count : ℕ) (recs : List Byte) :
    Keeps r₀ (s.routeSend tl o count recs) := by
  unfold State.routeSend
  try dsimp only
  repeat' first
    | with_reducible assumption
    | with_reducible apply Keeps.ite
    | with_reducible apply State.onTile_keeps
    | with_reducible apply State.send_keeps
    | with_reducible apply State.logSend_keeps
    | with_reducible apply State.ringPassed_tkeeps
    | with_reducible rfl
    | with_reducible refine Keeps.wfTile (by assumption) ?_ _
    | with_reducible apply Keeps.foldl
    | with_reducible apply Keeps.foldl_fst
    | (with_reducible refine Keeps.ofPair ?_ (by assumption))
    | split
    | dsimp only
    | fail_if_no_progress with_reducible refine Keeps.upd ?_ rfl rfl
    | fail_if_no_progress with_reducible refine Keeps.updMem ?_ (fun c => ?_) rfl rfl
    | (intro)
    | decide

theorem State.deliverXfer_keeps {r₀ s : State} (hk : Keeps r₀ s) (tl : TileRef) (x : Xfer) :
    Keeps r₀ (s.deliverXfer tl x) := by
  unfold State.deliverXfer
  try dsimp only
  repeat' first
    | with_reducible assumption
    | with_reducible apply Keeps.ite
    | with_reducible apply State.hbmWrite_keeps
    | with_reducible apply State.onTile_keeps
    | with_reducible apply State.syncAdd_keeps
    | with_reducible apply State.routeSend_keeps
    | with_reducible apply State.packedBad_keeps
    | with_reducible apply State.caskRecords_keeps
    | with_reducible apply State.caskAccs_keeps
    | with_reducible rfl
    | with_reducible refine Keeps.wfTile (by assumption) ?_ _
    | with_reducible apply Keeps.foldl
    | with_reducible apply Keeps.foldl_fst
    | (with_reducible refine Keeps.ofPair ?_ (by assumption))
    | split
    | dsimp only
    | fail_if_no_progress with_reducible refine Keeps.upd ?_ rfl rfl
    | fail_if_no_progress with_reducible refine Keeps.updMem ?_ (fun c => ?_) rfl rfl
    | with_reducible apply Memory.wf_nil
    | with_reducible apply Memory.wf_writeLE
    | with_reducible apply Memory.wf_writeN
    | with_reducible apply Memory.wf_write
    | with_reducible apply Memory.wf_clear
    | with_reducible apply Memory.wf_copy
    | with_reducible apply wf_putF32s
    | with_reducible apply wf_tkWrite
    | with_reducible apply wf_putCodes
    | with_reducible apply wf_foldl
    | with_reducible apply store_foldl
    | with_reducible apply store_foldl_fst
    | with_reducible apply wf_ite
    | with_reducible refine Canonical.mem (Keeps.canon ?_ (by assumption))
    | (with_reducible refine (by assumption : Canonical _ → Memory.wf _ = true) (by assumption))
    | (intro)
    | decide

theorem State.transferComplete_keeps {r₀ s : State} (hk : Keeps r₀ s) (tl : TileRef) (k : ℕ) (race : Option RaceIn) :
    Keeps r₀ (s.transferComplete tl k race) := by
  unfold State.transferComplete
  try dsimp only
  repeat' first
    | with_reducible assumption
    | with_reducible apply Keeps.ite
    | with_reducible apply State.onTile_keeps
    | with_reducible apply setChan_tkeeps
    | with_reducible apply State.moveFenced_keeps
    | with_reducible apply State.syncDone_keeps
    | with_reducible apply State.touch_keeps
    | with_reducible apply State.freeLot_keeps
    | with_reducible apply State.deliverXfer_keeps
    | with_reducible apply State.raceIf_keeps
    | with_reducible rfl
    | with_reducible refine Keeps.wfTile (by assumption) ?_ _
    | with_reducible apply Keeps.foldl
    | with_reducible apply Keeps.foldl_fst
    | (with_reducible refine Keeps.ofPair ?_ (by assumption))
    | split
    | dsimp only
    | fail_if_no_progress with_reducible refine Keeps.upd ?_ rfl rfl
    | fail_if_no_progress with_reducible refine Keeps.updMem ?_ (fun c => ?_) rfl rfl
    | (intro)
    | decide

end Sys2Proof.Machine
end

