-- ==== Sys2Proof/Laws/Keeps/Frames.lean ====
section
/-!
SUPPORT. What the operations of Machine/Frames.lean keep.
-/
set_option linter.unusedTactic false
set_option linter.unreachableTactic false
namespace Sys2Proof.Machine

theorem State.combineCmp_keeps {r₀ s : State} (hk : Keeps r₀ s) (tl : TileRef) (c : Coll) (f : Frame) (takeMax : Bool) :
    Keeps r₀ (s.combineCmp tl c f takeMax) := by
  unfold State.combineCmp
  try dsimp only
  repeat' first
    | with_reducible assumption
    | with_reducible apply Keeps.ite
    | with_reducible apply State.putAt_keeps
    | with_reducible rfl
    | with_reducible refine Keeps.wfTile (by assumption) ?_ _
    | with_reducible apply Keeps.foldl
    | with_reducible apply Keeps.foldl_fst
    | (with_reducible refine Keeps.ofPair ?_ (by assumption))
    | split
    | dsimp only
    | fail_if_no_progress with_reducible refine Keeps.upd ?_ rfl rfl
    | fail_if_no_progress with_reducible refine Keeps.updMem ?_ (fun c => ?_) rfl rfl
    | (intro)
    | decide

theorem State.combineSum_keeps {r₀ s : State} (hk : Keeps r₀ s) (tl : TileRef) (c : Coll) (f : Frame) :
    Keeps r₀ (s.combineSum tl c f) := by
  unfold State.combineSum
  try dsimp only
  repeat' first
    | with_reducible assumption
    | with_reducible apply Keeps.ite
    | with_reducible apply State.slotOp_keeps
    | with_reducible rfl
    | with_reducible refine Keeps.wfTile (by assumption) ?_ _
    | with_reducible apply Keeps.foldl
    | with_reducible apply Keeps.foldl_fst
    | (with_reducible refine Keeps.ofPair ?_ (by assumption))
    | split
    | dsimp only
    | fail_if_no_progress with_reducible refine Keeps.upd ?_ rfl rfl
    | fail_if_no_progress with_reducible refine Keeps.updMem ?_ (fun c => ?_) rfl rfl
    | (intro)
    | decide

theorem State.placeReturned_keeps {r₀ s : State} (hk : Keeps r₀ s) (tl : TileRef) (c : Coll) (f : Frame) (e : ℕ) :
    Keeps r₀ (s.placeReturned tl c f e) := by
  unfold State.placeReturned
  try dsimp only
  repeat' first
    | with_reducible assumption
    | with_reducible apply Keeps.ite
    | with_reducible apply State.putAt_keeps
    | with_reducible rfl
    | with_reducible refine Keeps.wfTile (by assumption) ?_ _
    | with_reducible apply Keeps.foldl
    | with_reducible apply Keeps.foldl_fst
    | (with_reducible refine Keeps.ofPair ?_ (by assumption))
    | split
    | dsimp only
    | fail_if_no_progress with_reducible refine Keeps.upd ?_ rfl rfl
    | fail_if_no_progress with_reducible refine Keeps.updMem ?_ (fun c => ?_) rfl rfl
    | (intro)
    | decide

theorem State.combine_keeps {r₀ s : State} (hk : Keeps r₀ s) (tl : TileRef) (c : Coll) (f : Frame) :
    Keeps r₀ (s.combine tl c f) := by
  unfold State.combine
  try dsimp only
  repeat' first
    | with_reducible assumption
    | with_reducible apply Keeps.ite
    | with_reducible apply State.putAt_keeps
    | with_reducible apply State.placeReturned_keeps
    | with_reducible apply State.combineSum_keeps
    | with_reducible apply State.combineCmp_keeps
    | with_reducible rfl
    | with_reducible refine Keeps.wfTile (by assumption) ?_ _
    | with_reducible apply Keeps.foldl
    | with_reducible apply Keeps.foldl_fst
    | (with_reducible refine Keeps.ofPair ?_ (by assumption))
    | split
    | dsimp only
    | fail_if_no_progress with_reducible refine Keeps.upd ?_ rfl rfl
    | fail_if_no_progress with_reducible refine Keeps.updMem ?_ (fun c => ?_) rfl rfl
    | (intro)
    | decide

theorem State.cellarFrame_keeps {r₀ s : State} (hk : Keeps r₀ s) (tl : TileRef) (c : Coll) (f : Frame) :
    Keeps r₀ (s.cellarFrame tl c f) := by
  unfold State.cellarFrame
  try dsimp only
  repeat' first
    | with_reducible assumption
    | with_reducible apply Keeps.ite
    | with_reducible apply State.failBit_keeps
    | with_reducible apply State.onVint_keeps
    | with_reducible rfl
    | with_reducible refine Keeps.wfTile (by assumption) ?_ _
    | with_reducible apply Keeps.foldl
    | with_reducible apply Keeps.foldl_fst
    | (with_reducible refine Keeps.ofPair ?_ (by assumption))
    | split
    | dsimp only
    | fail_if_no_progress with_reducible refine Keeps.upd ?_ rfl rfl
    | fail_if_no_progress with_reducible refine Keeps.updMem ?_ (fun c => ?_) rfl rfl
    | (intro)
    | decide

theorem State.fillUnfed_keeps {r₀ s : State} (hk : Keeps r₀ s) (tl : TileRef) (c : Coll) :
    Keeps r₀ (s.fillUnfed tl c) := by
  unfold State.fillUnfed
  try dsimp only
  repeat' first
    | with_reducible assumption
    | with_reducible apply Keeps.ite
    | with_reducible apply State.putAt_keeps
    | with_reducible rfl
    | with_reducible refine Keeps.wfTile (by assumption) ?_ _
    | with_reducible apply Keeps.foldl
    | with_reducible apply Keeps.foldl_fst
    | (with_reducible refine Keeps.ofPair ?_ (by assumption))
    | split
    | dsimp only
    | fail_if_no_progress with_reducible refine Keeps.upd ?_ rfl rfl
    | fail_if_no_progress with_reducible refine Keeps.updMem ?_ (fun c => ?_) rfl rfl
    | (intro)
    | decide

theorem State.takeAmax_keeps {r₀ s : State} (hk : Keeps r₀ s) (tl : TileRef) (c : Coll) :
    Keeps r₀ (s.takeAmax tl c) := by
  unfold State.takeAmax
  try dsimp only
  repeat' first
    | with_reducible assumption
    | with_reducible apply Keeps.ite
    | with_reducible apply State.allTiles_keeps
    | with_reducible rfl
    | with_reducible refine Keeps.wfTile (by assumption) ?_ _
    | with_reducible apply Keeps.foldl
    | with_reducible apply Keeps.foldl_fst
    | (with_reducible refine Keeps.ofPair ?_ (by assumption))
    | split
    | dsimp only
    | fail_if_no_progress with_reducible refine Keeps.upd ?_ rfl rfl
    | fail_if_no_progress with_reducible refine Keeps.updMem ?_ (fun c => ?_) rfl rfl
    | (intro)
    | decide

theorem State.collDone_keeps {r₀ s : State} (hk : Keeps r₀ s) (tl : TileRef) (c : Coll) :
    Keeps r₀ (s.collDone tl c) := by
  unfold State.collDone
  try dsimp only
  repeat' first
    | with_reducible assumption
    | with_reducible apply Keeps.ite
    | with_reducible apply State.syncAdd_keeps
    | with_reducible apply State.takeAmax_keeps
    | with_reducible apply State.fillUnfed_keeps
    | with_reducible apply State.onTile_keeps
    | with_reducible rfl
    | with_reducible refine Keeps.wfTile (by assumption) ?_ _
    | with_reducible apply Keeps.foldl
    | with_reducible apply Keeps.foldl_fst
    | (with_reducible refine Keeps.ofPair ?_ (by assumption))
    | split
    | dsimp only
    | fail_if_no_progress with_reducible refine Keeps.upd ?_ rfl rfl
    | fail_if_no_progress with_reducible refine Keeps.updMem ?_ (fun c => ?_) rfl rfl
    | (intro)
    | decide

theorem State.takeFrame_keeps {r₀ s : State} (hk : Keeps r₀ s) (tl : TileRef) (c : Coll) (f : Frame) :
    Keeps r₀ (s.takeFrame tl c f) := by
  unfold State.takeFrame
  try dsimp only
  repeat' first
    | with_reducible assumption
    | with_reducible apply Keeps.ite
    | with_reducible apply State.onTile_keeps
    | with_reducible apply State.combine_keeps
    | with_reducible apply State.collDone_keeps
    | with_reducible rfl
    | with_reducible refine Keeps.wfTile (by assumption) ?_ _
    | with_reducible apply Keeps.foldl
    | with_reducible apply Keeps.foldl_fst
    | (with_reducible refine Keeps.ofPair ?_ (by assumption))
    | split
    | dsimp only
    | fail_if_no_progress with_reducible refine Keeps.upd ?_ rfl rfl
    | fail_if_no_progress with_reducible refine Keeps.updMem ?_ (fun c => ?_) rfl rfl
    | (intro)
    | decide

theorem State.acceptFrame_keeps {r₀ s : State} (hk : Keeps r₀ s) (tl : TileRef) (c : Coll) (f : Frame) :
    Keeps r₀ (s.acceptFrame tl c f) := by
  unfold State.acceptFrame
  try dsimp only
  repeat' first
    | with_reducible assumption
    | with_reducible apply Keeps.ite
    | with_reducible apply State.cellarFrame_keeps
    | with_reducible apply State.takeFrame_keeps
    | with_reducible rfl
    | with_reducible refine Keeps.wfTile (by assumption) ?_ _
    | with_reducible apply Keeps.foldl
    | with_reducible apply Keeps.foldl_fst
    | (with_reducible refine Keeps.ofPair ?_ (by assumption))
    | split
    | dsimp only
    | fail_if_no_progress with_reducible refine Keeps.upd ?_ rfl rfl
    | fail_if_no_progress with_reducible refine Keeps.updMem ?_ (fun c => ?_) rfl rfl
    | (intro)
    | decide

theorem State.absorb_keeps {r₀ s : State} (hk : Keeps r₀ s) (tl : TileRef) (f : Frame) (g : Frame) :
    Keeps r₀ (s.absorb tl f g) := by
  unfold State.absorb
  try dsimp only
  repeat' first
    | with_reducible assumption
    | with_reducible apply Keeps.ite
    | with_reducible apply State.failBit_keeps
    | with_reducible apply State.onTile_keeps
    | with_reducible apply State.onVint_keeps
    | with_reducible rfl
    | with_reducible refine Keeps.wfTile (by assumption) ?_ _
    | with_reducible apply Keeps.foldl
    | with_reducible apply Keeps.foldl_fst
    | (with_reducible refine Keeps.ofPair ?_ (by assumption))
    | split
    | dsimp only
    | fail_if_no_progress with_reducible refine Keeps.upd ?_ rfl rfl
    | fail_if_no_progress with_reducible refine Keeps.updMem ?_ (fun c => ?_) rfl rfl
    | (intro)
    | decide

theorem State.serveFrames_keeps {r₀ s : State} (hk : Keeps r₀ s) (tl : TileRef) : Keeps r₀ (s.serveFrames tl) := by
  unfold State.serveFrames
  refine Keeps.ite hk (Keeps.foldl _ hk fun s e h => ?_)
  split
  · exact Keeps.ite (State.takeFrame_keeps h _ _ _) h
  · exact h

theorem State.partialFrame_keeps {r₀ s : State} (hk : Keeps r₀ s) (tl : TileRef) (f : Frame) :
    Keeps r₀ (s.partialFrame tl f) := by
  unfold State.partialFrame
  try dsimp only
  repeat' first
    | with_reducible assumption
    | with_reducible apply Keeps.ite
    | with_reducible apply State.failBit_keeps
    | with_reducible apply State.onTile_keeps
    | with_reducible apply State.absorb_keeps
    | with_reducible apply State.tileFault_keeps
    | with_reducible apply State.acceptFrame_keeps
    | with_reducible rfl
    | with_reducible refine Keeps.wfTile (by assumption) ?_ _
    | with_reducible apply Keeps.foldl
    | with_reducible apply Keeps.foldl_fst
    | (with_reducible refine Keeps.ofPair ?_ (by assumption))
    | split
    | dsimp only
    | fail_if_no_progress with_reducible refine Keeps.upd ?_ rfl rfl
    | fail_if_no_progress with_reducible refine Keeps.updMem ?_ (fun c => ?_) rfl rfl
    | (intro)
    | decide

end Sys2Proof.Machine
end

