-- ==== Sys2Proof/Laws/Keeps/Sequencer.lean ====
section
/-!
SUPPORT. What the operations of Machine/Sequencer.lean keep.
-/
set_option linter.unusedTactic false
set_option linter.unreachableTactic false
namespace Sys2Proof.Machine

theorem State.issueSync_keeps {r₀ s : State} (hk : Keeps r₀ s) (tl : TileRef) (op : ℕ) (body : Tile → Word → State) (hbody : ∀ t w, (Canonical r₀ → Memory.wf t.store = true) → Keeps r₀ (body t w)) :
    Keeps r₀ (s.issueSync tl op body) := by
  unfold State.issueSync
  try dsimp only
  repeat' first
    | with_reducible assumption
    | with_reducible apply hbody
    | with_reducible apply Keeps.ite
    | with_reducible apply State.issue_keeps
    | with_reducible apply State.tileFault_keeps
    | with_reducible rfl
    | with_reducible refine Keeps.wfTile (by assumption) ?_ _
    | with_reducible apply Keeps.foldl
    | with_reducible apply Keeps.foldl_fst
    | (with_reducible refine Keeps.ofPair ?_ (by assumption))
    | split
    | dsimp only
    | fail_if_no_progress with_reducible refine Keeps.upd ?_ rfl rfl
    | fail_if_no_progress with_reducible refine Keeps.updMem ?_ (fun c => ?_) rfl rfl
    | (with_reducible refine (by assumption : Canonical _ → Memory.wf _ = true) (by assumption))
    | (intro)
    | decide

theorem State.syncSet_keeps {r₀ s : State} (hk : Keeps r₀ s) (tl : TileRef) :
    Keeps r₀ (s.syncSet tl) := by
  unfold State.syncSet
  try dsimp only
  repeat' first
    | with_reducible assumption
    | with_reducible apply Keeps.ite
    | with_reducible apply State.issueSync_keeps
    | with_reducible apply State.finish_keeps
    | with_reducible apply State.onTile_keeps
    | with_reducible rfl
    | with_reducible refine Keeps.wfTile (by assumption) ?_ _
    | with_reducible apply Keeps.foldl
    | with_reducible apply Keeps.foldl_fst
    | (with_reducible refine Keeps.ofPair ?_ (by assumption))
    | split
    | dsimp only
    | fail_if_no_progress with_reducible refine Keeps.upd ?_ rfl rfl
    | fail_if_no_progress with_reducible refine Keeps.updMem ?_ (fun c => ?_) rfl rfl
    | (with_reducible refine (by assumption : Canonical _ → Memory.wf _ = true) (by assumption))
    | (intro)
    | decide

theorem State.syncInc_keeps {r₀ s : State} (hk : Keeps r₀ s) (tl : TileRef) :
    Keeps r₀ (s.syncInc tl) := by
  unfold State.syncInc
  try dsimp only
  repeat' first
    | with_reducible assumption
    | with_reducible apply Keeps.ite
    | with_reducible apply State.issueSync_keeps
    | with_reducible apply State.syncDone_keeps
    | with_reducible apply State.syncAdd_keeps
    | with_reducible apply State.retire_keeps
    | with_reducible rfl
    | with_reducible refine Keeps.wfTile (by assumption) ?_ _
    | with_reducible apply Keeps.foldl
    | with_reducible apply Keeps.foldl_fst
    | (with_reducible refine Keeps.ofPair ?_ (by assumption))
    | split
    | dsimp only
    | fail_if_no_progress with_reducible refine Keeps.upd ?_ rfl rfl
    | fail_if_no_progress with_reducible refine Keeps.updMem ?_ (fun c => ?_) rfl rfl
    | (with_reducible refine (by assumption : Canonical _ → Memory.wf _ = true) (by assumption))
    | (intro)
    | decide

theorem State.syncWait_keeps {r₀ s : State} (hk : Keeps r₀ s) (tl : TileRef) :
    Keeps r₀ (s.syncWait tl) := by
  unfold State.syncWait
  try dsimp only
  repeat' first
    | with_reducible assumption
    | with_reducible apply Keeps.ite
    | with_reducible apply State.issueSync_keeps
    | with_reducible apply State.finish_keeps
    | with_reducible apply State.hold_keeps
    | with_reducible apply State.touch_keeps
    | with_reducible apply State.onTile_keeps
    | with_reducible rfl
    | with_reducible refine Keeps.wfTile (by assumption) ?_ _
    | with_reducible apply Keeps.foldl
    | with_reducible apply Keeps.foldl_fst
    | (with_reducible refine Keeps.ofPair ?_ (by assumption))
    | split
    | dsimp only
    | fail_if_no_progress with_reducible refine Keeps.upd ?_ rfl rfl
    | fail_if_no_progress with_reducible refine Keeps.updMem ?_ (fun c => ?_) rfl rfl
    | (with_reducible refine (by assumption : Canonical _ → Memory.wf _ = true) (by assumption))
    | (intro)
    | decide

theorem State.waitSatisfied_keeps {r₀ s : State} (hk : Keeps r₀ s) (tl : TileRef) :
    Keeps r₀ (s.waitSatisfied tl) := by
  unfold State.waitSatisfied
  try dsimp only
  repeat' first
    | with_reducible assumption
    | with_reducible apply Keeps.ite
    | with_reducible apply State.finish_keeps
    | with_reducible apply State.onTile_keeps
    | with_reducible rfl
    | with_reducible refine Keeps.wfTile (by assumption) ?_ _
    | with_reducible apply Keeps.foldl
    | with_reducible apply Keeps.foldl_fst
    | (with_reducible refine Keeps.ofPair ?_ (by assumption))
    | split
    | dsimp only
    | fail_if_no_progress with_reducible refine Keeps.upd ?_ rfl rfl
    | fail_if_no_progress with_reducible refine Keeps.updMem ?_ (fun c => ?_) rfl rfl
    | (intro)
    | decide

theorem State.issueFlow_keeps {r₀ s : State} (hk : Keeps r₀ s) (tl : TileRef) (op : ℕ) (body : Tile → Word → State) (hbody : ∀ t w, (Canonical r₀ → Memory.wf t.store = true) → Keeps r₀ (body t w)) :
    Keeps r₀ (s.issueFlow tl op body) := by
  unfold State.issueFlow
  try dsimp only
  repeat' first
    | with_reducible assumption
    | with_reducible apply hbody
    | with_reducible apply Keeps.ite
    | with_reducible apply State.issue_keeps
    | with_reducible apply State.tileFault_keeps
    | with_reducible rfl
    | with_reducible refine Keeps.wfTile (by assumption) ?_ _
    | with_reducible apply Keeps.foldl
    | with_reducible apply Keeps.foldl_fst
    | (with_reducible refine Keeps.ofPair ?_ (by assumption))
    | split
    | dsimp only
    | fail_if_no_progress with_reducible refine Keeps.upd ?_ rfl rfl
    | fail_if_no_progress with_reducible refine Keeps.updMem ?_ (fun c => ?_) rfl rfl
    | (with_reducible refine (by assumption : Canonical _ → Memory.wf _ = true) (by assumption))
    | (intro)
    | decide

theorem State.goTo_keeps {r₀ s : State} (hk : Keeps r₀ s) (tl : TileRef) (w : Word) (dest : ℕ) (loops : List Loop) :
    Keeps r₀ (s.goTo tl w dest loops) := by
  unfold State.goTo
  try dsimp only
  repeat' first
    | with_reducible assumption
    | with_reducible apply Keeps.ite
    | with_reducible apply State.syncDone_keeps
    | with_reducible apply State.goOn_keeps
    | with_reducible rfl
    | with_reducible refine Keeps.wfTile (by assumption) ?_ _
    | with_reducible apply Keeps.foldl
    | with_reducible apply Keeps.foldl_fst
    | (with_reducible refine Keeps.ofPair ?_ (by assumption))
    | split
    | dsimp only
    | fail_if_no_progress with_reducible refine Keeps.upd ?_ rfl rfl
    | fail_if_no_progress with_reducible refine Keeps.updMem ?_ (fun c => ?_) rfl rfl
    | (intro)
    | decide

theorem State.flagRead_keeps {r₀ s : State} (hk : Keeps r₀ s) (tl : TileRef) (isFlag : Bool) (ecc : Ecc) :
    Keeps r₀ (s.flagRead tl isFlag ecc) := by
  unfold State.flagRead
  try dsimp only
  repeat' first
    | with_reducible assumption
    | with_reducible apply Keeps.ite
    | with_reducible apply State.storeEcc_keeps
    | with_reducible rfl
    | with_reducible refine Keeps.wfTile (by assumption) ?_ _
    | with_reducible apply Keeps.foldl
    | with_reducible apply Keeps.foldl_fst
    | (with_reducible refine Keeps.ofPair ?_ (by assumption))
    | split
    | dsimp only
    | fail_if_no_progress with_reducible refine Keeps.upd ?_ rfl rfl
    | fail_if_no_progress with_reducible refine Keeps.updMem ?_ (fun c => ?_) rfl rfl
    | (intro)
    | decide

theorem State.loopBegin_keeps {r₀ s : State} (hk : Keeps r₀ s) (tl : TileRef) (ecc : Ecc) :
    Keeps r₀ (s.loopBegin tl ecc) := by
  unfold State.loopBegin
  try dsimp only
  repeat' first
    | with_reducible assumption
    | with_reducible apply Keeps.ite
    | with_reducible apply State.issueFlow_keeps
    | with_reducible apply State.tileFault_keeps
    | with_reducible apply State.flagRead_keeps
    | with_reducible apply State.goTo_keeps
    | with_reducible rfl
    | with_reducible refine Keeps.wfTile (by assumption) ?_ _
    | with_reducible apply Keeps.foldl
    | with_reducible apply Keeps.foldl_fst
    | (with_reducible refine Keeps.ofPair ?_ (by assumption))
    | split
    | dsimp only
    | fail_if_no_progress with_reducible refine Keeps.upd ?_ rfl rfl
    | fail_if_no_progress with_reducible refine Keeps.updMem ?_ (fun c => ?_) rfl rfl
    | (with_reducible refine (by assumption : Canonical _ → Memory.wf _ = true) (by assumption))
    | (intro)
    | decide

theorem State.loopEnd_keeps {r₀ s : State} (hk : Keeps r₀ s) (tl : TileRef) :
    Keeps r₀ (s.loopEnd tl) := by
  unfold State.loopEnd
  try dsimp only
  repeat' first
    | with_reducible assumption
    | with_reducible apply Keeps.ite
    | with_reducible apply State.issueFlow_keeps
    | with_reducible apply State.tileFault_keeps
    | with_reducible apply State.goTo_keeps
    | with_reducible rfl
    | with_reducible refine Keeps.wfTile (by assumption) ?_ _
    | with_reducible apply Keeps.foldl
    | with_reducible apply Keeps.foldl_fst
    | (with_reducible refine Keeps.ofPair ?_ (by assumption))
    | split
    | dsimp only
    | fail_if_no_progress with_reducible refine Keeps.upd ?_ rfl rfl
    | fail_if_no_progress with_reducible refine Keeps.updMem ?_ (fun c => ?_) rfl rfl
    | (with_reducible refine (by assumption : Canonical _ → Memory.wf _ = true) (by assumption))
    | (intro)
    | decide

theorem State.branchOnLoopCount_keeps {r₀ s : State} (hk : Keeps r₀ s) (tl : TileRef) :
    Keeps r₀ (s.branchOnLoopCount tl) := by
  unfold State.branchOnLoopCount
  try dsimp only
  repeat' first
    | with_reducible assumption
    | with_reducible apply Keeps.ite
    | with_reducible apply State.issueFlow_keeps
    | with_reducible apply State.tileFault_keeps
    | with_reducible apply State.goTo_keeps
    | with_reducible rfl
    | with_reducible refine Keeps.wfTile (by assumption) ?_ _
    | with_reducible apply Keeps.foldl
    | with_reducible apply Keeps.foldl_fst
    | (with_reducible refine Keeps.ofPair ?_ (by assumption))
    | split
    | dsimp only
    | fail_if_no_progress with_reducible refine Keeps.upd ?_ rfl rfl
    | fail_if_no_progress with_reducible refine Keeps.updMem ?_ (fun c => ?_) rfl rfl
    | (with_reducible refine (by assumption : Canonical _ → Memory.wf _ = true) (by assumption))
    | (intro)
    | decide

theorem State.endLot_keeps {r₀ s : State} (hk : Keeps r₀ s) (tl : TileRef) : Keeps r₀ (s.endLot tl) := by
  unfold State.endLot
  refine Keeps.ite hk (State.serveFrames_keeps ?_ _)
  refine State.onTile_keeps hk _ _ fun t ht => ?_
  exact ht

theorem State.recordPred_keeps {r₀ s : State} (hk : Keeps r₀ s) (tl : TileRef) (src : ℕ) (holds : Bool) :
    Keeps r₀ (s.recordPred tl src holds) := by
  unfold State.recordPred
  try dsimp only
  repeat' first
    | with_reducible assumption
    | with_reducible apply Keeps.ite
    | with_reducible apply State.stageRecord_keeps
    | with_reducible apply State.onVint_keeps
    | with_reducible rfl
    | with_reducible refine Keeps.wfTile (by assumption) ?_ _
    | with_reducible apply Keeps.foldl
    | with_reducible apply Keeps.foldl_fst
    | (with_reducible refine Keeps.ofPair ?_ (by assumption))
    | split
    | dsimp only
    | fail_if_no_progress with_reducible refine Keeps.upd ?_ rfl rfl
    | fail_if_no_progress with_reducible refine Keeps.updMem ?_ (fun c => ?_) rfl rfl
    | (intro)
    | decide

theorem State.skipSend_keeps {r₀ s : State} (hk : Keeps r₀ s) (tl : TileRef) (empty : Bool) :
    Keeps r₀ (s.skipSend tl empty) := by
  unfold State.skipSend
  try dsimp only
  repeat' first
    | with_reducible assumption
    | with_reducible apply Keeps.ite
    | with_reducible apply State.routeSend_keeps
    | with_reducible rfl
    | with_reducible refine Keeps.wfTile (by assumption) ?_ _
    | with_reducible apply Keeps.foldl
    | with_reducible apply Keeps.foldl_fst
    | (with_reducible refine Keeps.ofPair ?_ (by assumption))
    | split
    | dsimp only
    | fail_if_no_progress with_reducible refine Keeps.upd ?_ rfl rfl
    | fail_if_no_progress with_reducible refine Keeps.updMem ?_ (fun c => ?_) rfl rfl
    | (intro)
    | decide

theorem State.predicate_keeps {r₀ s : State} (hk : Keeps r₀ s) (tl : TileRef) (ecc : Ecc) :
    Keeps r₀ (s.predicate tl ecc) := by
  unfold State.predicate
  try dsimp only
  repeat' first
    | with_reducible assumption
    | with_reducible apply Keeps.ite
    | with_reducible apply State.issueFlow_keeps
    | with_reducible apply State.tileFault_keeps
    | with_reducible apply State.flagRead_keeps
    | with_reducible apply State.failBit_keeps
    | with_reducible apply State.recordPred_keeps
    | with_reducible apply State.endLot_keeps
    | with_reducible apply State.onTile_keeps
    | with_reducible apply State.finish_keeps
    | with_reducible apply State.skipSend_keeps
    | with_reducible apply State.goTo_keeps
    | with_reducible rfl
    | with_reducible refine Keeps.wfTile (by assumption) ?_ _
    | with_reducible apply Keeps.foldl
    | with_reducible apply Keeps.foldl_fst
    | (with_reducible refine Keeps.ofPair ?_ (by assumption))
    | split
    | dsimp only
    | fail_if_no_progress with_reducible refine Keeps.upd ?_ rfl rfl
    | fail_if_no_progress with_reducible refine Keeps.updMem ?_ (fun c => ?_) rfl rfl
    | (with_reducible refine (by assumption : Canonical _ → Memory.wf _ = true) (by assumption))
    | (intro)
    | decide

theorem State.endOfPhase_keeps {r₀ s : State} (hk : Keeps r₀ s) (tl : TileRef) :
    Keeps r₀ (s.endOfPhase tl) := by
  unfold State.endOfPhase
  try dsimp only
  repeat' first
    | with_reducible assumption
    | with_reducible apply Keeps.ite
    | with_reducible apply State.issueFlow_keeps
    | with_reducible apply State.endLot_keeps
    | with_reducible apply State.finish_keeps
    | with_reducible rfl
    | with_reducible refine Keeps.wfTile (by assumption) ?_ _
    | with_reducible apply Keeps.foldl
    | with_reducible apply Keeps.foldl_fst
    | (with_reducible refine Keeps.ofPair ?_ (by assumption))
    | split
    | dsimp only
    | fail_if_no_progress with_reducible refine Keeps.upd ?_ rfl rfl
    | fail_if_no_progress with_reducible refine Keeps.updMem ?_ (fun c => ?_) rfl rfl
    | (with_reducible refine (by assumption : Canonical _ → Memory.wf _ = true) (by assumption))
    | (intro)
    | decide

theorem State.mark_keeps {r₀ s : State} (hk : Keeps r₀ s) (tl : TileRef) (us : ℕ) :
    Keeps r₀ (s.mark tl us) := by
  unfold State.mark
  try dsimp only
  repeat' first
    | with_reducible assumption
    | with_reducible apply Keeps.ite
    | with_reducible apply State.issue_keeps
    | with_reducible apply State.finish_keeps
    | with_reducible apply State.stageRecord_keeps
    | with_reducible apply State.stall_keeps
    | with_reducible apply State.tileFault_keeps
    | with_reducible rfl
    | with_reducible refine Keeps.wfTile (by assumption) ?_ _
    | with_reducible apply Keeps.foldl
    | with_reducible apply Keeps.foldl_fst
    | (with_reducible refine Keeps.ofPair ?_ (by assumption))
    | split
    | dsimp only
    | fail_if_no_progress with_reducible refine Keeps.upd ?_ rfl rfl
    | fail_if_no_progress with_reducible refine Keeps.updMem ?_ (fun c => ?_) rfl rfl
    | (with_reducible refine (by assumption : Canonical _ → Memory.wf _ = true) (by assumption))
    | (intro)
    | decide

theorem State.tileHeartbeat_keeps {r₀ s : State} (hk : Keeps r₀ s) (tl : TileRef) :
    Keeps r₀ (s.tileHeartbeat tl) := by
  unfold State.tileHeartbeat
  try dsimp only
  repeat' first
    | with_reducible assumption
    | with_reducible apply Keeps.ite
    | with_reducible apply State.send_keeps
    | with_reducible apply State.setTile_keeps
    | with_reducible rfl
    | with_reducible refine Keeps.wfTile (by assumption) ?_ _
    | with_reducible apply Keeps.foldl
    | with_reducible apply Keeps.foldl_fst
    | (with_reducible refine Keeps.ofPair ?_ (by assumption))
    | split
    | dsimp only
    | fail_if_no_progress with_reducible refine Keeps.upd ?_ rfl rfl
    | fail_if_no_progress with_reducible refine Keeps.updMem ?_ (fun c => ?_) rfl rfl
    | (intro)
    | decide

theorem State.selfTestComplete_keeps {r₀ s : State} (hk : Keeps r₀ s) (p : ℕ) (x : ℕ) (fails : ℕ) :
    Keeps r₀ (s.selfTestComplete p x fails) := by
  unfold State.selfTestComplete
  try dsimp only
  repeat' first
    | with_reducible assumption
    | with_reducible apply Keeps.ite
    | with_reducible apply State.siteTested_keeps
    | with_reducible apply State.tileFault_keeps
    | with_reducible rfl
    | with_reducible refine Keeps.wfTile (by assumption) ?_ _
    | with_reducible apply Keeps.foldl
    | with_reducible apply Keeps.foldl_fst
    | (with_reducible refine Keeps.ofPair ?_ (by assumption))
    | split
    | dsimp only
    | fail_if_no_progress with_reducible refine Keeps.upd ?_ rfl rfl
    | fail_if_no_progress with_reducible refine Keeps.updMem ?_ (fun c => ?_) rfl rfl
    | (intro)
    | decide

end Sys2Proof.Machine
end

