-- ==== Sys2Proof/Laws/Keeps/StepJob.lean ====
section
/-!
SUPPORT. What the operations of Machine/StepJob.lean keep.
-/
set_option linter.unusedTactic false
set_option linter.unreachableTactic false
namespace Sys2Proof.Machine

theorem State.intake_keeps {r₀ s : State} (hk : Keeps r₀ s) (v : ℕ) (lot : ℕ) (off : ℕ) (bs : List Byte) :
    Keeps r₀ (s.intake v lot off bs).1 := by
  unfold State.intake
  try dsimp only
  repeat' first
    | with_reducible assumption
    | with_reducible apply Keeps.ite
    | with_reducible apply State.openUpTo_keeps
    | with_reducible apply State.onVint_keeps
    | with_reducible rfl
    | with_reducible refine Keeps.wfTile (by assumption) ?_ _
    | with_reducible apply Keeps.foldl
    | with_reducible apply Keeps.foldl_fst
    | (with_reducible refine Keeps.ofPair ?_ (by assumption))
    | split
    | dsimp only
    | fail_if_no_progress with_reducible refine Keeps.upd ?_ rfl rfl
    | fail_if_no_progress with_reducible refine Keeps.updMem ?_ (fun c => ?_) rfl rfl
    | (intro)
    | decide

theorem State.evalIntake_keeps {r₀ s : State} (hk : Keeps r₀ s) (lot : ℕ) (off : ℕ) (bs : List Byte) :
    Keeps r₀ (s.evalIntake lot off bs).1 := by
  unfold State.evalIntake
  try dsimp only
  repeat' first
    | with_reducible assumption
    | with_reducible apply Keeps.ite
    | with_reducible apply State.onJob_keeps
    | with_reducible rfl
    | with_reducible refine Keeps.wfTile (by assumption) ?_ _
    | with_reducible apply Keeps.foldl
    | with_reducible apply Keeps.foldl_fst
    | (with_reducible refine Keeps.ofPair ?_ (by assumption))
    | split
    | dsimp only
    | fail_if_no_progress with_reducible refine Keeps.upd ?_ rfl rfl
    | fail_if_no_progress with_reducible refine Keeps.updMem ?_ (fun c => ?_) rfl rfl
    | (intro)
    | decide

theorem State.dataFeed_keeps {r₀ s : State} (hk : Keeps r₀ s) (h : DctHdr) (v : ℕ) (lot : ℕ) (off : ℕ) (bs : List Byte) (env : Envelope) :
    Keeps r₀ (s.dataFeed h v lot off bs env) := by
  unfold State.dataFeed
  try dsimp only
  repeat' first
    | with_reducible assumption
    | with_reducible apply Keeps.ite
    | with_reducible apply State.dct_keeps
    | with_reducible apply State.ensureActive_keeps
    | with_reducible apply State.evalIntake_keeps
    | with_reducible apply State.intake_keeps
    | with_reducible rfl
    | with_reducible refine Keeps.wfTile (by assumption) ?_ _
    | with_reducible apply Keeps.foldl
    | with_reducible apply Keeps.foldl_fst
    | (with_reducible refine Keeps.ofPair ?_ (by assumption))
    | split
    | dsimp only
    | fail_if_no_progress with_reducible refine Keeps.upd ?_ rfl rfl
    | fail_if_no_progress with_reducible refine Keeps.updMem ?_ (fun c => ?_) rfl rfl
    | (intro)
    | decide

theorem State.boundaryLanes_keeps {r₀ s : State} (hk : Keeps r₀ s) :
    Keeps r₀ (s.boundaryLanes) := by
  unfold State.boundaryLanes
  try dsimp only
  repeat' first
    | with_reducible assumption
    | with_reducible apply Keeps.ite
    | with_reducible apply State.ask_keeps
    | with_reducible apply State.swapLanes_keeps
    | with_reducible rfl
    | with_reducible refine Keeps.wfTile (by assumption) ?_ _
    | with_reducible apply Keeps.foldl
    | with_reducible apply Keeps.foldl_fst
    | (with_reducible refine Keeps.ofPair ?_ (by assumption))
    | split
    | dsimp only
    | fail_if_no_progress with_reducible refine Keeps.upd ?_ rfl rfl
    | fail_if_no_progress with_reducible refine Keeps.updMem ?_ (fun c => ?_) rfl rfl
    | (intro)
    | decide

theorem State.boundaryDue_keeps {r₀ s : State} (hk : Keeps r₀ s) (v : ℕ) :
    Keeps r₀ (s.boundaryDue v) := by
  unfold State.boundaryDue
  try dsimp only
  repeat' first
    | with_reducible assumption
    | with_reducible apply Keeps.ite
    | with_reducible apply State.admitSpares_keeps
    | with_reducible apply State.boundaryLanes_keeps
    | with_reducible apply State.applyKeys_keeps
    | with_reducible apply State.onJob_keeps
    | with_reducible apply State.startCkpt_keeps
    | with_reducible rfl
    | with_reducible refine Keeps.wfTile (by assumption) ?_ _
    | with_reducible apply Keeps.foldl
    | with_reducible apply Keeps.foldl_fst
    | (with_reducible refine Keeps.ofPair ?_ (by assumption))
    | split
    | dsimp only
    | fail_if_no_progress with_reducible refine Keeps.upd ?_ rfl rfl
    | fail_if_no_progress with_reducible refine Keeps.updMem ?_ (fun c => ?_) rfl rfl
    | (intro)
    | decide

theorem State.commitVintage_keeps {r₀ s : State} (hk : Keeps r₀ s) (v : ℕ) :
    Keeps r₀ (s.commitVintage v) := by
  unfold State.commitVintage
  try dsimp only
  repeat' first
    | with_reducible assumption
    | with_reducible apply Keeps.ite
    | with_reducible apply State.rotateSnapshot_keeps
    | with_reducible apply State.refreshOpen_keeps
    | with_reducible apply State.onJob_keeps
    | with_reducible apply State.startRacking_keeps
    | with_reducible apply State.advanceScales_keeps
    | with_reducible apply State.ledger_keeps
    | with_reducible apply State.clearRound_keeps
    | with_reducible rfl
    | with_reducible refine Keeps.wfTile (by assumption) ?_ _
    | with_reducible apply Keeps.foldl
    | with_reducible apply Keeps.foldl_fst
    | (with_reducible refine Keeps.ofPair ?_ (by assumption))
    | split
    | dsimp only
    | fail_if_no_progress with_reducible refine Keeps.upd ?_ rfl rfl
    | fail_if_no_progress with_reducible refine Keeps.updMem ?_ (fun c => ?_) rfl rfl
    | (intro)
    | decide

theorem State.takeCommit_keeps {r₀ s : State} (hk : Keeps r₀ s) (v : ℕ) (pause : Bool) :
    Keeps r₀ (s.takeCommit v pause) := by
  unfold State.takeCommit
  try dsimp only
  repeat' first
    | with_reducible assumption
    | with_reducible apply Keeps.ite
    | with_reducible apply State.onJob_keeps
    | with_reducible apply State.commitVintage_keeps
    | with_reducible apply State.boundaryDue_keeps
    | with_reducible apply State.event_keeps
    | with_reducible apply State.allTiles_keeps
    | with_reducible apply boundaryTile_tkeeps
    | with_reducible apply State.pauseJob_keeps
    | with_reducible apply State.beginStep_keeps
    | with_reducible apply State.startEval_keeps
    | with_reducible rfl
    | with_reducible refine Keeps.wfTile (by assumption) ?_ _
    | with_reducible apply Keeps.foldl
    | with_reducible apply Keeps.foldl_fst
    | (with_reducible refine Keeps.ofPair ?_ (by assumption))
    | split
    | dsimp only
    | fail_if_no_progress with_reducible refine Keeps.upd ?_ rfl rfl
    | fail_if_no_progress with_reducible refine Keeps.updMem ?_ (fun c => ?_) rfl rfl
    | (intro)
    | decide

theorem State.commitIn_keeps {r₀ s : State} (hk : Keeps r₀ s) (v : ℕ) (pause : Bool) :
    Keeps r₀ (s.commitIn v pause) := by
  unfold State.commitIn
  try dsimp only
  repeat' first
    | with_reducible assumption
    | with_reducible apply Keeps.ite
    | with_reducible apply State.onJob_keeps
    | with_reducible apply State.takeCommit_keeps
    | with_reducible rfl
    | with_reducible refine Keeps.wfTile (by assumption) ?_ _
    | with_reducible apply Keeps.foldl
    | with_reducible apply Keeps.foldl_fst
    | (with_reducible refine Keeps.ofPair ?_ (by assumption))
    | split
    | dsimp only
    | fail_if_no_progress with_reducible refine Keeps.upd ?_ rfl rfl
    | fail_if_no_progress with_reducible refine Keeps.updMem ?_ (fun c => ?_) rfl rfl
    | (intro)
    | decide

theorem State.tileGraft_keeps {r₀ s : State} (hk : Keeps r₀ s) (tl : TileRef) (quickFail : List ℕ) :
    Keeps r₀ (s.tileGraft tl quickFail) := by
  unfold State.tileGraft
  try dsimp only
  repeat' first
    | with_reducible assumption
    | with_reducible apply Keeps.ite
    | with_reducible apply State.graftTile_keeps
    | with_reducible apply State.commitIn_keeps
    | with_reducible apply State.onJob_keeps
    | with_reducible rfl
    | with_reducible refine Keeps.wfTile (by assumption) ?_ _
    | with_reducible apply Keeps.foldl
    | with_reducible apply Keeps.foldl_fst
    | (with_reducible refine Keeps.ofPair ?_ (by assumption))
    | split
    | dsimp only
    | fail_if_no_progress with_reducible refine Keeps.upd ?_ rfl rfl
    | fail_if_no_progress with_reducible refine Keeps.updMem ?_ (fun c => ?_) rfl rfl
    | (intro)
    | decide

theorem State.serveAll_keeps {r₀ s : State} (hk : Keeps r₀ s) :
    Keeps r₀ (s.serveAll) := by
  unfold State.serveAll
  try dsimp only
  repeat' first
    | with_reducible assumption
    | with_reducible apply Keeps.ite
    | with_reducible apply State.serveFrames_keeps
    | with_reducible rfl
    | with_reducible refine Keeps.wfTile (by assumption) ?_ _
    | with_reducible apply Keeps.foldl
    | with_reducible apply Keeps.foldl_fst
    | (with_reducible refine Keeps.ofPair ?_ (by assumption))
    | split
    | dsimp only
    | fail_if_no_progress with_reducible refine Keeps.upd ?_ rfl rfl
    | fail_if_no_progress with_reducible refine Keeps.updMem ?_ (fun c => ?_) rfl rfl
    | (intro)
    | decide

theorem State.evaluationEnd_keeps {r₀ s : State} (hk : Keeps r₀ s) :
    Keeps r₀ (s.evaluationEnd) := by
  unfold State.evaluationEnd
  try dsimp only
  repeat' first
    | with_reducible assumption
    | with_reducible apply Keeps.ite
    | with_reducible apply State.onJob_keeps
    | with_reducible apply State.event_keeps
    | with_reducible apply State.ledger_keeps
    | with_reducible apply State.serveAll_keeps
    | with_reducible apply State.allTiles_keeps
    | with_reducible apply boundaryTile_tkeeps
    | with_reducible rfl
    | with_reducible refine Keeps.wfTile (by assumption) ?_ _
    | with_reducible apply Keeps.foldl
    | with_reducible apply Keeps.foldl_fst
    | (with_reducible refine Keeps.ofPair ?_ (by assumption))
    | split
    | dsimp only
    | fail_if_no_progress with_reducible refine Keeps.upd ?_ rfl rfl
    | fail_if_no_progress with_reducible refine Keeps.updMem ?_ (fun c => ?_) rfl rfl
    | (intro)
    | decide

theorem State.clearRegions_keeps {r₀ s : State} (hk : Keeps r₀ s) (ty : RegionTy) :
    Keeps r₀ (s.clearRegions ty) := by
  unfold State.clearRegions
  try dsimp only
  repeat' first
    | with_reducible assumption
    | with_reducible apply Keeps.ite
    | with_reducible rfl
    | with_reducible refine Keeps.wfTile (by assumption) ?_ _
    | with_reducible apply Keeps.foldl
    | with_reducible apply Keeps.foldl_fst
    | (with_reducible refine Keeps.ofPair ?_ (by assumption))
    | split
    | dsimp only
    | fail_if_no_progress with_reducible refine Keeps.upd ?_ rfl rfl
    | fail_if_no_progress with_reducible refine Keeps.updMem ?_ (fun c => ?_) rfl rfl
    | with_reducible apply Memory.wf_nil
    | with_reducible apply Memory.wf_writeLE
    | with_reducible apply Memory.wf_writeN
    | with_reducible apply Memory.wf_write
    | with_reducible apply Memory.wf_clear
    | with_reducible apply Memory.wf_copy
    | with_reducible apply wf_putF32s
    | with_reducible apply wf_tkWrite
    | with_reducible apply wf_putCodes
    | with_reducible apply wf_foldl
    | with_reducible apply store_foldl
    | with_reducible apply store_foldl_fst
    | with_reducible apply wf_ite
    | with_reducible refine Canonical.mem (Keeps.canon ?_ (by assumption))
    | (with_reducible refine (by assumption : Canonical _ → Memory.wf _ = true) (by assumption))
    | (intro)
    | decide

theorem State.rolledTile_tkeeps (graft : Bool) (t : Tile) : TKeeps t (State.rolledTile graft t) := by
  unfold State.rolledTile
  try dsimp only
  repeat' first
    | with_reducible assumption
    | with_reducible apply Keeps.ite
    | with_reducible apply dropTransient_tkeeps
    | with_reducible apply clearTile_tkeeps
    | with_reducible apply haltTile_tkeeps
    | with_reducible rfl
    | with_reducible refine Keeps.wfTile (by assumption) ?_ _
    | with_reducible apply Keeps.foldl
    | with_reducible apply Keeps.foldl_fst
    | (with_reducible refine Keeps.ofPair ?_ (by assumption))
    | split
    | dsimp only
    | fail_if_no_progress with_reducible refine Keeps.upd ?_ rfl rfl
    | fail_if_no_progress with_reducible refine Keeps.updMem ?_ (fun c => ?_) rfl rfl
    | with_reducible apply Memory.wf_nil
    | with_reducible apply Memory.wf_writeLE
    | with_reducible apply Memory.wf_writeN
    | with_reducible apply Memory.wf_write
    | with_reducible apply Memory.wf_clear
    | with_reducible apply Memory.wf_copy
    | with_reducible apply wf_putF32s
    | with_reducible apply wf_tkWrite
    | with_reducible apply wf_putCodes
    | with_reducible apply wf_foldl
    | with_reducible apply store_foldl
    | with_reducible apply store_foldl_fst
    | with_reducible apply wf_ite
    | with_reducible refine Canonical.mem (Keeps.canon ?_ (by assumption))
    | (with_reducible refine (by assumption : Canonical _ → Memory.wf _ = true) (by assumption))
    | (intro)
    | decide

theorem State.testFaulted_keeps {r₀ s : State} (hk : Keeps r₀ s) : Keeps r₀ s.testFaulted := by
  unfold State.testFaulted
  exact Keeps.foldl _ hk fun s _ h => Keeps.ite (State.tileSt_keeps (State.setSite_keeps h _ _ _) _ _) h

theorem State.restartRacking_keeps {r₀ s : State} (hk : Keeps r₀ s) :
    Keeps r₀ (s.restartRacking) := by
  unfold State.restartRacking
  try dsimp only
  repeat' first
    | with_reducible assumption
    | with_reducible apply Keeps.ite
    | with_reducible apply State.onJob_keeps
    | with_reducible apply State.rackPart_keeps
    | with_reducible apply State.unrack_keeps
    | with_reducible rfl
    | with_reducible refine Keeps.wfTile (by assumption) ?_ _
    | with_reducible apply Keeps.foldl
    | with_reducible apply Keeps.foldl_fst
    | (with_reducible refine Keeps.ofPair ?_ (by assumption))
    | split
    | dsimp only
    | fail_if_no_progress with_reducible refine Keeps.upd ?_ rfl rfl
    | fail_if_no_progress with_reducible refine Keeps.updMem ?_ (fun c => ?_) rfl rfl
    | (intro)
    | decide

theorem State.raiseAttempts_keeps {r₀ s : State} (hk : Keeps r₀ s) (a : ℕ) :
    Keeps r₀ (s.raiseAttempts a) := by
  unfold State.raiseAttempts
  try dsimp only
  repeat' first
    | with_reducible assumption
    | with_reducible apply Keeps.ite
    | with_reducible apply State.refreshOpen_keeps
    | with_reducible apply State.onJob_keeps
    | with_reducible rfl
    | with_reducible refine Keeps.wfTile (by assumption) ?_ _
    | with_reducible apply Keeps.foldl
    | with_reducible apply Keeps.foldl_fst
    | (with_reducible refine Keeps.ofPair ?_ (by assumption))
    | split
    | dsimp only
    | fail_if_no_progress with_reducible refine Keeps.upd ?_ rfl rfl
    | fail_if_no_progress with_reducible refine Keeps.updMem ?_ (fun c => ?_) rfl rfl
    | (intro)
    | decide

theorem State.rollbackIn_keeps {r₀ s : State} (hk : Keeps r₀ s) (v a stop : ℕ) : Keeps r₀ (s.rollbackIn v a stop) := by
  unfold State.rollbackIn
  refine Keeps.ite hk ?_
  extract_lets s0 wasEval due s1 tested roll s2 s3 s4 s5 s6 s7 cls
  have h1 : Keeps r₀ s1 := State.haltStages_keeps (State.testFaulted_keeps (State.endCheckWait_keeps hk))
  have h2 : Keeps r₀ s2 := Keeps.mapTiles h1 roll (fun _ => rfl) fun x hx => by
    unfold roll; dsimp only; split; exact hx; exact rolledTile_tkeeps _ _ hx
  have h3 : Keeps r₀ s3 := State.clearRegions_keeps (State.clearRegions_keeps h2 _) _
  have h4 : Keeps r₀ s4 := Keeps.ite (State.onJob_keeps (State.clearRegions_keeps h3 _) _) h3
  have h5 : Keeps r₀ s5 := State.restartRacking_keeps (State.raiseAttempts_keeps (State.decantPages_keeps h4) _)
  have h6 : Keeps r₀ s6 := State.phase_keeps h5 _
  have h7 : Keeps r₀ s7 := State.onJob_keeps (State.clearRound_keeps h6) _
  exact Keeps.ite (State.event_keeps (State.enterPaused_keeps (State.onJob_keeps h7 _)) _ _ _ _ _)
    (State.reportDecant_keeps (State.event_keeps h7 _ _ _ _ _))

theorem State.replayStart_keeps {r₀ s : State} (hk : Keeps r₀ s) :
    Keeps r₀ (s.replayStart) := by
  unfold State.replayStart
  try dsimp only
  repeat' first
    | with_reducible assumption
    | with_reducible apply Keeps.ite
    | with_reducible apply State.phase_keeps
    | with_reducible apply State.onJob_keeps
    | with_reducible apply State.serveAll_keeps
    | with_reducible apply State.allTiles_keeps
    | with_reducible apply State.startEval_keeps
    | with_reducible rfl
    | with_reducible refine Keeps.wfTile (by assumption) ?_ _
    | with_reducible apply Keeps.foldl
    | with_reducible apply Keeps.foldl_fst
    | (with_reducible refine Keeps.ofPair ?_ (by assumption))
    | split
    | dsimp only
    | fail_if_no_progress with_reducible refine Keeps.upd ?_ rfl rfl
    | fail_if_no_progress with_reducible refine Keeps.updMem ?_ (fun c => ?_) rfl rfl
    | (intro)
    | decide

theorem State.rackBit_keeps {r₀ s : State} (hk : Keeps r₀ s) (f : Field) (p : ℕ) (on : Bool) :
    Keeps r₀ (s.rackBit f p on) := by
  unfold State.rackBit
  try dsimp only
  repeat' first
    | with_reducible assumption
    | with_reducible apply Keeps.ite
    | with_reducible rfl
    | with_reducible refine Keeps.wfTile (by assumption) ?_ _
    | with_reducible apply Keeps.foldl
    | with_reducible apply Keeps.foldl_fst
    | (with_reducible refine Keeps.ofPair ?_ (by assumption))
    | split
    | dsimp only
    | fail_if_no_progress with_reducible refine Keeps.upd ?_ rfl rfl
    | fail_if_no_progress with_reducible refine Keeps.updMem ?_ (fun c => ?_) rfl rfl
    | (intro)
    | decide

theorem State.rackMiss_keeps {r₀ s : State} (hk : Keeps r₀ s) :
    Keeps r₀ (s.rackMiss) := by
  unfold State.rackMiss
  try dsimp only
  repeat' first
    | with_reducible assumption
    | with_reducible apply Keeps.ite
    | with_reducible rfl
    | with_reducible refine Keeps.wfTile (by assumption) ?_ _
    | with_reducible apply Keeps.foldl
    | with_reducible apply Keeps.foldl_fst
    | (with_reducible refine Keeps.ofPair ?_ (by assumption))
    | split
    | dsimp only
    | fail_if_no_progress with_reducible refine Keeps.upd ?_ rfl rfl
    | fail_if_no_progress with_reducible refine Keeps.updMem ?_ (fun c => ?_) rfl rfl
    | (intro)
    | decide

theorem State.rackPageIn_keeps {r₀ s : State} (hk : Keeps r₀ s) (buddy : ℕ) (p : ℕ) (page : ℕ) (bs : List Byte) :
    Keeps r₀ (s.rackPageIn buddy p page bs) := by
  unfold State.rackPageIn
  try dsimp only
  repeat' first
    | with_reducible assumption
    | with_reducible apply Keeps.ite
    | with_reducible apply State.rackBit_keeps
    | with_reducible rfl
    | with_reducible refine Keeps.wfTile (by assumption) ?_ _
    | with_reducible apply Keeps.foldl
    | with_reducible apply Keeps.foldl_fst
    | (with_reducible refine Keeps.ofPair ?_ (by assumption))
    | split
    | dsimp only
    | fail_if_no_progress with_reducible refine Keeps.upd ?_ rfl rfl
    | fail_if_no_progress with_reducible refine Keeps.updMem ?_ (fun c => ?_) rfl rfl
    | with_reducible apply Memory.wf_nil
    | with_reducible apply Memory.wf_writeLE
    | with_reducible apply Memory.wf_writeN
    | with_reducible apply Memory.wf_write
    | with_reducible apply Memory.wf_clear
    | with_reducible apply Memory.wf_copy
    | with_reducible apply wf_putF32s
    | with_reducible apply wf_tkWrite
    | with_reducible apply wf_putCodes
    | with_reducible apply wf_foldl
    | with_reducible apply store_foldl
    | with_reducible apply store_foldl_fst
    | with_reducible apply wf_ite
    | with_reducible refine Canonical.mem (Keeps.canon ?_ (by assumption))
    | (with_reducible refine (by assumption : Canonical _ → Memory.wf _ = true) (by assumption))
    | (intro)
    | decide

theorem State.rackDigestIn_keeps {r₀ s : State} (hk : Keeps r₀ s) (buddy : ℕ) (p : ℕ) (v : ℕ) (d : BitVec 384) :
    Keeps r₀ (s.rackDigestIn buddy p v d) := by
  unfold State.rackDigestIn
  try dsimp only
  repeat' first
    | with_reducible assumption
    | with_reducible apply Keeps.ite
    | with_reducible apply State.send_keeps
    | with_reducible apply State.rackBit_keeps
    | with_reducible apply State.rackMiss_keeps
    | with_reducible rfl
    | with_reducible refine Keeps.wfTile (by assumption) ?_ _
    | with_reducible apply Keeps.foldl
    | with_reducible apply Keeps.foldl_fst
    | (with_reducible refine Keeps.ofPair ?_ (by assumption))
    | split
    | dsimp only
    | fail_if_no_progress with_reducible refine Keeps.upd ?_ rfl rfl
    | fail_if_no_progress with_reducible refine Keeps.updMem ?_ (fun c => ?_) rfl rfl
    | (intro)
    | decide

theorem State.rackAckIn_keeps {r₀ s : State} (hk : Keeps r₀ s) (buddy : ℕ) (p : ℕ) (v : ℕ) (ok : Bool) :
    Keeps r₀ (s.rackAckIn buddy p v ok) := by
  unfold State.rackAckIn
  try dsimp only
  repeat' first
    | with_reducible assumption
    | with_reducible apply Keeps.ite
    | with_reducible apply State.settleRack_keeps
    | with_reducible apply State.rackBit_keeps
    | with_reducible apply State.onJob_keeps
    | with_reducible apply State.rackMiss_keeps
    | with_reducible apply State.errRecord_keeps
    | with_reducible apply State.failBit_keeps
    | with_reducible apply State.rackPart_keeps
    | with_reducible apply State.unrack_keeps
    | with_reducible rfl
    | with_reducible refine Keeps.wfTile (by assumption) ?_ _
    | with_reducible apply Keeps.foldl
    | with_reducible apply Keeps.foldl_fst
    | (with_reducible refine Keeps.ofPair ?_ (by assumption))
    | split
    | dsimp only
    | fail_if_no_progress with_reducible refine Keeps.upd ?_ rfl rfl
    | fail_if_no_progress with_reducible refine Keeps.updMem ?_ (fun c => ?_) rfl rfl
    | (intro)
    | decide

theorem State.ledgerPull_keeps {r₀ s : State} (hk : Keeps r₀ s) (h : DctHdr) (p : ℕ) (n : ℕ) (first : ℕ) :
    Keeps r₀ (s.ledgerPull h p n first) := by
  unfold State.ledgerPull
  try dsimp only
  repeat' first
    | with_reducible assumption
    | with_reducible apply Keeps.ite
    | with_reducible apply State.dct_keeps
    | with_reducible apply State.onPart_keeps
    | with_reducible rfl
    | with_reducible refine Keeps.wfTile (by assumption) ?_ _
    | with_reducible apply Keeps.foldl
    | with_reducible apply Keeps.foldl_fst
    | (with_reducible refine Keeps.ofPair ?_ (by assumption))
    | split
    | dsimp only
    | fail_if_no_progress with_reducible refine Keeps.upd ?_ rfl rfl
    | fail_if_no_progress with_reducible refine Keeps.updMem ?_ (fun c => ?_) rfl rfl
    | (intro)
    | decide

theorem State.onStream_keeps {r₀ s : State} (hk : Keeps r₀ s) (p : ℕ) (f : Stream2 → Stream2) :
    Keeps r₀ (s.onStream p f) := by
  unfold State.onStream
  try dsimp only
  repeat' first
    | with_reducible assumption
    | with_reducible apply Keeps.ite
    | with_reducible apply State.onJob_keeps
    | with_reducible rfl
    | with_reducible refine Keeps.wfTile (by assumption) ?_ _
    | with_reducible apply Keeps.foldl
    | with_reducible apply Keeps.foldl_fst
    | (with_reducible refine Keeps.ofPair ?_ (by assumption))
    | split
    | dsimp only
    | fail_if_no_progress with_reducible refine Keeps.upd ?_ rfl rfl
    | fail_if_no_progress with_reducible refine Keeps.updMem ?_ (fun c => ?_) rfl rfl
    | (intro)
    | decide

theorem State.ckptOutcome_keeps {r₀ s : State} (hk : Keeps r₀ s) :
    Keeps r₀ (s.ckptOutcome) := by
  unfold State.ckptOutcome
  try dsimp only
  repeat' first
    | with_reducible assumption
    | with_reducible apply Keeps.ite
    | with_reducible apply State.nextObject_keeps
    | with_reducible apply State.ledger_keeps
    | with_reducible apply State.onJob_keeps
    | with_reducible apply State.send_keeps
    | with_reducible rfl
    | with_reducible refine Keeps.wfTile (by assumption) ?_ _
    | with_reducible apply Keeps.foldl
    | with_reducible apply Keeps.foldl_fst
    | (with_reducible refine Keeps.ofPair ?_ (by assumption))
    | split
    | dsimp only
    | fail_if_no_progress with_reducible refine Keeps.upd ?_ rfl rfl
    | fail_if_no_progress with_reducible refine Keeps.updMem ?_ (fun c => ?_) rfl rfl
    | (intro)
    | decide

theorem State.objectAck_keeps {r₀ s : State} (hk : Keeps r₀ s) (p : ℕ) (d : BitVec 384) :
    Keeps r₀ (s.objectAck p d) := by
  unfold State.objectAck
  try dsimp only
  repeat' first
    | with_reducible assumption
    | with_reducible apply Keeps.ite
    | with_reducible apply State.ckptOutcome_keeps
    | with_reducible apply State.onStream_keeps
    | with_reducible rfl
    | with_reducible refine Keeps.wfTile (by assumption) ?_ _
    | with_reducible apply Keeps.foldl
    | with_reducible apply Keeps.foldl_fst
    | (with_reducible refine Keeps.ofPair ?_ (by assumption))
    | split
    | dsimp only
    | fail_if_no_progress with_reducible refine Keeps.upd ?_ rfl rfl
    | fail_if_no_progress with_reducible refine Keeps.updMem ?_ (fun c => ?_) rfl rfl
    | (intro)
    | decide

theorem State.objectTimeout_keeps {r₀ s : State} (hk : Keeps r₀ s) (p : ℕ) :
    Keeps r₀ (s.objectTimeout p) := by
  unfold State.objectTimeout
  try dsimp only
  repeat' first
    | with_reducible assumption
    | with_reducible apply Keeps.ite
    | with_reducible apply State.ckptOutcome_keeps
    | with_reducible apply State.onStream_keeps
    | with_reducible apply State.sendObject_keeps
    | with_reducible rfl
    | with_reducible refine Keeps.wfTile (by assumption) ?_ _
    | with_reducible apply Keeps.foldl
    | with_reducible apply Keeps.foldl_fst
    | (with_reducible refine Keeps.ofPair ?_ (by assumption))
    | split
    | dsimp only
    | fail_if_no_progress with_reducible refine Keeps.upd ?_ rfl rfl
    | fail_if_no_progress with_reducible refine Keeps.updMem ?_ (fun c => ?_) rfl rfl
    | (intro)
    | decide

theorem State.ckptDeadline_keeps {r₀ s : State} (hk : Keeps r₀ s) :
    Keeps r₀ (s.ckptDeadline) := by
  unfold State.ckptDeadline
  try dsimp only
  repeat' first
    | with_reducible assumption
    | with_reducible apply Keeps.ite
    | with_reducible apply State.ckptOutcome_keeps
    | with_reducible apply State.onJob_keeps
    | with_reducible rfl
    | with_reducible refine Keeps.wfTile (by assumption) ?_ _
    | with_reducible apply Keeps.foldl
    | with_reducible apply Keeps.foldl_fst
    | (with_reducible refine Keeps.ofPair ?_ (by assumption))
    | split
    | dsimp only
    | fail_if_no_progress with_reducible refine Keeps.upd ?_ rfl rfl
    | fail_if_no_progress with_reducible refine Keeps.updMem ?_ (fun c => ?_) rfl rfl
    | (intro)
    | decide

theorem State.manifestWrite_keeps {r₀ s : State} (hk : Keeps r₀ s) :
    Keeps r₀ (s.manifestWrite) := by
  unfold State.manifestWrite
  try dsimp only
  repeat' first
    | with_reducible assumption
    | with_reducible apply Keeps.ite
    | with_reducible apply State.sendTo_keeps
    | with_reducible apply State.onJob_keeps
    | with_reducible rfl
    | with_reducible refine Keeps.wfTile (by assumption) ?_ _
    | with_reducible apply Keeps.foldl
    | with_reducible apply Keeps.foldl_fst
    | (with_reducible refine Keeps.ofPair ?_ (by assumption))
    | split
    | dsimp only
    | fail_if_no_progress with_reducible refine Keeps.upd ?_ rfl rfl
    | fail_if_no_progress with_reducible refine Keeps.updMem ?_ (fun c => ?_) rfl rfl
    | (intro)
    | decide

theorem State.manifestAck_keeps {r₀ s : State} (hk : Keeps r₀ s) :
    Keeps r₀ (s.manifestAck) := by
  unfold State.manifestAck
  try dsimp only
  repeat' first
    | with_reducible assumption
    | with_reducible apply Keeps.ite
    | with_reducible apply State.event_keeps
    | with_reducible apply State.ledger_keeps
    | with_reducible apply State.onJob_keeps
    | with_reducible rfl
    | with_reducible refine Keeps.wfTile (by assumption) ?_ _
    | with_reducible apply Keeps.foldl
    | with_reducible apply Keeps.foldl_fst
    | (with_reducible refine Keeps.ofPair ?_ (by assumption))
    | split
    | dsimp only
    | fail_if_no_progress with_reducible refine Keeps.upd ?_ rfl rfl
    | fail_if_no_progress with_reducible refine Keeps.updMem ?_ (fun c => ?_) rfl rfl
    | (intro)
    | decide

end Sys2Proof.Machine
end

