-- ==== Sys2Proof/Laws/Keeps/StepCtl.lean ====
section
/-!
SUPPORT. What the operations of Machine/StepCtl.lean keep.
-/
set_option linter.unusedTactic false
set_option linter.unreachableTactic false
namespace Sys2Proof.Machine

theorem State.newCounts_keeps {r₀ s : State} (hk : Keeps r₀ s) : Keeps r₀ s.newCounts := by
  have h := State.allTiles_keeps hk (fun t => { t with ueInJob := 0, raceInJob := 0 }) fun _ => id
  unfold State.newCounts
  exact Keeps.maps h rfl rfl (fun c => ⟨(h.canon c).tiles, (h.canon c).stores⟩) (fun c => (h.canon c).parts)
    (fun c => (h.canon c).ports) (fun c => Sparse.wf_mapV (h.canon c).memStacks) (fun c => (h.canon c).sites) rfl rfl

theorem State.agreeEpoch_keeps {r₀ s : State} (hk : Keeps r₀ s) :
    Keeps r₀ (s.agreeEpoch) := by
  unfold State.agreeEpoch
  try dsimp only
  repeat' first
    | with_reducible assumption
    | with_reducible apply Keeps.ite
    | with_reducible apply State.send_keeps
    | with_reducible apply State.useFree_keeps
    | with_reducible rfl
    | with_reducible refine Keeps.wfTile (by assumption) ?_ _
    | with_reducible apply Keeps.foldl
    | with_reducible apply Keeps.foldl_fst
    | (with_reducible refine Keeps.ofPair ?_ (by assumption))
    | split
    | dsimp only
    | fail_if_no_progress with_reducible refine Keeps.upd ?_ rfl rfl
    | fail_if_no_progress with_reducible refine Keeps.updMem ?_ (fun c => ?_) rfl rfl
    | (intro)
    | decide

theorem State.epochStart_keeps {r₀ s : State} (hk : Keeps r₀ s) :
    Keeps r₀ (s.epochStart) := by
  unfold State.epochStart
  try dsimp only
  repeat' first
    | with_reducible assumption
    | with_reducible apply Keeps.ite
    | with_reducible rfl
    | with_reducible refine Keeps.wfTile (by assumption) ?_ _
    | with_reducible apply Keeps.foldl
    | with_reducible apply Keeps.foldl_fst
    | (with_reducible refine Keeps.ofPair ?_ (by assumption))
    | split
    | dsimp only
    | fail_if_no_progress with_reducible refine Keeps.upd ?_ rfl rfl
    | fail_if_no_progress with_reducible refine Keeps.updMem ?_ (fun c => ?_) rfl rfl
    | (intro)
    | decide

theorem State.stepOp_keeps {r₀ s : State} (hk : Keeps r₀ s) (h : DctHdr) (c : Instr) (l : List ℕ) (ok : Bool) (check : ℕ) (run : State → State) (hrun : ∀ s, Keeps r₀ s → Keeps r₀ (run s)) :
    Keeps r₀ (s.stepOp h c l ok check run) := by
  unfold State.stepOp
  try dsimp only
  repeat' first
    | with_reducible assumption
    | with_reducible apply hrun
    | with_reducible apply Keeps.ite
    | with_reducible apply State.dct_keeps
    | with_reducible apply State.ensureActive_keeps
    | with_reducible rfl
    | with_reducible refine Keeps.wfTile (by assumption) ?_ _
    | with_reducible apply Keeps.foldl
    | with_reducible apply Keeps.foldl_fst
    | (with_reducible refine Keeps.ofPair ?_ (by assumption))
    | split
    | dsimp only
    | fail_if_no_progress with_reducible refine Keeps.upd ?_ rfl rfl
    | fail_if_no_progress with_reducible refine Keeps.updMem ?_ (fun c => ?_) rfl rfl
    | (intro)
    | decide

theorem State.startRun_keeps {r₀ s : State} (hk : Keeps r₀ s) :
    Keeps r₀ (s.startRun) := by
  unfold State.startRun
  try dsimp only
  repeat' first
    | with_reducible assumption
    | with_reducible apply Keeps.ite
    | with_reducible apply State.agreeEpoch_keeps
    | with_reducible apply State.toState_keeps
    | with_reducible apply State.newCounts_keeps
    | with_reducible apply State.beginStep_keeps
    | with_reducible apply State.startRacking_keeps
    | with_reducible apply State.rotateSnapshot_keeps
    | with_reducible rfl
    | with_reducible refine Keeps.wfTile (by assumption) ?_ _
    | with_reducible apply Keeps.foldl
    | with_reducible apply Keeps.foldl_fst
    | (with_reducible refine Keeps.ofPair ?_ (by assumption))
    | split
    | dsimp only
    | fail_if_no_progress with_reducible refine Keeps.upd ?_ rfl rfl
    | fail_if_no_progress with_reducible refine Keeps.updMem ?_ (fun c => ?_) rfl rfl
    | (intro)
    | decide

theorem State.start_keeps {r₀ s : State} (hk : Keeps r₀ s) (h : DctHdr) :
    Keeps r₀ (s.start h) := by
  unfold State.start
  try dsimp only
  repeat' first
    | with_reducible assumption
    | with_reducible apply Keeps.ite
    | with_reducible apply State.stepOp_keeps
    | with_reducible apply State.startRun_keeps
    | with_reducible rfl
    | with_reducible refine Keeps.wfTile (by assumption) ?_ _
    | with_reducible apply Keeps.foldl
    | with_reducible apply Keeps.foldl_fst
    | (with_reducible refine Keeps.ofPair ?_ (by assumption))
    | split
    | dsimp only
    | fail_if_no_progress with_reducible refine Keeps.upd ?_ rfl rfl
    | fail_if_no_progress with_reducible refine Keeps.updMem ?_ (fun c => ?_) rfl rfl
    | (intro)
    | decide

theorem State.resumeRun_keeps {r₀ s : State} (hk : Keeps r₀ s) :
    Keeps r₀ (s.resumeRun) := by
  unfold State.resumeRun
  try dsimp only
  repeat' first
    | with_reducible assumption
    | with_reducible apply Keeps.ite
    | with_reducible apply State.beginStep_keeps
    | with_reducible apply State.toState_keeps
    | with_reducible apply State.serveAll_keeps
    | with_reducible apply State.allTiles_keeps
    | with_reducible rfl
    | with_reducible refine Keeps.wfTile (by assumption) ?_ _
    | with_reducible apply Keeps.foldl
    | with_reducible apply Keeps.foldl_fst
    | (with_reducible refine Keeps.ofPair ?_ (by assumption))
    | split
    | dsimp only
    | fail_if_no_progress with_reducible refine Keeps.upd ?_ rfl rfl
    | fail_if_no_progress with_reducible refine Keeps.updMem ?_ (fun c => ?_) rfl rfl
    | (intro)
    | decide

theorem State.resume_keeps {r₀ s : State} (hk : Keeps r₀ s) (h : DctHdr) :
    Keeps r₀ (s.resume h) := by
  unfold State.resume
  try dsimp only
  repeat' first
    | with_reducible assumption
    | with_reducible apply Keeps.ite
    | with_reducible apply State.stepOp_keeps
    | with_reducible apply State.resumeRun_keeps
    | with_reducible rfl
    | with_reducible refine Keeps.wfTile (by assumption) ?_ _
    | with_reducible apply Keeps.foldl
    | with_reducible apply Keeps.foldl_fst
    | (with_reducible refine Keeps.ofPair ?_ (by assumption))
    | split
    | dsimp only
    | fail_if_no_progress with_reducible refine Keeps.upd ?_ rfl rfl
    | fail_if_no_progress with_reducible refine Keeps.updMem ?_ (fun c => ?_) rfl rfl
    | (intro)
    | decide

theorem State.setReq_keeps {r₀ s : State} (hk : Keeps r₀ s) (f : Field) :
    Keeps r₀ (s.setReq f) := by
  unfold State.setReq
  try dsimp only
  repeat' first
    | with_reducible assumption
    | with_reducible apply Keeps.ite
    | with_reducible rfl
    | with_reducible refine Keeps.wfTile (by assumption) ?_ _
    | with_reducible apply Keeps.foldl
    | with_reducible apply Keeps.foldl_fst
    | (with_reducible refine Keeps.ofPair ?_ (by assumption))
    | split
    | dsimp only
    | fail_if_no_progress with_reducible refine Keeps.upd ?_ rfl rfl
    | fail_if_no_progress with_reducible refine Keeps.updMem ?_ (fun c => ?_) rfl rfl
    | (intro)
    | decide

theorem State.pause_keeps {r₀ s : State} (hk : Keeps r₀ s) (h : DctHdr) :
    Keeps r₀ (s.pause h) := by
  unfold State.pause
  try dsimp only
  repeat' first
    | with_reducible assumption
    | with_reducible apply Keeps.ite
    | with_reducible apply State.stepOp_keeps
    | with_reducible apply State.setReq_keeps
    | with_reducible rfl
    | with_reducible refine Keeps.wfTile (by assumption) ?_ _
    | with_reducible apply Keeps.foldl
    | with_reducible apply Keeps.foldl_fst
    | (with_reducible refine Keeps.ofPair ?_ (by assumption))
    | split
    | dsimp only
    | fail_if_no_progress with_reducible refine Keeps.upd ?_ rfl rfl
    | fail_if_no_progress with_reducible refine Keeps.updMem ?_ (fun c => ?_) rfl rfl
    | (intro)
    | decide

theorem State.eval_keeps {r₀ s : State} (hk : Keeps r₀ s) (h : DctHdr) :
    Keeps r₀ (s.eval h) := by
  unfold State.eval
  try dsimp only
  repeat' first
    | with_reducible assumption
    | with_reducible apply Keeps.ite
    | with_reducible apply State.stepOp_keeps
    | with_reducible apply State.startEval_keeps
    | with_reducible apply State.setReq_keeps
    | with_reducible rfl
    | with_reducible refine Keeps.wfTile (by assumption) ?_ _
    | with_reducible apply Keeps.foldl
    | with_reducible apply Keeps.foldl_fst
    | (with_reducible refine Keeps.ofPair ?_ (by assumption))
    | split
    | dsimp only
    | fail_if_no_progress with_reducible refine Keeps.upd ?_ rfl rfl
    | fail_if_no_progress with_reducible refine Keeps.updMem ?_ (fun c => ?_) rfl rfl
    | (intro)
    | decide

theorem State.ckpt_keeps {r₀ s : State} (hk : Keeps r₀ s) (h : DctHdr) :
    Keeps r₀ (s.ckpt h) := by
  unfold State.ckpt
  try dsimp only
  repeat' first
    | with_reducible assumption
    | with_reducible apply Keeps.ite
    | with_reducible apply State.stepOp_keeps
    | with_reducible apply State.startCkpt_keeps
    | with_reducible apply State.onJob_keeps
    | with_reducible rfl
    | with_reducible refine Keeps.wfTile (by assumption) ?_ _
    | with_reducible apply Keeps.foldl
    | with_reducible apply Keeps.foldl_fst
    | (with_reducible refine Keeps.ofPair ?_ (by assumption))
    | split
    | dsimp only
    | fail_if_no_progress with_reducible refine Keeps.upd ?_ rfl rfl
    | fail_if_no_progress with_reducible refine Keeps.updMem ?_ (fun c => ?_) rfl rfl
    | (intro)
    | decide

theorem State.clearJob_keeps {r₀ s : State} (hk : Keeps r₀ s) : Keeps r₀ s.clearJob := by
  unfold State.clearJob
  extract_lets s1 s2 i r s3 s4 ctl _ _ s5
  have h1 : Keeps r₀ s1 := State.clearRegions_keeps (State.clearRegions_keeps (State.haltStages_keeps hk) _) _
  have h2 : Keeps r₀ s2 := State.clearRegions_keeps (State.clearRegions_keeps (State.clearRegions_keeps h1 _) _) _
  have h3 : Keeps r₀ s3 := State.allTiles_keeps h2 _ fun t => boundaryTile_tkeeps false t
  have h4 : Keeps r₀ s4 := Keeps.foldl _ h3 fun _ _ h => State.onPart_keeps h _ _
  have h5 : Keeps r₀ s5 := Keeps.upd h4 rfl rfl
  exact State.toState_keeps (State.poolStatus_keeps (State.refreshOpen_keeps h5)) _ (by decide)

theorem State.endJob_keeps {r₀ s : State} (hk : Keeps r₀ s) (h : DctHdr) :
    Keeps r₀ (s.endJob h) := by
  unfold State.endJob
  try dsimp only
  repeat' first
    | with_reducible assumption
    | with_reducible apply Keeps.ite
    | with_reducible apply State.stepOp_keeps
    | with_reducible apply State.clearJob_keeps
    | with_reducible rfl
    | with_reducible refine Keeps.wfTile (by assumption) ?_ _
    | with_reducible apply Keeps.foldl
    | with_reducible apply Keeps.foldl_fst
    | (with_reducible refine Keeps.ofPair ?_ (by assumption))
    | split
    | dsimp only
    | fail_if_no_progress with_reducible refine Keeps.upd ?_ rfl rfl
    | fail_if_no_progress with_reducible refine Keeps.updMem ?_ (fun c => ?_) rfl rfl
    | (intro)
    | decide

theorem State.restore_keeps {r₀ s : State} (hk : Keeps r₀ s) (h : DctHdr) (cs : List (ℕ × ℕ)) :
    Keeps r₀ (s.restore h cs) := by
  unfold State.restore
  try dsimp only
  repeat' first
    | with_reducible assumption
    | with_reducible apply Keeps.ite
    | with_reducible apply State.stepOp_keeps
    | with_reducible apply State.onJob_keeps
    | with_reducible rfl
    | with_reducible refine Keeps.wfTile (by assumption) ?_ _
    | with_reducible apply Keeps.foldl
    | with_reducible apply Keeps.foldl_fst
    | (with_reducible refine Keeps.ofPair ?_ (by assumption))
    | split
    | dsimp only
    | fail_if_no_progress with_reducible refine Keeps.upd ?_ rfl rfl
    | fail_if_no_progress with_reducible refine Keeps.updMem ?_ (fun c => ?_) rfl rfl
    | with_reducible apply Memory.wf_nil
    | with_reducible apply Memory.wf_writeLE
    | with_reducible apply Memory.wf_writeN
    | with_reducible apply Memory.wf_write
    | with_reducible apply Memory.wf_clear
    | with_reducible apply Memory.wf_copy
    | with_reducible apply wf_putF32s
    | with_reducible apply wf_tkWrite
    | with_reducible apply wf_putCodes
    | with_reducible apply wf_foldl
    | with_reducible apply store_foldl
    | with_reducible apply store_foldl_fst
    | with_reducible apply wf_ite
    | with_reducible refine Canonical.mem (Keeps.canon ?_ (by assumption))
    | (with_reducible refine (by assumption : Canonical _ → Memory.wf _ = true) (by assumption))
    | (intro)
    | decide

theorem State.failRestore_keeps {r₀ s : State} (hk : Keeps r₀ s) (wrote : Bool) :
    Keeps r₀ (s.failRestore wrote) := by
  unfold State.failRestore
  try dsimp only
  repeat' first
    | with_reducible assumption
    | with_reducible apply Keeps.ite
    | with_reducible apply State.event_keeps
    | with_reducible apply State.onJob_keeps
    | with_reducible apply State.clearJob_keeps
    | with_reducible rfl
    | with_reducible refine Keeps.wfTile (by assumption) ?_ _
    | with_reducible apply Keeps.foldl
    | with_reducible apply Keeps.foldl_fst
    | (with_reducible refine Keeps.ofPair ?_ (by assumption))
    | split
    | dsimp only
    | fail_if_no_progress with_reducible refine Keeps.upd ?_ rfl rfl
    | fail_if_no_progress with_reducible refine Keeps.updMem ?_ (fun c => ?_) rfl rfl
    | with_reducible apply Memory.wf_nil
    | with_reducible apply Memory.wf_writeLE
    | with_reducible apply Memory.wf_writeN
    | with_reducible apply Memory.wf_write
    | with_reducible apply Memory.wf_clear
    | with_reducible apply Memory.wf_copy
    | with_reducible apply wf_putF32s
    | with_reducible apply wf_tkWrite
    | with_reducible apply wf_putCodes
    | with_reducible apply wf_foldl
    | with_reducible apply store_foldl
    | with_reducible apply store_foldl_fst
    | with_reducible apply wf_ite
    | with_reducible refine Canonical.mem (Keeps.canon ?_ (by assumption))
    | (with_reducible refine (by assumption : Canonical _ → Memory.wf _ = true) (by assumption))
    | (intro)
    | decide

theorem State.restoreReport_keeps {r₀ s : State} (hk : Keeps r₀ s) (dev : ℕ) (stage : ℕ) (code : ℕ) :
    Keeps r₀ (s.restoreReport dev stage code) := by
  unfold State.restoreReport
  try dsimp only
  repeat' first
    | with_reducible assumption
    | with_reducible apply Keeps.ite
    | with_reducible apply State.failRestore_keeps
    | with_reducible apply State.send_keeps
    | with_reducible apply State.event_keeps
    | with_reducible apply State.onJob_keeps
    | with_reducible rfl
    | with_reducible refine Keeps.wfTile (by assumption) ?_ _
    | with_reducible apply Keeps.foldl
    | with_reducible apply Keeps.foldl_fst
    | (with_reducible refine Keeps.ofPair ?_ (by assumption))
    | split
    | dsimp only
    | fail_if_no_progress with_reducible refine Keeps.upd ?_ rfl rfl
    | fail_if_no_progress with_reducible refine Keeps.updMem ?_ (fun c => ?_) rfl rfl
    | with_reducible apply Memory.wf_nil
    | with_reducible apply Memory.wf_writeLE
    | with_reducible apply Memory.wf_writeN
    | with_reducible apply Memory.wf_write
    | with_reducible apply Memory.wf_clear
    | with_reducible apply Memory.wf_copy
    | with_reducible apply wf_putF32s
    | with_reducible apply wf_tkWrite
    | with_reducible apply wf_putCodes
    | with_reducible apply wf_foldl
    | with_reducible apply store_foldl
    | with_reducible apply store_foldl_fst
    | with_reducible apply wf_ite
    | with_reducible refine Canonical.mem (Keeps.canon ?_ (by assumption))
    | (with_reducible refine (by assumption : Canonical _ → Memory.wf _ = true) (by assumption))
    | (intro)
    | decide

theorem State.restoreFence_keeps {r₀ s : State} (hk : Keeps r₀ s) (id : ℕ) :
    Keeps r₀ (s.restoreFence id) := by
  unfold State.restoreFence
  try dsimp only
  repeat' first
    | with_reducible assumption
    | with_reducible apply Keeps.ite
    | with_reducible apply State.failRestore_keeps
    | with_reducible rfl
    | with_reducible refine Keeps.wfTile (by assumption) ?_ _
    | with_reducible apply Keeps.foldl
    | with_reducible apply Keeps.foldl_fst
    | (with_reducible refine Keeps.ofPair ?_ (by assumption))
    | split
    | dsimp only
    | fail_if_no_progress with_reducible refine Keeps.upd ?_ rfl rfl
    | fail_if_no_progress with_reducible refine Keeps.updMem ?_ (fun c => ?_) rfl rfl
    | (intro)
    | decide

theorem State.restoreCommit_keeps {r₀ s : State} (hk : Keeps r₀ s) (v gen : ℕ) (state : List (ℕ × List Byte)) (scales : List TensorState) :
    Keeps r₀ (s.restoreCommit v gen state scales) := by
  unfold State.restoreCommit
  refine Keeps.ite hk ?_
  extract_lets s1 s2 s3 s4 _ s5 s6
  have h1 : Keeps r₀ s1 := State.clearJob_keeps hk
  have h2 : Keeps r₀ s2 := Keeps.foldl _ h1 fun _ _ h => Keeps.ite (State.hbmWrite_keeps h _ _) h
  have h3 : Keeps r₀ s3 := State.allTiles_keeps h2 _ fun _ => id
  have h4 : Keeps r₀ s4 := State.onJob_keeps (State.newCounts_keeps h3) _
  have h5 : Keeps r₀ s5 := Keeps.upd h4 rfl rfl
  have h6 : Keeps r₀ s6 := State.agreeEpoch_keeps (State.startRacking_keeps (State.rotateSnapshot_keeps (State.refreshOpen_keeps h5)))
  exact State.event_keeps (State.ledger_keeps (State.toState_keeps h6 _ (by decide)) _ _ _ _ _ _ _) _ _ _ _ _

end Sys2Proof.Machine
end

