-- ==== Sys2Proof/Laws/Keeps/FaultDomain.lean ====
section
/-!
SUPPORT. What the operations of Machine/FaultDomain.lean keep.
-/
set_option linter.unusedTactic false
set_option linter.unreachableTactic false
namespace Sys2Proof.Machine

theorem State.sendBeat_keeps {r₀ s : State} (hk : Keeps r₀ s) (flags : ℕ) :
    Keeps r₀ (s.sendBeat flags) := by
  unfold State.sendBeat
  try dsimp only
  repeat' first
    | with_reducible assumption
    | with_reducible apply Keeps.ite
    | with_reducible apply State.send_keeps
    | with_reducible rfl
    | with_reducible refine Keeps.wfTile (by assumption) ?_ _
    | with_reducible apply Keeps.foldl
    | with_reducible apply Keeps.foldl_fst
    | (with_reducible refine Keeps.ofPair ?_ (by assumption))
    | split
    | dsimp only
    | fail_if_no_progress with_reducible refine Keeps.upd ?_ rfl rfl
    | fail_if_no_progress with_reducible refine Keeps.updMem ?_ (fun c => ?_) rfl rfl
    | (intro)
    | decide

theorem State.beatSend_keeps {r₀ s : State} (hk : Keeps r₀ s) :
    Keeps r₀ (s.beatSend) := by
  unfold State.beatSend
  try dsimp only
  repeat' first
    | with_reducible assumption
    | with_reducible apply Keeps.ite
    | with_reducible apply State.sendBeat_keeps
    | with_reducible rfl
    | with_reducible refine Keeps.wfTile (by assumption) ?_ _
    | with_reducible apply Keeps.foldl
    | with_reducible apply Keeps.foldl_fst
    | (with_reducible refine Keeps.ofPair ?_ (by assumption))
    | split
    | dsimp only
    | fail_if_no_progress with_reducible refine Keeps.upd ?_ rfl rfl
    | fail_if_no_progress with_reducible refine Keeps.updMem ?_ (fun c => ?_) rfl rfl
    | (intro)
    | decide

theorem State.noteAdmitted_keeps {r₀ s : State} (hk : Keeps r₀ s) (id : ℕ) :
    Keeps r₀ (s.noteAdmitted id) := by
  unfold State.noteAdmitted
  try dsimp only
  repeat' first
    | with_reducible assumption
    | with_reducible apply Keeps.ite
    | with_reducible apply State.onFd_keeps
    | with_reducible apply State.admitSpares_keeps
    | with_reducible rfl
    | with_reducible refine Keeps.wfTile (by assumption) ?_ _
    | with_reducible apply Keeps.foldl
    | with_reducible apply Keeps.foldl_fst
    | (with_reducible refine Keeps.ofPair ?_ (by assumption))
    | split
    | dsimp only
    | fail_if_no_progress with_reducible refine Keeps.upd ?_ rfl rfl
    | fail_if_no_progress with_reducible refine Keeps.updMem ?_ (fun c => ?_) rfl rfl
    | (intro)
    | decide

theorem State.beatIn_keeps {r₀ s : State} (hk : Keeps r₀ s) (src : ℕ) (ts : ℕ) (st : ℕ) (image : BitVec 384) :
    Keeps r₀ (s.beatIn src ts st image) := by
  unfold State.beatIn
  try dsimp only
  repeat' first
    | with_reducible assumption
    | with_reducible apply Keeps.ite
    | with_reducible apply State.onFd_keeps
    | with_reducible apply State.noteAdmitted_keeps
    | with_reducible apply State.settleWaiting_keeps
    | with_reducible apply State.selectWaiting_keeps
    | with_reducible rfl
    | with_reducible refine Keeps.wfTile (by assumption) ?_ _
    | with_reducible apply Keeps.foldl
    | with_reducible apply Keeps.foldl_fst
    | (with_reducible refine Keeps.ofPair ?_ (by assumption))
    | split
    | dsimp only
    | fail_if_no_progress with_reducible refine Keeps.upd ?_ rfl rfl
    | fail_if_no_progress with_reducible refine Keeps.updMem ?_ (fun c => ?_) rfl rfl
    | (intro)
    | decide

theorem State.beatMiss_keeps {r₀ s : State} (hk : Keeps r₀ s) (id : ℕ) :
    Keeps r₀ (s.beatMiss id) := by
  unfold State.beatMiss
  try dsimp only
  repeat' first
    | with_reducible assumption
    | with_reducible apply Keeps.ite
    | with_reducible apply State.onFd_keeps
    | with_reducible apply State.event_keeps
    | with_reducible apply State.send_keeps
    | with_reducible apply State.errRecord_keeps
    | with_reducible apply State.headFence_keeps
    | with_reducible rfl
    | with_reducible refine Keeps.wfTile (by assumption) ?_ _
    | with_reducible apply Keeps.foldl
    | with_reducible apply Keeps.foldl_fst
    | (with_reducible refine Keeps.ofPair ?_ (by assumption))
    | split
    | dsimp only
    | fail_if_no_progress with_reducible refine Keeps.upd ?_ rfl rfl
    | fail_if_no_progress with_reducible refine Keeps.updMem ?_ (fun c => ?_) rfl rfl
    | (intro)
    | decide

theorem State.report_keeps {r₀ s : State} (hk : Keeps r₀ s) (reporter : ℕ) (accused : ℕ) (ts : ℕ) :
    Keeps r₀ (s.report reporter accused ts) := by
  unfold State.report
  try dsimp only
  repeat' first
    | with_reducible assumption
    | with_reducible apply Keeps.ite
    | with_reducible apply State.onFd_keeps
    | with_reducible rfl
    | with_reducible refine Keeps.wfTile (by assumption) ?_ _
    | with_reducible apply Keeps.foldl
    | with_reducible apply Keeps.foldl_fst
    | (with_reducible refine Keeps.ofPair ?_ (by assumption))
    | split
    | dsimp only
    | fail_if_no_progress with_reducible refine Keeps.upd ?_ rfl rfl
    | fail_if_no_progress with_reducible refine Keeps.updMem ?_ (fun c => ?_) rfl rfl
    | (intro)
    | decide

theorem State.reportWait_keeps {r₀ s : State} (hk : Keeps r₀ s) (accused : ℕ) :
    Keeps r₀ (s.reportWait accused) := by
  unfold State.reportWait
  try dsimp only
  repeat' first
    | with_reducible assumption
    | with_reducible apply Keeps.ite
    | with_reducible apply State.onFd_keeps
    | with_reducible apply State.headFence_keeps
    | with_reducible rfl
    | with_reducible refine Keeps.wfTile (by assumption) ?_ _
    | with_reducible apply Keeps.foldl
    | with_reducible apply Keeps.foldl_fst
    | (with_reducible refine Keeps.ofPair ?_ (by assumption))
    | split
    | dsimp only
    | fail_if_no_progress with_reducible refine Keeps.upd ?_ rfl rfl
    | fail_if_no_progress with_reducible refine Keeps.updMem ?_ (fun c => ?_) rfl rfl
    | (intro)
    | decide

theorem State.selfFailIn_keeps {r₀ s : State} (hk : Keeps r₀ s) (src : ℕ) :
    Keeps r₀ (s.selfFailIn src) := by
  unfold State.selfFailIn
  try dsimp only
  repeat' first
    | with_reducible assumption
    | with_reducible apply Keeps.ite
    | with_reducible apply State.headFence_keeps
    | with_reducible rfl
    | with_reducible refine Keeps.wfTile (by assumption) ?_ _
    | with_reducible apply Keeps.foldl
    | with_reducible apply Keeps.foldl_fst
    | (with_reducible refine Keeps.ofPair ?_ (by assumption))
    | split
    | dsimp only
    | fail_if_no_progress with_reducible refine Keeps.upd ?_ rfl rfl
    | fail_if_no_progress with_reducible refine Keeps.updMem ?_ (fun c => ?_) rfl rfl
    | (intro)
    | decide

theorem State.fenceAll_keeps {r₀ s : State} (hk : Keeps r₀ s) (m : FenceMsg) : Keeps r₀ (s.fenceAll m) := by
  unfold State.fenceAll
  extract_lets t
  have h : Keeps r₀ t := State.fenceIn_keeps hk m
  exact Keeps.ite (State.restoreFence_keeps h _) h

theorem State.graftPhase_keeps {r₀ s : State} (hk : Keeps r₀ s) (ph : ℕ) (err : ℕ) :
    Keeps r₀ (s.graftPhase ph err) := by
  unfold State.graftPhase
  try dsimp only
  repeat' first
    | with_reducible assumption
    | with_reducible apply Keeps.ite
    | with_reducible apply State.graftStatus_keeps
    | with_reducible apply State.onFd_keeps
    | with_reducible rfl
    | with_reducible refine Keeps.wfTile (by assumption) ?_ _
    | with_reducible apply Keeps.foldl
    | with_reducible apply Keeps.foldl_fst
    | (with_reducible refine Keeps.ofPair ?_ (by assumption))
    | split
    | dsimp only
    | fail_if_no_progress with_reducible refine Keeps.upd ?_ rfl rfl
    | fail_if_no_progress with_reducible refine Keeps.updMem ?_ (fun c => ?_) rfl rfl
    | (intro)
    | decide

theorem State.wakeIn_keeps {r₀ s : State} (hk : Keeps r₀ s) (spare : ℕ) (fenced : ℕ) (epoch : ℕ) (instant : ℕ) :
    Keeps r₀ (s.wakeIn spare fenced epoch instant) := by
  unfold State.wakeIn
  try dsimp only
  repeat' first
    | with_reducible assumption
    | with_reducible apply Keeps.ite
    | with_reducible apply State.leaveDormant_keeps
    | with_reducible apply State.drawJobKeys_keeps
    | with_reducible apply State.abandonHandshake_keeps
    | with_reducible apply State.graftStatus_keeps
    | with_reducible apply State.onFd_keeps
    | with_reducible rfl
    | with_reducible refine Keeps.wfTile (by assumption) ?_ _
    | with_reducible apply Keeps.foldl
    | with_reducible apply Keeps.foldl_fst
    | (with_reducible refine Keeps.ofPair ?_ (by assumption))
    | split
    | dsimp only
    | fail_if_no_progress with_reducible refine Keeps.upd ?_ rfl rfl
    | fail_if_no_progress with_reducible refine Keeps.updMem ?_ (fun c => ?_) rfl rfl
    | (intro)
    | decide

theorem State.testSites_keeps {r₀ s : State} (hk : Keeps r₀ s) (rs : List SiteRes) :
    Keeps r₀ (s.testSites rs) := by
  unfold State.testSites
  try dsimp only
  repeat' first
    | with_reducible assumption
    | with_reducible apply Keeps.ite
    | with_reducible apply State.judge_keeps
    | with_reducible apply State.graftTile_keeps
    | with_reducible apply State.countYield_keeps
    | with_reducible apply State.setSiteRole_keeps
    | with_reducible rfl
    | with_reducible refine Keeps.wfTile (by assumption) ?_ _
    | with_reducible apply Keeps.foldl
    | with_reducible apply Keeps.foldl_fst
    | (with_reducible refine Keeps.ofPair ?_ (by assumption))
    | split
    | dsimp only
    | fail_if_no_progress with_reducible refine Keeps.upd ?_ rfl rfl
    | fail_if_no_progress with_reducible refine Keeps.updMem ?_ (fun c => ?_) rfl rfl
    | (intro)
    | decide

theorem State.deviceSelfTest_keeps {r₀ s : State} (hk : Keeps r₀ s) (rs : List SiteRes) (hbmOk : Bool) (exvOk : Bool) :
    Keeps r₀ (s.deviceSelfTest rs hbmOk exvOk) := by
  unfold State.deviceSelfTest
  try dsimp only
  repeat' first
    | with_reducible assumption
    | with_reducible apply Keeps.ite
    | with_reducible apply State.testSites_keeps
    | with_reducible apply State.graftPhase_keeps
    | with_reducible apply State.send_keeps
    | with_reducible apply State.graftStatus_keeps
    | with_reducible apply State.onFd_keeps
    | with_reducible rfl
    | with_reducible refine Keeps.wfTile (by assumption) ?_ _
    | with_reducible apply Keeps.foldl
    | with_reducible apply Keeps.foldl_fst
    | (with_reducible refine Keeps.ofPair ?_ (by assumption))
    | split
    | dsimp only
    | fail_if_no_progress with_reducible refine Keeps.upd ?_ rfl rfl
    | fail_if_no_progress with_reducible refine Keeps.updMem ?_ (fun c => ?_) rfl rfl
    | (intro)
    | decide

theorem State.stateLoad_keeps {r₀ s : State} (hk : Keeps r₀ s) (p : ℕ) (v : ℕ) (pages : List (List Byte)) (d : BitVec 384) (scales : List TensorState) :
    Keeps r₀ (s.stateLoad p v pages d scales) := by
  unfold State.stateLoad
  try dsimp only
  repeat' first
    | with_reducible assumption
    | with_reducible apply Keeps.ite
    | with_reducible apply State.onPart_keeps
    | with_reducible apply State.graftStatus_keeps
    | with_reducible apply State.onFd_keeps
    | with_reducible apply State.errRecord_keeps
    | with_reducible rfl
    | with_reducible refine Keeps.wfTile (by assumption) ?_ _
    | with_reducible apply Keeps.foldl
    | with_reducible apply Keeps.foldl_fst
    | (with_reducible refine Keeps.ofPair ?_ (by assumption))
    | split
    | dsimp only
    | fail_if_no_progress with_reducible refine Keeps.upd ?_ rfl rfl
    | fail_if_no_progress with_reducible refine Keeps.updMem ?_ (fun c => ?_) rfl rfl
    | with_reducible apply Memory.wf_nil
    | with_reducible apply Memory.wf_writeLE
    | with_reducible apply Memory.wf_writeN
    | with_reducible apply Memory.wf_write
    | with_reducible apply Memory.wf_clear
    | with_reducible apply Memory.wf_copy
    | with_reducible apply wf_putF32s
    | with_reducible apply wf_tkWrite
    | with_reducible apply wf_putCodes
    | with_reducible apply wf_foldl
    | with_reducible apply store_foldl
    | with_reducible apply store_foldl_fst
    | with_reducible apply wf_ite
    | with_reducible refine Canonical.mem (Keeps.canon ?_ (by assumption))
    | (with_reducible refine (by assumption : Canonical _ → Memory.wf _ = true) (by assumption))
    | (intro)
    | decide

theorem State.asMember_keeps {r₀ s : State} (hk : Keeps r₀ s) (fenced : ℕ) : Keeps r₀ (s.asMember fenced) := by
  unfold State.asMember
  exact Keeps.devWord hk rfl rfl rfl rfl rfl rfl rfl (State.devState_spare _ _) rfl

theorem State.takeOverStreams_keeps {r₀ s : State} (hk : Keeps r₀ s) (v : ℕ) :
    Keeps r₀ (s.takeOverStreams v) := by
  unfold State.takeOverStreams
  try dsimp only
  repeat' first
    | with_reducible assumption
    | with_reducible apply Keeps.ite
    | with_reducible apply State.startStreams_keeps
    | with_reducible rfl
    | with_reducible refine Keeps.wfTile (by assumption) ?_ _
    | with_reducible apply Keeps.foldl
    | with_reducible apply Keeps.foldl_fst
    | (with_reducible refine Keeps.ofPair ?_ (by assumption))
    | split
    | dsimp only
    | fail_if_no_progress with_reducible refine Keeps.upd ?_ rfl rfl
    | fail_if_no_progress with_reducible refine Keeps.updMem ?_ (fun c => ?_) rfl rfl
    | (intro)
    | decide

theorem State.takeOver_keeps {r₀ s : State} (hk : Keeps r₀ s) (attempt : ℕ) (running : Bool) :
    Keeps r₀ (s.takeOver attempt running) := by
  unfold State.takeOver
  try dsimp only
  repeat' first
    | with_reducible assumption
    | with_reducible apply Keeps.ite
    | with_reducible apply State.writeRegs_keeps
    | with_reducible apply State.asMember_keeps
    | with_reducible apply State.writeTiles_keeps
    | with_reducible apply State.allTiles_keeps
    | with_reducible apply State.onFd_keeps
    | with_reducible apply State.refreshHeads_keeps
    | with_reducible apply State.graftStatus_keeps
    | with_reducible apply State.takeOverStreams_keeps
    | with_reducible apply State.startRacking_keeps
    | with_reducible apply State.rotateSnapshot_keeps
    | with_reducible apply State.send_keeps
    | with_reducible apply State.openVint_keeps
    | with_reducible apply State.toState_keeps
    | with_reducible apply State.refreshOpen_keeps
    | with_reducible apply State.onVint_keeps
    | with_reducible apply State.reportDecant_keeps
    | with_reducible apply State.onJob_keeps
    | with_reducible rfl
    | with_reducible refine Keeps.wfTile (by assumption) ?_ _
    | with_reducible apply Keeps.foldl
    | with_reducible apply Keeps.foldl_fst
    | (with_reducible refine Keeps.ofPair ?_ (by assumption))
    | split
    | dsimp only
    | fail_if_no_progress with_reducible refine Keeps.upd ?_ rfl rfl
    | fail_if_no_progress with_reducible refine Keeps.updMem ?_ (fun c => ?_) rfl rfl
    | (intro)
    | decide

theorem State.moveEntry_keeps {r₀ s : State} (hk : Keeps r₀ s) (newId : ℕ) (former : ℕ) :
    Keeps r₀ (s.moveEntry newId former) := by
  unfold State.moveEntry
  try dsimp only
  repeat' first
    | with_reducible assumption
    | with_reducible apply Keeps.ite
    | with_reducible rfl
    | with_reducible refine Keeps.wfTile (by assumption) ?_ _
    | with_reducible apply Keeps.foldl
    | with_reducible apply Keeps.foldl_fst
    | (with_reducible refine Keeps.ofPair ?_ (by assumption))
    | split
    | dsimp only
    | fail_if_no_progress with_reducible refine Keeps.upd ?_ rfl rfl
    | fail_if_no_progress with_reducible refine Keeps.updMem ?_ (fun c => ?_) rfl rfl
    | (intro)
    | decide

theorem State.newBuddy_keeps {r₀ s : State} (hk : Keeps r₀ s) (id : ℕ) :
    Keeps r₀ (s.newBuddy id) := by
  unfold State.newBuddy
  try dsimp only
  repeat' first
    | with_reducible assumption
    | with_reducible apply Keeps.ite
    | with_reducible apply State.rerack_keeps
    | with_reducible rfl
    | with_reducible refine Keeps.wfTile (by assumption) ?_ _
    | with_reducible apply Keeps.foldl
    | with_reducible apply Keeps.foldl_fst
    | (with_reducible refine Keeps.ofPair ?_ (by assumption))
    | split
    | dsimp only
    | fail_if_no_progress with_reducible refine Keeps.upd ?_ rfl rfl
    | fail_if_no_progress with_reducible refine Keeps.updMem ?_ (fun c => ?_) rfl rfl
    | (intro)
    | decide

theorem State.askRefeed_keeps {r₀ s : State} (hk : Keeps r₀ s) (id : ℕ) :
    Keeps r₀ (s.askRefeed id) := by
  unfold State.askRefeed
  try dsimp only
  repeat' first
    | with_reducible assumption
    | with_reducible apply Keeps.ite
    | with_reducible apply State.event_keeps
    | with_reducible rfl
    | with_reducible refine Keeps.wfTile (by assumption) ?_ _
    | with_reducible apply Keeps.foldl
    | with_reducible apply Keeps.foldl_fst
    | (with_reducible refine Keeps.ofPair ?_ (by assumption))
    | split
    | dsimp only
    | fail_if_no_progress with_reducible refine Keeps.upd ?_ rfl rfl
    | fail_if_no_progress with_reducible refine Keeps.updMem ?_ (fun c => ?_) rfl rfl
    | (intro)
    | decide

theorem State.graftDoneAtHead_keeps {r₀ s : State} (hk : Keeps r₀ s) (newId : ℕ) (former : ℕ) (source : ℕ) :
    Keeps r₀ (s.graftDoneAtHead newId former source) := by
  unfold State.graftDoneAtHead
  try dsimp only
  repeat' first
    | with_reducible assumption
    | with_reducible apply Keeps.ite
    | with_reducible apply State.takeFence_keeps
    | with_reducible apply State.putGraft_keeps
    | with_reducible rfl
    | with_reducible refine Keeps.wfTile (by assumption) ?_ _
    | with_reducible apply Keeps.foldl
    | with_reducible apply Keeps.foldl_fst
    | (with_reducible refine Keeps.ofPair ?_ (by assumption))
    | split
    | dsimp only
    | fail_if_no_progress with_reducible refine Keeps.upd ?_ rfl rfl
    | fail_if_no_progress with_reducible refine Keeps.updMem ?_ (fun c => ?_) rfl rfl
    | (intro)
    | decide

theorem State.graftDone_keeps {r₀ s : State} (hk : Keeps r₀ s) (newId : ℕ) (former : ℕ) (source : ℕ) (_vintage : ℕ) :
    Keeps r₀ (s.graftDone newId former source _vintage) := by
  unfold State.graftDone
  try dsimp only
  repeat' first
    | with_reducible assumption
    | with_reducible apply Keeps.ite
    | with_reducible apply State.moveEntry_keeps
    | with_reducible apply State.graftDoneAtHead_keeps
    | with_reducible apply State.onFd_keeps
    | with_reducible apply State.setFenceStatus_keeps
    | with_reducible apply State.refreshHeads_keeps
    | with_reducible apply State.event_keeps
    | with_reducible apply State.askRefeed_keeps
    | with_reducible apply State.newBuddy_keeps
    | with_reducible rfl
    | with_reducible refine Keeps.wfTile (by assumption) ?_ _
    | with_reducible apply Keeps.foldl
    | with_reducible apply Keeps.foldl_fst
    | (with_reducible refine Keeps.ofPair ?_ (by assumption))
    | split
    | dsimp only
    | fail_if_no_progress with_reducible refine Keeps.upd ?_ rfl rfl
    | fail_if_no_progress with_reducible refine Keeps.updMem ?_ (fun c => ?_) rfl rfl
    | (intro)
    | decide

theorem State.graftGo_keeps {r₀ s : State} (hk : Keeps r₀ s) (w : Word) :
    Keeps r₀ (s.graftGo w) := by
  unfold State.graftGo
  try dsimp only
  repeat' first
    | with_reducible assumption
    | with_reducible apply Keeps.ite
    | with_reducible apply State.ask_keeps
    | with_reducible apply State.wakeFor_keeps
    | with_reducible apply State.headFence_keeps
    | with_reducible rfl
    | with_reducible refine Keeps.wfTile (by assumption) ?_ _
    | with_reducible apply Keeps.foldl
    | with_reducible apply Keeps.foldl_fst
    | (with_reducible refine Keeps.ofPair ?_ (by assumption))
    | split
    | dsimp only
    | fail_if_no_progress with_reducible refine Keeps.upd ?_ rfl rfl
    | fail_if_no_progress with_reducible refine Keeps.updMem ?_ (fun c => ?_) rfl rfl
    | (intro)
    | decide

theorem State.admissionDone_keeps {r₀ s : State} (hk : Keeps r₀ s) (rs : List SiteRes) (memOk : Bool) (linksOk : Bool) (exvOk : Bool) :
    Keeps r₀ (s.admissionDone rs memOk linksOk exvOk) := by
  unfold State.admissionDone
  try dsimp only
  repeat' first
    | with_reducible assumption
    | with_reducible apply Keeps.ite
    | with_reducible apply State.onFd_keeps
    | with_reducible apply State.testSites_keeps
    | with_reducible apply State.event_keeps
    | with_reducible rfl
    | with_reducible refine Keeps.wfTile (by assumption) ?_ _
    | with_reducible apply Keeps.foldl
    | with_reducible apply Keeps.foldl_fst
    | (with_reducible refine Keeps.ofPair ?_ (by assumption))
    | split
    | dsimp only
    | fail_if_no_progress with_reducible refine Keeps.upd ?_ rfl rfl
    | fail_if_no_progress with_reducible refine Keeps.updMem ?_ (fun c => ?_) rfl rfl
    | (intro)
    | decide

end Sys2Proof.Machine
end

