-- ==== Sys2Proof/Laws/Keeps/Stage5.lean ====
section
/-!
SUPPORT. What the operations of Machine/Stage5.lean keep.
-/
set_option linter.unusedTactic false
set_option linter.unreachableTactic false
namespace Sys2Proof.Machine

theorem State.refreshLicence_keeps {r₀ s : State} (hk : Keeps r₀ s) :
    Keeps r₀ (s.refreshLicence) := by
  unfold State.refreshLicence
  try dsimp only
  repeat' first
    | with_reducible assumption
    | with_reducible apply Keeps.ite
    | with_reducible rfl
    | with_reducible refine Keeps.wfTile (by assumption) ?_ _
    | with_reducible apply Keeps.foldl
    | with_reducible apply Keeps.foldl_fst
    | (with_reducible refine Keeps.ofPair ?_ (by assumption))
    | split
    | dsimp only
    | fail_if_no_progress with_reducible refine Keeps.upd ?_ rfl rfl
    | fail_if_no_progress with_reducible refine Keeps.updMem ?_ (fun c => ?_) rfl rfl
    | (with_reducible refine (by assumption : Canonical _ → Memory.wf _ = true) (by assumption))
    | (intro)
    | decide

theorem State.applyLicence_keeps {r₀ s : State} (hk : Keeps r₀ s) (l : Lic) :
    Keeps r₀ (s.applyLicence l) := by
  unfold State.applyLicence
  try dsimp only
  repeat' first
    | with_reducible assumption
    | with_reducible apply Keeps.ite
    | with_reducible apply State.reholdPorts_keeps
    | with_reducible apply State.refreshLicence_keeps
    | with_reducible rfl
    | with_reducible refine Keeps.wfTile (by assumption) ?_ _
    | with_reducible apply Keeps.foldl
    | with_reducible apply Keeps.foldl_fst
    | (with_reducible refine Keeps.ofPair ?_ (by assumption))
    | split
    | dsimp only
    | fail_if_no_progress with_reducible refine Keeps.upd ?_ rfl rfl
    | fail_if_no_progress with_reducible refine Keeps.updMem ?_ (fun c => ?_) rfl rfl
    | (with_reducible refine (by assumption : Canonical _ → Memory.wf _ = true) (by assumption))
    | (intro)
    | decide

theorem State.unapply_keeps {r₀ s : State} (hk : Keeps r₀ s) :
    Keeps r₀ (s.unapply) := by
  unfold State.unapply
  try dsimp only
  repeat' first
    | with_reducible assumption
    | with_reducible apply Keeps.ite
    | with_reducible apply State.refreshLicence_keeps
    | with_reducible rfl
    | with_reducible refine Keeps.wfTile (by assumption) ?_ _
    | with_reducible apply Keeps.foldl
    | with_reducible apply Keeps.foldl_fst
    | (with_reducible refine Keeps.ofPair ?_ (by assumption))
    | split
    | dsimp only
    | fail_if_no_progress with_reducible refine Keeps.upd ?_ rfl rfl
    | fail_if_no_progress with_reducible refine Keeps.updMem ?_ (fun c => ?_) rfl rfl
    | (intro)
    | decide

theorem State.writeBists_keeps {r₀ s : State} (hk : Keeps r₀ s) (units : ℕ) (rs : List SiteRes) :
    Keeps r₀ (s.writeBists units rs) := by
  unfold State.writeBists
  try dsimp only
  repeat' first
    | with_reducible assumption
    | with_reducible apply Keeps.ite
    | with_reducible apply State.setSite_keeps
    | with_reducible rfl
    | with_reducible refine Keeps.wfTile (by assumption) ?_ _
    | with_reducible apply Keeps.foldl
    | with_reducible apply Keeps.foldl_fst
    | (with_reducible refine Keeps.ofPair ?_ (by assumption))
    | split
    | dsimp only
    | fail_if_no_progress with_reducible refine Keeps.upd ?_ rfl rfl
    | fail_if_no_progress with_reducible refine Keeps.updMem ?_ (fun c => ?_) rfl rfl
    | (intro)
    | decide

theorem State.clearPass_keeps {r₀ s : State} (hk : Keeps r₀ s) :
    Keeps r₀ (s.clearPass) := by
  unfold State.clearPass
  try dsimp only
  repeat' first
    | with_reducible assumption
    | with_reducible apply Keeps.ite
    | with_reducible apply State.allParts_keeps
    | with_reducible rfl
    | with_reducible refine Keeps.wfTile (by assumption) ?_ _
    | with_reducible apply Keeps.foldl
    | with_reducible apply Keeps.foldl_fst
    | (with_reducible refine Keeps.ofPair ?_ (by assumption))
    | split
    | dsimp only
    | fail_if_no_progress with_reducible refine Keeps.upd ?_ rfl rfl
    | fail_if_no_progress with_reducible refine Keeps.updMem ?_ (fun c => ?_) rfl rfl
    | (intro)
    | decide

theorem State.decideSites_keeps {r₀ s : State} (hk : Keeps r₀ s) (units : ℕ) (rs : List SiteRes) :
    Keeps r₀ (s.decideSites units rs) := by
  unfold State.decideSites
  try dsimp only
  repeat' first
    | with_reducible assumption
    | with_reducible apply Keeps.ite
    | with_reducible apply State.judge_keeps
    | with_reducible apply State.writeBists_keeps
    | with_reducible apply State.clearPass_keeps
    | with_reducible rfl
    | with_reducible refine Keeps.wfTile (by assumption) ?_ _
    | with_reducible apply Keeps.foldl
    | with_reducible apply Keeps.foldl_fst
    | (with_reducible refine Keeps.ofPair ?_ (by assumption))
    | split
    | dsimp only
    | fail_if_no_progress with_reducible refine Keeps.upd ?_ rfl rfl
    | fail_if_no_progress with_reducible refine Keeps.updMem ?_ (fun c => ?_) rfl rfl
    | (intro)
    | decide

theorem State.endStage5_keeps {r₀ s : State} (hk : Keeps r₀ s) (code : ℕ) (err : ℕ) :
    Keeps r₀ (s.endStage5 code err) := by
  unfold State.endStage5
  try dsimp only
  repeat' first
    | with_reducible assumption
    | with_reducible apply Keeps.ite
    | with_reducible apply State.errRecord_keeps
    | with_reducible apply State.toState_keeps
    | with_reducible rfl
    | with_reducible refine Keeps.wfTile (by assumption) ?_ _
    | with_reducible apply Keeps.foldl
    | with_reducible apply Keeps.foldl_fst
    | (with_reducible refine Keeps.ofPair ?_ (by assumption))
    | split
    | dsimp only
    | fail_if_no_progress with_reducible refine Keeps.upd ?_ rfl rfl
    | fail_if_no_progress with_reducible refine Keeps.updMem ?_ (fun c => ?_) rfl rfl
    | (intro)
    | decide

theorem State.dropTiles_keeps {r₀ s : State} (hk : Keeps r₀ s) (n : ℕ) : Keeps r₀ (s.dropTiles n) := by
  unfold State.dropTiles
  exact Keeps.maps hk rfl rfl
    (fun c => ⟨Sparse.wf_filter (hk.canon c).tiles, fun x hx => (hk.canon c).stores x (List.mem_filter.1 hx).1⟩)
    (fun c => (hk.canon c).parts) (fun c => (hk.canon c).ports) (fun c => (hk.canon c).memStacks) (fun c => (hk.canon c).sites) rfl rfl

theorem State.advanceFuse_keeps {r₀ s : State} (hk : Keeps r₀ s) :
    Keeps r₀ (s.advanceFuse) := by
  unfold State.advanceFuse
  try dsimp only
  repeat' first
    | with_reducible assumption
    | with_reducible apply Keeps.ite
    | with_reducible rfl
    | with_reducible refine Keeps.wfTile (by assumption) ?_ _
    | with_reducible apply Keeps.foldl
    | with_reducible apply Keeps.foldl_fst
    | (with_reducible refine Keeps.ofPair ?_ (by assumption))
    | split
    | dsimp only
    | fail_if_no_progress with_reducible refine Keeps.upd ?_ rfl rfl
    | fail_if_no_progress with_reducible refine Keeps.updMem ?_ (fun c => ?_) rfl rfl
    | (intro)
    | decide

theorem State.numberAll_keeps {r₀ s : State} (hk : Keeps r₀ s) :
    Keeps r₀ (s.numberAll) := by
  unfold State.numberAll
  try dsimp only
  repeat' first
    | with_reducible assumption
    | with_reducible apply Keeps.ite
    | with_reducible apply State.countYieldFor_keeps
    | with_reducible apply State.roleSites_keeps
    | with_reducible apply State.endStage5_keeps
    | with_reducible apply State.unapply_keeps
    | with_reducible apply State.dropTiles_keeps
    | with_reducible apply State.applyLicence_keeps
    | with_reducible apply State.numberPart_keeps
    | with_reducible apply State.advanceFuse_keeps
    | with_reducible rfl
    | with_reducible refine Keeps.wfTile (by assumption) ?_ _
    | with_reducible apply Keeps.foldl
    | with_reducible apply Keeps.foldl_fst
    | (with_reducible refine Keeps.ofPair ?_ (by assumption))
    | split
    | dsimp only
    | fail_if_no_progress with_reducible refine Keeps.upd ?_ rfl rfl
    | fail_if_no_progress with_reducible refine Keeps.updMem ?_ (fun c => ?_) rfl rfl
    | (intro)
    | decide

theorem State.countPass_keeps {r₀ s : State} (hk : Keeps r₀ s) :
    Keeps r₀ (s.countPass) := by
  unfold State.countPass
  try dsimp only
  repeat' first
    | with_reducible assumption
    | with_reducible apply Keeps.ite
    | with_reducible rfl
    | with_reducible refine Keeps.wfTile (by assumption) ?_ _
    | with_reducible apply Keeps.foldl
    | with_reducible apply Keeps.foldl_fst
    | (with_reducible refine Keeps.ofPair ?_ (by assumption))
    | split
    | dsimp only
    | fail_if_no_progress with_reducible refine Keeps.upd ?_ rfl rfl
    | fail_if_no_progress with_reducible refine Keeps.updMem ?_ (fun c => ?_) rfl rfl
    | (intro)
    | decide

theorem State.passStage5_keeps {r₀ s : State} (hk : Keeps r₀ s) (units : ℕ) (rs : List SiteRes) :
    Keeps r₀ (s.passStage5 units rs) := by
  unfold State.passStage5
  try dsimp only
  repeat' first
    | with_reducible assumption
    | with_reducible apply Keeps.ite
    | with_reducible apply State.numberAll_keeps
    | with_reducible apply State.decideSites_keeps
    | with_reducible apply State.countPass_keeps
    | with_reducible rfl
    | with_reducible refine Keeps.wfTile (by assumption) ?_ _
    | with_reducible apply Keeps.foldl
    | with_reducible apply Keeps.foldl_fst
    | (with_reducible refine Keeps.ofPair ?_ (by assumption))
    | split
    | dsimp only
    | fail_if_no_progress with_reducible refine Keeps.upd ?_ rfl rfl
    | fail_if_no_progress with_reducible refine Keeps.updMem ?_ (fun c => ?_) rfl rfl
    | (intro)
    | decide

end Sys2Proof.Machine
end

