-- ==== Sys2Proof/Laws/Keeps/Resets.lean ====
section
/-!
SUPPORT. What the operations of Machine/Resets.lean keep.
-/
set_option linter.unusedTactic false
set_option linter.unreachableTactic false
namespace Sys2Proof.Machine

theorem resetTile_tkeeps (t : Tile) : TKeeps t (resetTile t) := by
  unfold resetTile
  try dsimp only
  repeat' first
    | with_reducible assumption
    | with_reducible apply Keeps.ite
    | with_reducible apply eraseTile_tkeeps
    | with_reducible apply haltTile_tkeeps
    | with_reducible rfl
    | with_reducible refine Keeps.wfTile (by assumption) ?_ _
    | with_reducible apply Keeps.foldl
    | with_reducible apply Keeps.foldl_fst
    | (with_reducible refine Keeps.ofPair ?_ (by assumption))
    | split
    | dsimp only
    | fail_if_no_progress with_reducible refine Keeps.upd ?_ rfl rfl
    | fail_if_no_progress with_reducible refine Keeps.updMem ?_ (fun c => ?_) rfl rfl
    | with_reducible apply Memory.wf_nil
    | with_reducible apply Memory.wf_writeLE
    | with_reducible apply Memory.wf_writeN
    | with_reducible apply Memory.wf_write
    | with_reducible apply Memory.wf_clear
    | with_reducible apply Memory.wf_copy
    | with_reducible apply wf_putF32s
    | with_reducible apply wf_tkWrite
    | with_reducible apply wf_putCodes
    | with_reducible apply wf_foldl
    | with_reducible apply store_foldl
    | with_reducible apply store_foldl_fst
    | with_reducible apply wf_ite
    | with_reducible refine Canonical.mem (Keeps.canon ?_ (by assumption))
    | (with_reducible refine (by assumption : Canonical _ → Memory.wf _ = true) (by assumption))
    | (intro)
    | decide

theorem clearUnit_tkeeps (t : Tile) (u : ℕ) : TKeeps t (clearUnit t u) := by
  unfold clearUnit
  try dsimp only
  repeat' first
    | with_reducible assumption
    | with_reducible apply Keeps.ite
    | with_reducible rfl
    | with_reducible refine Keeps.wfTile (by assumption) ?_ _
    | with_reducible apply Keeps.foldl
    | with_reducible apply Keeps.foldl_fst
    | (with_reducible refine Keeps.ofPair ?_ (by assumption))
    | split
    | dsimp only
    | fail_if_no_progress with_reducible refine Keeps.upd ?_ rfl rfl
    | fail_if_no_progress with_reducible refine Keeps.updMem ?_ (fun c => ?_) rfl rfl
    | with_reducible apply Memory.wf_nil
    | with_reducible apply Memory.wf_writeLE
    | with_reducible apply Memory.wf_writeN
    | with_reducible apply Memory.wf_write
    | with_reducible apply Memory.wf_clear
    | with_reducible apply Memory.wf_copy
    | with_reducible apply wf_putF32s
    | with_reducible apply wf_tkWrite
    | with_reducible apply wf_putCodes
    | with_reducible apply wf_foldl
    | with_reducible apply store_foldl
    | with_reducible apply store_foldl_fst
    | with_reducible apply wf_ite
    | with_reducible refine Canonical.mem (Keeps.canon ?_ (by assumption))
    | (with_reducible refine (by assumption : Canonical _ → Memory.wf _ = true) (by assumption))
    | (intro)
    | decide

theorem State.capture_keeps {r₀ s : State} (hk : Keeps r₀ s) (p : ℕ) (level : ℕ) (cause : ℕ) (object : ℕ) (ts : List Tile) :
    Keeps r₀ (s.capture p level cause object ts) := by
  unfold State.capture
  try dsimp only
  repeat' first
    | with_reducible assumption
    | with_reducible apply Keeps.ite
    | with_reducible apply State.setPart_keeps
    | with_reducible apply State.useFree_keeps
    | with_reducible rfl
    | with_reducible refine Keeps.wfTile (by assumption) ?_ _
    | with_reducible apply Keeps.foldl
    | with_reducible apply Keeps.foldl_fst
    | (with_reducible refine Keeps.ofPair ?_ (by assumption))
    | split
    | dsimp only
    | fail_if_no_progress with_reducible refine Keeps.upd ?_ rfl rfl
    | fail_if_no_progress with_reducible refine Keeps.updMem ?_ (fun c => ?_) rfl rfl
    | (intro)
    | decide

theorem State.noteReset_keeps {r₀ s : State} (hk : Keeps r₀ s) (level : ℕ) (cause : ℕ) (parts : ℕ) :
    Keeps r₀ (s.noteReset level cause parts) := by
  unfold State.noteReset
  try dsimp only
  repeat' first
    | with_reducible assumption
    | with_reducible apply Keeps.ite
    | with_reducible rfl
    | with_reducible refine Keeps.wfTile (by assumption) ?_ _
    | with_reducible apply Keeps.foldl
    | with_reducible apply Keeps.foldl_fst
    | (with_reducible refine Keeps.ofPair ?_ (by assumption))
    | split
    | dsimp only
    | fail_if_no_progress with_reducible refine Keeps.upd ?_ rfl rfl
    | fail_if_no_progress with_reducible refine Keeps.updMem ?_ (fun c => ?_) rfl rfl
    | (intro)
    | decide

theorem State.fencePart_keeps {r₀ s : State} (hk : Keeps r₀ s) (p : ℕ) (reason : ℕ) (pst : ℕ) :
    Keeps r₀ (s.fencePart p reason pst) := by
  unfold State.fencePart
  try dsimp only
  repeat' first
    | with_reducible assumption
    | with_reducible apply Keeps.ite
    | with_reducible apply State.onPart_keeps
    | with_reducible apply State.useFree_keeps
    | with_reducible rfl
    | with_reducible refine Keeps.wfTile (by assumption) ?_ _
    | with_reducible apply Keeps.foldl
    | with_reducible apply Keeps.foldl_fst
    | (with_reducible refine Keeps.ofPair ?_ (by assumption))
    | split
    | dsimp only
    | fail_if_no_progress with_reducible refine Keeps.upd ?_ rfl rfl
    | fail_if_no_progress with_reducible refine Keeps.updMem ?_ (fun c => ?_) rfl rfl
    | (intro)
    | decide

theorem State.unfencePart_keeps {r₀ s : State} (hk : Keeps r₀ s) (p : ℕ) :
    Keeps r₀ (s.unfencePart p) := by
  unfold State.unfencePart
  try dsimp only
  repeat' first
    | with_reducible assumption
    | with_reducible apply Keeps.ite
    | with_reducible apply State.onPart_keeps
    | with_reducible rfl
    | with_reducible refine Keeps.wfTile (by assumption) ?_ _
    | with_reducible apply Keeps.foldl
    | with_reducible apply Keeps.foldl_fst
    | (with_reducible refine Keeps.ofPair ?_ (by assumption))
    | split
    | dsimp only
    | fail_if_no_progress with_reducible refine Keeps.upd ?_ rfl rfl
    | fail_if_no_progress with_reducible refine Keeps.updMem ?_ (fun c => ?_) rfl rfl
    | (intro)
    | decide

theorem State.failNow_keeps {r₀ s : State} (hk : Keeps r₀ s) :
    Keeps r₀ (s.failNow) := by
  unfold State.failNow
  try dsimp only
  repeat' first
    | with_reducible assumption
    | with_reducible apply Keeps.ite
    | with_reducible apply State.failingReport_keeps
    | with_reducible rfl
    | with_reducible refine Keeps.wfTile (by assumption) ?_ _
    | with_reducible apply Keeps.foldl
    | with_reducible apply Keeps.foldl_fst
    | (with_reducible refine Keeps.ofPair ?_ (by assumption))
    | split
    | dsimp only
    | fail_if_no_progress with_reducible refine Keeps.upd ?_ rfl rfl
    | fail_if_no_progress with_reducible refine Keeps.updMem ?_ (fun c => ?_) rfl rfl
    | (intro)
    | decide

theorem State.beforeReset_keeps {r₀ s : State} (hk : Keeps r₀ s) (p : ℕ) :
    Keeps r₀ (s.beforeReset p) := by
  unfold State.beforeReset
  try dsimp only
  repeat' first
    | with_reducible assumption
    | with_reducible apply Keeps.ite
    | with_reducible apply State.leaveDormant_keeps
    | with_reducible apply State.ensureActive_keeps
    | with_reducible apply State.refuseHandshake_keeps
    | with_reducible apply State.failNow_keeps
    | with_reducible apply State.abandonLoad_keeps
    | with_reducible rfl
    | with_reducible refine Keeps.wfTile (by assumption) ?_ _
    | with_reducible apply Keeps.foldl
    | with_reducible apply Keeps.foldl_fst
    | (with_reducible refine Keeps.ofPair ?_ (by assumption))
    | split
    | dsimp only
    | fail_if_no_progress with_reducible refine Keeps.upd ?_ rfl rfl
    | fail_if_no_progress with_reducible refine Keeps.updMem ?_ (fun c => ?_) rfl rfl
    | (intro)
    | decide

theorem State.withdraw_keeps {r₀ s : State} (hk : Keeps r₀ s) (inScope : Scope → Bool) :
    Keeps r₀ (s.withdraw inScope) := by
  unfold State.withdraw
  try dsimp only
  repeat' first
    | with_reducible assumption
    | with_reducible apply Keeps.ite
    | with_reducible rfl
    | with_reducible refine Keeps.wfTile (by assumption) ?_ _
    | with_reducible apply Keeps.foldl
    | with_reducible apply Keeps.foldl_fst
    | (with_reducible refine Keeps.ofPair ?_ (by assumption))
    | split
    | dsimp only
    | fail_if_no_progress with_reducible refine Keeps.upd ?_ rfl rfl
    | fail_if_no_progress with_reducible refine Keeps.updMem ?_ (fun c => ?_) rfl rfl
    | (intro)
    | decide

theorem State.beginReset_keeps {r₀ s : State} (hk : Keeps r₀ s) (sc : Scope) (bound : ℕ) :
    Keeps r₀ (s.beginReset sc bound) := by
  unfold State.beginReset
  try dsimp only
  repeat' first
    | with_reducible assumption
    | with_reducible apply Keeps.ite
    | with_reducible rfl
    | with_reducible refine Keeps.wfTile (by assumption) ?_ _
    | with_reducible apply Keeps.foldl
    | with_reducible apply Keeps.foldl_fst
    | (with_reducible refine Keeps.ofPair ?_ (by assumption))
    | split
    | dsimp only
    | fail_if_no_progress with_reducible refine Keeps.upd ?_ rfl rfl
    | fail_if_no_progress with_reducible refine Keeps.updMem ?_ (fun c => ?_) rfl rfl
    | (intro)
    | decide

theorem State.startEngine_keeps {r₀ s : State} (hk : Keeps r₀ s) (sc : Scope) (p : ℕ) (cause : ℕ) (object : ℕ) (ts : List Tile) :
    Keeps r₀ (s.startEngine sc p cause object ts) := by
  unfold State.startEngine
  try dsimp only
  repeat' first
    | with_reducible assumption
    | with_reducible apply Keeps.ite
    | with_reducible apply State.noteReset_keeps
    | with_reducible apply State.capture_keeps
    | with_reducible apply State.beforeReset_keeps
    | with_reducible apply State.beginReset_keeps
    | with_reducible apply State.onPart_keeps
    | with_reducible rfl
    | with_reducible refine Keeps.wfTile (by assumption) ?_ _
    | with_reducible apply Keeps.foldl
    | with_reducible apply Keeps.foldl_fst
    | (with_reducible refine Keeps.ofPair ?_ (by assumption))
    | split
    | dsimp only
    | fail_if_no_progress with_reducible refine Keeps.upd ?_ rfl rfl
    | fail_if_no_progress with_reducible refine Keeps.updMem ?_ (fun c => ?_) rfl rfl
    | (intro)
    | decide

theorem State.dropTransfers_keeps {r₀ s : State} (hk : Keeps r₀ s) (p : ℕ) :
    Keeps r₀ (s.dropTransfers p) := by
  unfold State.dropTransfers
  try dsimp only
  repeat' first
    | with_reducible assumption
    | with_reducible apply Keeps.ite
    | with_reducible apply State.onPart_keeps
    | with_reducible apply State.useFree_keeps
    | with_reducible rfl
    | with_reducible refine Keeps.wfTile (by assumption) ?_ _
    | with_reducible apply Keeps.foldl
    | with_reducible apply Keeps.foldl_fst
    | (with_reducible refine Keeps.ofPair ?_ (by assumption))
    | split
    | dsimp only
    | fail_if_no_progress with_reducible refine Keeps.upd ?_ rfl rfl
    | fail_if_no_progress with_reducible refine Keeps.updMem ?_ (fun c => ?_) rfl rfl
    | (intro)
    | decide

theorem State.startPart_keeps {r₀ s : State} (hk : Keeps r₀ s) (p cause reason object : ℕ) :
    Keeps r₀ (s.startPart p cause reason object) := by
  unfold State.startPart
  extract_lets s1 s2 w s3
  have h1 : Keeps r₀ s1 := State.dropTransfers_keeps (State.fencePart_keeps
    (State.withdraw_keeps (State.beforeReset_keeps hk p) (ofPart p)) p reason pResetting) p
  have h2 : Keeps r₀ s2 := State.noteReset_keeps (State.capture_keeps h1 _ _ _ _ _) _ _ _
  clear_value s2
  have h3 : Keeps r₀ s3 := by
    have h' := Keeps.mapTiles h2 (fun x => if x.1 / 256 = p then (x.1, resetTile x.2) else x) (fun x => by split <;> rfl)
      fun x hx => by split; exact resetTile_tkeeps _ hx; exact hx
    exact Keeps.upd h' rfl rfl
  exact State.beginReset_keeps h3 _ _

theorem State.countPart_keeps {r₀ s : State} (hk : Keeps r₀ s) (p : ℕ) (start : ℕ) :
    Keeps r₀ (s.countPart p start) := by
  unfold State.countPart
  try dsimp only
  repeat' first
    | with_reducible assumption
    | with_reducible apply Keeps.ite
    | with_reducible apply State.onPart_keeps
    | with_reducible rfl
    | with_reducible refine Keeps.wfTile (by assumption) ?_ _
    | with_reducible apply Keeps.foldl
    | with_reducible apply Keeps.foldl_fst
    | (with_reducible refine Keeps.ofPair ?_ (by assumption))
    | split
    | dsimp only
    | fail_if_no_progress with_reducible refine Keeps.upd ?_ rfl rfl
    | fail_if_no_progress with_reducible refine Keeps.updMem ?_ (fun c => ?_) rfl rfl
    | (intro)
    | decide

theorem State.dropUncommitted_keeps {r₀ s : State} (hk : Keeps r₀ s) :
    Keeps r₀ (s.dropUncommitted) := by
  unfold State.dropUncommitted
  try dsimp only
  repeat' first
    | with_reducible assumption
    | with_reducible apply Keeps.ite
    | with_reducible apply State.refreshOpen_keeps
    | with_reducible apply State.onJob_keeps
    | with_reducible apply State.decantPages_keeps
    | with_reducible rfl
    | with_reducible refine Keeps.wfTile (by assumption) ?_ _
    | with_reducible apply Keeps.foldl
    | with_reducible apply Keeps.foldl_fst
    | (with_reducible refine Keeps.ofPair ?_ (by assumption))
    | split
    | dsimp only
    | fail_if_no_progress with_reducible refine Keeps.upd ?_ rfl rfl
    | fail_if_no_progress with_reducible refine Keeps.updMem ?_ (fun c => ?_) rfl rfl
    | (intro)
    | decide

theorem State.outOfService_keeps {r₀ s : State} (hk : Keeps r₀ s) :
    Keeps r₀ (s.outOfService) := by
  unfold State.outOfService
  try dsimp only
  repeat' first
    | with_reducible assumption
    | with_reducible apply Keeps.ite
    | with_reducible apply State.dropUncommitted_keeps
    | with_reducible apply State.haltStages_keeps
    | with_reducible apply State.withdraw_keeps
    | with_reducible apply State.abandonLoad_keeps
    | with_reducible apply State.abandonHandshake_keeps
    | with_reducible apply State.allTiles_keeps
    | with_reducible apply resetTile_tkeeps
    | with_reducible apply State.event_keeps
    | with_reducible apply State.toState_keeps
    | with_reducible apply State.railsOff_keeps
    | with_reducible rfl
    | with_reducible refine Keeps.wfTile (by assumption) ?_ _
    | with_reducible apply Keeps.foldl
    | with_reducible apply Keeps.foldl_fst
    | (with_reducible refine Keeps.ofPair ?_ (by assumption))
    | split
    | dsimp only
    | fail_if_no_progress with_reducible refine Keeps.upd ?_ rfl rfl
    | fail_if_no_progress with_reducible refine Keeps.updMem ?_ (fun c => ?_) rfl rfl
    | (intro)
    | decide

theorem State.retirePart_keeps {r₀ s : State} (hk : Keeps r₀ s) (p : ℕ) :
    Keeps r₀ (s.retirePart p) := by
  unfold State.retirePart
  try dsimp only
  repeat' first
    | with_reducible assumption
    | with_reducible apply Keeps.ite
    | with_reducible apply State.railsOff_keeps
    | with_reducible apply State.fencePart_keeps
    | with_reducible apply State.outOfService_keeps
    | with_reducible rfl
    | with_reducible refine Keeps.wfTile (by assumption) ?_ _
    | with_reducible apply Keeps.foldl
    | with_reducible apply Keeps.foldl_fst
    | (with_reducible refine Keeps.ofPair ?_ (by assumption))
    | split
    | dsimp only
    | fail_if_no_progress with_reducible refine Keeps.upd ?_ rfl rfl
    | fail_if_no_progress with_reducible refine Keeps.updMem ?_ (fun c => ?_) rfl rfl
    | (intro)
    | decide

theorem State.checkCounts_keeps {r₀ s : State} (hk : Keeps r₀ s) :
    Keeps r₀ (s.checkCounts) := by
  unfold State.checkCounts
  try dsimp only
  repeat' first
    | with_reducible assumption
    | with_reducible apply Keeps.ite
    | with_reducible apply State.retirePart_keeps
    | with_reducible apply State.outOfService_keeps
    | with_reducible rfl
    | with_reducible refine Keeps.wfTile (by assumption) ?_ _
    | with_reducible apply Keeps.foldl
    | with_reducible apply Keeps.foldl_fst
    | (with_reducible refine Keeps.ofPair ?_ (by assumption))
    | split
    | dsimp only
    | fail_if_no_progress with_reducible refine Keeps.upd ?_ rfl rfl
    | fail_if_no_progress with_reducible refine Keeps.updMem ?_ (fun c => ?_) rfl rfl
    | (intro)
    | decide

theorem State.discardImage_keeps {r₀ s : State} (hk : Keeps r₀ s) : Keeps r₀ s.discardImage := by
  unfold State.discardImage
  refine Keeps.ite hk ?_
  refine State.reholdPorts_keeps (State.refreshOpen_keeps (Keeps.foldl _ ?_ fun _ _ h => State.onPort_keeps h _ _))
  exact Keeps.devWord hk rfl rfl rfl rfl rfl rfl rfl (State.devState_spare _ _) rfl

theorem State.startCompute_keeps {r₀ s : State} (hk : Keeps r₀ s) (cause : ℕ) (reason : ℕ) (object : ℕ) :
    Keeps r₀ (s.startCompute cause reason object) := by
  unfold State.startCompute
  try dsimp only
  repeat' first
    | with_reducible assumption
    | with_reducible apply Keeps.ite
    | with_reducible apply State.withdraw_keeps
    | with_reducible apply State.beforeReset_keeps
    | with_reducible apply State.countPart_keeps
    | with_reducible apply State.capture_keeps
    | with_reducible apply State.dropTransfers_keeps
    | with_reducible apply State.fencePart_keeps
    | with_reducible apply State.discardImage_keeps
    | with_reducible apply State.noteReset_keeps
    | with_reducible apply State.allTiles_keeps
    | with_reducible apply resetTile_tkeeps
    | with_reducible apply State.beginReset_keeps
    | with_reducible rfl
    | with_reducible refine Keeps.wfTile (by assumption) ?_ _
    | with_reducible apply Keeps.foldl
    | with_reducible apply Keeps.foldl_fst
    | (with_reducible refine Keeps.ofPair ?_ (by assumption))
    | split
    | dsimp only
    | fail_if_no_progress with_reducible refine Keeps.upd ?_ rfl rfl
    | fail_if_no_progress with_reducible refine Keeps.updMem ?_ (fun c => ?_) rfl rfl
    | (intro)
    | decide

theorem State.takeReset_keeps {r₀ s : State} (hk : Keeps r₀ s) (o : Scope) (level : ℕ) (cause : ℕ) (reason : ℕ) (object : ℕ) (ts : List Tile) :
    Keeps r₀ (s.takeReset o level cause reason object ts) := by
  unfold State.takeReset
  try dsimp only
  repeat' first
    | with_reducible assumption
    | with_reducible apply Keeps.ite
    | with_reducible apply State.startEngine_keeps
    | with_reducible apply State.startPart_keeps
    | with_reducible apply State.startCompute_keeps
    | with_reducible apply State.outOfService_keeps
    | with_reducible rfl
    | with_reducible refine Keeps.wfTile (by assumption) ?_ _
    | with_reducible apply Keeps.foldl
    | with_reducible apply Keeps.foldl_fst
    | (with_reducible refine Keeps.ofPair ?_ (by assumption))
    | split
    | dsimp only
    | fail_if_no_progress with_reducible refine Keeps.upd ?_ rfl rfl
    | fail_if_no_progress with_reducible refine Keeps.updMem ?_ (fun c => ?_) rfl rfl
    | (intro)
    | decide

theorem State.waitFenced_keeps {r₀ s : State} (hk : Keeps r₀ s) (o : Scope) (level : ℕ) :
    Keeps r₀ (s.waitFenced o level) := by
  unfold State.waitFenced
  try dsimp only
  repeat' first
    | with_reducible assumption
    | with_reducible apply Keeps.ite
    | with_reducible apply State.fencePart_keeps
    | with_reducible rfl
    | with_reducible refine Keeps.wfTile (by assumption) ?_ _
    | with_reducible apply Keeps.foldl
    | with_reducible apply Keeps.foldl_fst
    | (with_reducible refine Keeps.ofPair ?_ (by assumption))
    | split
    | dsimp only
    | fail_if_no_progress with_reducible refine Keeps.upd ?_ rfl rfl
    | fail_if_no_progress with_reducible refine Keeps.updMem ?_ (fun c => ?_) rfl rfl
    | (intro)
    | decide

theorem State.expire_keeps {r₀ s : State} (hk : Keeps r₀ s) (o : Scope) (base : ℕ) (cause : ℕ) (object : ℕ) (ts : List Tile) :
    Keeps r₀ (s.expire o base cause object ts) := by
  unfold State.expire
  try dsimp only
  repeat' first
    | with_reducible assumption
    | with_reducible apply Keeps.ite
    | with_reducible apply State.takeReset_keeps
    | with_reducible apply State.waitFenced_keeps
    | with_reducible apply State.failNow_keeps
    | with_reducible apply State.ask_keeps
    | with_reducible rfl
    | with_reducible refine Keeps.wfTile (by assumption) ?_ _
    | with_reducible apply Keeps.foldl
    | with_reducible apply Keeps.foldl_fst
    | (with_reducible refine Keeps.ofPair ?_ (by assumption))
    | split
    | dsimp only
    | fail_if_no_progress with_reducible refine Keeps.upd ?_ rfl rfl
    | fail_if_no_progress with_reducible refine Keeps.updMem ?_ (fun c => ?_) rfl rfl
    | (intro)
    | decide

theorem State.escalate_keeps {r₀ s : State} (hk : Keeps r₀ s) (code : ℕ) :
    Keeps r₀ (s.escalate code) := by
  unfold State.escalate
  try dsimp only
  repeat' first
    | with_reducible assumption
    | with_reducible apply Keeps.ite
    | with_reducible apply State.takeReset_keeps
    | with_reducible rfl
    | with_reducible refine Keeps.wfTile (by assumption) ?_ _
    | with_reducible apply Keeps.foldl
    | with_reducible apply Keeps.foldl_fst
    | (with_reducible refine Keeps.ofPair ?_ (by assumption))
    | split
    | dsimp only
    | fail_if_no_progress with_reducible refine Keeps.upd ?_ rfl rfl
    | fail_if_no_progress with_reducible refine Keeps.updMem ?_ (fun c => ?_) rfl rfl
    | (intro)
    | decide

theorem State.holdScope_keeps {r₀ s : State} (hk : Keeps r₀ s) (code : ℕ) :
    Keeps r₀ (s.holdScope code) := by
  unfold State.holdScope
  try dsimp only
  repeat' first
    | with_reducible assumption
    | with_reducible apply Keeps.ite
    | with_reducible apply State.onPart_keeps
    | with_reducible rfl
    | with_reducible refine Keeps.wfTile (by assumption) ?_ _
    | with_reducible apply Keeps.foldl
    | with_reducible apply Keeps.foldl_fst
    | (with_reducible refine Keeps.ofPair ?_ (by assumption))
    | split
    | dsimp only
    | fail_if_no_progress with_reducible refine Keeps.upd ?_ rfl rfl
    | fail_if_no_progress with_reducible refine Keeps.updMem ?_ (fun c => ?_) rfl rfl
    | (intro)
    | decide

theorem State.tileUnitWatchdog_keeps {r₀ s : State} (hk : Keeps r₀ s) (tl : TileRef) (u : ℕ) :
    Keeps r₀ (s.tileUnitWatchdog tl u) := by
  unfold State.tileUnitWatchdog
  try dsimp only
  repeat' first
    | with_reducible assumption
    | with_reducible apply Keeps.ite
    | with_reducible apply State.expire_keeps
    | with_reducible apply State.tileFault_keeps
    | with_reducible rfl
    | with_reducible refine Keeps.wfTile (by assumption) ?_ _
    | with_reducible apply Keeps.foldl
    | with_reducible apply Keeps.foldl_fst
    | (with_reducible refine Keeps.ofPair ?_ (by assumption))
    | split
    | dsimp only
    | fail_if_no_progress with_reducible refine Keeps.upd ?_ rfl rfl
    | fail_if_no_progress with_reducible refine Keeps.updMem ?_ (fun c => ?_) rfl rfl
    | (intro)
    | decide

theorem State.heartbeatWatchdog_keeps {r₀ s : State} (hk : Keeps r₀ s) (tl : TileRef) :
    Keeps r₀ (s.heartbeatWatchdog tl) := by
  unfold State.heartbeatWatchdog
  try dsimp only
  repeat' first
    | with_reducible assumption
    | with_reducible apply Keeps.ite
    | with_reducible apply State.expire_keeps
    | with_reducible rfl
    | with_reducible refine Keeps.wfTile (by assumption) ?_ _
    | with_reducible apply Keeps.foldl
    | with_reducible apply Keeps.foldl_fst
    | (with_reducible refine Keeps.ofPair ?_ (by assumption))
    | split
    | dsimp only
    | fail_if_no_progress with_reducible refine Keeps.upd ?_ rfl rfl
    | fail_if_no_progress with_reducible refine Keeps.updMem ?_ (fun c => ?_) rfl rfl
    | (intro)
    | decide

theorem State.memoryPortWatchdog_keeps {r₀ s : State} (hk : Keeps r₀ s) (p : ℕ) (k : ℕ) (pch : ℕ) :
    Keeps r₀ (s.memoryPortWatchdog p k pch) := by
  unfold State.memoryPortWatchdog
  try dsimp only
  repeat' first
    | with_reducible assumption
    | with_reducible apply Keeps.ite
    | with_reducible apply State.channelFail_keeps
    | with_reducible apply State.expire_keeps
    | with_reducible rfl
    | with_reducible refine Keeps.wfTile (by assumption) ?_ _
    | with_reducible apply Keeps.foldl
    | with_reducible apply Keeps.foldl_fst
    | (with_reducible refine Keeps.ofPair ?_ (by assumption))
    | split
    | dsimp only
    | fail_if_no_progress with_reducible refine Keeps.upd ?_ rfl rfl
    | fail_if_no_progress with_reducible refine Keeps.updMem ?_ (fun c => ?_) rfl rfl
    | (intro)
    | decide

theorem State.routerWatchdog_keeps {r₀ s : State} (hk : Keeps r₀ s) (p : ℕ) (dieLink : Bool) :
    Keeps r₀ (s.routerWatchdog p dieLink) := by
  unfold State.routerWatchdog
  try dsimp only
  repeat' first
    | with_reducible assumption
    | with_reducible apply Keeps.ite
    | with_reducible apply State.expire_keeps
    | with_reducible rfl
    | with_reducible refine Keeps.wfTile (by assumption) ?_ _
    | with_reducible apply Keeps.foldl
    | with_reducible apply Keeps.foldl_fst
    | (with_reducible refine Keeps.ofPair ?_ (by assumption))
    | split
    | dsimp only
    | fail_if_no_progress with_reducible refine Keeps.upd ?_ rfl rfl
    | fail_if_no_progress with_reducible refine Keeps.updMem ?_ (fun c => ?_) rfl rfl
    | (intro)
    | decide

theorem State.collectiveWaitExpiry_keeps {r₀ s : State} (hk : Keeps r₀ s) (tl : TileRef) (id : ℕ) :
    Keeps r₀ (s.collectiveWaitExpiry tl id) := by
  unfold State.collectiveWaitExpiry
  try dsimp only
  repeat' first
    | with_reducible assumption
    | with_reducible apply Keeps.ite
    | with_reducible apply State.tileFault_keeps
    | with_reducible apply State.ledger_keeps
    | with_reducible apply State.onJob_keeps
    | with_reducible apply State.startHang_keeps
    | with_reducible apply State.send_keeps
    | with_reducible rfl
    | with_reducible refine Keeps.wfTile (by assumption) ?_ _
    | with_reducible apply Keeps.foldl
    | with_reducible apply Keeps.foldl_fst
    | (with_reducible refine Keeps.ofPair ?_ (by assumption))
    | split
    | dsimp only
    | fail_if_no_progress with_reducible refine Keeps.upd ?_ rfl rfl
    | fail_if_no_progress with_reducible refine Keeps.updMem ?_ (fun c => ?_) rfl rfl
    | (intro)
    | decide

theorem State.rootstockWatchdog_keeps {r₀ s : State} (hk : Keeps r₀ s) (serves : Bool) :
    Keeps r₀ (s.rootstockWatchdog serves) := by
  unfold State.rootstockWatchdog
  try dsimp only
  repeat' first
    | with_reducible assumption
    | with_reducible apply Keeps.ite
    | with_reducible apply State.driveFault_keeps
    | with_reducible rfl
    | with_reducible refine Keeps.wfTile (by assumption) ?_ _
    | with_reducible apply Keeps.foldl
    | with_reducible apply Keeps.foldl_fst
    | (with_reducible refine Keeps.ofPair ?_ (by assumption))
    | split
    | dsimp only
    | fail_if_no_progress with_reducible refine Keeps.upd ?_ rfl rfl
    | fail_if_no_progress with_reducible refine Keeps.updMem ?_ (fun c => ?_) rfl rfl
    | (intro)
    | decide

theorem State.hangIn_keeps {r₀ s : State} (hk : Keeps r₀ s) (v : ℕ) (a : ℕ) :
    Keeps r₀ (s.hangIn v a) := by
  unfold State.hangIn
  try dsimp only
  repeat' first
    | with_reducible assumption
    | with_reducible apply Keeps.ite
    | with_reducible apply State.startCompute_keeps
    | with_reducible rfl
    | with_reducible refine Keeps.wfTile (by assumption) ?_ _
    | with_reducible apply Keeps.foldl
    | with_reducible apply Keeps.foldl_fst
    | (with_reducible refine Keeps.ofPair ?_ (by assumption))
    | split
    | dsimp only
    | fail_if_no_progress with_reducible refine Keeps.upd ?_ rfl rfl
    | fail_if_no_progress with_reducible refine Keeps.updMem ?_ (fun c => ?_) rfl rfl
    | (intro)
    | decide

theorem State.replayDeadline_keeps {r₀ s : State} (hk : Keeps r₀ s) :
    Keeps r₀ (s.replayDeadline) := by
  unfold State.replayDeadline
  try dsimp only
  repeat' first
    | with_reducible assumption
    | with_reducible apply Keeps.ite
    | with_reducible apply State.askFence_keeps
    | with_reducible rfl
    | with_reducible refine Keeps.wfTile (by assumption) ?_ _
    | with_reducible apply Keeps.foldl
    | with_reducible apply Keeps.foldl_fst
    | (with_reducible refine Keeps.ofPair ?_ (by assumption))
    | split
    | dsimp only
    | fail_if_no_progress with_reducible refine Keeps.upd ?_ rfl rfl
    | fail_if_no_progress with_reducible refine Keeps.updMem ?_ (fun c => ?_) rfl rfl
    | (intro)
    | decide

theorem State.raiseLevels_keeps {r₀ s : State} (hk : Keeps r₀ s) (inScope : Scope → Bool) (l : ℕ) :
    Keeps r₀ (s.raiseLevels inScope l) := by
  unfold State.raiseLevels
  try dsimp only
  repeat' first
    | with_reducible assumption
    | with_reducible apply Keeps.ite
    | with_reducible rfl
    | with_reducible refine Keeps.wfTile (by assumption) ?_ _
    | with_reducible apply Keeps.foldl
    | with_reducible apply Keeps.foldl_fst
    | (with_reducible refine Keeps.ofPair ?_ (by assumption))
    | split
    | dsimp only
    | fail_if_no_progress with_reducible refine Keeps.upd ?_ rfl rfl
    | fail_if_no_progress with_reducible refine Keeps.updMem ?_ (fun c => ?_) rfl rfl
    | (intro)
    | decide

theorem State.resetTimeout_keeps {r₀ s : State} (hk : Keeps r₀ s) (sc : Scope) : Keeps r₀ (s.resetTimeout sc) := by
  unfold State.resetTimeout
  split
  · exact hk
  · refine Keeps.ite hk ?_
    have h (f : RstRegs) : Keeps r₀ { s with rst := f } := Keeps.upd hk rfl rfl
    split
    · exact State.outOfService_keeps (h _)
    · exact State.startCompute_keeps (State.raiseLevels_keeps (State.countPart_keeps (h _) _ _) _ _) _ _ _
    · exact State.startPart_keeps (State.raiseLevels_keeps (h _) _ _) _ _ _ _
    · exact State.startPart_keeps (State.raiseLevels_keeps (h _) _ _) _ _ _ _
    · exact State.startPart_keeps (State.raiseLevels_keeps (h _) _ _) _ _ _ _

theorem State.restartPart_keeps {r₀ s : State} (hk : Keeps r₀ s) (p : ℕ) :
    Keeps r₀ (s.restartPart p) := by
  unfold State.restartPart
  try dsimp only
  repeat' first
    | with_reducible assumption
    | with_reducible apply Keeps.ite
    | with_reducible apply State.rackPart_keeps
    | with_reducible apply State.unrack_keeps
    | with_reducible apply State.startObject_keeps
    | with_reducible rfl
    | with_reducible refine Keeps.wfTile (by assumption) ?_ _
    | with_reducible apply Keeps.foldl
    | with_reducible apply Keeps.foldl_fst
    | (with_reducible refine Keeps.ofPair ?_ (by assumption))
    | split
    | dsimp only
    | fail_if_no_progress with_reducible refine Keeps.upd ?_ rfl rfl
    | fail_if_no_progress with_reducible refine Keeps.updMem ?_ (fun c => ?_) rfl rfl
    | (intro)
    | decide

theorem State.reloadPart_keeps {r₀ s : State} (hk : Keeps r₀ s) (p : ℕ) :
    Keeps r₀ (s.reloadPart p) := by
  unfold State.reloadPart
  try dsimp only
  repeat' first
    | with_reducible assumption
    | with_reducible apply Keeps.ite
    | with_reducible apply State.loadCode_keeps
    | with_reducible rfl
    | with_reducible refine Keeps.wfTile (by assumption) ?_ _
    | with_reducible apply Keeps.foldl
    | with_reducible apply Keeps.foldl_fst
    | (with_reducible refine Keeps.ofPair ?_ (by assumption))
    | split
    | dsimp only
    | fail_if_no_progress with_reducible refine Keeps.upd ?_ rfl rfl
    | fail_if_no_progress with_reducible refine Keeps.updMem ?_ (fun c => ?_) rfl rfl
    | (intro)
    | decide

theorem State.resetTests_keeps {r₀ s : State} (hk : Keeps r₀ s) (rs : List SiteRes) :
    Keeps r₀ (s.resetTests rs) := by
  unfold State.resetTests
  try dsimp only
  repeat' first
    | with_reducible assumption
    | with_reducible apply Keeps.ite
    | with_reducible apply State.setSite_keeps
    | with_reducible apply State.countYield_keeps
    | with_reducible apply State.siteBad_keeps
    | with_reducible apply State.graftTile_keeps
    | with_reducible rfl
    | with_reducible refine Keeps.wfTile (by assumption) ?_ _
    | with_reducible apply Keeps.foldl
    | with_reducible apply Keeps.foldl_fst
    | (with_reducible refine Keeps.ofPair ?_ (by assumption))
    | split
    | dsimp only
    | fail_if_no_progress with_reducible refine Keeps.upd ?_ rfl rfl
    | fail_if_no_progress with_reducible refine Keeps.updMem ?_ (fun c => ?_) rfl rfl
    | (intro)
    | decide

theorem State.afterReset_keeps {r₀ s : State} (hk : Keeps r₀ s) :
    Keeps r₀ (s.afterReset) := by
  unfold State.afterReset
  try dsimp only
  repeat' first
    | with_reducible assumption
    | with_reducible apply Keeps.ite
    | with_reducible apply State.quarantine_keeps
    | with_reducible apply State.reportDecant_keeps
    | with_reducible rfl
    | with_reducible refine Keeps.wfTile (by assumption) ?_ _
    | with_reducible apply Keeps.foldl
    | with_reducible apply Keeps.foldl_fst
    | (with_reducible refine Keeps.ofPair ?_ (by assumption))
    | split
    | dsimp only
    | fail_if_no_progress with_reducible refine Keeps.upd ?_ rfl rfl
    | fail_if_no_progress with_reducible refine Keeps.updMem ?_ (fun c => ?_) rfl rfl
    | (intro)
    | decide

theorem State.resetComplete_keeps {r₀ s : State} (hk : Keeps r₀ s) (sc : Scope) (rs : List SiteRes) :
    Keeps r₀ (s.resetComplete sc rs) := by
  unfold State.resetComplete
  split
  · exact hk
  · refine Keeps.ite hk ?_
    have h (f : RstRegs) : Keeps r₀ { s with rst := f } := Keeps.upd hk rfl rfl
    split
    · exact State.afterReset_keeps (State.onTile_keeps (h _) _ _ fun t => clearUnit_tkeeps t _)
    · exact State.afterReset_keeps (h _)
    · exact State.afterReset_keeps (h _)
    · exact State.afterReset_keeps (State.checkCounts_keeps (State.restartPart_keeps (State.unfencePart_keeps
        (State.countPart_keeps (State.resetTests_keeps (State.reloadPart_keeps (h _) _) _) _ _) _) _))
    · have h2 (f : RstRegs) : Keeps r₀ ((List.range 8).foldl (fun s p => if s.partRetired p then s else s.unfencePart p)
          { s with rst := f }) :=
        Keeps.foldl _ (h f) fun s p hs => Keeps.ite hs (State.unfencePart_keeps hs p)
      refine Keeps.ite (State.checkCounts_keeps (State.passStage5_keeps (h2 _) _ _)) ?_
      exact State.afterReset_keeps (State.checkCounts_keeps (Keeps.foldl _ (State.countPass_keeps (State.testSites_keeps
        (State.writeBists_keeps (State.clearPass_keeps (Keeps.foldl _ (h2 _) fun _ _ hs => State.reloadPart_keeps hs _)) _ _) _))
        fun _ _ hs => State.restartPart_keeps hs _))

theorem State.hostCompute_keeps {r₀ s : State} (hk : Keeps r₀ s) :
    Keeps r₀ (s.hostCompute) := by
  unfold State.hostCompute
  try dsimp only
  repeat' first
    | with_reducible assumption
    | with_reducible apply Keeps.ite
    | with_reducible apply State.startCompute_keeps
    | with_reducible rfl
    | with_reducible refine Keeps.wfTile (by assumption) ?_ _
    | with_reducible apply Keeps.foldl
    | with_reducible apply Keeps.foldl_fst
    | (with_reducible refine Keeps.ofPair ?_ (by assumption))
    | split
    | dsimp only
    | fail_if_no_progress with_reducible refine Keeps.upd ?_ rfl rfl
    | fail_if_no_progress with_reducible refine Keeps.updMem ?_ (fun c => ?_) rfl rfl
    | (intro)
    | decide

theorem State.hostRetireClear_keeps {r₀ s : State} (hk : Keeps r₀ s) :
    Keeps r₀ (s.hostRetireClear) := by
  unfold State.hostRetireClear
  try dsimp only
  repeat' first
    | with_reducible assumption
    | with_reducible apply Keeps.ite
    | with_reducible rfl
    | with_reducible refine Keeps.wfTile (by assumption) ?_ _
    | with_reducible apply Keeps.foldl
    | with_reducible apply Keeps.foldl_fst
    | (with_reducible refine Keeps.ofPair ?_ (by assumption))
    | split
    | dsimp only
    | fail_if_no_progress with_reducible refine Keeps.upd ?_ rfl rfl
    | fail_if_no_progress with_reducible refine Keeps.updMem ?_ (fun c => ?_) rfl rfl
    | (intro)
    | decide

theorem State.hostPartReset_keeps {r₀ s : State} (hk : Keeps r₀ s) (p : ℕ) :
    Keeps r₀ (s.hostPartReset p) := by
  unfold State.hostPartReset
  try dsimp only
  repeat' first
    | with_reducible assumption
    | with_reducible apply Keeps.ite
    | with_reducible apply State.startPart_keeps
    | with_reducible rfl
    | with_reducible refine Keeps.wfTile (by assumption) ?_ _
    | with_reducible apply Keeps.foldl
    | with_reducible apply Keeps.foldl_fst
    | (with_reducible refine Keeps.ofPair ?_ (by assumption))
    | split
    | dsimp only
    | fail_if_no_progress with_reducible refine Keeps.upd ?_ rfl rfl
    | fail_if_no_progress with_reducible refine Keeps.updMem ?_ (fun c => ?_) rfl rfl
    | (intro)
    | decide

theorem State.hostFence_keeps {r₀ s : State} (hk : Keeps r₀ s) (p : ℕ) :
    Keeps r₀ (s.hostFence p) := by
  unfold State.hostFence
  try dsimp only
  repeat' first
    | with_reducible assumption
    | with_reducible apply Keeps.ite
    | with_reducible apply State.leaveDormant_keeps
    | with_reducible apply State.ensureActive_keeps
    | with_reducible apply State.refuseHandshake_keeps
    | with_reducible apply State.fencePart_keeps
    | with_reducible apply State.abandonLoad_keeps
    | with_reducible apply State.capture_keeps
    | with_reducible apply State.onPart_keeps
    | with_reducible rfl
    | with_reducible refine Keeps.wfTile (by assumption) ?_ _
    | with_reducible apply Keeps.foldl
    | with_reducible apply Keeps.foldl_fst
    | (with_reducible refine Keeps.ofPair ?_ (by assumption))
    | split
    | dsimp only
    | fail_if_no_progress with_reducible refine Keeps.upd ?_ rfl rfl
    | fail_if_no_progress with_reducible refine Keeps.updMem ?_ (fun c => ?_) rfl rfl
    | (intro)
    | decide

end Sys2Proof.Machine
end

