-- ==== Sys2Proof/Laws/Keeps/Power.lean ====
section
/-!
SUPPORT. What the operations of Machine/Power.lean keep.
-/
set_option linter.unusedTactic false
set_option linter.unreachableTactic false
namespace Sys2Proof.Machine

theorem State.powerCycle_keeps {r₀ s : State} (hk : Keeps r₀ s) : Keeps r₀ s.powerCycle := by
  have hl : State.reset.devState ≤ DS.retired := by decide
  exact
    { queue := hk.queue
      canon := fun _ => ⟨rfl, rfl, fun _ h => absurd h List.not_mem_nil, rfl, rfl, rfl, rfl⟩
      legal := fun _ => hl
      serial := hk.serial }

theorem State.railsDown_keeps {r₀ s : State} (hk : Keeps r₀ s) :
    Keeps r₀ (s.railsDown) := by
  unfold State.railsDown
  try dsimp only
  repeat' first
    | with_reducible assumption
    | with_reducible apply Keeps.ite
    | with_reducible apply State.powerCycle_keeps
    | with_reducible rfl
    | with_reducible refine Keeps.wfTile (by assumption) ?_ _
    | with_reducible apply Keeps.foldl
    | with_reducible apply Keeps.foldl_fst
    | (with_reducible refine Keeps.ofPair ?_ (by assumption))
    | split
    | dsimp only
    | fail_if_no_progress with_reducible refine Keeps.upd ?_ rfl rfl
    | fail_if_no_progress with_reducible refine Keeps.updMem ?_ (fun c => ?_) rfl rfl
    | (intro)
    | decide

theorem State.powerEnter_keeps {r₀ s : State} (hk : Keeps r₀ s) :
    Keeps r₀ (s.powerEnter) := by
  unfold State.powerEnter
  try dsimp only
  repeat' first
    | with_reducible assumption
    | with_reducible apply Keeps.ite
    | with_reducible apply State.event_keeps
    | with_reducible apply State.setRails_keeps
    | with_reducible apply State.setPower_keeps
    | with_reducible apply State.allTiles_keeps
    | with_reducible apply resetTile_tkeeps
    | with_reducible apply State.toState_keeps
    | with_reducible apply State.railsOff_keeps
    | with_reducible apply State.railsDown_keeps
    | with_reducible rfl
    | with_reducible refine Keeps.wfTile (by assumption) ?_ _
    | with_reducible apply Keeps.foldl
    | with_reducible apply Keeps.foldl_fst
    | (with_reducible refine Keeps.ofPair ?_ (by assumption))
    | split
    | dsimp only
    | fail_if_no_progress with_reducible refine Keeps.upd ?_ rfl rfl
    | fail_if_no_progress with_reducible refine Keeps.updMem ?_ (fun c => ?_) rfl rfl
    | (intro)
    | decide

theorem State.takeAnswers_keeps {r₀ s : State} (hk : Keeps r₀ s) (bs : List ℕ) (n : ℕ → ℕ) : Keeps r₀ (s.takeAnswers bs n) := by
  unfold State.takeAnswers
  have h (f : PowRegs) : Keeps r₀ { s with pow := f } := Keeps.upd hk rfl rfl
  extract_lets
  split
  · exact State.refuseHandshake_keeps (h _) _ _ _
  · exact Keeps.ite (State.powerEnter_keeps (h _)) (Keeps.upd hk rfl rfl)

theorem State.powerGo_keeps {r₀ s : State} (hk : Keeps r₀ s) (target : ℕ) :
    Keeps r₀ (s.powerGo target) := by
  unfold State.powerGo
  try dsimp only
  repeat' first
    | with_reducible assumption
    | with_reducible apply Keeps.ite
    | with_reducible apply State.leaveDormant_keeps
    | with_reducible apply State.ensureActive_keeps
    | with_reducible apply State.takeAnswers_keeps
    | with_reducible rfl
    | with_reducible refine Keeps.wfTile (by assumption) ?_ _
    | with_reducible apply Keeps.foldl
    | with_reducible apply Keeps.foldl_fst
    | (with_reducible refine Keeps.ofPair ?_ (by assumption))
    | split
    | dsimp only
    | fail_if_no_progress with_reducible refine Keeps.upd ?_ rfl rfl
    | fail_if_no_progress with_reducible refine Keeps.updMem ?_ (fun c => ?_) rfl rfl
    | (intro)
    | decide

theorem State.deferReask_keeps {r₀ s : State} (hk : Keeps r₀ s) :
    Keeps r₀ (s.deferReask) := by
  unfold State.deferReask
  try dsimp only
  repeat' first
    | with_reducible assumption
    | with_reducible apply Keeps.ite
    | with_reducible apply State.refuseHandshake_keeps
    | with_reducible apply State.takeAnswers_keeps
    | with_reducible rfl
    | with_reducible refine Keeps.wfTile (by assumption) ?_ _
    | with_reducible apply Keeps.foldl
    | with_reducible apply Keeps.foldl_fst
    | (with_reducible refine Keeps.ofPair ?_ (by assumption))
    | split
    | dsimp only
    | fail_if_no_progress with_reducible refine Keeps.upd ?_ rfl rfl
    | fail_if_no_progress with_reducible refine Keeps.updMem ?_ (fun c => ?_) rfl rfl
    | (intro)
    | decide

theorem State.tableAct_keeps {r₀ s : State} (hk : Keeps r₀ s) (i : ℕ) :
    Keeps r₀ (s.tableAct i) := by
  unfold State.tableAct
  try dsimp only
  repeat' first
    | with_reducible assumption
    | with_reducible apply Keeps.ite
    | with_reducible apply State.event_keeps
    | with_reducible apply State.leaveDormant_keeps
    | with_reducible apply State.declareFailed_keeps
    | with_reducible rfl
    | with_reducible refine Keeps.wfTile (by assumption) ?_ _
    | with_reducible apply Keeps.foldl
    | with_reducible apply Keeps.foldl_fst
    | (with_reducible refine Keeps.ofPair ?_ (by assumption))
    | split
    | dsimp only
    | fail_if_no_progress with_reducible refine Keeps.upd ?_ rfl rfl
    | fail_if_no_progress with_reducible refine Keeps.updMem ?_ (fun c => ?_) rfl rfl
    | (intro)
    | decide

theorem State.dormantWake_keeps {r₀ s : State} (hk : Keeps r₀ s) (sources : List ℤ) : Keeps r₀ (s.dormantWake sources) := by
  unfold State.dormantWake
  refine Keeps.ite hk ?_
  exact State.sendBeat_keeps (Keeps.foldl _ (Keeps.upd hk rfl rfl) fun _ _ h => State.tableAct_keeps h _) _

theorem State.avsTimeout_keeps {r₀ s : State} (hk : Keeps r₀ s) (p : ℕ) :
    Keeps r₀ (s.avsTimeout p) := by
  unfold State.avsTimeout
  try dsimp only
  repeat' first
    | with_reducible assumption
    | with_reducible apply Keeps.ite
    | with_reducible apply State.send_keeps
    | with_reducible apply State.setPart_keeps
    | with_reducible apply State.setRailBit_keeps
    | with_reducible apply State.outOfService_keeps
    | with_reducible apply State.railsOff_keeps
    | with_reducible rfl
    | with_reducible refine Keeps.wfTile (by assumption) ?_ _
    | with_reducible apply Keeps.foldl
    | with_reducible apply Keeps.foldl_fst
    | (with_reducible refine Keeps.ofPair ?_ (by assumption))
    | split
    | dsimp only
    | fail_if_no_progress with_reducible refine Keeps.upd ?_ rfl rfl
    | fail_if_no_progress with_reducible refine Keeps.updMem ?_ (fun c => ?_) rfl rfl
    | (intro)
    | decide

theorem State.avsVdone_keeps {r₀ s : State} (hk : Keeps r₀ s) (p : ℕ) :
    Keeps r₀ (s.avsVdone p) := by
  unfold State.avsVdone
  try dsimp only
  repeat' first
    | with_reducible assumption
    | with_reducible apply Keeps.ite
    | with_reducible apply State.setRailBit_keeps
    | with_reducible apply State.onPart_keeps
    | with_reducible apply State.setRail_keeps
    | with_reducible rfl
    | with_reducible refine Keeps.wfTile (by assumption) ?_ _
    | with_reducible apply Keeps.foldl
    | with_reducible apply Keeps.foldl_fst
    | (with_reducible refine Keeps.ofPair ?_ (by assumption))
    | split
    | dsimp only
    | fail_if_no_progress with_reducible refine Keeps.upd ?_ rfl rfl
    | fail_if_no_progress with_reducible refine Keeps.updMem ?_ (fun c => ?_) rfl rfl
    | (intro)
    | decide

theorem State.telemetry_keeps {r₀ s : State} (hk : Keeps r₀ s) (t : Telemetry) :
    Keeps r₀ (s.telemetry t) := by
  unfold State.telemetry
  try dsimp only
  repeat' first
    | with_reducible assumption
    | with_reducible apply Keeps.ite
    | with_reducible apply State.onPart_keeps
    | with_reducible rfl
    | with_reducible refine Keeps.wfTile (by assumption) ?_ _
    | with_reducible apply Keeps.foldl
    | with_reducible apply Keeps.foldl_fst
    | (with_reducible refine Keeps.ofPair ?_ (by assumption))
    | split
    | dsimp only
    | fail_if_no_progress with_reducible refine Keeps.upd ?_ rfl rfl
    | fail_if_no_progress with_reducible refine Keeps.updMem ?_ (fun c => ?_) rfl rfl
    | (intro)
    | decide

theorem State.lowerRail_keeps {r₀ s : State} (hk : Keeps r₀ s) (p : ℕ) (codes : ℕ) :
    Keeps r₀ (s.lowerRail p codes) := by
  unfold State.lowerRail
  try dsimp only
  repeat' first
    | with_reducible assumption
    | with_reducible apply Keeps.ite
    | with_reducible apply State.setRail_keeps
    | with_reducible rfl
    | with_reducible refine Keeps.wfTile (by assumption) ?_ _
    | with_reducible apply Keeps.foldl
    | with_reducible apply Keeps.foldl_fst
    | (with_reducible refine Keeps.ofPair ?_ (by assumption))
    | split
    | dsimp only
    | fail_if_no_progress with_reducible refine Keeps.upd ?_ rfl rfl
    | fail_if_no_progress with_reducible refine Keeps.updMem ?_ (fun c => ?_) rfl rfl
    | (intro)
    | decide

theorem State.lowerAll_keeps {r₀ s : State} (hk : Keeps r₀ s) (codes : ℕ) :
    Keeps r₀ (s.lowerAll codes) := by
  unfold State.lowerAll
  try dsimp only
  repeat' first
    | with_reducible assumption
    | with_reducible apply Keeps.ite
    | with_reducible apply State.lowerRail_keeps
    | with_reducible rfl
    | with_reducible refine Keeps.wfTile (by assumption) ?_ _
    | with_reducible apply Keeps.foldl
    | with_reducible apply Keeps.foldl_fst
    | (with_reducible refine Keeps.ofPair ?_ (by assumption))
    | split
    | dsimp only
    | fail_if_no_progress with_reducible refine Keeps.upd ?_ rfl rfl
    | fail_if_no_progress with_reducible refine Keeps.updMem ?_ (fun c => ?_) rfl rfl
    | (intro)
    | decide

theorem State.raiseRail_keeps {r₀ s : State} (hk : Keeps r₀ s) (p : ℕ) :
    Keeps r₀ (s.raiseRail p) := by
  unfold State.raiseRail
  try dsimp only
  repeat' first
    | with_reducible assumption
    | with_reducible apply Keeps.ite
    | with_reducible apply State.setRail_keeps
    | with_reducible rfl
    | with_reducible refine Keeps.wfTile (by assumption) ?_ _
    | with_reducible apply Keeps.foldl
    | with_reducible apply Keeps.foldl_fst
    | (with_reducible refine Keeps.ofPair ?_ (by assumption))
    | split
    | dsimp only
    | fail_if_no_progress with_reducible refine Keeps.upd ?_ rfl rfl
    | fail_if_no_progress with_reducible refine Keeps.updMem ?_ (fun c => ?_) rfl rfl
    | (intro)
    | decide

theorem State.raiseAll_keeps {r₀ s : State} (hk : Keeps r₀ s) :
    Keeps r₀ (s.raiseAll) := by
  unfold State.raiseAll
  try dsimp only
  repeat' first
    | with_reducible assumption
    | with_reducible apply Keeps.ite
    | with_reducible apply State.raiseRail_keeps
    | with_reducible rfl
    | with_reducible refine Keeps.wfTile (by assumption) ?_ _
    | with_reducible apply Keeps.foldl
    | with_reducible apply Keeps.foldl_fst
    | (with_reducible refine Keeps.ofPair ?_ (by assumption))
    | split
    | dsimp only
    | fail_if_no_progress with_reducible refine Keeps.upd ?_ rfl rfl
    | fail_if_no_progress with_reducible refine Keeps.updMem ?_ (fun c => ?_) rfl rfl
    | (intro)
    | decide

theorem State.restoreRails_keeps {r₀ s : State} (hk : Keeps r₀ s) :
    Keeps r₀ (s.restoreRails) := by
  unfold State.restoreRails
  try dsimp only
  repeat' first
    | with_reducible assumption
    | with_reducible apply Keeps.ite
    | with_reducible apply State.setRails_keeps
    | with_reducible rfl
    | with_reducible refine Keeps.wfTile (by assumption) ?_ _
    | with_reducible apply Keeps.foldl
    | with_reducible apply Keeps.foldl_fst
    | (with_reducible refine Keeps.ofPair ?_ (by assumption))
    | split
    | dsimp only
    | fail_if_no_progress with_reducible refine Keeps.upd ?_ rfl rfl
    | fail_if_no_progress with_reducible refine Keeps.updMem ?_ (fun c => ?_) rfl rfl
    | (intro)
    | decide

theorem State.overSample_keeps {r₀ s : State} (hk : Keeps r₀ s) (watts : ℕ) : Keeps r₀ (s.overSample watts) := by
  unfold State.overSample
  extract_lets _ s1 s2 due
  have h1 : Keeps r₀ s1 := by
    unfold s1
    split
    · exact hk
    · exact Keeps.upd hk rfl rfl
  have h2 : Keeps r₀ s2 := Keeps.ite (State.lowerAll_keeps h1 _) h1
  exact Keeps.ite h2 (State.lowerAll_keeps (Keeps.upd h2 rfl rfl) _)

theorem State.underSample_keeps {r₀ s : State} (hk : Keeps r₀ s) :
    Keeps r₀ (s.underSample) := by
  unfold State.underSample
  try dsimp only
  repeat' first
    | with_reducible assumption
    | with_reducible apply Keeps.ite
    | with_reducible rfl
    | with_reducible refine Keeps.wfTile (by assumption) ?_ _
    | with_reducible apply Keeps.foldl
    | with_reducible apply Keeps.foldl_fst
    | (with_reducible refine Keeps.ofPair ?_ (by assumption))
    | split
    | dsimp only
    | fail_if_no_progress with_reducible refine Keeps.upd ?_ rfl rfl
    | fail_if_no_progress with_reducible refine Keeps.updMem ?_ (fun c => ?_) rfl rfl
    | (intro)
    | decide

theorem State.slowStep_keeps {r₀ s : State} (hk : Keeps r₀ s) (avg : ℕ) :
    Keeps r₀ (s.slowStep avg) := by
  unfold State.slowStep
  try dsimp only
  repeat' first
    | with_reducible assumption
    | with_reducible apply Keeps.ite
    | with_reducible apply State.lowerRail_keeps
    | with_reducible apply State.raiseAll_keeps
    | with_reducible rfl
    | with_reducible refine Keeps.wfTile (by assumption) ?_ _
    | with_reducible apply Keeps.foldl
    | with_reducible apply Keeps.foldl_fst
    | (with_reducible refine Keeps.ofPair ?_ (by assumption))
    | split
    | dsimp only
    | fail_if_no_progress with_reducible refine Keeps.upd ?_ rfl rfl
    | fail_if_no_progress with_reducible refine Keeps.updMem ?_ (fun c => ?_) rfl rfl
    | (intro)
    | decide

theorem State.pinSample_keeps {r₀ s : State} (hk : Keeps r₀ s) (watts avg : ℕ) : Keeps r₀ (s.pinSample watts avg) := by
  unfold State.pinSample
  refine Keeps.ite hk ?_
  extract_lets _ s1 _ s2 s3
  have h1 : Keeps r₀ s1 := Keeps.upd hk rfl rfl
  have h2 : Keeps r₀ s2 := Keeps.ite (State.restoreRails_keeps (Keeps.upd h1 rfl rfl)) h1
  have h3 : Keeps r₀ s3 := Keeps.ite (State.overSample_keeps h2 _) (State.underSample_keeps h2)
  exact Keeps.ite h2 (State.slowStep_keeps h3 _)

theorem State.pinLoss_keeps {r₀ s : State} (hk : Keeps r₀ s) :
    Keeps r₀ (s.pinLoss) := by
  unfold State.pinLoss
  try dsimp only
  repeat' first
    | with_reducible assumption
    | with_reducible apply Keeps.ite
    | with_reducible apply State.setRails_keeps
    | with_reducible rfl
    | with_reducible refine Keeps.wfTile (by assumption) ?_ _
    | with_reducible apply Keeps.foldl
    | with_reducible apply Keeps.foldl_fst
    | (with_reducible refine Keeps.ofPair ?_ (by assumption))
    | split
    | dsimp only
    | fail_if_no_progress with_reducible refine Keeps.upd ?_ rfl rfl
    | fail_if_no_progress with_reducible refine Keeps.updMem ?_ (fun c => ?_) rfl rfl
    | (intro)
    | decide

theorem State.applyRails_keeps {r₀ s : State} (hk : Keeps r₀ s) (codes : List ℕ) :
    Keeps r₀ (s.applyRails codes) := by
  unfold State.applyRails
  try dsimp only
  repeat' first
    | with_reducible assumption
    | with_reducible apply Keeps.ite
    | with_reducible apply State.setRail_keeps
    | with_reducible rfl
    | with_reducible refine Keeps.wfTile (by assumption) ?_ _
    | with_reducible apply Keeps.foldl
    | with_reducible apply Keeps.foldl_fst
    | (with_reducible refine Keeps.ofPair ?_ (by assumption))
    | split
    | dsimp only
    | fail_if_no_progress with_reducible refine Keeps.upd ?_ rfl rfl
    | fail_if_no_progress with_reducible refine Keeps.updMem ?_ (fun c => ?_) rfl rfl
    | (intro)
    | decide

theorem State.balancing_keeps {r₀ s : State} (hk : Keeps r₀ s) (w : List ℕ) :
    Keeps r₀ (s.balancing w) := by
  unfold State.balancing
  try dsimp only
  repeat' first
    | with_reducible assumption
    | with_reducible apply Keeps.ite
    | with_reducible apply State.ask_keeps
    | with_reducible apply State.applyRails_keeps
    | with_reducible rfl
    | with_reducible refine Keeps.wfTile (by assumption) ?_ _
    | with_reducible apply Keeps.foldl
    | with_reducible apply Keeps.foldl_fst
    | (with_reducible refine Keeps.ofPair ?_ (by assumption))
    | split
    | dsimp only
    | fail_if_no_progress with_reducible refine Keeps.upd ?_ rfl rfl
    | fail_if_no_progress with_reducible refine Keeps.updMem ?_ (fun c => ?_) rfl rfl
    | (intro)
    | decide

theorem State.thermalThrottle_keeps {r₀ s : State} (hk : Keeps r₀ s) (p : ℕ) (tj : ℕ) (hbm : ℕ) :
    Keeps r₀ (s.thermalThrottle p tj hbm) := by
  unfold State.thermalThrottle
  try dsimp only
  repeat' first
    | with_reducible assumption
    | with_reducible apply Keeps.ite
    | with_reducible apply State.onPart_keeps
    | with_reducible apply State.lowerRail_keeps
    | with_reducible rfl
    | with_reducible refine Keeps.wfTile (by assumption) ?_ _
    | with_reducible apply Keeps.foldl
    | with_reducible apply Keeps.foldl_fst
    | (with_reducible refine Keeps.ofPair ?_ (by assumption))
    | split
    | dsimp only
    | fail_if_no_progress with_reducible refine Keeps.upd ?_ rfl rfl
    | fail_if_no_progress with_reducible refine Keeps.updMem ?_ (fun c => ?_) rfl rfl
    | (intro)
    | decide

theorem State.thermalTrip_keeps {r₀ s : State} (hk : Keeps r₀ s) (p : ℕ) :
    Keeps r₀ (s.thermalTrip p) := by
  unfold State.thermalTrip
  try dsimp only
  repeat' first
    | with_reducible assumption
    | with_reducible apply Keeps.ite
    | with_reducible apply State.outOfService_keeps
    | with_reducible apply State.event_keeps
    | with_reducible apply State.railsOff_keeps
    | with_reducible rfl
    | with_reducible refine Keeps.wfTile (by assumption) ?_ _
    | with_reducible apply Keeps.foldl
    | with_reducible apply Keeps.foldl_fst
    | (with_reducible refine Keeps.ofPair ?_ (by assumption))
    | split
    | dsimp only
    | fail_if_no_progress with_reducible refine Keeps.upd ?_ rfl rfl
    | fail_if_no_progress with_reducible refine Keeps.updMem ?_ (fun c => ?_) rfl rfl
    | (intro)
    | decide

end Sys2Proof.Machine
end

