-- ==== Sys2Proof/Laws/Keeps/Dct.lean ====
section
/-!
SUPPORT. What the operations of Machine/Dct.lean keep.
-/
set_option linter.unusedTactic false
set_option linter.unreachableTactic false
namespace Sys2Proof.Machine

theorem State.readAll_keeps {r₀ s : State} (hk : Keeps r₀ s) (who : Who) (vs : List Word) (i : ℕ) (l : List Word) :
    Keeps r₀ (s.readAll who vs i l).1 := by
  induction l generalizing s vs i with
  | nil => exact hk
  | cons a as ih =>
    have h := State.readReg_keeps hk who a.toNat
    unfold State.readAll
    split
    · rename_i e; rw [e] at h; exact ih h _ _
    · rename_i e; rw [e] at h; exact h

theorem State.regRead_keeps {r₀ s : State} (hk : Keeps r₀ s) (h : DctHdr) (addrs : List Word) :
    Keeps r₀ (s.regRead h addrs) := by
  unfold State.regRead
  try dsimp only
  repeat' first
    | with_reducible assumption
    | with_reducible apply Keeps.ite
    | with_reducible apply State.dct_keeps
    | with_reducible apply State.readAll_keeps
    | with_reducible rfl
    | with_reducible refine Keeps.wfTile (by assumption) ?_ _
    | with_reducible apply Keeps.foldl
    | with_reducible apply Keeps.foldl_fst
    | (with_reducible refine Keeps.ofPair ?_ (by assumption))
    | split
    | dsimp only
    | fail_if_no_progress with_reducible refine Keeps.upd ?_ rfl rfl
    | fail_if_no_progress with_reducible refine Keeps.updMem ?_ (fun c => ?_) rfl rfl
    | (intro)
    | decide

theorem State.writeAll_keeps {r₀ s : State} (hk : Keeps r₀ s) (who : Who) (i : ℕ) (l : List (Word × Word)) :
    Keeps r₀ (s.writeAll who i l).1 := by
  induction l generalizing s i with
  | nil => exact hk
  | cons x xs ih =>
    have h := State.writeReg_keeps hk who x.1.toNat x.2 (BitVec.allOnes 64)
    unfold State.writeAll
    dsimp only
    split
    · exact ih h _
    · exact h

theorem State.regWrite_keeps {r₀ s : State} (hk : Keeps r₀ s) (h : DctHdr) (pairs : List (Word × Word)) :
    Keeps r₀ (s.regWrite h pairs) := by
  unfold State.regWrite
  try dsimp only
  repeat' first
    | with_reducible assumption
    | with_reducible apply Keeps.ite
    | with_reducible apply State.dct_keeps
    | with_reducible apply State.writeAll_keeps
    | with_reducible rfl
    | with_reducible refine Keeps.wfTile (by assumption) ?_ _
    | with_reducible apply Keeps.foldl
    | with_reducible apply Keeps.foldl_fst
    | (with_reducible refine Keeps.ofPair ?_ (by assumption))
    | split
    | dsimp only
    | fail_if_no_progress with_reducible refine Keeps.upd ?_ rfl rfl
    | fail_if_no_progress with_reducible refine Keeps.updMem ?_ (fun c => ?_) rfl rfl
    | (intro)
    | decide

theorem State.bulkWrite_keeps {r₀ s : State} (hk : Keeps r₀ s) (h : DctHdr) (object : Bool) (addr : ℕ) (offset : ℕ) (bs : List Byte) (env : Envelope) :
    Keeps r₀ (s.bulkWrite h object addr offset bs env) := by
  unfold State.bulkWrite
  try dsimp only
  repeat' first
    | with_reducible assumption
    | with_reducible apply Keeps.ite
    | with_reducible apply State.dct_keeps
    | with_reducible apply State.ensureActive_keeps
    | with_reducible apply State.countRefused_keeps
    | with_reducible apply State.hbmWrite_keeps
    | with_reducible rfl
    | with_reducible refine Keeps.wfTile (by assumption) ?_ _
    | with_reducible apply Keeps.foldl
    | with_reducible apply Keeps.foldl_fst
    | (with_reducible refine Keeps.ofPair ?_ (by assumption))
    | split
    | dsimp only
    | fail_if_no_progress with_reducible refine Keeps.upd ?_ rfl rfl
    | fail_if_no_progress with_reducible refine Keeps.updMem ?_ (fun c => ?_) rfl rfl
    | (intro)
    | decide

theorem State.sealReply_keeps {r₀ s : State} (hk : Keeps r₀ s) (slot : ℕ) (bs : List Byte) :
    Keeps r₀ (s.sealReply slot bs).1 := by
  unfold State.sealReply
  try dsimp only
  repeat' first
    | with_reducible assumption
    | with_reducible apply Keeps.ite
    | with_reducible apply State.draw_keeps
    | with_reducible rfl
    | with_reducible refine Keeps.wfTile (by assumption) ?_ _
    | with_reducible apply Keeps.foldl
    | with_reducible apply Keeps.foldl_fst
    | (with_reducible refine Keeps.ofPair ?_ (by assumption))
    | split
    | dsimp only
    | fail_if_no_progress with_reducible refine Keeps.upd ?_ rfl rfl
    | fail_if_no_progress with_reducible refine Keeps.updMem ?_ (fun c => ?_) rfl rfl
    | (intro)
    | decide

theorem State.bulkRead_keeps {r₀ s : State} (hk : Keeps r₀ s) (h : DctHdr) (object : Bool) (addr : ℕ) (offset : ℕ) (n : ℕ) (slot : ℕ) :
    Keeps r₀ (s.bulkRead h object addr offset n slot) := by
  unfold State.bulkRead
  try dsimp only
  repeat' first
    | with_reducible assumption
    | with_reducible apply Keeps.ite
    | with_reducible apply State.dct_keeps
    | with_reducible apply State.ensureActive_keeps
    | with_reducible apply State.countRefused_keeps
    | with_reducible apply State.sealReply_keeps
    | with_reducible rfl
    | with_reducible refine Keeps.wfTile (by assumption) ?_ _
    | with_reducible apply Keeps.foldl
    | with_reducible apply Keeps.foldl_fst
    | (with_reducible refine Keeps.ofPair ?_ (by assumption))
    | split
    | dsimp only
    | fail_if_no_progress with_reducible refine Keeps.upd ?_ rfl rfl
    | fail_if_no_progress with_reducible refine Keeps.updMem ?_ (fun c => ?_) rfl rfl
    | (intro)
    | decide

theorem State.replyIn_keeps {r₀ s : State} (hk : Keeps r₀ s) (h : DctHdr) (seq : ℕ) (acked : Msg → State → State) (hacked : ∀ m s, Keeps r₀ s → Keeps r₀ (acked m s)) :
    Keeps r₀ (s.replyIn h seq acked) := by
  unfold State.replyIn
  try dsimp only
  repeat' first
    | with_reducible assumption
    | with_reducible apply hacked
    | with_reducible apply Keeps.ite
    | with_reducible apply State.bumpDct_keeps
    | with_reducible apply State.onSession_keeps
    | with_reducible rfl
    | with_reducible refine Keeps.wfTile (by assumption) ?_ _
    | with_reducible apply Keeps.foldl
    | with_reducible apply Keeps.foldl_fst
    | (with_reducible refine Keeps.ofPair ?_ (by assumption))
    | split
    | dsimp only
    | fail_if_no_progress with_reducible refine Keeps.upd ?_ rfl rfl
    | fail_if_no_progress with_reducible refine Keeps.updMem ?_ (fun c => ?_) rfl rfl
    | (intro)
    | decide

theorem State.ackIn_keeps {r₀ s : State} (hk : Keeps r₀ s) (h : DctHdr) (seq : ℕ) : Keeps r₀ (s.ackIn h seq) := by
  unfold State.ackIn
  refine State.replyIn_keeps hk _ _ _ fun m s hs => ?_
  split
  · exact State.manifestAck_keeps hs
  · exact hs

theorem State.nakIn_keeps {r₀ s : State} (hk : Keeps r₀ s) (h : DctHdr) (seq : ℕ) :
    Keeps r₀ (s.nakIn h seq) := by
  unfold State.nakIn
  try dsimp only
  repeat' first
    | with_reducible assumption
    | with_reducible apply Keeps.ite
    | with_reducible apply State.replyIn_keeps
    | with_reducible rfl
    | with_reducible refine Keeps.wfTile (by assumption) ?_ _
    | with_reducible apply Keeps.foldl
    | with_reducible apply Keeps.foldl_fst
    | (with_reducible refine Keeps.ofPair ?_ (by assumption))
    | split
    | dsimp only
    | fail_if_no_progress with_reducible refine Keeps.upd ?_ rfl rfl
    | fail_if_no_progress with_reducible refine Keeps.updMem ?_ (fun c => ?_) rfl rfl
    | (intro)
    | decide

theorem State.retransmit_keeps {r₀ s : State} (hk : Keeps r₀ s) (session : ℕ) (seq : ℕ) :
    Keeps r₀ (s.retransmit session seq) := by
  unfold State.retransmit
  try dsimp only
  repeat' first
    | with_reducible assumption
    | with_reducible apply Keeps.ite
    | with_reducible apply State.send_keeps
    | with_reducible apply State.bumpDct_keeps
    | with_reducible rfl
    | with_reducible refine Keeps.wfTile (by assumption) ?_ _
    | with_reducible apply Keeps.foldl
    | with_reducible apply Keeps.foldl_fst
    | (with_reducible refine Keeps.ofPair ?_ (by assumption))
    | split
    | dsimp only
    | fail_if_no_progress with_reducible refine Keeps.upd ?_ rfl rfl
    | fail_if_no_progress with_reducible refine Keeps.updMem ?_ (fun c => ?_) rfl rfl
    | (intro)
    | decide

end Sys2Proof.Machine
end

