-- ==== Sys2Proof/Laws/Keeps/Decisions.lean ====
section
/-!
SUPPORT. What the operations of Machine/Decisions.lean keep.
-/
set_option linter.unusedTactic false
set_option linter.unreachableTactic false
namespace Sys2Proof.Machine

theorem State.useSpare_keeps {r₀ s : State} (hk : Keeps r₀ s) (d : Decision) (sp : ℕ) :
    Keeps r₀ (s.useSpare d sp) := by
  unfold State.useSpare
  try dsimp only
  repeat' first
    | with_reducible assumption
    | with_reducible apply Keeps.ite
    | with_reducible apply State.wakeFor_keeps
    | with_reducible apply State.putGraft_keeps
    | with_reducible apply State.selectSpare_keeps
    | with_reducible rfl
    | with_reducible refine Keeps.wfTile (by assumption) ?_ _
    | with_reducible apply Keeps.foldl
    | with_reducible apply Keeps.foldl_fst
    | (with_reducible refine Keeps.ofPair ?_ (by assumption))
    | split
    | dsimp only
    | fail_if_no_progress with_reducible refine Keeps.upd ?_ rfl rfl
    | fail_if_no_progress with_reducible refine Keeps.updMem ?_ (fun c => ?_) rfl rfl
    | (intro)
    | decide

theorem State.holdGraft_keeps {r₀ s : State} (hk : Keeps r₀ s) (d : Decision) :
    Keeps r₀ (s.holdGraft d) := by
  unfold State.holdGraft
  try dsimp only
  repeat' first
    | with_reducible assumption
    | with_reducible apply Keeps.ite
    | with_reducible apply State.onFd_keeps
    | with_reducible apply State.multicastRollback_keeps
    | with_reducible rfl
    | with_reducible refine Keeps.wfTile (by assumption) ?_ _
    | with_reducible apply Keeps.foldl
    | with_reducible apply Keeps.foldl_fst
    | (with_reducible refine Keeps.ofPair ?_ (by assumption))
    | split
    | dsimp only
    | fail_if_no_progress with_reducible refine Keeps.upd ?_ rfl rfl
    | fail_if_no_progress with_reducible refine Keeps.updMem ?_ (fun c => ?_) rfl rfl
    | (intro)
    | decide

theorem State.applyX_keeps {r₀ s : State} (hk : Keeps r₀ s) (tensor : ℕ) (x : ℕ) :
    Keeps r₀ (s.applyX tensor x) := by
  unfold State.applyX
  try dsimp only
  repeat' first
    | with_reducible assumption
    | with_reducible apply Keeps.ite
    | with_reducible apply State.onJob_keeps
    | with_reducible rfl
    | with_reducible refine Keeps.wfTile (by assumption) ?_ _
    | with_reducible apply Keeps.foldl
    | with_reducible apply Keeps.foldl_fst
    | (with_reducible refine Keeps.ofPair ?_ (by assumption))
    | split
    | dsimp only
    | fail_if_no_progress with_reducible refine Keeps.upd ?_ rfl rfl
    | fail_if_no_progress with_reducible refine Keeps.updMem ?_ (fun c => ?_) rfl rfl
    | (intro)
    | decide

theorem State.scalesSettled_keeps {r₀ s : State} (hk : Keeps r₀ s) :
    Keeps r₀ (s.scalesSettled) := by
  unfold State.scalesSettled
  try dsimp only
  repeat' first
    | with_reducible assumption
    | with_reducible apply Keeps.ite
    | with_reducible apply State.multicastVerdict_keeps
    | with_reducible rfl
    | with_reducible refine Keeps.wfTile (by assumption) ?_ _
    | with_reducible apply Keeps.foldl
    | with_reducible apply Keeps.foldl_fst
    | (with_reducible refine Keeps.ofPair ?_ (by assumption))
    | split
    | dsimp only
    | fail_if_no_progress with_reducible refine Keeps.upd ?_ rfl rfl
    | fail_if_no_progress with_reducible refine Keeps.updMem ?_ (fun c => ?_) rfl rfl
    | (intro)
    | decide

theorem State.settle_keeps {r₀ s : State} (hk : Keeps r₀ s) (d : Decision) (answer : ℕ) (v : Word) :
    Keeps r₀ (s.settle d answer v) := by
  unfold State.settle
  try dsimp only
  repeat' first
    | with_reducible assumption
    | with_reducible apply Keeps.ite
    | with_reducible apply State.takeFence_keeps
    | with_reducible apply State.useSpare_keeps
    | with_reducible apply State.holdGraft_keeps
    | with_reducible apply State.scalesSettled_keeps
    | with_reducible apply State.applyX_keeps
    | with_reducible apply State.decideCheck_keeps
    | with_reducible apply State.startStreams_keeps
    | with_reducible apply State.swapPort_keeps
    | with_reducible apply State.escalate_keeps
    | with_reducible apply State.holdScope_keeps
    | with_reducible apply State.applyRails_keeps
    | with_reducible rfl
    | with_reducible refine Keeps.wfTile (by assumption) ?_ _
    | with_reducible apply Keeps.foldl
    | with_reducible apply Keeps.foldl_fst
    | (with_reducible refine Keeps.ofPair ?_ (by assumption))
    | split
    | dsimp only
    | fail_if_no_progress with_reducible refine Keeps.upd ?_ rfl rfl
    | fail_if_no_progress with_reducible refine Keeps.updMem ?_ (fun c => ?_) rfl rfl
    | (intro)
    | decide

theorem State.markDecision_keeps {r₀ s : State} (hk : Keeps r₀ s) (id : ℕ) (st : ℕ) :
    Keeps r₀ (s.markDecision id st) := by
  unfold State.markDecision
  try dsimp only
  repeat' first
    | with_reducible assumption
    | with_reducible apply Keeps.ite
    | with_reducible rfl
    | with_reducible refine Keeps.wfTile (by assumption) ?_ _
    | with_reducible apply Keeps.foldl
    | with_reducible apply Keeps.foldl_fst
    | (with_reducible refine Keeps.ofPair ?_ (by assumption))
    | split
    | dsimp only
    | fail_if_no_progress with_reducible refine Keeps.upd ?_ rfl rfl
    | fail_if_no_progress with_reducible refine Keeps.updMem ?_ (fun c => ?_) rfl rfl
    | (intro)
    | decide

theorem State.takeAnswer_keeps {r₀ s : State} (hk : Keeps r₀ s) (id : ℕ) (answer : ℕ) (v : Word) :
    Keeps r₀ (s.takeAnswer id answer v).1 := by
  unfold State.takeAnswer
  try dsimp only
  repeat' first
    | with_reducible assumption
    | with_reducible apply Keeps.ite
    | with_reducible apply State.settle_keeps
    | with_reducible apply State.markDecision_keeps
    | with_reducible rfl
    | with_reducible refine Keeps.wfTile (by assumption) ?_ _
    | with_reducible apply Keeps.foldl
    | with_reducible apply Keeps.foldl_fst
    | (with_reducible refine Keeps.ofPair ?_ (by assumption))
    | split
    | dsimp only
    | fail_if_no_progress with_reducible refine Keeps.upd ?_ rfl rfl
    | fail_if_no_progress with_reducible refine Keeps.updMem ?_ (fun c => ?_) rfl rfl
    | (intro)
    | decide

theorem State.decisionAns_keeps {r₀ s : State} (hk : Keeps r₀ s) (h : DctHdr) (id : ℕ) (answer : ℕ) (v : Word) :
    Keeps r₀ (s.decisionAns h id answer v) := by
  unfold State.decisionAns
  try dsimp only
  repeat' first
    | with_reducible assumption
    | with_reducible apply Keeps.ite
    | with_reducible apply State.dct_keeps
    | with_reducible apply State.takeAnswer_keeps
    | with_reducible rfl
    | with_reducible refine Keeps.wfTile (by assumption) ?_ _
    | with_reducible apply Keeps.foldl
    | with_reducible apply Keeps.foldl_fst
    | (with_reducible refine Keeps.ofPair ?_ (by assumption))
    | split
    | dsimp only
    | fail_if_no_progress with_reducible refine Keeps.upd ?_ rfl rfl
    | fail_if_no_progress with_reducible refine Keeps.updMem ?_ (fun c => ?_) rfl rfl
    | (intro)
    | decide

theorem State.deadlinePasses_keeps {r₀ s : State} (hk : Keeps r₀ s) (id : ℕ) :
    Keeps r₀ (s.deadlinePasses id) := by
  unfold State.deadlinePasses
  try dsimp only
  repeat' first
    | with_reducible assumption
    | with_reducible apply Keeps.ite
    | with_reducible apply State.event_keeps
    | with_reducible apply State.settle_keeps
    | with_reducible apply State.markDecision_keeps
    | with_reducible rfl
    | with_reducible refine Keeps.wfTile (by assumption) ?_ _
    | with_reducible apply Keeps.foldl
    | with_reducible apply Keeps.foldl_fst
    | (with_reducible refine Keeps.ofPair ?_ (by assumption))
    | split
    | dsimp only
    | fail_if_no_progress with_reducible refine Keeps.upd ?_ rfl rfl
    | fail_if_no_progress with_reducible refine Keeps.updMem ?_ (fun c => ?_) rfl rfl
    | (intro)
    | decide

end Sys2Proof.Machine
end

