-- ==== Sys2Proof/Laws/Tile.lean ====
section
/-!
SUPPORT. What the operations that every instruction of a tile shares do: issue, retire, count, finish, hold, fault.
Each is stated as one write of the tile.
-/
namespace Sys2Proof.Machine

/-- A tile whose sequencer has gone on at word `dest`, with the loops `ls` open. -/
def goneTile (dest : Nat) (ls : List Loop) (t : Tile) : Tile :=
  { t with
    status := setF (setF t.status tileStatus_progress (getF t.status tileStatus_progress + 1)) tileStatus_tileState TS.running
    seq := { t.seq with index := dest, loops := ls, held := none } }

/-- A tile with its instruction retired. -/
def retiredTile (t : Tile) : Tile := goneTile (t.seq.index + 1) t.seq.loops t

/-- A tile whose counter k has grown by n. -/
def countedTile (now k n : Nat) (t : Tile) : Tile :=
  { t with counters := Sparse.set 0 t.counters k (counter t k + n), marks := Sparse.set 0 t.marks (256 + k) now }

/-- A tile whose instruction has retired and completed. -/
def finishedTile (now : Nat) (w : Word) (t : Tile) : Tile :=
  if flagF w iw_syncEn then countedTile now (getF w iw_counter) (getF w iw_inc + 1) (retiredTile t) else retiredTile t

/-- A tile that waits, since when and for what. -/
def heldTile (now code : Nat) (t : Tile) : Tile :=
  { t with status := setF t.status tileStatus_tileState TS.waiting, seq := { t.seq with held := some (t.seq.held.getD (now, code)) } }

/-- Two tiles whose sequencer waits alike, outside a span that is run again: a wait that ends leaves the same record. -/
structure SameWait (t u : Tile) : Prop where
  ctl : u.ctl = t.ctl
  held : u.seq.held = t.seq.held
  evaluating : u.seq.evaluating = t.seq.evaluating
  own : u.seq.redo = none

/-- The marks of a tile with a unit's progress at a time. -/
def markedTile (now u : Nat) (t : Tile) : Tile := { t with marks := Sparse.set 0 t.marks u now }

namespace State

/-! ## A tile written again -/

theorem setTile_tile {s : State} (h : Canonical s) (tl : TileRef) : s.setTile tl (s.tile tl) = s := by
  unfold setTile tile; rw [Sparse.set_get _ h.tiles]

theorem setTile_again {s : State} (h : Canonical s) (tl : TileRef) (t u : Tile) : (s.setTile tl t).setTile tl u = s.setTile tl u :=
  setTile_setTile h.tiles tl t u

theorem onTile_setTile {s : State} (h : Canonical s) (tl : TileRef) (t : Tile) (f : Tile → Tile) :
    (s.setTile tl t).onTile tl f = s.setTile tl (f t) := by
  unfold onTile; rw [tile_setTile_same, setTile_again h]

@[simp] theorem now_setTile (s : State) (tl : TileRef) (t : Tile) : (s.setTile tl t).now = s.now := by
  unfold now; rw [setTile_time]

/-! ## The shared operations, on a tile just written -/

/-- A wait that ends on a tile just written: the record is that of the tile before, and the tile waits no more. -/
theorem endWait_setTile {s : State} (h : Canonical s) (tl : TileRef) (t : Tile) (hw : SameWait (s.tile tl) t) :
    (s.setTile tl t).endWait tl = (s.endWait tl).setTile tl { t with seq := { t.seq with held := none } } := by
  have tg : (s.setTile tl t).tagOf tl = s.tagOf tl := by
    unfold tagOf; rw [tile_setTile_same, hw.evaluating]; rfl
  have dt : (s.setTile tl t).detail tl = s.detail tl := by unfold detail; rw [tile_setTile_same, hw.ctl]
  have st : ∀ c n, (s.setTile tl t).stall tl c n = (s.stall tl c n).setTile tl t := fun c n => by
    unfold stall; rw [dt]
    split
    · rfl
    · unfold stageRecord; rw [tg]; rfl
  have sw : ∀ c n, Sparse.wf Tile.reset (s.stall tl c n).tiles = true := fun c n => by
    unfold stall stageRecord; split <;> exact h.tiles
  unfold endWait
  rw [tile_setTile_same, hw.held]
  cases e : (s.tile tl).seq.held with
  | none =>
    have : ({ t with seq := { t.seq with held := none } } : Tile) = t := by
      have e' : t.seq.held = none := by rw [hw.held, e]
      rcases t with ⟨⟩; rename_i q _ _ _ _ _ _ _ _ _ _ _ _ _ _ _; rcases q; simp_all
    rw [this]
  | some x =>
    dsimp only
    rw [st, now_setTile]
    unfold onTile
    rw [tile_setTile_same, setTile_setTile (sw _ _), setTile_setTile (sw _ _)]

theorem tiles_endWait {s : State} (h : Canonical s) (tl : TileRef) : Sparse.wf Tile.reset (s.endWait tl).tiles = true := by
  unfold endWait
  split
  · exact h.tiles
  · unfold stall stageRecord onTile setTile; split <;> exact Sparse.wf_set _ _ h.tiles

@[simp] theorem now_endWait (s : State) (tl : TileRef) : (s.endWait tl).now = s.now := by
  unfold endWait
  split
  · rfl
  · unfold stall stageRecord; split <;> rfl

/-- A sequencer that waits for nothing leaves no record. -/
theorem endWait_of_none {s : State} {tl : TileRef} (h : (s.tile tl).seq.held = none) : s.endWait tl = s := by unfold endWait; rw [h]

theorem goOn_setTile {s : State} (h : Canonical s) (tl : TileRef) (t : Tile) (dest : Nat) (ls : List Loop) (hw : SameWait (s.tile tl) t) :
    (s.setTile tl t).goOn tl dest ls = (s.endWait tl).setTile tl (goneTile dest ls t) := by
  unfold goOn
  rw [endWait_setTile h tl t hw]
  dsimp only
  rw [tile_setTile_same, setTile_setTile (tiles_endWait h tl)]
  unfold leaveSpan goneTile
  dsimp only
  rw [hw.own]

theorem retire_setTile {s : State} (h : Canonical s) (tl : TileRef) (t : Tile) (hw : SameWait (s.tile tl) t) :
    (s.setTile tl t).retire tl = (s.endWait tl).setTile tl (retiredTile t) := by
  unfold retire; rw [tile_setTile_same]; exact goOn_setTile h tl t _ _ hw

theorem syncAdd_setTile {s : State} (h : Sparse.wf Tile.reset s.tiles = true) (tl : TileRef) (t : Tile) (k n : Nat)
    (hv : counter t k + n ≤ 0xffffffff) :
    (s.setTile tl t).syncAdd tl k n = s.setTile tl (countedTile s.now k n t) := by
  unfold syncAdd
  extract_lets t' v
  have ht : t' = t := tile_setTile_same s tl t
  have hv' : v = counter t k + n := by unfold v counter; rw [ht]
  rw [ht, hv', if_neg (by omega), setTile_setTile h]
  unfold countedTile now
  rw [setTile_time]

theorem finish_setTile {s : State} (h : Canonical s) (tl : TileRef) (w : Word) (t : Tile)
    (hw : SameWait (s.tile tl) t)
    (hv : flagF w iw_syncEn = true → counter t (getF w iw_counter) + (getF w iw_inc + 1) ≤ 0xffffffff) :
    (s.setTile tl t).finish tl w = (s.endWait tl).setTile tl (finishedTile s.now w t) := by
  have hc : ∀ j, counter (retiredTile t) j = counter t j := fun _ => by unfold counter retiredTile goneTile; rfl
  unfold finish syncDone finishedTile
  rw [retire_setTile h tl t hw]
  by_cases e : flagF w iw_syncEn = true
  · rw [if_pos e, if_pos e, syncAdd_setTile (tiles_endWait h tl), now_endWait]
    rw [hc]; exact hv e
  · rw [if_neg e, if_neg e]

theorem touch_setTile {s : State} (h : Canonical s) (tl : TileRef) (t : Tile) (u : Nat) :
    (s.setTile tl t).touch tl u = s.setTile tl (markedTile s.now u t) := by
  unfold touch markUnit markedTile; simp only [tile_setTile_same, setTile_again h, now_setTile]

theorem hold_setTile {s : State} (h : Canonical s) (tl : TileRef) (t : Tile) (code : Nat) :
    (s.setTile tl t).hold tl code = s.setTile tl (heldTile s.now code t) := by
  unfold hold tileSt onTile heldTile; simp only [tile_setTile_same, setTile_again h, now_setTile]

/-- An instruction that a tile issues runs its body on the tile and the word. -/
theorem issue_issues {s : State} {tl : TileRef} {c : Cls} {w : Word} (h : Issues s tl c w) (body : Tile → Word → State) :
    s.issue tl c body = body (s.tile tl) w := by
  obtain ⟨h1, h2, h3, h4, -⟩ := h
  unfold issue
  simp only [h1, h3, h4, Nat.not_le.2 h2, Bool.not_true, Bool.false_eq_true, if_false, if_true]

end State

/-! ## What a finished tile reads -/

theorem counter_countedTile (now k n : Nat) (t : Tile) (j : Nat) :
    counter (countedTile now k n t) j = counter t j + if j = k then n else 0 := by
  unfold countedTile counter
  by_cases e : j = k
  · subst e; simp [Sparse.get_set_same]
  · simp [Sparse.get_set_other _ _ _ e, e]

theorem counter_retiredTile (t : Tile) (j : Nat) : counter (retiredTile t) j = counter t j := by unfold counter retiredTile goneTile; rfl

theorem retired_retiredTile (t : Tile) : Retired t (retiredTile t) (t.seq.index + 1) where
  index := by unfold retiredTile goneTile; rfl
  progress := by
    unfold retiredTile goneTile; dsimp only
    rw [getF_setF_apart _ ⟨by decide, by decide⟩ ⟨by decide, by decide⟩ (Or.inr (by decide)), getF_setF _ ⟨by decide, by decide⟩]
    rfl
  running := by unfold retiredTile goneTile; dsimp only; rw [getF_setF _ ⟨by decide, by decide⟩]; rfl
  fault := by
    unfold retiredTile goneTile; dsimp only
    rw [getF_setF_apart _ ⟨by decide, by decide⟩ ⟨by decide, by decide⟩ (Or.inr (by decide)),
      getF_setF_apart _ ⟨by decide, by decide⟩ ⟨by decide, by decide⟩ (Or.inl (by decide))]
  rest := by unfold retiredTile goneTile; rfl

/-- A finished tile is retired. -/
theorem retired_finishedTile (now : Nat) (w : Word) (t : Tile) : Retired t (finishedTile now w t) (t.seq.index + 1) := by
  obtain ⟨a, b, c, d, e⟩ := retired_retiredTile t
  unfold finishedTile countedTile
  split <;> exact ⟨a, b, c, d, e⟩

/-- The counters of a finished tile. -/
theorem counter_finishedTile (now : Nat) (w : Word) (t : Tile) (j : Nat) :
    counter (finishedTile now w t) j = counter t j + adds w j := by
  unfold finishedTile adds
  by_cases h : flagF w iw_syncEn = true
  · rw [if_pos h, counter_countedTile, counter_retiredTile]
    by_cases e : j = getF w iw_counter
    · subst e; rw [if_pos rfl, if_pos ⟨h, rfl⟩]
    · rw [if_neg e, if_neg (fun x => e x.2.symm)]
  · rw [if_neg h, counter_retiredTile, if_neg (fun x => h x.1), Nat.add_zero]

end Sys2Proof.Machine
end

