-- ==== Sys2Proof/WellFormed.lean ====
section
/-!
DEFINITION. Which commands are well formed: every number that names a part of the device names one that
exists (R23, R71, R365, R281). `exec` does not depend on it.
-/
namespace Sys2Proof

/-- A logical tile of grade F: partition 0 to 7, tile 0 to 159 (R23). -/
def TileRef.ok (tl : TileRef) : Bool := decide (tl.p < 8) && decide (tl.t < 160)

/-- A partition (R23), a fabric port (R365), a lane of a port with its spare (R379), a site (R71), a stack
and pseudo-channel (R281), an Ethernet port. -/
def okPart (p : Nat) : Bool := decide (p < 8)
def okPort (n : Nat) : Bool := decide (n < 36)
def okLane (k : Nat) : Bool := decide (k < 5)
def okSite (x : Nat) : Bool := decide (x < 176)
def okStack (k : Nat) : Bool := decide (k < 4)
def okPch (c : Nat) : Bool := decide (c < 32)
def okEth (e : Nat) : Bool := decide (e < 2)

/-- A device ID (R18) and a 48-bit vintage (R20). -/
def okDev (d : Nat) : Bool := decide (d < 65536)
def okVintage (v : Nat) : Bool := decide (v < 2 ^ 48)

/-- A group of results of a test names sites that exist and units of SITE_BIST [20:0]. -/
def SiteRes.ok (r : SiteRes) : Bool :=
  okPart r.p && okSite r.s && decide (r.first < 2 ^ 21) && decide (r.retest < 2 ^ 21)

def Scope.ok : Scope → Bool
  | .unit p t u => okPart p && decide (t < 160) && decide (u < 32)
  | .memPort p s pch => okPart p && okStack s && okPch pch
  | .router p => decide (p < 16)
  | .part p => okPart p
  | .compute => true

def MoveDesc.ok (d : MoveDesc) : Bool :=
  match d.kind with
  | .toHbm a => decide (a < 2 ^ 48)
  | .fromHbm a => decide (a < 2 ^ 48)
  | .toTile p t _ => okPart p && decide (t < 65536)
  | .route _ => true
  | .fromLot _ => true
  | .toCask c l => decide (224 ≤ c) && decide (c < 256) && decide (l < 256)
  | .accToCask c l _ _ => decide (224 ≤ c) && decide (c < 256) && decide (l < 256)

/-- Well-formed commands. -/
def Instr.wf : Instr → Bool
  | .load tl _ _ | .pass tl _ _ | .drain tl _ _ | .row tl _ _ _ | .spanRecompute tl _ _
  | .vecFp32Elementwise tl _ | .update tl _ | .transposeConversion tl _ | .compress tl _
  | .dwAccumulate tl _ | .amaxAndFiniteCount tl _ | .conversion tl _ | .compareCombine tl _
  | .syncSet tl | .syncInc tl | .syncWait tl | .waitSatisfied tl | .loopBegin ⟨tl, _⟩ | .loopEnd tl
  | .branchOnLoopCount tl | .endOfPhase tl | .mark tl _ | .tileHeartbeat tl | .tileGraft tl _
  | .partialFrame tl _ | .heartbeatWatchdog tl | .collectiveWaitExpiry tl _ => tl.ok
  | .predicate p t _ => TileRef.ok ⟨p, t⟩
  | .swap tl k | .passDrained tl k => tl.ok && decide (k < 14)
  | .move tl d _ => tl.ok && d.ok
  | .transferComplete tl ch _ => tl.ok && decide (ch < 8)
  | .tileUnitWatchdog tl u => tl.ok && decide (u < 32)
  | .bistStart _ tl _ | .funcTableAccess _ tl _ => tl.ok
  | .selfTestComplete p x _ => okPart p && okSite x
  | .copyOnWrite p _ _ | .rackPage _ p _ _ | .rackDigest _ p _ _ | .rackAck _ p _ _
  | .checkpointObjectAck p _ | .checkpointObjectTimeout p | .stateLoad p _ _ _ _ | .routerWatchdog p _
  | .partResetGo _ p _ | .fenceCtlFence _ p _ | .avsTimeout p | .thermalThrottle p _ _ | .thermalTrip p
  | .avsVdone p => okPart p
  | .memoryPortWatchdog p k c => okPart p && okStack k && okPch c
  | .patrolScrub p k c _ _ => okPart p && okStack k && okPch c
  | .stackTemperatureReadout p k _ | .refreshManagement p k => okPart p && okStack k
  | .resetTimeout sc => sc.ok
  | .resetComplete sc rs => sc.ok && rs.all SiteRes.ok
  | .deviceSelfTest rs _ _ | .admissionTestComplete rs _ _ _ | .stage5Reconciliation rs _ => rs.all SiteRes.ok
  | .flitBundle n fs _ => okPort n && decide (fs.length = 4)
  | .nakResend n _ | .keepaliveSend n | .keepalive n _ _ _ _ _ _ | .keepaliveMiss n | .retrainTimeout n
  | .retrainComplete n | .detectTimeout n _ | .fecLock n | .linkKeyExchange n _ | .cmisPoll n _ _
  | .moduleSilent n | .timeExchange n _ _ _ _ _ _ | .abort n _ _ | .qualify _ n _ | .retrain _ n _
  | .disable _ n _ => okPort n
  | .train n t => okPort n && okLane t.lane
  | .laneShort n k | .laneFailure n k _ => okPort n && okLane k
  | .dampingRelease n k => okPort n && (k.map okLane).getD true
  | .healthScan n x => okPort n && okLane x.lane
  | .commit v _ | .rollback v _ _ | .agreementDeadline v _ | .verdict v _ _ | .hang v _ | .restoreCommit v _ _ _ => okVintage v
  | .checkReport r => okVintage r.vintage && okDev r.device
  | .verdictReportReceived r => okVintage r.vintage && okDev r.device
  | .dataFeed _ v _ _ _ _ => okVintage v
  | .beat d _ _ _ | .selfFail d _ _ | .restoreReport d _ _ | .beatMiss d | .reportWaitExpiry d => okDev d
  | .report a b _ => okDev a && okDev b
  | .fence m => okDev m.fenced && okDev m.head
  | .wake a b _ _ | .graftDone a b _ _ => okDev a && okDev b
  | .ethLinkChange e _ _ | .routerAdvertisement e _ _ | .neighbourDiscovery e _ _ | .arp e _ _
  | .icmpEcho e _ _ _ | .ptpEventMessage e _ _ => okEth e
  | .portDieLoss d => decide (d < 4)
  | .stage2Clocks r => decide (r.dies.length ≤ 4)
  | .stage3Memories r => decide (r.memStacks.length ≤ 8)
  | .stage4Links _ e _ => decide (e.length = 2)
  | .setdasa a | .entdaa a => decide (a < 128)
  | .verdictReport | .stepCheck _ _ | .evaluationEnd | .replayStart | .decisionAns _ _ _ _ | .dutyDeadlineExpiry _
  | .ledgerPull _ _ _ _ | .checkpointDeadline | .manifestWrite | .start _ | .resume _ | .pause _ | .eval _
  | .ckpt _ | .restore _ _ | .endJob _ | .evalReq _ _ | .pauseReq _ _ | .epochStart | .imageLoad _ _ _ _
  | .imageCommit | .beatSend | .takeOver _ _ | .planned _ _ | .hostFence _ _ | .admitDevice _ _ | .replayDeadlineExpiry
  | .rootstockWatchdog _ | .compute _ _ | .retireClear _ _ | .packetForward _ _ | .e2eAck _ _ | .e2eResend _ _
  | .hello _ _ | .finish _ _ | .wrapped _ _ | .erase _ _ | .licence _ _ _ _ | .debugToken _ _ _ _ _
  | .pendingSessionTimeout _ | .sessionIdleTimeout _ | .attestReport _ _ | .attestReadReport _ _ _
  | .attestReadChain _ _ _ | .sealRenew _ _ | .relock _ _ | .regRead _ _ | .regWrite _ _
  | .bulkWrite _ _ _ _ _ _ | .bulkRead _ _ _ _ _ _ | .ack _ _ | .nak _ _ _ | .eventRetransmit _ _
  | .devIdAssign _ _ | .softClear _ _ | .dormantTableWrite _ _ | .powerActive _ _ | .powerIdle _ _
  | .powerRetain _ _ | .powerDormant _ _ | .powerOff _ _ | .deferReask | .dormantWake _ | .readPinSample _ _
  | .readPinLoss | .pmbusTelemetry _ | .balancingLoop _ | .powerUp | .powerDown | .resetN
  | .stage1FirmwareAndLicence _ | .stageBudgetExpiry | .recoveryBegin _ | .recoveryData _ _ | .recoveryEnd _
  | .i3cRegisterWrite _ _ | .inputUndervoltage _ _ | .inputOvervoltage _ _ | .sensePairOpen
  | .sensePairRestored | .sidebandShort _ | .refclkLoss | .refclkHoldoverExpiry | .refclkReturn | .ppsEdge _
  | .ppsLoss | .internalRailShort | .resetNRelease | .trstN => true

end Sys2Proof
end

