-- ==== Sys2Proof/Tests/Slice0.lean ====
section
/-!
SUPPORT. The author's own tests: the well-formedness checks, values that the spec's examples give, and for the
statements a state and operands that meet their premises.
-/
namespace Sys2Proof.Tests
open Sys2Proof Sys2Proof.Machine

-- These many small proofs are elaborated one after another: side by side they take more threads than the memory limit has room for.
set_option Elab.async false

/-! ## States to test on -/

/-- A session of the host, open; message 5 is its next. -/
def sess : Session :=
  { num := 1, isOpen := true, fromHost := true, owner := 0, t := 9, next := 5, txNext := 1, replies := [], held := [],
    lastAt := 0, since := 0, executing := false, sels := [] }

/-- The header of that message. -/
def hdr : DctHdr :=
  { session := 1, seq := 5, device := 0, anyDevice := true, fromHost := true, final := false, evalFlag := false,
    wellSized := true, tagOk := true, reservedZero := true }

def hdr0 : DctHdr := { hdr with session := 0 }

def devEntry (id : Nat) (spare : Bool) : DevEntry :=
  { id := id, role := 0, b1 := some 1, b2 := none, tensor := 0, pipeline := 0, replica := id, domain := 0, job := 0,
    extra := [], spare := spare, stateLen := [1, 0, 0, 0, 0, 0, 0, 0] }

def tileRec : TileRec :=
  { p := 0, t := 0, program := some 0, funcs := none, leesFirst := 0, leesCount := 4, leesSpill := 0, grants := [],
    t1 := 0, t1Len := 0, t2 := 0, t2Len := 0, t3Quota := 0, recompute := false, rbuf := 0, rbufKib := 0, topk := 0,
    sparse := 0, slots := [], router := none, ring := none, forUpdate := false, schedule := [(false, 0), (false, 1)],
    evalStage := false, spans := [(3, 2, 4)], outs := [{ frame := { route := 2, coll := 3, payload := 1, base := 0, count := 1 }, src := 64, len := 4 }],
    leesLot := 2, loads := [], dws := [] }

def coll : Coll :=
  { id := 3, kind := .sum, owner := ⟨0, 0⟩, contributors := [(0, 0, 0), (1, 0, 0)], space := 1, expected := 2,
    slotBase := 0, srcStride := 0, recBytes := 88, counter := 7, timeoutUs := 10, comb := 0, tree := false, amax := none, ret := none,
    full := false }

def role : RolePart :=
  { role := 0
    regions := [{ ty := .state, part := 0, base := 0x2000000, len := 0x200000 }, { ty := .scratch, part := 0, base := 0x2400000, len := 0x200000 }]
    programs := [[]], tiles := [tileRec], funcs := [], colls := [coll], peers := [], groups := [1], transit := [], cellarNeed := [] }

def stepProg : StepProg :=
  { lots := 2, lotSize := 1, lotBytes := 4, lr := [(0, 0x3f800000)], b1 := 0, b2 := 0, eps := 0, wd := 0, maxnorm := 0,
    evalPeriod := 0, evalPhase := 0, ckptPeriod := 0, endpoints := 2, deadlineMs := 1, last := 100 }

def image : Image :=
  { devices := [devEntry 0 false, devEntry 1 false, devEntry 2 true], groupBytes := [], tensors := [], recipes := [],
    formats := [], step := stepProg, roles := [role] }

def imgHdr : ImgHdr :=
  { sealed := false, jobId := 0, jobSeed := 0, imageLen := 0, sections := 0, roles := 1, devices := 3, caps := 0, stacksMin := 0,
    pdiesMin := 0, tilesReq := 0, mirror := 0, portsReq := 0, suppress := 0, q := 1, missHb := 4, agree := 0, replay := 0,
    layoutDigest := 0, dirDigest := 0 }

/-- The flagship rooted, with every port die and a session of the host, in device state `d`. -/
def up (d : Nat) : State :=
  { State.reset with
    boot := { rooted := true, applied := some Lic.factory, dies := 15 }
    dev := { DevRegs.reset with caps := 0x249249280000000f, state := setF 0 devState_state d }
    sessions := [sess] }

/-- The same with an image loaded; the device is the lowest of its job. -/
def job (d : Nat) : State := { up d with img := { cur := some { hdr := imgHdr, digest := 0, img := image, half := 0 }, load := none } }

/-- The same as device `i` of that image. -/
def jobAs (i d : Nat) : State := { job d with dev := { (job d).dev with id := setF (setF 0 devId_id i) devId_assigned 1 } }

/-- Tile 0.0. -/
def t00 : TileRef := ⟨0, 0⟩

/-- The job in RUNNING with tile 0.0 about to issue word `w`. -/
def issuing (w : Word) (f : Tile → Tile := id) : State :=
  (job DS.running).setTile t00 (f { Tile.reset with
    status := setF Tile.reset.status tileStatus_tileState TS.running
    record := some tileRec, prog := [(0, w)] })

/-- A word with fields set. -/
def wordOf (l : List (Field × Nat)) : Word := l.foldl (fun w x => setF w x.1 x.2) 0

/-- Canonicity as one Boolean. -/
theorem canonical_of {s : State}
    (h : (Memory.wf s.mem && Sparse.wf Tile.reset s.tiles && s.tiles.all (fun x => Memory.wf x.2.store) && Sparse.wf Part.reset s.parts &&
      Sparse.wf Port.reset s.ports && Sparse.wf Stack.reset s.memStacks && Sparse.wf Site.reset s.sites) = true) : Canonical s := by
  simp only [Bool.and_eq_true, List.all_eq_true] at h
  exact ⟨h.1.1.1.1.1.1, h.1.1.1.1.1.2, h.1.1.1.1.2, h.1.1.1.2, h.1.1.2, h.1.2, h.2⟩


/-- What a turn asks for, as one Boolean. -/
theorem turn_of {s : State} {h : DctHdr} {x : Session}
    (e : (s.servesDct && h.wellSized && decide (h.session ≠ 0) && decide (s.session h.session = some x) && h.tagOk && decide (h.seq < seqLimit) &&
      decide (h.seq = x.next) && !x.executing && h.reservedZero && x.fromHost && (h.anyDevice || decide (h.device = s.devId)) && x.isOpen) = true) :
    Turn s h x := by
  simp only [Bool.and_eq_true, Bool.or_eq_true, decide_eq_true_eq, Bool.not_eq_true'] at e
  obtain ⟨⟨⟨⟨⟨⟨⟨⟨⟨⟨⟨a, b⟩, c⟩, d⟩, f⟩, g⟩, i⟩, j⟩, k⟩, l⟩, m⟩, n⟩ := e
  exact ⟨⟨a, b, c, d, f, g, i, j, k, l, m⟩, n⟩

theorem counter_le {n : Nat} : ∀ {l : List (Nat × Nat)}, l.all (fun x => decide (x.2 ≤ n)) = true → ∀ k, Sparse.get 0 l k ≤ n
  | [], _, _ => Nat.zero_le n
  | (a, b) :: l, h, k => by
    simp only [List.all_cons, Bool.and_eq_true, decide_eq_true_eq] at h
    rw [Sparse.get]
    split
    · exact h.1
    · exact counter_le h.2 k

theorem adds_le (w : Word) (k : Nat) : adds w k ≤ 32 := by
  unfold adds
  split
  · have : getF w iw_inc < 32 := by
      unfold getF iw_inc
      simp only []
      omega
    omega
  · omega

theorem countsFit_of {t : Tile} {w : Word} (h : t.counters.all (fun x => decide (x.2 ≤ 0xffffff00)) = true) : CountsFit t w := fun k => by
  have := counter_le h k
  have := adds_le w k
  unfold counter
  omega

theorem countsSum_of {t : Tile} {w : Word} {v : Nat} (h : t.counters.all (fun x => decide (x.2 ≤ 0xffff)) = true) (hv : v ≤ 0xffff) (j : Nat) :
    counter t j + v + adds w j ≤ 0xffffffff := by
  have := counter_le h j
  have := adds_le w j
  unfold counter
  omega


/-- What a register write by session `n` asks for, as one Boolean. -/
def reachB (s : State) (n a : Nat) (r : Reg) (v : Word) : Bool :=
  s.servesDct && (match s.session n with | some x => x.isOpen && x.fromHost | none => false) && a % 8 == 0 && decide (s.regAt a = some r) &&
    decide (s.innerErr r true = Err.ok) && (!r.fromImage || decide (s.img.load.bind (·.finalSeq) = none)) &&
    decide (r.acted (s.regValue (s.selOf (.dct n) a) r) v (BitVec.allOnes 64) ≠ 0)

theorem reaches_of {s : State} {n a : Nat} {r : Reg} {v : Word} (h : reachB s n a r v = true) :
    Reaches s (.dct n) a r v (r.acted (s.regValue (s.selOf (.dct n) a) r) v (BitVec.allOnes 64)) := by
  simp only [reachB, Bool.and_eq_true, decide_eq_true_eq, Bool.or_eq_true, Bool.not_eq_true', beq_iff_eq] at h
  obtain ⟨⟨⟨⟨⟨⟨a, b⟩, c⟩, d⟩, e⟩, f⟩, g⟩ := h
  refine ⟨a, ?_, c, d, e, f, rfl, g⟩
  split at b
  · next x hx => exact ⟨n, x, rfl, hx, by simpa using b⟩
  · simp at b

theorem accepted_of {s : State} {c : Instr} {r : Reg} {n a : Nat} {v : Word} (hw : asWrite c = some (.dct n, a, v))
    (h : (reachB s n a r v && decide (s.writeErr r v (r.acted (s.regValue (s.selOf (.dct n) a) r) v (BitVec.allOnes 64)) = Err.ok)) = true) :
    Accepted s c r := by
  simp only [Bool.and_eq_true, decide_eq_true_eq] at h
  exact ⟨_, _, _, _, hw, reaches_of h.1, h.2⟩

def vint : Vint :=
  { v := 0, attempt := 0, counted := 0, lots := [], done := [], verdict := none, recorded := none, xs := [], skips := [], judged := [], frames := [], absorbed := [], sends := [],
    checked := false, verdictSent := false }

/-- Vintage 5 is committed and vintage 6 open. -/
def opened (s : State) : State :=
  { s with
    step := { s.step with committed := 5, openV := setF 0 vintageOpen_vintage 6 }
    job := { s.job with uncommitted := [{ vint with v := 6 }], established := true } }

/-! ## Ill-formed commands: one for each check of `Instr.wf` -/

/-- Grade F has tiles 0 to 159 (R23). -/
theorem test_tile_160_refused : (Instr.syncSet ⟨0, 160⟩).wf = false := by decide
theorem test_tile_159_taken : (Instr.syncSet ⟨7, 159⟩).wf = true := by decide
/-- A device has partitions 0 to 7 (R23). -/
theorem test_partition_8_refused : (Instr.syncSet ⟨8, 0⟩).wf = false ∧ (Instr.avsVdone 8).wf = false := by decide
theorem test_array_14_refused : (Instr.swap ⟨0, 0⟩ 14).wf = false := by decide
theorem test_cask_223_refused : (Instr.move ⟨0, 0⟩ { kind := .toCask 223 0, loc := 0, len := 0, gather := none, stash := noStash } .clean).wf = false := by decide
theorem test_channel_8_refused : (Instr.transferComplete ⟨0, 0⟩ 8 none).wf = false := by decide
theorem test_unit_32_refused : (Instr.tileUnitWatchdog ⟨0, 0⟩ 32).wf = false ∧ (Instr.resetTimeout (.unit 0 0 32)).wf = false := by decide
/-- A partition has 176 sites (R71). -/
theorem test_site_176_refused : (Instr.selfTestComplete 0 176 0).wf = false := by decide
theorem test_stack_4_refused : (Instr.refreshManagement 0 4).wf = false := by decide
theorem test_pseudo_channel_32_refused : (Instr.memoryPortWatchdog 0 0 32).wf = false := by decide
/-- A device has ports F0 to F35 (R365), of five lanes each (R379). -/
theorem test_port_36_refused : (Instr.fecLock 36).wf = false ∧ (Instr.fecLock 35).wf = true := by decide
theorem test_lane_5_refused : (Instr.laneShort 0 5).wf = false := by decide
theorem test_bundle_of_three_refused : (Instr.flitBundle 0 [] true).wf = false := by decide
theorem test_vintage_49_bits_refused : (Instr.hang (2 ^ 48) 0).wf = false := by decide
theorem test_device_17_bits_refused : (Instr.beatMiss 65536).wf = false := by decide
theorem test_ethernet_2_refused : (Instr.arp 2 0 0).wf = false := by decide
theorem test_port_die_4_refused : (Instr.portDieLoss 4).wf = false := by decide
theorem test_i3c_address_128_refused : (Instr.setdasa 128).wf = false := by decide
theorem test_site_result_refused : (Instr.stage5Reconciliation [{ p := 0, s := 0, first := 2 ^ 21, retest := 0 }] 0).wf = false := by decide
theorem test_router_16_refused : (Instr.resetTimeout (.router 16)).wf = false := by decide
theorem test_five_port_dies_refused :
    (Instr.stage2Clocks { pllOk := true, tileLinksOk := true, die0Ok := true, dies := [true, true, true, true, true], ms := 0 }).wf = false := by
  decide
theorem test_nine_stack_counts_refused :
    (Instr.stage3Memories ⟨false, false, false, List.replicate 9 4, [], 0, [], 0⟩).wf = false := by decide
theorem test_three_ethernet_rates_refused : (Instr.stage4Links [] [0, 0, 0] 0).wf = false := by decide

/-! ## The spec's worked values -/

/-- The example of R138 to R141: the packed records of 2^-27 and of -0.1875. -/
theorem test_packed_b : packLine (Line.reset.take (Line.ofWide (fmtFp32.decode 0x32000000))) = [0x1ffd4, 0x20000] := by decide +kernel
theorem test_packed_c : packLine (Line.reset.take (Line.ofWide (fmtFp32.decode 0xbe400000))) = [0x1ffd4, 0xfffffd0000000000] := by decide +kernel

/-- The example of R138 to R141: (a + b) + c leaves 2^-27, and the FP32 write-out in RNE is 0x32000000. -/
def exampleSum : Line :=
  ((Line.reset.take (Line.ofWide (fmtFp32.decode 0x3e400000))).take (Line.ofWide (fmtFp32.decode 0x32000000))).take
    (Line.ofWide (fmtFp32.decode 0xbe400000))
theorem test_packed_sum : packLine exampleSum = [0x1ffd4, 0x20000] := by decide +kernel
theorem test_sum_written_out : (writeOut fmtFp32 .rne .sat none (lineVal exampleSum none) false).code = 0x32000000 := by decide +kernel

/-- The E4M3 example of the scaling chapter: under X = 124, 37.25 gives 0x79 and 61 overflows to 0x7E; under X = 125, 61
gives 0x77. -/
def e4m3 : Fmt := ⟨8, 4, 7, 1⟩
theorem test_e4m3 : (writeOut e4m3 .rne .sat (some 124) (.fin false 149 (-2)) false).code = 0x79 ∧
    writeOut e4m3 .rne .sat (some 124) (.fin false 61 0) false = ⟨0x7e, true, false⟩ ∧
    (writeOut e4m3 .rne .sat (some 125) (.fin false 61 0) false).code = 0x77 := by decide +kernel

/-- The M48 example of R171: w = 0.0625, d = 0x3F400001, rate 3 × 2^-31, random word 0x1A2B3C4D. -/
theorem test_stochastic_master :
    (sround fmtM48 .rne .sat (Val.add (fmtM48.decode 0x3d8000000000) (Val.neg (Val.mul (.fin false 3 (-31)) (fmtFp32.decode 0x3f400001))))
      0x1a2b3c4d).code = 0x3d7fffffb800 := by decide +kernel

/-- The example of R283: stack 3, pseudo-channel 25, unit 149130. -/
theorem test_interleave : interleave 4 0x123456780 = (3, 25, 149130) ∧ 0x004123456780 / 2 ^ 37 = 2 := by decide

/-- The example of DEV_CAPS: 160 tiles, 36 ports and 4 stacks and port dies, fused and present. -/
theorem test_dev_caps : getF 0x249249280000000f devCaps_pdiesPresent = 4 ∧ getF 0x249249280000000f devCaps_stacksPresent = 4 := by decide

/-- A tile at reset stands at the first instruction of its program. -/
theorem test_first_index : firstSeq Tile.reset false = Tile.reset.seq := by decide

/-- What step does with the first command after reset, and with none waiting. -/
theorem test_step_runs : step { State.reset with pending := [.trstN] } =
    .next { State.reset with pins := { State.reset.pins with trstN := false } } := rfl
theorem test_step_idles : step State.reset = .next { State.reset with time := { State.reset.time with count := 1 } } := rfl

/-! Premises of StepWithoutCommand, EveryCommandAnswers, CanonicalKept and LegalStateKept. -/
theorem wit_StepWithoutCommand : State.reset.pending = [] ∧ State.reset.released = [] := by decide
theorem wit_StepWithoutCommand_released : ({ State.reset with released := [.trstN] } : State).released = Instr.trstN :: [] := rfl
theorem wit_CanonicalKept : Canonical State.reset ∧ ∃ t, step State.reset = .next t := ⟨canonical_of (by decide), _, rfl⟩
theorem wit_LegalStateKept : LegalState State.reset ∧ ∃ t, step State.reset = .next t := ⟨by unfold LegalState; decide, _, rfl⟩

/-! Premises of PackedCasks: an empty line and one that holds a value. -/
theorem wit_PackedCasks : (Line.reset.empty = true → Line.reset.kind = .sum ∧ Line.reset.value = 0) ∧ exampleSum.empty = false := by decide +kernel

/-! Premises of ZeroResults: a value that rounds to zero. -/
theorem wit_ZeroResults : e4m3 ∈ allFormats ∧ (e4m3.decode (writeOut e4m3 .rne .sat none (.fin true 1 (-20)) false).code).isZero = true := by
  decide +kernel

/-! ## Sync and flow -/

def wSync (op v : Nat) : Word :=
  wordOf [(iw_class, 6), (iw_syncEn, 1), (iw_counter, 2), (sync_op, op), (sync_counter, 3), (sync_value, v)]

def wInc : Word := wordOf [(iw_class, 6), (sync_op, 1), (sync_counter, 3), (sync_value, 5)]

def wFlow (op arg : Nat) : Word := wordOf [(iw_class, 7), (flow_op, op), (flow_count, arg)]

def wMark (k : Nat) : Word := wordOf [(iw_class, 8), (mark_kind, k), (mark_code, 0x123)]

/-- Three microseconds later. -/
def stalled (s : State) : State := { s with time := { s.time with count := 3 * usTicks } }

/-- Vintage 6 open, with a predicate of lot 0 judged and not skipped, or skipped. -/
def judged (s : State) : State :=
  { s with
    step := { s.step with committed := 5, openV := setF 0 vintageOpen_vintage 6 }
    job := { s.job with uncommitted := [{ vint with v := 6, judged := [State.predKey t00 (s.tile t00) 0] }] } }
def skippedSo (s : State) : State :=
  { judged s with job := { s.job with uncommitted := [{ vint with v := 6, skips := [State.predKey t00 (s.tile t00) 0], judged := [State.predKey t00 (s.tile t00) 0] }] } }

def loops (n : Nat) (t : Tile) : Tile := { t with seq := { t.seq with loops := [{ body := 1, endAt := 2, left := n }] } }

/-! Premises of SyncCounters. -/

def s_SyncCounters_set : State := issuing (wSync 0 5)

theorem wit_SyncCounters_set : Canonical s_SyncCounters_set ∧ Issues s_SyncCounters_set t00 .sync (wSync 0 5) ∧ (∀ j,
    counter (s_SyncCounters_set.tile t00) j + 5 + adds (wSync 0 5) j ≤ 0xffffffff) :=
  ⟨canonical_of (by decide), ⟨by decide, by decide, by decide, by decide, by decide⟩, countsSum_of (by decide) (by decide)⟩

def s_SyncCounters_inc : State := issuing (wSync 1 5)

theorem wit_SyncCounters_inc : Canonical s_SyncCounters_inc ∧ Issues s_SyncCounters_inc t00 .sync (wSync 1 5) ∧ (∀ j,
    counter (s_SyncCounters_inc.tile t00) j + 5 + adds (wSync 1 5) j ≤ 0xffffffff) :=
  ⟨canonical_of (by decide), ⟨by decide, by decide, by decide, by decide, by decide⟩, countsSum_of (by decide) (by decide)⟩

def s_SyncCounters_wait : State := issuing (wSync 2 5) (fun t => { t with counters := [(3, 5)] })

theorem wit_SyncCounters_wait : Canonical s_SyncCounters_wait ∧ Issues s_SyncCounters_wait t00 .sync (wSync 2 5) ∧ (∀ j,
    counter (s_SyncCounters_wait.tile t00) j + 5 + adds (wSync 2 5) j ≤ 0xffffffff) ∧ (5 ≤ counter (s_SyncCounters_wait.tile t00) 3) :=
  ⟨canonical_of (by decide), ⟨by decide, by decide, by decide, by decide, by decide⟩, countsSum_of (by decide) (by decide), by decide⟩

def s_SyncOverflow : State := issuing wInc (fun t => { t with counters := [(3, 0xfffffffb)] })

theorem wit_SyncOverflow : Canonical s_SyncOverflow ∧ Issues s_SyncOverflow t00 .sync wInc ∧ (getF wInc sync_op = 1) ∧
    (flagF wInc iw_syncEn = false) ∧ (0xffffffff < counter (s_SyncOverflow.tile t00) 3 + getF wInc sync_value) :=
  ⟨canonical_of (by decide), ⟨by decide, by decide, by decide, by decide, by decide⟩, by decide, by decide, by decide⟩

def s_SyncWaits_hold : State := issuing (wSync 2 5) (fun t => { t with counters := [(3, 4)] })

theorem wit_SyncWaits_hold : Canonical s_SyncWaits_hold ∧ Issues s_SyncWaits_hold t00 .sync (wSync 2 5) ∧
    (counter (s_SyncWaits_hold.tile t00) 3 < 5) :=
  ⟨canonical_of (by decide), ⟨by decide, by decide, by decide, by decide, by decide⟩, by decide⟩

def s_SyncWaits_go : State := issuing (wSync 2 5) (fun t => { t with counters := [(3, 5)], seq := { t.seq with wait := some (3, 5) } })

theorem wit_SyncWaits_go : Canonical s_SyncWaits_go ∧ ((s_SyncWaits_go.tile t00).seq.wait = some (3, 5)) ∧
    (5 ≤ counter (s_SyncWaits_go.tile t00) 3) ∧ (s_SyncWaits_go.canIssue t00 = true) ∧ ((s_SyncWaits_go.tile t00).seq.redo = none) ∧
    CountsFit (s_SyncWaits_go.tile t00) (curWord (s_SyncWaits_go.tile t00)) :=
  ⟨canonical_of (by decide), by decide, by decide, by decide, by decide, countsFit_of (by decide)⟩

def s_SyncWaits_stalled : State := stalled (issuing (wSync 2 5) (fun t => { t with ctl := setF t.ctl tileCtl_ledgerDetail 1, counters := [(3, 5)], seq := { t.seq with wait := some (3, 5), held := some (0, State.stallSync) } }))

theorem wit_SyncWaits_stalled : Canonical s_SyncWaits_stalled ∧ ((s_SyncWaits_stalled.tile t00).seq.wait = some (3, 5)) ∧
    (s_SyncWaits_stalled.canIssue t00 = true) ∧ ((s_SyncWaits_stalled.tile t00).seq.held = some (0, State.stallSync)) ∧
    (getF (s_SyncWaits_stalled.tile t00).ctl tileCtl_ledgerDetail ≠ 0) ∧ (0 + usTicks ≤ s_SyncWaits_stalled.now) :=
  ⟨canonical_of (by decide), by decide, by decide, by decide, by decide, by decide⟩

def s_SyncWaits_short : State := issuing (wSync 2 5) (fun t => { t with counters := [(3, 5)], seq := { t.seq with wait := some (3, 5), held := some (0, State.stallSync) } })

theorem wit_SyncWaits_short : Canonical s_SyncWaits_short ∧ ((s_SyncWaits_short.tile t00).seq.held = some (0, State.stallSync)) ∧
    (s_SyncWaits_short.now < 0 + usTicks) :=
  ⟨canonical_of (by decide), by decide, by decide⟩

/-! Premises of Loops. -/

def s_Loops_begin : State := issuing (wFlow 0 2) (fun t => { t with prog := [(0, wFlow 0 2), (1, wMark 0), (2, wFlow 1 0)] })

theorem wit_Loops_begin : Canonical s_Loops_begin ∧ Issues s_Loops_begin t00 .flow (wFlow 0 2) ∧
    CountsFit (s_Loops_begin.tile t00) (wFlow 0 2) ∧ (matchEnd (s_Loops_begin.tile t00) 0 1 4031 = some 2) ∧
    (State.loopCount (s_Loops_begin.tile t00) (wFlow 0 2) = 2) ∧ ((s_Loops_begin.tile t00).seq.loops.length < 8) :=
  ⟨canonical_of (by decide), ⟨by decide, by decide, by decide, by decide, by decide⟩, countsFit_of (by decide), by decide, by decide, by decide⟩

def s_Loops_none : State := issuing (wFlow 0 0) (fun t => { t with prog := [(0, wFlow 0 0), (1, wMark 0), (2, wFlow 1 0)] })

theorem wit_Loops_none : Canonical s_Loops_none ∧ Issues s_Loops_none t00 .flow (wFlow 0 0) ∧
    CountsFit (s_Loops_none.tile t00) (wFlow 0 0) ∧ (matchEnd (s_Loops_none.tile t00) 0 1 4031 = some 2) ∧
    (State.loopCount (s_Loops_none.tile t00) (wFlow 0 0) = 0) ∧ ((s_Loops_none.tile t00).seq.loops.length < 8) :=
  ⟨canonical_of (by decide), ⟨by decide, by decide, by decide, by decide, by decide⟩, countsFit_of (by decide), by decide, by decide, by decide⟩

def s_Loops_last : State := issuing (wFlow 1 0) (loops 1)

theorem wit_Loops_last : Canonical s_Loops_last ∧ Issues s_Loops_last t00 .flow (wFlow 1 0) ∧ CountsFit (s_Loops_last.tile t00) (wFlow 1 0) ∧ ((s_Loops_last.tile t00).seq.loops = [{ body := 1, endAt := 2, left := 1 }]) :=
  ⟨canonical_of (by decide), ⟨by decide, by decide, by decide, by decide, by decide⟩, countsFit_of (by decide), by decide⟩

def s_Loops_again : State := issuing (wFlow 1 0) (loops 2)

theorem wit_Loops_again : Canonical s_Loops_again ∧ Issues s_Loops_again t00 .flow (wFlow 1 0) ∧ CountsFit (s_Loops_again.tile t00) (wFlow 1 0) ∧ ((s_Loops_again.tile t00).seq.loops = [{ body := 1, endAt := 2, left := 2 }]) :=
  ⟨canonical_of (by decide), ⟨by decide, by decide, by decide, by decide, by decide⟩, countsFit_of (by decide), by decide⟩

def s_Loops_branch : State := issuing (wFlow 2 7) (loops 1)

theorem wit_Loops_branch : Canonical s_Loops_branch ∧ Issues s_Loops_branch t00 .flow (wFlow 2 7) ∧ CountsFit (s_Loops_branch.tile t00) (wFlow 2 7) ∧ ((s_Loops_branch.tile t00).seq.loops = [{ body := 1, endAt := 2, left := 1 }]) ∧ (getF (wFlow 2 7) flow_target = 7) :=
  ⟨canonical_of (by decide), ⟨by decide, by decide, by decide, by decide, by decide⟩, countsFit_of (by decide), by decide, by decide⟩

def s_Loops_stay : State := issuing (wFlow 2 7) (loops 2)

theorem wit_Loops_stay : Canonical s_Loops_stay ∧ Issues s_Loops_stay t00 .flow (wFlow 2 7) ∧ CountsFit (s_Loops_stay.tile t00) (wFlow 2 7) ∧ ((s_Loops_stay.tile t00).seq.loops = [{ body := 1, endAt := 2, left := 2 }]) ∧ (getF (wFlow 2 7) flow_target = 7) :=
  ⟨canonical_of (by decide), ⟨by decide, by decide, by decide, by decide, by decide⟩, countsFit_of (by decide), by decide, by decide⟩

/-! Premises of PredicateAndPhase. -/

def s_Predicate_goes : State := opened (issuing (wFlow 3 0) (fun t => { t with seq := { t.seq with inRows := 1 } }))

theorem wit_Predicate_goes : Canonical s_Predicate_goes ∧ Issues s_Predicate_goes t00 .flow (wFlow 3 0) ∧
    CountsFit (s_Predicate_goes.tile t00) (wFlow 3 0) ∧ (getF (wFlow 3 0) flow_op = 3) ∧ (getF (wFlow 3 0) flow_source = 0) ∧
    ((s_Predicate_goes.tile t00).seq.held = none) ∧ (s_Predicate_goes.recordedPred t00 0 = none) ∧
    (s_Predicate_goes.predHolds t00 (s_Predicate_goes.tile t00) (wFlow 3 0) = false) :=
  ⟨canonical_of (by decide), ⟨by decide, by decide, by decide, by decide, by decide⟩, countsFit_of (by decide), by decide, by decide,
    by decide, by decide, by decide⟩

def s_Predicate_recorded : State := judged (issuing (wFlow 3 0))

theorem wit_Predicate_recorded : Canonical s_Predicate_recorded ∧ Issues s_Predicate_recorded t00 .flow (wFlow 3 0) ∧
    (s_Predicate_recorded.recordedPred t00 0 = some false) ∧
    (s_Predicate_recorded.predHolds t00 (s_Predicate_recorded.tile t00) (wFlow 3 0) = true) :=
  ⟨canonical_of (by decide), ⟨by decide, by decide, by decide, by decide, by decide⟩, by decide, by decide⟩

def s_Predicate_skipped : State := skippedSo (issuing (wFlow 3 0) (fun t => { t with seq := { t.seq with inRows := 1 } }))

theorem wit_Predicate_skipped : Canonical s_Predicate_skipped ∧ Issues s_Predicate_skipped t00 .flow (wFlow 3 0) ∧
    (s_Predicate_skipped.recordedPred t00 0 = some true) ∧ (s_Predicate_skipped.predHolds t00 (s_Predicate_skipped.tile t00) (wFlow 3 0) = false) :=
  ⟨canonical_of (by decide), ⟨by decide, by decide, by decide, by decide, by decide⟩, by decide, by decide⟩

def s_Predicate_skips : State := issuing (wFlow 3 0)

theorem wit_Predicate_skips : Canonical s_Predicate_skips ∧ Issues s_Predicate_skips t00 .flow (wFlow 3 0) ∧
    CountsFit (s_Predicate_skips.tile t00) (wFlow 3 0) ∧ (getF (wFlow 3 0) flow_op = 3) ∧ (getF (wFlow 3 0) flow_source = 0) ∧
    ((s_Predicate_skips.tile t00).seq.held = none) ∧ (s_Predicate_skips.recordedPred t00 0 = none) ∧
    (s_Predicate_skips.predHolds t00 (s_Predicate_skips.tile t00) (wFlow 3 0) = true) ∧ (Unserved s_Predicate_skips t00) :=
  ⟨canonical_of (by decide), ⟨by decide, by decide, by decide, by decide, by decide⟩, countsFit_of (by decide), by decide, by decide,
    by decide, by decide, by decide, (fun y hy => nomatch hy)⟩

def s_EndOfPhase : State := issuing (wFlow 4 0)

theorem wit_EndOfPhase : Canonical s_EndOfPhase ∧ Issues s_EndOfPhase t00 .flow (wFlow 4 0) ∧
    CountsFit (s_EndOfPhase.tile t00) (wFlow 4 0) ∧ (getF (wFlow 4 0) flow_op = 4) ∧ (Unserved s_EndOfPhase t00) :=
  ⟨canonical_of (by decide), ⟨by decide, by decide, by decide, by decide, by decide⟩, countsFit_of (by decide), by decide, (fun y hy => nomatch hy)⟩

/-! Premises of MarkAndHeartbeat. -/

def s_Mark_zero : State := issuing (wMark 0)

theorem wit_Mark_zero : Canonical s_Mark_zero ∧ Issues s_Mark_zero t00 .mark (wMark 0) ∧ CountsFit (s_Mark_zero.tile t00) (wMark 0) ∧
    (getF (wMark 0) mark_kind = 0) :=
  ⟨canonical_of (by decide), ⟨by decide, by decide, by decide, by decide, by decide⟩, countsFit_of (by decide), by decide⟩

def s_Mark_quiet : State := issuing (wMark 1)

theorem wit_Mark_quiet : Canonical s_Mark_quiet ∧ Issues s_Mark_quiet t00 .mark (wMark 1) ∧ CountsFit (s_Mark_quiet.tile t00) (wMark 1) ∧
    (getF (wMark 1) mark_kind = 1) ∧ (getF (s_Mark_quiet.tile t00).ctl tileCtl_ledgerDetail ≠ 2) :=
  ⟨canonical_of (by decide), ⟨by decide, by decide, by decide, by decide, by decide⟩, countsFit_of (by decide), by decide, by decide⟩

def s_Mark_quiet2 : State := issuing (wMark 2) (fun t => { t with ctl := setF t.ctl tileCtl_ledgerDetail 0 })

theorem wit_Mark_quiet2 : Canonical s_Mark_quiet2 ∧ Issues s_Mark_quiet2 t00 .mark (wMark 2) ∧
    CountsFit (s_Mark_quiet2.tile t00) (wMark 2) ∧ (getF (wMark 2) mark_kind = 2) ∧
    (getF (s_Mark_quiet2.tile t00).ctl tileCtl_ledgerDetail = 0 ∨ 9 = 0) :=
  ⟨canonical_of (by decide), ⟨by decide, by decide, by decide, by decide, by decide⟩, countsFit_of (by decide), by decide, by decide⟩

def s_Mark_lot : State := issuing (wMark 1) (fun t => { t with ctl := setF t.ctl tileCtl_ledgerDetail 2 })

theorem wit_Mark_lot : Canonical s_Mark_lot ∧ Issues s_Mark_lot t00 .mark (wMark 1) ∧ CountsFit (s_Mark_lot.tile t00) (wMark 1) ∧
    (getF (wMark 1) mark_kind = 1) ∧ (getF (s_Mark_lot.tile t00).ctl tileCtl_ledgerDetail = 2) :=
  ⟨canonical_of (by decide), ⟨by decide, by decide, by decide, by decide, by decide⟩, countsFit_of (by decide), by decide, by decide⟩

def s_Mark_stall : State := issuing (wMark 2) (fun t => { t with ctl := setF t.ctl tileCtl_ledgerDetail 1 })

theorem wit_Mark_stall : Canonical s_Mark_stall ∧ Issues s_Mark_stall t00 .mark (wMark 2) ∧ CountsFit (s_Mark_stall.tile t00) (wMark 2) ∧
    (getF (wMark 2) mark_kind = 2) ∧ (getF (s_Mark_stall.tile t00).ctl tileCtl_ledgerDetail ≠ 0) :=
  ⟨canonical_of (by decide), ⟨by decide, by decide, by decide, by decide, by decide⟩, countsFit_of (by decide), by decide, by decide⟩

def s_Heartbeat_early : State := issuing (wMark 0)

theorem wit_Heartbeat_early : Canonical s_Heartbeat_early ∧ (getF (s_Heartbeat_early.tileStatusRead t00) tileStatus_tileState ≠ TS.off) ∧
    ((s_Heartbeat_early.tile t00).heartbeat ≤ s_Heartbeat_early.now) ∧
    (s_Heartbeat_early.now < (s_Heartbeat_early.tile t00).heartbeat + s_Heartbeat_early.hbTicks t00) :=
  ⟨canonical_of (by decide), by decide, by decide, by decide⟩

def s_Heartbeat_on : State := stalled (issuing (wMark 0) (fun t => { t with ctl := setF t.ctl tileCtl_hbPeriod 3 }))

theorem wit_Heartbeat_on : Canonical s_Heartbeat_on ∧ (s_Heartbeat_on.alive = true) ∧
    (getF (s_Heartbeat_on.tileStatusRead t00) tileStatus_tileState ≠ TS.off) ∧
    (s_Heartbeat_on.now < (s_Heartbeat_on.tile t00).heartbeat ∨ (s_Heartbeat_on.tile t00).heartbeat + s_Heartbeat_on.hbTicks t00 ≤
    s_Heartbeat_on.now) :=
  ⟨canonical_of (by decide), by decide, by decide, by decide⟩

def s_Heartbeat_off : State := { job DS.running with pow := { PowRegs.reset with railStatus := setF 0 railStatus_off 1 } }

theorem wit_Heartbeat_off : (getF (s_Heartbeat_off.tileStatusRead t00) tileStatus_tileState = TS.off) := by decide

/-! ## Arrays, drains, row and vector units -/

def noLoad : LoadDesc := { mask := none, xslot := none, frees := [] }

def drainDesc : DrainDesc := { stash := noStash, merge := none, used := none }

/-- Nothing goes wrong in the store. -/
def calm : StoreIn := ⟨.clean, none⟩

/-- LOAD to target `g` and arrays 0 and 1, with mask 0 and descriptor 100. -/
def wLoad (g : Nat) : Word := wordOf [(load_target, g), (load_arrays, 3), (iw_desc, 100)]

def wPass (sw : Nat) : Word := wordOf [(iw_class, 1), (pass_swap, sw), (pass_m, 2)]

def wDrain : Word := wordOf [(iw_class, 2), (drain_n, 2), (drain_slot, 1), (iw_desc, 100)]

/-- A program of one word, with mask 0 over two rows and columns and a DRAIN descriptor for two lines to address 64. -/
def withMask (w : Word) (t : Tile) : Tile :=
  { t with prog := [(0, w), (100, wordOf [(drd_dest, 64), (drd_m, 2)]), (4032, 0x300000003)], slots := [(1, { Slot.reset with valid := true, recipe := wordOf [(rc_fmt, 16)] })] }

/-- Array 0 with a moving stream in loader A. -/
def streamed (w : Word) (t : Tile) : Tile :=
  { withMask w t with loaderA := some { word := wLoad 0, d0 := 0, d1 := 0, mask := 0x300000003, x := none } }

def aStream : Stream := { word := wLoad 0, d0 := 0, d1 := 0, mask := 0x300000003, x := none }

/-- The image with one W tensor whose only block is masked. -/
def maskedW (s : State) : State :=
  { s with img := { s.img with cur := some { hdr := imgHdr, digest := 0, half := 0, img := { image with tensors := [{ id := 0, kind := 0, mult := 0x3f800000, rows := 32, cols := 32, stateAddr := 0, histAddr := 0, repack := 0, masked := true, mask := 15, clip := false }] } } } }
def whole : MaskAt := { tensor := 0, k0 := 0, n0 := 0, kLen := 32, nLen := 32, transposed := false }

/-- What the shadow LOAD of tests loads into an array. -/
def runOf (s : State) (k : Nat) : LoadRun :=
  let t := s.tile t00
  loadRun t k (wLoad 1) (progWord t 100) (progWord t 101) (maskedBlocks s.tensors noLoad.mask) (loadX t (wLoad 1) noLoad.xslot) ⟨8, 4, 7, 1⟩

def held (p : PassOp) (t : Tile) : Tile :=
  { streamed (wPass 1) t with arrays := [(0, { Arr.reset with shadow := { StatSet.reset with fmt := 1 }, untaken := true, passes := [p] })] }

def passOp (sw : Nat) (e : Bool) : PassOp := { word := wPass sw, rowMask := 3, colMask := 3, entered := e, bad := none }

def idleSwap : PassOp := { word := wordOf [(iw_class, 1), (pass_swap, 1)], rowMask := 3, colMask := 3, entered := false, bad := none }

def line (v : Int) : Line := { Line.reset with value := BitVec.ofInt 640 v, empty := false }

def wRow (op slot : Nat) : Word := wordOf [(iw_class, 3), (row_op, op), (row_slot, slot), (iw_desc, 100)]

def wRowB : Word := wordOf [(iw_class, 3), (row_op, 5), (row_slot, 1), (row_table, 1), (row_backward, 1), (iw_desc, 100)]

def rowDesc : RowDesc :=
  { rows := 2, n := 2, step := 4, src := 0, xFmt := 16, xScale := 0, dst := 64, dy := 0, gain := 0, target := 0, dGain := 0, dBias := 0, cols := 0,
    firstRec := 1, recCount := 2, spillFirst := 0, scores := none, keys := none, sweep := false, pDst := none, pSlot := 0, invN := 0,
    tabExp := 0, tabRcp := 1, seed := 0, stash := noStash }

def wVec (op : Nat) : Word := wordOf [(iw_class, 4), (vec_op, op), (iw_desc, 100)]

/-- FP32 1.0 at address 0 of the store. -/
def one (t : Tile) : Tile := { t with store := [(2, 0x80), (3, 0x3f)] }

/-- A router over two experts, with one assignment admitted to the first. -/
def router : RouterCfg := { k := 1, kList := 1, quotas := [4, 4], policies := [0, 0], deferQuota := 0, tokens := 2, parts := 1 }
def gatedTile (t : Tile) : Tile :=
  { t with record := some { tileRec with router := some router }, admitted := [{ token := 0, rank := 0, expert := 0, slot := 0 }] }

def eltDesc : EltDesc := { op := .add, m48 := none, a := 0, b := 0, c := 0, dst := 64, count := 2 }
def ccDesc : CcDesc := { takeMax := true, a := 0, devA := 0, b := 4, devB := 1, dst := 64, count := 1 }
def amaxDesc : AmaxDesc := { slot := 1, src := 0, count := 1, dst := none, norm := none }
def convDesc : ConvDesc := { slot := 1, srcFmt := 16, src := 0, srcScale := 0, dst := 256, dstScale := 512, blocks := 1 }
def trDesc : TrDesc :=
  { fmt := 0, src := 0, srcScale := 2000, srcStride := 32, scaleStep := 1, dst := 4096, dstScale := 8192, stride := 32, pattern := 0, idxAddr := 0, mask := none }
def cmpDesc : CmpDesc := { pattern := 1, master := 0, masterFmt := 16, idxAddr := 1024, groups := 2 }
def dwDesc : DwDesc := { src := 0, acc := 1024, count := 1, slotA := none, slotG := 1, token := none, tensor := 0, elem := 0, elemStep := 1 }

/-- The packed record of a line of value 2^300 in the store. -/
def packedIn (t : Tile) : Tile := { t with store := [(0, 0xd4), (1, 0xff), (2, 1), (13, 0x10)] }
def badRecord (t : Tile) : Tile := { t with store := [(7, 0xff)] }

def verdict (skip : Bool) : Verdict := { skip := skip, fail := false, tensors := [], applied := [] }

/-- The job with vintage 1 open and its verdict known. -/
def withVerdict (x : Verdict) (s : State) : State :=
  { s with
    step := { s.step with committed := 0, openV := setF 0 vintageOpen_vintage 1 }
    job := { s.job with uncommitted := [{ vint with v := 1, verdict := some x }] } }

def rate (lr : F32) (s : State) : State :=
  { s with img := { s.img with cur := some { hdr := imgHdr, digest := 0, half := 0, img := { image with step := { stepProg with lr := [(0, lr)] }, tensors := [{ id := 0, kind := 0, mult := 0x3f800000, rows := 32, cols := 32, stateAddr := 0, histAddr := 0, repack := 0, masked := false, mask := 0, clip := false }] } } } }

def updDesc : UpdDesc :=
  { tensor := 0, slot := 1, wslot := 2, gradFmt := 16, grad := 0, master := 128, mom1 := 256, mom1Scale := 0, mom2 := 384, mom2Scale := 0, fwd := 512, fwdScale := 640, pattern := 0,
    idxAddr := 0, elem := 0, elemStep := 1, blockStep := 32, blocks := 1, norm2 := 2048 }
def updSlots (t : Tile) : Tile :=
  { t with slots := [(1, { Slot.reset with valid := true, mult := 0x3f800000, recipe := wordOf [(rc_fmt, 16), (rc_masterFmt, 16)] }), (2, { Slot.reset with valid := true, kind := 0, recipe := wordOf [(rc_fmt, 16), (rc_masterFmt, 16)] })] }

/-! Premises of Loads. -/

def s_Loads_moving : State := issuing (wLoad 0) (withMask (wLoad 0))

theorem wit_Loads_moving : Canonical s_Loads_moving ∧ Issues s_Loads_moving t00 .load (wLoad 0) ∧
    CountsFit (s_Loads_moving.tile t00) (wLoad 0) ∧ (badDesc (getF (wLoad 0) iw_desc) = false) ∧
    ((fmtEntry (s_Loads_moving.tile t00) (getF (wLoad 0) load_fmt)).isSome = true) ∧ (noLoad.frees = []) ∧
    (getF (wLoad 0) load_target = 0) ∧ (getF (wLoad 0) load_pattern = 0) ∧
    (State.loaderBusy (s_Loads_moving.tile t00) (getF (wLoad 0) load_loader) = false) :=
  ⟨canonical_of (by decide), ⟨by decide, by decide, by decide, by decide, by decide⟩, countsFit_of (by decide), by decide, by decide,
    by decide, by decide, by decide, by decide⟩

def s_Loads_busy : State := issuing (wLoad 0) (fun t => { withMask (wLoad 0) t with loaderA := some aStream, arrays := [(0, { Arr.reset with passes := [passOp 0 false] })] })

theorem wit_Loads_busy : Canonical s_Loads_busy ∧ Issues s_Loads_busy t00 .load (wLoad 0) ∧
    (State.loaderBusy (s_Loads_busy.tile t00) (getF (wLoad 0) load_loader) = true) :=
  ⟨canonical_of (by decide), ⟨by decide, by decide, by decide, by decide, by decide⟩, by decide⟩

def s_Loads_shadow : State := issuing (wLoad 1) (withMask (wLoad 1))

theorem wit_Loads_shadow : Canonical s_Loads_shadow ∧ Issues s_Loads_shadow t00 .load (wLoad 1) ∧
    CountsFit (s_Loads_shadow.tile t00) (wLoad 1) ∧ (badDesc (getF (wLoad 1) iw_desc) = false) ∧
    (fmtEntry (s_Loads_shadow.tile t00) (getF (wLoad 1) load_fmt) = some ⟨8, 4, 7, 1⟩) ∧
    (allMasked s_Loads_shadow.tensors noLoad.mask = false) ∧ (noLoad.frees = []) ∧ (getF (wLoad 1) load_target = 1) ∧
    (getF (wLoad 1) load_pattern < 3) ∧ (maskBits 13 (getF (wLoad 1) load_arrays) = [0, 1]) ∧ (∀ k ∈ [0, 1],
    (arrOf (s_Loads_shadow.tile t00) k).untaken = false ∧ loadReach (runOf s_Loads_shadow k) ≤ storeBytes) :=
  ⟨canonical_of (by decide), ⟨by decide, by decide, by decide, by decide, by decide⟩, countsFit_of (by decide), by decide, by decide,
    by decide, by decide, by decide, by decide, by decide, by decide⟩

def s_Loads_untaken : State := issuing (wLoad 1) (fun t => { withMask (wLoad 1) t with arrays := [(1, { Arr.reset with untaken := true })] })

theorem wit_Loads_untaken : Canonical s_Loads_untaken ∧ Issues s_Loads_untaken t00 .load (wLoad 1) ∧
    (allMasked s_Loads_untaken.tensors noLoad.mask = false) ∧ (1 ∈ maskBits 13 (getF (wLoad 1) load_arrays) ∧
    (arrOf (s_Loads_untaken.tile t00) 1).untaken = true) :=
  ⟨canonical_of (by decide), ⟨by decide, by decide, by decide, by decide, by decide⟩, by decide, by decide⟩

def s_Loads_masked : State := maskedW (issuing (wLoad 1) (withMask (wLoad 1)))

theorem wit_Loads_masked : Canonical s_Loads_masked ∧ Issues s_Loads_masked t00 .load (wLoad 1) ∧
    CountsFit (s_Loads_masked.tile t00) (wLoad 1) ∧ (allMasked s_Loads_masked.tensors (some whole) = true) :=
  ⟨canonical_of (by decide), ⟨by decide, by decide, by decide, by decide, by decide⟩, countsFit_of (by decide), by decide⟩

/-! Premises of PassDelivers. -/

def s_PassDelivers : State := issuing (wPass 0) (streamed (wPass 0))

theorem wit_PassDelivers : Canonical s_PassDelivers ∧ Issues s_PassDelivers t00 .pass (wPass 0) ∧ (State.badPass (wPass 0) = false) ∧
    (allMasked s_PassDelivers.tensors none = false) ∧ (getF (wPass 0) pass_array = 0) ∧ ((arrOf (s_PassDelivers.tile t00) 0).passes = []) ∧
    (flagF (wPass 0) pass_swap = false) ∧ (passM (wPass 0) = 2) ∧
    ((maskEntry (s_PassDelivers.tile t00) (getF (wPass 0) pass_mask)).1 % 2 ^ arrDepth 0 = 3 ∧
    (maskEntry (s_PassDelivers.tile t00) (getF (wPass 0) pass_mask)).2 % 2 ^ arrDepth 0 = 3) ∧ ((passOp 0 false).idle = false) ∧
    ((passRun (s_PassDelivers.tile t00) (passOp 0 false)).any (fun r => decide (loadTop r.l 2 r.nb (State.topFires r) ≤ storeBytes ∧
    r.pattern ≠ 1 ∧ r.mode.residue = true)) = true) ∧ ((streamFor (s_PassDelivers.tile t00) (wPass 0)).isSome = true) ∧
    (s12Free s_PassDelivers t00 = true) :=
  ⟨canonical_of (by decide), ⟨by decide, by decide, by decide, by decide, by decide⟩, by decide, by decide, by decide, by decide,
    by decide, by decide, by decide, by decide, by decide, by decide, by decide⟩

def s_Pass_dies : State := issuing (wPass 0) (fun t => { streamed (wPass 0) t with status := setF t.status tileStatus_s12For 3 })

theorem wit_Pass_dies : Canonical s_Pass_dies ∧ Issues s_Pass_dies t00 .pass (wPass 0) ∧ (s12Free s_Pass_dies t00 = false) ∧
    ((arrOf (s_Pass_dies.tile t00) 0).passes = []) ∧
    ((passRun (s_Pass_dies.tile t00) (passOp 0 false)).any (fun r => decide (loadTop r.l 2 r.nb (State.topFires r) ≤ storeBytes ∧
    r.pattern ≠ 1 ∧ r.mode.residue = true)) = true) :=
  ⟨canonical_of (by decide), ⟨by decide, by decide, by decide, by decide, by decide⟩, by decide, by decide, by decide⟩

def s_Pass_full : State := issuing (wPass 0) (fun t => { streamed (wPass 0) t with arrays := [(0, { Arr.reset with passes := [passOp 0 true, passOp 0 false] })] })

theorem wit_Pass_full : Canonical s_Pass_full ∧ Issues s_Pass_full t00 .pass (wPass 0) ∧ (2 ≤ (arrOf (s_Pass_full.tile t00) 0).passes.length) :=
  ⟨canonical_of (by decide), ⟨by decide, by decide, by decide, by decide, by decide⟩, by decide⟩

def s_Pass_dry : State := issuing (wPass 0) (withMask (wPass 0))

theorem wit_Pass_dry : Canonical s_Pass_dry ∧ Issues s_Pass_dry t00 .pass (wPass 0) ∧ ((arrOf (s_Pass_dry.tile t00) 0).passes.length < 2) ∧
    ((passOp 0 false).idle = false) ∧ ((passOp 0 false).rowMask ≠ 0) ∧ (streamFor (s_Pass_dry.tile t00) (wPass 0) = none) :=
  ⟨canonical_of (by decide), ⟨by decide, by decide, by decide, by decide, by decide⟩, by decide, by decide, by decide, by decide⟩

def s_Pass_idle : State := issuing (wordOf [(iw_class, 1)]) (withMask (wordOf [(iw_class, 1)]))

theorem wit_Pass_idle : Canonical s_Pass_idle ∧ Issues s_Pass_idle t00 .pass (wordOf [(iw_class, 1)]) ∧ (({ passOp 0 false with word := wordOf [(iw_class, 1)] } : PassOp).idle = true) ∧ CountsFit (s_Pass_idle.tile t00) (wordOf [(iw_class, 1)]) :=
  ⟨canonical_of (by decide), ⟨by decide, by decide, by decide, by decide, by decide⟩, by decide, countsFit_of (by decide)⟩

/-! Premises of SwapAndDrained. -/

def s_Swap_takes : State := issuing (wPass 1) (held (passOp 1 false))

theorem wit_Swap_takes : Canonical s_Swap_takes ∧ ((arrOf (s_Swap_takes.tile t00) 0).passes = [passOp 1 false]) ∧
    (s_Swap_takes.unitsRun t00 = true) ∧ (flagF (passOp 1 false).word pass_swap = true) ∧
    ((arrOf (s_Swap_takes.tile t00) 0).complete = true) ∧ ((passOp 1 false).idle = false) :=
  ⟨canonical_of (by decide), by decide, by decide, by decide, by decide, by decide⟩

def s_Swap_idle : State := issuing (wPass 1) (held idleSwap)

theorem wit_Swap_idle : Canonical s_Swap_idle ∧ ((arrOf (s_Swap_idle.tile t00) 0).passes = [idleSwap]) ∧
    (s_Swap_idle.unitsRun t00 = true) ∧ (flagF idleSwap.word pass_swap = true) ∧ ((arrOf (s_Swap_idle.tile t00) 0).complete = true) ∧
    (idleSwap.idle = true) :=
  ⟨canonical_of (by decide), by decide, by decide, by decide, by decide, by decide⟩

def s_Swap_waits : State := issuing (wPass 1) (fun t => { held (passOp 1 false) t with arrays := [(0, { Arr.reset with complete := false, passes := [passOp 1 false] })] })

theorem wit_Swap_waits : Canonical s_Swap_waits ∧ ((arrOf (s_Swap_waits.tile t00) 0).passes = [passOp 1 false]) ∧
    (s_Swap_waits.unitsRun t00 = true) ∧ ((arrOf (s_Swap_waits.tile t00) 0).complete = false) :=
  ⟨canonical_of (by decide), by decide, by decide, by decide⟩

def s_PassDrained : State := issuing (wPass 1) (held (passOp 1 true))

theorem wit_PassDrained : Canonical s_PassDrained ∧ ((arrOf (s_PassDrained.tile t00) 0).passes = [passOp 1 true]) ∧
    (s_PassDrained.unitsRun t00 = true) ∧ CountsFit (s_PassDrained.tile t00) (wPass 1) :=
  ⟨canonical_of (by decide), by decide, by decide, countsFit_of (by decide)⟩

def s_PassDrained_next : State := issuing (wPass 0) (fun t => { streamed (wPass 0) t with arrays := [(0, { Arr.reset with passes := [passOp 0 true, passOp 0 false] })] })

theorem wit_PassDrained_next : Canonical s_PassDrained_next ∧ ((arrOf (s_PassDrained_next.tile t00) 0).passes = [passOp 0 true,
    passOp 0 false]) ∧ (s_PassDrained_next.unitsRun t00 = true) ∧ (flagF (passOp 0 false).word pass_swap = false) ∧
    ((passOp 0 false).bad = none) ∧ ((passOp 0 false).idle = false) ∧ (passM (passOp 0 false).word ≤ 256) ∧
    CountsFit (s_PassDrained_next.tile t00) (wPass 0) ∧
    ((passRun (s_PassDrained_next.tile t00) (passOp 0 false)).any (fun r => decide (loadTop r.l (passM (passOp 0 false).word) r.nb
    (State.topFires r) ≤ storeBytes ∧ r.pattern ≠ 1)) = true) :=
  ⟨canonical_of (by decide), by decide, by decide, by decide, by decide, by decide, by decide, countsFit_of (by decide), by decide⟩

/-! Premises of Drains. -/

def s_DrainWrites : State := issuing wDrain (fun t => { withMask wDrain t with casks := [(0, line 5), (257, line (-7))] })

theorem wit_DrainWrites : Canonical s_DrainWrites ∧ Issues s_DrainWrites t00 .drain wDrain ∧ CountsFit (s_DrainWrites.tile t00) wDrain ∧
    (badDrain (s_DrainWrites.tile t00) wDrain = false) ∧ ((drainRun (s_DrainWrites.tile t00) wDrain drainDesc).topk = false) ∧
    ((drainRun (s_DrainWrites.tile t00) wDrain drainDesc).packed = false) ∧
    ((drainRun (s_DrainWrites.tile t00) wDrain drainDesc).dest = 0) ∧
    (State.drainFmt (s_DrainWrites.tile t00) (drainRun (s_DrainWrites.tile t00) wDrain drainDesc) = some fmtFp32) ∧
    (feeds (s_DrainWrites.tile t00) 0 2 = false) ∧
    (drainBeyond (s_DrainWrites.tile t00) (drainRun (s_DrainWrites.tile t00) wDrain drainDesc) fmtFp32 = false) :=
  ⟨canonical_of (by decide), ⟨by decide, by decide, by decide, by decide, by decide⟩, countsFit_of (by decide), by decide, by decide,
    by decide, by decide, by decide, by decide, by decide⟩

def s_Drain_waits : State := issuing wDrain (fun t => { withMask wDrain t with arrays := [(0, { Arr.reset with passes := [passOp 0 true] })] })

theorem wit_Drain_waits : Canonical s_Drain_waits ∧ Issues s_Drain_waits t00 .drain wDrain ∧
    (badDrain (s_Drain_waits.tile t00) wDrain = false) ∧ ((drainRun (s_Drain_waits.tile t00) wDrain drainDesc).topk = false) ∧
    ((drainRun (s_Drain_waits.tile t00) wDrain drainDesc).packed = false) ∧
    (State.drainFmt (s_Drain_waits.tile t00) (drainRun (s_Drain_waits.tile t00) wDrain drainDesc) = some fmtFp32) ∧
    (feeds (s_Drain_waits.tile t00) 0 2 = true) :=
  ⟨canonical_of (by decide), ⟨by decide, by decide, by decide, by decide, by decide⟩, by decide, by decide, by decide, by decide, by decide⟩

def s_Drain_races : State := issuing wDrain (withMask wDrain)

theorem wit_Drain_races : Canonical s_Drain_races ∧ Issues s_Drain_races t00 .drain wDrain ∧
    (badDrain (s_Drain_races.tile t00) wDrain = false) ∧ ((drainRun (s_Drain_races.tile t00) wDrain drainDesc).topk = false) ∧
    ((drainRun (s_Drain_races.tile t00) wDrain drainDesc).packed = false) ∧
    (State.drainFmt (s_Drain_races.tile t00) (drainRun (s_Drain_races.tile t00) wDrain drainDesc) = some fmtFp32) ∧
    (feeds (s_Drain_races.tile t00) 0 2 = false) ∧
    (drainBeyond (s_Drain_races.tile t00) (drainRun (s_Drain_races.tile t00) wDrain drainDesc) fmtFp32 = false) :=
  ⟨canonical_of (by decide), ⟨by decide, by decide, by decide, by decide, by decide⟩, by decide, by decide, by decide, by decide,
    by decide, by decide⟩

/-! Premises of RowOperations. -/

def s_Row_function : State := issuing (wRow 5 1) one

theorem wit_Row_function : Canonical s_Row_function ∧ Issues s_Row_function t00 .row (wRow 5 1) ∧
    CountsFit (s_Row_function.tile t00) (wRow 5 1) ∧ (badRow (s_Row_function.tile t00) (wRow 5 1) rowDesc = false) ∧
    (flagF (wRow 5 1) row_backward = false) ∧ (rowBeyond (s_Row_function.tile t00) 1 rowDesc 5 false = false) ∧ (rowDesc.stash = noStash) ∧
    (getF (wRow 5 1) row_op = 5) ∧ ((slotOf (s_Row_function.tile t00) 1).valid = false) :=
  ⟨canonical_of (by decide), ⟨by decide, by decide, by decide, by decide, by decide⟩, countsFit_of (by decide), by decide, by decide,
    by decide, by decide, by decide, by decide⟩

def s_Row_formatted : State := issuing (wRow 5 1) (fun t => { one (withMask (wRow 5 1) t) with ctl := t.ctl })

theorem wit_Row_formatted : Canonical s_Row_formatted ∧ Issues s_Row_formatted t00 .row (wRow 5 1) ∧
    CountsFit (s_Row_formatted.tile t00) (wRow 5 1) ∧ (badRow (s_Row_formatted.tile t00) (wRow 5 1) rowDesc = false) ∧
    (flagF (wRow 5 1) row_backward = false) ∧ (rowBeyond (s_Row_formatted.tile t00) 1 rowDesc 5 false = false) ∧
    ((slotOf (s_Row_formatted.tile t00) 1).valid = true) ∧
    (fmtByCode (s_Row_formatted.tile t00) (getF (slotOf (s_Row_formatted.tile t00) 1).recipe rc_fmt) = some fmtFp32) :=
  ⟨canonical_of (by decide), ⟨by decide, by decide, by decide, by decide, by decide⟩, countsFit_of (by decide), by decide, by decide,
    by decide, by decide, by decide⟩

def s_Row_softmax : State := issuing (wRow 0 1) one

theorem wit_Row_softmax : Canonical s_Row_softmax ∧ Issues s_Row_softmax t00 .row (wRow 0 1) ∧
    CountsFit (s_Row_softmax.tile t00) (wRow 0 1) ∧ (badRow (s_Row_softmax.tile t00) (wRow 0 1) rowDesc = false) ∧
    (flagF (wRow 0 1) row_backward = false) ∧ (rowBeyond (s_Row_softmax.tile t00) 1 rowDesc 0 false = false) ∧
    (getF (wRow 0 1) row_op = 0) ∧ (isRing (s_Row_softmax.tile t00) 0 = false) ∧ (rowDesc.rows ≤ rowDesc.recCount) ∧
    ((slotOf (s_Row_softmax.tile t00) 1).valid = false) :=
  ⟨canonical_of (by decide), ⟨by decide, by decide, by decide, by decide, by decide⟩, countsFit_of (by decide), by decide, by decide,
    by decide, by decide, by decide, by decide, by decide⟩

def s_Row_norecords : State := issuing (wRow 0 1) one

theorem wit_Row_norecords : Canonical s_Row_norecords ∧ Issues s_Row_norecords t00 .row (wRow 0 1) ∧
    (badRow (s_Row_norecords.tile t00) (wRow 0 1) rowDesc = false) ∧ (getF (wRow 0 1) row_op < 4) ∧ (({ rowDesc with recCount := 1 } : RowDesc).recCount < rowDesc.rows) ∧ (spillAt (s_Row_norecords.tile t00) = 0) :=
  ⟨canonical_of (by decide), ⟨by decide, by decide, by decide, by decide, by decide⟩, by decide, by decide, by decide, by decide⟩

def s_Row_backward : State := issuing wRowB one

theorem wit_Row_backward : Canonical s_Row_backward ∧ Issues s_Row_backward t00 .row wRowB ∧ CountsFit (s_Row_backward.tile t00) wRowB ∧
    (badRow (s_Row_backward.tile t00) wRowB rowDesc = false) ∧ (flagF wRowB row_backward = true) ∧ (rowDesc.pDst = none) ∧
    (rowBeyond (s_Row_backward.tile t00) 1 rowDesc 5 true = false) ∧ (getF wRowB row_op = 5) ∧ ((slotOf (s_Row_backward.tile t00) 1).valid = false) :=
  ⟨canonical_of (by decide), ⟨by decide, by decide, by decide, by decide, by decide⟩, countsFit_of (by decide), by decide, by decide,
    by decide, by decide, by decide, by decide⟩

def s_SpanRecompute : State := issuing (wRow 0 1) (fun t => { t with record := some tileRec, stash := { Stash.reset with dropped := [(0, 3, 1)], entries := [{ num := 0, lot := 0, span := 2, tier := 4, first := 0, len := 1, point := false }] } })

theorem wit_SpanRecompute : Canonical s_SpanRecompute ∧ (s_SpanRecompute.canIssue t00 = true) ∧
    ((s_SpanRecompute.tile t00).seq.redo = none) ∧ (droppedAt (s_SpanRecompute.tile t00) (s_SpanRecompute.tile t00).seq.lot 3 = some 1) ∧
    ((((s_SpanRecompute.tile t00).record.map (·.spans)).getD []).find? (fun x => x.1 == 3) = some (3, 2, 4)) ∧
    (droppedAt (s_SpanRecompute.tile t00) 0 4 = none) :=
  ⟨canonical_of (by decide), by decide, by decide, by decide, by decide, by decide⟩

def s_SpanEnd : State := issuing (wMark 1) (fun t => { t with ctl := setF t.ctl tileCtl_ledgerDetail 0, prog := [(4, wMark 1)], seq := { t.seq with index := 4, redo := some ⟨3, 4, 9, []⟩ } })

theorem wit_SpanEnd : Canonical s_SpanEnd ∧ ((s_SpanEnd.tile t00).seq.redo = some ⟨3, 4, 9, []⟩) ∧ (s_SpanEnd.canIssue t00 = true) ∧
    ((s_SpanEnd.tile t00).seq.index = 4) ∧ (curWord (s_SpanEnd.tile t00) = wMark 1) ∧ (clsOf (wMark 1) = some .mark) ∧
    (getF (wMark 1) mark_kind = 1) ∧ (getF (s_SpanEnd.tile t00).ctl tileCtl_ledgerDetail = 0) ∧ (flagF (wMark 1) iw_syncEn = false) :=
  ⟨canonical_of (by decide), by decide, by decide, by decide, by decide, by decide, by decide, by decide, by decide⟩

/-! Premises of VectorElementwise. -/

def s_Vec_elementwise : State := issuing (wVec 0) one

theorem wit_Vec_elementwise : Canonical s_Vec_elementwise ∧ Issues s_Vec_elementwise t00 .vec (wVec 0) ∧
    CountsFit (s_Vec_elementwise.tile t00) (wVec 0) ∧ (badDesc (getF (wVec 0) iw_desc) = false) ∧ (getF (wVec 0) ⟨33, 12⟩ = 0) ∧
    (getF (wVec 0) vec_op = 0) ∧ (eltBeyond (s_Vec_elementwise.tile t00) eltDesc = false) :=
  ⟨canonical_of (by decide), ⟨by decide, by decide, by decide, by decide, by decide⟩, countsFit_of (by decide), by decide, by decide,
    by decide, by decide⟩

def s_Vec_m48 : State := issuing (wVec 0) one

theorem wit_Vec_m48 : Canonical s_Vec_m48 ∧ Issues s_Vec_m48 t00 .vec (wVec 0) ∧ CountsFit (s_Vec_m48.tile t00) (wVec 0) ∧ (gatedOp .add = false) ∧ (eltBeyond (s_Vec_m48.tile t00) { eltDesc with m48 := some 0 } = false) :=
  ⟨canonical_of (by decide), ⟨by decide, by decide, by decide, by decide, by decide⟩, countsFit_of (by decide), by decide, by decide⟩

def s_Vec_gated : State := issuing (wVec 0) (fun t => gatedTile (one t))

theorem wit_Vec_gated : Canonical s_Vec_gated ∧ Issues s_Vec_gated t00 .vec (wVec 0) ∧ CountsFit (s_Vec_gated.tile t00) (wVec 0) ∧ (gatedOp .expertCounts = true) ∧ (eltBeyond (s_Vec_gated.tile t00) { eltDesc with op := .expertCounts } = false) ∧ (routerOf (s_Vec_gated.tile t00) = some router) :=
  ⟨canonical_of (by decide), ⟨by decide, by decide, by decide, by decide, by decide⟩, countsFit_of (by decide), by decide, by decide, by decide⟩

def s_Vec_combine : State := issuing (wVec 7) one

theorem wit_Vec_combine : Canonical s_Vec_combine ∧ Issues s_Vec_combine t00 .vec (wVec 7) ∧ CountsFit (s_Vec_combine.tile t00) (wVec 7) ∧
    (badDesc (getF (wVec 7) iw_desc) = false) ∧ (getF (wVec 7) ⟨33, 12⟩ = 0) ∧ (getF (wVec 7) vec_op = 7) ∧
    ((badUnitRange (s_Vec_combine.tile t00).vecIn 0 4 || badUnitRange (s_Vec_combine.tile t00).vecIn 4 4 || beyondStore 64 4) = false) :=
  ⟨canonical_of (by decide), ⟨by decide, by decide, by decide, by decide, by decide⟩, countsFit_of (by decide), by decide, by decide,
    by decide, by decide⟩

def s_Vec_amax : State := issuing (wVec 5) (fun t => { one t with slots := [(1, { Slot.reset with valid := true, recipe := wordOf [(rc_source, 1), (rc_check, 1)] })] })

theorem wit_Vec_amax : Canonical s_Vec_amax ∧ Issues s_Vec_amax t00 .vec (wVec 5) ∧ CountsFit (s_Vec_amax.tile t00) (wVec 5) ∧
    (badDesc (getF (wVec 5) iw_desc) = false) ∧ (getF (wVec 5) ⟨33, 12⟩ = 0) ∧ (getF (wVec 5) vec_op = 5) ∧
    (badUnitRange (s_Vec_amax.tile t00).vecIn 0 4 = false) ∧ ((s_Vec_amax.tile t00).seq.evaluating = false) ∧
    (getF (slotOf (s_Vec_amax.tile t00) 1).recipe rc_source = srcHist) :=
  ⟨canonical_of (by decide), ⟨by decide, by decide, by decide, by decide, by decide⟩, countsFit_of (by decide), by decide, by decide,
    by decide, by decide, by decide, by decide⟩

/-! Premises of VectorConversions. -/

def s_Vec_convert : State := issuing (wVec 6) (fun t => one (withMask (wVec 6) t))

theorem wit_Vec_convert : Canonical s_Vec_convert ∧ Issues s_Vec_convert t00 .vec (wVec 6) ∧ CountsFit (s_Vec_convert.tile t00) (wVec 6) ∧
    (badDesc (getF (wVec 6) iw_desc) = false) ∧ (getF (wVec 6) ⟨33, 12⟩ = 0) ∧ (getF (wVec 6) vec_op = 6) ∧
    (fmtByCode (s_Vec_convert.tile t00) 16 = some fmtFp32) ∧ ((slotOf (s_Vec_convert.tile t00) 1).valid = true) ∧
    (fmtByCode (s_Vec_convert.tile t00) (getF (slotOf (s_Vec_convert.tile t00) 1).recipe rc_fmt) = some fmtFp32) ∧
    ((badUnitRange (s_Vec_convert.tile t00).vecIn 0 (4 * fmtFp32.w * 1) || (!fmtFp32.wide && beyondStore 0 1) || beyondStore 256 (4 *
    fmtFp32.w * 1) || (!fmtFp32.wide && beyondStore 512 1)) = false) :=
  ⟨canonical_of (by decide), ⟨by decide, by decide, by decide, by decide, by decide⟩, countsFit_of (by decide), by decide, by decide,
    by decide, by decide, by decide, by decide, by decide⟩

def s_Vec_convert8 : State := issuing (wVec 6) (fun t => { one t with slots := [(1, { Slot.reset with valid := true, recipe := 0 })] })

theorem wit_Vec_convert8 : Canonical s_Vec_convert8 ∧ Issues s_Vec_convert8 t00 .vec (wVec 6) ∧
    CountsFit (s_Vec_convert8.tile t00) (wVec 6) ∧
    (fmtByCode (s_Vec_convert8.tile t00) (getF (slotOf (s_Vec_convert8.tile t00) 1).recipe rc_fmt) = some ⟨8, 4, 7, 1⟩) :=
  ⟨canonical_of (by decide), ⟨by decide, by decide, by decide, by decide, by decide⟩, countsFit_of (by decide), by decide⟩

def s_Vec_transpose : State := issuing (wVec 2) one

theorem wit_Vec_transpose : Canonical s_Vec_transpose ∧ Issues s_Vec_transpose t00 .vec (wVec 2) ∧
    CountsFit (s_Vec_transpose.tile t00) (wVec 2) ∧ (badDesc (getF (wVec 2) iw_desc) = false) ∧ (getF (wVec 2) vec_op = 2) ∧
    (fmtEntry (s_Vec_transpose.tile t00) 0 = some ⟨8, 4, 7, 1⟩) ∧ (trBeyond trDesc ⟨8, 4, 7, 1⟩ = false) :=
  ⟨canonical_of (by decide), ⟨by decide, by decide, by decide, by decide, by decide⟩, countsFit_of (by decide), by decide, by decide,
    by decide, by decide⟩

def s_Vec_compress : State := issuing (wVec 3) one

theorem wit_Vec_compress : Canonical s_Vec_compress ∧ Issues s_Vec_compress t00 .vec (wVec 3) ∧
    CountsFit (s_Vec_compress.tile t00) (wVec 3) ∧ (badDesc (getF (wVec 3) iw_desc) = false) ∧ (getF (wVec 3) vec_op = 3) ∧
    (fmtByCode (s_Vec_compress.tile t00) 16 = some fmtFp32) ∧
    ((beyondStore 0 (4 * 2 * (fmtFp32.w / 8)) || beyondStore 1024 ((2 + 7) / 8 * metaLen 1)) = false) :=
  ⟨canonical_of (by decide), ⟨by decide, by decide, by decide, by decide, by decide⟩, countsFit_of (by decide), by decide, by decide,
    by decide, by decide⟩

/-! Premises of DwAccumulate. -/

def s_Dw_adds : State := issuing (wVec 4) packedIn

theorem wit_Dw_adds : Canonical s_Dw_adds ∧ Issues s_Dw_adds t00 .vec (wVec 4) ∧ CountsFit (s_Dw_adds.tile t00) (wVec 4) ∧
    (badDesc (getF (wVec 4) iw_desc) = false) ∧ (getF (wVec 4) ⟨33, 12⟩ = 0) ∧ (getF (wVec 4) vec_op = 4) ∧
    (State.dwBeyond (s_Dw_adds.tile t00) dwDesc = false) ∧ (maskedElt s_Dw_adds.tensors 0 0 = false) ∧
    (dwDesc.src + 88 * dwDesc.count ≤ dwBase (s_Dw_adds.tile t00) dwDesc) ∧
    ((packedAt (fun a n => unitLE (s_Dw_adds.tile t00) (s_Dw_adds.tile t00).vecIn a n) 0).malformed = false) :=
  ⟨canonical_of (by decide), ⟨by decide, by decide, by decide, by decide, by decide⟩, countsFit_of (by decide), by decide, by decide,
    by decide, by decide, by decide, by decide, by decide +kernel⟩

def s_Dw_malformed : State := issuing (wVec 4) badRecord

theorem wit_Dw_malformed : Canonical s_Dw_malformed ∧ Issues s_Dw_malformed t00 .vec (wVec 4) ∧
    CountsFit (s_Dw_malformed.tile t00) (wVec 4) ∧ (dwDesc.count = 1) ∧ (maskedElt s_Dw_malformed.tensors 0 0 = false) ∧
    ((packedAt (fun a n => unitLE (s_Dw_malformed.tile t00) (s_Dw_malformed.tile t00).vecIn a n) 0).malformed = true) :=
  ⟨canonical_of (by decide), ⟨by decide, by decide, by decide, by decide, by decide⟩, countsFit_of (by decide), by decide, by decide,
    by decide +kernel⟩

/-! Premises of WeightUpdate. -/

def s_Update_waits : State := issuing (wVec 1)

theorem wit_Update_waits : Canonical s_Update_waits ∧ Issues s_Update_waits t00 .vec (wVec 1) ∧
    CountsFit (s_Update_waits.tile t00) (wVec 1) ∧ (badDesc (getF (wVec 1) iw_desc) = false) ∧ (getF (wVec 1) ⟨33, 12⟩ = 0) ∧
    (getF (wVec 1) vec_op = 1) ∧ (s_Update_waits.updVint = none) :=
  ⟨canonical_of (by decide), ⟨by decide, by decide, by decide, by decide, by decide⟩, countsFit_of (by decide), by decide, by decide,
    by decide, by decide⟩

def s_Update_skips : State := withVerdict (verdict true) (issuing (wVec 1))

theorem wit_Update_skips : Canonical s_Update_skips ∧ Issues s_Update_skips t00 .vec (wVec 1) ∧
    CountsFit (s_Update_skips.tile t00) (wVec 1) ∧ (s_Update_skips.updVint.any (fun v => (v.verdict.map (·.skip)).getD false) = true) :=
  ⟨canonical_of (by decide), ⟨by decide, by decide, by decide, by decide, by decide⟩, countsFit_of (by decide), by decide⟩

def s_Update_writes : State := rate 0x3f800000 (withVerdict (verdict false) (issuing (wVec 1) (fun t => { one t with record := t.record, slots := (updSlots t).slots })))

theorem wit_Update_writes : Canonical s_Update_writes ∧ Issues s_Update_writes t00 .vec (wVec 1) ∧
    CountsFit (s_Update_writes.tile t00) (wVec 1) ∧ (s_Update_writes.updVint.any (fun v => (v.verdict.map (·.skip)).getD false) = false ∧
    s_Update_writes.updVint.isSome = true) ∧
    ((s_Update_writes.updVint.bind (fun v => s_Update_writes.updRun (s_Update_writes.tile t00) updDesc v)).any (fun r => (f32v
    r.lr).isFinite && !State.updBeyond updDesc r) = true) ∧ (flagF (slotOf (s_Update_writes.tile t00) 1).recipe rc_check = false) :=
  ⟨canonical_of (by decide), ⟨by decide, by decide, by decide, by decide, by decide⟩, countsFit_of (by decide), by decide, by decide, by decide⟩

def s_Update_zero : State := rate 0 (withVerdict (verdict false) (issuing (wVec 1) (fun t => { one t with record := t.record, slots := (updSlots t).slots })))

theorem wit_Update_zero : Canonical s_Update_zero ∧ Issues s_Update_zero t00 .vec (wVec 1) ∧ CountsFit (s_Update_zero.tile t00) (wVec 1) ∧
    (s_Update_zero.updVint.any (fun v => (v.verdict.map (·.skip)).getD false) = false ∧ s_Update_zero.updVint.isSome = true) ∧
    ((s_Update_zero.updVint.bind (fun v => s_Update_zero.updRun (s_Update_zero.tile t00) updDesc v)).any (fun r => (f32v r.lr).isZero &&
    (f32v r.lr).isFinite && !State.updBeyond updDesc r) = true) :=
  ⟨canonical_of (by decide), ⟨by decide, by decide, by decide, by decide, by decide⟩, countsFit_of (by decide), by decide, by decide⟩

def s_Update_nan : State := rate 0x7fc00000 (withVerdict (verdict false) (issuing (wVec 1) (fun t => { one t with record := t.record, slots := (updSlots t).slots })))

theorem wit_Update_nan : Canonical s_Update_nan ∧ Issues s_Update_nan t00 .vec (wVec 1) ∧ CountsFit (s_Update_nan.tile t00) (wVec 1) ∧
    ((s_Update_nan.updVint.bind (fun v => s_Update_nan.updRun (s_Update_nan.tile t00) updDesc v)).any (fun r => !(f32v r.lr).isFinite &&
    !State.updBeyond updDesc r) = true) :=
  ⟨canonical_of (by decide), ⟨by decide, by decide, by decide, by decide, by decide⟩, countsFit_of (by decide), by decide⟩

/-! ## Illegal words, moves, HBM, sites -/

def wMove : Word := wordOf [(iw_class, 5), (iw_syncEn, 1), (iw_counter, 4), (move_dstCounter, 5), (move_dstInc, 2), (iw_desc, 100)]

def mv (k : MoveKind) : MoveDesc := { kind := k, loc := 128, len := 2, gather := none, stash := noStash }

def xfer (k : MoveKind) : Xfer := { word := wMove, d := mv k, bytes := [1, 2], since := 0, lot := 0, rerun := false }

/-- One packed record of a line of value 2^300, and one accumulator of the value 5, on their way to line 9 of cask 224. -/
def caskXfer : Xfer :=
  { xfer (.toCask 224 9) with d := { mv (.toCask 224 9) with len := 88 }, bytes := [0xd4, 0xff, 1] ++ List.replicate 10 0 ++ [0x10] ++ List.replicate 74 0 }
def accXfer : Xfer :=
  { xfer (.accToCask 224 9 none 1) with d := { mv (.accToCask 224 9 none 1) with len := 16 }, bytes := [5] ++ List.replicate 15 0 }

/-- Tile 0.0 with one transfer in flight. -/
def inFlight (k : MoveKind) (t : Tile) : Tile := { t with chans := [(0, { Chan.reset with queue := [xfer k] })] }

/-- Partition 1 is fenced. -/
def fenced1 (s : State) : State := s.setPart 1 { Part.reset with fenceStatus := setF 0 fenceStatus_fenced 1 }

/-- STATE in partition 0 has its pages, live and snapshot frames. -/
def paged (s : State) : State :=
  { s with
    parts := [(0, { Part.reset with pages := [{ copied := false, racked := false, snap := 0, live := 512 }, { copied := true, racked := false, snap := 578, live := 513 }] })]
    job := { s.job with sigmaOpen := true } }

def withStates (rs : List Region) (s : State) : State :=
  { s with img := { s.img with cur := some { hdr := imgHdr, digest := 0, half := 0, img := { image with roles := [{ role with regions := rs }] } } } }

def pageRegions : List Region :=
  [{ ty := .state, part := 0, base := 0x2000000, len := 0x400000 }, { ty := .snap, part := 0, base := 0x2400000, len := 0x400000 },
   { ty := .scratch, part := 0, base := 0xa0000000, len := 0x200000 }]

def farRegions : List Region := [{ ty := .scratch, part := 1, base := 0, len := 0x200000 }]

/-- Site 5 of partition 0 under test, with tile 0.0 on it. -/
def testing (s : State) : State :=
  { s with sites := [(5, { bist := wordOf [(siteBist_siteRole, 0), (siteBist_logicalT, 0)], mode := 1, running := true })] }

/-- Tile 0.0 faulted for good, with site 7 of its partition a spare. -/
def grafting (spare : Bool) (s : State) : State :=
  { s.setTile t00 { Tile.reset with status := wordOf [(tileStatus_tileState, TS.faulted), (tileStatus_faultCode, 2)], map := wordOf [(tileMap_site, 5)] } with
    sites := [(5, { Site.reset with bist := 0 })] ++ (if spare then [(7, { Site.reset with bist := wordOf [(siteBist_siteRole, 1)] })] else []) }

def moreSpares (s : State) : State := { s with sites := s.sites ++ [(8, { Site.reset with bist := wordOf [(siteBist_siteRole, 1)] })] }

/-! ## Step control and the agreement -/

/-- The image has a ckpt item, and a job key is loaded. -/
def ckptImage (s : State) : State :=
  { s with img := { s.img with cur := some { hdr := imgHdr, digest := 0, half := 0, img := { image with step := { stepProg with ckptPeriod := 4 } } } } }
def keyed (s : State) : State := { s with sec := { s.sec with slots := [(0, { keyId := 3, key := 4 })] } }

/-- The spare of the image. -/
def spare (d : Nat) : State := { jobAs 2 d with dev := { (jobAs 2 d).dev with state := setF (jobAs 2 d).dev.state devState_spare 1 } }

def known (s : State) : State :=
  { s with job := { s.job with uncommitted := [{ vint with v := 6, verdict := some (verdict false) }] } }

def buddied (s : State) : State := { s with mir := { s.mir with buddyId := wordOf [(buddyId_b1Valid, 1), (buddyId_buddy1, 1)] } }

/-- Device 1 of a job of two domains: head of its own, not of the job, and not the head of its REPLICA group. -/
def second (d : Nat) : State :=
  let s := jobAs 1 d
  let ds := [{ devEntry 0 false with replica := 7 }, { devEntry 1 false with replica := 7, domain := 1 }, { devEntry 2 false with replica := 8, domain := 1 }]
  { s with img := { s.img with cur := some { hdr := imgHdr, digest := 0, half := 0, img := { image with devices := ds } } } }

/-- A device whose check has waited three microseconds for racking, and has failed meanwhile. -/
def stallWait (s : State) : State :=
  { s with time := { TimeRegs.reset with count := 3 * usTicks }, job := { s.job with bits := 4, checkWait := some (State.stallRacking, 0) } }

/-- The image's stage has its first instruction ahead of it. -/
def withFirst (r : TileRec) (s : State) : State := s.setTile t00 { Tile.reset with record := some r }

/-- Reports have been coming in for long. -/
def late (s : State) : State := { s with time := { TimeRegs.reset with count := 10 ^ 12 }, job := { s.job with firstRepAt := some 0 } }

def vrep : VerdictRep := { vintage := 6, attempt := 0, device := 1, skipCount := 0, failCount := 0, tensors := [], props := [] }

def crep : CheckReport :=
  { vintage := 6, attempt := 0, device := 1, bits := 0, err := 0, minority := [], uncounted := false, grad := 0, shard := 0, decant := false,
    ckptDone := true, image := 0, objects := [] }

def restoring (c : List (Nat × Nat)) (s : State) : State := { s with job := { s.job with restore := some { cands := c, reports := [0], wrote := false } } }

/-! Premises of IllegalWords. -/

def s_Illegal_class : State := issuing (wordOf [(iw_class, 9)])

theorem wit_Illegal_class : (s_Illegal_class.canIssue t00 = true) ∧ ((s_Illegal_class.tile t00).seq.index < 4032) ∧
    (curWord (s_Illegal_class.tile t00) = wordOf [(iw_class, 9)]) ∧ (clsOf (wordOf [(iw_class, 9)]) = none) :=
  ⟨by decide, by decide, by decide, by decide⟩

def s_Illegal_sync : State := issuing (wSync 3 0)

theorem wit_Illegal_sync : (s_Illegal_sync.canIssue t00 = true) ∧ ((s_Illegal_sync.tile t00).seq.index < 4032) ∧
    (curWord (s_Illegal_sync.tile t00) = wSync 3 0) ∧ (getF (wSync 3 0) sync_op = 3) :=
  ⟨by decide, by decide, by decide, by decide⟩

def s_Illegal_flow : State := issuing (wFlow 5 0)

theorem wit_Illegal_flow : (s_Illegal_flow.canIssue t00 = true) ∧ ((s_Illegal_flow.tile t00).seq.index < 4032) ∧
    (curWord (s_Illegal_flow.tile t00) = wFlow 5 0) ∧ (4 < getF (wFlow 5 0) flow_op) :=
  ⟨by decide, by decide, by decide, by decide⟩

def s_Illegal_mark : State := issuing (wMark 3)

theorem wit_Illegal_mark : (s_Illegal_mark.canIssue t00 = true) ∧ ((s_Illegal_mark.tile t00).seq.index < 4032) ∧
    (curWord (s_Illegal_mark.tile t00) = wMark 3) ∧ (getF (wMark 3) mark_kind = 3) :=
  ⟨by decide, by decide, by decide, by decide⟩

def s_Illegal_row : State := issuing (wRow 6 0)

theorem wit_Illegal_row : (s_Illegal_row.canIssue t00 = true) ∧ ((s_Illegal_row.tile t00).seq.index < 4032) ∧
    (curWord (s_Illegal_row.tile t00) = wRow 6 0) ∧ (badRow (s_Illegal_row.tile t00) (wRow 6 0) rowDesc = true) :=
  ⟨by decide, by decide, by decide, by decide⟩

def s_Illegal_vec : State := issuing (wVec 8)

theorem wit_Illegal_vec : (s_Illegal_vec.canIssue t00 = true) ∧ ((s_Illegal_vec.tile t00).seq.index < 4032) ∧
    (curWord (s_Illegal_vec.tile t00) = wVec 8) ∧ (7 < getF (wVec 8) vec_op) :=
  ⟨by decide, by decide, by decide, by decide⟩

def s_Illegal_move : State := issuing (wordOf [(iw_class, 5), (iw_desc, 101)])

theorem wit_Illegal_move : (s_Illegal_move.canIssue t00 = true) ∧ ((s_Illegal_move.tile t00).seq.index < 4032) ∧
    (curWord (s_Illegal_move.tile t00) = wordOf [(iw_class, 5), (iw_desc, 101)]) ∧ (badDesc 101 = true) :=
  ⟨by decide, by decide, by decide, by decide⟩

def s_Illegal_load : State := issuing (wordOf [(iw_desc, 4032)])

theorem wit_Illegal_load : (s_Illegal_load.canIssue t00 = true) ∧ ((s_Illegal_load.tile t00).seq.index < 4032) ∧
    (curWord (s_Illegal_load.tile t00) = wordOf [(iw_desc, 4032)]) ∧ (badDesc 4032 = true) :=
  ⟨by decide, by decide, by decide, by decide⟩

/-! Premises of Moves. -/

def s_Moves_enqueue : State := withStates pageRegions (issuing wMove (fun t => { t with store := [(128, 7)], record := some { tileRec with grants := [{ base := 0xa0000000, len := 0x200000, write := true, forUpdate := false }] } }))

theorem wit_Moves_enqueue : Canonical s_Moves_enqueue ∧ Issues s_Moves_enqueue t00 .move wMove ∧ (badDesc (getF wMove iw_desc) = false) ∧
    ((chanOf (s_Moves_enqueue.tile t00) 0).queue.length < 2) ∧ ((chanOf (s_Moves_enqueue.tile t00) 0).halted = false) ∧
    (s_Moves_enqueue.awaitsLot (s_Moves_enqueue.tile t00) (mv (.toHbm 0xa0000000)) = false) ∧
    (s_Moves_enqueue.badMove (s_Moves_enqueue.tile t00) (mv (.toHbm 0xa0000000)) = false) ∧
    ((moveTarget (mv (.toHbm 0xa0000000))).any (fun p => s_Moves_enqueue.partFenced p) = false) ∧ ((mv (.toHbm 0xa0000000)).stash.save = none) :=
  ⟨canonical_of (by decide), ⟨by decide, by decide, by decide, by decide, by decide⟩, by decide, by decide, by decide, by decide,
    by decide, by decide, by decide⟩

def s_Moves_full : State := issuing wMove (fun t => { t with chans := [(0, { queue := [xfer (.toHbm 0), xfer (.toHbm 0)], halted := false, digest := none })] })

theorem wit_Moves_full : Canonical s_Moves_full ∧ Issues s_Moves_full t00 .move wMove ∧ (2 ≤ (chanOf (s_Moves_full.tile t00) 0).queue.length) :=
  ⟨canonical_of (by decide), ⟨by decide, by decide, by decide, by decide, by decide⟩, by decide⟩

def s_Moves_lot : State := issuing wMove

theorem wit_Moves_lot : Canonical s_Moves_lot ∧ Issues s_Moves_lot t00 .move wMove ∧ ((chanOf (s_Moves_lot.tile t00) 0).queue.length < 2) ∧
    ((chanOf (s_Moves_lot.tile t00) 0).halted = false) ∧ (s_Moves_lot.awaitsLot (s_Moves_lot.tile t00) (mv (.fromLot 0)) = true) :=
  ⟨canonical_of (by decide), ⟨by decide, by decide, by decide, by decide, by decide⟩, by decide, by decide, by decide⟩

def s_Moves_fenced : State := withStates farRegions (fenced1 (issuing wMove (fun t => { t with record := some { tileRec with grants := [{ base := 0x2000000000, len := 0x200000, write := true, forUpdate := false }] } })))

theorem wit_Moves_fenced : Canonical s_Moves_fenced ∧ Issues s_Moves_fenced t00 .move wMove ∧
    (s_Moves_fenced.awaitsLot (s_Moves_fenced.tile t00) (mv (.toHbm 0x2000000000)) = false) ∧
    (s_Moves_fenced.badMove (s_Moves_fenced.tile t00) (mv (.toHbm 0x2000000000)) = false) ∧
    (moveTarget (mv (.toHbm 0x2000000000)) = some 1) ∧ (s_Moves_fenced.partFenced 1 = true) :=
  ⟨canonical_of (by decide), ⟨by decide, by decide, by decide, by decide, by decide⟩, by decide, by decide, by decide, by decide⟩

def s_Moves_bad : State := issuing wMove

theorem wit_Moves_bad : Canonical s_Moves_bad ∧ Issues s_Moves_bad t00 .move wMove ∧ ((chanOf (s_Moves_bad.tile t00) 0).queue.length < 2) ∧
    ((chanOf (s_Moves_bad.tile t00) 0).halted = false) ∧ (s_Moves_bad.badMove (s_Moves_bad.tile t00) { mv (.toHbm 0) with loc := 0x400000 } = true) :=
  ⟨canonical_of (by decide), ⟨by decide, by decide, by decide, by decide, by decide⟩, by decide, by decide, by decide⟩

/-! Premises of TransferCompletes. -/

def s_Transfer_fromHbm : State := issuing wMove (inFlight (.fromHbm 0))

theorem wit_Transfer_fromHbm : Canonical s_Transfer_fromHbm ∧ ((chanOf (s_Transfer_fromHbm.tile t00) 0).queue = [xfer (.fromHbm 0)]) ∧
    (s_Transfer_fromHbm.alive = true) ∧ (s_Transfer_fromHbm.awaitsCopy (xfer (.fromHbm 0)).d = false) ∧
    ((moveTarget (xfer (.fromHbm 0)).d).any (fun p => s_Transfer_fromHbm.partFenced p) = false) ∧ CountsFit (s_Transfer_fromHbm.tile t00) wMove :=
  ⟨canonical_of (by decide), by decide, by decide, by decide, by decide, countsFit_of (by decide)⟩

def s_Transfer_toHbm : State := withStates pageRegions (issuing wMove (inFlight (.toHbm 0xa0000000)))

theorem wit_Transfer_toHbm : Canonical s_Transfer_toHbm ∧ ((chanOf (s_Transfer_toHbm.tile t00) 0).queue = [xfer (.toHbm 0xa0000000)]) ∧
    (s_Transfer_toHbm.alive = true) ∧ (s_Transfer_toHbm.awaitsCopy (xfer (.toHbm 0xa0000000)).d = false) ∧
    ((moveTarget (xfer (.toHbm 0xa0000000)).d).any (fun p => s_Transfer_toHbm.partFenced p) = false) ∧ CountsFit (s_Transfer_toHbm.tile t00) wMove :=
  ⟨canonical_of (by decide), by decide, by decide, by decide, by decide, countsFit_of (by decide)⟩

def s_Transfer_toTile : State := issuing wMove (inFlight (.toTile 0 1 256))

theorem wit_Transfer_toTile : Canonical s_Transfer_toTile ∧ ((chanOf (s_Transfer_toTile.tile t00) 0).queue = [xfer (.toTile 0 1 256)]) ∧
    (s_Transfer_toTile.alive = true) ∧ (s_Transfer_toTile.awaitsCopy (xfer (.toTile 0 1 256)).d = false) ∧
    ((moveTarget (xfer (.toTile 0 1 256)).d).any (fun p => s_Transfer_toTile.partFenced p) = false) ∧
    CountsFit (s_Transfer_toTile.tile t00) wMove ∧ (tkey ⟨0, 1⟩ ≠ tkey t00) ∧ (counter (s_Transfer_toTile.tile ⟨0, 1⟩) 5 + 3 ≤ 0xffffffff) :=
  ⟨canonical_of (by decide), by decide, by decide, by decide, by decide, countsFit_of (by decide), by decide, by decide⟩

def s_Transfer_route : State := issuing wMove (inFlight (.route { route := 2, coll := 3, payload := 4, base := 0, count := 2 }))

theorem wit_Transfer_route : Canonical s_Transfer_route ∧ ((chanOf (s_Transfer_route.tile t00) 0).queue = [xfer (.route { route := 2, coll := 3, payload := 4, base := 0, count := 2 })]) ∧ (State.frameBad { route := 2, coll := 3, payload := 4, base := 0, count := 2 } [1, 2] = false) ∧ CountsFit (s_Transfer_route.tile t00) wMove :=
  ⟨canonical_of (by decide), by decide, by decide, countsFit_of (by decide)⟩

def s_Transfer_toCask : State := issuing wMove (fun t => { t with chans := [(0, { Chan.reset with queue := [caskXfer] })] })

theorem wit_Transfer_toCask : Canonical s_Transfer_toCask ∧ ((chanOf (s_Transfer_toCask.tile t00) 0).queue = [caskXfer]) ∧
    (caskXfer.d.len / slotSize = 1) ∧ ((packedAt (readBytes caskXfer.bytes) 0).header ≠ 0 ∧
    (packedAt (readBytes caskXfer.bytes) 0).malformed = false ∧ (packedAt (readBytes caskXfer.bytes) 0).emptyBit = false) ∧
    (kindClash (caskLine (s_Transfer_toCask.tile t00) 224 9) (packedAt (readBytes caskXfer.bytes) 0) = false) ∧
    CountsFit (s_Transfer_toCask.tile t00) wMove :=
  ⟨canonical_of (by decide), by decide, by decide, by decide +kernel, by decide +kernel, countsFit_of (by decide)⟩

def s_Transfer_acc : State := issuing wMove (fun t => { t with chans := [(0, { Chan.reset with queue := [accXfer] })] })

theorem wit_Transfer_acc : Canonical s_Transfer_acc ∧ ((chanOf (s_Transfer_acc.tile t00) 0).queue = [accXfer]) ∧
    (9 + accXfer.d.len / 16 ≤ 256) ∧ CountsFit (s_Transfer_acc.tile t00) wMove :=
  ⟨canonical_of (by decide), by decide, by decide, countsFit_of (by decide)⟩

def s_Transfer_races : State := issuing wMove (inFlight (.fromHbm 0))

theorem wit_Transfer_races : Canonical s_Transfer_races ∧ (State.landing t00 (xfer (.fromHbm 0)).d = some t00) ∧ (s_Transfer_races.alive = true) :=
  ⟨canonical_of (by decide), by decide, by decide⟩

/-! Premises of PageCopies. -/

def s_PageCopies_copy : State := { withStates pageRegions (paged (job DS.running)) with mem := [(0x2000003, 9)] }

theorem wit_PageCopies_copy : Canonical s_PageCopies_copy ∧ (s_PageCopies_copy.alive = true) ∧ (s_PageCopies_copy.job.sigmaOpen = true) ∧
    (0 < (s_PageCopies_copy.part 0).pages.length) ∧ ((s_PageCopies_copy.page 0 0).copied = false) ∧ ((s_PageCopies_copy.freeFrame 0).isSome = true) :=
  ⟨canonical_of (by decide), by decide, by decide, by decide, by decide, by decide⟩

def s_PageCopies_done : State := withStates pageRegions (paged (job DS.running))

theorem wit_PageCopies_done : Canonical s_PageCopies_done ∧ (1 < (s_PageCopies_done.part 0).pages.length) ∧
    ((s_PageCopies_done.page 0 1).copied = true) :=
  ⟨canonical_of (by decide), by decide, by decide⟩

/-! Premises of MemoryMaintenance. -/

def s_Memory_corrected : State := withStates pageRegions (job DS.running)

theorem wit_Memory_corrected : Canonical s_Memory_corrected ∧ (s_Memory_corrected.hbmUp = true) ∧
    (flagF (s_Memory_corrected.stack 0 1).ctl memCtl_scrubEn = true) ∧
    (Sparse.get 0 (s_Memory_corrected.stack 0 1).rowCe (2 * 2 ^ 24 + rowOfUnit 9) ≠ 15) :=
  ⟨canonical_of (by decide), by decide, by decide, by decide⟩

def s_Memory_system : State := withStates pageRegions (job DS.running)

theorem wit_Memory_system : Canonical s_Memory_system ∧ (s_Memory_system.hbmUp = true) ∧
    (flagF (s_Memory_system.stack 0 1).ctl memCtl_scrubEn = true) ∧ (((9 * 32 + 2) * s_Memory_system.S + 1) * 256 < sysBytes 0) :=
  ⟨canonical_of (by decide), by decide, by decide, by decide⟩

def s_Memory_transient : State := withStates pageRegions (job DS.running)

theorem wit_Memory_transient : Canonical s_Memory_transient ∧ (s_Memory_transient.hbmUp = true) ∧
    (flagF (s_Memory_transient.stack 0 0).ctl memCtl_scrubEn = true) ∧
    (sysBytes 0 ≤ ((0x14000 * 32 + 0) * s_Memory_transient.S + 0) * 256) ∧
    (((s_Memory_transient.regionAt 0 (((0x14000 * 32 + 0) * s_Memory_transient.S + 0) * 256)).map (fun r => State.transient r.ty)) = some
    true) ∧ (Sparse.get 0 (s_Memory_transient.stack 0 0).ueInJob 0 = 0) :=
  ⟨canonical_of (by decide), by decide, by decide, by decide, by decide, by decide⟩

def s_Memory_onDie : State := (job DS.running).setStack 0 1 { Stack.reset with ctl := setF Stack.reset.ctl memCtl_ecsEn 1 }

theorem wit_Memory_onDie : Canonical s_Memory_onDie ∧ (s_Memory_onDie.hbmUp = true) ∧ (flagF (s_Memory_onDie.stack 0 1).ctl memCtl_ecsEn = true) :=
  ⟨canonical_of (by decide), by decide, by decide⟩

def s_Memory_temperature : State := job DS.running

theorem wit_Memory_temperature : Canonical s_Memory_temperature ∧ (s_Memory_temperature.hbmUp = true) ∧ (1 < s_Memory_temperature.S) :=
  ⟨canonical_of (by decide), by decide, by decide⟩

/-! Premises of SelfTestAndGraft. -/

def s_SelfTest_ends : State := testing ((job DS.ready).setTile t00 { Tile.reset with store := [(1, 1)], status := setF Tile.reset.status tileStatus_tileState TS.bist })

theorem wit_SelfTest_ends : Canonical s_SelfTest_ends ∧ (s_SelfTest_ends.alive = true) ∧ ((s_SelfTest_ends.site 0 5).running = true) ∧
    (getF (s_SelfTest_ends.site 0 5).bist siteBist_siteRole = 0) ∧ (getF (s_SelfTest_ends.site 0 5).bist siteBist_logicalT = t00.t) ∧
    (t00.p = 0) ∧ (getF (s_SelfTest_ends.tile t00).status tileStatus_faultCode ≠ 3) :=
  ⟨canonical_of (by decide), by decide, by decide, by decide, by decide, by decide, by decide⟩

def s_SelfTest_none : State := job DS.ready

theorem wit_SelfTest_none : Canonical s_SelfTest_none ∧ (s_SelfTest_none.alive = true) ∧ ((s_SelfTest_none.site 0 5).running = false) :=
  ⟨canonical_of (by decide), by decide, by decide⟩

def s_TileGraft_spare : State := grafting true (job DS.running)

theorem wit_TileGraft_spare : Canonical s_TileGraft_spare ∧ (s_TileGraft_spare.alive = true) ∧ (s_TileGraft_spare.graftDue t00 = true) ∧
    (s_TileGraft_spare.job.heldCommit = none) ∧ (s_TileGraft_spare.spareSites 0 = [7]) ∧ (7 ≠ getF (s_TileGraft_spare.tile t00).map tileMap_site) :=
  ⟨canonical_of (by decide), by decide, by decide, by decide, by decide, by decide⟩

def s_TileGraft_second : State := moreSpares (grafting true (job DS.running))

theorem wit_TileGraft_second : Canonical s_TileGraft_second ∧ (s_TileGraft_second.alive = true) ∧
    (s_TileGraft_second.graftDue t00 = true) ∧ (s_TileGraft_second.job.heldCommit = none) ∧ (s_TileGraft_second.spareSites 0 = [7, 8]) ∧
    (1 &&& quickUnits ≠ 0) ∧ (8 ≠ getF (s_TileGraft_second.tile t00).map tileMap_site) :=
  ⟨canonical_of (by decide), by decide, by decide, by decide, by decide, by decide, by decide⟩

def s_TileGraft_none : State := grafting false (job DS.running)

theorem wit_TileGraft_none : Canonical s_TileGraft_none ∧ (s_TileGraft_none.alive = true) ∧ (s_TileGraft_none.graftDue t00 = true) ∧
    (s_TileGraft_none.job.heldCommit = none) ∧ (s_TileGraft_none.spareSites 0 = []) :=
  ⟨canonical_of (by decide), by decide, by decide, by decide, by decide⟩

def s_TileGraft_notDue : State := job DS.running

theorem wit_TileGraft_notDue : Canonical s_TileGraft_notDue ∧ (s_TileGraft_notDue.alive = true) ∧ (s_TileGraft_notDue.graftDue t00 = false) :=
  ⟨canonical_of (by decide), by decide, by decide⟩

/-! Premises of StepControl. -/

def s_StepControl_start : State := { job DS.loaded with step := { StepRegs.reset with committed := 5 } }

theorem wit_StepControl_start : Canonical s_StepControl_start ∧ Turn s_StepControl_start hdr sess ∧
    (s_StepControl_start.devState = DS.loaded) ∧ (s_StepControl_start.isSpareHere = false) ∧ (s_StepControl_start.committedV + 1 < noVintage) :=
  ⟨canonical_of (by decide), turn_of (by decide), by decide, by decide, by decide⟩

def s_StepControl_resume : State := opened (job DS.paused)

theorem wit_StepControl_resume : Canonical s_StepControl_resume ∧ Turn s_StepControl_resume hdr sess ∧
    (s_StepControl_resume.devState = DS.paused) ∧ (s_StepControl_resume.committedV + 1 < noVintage) :=
  ⟨canonical_of (by decide), turn_of (by decide), by decide, by decide⟩

def s_StepControl_equations : State := { job DS.loaded with step := { StepRegs.reset with committed := 5 } }

theorem wit_StepControl_equations : Canonical s_StepControl_equations ∧ Turn s_StepControl_equations hdr sess ∧
    (s_StepControl_equations.devState = DS.loaded) ∧ (s_StepControl_equations.isSpareHere = false) :=
  ⟨canonical_of (by decide), turn_of (by decide), by decide, by decide⟩

def s_StepControl_ckptPaused : State := keyed (ckptImage (opened (jobAs 1 DS.paused)))

theorem wit_StepControl_ckptPaused : Canonical s_StepControl_ckptPaused ∧ Turn s_StepControl_ckptPaused hdr sess ∧
    (s_StepControl_ckptPaused.devState = DS.paused) ∧ (s_StepControl_ckptPaused.job.ckpt = none) ∧
    (∃ k ∈ s_StepControl_ckptPaused.sec.slots, k.1 = 0) ∧ (s_StepControl_ckptPaused.ckptItem.isSome = true) ∧
    (s_StepControl_ckptPaused.isJobHead = false) :=
  ⟨canonical_of (by decide), turn_of (by decide), by decide, by decide, by decide, by decide, by decide⟩

def s_StepControl_pause : State := opened (job DS.running)

theorem wit_StepControl_pause : Canonical s_StepControl_pause ∧ Turn s_StepControl_pause hdr sess ∧ (s_StepControl_pause.devState = DS.running) :=
  ⟨canonical_of (by decide), turn_of (by decide), by decide⟩

def s_StepControl_eval : State := opened (job DS.running)

theorem wit_StepControl_eval : Canonical s_StepControl_eval ∧ Turn s_StepControl_eval hdr sess ∧ (s_StepControl_eval.devState = DS.running) :=
  ⟨canonical_of (by decide), turn_of (by decide), by decide⟩

def s_StepControl_evalPaused : State := opened (job DS.paused)

theorem wit_StepControl_evalPaused : Canonical s_StepControl_evalPaused ∧ Turn s_StepControl_evalPaused hdr sess ∧
    (s_StepControl_evalPaused.devState = DS.paused) ∧ (s_StepControl_evalPaused.job.evaluating = false) :=
  ⟨canonical_of (by decide), turn_of (by decide), by decide, by decide⟩

def s_StepControl_ckpt : State := opened (job DS.running)

theorem wit_StepControl_ckpt : Canonical s_StepControl_ckpt ∧ Turn s_StepControl_ckpt hdr sess ∧ (s_StepControl_ckpt.devState = DS.running) :=
  ⟨canonical_of (by decide), turn_of (by decide), by decide⟩

def s_StepControl_end : State := opened (job DS.paused)

theorem wit_StepControl_end : Canonical s_StepControl_end ∧ Turn s_StepControl_end hdr sess ∧ (s_StepControl_end.devState = DS.paused) :=
  ⟨canonical_of (by decide), turn_of (by decide), by decide⟩

def s_StepControl_startRefused : State := job DS.running

theorem wit_StepControl_startRefused : Canonical s_StepControl_startRefused ∧ Turn s_StepControl_startRefused hdr sess ∧
    (s_StepControl_startRefused.devState ≠ DS.loaded ∨ s_StepControl_startRefused.isSpareHere = true) :=
  ⟨canonical_of (by decide), turn_of (by decide), by decide⟩

def s_StepControl_startSpare : State := spare DS.loaded

theorem wit_StepControl_startSpare : Canonical s_StepControl_startSpare ∧ Turn s_StepControl_startSpare hdr sess ∧
    (s_StepControl_startSpare.isSpareHere = true) :=
  ⟨canonical_of (by decide), turn_of (by decide), by decide⟩

def s_StepControl_others : State := job DS.loaded

theorem wit_StepControl_others : Canonical s_StepControl_others ∧ Turn s_StepControl_others hdr sess ∧
    (s_StepControl_others.devState ≠ DS.paused) ∧ (s_StepControl_others.devState ≠ DS.running) :=
  ⟨canonical_of (by decide), turn_of (by decide), by decide, by decide⟩

def s_StepControl_busy : State := { opened (job DS.paused) with job := { (opened (job DS.paused)).job with evaluating := true, ckpt := some { v := 5, startAt := 0, streams := [], doneDevs := [], objects := [], sent := false, acks := 0 } } }

theorem wit_StepControl_busy : Canonical s_StepControl_busy ∧ Turn s_StepControl_busy hdr sess ∧
    (s_StepControl_busy.devState = DS.paused) ∧ (s_StepControl_busy.job.evaluating = true) ∧ (s_StepControl_busy.job.ckpt.isSome = true) :=
  ⟨canonical_of (by decide), turn_of (by decide), by decide, by decide, by decide⟩

/-! Premises of RestoreAndEpoch. -/

def s_Restore_starts : State := job DS.loaded

theorem wit_Restore_starts : Canonical s_Restore_starts ∧ Turn s_Restore_starts hdr sess ∧
    (s_Restore_starts.devState = DS.loaded ∨ s_Restore_starts.devState = DS.paused) ∧ (s_Restore_starts.isSpareHere = false) ∧
    (s_Restore_starts.job.restore = none) :=
  ⟨canonical_of (by decide), turn_of (by decide), by decide, by decide, by decide⟩

def s_RestoreReport_stage : State := restoring [(7, 1), (5, 0)] (job DS.loaded)

theorem wit_RestoreReport_stage : Canonical s_RestoreReport_stage ∧ (s_RestoreReport_stage.alive = true) ∧ (s_RestoreReport_stage.isJobHead = true) ∧ (s_RestoreReport_stage.job.restore = some { cands := [(7, 1), (5, 0)], reports := [0], wrote := false }) ∧ (1 ∈ s_RestoreReport_stage.jobIds.filter s_RestoreReport_stage.healthy) :=
  ⟨canonical_of (by decide), by decide, by decide, by decide, by decide⟩

def s_RestoreReport_done : State := restoring [(7, 1), (5, 0)] (job DS.loaded)

theorem wit_RestoreReport_done : Canonical s_RestoreReport_done ∧ (∀ i ∈ s_RestoreReport_done.jobIds.filter s_RestoreReport_done.healthy,
    i ∈ [1, 0]) :=
  ⟨canonical_of (by decide), by decide⟩

def s_RestoreReport_next : State := restoring [(7, 1), (5, 0)] (job DS.loaded)

theorem wit_RestoreReport_next : Canonical s_RestoreReport_next ∧ (s_RestoreReport_next.isJobHead = true) :=
  ⟨canonical_of (by decide), by decide⟩

def s_RestoreReport_fails : State := restoring [(7, 1)] (job DS.loaded)

theorem wit_RestoreReport_fails : Canonical s_RestoreReport_fails ∧ (s_RestoreReport_fails.isJobHead = true) :=
  ⟨canonical_of (by decide), by decide⟩

def s_RestoreCommit : State := restoring [(7, 1)] (job DS.loaded)

theorem wit_RestoreCommit : Canonical s_RestoreCommit ∧ (s_RestoreCommit.alive = true) ∧
    (s_RestoreCommit.devState = DS.loaded ∨ s_RestoreCommit.devState = DS.paused) ∧ (s_RestoreCommit.job.restore.isSome = true) ∧
    (s_RestoreCommit.isSpareHere = false) :=
  ⟨canonical_of (by decide), by decide, by decide, by decide, by decide⟩

def s_EpochStart : State := { job DS.running with time := { TimeRegs.reset with count := 900, epochE := some 800 } }

theorem wit_EpochStart : Canonical s_EpochStart ∧ (s_EpochStart.alive = true) ∧ (s_EpochStart.img.cur.isSome = true) ∧
    (s_EpochStart.job.established = false) ∧ (s_EpochStart.devState = DS.running ∨ s_EpochStart.devState = DS.paused) ∧
    (s_EpochStart.time.epochE.getD s_EpochStart.time.count ≤ s_EpochStart.time.count) :=
  ⟨canonical_of (by decide), by decide, by decide, by decide, by decide, by decide⟩

def s_EpochStart_early : State := { job DS.running with time := { TimeRegs.reset with count := 700, epochE := some 800 } }

theorem wit_EpochStart_early : Canonical s_EpochStart_early ∧
    (s_EpochStart_early.time.count < s_EpochStart_early.time.epochE.getD s_EpochStart_early.time.count) :=
  ⟨canonical_of (by decide), by decide⟩

/-! Premises of Verdicts. -/

def s_Verdict_reports : State := opened (jobAs 1 DS.running)

theorem wit_Verdict_reports : (s_Verdict_reports.alive = true) ∧ (s_Verdict_reports.devState = DS.running) ∧
    (s_Verdict_reports.job.rollbackAt = none) ∧ (s_Verdict_reports.openVintage ≠ noVintage) ∧ (s_Verdict_reports.vint s_Verdict_reports.openVintage = some { vint with v := 6 }) ∧ (s_Verdict_reports.isDomainHead = false) ∧ (s_Verdict_reports.job.evaluating = false) ∧ (s_Verdict_reports.reduced = true) :=
  ⟨by decide, by decide, by decide, by decide, by decide, by decide, by decide, by decide⟩

def s_Verdict_early : State := withFirst tileRec (opened (jobAs 1 DS.running))

theorem wit_Verdict_early : (s_Verdict_early.alive = true) ∧ (s_Verdict_early.vint s_Verdict_early.openVintage = some { vint with v := 6 }) ∧ (s_Verdict_early.reduced = false) :=
  ⟨by decide, by decide, by decide⟩

def s_Verdict_differs : State := { opened (job DS.running) with job := { Job.reset with uncommitted := [{ vint with v := 6, recorded := some (verdict true) }] } }

theorem wit_Verdict_differs : (s_Verdict_differs.vint s_Verdict_differs.openVintage = some { vint with v := 6, recorded := some (verdict true) }) ∧ (State.sameVerdict (verdict true) (verdict false) = false) :=
  ⟨by decide, by decide⟩

def s_Verdict_sent : State := { opened (job DS.running) with job := { Job.reset with uncommitted := [{ vint with v := 6, verdictSent := true }] } }

theorem wit_Verdict_sent : (s_Verdict_sent.alive = true) ∧ (s_Verdict_sent.vint s_Verdict_sent.openVintage = some { vint with v := 6, verdictSent := true }) :=
  ⟨by decide, by decide⟩

def s_Verdict_received : State := opened (job DS.running)

theorem wit_Verdict_received : (s_Verdict_received.vint s_Verdict_received.openVintage = some { vint with v := 6 }) ∧ (vrep.vintage = s_Verdict_received.openVintage) ∧ (vrep.attempt = s_Verdict_received.openAttempt) ∧ (vrep.device ∈ s_Verdict_received.awaited) ∧ (∀ z ∈ s_Verdict_received.job.verdictReps, z.device ≠ vrep.device) ∧ (∃ i ∈ s_Verdict_received.awaited, i ≠ vrep.device ∧ ∀ z ∈ s_Verdict_received.job.verdictReps, z.device ≠ i) :=
  ⟨by decide, by decide, by decide, by decide, by decide, by decide⟩

def s_Verdict_applies : State := opened (job DS.running)

theorem wit_Verdict_applies : (s_Verdict_applies.vint s_Verdict_applies.openVintage = some { vint with v := 6 }) ∧ (s_Verdict_applies.openVintage = 6) ∧ (s_Verdict_applies.openAttempt = 0) :=
  ⟨by decide, by decide, by decide⟩

/-! Premises of StepChecks. -/

def s_StepCheck_waits : State := buddied (known (opened (jobAs 1 DS.running)))

theorem wit_StepCheck_waits : (s_StepCheck_waits.fd.selfFailed = none) ∧ (s_StepCheck_waits.alive = true) ∧
    (s_StepCheck_waits.devState = DS.running) ∧ (s_StepCheck_waits.job.rollbackAt = none) ∧ (s_StepCheck_waits.vint s_StepCheck_waits.openVintage = some { vint with v := 6, verdict := some (verdict false) }) ∧ (s_StepCheck_waits.job.ownReport = none) ∧ (s_StepCheck_waits.job.bits = 0) ∧ (s_StepCheck_waits.acked = false ∨ s_StepCheck_waits.streaming = true) ∧ (s_StepCheck_waits.job.evaluating = false) ∧ (s_StepCheck_waits.updated = true) :=
  ⟨by decide, by decide, by decide, by decide, by decide, by decide, by decide, by decide, by decide, by decide⟩

def s_StepCheck_reports : State := known (opened (jobAs 1 DS.running))

theorem wit_StepCheck_reports : (s_StepCheck_reports.fd.selfFailed = none) ∧ (s_StepCheck_reports.vint s_StepCheck_reports.openVintage = some { vint with v := 6, verdict := some (verdict false) }) ∧ (s_StepCheck_reports.job.bits ≠ 0 ∨ (s_StepCheck_reports.acked = true ∧ s_StepCheck_reports.streaming = false)) ∧ (s_StepCheck_reports.job.evaluating = false) ∧ (s_StepCheck_reports.updated = true) ∧ ((s_StepCheck_reports.endCheckWait.writeHist (verdict false)).scalesDiffer { vint with v := 6, verdict := some (verdict false) } = false) ∧ ((s_StepCheck_reports.replicaIds.filter s_StepCheck_reports.healthy).length ≤ 1) ∧ (s_StepCheck_reports.isDomainHead = false) :=
  ⟨by decide, by decide, by decide, by decide, by decide, by decide, by decide, by decide⟩

def s_StepCheck_failed : State := { known (opened (jobAs 1 DS.running)) with fd := { Fd.reset with selfFailed := some 1 } }

theorem wit_StepCheck_failed : (s_StepCheck_failed.fd.selfFailed.isSome = true) := by decide

def s_StepCheck_stalled : State := stallWait (known (opened (jobAs 1 DS.running)))

theorem wit_StepCheck_stalled : (s_StepCheck_stalled.fd.selfFailed = none) ∧ (s_StepCheck_stalled.job.bits ≠ 0) ∧
    (s_StepCheck_stalled.job.checkWait = some (State.stallRacking, 0)) ∧ (s_StepCheck_stalled.updated = true) :=
  ⟨by decide, by decide, by decide, by decide⟩

def s_CheckReport_counts : State := known (opened (second DS.running))

theorem wit_CheckReport_counts : (s_CheckReport_counts.alive = true) ∧ (s_CheckReport_counts.devState = DS.running) ∧ (s_CheckReport_counts.vint s_CheckReport_counts.openVintage = some { vint with v := 6, verdict := some (verdict false) }) ∧ (s_CheckReport_counts.replicaHead ≠ some s_CheckReport_counts.devId) ∧ (s_CheckReport_counts.openVintage = 6) ∧ (s_CheckReport_counts.openAttempt = 0) ∧ (s_CheckReport_counts.awaited = [1, 2]) ∧ (s_CheckReport_counts.imageDigest = 0) ∧ (s_CheckReport_counts.job.checkReps = []) :=
  ⟨by decide, by decide, by decide, by decide, by decide, by decide, by decide, by decide +kernel, by decide⟩

def s_CheckReport_decants : State := known (opened (job DS.running))

theorem wit_CheckReport_decants : (s_CheckReport_decants.isJobHead = true) ∧ (s_CheckReport_decants.openVintage = 6) ∧
    (s_CheckReport_decants.openAttempt = 0) :=
  ⟨by decide, by decide, by decide⟩

def s_AgreementDeadline_member : State := late (known (opened (second DS.running)))

theorem wit_AgreementDeadline_member : (s_AgreementDeadline_member.alive = true) ∧ (s_AgreementDeadline_member.devState = DS.running) ∧
    (s_AgreementDeadline_member.vint s_AgreementDeadline_member.openVintage = some { vint with v := 6, verdict := some (verdict false) }) ∧ (s_AgreementDeadline_member.job.firstRepAt = some 0) ∧ (s_AgreementDeadline_member.job.askedAt = none) ∧ (0 + s_AgreementDeadline_member.agreeTicks ≤ s_AgreementDeadline_member.now) ∧ (s_AgreementDeadline_member.missingIds ≠ []) ∧ (s_AgreementDeadline_member.pendingOn 3 = []) ∧ (s_AgreementDeadline_member.isJobHead = false) :=
  ⟨by decide, by decide, by decide, by decide, by decide, by decide, by decide, by decide, by decide⟩

def s_AgreementDeadline_head : State := late (known (opened (job DS.running)))

theorem wit_AgreementDeadline_head : (s_AgreementDeadline_head.job.firstRepAt = some 0) ∧ (s_AgreementDeadline_head.job.askedAt = none) ∧
    (0 + s_AgreementDeadline_head.agreeTicks ≤ s_AgreementDeadline_head.now) ∧ (s_AgreementDeadline_head.missingIds ≠ []) ∧
    (s_AgreementDeadline_head.pendingOn 3 = []) ∧ (s_AgreementDeadline_head.isJobHead = true) :=
  ⟨by decide, by decide, by decide, by decide, by decide, by decide⟩

def s_AgreementDeadline_none : State := known (opened (job DS.running))

theorem wit_AgreementDeadline_none : (s_AgreementDeadline_none.job.firstRepAt = none) := by decide

/-! Premises of CommitAndRollback. -/

def s_Commit : State := known (opened (job DS.running))

theorem wit_Commit : Canonical s_Commit ∧ (s_Commit.alive = true) ∧ (s_Commit.devState = DS.running) ∧ ((s_Commit.vint 6).isSome = true) ∧
    (6 = s_Commit.committedV + 1) ∧ (6 + 1 < noVintage) ∧ (s_Commit.acked = true) ∧ (s_Commit.job.rollbackAt = none) ∧ (s_Commit.graftsDue = false) :=
  ⟨canonical_of (by decide), by decide, by decide, by decide, by decide, by decide, by decide, by decide, by decide⟩

def s_Commit_held : State := grafting true (known (opened (job DS.running)))

theorem wit_Commit_held : Canonical s_Commit_held ∧ (s_Commit_held.alive = true) ∧ (s_Commit_held.devState = DS.running) ∧
    ((s_Commit_held.vint 6).isSome = true) ∧ (6 = s_Commit_held.committedV + 1) ∧ (s_Commit_held.acked = true) ∧
    (s_Commit_held.job.rollbackAt = none) ∧ (s_Commit_held.graftsDue = true) :=
  ⟨canonical_of (by decide), by decide, by decide, by decide, by decide, by decide, by decide, by decide⟩

def s_Rollback : State := paged (known (opened (job DS.running)))

theorem wit_Rollback : Canonical s_Rollback ∧ (s_Rollback.devState = DS.running) ∧ (s_Rollback.job.uncommitted.map (·.v) = [6]) ∧
    (s_Rollback.openVintage = 6) ∧ (s_Rollback.openAttempt < 1) ∧ (s_Rollback.job.rackMismatch = []) ∧ (s_Rollback.job.heldCommit = none) :=
  ⟨canonical_of (by decide), by decide, by decide, by decide, by decide, by decide, by decide⟩

def s_ReplayStart : State := { (known (opened (jobAs 1 DS.running))).setTile t00 { Tile.reset with store := [(1, 1)], record := some tileRec, seq := { Seq.reset with index := 4, loops := [{ body := 1, endAt := 2, left := 1 }] } } with job := { (known (opened (job DS.running))).job with rollbackAt := some 3 } }

theorem wit_ReplayStart : Canonical s_ReplayStart ∧ (s_ReplayStart.job.rollbackAt.isSome = true) ∧ (s_ReplayStart.isJobHead = false) ∧
    (s_ReplayStart.job.evalDue = false) ∧ (s_ReplayStart.job.uncommitted.all (fun y => y.frames.isEmpty) = true) :=
  ⟨canonical_of (by decide), by decide, by decide, by decide, by decide⟩

def s_EvaluationEnd : State := { opened (job DS.running) with job := { (opened (job DS.running)).job with evaluating := true } }

theorem wit_EvaluationEnd : Canonical s_EvaluationEnd ∧ (s_EvaluationEnd.alive = true) ∧ (s_EvaluationEnd.devState = DS.running) ∧
    (s_EvaluationEnd.job.evaluating = true) ∧ (s_EvaluationEnd.job.uncommitted.all (fun y => y.frames.isEmpty) = true) :=
  ⟨canonical_of (by decide), by decide, by decide, by decide, by decide⟩

/-! ## Frames and data -/

/-- A frame of FP32 records for collective 3 from tile 0.0 of device `dev`. -/
def frm (vint dev : Nat) (recs : List Byte) : Frame :=
  { w0 := wordOf [(fr_vintage, vint), (fr_attempt, 0), (fr_count, 1)]
    w1 := wordOf [(fr_base, 0), (fr_bytes, 4)]
    w2 := wordOf [(fr_dev, dev), (fr_coll, 3), (fr_payload, 1)], recs := recs }

/-- 1.0 from device `dev`, in vintage 6. -/
def oneFrom (dev : Nat) : Frame := frm 6 dev [0, 0, 0x80, 0x3f]

/-- The same frame again, from the next attempt. -/
def again : Frame := { oneFrom 0 with w0 := wordOf [(fr_vintage, 6), (fr_attempt, 1), (fr_count, 1)] }

/-- Vintage 6 is evaluated. -/
def evaluating (s : State) : State := { s with job := { s.job with evaluating := true, evalV := 6, evalAttempt := 0 } }

def accepting (l : List FrameId) (s : State) : State := s.setTile t00 { Tile.reset with accepted := l }

/-- The cellar holds a frame of an earlier attempt in full. -/
def servedFull (f : Frame) (s : State) : State :=
  { s with job := { s.job with uncommitted := [{ vint with v := 6, attempt := 1, frames := [{ tl := t00, id := f.ident, attempt := 0, pos := 0, digest := Config.sha384 f.recs, full := some f }] }] }
           step := { s.step with openV := setF (setF 0 vintageOpen_vintage 6) vintageOpen_attempt 1 } }

/-- The collective's slots lie at the end of the store. -/
def far (s : State) : State :=
  { s with img := { s.img with cur := some { hdr := imgHdr, digest := 0, half := 0, img := { image with roles := [{ role with colls := [{ coll with slotBase := 0x3fffff }] }] } } } }

/-- A ring stage that has taken its chunks and passed none on. -/
def ringed (s : State) : State :=
  s.setTile t00 { Tile.reset with ringGot := 9, record := some { tileRec with ring := some { size := 4, index := 0, zigzag := false, causal := false, length := 4, route := 2, coll := 3, frames := 1 } } }

/-- Partition 0 holds a mirror of one page for device 1. -/
def mirrored (p : Nat) (s : State) : State :=
  withStates [{ ty := .mirror, part := p, base := 0x2400000, len := 0x200000 }] (buddied s)

def fencedPart (s : State) : State :=
  { s with parts := [(0, { Part.reset with fenceStatus := setF 0 fenceStatus_fenced 1 })] }

theorem digest_ne (x : BitVec 384) : x ≠ x + 1 := fun h => by
  have : x + 1 - x = x - x := by rw [← h]
  simp at this

/-- Vintage 5 is committed and its mirror is being checked, the acknowledgement of device 1 outstanding. -/
def racking (s : State) : State := buddied (opened s)

/-- Lot 0 of vintage 6 is complete. -/
def feds (s : State) : State :=
  { s with
    job := { s.job with uncommitted := [{ vint with v := 6, lots := [(0, putBytes [] 0 [5, 6, 7, 8])], done := [0] }] }
    pow := { s.pow with state := setF s.pow.state pwrState_state PS.active } }

/-! ## Ledger, decisions, checkpoints -/

def lrec : LedgerRec :=
  { ts := 0, device := 0, seq := 0, vintage := 0, attempt := 0, cls := 1, code := 2, part := 0, tile := 3, epoch := 0, arg := 4 }

def logged (s : State) : State :=
  { s with parts := [(0, { Part.reset with ledger := { recs := [(0, lrec), (1, lrec), (2, lrec)], head := 3, lost := 0, undelivered := [0, 1, 2] } })] }

def asked (duty st deadline : Nat) (s : State) : State :=
  { s with
    decisions := [{ id := 4, duty := duty, deadline := deadline, arg := 1, arg2 := 0, st := st }]
    time := { TimeRegs.reset with count := 50 } }

def strm (refused : Nat) : Stream2 := { p := 2, endpoint := 0, refused := refused, done := false, failed := false }

def ckpt (l : List Stream2) : Ckpt := { v := 5, startAt := 0, streams := l, doneDevs := [], objects := [], sent := false, acks := 0 }

def streams (c : Ckpt) (n : Nat) (s : State) : State :=
  { s with job := { s.job with ckpt := some c }, time := { TimeRegs.reset with count := n } }

/-! ## Image load -/

/-- The first 256 bytes of an image of no section and 8192 bytes. -/
def hdrBytes : List Byte := (List.range 256).map (fun i => if i = 25 then 32 else 0)

def ld : Load := { session := 1, hdrBytes := hdrBytes, bytes := [], devicesOk := false, finalSeq := none, step := 0, inp := none }

def inp : ImageIn := { sigOk := true, decodes := true, programsOk := true, devicesOk := true, img := image }

def loading (l : Load) (s : State) : State := { s with img := { s.img with load := some l } }

def finalLoad : Load := { ld with finalSeq := some 5, inp := some inp, devicesOk := true }

/-! ## Sessions, keys, security -/

def hello : HelloIn := { ownerHash := 0, sigOk := true, bytes := 1904, t := 9 }

def pendingSess : Session := { sess with isOpen := false, next := 5 }

def withSess (l : List Session) (s : State) : State := { s with sessions := l }

def atTick (n : Nat) (s : State) : State := { s with time := { TimeRegs.reset with count := n } }

def wrap (slot : Nat) : WrapIn := { slot := slot, keyId := 3, sealGen := 0, unwraps := true, key := 7 }

def slotted (s : State) : State :=
  { s with sec := { s.sec with slots := [(0, { keyId := 1, key := 1 }), (2, { keyId := 2, key := 2 }), (16, { keyId := 3, key := 3 })] } }

def withReport (n : Nat) (s : State) : State :=
  { s with sec := { s.sec with report := some { bytes := [1, 2, 3], nonce := n, sigLen := 8 } } }

def newer : Lic := { Lic.factory with issue := 1 }

def hdrF : DctHdr := { hdr with final := true }

/-! ## Registers, bulk, replies -/

def evals : List Region := [{ ty := .eval, part := 0, base := 0x2000000, len := 0x200000 }]

def awaiting (m : Msg) (tries : Nat) (s : State) : State :=
  { s with unacked := [{ seq := 7, session := 1, msg := m, tries := tries, sentAt := 0, isEvent := true }] }

/-! Premises of PartialFrames. -/

def s_Partial_bad : State := evaluating (opened (job DS.running))

theorem wit_Partial_bad : Canonical s_Partial_bad ∧ (s_Partial_bad.stagesRun = true) ∧ (s_Partial_bad.partFenced 0 = false) ∧ (s_Partial_bad.badFrame t00 { oneFrom 0 with w2 := 0 } = true) :=
  ⟨canonical_of (by decide), by decide, by decide, by decide⟩

def s_Partial_stale : State := evaluating (opened (job DS.running))

theorem wit_Partial_stale : Canonical s_Partial_stale ∧ (s_Partial_stale.stagesRun = true) ∧ (s_Partial_stale.partFenced 0 = false) ∧
    (s_Partial_stale.badFrame t00 (frm 5 0 [0, 0, 0, 0]) = false) ∧ (s_Partial_stale.frameAge (frm 5 0 [0, 0, 0, 0]).ident = .lt) :=
  ⟨canonical_of (by decide), by decide, by decide, by decide, by decide⟩

def s_Partial_early : State := evaluating (opened (job DS.running))

theorem wit_Partial_early : Canonical s_Partial_early ∧ (s_Partial_early.stagesRun = true) ∧ (s_Partial_early.partFenced 0 = false) ∧
    (s_Partial_early.badFrame t00 (frm 7 0 [0, 0, 0, 0]) = false) ∧ (s_Partial_early.frameAge (frm 7 0 [0, 0, 0, 0]).ident = .gt) :=
  ⟨canonical_of (by decide), by decide, by decide, by decide, by decide⟩

def s_Partial_served : State := servedFull (oneFrom 0) (opened (job DS.running))

theorem wit_Partial_served : Canonical s_Partial_served ∧ (s_Partial_served.stagesRun = true) ∧ (s_Partial_served.partFenced 0 = false) ∧
    (s_Partial_served.badFrame t00 again = false) ∧ (s_Partial_served.frameAge again.ident = .eq) ∧
    (s_Partial_served.collOf t00 3 = some coll) ∧ (setF again.w0 fr_attempt 0 = setF (oneFrom 0).w0 fr_attempt 0 ∧
    again.w1 = (oneFrom 0).w1 ∧ again.w2 = (oneFrom 0).w2 ∧ again.recs = (oneFrom 0).recs) ∧
    (s_Partial_served.heldFull t00 again.ident = some (oneFrom 0)) ∧ ((s_Partial_served.vint s_Partial_served.openVintage).any (fun y => !y.absorbed.contains (t00, { again.ident with attempt := 0 })) = true) :=
  ⟨canonical_of (by decide), by decide, by decide, by decide, by decide, by decide, by decide, by decide, by decide⟩

def s_Partial_beyond : State := far (opened (job DS.running))

theorem wit_Partial_beyond : Canonical s_Partial_beyond ∧ (s_Partial_beyond.stagesRun = true) ∧ (s_Partial_beyond.partFenced 0 = false) ∧
    (s_Partial_beyond.badFrame t00 (oneFrom 0) = false) ∧ (s_Partial_beyond.frameAge (oneFrom 0).ident = .eq) ∧ (s_Partial_beyond.collOf t00 3 = some { coll with slotBase := 0x3fffff }) ∧ (s_Partial_beyond.heldFull t00 (oneFrom 0).ident = none) ∧ (State.frameBeyond { coll with slotBase := 0x3fffff } (oneFrom 0) = true) :=
  ⟨canonical_of (by decide), by decide, by decide, by decide, by decide, by decide, by decide, by decide⟩

def s_Partial_ring : State := ringed (opened (job DS.running))

theorem wit_Partial_ring : Canonical s_Partial_ring ∧ (s_Partial_ring.stagesRun = true) ∧ (s_Partial_ring.partFenced 0 = false) ∧
    (s_Partial_ring.badFrame t00 (oneFrom 0) = false) ∧ (s_Partial_ring.frameAge (oneFrom 0).ident = .eq) ∧
    (s_Partial_ring.collOf t00 3 = some coll) ∧ (s_Partial_ring.heldFull t00 (oneFrom 0).ident = none) ∧
    ((oneFrom 0).ident ∉ (s_Partial_ring.tile t00).accepted) ∧ (State.ringFull (s_Partial_ring.tile t00) coll = true) :=
  ⟨canonical_of (by decide), by decide, by decide, by decide, by decide, by decide, by decide, by decide, by decide⟩

def s_Partial_twice : State := accepting [(oneFrom 0).ident] (evaluating (opened (job DS.running)))

theorem wit_Partial_twice : Canonical s_Partial_twice ∧ (s_Partial_twice.stagesRun = true) ∧ (s_Partial_twice.partFenced 0 = false) ∧
    (s_Partial_twice.badFrame t00 (oneFrom 0) = false) ∧ (s_Partial_twice.frameAge (oneFrom 0).ident = .eq) ∧
    (s_Partial_twice.collOf t00 3 = some coll) ∧ ((oneFrom 0).ident ∈ (s_Partial_twice.tile t00).accepted) :=
  ⟨canonical_of (by decide), by decide, by decide, by decide, by decide, by decide, by decide⟩

def s_Partial_first : State := evaluating (opened (job DS.running))

theorem wit_Partial_first : Canonical s_Partial_first ∧ (s_Partial_first.stagesRun = true) ∧ (s_Partial_first.partFenced 0 = false) ∧
    (s_Partial_first.badFrame t00 (oneFrom 0) = false) ∧ (s_Partial_first.frameAge (oneFrom 0).ident = .eq) ∧
    (s_Partial_first.collOf t00 3 = some coll) ∧ ((oneFrom 0).ident ∉ (s_Partial_first.tile t00).accepted) ∧
    (s_Partial_first.heldFull t00 (oneFrom 0).ident = none) ∧ (State.ringFull (s_Partial_first.tile t00) coll = false) ∧
    (State.frameBeyond coll (oneFrom 0) = false) ∧
    ((((oneFrom 0).ident :: (s_Partial_first.tile t00).accepted).filter (fun x => x.coll == 3 && x.vintage == 6 && x.attempt == 0)).length
    ≠ coll.expected) :=
  ⟨canonical_of (by decide), by decide, by decide, by decide, by decide, by decide, by decide, by decide, by decide, by decide, by decide⟩

def s_Partial_last : State := accepting [(oneFrom 1).ident] (evaluating (opened (job DS.running)))

theorem wit_Partial_last : Canonical s_Partial_last ∧ (s_Partial_last.stagesRun = true) ∧ (s_Partial_last.partFenced 0 = false) ∧
    (s_Partial_last.badFrame t00 (oneFrom 0) = false) ∧ (s_Partial_last.frameAge (oneFrom 0).ident = .eq) ∧
    (s_Partial_last.collOf t00 3 = some coll) ∧ ((oneFrom 0).ident ∉ (s_Partial_last.tile t00).accepted) ∧
    (s_Partial_last.heldFull t00 (oneFrom 0).ident = none) ∧ (State.ringFull (s_Partial_last.tile t00) coll = false) ∧
    (State.frameBeyond coll (oneFrom 0) = false) ∧
    ((((oneFrom 0).ident :: (s_Partial_last.tile t00).accepted).filter (fun x => x.coll == 3 && x.vintage == 6 && x.attempt == 0)).length =
    coll.expected) ∧ (coll.amax = none) ∧ (counter (s_Partial_last.tile t00) 7 < 0xffffffff) :=
  ⟨canonical_of (by decide), by decide, by decide, by decide, by decide, by decide, by decide, by decide, by decide, by decide, by decide,
    by decide, by decide⟩

def s_Partial_step : State := opened (job DS.running)

theorem wit_Partial_step : Canonical s_Partial_step ∧ (s_Partial_step.stagesRun = true) ∧ (s_Partial_step.partFenced 0 = false) ∧
    (s_Partial_step.badFrame t00 (oneFrom 0) = false) ∧ (s_Partial_step.frameAge (oneFrom 0).ident = .eq) ∧
    (s_Partial_step.collOf t00 3 = some coll) ∧ ((oneFrom 0).ident ∉ (s_Partial_step.tile t00).accepted) ∧
    (s_Partial_step.heldFull t00 (oneFrom 0).ident = none) ∧ (State.ringFull (s_Partial_step.tile t00) coll = false) ∧
    (State.frameBeyond coll (oneFrom 0) = false) :=
  ⟨canonical_of (by decide), by decide, by decide, by decide, by decide, by decide, by decide, by decide, by decide, by decide⟩

/-! Premises of DataFeeds. -/

def s_DataFeed_step : State := opened (job DS.running)

theorem wit_DataFeed_step : Turn s_DataFeed_step hdr sess ∧ (s_DataFeed_step.inJob = true) ∧ (s_DataFeed_step.feedCheck hdr 6 0 0 1 { present := false, slot := 0, formed := false, tagOk := false } = Err.ok) ∧ (s_DataFeed_step.committedV < 6) ∧ (6 ≤ s_DataFeed_step.committedV + 2) ∧ (s_DataFeed_step.vint 6 = some { vint with v := 6 }) ∧ (0 ∉ ({ vint with v := 6 } : Vint).done) :=
  ⟨turn_of (by decide), by decide, by decide, by decide, by decide, by decide, by decide⟩

def s_DataFeed_eval : State := evaluating (opened (job DS.running))

theorem wit_DataFeed_eval : Turn s_DataFeed_eval { hdr with evalFlag := true } sess ∧ (s_DataFeed_eval.inJob = true) ∧ (s_DataFeed_eval.feedCheck { hdr with evalFlag := true } 6 1 0 1 { present := false, slot := 0, formed := false, tagOk := false } = Err.ok) :=
  ⟨turn_of (by decide), by decide, by decide⟩

def s_DataFeed_last : State := opened (job DS.running)

theorem wit_DataFeed_last : Turn s_DataFeed_last hdr sess ∧ (s_DataFeed_last.feedCheck hdr 6 0 0 4 { present := false, slot := 0, formed := false, tagOk := false } = Err.ok) :=
  ⟨turn_of (by decide), by decide⟩

def s_DataFeed_repeats : State := feds (opened (job DS.running))

theorem wit_DataFeed_repeats : Turn s_DataFeed_repeats hdr sess ∧ (s_DataFeed_repeats.feedCheck hdr 6 0 1 2 { present := false, slot := 0, formed := false, tagOk := false } = Err.ok) ∧ (s_DataFeed_repeats.power = PS.active) ∧ ((s_DataFeed_repeats.vint 6).map (fun y => decide (0 ∈ y.done)) = some true) :=
  ⟨turn_of (by decide), by decide, by decide, by decide⟩

def s_DataFeed_committed : State := opened (job DS.running)

theorem wit_DataFeed_committed : Turn s_DataFeed_committed hdr sess ∧ (s_DataFeed_committed.inJob = true) ∧
    (0 + 1 ≤ (s_DataFeed_committed.stepProg.map (·.lotBytes)).getD 0) ∧ (0 < (s_DataFeed_committed.stepProg.map (·.lots)).getD 0) ∧
    (s_DataFeed_committed.committedV ≠ noVintage) ∧ (5 ≤ s_DataFeed_committed.committedV) :=
  ⟨turn_of (by decide), by decide, by decide, by decide, by decide, by decide⟩

def s_DataFeed_range : State := opened (job DS.running)

theorem wit_DataFeed_range : Turn s_DataFeed_range hdr sess ∧ (s_DataFeed_range.inJob = true) ∧ (s_DataFeed_range.feedCheck hdr 6 2 0 1 { present := false, slot := 0, formed := false, tagOk := false } ≠ Err.ok) :=
  ⟨turn_of (by decide), by decide, by decide⟩

/-! Premises of Racking. -/

def s_RackPage : State := mirrored 0 (job DS.running)

theorem wit_RackPage : (s_RackPage.alive = true) ∧ (s_RackPage.partFenced 0 = false) ∧ (0 < s_RackPage.statePages 1 0) ∧
    (s_RackPage.mirrorAt 1 0 = some (partBase 0 + 0x2400000)) :=
  ⟨by decide, by decide, by decide, by decide⟩

def s_RackPage_beyond : State := mirrored 0 (job DS.running)

theorem wit_RackPage_beyond : (s_RackPage_beyond.alive = true) ∧ (s_RackPage_beyond.partFenced 0 = true ∨ s_RackPage_beyond.statePages 1 0 ≤ 1) :=
  ⟨by decide, by decide⟩

def s_RackDigest_equal : State := mirrored 1 (job DS.running)

theorem wit_RackDigest_equal : (s_RackDigest_equal.alive = true) ∧ (s_RackDigest_equal.partFenced 1 = false) ∧
    (s_RackDigest_equal.mirrorAt 1 1 = some (partBase 1 + 0x2400000)) ∧
    (Config.sha384 (Memory.readN s_RackDigest_equal.mem (partBase 1 + 0x2400000) (s_RackDigest_equal.statePages 1 1 * pageBytes)) =
    Config.sha384 []) :=
  ⟨by decide, by decide, by decide, rfl⟩

def s_RackDigest_unequal : State := mirrored 1 (job DS.running)

theorem wit_RackDigest_unequal : (s_RackDigest_unequal.alive = true) ∧ (s_RackDigest_unequal.partFenced 1 = false) ∧
    (s_RackDigest_unequal.mirrorAt 1 1 = some (partBase 1 + 0x2400000)) ∧
    (Config.sha384 (Memory.readN s_RackDigest_unequal.mem (partBase 1 + 0x2400000) (s_RackDigest_unequal.statePages 1 1 * pageBytes)) ≠
    Config.sha384 [] + 1) :=
  ⟨by decide, by decide, by decide, digest_ne (Config.sha384 [])⟩

def s_RackAck_equal : State := racking (job DS.running)

theorem wit_RackAck_equal : (s_RackAck_equal.alive = true) ∧ (1 ∈ s_RackAck_equal.buddies) ∧
    ((getF s_RackAck_equal.mir.rackStatus (s_RackAck_equal.ackField 1)).testBit 0 = false) ∧ (s_RackAck_equal.committedV = 5) :=
  ⟨by decide, by decide, by decide, by decide⟩

def s_RackAck_unequal : State := { racking (job DS.running) with job := { (racking (job DS.running)).job with rackMismatch := [(0, 3)] } }

theorem wit_RackAck_unequal : (s_RackAck_unequal.alive = true) ∧ (1 ∈ s_RackAck_unequal.buddies) ∧
    ((getF s_RackAck_unequal.mir.rackStatus (s_RackAck_unequal.ackField 1)).testBit 0 = false) ∧ (s_RackAck_unequal.committedV = 5) ∧
    (getF s_RackAck_unequal.step.ctl stepCtl_replayMax < Sparse.get 0 s_RackAck_unequal.job.rackMismatch 0 + 1) :=
  ⟨by decide, by decide, by decide, by decide, by decide⟩

def s_RackAck_other : State := racking (job DS.running)

theorem wit_RackAck_other : (s_RackAck_other.alive = true) ∧ (4 ≠ s_RackAck_other.committedV) :=
  ⟨by decide, by decide⟩

/-! Premises of LedgerAndDecisions. -/

def s_LedgerPull : State := logged (job DS.running)

theorem wit_LedgerPull : Turn s_LedgerPull hdr sess ∧ (s_LedgerPull.ledgerCheck 0 2 1 = Err.ok) :=
  ⟨turn_of (by decide), by decide⟩

def s_LedgerPull_range : State := logged (job DS.running)

theorem wit_LedgerPull_range : Turn s_LedgerPull_range hdr sess ∧ (s_LedgerPull_range.ledgerCheck 8 2 1 ≠ Err.ok) :=
  ⟨turn_of (by decide), by decide⟩

def s_Decision_absent : State := job DS.running

theorem wit_Decision_absent : Turn s_Decision_absent hdr sess ∧ (s_Decision_absent.inJob = true) ∧ (s_Decision_absent.decisionOf 4 = none) :=
  ⟨turn_of (by decide), by decide, by decide⟩

def s_Decision_answered : State := asked 0 1 100 (job DS.running)

theorem wit_Decision_answered : Turn s_Decision_answered hdr sess ∧ (s_Decision_answered.inJob = true) ∧
    ((s_Decision_answered.decisionOf 4).map (·.st) = some 1) :=
  ⟨turn_of (by decide), by decide, by decide⟩

def s_Decision_late : State := asked 0 2 100 (job DS.running)

theorem wit_Decision_late : Turn s_Decision_late hdr sess ∧ (s_Decision_late.inJob = true) ∧ ((s_Decision_late.decisionOf 4).map (·.st) = some 2) :=
  ⟨turn_of (by decide), by decide, by decide⟩

def s_Decision_notPermitted : State := asked 1 0 100 (job DS.running)

theorem wit_Decision_notPermitted : Turn s_Decision_notPermitted hdr sess ∧ (s_Decision_notPermitted.inJob = true) ∧
    ((s_Decision_notPermitted.decisionOf 4).map (fun d => (d.st, d.deadline)) = some (0, 100)) ∧ (s_Decision_notPermitted.now < 100) ∧
    ((s_Decision_notPermitted.decisionOf 4).map (fun d => s_Decision_notPermitted.permitted d 3 0) = some false) :=
  ⟨turn_of (by decide), by decide, by decide, by decide, by decide⟩

def s_Decision_answer : State := asked 0 0 100 (job DS.running)

theorem wit_Decision_answer : Turn s_Decision_answer hdr sess ∧ (s_Decision_answer.inJob = true) ∧
    ((s_Decision_answer.decisionOf 4).map (fun d => (d.duty, d.st, d.deadline)) = some (0, 0, 100)) ∧ (s_Decision_answer.now < 100) :=
  ⟨turn_of (by decide), by decide, by decide, by decide⟩

def s_Deadline_early : State := asked 0 0 100 (job DS.running)

theorem wit_Deadline_early : ((s_Deadline_early.decisionOf 4).map (fun d => (d.duty, d.st, d.deadline)) = some (0, 0, 100)) ∧
    (s_Deadline_early.now < 100) :=
  ⟨by decide, by decide⟩

def s_Deadline_again : State := asked 3 0 50 (job DS.running)

theorem wit_Deadline_again : ((s_Deadline_again.decisionOf 4).map (fun d => (d.duty, d.st, d.deadline)) = some (3, 0, 50)) ∧
    (50 ≤ s_Deadline_again.now) :=
  ⟨by decide, by decide⟩

def s_Deadline_fences : State := asked 0 0 50 (job DS.running)

theorem wit_Deadline_fences : ((s_Deadline_fences.decisionOf 4).map (fun d => (d.duty, d.st, d.arg, d.deadline)) = some (0, 0, 1, 50)) ∧
    (50 ≤ s_Deadline_fences.now) ∧ (s_Deadline_fences.isFenced 1 = false) :=
  ⟨by decide, by decide, by decide⟩

/-! Premises of Checkpoints. -/

def s_Checkpoint_ack : State := streams (ckpt [strm 0]) 0 (job DS.running)

theorem wit_Checkpoint_ack : (s_Checkpoint_ack.alive = true) ∧ (s_Checkpoint_ack.job.ckpt = some (ckpt [strm 0])) ∧
    (s_Checkpoint_ack.streamOf 2 = some (strm 0)) :=
  ⟨by decide, by decide, by decide⟩

def s_Checkpoint_none : State := streams (ckpt [strm 0]) 0 (job DS.running)

theorem wit_Checkpoint_none : (s_Checkpoint_none.alive = true) ∧ (s_Checkpoint_none.job.ckpt = some (ckpt [strm 0])) ∧
    (s_Checkpoint_none.streamOf 3 = none) :=
  ⟨by decide, by decide, by decide⟩

def s_Checkpoint_timeout : State := streams (ckpt [strm 0]) 0 (job DS.running)

theorem wit_Checkpoint_timeout : (s_Checkpoint_timeout.alive = true) ∧ (s_Checkpoint_timeout.job.ckpt = some (ckpt [strm 0])) ∧
    (s_Checkpoint_timeout.streamOf 2 = some (strm 0)) ∧ ((strm 0).refused + 1 < (s_Checkpoint_timeout.ckptItem.map (·.endpoints)).getD 0) :=
  ⟨by decide, by decide, by decide, by decide⟩

def s_Checkpoint_fails : State := streams (ckpt [strm 1]) 0 (job DS.running)

theorem wit_Checkpoint_fails : (s_Checkpoint_fails.alive = true) ∧ (s_Checkpoint_fails.job.ckpt = some (ckpt [strm 1])) ∧
    (s_Checkpoint_fails.streamOf 2 = some (strm 1)) ∧ ((s_Checkpoint_fails.ckptItem.map (·.endpoints)).getD 0 ≤ (strm 1).refused + 1) :=
  ⟨by decide, by decide, by decide, by decide⟩

def s_Checkpoint_deadline : State := streams (ckpt [strm 0]) 1000000000 (job DS.running)

theorem wit_Checkpoint_deadline : (s_Checkpoint_deadline.alive = true) ∧ (s_Checkpoint_deadline.job.ckpt = some (ckpt [strm 0])) ∧
    (s_Checkpoint_deadline.streaming = true) ∧
    (0 + (s_Checkpoint_deadline.ckptItem.map (·.deadlineMs)).getD 0 * msTicks ≤ s_Checkpoint_deadline.now) :=
  ⟨by decide, by decide, by decide, by decide⟩

def s_Checkpoint_early : State := streams (ckpt [strm 0]) 0 (job DS.running)

theorem wit_Checkpoint_early : (s_Checkpoint_early.alive = true) ∧ (s_Checkpoint_early.job.ckpt = some (ckpt [strm 0])) ∧
    (s_Checkpoint_early.now < 0 + (s_Checkpoint_early.ckptItem.map (·.deadlineMs)).getD 0 * msTicks) :=
  ⟨by decide, by decide, by decide⟩

def s_Manifest : State := streams { ckpt [{ strm 0 with done := true }] with doneDevs := [0, 1] } 0 (withSess [{ sess with fromHost := false }] (job DS.running))

theorem wit_Manifest : (s_Manifest.alive = true) ∧ (s_Manifest.job.ckpt = some { ckpt [{ strm 0 with done := true }] with doneDevs := [0, 1] }) ∧ (s_Manifest.isJobHead = true) ∧ (s_Manifest.streaming = false) ∧ (∀ y ∈ (ckpt [{ strm 0 with done := true }]).streams, y.failed = false) ∧ (s_Manifest.allWritten { ckpt [{ strm 0 with done := true }] with doneDevs := [0, 1] } = true) ∧ (∃ z ∈ s_Manifest.sessions, z.isOpen = true ∧ z.fromHost = false) :=
  ⟨by decide, by decide, by decide, by decide, by decide, by decide, by decide⟩

def s_Manifest_sent : State := streams { ckpt [] with sent := true } 0 (job DS.running)

theorem wit_Manifest_sent : (s_Manifest_sent.alive = true) ∧ (s_Manifest_sent.job.ckpt = some { ckpt [] with sent := true }) :=
  ⟨by decide, by decide⟩

/-! Premises of ImageLoading. -/

def s_ImageLoad_bad : State := loading ld (job DS.ready)

theorem wit_ImageLoad_bad : Canonical s_ImageLoad_bad ∧ Turn s_ImageLoad_bad hdr sess ∧ (s_ImageLoad_bad.inState [DS.ready, DS.loaded,
    DS.paused] = true) ∧ (s_ImageLoad_bad.loadCheck 1 9000 [1] = Err.length) :=
  ⟨canonical_of (by decide), turn_of (by decide), by decide, by decide⟩

def s_ImageLoad : State := loading ld (job DS.ready)

theorem wit_ImageLoad : Canonical s_ImageLoad ∧ Turn s_ImageLoad hdr sess ∧ (s_ImageLoad.inState [DS.ready, DS.loaded, DS.paused] = true) ∧
    (s_ImageLoad.loadCheck 1 4096 [1, 2] = Err.ok) ∧ (s_ImageLoad.loadFor 1 4096 [1, 2] = some ld) ∧ (State.devicesMatch { ld with bytes := State.bytesWith ld 4096 [1, 2] } = false) :=
  ⟨canonical_of (by decide), turn_of (by decide), by decide, by decide +kernel, rfl, by decide +kernel⟩

def s_ImageLoad_state : State := job DS.running

theorem wit_ImageLoad_state : Canonical s_ImageLoad_state ∧ Turn s_ImageLoad_state hdr sess ∧ (s_ImageLoad_state.inState [DS.ready,
    DS.loaded, DS.paused] = false) :=
  ⟨canonical_of (by decide), turn_of (by decide), by decide⟩

def s_ImageCommit : State := loading finalLoad (up DS.ready)

theorem wit_ImageCommit : Canonical s_ImageCommit ∧ (s_ImageCommit.img.load = some finalLoad) ∧ (finalLoad.finalSeq = some 5) ∧
    (finalLoad.inp = some inp) ∧ (s_ImageCommit.alive = true) ∧
    ((s_ImageCommit.takenImage image).devices.find? (fun d => d.id == s_ImageCommit.devId) = some (devEntry 0 false)) ∧
    (s_ImageCommit.devState = DS.ready) :=
  ⟨canonical_of (by decide), rfl, by decide, by decide, by decide, by decide, by decide⟩

def s_ImageCommit_retrellis : State := loading finalLoad (opened (job DS.paused))

theorem wit_ImageCommit_retrellis : Canonical s_ImageCommit_retrellis ∧ (s_ImageCommit_retrellis.img.load = some finalLoad) ∧
    (s_ImageCommit_retrellis.alive = true) ∧
    ((s_ImageCommit_retrellis.takenImage image).devices.find? (fun d => d.id == s_ImageCommit_retrellis.devId) = some (devEntry 0 false)) ∧
    (s_ImageCommit_retrellis.devState = DS.paused) :=
  ⟨canonical_of (by decide), rfl, by decide, by decide, by decide⟩

def s_ImageCommit_none : State := job DS.ready

theorem wit_ImageCommit_none : Canonical s_ImageCommit_none ∧ (s_ImageCommit_none.img.load = none) :=
  ⟨canonical_of (by decide), by decide⟩

/-! Premises of Sessions. -/

def s_Hello : State := withSess [] (up DS.ready)

theorem wit_Hello : (Bare s_Hello hdr0) ∧ (s_Hello.boot.applied = some Lic.factory) ∧ (s_Hello.sessions.length < 8) :=
  ⟨⟨by decide, by decide, by decide, by decide, by decide, by decide⟩, by decide, by decide⟩

def s_Hello_auth : State := withSess [] (up DS.ready)

theorem wit_Hello_auth : (Bare s_Hello_auth hdr0) ∧ (s_Hello_auth.boot.applied = some Lic.factory) ∧ (Lic.factory.ownerHash ≠ 1) :=
  ⟨⟨by decide, by decide, by decide, by decide, by decide, by decide⟩, by decide, by decide⟩

def s_Hello_busy : State := withSess (List.replicate 8 sess) (up DS.ready)

theorem wit_Hello_busy : (Bare s_Hello_busy hdr0) ∧ (s_Hello_busy.boot.applied = some Lic.factory) ∧ (8 ≤ s_Hello_busy.sessions.length) :=
  ⟨⟨by decide, by decide, by decide, by decide, by decide, by decide⟩, by decide, by decide⟩

def s_Finish : State := withSess [pendingSess] (up DS.ready)

theorem wit_Finish : (NextOf s_Finish hdr pendingSess) ∧ (pendingSess.isOpen = false) :=
  ⟨⟨by decide, by decide, by decide, by decide, by decide, by decide, by decide, by decide, by decide, by decide, by decide⟩, by decide⟩

def s_Finish_auth : State := withSess [pendingSess] (up DS.ready)

theorem wit_Finish_auth : (NextOf s_Finish_auth hdr pendingSess) ∧ (pendingSess.t ≠ 8) :=
  ⟨⟨by decide, by decide, by decide, by decide, by decide, by decide, by decide, by decide, by decide, by decide, by decide⟩, by decide⟩

def s_Pending_timeout : State := atTick secTicks (withSess [pendingSess, { sess with num := 2 }] (up DS.ready))

theorem wit_Pending_timeout : (s_Pending_timeout.session 1 = some pendingSess) ∧ (s_Pending_timeout.alive = true) ∧
    (pendingSess.since + secTicks ≤ s_Pending_timeout.clock) :=
  ⟨by decide, by decide, by decide⟩

def s_Pending_early : State := withSess [pendingSess] (up DS.ready)

theorem wit_Pending_early : (s_Pending_early.session 1 = some pendingSess) ∧ (s_Pending_early.clock < pendingSess.since + secTicks) :=
  ⟨by decide, by decide⟩

def s_Idle_timeout : State := atTick (100000 * secTicks) (withSess [sess, { sess with num := 2 }] (up DS.ready))

theorem wit_Idle_timeout : (s_Idle_timeout.session 1 = some sess) ∧ (s_Idle_timeout.alive = true) ∧
    (sess.lastAt + getF s_Idle_timeout.dctCfg dctCfg_idleS * secTicks ≤ s_Idle_timeout.clock) :=
  ⟨by decide, by decide, by decide⟩

def s_Idle_early : State := up DS.ready

theorem wit_Idle_early : (s_Idle_early.session 1 = some sess) ∧
    (s_Idle_early.clock < sess.lastAt + getF s_Idle_early.dctCfg dctCfg_idleS * secTicks) :=
  ⟨by decide, by decide⟩

/-! Premises of KeySlots. -/

def s_Wrapped : State := slotted (up DS.ready)

theorem wit_Wrapped : Turn s_Wrapped hdr sess ∧ ((wrap 2).sealGen = s_Wrapped.sec.sealGen) ∧ (s_Wrapped.devState ≠ DS.running) :=
  ⟨turn_of (by decide), by decide, by decide⟩

def s_Wrapped_running : State := slotted (job DS.running)

theorem wit_Wrapped_running : Turn s_Wrapped_running hdr sess ∧ ((wrap 15).slot ≤ 15) ∧
    ((wrap 15).sealGen = s_Wrapped_running.sec.sealGen) ∧ (s_Wrapped_running.devState = DS.running) :=
  ⟨turn_of (by decide), by decide, by decide, by decide⟩

def s_Wrapped_auth : State := up DS.ready

theorem wit_Wrapped_auth : Turn s_Wrapped_auth hdr sess ∧ (1 ≠ s_Wrapped_auth.sec.sealGen) :=
  ⟨turn_of (by decide), by decide⟩

def s_Wrapped_range : State := up DS.ready

theorem wit_Wrapped_range : Turn s_Wrapped_range hdr sess ∧ (15 < (wrap 16).slot) :=
  ⟨turn_of (by decide), by decide⟩

def s_Erase : State := slotted (up DS.ready)

theorem wit_Erase : Turn s_Erase hdr sess ∧ (5 % 2 = 0 ∨ s_Erase.streaming = false) ∧ (s_Erase.devState ≠ DS.running) :=
  ⟨turn_of (by decide), by decide, by decide⟩

def s_Erase_busy : State := streams (ckpt [strm 0]) 0 (job DS.running)

theorem wit_Erase_busy : Turn s_Erase_busy hdr sess ∧ (s_Erase_busy.streaming = true) :=
  ⟨turn_of (by decide), by decide⟩

/-! Premises of Security. -/

def s_Attest_report : State := up DS.ready

theorem wit_Attest_report : Turn s_Attest_report hdr sess := turn_of (by decide)

def s_Attest_read : State := withReport 4 (up DS.ready)

theorem wit_Attest_read : Turn s_Attest_read hdr sess ∧ (s_Attest_read.sec.report = some { bytes := [1, 2, 3], nonce := 4, sigLen := 8 }) ∧ (1 + 4 ≤ reportBytes + sigBytes) ∧ (s_Attest_read.fitsReply 4 = true) :=
  ⟨turn_of (by decide), by decide, by unfold reportBytes sigBytes; omega, by decide⟩

def s_Attest_absent : State := up DS.ready

theorem wit_Attest_absent : Turn s_Attest_absent hdr sess ∧ (s_Attest_absent.sec.report = none) :=
  ⟨turn_of (by decide), by decide⟩

def s_Attest_chain : State := up DS.ready

theorem wit_Attest_chain : Turn s_Attest_chain hdr sess ∧ (0 + 1 ≤ chainBytes) ∧ (s_Attest_chain.fitsReply 1 = true) :=
  ⟨turn_of (by decide), by unfold chainBytes; omega, by decide⟩

def s_Licence_part : State := up DS.ready

theorem wit_Licence_part : Turn s_Licence_part hdr sess ∧ (0 + 2 ≤ uploadBytes) :=
  ⟨turn_of (by decide), by decide⟩

def s_Licence : State := up DS.ready

theorem wit_Licence : Turn s_Licence hdrF sess ∧ (newer.verifies = true) ∧ (newer.serial = s_Licence.flash.serial) ∧
    (s_Licence.flash.licence.all (fun k => decide (k.issue < newer.issue)) = true) :=
  ⟨turn_of (by decide), by decide, by decide, by decide⟩

def s_Licence_auth : State := up DS.ready

theorem wit_Licence_auth : Turn s_Licence_auth hdrF sess := turn_of (by decide)

def s_Token : State := slotted (withReport 4 (up DS.ready))

theorem wit_Token : Turn s_Token hdrF sess ∧ (s_Token.devState = DS.ready) ∧ (s_Token.sec.relocked = false) ∧
    (s_Token.sec.report.map (·.nonce) = some 4) :=
  ⟨turn_of (by decide), by decide, by decide, by decide⟩

def s_Token_state : State := job DS.loaded

theorem wit_Token_state : Turn s_Token_state hdrF sess ∧ (s_Token_state.devState ≠ DS.ready) :=
  ⟨turn_of (by decide), by decide⟩

def s_Token_auth : State := up DS.ready

theorem wit_Token_auth : Turn s_Token_auth hdrF sess ∧ (s_Token_auth.devState = DS.ready) :=
  ⟨turn_of (by decide), by decide⟩

/-! Premises of RegisterMessages. -/

def s_RegRead_length : State := up DS.ready

theorem wit_RegRead_length : Turn s_RegRead_length hdr sess ∧ (s_RegRead_length.fitsReply (8 * 1200) = false) :=
  ⟨turn_of (by decide), by decide⟩

def s_RegRead : State := up DS.ready

theorem wit_RegRead : Turn s_RegRead hdr sess ∧ (s_RegRead.fitsReply 8 = true) ∧ (∃ v s1,
    (heard s_RegRead sess).readReg (.dct 1) 0x18 = (s1, .ok v)) :=
  ⟨turn_of (by decide), by decide, ⟨_, _, rfl⟩⟩

def s_RegRead_unmapped : State := up DS.ready

theorem wit_RegRead_unmapped : Turn s_RegRead_unmapped hdr sess ∧ (s_RegRead_unmapped.fitsReply 8 = true) ∧
    (s_RegRead_unmapped.regAt 0xfffffff8 = none) :=
  ⟨turn_of (by decide), by decide, by decide⟩

def s_RegRead_fails : State := up DS.ready

theorem wit_RegRead_fails : Turn s_RegRead_fails hdr sess ∧ (s_RegRead_fails.fitsReply 8 = true) ∧ (∃ s1 e, e ≠ Err.ok ∧
    (heard s_RegRead_fails sess).readReg (.dct 1) 4 = (s1, .error e)) :=
  ⟨turn_of (by decide), by decide, ⟨_, _, by decide, rfl⟩⟩

def s_RegWrite : State := up DS.ready

theorem wit_RegWrite : Turn s_RegWrite hdr sess ∧ (∃ s1, WritesTo (.dct 1) (heard s_RegWrite sess) [(0x28, 7), (0x28, 0x10008)] s1) :=
  ⟨turn_of (by decide), ⟨_, by decide +kernel, by decide +kernel, rfl⟩⟩

def s_RegWrite_fails : State := up DS.ready

theorem wit_RegWrite_fails : Turn s_RegWrite_fails hdr sess ∧ (∃ s1 s2 e, e ≠ Err.ok ∧
    WritesTo (.dct 1) (heard s_RegWrite_fails sess) [(0x28, 7)] s1 ∧ s1.writeReg (.dct 1) 4 0 (BitVec.allOnes 64) = (s2, e)) :=
  ⟨turn_of (by decide), ⟨_, _, _, by decide, ⟨by decide +kernel, rfl⟩, rfl⟩⟩

/-! Premises of RegisterAccess. -/

def s_Access_unaligned : State := up DS.ready

theorem wit_Access_unaligned : Turn s_Access_unaligned hdr sess ∧ (s_Access_unaligned.fitsReply (8 * (1 + 1)) = true) :=
  ⟨turn_of (by decide), by decide⟩

def s_Access_nothing : State := up DS.ready

theorem wit_Access_nothing : Turn s_Access_nothing hdr sess ∧ (s_Access_nothing.regAt 0x18 = some .devCaps) ∧
    (s_Access_nothing.innerErr .devCaps true = Err.ok) ∧ (Reg.devCaps.fromImage = false) ∧
    (Reg.devCaps.acted (s_Access_nothing.regValue (s_Access_nothing.selOf (.dct 1) 0x18) .devCaps) 7 (BitVec.allOnes 64) = 0) :=
  ⟨turn_of (by decide), by decide, by decide, by decide, by decide +kernel⟩

def s_Access_busy : State := loading finalLoad (up DS.ready)

theorem wit_Access_busy : Turn s_Access_busy hdr sess ∧ (s_Access_busy.regAt 0x60038 = some .fdCfg) ∧
    (s_Access_busy.innerErr .fdCfg true = Err.ok) ∧ (Reg.fdCfg.fromImage = true) ∧ (s_Access_busy.img.load.bind (·.finalSeq) = some 5) :=
  ⟨turn_of (by decide), by decide, by decide, by decide, by decide⟩

/-! Premises of MessageOrder. -/

def s_Order_again : State := withSess [{ sess with replies := [{ seq := 4, status := 0, devState := 5, payload := [], bytes := [] }] }] (up DS.ready)

theorem wit_Order_again : (messageOf (.pause { hdr with seq := 4 }) = some { hdr with seq := 4 }) ∧ (s_Order_again.servesDct = true) ∧ (s_Order_again.session 1 = some { sess with replies := [{ seq := 4, status := 0, devState := 5, payload := [], bytes := [] }] }) ∧ ((4 : Nat) < seqLimit) :=
  ⟨by decide, by decide, by decide, by decide⟩

def s_Order_running : State := withSess [{ sess with executing := true }] (up DS.ready)

theorem wit_Order_running : (messageOf (.pause hdr) = some hdr) ∧ (s_Order_running.session 1 = some { sess with executing := true }) :=
  ⟨by decide, by decide⟩

def s_Order_ahead : State := up DS.ready

theorem wit_Order_ahead : (messageOf (.pause { hdr with seq := 69 }) = some { hdr with seq := 69 }) ∧ (s_Order_ahead.session 1 = some sess) :=
  ⟨by decide, by decide⟩

def s_Order_beyond : State := up DS.ready

theorem wit_Order_beyond : (messageOf (.pause { hdr with seq := 70 }) = some { hdr with seq := 70 }) ∧ (s_Order_beyond.session 1 = some sess) :=
  ⟨by decide, by decide⟩

def s_Order_released : State := withSess [{ sess with held := [(6, .trstN)], replies := List.replicate 64 { seq := 4, status := 0, devState := 5, payload := [], bytes := [] } }] (up DS.ready)

theorem wit_Order_released : (Turn s_Order_released hdr { sess with held := [(6, .trstN)], replies := List.replicate 64 { seq := 4, status := 0, devState := 5, payload := [], bytes := [] } }) := turn_of (by decide)

def s_Order_first : State := up DS.ready

theorem wit_Order_first : (Bare s_Order_first hdr0) ∧ (s_Order_first.boot.applied.map (·.ownerHash) = some hello.ownerHash) ∧
    (s_Order_first.sessions.length < 8) :=
  ⟨⟨by decide, by decide, by decide, by decide, by decide, by decide⟩, by decide, by decide⟩

/-! Premises of BulkAndReplies. -/

def s_BulkWrite : State := withStates evals (job DS.loaded)

theorem wit_BulkWrite : Turn s_BulkWrite hdr sess ∧ (s_BulkWrite.inJob = true) ∧
    (s_BulkWrite.bulkCheck true false (0x2000000 + 4) 1 = Err.ok) ∧ (s_BulkWrite.partRefuses ((0x2000000 + 4) / windowBytes) = Err.ok) ∧ (s_BulkWrite.envelopeErr { present := false, slot := 0, formed := false, tagOk := false } = Err.ok) :=
  ⟨turn_of (by decide), by decide, by decide, by decide, by decide⟩

def s_BulkWrite_fenced : State := fencedPart (withStates evals (job DS.loaded))

theorem wit_BulkWrite_fenced : Turn s_BulkWrite_fenced hdr sess ∧ (s_BulkWrite_fenced.inJob = true) ∧
    (s_BulkWrite_fenced.bulkCheck true false (0x2000000 + 4) 1 = Err.ok) ∧
    (s_BulkWrite_fenced.partRefuses ((0x2000000 + 4) / windowBytes) = Err.fenced) :=
  ⟨turn_of (by decide), by decide, by decide, by decide⟩

def s_BulkRead : State := withStates evals (job DS.loaded)

theorem wit_BulkRead : Turn s_BulkRead hdr sess ∧ (s_BulkRead.inJob = true) ∧ (s_BulkRead.sealed = false) ∧
    (s_BulkRead.bulkCheck false false (0x2000000 + 4) 2 = Err.ok) ∧ (s_BulkRead.bulkAt (0x2000000 + 4) ≠ some .captures) ∧
    (s_BulkRead.partRefuses ((0x2000000 + 4) / windowBytes) = Err.ok) :=
  ⟨turn_of (by decide), by decide, by decide, by decide, by decide, by decide⟩

def s_Ack : State := awaiting .inBandInterrupt 0 (up DS.ready)

theorem wit_Ack : Turn s_Ack hdr sess ∧ ((s_Ack.unacked.find? (fun z => z.session == sess.num && z.seq == 7)).isSome = true) :=
  ⟨turn_of (by decide), by decide⟩

def s_Retransmit : State := atTick (1000 * msTicks) (awaiting .inBandInterrupt 0 (up DS.ready))

theorem wit_Retransmit : ((s_Retransmit.unacked.find? (fun z => z.session == 1 && z.seq == 7)).map (·.tries) = some 0) ∧
    (State.retransmits .inBandInterrupt = true) ∧ (0 + getF s_Retransmit.dctCfg dctCfg_rtoMs * msTicks ≤ s_Retransmit.clock) ∧
    (0 < getF s_Retransmit.dctCfg dctCfg_retries) :=
  ⟨by decide, by decide, by decide, by decide⟩

def s_Retransmit_spent : State := atTick (1000 * msTicks) (awaiting .inBandInterrupt 15 (up DS.ready))

theorem wit_Retransmit_spent : ((s_Retransmit_spent.unacked.find? (fun z => z.session == 1 && z.seq == 7)).map (·.tries) = some 15) ∧
    (0 + getF s_Retransmit_spent.dctCfg dctCfg_rtoMs * msTicks ≤ s_Retransmit_spent.clock) ∧ (getF s_Retransmit_spent.dctCfg dctCfg_retries ≤ 15) :=
  ⟨by decide, by decide, by decide⟩

def s_Retransmit_early : State := awaiting .inBandInterrupt 0 (up DS.ready)

theorem wit_Retransmit_early : (s_Retransmit_early.clock < 0 + getF s_Retransmit_early.dctCfg dctCfg_rtoMs * msTicks) := by decide

/-! ## Register writes -/

/-- Session 1. -/
def w1 : Who := .dct 1

/-- The mask of what a write of `v` to `r` acts on. -/
def actedBy (s : State) (a : Nat) (r : Reg) (v : Word) : Word := r.acted (s.regValue (s.selOf w1 a) r) v (BitVec.allOnes 64)

/-- A spare is eligible: device 2, DORMANT and heard. -/
def withSpare (s : State) : State :=
  { s with fd := { s.fd with spares := [2], beats := [{ id := 2, lastTs := 0, misses := 0, st := DS.dormant }] } }

/-- Vintage 5 committed on every device, the mirror acknowledged. -/
def ackedJob (s : State) : State := { s with step := { s.step with committed := 5 } }

def goWord (l : List (Field × Nat)) : Word := wordOf l

/-! ## Fault domain -/

def beats (l : List BeatSt) (s : State) : State := { s with fd := { s.fd with beats := l } }

def beat (id ts : Nat) : BeatSt := { id := id, lastTs := ts, misses := 0, st := DS.running }

def accused (ts : Nat) (l : List Nat) (s : State) : State :=
  { s with fd := { s.fd with accuses := [{ accused := 1, firstTs := ts, reporters := l, count := 1 }] } }

/-- An ACTIVE port that leads to a device. -/
def livePort (dev : Nat) : Port :=
  { Port.reset with status := setF (setF (setF Port.reset.status lnkStatus_state LS.active) lnkStatus_peerDev dev) lnkStatus_peerPort 4 }

def fmsg (id reason : Nat) : FenceMsg := { fenced := id, head := 0, ts := 0, reason := reason, reporters := 0 }

/-- Three members of one domain, and no spare. -/
def threeMembers (s : State) : State :=
  { s with
    img := { s.img with cur := some { hdr := imgHdr, digest := 0, half := 0, img := { image with devices := [devEntry 0 false, devEntry 1 false, devEntry 2 false] } } } }

def disciplined (s : State) : State := { s with time := { s.time with syncStatus := setF s.time.syncStatus tsSyncStatus_locked 1 } }

def gr (phase : Nat) (matched : List Nat) : Graft :=
  { fenced := 1, spare := some 2, planned := false, phase := phase, matched := matched, mismatches := 0, source := 0, epoch := 3, vintage := 9 }

/-- The spare taken into a graft for device 1. -/
def grafted (g : Graft) (s : State) : State := { s with fd := { s.fd with taken := some g } }

def admitting (s : State) : State := { s with fd := { s.fd with admitting := true } }

/-! ## Watchdogs and resets -/

def marked (f : Tile → Tile) (n : Nat) : State := atTick n ((job DS.running).setTile t00 (f Tile.reset))

def running (t : Tile) : Tile :=
  { t with status := setF t.status tileStatus_tileState TS.running, record := some tileRec }

def resetting (sc : Scope) (s : State) : State := { s with rst := { s.rst with active := [(sc, 0, 100)] } }

/-! Premises of RegisterCommands. -/

def s_Reg_accepted : State := job DS.running

theorem wit_Reg_accepted : (asWrite (.evalReq w1 0x32300000) = some (w1, 0x50000, setF 0x32300000 stepCtl_evalReq 1)) ∧
    (Reaches s_Reg_accepted w1 0x50000 .stepCtl (setF 0x32300000 stepCtl_evalReq 1) (actedBy s_Reg_accepted 0x50000 .stepCtl (setF
    0x32300000 stepCtl_evalReq 1))) ∧
    (s_Reg_accepted.writeErr .stepCtl (setF 0x32300000 stepCtl_evalReq 1) (actedBy s_Reg_accepted 0x50000 .stepCtl (setF 0x32300000
    stepCtl_evalReq 1)) = Err.ok) :=
  ⟨rfl, reaches_of (by decide +kernel), by decide +kernel⟩

def s_Reg_refused : State := job DS.ready

theorem wit_Reg_refused : (asWrite (.evalReq w1 0x32300000) = some (w1, 0x50000, setF 0x32300000 stepCtl_evalReq 1)) ∧
    (Reaches s_Reg_refused w1 0x50000 .stepCtl (setF 0x32300000 stepCtl_evalReq 1) (actedBy s_Reg_refused 0x50000 .stepCtl (setF 0x32300000
    stepCtl_evalReq 1))) ∧
    (s_Reg_refused.writeErr .stepCtl (setF 0x32300000 stepCtl_evalReq 1) (actedBy s_Reg_refused 0x50000 .stepCtl (setF 0x32300000
    stepCtl_evalReq 1)) ≠ Err.ok) :=
  ⟨rfl, reaches_of (by decide +kernel), by decide +kernel⟩

def s_I3c_accepted : State := job DS.ready

theorem wit_I3c_accepted : (s_I3c_accepted.alive = true) ∧ (s_I3c_accepted.boot.rooted = true) ∧
    (s_I3c_accepted.regAt 0x28 = some .devIdAssign) ∧ (Reg.i3cReach .devIdAssign = some 0x1ffff) ∧
    (s_I3c_accepted.innerErr .devIdAssign true = Err.ok) ∧
    (Reg.devIdAssign.acted (s_I3c_accepted.regValue (s_I3c_accepted.selOf .i3c 0x28) .devIdAssign) 0x10007 0x1ffff = 0x10007) ∧
    (s_I3c_accepted.writeErr .devIdAssign 0x10007 0x10007 = Err.ok) :=
  ⟨by decide, by decide, by decide, by decide, by decide, by decide, by decide⟩

def s_I3c_refused : State := job DS.running

theorem wit_I3c_refused : (s_I3c_refused.regAt 0x28 = some .devIdAssign) ∧
    (Reg.devIdAssign.acted (s_I3c_refused.regValue (s_I3c_refused.selOf .i3c 0x28) .devIdAssign) 0x10007 0x1ffff = 0x10007) ∧
    (s_I3c_refused.writeErr .devIdAssign 0x10007 0x10007 ≠ Err.ok) :=
  ⟨by decide, by decide, by decide⟩

def s_I3c_none : State := job DS.running

theorem wit_I3c_none : (s_I3c_none.regAt 0x50000 = some .stepCtl) ∧ (Reg.i3cReach .stepCtl = none) :=
  ⟨by decide, by decide⟩

/-! Premises of RegisterEffects. -/

def s_BistStart : State := (job DS.ready).setTile t00 { Tile.reset with map := wordOf [(tileMap_site, 5)] }

theorem wit_BistStart : Canonical s_BistStart ∧ Accepted s_BistStart (.bistStart w1 t00 (wordOf [(tileCtl_bistMode, 1)])) (.tileCtl t00) ∧
    (getF (wordOf [(tileCtl_bistMode, 1)]) tileCtl_bistMode ≠ 0) :=
  ⟨canonical_of (by decide), accepted_of rfl (by decide +kernel), by decide⟩

def s_FuncTable : State := job DS.ready

theorem wit_FuncTable : Canonical s_FuncTable ∧ Accepted s_FuncTable (.funcTableAccess w1 t00 (wordOf [(funcTable_wr, 1), (funcTable_data,
    77), (funcTable_table, 1), (funcTable_segment, 2), (funcTable_word, 3)])) (.funcTable t00) :=
  ⟨canonical_of (by decide), accepted_of rfl (by decide +kernel)⟩

def s_EvalReq : State := job DS.running

theorem wit_EvalReq : Canonical s_EvalReq ∧ Accepted s_EvalReq (.evalReq w1 0x32300000) (.stepCtl) :=
  ⟨canonical_of (by decide), accepted_of rfl (by decide +kernel)⟩

def s_PauseReq : State := job DS.running

theorem wit_PauseReq : Canonical s_PauseReq ∧ Accepted s_PauseReq (.pauseReq w1 0x32300000) (.stepCtl) :=
  ⟨canonical_of (by decide), accepted_of rfl (by decide +kernel)⟩

def s_SealRenew : State := slotted (job DS.ready)

theorem wit_SealRenew : Canonical s_SealRenew ∧ Accepted s_SealRenew (.sealRenew w1 0) (.attestCtl) :=
  ⟨canonical_of (by decide), accepted_of rfl (by decide +kernel)⟩

def s_Relock : State := { job DS.ready with sec := { SecRegs.reset with debugLock := setF 0 debugLock_state 1 } }

theorem wit_Relock : Canonical s_Relock ∧ Accepted s_Relock (.relock w1 0) (.debugLock) :=
  ⟨canonical_of (by decide), accepted_of rfl (by decide +kernel)⟩

def s_DevIdAssign : State := job DS.ready

theorem wit_DevIdAssign : Canonical s_DevIdAssign ∧ Accepted s_DevIdAssign (.devIdAssign w1 7) (.devIdAssign) :=
  ⟨canonical_of (by decide), accepted_of rfl (by decide +kernel)⟩

def s_SoftClear : State := job DS.ready

theorem wit_SoftClear : Canonical s_SoftClear ∧ Accepted s_SoftClear (.softClear w1 0) (.yieldSummary) :=
  ⟨canonical_of (by decide), accepted_of rfl (by decide +kernel)⟩

def s_RetireClear : State := job DS.retired

theorem wit_RetireClear : Canonical s_RetireClear ∧ Accepted s_RetireClear (.retireClear w1 0xa0a0a000000) (.rstCtl) ∧
    (flagF 0xa0a0a000000 rstCtl_compute = false) :=
  ⟨canonical_of (by decide), accepted_of rfl (by decide +kernel), by decide⟩

def s_DormantTable : State := job DS.ready

theorem wit_DormantTable : Canonical s_DormantTable ∧ Accepted s_DormantTable (.dormantTableWrite w1 (wordOf [(dormantTable_wr, 1),
    (dormantTable_index, 3), (dormantTable_threshold, 9), (dormantTable_valid, 1)])) (.dormantTable) :=
  ⟨canonical_of (by decide), accepted_of rfl (by decide +kernel)⟩

def s_AdmitDevice : State := spare DS.loaded

theorem wit_AdmitDevice : Canonical s_AdmitDevice ∧ Accepted s_AdmitDevice (.admitDevice w1 (wordOf [(graftCtl_target, 2)])) (.graftCtl) :=
  ⟨canonical_of (by decide), accepted_of rfl (by decide +kernel)⟩

def s_Planned : State := withSpare (ackedJob (job DS.paused))

theorem wit_Planned : Canonical s_Planned ∧ Accepted s_Planned (.planned w1 (wordOf [(graftCtl_target, 1), (graftCtl_spare,
    2)])) (.graftCtl) ∧ (flagF (wordOf [(graftCtl_target, 1), (graftCtl_spare, 2)]) graftCtl_auto = false) :=
  ⟨canonical_of (by decide), accepted_of rfl (by decide +kernel), by decide⟩

def s_HostFence : State := job DS.running

theorem wit_HostFence : Canonical s_HostFence ∧ Accepted s_HostFence (.hostFence w1 (wordOf [(graftCtl_target, 1)])) (.graftCtl) ∧
    (s_HostFence.asks 0 = false) ∧ (s_HostFence.pendingOn 0 = []) :=
  ⟨canonical_of (by decide), accepted_of rfl (by decide +kernel), by decide, by decide⟩

/-! Premises of Heartbeats. -/

def s_BeatSend : State := job DS.running

theorem wit_BeatSend : (s_BeatSend.linksUp = true) ∧ (s_BeatSend.img.cur.isSome = true) ∧ (s_BeatSend.inJob = true) ∧
    (s_BeatSend.isSpareHere = false) :=
  ⟨by decide, by decide, by decide, by decide⟩

def s_Beat : State := job DS.running

theorem wit_Beat : (s_Beat.linksUp = true) ∧ (s_Beat.img.cur.isSome = true) ∧ (s_Beat.watches 1 = true) :=
  ⟨by decide, by decide, by decide⟩

def s_Beat_other : State := jobAs 1 DS.running

theorem wit_Beat_other : (s_Beat_other.linksUp = true) ∧ (s_Beat_other.img.cur.isSome = true) ∧ (s_Beat_other.watches 5 = false) :=
  ⟨by decide, by decide, by decide⟩

def s_BeatMiss_noQuorum : State := atTick 100000000 (jobAs 1 DS.running)

theorem wit_BeatMiss_noQuorum : (s_BeatMiss_noQuorum.linksUp = true) ∧ (s_BeatMiss_noQuorum.img.cur.isSome = true) ∧
    (s_BeatMiss_noQuorum.watches 0 = true) ∧ (s_BeatMiss_noQuorum.isFenced 0 = false) ∧ (s_BeatMiss_noQuorum.inGraft 0 = false) ∧
    (s_BeatMiss_noQuorum.beatOf 0 = none) ∧ (s_BeatMiss_noQuorum.heardMost 0 = false) ∧ (s_BeatMiss_noQuorum.isJobHead = false) :=
  ⟨by decide, by decide, by decide, by decide, by decide, by decide, by decide, by decide⟩

def s_BeatMiss_fences : State := atTick 100000000 (beats [beat 2 100000000] (threeMembers (job DS.running)))

theorem wit_BeatMiss_fences : (s_BeatMiss_fences.linksUp = true) ∧ (s_BeatMiss_fences.img.cur.isSome = true) ∧
    (s_BeatMiss_fences.watches 1 = true) ∧ (s_BeatMiss_fences.isFenced 1 = false) ∧ (s_BeatMiss_fences.inGraft 1 = false) ∧
    (s_BeatMiss_fences.beatOf 1 = none) ∧ (s_BeatMiss_fences.heardMost 1 = true) ∧ (s_BeatMiss_fences.asks 0 = false) ∧
    (s_BeatMiss_fences.pendingOn 0 = []) :=
  ⟨by decide, by decide, by decide, by decide, by decide, by decide, by decide, by decide, by decide⟩

def s_BeatMiss_grafted : State := { (beats [beat 2 0] (job DS.running)) with fd := { (beats [beat 2 0] (job DS.running)).fd with grafts := [{ fenced := 1, spare := some 2, planned := false, phase := GP.selfTest, matched := [], mismatches := 0, source := 3 }] } }

theorem wit_BeatMiss_grafted : (s_BeatMiss_grafted.linksUp = true) ∧ (s_BeatMiss_grafted.img.cur.isSome = true) ∧
    (s_BeatMiss_grafted.inGraft 2 = true) :=
  ⟨by decide, by decide, by decide⟩

def s_BeatMiss_early : State := beats [beat 1 1] (job DS.running)

theorem wit_BeatMiss_early : (s_BeatMiss_early.linksUp = true) ∧ (s_BeatMiss_early.img.cur.isSome = true) ∧
    ((s_BeatMiss_early.beatOf 1).isSome = true) ∧ (s_BeatMiss_early.now < 1 + s_BeatMiss_early.missHb * s_BeatMiss_early.beatPeriod 1) :=
  ⟨by decide, by decide, by decide, by decide⟩

def s_Report : State := job DS.running

theorem wit_Report : (s_Report.linksUp = true) ∧ (s_Report.img.cur.isSome = true) ∧ (s_Report.watches 1 = true) ∧ (s_Report.isFenced 1 = false) :=
  ⟨by decide, by decide, by decide, by decide⟩

def s_ReportWait_cleared : State := atTick 1000000000 (beats [beat 1 900000000] (accused 0 [0, 2, 3, 4] (job DS.running)))

theorem wit_ReportWait_cleared : (s_ReportWait_cleared.linksUp = true) ∧ (s_ReportWait_cleared.img.cur.isSome = true) ∧
    ((s_ReportWait_cleared.accuseOf 1).isSome = true) ∧ (s_ReportWait_cleared.watches 1 = true) ∧ (s_ReportWait_cleared.quorum ≤ 4) ∧
    (0 + msTicks ≤ s_ReportWait_cleared.now) ∧ ((s_ReportWait_cleared.beatOf 1).map (·.lastTs) = some 900000000) :=
  ⟨by decide, by decide, by decide, by decide, by decide, by decide, by decide⟩

def s_ReportWait_fences : State := atTick 1000000000 (accused 0 [0, 2, 3, 4] (job DS.running))

theorem wit_ReportWait_fences : (s_ReportWait_fences.linksUp = true) ∧ (s_ReportWait_fences.img.cur.isSome = true) ∧
    ((s_ReportWait_fences.accuseOf 1).isSome = true) ∧ (s_ReportWait_fences.watches 1 = true) ∧ (s_ReportWait_fences.quorum ≤ 4) ∧
    (0 + msTicks ≤ s_ReportWait_fences.now) ∧ (s_ReportWait_fences.beatOf 1 = none) ∧ (s_ReportWait_fences.isFenced 1 = false) ∧
    (s_ReportWait_fences.asks 0 = false) ∧ (s_ReportWait_fences.pendingOn 0 = []) :=
  ⟨by decide, by decide, by decide, by decide, by decide, by decide, by decide, by decide, by decide, by decide⟩

def s_ReportWait_early : State := accused 0 [0, 2, 3, 4] (job DS.running)

theorem wit_ReportWait_early : (s_ReportWait_early.linksUp = true) ∧ (s_ReportWait_early.img.cur.isSome = true) ∧
    ((s_ReportWait_early.accuseOf 1).isSome = true) ∧ (s_ReportWait_early.now < 0 + msTicks) :=
  ⟨by decide, by decide, by decide, by decide⟩

def s_SelfFail : State := job DS.running

theorem wit_SelfFail : (s_SelfFail.linksUp = true) ∧ (s_SelfFail.img.cur.isSome = true) ∧ (s_SelfFail.watches 1 = true) ∧
    (s_SelfFail.isFenced 1 = false) ∧ (s_SelfFail.asks 0 = false) ∧ (s_SelfFail.pendingOn 0 = []) :=
  ⟨by decide, by decide, by decide, by decide, by decide, by decide⟩

def s_Fenced_once : State := { accused 0 [0, 2, 3, 4] (job DS.running) with fd := { (accused 0 [0, 2, 3, 4] (job DS.running)).fd with fences := [{ id := 1, status := 0, reason := 0, reporters := 0, reports := 0x3fe }] } }

theorem wit_Fenced_once : (s_Fenced_once.linksUp = true) ∧ (s_Fenced_once.img.cur.isSome = true) ∧ (s_Fenced_once.isFenced 1 = true) ∧
    (s_Fenced_once.watches 1 = true) :=
  ⟨by decide, by decide, by decide, by decide⟩

/-! Premises of Fences. -/

def s_Fence_seen : State := { job DS.running with fd := { Fd.reset with sawFence := [1] } }

theorem wit_Fence_seen : (s_Fence_seen.linksUp = true) ∧ (s_Fence_seen.img.cur.isSome = true) ∧ ((fmsg 1 0).fenced ∈ s_Fence_seen.fd.sawFence) :=
  ⟨by decide, by decide, by decide⟩

def s_Fence_other : State := ((job DS.running).setPort 2 (livePort 3)).setPort 3 (livePort 1)

theorem wit_Fence_other : (s_Fence_other.linksUp = true) ∧ (s_Fence_other.img.cur.isSome = true) ∧
    ((fmsg 1 0).fenced ∉ s_Fence_other.fd.sawFence) ∧ ((fmsg 1 0).fenced ≠ s_Fence_other.devId) ∧
    (s_Fence_other.portsTo (fmsg 1 0).fenced = [3]) ∧ (∃ n < 36, s_Fence_other.portActive n = true ∧ n ∉ s_Fence_other.portsTo (fmsg 1 0).fenced) :=
  ⟨by decide, by decide, by decide, by decide, by decide, by decide⟩

def s_Fence_own : State := slotted (jobAs 1 DS.running)

theorem wit_Fence_own : (s_Fence_own.linksUp = true) ∧ (s_Fence_own.img.cur.isSome = true) ∧
    ((fmsg 1 0).fenced ∉ s_Fence_own.fd.sawFence) ∧ ((fmsg 1 0).fenced = s_Fence_own.devId) ∧ ((fmsg 1 0).reason ≠ FR.planned) ∧
    (s_Fence_own.devState ≠ DS.retired) ∧ (s_Fence_own.rst.active = []) :=
  ⟨by decide, by decide, by decide, by decide, by decide, by decide, by decide⟩

def s_Fence_resetting : State := resetting (.part 3) (jobAs 1 DS.running)

theorem wit_Fence_resetting : (s_Fence_resetting.linksUp = true) ∧ (s_Fence_resetting.img.cur.isSome = true) ∧
    ((fmsg 1 0).fenced ∉ s_Fence_resetting.fd.sawFence) ∧ ((fmsg 1 0).fenced = s_Fence_resetting.devId) ∧
    ((fmsg 1 0).reason ≠ FR.planned) ∧ (s_Fence_resetting.devState ≠ DS.retired) ∧ (s_Fence_resetting.rst.active ≠ []) :=
  ⟨by decide, by decide, by decide, by decide, by decide, by decide, by decide⟩

/-! Premises of Grafts. -/

def s_Wake : State := spare DS.dormant

theorem wit_Wake : Canonical s_Wake ∧ (s_Wake.linksUp = true) ∧ (s_Wake.img.cur.isSome = true) ∧ (s_Wake.isSpareHere = true) ∧
    (s_Wake.devState = DS.dormant) ∧ ((s_Wake.entry 1).isSome = true) ∧ (s_Wake.devId = 2) :=
  ⟨canonical_of (by decide), by decide, by decide, by decide, by decide, by decide, by decide⟩

def s_Wake_other : State := spare DS.dormant

theorem wit_Wake_other : Canonical s_Wake_other ∧ (s_Wake_other.linksUp = true) ∧ (s_Wake_other.img.cur.isSome = true) ∧ (1 ≠ s_Wake_other.devId) :=
  ⟨canonical_of (by decide), by decide, by decide, by decide⟩

def s_DeviceSelfTest : State := grafted (gr GP.selfTest []) (spare DS.loaded)

theorem wit_DeviceSelfTest : Canonical s_DeviceSelfTest ∧ (s_DeviceSelfTest.linksUp = true) ∧ (s_DeviceSelfTest.img.cur.isSome = true) ∧
    (s_DeviceSelfTest.fd.taken = some (gr GP.selfTest [])) ∧ (s_DeviceSelfTest.fd.selfFailed = none) :=
  ⟨canonical_of (by decide), by decide, by decide, by decide, by decide⟩

def s_DeviceSelfTest_fails : State := grafted (gr GP.selfTest []) (spare DS.loaded)

theorem wit_DeviceSelfTest_fails : Canonical s_DeviceSelfTest_fails ∧ (s_DeviceSelfTest_fails.linksUp = true) ∧
    (s_DeviceSelfTest_fails.img.cur.isSome = true) ∧ (s_DeviceSelfTest_fails.fd.taken = some (gr GP.selfTest [])) ∧
    (s_DeviceSelfTest_fails.fd.selfFailed = none) :=
  ⟨canonical_of (by decide), by decide, by decide, by decide, by decide⟩

def s_StateLoad : State := grafted (gr GP.loading []) (spare DS.loaded)

theorem wit_StateLoad : Canonical s_StateLoad ∧ (s_StateLoad.linksUp = true) ∧ (s_StateLoad.img.cur.isSome = true) ∧
    (s_StateLoad.fd.taken = some (gr GP.loading [])) ∧ (s_StateLoad.roleOf 1 = some role) ∧ (role.regions.find? (fun x => x.part == 0 && x.ty == .state) = some { ty := .state, part := 0, base := 0x2000000, len := 0x200000 }) ∧ (Config.sha384 (([[1, 2]] : List (List Byte)).flatMap (fun x => x.take pageBytes)) = Config.sha384 [1, 2]) :=
  ⟨canonical_of (by decide), by decide, by decide, by decide, by decide, by decide, by rw [show (([[1,
    2]] : List (List Byte)).flatMap (fun x => x.take pageBytes)) = [1, 2] from by simp [pageBytes]]⟩

def s_StateLoad_last : State := grafted (gr GP.loading [1, 2, 3, 4, 5, 6, 7]) (spare DS.loaded)

theorem wit_StateLoad_last : Canonical s_StateLoad_last ∧ (s_StateLoad_last.linksUp = true) ∧ (s_StateLoad_last.img.cur.isSome = true) ∧
    (s_StateLoad_last.fd.taken = some (gr GP.loading [1, 2, 3, 4, 5, 6, 7])) :=
  ⟨canonical_of (by decide), by decide, by decide, by decide⟩

def s_StateLoad_digest : State := grafted (gr GP.loading []) (spare DS.loaded)

theorem wit_StateLoad_digest : Canonical s_StateLoad_digest ∧ (s_StateLoad_digest.linksUp = true) ∧
    (s_StateLoad_digest.img.cur.isSome = true) ∧ (s_StateLoad_digest.fd.taken = some (gr GP.loading [])) ∧ (Config.sha384 [1,
    2] ≠ Config.sha384 [1, 2] + 1) ∧ ((gr GP.loading []).mismatches + 1 < getF s_StateLoad_digest.step.ctl stepCtl_replayMax) :=
  ⟨canonical_of (by decide), by decide, by decide, by decide, digest_ne _, by decide⟩

def s_TakeOver_early : State := grafted (gr GP.takeOver []) (spare DS.loaded)

theorem wit_TakeOver_early : Canonical s_TakeOver_early ∧ (s_TakeOver_early.linksUp = true) ∧ (s_TakeOver_early.img.cur.isSome = true) ∧
    (s_TakeOver_early.fd.taken = some (gr GP.takeOver [])) ∧ (flagF s_TakeOver_early.time.syncStatus tsSyncStatus_locked = false) :=
  ⟨canonical_of (by decide), by decide, by decide, by decide, by decide⟩

def s_TakeOver : State := disciplined (grafted (gr GP.takeOver []) (spare DS.loaded))

theorem wit_TakeOver : Canonical s_TakeOver ∧ (s_TakeOver.linksUp = true) ∧ (s_TakeOver.img.cur.isSome = true) ∧
    (s_TakeOver.fd.taken = some (gr GP.takeOver [])) ∧ (flagF s_TakeOver.time.syncStatus tsSyncStatus_locked = true) ∧
    ((s_TakeOver.img.cur.bind (fun c => c.img.devices.find? (fun d => d.id == 1))).isSome = true) :=
  ⟨canonical_of (by decide), by decide, by decide, by decide, by decide, by decide⟩

def s_GraftDone : State := { withSpare (job DS.running) with fd := { (withSpare (job DS.running)).fd with fences := [{ id := 1, status := 0, reason := 0, reporters := 0, reports := 0 }], sawFence := [1] } }

theorem wit_GraftDone : Canonical s_GraftDone ∧ (s_GraftDone.linksUp = true) ∧ (s_GraftDone.img.cur.isSome = true) ∧ (1 ≠ s_GraftDone.devId) :=
  ⟨canonical_of (by decide), by decide, by decide, by decide⟩

def s_GraftDone_own : State := job DS.running

theorem wit_GraftDone_own : Canonical s_GraftDone_own ∧ (s_GraftDone_own.linksUp = true) ∧ (s_GraftDone_own.img.cur.isSome = true) ∧
    (s_GraftDone_own.devId = 0) :=
  ⟨canonical_of (by decide), by decide, by decide, by decide⟩

def s_Admission : State := admitting (spare DS.loaded)

theorem wit_Admission : Canonical s_Admission ∧ (s_Admission.linksUp = true) ∧ (s_Admission.img.cur.isSome = true) ∧
    (s_Admission.fd.admitting = true) ∧ (s_Admission.fd.selfFailed = none) ∧ (∀ p < 8, flagF (s_Admission.part p).yield yieldSummary_short = false) :=
  ⟨canonical_of (by decide), by decide, by decide, by decide, by decide, by decide⟩

def s_Admission_none : State := spare DS.loaded

theorem wit_Admission_none : Canonical s_Admission_none ∧ (s_Admission_none.linksUp = true) ∧ (s_Admission_none.img.cur.isSome = true) ∧
    (s_Admission_none.fd.admitting = false) :=
  ⟨canonical_of (by decide), by decide, by decide, by decide⟩

/-! Premises of Watchdogs. -/

def s_UnitWatchdog : State := marked running 10000000000

theorem wit_UnitWatchdog : Canonical s_UnitWatchdog ∧ (s_UnitWatchdog.resettable = true) ∧
    (State.unitBusy (s_UnitWatchdog.tile t00) 19 = true) ∧ (s_UnitWatchdog.covered (.unit 0 0 19) = false) ∧
    (s_UnitWatchdog.rst.levels = []) ∧
    (Sparse.get 0 (s_UnitWatchdog.tile t00).marks 19 + getF s_UnitWatchdog.rst.ctl rstCtl_unitMs * msTicks < s_UnitWatchdog.now) :=
  ⟨canonical_of (by decide), by decide, by decide, by decide, by decide, by decide⟩

def s_UnitWatchdog_early : State := marked running 0

theorem wit_UnitWatchdog_early : Canonical s_UnitWatchdog_early ∧ (s_UnitWatchdog_early.resettable = true) ∧
    (State.unitBusy (s_UnitWatchdog_early.tile t00) 19 = true) ∧ (s_UnitWatchdog_early.covered (.unit 0 0 19) = false) ∧
    (s_UnitWatchdog_early.now ≤ Sparse.get 0 (s_UnitWatchdog_early.tile t00).marks 19 + getF s_UnitWatchdog_early.rst.ctl rstCtl_unitMs * msTicks) :=
  ⟨canonical_of (by decide), by decide, by decide, by decide, by decide⟩

def s_HeartbeatWatchdog : State := marked running 10000000000

theorem wit_HeartbeatWatchdog : Canonical s_HeartbeatWatchdog ∧ (s_HeartbeatWatchdog.resettable = true) ∧
    (((s_HeartbeatWatchdog.tile t00).record.bind (·.program)).isSome = true) ∧ (s_HeartbeatWatchdog.covered (.unit 0 0 28) = false) ∧
    (s_HeartbeatWatchdog.rst.levels = []) ∧
    ((s_HeartbeatWatchdog.tile t00).heartbeat + 4 * s_HeartbeatWatchdog.hbTicks t00 < s_HeartbeatWatchdog.now) :=
  ⟨canonical_of (by decide), by decide, by decide, by decide, by decide, by decide⟩

def s_MemoryWatchdog : State := job DS.running

theorem wit_MemoryWatchdog : Canonical s_MemoryWatchdog ∧ (s_MemoryWatchdog.resettable = true) ∧ (3 < s_MemoryWatchdog.S) ∧
    (s_MemoryWatchdog.covered (.memPort 7 3 31) = false) ∧ (s_MemoryWatchdog.rst.levels = []) :=
  ⟨canonical_of (by decide), by decide, by decide, by decide, by decide⟩

def s_MemoryWatchdog_again : State := { job DS.running with rst := { RstRegs.reset with levels := [(.memPort 0 0 0, 1)] } }

theorem wit_MemoryWatchdog_again : Canonical s_MemoryWatchdog_again ∧ (s_MemoryWatchdog_again.resettable = true) ∧
    (s_MemoryWatchdog_again.covered (.memPort 0 0 0) = false) ∧ ((Scope.memPort 0 0 0, 1) ∈ s_MemoryWatchdog_again.rst.levels) :=
  ⟨canonical_of (by decide), by decide, by decide, by decide⟩

def s_RouterWatchdog : State := job DS.running

theorem wit_RouterWatchdog : Canonical s_RouterWatchdog ∧ (s_RouterWatchdog.resettable = true) ∧
    (s_RouterWatchdog.covered (.router 7) = false) ∧ (s_RouterWatchdog.covered (.router 15) = false) ∧ (s_RouterWatchdog.rst.levels = []) :=
  ⟨canonical_of (by decide), by decide, by decide, by decide, by decide⟩

def s_CollectiveWait : State := marked (fun t => { t with status := setF t.status tileStatus_tileState TS.waiting, seq := { t.seq with wait := some (7, 1) } }) 10000000000

theorem wit_CollectiveWait : Canonical s_CollectiveWait ∧
    (List.find? (fun (c : Coll) => c.id == 3 && c.owner == t00) ((s_CollectiveWait.role.map (·.colls)).getD []) = some coll) ∧
    (s_CollectiveWait.alive = true) ∧ ((s_CollectiveWait.tile t00).seq.wait = some (7, 1)) ∧
    (s_CollectiveWait.covered (.unit 0 0 19) = false) ∧ (coll.timeoutUs ≠ 0) ∧
    (Sparse.get 0 (s_CollectiveWait.tile t00).marks (256 + 7) + coll.timeoutUs * usTicks < s_CollectiveWait.now) :=
  ⟨canonical_of (by decide), by decide, by decide, by decide, by decide, by decide, by decide⟩

def s_CollectiveWait_again : State := let s := atTick 10000000000 ((jobAs 1 DS.running).setTile t00 { Tile.reset with status := setF Tile.reset.status tileStatus_tileState TS.waiting, seq := { Tile.reset.seq with wait := some (7, 1) } }); { s with job := { s.job with collExpired := [3] } }

theorem wit_CollectiveWait_again : Canonical s_CollectiveWait_again ∧ (s_CollectiveWait_again.role.isSome = true) ∧
    (3 ∈ s_CollectiveWait_again.job.collExpired) ∧ (s_CollectiveWait_again.isJobHead = false) :=
  ⟨canonical_of (by decide), by decide, by decide, by decide⟩

def s_RootstockWatchdog : State := { job DS.running with sec := { SecRegs.reset with mode := wordOf [(secMode_standbyOk, 1)] } }

theorem wit_RootstockWatchdog : Canonical s_RootstockWatchdog ∧ (s_RootstockWatchdog.boot.rooted = true) ∧
    (flagF s_RootstockWatchdog.sec.mode secMode_standbyOk = true) :=
  ⟨canonical_of (by decide), by decide, by decide⟩

def s_RootstockWatchdog_none : State := job DS.running

theorem wit_RootstockWatchdog_none : Canonical s_RootstockWatchdog_none ∧ (s_RootstockWatchdog_none.alive = true) ∧
    (s_RootstockWatchdog_none.boot.rooted = true) :=
  ⟨canonical_of (by decide), by decide, by decide⟩

def s_Hang : State := opened (job DS.running)

theorem wit_Hang : Canonical s_Hang ∧ (s_Hang.alive = true) ∧ (s_Hang.devState = DS.running) ∧ (s_Hang.current 6 0 = true) ∧
    (s_Hang.rst.active = []) :=
  ⟨canonical_of (by decide), by decide, by decide, by decide, by decide⟩

def s_Hang_other : State := opened (job DS.running)

theorem wit_Hang_other : Canonical s_Hang_other ∧ (s_Hang_other.current 6 1 = false) :=
  ⟨canonical_of (by decide), by decide⟩

def s_ReplayDeadline_early : State := { job DS.running with job := { (job DS.running).job with rollbackAt := some 0 } }

theorem wit_ReplayDeadline_early : Canonical s_ReplayDeadline_early ∧ (s_ReplayDeadline_early.job.rollbackAt = some 0) ∧
    (s_ReplayDeadline_early.now < 0 + 2000 * msTicks + 2 * s_ReplayDeadline_early.agreeTicks) :=
  ⟨canonical_of (by decide), by decide, by decide⟩

def s_ReplayDeadline : State := atTick (10 ^ 12) { job DS.running with job := { (job DS.running).job with rollbackAt := some 0 } }

theorem wit_ReplayDeadline : Canonical s_ReplayDeadline ∧ (s_ReplayDeadline.job.rollbackAt = some 0) ∧ (s_ReplayDeadline.alive = true) ∧
    (s_ReplayDeadline.devState = DS.running) ∧ (s_ReplayDeadline.isJobHead = true) ∧
    (0 + 2000 * msTicks + 2 * s_ReplayDeadline.agreeTicks ≤ s_ReplayDeadline.now) :=
  ⟨canonical_of (by decide), by decide, by decide, by decide, by decide, by decide⟩

/-! Premises of Resets. -/

def s_ComputeReset : State := (job DS.running).setTile t00 { Tile.reset with store := [(1, 1)] }

theorem wit_ComputeReset : Canonical s_ComputeReset ∧ Accepted s_ComputeReset (.compute w1 0xa0a0a000000) (.rstCtl) :=
  ⟨canonical_of (by decide), accepted_of rfl (by decide +kernel)⟩

def s_PartReset : State := ((job DS.running).setTile t00 { Tile.reset with store := [(1, 1)] }).setTile ⟨1, 0⟩ { Tile.reset with store := [(1, 1)] }

theorem wit_PartReset : Canonical s_PartReset ∧ Accepted s_PartReset (.partResetGo w1 0 0) (.partReset 0) :=
  ⟨canonical_of (by decide), accepted_of rfl (by decide +kernel)⟩

def s_FenceCtl : State := job DS.paused

theorem wit_FenceCtl : Canonical s_FenceCtl ∧ Accepted s_FenceCtl (.fenceCtlFence w1 7 0) (.fenceCtl 7) :=
  ⟨canonical_of (by decide), accepted_of rfl (by decide +kernel)⟩

def s_ResetTimeout_early : State := resetting .compute (job DS.running)

theorem wit_ResetTimeout_early : Canonical s_ResetTimeout_early ∧
    (s_ResetTimeout_early.rst.active.find? (fun r => r.1 == .compute) = some (.compute, 0, 100)) ∧ (s_ResetTimeout_early.clock < 0 + 100) :=
  ⟨canonical_of (by decide), by decide, by decide⟩

def s_ResetTimeout_compute : State := atTick 100 (resetting .compute (job DS.running))

theorem wit_ResetTimeout_compute : Canonical s_ResetTimeout_compute ∧
    (s_ResetTimeout_compute.rst.active.find? (fun r => r.1 == .compute) = some (.compute, 0, 100)) ∧
    (s_ResetTimeout_compute.alive = true) ∧ (0 + 100 ≤ s_ResetTimeout_compute.clock) ∧ (s_ResetTimeout_compute.devState ≠ DS.retired) :=
  ⟨canonical_of (by decide), by decide, by decide, by decide, by decide⟩

def s_ResetTimeout_part : State := atTick 100 (resetting (.part 3) (job DS.running))

theorem wit_ResetTimeout_part : Canonical s_ResetTimeout_part ∧
    (s_ResetTimeout_part.rst.active.find? (fun r => r.1 == .part 3) = some (.part 3, 0, 100)) ∧ (0 + 100 ≤ s_ResetTimeout_part.clock) :=
  ⟨canonical_of (by decide), by decide, by decide⟩

def s_ResetTimeout_unit : State := atTick 100 (resetting (.unit 3 4 5) (job DS.running))

theorem wit_ResetTimeout_unit : Canonical s_ResetTimeout_unit ∧
    (s_ResetTimeout_unit.rst.active.find? (fun r => r.1 == .unit 3 4 5) = some (.unit 3 4 5, 0, 100)) ∧ (0 + 100 ≤ s_ResetTimeout_unit.clock) :=
  ⟨canonical_of (by decide), by decide, by decide⟩

def s_ResetComplete_unit : State := resetting (.unit 0 0 19) (marked running 0)

theorem wit_ResetComplete_unit : Canonical s_ResetComplete_unit ∧
    (s_ResetComplete_unit.rst.active.find? (fun r => r.1 == .unit 0 0 19) = some (.unit 0 0 19, 0, 100)) ∧
    (s_ResetComplete_unit.alive = true) ∧ (s_ResetComplete_unit.devState ≠ DS.fenced) ∧ (s_ResetComplete_unit.job.rollbackAt = none) :=
  ⟨canonical_of (by decide), by decide, by decide, by decide, by decide⟩

def s_ResetComplete_part : State := fencedPart (resetting (.part 0) (job DS.running))

theorem wit_ResetComplete_part : Canonical s_ResetComplete_part ∧
    (s_ResetComplete_part.rst.active.find? (fun r => r.1 == .part 0) = some (.part 0, 0, 100)) ∧ (s_ResetComplete_part.alive = true) :=
  ⟨canonical_of (by decide), by decide, by decide⟩

/-! ## Links -/

/-- A port in link state `st` whose four data lanes are mapped in order, lane 4 standing by. -/
def linked (st : Nat) : Port :=
  { Port.reset with
    status := setF (setF Port.reset.status lnkStatus_state st) lnkStatus_up (if st = LS.active then 1 else 0)
    laneMap := (List.range 5).foldl (fun w k => setF w (laneMap_logical k) k) Port.reset.laneMap }

/-- The same with no lane standing by. -/
def noStandby (p : Port) : Port := { p with laneMap := setF p.laneMap (laneMap_logical 4) 7 }

/-- The job in RUNNING with port 2 as given. -/
def portIs (p : Port) : State := (job DS.running).setPort 2 p

def flit (seq : Nat) : FlitIn := { hdr := setF 0 flit_seq seq, crcOk := true, uncorr := false, corr := 0, payload := [] }

def trainIn (d : Nat) : TrainIn := { lane := 0, sender := 3, inverted := false, precode := false, peerDev := d, peerPort := 4 }

def peers (s : State) : State := { s with fabric := { s.fabric with peers := [(2, some (1, 4))] } }

def pkt (dst : Nat) : Packet := { dst := dst, src := 1, route := 3, seq := 0, flits := 4, vc := 0, last := true, via := none }

/-- Device 5 is reached over group 0, which has port 2. -/
def routed (s : State) : State :=
  { s with fabric := { s.fabric with transit := [{ dest := 5, primary := 0, alternate := 0, dateline := false }], groups := [4] } }

def holding (s : State) : State := { s with fabric := { s.fabric with held := [{ pk := pkt 5, port := none, resends := 0 }] } }

def scan (e : Nat) : LaneScan := { lane := 1, eye := 50, csym := 0, errE8 := e }

/-! ## Power and rails -/

def powered (p d : Nat) : State := { job d with pow := { PowRegs.reset with state := setF 0 pwrState_state p } }

def request (p d : Nat) : State := { powered p d with dev := { (powered p d).dev with caps := 0 } }

/-- A handshake towards IDLE since 0. -/
def handshake (s : State) : State :=
  { s with pow := { s.pow with hs := setF (setF s.pow.hs pwrHandshakeStatus_result 1) pwrHandshakeStatus_target PS.idle } }

def railing (bits : List (Field × Nat)) (p : Part) : State :=
  { job DS.running with pow := { PowRegs.reset with railStatus := wordOf bits } }.setPart 0 p

def telem : Telemetry := { tjMax := 300, tj := [50], hbm := [60], vout := [], rate := [], faults := 0 }

/-! ## Bring-up and the module -/

/-- Bring-up in stage `k`. -/
def staged (k : Nat) (f : Flash → Flash := id) : State :=
  { State.reset with
    flash := f State.reset.flash
    dev := { DevRegs.reset with state := setF 1 devState_state (k - 1) }
    rootstock := { BootRegs.reset with stage := setF 0 bootStage_stage k, status := setF 0 (stField k) 1 }
    boot := { rooted := decide (1 < k), applied := none, dies := 15 } }

def pinned (f : Pins → Pins) (s : State) : State := { s with pins := f s.pins }

def noFw (f : Flash) : Flash := { f with fwA := { f.fwA with verifies := false }, fwB := { f.fwB with verifies := false } }

def fw (svn : Nat) : Firmware := { svn := svn, major := 0, minor := 0, build := 0, verifies := true }

def st2 : Stage2In := { pllOk := true, tileLinksOk := true, die0Ok := true, dies := [true, true, true, true], ms := 50 }

def st3 : Stage3In :=
  { missingStack := false, phyFail := false, unrepairable := false, memStacks := [4, 4, 4, 4, 4, 4, 4, 4], repaired := [], hpprLeft := 8,
    storeFails := [], ms := 2000 }

def recovering (r : Option (Nat × List Host.Cell)) : State :=
  { staged 15 with boot := Boot.reset, i3c := { I3c.reset with recovery := r } }

/-- Ethernet port 0 with link and addresses. -/
def ethernet (ctl : Word) (st : Word) (r : Option Nat) : State :=
  { up DS.ready with eth0 := { ctl := ctl, status := st, addrs := [0xfe80 * 2 ^ 112 + 5], router := r } }

def ethCtl : Word := wordOf [(ethPortCtl_enable, 1), (ethPortCtl_slaac, 1), (ethPortCtl_ipv4, 0x0a000001), (ethPortCtl_ipv4Prefix, 24)]
def ethNone : Word := wordOf [(ethPortCtl_ipv4, 0x0a000001), (ethPortCtl_ipv4Prefix, 24)]
def ethSt : Word := wordOf [(ethStatus_up, 1)]

theorem flits_in_order : ∀ i f, [flit 4092, flit 4093, flit 4094, flit 4095][i]? = some f → getF f.hdr flit_seq = (4092 + i) % 4096
  | 0, _, h => by cases h; decide
  | 1, _, h => by cases h; decide
  | 2, _, h => by cases h; decide
  | 3, _, h => by cases h; decide
  | _ + 4, _, h => by cases h

/-! Premises of LinkFlits. -/

def s_Flit_bad : State := portIs (linked LS.active)

theorem wit_Flit_bad : Canonical s_Flit_bad ∧ (s_Flit_bad.linksUp = true) ∧ (s_Flit_bad.portActive 2 = true) ∧ (∃ f ∈ [{ flit 0 with crcOk := false }], f.crcOk = false ∨ f.uncorr = true) ∧ ((s_Flit_bad.port 2).naks < 7) :=
  ⟨canonical_of (by decide), by decide, by decide, by decide, by decide⟩

def s_Flit_gap : State := portIs (linked LS.active)

theorem wit_Flit_gap : Canonical s_Flit_gap ∧ (s_Flit_gap.linksUp = true) ∧ (s_Flit_gap.portActive 2 = true) ∧ (∃ f ∈ [flit 1, flit 2,
    flit 3, flit 4], seqAhead (s_Flit_gap.port 2).rxSeq (getF f.hdr flit_seq) < 2048) ∧
    (getF (flit 1).hdr flit_seq ≠ ((s_Flit_gap.port 2).rxSeq + 0) % 4096) :=
  ⟨canonical_of (by decide), by decide, by decide, by decide, by decide⟩

def s_Flit_eighth : State := portIs { linked LS.active with naks := 7 }

theorem wit_Flit_eighth : Canonical s_Flit_eighth ∧ (s_Flit_eighth.linksUp = true) ∧ (s_Flit_eighth.portActive 2 = true) ∧
    (7 ≤ (s_Flit_eighth.port 2).naks) :=
  ⟨canonical_of (by decide), by decide, by decide, by decide⟩

def s_Flit_old : State := portIs { linked LS.active with rxSeq := 5 }

theorem wit_Flit_old : Canonical s_Flit_old ∧ (s_Flit_old.linksUp = true) ∧ (s_Flit_old.portActive 2 = true) ∧ (∀ f ∈ [flit 1, flit 2],
    f.crcOk = true ∧ f.uncorr = false) ∧ (∀ f ∈ [flit 1, flit 2], 2048 ≤ seqAhead (s_Flit_old.port 2).rxSeq (getF f.hdr flit_seq)) :=
  ⟨canonical_of (by decide), by decide, by decide, by decide, by decide⟩

def s_Flit_inOrder : State := portIs { linked LS.active with rxSeq := 4092, naks := 3 }

theorem wit_Flit_inOrder : Canonical s_Flit_inOrder ∧ (s_Flit_inOrder.linksUp = true) ∧ (s_Flit_inOrder.portActive 2 = true) ∧
    (∀ f ∈ [flit 4092, flit 4093, flit 4094, flit 4095], f.crcOk = true ∧ f.uncorr = false) ∧ (∀ i f, [flit 4092, flit 4093, flit 4094,
    flit 4095][i]? = some f → getF f.hdr flit_seq = (4092 + i) % 4096) :=
  ⟨canonical_of (by decide), by decide, by decide, by decide, flits_in_order⟩

def s_Flit_tag : State := portIs { linked LS.active with authTimes := [0, 0] }

theorem wit_Flit_tag : Canonical s_Flit_tag ∧ (s_Flit_tag.linksUp = true) ∧ (s_Flit_tag.portActive 2 = true) ∧
    (2 ≤ ((s_Flit_tag.port 2).authTimes.filter (fun a => decide (s_Flit_tag.clock < a + 1000 * msTicks))).length) :=
  ⟨canonical_of (by decide), by decide, by decide, by decide⟩

def s_Nak_none : State := portIs { linked LS.active with retry := [1, 2] }

theorem wit_Nak_none : Canonical s_Nak_none ∧ (s_Nak_none.linksUp = true) ∧ (s_Nak_none.portActive 2 = true) ∧
    ((ackRetry (s_Nak_none.port 2) 2).retry = []) :=
  ⟨canonical_of (by decide), by decide, by decide, by decide⟩

def s_Nak_resends : State := portIs { linked LS.active with retry := [1, 2], txc := 9 }

theorem wit_Nak_resends : Canonical s_Nak_resends ∧ (s_Nak_resends.linksUp = true) ∧ (s_Nak_resends.portActive 2 = true) ∧
    ((ackRetry (s_Nak_resends.port 2) 1).retry.head? = some 2) ∧ ((s_Nak_resends.port 2).txc + 1 < State.rekeyAt) :=
  ⟨canonical_of (by decide), by decide, by decide, by decide, by decide⟩

def s_KeepaliveSend : State := portIs (linked LS.active)

theorem wit_KeepaliveSend : Canonical s_KeepaliveSend ∧ (s_KeepaliveSend.linksUp = true) ∧ (s_KeepaliveSend.portActive 2 = true) :=
  ⟨canonical_of (by decide), by decide, by decide⟩

def s_Keepalive : State := portIs (linked LS.active)

theorem wit_Keepalive : Canonical s_Keepalive ∧ (s_Keepalive.linksUp = true) ∧ (s_Keepalive.portActive 2 = true) :=
  ⟨canonical_of (by decide), by decide, by decide⟩

def s_KeepaliveMiss : State := portIs { linked LS.active with kaMissed := 3 }

theorem wit_KeepaliveMiss : Canonical s_KeepaliveMiss ∧ (s_KeepaliveMiss.linksUp = true) ∧ (s_KeepaliveMiss.portActive 2 = true) ∧
    ((s_KeepaliveMiss.port 2).kaMissed < 4) :=
  ⟨canonical_of (by decide), by decide, by decide, by decide⟩

def s_KeepaliveMiss_fifth : State := portIs { linked LS.active with kaMissed := 4 }

theorem wit_KeepaliveMiss_fifth : Canonical s_KeepaliveMiss_fifth ∧ (s_KeepaliveMiss_fifth.linksUp = true) ∧
    (s_KeepaliveMiss_fifth.portActive 2 = true) ∧ (4 ≤ (s_KeepaliveMiss_fifth.port 2).kaMissed) :=
  ⟨canonical_of (by decide), by decide, by decide, by decide⟩

/-! Premises of LinkTraining. -/

def s_RetrainTimeout_early : State := portIs (linked LS.retrain)

theorem wit_RetrainTimeout_early : Canonical s_RetrainTimeout_early ∧ (s_RetrainTimeout_early.linksUp = true) ∧
    (linkSt (s_RetrainTimeout_early.port 2) = LS.retrain) ∧
    (s_RetrainTimeout_early.clock < (s_RetrainTimeout_early.port 2).retrainAt + 500 * usTicks) :=
  ⟨canonical_of (by decide), by decide, by decide, by decide⟩

def s_RetrainTimeout : State := atTick (10 ^ 9) (portIs (linked LS.retrain))

theorem wit_RetrainTimeout : Canonical s_RetrainTimeout ∧ (s_RetrainTimeout.linksUp = true) ∧
    (linkSt (s_RetrainTimeout.port 2) = LS.retrain) ∧ ((s_RetrainTimeout.port 2).retrainAt + 500 * usTicks ≤ s_RetrainTimeout.clock) :=
  ⟨canonical_of (by decide), by decide, by decide, by decide⟩

def s_RetrainComplete : State := portIs (linked LS.retrain)

theorem wit_RetrainComplete : Canonical s_RetrainComplete ∧ (s_RetrainComplete.linksUp = true) ∧
    (linkSt (s_RetrainComplete.port 2) = LS.retrain) ∧ (dataLanes (s_RetrainComplete.port 2) ≠ []) :=
  ⟨canonical_of (by decide), by decide, by decide, by decide⟩

def s_DetectTimeout : State := portIs (linked LS.detect)

theorem wit_DetectTimeout : Canonical s_DetectTimeout ∧ (s_DetectTimeout.linksUp = true) ∧ (linkSt (s_DetectTimeout.port 2) = LS.detect) :=
  ⟨canonical_of (by decide), by decide, by decide⟩

def s_Train_wrong : State := peers (portIs (linked LS.map))

theorem wit_Train_wrong : Canonical s_Train_wrong ∧ (s_Train_wrong.linksUp = true) ∧ (linkSt (s_Train_wrong.port 2) = LS.map) ∧
    ((trainIn 7).lane < 5) ∧ (s_Train_wrong.expectedPeer 2 = some (1, 4)) ∧ (((1, 4) : Nat × Nat) ≠ ((trainIn 7).peerDev, (trainIn 7).peerPort)) :=
  ⟨canonical_of (by decide), by decide, by decide, by decide, by decide, by decide⟩

def s_Train_maps : State := peers (portIs (linked LS.map))

theorem wit_Train_maps : Canonical s_Train_maps ∧ (s_Train_maps.linksUp = true) ∧ (linkSt (s_Train_maps.port 2) = LS.map) ∧
    (s_Train_maps.expectedPeer 2 = some (1, 4)) :=
  ⟨canonical_of (by decide), by decide, by decide, by decide⟩

def s_Train_last : State := portIs { linked LS.map with lanes := [(1, { Lane.reset with mapped := some 0 }), (2, { Lane.reset with mapped := some 1 }), (3, { Lane.reset with mapped := some 2 }), (4, { Lane.reset with mapped := some 4 })] }

theorem wit_Train_last : (s_Train_last.linksUp = true) ∧ (linkSt (s_Train_last.port 2) = LS.map) ∧ (s_Train_last.expectedPeer 2 = none) :=
  ⟨by decide, by decide, by decide⟩

def s_Train_other : State := portIs (linked LS.active)

theorem wit_Train_other : Canonical s_Train_other ∧ (s_Train_other.linksUp = true) ∧ (linkSt (s_Train_other.port 2) ≠ LS.disabled) ∧
    (linkSt (s_Train_other.port 2) ≠ LS.map) :=
  ⟨canonical_of (by decide), by decide, by decide, by decide⟩

def s_LaneShort : State := portIs (linked LS.detect)

theorem wit_LaneShort : Canonical s_LaneShort ∧ (s_LaneShort.linksUp = true) ∧ (linkSt (s_LaneShort.port 2) ≠ LS.disabled) :=
  ⟨canonical_of (by decide), by decide, by decide⟩

def s_FecLock : State := portIs (linked LS.eq)

theorem wit_FecLock : Canonical s_FecLock ∧ (s_FecLock.linksUp = true) ∧ (linkSt (s_FecLock.port 2) = LS.eq ∨ linkSt (s_FecLock.port 2) = LS.fec) :=
  ⟨canonical_of (by decide), by decide, by decide⟩

def s_KeyExchange : State := portIs (linked LS.keys)

theorem wit_KeyExchange : Canonical s_KeyExchange ∧ (s_KeyExchange.linksUp = true) ∧ (linkSt (s_KeyExchange.port 2) = LS.keys) :=
  ⟨canonical_of (by decide), by decide, by decide⟩

def s_LaneFailure_standby : State := portIs (linked LS.active)

theorem wit_LaneFailure_standby : Canonical s_LaneFailure_standby ∧ (s_LaneFailure_standby.linksUp = true) ∧
    (s_LaneFailure_standby.portActive 2 = true) ∧ (1 ∈ dataLanes (s_LaneFailure_standby.port 2)) ∧
    ((standby (s_LaneFailure_standby.port 2)).isSome = true) :=
  ⟨canonical_of (by decide), by decide, by decide, by decide, by decide⟩

def s_LaneFailure_none : State := portIs (noStandby (linked LS.active))

theorem wit_LaneFailure_none : Canonical s_LaneFailure_none ∧ (s_LaneFailure_none.linksUp = true) ∧
    (s_LaneFailure_none.portActive 2 = true) ∧ (1 ∈ dataLanes (s_LaneFailure_none.port 2)) ∧ (standby (s_LaneFailure_none.port 2) = none) :=
  ⟨canonical_of (by decide), by decide, by decide, by decide, by decide⟩

def s_Damping_over : State := portIs { linked LS.damped with retry := [1], penalty := 1 }

theorem wit_Damping_over : Canonical s_Damping_over ∧ (s_Damping_over.linksUp = true) ∧ (linkSt (s_Damping_over.port 2) = LS.damped) ∧
    (s_Damping_over.dampOver (s_Damping_over.port 2) (s_Damping_over.port 2).penalty (s_Damping_over.port 2).penAt (s_Damping_over.port
    2).dampedAt = true) :=
  ⟨canonical_of (by decide), by decide, by decide, by decide⟩

def s_Damping_on : State := portIs { linked LS.damped with penalty := 100000, dampedAt := some 0 }

theorem wit_Damping_on : Canonical s_Damping_on ∧ (s_Damping_on.linksUp = true) ∧ (linkSt (s_Damping_on.port 2) = LS.damped) ∧
    (s_Damping_on.dampOver (s_Damping_on.port 2) (s_Damping_on.port 2).penalty (s_Damping_on.port 2).penAt (s_Damping_on.port 2).dampedAt = false) :=
  ⟨canonical_of (by decide), by decide, by decide, by decide⟩

def s_Retrain : State := { portIs (linked LS.active) with dev := { (portIs (linked LS.active)).dev with state := setF 0 devState_state DS.loaded } }

theorem wit_Retrain : Canonical s_Retrain ∧ Accepted s_Retrain (.retrain w1 2 0xa00) (.lnkCtl 2) ∧ (flagF 0xa00 lnkCtl_qualify = false) ∧
    (flagF 0xa00 lnkCtl_disable = flagF (s_Retrain.port 2).ctl lnkCtl_disable) ∧ (s_Retrain.portActive 2 = true) :=
  ⟨canonical_of (by decide), accepted_of rfl (by decide +kernel), by decide, by decide, by decide⟩

def s_Qualify : State := (job DS.ready).setPort 2 (linked LS.active)

theorem wit_Qualify : Canonical s_Qualify ∧ Accepted s_Qualify (.qualify w1 2 0xa00) (.lnkCtl 2) ∧ (flagF 0xa00 lnkCtl_retrain = false) ∧
    (flagF 0xa00 lnkCtl_disable = flagF (s_Qualify.port 2).ctl lnkCtl_disable) ∧ (linkSt (s_Qualify.port 2) ≠ LS.disabled) ∧
    ((s_Qualify.portActive 2 && (flapPort (s_Qualify.port 2) s_Qualify.clock).2) = false) :=
  ⟨canonical_of (by decide), accepted_of rfl (by decide +kernel), by decide, by decide, by decide, by decide⟩

def s_Disable : State := (job DS.ready).setPort 2 (linked LS.active)

theorem wit_Disable : Canonical s_Disable ∧ Accepted s_Disable (.disable w1 2 0xa04) (.lnkCtl 2) ∧ (flagF 0xa04 lnkCtl_disable = true) ∧
    (flagF (s_Disable.port 2).ctl lnkCtl_disable = false) :=
  ⟨canonical_of (by decide), accepted_of rfl (by decide +kernel), by decide, by decide⟩

/-! Premises of LinkHealthAndPackets. -/

def s_HealthScan : State := portIs (linked LS.active)

theorem wit_HealthScan : Canonical s_HealthScan ∧ (s_HealthScan.linksUp = true) ∧ (s_HealthScan.portActive 2 = true) ∧
    ((scan 10000).lane ∈ dataLanes (s_HealthScan.port 2)) :=
  ⟨canonical_of (by decide), by decide, by decide, by decide⟩

def s_HealthScan_fails : State := portIs (linked LS.active)

theorem wit_HealthScan_fails : Canonical s_HealthScan_fails ∧ (s_HealthScan_fails.linksUp = true) ∧
    (s_HealthScan_fails.portActive 2 = true) ∧ (10000 < (scan 10001).errE8) :=
  ⟨canonical_of (by decide), by decide, by decide, by decide⟩

def s_CmisPoll : State := portIs (linked LS.active)

theorem wit_CmisPoll : Canonical s_CmisPoll ∧ (s_CmisPoll.linksUp = true) ∧ (s_CmisPoll.portOn 2 = true) :=
  ⟨canonical_of (by decide), by decide, by decide⟩

def s_ModuleSilent : State := portIs (linked LS.active)

theorem wit_ModuleSilent : Canonical s_ModuleSilent ∧ (s_ModuleSilent.linksUp = true) ∧ (s_ModuleSilent.portOn 2 = true) :=
  ⟨canonical_of (by decide), by decide, by decide⟩

def s_TimeExchange : State := portIs (linked LS.active)

theorem wit_TimeExchange : Canonical s_TimeExchange ∧ (s_TimeExchange.linksUp = true) ∧ (s_TimeExchange.portActive 2 = true) ∧
    (getF (s_TimeExchange.port 2).status lnkStatus_peerDev = getF Port.reset.status lnkStatus_peerDev) :=
  ⟨canonical_of (by decide), by decide, by decide, by decide⟩

def s_Packet_fenced : State := { routed (job DS.running) with fd := { Fd.reset with fences := [{ id := 5, status := 0, reason := 0, reporters := 0, reports := 0 }] } }

theorem wit_Packet_fenced : Canonical s_Packet_fenced ∧ (s_Packet_fenced.linksUp = true) ∧ (s_Packet_fenced.fencedPacket (pkt 5) = true) :=
  ⟨canonical_of (by decide), by decide, by decide⟩

def s_Packet_here : State := job DS.running

theorem wit_Packet_here : Canonical s_Packet_here ∧ (s_Packet_here.linksUp = true) ∧ (s_Packet_here.fencedPacket (pkt 0) = false) ∧
    ((pkt 0).dst = s_Packet_here.devId) ∧ ((s_Packet_here.seenOf 1 3).upTo ≤ (pkt 0).seq) ∧
    ((pkt 0).seq ∉ (s_Packet_here.seenOf 1 3).above) ∧ ((pkt 0).seq < (s_Packet_here.seenOf 1 3).upTo + 256) ∧ (s_Packet_here.rst.active = []) :=
  ⟨canonical_of (by decide), by decide, by decide, by decide, by decide, by decide, by decide, by decide⟩

def s_Packet_again : State := { job DS.running with fabric := { Fabric.reset with seen := [{ src := 1, route := 3, upTo := 1, above := [] }] } }

theorem wit_Packet_again : Canonical s_Packet_again ∧ (s_Packet_again.linksUp = true) ∧ (s_Packet_again.fencedPacket (pkt 0) = false) ∧
    ((pkt 0).seq < (s_Packet_again.seenOf 1 3).upTo) :=
  ⟨canonical_of (by decide), by decide, by decide, by decide⟩

def s_Packet_unreachable : State := job DS.running

theorem wit_Packet_unreachable : Canonical s_Packet_unreachable ∧ (s_Packet_unreachable.linksUp = true) ∧
    (s_Packet_unreachable.fencedPacket (pkt 5) = false) ∧ ((pkt 5).dst ≠ s_Packet_unreachable.devId) ∧
    (s_Packet_unreachable.fabric.partials = []) ∧ (s_Packet_unreachable.choosePort (pkt 5) = none) :=
  ⟨canonical_of (by decide), by decide, by decide, by decide, by decide, by decide⟩

def s_Packet_onward : State := routed (portIs (linked LS.active))

theorem wit_Packet_onward : Canonical s_Packet_onward ∧ (s_Packet_onward.linksUp = true) ∧ (s_Packet_onward.fencedPacket (pkt 5) = false) ∧
    ((pkt 5).dst ≠ s_Packet_onward.devId) ∧ (s_Packet_onward.fabric.partials = []) ∧ (s_Packet_onward.choosePort (pkt 5) = some 2) ∧
    ((s_Packet_onward.transitOf 5).any (·.dateline) = false) ∧ (State.hasRoom (s_Packet_onward.port 2) (pkt 5) = true) ∧
    (s_Packet_onward.bufferFull 2 (pkt 5) = false) ∧ ((s_Packet_onward.port 2).txc + State.bundled (pkt 5).flits / 4 < State.rekeyAt) :=
  ⟨canonical_of (by decide), by decide, by decide, by decide, by decide, by decide, by decide, by decide, by decide, by decide⟩

def s_E2eAck : State := holding (job DS.running)

theorem wit_E2eAck : Canonical s_E2eAck ∧ (s_E2eAck.linksUp = true) ∧ (s_E2eAck.fabric.held ≠ []) :=
  ⟨canonical_of (by decide), by decide, by decide⟩

def s_E2eResend : State := holding (routed (portIs (linked LS.active)))

theorem wit_E2eResend : Canonical s_E2eResend ∧ (s_E2eResend.linksUp = true) ∧
    ((s_E2eResend.fabric.held.find? (fun h => h.pk.route == 3 && h.pk.seq == 0)).map (·.pk) = some (pkt 5)) ∧
    (s_E2eResend.choosePort (pkt 5) = some 2) ∧ (s_E2eResend.fabric.held.any s_E2eResend.awaitsAck = false) :=
  ⟨canonical_of (by decide), by decide, by decide, by decide, by decide⟩

def s_E2eResend_awaits : State := { holding (routed (portIs (linked LS.active))) with fabric := { (holding (routed (portIs (linked LS.active)))).fabric with held := [{ pk := pkt 5, port := some 2, sentAt := 0, resends := 0 }] } }

theorem wit_E2eResend_awaits : Canonical s_E2eResend_awaits ∧ (s_E2eResend_awaits.linksUp = true) ∧
    ((s_E2eResend_awaits.fabric.held.find? (fun h => h.pk.route == 3 && h.pk.seq == 0)).map s_E2eResend_awaits.awaitsAck = some true) :=
  ⟨canonical_of (by decide), by decide, by decide⟩

def s_Packet_reset : State := { job DS.running with rst := { RstRegs.reset with active := [(.part 1, 0, partBound)] } }

theorem wit_Packet_reset : Canonical s_Packet_reset ∧ (s_Packet_reset.linksUp = true) ∧ (s_Packet_reset.fencedPacket (pkt 0) = false) ∧
    ((pkt 0).dst = s_Packet_reset.devId) ∧ ((s_Packet_reset.seenOf 1 3).upTo ≤ (pkt 0).seq) ∧
    ((pkt 0).seq ∉ (s_Packet_reset.seenOf 1 3).above) ∧ (s_Packet_reset.rst.active ≠ []) :=
  ⟨canonical_of (by decide), by decide, by decide, by decide, by decide, by decide, by decide⟩

def s_E2eResend_none : State := job DS.running

theorem wit_E2eResend_none : Canonical s_E2eResend_none ∧ (s_E2eResend_none.linksUp = true) ∧
    (s_E2eResend_none.fabric.held.find? (fun h => h.pk.route == 3 && h.pk.seq == 0) = none) :=
  ⟨canonical_of (by decide), by decide, by decide⟩

def s_Abort : State := { job DS.running with fabric := { Fabric.reset with partials := [{ route := 3, seq := 0, via := some 2, out := 4 }] } }

theorem wit_Abort : Canonical s_Abort ∧ (s_Abort.linksUp = true) ∧ (∃ x ∈ s_Abort.fabric.partials, x.route = 3 ∧ x.seq = 0 ∧ x.via = some 2) :=
  ⟨canonical_of (by decide), by decide, by decide⟩

def s_PortDieLoss_zero : State := portIs (linked LS.active)

theorem wit_PortDieLoss_zero : Canonical s_PortDieLoss_zero ∧ (s_PortDieLoss_zero.linksUp = true) :=
  ⟨canonical_of (by decide), by decide⟩

def s_PortDieLoss : State := (job DS.running).setPort 35 (linked LS.active)

theorem wit_PortDieLoss : Canonical s_PortDieLoss ∧ (s_PortDieLoss.linksUp = true) ∧ (1 ≤ 3 ∧ 3 < 4) :=
  ⟨canonical_of (by decide), by decide, by decide⟩

/-! Premises of PowerStates. -/

def s_PowerActive_dormant : State := powered PS.dormant DS.dormant

theorem wit_PowerActive_dormant : Canonical s_PowerActive_dormant ∧ Accepted s_PowerActive_dormant (.powerActive w1 0x580) (.pwrReq) ∧
    (s_PowerActive_dormant.devState = DS.dormant) :=
  ⟨canonical_of (by decide), accepted_of rfl (by decide +kernel), by decide⟩

def s_PowerActive : State := powered PS.idle DS.ready

theorem wit_PowerActive : Canonical s_PowerActive ∧ Accepted s_PowerActive (.powerActive w1 0x580) (.pwrReq) ∧
    (s_PowerActive.devState ≠ DS.dormant) ∧ (s_PowerActive.power = PS.idle) :=
  ⟨canonical_of (by decide), accepted_of rfl (by decide +kernel), by decide, by decide⟩

def s_PowerIdle : State := powered PS.active DS.ready

theorem wit_PowerIdle : Canonical s_PowerIdle ∧ Accepted s_PowerIdle (.powerIdle w1 0x580) (.pwrReq) ∧ (∀ b ∈ s_PowerIdle.blocks,
    s_PowerIdle.blockAnswer b = .accept) :=
  ⟨canonical_of (by decide), accepted_of rfl (by decide +kernel), by decide +kernel⟩

def s_PowerRetain : State := powered PS.active DS.paused

theorem wit_PowerRetain : Canonical s_PowerRetain ∧ Accepted s_PowerRetain (.powerRetain w1 0x580) (.pwrReq) ∧ (∀ b ∈ s_PowerRetain.blocks,
    s_PowerRetain.blockAnswer b = .accept) :=
  ⟨canonical_of (by decide), accepted_of rfl (by decide +kernel), by decide +kernel⟩

def s_PowerDormant : State := spare DS.loaded

theorem wit_PowerDormant : Canonical s_PowerDormant ∧ Accepted s_PowerDormant (.powerDormant w1 0x580) (.pwrReq) ∧
    (∀ b ∈ s_PowerDormant.blocks, s_PowerDormant.blockAnswer b = .accept) :=
  ⟨canonical_of (by decide), accepted_of rfl (by decide +kernel), by decide +kernel⟩

def s_PowerOff : State := powered PS.active DS.paused

theorem wit_PowerOff : Canonical s_PowerOff ∧ Accepted s_PowerOff (.powerOff w1 0x580) (.pwrReq) ∧ (∀ b ∈ s_PowerOff.blocks,
    s_PowerOff.blockAnswer b = .accept) :=
  ⟨canonical_of (by decide), accepted_of rfl (by decide +kernel), by decide +kernel⟩

def s_Power_refused : State := loading finalLoad (powered PS.active DS.paused)

theorem wit_Power_refused : Canonical s_Power_refused ∧ Accepted s_Power_refused (.powerRetain w1 0x580) (.pwrReq) ∧
    (blockRootstock ∈ s_Power_refused.blocks) ∧ (s_Power_refused.blockAnswer blockRootstock = .refuse 6) :=
  ⟨canonical_of (by decide), accepted_of rfl (by decide +kernel), by decide, by decide +kernel⟩

def s_Power_defers : State := (powered PS.active DS.paused).setPort 2 (linked LS.map)

theorem wit_Power_defers : Canonical s_Power_defers ∧ Accepted s_Power_defers (.powerRetain w1 0x580) (.pwrReq) ∧
    (∀ b ∈ s_Power_defers.blocks, (match s_Power_defers.blockAnswer b with | .refuse _ => false | _ => true) = true) ∧
    (∃ b ∈ s_Power_defers.blocks, s_Power_defers.blockAnswer b ≠ .accept) ∧ (getF 0x580 pwrReq_deferMax ≠ 0) :=
  ⟨canonical_of (by decide), accepted_of rfl (by decide +kernel), by decide +kernel, by decide +kernel, by decide⟩

def s_DeferReask_early : State := handshake (powered PS.active DS.ready)

theorem wit_DeferReask_early : Canonical s_DeferReask_early ∧ (s_DeferReask_early.alive = true) ∧ (s_DeferReask_early.handshaking = true) ∧
    (s_DeferReask_early.clock < s_DeferReask_early.pow.askedAt + getF s_DeferReask_early.pow.req pwrReq_deferMs * msTicks) :=
  ⟨canonical_of (by decide), by decide, by decide, by decide⟩

def s_DeferReask_mayNot : State := atTick (10 ^ 9) (handshake (powered PS.active DS.running))

theorem wit_DeferReask_mayNot : Canonical s_DeferReask_mayNot ∧ (s_DeferReask_mayNot.handshaking = true) ∧
    (s_DeferReask_mayNot.pow.askedAt + getF s_DeferReask_mayNot.pow.req pwrReq_deferMs * msTicks ≤ s_DeferReask_mayNot.clock) ∧
    (s_DeferReask_mayNot.powerMay s_DeferReask_mayNot.hsTarget = false) :=
  ⟨canonical_of (by decide), by decide, by decide, by decide⟩

def s_DeferReask : State := atTick (10 ^ 9) (handshake (powered PS.active DS.ready))

theorem wit_DeferReask : Canonical s_DeferReask ∧ (s_DeferReask.handshaking = true) ∧
    (s_DeferReask.pow.askedAt + getF s_DeferReask.pow.req pwrReq_deferMs * msTicks ≤ s_DeferReask.clock) ∧
    (s_DeferReask.powerMay s_DeferReask.hsTarget = true) ∧ (s_DeferReask.hsTarget = PS.idle) ∧ (s_DeferReask.pow.defers = []) :=
  ⟨canonical_of (by decide), by decide, by decide, by decide, by decide, by decide⟩

def s_DeferReask_none : State := powered PS.active DS.ready

theorem wit_DeferReask_none : Canonical s_DeferReask_none ∧ (s_DeferReask_none.handshaking = false) :=
  ⟨canonical_of (by decide), by decide⟩

def s_DormantWake_quiet : State := { spare DS.dormant with pow := { PowRegs.reset with table := [] } }

theorem wit_DormantWake_quiet : Canonical s_DormantWake_quiet ∧ (s_DormantWake_quiet.linksUp = true) ∧
    (s_DormantWake_quiet.devState = DS.dormant) ∧ (s_DormantWake_quiet.tableHits [] = []) :=
  ⟨canonical_of (by decide), by decide, by decide, by decide⟩

def s_DormantWake_wakes : State := { spare DS.dormant with pow := { PowRegs.reset with table := [(3, wordOf [(dormantTable_valid, 1), (dormantTable_source, 1), (dormantTable_threshold, 9), (dormantTable_action, 3)])] } }

theorem wit_DormantWake_wakes : Canonical s_DormantWake_wakes ∧ (s_DormantWake_wakes.linksUp = true) ∧
    (s_DormantWake_wakes.devState = DS.dormant) ∧ (s_DormantWake_wakes.tableHits [0, 10] = [3]) ∧
    (getF (Sparse.get 0 s_DormantWake_wakes.pow.table 3) dormantTable_action = 3) :=
  ⟨canonical_of (by decide), by decide, by decide, by decide, by decide⟩

def s_DormantWake_other : State := job DS.running

theorem wit_DormantWake_other : Canonical s_DormantWake_other ∧ (s_DormantWake_other.devState ≠ DS.dormant) :=
  ⟨canonical_of (by decide), by decide⟩

/-! Premises of RailsAndThermal. -/

def s_AvsTimeout : State := railing [(railStatus_settling, 1)] Part.reset

theorem wit_AvsTimeout : Canonical s_AvsTimeout ∧ (s_AvsTimeout.alive = true) ∧ (s_AvsTimeout.railBit railStatus_settling 0 = true) ∧
    ((s_AvsTimeout.part 0).avsRetried = false) :=
  ⟨canonical_of (by decide), by decide, by decide, by decide⟩

def s_AvsTimeout_again : State := railing [(railStatus_settling, 1)] { Part.reset with avsRetried := true }

theorem wit_AvsTimeout_again : Canonical s_AvsTimeout_again ∧ (s_AvsTimeout_again.alive = true) ∧
    (s_AvsTimeout_again.railBit railStatus_settling 0 = true) ∧ ((s_AvsTimeout_again.part 0).avsRetried = true) :=
  ⟨canonical_of (by decide), by decide, by decide, by decide⟩

def s_AvsVdone : State := railing [(railStatus_settling, 1)] Part.reset

theorem wit_AvsVdone : Canonical s_AvsVdone ∧ (s_AvsVdone.alive = true) ∧ (s_AvsVdone.railBit railStatus_settling 0 = true) ∧
    ((s_AvsVdone.part 0).queued = none) :=
  ⟨canonical_of (by decide), by decide, by decide, by decide⟩

def s_AvsVdone_queued : State := railing [(railStatus_settling, 1)] { Part.reset with queued := some 0x28 }

theorem wit_AvsVdone_queued : Canonical s_AvsVdone_queued ∧ (s_AvsVdone_queued.alive = true) ∧
    ((s_AvsVdone_queued.part 0).queued = some 0x28) ∧ (0x28 ≠ (s_AvsVdone_queued.part 0).rail) ∧
    (s_AvsVdone_queued.railBit railStatus_off 0 = false) ∧ (s_AvsVdone_queued.pow.pinLost = false) ∧ ((s_AvsVdone_queued.part 0).hot = false) :=
  ⟨canonical_of (by decide), by decide, by decide, by decide, by decide, by decide, by decide⟩

def s_AvsVdone_hot : State := railing [(railStatus_settling, 1)] { Part.reset with queued := some 0x78, hot := true }

theorem wit_AvsVdone_hot : Canonical s_AvsVdone_hot ∧ (s_AvsVdone_hot.alive = true) ∧ ((s_AvsVdone_hot.part 0).queued = some 0x78) ∧
    (s_AvsVdone_hot.railBit railStatus_off 0 = false) ∧ (s_AvsVdone_hot.pow.pinLost = false) ∧ ((s_AvsVdone_hot.part 0).hot = true) ∧
    ((s_AvsVdone_hot.part 0).rail < 0x78) :=
  ⟨canonical_of (by decide), by decide, by decide, by decide, by decide, by decide, by decide⟩

def s_Avs_none : State := railing [] Part.reset

theorem wit_Avs_none : Canonical s_Avs_none ∧ (s_Avs_none.alive = true) ∧ (s_Avs_none.railBit railStatus_settling 0 = false) :=
  ⟨canonical_of (by decide), by decide, by decide⟩

def s_ReadPin : State := powered PS.active DS.running

theorem wit_ReadPin : Canonical s_ReadPin ∧ (s_ReadPin.alive = true) ∧ (s_ReadPin.power = PS.active) ∧ (s_ReadPin.devState ≠ DS.dormant) ∧
    (s_ReadPin.sustainW < 65535) ∧ (s_ReadPin.pow.excursionAt = none) :=
  ⟨canonical_of (by decide), by decide, by decide, by decide, by decide, by decide⟩

def s_ReadPinLoss_early : State := job DS.running

theorem wit_ReadPinLoss_early : Canonical s_ReadPinLoss_early ∧ (s_ReadPinLoss_early.alive = true) ∧
    (s_ReadPinLoss_early.clock < s_ReadPinLoss_early.pow.lastGoodPin + 10 * msTicks) :=
  ⟨canonical_of (by decide), by decide, by decide⟩

def s_ReadPinLoss : State := atTick (10 * msTicks) (job DS.running)

theorem wit_ReadPinLoss : Canonical s_ReadPinLoss ∧ (s_ReadPinLoss.alive = true) ∧
    (s_ReadPinLoss.pow.lastGoodPin + 10 * msTicks ≤ s_ReadPinLoss.clock) ∧ (s_ReadPinLoss.railBit railStatus_off 0 = false) :=
  ⟨canonical_of (by decide), by decide, by decide, by decide⟩

def s_Telemetry : State := job DS.running

theorem wit_Telemetry : Canonical s_Telemetry ∧ (s_Telemetry.alive = true) :=
  ⟨canonical_of (by decide), by decide⟩

def s_Balancing : State := job DS.running

theorem wit_Balancing : Canonical s_Balancing ∧ (s_Balancing.alive = true) ∧ (s_Balancing.devState = DS.running) ∧
    (s_Balancing.pendingOn 7 = []) ∧ (s_Balancing.asks 7 = false) :=
  ⟨canonical_of (by decide), by decide, by decide, by decide, by decide⟩

def s_Balancing_asked : State := { job DS.running with dev := { (job DS.running).dev with dutyMap := 0x80 } }

theorem wit_Balancing_asked : Canonical s_Balancing_asked ∧ (s_Balancing_asked.alive = true) ∧ (s_Balancing_asked.devState = DS.running) ∧
    (s_Balancing_asked.pendingOn 7 = []) ∧ (s_Balancing_asked.asks 7 = true) :=
  ⟨canonical_of (by decide), by decide, by decide, by decide, by decide⟩

def s_Balancing_none : State := job DS.ready

theorem wit_Balancing_none : Canonical s_Balancing_none ∧ (s_Balancing_none.alive = true) ∧ (s_Balancing_none.devState ≠ DS.running) :=
  ⟨canonical_of (by decide), by decide, by decide⟩

def s_Throttle : State := job DS.running

theorem wit_Throttle : Canonical s_Throttle ∧ (s_Throttle.alive = true) ∧ (getF s_Throttle.pow.therm thermLimits_tjThrottle < 120) :=
  ⟨canonical_of (by decide), by decide, by decide⟩

def s_Throttle_ends : State := railing [] { Part.reset with hot := true }

theorem wit_Throttle_ends : Canonical s_Throttle_ends ∧ (s_Throttle_ends.alive = true) ∧
    (87 + 3 ≤ getF s_Throttle_ends.pow.therm thermLimits_tjThrottle) ∧ (80 + 3 ≤ getF s_Throttle_ends.pow.therm thermLimits_hbmThrottle) :=
  ⟨canonical_of (by decide), by decide, by decide, by decide⟩

def s_ThermalTrip : State := job DS.running

theorem wit_ThermalTrip : Canonical s_ThermalTrip ∧ (s_ThermalTrip.alive = true) :=
  ⟨canonical_of (by decide), by decide⟩

/-! Premises of BringUp. -/

def s_PowerUp : State := pinned (fun p => { p with pwrEn := false, railsOn := false }) State.reset

theorem wit_PowerUp : Canonical s_PowerUp ∧ (s_PowerUp.pins.pwrEn = false) ∧ (s_PowerUp.pins.resetN = true) :=
  ⟨canonical_of (by decide), by decide, by decide⟩

def s_PowerDown : State := job DS.running

theorem wit_PowerDown : Canonical s_PowerDown ∧ (s_PowerDown.pins.railsOn = true) :=
  ⟨canonical_of (by decide), by decide⟩

def s_ResetN : State := job DS.running

theorem wit_ResetN : Canonical s_ResetN ∧ (s_ResetN.pins.railsOn = true) :=
  ⟨canonical_of (by decide), by decide⟩

def s_ResetNRelease : State := pinned (fun p => { p with resetN := false }) State.reset

theorem wit_ResetNRelease : Canonical s_ResetNRelease ∧ (s_ResetNRelease.pins.resetN = false) ∧ (s_ResetNRelease.pins.railsOn = true) :=
  ⟨canonical_of (by decide), by decide, by decide⟩

def s_Stage1 : State := staged 1

theorem wit_Stage1 : Canonical s_Stage1 ∧ (s_Stage1.alive = true) ∧ (s_Stage1.boot.rooted = false) ∧ (s_Stage1.inStage 1 = true) ∧
    (fwOk s_Stage1.flash s_Stage1.flash.fwA = true) ∧ (s_Stage1.flash.fwB.svn ≤ s_Stage1.flash.fwA.svn) :=
  ⟨canonical_of (by decide), by decide, by decide, by decide, by decide, by decide⟩

def s_Stage1_copyB : State := staged 1 (fun f => { f with fwB := fw 3 })

theorem wit_Stage1_copyB : Canonical s_Stage1_copyB ∧ (s_Stage1_copyB.inStage 1 = true) ∧
    (fwOk s_Stage1_copyB.flash s_Stage1_copyB.flash.fwB = true) ∧ (s_Stage1_copyB.flash.fwA.svn < s_Stage1_copyB.flash.fwB.svn) :=
  ⟨canonical_of (by decide), by decide, by decide, by decide⟩

def s_Stage1_noCopy : State := staged 1 noFw

theorem wit_Stage1_noCopy : Canonical s_Stage1_noCopy ∧ (s_Stage1_noCopy.inStage 1 = true) ∧
    (fwOk s_Stage1_noCopy.flash s_Stage1_noCopy.flash.fwA = false) ∧ (fwOk s_Stage1_noCopy.flash s_Stage1_noCopy.flash.fwB = false) :=
  ⟨canonical_of (by decide), by decide, by decide, by decide⟩

def s_Stage1_late : State := staged 1

theorem wit_Stage1_late : Canonical s_Stage1_late ∧ (s_Stage1_late.inStage 1 = true) :=
  ⟨canonical_of (by decide), by decide⟩

def s_Stage2 : State := staged 2

theorem wit_Stage2 : Canonical s_Stage2 ∧ (s_Stage2.inStage 2 = true) ∧ (st2.ms ≤ 50) ∧ (s_Stage2.pins.refclkLost = false) :=
  ⟨canonical_of (by decide), by decide, by decide, by decide⟩

def s_Stage3 : State := staged 3

theorem wit_Stage3 : Canonical s_Stage3 ∧ (s_Stage3.inStage 3 = true) ∧ (st3.ms ≤ 2000) :=
  ⟨canonical_of (by decide), by decide, by decide⟩

def s_Stage4 : State := staged 4

theorem wit_Stage4 : Canonical s_Stage4 ∧ (s_Stage4.inStage 4 = true) ∧ (s_Stage4.flash.retired = false) ∧ (0 ∈ s_Stage4.stage4Ports) :=
  ⟨canonical_of (by decide), by decide, by decide, by decide⟩

def s_Stage4_retired : State := staged 4 (fun f => { f with retired := true })

theorem wit_Stage4_retired : Canonical s_Stage4_retired ∧ (s_Stage4_retired.inStage 4 = true) ∧ (s_Stage4_retired.flash.retired = true) :=
  ⟨canonical_of (by decide), by decide, by decide⟩

def s_Stage5_late : State := staged 5

theorem wit_Stage5_late : Canonical s_Stage5_late ∧ (s_Stage5_late.inStage 5 = true) ∧ (s_Stage5_late.devState = DS.linked) :=
  ⟨canonical_of (by decide), by decide, by decide⟩

def s_Stage5_unlicensed : State := staged 5 (fun f => { f with licence := none })

theorem wit_Stage5_unlicensed : Canonical s_Stage5_unlicensed ∧ (s_Stage5_unlicensed.inStage 5 = true) ∧
    (s_Stage5_unlicensed.devState = DS.linked) ∧ (s_Stage5_unlicensed.goodLicence = none) :=
  ⟨canonical_of (by decide), by decide, by decide, by decide⟩

def s_Stage5 : State := staged 5

theorem wit_Stage5 : Canonical s_Stage5 ∧ (s_Stage5.inStage 5 = true) ∧ (s_Stage5.devState = DS.linked) ∧
    (s_Stage5.goodLicence = some Lic.factory) ∧ (∀ p < 8,
    licTiles Lic.factory ≤ ((((s_Stage5.setMs 5 1000).countPass).decideSites fullUnits (s_Stage5.withMarch [])).usableSites p).length) :=
  ⟨canonical_of (by decide), by decide, by decide, by decide, by decide +kernel⟩

def s_Stage5_short : State := staged 5 (fun f => { f with fuseBad := (List.range 20).map (fun x => (3, x, 14)) })

theorem wit_Stage5_short : Canonical s_Stage5_short ∧ (s_Stage5_short.inStage 5 = true) ∧ (s_Stage5_short.devState = DS.linked) ∧
    (s_Stage5_short.goodLicence = some Lic.factory) ∧ (∃ p < 8,
    ((((s_Stage5_short.setMs 5 1000).countPass).decideSites fullUnits (s_Stage5_short.withMarch [])).usableSites p).length < licTiles Lic.factory) :=
  ⟨canonical_of (by decide), by decide, by decide, by decide, by decide +kernel⟩

def s_Budget : State := staged 1

theorem wit_Budget : Canonical s_Budget ∧ (s_Budget.inStage 1 = true) :=
  ⟨canonical_of (by decide), by decide⟩

def s_Budget_five : State := staged 5

theorem wit_Budget_five : Canonical s_Budget_five ∧ (s_Budget_five.inStage 5 = true) :=
  ⟨canonical_of (by decide), by decide⟩

def s_Budget_four : State := staged 4

theorem wit_Budget_four : Canonical s_Budget_four ∧ (s_Budget_four.inStage 4 = true) ∧ (s_Budget_four.flash.retired = false) :=
  ⟨canonical_of (by decide), by decide, by decide⟩

def s_RecoveryBegin : State := recovering none

theorem wit_RecoveryBegin : Canonical s_RecoveryBegin ∧ (s_RecoveryBegin.recovering = true) :=
  ⟨canonical_of (by decide), by decide⟩

def s_RecoveryData : State := recovering (some (4, []))

theorem wit_RecoveryData : Canonical s_RecoveryData ∧ (s_RecoveryData.recovering = true) ∧ (s_RecoveryData.i3c.recovery = some (4, [])) :=
  ⟨canonical_of (by decide), by decide, by decide⟩

def s_RecoveryEnd : State := recovering (some (4, []))

theorem wit_RecoveryEnd : Canonical s_RecoveryEnd ∧ (s_RecoveryEnd.recovering = true) ∧ (s_RecoveryEnd.i3c.recovery.isSome = true) ∧
    (s_RecoveryEnd.flash.fuseSvn ≤ (fw 1).svn) :=
  ⟨canonical_of (by decide), by decide, by decide, by decide⟩

/-! Premises of ModuleSignals. -/

def s_Input_low : State := job DS.running

theorem wit_Input_low : Canonical s_Input_low ∧ (s_Input_low.pins.railsOn = true) :=
  ⟨canonical_of (by decide), by decide⟩

def s_Input_high : State := job DS.running

theorem wit_Input_high : Canonical s_Input_high ∧ (s_Input_high.pins.railsOn = true) :=
  ⟨canonical_of (by decide), by decide⟩

def s_Rail_short : State := job DS.running

theorem wit_Rail_short : Canonical s_Rail_short ∧ (s_Rail_short.pins.railsOn = true) :=
  ⟨canonical_of (by decide), by decide⟩

def s_Addresses : State := job DS.running

theorem wit_Addresses : Canonical s_Addresses ∧ (s_Addresses.pins.railsOn = true) :=
  ⟨canonical_of (by decide), by decide⟩

def s_Sense : State := job DS.running

theorem wit_Sense : Canonical s_Sense ∧ (s_Sense.alive = true) ∧ (s_Sense.pins.senseOpen = false) :=
  ⟨canonical_of (by decide), by decide, by decide⟩

def s_Sideband : State := job DS.running

theorem wit_Sideband : Canonical s_Sideband ∧ (s_Sideband.alive = true) ∧ (OutPin.pwrGood ∉ s_Sideband.pins.shorted) :=
  ⟨canonical_of (by decide), by decide, by decide⟩

def s_Refclk_lost : State := job DS.running

theorem wit_Refclk_lost : Canonical s_Refclk_lost ∧ (s_Refclk_lost.pins.railsOn = true) :=
  ⟨canonical_of (by decide), by decide⟩

def s_Refclk : State := pinned (fun p => { p with refclkLost := true }) (job DS.running)

theorem wit_Refclk : Canonical s_Refclk ∧ (s_Refclk.alive = true) ∧ (s_Refclk.pins.refclkLost = true) ∧ (s_Refclk.pins.refclkDead = false) :=
  ⟨canonical_of (by decide), by decide, by decide, by decide⟩

def s_Refclk_dead : State := pinned (fun p => { p with refclkLost := true, refclkDead := true }) (job DS.running)

theorem wit_Refclk_dead : Canonical s_Refclk_dead ∧ (s_Refclk_dead.pins.refclkLost = true) ∧ (s_Refclk_dead.pins.refclkDead = true) :=
  ⟨canonical_of (by decide), by decide, by decide⟩

def s_Pps : State := { job DS.running with time := { TimeRegs.reset with syncCtl := setF 0 tsSyncCtl_ppsEn 1, count := 77 } }

theorem wit_Pps : Canonical s_Pps ∧ (s_Pps.alive = true) ∧ (s_Pps.isJobHead = true) ∧ (flagF s_Pps.time.syncCtl tsSyncCtl_ppsEn = true) :=
  ⟨canonical_of (by decide), by decide, by decide, by decide⟩

def s_Pps_member : State := jobAs 1 DS.running

theorem wit_Pps_member : Canonical s_Pps_member ∧ (s_Pps_member.isJobHead = false) :=
  ⟨canonical_of (by decide), by decide⟩

def s_PpsLoss_early : State := pinned (fun p => { p with ppsAt := some 0 }) (job DS.running)

theorem wit_PpsLoss_early : Canonical s_PpsLoss_early ∧ (s_PpsLoss_early.pins.ppsAt = some 0) ∧ (s_PpsLoss_early.clock < 0 + 2 * secTicks) :=
  ⟨canonical_of (by decide), by decide, by decide⟩

def s_PpsLoss : State := atTick (2 * secTicks) (pinned (fun p => { p with ppsAt := some 0 }) (job DS.running))

theorem wit_PpsLoss : Canonical s_PpsLoss ∧ (s_PpsLoss.pins.ppsAt = some 0) ∧ (0 + 2 * secTicks ≤ s_PpsLoss.clock) :=
  ⟨canonical_of (by decide), by decide, by decide⟩

/-! Premises of Ethernet. -/

def s_Eth_up : State := up DS.ready

theorem wit_Eth_up : (s_Eth_up.alive = true) ∧ (s_Eth_up.boot.rooted = true) ∧ (flagF (s_Eth_up.eth 0).ctl ethPortCtl_enable = true) :=
  ⟨by decide, by decide, by decide⟩

def s_Eth_disabled : State := ethernet ethNone 0 none

theorem wit_Eth_disabled : (flagF (s_Eth_disabled.eth 0).ctl ethPortCtl_enable = false) := by decide

def s_Eth_down : State := ethernet ethCtl (setF ethSt ethStatus_flaps 255) none

theorem wit_Eth_down : (flagF (s_Eth_down.eth 0).status ethStatus_up = true) := by decide

def s_Eth_router : State := ethernet ethCtl ethSt none

theorem wit_Eth_router : (s_Eth_router.alive = true) ∧ (s_Eth_router.ethUp 0 = true) ∧ (flagF (s_Eth_router.eth 0).ctl ethPortCtl_slaac = true) :=
  ⟨by decide, by decide, by decide⟩

def s_Eth_noRouter : State := ethernet ethNone ethSt none

theorem wit_Eth_noRouter : (s_Eth_noRouter.ethUp 0 = true) ∧ (flagF (s_Eth_noRouter.eth 0).ctl ethPortCtl_slaac = false) :=
  ⟨by decide, by decide⟩

def s_Eth_answers : State := ethernet ethCtl ethSt (some 9)

theorem wit_Eth_answers : (s_Eth_answers.ethUp 0 = true) ∧ (0xfe80 * 2 ^ 112 + 5 ∈ (s_Eth_answers.eth 0).addrs) ∧
    (onLink4 (s_Eth_answers.eth 0) 0x0a000007 = true) ∧ ((s_Eth_answers.eth 0).router.isSome = true) ∧
    (getF (s_Eth_answers.eth 0).ctl ethPortCtl_ipv4 = 0x0a000001) :=
  ⟨by decide, by decide, by decide, by decide, by decide⟩

def s_Eth_silent : State := ethernet ethCtl 0 none

theorem wit_Eth_silent : (s_Eth_silent.ethUp 0 = false) := by decide

end Sys2Proof.Tests
end

/-!
PROOFS. What every command and every step keeps: one arm per command, each citing the lemma of Laws/Keeps for the
operation that the command runs. The statements of the scope that speak of every step follow from it.
-/
namespace Sys2Proof.Machine

/-- The outcome is a next state that keeps what no command touches or breaks. -/
def AnswersKeeping (s : State) (o : Host.Outcome State Fault Refusal) : Prop := ∃ t, o = .next t ∧ Keeps s t

theorem AnswersKeeping.of {s t : State} (h : Keeps s t) : AnswersKeeping s (.next t) := ⟨t, rfl, h⟩

/-- Every command answers a next state, with the queue, the canonical forms and a legal device state kept. -/
theorem exec_answersKeeping : ∀ (c : Instr) (s : State), AnswersKeeping s (exec c s)
  | .load _ _ _, s => .of (State.load_keeps (.refl s) ..)
  | .pass _ _ _, s => .of (State.pass_keeps (.refl s) ..)
  | .swap _ _, s => .of (State.swap_keeps (.refl s) ..)
  | .passDrained _ _, s => .of (State.passDrained_keeps (.refl s) ..)
  | .drain _ _ _, s => .of (State.drain_keeps (.refl s) ..)
  | .row _ _ _ _, s => .of (State.row_keeps (.refl s) ..)
  | .spanRecompute _ _ _, s => .of (State.spanRecompute_keeps (.refl s) ..)
  | .vecFp32Elementwise _ _, s => .of (State.vecFp32Elementwise_keeps (.refl s) ..)
  | .update _ _, s => .of (State.update_keeps (.refl s) ..)
  | .transposeConversion _ _, s => .of (State.transposeConversion_keeps (.refl s) ..)
  | .compress _ _, s => .of (State.compress_keeps (.refl s) ..)
  | .dwAccumulate _ _, s => .of (State.dwAccumulate_keeps (.refl s) ..)
  | .amaxAndFiniteCount _ _, s => .of (State.amaxAndFiniteCount_keeps (.refl s) ..)
  | .conversion _ _, s => .of (State.conversion_keeps (.refl s) ..)
  | .compareCombine _ _, s => .of (State.compareCombine_keeps (.refl s) ..)
  | .move _ _ _, s => .of (State.move_keeps (.refl s) ..)
  | .transferComplete _ _ _, s => .of (State.transferComplete_keeps (.refl s) ..)
  | .copyOnWrite _ _ _, s => .of (State.copyOnWrite_keeps (.refl s) ..)
  | .syncSet _, s => .of (State.syncSet_keeps (.refl s) ..)
  | .syncInc _, s => .of (State.syncInc_keeps (.refl s) ..)
  | .syncWait _, s => .of (State.syncWait_keeps (.refl s) ..)
  | .waitSatisfied _, s => .of (State.waitSatisfied_keeps (.refl s) ..)
  | .loopBegin _, s => .of (State.loopBegin_keeps (.refl s) ..)
  | .loopEnd _, s => .of (State.loopEnd_keeps (.refl s) ..)
  | .branchOnLoopCount _, s => .of (State.branchOnLoopCount_keeps (.refl s) ..)
  | .predicate _ _ _, s => .of (State.predicate_keeps (.refl s) ..)
  | .endOfPhase _, s => .of (State.endOfPhase_keeps (.refl s) ..)
  | .mark _ _, s => .of (State.mark_keeps (.refl s) ..)
  | .tileHeartbeat _, s => .of (State.tileHeartbeat_keeps (.refl s) ..)
  | .tileGraft _ _, s => .of (State.tileGraft_keeps (.refl s) ..)
  | .bistStart _ _ _, s => .of (State.regCommand_keeps (.refl s) ..)
  | .selfTestComplete _ _ _, s => .of (State.selfTestComplete_keeps (.refl s) ..)
  | .funcTableAccess _ _ _, s => .of (State.regCommand_keeps (.refl s) ..)
  | .partialFrame _ _, s => .of (State.partialFrame_keeps (.refl s) ..)
  | .dataFeed _ _ _ _ _ _, s => .of (State.dataFeed_keeps (.refl s) ..)
  | .verdictReport, s => .of (State.verdictReport_keeps (.refl s) ..)
  | .verdict _ _ _, s => .of (State.verdictIn_keeps (.refl s) ..)
  | .stepCheck _ _, s => .of (State.stepCheck_keeps (.refl s) ..)
  | .checkReport _, s => .of (State.checkReport_keeps (.refl s) ..)
  | .agreementDeadline _ _, s => .of (State.agreementDeadline_keeps (.refl s) ..)
  | .commit _ _, s => .of (State.commitIn_keeps (.refl s) ..)
  | .evaluationEnd, s => .of (State.evaluationEnd_keeps (.refl s) ..)
  | .rollback _ _ _, s => .of (State.rollbackIn_keeps (.refl s) ..)
  | .replayStart, s => .of (State.replayStart_keeps (.refl s) ..)
  | .rackPage _ _ _ _, s => .of (State.rackPageIn_keeps (.refl s) ..)
  | .rackDigest _ _ _ _, s => .of (State.rackDigestIn_keeps (.refl s) ..)
  | .rackAck _ _ _ _, s => .of (State.rackAckIn_keeps (.refl s) ..)
  | .decisionAns _ _ _ _, s => .of (State.decisionAns_keeps (.refl s) ..)
  | .dutyDeadlineExpiry _, s => .of (State.deadlinePasses_keeps (.refl s) ..)
  | .ledgerPull _ _ _ _, s => .of (State.ledgerPull_keeps (.refl s) ..)
  | .checkpointObjectAck _ _, s => .of (State.objectAck_keeps (.refl s) ..)
  | .checkpointObjectTimeout _, s => .of (State.objectTimeout_keeps (.refl s) ..)
  | .checkpointDeadline, s => .of (State.ckptDeadline_keeps (.refl s) ..)
  | .manifestWrite, s => .of (State.manifestWrite_keeps (.refl s) ..)
  | .start _, s => .of (State.start_keeps (.refl s) ..)
  | .resume _, s => .of (State.resume_keeps (.refl s) ..)
  | .pause _, s => .of (State.pause_keeps (.refl s) ..)
  | .eval _, s => .of (State.eval_keeps (.refl s) ..)
  | .ckpt _, s => .of (State.ckpt_keeps (.refl s) ..)
  | .restore _ _, s => .of (State.restore_keeps (.refl s) ..)
  | .restoreCommit _ _ _ _, s => .of (State.restoreCommit_keeps (.refl s) ..)
  | .endJob _, s => .of (State.endJob_keeps (.refl s) ..)
  | .evalReq _ _, s => .of (State.regCommand_keeps (.refl s) ..)
  | .pauseReq _ _, s => .of (State.regCommand_keeps (.refl s) ..)
  | .epochStart, s => .of (State.epochStart_keeps (.refl s) ..)
  | .imageLoad _ _ _ _, s => .of (State.imageLoad_keeps (.refl s) ..)
  | .imageCommit, s => .of (State.imageCommit_keeps (.refl s) ..)
  | .beatSend, s => .of (State.beatSend_keeps (.refl s) ..)
  | .beat _ _ _ _, s => .of (State.beatIn_keeps (.refl s) ..)
  | .beatMiss _, s => .of (State.beatMiss_keeps (.refl s) ..)
  | .report _ _ _, s => .of (State.report_keeps (.refl s) ..)
  | .reportWaitExpiry _, s => .of (State.reportWait_keeps (.refl s) ..)
  | .selfFail _ _ _, s => .of (State.selfFailIn_keeps (.refl s) ..)
  | .fence _, s => .of (State.fenceAll_keeps (.refl s) ..)
  | .wake _ _ _ _, s => .of (State.wakeIn_keeps (.refl s) ..)
  | .deviceSelfTest _ _ _, s => .of (State.deviceSelfTest_keeps (.refl s) ..)
  | .stateLoad _ _ _ _ _, s => .of (State.stateLoad_keeps (.refl s) ..)
  | .takeOver _ _, s => .of (State.takeOver_keeps (.refl s) ..)
  | .graftDone _ _ _ _, s => .of (State.graftDone_keeps (.refl s) ..)
  | .planned _ _, s => .of (State.graftCommand_keeps (.refl s) ..)
  | .hostFence _ _, s => .of (State.graftCommand_keeps (.refl s) ..)
  | .admitDevice _ _, s => .of (State.graftCommand_keeps (.refl s) ..)
  | .admissionTestComplete _ _ _ _, s => .of (State.admissionDone_keeps (.refl s) ..)
  | .hang _ _, s => .of (State.hangIn_keeps (.refl s) ..)
  | .replayDeadlineExpiry, s => .of (State.replayDeadline_keeps (.refl s) ..)
  | .tileUnitWatchdog _ _, s => .of (State.tileUnitWatchdog_keeps (.refl s) ..)
  | .heartbeatWatchdog _, s => .of (State.heartbeatWatchdog_keeps (.refl s) ..)
  | .collectiveWaitExpiry _ _, s => .of (State.collectiveWaitExpiry_keeps (.refl s) ..)
  | .memoryPortWatchdog _ _ _, s => .of (State.memoryPortWatchdog_keeps (.refl s) ..)
  | .routerWatchdog _ _, s => .of (State.routerWatchdog_keeps (.refl s) ..)
  | .rootstockWatchdog _, s => .of (State.rootstockWatchdog_keeps (.refl s) ..)
  | .resetTimeout _, s => .of (State.resetTimeout_keeps (.refl s) ..)
  | .resetComplete _ _, s => .of (State.resetComplete_keeps (.refl s) ..)
  | .compute _ _, s => .of (State.regCommand_keeps (.refl s) ..)
  | .retireClear _ _, s => .of (State.regCommand_keeps (.refl s) ..)
  | .partResetGo _ _ _, s => .of (State.regCommand_keeps (.refl s) ..)
  | .fenceCtlFence _ _ _, s => .of (State.regCommand_keeps (.refl s) ..)
  | .flitBundle _ _ _, s => .of (State.flitBundle_keeps (.refl s) ..)
  | .nakResend _ _, s => .of (State.nakResend_keeps (.refl s) ..)
  | .keepaliveSend _, s => .of (State.keepaliveSend_keeps (.refl s) ..)
  | .keepalive _ _ _ _ _ _ _, s => .of (State.keepaliveIn_keeps (.refl s) ..)
  | .keepaliveMiss _, s => .of (State.keepaliveMiss_keeps (.refl s) ..)
  | .retrainTimeout _, s => .of (State.retrainTimeout_keeps (.refl s) ..)
  | .retrainComplete _, s => .of (State.retrainComplete_keeps (.refl s) ..)
  | .detectTimeout _ _, s => .of (State.detectTimeout_keeps (.refl s) ..)
  | .train _ _, s => .of (State.train_keeps (.refl s) ..)
  | .laneShort _ _, s => .of (State.laneShort_keeps (.refl s) ..)
  | .fecLock _, s => .of (State.fecLock_keeps (.refl s) ..)
  | .linkKeyExchange _ _, s => .of (State.linkKeyExchange_keeps (.refl s) ..)
  | .laneFailure _ _ _, s => .of (State.laneFailure_keeps (.refl s) ..)
  | .dampingRelease _ _, s => .of (State.dampingRelease_keeps (.refl s) ..)
  | .healthScan _ _, s => .of (State.healthScan_keeps (.refl s) ..)
  | .cmisPoll _ _ _, s => .of (State.cmisPoll_keeps (.refl s) ..)
  | .moduleSilent _, s => .of (State.moduleSilent_keeps (.refl s) ..)
  | .timeExchange _ _ _ _ _ _ _, s => .of (State.timeExchange_keeps (.refl s) ..)
  | .packetForward _ _, s => .of (State.packetForward_keeps (.refl s) ..)
  | .e2eAck _ _, s => .of (State.e2eAck_keeps (.refl s) ..)
  | .e2eResend _ _, s => .of (State.e2eResend_keeps (.refl s) ..)
  | .abort _ _ _, s => .of (State.abortIn_keeps (.refl s) ..)
  | .qualify _ _ _, s => .of (State.regCommand_keeps (.refl s) ..)
  | .retrain _ _ _, s => .of (State.regCommand_keeps (.refl s) ..)
  | .disable _ _ _, s => .of (State.regCommand_keeps (.refl s) ..)
  | .hello _ _, s => .of (State.hello_keeps (.refl s) ..)
  | .finish _ _, s => .of (State.keyFinish_keeps (.refl s) ..)
  | .wrapped _ _, s => .of (State.wrapped_keeps (.refl s) ..)
  | .erase _ _, s => .of (State.erase_keeps (.refl s) ..)
  | .licence _ _ _ _, s => .of (State.licence_keeps (.refl s) ..)
  | .debugToken _ _ _ _ _, s => .of (State.debugToken_keeps (.refl s) ..)
  | .pendingSessionTimeout _, s => .of (State.pendingTimeout_keeps (.refl s) ..)
  | .sessionIdleTimeout _, s => .of (State.idleTimeout_keeps (.refl s) ..)
  | .attestReport _ _, s => .of (State.attestReport_keeps (.refl s) ..)
  | .attestReadReport _ _ _, s => .of (State.attestReadReport_keeps (.refl s) ..)
  | .attestReadChain _ _ _, s => .of (State.attestReadChain_keeps (.refl s) ..)
  | .sealRenew _ _, s => .of (State.regCommand_keeps (.refl s) ..)
  | .relock _ _, s => .of (State.regCommand_keeps (.refl s) ..)
  | .regRead _ _, s => .of (State.regRead_keeps (.refl s) ..)
  | .regWrite _ _, s => .of (State.regWrite_keeps (.refl s) ..)
  | .bulkWrite _ _ _ _ _ _, s => .of (State.bulkWrite_keeps (.refl s) ..)
  | .bulkRead _ _ _ _ _ _, s => .of (State.bulkRead_keeps (.refl s) ..)
  | .ack _ _, s => .of (State.ackIn_keeps (.refl s) ..)
  | .nak _ _ _, s => .of (State.nakIn_keeps (.refl s) ..)
  | .eventRetransmit _ _, s => .of (State.retransmit_keeps (.refl s) ..)
  | .devIdAssign _ _, s => .of (State.regCommand_keeps (.refl s) ..)
  | .softClear _ _, s => .of (State.regCommand_keeps (.refl s) ..)
  | .dormantTableWrite _ _, s => .of (State.regCommand_keeps (.refl s) ..)
  | .powerActive _ _, s => .of (State.powerCommand_keeps (.refl s) ..)
  | .powerIdle _ _, s => .of (State.powerCommand_keeps (.refl s) ..)
  | .powerRetain _ _, s => .of (State.powerCommand_keeps (.refl s) ..)
  | .powerDormant _ _, s => .of (State.powerCommand_keeps (.refl s) ..)
  | .powerOff _ _, s => .of (State.powerCommand_keeps (.refl s) ..)
  | .deferReask, s => .of (State.deferReask_keeps (.refl s) ..)
  | .dormantWake _, s => .of (State.dormantWake_keeps (.refl s) ..)
  | .avsTimeout _, s => .of (State.avsTimeout_keeps (.refl s) ..)
  | .readPinSample _ _, s => .of (State.pinSample_keeps (.refl s) ..)
  | .readPinLoss, s => .of (State.pinLoss_keeps (.refl s) ..)
  | .pmbusTelemetry _, s => .of (State.telemetry_keeps (.refl s) ..)
  | .balancingLoop _, s => .of (State.balancing_keeps (.refl s) ..)
  | .thermalThrottle _ _ _, s => .of (State.thermalThrottle_keeps (.refl s) ..)
  | .thermalTrip _, s => .of (State.thermalTrip_keeps (.refl s) ..)
  | .patrolScrub _ _ _ _ _, s => .of (State.patrolScrub_keeps (.refl s) ..)
  | .stackTemperatureReadout _ _ _, s => .of (State.stackTemperature_keeps (.refl s) ..)
  | .refreshManagement _ _, s => .of (.refl s)
  | .powerUp, s => .of (State.powerUp_keeps (.refl s) ..)
  | .powerDown, s => .of (State.powerDown_keeps (.refl s) ..)
  | .resetN, s => .of (State.resetLow_keeps (.refl s) ..)
  | .stage1FirmwareAndLicence _, s => .of (State.stage1_keeps (.refl s) ..)
  | .stage2Clocks _, s => .of (State.stage2_keeps (.refl s) ..)
  | .stage3Memories _, s => .of (State.stage3_keeps (.refl s) ..)
  | .stage4Links _ _ _, s => .of (State.stage4_keeps (.refl s) ..)
  | .stage5Reconciliation _ _, s => .of (State.stage5_keeps (.refl s) ..)
  | .stageBudgetExpiry, s => .of (State.budgetExpiry_keeps (.refl s) ..)
  | .recoveryBegin _, s => .of (State.recoveryBegin_keeps (.refl s) ..)
  | .recoveryData _ _, s => .of (State.recoveryData_keeps (.refl s) ..)
  | .recoveryEnd _, s => .of (State.recoveryEnd_keeps (.refl s) ..)
  | .i3cRegisterWrite _ _, s => .of (State.i3cWrite_keeps (.refl s) ..)
  | .setdasa _, s => .of (State.setAddress_keeps (.refl s) ..)
  | .entdaa _, s => .of (State.setAddress_keeps (.refl s) ..)
  | .inputUndervoltage _ _, s => .of (State.undervoltage_keeps (.refl s) ..)
  | .inputOvervoltage _ _, s => .of (State.overvoltage_keeps (.refl s) ..)
  | .sensePairOpen, s => .of (State.senseOpen_keeps (.refl s) ..)
  | .sensePairRestored, s => .of (State.senseRestored_keeps (.refl s) ..)
  | .sidebandShort _, s => .of (State.sidebandShort_keeps (.refl s) ..)
  | .refclkLoss, s => .of (State.refclkLoss_keeps (.refl s) ..)
  | .refclkHoldoverExpiry, s => .of (State.refclkExpiry_keeps (.refl s) ..)
  | .refclkReturn, s => .of (State.refclkReturn_keeps (.refl s) ..)
  | .ppsEdge _, s => .of (State.ppsEdge_keeps (.refl s) ..)
  | .ppsLoss, s => .of (State.ppsLoss_keeps (.refl s) ..)
  | .ethLinkChange _ _ _, s => .of (State.ethLink_keeps (.refl s) ..)
  | .routerAdvertisement _ _ _, s => .of (State.routerAdvert_keeps (.refl s) ..)
  | .neighbourDiscovery _ _ _, s => .of (State.neighbour_keeps (.refl s) ..)
  | .arp _ _ _, s => .of (State.arp_keeps (.refl s) ..)
  | .icmpEcho _ _ _ _, s => .of (State.echo_keeps (.refl s) ..)
  | .ptpEventMessage _ _ _, s => .of (State.ptpEvent_keeps (.refl s) ..)
  | .verdictReportReceived _, s => .of (.ite (State.takeVerdict_keeps (.refl s) ..) (.refl s))
  | .restoreReport _ _ _, s => .of (State.restoreReport_keeps (.refl s) ..)
  | .avsVdone _, s => .of (State.avsVdone_keeps (.refl s) ..)
  | .portDieLoss _, s => .of (State.portDieLoss_keeps (.refl s) ..)
  | .internalRailShort, s => .of (State.inputShutdown_keeps (.refl s) ..)
  | .resetNRelease, s => .of (State.resetHigh_keeps (.refl s) ..)
  | .trstN, s => .of (.upd (.refl s) rfl rfl)

/-- The time base alone moves in a step with nothing to run. -/
theorem tick_keeps (s : State) : Keeps s s.tick := .upd (.refl s) rfl rfl

/-- What a step keeps; the queue apart, from which it takes its command. -/
structure StepKeeps (s t : State) : Prop where
  canon : Canonical s → Canonical t
  legal : LegalState s → LegalState t

/-- The canonical forms and the device state do not depend on the commands that wait. -/
theorem Keeps.stepKeeps {s u t : State} (h : Keeps u t) (hc : Canonical s → Canonical u) (hd : LegalState s → LegalState u) :
    StepKeeps s t := ⟨fun c => h.canon (hc c), fun d => h.legal (hd d)⟩

theorem StepKeeps.ofExec {s u t : State} {c : Instr} (e : exec c u = .next t) (hc : Canonical s → Canonical u)
    (hd : LegalState s → LegalState u) : StepKeeps s t := by
  obtain ⟨t', e', h⟩ := exec_answersKeeping c u
  cases e.symm.trans e'
  exact h.stepKeeps hc hd

/-- A step runs the front of the queue, a released message, or a tick, and each keeps the invariants. -/
theorem step_keeps {s t : State} (e : step s = .next t) : StepKeeps s t := by
  unfold step at e
  split at e
  · exact .ofExec e (fun ⟨a, b, c, d, e, f, g⟩ => ⟨a, b, c, d, e, f, g⟩) id
  · split at e
    · exact .ofExec e (fun ⟨a, b, c, d, e, f, g⟩ => ⟨a, b, c, d, e, f, g⟩) id
    · cases e
      exact (tick_keeps s).stepKeeps id id

/-- Settles O5: every operation keeps the canonical forms, and a step is one operation. -/
theorem canonicalKept : Obligations.CanonicalKept := fun _ _ hc e => (step_keeps e).canon hc

/-- Settles O6: every operation keeps a legal device state, and a step is one operation. -/
theorem legalStateKept : Obligations.LegalStateKept := fun _ _ hd e => (step_keeps e).legal hd

/-- Settles O3: the operation of every command answers a next state and leaves the queue. -/
theorem everyCommandAnswers : Obligations.EveryCommandAnswers := fun c s =>
  let ⟨t, e, h⟩ := exec_answersKeeping c s
  ⟨t, e, h.queue⟩

end Sys2Proof.Machine

/-!
PROOFS. A register write, said once: what it answers on each way through its checks, over DCT and over I3C, and that the
commands which are one register write are that access.
-/
namespace Sys2Proof.Machine

/-! ## Fields -/

/-- Two fields within a word that share no bit. -/
abbrev Field.Beside (f g : Field) : Prop := (f.lo ≤ f.hi ∧ f.hi < 64) ∧ (g.lo ≤ g.hi ∧ g.hi < 64) ∧ (g.hi < f.lo ∨ f.hi < g.lo)

theorem getF_setF_beside {f g : Field} (h : f.Beside g) (w : Word) (v : Nat) : getF (setF w f v) g = getF w g :=
  getF_setF_apart w h.1 h.2.1 h.2.2 v

theorem flagF_setF_beside {f g : Field} (h : f.Beside g) (w : Word) (v : Nat) : flagF (setF w f v) g = flagF w g := by
  unfold flagF; rw [getF_setF_beside h]

/-- A field of one bit reads that bit. -/
theorem getF_bit (w : Word) (k : Nat) : getF w ⟨k, k⟩ = (w.getLsbD k).toNat := by
  simp only [getF, BitVec.getLsbD, Nat.testBit_eq_decide_div_mod_eq, Nat.add_sub_cancel_left, Nat.pow_one]
  rcases Nat.mod_two_eq_zero_or_one (w.toNat / 2 ^ k) with h | h <;> simp [h]

theorem getF_setF_bit (w : Word) {k : Nat} (h : k < 64) : getF (setF w ⟨k, k⟩ 1) ⟨k, k⟩ = 1 := by
  rw [getF_setF w ⟨le_refl k, h⟩, Nat.add_sub_cancel_left]; rfl

theorem flagF_setF_bit (w : Word) {k : Nat} (h : k < 64) : flagF (setF w ⟨k, k⟩ 1) ⟨k, k⟩ = true := by
  unfold flagF; rw [getF_setF_bit w h]; rfl

theorem getLsbD_setF_bit (w : Word) {k : Nat} (h : k < 64) : (setF w ⟨k, k⟩ 1).getLsbD k = true := by
  rw [getLsbD_setF w ⟨le_refl k, h⟩ _ _ h, if_pos ⟨le_refl k, le_refl k⟩, Nat.sub_self]; rfl

/-! ## What a write acts on and stores (R12, R509) -/

/-- A session writes every bit: nothing is masked from it. -/
theorem acted_allOnes (r : Reg) (cur v : Word) :
    r.acted cur v (BitVec.allOnes 64) = ((cur ^^^ v) &&& r.rw) ||| (v &&& (r.wo ||| r.w1c ||| r.w1s)) := BitVec.and_allOnes

/-- A bit of a register that no access code makes writable is not acted on. -/
theorem acted_readOnly (r : Reg) (cur v : Word) :
    r.acted cur v (BitVec.allOnes 64) &&& ~~~(r.rw ||| r.wo ||| r.w1c ||| r.w1s) = 0 := by
  rw [acted_allOnes]
  ext i
  simp only [BitVec.getElem_and, BitVec.getElem_or, BitVec.getElem_xor, BitVec.getElem_not, BitVec.ofNat_eq_ofNat, BitVec.getElem_zero]
  cases r.rw[i] <;> cases r.wo[i] <;> cases r.w1c[i] <;> cases r.w1s[i] <;> simp

/-- A 0 written to a W1C or W1S bit does not act. -/
theorem acted_zeroWritten (r : Reg) (cur v : Word) :
    r.acted cur v (BitVec.allOnes 64) &&& (r.w1c ||| r.w1s) &&& ~~~r.rw &&& ~~~v = 0 := by
  rw [acted_allOnes]
  ext i
  simp only [BitVec.getElem_and, BitVec.getElem_or, BitVec.getElem_xor, BitVec.getElem_not, BitVec.ofNat_eq_ofNat, BitVec.getElem_zero]
  cases r.rw[i] <;> cases v[i] <;> simp

/-- A 1 written to a bit that starts something acts. -/
theorem getLsbD_acted_wo (r : Reg) (cur v : Word) {i : Nat} (hv : v.getLsbD i = true) (hr : r.wo.getLsbD i = true) :
    (r.acted cur v (BitVec.allOnes 64)).getLsbD i = true := by
  rw [acted_allOnes]; simp [hv, hr]

/-- A 1 written to a W1S bit is stored. -/
theorem getLsbD_merged_w1s (r : Reg) (v old : Word) {i : Nat} (hv : v.getLsbD i = true) (hr : r.w1s.getLsbD i = true) :
    (r.merged v (BitVec.allOnes 64) old).getLsbD i = true := by
  have hset : (v &&& r.w1s).getLsbD i = true := by rw [BitVec.getLsbD_and, hv, hr]; rfl
  unfold Reg.merged
  rw [BitVec.and_allOnes (x := v &&& r.w1s), BitVec.getLsbD_or, hset, Bool.or_true]

namespace State

/-! ## The ways through the checks of a write (R493 to R499, R509) -/

/-- The checks that come before the bits: the write is of a register that takes it now. -/
structure Open (s : State) (a : Nat) (r : Reg) : Prop where
  aligned : a % 8 = 0
  reg : s.regAt a = some r
  inner : s.innerErr r true = Err.ok

theorem writeReg_unaligned {s : State} {a : Nat} (h : a % 8 ≠ 0) (who : Who) (v allow : Word) :
    s.writeReg who a v allow = (s, Err.range) := by
  unfold writeReg; rw [if_pos h]

/-- Past the checks of the register itself, an image load that ends holds the write off; the rest lies with the bits acted on. -/
theorem writeReg_open {s : State} {a : Nat} {r : Reg} (h : s.Open a r) (who : Who) (v allow : Word) :
    s.writeReg who a v allow =
      if r.fromImage && (s.img.load.bind (·.finalSeq)).isSome then (s, Err.busy)
      else
        let m := r.acted (s.regValue (s.selOf who a) r) v allow
        if m = 0 then (s, Err.ok)
        else if s.writeErr r v m ≠ Err.ok then (s, s.writeErr r v m) else (s.writeDone who a r v m allow, Err.ok) := by
  unfold writeReg
  rw [if_neg (not_not.2 h.aligned), h.reg]
  simp only [h.inner, ne_eq, not_true_eq_false, if_false]

theorem writeReg_loading {s : State} {a q : Nat} {r : Reg} (h : s.Open a r) (hr : r.fromImage = true)
    (hq : s.img.load.bind (·.finalSeq) = some q) (who : Who) (v allow : Word) : s.writeReg who a v allow = (s, Err.busy) := by
  rw [writeReg_open h, if_pos]; simp [hr, hq]

/-- No image load is at its end, or the register is none of those it writes. -/
theorem not_loading {s : State} {r : Reg} (h : r.fromImage = false ∨ s.img.load.bind (·.finalSeq) = none) :
    ¬ (r.fromImage && (s.img.load.bind (·.finalSeq)).isSome) = true := by
  rcases h with h | h <;> simp [h]

theorem writeReg_idle {s : State} {a : Nat} {r : Reg} {who : Who} {v allow : Word} (h : s.Open a r)
    (hl : r.fromImage = false ∨ s.img.load.bind (·.finalSeq) = none)
    (hm : r.acted (s.regValue (s.selOf who a) r) v allow = 0) : s.writeReg who a v allow = (s, Err.ok) := by
  rw [writeReg_open h, if_neg (not_loading hl)]; simp only [hm, if_true]

/-- A write that acts on some bits: it is accepted and takes place, or its error is all there is of it. -/
theorem writeReg_acts {s : State} {a : Nat} {r : Reg} {who : Who} {v allow m : Word} (h : s.Open a r)
    (hl : r.fromImage = false ∨ s.img.load.bind (·.finalSeq) = none)
    (hm : r.acted (s.regValue (s.selOf who a) r) v allow = m) (h0 : m ≠ 0) :
    s.writeReg who a v allow =
      if s.writeErr r v m ≠ Err.ok then (s, s.writeErr r v m) else (s.writeDone who a r v m allow, Err.ok) := by
  rw [writeReg_open h, if_neg (not_loading hl)]; simp only [hm, if_neg h0]

theorem errRecord_ok (s : State) (src : Nat) : s.errRecord Err.ok src = s := if_pos rfl

/-- The record of a write's error, in both of its outcomes. -/
theorem errRecord_outcome {s t : State} {e src : Nat} :
    (e = Err.ok → (if e ≠ Err.ok then (s, e) else (t, Err.ok)).1.errRecord (if e ≠ Err.ok then (s, e) else (t, Err.ok)).2 src = t) ∧
    (e ≠ Err.ok → (if e ≠ Err.ok then (s, e) else (t, Err.ok)).1.errRecord (if e ≠ Err.ok then (s, e) else (t, Err.ok)).2 src =
      s.errRecord e src) :=
  ⟨fun h => by rw [if_neg (not_not.2 h)]; exact errRecord_ok t src, fun h => by rw [if_pos h]⟩

end State

/-! ## The commands that are one register write (log 40) -/

theorem Reaches.isOpen {s : State} {who : Who} {a : Nat} {r : Reg} {v m : Word} (h : Reaches s who a r v m) : s.Open a r :=
  ⟨h.aligned, h.reg, h.inner⟩

/-- A command that is one register write is that access. -/
theorem exec_asWrite {c : Instr} {who : Who} {a : Nat} {v : Word} (h : asWrite c = some (who, a, v)) (s : State) :
    exec c s = .next (s.regCommand who a v) := by
  unfold asWrite at h
  split at h <;> cases h <;> rfl

/-- A write that reaches its register is that write, with its error recorded. -/
theorem regCommand_reaches {s : State} {who : Who} {a : Nat} {r : Reg} {v m : Word} (h : Reaches s who a r v m) :
    s.regCommand who a v = (s.writeReg who a v (BitVec.allOnes 64)).1.errRecord (s.writeReg who a v (BitVec.allOnes 64)).2 Src.dct := by
  obtain ⟨n, x, rfl, hx, ho, hf⟩ := h.sender
  unfold State.regCommand
  simp [h.serves, hx, ho, hf]

theorem regCommand_outcome {s : State} {who : Who} {a : Nat} {r : Reg} {v m : Word} (h : Reaches s who a r v m) :
    (s.writeErr r v m = Err.ok → s.regCommand who a v = s.writeDone who a r v m (BitVec.allOnes 64)) ∧
    (s.writeErr r v m ≠ Err.ok → s.regCommand who a v = s.errRecord (s.writeErr r v m) Src.dct) := by
  rw [regCommand_reaches h, State.writeReg_acts h.isOpen h.free h.acted h.some]
  exact State.errRecord_outcome

/-- Over I3C a write that reaches its register is that write, on the bits that the bus may write. -/
theorem i3cWrite_reached {s : State} {a : Nat} {r : Reg} {allow : Word} (ha : s.alive = true) (hb : s.boot.rooted = true)
    (h8 : a % 8 = 0) (hr : s.regAt a = some r) (hi : r.i3cReach = some allow) (h0 : allow ≠ 0) (v : Word) :
    s.i3cWrite a v = (s.writeReg .i3c a v allow).1.errRecord (s.writeReg .i3c a v allow).2 Src.i3c := by
  unfold State.i3cWrite
  simp only [ha, hb, h8, hr, hi, Bool.not_true, Bool.false_eq_true, ne_eq, not_true_eq_false, if_false, Option.bind_some, if_neg h0]

/-- The bus does not change what it does not reach. -/
theorem i3cWrite_unreached {s : State} {a : Nat} {r : Reg} (h8 : a % 8 = 0) (hr : s.regAt a = some r) (hi : r.i3cReach = none)
    (v : Word) : s.i3cWrite a v = s := by
  unfold State.i3cWrite
  simp [h8, hr, hi]

theorem i3cWrite_unaligned {s : State} {a : Nat} (ha : s.alive = true) (h8 : a % 8 ≠ 0) (v : Word) :
    s.i3cWrite a v = s.errRecord Err.range Src.i3c := by
  unfold State.i3cWrite
  simp [ha, h8]

/-- Settles O46: each command is its access, and the access takes place or leaves its error alone. -/
theorem registerCommands : Obligations.RegisterCommands := by
  intro s
  refine ⟨fun c who a v r m hc h => ?_, fun a v r allow m ha hb h8 hr hi h0 hin hl hm hm0 => ?_, fun a v r h8 hr hi => ?_⟩
  · rw [exec_asWrite hc s]
    exact ⟨fun e => congrArg _ ((regCommand_outcome h).1 e), fun e => congrArg _ ((regCommand_outcome h).2 e)⟩
  · have out := i3cWrite_reached ha hb h8 hr hi h0 v
    rw [State.writeReg_acts ⟨h8, hr, hin⟩ hl hm hm0] at out
    exact ⟨fun e => congrArg _ (out.trans (State.errRecord_outcome.1 e)), fun e => congrArg _ (out.trans (State.errRecord_outcome.2 e))⟩
  · exact congrArg _ (i3cWrite_unreached h8 hr hi v)

end Sys2Proof.Machine

/-!
PROOFS. What an accepted register write does, register by register: tiles, the step, security, the device, the fault
domain.
-/
namespace Sys2Proof.Machine
namespace State

/-- A register without selector bits: the stored word, then what the write starts. -/
theorem writeDone_noSel {r : Reg} (h : r.sel = 0) (s : State) (who : Who) (a : Nat) (v m allow : Word) :
    s.writeDone who a r v m allow = (s.onReg 0 r (r.merged v allow)).writeActs r v m := by
  unfold writeDone; rw [if_pos h]

/-- A selector copy is the session's or the bus's own; nothing else of the state changes. -/
theorem setSel_eq (s : State) (who : Who) (a : Nat) (w : Word) :
    ∃ ss c, s.setSel who a w = { s with sessions := ss, i3c := c } := by
  cases who <;> exact ⟨_, _, rfl⟩

/-- A register with selector bits and no stored word of its own: the reader's copy, then what the write starts. -/
theorem writeDone_selOnly {r : Reg} (h : ∀ (s : State) f, s.onReg 0 r f = s) (s : State) (who : Who) (a : Nat) (v m allow : Word) :
    ∃ ss c, s.writeDone who a r v m allow = writeActs { s with sessions := ss, i3c := c } r v m := by
  unfold writeDone
  simp only [h]
  split
  · exact ⟨s.sessions, s.i3c, rfl⟩
  · obtain ⟨ss, c, e⟩ := s.setSel_eq who a (v &&& r.sel)
    exact ⟨ss, c, by rw [e]⟩

/-! ## Tiles -/

theorem startBist_effect (s : State) (tl : TileRef) {mode : Nat} (h : mode ≠ 0) {x : Nat} (hx : getF (s.tile tl).map tileMap_site = x) :
    let t := s.startBist tl mode
    t.site tl.p x = { s.site tl.p x with mode := mode, running := true } ∧
      t.tile tl = { s.tile tl with status := setF (setF (s.tile tl).status tileStatus_bistResult 3) tileStatus_tileState TS.bist } ∧
      ∀ u, tkey u ≠ tkey tl → t.tile u = s.tile u := by
  unfold startBist
  rw [if_neg h, hx]
  exact ⟨site_setSite_same s tl.p x _, tile_onTile_same _ tl _, fun u hu => tile_onTile_other _ _ hu⟩

theorem writeDone_bistStart (s : State) (who : Who) (a : Nat) (tl : TileRef) {v : Word} {mode : Nat} (m allow : Word)
    (hv : flagF v tileCtl_bistStart = true) (hmode : getF v tileCtl_bistMode = mode) (hm : mode ≠ 0) :
    let x := getF (s.tile tl).map tileMap_site
    let t := s.writeDone who a (.tileCtl tl) v m allow
    t.site tl.p x = { s.site tl.p x with mode := mode, running := true } ∧
      getF (t.tile tl).status tileStatus_bistResult = 3 ∧ getF (t.tile tl).status tileStatus_tileState = TS.bist ∧
      (t.tile tl).store = (s.tile tl).store ∧ ∀ u, tkey u ≠ tkey tl → t.tile u = s.tile u := by
  intro x t
  have et : t = (s.onTile tl (fun t => { t with ctl := (Reg.tileCtl tl).merged v allow t.ctl })).startBist tl mode :=
    hmode ▸ (writeDone_noSel rfl ..).trans (if_pos hv)
  have same := tile_onTile_same s tl (fun t => { t with ctl := (Reg.tileCtl tl).merged v allow t.ctl })
  obtain ⟨hs, htl, ho⟩ := startBist_effect (s.onTile tl (fun t => { t with ctl := (Reg.tileCtl tl).merged v allow t.ctl })) tl hm
    (x := x) (by rw [same])
  rw [et, htl, same]
  refine ⟨hs, ?_, ?_, rfl, fun u hu => (ho u hu).trans (tile_onTile_other _ _ hu)⟩
  · rw [getF_setF_beside (by decide), getF_setF _ ⟨by decide, by decide⟩]; rfl
  · rw [getF_setF _ ⟨by decide, by decide⟩]; rfl

theorem writeDone_funcTable (s : State) (who : Who) (a : Nat) (tl : TileRef) {v : Word} (m allow : Word)
    (hv : flagF v funcTable_wr = true) (hw : getF v funcTable_word < 4) :
    let t := s.writeDone who a (.funcTable tl) v m allow
    (t.tile tl).store = (s.tile tl).store ∧
      Sparse.get 0 (t.tile tl).funcs (funcKey (getF v funcTable_table) (getF v funcTable_segment) (getF v funcTable_word)) =
        BitVec.ofNat 32 (getF v funcTable_data) := by
  intro t
  obtain ⟨ss, c, e⟩ := writeDone_selOnly (r := .funcTable tl) (fun _ _ => rfl) s who a v m allow
  have et : t = storeFunc { s with sessions := ss, i3c := c } tl v := e.trans (if_pos hv)
  rw [et]
  unfold storeFunc
  rw [tile_onTile_same]
  refine ⟨rfl, ?_⟩
  rw [Sparse.get_set_same, if_neg (Nat.ne_of_lt hw)]

/-! ## The step -/

/-- A request of STEP_CTL is set, and only the register changes (R308, R319). -/
theorem writeDone_stepReq (s : State) (who : Who) (a : Nat) (v m : Word) {k : Nat} (hk : k < 64)
    (h1 : stepCtl_maskW1s.getLsbD k = true) :
    let t := s.writeDone who a .stepCtl (setF v ⟨k, k⟩ 1) m (BitVec.allOnes 64)
    getF t.step.ctl ⟨k, k⟩ = 1 ∧ t = { s with step := { s.step with ctl := t.step.ctl } } := by
  intro t
  refine ⟨?_, rfl⟩
  rw [getF_bit]
  exact congrArg Bool.toNat (getLsbD_merged_w1s .stepCtl _ s.step.ctl (getLsbD_setF_bit v hk) h1)

/-! ## Security and the device -/

theorem writeDone_sealRenew (s : State) (who : Who) (a : Nat) (v m allow : Word) :
    let t := s.writeDone who a .attestCtl v m allow
    t.sec.sealGen = s.sec.draws ∧ t.sec.draws = s.sec.draws + 1 ∧
      t.sec.slots = s.sec.slots.filter (fun y => !Nat.testBit 0xfffe y.1) := ⟨rfl, rfl, rfl⟩

theorem writeDone_relock (s : State) (who : Who) (a : Nat) (v m allow : Word) :
    let t := s.writeDone who a .debugLock v m allow
    t.sec.relocked = true ∧ getF t.sec.debugLock debugLock_state = 0 ∧
      t = { s with sec := { s.sec with relocked := true, debugLock := t.sec.debugLock } } := by
  intro t
  have et : t = s.relock := writeDone_noSel rfl ..
  rw [et]
  exact ⟨rfl, getF_setF _ ⟨by decide, by decide⟩ 0, rfl⟩

theorem writeDone_assignId (s : State) (who : Who) (a : Nat) {v : Word} {n : Nat} (m allow : Word) (hv : flagF v devIdAssign_go = true)
    (hn : getF v devIdAssign_newId = n) :
    let t := s.writeDone who a .devIdAssign v m allow
    t.devId = n ∧ getF t.dev.id devId_assigned = 1 ∧
      t = { s with dev := { s.dev with id := t.dev.id, idAssign := t.dev.idAssign } } := by
  intro t
  have et : t = assignId { s with dev := { s.dev with idAssign := Reg.devIdAssign.merged v allow s.dev.idAssign } } v :=
    (writeDone_noSel rfl ..).trans (if_pos hv)
  have hid : n < 2 ^ 16 := hn ▸ getF_lt v devIdAssign_newId
  rw [et]
  refine ⟨?_, getF_setF _ ⟨by decide, by decide⟩ 1, rfl⟩
  unfold devId assignId
  rw [hn, getF_setF_beside (by decide), getF_setF _ ⟨by decide, by decide⟩]
  exact Nat.mod_eq_of_lt hid

theorem writeDone_softClear (s : State) (who : Who) (a : Nat) (v : Word) {m : Word} (allow : Word)
    (hm : m.getLsbD 7 = true) :
    (s.writeDone who a .yieldSummary v m allow).flash = { s.flash with softClear := true } := by
  obtain ⟨ss, c, e⟩ := writeDone_selOnly (r := .yieldSummary) (fun _ _ => rfl) s who a v m allow
  have h0 : (m &&& yieldSummary_softClear.mask != 0) = true := bne_iff_ne.2 fun h => by
    have h7 : (m &&& yieldSummary_softClear.mask).getLsbD 7 = true := by rw [BitVec.getLsbD_and, hm]; decide
    rw [h] at h7
    exact absurd h7 (by decide)
  rw [e]
  unfold writeActs
  dsimp only
  rw [if_pos h0]

theorem writeDone_retireClear (s : State) (who : Who) (a : Nat) {v : Word} (m allow : Word)
    (hv : flagF v rstCtl_retireClear = true) (hc : flagF v rstCtl_compute = false) :
    let t := s.writeDone who a .rstCtl v m allow
    t.flash = { s.flash with retireClear := true } ∧ t = { s with flash := t.flash, rst := { s.rst with ctl := t.rst.ctl } } := by
  intro t
  have et : t = { s with flash := { s.flash with retireClear := true }, rst := { s.rst with ctl := Reg.rstCtl.merged v allow s.rst.ctl } } := by
    refine (writeDone_noSel rfl ..).trans ?_
    unfold writeActs
    dsimp only
    rw [if_pos hv, hc]
    rfl
  rw [et]
  exact ⟨rfl, rfl⟩

theorem writeDone_dormantTable (s : State) (who : Who) (a : Nat) {v : Word} (m allow : Word) (hv : flagF v dormantTable_wr = true) :
    Sparse.get 0 (s.writeDone who a .dormantTable v m allow).pow.table (getF v dormantTable_index) = v &&& 0xffffffffffc00000 := by
  obtain ⟨ss, c, e⟩ := writeDone_selOnly (r := .dormantTable) (fun _ _ => rfl) s who a v m allow
  rw [e]
  unfold writeActs
  dsimp only
  rw [if_pos hv]
  exact Sparse.get_set_same ..

/-! ## The fault domain -/

/-- A write of GRAFT_CTL with go starts its op on a state that differs in the register alone (R350). -/
theorem writeDone_graftGo (s : State) (who : Who) (a : Nat) {v : Word} (m allow : Word) (hv : flagF v graftCtl_go = true) :
    s.writeDone who a .graftCtl v m allow =
      graftGo { s with mir := { s.mir with graftCtl := Reg.graftCtl.merged v allow s.mir.graftCtl } } v :=
  (writeDone_noSel rfl ..).trans (if_pos hv)

theorem graftGo_admit (s : State) {v : Word} (h : getF v graftCtl_op = 3) :
    (s.graftGo v).fd = { s.fd with admitting := true } := by
  unfold graftGo; simp only [h]

/-- A planned graft of a named spare wakes it (R344). -/
theorem graftGo_planned (s : State) {v : Word} (h : getF v graftCtl_op = 1) (ha : flagF v graftCtl_auto = false) :
    s.graftGo v = s.wakeFor (getF v graftCtl_target) (getF v graftCtl_spare) true := by
  unfold graftGo; simp only [h, ha, Bool.false_and, Bool.false_eq_true, if_false]

theorem wakeFor_out (s : State) (id spare : Nat) (planned : Bool) :
    (s.wakeFor id spare planned).out.head? = some (.wake spare id s.time.epoch (-s.time.offset).toNat) := rfl

/-- A device that its head fences is listed as fenced (R329). -/
theorem isFenced_takeFence (s : State) (id reason reporters : Nat) : (s.takeFence id reason reporters).isFenced id = true := by
  have hs : ∀ b : Bool, ((if b then 2 else 0) != 1) = true := by decide
  simp [takeFence, isFenced, onFd, send, hs]

/-- A head that need not ask, and has not asked, fences at once (R333). -/
theorem isFenced_headFence {s : State} {id : Nat} (reason reporters : Nat) (ha : s.asks 0 = false)
    (hp : ∀ d ∈ s.pendingOn 0, d.arg ≠ id) : (s.headFence id reason reporters).isFenced id = true := by
  unfold headFence
  split
  · assumption
  · rw [if_neg (by simpa using hp), if_neg (by simp [ha])]
    exact isFenced_takeFence ..

end State

/-- An accepted command takes place. -/
theorem exec_accepted {s : State} {c : Instr} {who : Who} {a : Nat} {v : Word} {r : Reg} (hc : asWrite c = some (who, a, v))
    (h : Accepted s c r) : ∃ m, Reaches s who a r v m ∧ exec c s = .next (s.writeDone who a r v m (BitVec.allOnes 64)) := by
  obtain ⟨who', a', v', m, hc', hr, he⟩ := h
  cases hc.symm.trans hc'
  exact ⟨m, hr, (exec_asWrite hc s).trans (congrArg _ ((regCommand_outcome hr).1 he))⟩

/-- GRAFT_CTL written with an op and go holds both, and the target, spare and choice that the host gave. -/
theorem graftWord (v : Word) {op : Nat} (h : op < 4) :
    let w := setF (setF v graftCtl_op op) graftCtl_go 1
    flagF w graftCtl_go = true ∧ getF w graftCtl_op = op ∧ getF w graftCtl_target = getF v graftCtl_target ∧
      getF w graftCtl_spare = getF v graftCtl_spare ∧ flagF w graftCtl_auto = flagF v graftCtl_auto := by
  have keeps : ∀ g : Field, graftCtl_op.Beside g → graftCtl_go.Beside g →
      getF (setF (setF v graftCtl_op op) graftCtl_go 1) g = getF v g := fun g h1 h2 => by
    rw [getF_setF_beside h2, getF_setF_beside h1]
  refine ⟨flagF_setF_bit _ (by decide), ?_, keeps _ (by decide) (by decide), keeps _ (by decide) (by decide),
    congrArg (· == 1) (keeps _ (by decide) (by decide))⟩
  rw [getF_setF_beside (by decide), getF_setF _ ⟨by decide, by decide⟩]
  exact Nat.mod_eq_of_lt h

/-- Settles O47: each command is an accepted write, whose effect is that of its register. -/
theorem registerEffects : Obligations.RegisterEffects := by
  intro s who v _
  refine ⟨?bist, ?func, ?eval, ?pause, ?renew, ?relock, ?assign, ?soft, ?retire, ?dormant, ?admission, ?planned, ?fence⟩
  case bist =>
    intro tl h hm
    obtain ⟨m, -, e⟩ := exec_accepted rfl h
    exact ⟨_, e, State.writeDone_bistStart s who _ tl m _ (flagF_setF_bit v (by decide)) (getF_setF_beside (by decide) v 1) hm⟩
  case func =>
    intro tl h hv hw
    obtain ⟨m, -, e⟩ := exec_accepted rfl h
    exact ⟨_, e, State.writeDone_funcTable s who _ tl m _ hv hw⟩
  case eval =>
    intro h
    obtain ⟨m, -, e⟩ := exec_accepted rfl h
    exact ⟨_, e, State.writeDone_stepReq s who _ v m (by decide) (by decide)⟩
  case pause =>
    intro h
    obtain ⟨m, -, e⟩ := exec_accepted rfl h
    exact ⟨_, e, State.writeDone_stepReq s who _ v m (by decide) (by decide)⟩
  case renew =>
    intro h
    obtain ⟨m, -, e⟩ := exec_accepted rfl h
    exact ⟨_, e, State.writeDone_sealRenew s who _ _ m _⟩
  case relock =>
    intro h
    obtain ⟨m, -, e⟩ := exec_accepted rfl h
    exact ⟨_, e, State.writeDone_relock s who _ _ m _⟩
  case assign =>
    intro h
    obtain ⟨m, -, e⟩ := exec_accepted rfl h
    exact ⟨_, e, State.writeDone_assignId s who _ m _ (flagF_setF_bit v (by decide)) (getF_setF_beside (by decide) v 1)⟩
  case soft =>
    intro h
    obtain ⟨m, hr, e⟩ := exec_accepted rfl h
    have hm : m.getLsbD 7 = true := hr.acted ▸ getLsbD_acted_wo .yieldSummary _ _ (getLsbD_setF_bit v (by decide)) (by decide)
    exact ⟨_, e, State.writeDone_softClear s who _ _ _ hm⟩
  case retire =>
    intro h hc
    obtain ⟨m, -, e⟩ := exec_accepted rfl h
    exact ⟨_, e, State.writeDone_retireClear s who _ m _ (flagF_setF_bit v (by decide)) ((flagF_setF_beside (by decide) v 1).trans hc)⟩
  case dormant =>
    intro h hv
    obtain ⟨m, -, e⟩ := exec_accepted rfl h
    exact ⟨_, e, State.writeDone_dormantTable s who _ m _ hv⟩
  case admission =>
    intro h
    obtain ⟨m, -, e⟩ := exec_accepted rfl h
    obtain ⟨hgo, hop, -⟩ := graftWord v (op := 3) (by decide)
    rw [State.writeDone_graftGo s who _ m _ hgo] at e
    exact ⟨_, e, State.graftGo_admit _ hop⟩
  case planned =>
    intro h ha
    obtain ⟨m, -, e⟩ := exec_accepted rfl h
    obtain ⟨hgo, hop, htarget, hspare, hauto⟩ := graftWord v (op := 1) (by decide)
    rw [State.writeDone_graftGo s who _ m _ hgo, State.graftGo_planned _ hop (hauto.trans ha), htarget, hspare] at e
    exact ⟨_, e, State.wakeFor_out ..⟩
  case fence =>
    intro h ha hp
    obtain ⟨m, -, e⟩ := exec_accepted rfl h
    obtain ⟨hgo, hop, htarget, -⟩ := graftWord v (op := 2) (by decide)
    rw [State.writeDone_graftGo s who _ m _ hgo] at e
    refine ⟨_, e, ?_⟩
    unfold State.graftGo
    simp only [hop, htarget]
    exact State.isFenced_headFence _ _ ha hp

end Sys2Proof.Machine

/-!
PROOFS. A DCT message in its turn, said once: forbidden, failing its check, or run; what its answer leaves, and what the
session shows after it (R397 to R399). Then the messages that read and write registers.
-/
namespace Sys2Proof.Machine
namespace State

/-! ## Sessions -/

theorem session_num {s : State} {n : Nat} {x : Session} (h : s.session n = some x) : x.num = n := by
  simpa using List.find?_some h

/-- A session changed under its own number is found as changed. -/
theorem session_onSession {s : State} {n : Nat} {x : Session} {f : Session → Session} (hf : ∀ y, (f y).num = y.num)
    (h : s.session n = some x) : (s.onSession n f).session n = some (f x) := by
  have hg : (fun y : Session => y.num == n) ∘ (fun y => if y.num = n then f y else y) = fun y => y.num == n := by
    funext y; by_cases e : y.num = n <;> simp [e, hf]
  unfold onSession session
  rw [List.find?_map, hg]
  unfold session at h
  rw [h, Option.map_some, if_pos (session_num h)]

/-- What a session shows of its turn: the number it awaits, and whether a message runs. -/
def turnOf (s : State) (n : Nat) : Option (Nat × Bool) := (s.session n).map (fun y => (y.next, y.executing))

/-- A held message released changes sessions and the released ones alone. -/
theorem releaseHeld_eq (s : State) (n : Nat) : ∃ ss rs, s.releaseHeld n = { s with sessions := ss, released := rs } := by
  unfold releaseHeld
  split
  · exact ⟨_, _, rfl⟩
  · split <;> exact ⟨_, _, rfl⟩

theorem turnOf_releaseHeld (s : State) (n : Nat) : (s.releaseHeld n).turnOf n = s.turnOf n := by
  unfold releaseHeld
  split
  · rfl
  · next x hx =>
    split
    · rfl
    · next k _ =>
      have := session_onSession (f := fun y => { y with held := y.held.filter (fun k => k.1 != x.next) }) (fun _ => rfl) hx
      unfold turnOf
      rw [hx]
      exact (congrArg (Option.map fun y : Session => (y.next, y.executing)) this :)

/-! ## The answer of a message -/

/-- ERR_LAST alone takes an error. -/
theorem errRecord_eq (s : State) (e src : Nat) : ∃ w, s.errRecord e src = { s with dev := { s.dev with errLast := w } } := by
  unfold errRecord; split <;> exact ⟨_, rfl⟩

/-- The reply that an answer sends. -/
def replyOf (s : State) (q : Nat) (a : Ans) : Reply :=
  { seq := q, status := a.status, devState := s.devState, payload := a.words, bytes := a.bytes }

/-- A session whose message has been answered: it keeps the reply and awaits the next number. -/
def answeredIn (r : Reply) (x : Session) : Session :=
  { x with next := r.seq + 1, executing := false, replies := (r :: x.replies).take window }

/-- An answer is the reply sent, its code recorded, its session turned on, and a held message released. -/
theorem answer_steps (s : State) (n q : Nat) (a : Ans) (src : Nat) : s.answer n q a src =
    (((s.send (.dct n (s.replyOf q a))).errRecord a.status src).onSession n (answeredIn (s.replyOf q a))).releaseHeld n := rfl

theorem answer_eq (s : State) (n q : Nat) (a : Ans) (src : Nat) : ∃ ss rs w, s.answer n q a src =
    { s with out := .dct n (s.replyOf q a) :: s.out, dev := { s.dev with errLast := w }, sessions := ss, released := rs } := by
  rw [answer_steps]
  obtain ⟨w, e⟩ := errRecord_eq (s.send (.dct n (s.replyOf q a))) a.status src
  obtain ⟨ss, rs, e'⟩ := releaseHeld_eq (((s.send (.dct n (s.replyOf q a))).errRecord a.status src).onSession n (answeredIn (s.replyOf q a))) n
  refine ⟨ss, rs, w, e'.trans ?_⟩
  rw [e]
  rfl

/-- A message of a session that stands is answered once, and the session awaits the next number. -/
theorem answered_answer {t : State} {h : DctHdr} (ht : (t.session h.session).isSome = true) (a : Ans) (src : Nat) :
    Answered (t.answer h.session h.seq a src) h a.status := by
  constructor
  · obtain ⟨ss, rs, w, e⟩ := t.answer_eq h.session h.seq a src
    rw [e]
    exact ⟨_, rfl, rfl, rfl⟩
  · obtain ⟨x, hx⟩ := Option.isSome_iff_exists.1 ht
    obtain ⟨w, e⟩ := errRecord_eq (t.send (.dct h.session (t.replyOf h.seq a))) a.status src
    have hs : ((t.send (.dct h.session (t.replyOf h.seq a))).errRecord a.status src).session h.session = some x := by rw [e]; exact hx
    have ha := session_onSession (f := answeredIn (t.replyOf h.seq a)) (fun _ => rfl) hs
    rw [answer_steps]
    exact (turnOf_releaseHeld _ _).trans (congrArg (Option.map fun y : Session => (y.next, y.executing)) ha :)

theorem onlyReplied_answer {s t : State} (ht : ∃ ss, t = { s with sessions := ss }) (n q : Nat) (a : Ans) (src : Nat) :
    OnlyReplied s (t.answer n q a src) := by
  obtain ⟨ss, rfl⟩ := ht
  obtain ⟨ss', rs, w, e⟩ := answer_eq { s with sessions := ss } n q a src
  rw [e]
  exact ⟨rfl, rfl⟩

end State

/-! ## A message in its turn (R397) -/

theorem heard_eq (s : State) (x : Session) : ∃ ss, heard s x = { s with sessions := ss } := ⟨_, rfl⟩

namespace Turn
variable {s t : State} {h : DctHdr} {x : Session}

/-- The session stands after the message is heard, with its time of hearing. -/
theorem session_heard (ht : Turn s h x) : (heard s x).session h.session = some { x with lastAt := s.clock } := by
  have e : heard s x = s.onSession h.session (fun y => { y with lastAt := s.clock }) := by
    unfold heard; rw [State.session_num ht.session]
  rw [e]
  exact State.session_onSession (f := fun y => { y with lastAt := s.clock }) (fun _ => rfl) ht.session

theorem isSome_heard (ht : Turn s h x) : ((heard s x).session h.session).isSome = true := by rw [ht.session_heard]; rfl

/-- The message passes to its permission, its check and its run. -/
theorem dct_eq (ht : Turn s h x) (c : Instr) (permit : Bool) (check src : Nat) (run : State → State × Option Ans) :
    s.dct h c .opened permit check src run = (heard s x).execute { h with fromHost := x.fromHost } permit check src run := by
  have h1 : ¬ (h.seq < x.next ∨ h.seq = x.next ∧ x.executing = true) := by simp [ht.seq, ht.idle]
  have h2 : ¬ x.next < h.seq := by simp [ht.seq]
  unfold State.dct State.sequenced
  simp only [ht.serves, ht.sized, ht.nonzero, ht.session, ht.isOpen, ht.tag, Bool.not_true, Bool.false_eq_true, if_false, Bool.and_self,
    if_true, Nat.not_le.2 ht.limit, h1, h2]
  rfl

/-- Reserved bytes, sender and device are as they must be. -/
theorem formed (ht : Turn s h x) :
    (!h.reservedZero || !x.fromHost || (!h.anyDevice && h.device != (heard s x).devId)) = false := by
  have hd : (heard s x).devId = s.devId := rfl
  rcases ht.device with d | d <;> simp [ht.reserved, ht.host, hd, d]

theorem dct_forbidden (ht : Turn s h x) {c : Instr} {permit : Bool} {check src : Nat} {run : State → State × Option Ans}
    (hp : permit = false) : s.dct h c .opened permit check src run = (heard s x).answer h.session h.seq (.err Err.state) src := by
  rw [ht.dct_eq]; unfold State.execute; simp only [ht.formed, hp]; rfl

theorem dct_failing (ht : Turn s h x) {c : Instr} {permit : Bool} {check src : Nat} {run : State → State × Option Ans}
    (hp : permit = true) (hc : check ≠ Err.ok) :
    s.dct h c .opened permit check src run = (heard s x).answer h.session h.seq (.err check) src := by
  rw [ht.dct_eq]; unfold State.execute; simp only [ht.formed, hp, if_pos hc]; rfl

theorem dct_runs (ht : Turn s h x) {c : Instr} {permit : Bool} {check src : Nat} {run : State → State × Option Ans} {a : Ans}
    (hp : permit = true) (hc : check = Err.ok) (hr : run (heard s x) = (t, some a)) :
    s.dct h c .opened permit check src run = t.answer h.session h.seq a src := by
  rw [ht.dct_eq]; unfold State.execute; simp only [ht.formed, hp, if_neg (not_not.2 hc), hr]; rfl

/-- A message that does nothing but be answered. -/
theorem onlyAnswered (ht : Turn s h x) (a : Ans) (src : Nat) :
    Answered ((heard s x).answer h.session h.seq a src) h a.status ∧ OnlyReplied s ((heard s x).answer h.session h.seq a src) :=
  ⟨State.answered_answer ht.isSome_heard a src, State.onlyReplied_answer (heard_eq s x) ..⟩

/-- The session's selector copies are those it had. -/
theorem selOf_heard (ht : Turn s h x) (a : Nat) : (heard s x).selOf (.dct h.session) a = s.selOf (.dct h.session) a := by
  unfold State.selOf; dsimp only; rw [ht.session_heard, ht.session]; rfl

end Turn

/-! ## REG_READ and REG_WRITE of an address (R403, R494) -/

theorem readReg_unaligned {s : State} {a : Nat} (h : a % 8 ≠ 0) (who : Who) : s.readReg who a = (s, .error Err.range) := by
  unfold State.readReg; rw [if_pos h]

/-- The read of addresses whose first fails ends there. -/
theorem readAll_failing {s : State} {who : Who} {a : Word} {e : Nat} (h : s.readReg who a.toNat = (s, .error e)) (as : List Word) :
    s.readAll who [] 0 (a :: as) = (s, some { status := e, words := [0], bytes := [] }) := by
  unfold State.readAll; rw [h]; rfl

/-- The write of pairs whose first fails ends there. -/
theorem writeAll_failing {s : State} {who : Who} {a v : Word} {e : Nat} (h : s.writeReg who a.toNat v (BitVec.allOnes 64) = (s, e))
    (he : e ≠ Err.ok) (ps : List (Word × Word)) :
    s.writeAll who 0 ((a, v) :: ps) = (s, some { status := e, words := [0], bytes := [] }) := by
  unfold State.writeAll; dsimp only; rw [h, if_neg he]; rfl

theorem writeAll_idle {s : State} {who : Who} {a v : Word} (h : s.writeReg who a.toNat v (BitVec.allOnes 64) = (s, Err.ok)) :
    s.writeAll who 0 [(a, v)] = (s, some .ok) := by
  unfold State.writeAll; dsimp only; rw [h, if_pos rfl]; rfl

/-- What a register reads does not depend on the sessions. -/
theorem regValue_sessions (s : State) (ss : List Session) (w : Word) (r : Reg) :
    ({ s with sessions := ss } : State).regValue w r = s.regValue w r := by
  cases r <;> rfl

section
variable {s : State} {h : DctHdr} {x : Session}

theorem exec_regRead_failing (ht : Turn s h x) {a : Word} {as : List Word} {e : Nat} (hf : s.fitsReply (8 * (as.length + 1)) = true)
    (hr : (heard s x).readReg (.dct h.session) a.toNat = (heard s x, .error e)) :
    ∃ t, exec (.regRead h (a :: as)) s = .next t ∧ Answered t h e ∧ OnlyReplied s t :=
  have run : s.regRead h (a :: as) = _ := ht.dct_runs rfl (if_pos hf) (readAll_failing hr as)
  ⟨_, congrArg Host.Outcome.next run, ht.onlyAnswered _ _⟩

theorem exec_regWrite_failing (ht : Turn s h x) {a v : Word} {e : Nat} (he : e ≠ Err.ok)
    (hr : (heard s x).writeReg (.dct h.session) a.toNat v (BitVec.allOnes 64) = (heard s x, e)) (ps : List (Word × Word)) :
    ∃ t, exec (.regWrite h ((a, v) :: ps)) s = .next t ∧ Answered t h e ∧ OnlyReplied s t :=
  have run : s.regWrite h ((a, v) :: ps) = _ := ht.dct_runs rfl rfl (writeAll_failing hr he ps)
  ⟨_, congrArg Host.Outcome.next run, ht.onlyAnswered _ _⟩

theorem exec_regWrite_idle (ht : Turn s h x) {a v : Word}
    (hr : (heard s x).writeReg (.dct h.session) a.toNat v (BitVec.allOnes 64) = (heard s x, Err.ok)) :
    ∃ t, exec (.regWrite h [(a, v)]) s = .next t ∧ Answered t h Err.ok ∧ OnlyReplied s t :=
  have run : s.regWrite h [(a, v)] = _ := ht.dct_runs rfl rfl (writeAll_idle hr)
  ⟨_, congrArg Host.Outcome.next run, ht.onlyAnswered _ _⟩

/-- Over I3C an unaligned address leaves its error with the bus as its source (R487, R494). -/
theorem exec_i3cRegisterWrite_unaligned {a : Word} (ha : s.alive = true) (h8 : a.toNat % 8 ≠ 0) (v : Word) :
    ∃ t, exec (.i3cRegisterWrite a v) s = .next t ∧ t = { s with dev := { s.dev with errLast := t.dev.errLast } } ∧
      getF t.dev.errLast errLast_code = Err.range ∧ getF t.dev.errLast errLast_source = 8 := by
  refine ⟨_, congrArg Host.Outcome.next (i3cWrite_unaligned ha h8 v), ?_⟩
  unfold State.errRecord
  rw [if_neg (by decide)]
  refine ⟨rfl, ?_, ?_⟩
  · rw [getF_setF_beside (by decide), getF_setF_beside (by decide), getF_setF _ ⟨by decide, by decide⟩]; rfl
  · rw [getF_setF_beside (by decide), getF_setF _ ⟨by decide, by decide⟩]; rfl

/-- A device that serves DCT is alive. -/
theorem Turn.alive (ht : Turn s h x) : s.alive = true := by
  have := ht.serves
  unfold State.servesDct at this
  simp only [Bool.and_eq_true] at this
  exact this.1.1

end

/-- Settles O43: a write that fails its checks, acts on nothing, or meets the end of an image load is answered and nothing
else. -/
theorem registerAccess : Obligations.RegisterAccess := by
  intro s h x ht
  refine ⟨fun a as v h8 hf => ⟨?_, fun ps => ?_, ?_⟩, fun a v r h8 hr hi hl hm => ?_,
    fun r cur v => ⟨acted_readOnly r cur v, acted_zeroWritten r cur v⟩, fun a v r q h8 hr hi hl hq => ?_⟩
  · exact exec_regRead_failing ht hf (readReg_unaligned h8 _)
  · exact exec_regWrite_failing ht (by decide) (State.writeReg_unaligned h8 ..) ps
  · exact exec_i3cRegisterWrite_unaligned ht.alive h8 v
  · refine exec_regWrite_idle ht (State.writeReg_idle (r := r) ⟨h8, hr, hi⟩ hl ?_)
    rw [ht.selOf_heard]
    exact (congrArg (r.acted · v _) (regValue_sessions ..)).trans hm
  · exact exec_regWrite_failing ht (by decide) (State.writeReg_loading (s := heard s x) (r := r) ⟨h8, hr, hi⟩ hl hq ..) []

end Sys2Proof.Machine

/-!
PROOFS. What the bookkeeping of a step leaves as it was: sessions, device state, the committed vintage, the open ones, and
of the job what restores and snapshots turn on. One lemma per operation.
-/
namespace Sys2Proof.Machine

/-- From `r` to `s` nothing has changed of what START, RESUME, END and a restore show when they end. An open vintage stays
open; others may have opened. -/
structure Calm (r s : State) : Prop where
  sessions : s.sessions = r.sessions
  state : s.dev.state = r.dev.state
  committed : getF s.step.committed vintageCommitted_vintage = getF r.step.committed vintageCommitted_vintage
  opens : ∀ v, (r.job.uncommitted.find? (fun x => x.v == v)).isSome = true → (s.job.uncommitted.find? (fun x => x.v == v)).isSome = true
  gen : s.job.gen = r.job.gen
  restore : s.job.restore = r.job.restore
  sigma : s.job.sigmaOpen = r.job.sigmaOpen

namespace Calm
variable {r s t : State}

theorem refl (s : State) : Calm s s := ⟨rfl, rfl, rfl, fun _ h => h, rfl, rfl, rfl⟩

theorem trans (a : Calm r s) (b : Calm s t) : Calm r t :=
  ⟨b.sessions.trans a.sessions, b.state.trans a.state, b.committed.trans a.committed, fun v h => b.opens v (a.opens v h),
    b.gen.trans a.gen, b.restore.trans a.restore, b.sigma.trans a.sigma⟩

theorem devState (h : Calm r s) : s.devState = r.devState := congrArg (getF · devState_state) h.state

theorem committedV (h : Calm r s) : s.committedV = r.committedV := h.committed

theorem vint (h : Calm r s) {v : Nat} : (r.vint v).isSome = true → (s.vint v).isSome = true := h.opens v

/-- An update of anything else, in the form that the state's own record takes. -/
theorem upd (h : Calm r s)
    {pending released : List Instr} {out : List Msg} {fresh : Nat} {flash : Flash} {pins : Pins} {i3c : I3c} {boot : Boot}
    {rootstock : BootRegs} {time : TimeRegs} {pow : PowRegs} {sec : SecRegs} {step : StepRegs} {mir : MirRegs} {eth0 eth1 : Eth}
    {dctCfg dctCounters : Word} {rst : RstRegs} {ports : Sparse Port} {parts : Sparse Part} {memStacks : Sparse Stack}
    {tiles : Sparse Tile} {sites : Sparse Site} {mem : List Host.Cell} {unacked : List Unacked} {decisions : List Decision}
    {nextReq : Nat} {img : ImgSt} {job : Job} {fd : Fd} {fabric : Fabric}
    (hc : getF step.committed vintageCommitted_vintage = getF s.step.committed vintageCommitted_vintage)
    (hu : job.uncommitted = s.job.uncommitted) (hg : job.gen = s.job.gen)
    (hr : job.restore = s.job.restore) (ho : job.sigmaOpen = s.job.sigmaOpen) :
    Calm r (State.mk pending released out fresh flash pins i3c boot s.dev rootstock time pow sec step mir eth0 eth1 dctCfg
      dctCounters rst ports parts memStacks tiles sites mem s.sessions unacked decisions nextReq img job fd fabric) :=
  h.trans ⟨rfl, rfl, hc, fun v e => by rw [hu]; exact e, hg, hr, ho⟩

/-- A snapshot opened on both sides. -/
theorem sigmaOpened (h : Calm r s) : Calm { r with job := { r.job with sigmaOpen := true } } { s with job := { s.job with sigmaOpen := true } } :=
  ⟨h.sessions, h.state, h.committed, h.opens, h.gen, h.restore, rfl⟩

theorem ite {a b : State} {c : Prop} [Decidable c] (ha : Calm r a) (hb : Calm r b) : Calm r (if c then a else b) := by
  split <;> assumption

theorem foldl {α : Type} {f : State → α → State} (l : List α) (h : Calm r s) (hf : ∀ s x, Calm r s → Calm r (f s x)) :
    Calm r (l.foldl f s) := by
  induction l generalizing s with
  | nil => exact h
  | cons x l ih => exact ih (hf s x h)

end Calm

namespace State
variable {r s : State}

/-! ## Messages, tiles, memory, the ledger -/

theorem send_calm (h : Calm r s) (m : Msg) : Calm r (s.send m) := by unfold send; exact h.upd rfl rfl rfl rfl rfl

theorem sendAll_calm (h : Calm r s) (ms : List Msg) : Calm r (s.sendAll ms) := Calm.foldl ms h fun _ m hs => send_calm hs m

theorem setTile_calm (h : Calm r s) (tl : TileRef) (t : Tile) : Calm r (s.setTile tl t) := by unfold setTile; exact h.upd rfl rfl rfl rfl rfl

theorem onTile_calm (h : Calm r s) (tl : TileRef) (f : Tile → Tile) : Calm r (s.onTile tl f) := setTile_calm h tl _

theorem allTiles_calm (h : Calm r s) (f : Tile → Tile) : Calm r (s.allTiles f) := by unfold allTiles; exact h.upd rfl rfl rfl rfl rfl

theorem onPart_calm (h : Calm r s) (p : Nat) (f : Part → Part) : Calm r (s.onPart p f) := by unfold onPart setPart; exact h.upd rfl rfl rfl rfl rfl

theorem allParts_calm (h : Calm r s) (f : Part → Part) : Calm r (s.allParts f) :=
  Calm.foldl _ h fun _ p hs => onPart_calm hs p f

theorem onJob_calm (h : Calm r s) {f : Job → Job} (hu : (f s.job).uncommitted = s.job.uncommitted) (hg : (f s.job).gen = s.job.gen)
    (hr : (f s.job).restore = s.job.restore) (ho : (f s.job).sigmaOpen = s.job.sigmaOpen) : Calm r (s.onJob f) := by
  unfold onJob; exact h.upd rfl hu hg hr ho

theorem clearReq_calm (h : Calm r s) (f : Field) : Calm r (s.clearReq f) := by unfold clearReq; exact h.upd rfl rfl rfl rfl rfl

theorem poolStatus_calm (h : Calm r s) : Calm r s.poolStatus := by unfold poolStatus; exact h.upd rfl rfl rfl rfl rfl

theorem ledger_calm (h : Calm r s) (p cls code tile arg v a : Nat) : Calm r (s.ledger p cls code tile arg v a) := by
  unfold ledger setPart; exact h.upd rfl rfl rfl rfl rfl

theorem refreshOpen_calm (h : Calm r s) : Calm r s.refreshOpen := by unfold refreshOpen refreshCellar; exact h.upd rfl rfl rfl rfl rfl

theorem hbmWrite_calm (h : Calm r s) (a : Nat) (bs : List Byte) : Calm r (s.hbmWrite a bs) := by
  induction bs generalizing s a with
  | nil => exact h
  | cons b bs ih => exact ih (s := { s with mem := Memory.write s.mem (s.phys false a) b }) (h.upd rfl rfl rfl rfl rfl) (a + 1)

theorem clearRegions_calm (h : Calm r s) (ty : RegionTy) : Calm r (s.clearRegions ty) :=
  Calm.foldl _ h fun s p hs => by
    split
    · exact hs
    · exact hs.upd rfl rfl rfl rfl rfl

theorem haltStages_calm (h : Calm r s) : Calm r s.haltStages := by unfold haltStages allTiles; exact h.upd rfl rfl rfl rfl rfl

/-! ## Vintages -/

theorem refreshCellar_calm (h : Calm r s) : Calm r s.refreshCellar := by unfold refreshCellar; exact h.upd rfl rfl rfl rfl rfl

/-- A change to an open vintage that keeps its number. -/
theorem onVint_calm (h : Calm r s) (v : Nat) {f : Vint → Vint} (hf : ∀ x, (f x).v = x.v) : Calm r (s.onVint v f) := by
  unfold onVint onJob
  refine refreshCellar_calm (h.trans ⟨rfl, rfl, rfl, fun w e => ?_, rfl, rfl, rfl⟩)
  have same : (fun x : Vint => x.v == w) ∘ (fun x => if x.v = v then f x else x) = fun x => x.v == w := by
    funext x; by_cases c : x.v = v <;> simp [c, hf]
  rw [List.find?_map, same, Option.isSome_map]
  exact e

theorem isSome_append (l : List Vint) (v w : Nat) :
    ((l ++ [newVint v]).find? (fun x => x.v == w)).isSome = ((l.find? (fun x => x.v == w)).isSome || v == w) := by
  rw [List.find?_append, Option.isSome_or]
  by_cases e : v = w <;> simp [newVint, e]

/-- Every vintage that was open is open after another is added. -/
theorem appendVint_calm (h : Calm r s) (v : Nat) :
    Calm r (s.onJob (fun j => { j with uncommitted := j.uncommitted ++ [newVint v] })) := by
  unfold onJob
  refine h.trans ⟨rfl, rfl, rfl, fun w e => ?_, rfl, rfl, rfl⟩
  rw [isSome_append, e, Bool.true_or]

theorem openVint_calm (h : Calm r s) (v : Nat) : Calm r (s.openVint v) := by
  unfold openVint
  exact .ite h (ledger_calm (refreshOpen_calm (appendVint_calm h v)) ..)

theorem vint_openVint (s : State) (v : Nat) : ((s.openVint v).vint v).isSome = true := by
  unfold openVint
  split
  · assumption
  · refine (ledger_calm (refreshOpen_calm (Calm.refl _)) ..).vint ?_
    unfold vint onJob
    rw [isSome_append, beq_self_eq_true, Bool.or_true]

/-- The next step begins: its vintage is open (R308). -/
theorem beginStep_calm (h : Calm r s) (hv : s.committedV + 1 < noVintage) : Calm r s.beginStep := by
  unfold beginStep
  rw [if_neg (Nat.not_le.2 hv)]
  refine onVint_calm (openVint_calm h _) _ fun x => ?_
  split <;> rfl

theorem vint_beginStep (s : State) (hv : s.committedV + 1 < noVintage) : (s.beginStep.vint (s.committedV + 1)).isSome = true := by
  unfold beginStep
  rw [if_neg (Nat.not_le.2 hv)]
  refine (onVint_calm (Calm.refl (s.openVint (s.committedV + 1))) _ fun x => ?_).vint (vint_openVint s _)
  split <;> rfl

/-! ## Racking (R302, R303) -/

/-- The racking state shares VINTAGE_COMMITTED with the vintage, not its bits. -/
theorem setRackState_calm (h : Calm r s) (x : Nat) : Calm r (s.setRackState x) := by
  unfold setRackState
  exact h.upd (getF_setF_beside (by decide) _ x) rfl rfl rfl rfl

theorem unrack_calm (h : Calm r s) (p : Nat) : Calm r (s.unrack p) := onPart_calm h p _

theorem rackPart_calm (h : Calm r s) (bs : List Nat) (p : Nat) : Calm r (s.rackPart bs p) := by
  unfold rackPart
  dsimp only
  exact (onPart_calm (Calm.foldl bs h fun _ _ hs => send_calm (sendAll_calm hs _) _) p _).upd rfl rfl rfl rfl rfl

theorem settleRack_calm (h : Calm r s) : Calm r s.settleRack := by
  unfold settleRack
  exact .ite (ledger_calm (setRackState_calm h 0) ..) h

theorem startRacking_calm (h : Calm r s) : Calm r s.startRacking := by
  unfold startRacking onJob
  dsimp only
  refine settleRack_calm (Calm.foldl _ (ledger_calm (setRackState_calm ?_ 1) ..) fun _ p hs => rackPart_calm (unrack_calm hs p) _ p)
  exact h.upd rfl rfl rfl rfl rfl

/-! ## The start of a job (R17, R19) -/

theorem newCounts_calm (h : Calm r s) : Calm r s.newCounts := by unfold newCounts allTiles; exact h.upd rfl rfl rfl rfl rfl

theorem agreeEpoch_calm (h : Calm r s) : Calm r s.agreeEpoch := by
  unfold agreeEpoch useFree send
  exact .ite (h.upd rfl rfl rfl rfl rfl) h

/-! ## Frames that the cellar serves (R309) -/

theorem putAt_calm (h : Calm r s) (tl : TileRef) (a : Nat) (bs : List Byte) : Calm r (s.putAt tl a bs) := by
  unfold putAt
  exact .ite (onTile_calm h tl _) (h.upd rfl rfl rfl rfl rfl)

theorem packedBad_calm (h : Calm r s) (tl : TileRef) : Calm r (s.packedBad tl) := by
  unfold packedBad failBit setTile; exact h.upd rfl rfl rfl rfl rfl

theorem slotOp_calm (h : Calm r s) (tl : TileRef) (a : Nat) (f : Line → Line) : Calm r (s.slotOp tl a f) := by
  unfold slotOp
  extract_lets c _ l put marked
  have hm : Calm r marked := .ite (onTile_calm (putAt_calm h ..) tl _) (putAt_calm h ..)
  exact .ite (packedBad_calm hm tl) hm

theorem combineCmp_calm (h : Calm r s) (tl : TileRef) (c : Coll) (f : Frame) (takeMax : Bool) : Calm r (s.combineCmp tl c f takeMax) :=
  Calm.foldl _ h fun _ _ hs => putAt_calm hs ..

theorem combineSum_calm (h : Calm r s) (tl : TileRef) (c : Coll) (f : Frame) : Calm r (s.combineSum tl c f) := by
  unfold combineSum
  split <;> exact Calm.foldl _ h fun _ _ hs => slotOp_calm hs ..

theorem placeReturned_calm (h : Calm r s) (tl : TileRef) (c : Coll) (f : Frame) (e : Nat) : Calm r (s.placeReturned tl c f e) := by
  unfold placeReturned
  dsimp only
  split
  · exact h
  · refine Calm.foldl _ h fun s j hs => ?_
    split
    · exact hs
    · exact putAt_calm hs ..

theorem combine_calm (h : Calm r s) (tl : TileRef) (c : Coll) (f : Frame) : Calm r (s.combine tl c f) := by
  unfold combine
  split
  · exact putAt_calm h ..
  · exact putAt_calm h ..
  · exact placeReturned_calm h ..
  · exact combineSum_calm h ..
  · exact combineCmp_calm h ..
  · exact combineCmp_calm h ..

theorem failBit_calm (h : Calm r s) (f : Field) : Calm r (s.failBit f) := by unfold failBit; exact h.upd rfl rfl rfl rfl rfl

theorem failFor_calm (h : Calm r s) (f : Field) (code : Nat) : Calm r (s.failFor f code) := by unfold failFor failBit; exact h.upd rfl rfl rfl rfl rfl

theorem tileFault_calm (h : Calm r s) (tl : TileRef) (code : Nat) : Calm r (s.tileFault tl code) := by
  unfold tileFault
  extract_lets t st faulted
  have hf : Calm r faulted := setTile_calm h ..
  exact .ite (setTile_calm h ..) (.ite (failFor_calm hf ..) (.ite (failFor_calm hf ..) (failBit_calm hf _)))

theorem syncAdd_calm (h : Calm r s) (tl : TileRef) (k n : Nat) : Calm r (s.syncAdd tl k n) := by
  unfold syncAdd
  exact .ite (tileFault_calm (setTile_calm h ..) tl 5) (setTile_calm h ..)

theorem fillUnfed_calm (h : Calm r s) (tl : TileRef) (c : Coll) : Calm r (s.fillUnfed tl c) := by
  have fed (k : CollKind) : Calm r ((List.range c.space).foldl (fun s j =>
      if (s.cmpAt tl (collSlot c j)).held then s
      else s.putAt tl (collSlot c j) (Memory.bytesLE (if k = .max then f32NegInf else f32PosInf).toNat 4)) s) :=
    Calm.foldl _ h fun _ _ hs => .ite hs (putAt_calm hs ..)
  unfold fillUnfed
  split
  · exact h
  · exact h
  · exact h
  · exact fed _

theorem takeAmax_calm (h : Calm r s) (tl : TileRef) (c : Coll) : Calm r (s.takeAmax tl c) := by
  unfold takeAmax
  split
  · exact h
  · exact allTiles_calm h _

theorem collDone_calm (h : Calm r s) (tl : TileRef) (c : Coll) : Calm r (s.collDone tl c) := by
  unfold collDone
  exact onTile_calm (syncAdd_calm (takeAmax_calm (fillUnfed_calm h tl c) tl c) tl _ 1) tl _

theorem takeFrame_calm (h : Calm r s) (tl : TileRef) (c : Coll) (f : Frame) : Calm r (s.takeFrame tl c f) := by
  unfold takeFrame
  extract_lets i taken got
  have ht : Calm r taken := onTile_calm (combine_calm h tl c f) tl _
  exact .ite (collDone_calm ht tl c) ht

theorem serveFrames_calm (h : Calm r s) (tl : TileRef) : Calm r (s.serveFrames tl) := by
  unfold serveFrames
  refine .ite h (Calm.foldl _ h fun s e hs => ?_)
  split
  · exact .ite (takeFrame_calm hs ..) hs
  · exact hs

theorem serveAll_calm (h : Calm r s) : Calm r s.serveAll := Calm.foldl _ h fun _ _ hs => serveFrames_calm hs _

end State
end Sys2Proof.Machine

/-!
PROOFS. STEP_CTRL: what each of its messages does in a state that permits it, and what it answers in one that does not
(R308, R354, R406, R407, R451).
-/
namespace Sys2Proof.Machine
namespace State

/-! ## The device brought to ACTIVE (R451) -/

theorem setRail_eq (s : State) (p want : Nat) : ∃ pow parts out, s.setRail p want = { s with pow := pow, parts := parts, out := out } := by
  unfold setRail setPart setRailBit send
  extract_lets a c
  split
  · exact ⟨s.pow, s.parts, s.out, rfl⟩
  · split
    · exact ⟨s.pow, _, s.out, rfl⟩
    · split
      · exact ⟨s.pow, s.parts, s.out, rfl⟩
      · exact ⟨_, _, _, rfl⟩

theorem setRails_eq (s : State) (f : Nat → Nat) : ∃ pow parts out, s.setRails f = { s with pow := pow, parts := parts, out := out } := by
  unfold setRails
  generalize List.range 8 = ps
  induction ps generalizing s with
  | nil => exact ⟨s.pow, s.parts, s.out, rfl⟩
  | cons p ps ih =>
    obtain ⟨pow, parts, out, e⟩ := s.setRail_eq p (f p)
    rw [List.foldl_cons, e]
    exact ih { s with pow := pow, parts := parts, out := out }

/-- The return to ACTIVE changes rails alone. -/
theorem ensureActive_eq (s : State) : ∃ pow parts out, s.ensureActive = { s with pow := pow, parts := parts, out := out } := by
  unfold ensureActive
  split
  · exact setRails_eq (s.setPower PS.active) _
  · exact ⟨s.pow, s.parts, s.out, rfl⟩

end State

namespace Turn
variable {s : State} {h : DctHdr} {x : Session}

/-- The state on which a message of STEP_CTRL has its effect, heard and brought to ACTIVE, differs in sessions, rails and
messages. -/
theorem on_eq (s : State) (x : Session) : ∃ ss pow parts out,
    (heard s x).ensureActive = { s with sessions := ss, pow := pow, parts := parts, out := out } := by
  obtain ⟨ss, e⟩ := heard_eq s x
  obtain ⟨pow, parts, out, e'⟩ := (heard s x).ensureActive_eq
  rw [e] at e'
  exact ⟨ss, pow, parts, out, by rw [e]; exact e'⟩

theorem on_devState (s : State) (x : Session) : (heard s x).ensureActive.devState = s.devState := by
  obtain ⟨ss, pow, parts, out, e⟩ := on_eq s x; rw [e]; rfl

theorem on_committedV (s : State) (x : Session) : (heard s x).ensureActive.committedV = s.committedV := by
  obtain ⟨ss, pow, parts, out, e⟩ := on_eq s x; rw [e]; rfl

theorem on_step (s : State) (x : Session) : (heard s x).ensureActive.step = s.step := by
  obtain ⟨ss, pow, parts, out, e⟩ := on_eq s x; rw [e]

theorem on_job (s : State) (x : Session) : (heard s x).ensureActive.job = s.job := by
  obtain ⟨ss, pow, parts, out, e⟩ := on_eq s x; rw [e]

theorem on_tiles (s : State) (x : Session) : (heard s x).ensureActive.tiles = s.tiles := by
  obtain ⟨ss, pow, parts, out, e⟩ := on_eq s x; rw [e]

/-- The session of the message stands where the effect leaves the sessions. -/
theorem stands (ht : Turn s h x) {t : State} (hs : t.sessions = (heard s x).ensureActive.sessions) :
    (t.session h.session).isSome = true := by
  obtain ⟨pow, parts, out, e⟩ := (heard s x).ensureActive_eq
  have e' : (heard s x).ensureActive.sessions = (heard s x).sessions := by rw [e]
  have found := ht.isSome_heard
  unfold State.session at found ⊢
  rw [hs, e']
  exact found

end Turn

/-! ## One message of STEP_CTRL -/

section
variable {s : State} {h : DctHdr} {x : Session} {c : Instr} {l : List Nat} {ok : Bool} {check : Nat} {run : State → State}

theorem stepOp_runs (ht : Turn s h x) (hp : (s.inState l && ok) = true) (hc : check = Err.ok) :
    s.stepOp h c l ok check run = answeredOk (run (heard s x).ensureActive) h :=
  ht.dct_runs hp hc rfl

theorem stepOp_forbidden (ht : Turn s h x) (hp : (s.inState l && ok) = false) :
    Answered (s.stepOp h c l ok check run) h Err.state ∧ OnlyReplied s (s.stepOp h c l ok check run) := by
  have e : s.stepOp h c l ok check run = _ := ht.dct_forbidden hp
  rw [e]
  exact ht.onlyAnswered _ _

theorem stepOp_failing (ht : Turn s h x) (hp : (s.inState l && ok) = true) (hc : check ≠ Err.ok) :
    Answered (s.stepOp h c l ok check run) h check ∧ OnlyReplied s (s.stepOp h c l ok check run) := by
  have e : s.stepOp h c l ok check run = _ := ht.dct_failing hp hc
  rw [e]
  exact ht.onlyAnswered _ _

end

theorem inState_one (s : State) (d : Nat) : s.inState [d] = decide (s.devState = d) := by
  simp [State.inState]

theorem inState_two (s : State) (d e : Nat) : s.inState [d, e] = (decide (s.devState = d) || decide (s.devState = e)) := by
  simp [State.inState]

/-! ## What is left of an effect once it is answered -/

namespace OnlyReplied
variable {s t : State}

theorem job (h : OnlyReplied s t) : t.job = s.job := congrArg (·.job) h.1
theorem step (h : OnlyReplied s t) : t.step = s.step := congrArg (·.step) h.1
theorem tiles (h : OnlyReplied s t) : t.tiles = s.tiles := congrArg (·.tiles) h.1
theorem devState (h : OnlyReplied s t) : t.devState = s.devState :=
  congrArg (getF · devState_state) (by rw [h.2] : t.dev.state = s.dev.state)
theorem committedV (h : OnlyReplied s t) : t.committedV = s.committedV :=
  congrArg (fun r : StepRegs => getF r.committed vintageCommitted_vintage) h.step
theorem openVintage (h : OnlyReplied s t) : t.openVintage = s.openVintage :=
  congrArg (fun r : StepRegs => getF r.openV vintageOpen_vintage) h.step
theorem vint (h : OnlyReplied s t) (v : Nat) : t.vint v = s.vint v := by unfold State.vint; rw [h.job]

end OnlyReplied

/-- The answer of a state whose session stands. -/
theorem answeredOk_answers {t : State} {h : DctHdr} (ht : (t.session h.session).isSome = true) :
    Answered (answeredOk t h) h Err.ok ∧ OnlyReplied t (answeredOk t h) :=
  ⟨State.answered_answer ht .ok Src.dct, State.onlyReplied_answer ⟨t.sessions, rfl⟩ ..⟩

/-! ## The effects -/

namespace State

/-- What a device shows that enters RUNNING with its next vintage open. -/
structure Runs (s t : State) : Prop where
  sessions : t.sessions = s.sessions
  devState : t.devState = DS.running
  vint : (t.vint (s.committedV + 1)).isSome = true
  committed : t.committedV = s.committedV

/-- A device in RUNNING begins the step after its committed vintage. -/
theorem runs_beginStep {s t : State} (hs : t.sessions = s.sessions) (hd : t.devState = DS.running) (hc : t.committedV = s.committedV)
    (hv : s.committedV + 1 < noVintage) : Runs s t.beginStep := by
  rw [← hc] at hv
  have h := beginStep_calm (Calm.refl t) hv
  exact ⟨h.sessions.trans hs, h.devState.trans hd, hc ▸ vint_beginStep t hv, h.committedV.trans hc⟩

/-- A new snapshot opens (R298), and nothing else of what a job shows changes. -/
theorem rotateSnapshot_calm {r s : State} (h : Calm r s) : Calm { r with job := { r.job with sigmaOpen := true } } s.rotateSnapshot := by
  unfold rotateSnapshot
  exact poolStatus_calm (allParts_calm h _).sigmaOpened

theorem toState_committedV (s : State) (d : Nat) : (s.toState d).committedV = s.committedV := by
  unfold committedV; rw [toState_step]

/-- A device just set to RUNNING begins its step once the snapshot is open and racks. -/
theorem runs_racked {s t : State} (hs : t.sessions = s.sessions) (hd : t.devState = DS.running) (hc : t.committedV = s.committedV)
    (hv : s.committedV + 1 < noVintage) :
    Runs s t.agreeEpoch.rotateSnapshot.startRacking.beginStep ∧
      t.agreeEpoch.rotateSnapshot.startRacking.beginStep.job.sigmaOpen = true := by
  have racked := startRacking_calm (rotateSnapshot_calm (agreeEpoch_calm (Calm.refl t)))
  have hc' := racked.committedV.trans hc
  exact ⟨runs_beginStep (racked.sessions.trans hs) (racked.devState.trans hd) hc' hv,
    (beginStep_calm (Calm.refl _) (by rw [hc']; exact hv)).sigma.trans racked.sigma⟩

theorem startRun_eq (s : State) :
    s.startRun = (s.newCounts.toState DS.running).agreeEpoch.rotateSnapshot.startRacking.beginStep := rfl

/-- START opens the snapshot of S(0) and the first vintage (R19, R302). -/
theorem startRun_runs (s : State) (hv : s.committedV + 1 < noVintage) : Runs s s.startRun ∧ s.startRun.job.sigmaOpen = true := by
  have counted := newCounts_calm (Calm.refl s)
  rw [startRun_eq]
  exact runs_racked ((toState_sessions s.newCounts _).trans counted.sessions) (devState_toState _ _ (by decide))
    ((toState_committedV s.newCounts _).trans counted.committedV) hv

theorem resumeRun_runs (s : State) (hv : s.committedV + 1 < noVintage) : Runs s s.resumeRun := by
  have begun := runs_beginStep (toState_sessions s DS.running) (devState_toState s _ (by decide)) (toState_committedV s _) hv
  have calm : Calm (s.toState DS.running).beginStep s.resumeRun := by
    unfold resumeRun
    exact .ite (Calm.refl _) (serveAll_calm (allTiles_calm (Calm.refl _) _))
  exact ⟨calm.sessions.trans begun.sessions, calm.devState.trans begun.devState, calm.vint begun.vint,
    calm.committedV.trans begun.committed⟩

theorem startEval_calm {r s : State} (h : Calm r s) (attempt : Nat) : Calm r (s.startEval attempt) := by
  unfold startEval
  exact ledger_calm (allTiles_calm (onJob_calm (clearReq_calm h _) rfl rfl rfl rfl) _) ..

theorem startEval_job (s : State) (attempt : Nat) :
    (s.startEval attempt).job.evaluating = true ∧ (s.startEval attempt).job.evalV = s.committedV := ⟨rfl, rfl⟩

/-! ### A checkpoint (R354 to R357) -/

theorem sendAll_eq (s : State) (ms : List Msg) : ∃ out, s.sendAll ms = { s with out := out } := by
  unfold sendAll
  induction ms generalizing s with
  | nil => exact ⟨s.out, rfl⟩
  | cons m ms ih => exact ih (s.send m)

/-- The next object of a checkpoint goes out as messages, and the ledger tells of it. -/
theorem nextObject_eq (s : State) : ∃ out parts seq,
    s.nextObject = { s with out := out, parts := parts, job := { s.job with ledgerSeq := seq } } := by
  unfold nextObject
  split
  · next x _ =>
    unfold startObject sendObject
    obtain ⟨out, e⟩ := s.sendAll_eq ((s.storedChunks s.committedV x.p).mapIdx (fun i b => .object (s.objName s.committedV x.p) x.endpoint i b))
    rw [e]
    exact ⟨out, _, _, rfl⟩
  · exact ⟨s.out, s.parts, s.job.ledgerSeq, rfl⟩

theorem startStreams_eq {s : State} (hi : s.ckptItem.isSome = true) (v : Nat) : ∃ out parts j,
    s.startStreams v = { s with out := out, parts := parts, job := j } ∧ j.ckpt.isSome = true := by
  obtain ⟨p, hp⟩ := Option.isSome_iff_exists.1 hi
  unfold startStreams onJob
  simp only [hp]
  obtain ⟨out, parts, seq, e⟩ := nextObject_eq { s with job := { s.job with
    ckpt := some { v := v, startAt := s.now, streams := s.ownStreams p.endpoints, doneDevs := [], objects := [], sent := false, acks := 0 } } }
  rw [e]
  exact ⟨out, parts, _, rfl, rfl⟩

/-- With CK loaded, a device that is not the job head starts its streams (R352, R354). -/
theorem startCkpt_eq {s : State} (hk : ∃ k ∈ s.sec.slots, k.1 = 0) (hi : s.ckptItem.isSome = true) (hh : s.isJobHead = false) (v : Nat) :
    ∃ out parts j, s.startCkpt v = { s with out := out, parts := parts, job := j } ∧ j.ckpt.isSome = true := by
  have hs : ¬ s.sec.slots.all (fun k => k.1 != 0) = true := by simpa using hk
  have hh' : ¬ (({ s with job := { s.job with ckptDue := false } } : State).isJobHead &&
      State.asks { s with job := { s.job with ckptDue := false } } 4) = true := by
    rw [show ({ s with job := { s.job with ckptDue := false } } : State).isJobHead = s.isJobHead from rfl, hh]; simp
  unfold startCkpt onJob
  dsimp only
  rw [if_neg hs, if_neg hh']
  exact startStreams_eq (s := { s with job := { s.job with ckptDue := false } }) hi v

/-! ### The end of a job -/

theorem poolStatus_job (s : State) : s.poolStatus.job = s.job := by unfold poolStatus; rfl
theorem poolStatus_step (s : State) : s.poolStatus.step = s.step := by unfold poolStatus; rfl
theorem poolStatus_sessions (s : State) : s.poolStatus.sessions = s.sessions := by unfold poolStatus; rfl
theorem refreshOpen_job (s : State) : s.refreshOpen.job = s.job := by unfold refreshOpen refreshCellar; rfl
theorem refreshOpen_sessions (s : State) : s.refreshOpen.sessions = s.sessions := by unfold refreshOpen refreshCellar; rfl
theorem refreshOpen_committed (s : State) : s.refreshOpen.step.committed = s.step.committed := by unfold refreshOpen refreshCellar; rfl

/-- With no vintage uncommitted VINTAGE_OPEN reads that there is none (R20, R319). -/
theorem openVintage_refreshOpen {s : State} (h : s.job.uncommitted = []) : s.refreshOpen.openVintage = noVintage := by
  unfold refreshOpen refreshCellar openVintage
  simp only [h]
  rw [getF_setF _ ⟨by decide, by decide⟩]
  exact Nat.mod_eq_of_lt (by decide)

/-- What a device shows whose job has ended. -/
structure Cleared (s t : State) : Prop where
  sessions : t.sessions = s.sessions
  devState : t.devState = DS.loaded
  committed : t.committedV = 0
  openVintage : t.openVintage = noVintage
  job : t.job = { Job.reset with ledgerSeq := t.job.ledgerSeq }

/-- The registers and the job at their start, then LOADED. -/
theorem cleared_toState {s t : State} (hs : t.sessions = s.sessions) (hc : t.step.committed = 0)
    (hj : t.job = { Job.reset with ledgerSeq := t.job.ledgerSeq }) : Cleared s (t.refreshOpen.poolStatus.toState DS.loaded) where
  sessions := by rw [toState_sessions, poolStatus_sessions, refreshOpen_sessions, hs]
  devState := devState_toState _ _ (by decide)
  committed := by
    unfold committedV
    rw [toState_step, poolStatus_step, refreshOpen_committed, hc]
    decide
  openVintage := by
    have hu : t.job.uncommitted = [] := by rw [hj]; rfl
    have e := openVintage_refreshOpen hu
    unfold State.openVintage at e ⊢
    rw [toState_step, poolStatus_step, e]
  job := by rw [toState_job, poolStatus_job, refreshOpen_job]; exact hj

theorem cleared_of_calm {s u : State} (h : Calm s u) (ctl : Word) : Cleared s (State.toState (State.poolStatus (State.refreshOpen
    { u with
      step := { u.step with ctl := ctl, openV := 0xffffffffffff, committed := 0 }
      job := { Job.reset with ledgerSeq := u.job.ledgerSeq } })) DS.loaded) :=
  cleared_toState h.sessions rfl rfl

/-- What END clears of tiles, regions and pages leaves the rest (R406). -/
theorem clearJob_cleared (s : State) : Cleared s s.clearJob := by
  unfold clearJob
  extract_lets s1 s2 i r s3 s4 ctl
  have h2 : Calm s s2 := clearRegions_calm (clearRegions_calm (clearRegions_calm (clearRegions_calm (clearRegions_calm
    (haltStages_calm (Calm.refl s)) _) _) _) _) _
  have h4 : Calm s s4 := Calm.foldl _ (allTiles_calm h2 _) fun _ p hs => onPart_calm hs p _
  exact cleared_of_calm h4 ctl

end State

/-! ## The messages of STEP_CTRL where they are permitted -/

/-- RUNNING is not PAUSED: neither the check nor the effect takes the branch of PAUSED. -/
theorem not_paused {s : State} (x : Session) (hd : s.devState = DS.running) :
    s.devState ≠ DS.paused ∧ (heard s x).ensureActive.devState ≠ DS.paused := by
  rw [Turn.on_devState, hd]; decide

section
variable {s : State} {h : DctHdr} {x : Session} (ht : Turn s h x)
include ht

theorem exec_start (hd : s.devState = DS.loaded) (hs : s.isSpareHere = false) :
    exec (.start h) s = .next (answeredOk (heard s x).ensureActive.startRun h) :=
  congrArg Host.Outcome.next (stepOp_runs ht (by simp [inState_one, hd, hs]) rfl)

theorem exec_resume (hd : s.devState = DS.paused) :
    exec (.resume h) s = .next (answeredOk (heard s x).ensureActive.resumeRun h) :=
  congrArg Host.Outcome.next (stepOp_runs ht (by simp [inState_one, hd]) rfl)

theorem exec_pause (hd : s.devState = DS.running) :
    exec (.pause h) s = .next (answeredOk ((heard s x).ensureActive.setReq stepCtl_pauseReq) h) :=
  congrArg Host.Outcome.next (stepOp_runs ht (by simp [inState_one, hd]) rfl)

theorem exec_eval_running (hd : s.devState = DS.running) :
    exec (.eval h) s = .next (answeredOk ((heard s x).ensureActive.setReq stepCtl_evalReq) h) := by
  obtain ⟨n1, n2⟩ := not_paused x hd
  refine congrArg Host.Outcome.next ((stepOp_runs ht (by simp [inState_two, hd]) (if_neg fun c => n1 c.1)).trans ?_)
  rw [if_neg n2]

theorem exec_eval_paused (hd : s.devState = DS.paused) (he : s.job.evaluating = false) :
    exec (.eval h) s = .next (answeredOk ((heard s x).ensureActive.startEval 0) h) := by
  refine congrArg Host.Outcome.next ((stepOp_runs ht (by simp [inState_two, hd]) (if_neg fun c => by simp [he] at c)).trans ?_)
  rw [if_pos ((Turn.on_devState s x).trans hd)]

theorem exec_ckpt_running (hd : s.devState = DS.running) :
    exec (.ckpt h) s = .next (answeredOk ((heard s x).ensureActive.onJob (fun j => { j with ckptDue := true })) h) := by
  obtain ⟨n1, n2⟩ := not_paused x hd
  refine congrArg Host.Outcome.next ((stepOp_runs ht (by simp [inState_two, hd]) (if_neg fun c => n1 c.1)).trans ?_)
  rw [if_neg n2]

theorem exec_ckpt_paused (hd : s.devState = DS.paused) (hc : s.job.ckpt = none) :
    exec (.ckpt h) s = .next (answeredOk ((heard s x).ensureActive.startCkpt s.committedV) h) := by
  refine congrArg Host.Outcome.next ((stepOp_runs ht (by simp [inState_two, hd]) (if_neg fun c => by simp [hc] at c)).trans ?_)
  rw [if_pos ((Turn.on_devState s x).trans hd), Turn.on_committedV]

theorem exec_endJob (hd : s.devState = DS.paused) :
    exec (.endJob h) s = .next (answeredOk (heard s x).ensureActive.clearJob h) :=
  congrArg Host.Outcome.next (stepOp_runs ht (by simp [inState_one, hd]) rfl)

/-! ## What they leave -/

/-- An effect that leaves the sessions is answered, and what it did stands. -/
theorem exec_answered {c : Instr} {t : State} (e : exec c s = .next (answeredOk t h))
    (hs : t.sessions = (heard s x).ensureActive.sessions) :
    ∃ u, exec c s = .next u ∧ Answered u h Err.ok ∧ OnlyReplied t u :=
  ⟨_, e, answeredOk_answers (ht.stands hs)⟩

theorem start_leaves (hd : s.devState = DS.loaded) (hs : s.isSpareHere = false) (hv : s.committedV + 1 < noVintage) :
    ∃ t, exec (.start h) s = .next t ∧ Answered t h Err.ok ∧ t.devState = DS.running ∧ t.job.sigmaOpen = true ∧
      (t.vint (s.committedV + 1)).isSome = true ∧ t.committedV = s.committedV := by
  rw [← Turn.on_committedV s x] at hv ⊢
  obtain ⟨runs, sigma⟩ := State.startRun_runs _ hv
  obtain ⟨u, e, ha, ho⟩ := exec_answered ht (exec_start ht hd hs) runs.sessions
  exact ⟨u, e, ha, ho.devState.trans runs.devState, (congrArg Job.sigmaOpen ho.job).trans sigma, ho.vint _ ▸ runs.vint,
    ho.committedV.trans runs.committed⟩

theorem resume_leaves (hd : s.devState = DS.paused) (hv : s.committedV + 1 < noVintage) :
    ∃ t, exec (.resume h) s = .next t ∧ Answered t h Err.ok ∧ t.devState = DS.running ∧
      (t.vint (s.committedV + 1)).isSome = true ∧ t.committedV = s.committedV := by
  rw [← Turn.on_committedV s x] at hv ⊢
  have runs := State.resumeRun_runs _ hv
  obtain ⟨u, e, ha, ho⟩ := exec_answered ht (exec_resume ht hd) runs.sessions
  exact ⟨u, e, ha, ho.devState.trans runs.devState, ho.vint _ ▸ runs.vint, ho.committedV.trans runs.committed⟩

/-- A request set in RUNNING is all that its message leaves. -/
theorem req_leaves {c : Instr} {f : Field} (e : exec c s = .next (answeredOk ((heard s x).ensureActive.setReq f) h)) :
    ∃ t, exec c s = .next t ∧ Answered t h Err.ok ∧ t.devState = s.devState ∧
      t.step = { s.step with ctl := setF s.step.ctl f 1 } ∧ t.job = s.job ∧ t.tiles = s.tiles := by
  obtain ⟨u, e, ha, ho⟩ := exec_answered ht e rfl
  have hst : ((heard s x).ensureActive.setReq f).step = { s.step with ctl := setF s.step.ctl f 1 } := by
    unfold State.setReq; rw [Turn.on_step]
  exact ⟨u, e, ha, ho.devState.trans (Turn.on_devState s x), ho.step.trans hst, ho.job.trans (Turn.on_job s x),
    ho.tiles.trans (Turn.on_tiles s x)⟩

theorem eval_paused_leaves (hd : s.devState = DS.paused) (he : s.job.evaluating = false) :
    ∃ t, exec (.eval h) s = .next t ∧ Answered t h Err.ok ∧ t.job.evaluating = true ∧ t.job.evalV = s.committedV ∧
      t.devState = DS.paused := by
  have calm := State.startEval_calm (Calm.refl (heard s x).ensureActive) 0
  obtain ⟨evaluating, evalV⟩ := (heard s x).ensureActive.startEval_job 0
  obtain ⟨u, e, ha, ho⟩ := exec_answered ht (exec_eval_paused ht hd he) calm.sessions
  exact ⟨u, e, ha, (congrArg Job.evaluating ho.job).trans evaluating,
    (congrArg Job.evalV ho.job).trans (evalV.trans (Turn.on_committedV s x)),
    ho.devState.trans (calm.devState.trans ((Turn.on_devState s x).trans hd))⟩

theorem ckpt_running_leaves (hd : s.devState = DS.running) :
    ∃ t, exec (.ckpt h) s = .next t ∧ Answered t h Err.ok ∧ t.job = { s.job with ckptDue := true } ∧ t.step = s.step ∧
      t.tiles = s.tiles := by
  obtain ⟨u, e, ha, ho⟩ := exec_answered ht (exec_ckpt_running ht hd) rfl
  have hj : ((heard s x).ensureActive.onJob (fun j => { j with ckptDue := true })).job = { s.job with ckptDue := true } := by
    unfold State.onJob; rw [Turn.on_job]
  exact ⟨u, e, ha, ho.job.trans hj, ho.step.trans (Turn.on_step s x), ho.tiles.trans (Turn.on_tiles s x)⟩

theorem ckpt_paused_leaves (hd : s.devState = DS.paused) (hc : s.job.ckpt = none) (hk : ∃ k ∈ s.sec.slots, k.1 = 0)
    (hi : s.ckptItem.isSome = true) (hh : s.isJobHead = false) :
    ∃ t, exec (.ckpt h) s = .next t ∧ Answered t h Err.ok ∧ t.job.ckpt.isSome = true ∧ t.devState = DS.paused ∧ t.tiles = s.tiles := by
  obtain ⟨ss, pow, parts, out, on⟩ := Turn.on_eq s x
  obtain ⟨out', parts', j, es, hj⟩ := State.startCkpt_eq (s := (heard s x).ensureActive) (by rw [on]; exact hk) (by rw [on]; exact hi)
    (by rw [on]; exact hh) s.committedV
  obtain ⟨u, e, ha, ho⟩ := exec_answered ht (exec_ckpt_paused ht hd hc) (by rw [es])
  refine ⟨u, e, ha, ?_, ho.devState.trans ?_, ho.tiles.trans ?_⟩
  · rw [ho.job, es]; exact hj
  · rw [es]; exact (Turn.on_devState s x).trans hd
  · rw [es]; exact Turn.on_tiles s x

theorem endJob_leaves (hd : s.devState = DS.paused) :
    ∃ t, exec (.endJob h) s = .next t ∧ Answered t h Err.ok ∧ t.devState = DS.loaded ∧ t.job.uncommitted = [] ∧
      t.committedV = 0 ∧ t.openVintage = noVintage := by
  have cleared := (heard s x).ensureActive.clearJob_cleared
  obtain ⟨u, e, ha, ho⟩ := exec_answered ht (exec_endJob ht hd) cleared.sessions
  have hj : (heard s x).ensureActive.clearJob.job.uncommitted = [] := by rw [cleared.job]; rfl
  exact ⟨u, e, ha, ho.devState.trans cleared.devState, (congrArg Job.uncommitted ho.job).trans hj,
    ho.committedV.trans cleared.committed, ho.openVintage.trans cleared.openVintage⟩

end

/-- Settles O28: each message is `stepOp` on its states, its effect leaves the sessions, and its answer leaves the effect. -/
theorem stepControl : Obligations.StepControl := by
  intro s h x _ ht on
  refine ⟨exec_start ht, exec_resume ht, exec_pause ht, exec_eval_running ht, exec_eval_paused ht, exec_ckpt_running ht,
    exec_ckpt_paused ht, exec_endJob ht, start_leaves ht, resume_leaves ht, fun hd => ?pause, fun hd => ?eval,
    eval_paused_leaves ht, ckpt_running_leaves ht, ckpt_paused_leaves ht, endJob_leaves ht, fun hd => ?noStart, fun hd => ?noResume,
    fun hd => ?noPause, fun hd => ?noEnd, fun hd he => ?busyEval, fun hd hc => ?busyCkpt⟩
  case pause =>
    obtain ⟨t, e, ha, hst, rest⟩ := req_leaves ht (exec_pause ht hd)
    exact ⟨t, e, ha, hst.trans hd, rest⟩
  case eval =>
    obtain ⟨t, e, ha, -, rest⟩ := req_leaves ht (exec_eval_running ht hd)
    exact ⟨t, e, ha, rest⟩
  case noStart => exact ⟨_, rfl, stepOp_forbidden ht (by rcases hd with hd | hd <;> simp [inState_one, hd])⟩
  case noResume => exact ⟨_, rfl, stepOp_forbidden ht (by simp [inState_one, hd])⟩
  case noPause => exact ⟨_, rfl, stepOp_forbidden ht (by simp [inState_one, hd])⟩
  case noEnd => exact ⟨_, rfl, stepOp_forbidden ht (by simp [inState_one, hd])⟩
  case busyEval =>
    have busy : (if s.devState = DS.paused ∧ s.job.evaluating = true then Err.busy else Err.ok) = Err.busy := if_pos ⟨hd, he⟩
    exact ⟨_, rfl, busy ▸ stepOp_failing ht (by simp [inState_two, hd]) (by rw [busy]; decide)⟩
  case busyCkpt =>
    have busy : (if s.devState = DS.paused ∧ s.job.ckpt.isSome = true then Err.busy else Err.ok) = Err.busy := if_pos ⟨hd, hc⟩
    exact ⟨_, rfl, busy ▸ stepOp_failing ht (by simp [inState_two, hd]) (by rw [busy]; decide)⟩

end Sys2Proof.Machine

/-!
PROOFS. RESTORE, its reports and its commit, and the start of an epoch (R17, R361 to R363).
-/
namespace Sys2Proof.Machine

/-- What an EVENT leaves: all but messages, sessions, the ledger and two device registers. -/
structure SameBody (s t : State) : Prop where
  state : t.dev.state = s.dev.state
  step : t.step = s.step
  job : t.job = { s.job with ledgerSeq := t.job.ledgerSeq }
  mem : t.mem = s.mem
  tiles : t.tiles = s.tiles

namespace SameBody
variable {r s t : State}

theorem refl (s : State) : SameBody s s := ⟨rfl, rfl, rfl, rfl, rfl⟩

theorem trans (a : SameBody r s) (b : SameBody s t) : SameBody r t :=
  ⟨b.state.trans a.state, b.step.trans a.step, by rw [b.job, a.job], b.mem.trans a.mem, b.tiles.trans a.tiles⟩

theorem devState (h : SameBody s t) : t.devState = s.devState := congrArg (getF · devState_state) h.state

theorem committedV (h : SameBody s t) : t.committedV = s.committedV :=
  congrArg (fun r : StepRegs => getF r.committed vintageCommitted_vintage) h.step

theorem gen (h : SameBody s t) : t.job.gen = s.job.gen := by rw [h.job]

theorem restore (h : SameBody s t) : t.job.restore = s.job.restore := by rw [h.job]

theorem sigma (h : SameBody s t) : t.job.sigmaOpen = s.job.sigmaOpen := by rw [h.job]

end SameBody

namespace State
variable {s : State}

/-! ## EVENTs -/

theorem ledger_sameBody (s : State) (p cls code tile arg v a : Nat) : SameBody s (s.ledger p cls code tile arg v a) := by
  unfold ledger setPart; exact ⟨rfl, rfl, rfl, rfl, rfl⟩

theorem errRecord_sameBody (s : State) (code src : Nat) : SameBody s (s.errRecord code src) := by
  obtain ⟨w, e⟩ := errRecord_eq s code src
  rw [e]
  exact ⟨rfl, rfl, rfl, rfl, rfl⟩

theorem sendTo_sameBody (s : State) (x : Session) (m : Msg) (b : Bool) : SameBody s (s.sendTo x m b) := by
  unfold sendTo send; exact ⟨rfl, rfl, rfl, rfl, rfl⟩

theorem toHosts_sameBody (s : State) (m : Msg) (b : Bool) : SameBody s (s.toHosts m b) := by
  unfold toHosts
  generalize s.hostSessions = xs
  induction xs generalizing s with
  | nil => exact .refl s
  | cons x xs ih => exact (sendTo_sameBody s x m b).trans (ih _)

theorem suppressed_sameBody (s : State) (w : Word) : SameBody s { s with dev := { s.dev with eventCtl := w } } :=
  ⟨rfl, rfl, rfl, rfl, rfl⟩

theorem event_sameBody (s : State) (code cls arg src : Nat) (always : Bool) : SameBody s (s.event code cls arg src always) := by
  unfold event
  extract_lets noted
  have h : SameBody s noted := (ledger_sameBody s ..).trans (errRecord_sameBody _ ..)
  split
  · exact h.trans (toHosts_sameBody ..)
  · exact h.trans (suppressed_sameBody ..)

/-! ## The reports on a candidate (R361, R362, log 88) -/

/-- A report that counts: it is of a healthy device of the job, at the job head, in LOADED or PAUSED. -/
theorem restoreReport_counts {x : Restore} {c : Nat × Nat} {rest : List (Nat × Nat)} {dev : Nat} (hr : s.job.restore = some x)
    (hc : x.cands = c :: rest) (ha : s.alive = true) (hh : s.isJobHead = true) (hd : s.inState [DS.loaded, DS.paused] = true)
    (hm : dev ∈ s.jobIds.filter s.healthy) (stage code : Nat) :
    s.restoreReport dev stage code =
      if code ≠ Err.ok then
        if rest.isEmpty then
          ((s.event code 6 c.1 Src.step false).send (.restoreReject c.1 c.2 stage code)).failRestore (x.wrote || decide (5 ≤ stage))
        else ((s.event code 6 c.1 Src.step false).send (.restoreReject c.1 c.2 stage code)).onJob
          (fun j => { j with restore := some { cands := rest, reports := [], wrote := x.wrote || decide (5 ≤ stage) } })
      else if stage < 6 then s.onJob (fun j => { j with restore := some { x with wrote := x.wrote || decide (5 ≤ stage) } })
      else
        let rs := (dev :: x.reports).eraseDups
        let s := s.onJob (fun j => { j with restore := some { x with reports := rs, wrote := x.wrote || decide (5 ≤ stage) } })
        if (s.jobIds.filter s.healthy).all (fun i => rs.contains i) then s.send (.restoreCommit c.1 c.2) else s := by
  have guard : (!s.alive || !(s.isJobHead || s.jobHead == some dev && code != Err.ok) || !s.inState [DS.loaded, DS.paused] ||
      !(s.jobIds.filter s.healthy).contains dev) = false := by
    rw [ha, hh, hd, List.contains_iff_mem.2 hm]; rfl
  unfold restoreReport
  rw [hr]
  dsimp only
  rw [guard, hc, hh]
  rfl

/-- With no candidate left no restore is under way. -/
theorem failRestore_restore (s : State) (wrote : Bool) : (s.failRestore wrote).job.restore = none := by
  unfold failRestore
  extract_lets failed
  have none_left : failed.job.restore = none := (event_sameBody _ ..).restore
  split
  · rw [(clearJob_cleared failed).job]; rfl
  · exact none_left

/-! ## RESTORE_COMMIT (R363) -/

/-- What a device shows that stands at the vintage it restored. -/
structure Restored (v gen : Nat) (t : State) : Prop where
  devState : t.devState = DS.paused
  committed : t.committedV = v
  gen : t.job.gen = gen + 1
  restore : t.job.restore = none
  sigma : t.job.sigmaOpen = true

/-- The state placed, with its scale state, on a device cleared as by END. -/
def placed (s : State) (state : List (Nat × List Byte)) (scales : List TensorState) : State :=
  (state.foldl (fun s x => if (s.pageOf x.1).isSome then s.hbmWrite x.1 x.2 else s) s.clearJob).allTiles (fun t =>
    { t with slots := Sparse.mapV Slot.reset (restoredSlot scales) t.slots, slotsB := Sparse.mapV Slot.reset (restoredSlot scales) t.slots })

/-- The vintage committed, with its generation. -/
def atVintage (s : State) (v gen : Nat) : State :=
  { s.onJob (fun j => { j with gen := gen + 1 }) with step := { s.step with committed := setF 0 vintageCommitted_vintage v } }

theorem restoreCommit_runs (ha : s.alive = true) (hd : s.inState [DS.loaded, DS.paused] = true) (hr : s.job.restore.isSome = true)
    (hs : s.isSpareHere = false) (v gen : Nat) (state : List (Nat × List Byte)) (scales : List TensorState) :
    s.restoreCommit v gen state scales =
      (((((((s.placed state scales).newCounts.atVintage v gen).refreshOpen.rotateSnapshot.startRacking).agreeEpoch).toState
        DS.paused).ledger 0 0 20 0xff 0 v 0).event Err.ok 6 v Src.step false) := by
  have guard : (!s.alive || !s.inState [DS.loaded, DS.paused] || s.job.restore.isNone || s.isSpareHere) = false := by
    rw [ha, hd, Option.isNone_eq_false_iff.2 hr, hs]; rfl
  unfold restoreCommit
  rw [guard]
  rfl

theorem placed_calm (s : State) (state : List (Nat × List Byte)) (scales : List TensorState) : Calm s.clearJob (s.placed state scales) :=
  allTiles_calm (Calm.foldl _ (.refl _) fun _ x h => .ite (hbmWrite_calm h x.1 x.2) h) _

/-- From the committed vintage on, only the state and the snapshot change. -/
theorem restored_of_atVintage {v gen : Nat} (hv : v < 2 ^ 48) (hr : s.job.restore = none) :
    Restored v gen ((((((s.atVintage v gen).refreshOpen.rotateSnapshot.startRacking).agreeEpoch).toState
      DS.paused).ledger 0 0 20 0xff 0 v 0).event Err.ok 6 v Src.step false) := by
  have racked := agreeEpoch_calm (startRacking_calm (rotateSnapshot_calm (refreshOpen_calm (.refl (s.atVintage v gen)))))
  generalize State.agreeEpoch _ = u at racked ⊢
  have noted := (ledger_sameBody (u.toState DS.paused) 0 0 20 0xff 0 v 0).trans (event_sameBody _ Err.ok 6 v Src.step false)
  have committed : (s.atVintage v gen).committedV = v := by
    unfold committedV atVintage
    rw [getF_setF _ ⟨by decide, by decide⟩]
    exact Nat.mod_eq_of_lt hv
  exact {
    devState := noted.devState.trans (devState_toState u _ (by decide))
    committed := noted.committedV.trans ((toState_committedV u _).trans (racked.committedV.trans committed))
    gen := noted.gen.trans ((congrArg Job.gen (toState_job u _)).trans racked.gen)
    restore := noted.restore.trans ((congrArg Job.restore (toState_job u _)).trans (racked.restore.trans hr))
    sigma := noted.sigma.trans ((congrArg Job.sigmaOpen (toState_job u _)).trans racked.sigma) }

theorem restoreCommit_restored (ha : s.alive = true) (hd : s.inState [DS.loaded, DS.paused] = true) (hr : s.job.restore.isSome = true)
    (hs : s.isSpareHere = false) {v : Nat} (hv : v < 2 ^ 48) (gen : Nat) (state : List (Nat × List Byte)) (scales : List TensorState) :
    Restored v gen (s.restoreCommit v gen state scales) := by
  have counted := newCounts_calm (placed_calm s state scales)
  rw [restoreCommit_runs ha hd hr hs]
  exact restored_of_atVintage hv (counted.restore.trans (by rw [(clearJob_cleared s).job]; rfl))

/-! ## The start of an epoch (R17, log 35) -/

/-- The instant E on this device's count, where it has none its present count. -/
def epochInstant (s : State) : Nat := s.time.epochE.getD s.time.count

theorem epochStart_early (h : s.time.count < s.epochInstant) : s.epochStart = s := by
  unfold epochStart
  dsimp only
  rw [if_pos (show s.time.count < s.time.epochE.getD s.time.count from h), ite_self]

theorem epochStart_establishes (ha : s.alive = true) (hi : s.img.cur.isSome = true) (he : s.job.established = false)
    (hd : s.inState [DS.running, DS.paused] = true) (hE : s.epochInstant ≤ s.time.count) :
    s.epochStart = { s with
      time := { s.time with offset := -(s.epochInstant : Int), epochE := none, epoch := s.time.epoch % 31 + 1 }
      job := { s.job with established := true } } := by
  have guard : (!s.alive || s.img.cur.isNone || s.job.established || !s.inState [DS.running, DS.paused]) = false := by
    rw [ha, Option.isNone_eq_false_iff.2 hi, he, hd]; rfl
  unfold epochStart
  rw [guard]
  exact if_neg (Nat.not_lt.2 hE)

end State

/-! ## The statements -/

theorem inState_of_or {s : State} {d e : Nat} (h : s.devState = d ∨ s.devState = e) : s.inState [d, e] = true := by
  rw [inState_two]; simpa using h

section
variable {s : State} {h : DctHdr} {x : Session}

/-- RESTORE keeps its candidates in descending order (R361). -/
theorem restore_leaves (ht : Turn s h x) {cs : List (Nat × Nat)} (hd : s.devState = DS.loaded ∨ s.devState = DS.paused)
    (hs : s.isSpareHere = false) (hn : cs ≠ []) (hl : cs.length ≤ 16) (hr : s.job.restore = none) :
    ∃ t, exec (.restore h cs) s = .next t ∧ Answered t h Err.ok ∧
      t.job = { s.job with restore := some { cands := State.sortCands cs, reports := [], wrote := false } } ∧ t.tiles = s.tiles := by
  have checks : (if 16 < cs.length then Err.length else if s.job.restore.isSome then Err.busy else Err.ok) = Err.ok := by
    rw [if_neg (Nat.not_lt.2 hl), hr]; rfl
  have hp : (s.inState [DS.loaded, DS.paused] && !s.isSpareHere) = true := by rw [inState_of_or hd, hs]; rfl
  have runs : s.restore h cs = answeredOk ((heard s x).ensureActive.onJob (fun j =>
      { j with restore := some { cands := State.sortCands cs, reports := [], wrote := false } })) h := by
    refine (stepOp_runs ht hp checks).trans ?_
    rw [if_neg (by simpa using hn)]
  obtain ⟨u, e, answered, ho⟩ := exec_answered ht (c := .restore h cs) (congrArg Host.Outcome.next runs) rfl
  have hj : ((heard s x).ensureActive.onJob (fun j =>
      { j with restore := some { cands := State.sortCands cs, reports := [], wrote := false } })).job =
      { s.job with restore := some { cands := State.sortCands cs, reports := [], wrote := false } } := by
    unfold State.onJob; rw [Turn.on_job]
  exact ⟨u, e, answered, ho.job.trans hj, ho.tiles.trans (Turn.on_tiles s x)⟩

end

/-- Settles O29: a report that counts goes one of four ways, the commit is a clearing followed by bookkeeping, and an epoch
starts at its instant. -/
theorem restoreAndEpoch : Obligations.RestoreAndEpoch := by
  intro s _
  refine ⟨fun h x cs ht => restore_leaves ht, ?reports, ?commit, ?epoch, ?early⟩
  case reports =>
    intro r c rest dev stage code hr hc ha hh hd hm
    have counts := State.restoreReport_counts hr hc ha hh (inState_of_or hd) hm stage code
    have run : exec (.restoreReport dev stage code) s = .next (s.restoreReport dev stage code) := rfl
    refine ⟨fun ok early => ?stage, fun ok late all => ?done, fun bad more => ?next, fun bad last => ?fails⟩
    case stage => rw [run, counts, if_neg (not_not.2 ok), if_pos early]
    case done =>
      rw [if_neg (not_not.2 ok), if_neg (Nat.not_lt.2 late)] at counts
      refine ⟨_, run, ?_⟩
      rw [counts]
      dsimp only
      rw [if_pos]
      · exact ⟨rfl, rfl⟩
      · exact List.all_eq_true.2 fun i hi => List.contains_iff_mem.2 (List.mem_eraseDups.2 (all i hi))
    case next =>
      rw [if_pos bad, if_neg (by simpa using more)] at counts
      have told := State.event_sameBody s code 6 c.1 Src.step false
      refine ⟨_, run, ?_⟩
      rw [counts]
      exact ⟨rfl, told.mem, told.tiles⟩
    case fails =>
      rw [if_pos bad, if_pos (by simpa using last)] at counts
      exact ⟨_, run, by rw [counts]; exact State.failRestore_restore ..⟩
  case commit =>
    intro v gen st sc ha hd hr hs hv
    have restored := State.restoreCommit_restored ha (inState_of_or hd) hr hs hv gen st sc
    exact ⟨_, rfl, restored.devState, restored.committed, restored.gen, restored.restore, restored.sigma⟩
  case epoch =>
    intro ha hi he hd hE
    refine ⟨_, congrArg Host.Outcome.next (State.epochStart_establishes ha hi he (inState_of_or hd) hE), rfl, rfl, rfl, rfl, ?_⟩
    unfold State.now State.epochInstant
    dsimp only
    omega
  case early => exact fun h => congrArg Host.Outcome.next (State.epochStart_early h)

end Sys2Proof.Machine

/-!
PROOFS. Lanes and ports: what a write of a lane reads, what keeps the state and the lanes of a port, and where a port goes
that leaves ACTIVE (R379 to R382).
-/
namespace Sys2Proof.Machine

/-! ## Folds -/

/-- A fold that brings each member of its list to hold, and breaks none, leaves all of them holding. -/
theorem foldl_hits {σ α : Type} {P : α → σ → Prop} {f : σ → α → σ} {l : List α} {s : σ} {b : α}
    (hit : ∀ s, ∀ a ∈ l, P a (f s a)) (keep : ∀ s, ∀ a ∈ l, P b s → P b (f s a)) (h : b ∈ l ∨ P b s) : P b (l.foldl f s) := by
  induction l generalizing s with
  | nil => exact h.resolve_left List.not_mem_nil
  | cons a l ih =>
    refine ih (fun s c hc => hit s c (.tail a hc)) (fun s c hc => keep s c (.tail a hc)) ?_
    rcases h with h | h
    · rcases List.mem_cons.1 h with rfl | h
      · exact .inr (hit s b (.head l))
      · exact .inl h
    · exact .inr (keep s a (.head l) h)

/-! ## Fields of a lane in LNK_LANE_MAP -/

theorem laneMap_status_ok {k : Nat} (h : k < 5) : (laneMap_status k).ok := by unfold laneMap_status Field.ok; dsimp only; omega

theorem laneMap_logical_ok {k : Nat} (h : k < 5) : (laneMap_logical k).ok := by unfold laneMap_logical Field.ok; dsimp only; omega

theorem getF_status_setF_logical {j k : Nat} (hj : j < 5) (hk : k < 5) (w : Word) (v : Nat) :
    getF (setF w (laneMap_logical j) v) (laneMap_status k) = getF w (laneMap_status k) :=
  getF_setF_apart w (laneMap_logical_ok hj) (laneMap_status_ok hk) (by unfold Field.apart laneMap_status laneMap_logical; dsimp only; omega) v

theorem getF_logical_setF_status {j k : Nat} (hj : j < 5) (hk : k < 5) (w : Word) (v : Nat) :
    getF (setF w (laneMap_status j) v) (laneMap_logical k) = getF w (laneMap_logical k) :=
  getF_setF_apart w (laneMap_status_ok hj) (laneMap_logical_ok hk) (by unfold Field.apart laneMap_status laneMap_logical; dsimp only; omega) v

/-! ## A lane written -/

theorem laneSt_setLaneSt_same {k st : Nat} (hk : k < 5) (hs : st < 8) (p : Port) : laneSt (setLaneSt p k st) k = st := by
  unfold laneSt setLaneSt
  rw [getF_setF _ (laneMap_status_ok hk)]
  exact Nat.mod_eq_of_lt (by unfold laneMap_status; dsimp only; rwa [show 8 * k + 2 + 1 - 8 * k = 3 by omega])

theorem laneSt_setLaneSt_other {j k : Nat} (hj : j < 5) (hk : k < 5) (h : j ≠ k) (p : Port) (st : Nat) :
    laneSt (setLaneSt p k st) j = laneSt p j :=
  getF_setF_apart _ (laneMap_status_ok hk) (laneMap_status_ok hj) (by unfold Field.apart laneMap_status; dsimp only; omega) st

theorem dataLanes_setLaneSt {k : Nat} (hk : k < 5) (p : Port) (st : Nat) : dataLanes (setLaneSt p k st) = dataLanes p :=
  List.filter_congr fun _ hj => by unfold setLaneSt; rw [getF_logical_setF_status hk (List.mem_range.1 hj)]

theorem laneOf_setLane_same (p : Port) (k : Nat) (l : Lane) : laneOf (setLane p k l) k = l := Sparse.get_set_same ..

theorem laneOf_setLane_other {j k : Nat} (h : j ≠ k) (p : Port) (l : Lane) : laneOf (setLane p k l) j = laneOf p j :=
  Sparse.get_set_other _ _ _ h

theorem linkSt_setLane (p : Port) (k : Nat) (l : Lane) : linkSt (setLane p k l) = linkSt p := by unfold linkSt setLane; rfl

theorem laneSt_setLane (p : Port) (k : Nat) (l : Lane) (j : Nat) : laneSt (setLane p k l) j = laneSt p j := by
  unfold laneSt setLane; rfl

theorem dataLanes_setLane (p : Port) (k : Nat) (l : Lane) : dataLanes (setLane p k l) = dataLanes p := by
  unfold dataLanes setLane; rfl

theorem mem_dataLanes_lt {p : Port} {k : Nat} (h : k ∈ dataLanes p) : k < 5 := List.mem_range.1 (List.mem_filter.1 h).1

theorem standby_lt {p : Port} {k : Nat} (h : standby p = some k) : k < 5 := List.mem_range.1 (List.mem_of_find?_eq_some h)

/-- A flap of a lane: its record, and its status where the figure reaches suppress. -/
theorem flapLane_eq (p : Port) (k now : Nat) : ∃ l, flapLane p k now = setLane p k l ∨
    flapLane p k now = setLaneSt (setLane p k l) k LaneSt.damped := by
  unfold flapLane
  dsimp only
  split
  · exact ⟨_, .inr rfl⟩
  · exact ⟨_, .inl rfl⟩

theorem flapLane_status (p : Port) (k now : Nat) : (flapLane p k now).status = p.status := by
  obtain ⟨l, e | e⟩ := flapLane_eq p k now <;> rw [e] <;> rfl

theorem dataLanes_flapLane (p : Port) {k : Nat} (hk : k < 5) (now : Nat) : dataLanes (flapLane p k now) = dataLanes p := by
  obtain ⟨l, e | e⟩ := flapLane_eq p k now
  · rw [e, dataLanes_setLane]
  · rw [e, dataLanes_setLaneSt hk, dataLanes_setLane]

theorem laneSt_flapLane (p : Port) {k : Nat} (hk : k < 5) (now : Nat) :
    laneSt (flapLane p k now) k = laneSt p k ∨ laneSt (flapLane p k now) k = LaneSt.damped := by
  obtain ⟨l, e | e⟩ := flapLane_eq p k now
  · exact .inl (by rw [e, laneSt_setLane])
  · exact .inr (by rw [e, laneSt_setLaneSt_same hk (by decide)])

/-! ## Lanes assigned anew or swapped (R380, R381) -/

/-- A port whose lanes have at most changed their logical places. -/
structure SameLanes (p q : Port) : Prop where
  lanes : q.lanes = p.lanes
  status : ∀ k < 5, getF q.laneMap (laneMap_status k) = getF p.laneMap (laneMap_status k)
  state : getF q.status lnkStatus_state = getF p.status lnkStatus_state

theorem SameLanes.refl (p : Port) : SameLanes p p := ⟨rfl, fun _ _ => rfl, rfl⟩

theorem SameLanes.laneSt {p q : Port} (h : SameLanes p q) {k : Nat} (hk : k < 5) : laneSt q k = laneSt p k := h.status k hk

theorem SameLanes.linkSt {p q : Port} (h : SameLanes p q) : linkSt q = linkSt p := h.state

/-- A lane given a logical place. -/
theorem SameLanes.place {p q : Port} (h : SameLanes p q) {j : Nat} (hj : j < 5) (v : Nat) :
    SameLanes p { q with laneMap := setF q.laneMap (laneMap_logical j) v } :=
  ⟨h.lanes, fun k hk => (getF_status_setF_logical hj hk _ v).trans (h.status k hk), h.state⟩

/-- A change of the spare lane's flag. -/
theorem SameLanes.spare {p q : Port} (h : SameLanes p q) (v : Nat) : SameLanes p { q with status := setF q.status lnkStatus_spareUsed v } :=
  ⟨h.lanes, h.status, (getF_setF_beside (by decide) _ v).trans h.state⟩

/-- A change of the width. -/
theorem SameLanes.width {p q : Port} (h : SameLanes p q) (v : Nat) : SameLanes p { q with status := setF q.status lnkStatus_width v } :=
  ⟨h.lanes, h.status, (getF_setF_beside (by decide) _ v).trans h.state⟩

theorem assignLanes_sameLanes (p : Port) : SameLanes p (assignLanes p) := by
  unfold assignLanes
  extract_lets g w placed
  have h : SameLanes p placed := List.foldlRecOn _ _ (.refl p) fun q hq k hk => hq.place (List.mem_range.1 hk) _
  clear_value placed
  exact (h.width w).spare _

theorem swapIn_sameLanes (p : Port) {k : Nat} (hk : k < 5) : SameLanes p (swapIn p k) := by
  unfold swapIn
  split
  · exact .refl p
  · next j hj =>
    extract_lets i m swapped
    have h : SameLanes p swapped :=
      ⟨rfl, (((SameLanes.refl p).place (standby_lt hj) i).place hk 7).status, rfl⟩
    clear_value swapped
    exact h.spare _

/-! ## A port in another state (R379) -/

theorem linkSt_atState (p : Port) {st : Nat} (h : st < 16) : linkSt (atState p st) = st := by
  have here (w : Word) : getF (setF w lnkStatus_state st) lnkStatus_state = st :=
    (getF_setF w ⟨by decide, by decide⟩ st).trans (Nat.mod_eq_of_lt h)
  unfold linkSt atState
  dsimp only
  split <;> split <;> simp only [getF_setF_beside (f := lnkStatus_width) (g := lnkStatus_state) (by decide),
    getF_setF_beside (f := lnkStatus_downCause) (g := lnkStatus_state) (by decide),
    getF_setF_beside (f := lnkStatus_up) (g := lnkStatus_state) (by decide), here]

theorem activeSt_of_linkSt {p : Port} {st : Nat} (h : linkSt p = st) (hs : st ≠ LS.active) : activeSt p = false := by
  unfold activeSt; rw [h]; simpa using hs

/-- A port moved to another state, its lanes and its die as they were. -/
structure MovedTo (p : Port) (st : Nat) (q : Port) : Prop where
  link : linkSt q = st
  laneMap : q.laneMap = p.laneMap
  dieLost : q.dieLost = p.dieLost

/-- A port whose state, lanes and die are as they were. -/
structure SamePort (p q : Port) : Prop where
  status : q.status = p.status
  laneMap : q.laneMap = p.laneMap
  lanes : q.lanes = p.lanes
  dieLost : q.dieLost = p.dieLost

theorem SamePort.refl (p : Port) : SamePort p p := ⟨rfl, rfl, rfl, rfl⟩

theorem SamePort.trans {p q r : Port} (a : SamePort p q) (b : SamePort q r) : SamePort p r :=
  ⟨b.status.trans a.status, b.laneMap.trans a.laneMap, b.lanes.trans a.lanes, b.dieLost.trans a.dieLost⟩

theorem SamePort.linkSt {p q : Port} (h : SamePort p q) : linkSt q = linkSt p := congrArg (getF · lnkStatus_state) h.status

theorem MovedTo.stays {p q r : Port} {st : Nat} (h : MovedTo p st q) (e : SamePort q r) : MovedTo p st r :=
  ⟨e.linkSt.trans h.link, e.laneMap.trans h.laneMap, e.dieLost.trans h.dieLost⟩

theorem State.port_of_ports {s t : State} (e : t.ports = s.ports) (n : Nat) : t.port n = s.port n :=
  congrArg (Sparse.get Port.reset · n) e

/-- Every port's state, lanes and die are as they were. -/
def SamePorts (r s : State) : Prop := ∀ n, SamePort (r.port n) (s.port n)

namespace SamePorts
variable {r s t : State}

theorem refl (s : State) : SamePorts s s := fun n => .refl (s.port n)

theorem trans (a : SamePorts r s) (b : SamePorts s t) : SamePorts r t := fun n => (a n).trans (b n)

/-- An update of anything but the ports. -/
theorem upd (h : SamePorts r s) (e : t.ports = s.ports) : SamePorts r t := fun n => by
  rw [State.port_of_ports e]; exact h n

theorem onPort (h : SamePorts r s) (n : Nat) {f : Port → Port} (hf : ∀ p, SamePort p (f p)) : SamePorts r (s.onPort n f) := fun k => by
  by_cases e : k = n
  · subst e; rw [State.port_onPort_same]; exact (h k).trans (hf _)
  · rw [State.port_onPort_other s f e]; exact h k

theorem ite {a b : State} {c : Prop} [Decidable c] (ha : SamePorts r a) (hb : SamePorts r b) : SamePorts r (if c then a else b) := by
  split <;> assumption

theorem foldl {α : Type} {f : State → α → State} (l : List α) (h : SamePorts r s) (hf : ∀ s x, SamePorts r s → SamePorts r (f s x)) :
    SamePorts r (l.foldl f s) := List.foldlRecOn l f h fun s hs x _ => hf s x hs

end SamePorts

namespace State
variable {r s : State}

/-! ## What a lost link does to the ports (R327, R332, R376, R377, R388) -/

/-- Messages sent one after another. -/
theorem foldl_send {α : Type} (l : List α) (f : α → Msg) (s : State) :
    l.foldl (fun s x => s.send (f x)) s = { s with out := (l.map f).reverse ++ s.out } := by
  induction l generalizing s with
  | nil => rfl
  | cons x l ih => rw [List.foldl_cons, ih, List.map_cons, List.reverse_cons, List.append_assoc]; rfl

/-- A port that has sent a packet. -/
def sentPort (p : Port) (pk : Packet) : Port :=
  let f := bundled pk.flits
  { p with
    txSeq := (p.txSeq + f) % 4096, txc := p.txc + f / 4
    retry := p.retry ++ (List.range f).map (fun i => (p.txSeq + i) % 4096)
    used := Sparse.set 0 p.used pk.vc (Sparse.get 0 p.used pk.vc + pk.flits) }

theorem sendOn_eq (s : State) (n : Nat) (pk : Packet) : s.sendOn n pk = (s.onPort n (sentPort · pk)).send (.packet n pk) := by
  unfold sendOn sentPort; rfl

theorem chooseParent_eq (s : State) : ∃ w, s.chooseParent = { s with time := { s.time with syncStatus := w } } := by
  unfold chooseParent
  dsimp only
  split
  · exact ⟨_, rfl⟩
  · split <;> exact ⟨_, rfl⟩

theorem chooseParent_ports (s : State) : s.chooseParent.ports = s.ports := by
  obtain ⟨w, e⟩ := s.chooseParent_eq; rw [e]

theorem accuse_ports (s : State) (dev first : Nat) : (s.accuse dev first).ports = s.ports := by
  unfold accuse; split <;> rfl

theorem linksLost_ports (s : State) (dev : Nat) : (s.linksLost dev).ports = s.ports := by
  unfold linksLost
  dsimp only
  split
  · exact accuse_ports ..
  · rfl

theorem abandonLoad_ports (s : State) : s.abandonLoad.ports = s.ports := by
  unfold abandonLoad
  split
  · rfl
  · dsimp only
    split
    · obtain ⟨_, _, _, e⟩ := answer_eq _ _ _ _ _
      rw [e]
    · rfl

theorem haltStages_ports (s : State) : s.haltStages.ports = s.ports := by unfold haltStages allTiles; rfl

theorem clearJobKeys_ports (s : State) : s.clearJobKeys.ports = s.ports := by unfold clearJobKeys; rfl

theorem eraseSlots_ports (s : State) (mask : Nat) : (s.eraseSlots mask).ports = s.ports := by unfold eraseSlots refreshKeys; rfl

theorem quarantine_ports (s : State) : s.quarantine.ports = s.ports := by
  unfold quarantine
  rw [toState_ports]
  dsimp only
  rw [eraseSlots_ports, clearJobKeys_ports, abandonLoad_ports, haltStages_ports]

theorem abortVia_ports (s : State) (n : Nat) : (s.abortVia n).ports = s.ports := by
  unfold abortVia; dsimp only; rw [foldl_send (f := fun x : Partial => Msg.abort x.out x.route x.seq)]

theorem port_sendOn_same (s : State) (n : Nat) (pk : Packet) : (s.sendOn n pk).port n = sentPort (s.port n) pk := by
  rw [sendOn_eq, port_of_ports (send_ports ..), port_onPort_same]

theorem sendOn_out (s : State) (n : Nat) (pk : Packet) : (s.sendOn n pk).out = .packet n pk :: s.out := by rw [sendOn_eq]; rfl

theorem sentPort_samePort (p : Port) (pk : Packet) : SamePort p (sentPort p pk) := ⟨rfl, rfl, rfl, rfl⟩

theorem sendOn_samePorts (h : SamePorts r s) (n : Nat) (pk : Packet) : SamePorts r (s.sendOn n pk) := by
  rw [sendOn_eq]
  exact (h.onPort n (sentPort_samePort · pk)).upd (send_ports ..)

theorem resendVia_samePorts (h : SamePorts r s) (n : Nat) : SamePorts r (s.resendVia n) :=
  SamePorts.foldl _ h fun s x hs => by
    dsimp only
    split
    · exact sendOn_samePorts (hs.upd rfl) _ _
    · exact hs.upd rfl

theorem linkDown_samePorts (s : State) (n : Nat) : SamePorts s (s.linkDown n) := by
  unfold linkDown
  extract_lets dev known down parted told
  have hd : SamePorts s down := (SamePorts.refl s).onPort n fun _ => ⟨rfl, rfl, rfl, rfl⟩
  have hp : SamePorts s parted := by
    exact (resendVia_samePorts (hd.upd (abortVia_ports ..)) n).upd (chooseParent_ports _)
  have ht : SamePorts s told := .ite (hp.upd (linksLost_ports ..)) hp
  exact .ite (ht.upd (quarantine_ports _)) ht

/-! ## A port that leaves ACTIVE (R379, R382, R513) -/

theorem port_downWith_other (s : State) {m n : Nat} (h : m ≠ n) (st c : Nat) : (s.downWith n st c).port m = s.port m :=
  port_onPort_other s _ h

theorem downWith_moved (s : State) (n c : Nat) {st : Nat} (h : st < 16) : MovedTo (s.port n) st ((s.downWith n st c).port n) := by
  unfold downWith
  dsimp only
  rw [port_onPort_same]
  refine ⟨(getF_setF_beside (by decide) _ _).trans (linkSt_atState _ h), ?_, ?_⟩ <;> dsimp only <;> split <;> rfl

theorem squelchPort_moved (s : State) (n c : Nat) (asked : Bool) {st : Nat} (h : st < 16) :
    MovedTo (s.port n) st ((s.squelchPort n st c asked).port n) := by
  unfold squelchPort
  extract_lets was m told held
  have same : told.port n = s.port n := by
    unfold told
    split
    · obtain ⟨out, e⟩ := s.sendAll_eq [m, m, m]; rw [e]; rfl
    · rfl
  have moved : MovedTo (s.port n) st (held.port n) := by
    unfold held
    rw [port_onPort_same, ← same]
    exact (downWith_moved told n c h).stays ⟨rfl, rfl, rfl, rfl⟩
  split
  · exact moved.stays (linkDown_samePorts held n n)
  · refine moved.stays (SamePorts.onPort (.refl held) n ?_ n)
    exact fun _ => ⟨rfl, rfl, rfl, rfl⟩

theorem damp_moved (s : State) (n : Nat) : MovedTo (s.port n) LS.damped ((s.damp n).port n) := by
  unfold damp
  rw [port_onPort_same]
  exact (squelchPort_moved s n 3 false (by decide)).stays ⟨rfl, rfl, rfl, rfl⟩

/-- A port as it enters RETRAIN. -/
def retrainingPort (p : Port) (now c : Nat) (asked : Bool) : Port :=
  let q := (flapPort p now).1
  { q with status := bumpF (atState q LS.retrain).status lnkStatus_retrains 1, retrainAt := now, retrainCause := c, asked := asked }

theorem toRetrain_eq (s : State) (n c : Nat) (asked : Bool) : s.toRetrain n c asked =
    if (flapPort (s.port n) s.clock).2 then (s.setPort n (retrainingPort (s.port n) s.clock c asked)).damp n
    else s.setPort n (retrainingPort (s.port n) s.clock c asked) := by
  unfold toRetrain retrainingPort
  generalize flapPort (s.port n) s.clock = f
  obtain ⟨p, hot⟩ := f
  rfl

theorem retrainingPort_moved (p : Port) (now c : Nat) (asked : Bool) : MovedTo p LS.retrain (retrainingPort p now c asked) := by
  unfold retrainingPort
  refine ⟨?_, ?_, ?_⟩
  · unfold linkSt bumpF
    dsimp only
    rw [getF_setF_beside (by decide)]
    exact linkSt_atState _ (by decide)
  · unfold flapPort; rfl
  · unfold flapPort; rfl

/-- A port that retrains is in RETRAIN, or damped where this exit from ACTIVE brought its figure to suppress. -/
theorem toRetrain_moved (s : State) (n c : Nat) (asked : Bool) : ∃ st, (st = LS.retrain ∨ st = LS.damped) ∧
    MovedTo (s.port n) st ((s.toRetrain n c asked).port n) := by
  have moved := retrainingPort_moved (s.port n) s.clock c asked
  rw [toRetrain_eq]
  split
  · have damped := damp_moved (s.setPort n (retrainingPort (s.port n) s.clock c asked)) n
    rw [port_setPort_same] at damped
    exact ⟨_, .inr rfl, damped.link, damped.laneMap.trans moved.laneMap, damped.dieLost.trans moved.dieLost⟩
  · rw [port_setPort_same]
    exact ⟨_, .inl rfl, moved⟩

theorem portActive_toRetrain (s : State) (n c : Nat) (asked : Bool) : (s.toRetrain n c asked).portActive n = false := by
  obtain ⟨st, hst, moved⟩ := s.toRetrain_moved n c asked
  exact activeSt_of_linkSt moved.link (by rcases hst with rfl | rfl <;> decide)

theorem laneSt_toRetrain (s : State) (n c : Nat) (asked : Bool) (k : Nat) :
    laneSt ((s.toRetrain n c asked).port n) k = laneSt (s.port n) k := by
  obtain ⟨st, -, moved⟩ := s.toRetrain_moved n c asked
  exact congrArg (getF · (laneMap_status k)) moved.laneMap

/-! ## A lane lost, or predicted to fail (R381) -/

/-- A data lane of an ACTIVE port that is lost: every lane keeps its status. -/
theorem laneSt_loseLane {n k : Nat} (ha : s.portActive n = true) (hk : k ∈ dataLanes (s.port n)) {j : Nat} (hj : j < 5) :
    laneSt ((s.loseLane n k).port n) j = laneSt (s.port n) j := by
  have hc : (!(dataLanes (s.port n)).contains k) = false := by simpa using hk
  unfold loseLane
  dsimp only
  rw [hc, if_neg Bool.false_ne_true, if_pos (show activeSt (s.port n) = true from ha)]
  split
  · rw [port_onPort_same]; exact (swapIn_sameLanes _ (mem_dataLanes_lt hk)).laneSt hj
  · rw [laneSt_toRetrain, port_onPort_same]; exact (assignLanes_sameLanes _).laneSt hj

/-- A port with a lane that has just failed. -/
def failedPort (p : Port) (k now : Nat) : Port :=
  let l := laneOf p k
  flapLane (setLaneSt (setLane p k { l with health := setF l.health lnkHealth_verdict 3 }) k LaneSt.failed) k now

theorem failLane_eq (s : State) (n k : Nat) : s.failLane n k = (s.onPort n (failedPort · k s.clock)).loseLane n k := rfl

theorem failedPort_status (p : Port) (k now : Nat) : (failedPort p k now).status = p.status := by
  unfold failedPort
  dsimp only
  rw [flapLane_status]
  unfold setLaneSt setLane; rfl

theorem dataLanes_failedPort (p : Port) {k : Nat} (hk : k < 5) (now : Nat) : dataLanes (failedPort p k now) = dataLanes p := by
  unfold failedPort
  rw [dataLanes_flapLane _ hk, dataLanes_setLaneSt hk, dataLanes_setLane]

/-- The lane that fails is failed, or damped where this flap brought its figure to suppress. -/
theorem laneSt_failedPort (p : Port) {k : Nat} (hk : k < 5) (now : Nat) :
    laneSt (failedPort p k now) k = LaneSt.failed ∨ laneSt (failedPort p k now) k = LaneSt.damped := by
  unfold failedPort
  exact (laneSt_flapLane _ hk now).imp_left fun h => h.trans (laneSt_setLaneSt_same hk (by decide) _)

/-- A data lane of an ACTIVE port that fails. -/
theorem laneSt_failLane {n k : Nat} (ha : s.portActive n = true) (hk : k ∈ dataLanes (s.port n)) :
    laneSt ((s.failLane n k).port n) k = LaneSt.failed ∨ laneSt ((s.failLane n k).port n) k = LaneSt.damped := by
  have h5 := mem_dataLanes_lt hk
  rw [failLane_eq]
  set u := s.onPort n (failedPort · k s.clock) with hu
  have e : u.port n = failedPort (s.port n) k s.clock := port_onPort_same ..
  have active : u.portActive n = true := by
    unfold portActive activeSt linkSt at ha ⊢; rw [e, failedPort_status]; exact ha
  have data : k ∈ dataLanes (u.port n) := by rw [e, dataLanes_failedPort _ h5]; exact hk
  rw [laneSt_loseLane active data h5, e]
  exact laneSt_failedPort _ h5 _

/-- A prediction changes at most the places of lanes: no lane's record. -/
theorem lanes_predictLane (s : State) (n : Nat) {k : Nat} (hk : k < 5) : ((s.predictLane n k).port n).lanes = (s.port n).lanes := by
  unfold predictLane
  split
  · rw [port_onPort_same]
  · split
    · rw [port_onPort_same]; exact (swapIn_sameLanes _ hk).lanes
    · rfl

end State
end Sys2Proof.Machine

/-!
PROOFS. Health scans, the pages of a module, and a module that is silent (R383, R384).
-/
namespace Sys2Proof.Machine

namespace State
variable {s : State}

/-! ## A scan of a lane (R383) -/

/-- A lane's record with a scan judged. -/
def scannedLane (l : Lane) (x : LaneScan) : Lane :=
  { l with
    warns := (scanVerdict l x).1
    health := setF (setF (setF l.health lnkHealth_eyePct x.eye) lnkHealth_csymMs (min x.csym 0xffff)) lnkHealth_verdict (scanVerdict l x).2 }

/-- The state with a scan recorded, before what follows from it. -/
def scanned (s : State) (n : Nat) (x : LaneScan) : State :=
  s.onPort n (setLane · x.lane (scannedLane (laneOf (s.port n) x.lane) x))

/-- A scan of a data lane of an ACTIVE port is recorded; beyond the error limit the lane fails, and a predicted failure is
met. -/
theorem healthScan_records {n : Nat} {x : LaneScan} (hu : s.linksUp = true) (ha : s.portActive n = true) (hk : x.lane ∈ dataLanes (s.port n)) :
    s.healthScan n x = if 10000 < x.errE8 then (s.scanned n x).failLane n x.lane
      else if (scanVerdict (laneOf (s.port n) x.lane) x).2 = 2 then (s.scanned n x).predictLane n x.lane else s.scanned n x := by
  have hc : ¬ (!s.linksUp || !s.portActive n || !(dataLanes (s.port n)).contains x.lane) = true := by simp [hu, ha, hk]
  unfold healthScan scanned scannedLane
  rw [if_neg hc]

theorem scanVerdict_lt (l : Lane) (x : LaneScan) : (scanVerdict l x).2 < 4 := by
  unfold scanVerdict
  extract_lets warn w
  dsimp only
  split
  · decide
  · exact lt_of_le_of_lt (by split <;> omega : _ ≤ 1) (by decide)

theorem verdict_scannedLane (l : Lane) (x : LaneScan) :
    getF (scannedLane l x).health lnkHealth_verdict = (scanVerdict l x).2 := by
  unfold scannedLane
  exact (getF_setF _ ⟨by decide, by decide⟩ _).trans (Nat.mod_eq_of_lt (scanVerdict_lt l x))

theorem port_scanned (s : State) (n : Nat) (x : LaneScan) :
    (s.scanned n x).port n = setLane (s.port n) x.lane (scannedLane (laneOf (s.port n) x.lane) x) := port_onPort_same ..

/-- A scan within the error limit: the lane's record is the one judged. -/
theorem laneOf_healthScan {n : Nat} {x : LaneScan} (hu : s.linksUp = true) (ha : s.portActive n = true)
    (hk : x.lane ∈ dataLanes (s.port n)) (he : x.errE8 ≤ 10000) :
    laneOf ((s.healthScan n x).port n) x.lane = scannedLane (laneOf (s.port n) x.lane) x := by
  have recorded : laneOf ((s.scanned n x).port n) x.lane = scannedLane (laneOf (s.port n) x.lane) x := by
    rw [port_scanned, laneOf_setLane_same]
  rw [healthScan_records hu ha hk, if_neg (Nat.not_lt.2 he)]
  split
  · rw [← recorded]
    unfold laneOf
    rw [lanes_predictLane _ n (mem_dataLanes_lt hk)]
  · exact recorded

/-- A scan beyond the error limit fails the lane. -/
theorem laneSt_healthScan {n : Nat} {x : LaneScan} (hu : s.linksUp = true) (ha : s.portActive n = true)
    (hk : x.lane ∈ dataLanes (s.port n)) (he : 10000 < x.errE8) :
    laneSt ((s.healthScan n x).port n) x.lane = LaneSt.failed ∨ laneSt ((s.healthScan n x).port n) x.lane = LaneSt.damped := by
  rw [healthScan_records hu ha hk, if_pos he]
  refine laneSt_failLane ?_ ?_
  · unfold portActive activeSt at ha ⊢; rw [port_scanned, linkSt_setLane]; exact ha
  · rw [port_scanned, dataLanes_setLane]; exact hk

/-! ## The module of a port (R384) -/

/-- The record of a lane shows what its module's pages said. -/
def Polled (temp laser k : Nat) (p : Port) : Prop :=
  getF (laneOf p k).health lnkHealth_modTemp = temp ∧ getF (laneOf p k).health lnkHealth_laserPct = laser

/-- The word of a lane's health with what its module's pages said. -/
def polledHealth (w : Word) (temp laser : Nat) : Word := setF (setF w lnkHealth_modTemp temp) lnkHealth_laserPct laser

/-- A record is polled whatever verdict it then bears. -/
theorem polled_setLane (p : Port) {temp laser : Nat} (ht : temp < 256) (hl : laser < 256) (k : Nat) {l : Lane} {w : Word}
    (h : l.health = setF (polledHealth w temp laser) lnkHealth_verdict 2 ∨ l.health = polledHealth w temp laser) :
    Polled temp laser k (setLane p k l) := by
  have read : getF (polledHealth w temp laser) lnkHealth_modTemp = temp ∧ getF (polledHealth w temp laser) lnkHealth_laserPct = laser :=
    ⟨((getF_setF_beside (by decide) _ _).trans (getF_setF _ ⟨by decide, by decide⟩ _)).trans (Nat.mod_eq_of_lt ht),
      (getF_setF _ ⟨by decide, by decide⟩ _).trans (Nat.mod_eq_of_lt hl)⟩
  unfold Polled
  rw [laneOf_setLane_same]
  rcases h with h | h
  · rw [h, getF_setF_beside (by decide), getF_setF_beside (by decide)]; exact read
  · rw [h]; exact read

theorem Polled.of_lanes {p q : Port} {temp laser k : Nat} (h : Polled temp laser k p) (e : q.lanes = p.lanes) : Polled temp laser k q := by
  unfold Polled laneOf at *; rw [e]; exact h

/-- After a poll the five lanes show what the module's pages said. -/
theorem cmisPoll_polled {n temp laser k : Nat} (hu : s.linksUp = true) (hp : s.portOn n = true) (ht : temp < 256) (hl : laser < 256)
    (hk : k < 5) : Polled temp laser k ((s.cmisPoll n temp laser).port n) := by
  unfold cmisPoll
  rw [if_neg (by simp [hu, hp])]
  extract_lets polled
  have told : Polled temp laser k (polled.port n) := by
    unfold polled
    rw [port_onPort_same]
    refine foldl_hits (P := Polled temp laser) (fun p j _ => polled_setLane p ht hl j (ite_eq_or_eq ..)) (fun p j _ hi => ?_)
      (.inl (List.mem_range.2 hk))
    by_cases e : k = j
    · subst e; exact polled_setLane p ht hl k (ite_eq_or_eq ..)
    · unfold Polled; rw [laneOf_setLane_other e]; exact hi
  split
  · split
    · next j hj => exact told.of_lanes (lanes_predictLane _ n (mem_dataLanes_lt (List.mem_of_mem_head? hj)))
    · exact told
  · exact told

/-- The five lanes of a silent module are failed (R384). -/
theorem laneSt_silenced (p : Port) {k : Nat} (hk : k < 5) :
    laneSt ((List.range 5).foldl (fun (p : Port) k => setLaneSt p k LaneSt.failed) p) k = LaneSt.failed := by
  have hit (p : Port) (j : Nat) (hj : j ∈ List.range 5) : laneSt (setLaneSt p j LaneSt.failed) j = LaneSt.failed :=
    laneSt_setLaneSt_same (List.mem_range.1 hj) (by decide) p
  refine foldl_hits (P := fun k p => laneSt p k = LaneSt.failed) hit (fun p j hj hi => ?_) (.inl (List.mem_range.2 hk))
  by_cases e : k = j
  · subst e; exact hit p k hj
  · rw [laneSt_setLaneSt_other hk (List.mem_range.1 hj) e]; exact hi

/-- A module that is silent takes its port out of ACTIVE with every lane failed. -/
theorem moduleSilent_fails {n : Nat} (hu : s.linksUp = true) (hp : s.portOn n = true) :
    (s.moduleSilent n).portActive n = false ∧ ∀ k < 5, laneSt ((s.moduleSilent n).port n) k = LaneSt.failed := by
  unfold moduleSilent
  rw [if_neg (by simp [hu, hp])]
  extract_lets silent
  have failed : ∀ k < 5, laneSt ((silent.onPort n assignLanes).port n) k = LaneSt.failed := fun k hk => by
    rw [port_onPort_same, (assignLanes_sameLanes _).laneSt hk]
    unfold silent
    rw [port_onPort_same]
    exact laneSt_silenced _ hk
  split
  · exact ⟨portActive_toRetrain .., fun k hk => (laneSt_toRetrain ..).trans (failed k hk)⟩
  · next inactive =>
    refine ⟨?_, failed⟩
    unfold portActive activeSt at inactive ⊢
    rw [port_onPort_same, (assignLanes_sameLanes _).linkSt]
    simpa using inactive

end State
end Sys2Proof.Machine

/-!
PROOFS. The time exchange; packets on their way, at their destination and at their origin; the loss of a port die (R32,
R375 to R378, R388).
-/
namespace Sys2Proof.Machine

namespace State
variable {s : State}

/-! ## The time exchange (R388) -/

/-- The delay that an exchange measures. -/
def delayOf (t1 t2 t3 t4 : Nat) : Int := (((t4 : Int) - t1) - ((t3 : Int) - t2)) / 2

/-- The state with an exchange's delay and hops at the port, and the parent chosen by them. -/
def exchanged (s : State) (n t1 t2 t3 t4 hops : Nat) : State :=
  (s.onPort n (fun p => { p with hops := hops, linkDelay := delayOf t1 t2 t3 t4 })).chooseParent

theorem port_exchanged (s : State) (n t1 t2 t3 t4 hops : Nat) :
    (s.exchanged n t1 t2 t3 t4 hops).port n = { s.port n with hops := hops, linkDelay := delayOf t1 t2 t3 t4 } := by
  unfold exchanged
  rw [port_of_ports (chooseParent_ports _), port_onPort_same]

theorem time_exchanged (s : State) (n t1 t2 t3 t4 hops : Nat) :
    ∃ w, (s.exchanged n t1 t2 t3 t4 hops).time = { s.time with syncStatus := w } := by
  unfold exchanged
  obtain ⟨w, e⟩ := chooseParent_eq (s.onPort n (fun p => { p with hops := hops, linkDelay := delayOf t1 t2 t3 t4 }))
  exact ⟨w, by rw [e]; exact congrArg (fun t : TimeRegs => { t with syncStatus := w }) (onPort_time ..)⟩

/-- After the exchange only the time base and the count of free values can change further; after the first epoch the count
itself does not. -/
theorem timeExchange_disciplines {n t1 t2 t3 t4 hops peer : Nat} (hu : s.linksUp = true) (ha : s.portActive n = true)
    (hp : getF (s.port n).status lnkStatus_peerDev = peer) :
    (s.timeExchange n t1 t2 t3 t4 hops peer).ports = (s.exchanged n t1 t2 t3 t4 hops).ports ∧
    (s.time.epoch ≠ 0 → (s.timeExchange n t1 t2 t3 t4 hops peer).clock = s.clock) := by
  obtain ⟨w, ht⟩ := s.time_exchanged n t1 t2 t3 t4 hops
  have count : (s.exchanged n t1 t2 t3 t4 hops).clock = s.clock := by unfold clock; rw [ht]
  have epoch : (s.exchanged n t1 t2 t3 t4 hops).time.epoch = s.time.epoch := by rw [ht]
  unfold timeExchange
  rw [if_neg (by simp [hu, ha, hp])]
  extract_lets d off u first near f v
  have hu : u = s.exchanged n t1 t2 t3 t4 hops := rfl
  clear_value u
  subst hu
  split
  · exact ⟨rfl, fun _ => count⟩
  · refine ⟨rfl, fun he => ?_⟩
    have late : first = false := by unfold first; rw [epoch]; simp [he]
    unfold clock
    dsimp only
    rw [late, if_neg Bool.false_ne_true]
    exact count

/-- An exchange with another than the known peer is none. -/
theorem timeExchange_stranger {n t1 t2 t3 t4 hops peer : Nat} (hp : peer ≠ getF (s.port n).status lnkStatus_peerDev) :
    s.timeExchange n t1 t2 t3 t4 hops peer = s := by
  unfold timeExchange; rw [if_pos]; simp [hp.symm]

/-! ## A packet at its destination (R376, R378) -/

/-- A number that a destination has accepted. -/
def HasAccepted (x : Seen) (seq : Nat) : Prop := seq < x.upTo ∨ seq ∈ x.above

theorem closeSeen_key (x : Seen) (n : Nat) : (closeSeen x n).src = x.src ∧ (closeSeen x n).route = x.route := by
  induction n generalizing x with
  | zero => exact ⟨rfl, rfl⟩
  | succ n ih =>
    unfold closeSeen
    split
    · exact ih _
    · exact ⟨rfl, rfl⟩

/-- Closing the run of accepted numbers forgets none. -/
theorem closeSeen_hasAccepted {x : Seen} {seq : Nat} (h : HasAccepted x seq) (n : Nat) : HasAccepted (closeSeen x n) seq := by
  induction n generalizing x with
  | zero => exact h
  | succ n ih =>
    unfold closeSeen
    split
    · refine ih ?_
      by_cases e : seq = x.upTo
      · exact .inl (e ▸ Nat.lt_succ_self _)
      · exact h.imp (fun h => Nat.lt_succ_of_lt h) fun h => List.mem_filter.2 ⟨h, by simpa using e⟩
    · exact h

theorem seenOf_key (s : State) (src route : Nat) : (s.seenOf src route).src = src ∧ (s.seenOf src route).route = route := by
  unfold seenOf
  cases e : s.fabric.seen.find? (fun x => x.src == src && x.route == route) with
  | none => exact ⟨rfl, rfl⟩
  | some x => simpa using List.find?_some e

/-- What the destination has accepted once it takes a packet. -/
def tookSeq (s : State) (pk : Packet) : Seen :=
  let x := s.seenOf pk.src pk.route
  closeSeen { x with above := pk.seq :: x.above } 257

/-- The state in which the destination has accepted a packet's number. -/
def tookPacket (s : State) (pk : Packet) : State :=
  { s with fabric := { s.fabric with seen := s.tookSeq pk :: s.fabric.seen.filter (fun z => z.src != pk.src || z.route != pk.route) } }

theorem hasAccepted_tookSeq (s : State) (pk : Packet) : HasAccepted (s.tookSeq pk) pk.seq :=
  closeSeen_hasAccepted (.inr (.head _)) 257

theorem seenOf_tookPacket (s : State) (pk : Packet) : (s.tookPacket pk).seenOf pk.src pk.route = s.tookSeq pk := by
  obtain ⟨hs, hr⟩ := s.seenOf_key pk.src pk.route
  obtain ⟨ks, kr⟩ := closeSeen_key { s.seenOf pk.src pk.route with above := pk.seq :: (s.seenOf pk.src pk.route).above } 257
  have key : ((s.tookSeq pk).src == pk.src && (s.tookSeq pk).route == pk.route) = true := by
    rw [Bool.and_eq_true, beq_iff_eq, beq_iff_eq]; exact ⟨ks.trans hs, kr.trans hr⟩
  unfold seenOf tookPacket
  dsimp only
  rw [List.find?_cons_of_pos (p := fun x : Seen => x.src == pk.src && x.route == pk.route) key, Option.getD_some]

theorem packetForward_here {pk : Packet} (hu : s.linksUp = true) (hf : s.fencedPacket pk = false) (hd : pk.dst = s.devId) :
    s.packetForward pk true = s.acceptPacket pk := by
  unfold packetForward
  rw [if_neg (by simp [hu, hf]), if_pos hd, if_pos rfl]

theorem packetForward_fenced {pk : Packet} (hf : s.fencedPacket pk = true) (whole : Bool) : s.packetForward pk whole = s := by
  unfold packetForward; rw [if_pos]; simp [hf]

/-- A packet accepted before is acknowledged again, and counted. -/
theorem acceptPacket_again {pk : Packet} (h : HasAccepted (s.seenOf pk.src pk.route) pk.seq) :
    s.acceptPacket pk = (s.onPort (pk.via.getD 0) (fun p => { p with status := bumpF p.status lnkStatus_e2eDup 1 })).send
      (.e2eAck pk.src pk.route pk.seq) := if_pos h

/-- A packet not accepted before is, and is delivered unless a reset runs. -/
theorem acceptPacket_first {pk : Packet} (h : ¬ HasAccepted (s.seenOf pk.src pk.route) pk.seq)
    (hw : pk.seq < (s.seenOf pk.src pk.route).upTo + 256) :
    s.acceptPacket pk = if !s.rst.active.isEmpty then (s.tookPacket pk).send (.e2eAck pk.src pk.route pk.seq)
      else ((s.tookPacket pk).send (.e2eAck pk.src pk.route pk.seq)).send (.packetIn pk) :=
  (if_neg h).trans (if_neg (Nat.not_le.2 hw))

/-! ## A packet on its way (R375, R377) -/

/-- The port chosen for a packet is ACTIVE. -/
theorem portActive_choosePort {pk : Packet} {n : Nat} (h : s.choosePort pk = some n) : s.portActive n = true := by
  have active {g : Nat} {m : Nat} (hm : m ∈ s.groupPorts g) : s.portActive m = true := by
    have := (List.mem_filter.1 hm).2
    rw [Bool.and_eq_true] at this
    exact this.2
  unfold choosePort at h
  split at h
  · cases h
  · next t _ =>
    extract_lets a l at h
    have hl : l = s.groupPorts t.alternate ∨ l = s.groupPorts t.primary := ite_eq_or_eq ..
    clear_value l
    split at h
    · cases h
    · have hm := List.mem_of_getElem? h
      rcases hl with rfl | rfl
      · exact active hm
      · exact active hm

section
variable {pk : Packet} (hu : s.linksUp = true) (hf : s.fencedPacket pk = false) (hd : pk.dst ≠ s.devId)
  (hp : ∀ x ∈ s.fabric.partials, partialKey x pk = false)
include hu hf hd hp

theorem packetForward_unreachable (hc : s.choosePort pk = none) (whole : Bool) : s.packetForward pk whole = s.unreach pk := by
  have none_partial : ¬ s.fabric.partials.any (fun x => partialKey x pk) = true := by simpa using hp
  unfold packetForward
  rw [if_neg (by simp [hu, hf]), if_neg hd, if_neg none_partial, hc]

/-- A packet that goes on: sent on the port chosen, with what the origin and the way keep of it. -/
theorem packetForward_sent {n : Nat} (hc : s.choosePort pk = some n) (hdl : (s.transitOf pk.dst).any (·.dateline) = false)
    (hr : hasRoom (s.port n) pk = true) (hb : s.bufferFull n pk = false)
    (hk : (s.port n).txc + bundled pk.flits / 4 < rekeyAt) (whole : Bool) :
    ∃ f, s.packetForward pk whole = ({ s with fabric := f }).sendOn n pk := by
  have none_partial : ¬ s.fabric.partials.any (fun x => partialKey x pk) = true := by simpa using hp
  have keyed (f : Fabric) : ¬ rekeyAt ≤ ((({ s with fabric := f } : State).sendOn n pk).port n).txc := by
    rw [port_sendOn_same]
    exact Nat.not_le.2 hk
  unfold packetForward
  rw [if_neg (by simp [hu, hf]), if_neg hd, if_neg none_partial, hc]
  dsimp only
  rw [hdl, if_neg Bool.false_ne_true, if_neg (by simp [hr, hb])]
  exact ⟨_, if_neg (keyed _)⟩

end

/-- A port whose packet has just been sent. -/
theorem sentOn_port {n : Nat} (hc : s.portActive n = true) (f : Fabric) (pk : Packet) :
    ((({ s with fabric := f } : State).sendOn n pk).port n).txSeq = ((s.port n).txSeq + bundled pk.flits) % 4096 ∧
    (({ s with fabric := f } : State).sendOn n pk).portActive n = true := by
  unfold portActive activeSt at hc ⊢
  rw [port_sendOn_same, (sentPort_samePort _ pk).linkSt]
  exact ⟨rfl, hc⟩

/-! ## A packet at its origin (R376) -/

theorem e2eAck_frees (hu : s.linksUp = true) (route seq : Nat) : s.e2eAck route seq = { s with fabric := { s.fabric with
    held := s.fabric.held.filter (fun h => h.pk.route != route || h.pk.seq != seq) } } := by
  unfold e2eAck; rw [if_neg (by simp [hu])]

section
variable {route seq : Nat}

theorem e2eResend_unknown (hn : s.fabric.held.find? (fun h => h.pk.route == route && h.pk.seq == seq) = none) :
    s.e2eResend route seq = s := by
  unfold e2eResend; rw [hn]; split <;> rfl

variable {h : Held} (hh : s.fabric.held.find? (fun h => h.pk.route == route && h.pk.seq == seq) = some h)
include hh

theorem e2eResend_waits (hw : s.awaitsAck h = true) : s.e2eResend route seq = s := by
  unfold e2eResend; rw [hh]; dsimp only; rw [if_pos hw]; split <;> rfl

/-- A packet whose wait is over is sent again on the port that it now takes. -/
theorem e2eResend_sent (hu : s.linksUp = true) (hw : s.awaitsAck h = false) {n : Nat} (hc : s.choosePort h.pk = some n) :
    ∃ f, s.e2eResend route seq = ({ s with fabric := f }).sendOn n h.pk := by
  unfold e2eResend
  rw [if_neg (by simp [hu]), hh]
  dsimp only
  rw [if_neg (by simp [hw]), hc]
  exact ⟨_, rfl⟩

end

/-! ## A packet given up (R377) -/

/-- Whether a partial packet is one that an ABORT coming in on a port names. -/
def abortNames (n route seq : Nat) (x : Partial) : Bool := x.route == route && x.seq == seq && x.via == some n

theorem abortNames_iff {n route seq : Nat} {x : Partial} :
    abortNames n route seq x = true ↔ x.route = route ∧ x.seq = seq ∧ x.via = some n := by
  simp [abortNames, and_assoc]

/-- An ABORT drops the partial packets that it names, and goes on after each. -/
theorem abortIn_eq (hu : s.linksUp = true) (n route seq : Nat) : s.abortIn n route seq = { s with
    fabric := { s.fabric with partials := s.fabric.partials.filter (fun x => !abortNames n route seq x) }
    out := ((s.fabric.partials.filter (abortNames n route seq)).map (fun x => Msg.abort x.out x.route x.seq)).reverse ++ s.out } := by
  unfold abortIn
  rw [if_neg (by simp [hu])]
  dsimp only
  rw [foldl_send (f := fun x : Partial => Msg.abort x.out x.route x.seq), List.partition_eq_filter_filter]
  rfl

/-- None of the partial packets named is left. -/
theorem abortIn_drops (hu : s.linksUp = true) {n route seq : Nat} {x : Partial} (hx : x ∈ (s.abortIn n route seq).fabric.partials)
    (hr : x.route = route) (hq : x.seq = seq) : x.via ≠ some n := fun hv => by
  rw [abortIn_eq hu] at hx
  have kept := (List.mem_filter.1 hx).2
  rw [abortNames_iff.2 ⟨hr, hq, hv⟩] at kept
  cases kept

/-- The ABORT goes on after each partial packet named. -/
theorem abortIn_goesOn (hu : s.linksUp = true) {n route seq : Nat} {x : Partial} (hx : x ∈ s.fabric.partials)
    (hr : x.route = route) (hq : x.seq = seq) (hv : x.via = some n) : Msg.abort x.out route seq ∈ (s.abortIn n route seq).out := by
  have met : x ∈ s.fabric.partials.filter (abortNames n route seq) := List.mem_filter.2 ⟨hx, abortNames_iff.2 ⟨hr, hq, hv⟩⟩
  rw [abortIn_eq hu]
  subst hr hq
  exact List.mem_append_left _ (List.mem_reverse.2 (List.mem_map.2 ⟨x, met, rfl⟩))

/-! ## The loss of a port die (R32) -/

/-- A port whose die is gone. -/
def Gone (p : Port) : Prop := linkSt p = LS.disabled ∧ p.dieLost = true

theorem Gone.stays {p q : Port} (h : Gone p) (e : SamePort p q) : Gone q := ⟨e.linkSt.trans h.1, e.dieLost.trans h.2⟩

/-- One port whose die is lost, its link's loss not yet dealt with. -/
theorem loseDie_gone (s : State) (n : Nat) {f : Port → Port} (hf : ∀ p, SamePort p (f p)) :
    Gone ((((s.onPort n (fun p => { p with dieLost := true })).downWith n LS.disabled 8).onPort n f).port n) := by
  have moved := downWith_moved (s.onPort n (fun p => { p with dieLost := true })) n 8 (st := LS.disabled) (by decide)
  rw [port_onPort_same s] at moved
  rw [port_onPort_same]
  exact Gone.stays ⟨moved.link, moved.dieLost⟩ (hf _)

/-- The ports of a list whose die is lost are gone: no link that is lost with them brings one back. -/
theorem portsLost_gone (s : State) {ns : List Nat} {m : Nat} (hm : m ∈ ns) : Gone ((s.portsLost ns).port m) := by
  unfold portsLost
  extract_lets were lost
  have gone : Gone (lost.port m) := by
    refine foldl_hits (P := fun m (s : State) => Gone (s.port m)) (fun s n _ => loseDie_gone s n fun _ => ⟨rfl, rfl, rfl, rfl⟩)
      (fun s n _ hg => ?_) (.inl hm)
    by_cases e : m = n
    · subst e; exact loseDie_gone s m fun _ => ⟨rfl, rfl, rfl, rfl⟩
    · rw [port_onPort_other _ _ e, port_downWith_other _ e, port_onPort_other _ _ e]; exact hg
  exact gone.stays (SamePorts.foldl _ (.refl lost) (fun s n hs => hs.trans (linkDown_samePorts s n)) m)

theorem alive_of_linksUp (hu : s.linksUp = true) : s.alive = true := by
  unfold linksUp at hu
  exact (Bool.and_eq_true_iff.1 hu).1

/-- The loss of port die 0 (log 33). -/
theorem portDieLoss_zero (ha : s.alive = true) :
    (s.portDieLoss 0).devState = DS.cold ∧ (s.portDieLoss 0).boot.rooted = false ∧ (s.portDieLoss 0).pins.faultN = false := by
  unfold portDieLoss
  rw [if_neg (by simp [ha]), if_pos rfl, devState_toState _ _ (by decide), toState_boot, toState_pins]
  exact ⟨rfl, rfl, rfl⟩

theorem portDieLoss_gone (ha : s.alive = true) {d i : Nat} (h1 : 1 ≤ d) (h4 : d < 4) (hi : i < 9) : Gone ((s.portDieLoss d).port (9 * d + i)) := by
  unfold portDieLoss
  rw [if_neg (by simp [ha]), if_neg (by omega)]
  refine portsLost_gone s (List.mem_filter.2 ⟨List.mem_map.2 ⟨i, List.mem_range.2 hi, rfl⟩, ?_⟩)
  exact decide_eq_true (by omega)

end State

/-! ## The statement -/

/-- Settles O55: each command is taken to the lemma that says what its operation does; a link that goes down with it brings no
port back, and leaves every lane as it was. -/
theorem linkHealthAndPackets : Obligations.LinkHealthAndPackets := by
  intro s _ hu
  have ha := State.alive_of_linksUp hu
  refine ⟨?scan, ?poll, ?silent, ?time, ?fenced, ?here, ?onward, ?acked, ?waits, ?again, ?unknown, ?aborts, ?die0, ?dies⟩
  case scan =>
    intro n x hp hk
    refine ⟨fun he => ⟨_, rfl, ?_⟩, fun he => ⟨_, rfl, State.laneSt_healthScan hu hp hk he⟩⟩
    rw [State.laneOf_healthScan hu hp hk he]
    exact ⟨rfl, State.verdict_scannedLane ..⟩
  case poll => exact fun n c l hp hc hl => ⟨_, rfl, fun k hk => State.cmisPoll_polled hu hp hc hl hk⟩
  case silent => exact fun n hp => ⟨_, rfl, State.moduleSilent_fails hu hp⟩
  case time =>
    intro n t1 t2 t3 t4 h hp
    obtain ⟨ports, clock⟩ := State.timeExchange_disciplines (t1 := t1) (t2 := t2) (t3 := t3) (t4 := t4) (hops := h) hu hp rfl
    refine ⟨⟨_, rfl, ?_, ?_, clock⟩, fun d hd => congrArg Host.Outcome.next (State.timeExchange_stranger hd)⟩
    · rw [State.port_of_ports ports, State.port_exchanged]
    · rw [State.port_of_ports ports, State.port_exchanged]; rfl
  case fenced => exact fun pk w hf => congrArg Host.Outcome.next (State.packetForward_fenced hf w)
  case here =>
    intro pk hf hd x
    have run : exec (.packetForward pk true) s = .next (s.acceptPacket pk) :=
      congrArg Host.Outcome.next (State.packetForward_here hu hf hd)
    have fresh (low : x.upTo ≤ pk.seq) (out : pk.seq ∉ x.above) : ¬ State.HasAccepted x pk.seq :=
      fun h => h.elim (Nat.not_lt.2 low) out
    refine ⟨fun seen => ⟨_, run, ?_⟩, fun low out near hr => ⟨_, run, ?_⟩, fun low out near hr => ⟨_, run, ?_⟩⟩
    · rw [State.acceptPacket_again seen]; exact ⟨rfl, (State.send_fabric ..).trans (State.onPort_fabric ..)⟩
    · rw [State.acceptPacket_first (fresh low out) near, if_pos (by simpa using hr)]; rfl
    · rw [State.acceptPacket_first (fresh low out) near, if_neg (by simpa using hr)]
      exact ⟨rfl, (State.seenOf_tookPacket s pk).symm ▸ State.hasAccepted_tookSeq s pk⟩
  case onward =>
    intro pk w hf hd hp
    refine ⟨fun hc => congrArg Host.Outcome.next (State.packetForward_unreachable hu hf hd hp hc w), fun n hc hdl hr hb hk => ?_⟩
    obtain ⟨f, sent⟩ := State.packetForward_sent hu hf hd hp hc hdl hr hb hk w
    exact ⟨_, congrArg Host.Outcome.next sent, State.sendOn_out .., State.sentOn_port (State.portActive_choosePort hc) f pk⟩
  case acked =>
    intro r q
    refine ⟨_, congrArg Host.Outcome.next (State.e2eAck_frees hu r q), fun h hh => ?_, rfl⟩
    simpa using (List.mem_filter.1 hh).2
  case waits => exact fun r q h hh hw => congrArg Host.Outcome.next (State.e2eResend_waits hh hw)
  case again =>
    intro r q h n hh hw hc
    obtain ⟨f, sent⟩ := State.e2eResend_sent hh hu hw hc
    exact ⟨_, congrArg Host.Outcome.next sent, State.sendOn_out ..⟩
  case unknown => exact fun r q hn => congrArg Host.Outcome.next (State.e2eResend_unknown hn)
  case aborts =>
    exact fun n r q => ⟨_, rfl, fun x hx hr hq => State.abortIn_drops hu hx hr hq, fun x hx hr hq hv => State.abortIn_goesOn hu hx hr hq hv⟩
  case die0 => exact ⟨_, rfl, State.portDieLoss_zero ha⟩
  case dies => exact fun d h1 h4 => ⟨_, rfl, fun i hi => State.portDieLoss_gone ha h1 h4 hi⟩

end Sys2Proof.Machine

/-!
PROOFS. What the instructions of a tile share (R48, R60, R62, R68): work on the tile that issuing and retiring do not see,
a wait, a counter incremented or run over, a fault.
-/
namespace Sys2Proof.Machine

/-! ## Work on a tile -/

/-- Work on a tile that leaves what issuing, waiting and retiring read. -/
structure SameFlow (t u : Tile) : Prop where
  ctl : u.ctl = t.ctl
  status : u.status = t.status
  seq : u.seq = t.seq
  counters : u.counters = t.counters

theorem SameFlow.refl (t : Tile) : SameFlow t t := ⟨rfl, rfl, rfl, rfl⟩

theorem SameFlow.trans {t u v : Tile} (a : SameFlow t u) (b : SameFlow u v) : SameFlow t v :=
  ⟨b.ctl.trans a.ctl, b.status.trans a.status, b.seq.trans a.seq, b.counters.trans a.counters⟩

theorem SameFlow.foldl {α : Type} {t : Tile} {f : Tile → α → Tile} (l : List α) (hf : ∀ u x, SameFlow u (f u x)) :
    SameFlow t (l.foldl f t) := by
  induction l generalizing t with
  | nil => exact .refl t
  | cons x l ih => exact (hf t x).trans ih

theorem SameFlow.sameWait {t u : Tile} (h : SameFlow t u) (own : t.seq.redo = none) : SameWait t u where
  ctl := h.ctl
  held := by rw [h.seq]
  evaluating := by rw [h.seq]
  own := by rw [h.seq, own]

theorem SameFlow.counter {t u : Tile} (h : SameFlow t u) (j : Nat) : counter u j = counter t j := by
  unfold Machine.counter; rw [h.counters]

theorem SameFlow.marked {t u : Tile} (h : SameFlow t u) (now k : Nat) : SameFlow t (markedTile now k u) :=
  ⟨h.ctl, h.status, h.seq, h.counters⟩

theorem SameButStore.refl (t : Tile) : SameButStore t t := rfl

theorem SameButStore.trans {t u v : Tile} (a : SameButStore t u) (b : SameButStore u v) : SameButStore t v := by
  unfold SameButStore at *
  rw [← b] at a
  exact a

theorem SameButStore.symm {t u : Tile} (a : SameButStore t u) : SameButStore u t := by
  unfold SameButStore at *; rw [← a]

theorem SameButStore.of_stored {t u : Tile} {m : List Host.Cell} (h : SameButStore { t with store := m } u) : SameButStore t u :=
  (show SameButStore t { t with store := m } from rfl).trans h

namespace SameButStore
variable {t u : Tile} (h : SameButStore t u)
include h

theorem casks : u.casks = t.casks := by unfold SameButStore at h; rw [← h]

theorem arrays : u.arrays = t.arrays := by unfold SameButStore at h; rw [← h]

theorem chans : u.chans = t.chans := by unfold SameButStore at h; rw [← h]

theorem slots : u.slots = t.slots := by unfold SameButStore at h; rw [← h]

theorem numFlags : u.numFlags = t.numFlags := by unfold SameButStore at h; rw [← h]

theorem stash : u.stash = t.stash := by unfold SameButStore at h; rw [← h]

theorem rowIn : u.rowIn = t.rowIn := by unfold SameButStore at h; rw [← h]

theorem vecIn : u.vecIn = t.vecIn := by unfold SameButStore at h; rw [← h]

theorem topkCtl : u.topkCtl = t.topkCtl := by unfold SameButStore at h; rw [← h]

theorem lees : u.lees = t.lees := by unfold SameButStore at h; rw [← h]

end SameButStore

theorem sameButStore_markedTile (now k : Nat) (t : Tile) : SameButStore t (markedTile now k t) := rfl

theorem sameButStore_countedTile (now k n : Nat) (t : Tile) : SameButStore t (countedTile now k n t) := rfl

theorem sameButStore_retiredTile (t : Tile) : SameButStore t (retiredTile t) := by unfold retiredTile goneTile; rfl

theorem store_retiredTile (t : Tile) : (retiredTile t).store = t.store := by unfold retiredTile goneTile; rfl

/-! ## Counters -/

/-- A tile whose instruction `w` has completed: the counter that it names has grown (R60). -/
def doneTile (now : Nat) (w : Word) (t : Tile) : Tile :=
  if flagF w iw_syncEn then countedTile now (getF w iw_counter) (getF w iw_inc + 1) t else t

theorem finishedTile_eq (now : Nat) (w : Word) (t : Tile) : finishedTile now w t = doneTile now w (retiredTile t) := rfl

theorem counter_doneTile (now : Nat) (w : Word) (t : Tile) (j : Nat) : counter (doneTile now w t) j = counter t j + adds w j := by
  unfold doneTile adds
  by_cases h : flagF w iw_syncEn = true
  · simp only [h, if_true, counter_countedTile, true_and, eq_comm (a := j)]
  · simp [h]

theorem sameButStore_doneTile (now : Nat) (w : Word) (t : Tile) : SameButStore t (doneTile now w t) := by
  unfold doneTile; split <;> rfl

theorem store_doneTile (now : Nat) (w : Word) (t : Tile) : (doneTile now w t).store = t.store := by
  unfold doneTile; split <;> rfl

theorem seq_doneTile (now : Nat) (w : Word) (t : Tile) : (doneTile now w t).seq = t.seq := by
  unfold doneTile; split <;> rfl

theorem status_doneTile (now : Nat) (w : Word) (t : Tile) : (doneTile now w t).status = t.status := by
  unfold doneTile; split <;> rfl

theorem sameButStore_finishedTile (now : Nat) (w : Word) (t : Tile) : SameButStore t (finishedTile now w t) :=
  (sameButStore_retiredTile t).trans (sameButStore_doneTile ..)

theorem store_finishedTile (now : Nat) (w : Word) (t : Tile) : (finishedTile now w t).store = t.store :=
  (store_doneTile ..).trans (store_retiredTile t)

theorem seq_finishedTile (now : Nat) (w : Word) (t : Tile) :
    (finishedTile now w t).seq = { t.seq with index := t.seq.index + 1, held := none } := by
  rw [finishedTile_eq, seq_doneTile]; rfl

/-- The counter that a word names does not overflow when the word completes. -/
def OwnFits (t : Tile) (w : Word) : Prop :=
  flagF w iw_syncEn = true → counter t (getF w iw_counter) + (getF w iw_inc + 1) ≤ 0xffffffff

theorem adds_own {w : Word} (e : flagF w iw_syncEn = true) : adds w (getF w iw_counter) = getF w iw_inc + 1 := by
  unfold adds; rw [if_pos ⟨e, rfl⟩]

theorem CountsFit.own {t u : Tile} {w : Word} (fit : CountsFit t w) (h : ∀ j, counter u j = counter t j) : OwnFits u w := fun e => by
  rw [h, ← adds_own e]; exact fit _

namespace State

theorem syncDone_setTile {s : State} (h : Sparse.wf Tile.reset s.tiles = true) (tl : TileRef) (t : Tile) {w : Word} (fit : OwnFits t w) :
    (s.setTile tl t).syncDone tl w = s.setTile tl (doneTile s.now w t) := by
  unfold syncDone doneTile
  by_cases e : flagF w iw_syncEn = true
  · rw [if_pos e, if_pos e, syncAdd_setTile h tl t _ _ (fit e)]
  · rw [if_neg e, if_neg e]

/-! ## Faults (R68) -/

theorem testBit_failed (bits : Nat) (f : Field) : (bits ||| 2 ^ f.lo).testBit f.lo = true := by
  rw [Nat.testBit_or, Nat.testBit_two_pow_self, Bool.or_true]

end State

/-- A tile halted by a fault. -/
def faultedTile (code : Nat) (t : Tile) : Tile :=
  { t with status := setF (setF t.status tileStatus_faultCode code) tileStatus_tileState TS.faulted }

theorem faultCode_faultedTile {code : Nat} (h : code < 256) (t : Tile) : getF (faultedTile code t).status tileStatus_faultCode = code := by
  unfold faultedTile; dsimp only
  rw [getF_setF_beside (by decide), getF_setF _ ⟨by decide, by decide⟩]
  exact Nat.mod_eq_of_lt h

theorem tileState_faultedTile (code : Nat) (t : Tile) : getF (faultedTile code t).status tileStatus_tileState = TS.faulted :=
  getF_setF _ ⟨by decide, by decide⟩ _

/-- From `s` to `s'` the tile `tl` alone has been halted by the fault `code`, which fails the step check. -/
structure FaultsTile (s : State) (tl : TileRef) (code : Nat) (s' : State) : Prop where
  frame : s' = { s with tiles := s'.tiles, job := s'.job }
  others : ∀ u, tkey u ≠ tkey tl → s'.tile u = s.tile u
  tile : s'.tile tl = faultedTile code (s.tile tl)
  check : s'.job.bits.testBit stepCheckStatus_tile.lo = true
  format : code = 6 → s.job.failErr = 0 → s'.job.failErr = Err.format

namespace FaultsTile
variable {s s' : State} {tl : TileRef} {code : Nat}

theorem faultCode (h : FaultsTile s tl code s') (hc : code < 256) : getF (s'.tile tl).status tileStatus_faultCode = code := by
  rw [h.tile, faultCode_faultedTile hc]

theorem halted (h : FaultsTile s tl code s') : getF (s'.tile tl).status tileStatus_tileState = TS.faulted := by
  rw [h.tile, tileState_faultedTile]

theorem rest (h : FaultsTile s tl code s') : { s'.tile tl with status := (s.tile tl).status } = s.tile tl := by
  rw [h.tile]; unfold faultedTile; rfl

theorem store (h : FaultsTile s tl code s') : (s'.tile tl).store = (s.tile tl).store := by rw [h.tile]; unfold faultedTile; rfl

theorem casks (h : FaultsTile s tl code s') : (s'.tile tl).casks = (s.tile tl).casks := by rw [h.tile]; unfold faultedTile; rfl

theorem chans (h : FaultsTile s tl code s') : (s'.tile tl).chans = (s.tile tl).chans := by rw [h.tile]; unfold faultedTile; rfl

end FaultsTile

namespace State

theorem tileFault_faultsTile (s : State) (tl : TileRef) {code : Nat} (h : code ≠ 1) : FaultsTile s tl code (s.tileFault tl code) := by
  have same : (s.setTile tl (faultedTile code (s.tile tl))).tile tl = faultedTile code (s.tile tl) := tile_setTile_same ..
  have other : ∀ u, tkey u ≠ tkey tl → (s.setTile tl (faultedTile code (s.tile tl))).tile u = s.tile u :=
    fun u hu => tile_setTile_other s _ hu
  unfold tileFault
  simp only [if_neg h]
  split
  · exact ⟨rfl, other, same, testBit_failed .., fun _ e => if_pos e⟩
  · next n =>
    split
    · exact ⟨rfl, other, same, testBit_failed .., fun e => absurd (.inl e) n⟩
    · exact ⟨rfl, other, same, testBit_failed .., fun e => absurd (.inl e) n⟩

theorem syncAdd_overflow (s : State) (tl : TileRef) (t : Tile) {k n : Nat} (hv : 0xffffffff < counter t k + n) :
    (s.setTile tl t).syncAdd tl k n = ((s.setTile tl t).setTile tl { t with raceInJob := t.raceInJob + 1 }).tileFault tl 5 := by
  unfold syncAdd
  simp only [tile_setTile_same]
  exact if_pos hv

end State

/-! ## Instructions that retire, wait or are illegal -/

/-- From `s` to `s'` the tile `tl` has done the work that makes it `t`, and its instruction `w` has retired and completed: the tile is
`u`. -/
structure Finishes (s : State) (tl : TileRef) (w : Word) (t : Tile) (s' : State) (u : Tile) : Prop where
  state : s' = retiredTo s tl u
  advanced : Advanced (s.tile tl) u w ((s.tile tl).seq.index + 1)
  same : SameButStore t u
  store : u.store = t.store
  s12For : getF u.status tileStatus_s12For = getF (s.tile tl).status tileStatus_s12For

theorem s12For_retiredTile (t : Tile) : getF (retiredTile t).status tileStatus_s12For = getF t.status tileStatus_s12For := by
  unfold retiredTile goneTile; dsimp only
  rw [getF_setF_beside (by decide), getF_setF_beside (by decide)]

theorem advanced_finishedTile {t u : Tile} (h : SameFlow t u) (now : Nat) (w : Word) :
    Advanced t (finishedTile now w u) w (t.seq.index + 1) := by
  obtain ⟨a, b, c, d, -⟩ := retired_finishedTile now w u
  rw [h.status] at b d
  exact ⟨by rw [a, h.seq], b, c, d, fun j => by rw [counter_finishedTile, h.counter]⟩

theorem waits_heldTile (s : State) (code : Nat) (t : Tile) : Waits s t (heldTile s.now code t) code where
  waiting := getF_setF _ ⟨by decide, by decide⟩ _
  held := rfl
  same := rfl
  store := rfl
  seq := rfl
  counters := rfl

namespace State

section
variable {s : State} {tl : TileRef} {c : Cls} {w : Word}

theorem finish_finishes (hc : Canonical s) (own : (s.tile tl).seq.redo = none) (fit : CountsFit (s.tile tl) w) {t : Tile}
    (h : SameFlow (s.tile tl) t) : ∃ u, Finishes s tl w t ((s.setTile tl t).finish tl w) u :=
  ⟨finishedTile s.now w t, finish_setTile hc tl w t (h.sameWait own) (fit.own h.counter), advanced_finishedTile h .., sameButStore_finishedTile ..,
    store_finishedTile .., by rw [finishedTile_eq, status_doneTile, s12For_retiredTile, h.status]⟩

/-- The same where a unit's progress is recorded between the work and the end. -/
theorem touch_finishes (hc : Canonical s) (own : (s.tile tl).seq.redo = none) (fit : CountsFit (s.tile tl) w) {t : Tile}
    (h : SameFlow (s.tile tl) t) (k : Nat) : ∃ u, Finishes s tl w t (((s.setTile tl t).touch tl k).finish tl w) u := by
  rw [touch_setTile hc]
  obtain ⟨u, state, adv, same, store, s12⟩ := finish_finishes hc own fit (h.marked s.now k)
  exact ⟨u, state, adv, (sameButStore_markedTile ..).trans same, store, s12⟩

/-- An instruction with nothing to do on its tile retires. -/
theorem finish_self (hc : Canonical s) (own : (s.tile tl).seq.redo = none) (fit : CountsFit (s.tile tl) w) :
    ∃ u, Finishes s tl w (s.tile tl) (s.finish tl w) u := by
  have h := finish_finishes hc own fit (.refl (s.tile tl))
  rwa [setTile_tile hc] at h

theorem hold_waits (hc : Canonical s) (tl : TileRef) (code : Nat) : ∃ u, s.hold tl code = s.setTile tl u ∧ Waits s (s.tile tl) u code := by
  refine ⟨_, ?_, waits_heldTile s code (s.tile tl)⟩
  rw [← hold_setTile hc, setTile_tile hc]

end

end State
end Sys2Proof.Machine

/-!
PROOFS. SYNC and MARK, the records they leave in the ledger, the tile heartbeat (R60 to R62, R66, R317).
-/
namespace Sys2Proof.Machine
namespace State

/-! ## The ledger (R317) -/

theorem find?_put_same {α : Type} (m : Sparse α) (k : Nat) (a : α) : (Sparse.put m k a).find? (fun x => x.1 == k) = some (k, a) := by
  induction m with
  | nil => simp [Sparse.put]
  | cons x m ih =>
    obtain ⟨j, v⟩ := x
    unfold Sparse.put
    split
    · simp
    · split
      · simp
      · next h _ => rw [List.find?_cons_of_neg (by simpa using h), ih]

theorem find?_put_other {α : Type} (m : Sparse α) {k i : Nat} (a : α) (h : i ≠ k) :
    (Sparse.put m k a).find? (fun x => x.1 == i) = m.find? (fun x => x.1 == i) := by
  have hk : ((k, a) : Nat × α).1 ≠ i := Ne.symm h
  induction m with
  | nil => simp [Sparse.put, Ne.symm h]
  | cons x m ih =>
    obtain ⟨j, v⟩ := x
    unfold Sparse.put
    split
    · next e => subst e; simp [Ne.symm h]
    · split
      · rw [List.find?_cons_of_neg (by simpa using hk)]
      · by_cases e : j = i
        · simp [e]
        · rw [List.find?_cons_of_neg (by simpa using e), List.find?_cons_of_neg (by simpa using e), ih]

/-- A record just appended stands where the head was. -/
theorem recordAt_ledger (s : State) (p cls code tile arg v a : Nat) :
    (recordAt (s.ledger p cls code tile arg v a) p (ledgerHead s p)).map (fun r => (r.cls, r.code, r.tile, r.arg)) =
      some (cls, code, tile, arg) := by
  unfold recordAt ledgerHead ledger part setPart
  simp only [Sparse.get_set_same, find?_put_same, Option.map_some]

theorem ledgerHead_ledger_ne (s : State) (p cls code tile arg v a : Nat) :
    ledgerHead (s.ledger p cls code tile arg v a) p ≠ ledgerHead s p := by
  unfold ledgerHead ledger part setPart
  simp only [Sparse.get_set_same, ringSlots]
  omega

/-- A later record leaves those at other places. -/
theorem recordAt_ledger_other (s : State) {p i : Nat} (cls code tile arg v a : Nat) (h : i ≠ ledgerHead s p) :
    recordAt (s.ledger p cls code tile arg v a) p i = recordAt s p i := by
  unfold recordAt ledger part setPart
  simp only [Sparse.get_set_same]
  exact congrArg (Option.map (·.2)) (find?_put_other _ _ h)

theorem recordAt_parts {s s' : State} (h : s'.parts = s.parts) (p i : Nat) : recordAt s' p i = recordAt s p i := by
  unfold recordAt part; rw [h]

theorem endWait_some {s : State} {tl : TileRef} {since code : Nat} (h : (s.tile tl).seq.held = some (since, code)) :
    s.endWait tl = (s.stall tl code ((s.now - since) / usTicks)).onTile tl (fun t => { t with seq := { t.seq with held := none } }) := by
  unfold endWait; rw [h]

/-- The end of a wait appends one record at most, so a record beside the head stays. -/
theorem recordAt_retiredTo {s : State} (tl : TileRef) (u : Tile) {i : Nat} (h : i ≠ ledgerHead s tl.p) :
    recordAt (retiredTo s tl u) tl.p i = recordAt s tl.p i := by
  unfold retiredTo
  rw [recordAt_parts (setTile_parts ..)]
  cases e : (s.tile tl).seq.held with
  | none => rw [endWait_of_none e]
  | some x =>
    obtain ⟨since, code⟩ := x
    rw [endWait_some e, recordAt_parts (onTile_parts ..)]
    unfold stall
    split
    · rfl
    · exact recordAt_ledger_other s _ _ _ _ _ _ h

/-- A stage's record stands at the head that it met, also when the wait of its sequencer then ends with a record of its own. -/
theorem recordAt_stageRecord (s : State) (tl : TileRef) (cls code arg : Nat) (u : Tile) :
    (recordAt (retiredTo (s.stageRecord tl cls code arg) tl u) tl.p (ledgerHead s tl.p)).map (fun r => (r.cls, r.code, r.tile, r.arg)) =
      some (cls, code, tl.t, arg) := by
  have stays : ledgerHead s tl.p ≠ ledgerHead (s.stageRecord tl cls code arg) tl.p := Ne.symm (ledgerHead_ledger_ne s _ _ _ _ _ _ _)
  rw [recordAt_retiredTo tl u stays]
  exact recordAt_ledger s ..

/-- A wait that was long enough, where the tile records stalls. -/
theorem recordAt_stall {s : State} (tl : TileRef) (u : Tile) {since code : Nat} (held : (s.tile tl).seq.held = some (since, code))
    (detail : s.detail tl ≠ 0) (long : since + usTicks ≤ s.now) :
    (recordAt (retiredTo s tl u) tl.p (ledgerHead s tl.p)).map (fun r => (r.cls, r.code, r.tile, r.arg)) =
      some (2, code, tl.t, min ((s.now - since) / usTicks) 0xffffffff) := by
  have us : (s.now - since) / usTicks ≠ 0 := by unfold usTicks at *; omega
  unfold retiredTo
  rw [recordAt_parts (setTile_parts ..), endWait_some held, recordAt_parts (onTile_parts ..)]
  unfold stall
  rw [if_neg (not_or.2 ⟨detail, us⟩)]
  exact recordAt_ledger s ..

/-- A wait that leaves no record leaves the rest of the state. -/
theorem retiredTo_silent {s : State} (hc : Canonical s) (tl : TileRef) (u : Tile) {since code : Nat}
    (held : (s.tile tl).seq.held = some (since, code)) (h : s.detail tl = 0 ∨ s.now < since + usTicks) :
    retiredTo s tl u = s.setTile tl u := by
  have silent : s.stall tl code ((s.now - since) / usTicks) = s := by
    unfold stall
    refine if_pos (h.imp_right fun h => ?_)
    unfold usTicks at *; omega
  unfold retiredTo
  rw [endWait_some held, silent, onTile, setTile_again hc]

theorem retiredTo_unheld {s : State} {tl : TileRef} (h : (s.tile tl).seq.held = none) (u : Tile) : retiredTo s tl u = s.setTile tl u := by
  unfold retiredTo; rw [endWait_of_none h]

theorem tile_retiredTo_same (s : State) (tl : TileRef) (u : Tile) : (retiredTo s tl u).tile tl = u := tile_setTile_same ..

theorem endWait_tile_other (s : State) {tl v : TileRef} (h : tkey v ≠ tkey tl) : (s.endWait tl).tile v = s.tile v := by
  unfold endWait
  split
  · rfl
  · rw [tile_onTile_other _ _ h]
    unfold stall
    split <;> rfl

theorem tile_retiredTo_other (s : State) {tl v : TileRef} (u : Tile) (h : tkey v ≠ tkey tl) : (retiredTo s tl u).tile v = s.tile v :=
  (tile_setTile_other _ u h).trans (endWait_tile_other s h)

/-- The end of a wait changes tiles, and the ledger with its next number. -/
theorem endWait_eq (s : State) (tl : TileRef) :
    ∃ tiles parts job, s.endWait tl = { s with tiles := tiles, parts := parts, job := job } := by
  unfold endWait
  split
  · exact ⟨s.tiles, s.parts, s.job, rfl⟩
  · unfold stall
    split
    · exact ⟨_, s.parts, s.job, rfl⟩
    · unfold stageRecord ledger onTile setTile setPart
      exact ⟨_, _, _, rfl⟩

/-- A retirement changes the tile, and the ledger where it ends a wait. -/
theorem frame_retiredTo (s : State) (tl : TileRef) (u : Tile) {tiles : Sparse Tile} {job : Job} :
    { retiredTo s tl u with tiles := tiles, job := job } = { s with tiles := tiles, parts := (retiredTo s tl u).parts, job := job } := by
  obtain ⟨_, _, _, e⟩ := endWait_eq s tl
  unfold retiredTo setTile
  rw [e]

/-! ## SYNC (R61) -/

section
variable {s : State} {tl : TileRef} {w : Word} {op : Nat}

theorem issueSync_issues (hi : Issues s tl .sync w) (ho : getF w sync_op = op) (h3 : op ≠ 3) (body : Tile → Word → State) :
    s.issueSync tl op body = body (s.tile tl) w := by
  unfold issueSync
  rw [issue_issues hi, if_neg (ho ▸ h3), if_pos ho]

/-- A tile whose counter k holds v. -/
def settedTile (k v : Nat) (t : Tile) : Tile := { t with counters := Sparse.set 0 t.counters k v }

theorem counter_settedTile (k v : Nat) (t : Tile) (j : Nat) : counter (settedTile k v t) j = if j = k then v else counter t j := by
  unfold counter settedTile
  split
  · next e => rw [e]; exact Sparse.get_set_same ..
  · next e => exact Sparse.get_set_other _ _ _ e

/-- A tile that differs from `t` in counters and marks retires as `t` does. -/
theorem retired_of_counted {t t' : Tile} {now n : Nat} {w : Word} (hs : t'.status = t.status) (hq : t'.seq = t.seq)
    (hr : { t' with counters := t.counters, marks := t.marks } = t) (h : n = t.seq.index + 1) : Retired t (finishedTile now w t') n := by
  obtain ⟨a, b, c, d, e⟩ := retired_finishedTile now w t'
  subst h
  refine ⟨by rw [a, hq], by rw [b, hs], c, by rw [d, hs], ?_⟩
  rw [hs, hq] at e
  exact (congrArg (fun x : Tile => { x with counters := t.counters, marks := t.marks }) e).trans hr

theorem syncSet_retires (hc : Canonical s) (hi : Issues s tl .sync w) (ho : getF w sync_op = 0)
    (fit : OwnFits (settedTile (getF w sync_counter) (getF w sync_value) (s.tile tl)) w) :
    s.syncSet tl = retiredTo s tl (finishedTile s.now w (settedTile (getF w sync_counter) (getF w sync_value) (s.tile tl))) := by
  unfold syncSet
  rw [issueSync_issues hi ho (by decide)]
  exact finish_setTile hc tl w _ ⟨rfl, rfl, rfl, hi.own⟩ fit

theorem syncInc_retired (hc : Canonical s) (hi : Issues s tl .sync w) (ho : getF w sync_op = 1) :
    s.syncInc tl = ((((s.endWait tl).setTile tl (retiredTile (s.tile tl))).syncAdd tl (getF w sync_counter) (getF w sync_value)).syncDone tl w) := by
  unfold syncInc
  rw [issueSync_issues hi ho (by decide)]
  have h := retire_setTile hc tl (s.tile tl) ⟨rfl, rfl, rfl, hi.own⟩
  rw [setTile_tile hc] at h
  rw [h]

theorem syncInc_retires (hc : Canonical s) (hi : Issues s tl .sync w) (ho : getF w sync_op = 1)
    (add : counter (s.tile tl) (getF w sync_counter) + getF w sync_value ≤ 0xffffffff)
    (fit : OwnFits (countedTile s.now (getF w sync_counter) (getF w sync_value) (retiredTile (s.tile tl))) w) :
    s.syncInc tl = retiredTo s tl (doneTile s.now w (countedTile s.now (getF w sync_counter) (getF w sync_value) (retiredTile (s.tile tl)))) := by
  have wf := tiles_endWait hc tl
  rw [syncInc_retired hc hi ho, syncAdd_setTile wf tl _ _ _ (by rw [counter_retiredTile]; exact add), now_endWait, syncDone_setTile wf tl _ fit,
    now_endWait]
  rfl

/-- A tile with one more race counted for the job. -/
def racedTile (t : Tile) : Tile := { t with raceInJob := t.raceInJob + 1 }

theorem syncInc_overflow (hc : Canonical s) (hi : Issues s tl .sync w) (ho : getF w sync_op = 1) (he : flagF w iw_syncEn = false)
    (hv : 0xffffffff < counter (s.tile tl) (getF w sync_counter) + getF w sync_value) :
    s.syncInc tl = (retiredTo s tl (racedTile (retiredTile (s.tile tl)))).tileFault tl 5 := by
  rw [syncInc_retired hc hi ho, syncAdd_overflow _ _ _ (by rw [counter_retiredTile]; exact hv), setTile_setTile (tiles_endWait hc tl)]
  unfold syncDone
  rw [he, if_neg (by decide)]
  unfold retiredTo racedTile
  rfl

theorem syncWait_retires (hc : Canonical s) (hi : Issues s tl .sync w) (ho : getF w sync_op = 2)
    (reached : getF w sync_value ≤ counter (s.tile tl) (getF w sync_counter)) (fit : OwnFits (s.tile tl) w) :
    s.syncWait tl = retiredTo s tl (finishedTile s.now w (s.tile tl)) := by
  unfold syncWait
  rw [issueSync_issues hi ho (by decide)]
  have h := finish_setTile hc tl w (s.tile tl) ⟨rfl, rfl, rfl, hi.own⟩ fit
  rw [setTile_tile hc] at h
  exact (if_pos reached).trans h

/-- A tile whose sequencer awaits the value v of counter k. -/
def awaitingTile (k v : Nat) (coll : Bool) (t : Tile) : Tile :=
  { t with seq := { t.seq with wait := some (k, v) }, redStatus := setF t.redStatus redStatus_collWait (bit coll) }

theorem syncWait_holds (hc : Canonical s) (hi : Issues s tl .sync w) (ho : getF w sync_op = 2)
    (short : counter (s.tile tl) (getF w sync_counter) < getF w sync_value) :
    s.syncWait tl = s.setTile tl (heldTile s.now (if s.waitsColl tl (getF w sync_counter) then stallColl else stallSync)
      (markedTile s.now 19 (awaitingTile (getF w sync_counter) (getF w sync_value) (s.waitsColl tl (getF w sync_counter)) (s.tile tl)))) := by
  unfold syncWait
  rw [issueSync_issues hi ho (by decide)]
  refine (if_neg (Nat.not_le.2 short)).trans ?_
  rw [onTile, touch_setTile hc, hold_setTile hc]
  rfl

/-- A tile whose sequencer awaits no counter. -/
def reachedTile (t : Tile) : Tile := { t with seq := { t.seq with wait := none }, redStatus := setF t.redStatus redStatus_collWait 0 }

theorem waitSatisfied_retires (hc : Canonical s) {k v : Nat} (hw : (s.tile tl).seq.wait = some (k, v)) (reached : v ≤ counter (s.tile tl) k)
    (hi : s.canIssue tl = true) (own : (s.tile tl).seq.redo = none) (fit : OwnFits (s.tile tl) (curWord (s.tile tl))) :
    s.waitSatisfied tl = retiredTo s tl (finishedTile s.now (curWord (s.tile tl)) (reachedTile (s.tile tl))) := by
  unfold waitSatisfied
  simp only [hw, hi, Bool.not_true, Bool.false_or, decide_eq_true_eq]
  refine (if_neg (Nat.not_lt.2 reached)).trans ?_
  exact finish_setTile hc tl _ _ ⟨rfl, rfl, rfl, own⟩ fit

end

end State

open State

/-- Settles O7: each SYNC is a write of the tile's counters and a retirement; an overflow stops at the fault of R68. -/
theorem syncCounters : Obligations.SyncCounters := by
  unfold Obligations.SyncCounters
  intro s tl w hc
  dsimp only
  refine ⟨fun hi fit => ⟨fun ho => ?set, fun ho => ?inc, fun ho reached => ?reached⟩, fun hi ho he hv => ?overflow, fun hi ho short => ?waits,
    fun c n hw reached hi own fit => ?satisfied, fun u since code held => ⟨fun hd long => ?record, fun h => ?silent⟩,
    fun u held => retiredTo_unheld held u⟩
  case set =>
    refine ⟨_, congrArg Host.Outcome.next (syncSet_retires hc hi ho fun e => ?_), retired_of_counted rfl rfl rfl rfl, fun j => ?_⟩
    · have := fit (getF w iw_counter)
      rw [adds_own e] at this
      rw [counter_settedTile]
      split <;> omega
    · rw [counter_finishedTile, counter_settedTile]
  case inc =>
    have add := fit (getF w sync_counter)
    refine ⟨_, congrArg Host.Outcome.next (syncInc_retires hc hi ho (by omega) fun e => ?_), ?_, fun j => ?_⟩
    · have := fit (getF w iw_counter)
      rw [adds_own e] at this
      rw [counter_countedTile, counter_retiredTile]
      split <;> omega
    · obtain ⟨a, b, c, d, e⟩ := retired_retiredTile (s.tile tl)
      unfold doneTile countedTile
      split <;> exact ⟨a, b, c, d, e⟩
    · rw [counter_doneTile, counter_countedTile, counter_retiredTile]
  case reached =>
    refine ⟨_, congrArg Host.Outcome.next (syncWait_retires hc hi ho reached fun e => ?_), retired_of_counted rfl rfl rfl rfl, fun j => counter_finishedTile ..⟩
    have := fit (getF w iw_counter)
    rw [adds_own e] at this
    omega
  case overflow =>
    have ft := tileFault_faultsTile (retiredTo s tl (racedTile (retiredTile (s.tile tl)))) tl (code := 5) (by decide)
    refine ⟨_, congrArg Host.Outcome.next (syncInc_overflow hc hi ho he hv), ?frame, fun held => ?parts, fun u hu => ?others,
      ft.faultCode (by decide), ft.halted, ?counters, ft.check⟩
    case frame => exact ft.frame.trans (frame_retiredTo ..)
    case parts => rw [congrArg State.parts ft.frame, retiredTo_unheld held, setTile_parts]
    case others => rw [ft.others u hu, tile_retiredTo_other _ _ hu]
    case counters =>
      rw [ft.tile, tile_retiredTo_same]
      unfold faultedTile racedTile retiredTile goneTile
      rfl
  case waits =>
    exact ⟨_, congrArg Host.Outcome.next (syncWait_holds hc hi ho short), rfl, getF_setF _ ⟨by decide, by decide⟩ _, rfl, rfl, rfl, rfl, rfl⟩
  case satisfied =>
    have h := waitSatisfied_retires hc hw reached hi own (fit.own fun _ => rfl)
    obtain ⟨a, b, c, d, -⟩ := retired_finishedTile s.now (curWord (s.tile tl)) (reachedTile (s.tile tl))
    have same := sameButStore_finishedTile s.now (curWord (s.tile tl)) (reachedTile (s.tile tl))
    have red := congrArg Tile.redStatus same
    refine ⟨_, congrArg Host.Outcome.next h, ⟨a, b, c, d, fun j => counter_finishedTile ..⟩, ?_, ?_, ?_, store_finishedTile ..⟩
    · rw [seq_finishedTile]; rfl
    · rw [seq_finishedTile]
    · rw [red]; exact SameButStore.trans (u := reachedTile (s.tile tl)) rfl same
  case record => exact recordAt_stall tl u held hd long
  case silent => exact retiredTo_silent hc tl u held h

end Sys2Proof.Machine

namespace Sys2Proof.Machine
namespace State

/-! ## MARK (R317) -/

section
variable {s : State} {tl : TileRef} {w : Word}

/-- An instruction that leaves a record and does nothing else. -/
theorem finish_stageRecord (hc : Canonical s) (hi : Issues s tl c w) (fit : CountsFit (s.tile tl) w) (cls code arg : Nat) :
    ∃ u, (s.stageRecord tl cls code arg).finish tl w = retiredTo (s.stageRecord tl cls code arg) tl u ∧
      Advanced (s.tile tl) u w ((s.tile tl).seq.index + 1) ∧ SameButStore (s.tile tl) u ∧ u.store = (s.tile tl).store := by
  obtain ⟨u, state, adv, same, store, -⟩ := finish_self (s := s.stageRecord tl cls code arg) ((stageRecord_keeps (.refl s) ..).canon hc) hi.own fit
  exact ⟨u, state, adv, same, store⟩

theorem mark_phase (hi : Issues s tl .mark w) (hk : getF w mark_kind = 0) (us : Nat) :
    s.mark tl us = (s.stageRecord tl 0 (getF w mark_code) 0).finish tl w := by
  unfold mark; rw [issue_issues hi]; simp only [hk]

theorem mark_lot (hi : Issues s tl .mark w) (hk : getF w mark_kind = 1) (us : Nat) :
    s.mark tl us = (if getF (s.tile tl).ctl tileCtl_ledgerDetail = 2 then s.stageRecord tl 1 (getF w mark_code) (s.tile tl).seq.lot else s).finish tl w := by
  unfold mark detail; rw [issue_issues hi]; simp only [hk]

theorem mark_stall (hi : Issues s tl .mark w) (hk : getF w mark_kind = 2) (us : Nat) :
    s.mark tl us = (s.stall tl (getF w mark_code) us).finish tl w := by
  unfold mark; rw [issue_issues hi]; simp only [hk]

/-! ## The heartbeat (R66) -/

/-- A heartbeat is due when its period has passed, or the clock has gone back. -/
theorem tileHeartbeat_due (ha : s.alive = true) (ho : getF (s.tileStatusRead tl) tileStatus_tileState ≠ TS.off)
    (due : s.now < (s.tile tl).heartbeat ∨ (s.tile tl).heartbeat + s.hbTicks tl ≤ s.now) :
    s.tileHeartbeat tl = (s.setTile tl { s.tile tl with heartbeat := s.now }).send
      (.heartbeat tl s.now (getF (s.tile tl).status tileStatus_progress)) := by
  have h : ¬ ((s.tile tl).heartbeat ≤ s.now ∧ s.now < (s.tile tl).heartbeat + s.hbTicks tl) := by omega
  unfold tileHeartbeat
  refine if_neg ?_
  simpa [ha, ho] using h

theorem tileHeartbeat_early (early : (s.tile tl).heartbeat ≤ s.now) (late : s.now < (s.tile tl).heartbeat + s.hbTicks tl) :
    s.tileHeartbeat tl = s := by
  unfold tileHeartbeat
  exact if_pos (by simp [early, late])

theorem tileHeartbeat_off (ho : getF (s.tileStatusRead tl) tileStatus_tileState = TS.off) : s.tileHeartbeat tl = s := by
  unfold tileHeartbeat
  exact if_pos (by simp [ho])

end

end State

open State

/-- Settles O10: MARK is a record, where the detail asks for one, and a retirement; the record stands at the head that it met. -/
theorem markAndHeartbeat : Obligations.MarkAndHeartbeat := by
  unfold Obligations.MarkAndHeartbeat
  intro s tl w us hc
  dsimp only
  refine ⟨fun hi fit => ⟨fun hk => ?phase, fun hk hd => ?noLot, fun hk hd => ?noStall, fun hk hd => ?lot, fun hk hd hu => ?stall⟩,
    fun ha ho => ⟨fun due => congrArg Host.Outcome.next (tileHeartbeat_due ha ho due),
      fun early late => congrArg Host.Outcome.next (tileHeartbeat_early early late)⟩,
    fun ho => congrArg Host.Outcome.next (tileHeartbeat_off ho), rfl⟩
  case phase =>
    obtain ⟨u, state, adv, same, store⟩ := finish_stageRecord hc hi fit 0 (getF w mark_code) 0
    exact ⟨u, congrArg Host.Outcome.next ((mark_phase hi hk us).trans state), recordAt_stageRecord .., adv, same, store⟩
  case noLot =>
    obtain ⟨u, state, adv, same, store, -⟩ := finish_self hc hi.own fit
    exact ⟨u, congrArg Host.Outcome.next (((mark_lot hi hk us).trans (by rw [if_neg hd])).trans state), adv, same, store⟩
  case noStall =>
    obtain ⟨u, state, adv, same, store, -⟩ := finish_self hc hi.own fit
    have silent : s.stall tl (getF w mark_code) us = s := if_pos hd
    exact ⟨u, congrArg Host.Outcome.next (((mark_stall hi hk us).trans (by rw [silent])).trans state), adv, same, store⟩
  case lot =>
    obtain ⟨u, state, adv, same, store⟩ := finish_stageRecord hc hi fit 1 (getF w mark_code) (s.tile tl).seq.lot
    exact ⟨u, congrArg Host.Outcome.next (((mark_lot hi hk us).trans (by rw [if_pos hd])).trans state), recordAt_stageRecord .., adv, same, store⟩
  case stall =>
    obtain ⟨u, state, adv, same, store⟩ := finish_stageRecord hc hi fit 2 (getF w mark_code) (min us 0xffffffff)
    have recorded : s.stall tl (getF w mark_code) us = s.stageRecord tl 2 (getF w mark_code) (min us 0xffffffff) := if_neg (not_or.2 ⟨hd, hu⟩)
    exact ⟨u, congrArg Host.Outcome.next (((mark_stall hi hk us).trans (by rw [recorded])).trans state), recordAt_stageRecord .., adv, same, store⟩

/-! ## Illegal words (R68, R270) -/

namespace State

section
variable {s : State} {tl : TileRef} (may : s.canIssue tl = true) (inside : (s.tile tl).seq.index < 4032)
include may inside

theorem issue_reserved (none : clsOf (curWord (s.tile tl)) = none) (c : Cls) (body : Tile → Word → State) : s.issue tl c body = s.tileFault tl 6 := by
  unfold issue
  simp only [may, none, Nat.not_le.2 inside, Bool.not_true, Bool.false_eq_true, if_false]

theorem issueSync_reserved (none : clsOf (curWord (s.tile tl)) = none) (op : Nat) (body : Tile → Word → State) :
    s.issueSync tl op body = s.tileFault tl 6 := by unfold issueSync; exact issue_reserved may inside none ..

theorem issueFlow_reserved (none : clsOf (curWord (s.tile tl)) = none) (op : Nat) (body : Tile → Word → State) :
    s.issueFlow tl op body = s.tileFault tl 6 := by unfold issueFlow; exact issue_reserved may inside none ..

/-- A word of the class that the command names runs its body, whether or not a span is run again. -/
theorem issue_own {c : Cls} (cls : clsOf (curWord (s.tile tl)) = some c) (body : Tile → Word → State) :
    s.issue tl c body = body (s.tile tl) (curWord (s.tile tl)) := by
  unfold issue
  simp only [may, cls, Nat.not_le.2 inside, Bool.not_true, Bool.false_eq_true, if_false, if_true]

theorem issueSync_illegal (cls : clsOf (curWord (s.tile tl)) = some .sync) (op3 : getF (curWord (s.tile tl)) sync_op = 3) (op : Nat)
    (body : Tile → Word → State) : s.issueSync tl op body = s.tileFault tl 6 := by
  unfold issueSync; rw [issue_own may inside cls, if_pos op3]

theorem issueFlow_illegal (cls : clsOf (curWord (s.tile tl)) = some .flow) (big : 4 < getF (curWord (s.tile tl)) flow_op) (op : Nat)
    (body : Tile → Word → State) : s.issueFlow tl op body = s.tileFault tl 6 := by
  unfold issueFlow; rw [issue_own may inside cls, if_pos big]

theorem mark_illegal (cls : clsOf (curWord (s.tile tl)) = some .mark) (kind : getF (curWord (s.tile tl)) mark_kind = 3) (us : Nat) :
    s.mark tl us = s.tileFault tl 6 := by
  unfold mark; rw [issue_own may inside cls]; simp only [kind]

theorem row_illegal (cls : clsOf (curWord (s.tile tl)) = some .row) {d : RowDesc} (bad : badRow (s.tile tl) (curWord (s.tile tl)) d = true)
    (m : StoreIn) : s.row tl d m = s.tileFault tl 6 := by
  unfold row; rw [issue_own may inside cls]; exact if_pos bad

theorem issueVec_illegal (cls : clsOf (curWord (s.tile tl)) = some .vec)
    (bad : 7 < getF (curWord (s.tile tl)) vec_op ∨ badDesc (getF (curWord (s.tile tl)) iw_desc) = true) (code : Nat) (body : Tile → Word → State) :
    s.issueVec tl code body = s.tileFault tl 6 := by
  unfold issueVec; rw [issue_own may inside cls]
  refine if_pos ?_
  rcases bad with h | h <;> simp [h]

theorem move_illegal (cls : clsOf (curWord (s.tile tl)) = some .move) (bad : badDesc (getF (curWord (s.tile tl)) iw_desc) = true) (d : MoveDesc)
    (e : Ecc) : s.move tl d e = s.tileFault tl 6 := by
  unfold move; rw [issue_own may inside cls]; exact if_pos bad

theorem load_illegal (cls : clsOf (curWord (s.tile tl)) = some .load) (bad : badDesc (getF (curWord (s.tile tl)) iw_desc) = true) (d : LoadDesc)
    (e : Ecc) : s.load tl d e = s.tileFault tl 6 := by
  unfold load; rw [issue_own may inside cls]; exact if_pos (by simp [bad])

end

end State

/-- Settles O21: every case is the one fault 0x06 of the tile. -/
theorem illegalWords : Obligations.IllegalWords := by
  unfold Obligations.IllegalWords
  rintro s tl w c may inside rfl cases
  have faults : exec c s = .next (s.tileFault tl 6) := by
    rcases cases with ⟨none, issued⟩ | ⟨cls, op3, issued⟩ | ⟨cls, big, issued⟩ | ⟨cls, kind, us, rfl⟩ | ⟨cls, d, e, r, rfl, bad⟩ |
      ⟨cls, bad, x, rfl⟩ | ⟨cls, bad, d, e, rfl⟩ | ⟨cls, bad, d, e, rfl⟩
    · rcases issued with rfl | ⟨e, rfl⟩ | rfl
      · exact congrArg Host.Outcome.next (issueSync_reserved may inside none ..)
      · exact congrArg Host.Outcome.next (issueFlow_reserved may inside none ..)
      · exact congrArg Host.Outcome.next (issueFlow_reserved may inside none ..)
    · rcases issued with rfl | rfl | rfl <;>
        exact congrArg Host.Outcome.next (issueSync_illegal may inside cls op3 ..)
    · rcases issued with ⟨e, rfl | rfl⟩ | rfl | rfl | rfl <;>
        exact congrArg Host.Outcome.next (issueFlow_illegal may inside cls big ..)
    · exact congrArg Host.Outcome.next (mark_illegal may inside cls kind us)
    · exact congrArg Host.Outcome.next (row_illegal may inside cls bad ⟨e, r⟩)
    · exact congrArg Host.Outcome.next (issueVec_illegal may inside cls bad ..)
    · exact congrArg Host.Outcome.next (move_illegal may inside cls bad d e)
    · exact congrArg Host.Outcome.next (load_illegal may inside cls bad d e)
  have ft := tileFault_faultsTile s tl (code := 6) (by decide)
  exact ⟨_, faults, ft.frame, ft.others, ft.faultCode (by decide), ft.halted, ft.rest, ft.check, ft.format rfl⟩

end Sys2Proof.Machine

/-!
PROOFS. LOAD: a stream into its loader, shadow sets into the arrays (R49, R75, R79, R244).
-/
namespace Sys2Proof.Machine

/-! ## Arrays written (R51, R75) -/

theorem physArray_ne (t : Tile) {j k : Nat} (hj : j < 13) (hk : k < 13) (h : j ≠ k) : physArray t j ≠ physArray t k := by
  unfold physArray
  split <;> split <;> omega

theorem arrOf_setArr_same (t : Tile) (k : Nat) (a : Arr) : arrOf (setArr t k a) k = a := Sparse.get_set_same ..

theorem arrOf_setArr_other (t : Tile) {j k : Nat} (hj : j < 13) (hk : k < 13) (h : j ≠ k) (a : Arr) : arrOf (setArr t k a) j = arrOf t j :=
  Sparse.get_set_other _ _ _ (physArray_ne t hj hk h)

theorem arrOf_congr {t u : Tile} (ha : u.arrays = t.arrays) (hs : getF u.status tileStatus_s12For = getF t.status tileStatus_s12For) (k : Nat) :
    arrOf u k = arrOf t k := by
  unfold arrOf physArray; rw [ha, hs]

theorem sameFlow_setArr (t : Tile) (k : Nat) (a : Arr) : SameFlow t (setArr t k a) := ⟨rfl, rfl, rfl, rfl⟩

theorem mem_maskBits_lt {n mask k : Nat} (h : k ∈ maskBits n mask) : k < n := List.mem_range.1 (List.mem_filter.1 h).1

theorem nodup_maskBits (n mask : Nat) : (maskBits n mask).Nodup := List.nodup_range.filter _

/-- A tile whose array k has the shadow set that `g` gives it, complete and untaken. -/
def withShadow (g : Nat → StatSet) (t : Tile) (k : Nat) : Tile :=
  setArr t k { arrOf t k with shadow := g k, complete := true, untaken := true }

theorem sameFlow_withShadows (g : Nat → StatSet) (t : Tile) (ks : List Nat) : SameFlow t (ks.foldl (withShadow g) t) :=
  .foldl ks fun u k => sameFlow_setArr u k _

theorem sameBut_withShadows (g : Nat → StatSet) (t : Tile) (ks : List Nat) :
    ks.foldl (withShadow g) t = { t with arrays := (ks.foldl (withShadow g) t).arrays } := by
  induction ks generalizing t with
  | nil => rfl
  | cons k ks ih => rw [List.foldl_cons, ih]; rfl

theorem arrOf_withShadows_other (g : Nat → StatSet) {ks : List Nat} (hk : ∀ k ∈ ks, k < 13) (t : Tile) {j : Nat} (hj : j < 13) (h : j ∉ ks) :
    arrOf (ks.foldl (withShadow g) t) j = arrOf t j := by
  induction ks generalizing t with
  | nil => rfl
  | cons k ks ih =>
    obtain ⟨h1, h2⟩ := List.ne_and_not_mem_of_not_mem_cons h
    obtain ⟨k13, hks⟩ := List.forall_mem_cons.1 hk
    rw [List.foldl_cons, ih hks _ h2]
    exact arrOf_setArr_other t hj k13 h1 _

theorem arrOf_withShadows (g : Nat → StatSet) {ks : List Nat} (hk : ∀ k ∈ ks, k < 13) (nd : ks.Nodup) (t : Tile) {j : Nat} (h : j ∈ ks) :
    arrOf (ks.foldl (withShadow g) t) j = { arrOf t j with shadow := g j, complete := true, untaken := true } := by
  induction ks generalizing t with
  | nil => exact absurd h List.not_mem_nil
  | cons k ks ih =>
    obtain ⟨out, nd⟩ := List.nodup_cons.1 nd
    obtain ⟨k13, hks⟩ := List.forall_mem_cons.1 hk
    rw [List.foldl_cons]
    rcases List.mem_cons.1 h with rfl | h
    · rw [arrOf_withShadows_other g hks _ k13 out]
      exact arrOf_setArr_same ..
    · have jk : j ≠ k := fun e => out (e ▸ h)
      rw [ih hks nd _ h]
      unfold withShadow
      rw [arrOf_setArr_other t (hks j h) k13 jk]

/-- A tile whose loader b holds the stream `st`. -/
def withStream (b : Nat) (st : Stream) (t : Tile) : Tile := if b = 0 then { t with loaderA := some st } else { t with loaderB := some st }

theorem sameFlow_withStream (b : Nat) (st : Stream) (t : Tile) : SameFlow t (withStream b st t) := by
  unfold withStream; split <;> exact ⟨rfl, rfl, rfl, rfl⟩

namespace State

/-! ## LOAD -/

theorem freeEntries_nil (s : State) (tl : TileRef) : s.freeEntries tl [] = s := rfl

section
variable {s : State} {tl : TileRef} {w : Word} {d : LoadDesc} {f : Fmt}

/-- The stream that a LOAD at hand gives its loader (R75, R183). -/
def loadedStream (t : Tile) (w : Word) (d : LoadDesc) : Stream :=
  { word := w, d0 := progWord t (getF w iw_desc), d1 := progWord t (getF w iw_desc + 1), mask := progWord t (4032 + getF w load_mask),
    x := loadX t w d.xslot }

/-- What a LOAD at hand of array k works from. -/
def loadRunOf (s : State) (t : Tile) (w : Word) (d : LoadDesc) (f : Fmt) (k : Nat) : LoadRun :=
  loadRun t k w (progWord t (getF w iw_desc)) (progWord t (getF w iw_desc + 1)) (maskedBlocks s.tensors d.mask) (loadX t w d.xslot) f

section
variable (hi : Issues s tl .load w) (hd : badDesc (getF w iw_desc) = false) (hf : fmtEntry (s.tile tl) (getF w load_fmt) = some f)
include hi hd hf

theorem load_busy (ht : getF w load_target = 0) (hp : getF w load_pattern = 0) (busy : loaderBusy (s.tile tl) (getF w load_loader) = true) (e : Ecc) :
    s.load tl d e = s.hold tl stallLoader := by
  unfold load; rw [issue_issues hi]; simp [hd, hf, ht, hp, busy]

theorem load_stream (ht : getF w load_target = 0) (hp : getF w load_pattern = 0) (free : loaderBusy (s.tile tl) (getF w load_loader) = false) :
    s.load tl d .clean = (((s.setTile tl (withStream (getF w load_loader) (loadedStream (s.tile tl) w d) (s.tile tl))).touch tl
      (14 + getF w load_loader)).finish tl w).freeEntries tl d.frees := by
  unfold load; rw [issue_issues hi]
  simp only [hd, hf, ht, hp, free, storeEcc, Bool.false_eq_true, if_false, reduceCtorEq, if_true]
  unfold loadStream withStream loadedStream onTile
  simp

variable (ht : getF w load_target = 1) (hp : getF w load_pattern < 3) (h12 : getF w load_pattern = 2 → (getF w load_arrays).testBit 12 = false)
include ht hp h12

/-- A legal LOAD of shadow sets, with its checks in their order. -/
theorem load_shadows (e : Ecc) : s.load tl d e =
    if allMasked s.tensors d.mask = true then s.finish tl w
    else if (maskBits 13 (getF w load_arrays)).any (fun k => (arrOf (s.tile tl) k).untaken) then s.hold tl stallShadow
    else if (maskBits 13 (getF w load_arrays)).any (fun k => decide (storeBytes < loadReach (loadRunOf s (s.tile tl) w d f k))) then
      s.tileFault tl 9
    else if e = .uncorrectable then s.storeEcc tl e
    else (s.storeEcc tl e).loadShadow tl (s.tile tl) w (progWord (s.tile tl) (getF w iw_desc)) (progWord (s.tile tl) (getF w iw_desc + 1)) d f := by
  have p3 : (getF w load_pattern == 3) = false := by simp; omega
  have m12 : (getF w load_pattern == 2 && (maskBits 13 (getF w load_arrays)).contains 12) = false := by
    by_cases h : getF w load_pattern = 2
    · simp [maskBits, h12 h]
    · simp [h]
  unfold load; rw [issue_issues hi]
  simp only [hd, hf, ht, p3, m12, loadRunOf, Nat.one_ne_zero, Nat.lt_irrefl, decide_false, Bool.false_and, Bool.or_false,
    Bool.false_eq_true, if_false, true_and, false_and, show ((1 : Nat) == 0) = false from rfl]
  congr!

end
end
end State

open State

/-- Settles O11: a LOAD is work on the loaders or on the shadow sets, then a retirement; where it may not begin it waits. -/
theorem loads : Obligations.Loads := by
  unfold Obligations.Loads
  intro s tl w d f hc hi fit
  dsimp only
  refine fun hd hf => ⟨fun ht hp => ⟨fun free nofrees => ?stream, fun busy e => ?busy⟩,
    fun ht hp h12 => ⟨fun unmasked nofrees ready => ?shadows, fun unmasked untaken e => ?untaken, fun masked e => ?masked⟩⟩
  case stream =>
    obtain ⟨u, state, adv, same, store, -⟩ := touch_finishes hc hi.own fit
      (sameFlow_withStream (getF w load_loader) (loadedStream (s.tile tl) w d) (s.tile tl)) (14 + getF w load_loader)
    have a := congrArg Tile.loaderA same
    have b := congrArg Tile.loaderB same
    refine ⟨u, congrArg Host.Outcome.next ((load_stream hi hd hf ht hp free).trans ?_), adv, ?_⟩
    · rw [nofrees, freeEntries_nil, state]
    · unfold withStream at same store a b
      split at same
      · next h =>
        simp only [if_pos h] at a b store ⊢
        exact ⟨a, by rw [a, b]; exact same, b, store⟩
      · next h =>
        simp only [if_neg h] at a b store ⊢
        exact ⟨b, by rw [a, b]; exact same, a, store⟩
  case busy =>
    obtain ⟨u, e', h⟩ := hold_waits hc tl stallLoader
    exact ⟨u, congrArg Host.Outcome.next ((load_busy hi hd hf ht hp busy e).trans e'), h⟩
  case shadows =>
    let g := fun k => loadedSet (s.tile tl) w (loadRunOf s (s.tile tl) w d f k)
    let ks := maskBits 13 (getF w load_arrays)
    have inside : ∀ k ∈ ks, k < 13 := fun k => mem_maskBits_lt
    obtain ⟨u, state, adv, same, store, s12⟩ := touch_finishes hc hi.own fit (sameFlow_withShadows g (s.tile tl) ks) (14 + getF w load_loader)
    have arrays := congrArg Tile.arrays same
    have arr : ∀ k, arrOf u k = arrOf (ks.foldl (withShadow g) (s.tile tl)) k :=
      arrOf_congr arrays (by rw [s12, (sameFlow_withShadows g (s.tile tl) ks).status])
    refine ⟨u, congrArg Host.Outcome.next ((load_shadows hi hd hf ht hp h12 .clean).trans ?_), adv, fun k hk => ?_, fun k hk k13 => ?_, ?_, ?_⟩
    · have taken : ks.any (fun k => (arrOf (s.tile tl) k).untaken) = false := List.any_eq_false.2 fun k hk => by simp [(ready k hk).1]
      have reach : ks.any (fun k => decide (storeBytes < loadReach (loadRunOf s (s.tile tl) w d f k))) = false :=
        List.any_eq_false.2 fun k hk => mt of_decide_eq_true (Nat.not_lt.2 (ready k hk).2)
      rw [if_neg (by simp [unmasked]), if_neg (Bool.eq_false_iff.1 taken), if_neg (Bool.eq_false_iff.1 reach), if_neg (by decide)]
      unfold loadShadow
      rw [nofrees, freeEntries_nil]
      exact state
    · rw [arr, arrOf_withShadows g inside (nodup_maskBits ..) _ hk]
      rfl
    · rw [arr, arrOf_withShadows_other g inside _ k13 hk]
    · rw [sameBut_withShadows] at same; rw [arrays]; exact same
    · rw [store, sameBut_withShadows]
  case untaken =>
    obtain ⟨u, e', h⟩ := hold_waits hc tl stallShadow
    refine ⟨u, congrArg Host.Outcome.next ((load_shadows hi hd hf ht hp h12 e).trans ?_), h⟩
    rw [if_neg (by simp [unmasked]), if_pos (List.any_eq_true.2 untaken), e']
  case masked =>
    obtain ⟨u, state, adv, same, store, -⟩ := finish_self hc hi.own fit
    exact ⟨u, congrArg Host.Outcome.next ((load_shadows hi hd hf ht hp h12 e).trans ((if_pos masked).trans state)), adv, same, store⟩

end Sys2Proof.Machine

/-!
PROOFS. VEC: conversions and compression (R59, R137, R185, R243).
-/
namespace Sys2Proof.Machine

/-! ## Ranges of a store -/

namespace Memory

theorem writeN_append (m : List Host.Cell) (a : Nat) (xs ys : List Byte) : writeN m a (xs ++ ys) = writeN (writeN m a xs) (a + xs.length) ys := by
  induction xs generalizing m a with
  | nil => rfl
  | cons x xs ih =>
    show writeN (write m a x) (a + 1) (xs ++ ys) = writeN (writeN (write m a x) (a + 1) xs) (a + (xs.length + 1)) ys
    rw [ih, show a + (xs.length + 1) = a + 1 + xs.length by omega]

theorem readLE_writeLE (m : List Host.Cell) (a n v : Nat) : readLE (writeLE m a n v) a n = v % 256 ^ n := by
  have h := readN_writeN m a (bytesLE v n)
  rw [bytesLE_length] at h
  unfold readLE writeLE
  rw [h, le_bytesLE]

/-- Writes that each leave a byte leave it together. -/
theorem read_foldl {α : Type} {f : List Host.Cell → α → List Host.Cell} {i : Nat} (l : List α)
    (h : ∀ m, ∀ x ∈ l, read (f m x) i = read m i) (m : List Host.Cell) : read (l.foldl f m) i = read m i := by
  induction l generalizing m with
  | nil => rfl
  | cons x l ih =>
    rw [List.foldl_cons, ih fun m y hy => h m y (List.mem_cons_of_mem _ hy)]
    exact h m x List.mem_cons_self

end Memory

theorem Wrote.writeN {t u : Tile} {a : Nat} {bs : List Byte} (h : u.store = Memory.writeN t.store a bs) : Wrote t u a bs :=
  ⟨by rw [h, Memory.readN_writeN], fun x hx => by rw [h, Memory.read_writeN_outside _ _ _ hx]⟩

/-! ## Measuring (R160, R175) -/

theorem slotOf_measure_other (t : Tile) {k j : Nat} (h : j ≠ k) (amax : Nat × Int) (bad : Nat) (counts clamped : Bool) :
    slotOf (measure t k amax bad counts clamped) j = slotOf t j := by
  unfold measure slotOf
  dsimp only
  split
  · rfl
  · exact Sparse.get_set_other _ _ _ h

theorem measure_eq (t : Tile) (k : Nat) (amax : Nat × Int) (bad : Nat) (counts clamped : Bool) :
    measure t k amax bad counts clamped = { t with slots := (measure t k amax bad counts clamped).slots } := by
  unfold measure
  dsimp only
  split <;> rfl

/-! ## Issue and end of a VEC -/

namespace State

section
variable {s : State} {tl : TileRef} {w : Word}

theorem issueVec_issues {code : Nat} (hi : Issues s tl .vec w) (hd : badDesc (getF w iw_desc) = false) (hr : getF w ⟨33, 12⟩ = 0)
    (ho : getF w vec_op = code) (h7 : code ≤ 7) (body : Tile → Word → State) : s.issueVec tl code body = body (s.tile tl) w := by
  unfold issueVec
  rw [issue_issues hi, if_neg (by simp [hd, hr, ho, h7]), if_pos ho]

/-- A VEC whose operands are clean and whose writes meet no other retires with its work done. -/
theorem vecDone_finishes (hc : Canonical s) (own : (s.tile tl).seq.redo = none) (fit : CountsFit (s.tile tl) w) {f : Tile → Tile}
    (h : SameFlow (s.tile tl) (f (s.tile tl))) : ∃ u, Finishes s tl w (f (s.tile tl)) (s.vecDone tl w ⟨.clean, none⟩ f) u :=
  touch_finishes hc own fit h 18

end

end State

/-! ## The conversions -/

theorem sameFlow_convTile (t : Tile) (d : ConvDesc) (f g : Fmt) : SameFlow t (convTile t d f g) := by
  unfold convTile; dsimp only; rw [measure_eq]; exact ⟨rfl, rfl, rfl, rfl⟩

theorem sameBut_convTile (t : Tile) (d : ConvDesc) (f g : Fmt) :
    SameButStore { t with slots := (convTile t d f g).slots, numFlags := (convTile t d f g).numFlags } (convTile t d f g) := by
  unfold convTile; dsimp only; rw [measure_eq]; rfl

theorem store_convTile (t : Tile) (d : ConvDesc) (f g : Fmt) :
    (convTile t d f g).store = Memory.writeN
      (Memory.writeN t.store d.dst ((drainOut g (slotOf t d.slot) (convSource t d f)).bytes.take (d.blocks * 4 * g.w))) d.dstScale
      ((drainOut g (slotOf t d.slot) (convSource t d f)).bytes.drop (d.blocks * 4 * g.w)) := by
  unfold convTile; dsimp only; rw [measure_eq]

theorem slotOf_convTile_other (t : Tile) (d : ConvDesc) (f g : Fmt) {k : Nat} (h : k ≠ d.slot) : slotOf (convTile t d f g) k = slotOf t k :=
  slotOf_measure_other _ h ..

theorem sameFlow_trTile (t : Tile) (d : TrDesc) (f : Fmt) (blocks : List (Nat × Nat)) : SameFlow t (trTile t d f blocks) := ⟨rfl, rfl, rfl, rfl⟩

theorem read_trTile_scale (t : Tile) (d : TrDesc) (f : Fmt) (blocks : List (Nat × Nat)) {k : Nat} (h : k < 32) :
    Memory.read (trTile t d f blocks).store (d.dstScale + k) = BitVec.ofNat 8 (trBlock t d f blocks k).2.1 := by
  unfold trTile
  dsimp only
  rw [Memory.read_writeN_inside _ _ _ (by simpa using h)]
  simp

theorem read_trTile_outside (t : Tile) (d : TrDesc) (f : Fmt) (blocks : List (Nat × Nat)) {x : Nat} (scale : x < d.dstScale ∨ d.dstScale + 32 ≤ x)
    (rows : ∀ r < 32, x < d.dst + r * d.stride ∨
      d.dst + r * d.stride + (packCodes f.w ((List.range 32).map (fun k => (trBlock t d f blocks k).1.getD r 0))).length ≤ x) :
    Memory.read (trTile t d f blocks).store x = Memory.read t.store x := by
  unfold trTile
  dsimp only
  rw [Memory.read_writeN_outside _ _ _ (by simpa using scale)]
  refine Memory.read_foldl _ (fun m r hr => Memory.read_writeN_outside _ _ _ ?_) _
  rw [List.map_map]
  exact rows r (List.mem_range.1 hr)

theorem sameFlow_compressTile (t : Tile) (d : CmpDesc) (f : Fmt) : SameFlow t (compressTile t d f) := ⟨rfl, rfl, rfl, rfl⟩

theorem sameBut_compressTile (t : Tile) (d : CmpDesc) (f : Fmt) : SameButStore t (compressTile t d f) := rfl

theorem read_compressTile_outside (t : Tile) (d : CmpDesc) (f : Fmt) {x : Nat}
    (h : x < d.idxAddr ∨ d.idxAddr + (d.groups + 7) / 8 * metaLen d.pattern ≤ x) :
    Memory.read (compressTile t d f).store x = Memory.read t.store x := by
  unfold compressTile
  dsimp only
  refine Memory.read_foldl _ (fun m b hb => Memory.read_writeN_outside _ _ _ ?_) _
  have hb := List.mem_range.1 hb
  have : metaLen d.pattern * (b + 1) ≤ (d.groups + 7) / 8 * metaLen d.pattern := by
    rw [mul_comm]; exact Nat.mul_le_mul_right _ hb
  rw [mul_add, mul_one] at this
  rw [Memory.bytesLE_length]
  omega

open State

section
variable {s : State} {tl : TileRef} {w : Word} (hi : Issues s tl .vec w) (hd : badDesc (getF w iw_desc) = false) (hr : getF w ⟨33, 12⟩ = 0)
include hi hd hr

theorem conversion_runs (ho : getF w vec_op = 6) {d : ConvDesc} {f g : Fmt} (hf : fmtByCode (s.tile tl) d.srcFmt = some f)
    (hv : (slotOf (s.tile tl) d.slot).valid = true) (hg : fmtByCode (s.tile tl) (getF (slotOf (s.tile tl) d.slot).recipe rc_fmt) = some g)
    (inside : (badUnitRange (s.tile tl).vecIn d.src (4 * f.w * d.blocks) || (!f.wide && beyondStore d.srcScale d.blocks) ||
      beyondStore d.dst (4 * g.w * d.blocks) || (!g.wide && beyondStore d.dstScale d.blocks)) = false) (m : StoreIn) :
    s.conversion tl d m = s.vecDone tl w m (fun t => convTile t d f g) := by
  unfold conversion
  rw [issueVec_issues hi hd hr ho (by decide)]
  simp only [hf, hv, if_true, hg]
  exact if_neg (by simp [inside])

theorem transposeConversion_runs (ho : getF w vec_op = 2) {d : TrDesc} {f : Fmt} (hf : fmtEntry (s.tile tl) d.fmt = some f)
    (inside : trBeyond d f = false) (m : StoreIn) :
    s.transposeConversion tl d m = s.vecDone tl w m (fun t => trTile t d f (maskedBlocks s.tensors d.mask)) := by
  unfold transposeConversion
  rw [issueVec_issues hi hd hr ho (by decide)]
  simp only [hf]
  exact if_neg (by simp [inside])

theorem compress_runs (ho : getF w vec_op = 3) {d : CmpDesc} {f : Fmt} (hf : fmtByCode (s.tile tl) d.masterFmt = some f)
    (inside : (beyondStore d.master (4 * d.groups * (f.w / 8)) || beyondStore d.idxAddr ((d.groups + 7) / 8 * metaLen d.pattern)) = false)
    (m : StoreIn) : s.compress tl d m = s.vecDone tl w m (fun t => compressTile t d f) := by
  unfold compress
  rw [issueVec_issues hi hd hr ho (by decide)]
  simp only [hf]
  exact if_neg (by simp [inside])

end

/-- Settles O18: each of the three is one write of the tile and a retirement. -/
theorem vectorConversions : Obligations.VectorConversions := by
  unfold Obligations.VectorConversions
  intro s tl w hc hi
  dsimp only
  refine fun fit hd hr => ⟨fun d f g ho hf hv hg inside => ?conversion, fun d f ho hf inside => ?transpose, fun d f ho hf inside => ?compress⟩
  case conversion =>
    obtain ⟨u, state, adv, same, store, -⟩ := vecDone_finishes hc hi.own fit (f := (convTile · d f g)) (sameFlow_convTile ..)
    have slots := congrArg Tile.slots same
    have flags := congrArg Tile.numFlags same
    refine ⟨u, congrArg Host.Outcome.next ((conversion_runs hi hd hr ho hf hv hg inside _).trans state), adv,
      store.trans (store_convTile ..), ?_, fun k hk => ?_⟩
    · rw [slots, flags]; exact (sameBut_convTile ..).trans same
    · unfold slotOf; rw [slots]; exact slotOf_convTile_other _ _ _ _ hk
  case transpose =>
    obtain ⟨u, state, adv, same, store, -⟩ := vecDone_finishes hc hi.own fit (f := (trTile · d f (maskedBlocks s.tensors d.mask))) (sameFlow_trTile ..)
    have flags := congrArg Tile.numFlags same
    refine ⟨u, congrArg Host.Outcome.next ((transposeConversion_runs hi hd hr ho hf inside _).trans state), adv, ?_, fun k hk => ?_,
      fun x scale rows => ?_⟩
    · rw [flags]; exact SameButStore.trans (u := trTile (s.tile tl) d f (maskedBlocks s.tensors d.mask)) rfl same
    · rw [store, read_trTile_scale _ _ _ _ hk]
    · rw [store, read_trTile_outside _ _ _ _ scale rows]
  case compress =>
    obtain ⟨u, state, adv, same, store, -⟩ := vecDone_finishes hc hi.own fit (f := (compressTile · d f)) (sameFlow_compressTile ..)
    refine ⟨u, congrArg Host.Outcome.next ((compress_runs hi hd hr ho hf inside _).trans state), adv, (sameBut_compressTile ..).trans same, store,
      fun x hx => ?_⟩
    rw [store, read_compressTile_outside _ _ _ hx]

end Sys2Proof.Machine

/-!
PROOFS. MOVE (R37, R62, R63, R435, R436).
-/
namespace Sys2Proof.Machine

/-! ## Channels -/

theorem chanOf_setChan_same (t : Tile) (k : Nat) (c : Chan) : chanOf (setChan t k c) k = c := Sparse.get_set_same ..

theorem chanOf_setChan_other (t : Tile) {j k : Nat} (h : j ≠ k) (c : Chan) : chanOf (setChan t k c) j = chanOf t j :=
  Sparse.get_set_other _ _ _ h

theorem chanOf_congr {t u : Tile} (h : u.chans = t.chans) (k : Nat) : chanOf u k = chanOf t k := by unfold chanOf; rw [h]

theorem sameFlow_setChan (t : Tile) (k : Nat) (c : Chan) : SameFlow t (setChan t k c) := ⟨rfl, rfl, rfl, rfl⟩

/-- From `s` to `s'` the tile `tl` has done the work that makes it `t`, and its instruction has retired, to complete later: the tile is `u`. -/
structure Retires (s : State) (tl : TileRef) (t : Tile) (s' : State) (u : Tile) : Prop where
  state : s' = retiredTo s tl u
  index : u.seq.index = (s.tile tl).seq.index + 1
  progress : getF u.status tileStatus_progress = (getF (s.tile tl).status tileStatus_progress + 1) % 2 ^ 16
  counters : u.counters = (s.tile tl).counters
  same : SameButStore t u
  store : u.store = t.store

namespace State

section
variable {s : State} {tl : TileRef} {w : Word}

theorem touch_retires (hc : Canonical s) (own : (s.tile tl).seq.redo = none) {t : Tile} (h : SameFlow (s.tile tl) t) (k : Nat) :
    ∃ u, Retires s tl t (((s.setTile tl t).touch tl k).retire tl) u := by
  rw [touch_setTile hc, retire_setTile hc tl _ ((h.marked s.now k).sameWait own)]
  obtain ⟨a, b, -, -, -⟩ := retired_retiredTile (markedTile s.now k t)
  refine ⟨_, rfl, a.trans (by rw [(h.marked s.now k).seq]), b.trans (by rw [(h.marked s.now k).status]), ?_,
    (sameButStore_markedTile ..).trans (sameButStore_retiredTile _), store_retiredTile _⟩
  rw [← h.counters]; unfold retiredTile goneTile markedTile; rfl

/-! ## MOVE -/

/-- A tile with the transfer `x` at the end of the queue of its channel k. -/
def queuedTile (t : Tile) (k : Nat) (x : Xfer) : Tile := setChan t k { chanOf t k with queue := (chanOf t k).queue ++ [x] }

/-- What MOVE queues: the transfer, with the bytes that it has read. -/
def moveXfer (s : State) (t : Tile) (w : Word) (d : MoveDesc) : Xfer :=
  { word := w, d := d, bytes := s.moveBytes t d, since := s.now, lot := t.seq.lot, rerun := t.seq.redo.isSome }

theorem moveEcc_clean (s : State) (tl : TileRef) (d : MoveDesc) : s.moveEcc tl d .clean = s := by
  unfold moveEcc; split <;> rfl

theorem useStash_none (s : State) (tl : TileRef) {u : StashUse} (h : u.save = none) : s.useStash tl { u with frees := [] } = s := by
  unfold useStash; rw [h]; rfl

section
variable {d : MoveDesc} (hi : Issues s tl .move w) (hd : badDesc (getF w iw_desc) = false)
include hi hd

theorem move_starts (e : Ecc) : s.move tl d e = s.moveStart tl (s.tile tl) w d e := by
  unfold move; rw [issue_issues hi, if_neg (by simp [hd])]

theorem move_full (h : 2 ≤ (chanOf (s.tile tl) (getF w move_channel)).queue.length ∨ (chanOf (s.tile tl) (getF w move_channel)).halted = true)
    (e : Ecc) : s.move tl d e = s.hold tl stallFull := by
  rw [move_starts hi hd]; exact if_pos (by simpa using h)

variable (room : (chanOf (s.tile tl) (getF w move_channel)).queue.length < 2) (runs : (chanOf (s.tile tl) (getF w move_channel)).halted = false)
include room runs

theorem move_awaits (lot : s.awaitsLot (s.tile tl) d = true) (e : Ecc) : s.move tl d e = s.hold tl stallEmpty := by
  rw [move_starts hi hd]; unfold moveStart; simp [room, runs, lot]

variable (lot : s.awaitsLot (s.tile tl) d = false)
include lot

theorem move_bad (bad : s.badMove (s.tile tl) d = true) (e : Ecc) : s.move tl d e = s.tileFault tl 9 := by
  rw [move_starts hi hd]; unfold moveStart; simp [room, runs, lot, bad]

variable (ok : s.badMove (s.tile tl) d = false)
include ok

theorem move_fenced {p : Nat} (target : moveTarget d = some p) (fenced : s.partFenced p = true) (e : Ecc) :
    s.move tl d e = s.moveFenced tl (getF w move_channel) p fenceStatus_refused := by
  rw [move_starts hi hd]; unfold moveStart; simp [room, runs, lot, ok, target, fenced]

theorem move_queues (free : (moveTarget d).any (fun p => s.partFenced p) = false) (stash : d.stash.save = none) :
    s.move tl d .clean = (((s.setTile tl (queuedTile (s.tile tl) (getF w move_channel) (s.moveXfer (s.tile tl) w d))).touch tl
      (20 + getF w move_channel)).retire tl) := by
  rw [move_starts hi hd]; unfold moveStart
  simp only [moveEcc_clean, useStash_none _ _ stash, free, lot, ok, runs, Nat.not_le.2 room, decide_false, Bool.or_self, Bool.false_eq_true,
    if_false, reduceCtorEq]
  unfold queuedTile moveXfer onTile
  simp only [runs]

end
end

end State

open State

/-- Settles O23: the queue of the channel grows by the transfer and MOVE retires; else it waits, faults, or halts its channel. -/
theorem moves : Obligations.Moves := by
  unfold Obligations.Moves
  intro s tl w d hc hi
  dsimp only
  refine fun hd => ⟨fun e full => ?full, fun room runs => ⟨fun e lot => ?lot, fun lot ok free stash => ?queued, fun e lot bad => ?bad,
    fun e p lot ok target fenced => ?fenced⟩⟩
  case full =>
    obtain ⟨u, e', h⟩ := hold_waits hc tl stallFull
    exact ⟨u, congrArg Host.Outcome.next ((move_full hi hd full e).trans e'), h⟩
  case lot =>
    obtain ⟨u, e', h⟩ := hold_waits hc tl stallEmpty
    exact ⟨u, congrArg Host.Outcome.next ((move_awaits hi hd room runs lot e).trans e'), h⟩
  case queued =>
    obtain ⟨u, state, index, progress, counters, same, store⟩ := touch_retires hc hi.own 
      (t := queuedTile (s.tile tl) (getF w move_channel) (s.moveXfer (s.tile tl) w d)) (sameFlow_setChan ..) (20 + getF w move_channel)
    have chans := same.chans
    refine ⟨u, congrArg Host.Outcome.next ((move_queues hi hd room runs lot ok free stash).trans state), index, counters, progress, ?_,
      fun j hj => (chanOf_congr chans j).trans (chanOf_setChan_other _ hj _), ?_, store⟩
    · rw [chanOf_congr chans]
      refine (chanOf_setChan_same ..).trans ?_
      unfold moveXfer; rw [hi.own]; rfl
    · rw [chans]; exact same
  case bad =>
    have ft := tileFault_faultsTile s tl (code := 9) (by decide)
    exact ⟨_, congrArg Host.Outcome.next (move_bad hi hd room runs lot bad e), ft.frame, ft.faultCode (by decide),
      ft.store, ft.chans⟩
  case fenced =>
    have tile : (s.moveFenced tl (getF w move_channel) p fenceStatus_refused).tile tl =
        setChan (s.tile tl) (getF w move_channel) { chanOf (s.tile tl) (getF w move_channel) with halted := true } := by
      unfold moveFenced; rw [tile_onTile_same]; rfl
    refine ⟨_, congrArg Host.Outcome.next (move_fenced hi hd room runs lot ok target fenced e), rfl, ?_, ?_, ?_, ?_⟩
    · rw [tile, chanOf_setChan_same]
    · rw [tile, chanOf_setChan_same]
    · rw [tile]; rfl
    · unfold moveFenced part onTile onPart setPart setTile
      dsimp only
      rw [Sparse.get_set_same]
      rfl

end Sys2Proof.Machine

/-!
PROOFS. TRANSFER_COMPLETE (R47, R63, R64, R191, R211, R215), and a store race (R47).
-/
namespace Sys2Proof.Machine

/-! ## Lines of the casks -/

theorem get_setCaskLine_other (t : Tile) {c i x : Nat} (h : x ≠ c * 256 + i) (l : Line) :
    Sparse.get Line.reset (setCaskLine t c i l).casks x = Sparse.get Line.reset t.casks x := Sparse.get_set_other _ _ _ h

theorem caskLine_setCaskLine_same (t : Tile) (c i : Nat) (l : Line) : caskLine (setCaskLine t c i l) c i = l := Sparse.get_set_same ..

theorem caskLine_congr {t u : Tile} (h : u.casks = t.casks) (c i : Nat) : caskLine u c i = caskLine t c i := by unfold caskLine; rw [h]

/-- Line l of cask c becomes `x`, and the overflow flag is raised where `x` has overflowed (R151). -/
def takenTile (c l : Nat) (x : Line) (t : Tile) : Tile :=
  if x.ovf then { setCaskLine t c l x with numFlags := setF t.numFlags numFlags_caskOvf 1 } else setCaskLine t c l x

theorem casks_takenTile (c l : Nat) (x : Line) (t : Tile) : (takenTile c l x t).casks = (setCaskLine t c l x).casks := by
  unfold takenTile; split <;> rfl

theorem sameFlow_takenTile (c l : Nat) (x : Line) (t : Tile) : SameFlow t (takenTile c l x t) := by
  unfold takenTile; split <;> exact ⟨rfl, rfl, rfl, rfl⟩

theorem store_takenTile (c l : Nat) (x : Line) (t : Tile) : (takenTile c l x t).store = t.store := by
  unfold takenTile; split <;> rfl

theorem slots_takenTile (c l : Nat) (x : Line) (t : Tile) : (takenTile c l x t).slots = t.slots := by
  unfold takenTile; split <;> rfl

namespace State

/-! ## A store race -/

/-- A tile whose store met a second writer of a word. -/
def collidedTile (own : Nat) (r : RaceIn) (t : Tile) : Tile :=
  { t with
    store := if own < r.client then Memory.writeLE t.store (r.addr / 8 * 8 % 0x400000) 8 r.word.toNat else t.store
    status := setF t.status tileStatus_storeRace 1, raceInJob := t.raceInJob + 1 }

theorem storeRace_faultsTile (s : State) (tl : TileRef) (own : Nat) (r : RaceIn) :
    FaultsTile (s.setTile tl (collidedTile own r (s.tile tl))) tl 4 (s.storeRace tl own r) := tileFault_faultsTile _ tl (by decide)

theorem storeRace_flag (s : State) (tl : TileRef) (own : Nat) (r : RaceIn) :
    flagF ((s.storeRace tl own r).tile tl).status tileStatus_storeRace = true := by
  rw [(storeRace_faultsTile ..).tile, tile_setTile_same]
  unfold faultedTile collidedTile
  dsimp only
  rw [flagF_setF_beside (by decide), flagF_setF_beside (by decide)]
  exact flagF_setF_bit _ (by decide)

/-! ## What every delivery shares -/

end State

/-- The channel k of `t` once its oldest transfer `x` has left it. -/
def leftChan (t : Tile) (k : Nat) (x : Xfer) (rest : List Xfer) : Chan :=
  { chanOf t k with queue := rest, digest := State.xferDigest (chanOf t k) x }

/-- A tile whose channel k has lost its oldest transfer `x`. -/
def leftTile (t : Tile) (k : Nat) (x : Xfer) (rest : List Xfer) : Tile := setChan t k (leftChan t k x rest)

/-- A tile whose channel k has completed the transfer of `w`. -/
def completedTile (now k : Nat) (w : Word) (t : Tile) : Tile := doneTile now w (markedTile now (20 + k) t)

theorem counter_completedTile (now k : Nat) (w : Word) (t : Tile) (j : Nat) : counter (completedTile now k w t) j = counter t j + adds w j :=
  counter_doneTile ..

theorem sameBut_completedTile (now k : Nat) (w : Word) (t : Tile) : SameButStore t (completedTile now k w t) :=
  (sameButStore_markedTile ..).trans (sameButStore_doneTile ..)

theorem store_completedTile (now k : Nat) (w : Word) (t : Tile) : (completedTile now k w t).store = t.store := store_doneTile ..

namespace State

section
variable {s : State} {tl : TileRef} {k : Nat} {x : Xfer} {rest : List Xfer}

/-- The last byte of a transfer has arrived: its channel has let it go, and what it delivers is delivered. -/
def delivered (s : State) (tl : TileRef) (k : Nat) (x : Xfer) (rest : List Xfer) : State :=
  (s.setTile tl (leftTile (s.tile tl) k x rest)).deliverXfer tl x

section
variable (queue : (chanOf (s.tile tl) k).queue = x :: rest) (runs : (chanOf (s.tile tl) k).halted = false) (alive : s.alive = true)
  (copied : s.awaitsCopy x.d = false) (frees : x.d.stash.frees = []) (free : (moveTarget x.d).any (fun p => s.partFenced p) = false)
include queue runs alive copied frees free

theorem transferComplete_eq (race : Option RaceIn) : s.transferComplete tl k race =
    match landing tl x.d with
    | some dst => (((s.delivered tl k x rest).touch tl (20 + k)).syncDone tl x.word).raceIf dst 5 race
    | none => ((s.delivered tl k x rest).touch tl (20 + k)).syncDone tl x.word := by
  unfold transferComplete
  simp only [queue, runs, alive, copied, Bool.not_true, Bool.or_self, Bool.false_eq_true, if_false]
  have free' : (moveTarget x.d).any (fun p => (s.setTile tl (leftTile (s.tile tl) k x rest)).partFenced p) = false := free
  have left : s.onTile tl (fun t => setChan t k { queue := rest, halted := false, digest := xferDigest (chanOf (s.tile tl) k) x }) =
      s.setTile tl (leftTile (s.tile tl) k x rest) := by unfold leftTile leftChan onTile; simp only [runs]
  rw [left, frees]
  simp only [free', Bool.false_eq_true, if_false]
  rfl

/-- With no race, the completion is counted in the state that the delivery leaves. -/
theorem transferComplete_quiet (wf : Sparse.wf Tile.reset (s.delivered tl k x rest).tiles = true)
    (fit : OwnFits ((s.delivered tl k x rest).tile tl) x.word) : s.transferComplete tl k none =
      (s.delivered tl k x rest).setTile tl (completedTile (s.delivered tl k x rest).now k x.word ((s.delivered tl k x rest).tile tl)) := by
  rw [transferComplete_eq queue runs alive copied frees free]
  have h : ((s.delivered tl k x rest).touch tl (20 + k)).syncDone tl x.word =
      (s.delivered tl k x rest).setTile tl (completedTile (s.delivered tl k x rest).now k x.word ((s.delivered tl k x rest).tile tl)) := by
    have marked : (s.delivered tl k x rest).touch tl (20 + k) = (s.delivered tl k x rest).setTile tl
        (markedTile (s.delivered tl k x rest).now (20 + k) ((s.delivered tl k x rest).tile tl)) := rfl
    rw [marked, syncDone_setTile wf tl (markedTile ..) fit]
    rfl
  split <;> exact h

theorem transferComplete_race {dst : TileRef} (land : landing tl x.d = some dst) (y : RaceIn) : s.transferComplete tl k (some y) =
    (((s.delivered tl k x rest).touch tl (20 + k)).syncDone tl x.word).storeRace dst 5 y := by
  rw [transferComplete_eq queue runs alive copied frees free]
  simp only [land]
  rfl

end

/-- A delivery that changes its own tile alone. -/
theorem transferComplete_onTile (hc : Canonical s) (queue : (chanOf (s.tile tl) k).queue = x :: rest)
    (runs : (chanOf (s.tile tl) k).halted = false) (alive : s.alive = true)
    (copied : s.awaitsCopy x.d = false) (frees : x.d.stash.frees = []) (free : (moveTarget x.d).any (fun p => s.partFenced p) = false)
    (fit : CountsFit (s.tile tl) x.word) {t : Tile} (h : s.delivered tl k x rest = s.setTile tl t) (hf : t.counters = (s.tile tl).counters) :
    s.transferComplete tl k none = s.setTile tl (completedTile s.now k x.word t) := by
  have tile : (s.delivered tl k x rest).tile tl = t := by rw [h, tile_setTile_same]
  rw [transferComplete_quiet queue runs alive copied frees free (by rw [h]; exact Sparse.wf_set _ _ hc.tiles)
    (by rw [tile]; exact fit.own fun j => by unfold counter; rw [hf]), tile, h, setTile_again hc, now_setTile]

end

/-! ## What is delivered -/

/-- Three writes of tiles change tiles alone. -/
theorem frame_setTiles (s : State) (a b c : TileRef) (t u v : Tile) :
    ((s.setTile a t).setTile b u).setTile c v = { s with tiles := (((s.setTile a t).setTile b u).setTile c v).tiles } := by
  unfold setTile; rfl

/-- Bytes written one by one, each where `phys` puts its address. -/
def physWrite (phys : Nat → Nat) (m : List Host.Cell) (a : Nat) : List Byte → List Host.Cell
  | [] => m
  | b :: bs => physWrite phys (Memory.write m (phys a) b) (a + 1) bs

theorem hbmWrite_eq (s : State) (a : Nat) (bs : List Byte) : s.hbmWrite a bs = { s with mem := physWrite (s.phys false) s.mem a bs } := by
  induction bs generalizing s a with
  | nil => rfl
  | cons b bs ih =>
    unfold hbmWrite
    rw [ih]
    rfl

theorem read_physWrite_outside (phys : Nat → Nat) (m : List Host.Cell) (a : Nat) (bs : List Byte) {b : Nat}
    (h : ∀ i < bs.length, b ≠ phys (a + i)) : Memory.read (physWrite phys m a bs) b = Memory.read m b := by
  induction bs generalizing m a with
  | nil => rfl
  | cons x bs ih =>
    unfold physWrite
    rw [ih _ _ fun i hi => ?_]
    · exact Memory.read_write_other m x (h 0 (by simp))
    · have := h (i + 1) (by simpa using hi)
      rwa [show a + 1 + i = a + (i + 1) by omega]

/-- The send log changes the job and the step status. -/
theorem logSend_eq (s : State) (bs : List Byte) : ∃ job step, s.logSend bs = { s with job := job, step := step } := by
  unfold logSend
  dsimp only
  split
  · split
    · exact ⟨s.job, s.step, rfl⟩
    · exact ⟨_, s.step, rfl⟩
  · exact ⟨_, _, rfl⟩

end State

theorem sameFlow_ringPassed (t : Tile) (route : Nat) : SameFlow t (State.ringPassed t route) := by
  unfold State.ringPassed
  split
  · exact .refl t
  · split
    · exact .refl t
    · split <;> exact ⟨rfl, rfl, rfl, rfl⟩

theorem store_ringPassed (t : Tile) (route : Nat) : (State.ringPassed t route).store = t.store := by
  unfold State.ringPassed
  split
  · rfl
  · split
    · rfl
    · split <;> rfl

/-- The accumulators 0 to n - 1 of `bs` have entered lines l, l + 1, … of cask c. -/
def accsTile (c l : Nat) (shift : Int) (bs : List Byte) : Nat → Tile → Tile
  | 0, t => t
  | n + 1, t => takenTile c (l + n) (takeAcc (caskLine (accsTile c l shift bs n t) c (l + n)) (dwOf (readBytes bs (16 * n) 16)) shift)
      (accsTile c l shift bs n t)

section
variable (c l : Nat) (shift : Int) (bs : List Byte)

theorem sameFlow_accsTile (n : Nat) (t : Tile) : SameFlow t (accsTile c l shift bs n t) := by
  induction n with
  | zero => exact .refl t
  | succ n ih => exact ih.trans (sameFlow_takenTile ..)

theorem store_accsTile (n : Nat) (t : Tile) : (accsTile c l shift bs n t).store = t.store := by
  induction n with
  | zero => rfl
  | succ n ih => exact (store_takenTile ..).trans ih

theorem get_accsTile_outside (n : Nat) (t : Tile) {i : Nat} (h : i < c * 256 + l ∨ c * 256 + l + n ≤ i) :
    Sparse.get Line.reset (accsTile c l shift bs n t).casks i = Sparse.get Line.reset t.casks i := by
  induction n with
  | zero => rfl
  | succ n ih =>
    rw [accsTile, casks_takenTile, get_setCaskLine_other _ (by omega)]
    exact ih (by omega)

theorem caskLine_accsTile {n m : Nat} (h : m < n) (t : Tile) :
    caskLine (accsTile c l shift bs n t) c (l + m) = takeAcc (caskLine t c (l + m)) (dwOf (readBytes bs (16 * m) 16)) shift := by
  induction n with
  | zero => exact absurd h (Nat.not_lt_zero m)
  | succ n ih =>
    rw [accsTile, caskLine_congr (casks_takenTile ..)]
    by_cases e : m = n
    · subst e
      rw [caskLine_setCaskLine_same]
      congr 1
      exact get_accsTile_outside c l shift bs m t (by omega)
    · unfold caskLine at *
      rw [get_setCaskLine_other _ (by omega)]
      exact ih (by omega)

theorem caskAccs_setTile {s : State} (hc : Canonical s) (tl : TileRef) (n : Nat) (t : Tile) :
    (s.setTile tl t).caskAccs tl c l shift bs n = s.setTile tl (accsTile c l shift bs n t) := by
  induction n with
  | zero => rfl
  | succ n ih =>
    rw [State.caskAccs, ih, State.onTile_setTile hc, accsTile]
    unfold takenTile
    rfl

end

/-- A tile whose store has received `bs` at `a`. -/
def landedTile (a : Nat) (bs : List Byte) (t : Tile) : Tile := { t with store := Memory.writeN t.store a bs }

open State

section
variable {s : State} {tl : TileRef} {k : Nat} {x : Xfer} {rest : List Xfer}

theorem chanOf_leftTile_same (t : Tile) : chanOf (leftTile t k x rest) k = leftChan t k x rest := chanOf_setChan_same ..

theorem delivered_own (hc : Canonical s) (kind : (∃ a, x.d.kind = .fromHbm a) ∨ ∃ a, x.d.kind = .fromLot a) :
    delivered s tl k x rest = s.setTile tl (landedTile x.d.loc x.bytes (leftTile (s.tile tl) k x rest)) := by
  unfold delivered deliverXfer
  rcases kind with ⟨a, kind⟩ | ⟨a, kind⟩ <;>
  · rw [kind]
    exact onTile_setTile hc ..

theorem delivered_hbm {a : Nat} (kind : x.d.kind = .toHbm a) (first : x.rerun = false) :
    delivered s tl k x rest = { s.setTile tl (leftTile (s.tile tl) k x rest) with mem := physWrite (s.phys false) s.mem a x.bytes } := by
  unfold delivered deliverXfer
  rw [kind]
  refine (if_neg (by simp [first])).trans ?_
  rw [hbmWrite_eq]
  rfl

theorem delivered_tile (hc : Canonical s) {p t' a : Nat} (kind : x.d.kind = .toTile p t' a) (away : tkey ⟨p, t'⟩ ≠ tkey tl)
    (fit : counter (s.tile ⟨p, t'⟩) (getF x.word move_dstCounter) + (getF x.word move_dstInc + 1) ≤ 0xffffffff) :
    delivered s tl k x rest = (s.setTile tl (leftTile (s.tile tl) k x rest)).setTile ⟨p, t'⟩
      (countedTile s.now (getF x.word move_dstCounter) (getF x.word move_dstInc + 1) (landedTile a x.bytes (s.tile ⟨p, t'⟩))) := by
  unfold delivered deliverXfer
  rw [kind]
  dsimp only
  rw [onTile, tile_setTile_other _ _ away]
  exact syncAdd_setTile (Sparse.wf_set _ _ hc.tiles) _ (landedTile a x.bytes (s.tile ⟨p, t'⟩)) _ _ fit

theorem frameOf_setTile {t : Tile} (h : t.seq = (s.tile tl).seq) : (s.setTile tl t).frameOf tl = s.frameOf tl := by
  have tag : (s.setTile tl t).tagOf tl = s.tagOf tl := by unfold tagOf; rw [tile_setTile_same, h]; rfl
  unfold frameOf
  rw [tag]
  rfl

/-- A frame that leaves changes its tile's ring, the job and the step status, where its send is logged, and what has been sent. -/
theorem routeSend_setTile (hc : Canonical s) {t : Tile} (h : t.seq = (s.tile tl).seq) (o : FrameOut) (count : Nat) (recs : List Byte) :
    ∃ job step, (s.setTile tl t).routeSend tl o count recs =
      { s.setTile tl (ringPassed t o.route) with
        job := job, step := step, out := .frame tl o.route (s.frameOf tl o count recs) :: s.out } := by
  have sent : ∃ job step, (if t.seq.evaluating then s.setTile tl t else (s.setTile tl t).logSend (s.frameOf tl o count recs)) =
      { s.setTile tl t with job := job, step := step } := by
    split
    · exact ⟨s.job, s.step, rfl⟩
    · exact logSend_eq ..
  obtain ⟨job, step, e⟩ := sent
  unfold routeSend
  rw [frameOf_setTile h, tile_setTile_same]
  dsimp only
  rw [e]
  refine ⟨job, step, ?_⟩
  unfold send onTile setTile tile
  dsimp only
  rw [Sparse.get_set_same, Sparse.set_set _ _ _ hc.tiles]

theorem frameCount_leftTile (t : Tile) (o : FrameOut) (g : Option Gather) : frameCount (leftTile t k x rest) o g = frameCount t o g := by
  cases g <;> rfl

theorem delivered_route (hc : Canonical s) {o : FrameOut} (kind : x.d.kind = .route o) (first : x.rerun = false)
    (good : frameBad o x.bytes = false) : ∃ job step, delivered s tl k x rest =
      { s.setTile tl (ringPassed (leftTile (s.tile tl) k x rest) o.route) with
        job := job, step := step
        out := .frame tl o.route (s.frameOf tl o (frameCount (s.tile tl) o x.d.gather) (frameRecs o x.bytes)) :: s.out } := by
  obtain ⟨job, step, e⟩ := routeSend_setTile hc (t := leftTile (s.tile tl) k x rest) rfl o (frameCount (s.tile tl) o x.d.gather)
    (frameRecs o x.bytes)
  refine ⟨job, step, ?_⟩
  unfold delivered deliverXfer
  rw [kind]
  dsimp only
  rw [if_neg (by simp [first]), if_neg (by simp [good]), tile_setTile_same, frameCount_leftTile, e]

theorem delivered_record (hc : Canonical s) {q l : Nat} (kind : x.d.kind = .toCask q l) (one : x.d.len / slotSize = 1)
    (some : (packedAt (readBytes x.bytes) 0).header ≠ 0) (ok : (packedAt (readBytes x.bytes) 0).malformed = false)
    (clash : kindClash (caskLine (s.tile tl) q l) (packedAt (readBytes x.bytes) 0) = false)
    (full : (packedAt (readBytes x.bytes) 0).emptyBit = false) :
    delivered s tl k x rest = s.setTile tl
      (takenTile q l (takePacked (caskLine (s.tile tl) q l) (packedAt (readBytes x.bytes) 0)) (leftTile (s.tile tl) k x rest)) := by
  have line : caskLine (leftTile (s.tile tl) k x rest) q l = caskLine (s.tile tl) q l := rfl
  unfold delivered deliverXfer
  rw [kind]
  simp only [one, caskRecords, caskRecord, Nat.mul_zero, Nat.add_zero, tile_setTile_same, line, some, full, ok, clash,
    Bool.false_eq_true, and_false, if_false, or_self, Bool.or_self]
  rw [onTile_setTile hc]
  rfl

theorem delivered_accs (hc : Canonical s) {q l : Nat} {ka : Option Nat} {kg : Nat} (kind : x.d.kind = .accToCask q l ka kg) :
    delivered s tl k x rest = s.setTile tl (accsTile q l (dwShift (s.tile tl) ka kg) x.bytes (x.d.len / 16) (leftTile (s.tile tl) k x rest)) := by
  unfold delivered deliverXfer
  rw [kind]
  dsimp only
  rw [tile_setTile_same, caskAccs_setTile _ _ _ _ hc]
  rfl

end

/-- Settles O24: each kind of transfer is one delivery, and its completion is counted at the tile. -/
theorem transferCompletes : Obligations.TransferCompletes := by
  unfold Obligations.TransferCompletes
  intro s tl k x rest hc
  dsimp only
  intro queue runs alive copied frees free fit
  have onTile {t : Tile} := transferComplete_onTile (t := t) hc queue runs alive copied frees free fit
  have wf := Sparse.wf_set (tkey tl) (leftTile (s.tile tl) k x rest) hc.tiles
  refine ⟨fun kind => ?own, fun a kind first => ?hbm, fun p t' a kind away dfit => ?tile, fun o kind first good => ?route,
    fun q l kind one some ok clash full => ?record, fun q l ka kg kind inside => ?accs, fun dst y land => ?race⟩
  case own =>
    have h := onTile (delivered_own (rest := rest) hc kind) rfl
    refine ⟨_, congrArg Host.Outcome.next h, .writeN (store_completedTile ..), fun j => counter_completedTile .., seq_doneTile ..,
      status_doneTile .., ?_, fun j hj => ?_, ?_⟩
    · rw [chanOf_congr (sameBut_completedTile ..).chans]; exact chanOf_leftTile_same _
    · rw [chanOf_congr (sameBut_completedTile ..).chans]; exact chanOf_setChan_other _ hj _
    · rw [(sameBut_completedTile ..).chans]
      exact SameButStore.trans (u := landedTile x.d.loc x.bytes (leftTile (s.tile tl) k x rest)) rfl (sameBut_completedTile ..)
  case hbm =>
    have del := delivered_hbm (s := s) (tl := tl) (k := k) (rest := rest) kind first
    have at_ : (delivered s tl k x rest).tile tl = leftTile (s.tile tl) k x rest := by rw [del]; exact tile_setTile_same ..
    have h := transferComplete_quiet queue runs alive copied frees free (by rw [del]; exact wf)
      (by rw [at_]; exact fit.own fun _ => rfl)
    rw [at_, del] at h
    refine ⟨_, congrArg Host.Outcome.next h, rfl, by rw [hbmWrite_eq]; rfl, fun b out => read_physWrite_outside _ _ _ _ out, fun v hv => ?_, ?_,
      fun j => ?_, ?_⟩
    · rw [tile_setTile_other _ _ hv]; exact tile_setTile_other _ _ hv
    · rw [tile_setTile_same, store_completedTile]; rfl
    · rw [tile_setTile_same, counter_completedTile]; rfl
    · rw [tile_setTile_same, chanOf_congr (sameBut_completedTile ..).chans]; exact chanOf_leftTile_same _
  case tile =>
    have del := delivered_tile (k := k) (rest := rest) hc kind away dfit
    have at_ : (delivered s tl k x rest).tile tl = leftTile (s.tile tl) k x rest := by
      rw [del, tile_setTile_other _ _ (Ne.symm away)]; exact tile_setTile_same ..
    have h := transferComplete_quiet queue runs alive copied frees free (by rw [del]; exact Sparse.wf_set _ _ wf)
      (by rw [at_]; exact fit.own fun _ => rfl)
    rw [at_, del] at h
    refine ⟨_, congrArg Host.Outcome.next h, frame_setTiles .., ?_⟩
    rw [tile_setTile_same, tile_setTile_other _ _ away, tile_setTile_same]
    refine ⟨?_, fun j => ?_, ?_, store_completedTile .., fun j => counter_completedTile .., fun v hv hv' => ?_⟩
    · exact .writeN (congrArg Tile.store (show landedTile a x.bytes (s.tile ⟨p, t'⟩) = _ from rfl))
    · exact counter_countedTile ..
    · exact SameButStore.trans (u := landedTile a x.bytes (s.tile ⟨p, t'⟩)) rfl (sameButStore_countedTile ..)
    · rw [tile_setTile_other _ _ hv, tile_setTile_other _ _ hv']; exact tile_setTile_other _ _ hv
  case route =>
    obtain ⟨job, step, del⟩ := delivered_route (k := k) (rest := rest) hc kind first good
    have at_ : (delivered s tl k x rest).tile tl = ringPassed (leftTile (s.tile tl) k x rest) o.route := by
      rw [del]; exact tile_setTile_same ..
    have flow := sameFlow_ringPassed (leftTile (s.tile tl) k x rest) o.route
    have h := transferComplete_quiet queue runs alive copied frees free (by rw [del]; exact Sparse.wf_set _ _ hc.tiles)
      (by rw [at_]; exact fit.own fun j => flow.counter j)
    rw [at_, del] at h
    refine ⟨_, congrArg Host.Outcome.next h, rfl, rfl, ?_⟩
    rw [tile_setTile_same]
    refine ⟨(store_completedTile ..).trans (store_ringPassed ..), fun j => (counter_completedTile ..).trans ?_, fun v hv => ?_⟩
    · rw [flow.counter]; rfl
    · rw [tile_setTile_other _ _ hv]; exact tile_setTile_other _ _ hv
  case record =>
    have h := onTile (delivered_record (rest := rest) hc kind one some ok clash full) (sameFlow_takenTile ..).counters
    refine ⟨_, congrArg Host.Outcome.next h, ?_, fun i hi => ?_, ?_, fun j => ?_⟩
    · rw [caskLine_congr (sameBut_completedTile ..).casks, caskLine_congr (casks_takenTile ..), caskLine_setCaskLine_same]
    · rw [(sameBut_completedTile ..).casks, casks_takenTile, get_setCaskLine_other _ hi]; rfl
    · rw [store_completedTile, store_takenTile]; rfl
    · rw [counter_completedTile, (sameFlow_takenTile ..).counter]; rfl
  case accs =>
    have h := onTile (delivered_accs (rest := rest) hc kind) (sameFlow_accsTile ..).counters
    refine ⟨_, congrArg Host.Outcome.next h, ?_, fun n hn => ?_, fun i hi => ?_, fun j => ?_⟩
    · rw [store_completedTile, store_accsTile]; rfl
    · rw [caskLine_congr (sameBut_completedTile ..).casks, caskLine_accsTile _ _ _ _ hn]; rfl
    · rw [(sameBut_completedTile ..).casks, get_accsTile_outside _ _ _ _ _ _ hi]; rfl
    · rw [counter_completedTile, (sameFlow_accsTile ..).counter]; rfl
  case race =>
    exact ⟨_, congrArg Host.Outcome.next (transferComplete_race queue runs alive copied frees free land y), (storeRace_faultsTile ..).faultCode (by decide),
      storeRace_flag .., (storeRace_faultsTile ..).check⟩

end Sys2Proof.Machine

/-!
PROOFS. The end of a site's self-test, and a tile graft (R67, R71, R348).
-/
namespace Sys2Proof.Machine

namespace State

section
variable (s : State)

theorem tile_congr {s t : State} (h : t.tiles = s.tiles) (tl : TileRef) : t.tile tl = s.tile tl := by unfold tile; rw [h]

/-! ## Sites and their roles -/

theorem site_setSite_other {p k q j : Nat} (a : Site) (h : q * 256 + j ≠ p * 256 + k) : (s.setSite p k a).site q j = s.site q j :=
  Sparse.get_set_other _ _ _ h

theorem site_congr {s t : State} (h : t.sites = s.sites) (p x : Nat) : t.site p x = s.site p x := by unfold site; rw [h]

theorem siteRole_congr {s t : State} (h : t.sites = s.sites) (p x : Nat) : t.siteRole p x = s.siteRole p x := by
  unfold siteRole site; rw [h]

theorem siteRole_setSiteRole_same (p x : Nat) {role : Nat} (h : role < 256) (t : Nat) : (s.setSiteRole p x role t).siteRole p x = role := by
  unfold siteRole setSiteRole
  rw [site_setSite_same]
  dsimp only
  rw [getF_setF_beside (by decide), getF_setF _ ⟨by decide, by decide⟩]
  exact Nat.mod_eq_of_lt h

theorem siteRole_setSiteRole_other (p : Nat) {x y : Nat} (role t : Nat) (h : y ≠ x) : (s.setSiteRole p x role t).siteRole p y = s.siteRole p y := by
  unfold siteRole setSiteRole
  rw [site_setSite_other _ _ (by omega)]

theorem sites_softSite (p x units : Nat) : (s.softSite p x units).sites = s.sites := by unfold softSite; split <;> rfl

theorem tiles_softSite (p x units : Nat) : (s.softSite p x units).tiles = s.tiles := by unfold softSite; split <;> rfl

theorem job_softSite (p x units : Nat) : (s.softSite p x units).job = s.job := by unfold softSite; split <;> rfl

theorem sites_siteBad (p x units : Nat) : (s.siteBad p x units).sites = (s.setSiteRole p x 2 0xff).sites := by
  unfold siteBad; rw [onPart_sites, sites_softSite]

theorem tiles_siteBad (p x units : Nat) : (s.siteBad p x units).tiles = s.tiles := by
  unfold siteBad setSiteRole; rw [onPart_tiles, tiles_softSite, setSite_tiles]

theorem job_siteBad (p x units : Nat) : (s.siteBad p x units).job = s.job := by
  unfold siteBad setSiteRole; rw [onPart_job, job_softSite, setSite_job]

theorem siteRole_siteBad_same (p x units : Nat) : (s.siteBad p x units).siteRole p x = 2 := by
  rw [siteRole_congr (sites_siteBad ..), siteRole_setSiteRole_same _ _ _ (by decide)]

theorem siteRole_siteBad_other (p : Nat) {x y : Nat} (units : Nat) (h : y ≠ x) : (s.siteBad p x units).siteRole p y = s.siteRole p y := by
  rw [siteRole_congr (sites_siteBad ..), siteRole_setSiteRole_other _ _ _ _ h]

theorem sites_countYield (p : Nat) : (s.countYield p).sites = s.sites := by unfold countYield countYieldFor; rw [onPart_sites]

theorem tiles_countYield (p : Nat) : (s.countYield p).tiles = s.tiles := by unfold countYield countYieldFor; rw [onPart_tiles]

theorem job_countYield (p : Nat) : (s.countYield p).job = s.job := by unfold countYield countYieldFor; rw [onPart_job]

/-! ## Code loaded into a tile -/

theorem loadCode_tile (tl : TileRef) : ∃ prog funcs, (s.loadCode tl).tile tl = { s.tile tl with prog := prog, funcs := funcs } := by
  unfold loadCode
  split
  · exact ⟨_, _, tile_onTile_same ..⟩
  · exact ⟨(s.tile tl).prog, (s.tile tl).funcs, rfl⟩

theorem loadCode_other {tl v : TileRef} (h : tkey v ≠ tkey tl) : (s.loadCode tl).tile v = s.tile v := by
  unfold loadCode
  split
  · exact tile_onTile_other _ _ h
  · rfl

theorem sites_loadCode (tl : TileRef) : (s.loadCode tl).sites = s.sites := by
  unfold loadCode
  split
  · exact onTile_sites ..
  · rfl

theorem job_loadCode (tl : TileRef) : (s.loadCode tl).job = s.job := by
  unfold loadCode
  split
  · exact onTile_job ..
  · rfl

theorem loadCode_frame (tl : TileRef) : s.loadCode tl = { s with tiles := (s.loadCode tl).tiles } := by
  unfold loadCode
  split <;> rfl

end

end State

/-! ## The end of a self-test -/

/-- A tile that a self-test of its site leaves. -/
def testedTile (units fails : Nat) (t : Tile) : Tile :=
  { eraseTile t with
    status := setF (setF (setF t.status tileStatus_bistResult (if fails &&& units = 0 then 1 else 2)) tileStatus_tileState TS.idle)
      tileStatus_s12For (if (fails &&& units).testBit 12 then 15 else getF t.status tileStatus_s12For) }

theorem erased_testedTile (units fails : Nat) (t : Tile) :
    (testedTile units fails t).store = [] ∧ (testedTile units fails t).casks = [] ∧ (testedTile units fails t).arrays = [] ∧
      (testedTile units fails t).lees = [] ∧ (testedTile units fails t).counters = [] := by
  unfold testedTile eraseTile; exact ⟨rfl, rfl, rfl, rfl, rfl⟩

theorem tileState_testedTile (units fails : Nat) (t : Tile) : getF (testedTile units fails t).status tileStatus_tileState = TS.idle := by
  unfold testedTile
  dsimp only
  rw [getF_setF_beside (by decide)]
  exact getF_setF _ ⟨by decide, by decide⟩ _

theorem bistResult_testedTile (units fails : Nat) (t : Tile) :
    getF (testedTile units fails t).status tileStatus_bistResult = if fails &&& units = 0 then 1 else 2 := by
  unfold testedTile
  dsimp only
  rw [getF_setF_beside (by decide), getF_setF_beside (by decide), getF_setF _ ⟨by decide, by decide⟩]
  split <;> rfl

namespace State

section
variable {s : State} {p x : Nat} {tl : TileRef}

/-- The site x of partition p has been tested, and its tile erased. -/
def tested (s : State) (p x : Nat) (tl : TileRef) (units fails : Nat) : State :=
  (s.setSite p x { bist := testBits (s.site p x).bist units fails, mode := 0, running := false }).onTile tl (testedTile units fails)

theorem tile_tested (s : State) (p x : Nat) (tl : TileRef) (units fails : Nat) :
    (s.tested p x tl units fails).tile tl = testedTile units fails (s.tile tl) := by
  unfold tested
  rw [tile_onTile_same, tile_congr (setSite_tiles ..)]

theorem tested_other (s : State) (p x : Nat) {tl v : TileRef} (units fails : Nat) (h : tkey v ≠ tkey tl) :
    (s.tested p x tl units fails).tile v = s.tile v := by
  unfold tested
  rw [tile_onTile_other _ _ h, tile_congr (setSite_tiles ..)]

theorem site_tested (s : State) (p x : Nat) (tl : TileRef) (units fails : Nat) :
    (s.tested p x tl units fails).site p x = { bist := testBits (s.site p x).bist units fails, mode := 0, running := false } := by
  unfold tested
  rw [site_congr (onTile_sites ..), site_setSite_same]

theorem tested_frame (s : State) (p x : Nat) (tl : TileRef) (units fails : Nat) :
    s.tested p x tl units fails = { s with sites := (s.tested p x tl units fails).sites, tiles := (s.tested p x tl units fails).tiles } := by
  unfold tested onTile setTile setSite; rfl

theorem siteTested_live (role : getF (s.site p x).bist siteBist_siteRole = 0) (here : getF (s.site p x).bist siteBist_logicalT = tl.t)
    (part : tl.p = p) (units fails : Nat) : s.siteTested p x units fails = (s.tested p x tl units fails).loadCode tl := by
  have ref : (⟨p, getF (s.site p x).bist siteBist_logicalT⟩ : TileRef) = tl := by rw [here, ← part]
  unfold siteTested
  simp only [role, ref]
  rfl

theorem selfTestComplete_live (alive : s.alive = true) (runs : (s.site p x).running = true) (here : getF (s.site p x).bist siteBist_logicalT = tl.t)
    (part : tl.p = p) (code : getF (s.tile tl).status tileStatus_faultCode ≠ 3) (fails : Nat) :
    s.selfTestComplete p x fails = s.siteTested p x (if (s.site p x).mode = 1 then quickUnits else fullUnits) fails := by
  have ref : (⟨p, getF (s.site p x).bist siteBist_logicalT⟩ : TileRef) = tl := by rw [here, ← part]
  have c3 : (getF (s.tile tl).status tileStatus_faultCode == 3) = false := by simpa using code
  unfold selfTestComplete
  simp only [alive, runs, ref, c3, Bool.not_true, Bool.or_self, Bool.false_eq_true, if_false, Bool.and_false, Bool.false_and]

theorem selfTestComplete_idle (idle : (s.site p x).running = false) (fails : Nat) : s.selfTestComplete p x fails = s := by
  unfold selfTestComplete
  simp [idle]

end

/-! ## A tile graft -/

/-- The site `old` is bad, which fails the step check. -/
def vacated (s : State) (p old : Nat) : State :=
  ((s.siteBad p old ((s.site p old).bist.toNat % 2 ^ 21)).failBit stepCheckStatus_tile).onJob (fun j => { j with uncounted := true })

theorem tiles_vacated (s : State) (p old : Nat) : (s.vacated p old).tiles = s.tiles := by
  unfold vacated; rw [onJob_tiles, failBit_tiles, tiles_siteBad]

theorem sites_vacated (s : State) (p old : Nat) : (s.vacated p old).sites = (s.setSiteRole p old 2 0xff).sites := by
  unfold vacated; rw [onJob_sites, failBit_sites, sites_siteBad]

theorem check_vacated (s : State) (p old : Nat) : (s.vacated p old).job.bits.testBit stepCheckStatus_tile.lo = true := testBit_failed ..

theorem heldCommit_vacated (s : State) (p old : Nat) : (s.vacated p old).job.heldCommit = s.job.heldCommit := by
  unfold vacated onJob failBit
  rw [job_siteBad]

/-- The tile `tl` takes the place of the site `x`. -/
def seated (s : State) (tl : TileRef) (x : Nat) : State :=
  (s.setSiteRole tl.p x 0 tl.t).onTile tl (fun t => movedTo t x (s12Of ((s.setSiteRole tl.p x 0 tl.t).siteVerdict tl.p x)))

/-- The tile `tl` has moved onto the site `x`. -/
def entered (s : State) (tl : TileRef) (x : Nat) : State := ((s.seated tl x).loadCode tl).countYield tl.p

theorem tile_seated (s : State) (tl : TileRef) (x : Nat) : ∃ s12, (s.seated tl x).tile tl = movedTo (s.tile tl) x s12 := by
  refine ⟨s12Of ((s.setSiteRole tl.p x 0 tl.t).siteVerdict tl.p x), (tile_onTile_same ..).trans (congrArg (movedTo · x _) ?_)⟩
  refine tile_congr ?_ tl
  unfold setSiteRole; rw [setSite_tiles]

theorem seated_other (s : State) {tl v : TileRef} (x : Nat) (h : tkey v ≠ tkey tl) : (s.seated tl x).tile v = s.tile v := by
  refine (tile_onTile_other _ _ h).trans (tile_congr ?_ v)
  unfold setSiteRole; rw [setSite_tiles]

theorem tile_entered (s : State) (tl : TileRef) (x : Nat) :
    ∃ s12 prog funcs, (s.entered tl x).tile tl = { movedTo (s.tile tl) x s12 with prog := prog, funcs := funcs } := by
  obtain ⟨s12, seat⟩ := tile_seated s tl x
  obtain ⟨prog, funcs, e⟩ := loadCode_tile (s.seated tl x) tl
  exact ⟨s12, prog, funcs, (tile_congr (tiles_countYield ..) tl).trans (e.trans (by rw [seat]))⟩

theorem entered_other (s : State) {tl v : TileRef} (x : Nat) (h : tkey v ≠ tkey tl) : (s.entered tl x).tile v = s.tile v := by
  unfold entered
  rw [tile_congr (tiles_countYield ..), loadCode_other _ h, seated_other _ _ h]

theorem sites_entered (s : State) (tl : TileRef) (x : Nat) : (s.entered tl x).sites = (s.setSiteRole tl.p x 0 tl.t).sites := by
  unfold entered seated
  rw [sites_countYield, sites_loadCode, onTile_sites]

theorem job_entered (s : State) (tl : TileRef) (x : Nat) : (s.entered tl x).job = s.job := by
  unfold entered seated setSiteRole
  rw [job_countYield, job_loadCode, onTile_job, setSite_job]

/-- A spare site whose quick self-test has ended. -/
def tried (s : State) (p x fails : Nat) : State := s.setSite p x { s.site p x with bist := testBits (s.site p x).bist quickUnits fails }

theorem siteRole_tried_other (s : State) (p : Nat) {x y : Nat} (fails : Nat) (h : y ≠ x) : (s.tried p x fails).siteRole p y = s.siteRole p y := by
  unfold siteRole tried
  rw [site_setSite_other _ _ (by omega)]

theorem tiles_tried (s : State) (p x fails : Nat) : (s.tried p x fails).tiles = s.tiles := setSite_tiles ..

theorem job_tried (s : State) (p x fails : Nat) : (s.tried p x fails).job = s.job := setSite_job ..

section
variable {s : State} {tl : TileRef} {y z : Nat} {ys : List Nat}

theorem trySpares_first (p : Nat) : s.trySpares p (y :: ys) [] = (s.tried p y 0, some y) := rfl

theorem trySpares_second (p : Nat) {f : Nat} (fail : f &&& quickUnits ≠ 0) : s.trySpares p (y :: z :: ys) [f] =
    (((s.tried p y f).siteBad p y (f &&& quickUnits)).tried p z 0, some z) := by
  rw [trySpares]
  exact (if_neg fail).trans (trySpares_first p)

/-- A spare that failed before the one that passes gives the tile fault 0x0A (R68). -/
def spareFailed (s : State) (tl : TileRef) : State := s.onTile tl (fun t => { t with status := setF t.status tileStatus_faultCode 10 })

theorem faultCode_spareFailed (s : State) (tl : TileRef) : getF ((s.spareFailed tl).tile tl).status tileStatus_faultCode = 10 := by
  unfold spareFailed
  rw [tile_onTile_same]
  exact getF_setF _ ⟨by decide, by decide⟩ _

theorem sites_spareFailed (s : State) (tl : TileRef) : (s.spareFailed tl).sites = s.sites := onTile_sites ..

theorem job_spareFailed (s : State) (tl : TileRef) : (s.spareFailed tl).job = s.job := onTile_job ..

theorem tiles_declareFailed (s : State) (c : Nat) : (s.declareFailed c).tiles = s.tiles := by unfold declareFailed; split <;> rfl

theorem job_declareFailed (s : State) (c : Nat) : (s.declareFailed c).job = s.job := by unfold declareFailed; split <;> rfl

theorem selfFailed_declareFailed (s : State) (c : Nat) : (s.declareFailed c).fd.selfFailed.isSome = true := by
  unfold declareFailed
  split
  · assumption
  · rfl

theorem graftTile_first (spares : s.spareSites tl.p = y :: ys) :
    s.graftTile tl [] = ((s.tried tl.p y 0).vacated tl.p (getF (s.tile tl).map tileMap_site)).entered tl y := by
  unfold graftTile
  dsimp only
  rw [spares, trySpares_first]
  dsimp only
  rw [if_pos List.head?_cons.symm]
  rfl

theorem graftTile_second {f : Nat} (spares : s.spareSites tl.p = y :: z :: ys) (ne : z ≠ y) (fail : f &&& quickUnits ≠ 0) :
    s.graftTile tl [f] = (((((s.tried tl.p y f).siteBad tl.p y (f &&& quickUnits)).tried tl.p z 0).spareFailed tl).vacated tl.p
      (getF (s.tile tl).map tileMap_site)).entered tl z := by
  unfold graftTile
  dsimp only
  rw [spares, trySpares_second _ fail]
  dsimp only
  rw [if_neg (by simpa using ne)]
  rfl

theorem graftTile_none (spares : s.spareSites tl.p = []) (rs : List Nat) :
    s.graftTile tl rs = ((s.vacated tl.p (getF (s.tile tl).map tileMap_site)).countYield tl.p).declareFailed causeNoSpare := by
  unfold graftTile
  rw [spares]
  rfl

theorem tileGraft_due (alive : s.alive = true) (due : s.graftDue tl = true) {rs : List Nat} (held : (s.graftTile tl rs).job.heldCommit = none) :
    s.tileGraft tl rs = s.graftTile tl rs := by
  unfold tileGraft
  rw [if_pos (by simp [alive, due])]
  simp only [held]

theorem tileGraft_notDue (due : s.graftDue tl = false) (rs : List Nat) : s.tileGraft tl rs = s := by
  unfold tileGraft
  exact if_neg (by simp [due])

theorem spareSites_nodup (s : State) (p : Nat) : (s.spareSites p).Nodup := List.nodup_range.filter _

theorem lt_of_mem_spareSites {p x : Nat} (h : x ∈ s.spareSites p) : x < 256 :=
  Nat.lt_trans (List.mem_range.1 (List.mem_filter.1 h).1) (by decide)

end

/-! ## The tile that has moved -/

section
variable (t : Tile) {x : Nat} (s12 : Nat)

theorem erased_movedTo (x : Nat) : (movedTo t x s12).store = [] ∧ (movedTo t x s12).casks = [] := by
  unfold movedTo eraseTile; exact ⟨rfl, rfl⟩

theorem site_movedTo (h : x < 256) : getF (movedTo t x s12).map tileMap_site = x := by
  unfold movedTo
  dsimp only
  rw [getF_setF _ ⟨by decide, by decide⟩]
  exact Nat.mod_eq_of_lt h

theorem prevSite_movedTo (x : Nat) : getF (movedTo t x s12).map tileMap_prevSite = getF t.map tileMap_site := by
  unfold movedTo eraseTile
  dsimp only
  rw [getF_setF_beside (by decide), getF_setF _ ⟨by decide, by decide⟩]
  exact Nat.mod_eq_of_lt (getF_lt t.map tileMap_site)

theorem tileState_movedTo (x : Nat) : getF (movedTo t x s12).status tileStatus_tileState = TS.idle := by
  unfold movedTo
  dsimp only
  exact getF_setF _ ⟨by decide, by decide⟩ _

theorem faultCode_movedTo (x : Nat) : getF (movedTo t x s12).status tileStatus_faultCode = getF t.status tileStatus_faultCode := by
  unfold movedTo eraseTile
  dsimp only
  rw [getF_setF_beside (by decide), getF_setF_beside (by decide), getF_setF_beside (by decide)]

end

end State

open State

/-- Settles O27: a self-test rewrites its site and erases its tile; a graft marks sites bad and moves the tile. -/
theorem selfTestAndGraft : Obligations.SelfTestAndGraft := by
  unfold Obligations.SelfTestAndGraft
  intro s p x fails tl hc alive
  dsimp only
  refine ⟨fun runs role here part code => ?tested, fun idle => congrArg Host.Outcome.next (selfTestComplete_idle idle fails),
    fun due => congrArg Host.Outcome.next (tileGraft_notDue due []), fun y ys due held spares ne => ?first,
    fun y z ys f due held spares fail ne => ?second, fun due held spares => ?none⟩
  case tested =>
    generalize units_eq : (if (s.site p x).mode = 1 then quickUnits else fullUnits) = units
    have h := (selfTestComplete_live alive runs here part code fails).trans (siteTested_live role here part ..)
    rw [units_eq] at h
    obtain ⟨prog, funcs, tile⟩ := loadCode_tile (s.tested p x tl units fails) tl
    rw [tile_tested] at tile
    refine ⟨_, congrArg Host.Outcome.next h, ?frame, ?site, fun v hv => (loadCode_other _ hv).trans (tested_other _ _ _ _ _ hv), ?_⟩
    case frame => rw [loadCode_frame, tested_frame]
    case site => rw [site_congr (sites_loadCode ..), site_tested]
    rw [tile]
    obtain ⟨store, casks, arrays, lees, counters⟩ := erased_testedTile units fails (s.tile tl)
    exact ⟨store, casks, arrays, lees, counters, tileState_testedTile .., bistResult_testedTile ..⟩
  case first =>
    have y256 : y < 256 := lt_of_mem_spareSites (spares ▸ List.mem_cons_self)
    have e := graftTile_first spares
    have job := job_entered ((s.tried tl.p y 0).vacated tl.p (getF (s.tile tl).map tileMap_site)) tl y
    have stay : (s.graftTile tl []).job.heldCommit = none := by rw [e, job, heldCommit_vacated, job_tried, held]
    obtain ⟨s12, prog, funcs, tile⟩ := tile_entered ((s.tried tl.p y 0).vacated tl.p (getF (s.tile tl).map tileMap_site)) tl y
    rw [tile_congr (tiles_vacated ..), tile_congr (tiles_tried ..)] at tile
    refine ⟨_, congrArg Host.Outcome.next ((tileGraft_due alive due stay).trans e), ?_⟩
    rw [tile, job]
    obtain ⟨store, casks⟩ := erased_movedTo (s.tile tl) s12 y
    refine ⟨site_movedTo (s.tile tl) s12 y256, prevSite_movedTo (s.tile tl) s12 y, tileState_movedTo (s.tile tl) s12 y, store, casks, ?_, ?_, check_vacated .., fun v hv => ?_⟩
    · rw [siteRole_congr (sites_entered ..), siteRole_setSiteRole_same _ _ _ (by decide)]
    · rw [siteRole_congr (sites_entered ..), siteRole_setSiteRole_other _ _ _ _ (Ne.symm ne), siteRole_congr (sites_vacated ..),
        siteRole_setSiteRole_same _ _ _ (by decide)]
    · rw [entered_other _ _ hv, tile_congr (tiles_vacated ..), tile_congr (tiles_tried ..)]
  case second =>
    have zy : z ≠ y := by
      have nd := spares ▸ spareSites_nodup s tl.p
      exact fun e => (List.nodup_cons.1 nd).1 (e ▸ List.mem_cons_self)
    have z256 : z < 256 := lt_of_mem_spareSites (spares ▸ List.mem_cons_of_mem _ List.mem_cons_self)
    have e := graftTile_second spares zy fail
    generalize old_eq : getF (s.tile tl).map tileMap_site = old at e ne
    generalize tries : ((s.tried tl.p y f).siteBad tl.p y (f &&& quickUnits)).tried tl.p z 0 = s1 at e
    have jobs : s1.job = s.job := by rw [← tries, job_tried, job_siteBad, job_tried]
    have bad : s1.siteRole tl.p y = 2 := by rw [← tries, siteRole_tried_other _ _ _ (Ne.symm zy), siteRole_siteBad_same]
    have job := job_entered ((s1.spareFailed tl).vacated tl.p old) tl z
    have stay : (s.graftTile tl [f]).job.heldCommit = none := by rw [e, job, heldCommit_vacated, job_spareFailed, jobs, held]
    obtain ⟨s12, prog, funcs, tile⟩ := tile_entered ((s1.spareFailed tl).vacated tl.p old) tl z
    rw [tile_congr (tiles_vacated ..)] at tile
    refine ⟨_, congrArg Host.Outcome.next ((tileGraft_due alive due stay).trans e), ?_⟩
    rw [tile, job]
    refine ⟨(faultCode_movedTo _ s12 z).trans (faultCode_spareFailed ..), ?_, site_movedTo _ s12 z256, check_vacated ..⟩
    rw [siteRole_congr (sites_entered ..), siteRole_setSiteRole_other _ _ _ _ (Ne.symm zy), siteRole_congr (sites_vacated ..)]
    by_cases yo : y = old
    · rw [yo, siteRole_setSiteRole_same _ _ _ (by decide)]
    · rw [siteRole_setSiteRole_other _ _ _ _ yo, siteRole_congr (sites_spareFailed ..), bad]
  case none =>
    have e := graftTile_none spares []
    have stay : (s.graftTile tl []).job.heldCommit = none := by rw [e, job_declareFailed, job_countYield, heldCommit_vacated, held]
    refine ⟨_, congrArg Host.Outcome.next ((tileGraft_due alive due stay).trans e), selfFailed_declareFailed .., ?_, ?_⟩
    · rw [tiles_declareFailed, tiles_countYield, tiles_vacated]
    · rw [job_declareFailed, job_countYield]; exact check_vacated ..

end Sys2Proof.Machine

/-!
PROOFS. AMAX_AND_FINITE_COUNT (R160, R167): the squares of a clipped tensor are taken under the loss scale that the tile
shows after the measure.
-/
namespace Sys2Proof.Machine

open State

theorem amaxAndFiniteCount_runs {s : State} {tl : TileRef} {w : Word} (hi : Issues s tl .vec w) (hd : badDesc (getF w iw_desc) = false)
    (hr : getF w ⟨33, 12⟩ = 0) (ho : getF w vec_op = 5) {d : AmaxDesc} (src : badUnitRange (s.tile tl).vecIn d.src (4 * d.count) = false)
    (dst : d.dst = none) (norm : d.norm.any (fun x => badSpare x.1 x.2 1) = false) (m : StoreIn) :
    s.amaxAndFiniteCount tl d m = s.vecDone tl w m (amaxTile s.tensors · d) := by
  unfold amaxAndFiniteCount
  rw [issueVec_issues hi hd hr ho (by decide)]
  exact if_neg (by simp [src, dst, norm])

/-! ## A tile whose slots are listed out of order -/

namespace Unsorted

/-- The slot of a loss with scale exponent x - 127. -/
def lossSlot (x : Nat) : Slot := { Slot.reset with valid := true, kind := kindLOSS, x := x }

/-- AMAX_AND_FINITE_COUNT, with the sequencer at its word. -/
def word : Word := setF (setF 0 iw_class 4) vec_op 5

def record : TileRec :=
  { p := 0, t := 0, program := some 0, funcs := none, leesFirst := 0, leesCount := 0, leesSpill := 0, grants := [], t1 := 0, t1Len := 0,
    t2 := 0, t2Len := 0, t3Quota := 0, recompute := false, rbuf := 0, rbufKib := 0, topk := 0, sparse := 0, slots := [], router := none,
    ring := none, forUpdate := false, schedule := [(false, 0)], evalStage := false, spans := [], outs := [], leesLot := 0, loads := [],
    dws := [] }

/-- Slot 5 is listed before slot 3: the first loss listed is the one of slot 5. The store holds 2.0 at address 0. -/
def tile : Tile :=
  { Tile.reset with record := some record, prog := [(0, word)], store := [(3, 0x40)], slots := [(5, lossSlot 127), (3, lossSlot 128)] }

/-- The tensor of both slots, named for clipping. -/
def tensor : Tensor :=
  { id := 0, kind := 0, mult := 0, rows := 1, cols := 1, stateAddr := 0, histAddr := 0, repack := 0, masked := false, mask := 0, clip := true }

def program : StepProg :=
  { lots := 1, lotSize := 1, lotBytes := 0, lr := [], b1 := 0, b2 := 0, eps := 0, wd := 0, maxnorm := 0, evalPeriod := 0, evalPhase := 0,
    ckptPeriod := 0, endpoints := 0, deadlineMs := 0, last := 1 }

def image : Image :=
  { devices := [], groupBytes := [], tensors := [tensor], recipes := [], formats := [], step := program, roles := [] }

def header : ImgHdr :=
  { sealed := false, jobId := 0, jobSeed := 0, imageLen := 0, sections := 0, roles := 0, devices := 0, caps := 0, stacksMin := 0, pdiesMin := 0,
    tilesReq := 0, mirror := 0, portsReq := 0, suppress := 0, q := 0, missHb := 0, agree := 0, replay := 0, layoutDigest := 0, dirDigest := 0 }

def at_ : TileRef := ⟨0, 0⟩

def state : State :=
  { State.reset with
    tiles := [(0, tile)]
    img := { cur := some { hdr := header, digest := 0, img := image, half := 0 }, load := none }
    job := { State.reset.job with evaluating := true } }

/-- Slot 3 measures the one value at address 0, whose square enters line 0 of cask 224. -/
def desc : AmaxDesc := { slot := 3, src := 0, count := 1, dst := none, norm := some (224, 0) }

theorem canonical : Canonical state where
  mem := rfl
  tiles := by decide
  stores := by
    intro x hx
    rw [List.mem_singleton.1 hx]
    decide
  parts := rfl
  ports := rfl
  memStacks := rfl
  sites := rfl

theorem issues : Issues state at_ .vec word := ⟨by decide, by decide, by decide, by decide, by decide⟩

theorem fits : CountsFit (state.tile at_) word := fun k => by
  have none : counter (state.tile at_) k = 0 := rfl
  have quiet : adds word k = 0 := if_neg (fun h => absurd h.1 (by decide))
  omega

/-- The square of 2.0 without a scale is 4, under the scale 2 it is 1. -/
theorem scales : caskLine (amaxTile state.tensors (state.tile at_) desc) 224 0 ≠
    normLine (caskLine (state.tile at_) 224 0) (lossExp (state.tile at_)) ((unitF32s (state.tile at_) (state.tile at_).vecIn 0 1).map f32v) := by
  decide +kernel

theorem sameFlow : SameFlow (state.tile at_) (amaxTile state.tensors (state.tile at_) desc) :=
  ⟨by decide +kernel, by decide +kernel, by decide +kernel, by decide +kernel⟩

end Unsorted

open Unsorted

/-- Refutes O17: the clause on the squares of a clipped tensor reads the loss scale before the measure. The measure rewrites its slot in
the list of slots; in a list out of order, which `Canonical` allows, the slot then stands before a loss that stood first, and the
squares are taken under its scale. -/
theorem not_vectorElementwise : ¬ Obligations.VectorElementwise := by
  unfold Obligations.VectorElementwise
  intro h
  obtain ⟨-, -, amax⟩ := h state at_ word canonical issues fits (by decide) (by decide)
  obtain ⟨u, runs, -, -, -, -, squares, -⟩ := amax desc (by decide) (by decide) (fun _ h => nomatch h)
    (fun c l h => by obtain ⟨rfl, rfl⟩ := Prod.mk.inj (Option.some.inj h); decide)
  obtain ⟨v, does, -, same, -, -⟩ := vecDone_finishes (f := (amaxTile state.tensors · desc)) canonical issues.own fits sameFlow
  have steps : retiredTo state at_ u = retiredTo state at_ v :=
    (Host.Outcome.next.inj runs).symm.trans ((amaxAndFiniteCount_runs issues (by decide) (by decide) (by decide) (by decide) rfl (by decide) _).trans does)
  have uv : u = v := by rw [← tile_retiredTo_same state at_ u, steps, tile_retiredTo_same]
  refine scales ((caskLine_congr same.casks 224 0).symm.trans ?_)
  rw [← uv]
  exact squares 224 0 rfl (by decide) (by decide)

end Sys2Proof.Machine

/-!
PROOFS. ROW: functions and softmax, records with no place, the run of a span (R56 to R58, R137, R205).
-/
namespace Sys2Proof.Machine

/-! ## FP32 values written -/

theorem putF32s_eq (m : List Host.Cell) (a : Nat) (xs : List F32) : putF32s m a xs = Memory.writeN m a (f32Bytes xs) := by
  induction xs generalizing m a with
  | nil => rfl
  | cons x xs ih =>
    unfold putF32s Memory.writeLE
    rw [ih, show f32Bytes (x :: xs) = Memory.bytesLE x.toNat 4 ++ f32Bytes xs from List.flatMap_cons, Memory.writeN_append,
      Memory.bytesLE_length]

/-! ## The rows of a function and of a softmax -/

/-- Row i of a function (R56), or of its derivative times dy (R195). -/
def functionRow (t : Tile) (d : RowDesc) (table : Nat) (back : Bool) (i : Nat) : List F32 :=
  if back then List.zipWith (fun v y => fmul y (evalTable t table v)) (inVals t d i) (rowVals t d.dy d.n i)
  else (inVals t d i).map (evalTable t table)

/-- Row i of a softmax. -/
def softmaxRow (t : Tile) (d : RowDesc) (i : Nat) : List F32 :=
  (inVals t d i).map (softProb t d (rowMax (inVals t d i)) (Config.fwdStat 1 (inVals t d i)))

/-- The record of that row. -/
def softmaxLees (t : Tile) (d : RowDesc) (i : Nat) : Lees := ⟨rowMax (inVals t d i), Config.fwdStat 1 (inVals t d i), 0, 0⟩

/-- The records of rows 0 to n - 1 written from place `first`. -/
def records (first : Nat) (f : Nat → Lees) (m : Sparse Lees) : Nat → Sparse Lees
  | 0 => m
  | n + 1 => Sparse.set Lees.reset (records first f m n) (first + n) (f n)

theorem get_records_outside (first : Nat) (f : Nat → Lees) (m : Sparse Lees) (n : Nat) {k : Nat} (h : k < first ∨ first + n ≤ k) :
    Sparse.get Lees.reset (records first f m n) k = Sparse.get Lees.reset m k := by
  induction n with
  | zero => rfl
  | succ n ih =>
    rw [records, Sparse.get_set_other _ _ _ (by omega)]
    exact ih (by omega)

theorem get_records (first : Nat) (f : Nat → Lees) (m : Sparse Lees) {n i : Nat} (h : i < n) :
    Sparse.get Lees.reset (records first f m n) (first + i) = f i := by
  induction n with
  | zero => exact absurd h (Nat.not_lt_zero i)
  | succ n ih =>
    rw [records]
    by_cases e : i = n
    · rw [e, Sparse.get_set_same]
    · rw [Sparse.get_set_other _ _ _ (by omega)]
      exact ih (by omega)

/-- A tile that has written the records of its first n softmax rows. -/
def recordedTile (d : RowDesc) (n : Nat) (t : Tile) : Tile := { t with lees := records d.firstRec (softmaxLees t d) t.lees n }

theorem unitLE_congr {t u : Tile} (h : u.store = t.store) (buf : List Byte) (a n : Nat) : unitLE u buf a n = unitLE t buf a n := by
  induction n generalizing a with
  | zero => rfl
  | succ n ih => unfold unitLE unitByte; rw [ih, h]

theorem inVals_recordedTile (d : RowDesc) (n : Nat) (t : Tile) (i : Nat) : inVals (recordedTile d n t) d i = inVals t d i := by
  have elem : ∀ buf a k, unitLE (recordedTile d n t) buf a k = unitLE t buf a k := fun buf a k => unitLE_congr (t := t) (u := recordedTile d n t) rfl buf a k
  have fmt : fmtByCode (recordedTile d n t) = fmtByCode t := rfl
  unfold inVals
  simp only [elem, fmt]
  rfl

theorem rowForward_function (t : Tile) (d : RowDesc) (table i : Nat) : rowForward t d 5 table i = .of (functionRow t d table false i) := rfl

theorem rowBackward_function (t : Tile) (d : RowDesc) (table i : Nat) (l : Lees) :
    rowBackward t d 5 table i l = .of (functionRow t d table true i) := rfl

theorem rowForward_softmax (t : Tile) (d : RowDesc) (table i : Nat) :
    rowForward t d 0 table i = { RowOut.of (softmaxRow t d i) with lees := some (softmaxLees t d i) } := rfl

theorem softmaxRow_recordedTile (d : RowDesc) (n : Nat) (t : Tile) (i : Nat) : softmaxRow (recordedTile d n t) d i = softmaxRow t d i := by
  have prob : softProb (recordedTile d n t) d = softProb t d := rfl
  unfold softmaxRow
  rw [inVals_recordedTile, prob]

theorem softmaxLees_recordedTile (d : RowDesc) (n : Nat) (t : Tile) (i : Nat) : softmaxLees (recordedTile d n t) d i = softmaxLees t d i := by
  unfold softmaxLees
  rw [inVals_recordedTile]

namespace State

section
variable {s : State} {tl : TileRef}

/-- A function leaves the state while its rows are formed. -/
theorem rowLoop_function (s : State) (tl : TileRef) (d : RowDesc) (table : Nat) (back : Bool) (n : Nat) :
    s.rowLoop tl d 5 table back n = (s, (List.range n).map (functionRow (s.tile tl) d table back), (List.range n).map fun _ => []) := by
  induction n with
  | zero => rfl
  | succ n ih =>
    have form : isRing (s.tile tl) 5 = false := rfl
    rw [rowLoop, ih]
    dsimp only
    rw [form, List.range_succ, List.map_append, List.map_append]
    cases back <;> rfl

/-- A softmax writes a record for each row. -/
theorem rowLoop_softmax (hc : Canonical s) {t : Tile} (ring : isRing t 0 = false) (own : t.seq.redo = none) (d : RowDesc) (table : Nat) {n : Nat}
    (h : n ≤ d.recCount) : (s.setTile tl t).rowLoop tl d 0 table false n =
      (s.setTile tl (recordedTile d n t), (List.range n).map (softmaxRow t d), (List.range n).map fun _ => []) := by
  induction n with
  | zero => rfl
  | succ n ih =>
    rw [rowLoop, ih (by omega)]
    dsimp only
    rw [tile_setTile_same, show isRing (recordedTile d n t) 0 = false from ring, rowForward_softmax, softmaxRow_recordedTile, softmaxLees_recordedTile, List.range_succ, List.map_append,
      List.map_append]
    have put : (s.setTile tl (recordedTile d n t)).leesPut tl d n (softmaxLees t d n) = s.setTile tl (recordedTile d (n + 1) t) := by
      unfold leesPut
      rw [tile_setTile_same, if_neg (by simp [recordedTile, own]), if_pos (by omega), onTile_setTile hc]
      rfl
    simp only [Bool.false_eq_true, if_false, put]
    rfl

/-! ## The instruction -/

variable {w : Word} {d : RowDesc}

/-- A ROW that may begin, with its rows formed, is one write of the tile and a retirement. -/
theorem row_finishes (hc : Canonical s) (hi : Issues s tl .row w) (fit : CountsFit (s.tile tl) w) (bad : badRow (s.tile tl) w d = false)
    (stash : d.stash = noStash) (inside : rowBeyond (s.tile tl) (getF w row_slot) d (getF w row_op) (flagF w row_backward) = false)
    (kept : leesShort (s.tile tl) d (getF w row_op) = false) {t : Tile} {outs probs : List (List F32)}
    (formed : s.rowLoop tl d (getF w row_op) (getF w row_table) (flagF w row_backward) d.rows = (s.setTile tl t, outs, probs))
    (flow : SameFlow (s.tile tl) (rowWrite t w d outs probs)) :
    ∃ u, Finishes s tl w (rowWrite t w d outs probs) (s.row tl d ⟨.clean, none⟩) u := by
  have runs : s.row tl d ⟨.clean, none⟩ = ((s.setTile tl (rowWrite t w d outs probs)).touch tl 17).finish tl w := by
    unfold row
    rw [issue_issues hi]
    simp only [bad, kept, inside, Bool.false_eq_true, if_false, readStore, storeEcc, reduceCtorEq, formed, stash]
    rw [onTile_setTile hc]
    rfl
  rw [runs]
  exact touch_finishes hc hi.own fit flow 17

/-- A row operation with fewer records than rows, and no spill space. -/
theorem row_short (hi : Issues s tl .row w) (bad : badRow (s.tile tl) w d = false) (op : getF w row_op < 4) (few : d.recCount < d.rows)
    (spill : spillAt (s.tile tl) = 0) (m : StoreIn) : s.row tl d m = s.tileFault tl 7 := by
  have short : leesShort (s.tile tl) d (getF w row_op) = true := by simp [leesShort, writesLees, op, few, spill]
  unfold row
  rw [issue_issues hi, if_neg (by simp [bad]), if_pos short]

end

end State

/-! ## Its results -/

section
variable (t : Tile) {w : Word} {d : RowDesc} (outs probs : List (List F32))

/-- The probabilities of a backward softmax apart, what is written are the outputs. -/
theorem rowWrite_outputs (h : flagF w row_backward = false ∨ d.pDst = none) :
    State.rowWrite t w d outs probs = rowPut t (getF w row_slot) d.dst outs := by
  unfold State.rowWrite
  rcases h with h | h
  · cases d.pDst <;> simp [h]
  · simp [h]

theorem rowPut_f32 {slot : Nat} (h : (slotOf t slot).valid = false) (dst : Nat) :
    rowPut t slot dst outs = { t with store := Memory.writeN t.store dst (f32Bytes outs.flatten) } := by
  unfold rowPut
  simp only [h, Bool.false_eq_true, if_false, putF32s_eq, List.flatMap_id]

/-- The tile that has written its rows in the format of a slot, and measured them there. -/
def formattedTile (slot dst : Nat) (f : Fmt) : Tile :=
  measure { t with store := Memory.writeN t.store dst (rowBytes t slot f outs).bytes, numFlags := addCounts t.numFlags (rowBytes t slot f outs).counts }
    slot (rowBytes t slot f outs).amax (rowBytes t slot f outs).bad ((slotOf t slot).kind == kindGA) (rowBytes t slot f outs).clamped

theorem rowPut_format {slot : Nat} {f : Fmt} (h : (slotOf t slot).valid = true) (hf : fmtByCode t (getF (slotOf t slot).recipe rc_fmt) = some f)
    (dst : Nat) : rowPut t slot dst outs = formattedTile t outs slot dst f := by
  unfold rowPut
  simp only [h, hf, if_true]
  rfl

theorem sameFlow_formattedTile (slot dst : Nat) (f : Fmt) : SameFlow t (formattedTile t outs slot dst f) := by
  unfold formattedTile; rw [measure_eq]; exact ⟨rfl, rfl, rfl, rfl⟩

theorem sameBut_formattedTile (slot dst : Nat) (f : Fmt) :
    SameButStore { t with numFlags := (formattedTile t outs slot dst f).numFlags, slots := (formattedTile t outs slot dst f).slots }
      (formattedTile t outs slot dst f) := by
  unfold formattedTile; rw [measure_eq]; rfl

theorem store_formattedTile (slot dst : Nat) (f : Fmt) :
    (formattedTile t outs slot dst f).store = Memory.writeN t.store dst (rowBytes t slot f outs).bytes := by
  unfold formattedTile; rw [measure_eq]

end

/-! ## The run of a dropped span (R205) -/

/-- A tile sent back to the first word of a span. -/
def sentBackTile (span first last : Nat) (t : Tile) : Tile :=
  { t with
    seq := { t.seq with index := first, loops := [], redo := some ⟨span, last, t.seq.index, t.seq.loops⟩ }
    stash := { t.stash with rebuilt := none, entries := t.stash.entries.filter (fun e => e.tier != 4) } }

/-- A tile back where the run of a span began. -/
def returnedTile (span index : Nat) (loops : List Loop) (t : Tile) : Tile :=
  { t with
    status := setF (setF t.status tileStatus_progress (getF t.status tileStatus_progress + 1)) tileStatus_tileState TS.running
    seq := { t.seq with index := index, loops := loops, redo := none }
    stash := { t.stash with rebuilt := some (t.seq.lot, span) } }

open State

section
variable {s : State} {tl : TileRef} {w : Word}

theorem spanRecompute_dropped {span first last n : Nat} (may : s.canIssue tl = true) (own : (s.tile tl).seq.redo = none)
    (dropped : droppedAt (s.tile tl) (s.tile tl).seq.lot span = some n)
    (words : (((s.tile tl).record.map (·.spans)).getD []).find? (fun x => x.1 == span) = some (span, first, last)) :
    s.spanRecompute tl (s.tile tl).seq.lot span = s.setTile tl (sentBackTile span first last (s.tile tl)) := by
  unfold spanRecompute
  simp only [words, may, own, dropped]
  exact if_neg (by simp)

theorem spanRecompute_kept {lot span : Nat} (kept : droppedAt (s.tile tl) lot span = none) : s.spanRecompute tl lot span = s := by
  unfold spanRecompute
  simp only [kept]
  split
  · rfl
  · exact if_pos (by simp)

/-- The last word of a span that is run again. -/
theorem retire_lastWord {span last index : Nat} {loops : List Loop} (redo : (s.tile tl).seq.redo = some ⟨span, last, index, loops⟩)
    (held : (s.tile tl).seq.held = none) (end_ : last ≤ (s.tile tl).seq.index) :
    s.retire tl = s.setTile tl (returnedTile span index loops (s.tile tl)) := by
  unfold retire goOn
  rw [endWait_of_none held]
  unfold leaveSpan
  dsimp only
  rw [redo]
  dsimp only
  rw [if_neg (Nat.not_le.2 (Nat.lt_succ_of_le end_))]
  rfl

theorem mark_lastWord (may : s.canIssue tl = true) (inside : (s.tile tl).seq.index < 4032) (word : curWord (s.tile tl) = w)
    (cls : clsOf w = some .mark) (kind : getF w mark_kind = 1) (detail : getF (s.tile tl).ctl tileCtl_ledgerDetail = 0)
    (quiet : flagF w iw_syncEn = false) : s.mark tl 0 = s.retire tl := by
  subst word
  have low : s.detail tl ≠ 2 := by unfold State.detail; rw [detail]; decide
  unfold mark
  rw [issue_own may inside cls]
  simp only [kind, low, if_false]
  unfold finish syncDone
  rw [quiet, if_neg (by decide)]

end

section
variable {s : State} {tl : TileRef} {w : Word} {d : RowDesc} (hc : Canonical s) (hi : Issues s tl .row w) (fit : CountsFit (s.tile tl) w)
  (bad : badRow (s.tile tl) w d = false) (stash : d.stash = noStash)
  (inside : rowBeyond (s.tile tl) (getF w row_slot) d (getF w row_op) (flagF w row_backward) = false)
include hc hi fit bad stash inside

theorem row_function (op : getF w row_op = 5) (outs : flagF w row_backward = false ∨ d.pDst = none) {t : Tile}
    (written : rowPut (s.tile tl) (getF w row_slot) d.dst
      ((List.range d.rows).map (functionRow (s.tile tl) d (getF w row_table) (flagF w row_backward))) = t)
    (flow : SameFlow (s.tile tl) t) : ∃ u, Finishes s tl w t (s.row tl d ⟨.clean, none⟩) u := by
  subst written
  have formed := rowLoop_function s tl d (getF w row_table) (flagF w row_backward) d.rows
  rw [← rowWrite_outputs _ _ ((List.range d.rows).map fun _ => []) outs] at flow ⊢
  refine row_finishes hc hi fit bad stash inside (by rw [op]; rfl) ?_ flow
  rw [op, formed, setTile_tile hc]

theorem row_softmax (op : getF w row_op = 0) (fwd : flagF w row_backward = false) (ring : isRing (s.tile tl) 0 = false)
    (enough : d.rows ≤ d.recCount) {t : Tile}
    (written : rowPut (recordedTile d d.rows (s.tile tl)) (getF w row_slot) d.dst ((List.range d.rows).map (softmaxRow (s.tile tl) d)) = t)
    (flow : SameFlow (s.tile tl) t) : ∃ u, Finishes s tl w t (s.row tl d ⟨.clean, none⟩) u := by
  subst written
  have formed := rowLoop_softmax (tl := tl) hc ring hi.own d (getF w row_table) enough
  rw [← rowWrite_outputs _ _ ((List.range d.rows).map fun _ => []) (.inl fwd)] at flow ⊢
  refine row_finishes hc hi fit bad stash inside (by simp [leesShort, enough]) ?_ flow
  rw [op, fwd, ← formed, setTile_tile hc]

end

/-- Settles O16: the rows are formed from the tile as it stands, a softmax with its records, and written once; the fault of missing records
and the run of a span leave the store. -/
theorem rowOperations : Obligations.RowOperations := by
  unfold Obligations.RowOperations
  intro s tl w d hc
  dsimp only
  refine ⟨fun hi fit bad stash inside => ⟨fun op invalid => ⟨fun fwd => ?forward, fun back noProbs => ?backward⟩, fun f op fwd valid hf => ?format,
    fun op fwd ring enough invalid => ?softmax⟩, fun e race hi bad op few spill => ?short, fun span first last n may own dropped words => ?again,
    fun lot span kept => congrArg Host.Outcome.next (spanRecompute_kept kept),
    fun span last i ls redo held may inside end_ word cls kind detail quiet => ?returns⟩
  case forward =>
    obtain ⟨u, state, adv, same, store, -⟩ := row_function hc hi fit bad stash inside op (.inl fwd) (rowPut_f32 _ _ invalid _) ⟨rfl, rfl, rfl, rfl⟩
    rw [fwd] at store
    exact ⟨u, congrArg Host.Outcome.next state, adv, .writeN store, .of_stored same⟩
  case backward =>
    obtain ⟨u, state, adv, same, store, -⟩ := row_function hc hi fit bad stash inside op (.inr noProbs) (rowPut_f32 _ _ invalid _) ⟨rfl, rfl, rfl, rfl⟩
    rw [back] at store
    exact ⟨u, congrArg Host.Outcome.next state, adv, .writeN store, .of_stored same⟩
  case format =>
    obtain ⟨u, state, adv, same, store, -⟩ := row_function hc hi fit bad stash inside op (.inl fwd) (rowPut_format _ _ valid hf _)
      (sameFlow_formattedTile ..)
    rw [fwd] at store
    refine ⟨u, congrArg Host.Outcome.next state, adv, .writeN (store.trans (store_formattedTile ..)), ?_⟩
    rw [same.numFlags, same.slots]
    exact (sameBut_formattedTile ..).trans same
  case softmax =>
    obtain ⟨u, state, adv, same, store, -⟩ := row_softmax hc hi fit bad stash inside op fwd ring enough
      (rowPut_f32 (recordedTile d d.rows (s.tile tl)) _ invalid _) ⟨rfl, rfl, rfl, rfl⟩
    have lees : u.lees = records d.firstRec (softmaxLees (s.tile tl) d) (s.tile tl).lees d.rows := same.lees
    refine ⟨u, congrArg Host.Outcome.next state, adv, .writeN store, ?_, fun i hi => ?_, fun k hk => ?_⟩
    · rw [lees]; exact .of_stored same
    · rw [lees, get_records _ _ _ hi]; rfl
    · rw [lees, get_records_outside _ _ _ _ hk]
  case short =>
    have ft := tileFault_faultsTile s tl (code := 7) (by decide)
    refine ⟨_, congrArg Host.Outcome.next (row_short hi bad op few spill ⟨e, race⟩), ft.frame, ft.faultCode (by decide), ft.halted, ?_, ft.store⟩
    rw [ft.tile]; unfold faultedTile SameButStore; rfl
  case again =>
    refine ⟨_, congrArg Host.Outcome.next (spanRecompute_dropped may own dropped words), rfl, rfl, rfl, rfl, rfl, fun e he => ?_, rfl⟩
    simpa using (List.mem_filter.1 he).2
  case returns =>
    refine ⟨_, congrArg Host.Outcome.next ((mark_lastWord may inside word cls kind detail quiet).trans (retire_lastWord redo held end_)), ?_⟩
    unfold returnedTile
    exact ⟨rfl, rfl, rfl, rfl, rfl⟩

end Sys2Proof.Machine

/-!
PROOFS. DRAIN (R47, R48, R55, R62, R91, R109 to R115).
-/
namespace Sys2Proof.Machine

/-! ## Lines cleared (R55) -/

/-- The casks with the lines listed at their reset. -/
def clearedCasks (ks : List Nat) (m : Sparse Line) : Sparse Line := ks.foldl (fun m k => Sparse.set Line.reset m k Line.reset) m

theorem get_clearedCasks_other {ks : List Nat} {k : Nat} (h : k ∉ ks) (m : Sparse Line) :
    Sparse.get Line.reset (clearedCasks ks m) k = Sparse.get Line.reset m k := by
  induction ks generalizing m with
  | nil => rfl
  | cons x ks ih =>
    obtain ⟨ne, out⟩ := List.ne_and_not_mem_of_not_mem_cons h
    rw [clearedCasks, List.foldl_cons]
    exact (ih out _).trans (Sparse.get_set_other _ _ _ ne)

theorem get_clearedCasks {ks : List Nat} {k : Nat} (h : k ∈ ks) (m : Sparse Line) :
    Sparse.get Line.reset (clearedCasks ks m) k = Line.reset := by
  induction ks generalizing m with
  | nil => exact absurd h List.not_mem_nil
  | cons x ks ih =>
    rw [clearedCasks, List.foldl_cons]
    by_cases again : k ∈ ks
    · exact ih again _
    · obtain rfl : k = x := (List.mem_cons.1 h).resolve_right again
      exact (get_clearedCasks_other again _).trans (Sparse.get_set_same ..)

/-- The places of the lines that a DRAIN drains. -/
def drainedKeys (r : DrainRun) : List Nat :=
  ((List.range r.m).flatMap (fun d => (List.range r.n).map (fun j => (r.f + j, r.l0 + d)))).map (fun c => c.1 * 256 + c.2)

theorem mem_drainedKeys {r : DrainRun} {k : Nat} : k ∈ drainedKeys r ↔ ∃ d < r.m, ∃ j < r.n, (r.f + j) * 256 + (r.l0 + d) = k := by
  simp only [drainedKeys, List.mem_map, List.mem_flatMap, List.mem_range]
  constructor
  · rintro ⟨c, ⟨d, hd, j, hj, rfl⟩, rfl⟩
    exact ⟨d, hd, j, hj, rfl⟩
  · rintro ⟨d, hd, j, hj, rfl⟩
    exact ⟨_, ⟨d, hd, j, hj, rfl⟩, rfl⟩

theorem clearLines_eq (t : Tile) (r : DrainRun) : clearLines t r = { t with casks := clearedCasks (drainedKeys r) t.casks } := by
  unfold clearLines drainedKeys clearedCasks
  generalize (List.range r.m).flatMap (fun d => (List.range r.n).map (fun j => (r.f + j, r.l0 + d))) = l
  induction l generalizing t with
  | nil => rw [List.map_nil, List.foldl_nil, List.foldl_nil]
  | cons c l ih =>
    rw [List.foldl_cons, ih, List.map_cons, List.foldl_cons]
    simp only [setCaskLine]

/-! ## What a DRAIN writes -/

theorem topkLines_eq (t : Tile) (r : DrainRun) : topkLines t r =
    { t with store := (topkLines t r).store, numFlags := (topkLines t r).numFlags, topkCtl := (topkLines t r).topkCtl } := by
  have h : ∀ (l : List Nat) (u : Tile), l.foldl (topkLine t r) u =
      { u with
        store := (l.foldl (topkLine t r) u).store, numFlags := (l.foldl (topkLine t r) u).numFlags
        topkCtl := (l.foldl (topkLine t r) u).topkCtl } := by
    intro l
    induction l with
    | nil => exact fun _ => rfl
    | cons d l ih => intro u; rw [List.foldl_cons, ih]; rfl
  exact h (List.range r.m) t

theorem routeLot_eq (t : Tile) (r : DrainRun) : ∃ parts admitted deferred ctl,
    routeLot t r = { t with routeParts := parts, admitted := admitted, deferred := deferred, sparseCtl := ctl } := by
  unfold routeLot
  split
  · exact ⟨_, _, _, _, rfl⟩
  · split
    · exact ⟨_, _, _, _, rfl⟩
    · split <;> exact ⟨_, _, _, _, rfl⟩

/-- What the lines drained become, before they are cleared. -/
def writtenTile (t : Tile) (r : DrainRun) (f : Fmt) : Tile :=
  let t0 := if r.topk then topkLines t r else t
  if !(!r.topk || flagF t.topkCtl topkCtl_outKeep) then t0
  else if r.packed then
    sendOut t0 r ((List.range r.m).flatMap (fun d => (List.range r.n).flatMap (fun j => slotBytes (packedOut t r (r.l0 + d) j))))
  else
    let o := drainOut f (slotOf t r.slot) ((List.range r.m).map (fun d => (List.range r.n).map (fun j => outVal t r (r.l0 + d) j)))
    measure { sendOut t0 r o.bytes with numFlags := addCounts (sendOut t0 r o.bytes).numFlags o.counts } r.slot o.amax o.bad
      ((slotOf t r.slot).kind == kindGA) o.clamped

theorem overflowed_eq (b : Bool) (t : Tile) :
    ∃ flags, (if b then { t with numFlags := setF t.numFlags numFlags_caskOvf 1 } else t) = { t with numFlags := flags } := by
  cases b
  · exact ⟨t.numFlags, rfl⟩
  · exact ⟨setF t.numFlags numFlags_caskOvf 1, rfl⟩

theorem drainTile_eq (t : Tile) (r : DrainRun) (f : Fmt) : ∃ flags parts admitted deferred ctl, drainTile t r f =
    { writtenTile t r f with
      numFlags := flags, casks := clearedCasks (drainedKeys r) (writtenTile t r f).casks
      routeParts := parts, admitted := admitted, deferred := deferred, sparseCtl := ctl } := by
  obtain ⟨flags, e⟩ := overflowed_eq ((List.range r.m).any (fun d => (List.range r.n).any (fun j =>
    (if r.packed then packedOut t r (r.l0 + d) j else caskLine t (r.f + j) (r.l0 + d)).ovf))) (writtenTile t r f)
  obtain ⟨parts, admitted, deferred, ctl, e'⟩ := routeLot_eq (clearLines { writtenTile t r f with numFlags := flags } r) r
  have whole : drainTile t r f = routeLot (clearLines { writtenTile t r f with numFlags := flags } r) r := by rw [← e]; rfl
  refine ⟨flags, parts, admitted, deferred, ctl, ?_⟩
  rw [whole, e', clearLines_eq]

/-- Work that leaves, besides the flow, the casks and the arrays. -/
structure SameCasks (t u : Tile) : Prop where
  flow : SameFlow t u
  casks : u.casks = t.casks
  arrays : u.arrays = t.arrays

theorem sameCasks_sendOut (t : Tile) (r : DrainRun) (bs : List Byte) : SameCasks t (sendOut t r bs) := by
  unfold sendOut; split <;> exact ⟨⟨rfl, rfl, rfl, rfl⟩, rfl, rfl⟩

theorem sameCasks_topkLines (t : Tile) (r : DrainRun) : SameCasks t (topkLines t r) := by
  rw [topkLines_eq]; exact ⟨⟨rfl, rfl, rfl, rfl⟩, rfl, rfl⟩

section
variable (t : Tile) {r : DrainRun} (f : Fmt)

/-- The bytes of the drained lines in the format `f`. -/
def drainedBytes (t : Tile) (r : DrainRun) (f : Fmt) : List Byte :=
  (drainOut f (slotOf t r.slot) ((List.range r.m).map (fun d => (List.range r.n).map (fun j => outVal t r (r.l0 + d) j)))).bytes

/-- Their packed records. -/
def drainedRecords (t : Tile) (r : DrainRun) : List Byte :=
  (List.range r.m).flatMap (fun d => (List.range r.n).flatMap (fun j => slotBytes (packedOut t r (r.l0 + d) j)))

theorem writtenTile_format (topk : r.topk = false) (packed : r.packed = false) :
    ∃ flags slots, writtenTile t r f = { sendOut t r (drainedBytes t r f) with numFlags := flags, slots := slots } := by
  unfold writtenTile drainedBytes
  simp only [topk, packed, Bool.not_false, Bool.true_or, Bool.not_true, Bool.false_eq_true, if_false]
  rw [measure_eq]
  exact ⟨_, _, rfl⟩

theorem writtenTile_packed (topk : r.topk = false) (packed : r.packed = true) : writtenTile t r f = sendOut t r (drainedRecords t r) := by
  unfold writtenTile drainedRecords
  simp only [topk, packed, Bool.not_false, Bool.true_or, Bool.not_true, Bool.false_eq_true, if_false, if_true]

theorem writtenTile_topk (topk : r.topk = true) (keep : flagF t.topkCtl topkCtl_outKeep = false) : writtenTile t r f = topkLines t r := by
  unfold writtenTile
  simp only [topk, keep, Bool.not_true, Bool.or_self, Bool.not_false, if_true]

end

namespace State

section
variable {s : State} {tl : TileRef} {w : Word} {d : DrainDesc} {f : Fmt} (hi : Issues s tl .drain w) (legal : badDrain (s.tile tl) w = false)
  (fmt : drainFmt (s.tile tl) (drainRun (s.tile tl) w d) = some f)
include hi legal fmt

theorem drain_waits (feeding : feeds (s.tile tl) (drainRun (s.tile tl) w d).f (drainRun (s.tile tl) w d).n = true) (m : StoreIn) :
    s.drain tl d m = s.hold tl stallEmpty := by
  unfold drain
  rw [issue_issues hi]
  simp only [legal, fmt, feeding, Bool.false_eq_true, if_false, if_true]

theorem drain_runs (idle : feeds (s.tile tl) (drainRun (s.tile tl) w d).f (drainRun (s.tile tl) w d).n = false)
    (inside : drainBeyond (s.tile tl) (drainRun (s.tile tl) w d) f = false) (m : StoreIn) : s.drain tl d m =
      s.readStore tl m.ecc fun s' =>
        match m.race with
        | some x => (((s'.onTile tl (fun t => drainTile t (drainRun (s.tile tl) w d) f)).touch tl 16).useStash tl d.stash).storeRace tl 2 x
        | none => (((s'.onTile tl (fun t => drainTile t (drainRun (s.tile tl) w d) f)).touch tl 16).useStash tl d.stash).finish tl w := by
  unfold drain
  rw [issue_issues hi]
  simp only [legal, fmt, idle, inside, Bool.false_eq_true, if_false] <;> rfl

end

end State

namespace State

theorem readStore_clean (s : State) (tl : TileRef) (k : State → State) : s.readStore tl .clean k = k s := by
  unfold readStore storeEcc; exact if_neg (by decide)

theorem readStore_uncorrectable (s : State) (tl : TileRef) (k : State → State) :
    s.readStore tl .uncorrectable k = s.storeEcc tl .uncorrectable := by
  unfold readStore; exact if_pos rfl

end State

/-- What a DRAIN leaves of its tile once it has retired: `v` is the tile that it has written. -/
structure Drained (t : Tile) (r : DrainRun) (v u : Tile) : Prop where
  store : u.store = v.store
  rowIn : u.rowIn = v.rowIn
  vecIn : u.vecIn = v.vecIn
  topkCtl : u.topkCtl = v.topkCtl
  cleared : ∀ i < r.m, ∀ j < r.n, caskLine u (r.f + j) (r.l0 + i) = Line.reset
  others : ∀ c i, (c < r.f ∨ r.f + r.n ≤ c ∨ i < r.l0 ∨ r.l0 + r.m ≤ i) → i < 256 → caskLine u c i = caskLine t c i
  arrays : u.arrays = t.arrays

theorem drainedLines_le {t : Tile} {w : Word} {d : DrainDesc} (legal : badDrain t w = false) : (drainRun t w d).l0 + (drainRun t w d).m ≤ 256 := by
  unfold badDrain at legal
  simp only [Bool.or_eq_false_iff, decide_eq_false_iff_not] at legal
  obtain ⟨⟨⟨⟨⟨-, h⟩, -⟩, -⟩, -⟩, -⟩ := legal
  exact Nat.not_lt.1 h

open State

/-- A DRAIN with clean operands, whose tile writes `v`, retires with its lines cleared. -/
theorem drain_finishes {s : State} {tl : TileRef} {w : Word} {d : DrainDesc} {f : Fmt} (hc : Canonical s) (hi : Issues s tl .drain w)
    (legal : badDrain (s.tile tl) w = false) (fmt : drainFmt (s.tile tl) (drainRun (s.tile tl) w d) = some f)
    (idle : feeds (s.tile tl) (drainRun (s.tile tl) w d).f (drainRun (s.tile tl) w d).n = false)
    (inside : drainBeyond (s.tile tl) (drainRun (s.tile tl) w d) f = false) (fit : CountsFit (s.tile tl) w) (stash : d.stash = noStash)
    {v : Tile} (written : writtenTile (s.tile tl) (drainRun (s.tile tl) w d) f = v) (same : SameCasks (s.tile tl) v) :
    ∃ u, exec (.drain tl d ⟨.clean, none⟩) s = .next (retiredTo s tl u) ∧ Advanced (s.tile tl) u w ((s.tile tl).seq.index + 1) ∧
      Drained (s.tile tl) (drainRun (s.tile tl) w d) v u := by
  obtain ⟨flags, parts, admitted, deferred, ctl, e⟩ := drainTile_eq (s.tile tl) (drainRun (s.tile tl) w d) f
  rw [written] at e
  obtain ⟨flow, casks, arrays⟩ := same
  have runs : s.drain tl d ⟨.clean, none⟩ = ((s.setTile tl (drainTile (s.tile tl) (drainRun (s.tile tl) w d) f)).touch tl 16).finish tl w := by
    rw [drain_runs hi legal fmt idle inside, stash, readStore_clean]
    rfl
  obtain ⟨u, state, adv, kept, store, -⟩ := touch_finishes hc hi.own fit (t := drainTile (s.tile tl) (drainRun (s.tile tl) w d) f)
    (by rw [e]; exact ⟨flow.ctl, flow.status, flow.seq, flow.counters⟩) 16
  refine ⟨u, congrArg Host.Outcome.next (runs.trans state), adv, ?_⟩
  rw [e] at kept store
  have lines : u.casks = clearedCasks (drainedKeys (drainRun (s.tile tl) w d)) (s.tile tl).casks := kept.casks.trans (by rw [casks])
  have le := drainedLines_le (d := d) legal
  refine ⟨store, kept.rowIn, kept.vecIn, kept.topkCtl, fun i hi j hj => ?_, fun c i out low => ?_, kept.arrays.trans arrays⟩
  · unfold caskLine
    rw [lines, get_clearedCasks (mem_drainedKeys.2 ⟨i, hi, j, hj, rfl⟩)]
  · unfold caskLine
    rw [lines, get_clearedCasks_other]
    intro mem
    obtain ⟨i', hi', j', hj', key⟩ := mem_drainedKeys.1 mem
    omega

/-- The same for a write-out in a format. -/
theorem drain_format {s : State} {tl : TileRef} {w : Word} {d : DrainDesc} {f : Fmt} (hc : Canonical s) (hi : Issues s tl .drain w)
    (legal : badDrain (s.tile tl) w = false) (fmt : drainFmt (s.tile tl) (drainRun (s.tile tl) w d) = some f)
    (idle : feeds (s.tile tl) (drainRun (s.tile tl) w d).f (drainRun (s.tile tl) w d).n = false)
    (inside : drainBeyond (s.tile tl) (drainRun (s.tile tl) w d) f = false) (fit : CountsFit (s.tile tl) w) (stash : d.stash = noStash)
    (topk : (drainRun (s.tile tl) w d).topk = false) (packed : (drainRun (s.tile tl) w d).packed = false) :
    ∃ u, exec (.drain tl d ⟨.clean, none⟩) s = .next (retiredTo s tl u) ∧ Advanced (s.tile tl) u w ((s.tile tl).seq.index + 1) ∧
      Drained (s.tile tl) (drainRun (s.tile tl) w d)
        (sendOut (s.tile tl) (drainRun (s.tile tl) w d) (drainedBytes (s.tile tl) (drainRun (s.tile tl) w d) f)) u := by
  obtain ⟨flags, slots, e⟩ := writtenTile_format (s.tile tl) f topk packed
  obtain ⟨flow, casks, arrays⟩ := sameCasks_sendOut (s.tile tl) (drainRun (s.tile tl) w d) (drainedBytes (s.tile tl) (drainRun (s.tile tl) w d) f)
  obtain ⟨u, runs, adv, h⟩ := drain_finishes hc hi legal fmt idle inside fit stash e
    ⟨⟨flow.ctl, flow.status, flow.seq, flow.counters⟩, casks, arrays⟩
  exact ⟨u, runs, adv, h.store, h.rowIn, h.vecIn, h.topkCtl, h.cleared, h.others, h.arrays⟩

/-- The faults of a DRAIN: a second writer of a word. -/
theorem drain_race {s : State} {tl : TileRef} {w : Word} {d : DrainDesc} {f : Fmt} (hi : Issues s tl .drain w)
    (legal : badDrain (s.tile tl) w = false) (fmt : drainFmt (s.tile tl) (drainRun (s.tile tl) w d) = some f)
    (idle : feeds (s.tile tl) (drainRun (s.tile tl) w d).f (drainRun (s.tile tl) w d).n = false)
    (inside : drainBeyond (s.tile tl) (drainRun (s.tile tl) w d) f = false) (x : RaceIn) :
    ∃ s' : State, s.drain tl d ⟨.clean, some x⟩ = s'.storeRace tl 2 x :=
  ⟨_, (drain_runs hi legal fmt idle inside _).trans (readStore_clean ..)⟩

/-- A word of a higher client stands after a race. -/
theorem storeRace_word (s : State) (tl : TileRef) {own : Nat} {x : RaceIn} (h : own < x.client) :
    Memory.readLE ((s.storeRace tl own x).tile tl).store (x.addr / 8 * 8 % 0x400000) 8 = x.word.toNat := by
  rw [(storeRace_faultsTile ..).store, tile_setTile_same]
  unfold collidedTile
  dsimp only
  rw [if_pos h, Memory.readLE_writeLE]
  exact Nat.mod_eq_of_lt x.word.isLt

/-- A store range that cannot be read. -/
theorem storeEcc_uncorrectable (s : State) (tl : TileRef) : ∃ t, t.store = (s.tile tl).store ∧ t.casks = (s.tile tl).casks ∧
    FaultsTile (s.setTile tl t) tl 3 (s.storeEcc tl .uncorrectable) :=
  ⟨{ s.tile tl with status := setF (s.tile tl).status tileStatus_dbEcc 1, ueInJob := (s.tile tl).ueInJob + 1 }, rfl, rfl,
    tileFault_faultsTile _ tl (by decide)⟩

section
variable (t : Tile) {r : DrainRun} (bs : List Byte)

theorem store_sendOut (h : r.dest = 0) : (sendOut t r bs).store = Memory.writeN t.store r.destAddr bs := by
  unfold sendOut; rw [h]; rfl

theorem rowIn_sendOut (h : r.dest = 1) : (sendOut t r bs).rowIn = bs ∧ (sendOut t r bs).store = t.store := by
  unfold sendOut; rw [h]; exact ⟨rfl, rfl⟩

theorem vecIn_sendOut (h : 1 < r.dest) : (sendOut t r bs).vecIn = bs ∧ (sendOut t r bs).store = t.store := by
  unfold sendOut
  split
  · omega
  · omega
  · exact ⟨rfl, rfl⟩

end

/-- Settles O14: a DRAIN waits, or its lines are written where it sends them and cleared; a race and an uncorrectable error are the faults
of the store. -/
theorem drains : Obligations.Drains := by
  unfold Obligations.Drains
  intro s tl w d f hc hi
  dsimp only
  refine fun legal fmt => ⟨fun feeding m => ?waits, fun idle inside => ⟨fun fit stash => ⟨fun topk packed => ⟨fun dest => ?store, fun dest => ?row,
    fun dest => ?vec⟩, fun topk packed dest => ?packed, fun topk keep => ?topk⟩, fun x => ?race, fun x => ?ecc⟩⟩
  case waits =>
    obtain ⟨u, e, h⟩ := hold_waits hc tl stallEmpty
    exact ⟨u, congrArg Host.Outcome.next ((drain_waits hi legal fmt feeding m).trans e), h⟩
  case store =>
    obtain ⟨u, runs, adv, h⟩ := drain_format hc hi legal fmt idle inside fit stash topk packed
    exact ⟨u, runs, adv, .writeN (h.store.trans (store_sendOut _ _ dest)), h.cleared, h.others, h.arrays⟩
  case row =>
    obtain ⟨u, runs, adv, h⟩ := drain_format hc hi legal fmt idle inside fit stash topk packed
    exact ⟨u, runs, adv, h.rowIn.trans (rowIn_sendOut _ _ dest).1, h.store.trans (rowIn_sendOut _ _ dest).2, h.cleared, h.others, h.arrays⟩
  case vec =>
    obtain ⟨u, runs, adv, h⟩ := drain_format hc hi legal fmt idle inside fit stash topk packed
    exact ⟨u, runs, adv, h.vecIn.trans (vecIn_sendOut _ _ dest).1, h.store.trans (vecIn_sendOut _ _ dest).2, h.cleared, h.others, h.arrays⟩
  case packed =>
    obtain ⟨u, runs, adv, h⟩ := drain_finishes hc hi legal fmt idle inside fit stash (writtenTile_packed _ f topk packed) (sameCasks_sendOut ..)
    exact ⟨u, runs, adv, .writeN (h.store.trans (store_sendOut _ _ dest)), h.cleared, h.others, h.arrays⟩
  case topk =>
    obtain ⟨u, runs, adv, h⟩ := drain_finishes hc hi legal fmt idle inside fit stash (writtenTile_topk _ f topk keep) (sameCasks_topkLines ..)
    exact ⟨u, runs, adv, h.store, h.topkCtl, h.cleared, h.others, h.arrays⟩
  case race =>
    obtain ⟨s', e⟩ := drain_race hi legal fmt idle inside x
    have ft := storeRace_faultsTile s' tl 2 x
    exact ⟨_, congrArg Host.Outcome.next e, ft.faultCode (by decide), ft.halted, storeRace_flag .., fun h => storeRace_word _ _ h, ft.check⟩
  case ecc =>
    obtain ⟨t, store, casks, ft⟩ := storeEcc_uncorrectable s tl
    refine ⟨_, congrArg Host.Outcome.next (drain_runs hi legal fmt idle inside _), ?_⟩
    rw [readStore_uncorrectable]
    refine ⟨ft.faultCode (by decide), ft.halted, ?_, ?_, ft.check⟩
    · rw [ft.store, tile_setTile_same, store]
    · rw [ft.casks, tile_setTile_same, casks]

end Sys2Proof.Machine

/-!
PROOFS. PASS (R50 to R53, R62, R74 to R88, R126).
-/
namespace Sys2Proof.Machine

/-! ## Lines that take partials (R53, R74) -/

/-- The casks whose lines at the keys of `l` have been rewritten in turn. -/
def takenCasks {α : Type} (key : α → Nat) (g : α → Line → Line) (l : List α) (m : Sparse Line) : Sparse Line :=
  l.foldl (fun m x => Sparse.set Line.reset m (key x) (g x (Sparse.get Line.reset m (key x)))) m

section
variable {α : Type} (key : α → Nat) (g : α → Line → Line)

theorem get_takenCasks_other {l : List α} {k : Nat} (h : k ∉ l.map key) (m : Sparse Line) :
    Sparse.get Line.reset (takenCasks key g l m) k = Sparse.get Line.reset m k := by
  induction l generalizing m with
  | nil => rfl
  | cons x l ih =>
    rw [List.map_cons] at h
    obtain ⟨ne, out⟩ := List.ne_and_not_mem_of_not_mem_cons h
    rw [takenCasks, List.foldl_cons]
    exact (ih out _).trans (Sparse.get_set_other _ _ _ ne)

theorem get_takenCasks {l : List α} (nd : (l.map key).Nodup) {x : α} (h : x ∈ l) (m : Sparse Line) :
    Sparse.get Line.reset (takenCasks key g l m) (key x) = g x (Sparse.get Line.reset m (key x)) := by
  induction l generalizing m with
  | nil => exact absurd h List.not_mem_nil
  | cons y l ih =>
    rw [List.map_cons] at nd
    obtain ⟨out, nd⟩ := List.nodup_cons.1 nd
    rw [takenCasks, List.foldl_cons]
    rcases List.mem_cons.1 h with rfl | h
    · exact (get_takenCasks_other key g out _).trans (Sparse.get_set_same ..)
    · have ne : key x ≠ key y := fun e => out (e ▸ List.mem_map_of_mem h)
      exact (ih nd h _).trans (by rw [Sparse.get_set_other _ _ _ ne])

end

/-- The vectors of a pass at its columns. -/
def deliveries (cols : List Nat) (m : Nat) : List (Nat × Nat) := (List.range m) ×ˢ cols

/-- The place of the line that vector i of a pass of array k writes at a column. -/
def deliveryKey (k : Nat) (x : Nat × Nat) : Nat := (firstCask k + x.2) * 256 + x.1

theorem nodup_deliveryKeys (k : Nat) {cols : List Nat} (nd : cols.Nodup) {m : Nat} (h : m ≤ 256) :
    ((deliveries cols m).map (deliveryKey k)).Nodup := by
  refine List.Nodup.map_on ?_ (List.nodup_range.product nd)
  rintro ⟨i, c⟩ hx ⟨j, e⟩ hy eq
  have hi := List.mem_range.1 (List.mem_product.1 hx).1
  have hj := List.mem_range.1 (List.mem_product.1 hy).1
  unfold deliveryKey at eq
  dsimp only at eq
  exact Prod.ext (by dsimp only; omega) (by dsimp only; omega)

theorem not_mem_deliveryKeys (k : Nat) {cols : List Nat} {m x i : Nat} (h : m ≤ 256) (low : i < 256)
    (out : x < firstCask k ∨ x - firstCask k ∉ cols ∨ m ≤ i) : x * 256 + i ∉ (deliveries cols m).map (deliveryKey k) := by
  intro mem
  obtain ⟨⟨j, c⟩, hx, eq⟩ := List.mem_map.1 mem
  obtain ⟨hj, hc⟩ := List.mem_product.1 hx
  have hj := List.mem_range.1 hj
  unfold deliveryKey at eq
  dsimp only at eq
  have ij : i = j := by omega
  have xc : x = firstCask k + c := by omega
  rcases out with h | h | h
  · omega
  · exact h (by rw [xc, Nat.add_sub_cancel_left]; exact hc)
  · omega

/-- A line that has taken the partials of vector i at column c. -/
def tookParts (st : List Host.Cell) (r : PassRun) (x : Nat × Nat) (l : Line) : Line := takeParts l r.mode.kind false (partialsOf st r x.1 x.2)

theorem deliver_eq (t : Tile) (k : Nat) {r : PassRun} (good : r.pattern = 1 → r.set.badGroups = []) (cols : List Nat) (m : Nat) :
    ∃ flags, deliver t k r cols m =
      { t with numFlags := flags, casks := takenCasks (deliveryKey k) (tookParts t.store r) (deliveries cols m) t.casks } := by
  have whole : ∀ c, (r.set.badGroups.any (fun g => g.1 == c) && r.pattern == 1) = false := fun c => by
    by_cases h : r.pattern = 1
    · simp [good h]
    · simp [h]
  have fold : ∀ (l : List (Nat × Nat)) (u : Tile), l.foldl (fun u ic => setCaskLine u (firstCask k + ic.2) ic.1
      (takeParts (caskLine u (firstCask k + ic.2) ic.1) r.mode.kind (r.set.badGroups.any (fun g => g.1 == ic.2) && r.pattern == 1)
        (partialsOf t.store r ic.1 ic.2))) u = { u with casks := takenCasks (deliveryKey k) (tookParts t.store r) l u.casks } := by
    intro l
    simp only [whole]
    induction l with
    | nil => exact fun _ => rfl
    | cons x l ih => intro u; rw [List.foldl_cons, ih, takenCasks, takenCasks, List.foldl_cons]; rfl
  unfold deliver
  dsimp only
  rw [show ((List.range m).flatMap fun i => cols.map fun c => (i, c)) = deliveries cols m from rfl, fold]
  exact overflowed_eq _ { t with casks := takenCasks (deliveryKey k) (tookParts t.store r) (deliveries cols m) t.casks }

/-! ## A pass that enters its array (R50 to R53) -/

/-- A tile whose array k holds one more pass. -/
def withPass (k : Nat) (p : PassOp) (t : Tile) : Tile := setArr t k { arrOf t k with passes := (arrOf t k).passes ++ [p] }

/-- A tile whose array k has taken in the pass and delivered its first n vectors. -/
def enteredTile (k : Nat) (p : PassOp) (r : PassRun) (n : Nat) (t : Tile) : Tile :=
  let t := deliver t k r (maskBits (arrDepth k) p.colMask) n
  let t := setArr t k { arrOf t k with passes := (arrOf t k).passes.map (fun q => if q = p then { q with entered := true } else q) }
  { t with sparseCtl := bumpF t.sparseCtl sparseCtl_metaBad 0 }

/-- What taking in the pass and delivering its first n vectors make of a tile. -/
structure Entered (k : Nat) (p : PassOp) (r : PassRun) (n : Nat) (t u : Tile) : Prop where
  flow : SameFlow t u
  store : u.store = t.store
  casks : u.casks = takenCasks (deliveryKey k) (tookParts t.store r) (deliveries (maskBits (arrDepth k) p.colMask) n) t.casks
  arr : arrOf u k = { arrOf t k with passes := (arrOf t k).passes.map (fun q => if q = p then { q with entered := true } else q) }

section
variable {r : PassRun} (good : r.pattern = 1 → r.set.badGroups = [])
include good

theorem entered_enteredTile (k : Nat) (p : PassOp) (n : Nat) (t : Tile) : Entered k p r n t (enteredTile k p r n t) := by
  obtain ⟨flags, e⟩ := deliver_eq t k good (maskBits (arrDepth k) p.colMask) n
  have arr : arrOf (deliver t k r (maskBits (arrDepth k) p.colMask) n) k = arrOf t k := arrOf_congr (by rw [e]) (by rw [e]) k
  unfold enteredTile
  generalize deliver t k r (maskBits (arrDepth k) p.colMask) n = u at e arr
  refine ⟨⟨(congrArg Tile.ctl e :), (congrArg Tile.status e :), (congrArg Tile.seq e :), (congrArg Tile.counters e :)⟩,
    (congrArg Tile.store e :), (congrArg Tile.casks e :), ?_⟩
  rw [← arr]
  exact (arrOf_congr (by unfold setArr; rfl) (by unfold setArr; rfl) k).trans (arrOf_setArr_same u k _)

end

namespace State

/-- The tile on which the first n vectors of a pass have flowed through array k. -/
def flowed (s : State) (tl : TileRef) (k : Nat) (p : PassOp) (r : PassRun) (n : Nat) : State :=
  (s.onTile tl (fun t => enteredTile k p r n t)).touch tl (physArray (s.tile tl) k)

/-- A pass whose groups are well formed counts none as malformed. -/
theorem noMetaBad {r : PassRun} (good : r.pattern = 1 → r.set.badGroups = []) (cols : List Nat) :
    (if r.pattern = 1 then ((r.set.badGroups.filter (fun g => cols.contains g.1)).map (·.2)).sum else 0) = 0 := by
  split
  · next h => rw [good h]; rfl
  · rfl

theorem withinStore {n : Nat} (room : n ≤ storeBytes) (cols : List Nat) : decide (storeBytes < (if cols = [] then 0 else n)) = false := by
  split <;> simp only [decide_eq_false_iff_not] <;> omega

section
variable {s : State} {tl : TileRef} {k : Nat} {p : PassOp} {r : PassRun} (run : passRun (s.tile tl) p = some r)
  (room : loadTop r.l (passM p.word) r.nb (topFires r) ≤ storeBytes) (good : r.pattern = 1 → r.set.badGroups = [])
include run room good

theorem enter_clean (clean : p.bad = none) : s.enter tl k p = s.flowed tl k p r (passM p.word) := by
  unfold enter flowed
  simp only [run, withinStore room, noMetaBad good, clean, enteredTile, Bool.false_eq_true, if_false, if_true]

section
variable {v : Nat} (rejects : p.bad = some v) (low : v < passM p.word) (residue : r.mode.residue = true)
include rejects low residue

/-- With S12 free every vector's partials reach the casks, formed again where the check rejected them. -/
theorem enter_substitutes (hk : k < 12) (free : s12Free s tl = true) :
    s.enter tl k p = (s.flowed tl k p r (passM p.word)).substitute tl k := by
  unfold enter flowed
  simp only [run, withinStore room, noMetaBad good, rejects, residue, low, hk, free, enteredTile, decide_true, Bool.and_self,
    Bool.false_eq_true, if_false, if_true]

theorem enter_loses (lost : k = 12 ∨ s12Free s tl = false) : s.enter tl k p = (s.flowed tl k p r v).arrayLost tl k := by
  have spare : (decide (k < 12) && s12Free s tl) = false := by
    rcases lost with rfl | h
    · rfl
    · rw [h, Bool.and_false]
  unfold enter flowed
  simp only [run, withinStore room, noMetaBad good, rejects, residue, low, spare, enteredTile, decide_true, Bool.and_self,
    Bool.false_eq_true, if_false, if_true]

end
end

/-! ## A pass that is issued -/

theorem flowed_retiredTo (hc : Canonical s) (tl : TileRef) (u : Tile) (k : Nat) (p : PassOp) (r : PassRun) (n : Nat) :
    (retiredTo s tl u).flowed tl k p r n = retiredTo s tl (markedTile s.now (physArray u k) (enteredTile k p r n u)) := by
  unfold flowed onTile retiredTo touch markUnit markedTile
  simp only [tile_setTile_same, setTile_setTile (tiles_endWait hc tl), now_setTile, now_endWait]

theorem verdicts_ledger (s : State) (q cls code tile arg v a p : Nat) :
    ((s.ledger q cls code tile arg v a).part p).verdicts = (s.part p).verdicts := by
  unfold ledger part setPart
  dsimp only
  by_cases e : p = q
  · rw [e, Sparse.get_set_same]
  · rw [Sparse.get_set_other _ _ _ e]

theorem verdicts_retiredTo (s : State) (tl : TileRef) (u : Tile) (p : Nat) :
    ((retiredTo s tl u).part p).verdicts = (s.part p).verdicts := by
  have parts : ∀ {a b : State}, a.parts = b.parts → (a.part p).verdicts = (b.part p).verdicts := fun h => by unfold part; rw [h]
  unfold retiredTo
  rw [parts (setTile_parts ..)]
  cases e : (s.tile tl).seq.held with
  | none => rw [endWait_of_none e]
  | some x =>
    obtain ⟨since, code⟩ := x
    rw [endWait_some e, parts (onTile_parts ..)]
    unfold stall
    split
    · rfl
    · exact verdicts_ledger ..

/-- Whether S12 is free is read from the tile, its site and the verdicts, which an issue leaves. -/
theorem s12Free_retiredTo (s : State) (tl : TileRef) {u : Tile} (hm : u.map = (s.tile tl).map)
    (hs : getF u.status tileStatus_s12For = getF (s.tile tl).status tileStatus_s12For) : s12Free (retiredTo s tl u) tl = s12Free s tl := by
  have same : (retiredTo s tl u).sites = s.sites ∧ (retiredTo s tl u).flash = s.flash := by
    obtain ⟨tiles, parts, job, e⟩ := endWait_eq s tl
    unfold retiredTo
    rw [setTile_sites, setTile_flash, e]
    exact ⟨rfl, rfl⟩
  unfold s12Free siteVerdict site
  simp only [tile_retiredTo_same, hm, hs, same.1, same.2, verdicts_retiredTo]

end State

/-- The pass that a word asks for, with the vector that the residue check is to reject. -/
def passOf (t : Tile) (w : Word) (bad : Option Nat) : PassOp where
  word := w
  rowMask := (maskEntry t (getF w pass_mask)).1 % 2 ^ arrDepth (getF w pass_array)
  colMask := (maskEntry t (getF w pass_mask)).2 % 2 ^ arrDepth (getF w pass_array)
  entered := false
  bad := bad

/-- A tile whose PASS has retired and waits at its array. -/
def issuedTile (t : Tile) (w : Word) (bad : Option Nat) : Tile :=
  withPass (getF w pass_array) (passOf t w bad) (retiredTile t)

/-- What a pass works from is read from the loaders, the formats and the active set. -/
theorem passRun_congr {t u : Tile} {p q : PassOp} (la : u.loaderA = t.loaderA) (lb : u.loaderB = t.loaderB) (hf : u.fmt = t.fmt)
    (hw : q.word = p.word) (hr : q.rowMask = p.rowMask)
    (arr : (arrOf u (getF p.word pass_array)).active = (arrOf t (getF p.word pass_array)).active) :
    passRun u q = passRun t p := by
  have fmt : fmtEntry u = fmtEntry t := by funext n; unfold fmtEntry; rw [hf]
  have stream : streamFor u = streamFor t := by funext w; unfold streamFor; rw [la, lb]
  unfold passRun
  simp only [hw, hr, fmt, stream, arr]

theorem legal_pass {w : Word} (legal : State.badPass w = false) : getF w pass_array ≤ 12 ∧ passM w ≤ 256 := by
  unfold State.badPass at legal
  simp only [Bool.or_eq_false_iff, decide_eq_false_iff_not] at legal
  omega

/-- What a pass that has entered makes of the tile that issued it: its first n vectors have flowed. -/
structure PassFlow (t : Tile) (w : Word) (bad : Option Nat) (r : PassRun) (n : Nat) (u : Tile) : Prop where
  index : u.seq.index = t.seq.index + 1
  counters : u.counters = t.counters
  store : u.store = t.store
  casks : u.casks = takenCasks (deliveryKey (getF w pass_array)) (tookParts t.store r)
    (deliveries (maskBits (arrDepth (getF w pass_array)) (passOf t w bad).colMask) n) t.casks
  arr : (arrOf t (getF w pass_array)).passes = [] →
    arrOf u (getF w pass_array) = { arrOf t (getF w pass_array) with passes := [{ passOf t w bad with entered := true }] }

section
variable (t : Tile) (w : Word) (bad : Option Nat)

theorem arrOf_retiredTile (k : Nat) : arrOf (retiredTile t) k = arrOf t k :=
  arrOf_congr (by unfold retiredTile goneTile; rfl) (s12For_retiredTile t) k

theorem arrOf_issuedTile : arrOf (issuedTile t w bad) (getF w pass_array) =
    { arrOf t (getF w pass_array) with passes := (arrOf t (getF w pass_array)).passes ++ [passOf t w bad] } := by
  unfold issuedTile withPass
  rw [arrOf_setArr_same, arrOf_retiredTile]

theorem issuedTile_eq : ∃ arrays, issuedTile t w bad =
    { t with status := (retiredTile t).status, seq := (retiredTile t).seq, arrays := arrays } := by
  unfold issuedTile withPass setArr
  exact ⟨_, by unfold retiredTile goneTile; rfl⟩

theorem passRun_issuedTile (bad' : Option Nat) : passRun (issuedTile t w bad) (passOf t w bad) = passRun t (passOf t w bad') := by
  obtain ⟨arrays, e⟩ := issuedTile_eq t w bad
  have active : (arrOf (issuedTile t w bad) (getF w pass_array)).active = (arrOf t (getF w pass_array)).active := by rw [arrOf_issuedTile]
  exact passRun_congr (by rw [e]) (by rw [e]) (by rw [e]) rfl rfl active

theorem map_issuedTile : (issuedTile t w bad).map = t.map := by
  obtain ⟨arrays, e⟩ := issuedTile_eq t w bad
  rw [e]

theorem s12For_issuedTile : getF (issuedTile t w bad).status tileStatus_s12For = getF t.status tileStatus_s12For := by
  obtain ⟨arrays, e⟩ := issuedTile_eq t w bad
  rw [e]
  exact s12For_retiredTile t

theorem passFlow_enteredTile {r : PassRun} (good : r.pattern = 1 → r.set.badGroups = []) (n now x : Nat) :
    PassFlow t w bad r n (markedTile now x (enteredTile (getF w pass_array) (passOf t w bad) r n (issuedTile t w bad))) := by
  obtain ⟨arrays, e⟩ := issuedTile_eq t w bad
  have store : (issuedTile t w bad).store = t.store := by rw [e]
  have casks : (issuedTile t w bad).casks = t.casks := by rw [e]
  have counters : (issuedTile t w bad).counters = t.counters := by rw [e]
  have index : (issuedTile t w bad).seq.index = t.seq.index + 1 := by rw [e]; unfold retiredTile goneTile; rfl
  have h := entered_enteredTile good (getF w pass_array) (passOf t w bad) n (issuedTile t w bad)
  have arr := arrOf_issuedTile t w bad
  generalize issuedTile t w bad = v at *
  generalize enteredTile (getF w pass_array) (passOf t w bad) r n v = u at h
  refine ⟨?_, ?_, ?_, ?_, fun empty => ?_⟩
  · rw [← index, ← h.flow.seq]; rfl
  · rw [← counters, ← h.flow.counters]; rfl
  · rw [← store, ← h.store]; rfl
  · rw [← store, ← casks, ← h.casks]; rfl
  · have same : arrOf (markedTile now x u) (getF w pass_array) = arrOf u (getF w pass_array) :=
      arrOf_congr (by unfold markedTile; rfl) (by unfold markedTile; rfl) _
    rw [same, h.arr, arr, empty]
    simp

end

namespace PassFlow
variable {t u : Tile} {w : Word} {bad : Option Nat} {r : PassRun} {n : Nat} (h : PassFlow t w bad r n u) (small : n ≤ 256)
include h small

theorem line {i c : Nat} (hi : i < n) (hcol : c ∈ maskBits (arrDepth (getF w pass_array)) (passOf t w bad).colMask) :
    caskLine u (firstCask (getF w pass_array) + c) i =
      takeParts (caskLine t (firstCask (getF w pass_array) + c) i) r.mode.kind false (partialsOf t.store r i c) := by
  unfold caskLine
  rw [h.casks]
  exact get_takenCasks (deliveryKey _) _ (nodup_deliveryKeys _ (nodup_maskBits ..) small)
    (List.mem_product.2 ⟨List.mem_range.2 hi, hcol⟩ : (i, c) ∈ deliveries _ n) t.casks

theorem other {x i : Nat} (low : i < 256) (out : x < firstCask (getF w pass_array) ∨
    x - firstCask (getF w pass_array) ∉ maskBits (arrDepth (getF w pass_array)) (passOf t w bad).colMask ∨ n ≤ i) :
    caskLine u x i = caskLine t x i := by
  unfold caskLine
  rw [h.casks]
  exact get_takenCasks_other _ _ (not_mem_deliveryKeys _ small low out) t.casks

end PassFlow

namespace State

section
variable {s : State} {tl : TileRef} {w : Word} {mask : Option MaskAt} (hi : Issues s tl .pass w) (legal : badPass w = false)
  (unmasked : allMasked s.tensors mask = false)
include hi legal unmasked

theorem pass_full (full : 2 ≤ (arrOf (s.tile tl) (getF w pass_array)).passes.length) (bad : Option Nat) :
    s.pass tl mask bad = s.hold tl stallFull := by
  unfold pass
  rw [issue_issues hi]
  simp only [legal, unmasked, full, decide_true, Bool.false_eq_true, if_false, if_true]

theorem pass_awaits (room : (arrOf (s.tile tl) (getF w pass_array)).passes.length < 2) {b : Option Nat}
    (busy : (passOf (s.tile tl) w b).idle = false) (rows : (passOf (s.tile tl) w b).rowMask ≠ 0)
    (dry : streamFor (s.tile tl) w = none) (bad : Option Nat) :
    s.pass tl mask bad = s.hold tl stallLoader := by
  have busy' : (passOf (s.tile tl) w bad).idle = false := busy
  unfold pass
  rw [issue_issues hi]
  unfold passOf at busy' rows
  simp only [legal, unmasked, Nat.not_le.2 room, busy', rows, dry, Option.isNone_none, ne_eq, not_false_eq_true, and_self,
    decide_false, Bool.false_eq_true, if_false, if_true]

theorem pass_idle (room : (arrOf (s.tile tl) (getF w pass_array)).passes.length < 2) {b : Option Nat}
    (idle : (passOf (s.tile tl) w b).idle = true) (stays : flagF w pass_swap = false) (bad : Option Nat) :
    s.pass tl mask bad = s.finish tl w := by
  have idle' : (passOf (s.tile tl) w bad).idle = true := idle
  unfold pass
  rw [issue_issues hi]
  unfold passOf at idle'
  simp only [legal, unmasked, Nat.not_le.2 room, idle', stays, decide_false, Bool.false_eq_true, if_false, if_true]

theorem pass_enters (hc : Canonical s) (empty : (arrOf (s.tile tl) (getF w pass_array)).passes = []) (stays : flagF w pass_swap = false)
    {b : Option Nat} (busy : (passOf (s.tile tl) w b).idle = false) (fed : (streamFor (s.tile tl) w).isSome = true) (bad : Option Nat) :
    s.pass tl mask bad =
      (retiredTo s tl (issuedTile (s.tile tl) w bad)).enter tl (getF w pass_array) (passOf (s.tile tl) w bad) := by
  have busy' : (passOf (s.tile tl) w bad).idle = false := busy
  have dry : (streamFor (s.tile tl) w).isNone = false := by rw [Option.isNone_eq_false_iff, fed]
  have retires : (s.retire tl).onTile tl (withPass (getF w pass_array) (passOf (s.tile tl) w bad)) =
      retiredTo s tl (issuedTile (s.tile tl) w bad) := by
    have h := retire_setTile hc tl (s.tile tl) ⟨rfl, rfl, rfl, hi.own⟩
    rw [setTile_tile hc] at h
    rw [h, onTile, tile_setTile_same, setTile_setTile (tiles_endWait hc tl)]
    rfl
  rw [← retires]
  unfold pass
  rw [issue_issues hi]
  unfold passOf at busy' ⊢
  simp only [legal, unmasked, empty, busy', dry, stays, mayEnter, List.length_nil, List.all_nil, Bool.not_false, Bool.and_self,
    Nat.le_zero_eq, OfNat.ofNat_ne_zero, and_false, decide_false, Bool.false_eq_true, if_false, if_true]
  rfl

end

/-! ## S12 takes over, or the array is lost (R51, R52) -/

theorem substitute_tile (s : State) (tl : TileRef) (k : Nat) : ∃ arrays, (s.substitute tl k).tile tl =
      { s.tile tl with arrays := arrays, status := setF (setF (s.tile tl).status tileStatus_s12For k) tileStatus_faultCode 1 } ∧
    (Sparse.get Arr.reset arrays k).failed = true := by
  unfold substitute tileFault onTile
  simp only [if_true, tile_setTile_same]
  exact ⟨_, rfl, by rw [Sparse.get_set_same]⟩

theorem arrayLost_faults (s : State) (tl : TileRef) (k : Nat) : ∃ s', FaultsTile s' tl 2 (s.arrayLost tl k) :=
  ⟨_, tileFault_faultsTile _ tl (by decide)⟩

section
variable {s : State} {tl : TileRef} {w : Word} {r : PassRun} (hc : Canonical s) (good : r.pattern = 1 → r.set.badGroups = [])
include hc good

/-- The first n vectors flow on a tile whose PASS has just retired. -/
theorem flowed_issued (bad : Option Nat) (n : Nat) : ∃ u,
    (retiredTo s tl (issuedTile (s.tile tl) w bad)).flowed tl (getF w pass_array) (passOf (s.tile tl) w bad) r n = retiredTo s tl u ∧
      PassFlow (s.tile tl) w bad r n u :=
  ⟨_, flowed_retiredTo hc .., passFlow_enteredTile _ _ _ good ..⟩

variable (run : passRun (s.tile tl) (passOf (s.tile tl) w none) = some r) (room : loadTop r.l (passM w) r.nb (topFires r) ≤ storeBytes)
include run room

theorem issued_enters_clean : ∃ u, (retiredTo s tl (issuedTile (s.tile tl) w none)).enter tl (getF w pass_array) (passOf (s.tile tl) w none) =
    retiredTo s tl u ∧ PassFlow (s.tile tl) w none r (passM w) u := by
  obtain ⟨u, e, h⟩ := flowed_issued (tl := tl) (w := w) hc good none (passM w)
  refine ⟨u, (enter_clean ?_ room good rfl).trans e, h⟩
  rw [tile_retiredTo_same, passRun_issuedTile _ _ _ none, run]

variable {v : Nat} (low : v < passM w) (residue : r.mode.residue = true)
include low residue

theorem issued_enters_substitutes (k12 : getF w pass_array < 12) (free : s12Free s tl = true) : ∃ u,
    (retiredTo s tl (issuedTile (s.tile tl) w (some v))).enter tl (getF w pass_array) (passOf (s.tile tl) w (some v)) =
      (retiredTo s tl u).substitute tl (getF w pass_array) ∧ PassFlow (s.tile tl) w (some v) r (passM w) u := by
  obtain ⟨u, e, h⟩ := flowed_issued (tl := tl) (w := w) hc good (some v) (passM w)
  refine ⟨u, (enter_substitutes ?_ room good rfl low residue k12 ?_).trans (congrArg (fun x => substitute x tl _) e), h⟩
  · rw [tile_retiredTo_same, passRun_issuedTile _ _ _ none, run]
  · rw [s12Free_retiredTo s tl (map_issuedTile ..) (s12For_issuedTile ..), free]

omit hc in
theorem issued_enters_loses (lost : getF w pass_array = 12 ∨ s12Free s tl = false) : ∃ s', FaultsTile s' tl 2
    ((retiredTo s tl (issuedTile (s.tile tl) w (some v))).enter tl (getF w pass_array) (passOf (s.tile tl) w (some v))) := by
  rw [enter_loses (r := r) (v := v) (by rw [tile_retiredTo_same, passRun_issuedTile _ _ _ none, run]) room good rfl low residue
    (by rwa [s12Free_retiredTo s tl (map_issuedTile ..) (s12For_issuedTile ..)])]
  exact arrayLost_faults ..

end
end State

/-- Settles O12: the pass waits, only advances, or enters, and then the partials of its vectors are folded into distinct lines; a vector
that the residue check rejects moves the array's work to S12, or the tile is lost. -/
theorem passDelivers : Obligations.PassDelivers := by
  unfold Obligations.PassDelivers
  intro s tl w r mask hc hi
  dsimp only
  intro legal unmasked
  obtain ⟨-, small⟩ := legal_pass legal
  refine ⟨fun bad full => ?full, fun bad two busy rows dry => ?dry, fun bad two idle stays fit => ?idle,
    fun empty stays busy _ run room good fed => ⟨?clean, fun v low residue k12 free => ?moves, fun v low residue lost => ?lost⟩⟩
  case full =>
    obtain ⟨u, e, h⟩ := State.hold_waits hc tl State.stallFull
    exact ⟨u, congrArg Host.Outcome.next ((State.pass_full hi legal unmasked full bad).trans e), h⟩
  case dry =>
    obtain ⟨u, e, h⟩ := State.hold_waits hc tl State.stallLoader
    exact ⟨u, congrArg Host.Outcome.next ((State.pass_awaits hi legal unmasked two (b := none) busy rows dry bad).trans e), h⟩
  case idle =>
    obtain ⟨u, state, adv, same, store, -⟩ := State.finish_self hc hi.own fit
    exact ⟨u, congrArg Host.Outcome.next ((State.pass_idle hi legal unmasked two (b := none) idle stays bad).trans state), adv, same, store⟩
  case clean =>
    have enters := State.pass_enters hi legal unmasked hc empty stays (b := none) busy fed none
    obtain ⟨u, e, h⟩ := State.issued_enters_clean hc good run room
    refine ⟨u, congrArg Host.Outcome.next (enters.trans e), h.index, fun i hlt c hcol => h.line small hlt hcol,
      fun x i i256 out => h.other small i256 out, h.store, h.counters, ?_, ?_, ?_⟩ <;> rw [h.arr empty]
    rfl
  case moves =>
    have enters := State.pass_enters hi legal unmasked hc empty stays (b := none) busy fed (some v)
    obtain ⟨u, e, h⟩ := State.issued_enters_substitutes hc good run room low residue k12 free
    obtain ⟨arrays, tile, failed⟩ := State.substitute_tile (retiredTo s tl u) tl (getF w pass_array)
    rw [State.tile_retiredTo_same] at tile
    refine ⟨_, congrArg Host.Outcome.next (enters.trans e), ?_, ?_, ?_, ?_, fun i hlt c hcol => ?_⟩
    · rw [tile]; dsimp only
      rw [getF_setF_beside (by decide), getF_setF _ ⟨by decide, by decide⟩]
      exact Nat.mod_eq_of_lt (k12.trans (by decide))
    · rw [tile]; dsimp only
      rw [getF_setF _ ⟨by decide, by decide⟩]; rfl
    · rw [tile]; exact h.store
    · rw [tile]; exact failed
    · have same : ∀ x, caskLine ((State.substitute (retiredTo s tl u) tl (getF w pass_array)).tile tl) x i = caskLine u x i := fun x => by
        rw [tile]; unfold caskLine; rfl
      rw [same]
      exact h.line small hlt hcol
  case lost =>
    have enters := State.pass_enters hi legal unmasked hc empty stays (b := none) busy fed (some v)
    obtain ⟨s', ft⟩ := State.issued_enters_loses good run room low residue lost
    rw [← enters] at ft
    exact ⟨_, rfl, ft.faultCode (by decide), ft.halted, ft.check⟩

end Sys2Proof.Machine

/-!
PROOFS. SWAP and PASS_DRAINED (R76, R77, R80, R88).
-/
namespace Sys2Proof.Machine

/-! ## A state in which an array keeps its sets -/

/-- From `s` to `s'` only the tile `tl` and the job have changed, the tile not in its store and its array k in its passes alone. -/
structure SetsStay (tl : TileRef) (k : Nat) (s s' : State) : Prop where
  frame : s' = { s with tiles := s'.tiles, job := s'.job }
  others : ∀ u, tkey u ≠ tkey tl → s'.tile u = s.tile u
  store : (s'.tile tl).store = (s.tile tl).store
  arr : ∃ ps, arrOf (s'.tile tl) k = { arrOf (s.tile tl) k with passes := ps }

namespace SetsStay
variable {tl : TileRef} {k : Nat} {s s' s'' : State}

theorem refl (tl : TileRef) (k : Nat) (s : State) : SetsStay tl k s s := ⟨rfl, fun _ _ => rfl, rfl, _, rfl⟩

theorem trans (a : SetsStay tl k s s') (b : SetsStay tl k s' s'') : SetsStay tl k s s'' := by
  obtain ⟨ps, ea⟩ := a.arr
  obtain ⟨qs, eb⟩ := b.arr
  exact ⟨b.frame.trans (congrArg (fun x : State => { x with tiles := s''.tiles, job := s''.job }) a.frame),
    fun u hu => (b.others u hu).trans (a.others u hu), b.store.trans a.store, qs, by rw [eb, ea]⟩

theorem setTile {t : Tile} (store : t.store = (s.tile tl).store) {ps : List PassOp}
    (arr : arrOf t k = { arrOf (s.tile tl) k with passes := ps }) : SetsStay tl k s (s.setTile tl t) where
  frame := rfl
  others _ hu := State.tile_setTile_other s t hu
  store := by rw [State.tile_setTile_same, store]
  arr := ⟨ps, by rw [State.tile_setTile_same, arr]⟩

theorem touch (tl : TileRef) (k : Nat) (s : State) (x : Nat) : SetsStay tl k s (s.touch tl x) :=
  .setTile (t := markedTile s.now x (s.tile tl)) rfl (ps := (arrOf (s.tile tl) k).passes) (arrOf_congr rfl rfl k)

theorem failBit (tl : TileRef) (k : Nat) (s : State) (f : Field) : SetsStay tl k s (s.failBit f) := ⟨rfl, fun _ _ => rfl, rfl, _, rfl⟩

end SetsStay

theorem s12For_faultedTile (code : Nat) (t : Tile) :
    getF (faultedTile code t).status tileStatus_s12For = getF t.status tileStatus_s12For := by
  unfold faultedTile
  dsimp only
  rw [getF_setF_beside (by decide), getF_setF_beside (by decide)]

theorem FaultsTile.setsStay {s s' : State} {tl : TileRef} {code : Nat} (h : FaultsTile s tl code s') (k : Nat) : SetsStay tl k s s' := by
  have arr : arrOf (faultedTile code (s.tile tl)) k = arrOf (s.tile tl) k :=
    arrOf_congr (by unfold faultedTile; rfl) (s12For_faultedTile ..) k
  exact ⟨h.frame, h.others, h.store, (arrOf (s.tile tl) k).passes, by rw [h.tile, arr]⟩

/-! ## Passes that enter whatever their sets hold (R50, R88) -/

/-- A delivery changes casks and numeric flags alone, malformed groups or none. -/
theorem deliver_frame (t : Tile) (k : Nat) (r : PassRun) (cols : List Nat) (m : Nat) :
    ∃ flags casks, deliver t k r cols m = { t with numFlags := flags, casks := casks } := by
  have fold : ∀ (g : Nat × Nat → Tile → Line) (l : List (Nat × Nat)) (u : Tile), ∃ casks,
      l.foldl (fun u ic => setCaskLine u (firstCask k + ic.2) ic.1 (g ic u)) u = { u with casks := casks } := by
    intro g l
    induction l with
    | nil => exact fun u => ⟨u.casks, rfl⟩
    | cons x l ih =>
      intro u
      obtain ⟨casks, e⟩ := ih (setCaskLine u (firstCask k + x.2) x.1 (g x u))
      exact ⟨casks, e.trans rfl⟩
  unfold deliver
  dsimp only
  obtain ⟨casks, e⟩ := fold (fun ic u => takeParts (caskLine u (firstCask k + ic.2) ic.1) r.mode.kind
    (r.set.badGroups.any (fun g => g.1 == ic.2) && r.pattern == 1) (partialsOf t.store r ic.1 ic.2))
    ((List.range m).flatMap fun i => cols.map fun c => (i, c)) t
  rw [e]
  obtain ⟨flags, e'⟩ := overflowed_eq _ { t with casks := casks }
  exact ⟨flags, casks, e'⟩

/-- The malformed groups that a pass counts at its columns (R240). -/
def metaBad (r : PassRun) (cols : List Nat) : Nat :=
  if r.pattern = 1 then ((r.set.badGroups.filter (fun g => cols.contains g.1)).map (·.2)).sum else 0

/-- A tile whose array k has taken in the pass, its vectors and its malformed groups. -/
def takenInTile (k : Nat) (p : PassOp) (r : PassRun) (t : Tile) : Tile :=
  let t := deliver t k r (maskBits (arrDepth k) p.colMask) (passM p.word)
  let t := setArr t k { arrOf t k with passes := (arrOf t k).passes.map (fun q => if q = p then { q with entered := true } else q) }
  { t with sparseCtl := bumpF t.sparseCtl sparseCtl_metaBad (metaBad r (maskBits (arrDepth k) p.colMask)) }

theorem store_takenInTile (k : Nat) (p : PassOp) (r : PassRun) (t : Tile) : (takenInTile k p r t).store = t.store := by
  obtain ⟨flags, casks, e⟩ := deliver_frame t k r (maskBits (arrDepth k) p.colMask) (passM p.word)
  unfold takenInTile
  rw [e]
  rfl

theorem arrOf_takenInTile (k : Nat) (p : PassOp) (r : PassRun) (t : Tile) : arrOf (takenInTile k p r t) k =
    { arrOf t k with passes := (arrOf t k).passes.map (fun q => if q = p then { q with entered := true } else q) } := by
  obtain ⟨flags, casks, e⟩ := deliver_frame t k r (maskBits (arrDepth k) p.colMask) (passM p.word)
  have arr : arrOf (deliver t k r (maskBits (arrDepth k) p.colMask) (passM p.word)) k = arrOf t k := arrOf_congr (by rw [e]) (by rw [e]) k
  unfold takenInTile
  generalize deliver t k r (maskBits (arrDepth k) p.colMask) (passM p.word) = u at arr
  rw [← arr]
  exact (arrOf_congr (by unfold setArr; rfl) (by unfold setArr; rfl) k).trans (arrOf_setArr_same u k _)

namespace State

theorem onTile_takenInTile_setsStay (s : State) (tl : TileRef) (k : Nat) (p : PassOp) (r : PassRun) :
    SetsStay tl k s (s.onTile tl (takenInTile k p r)) :=
  .setTile (store_takenInTile ..) (arrOf_takenInTile ..)

/-- A pass that the residue check lets by leaves the store and the sets of its array, whether it enters, cannot run or reads beyond
the store. -/
theorem enter_setsStay {p : PassOp} (clean : p.bad = none) (s : State) (tl : TileRef) (k : Nat) : SetsStay tl k s (s.enter tl k p) := by
  cases run : passRun (s.tile tl) p with
  | none =>
    unfold enter
    simp only [run]
    exact .refl ..
  | some r =>
    have taken := onTile_takenInTile_setsStay s tl k p r
    have enters : s.enter tl k p =
        if decide (storeBytes < (if maskBits (arrDepth k) p.colMask = [] then 0 else loadTop r.l (passM p.word) r.nb (topFires r)))
        then s.tileFault tl 9
        else (if metaBad r (maskBits (arrDepth k) p.colMask) = 0 then s.onTile tl (takenInTile k p r)
          else (s.onTile tl (takenInTile k p r)).failBit stepCheckStatus_meta).touch tl (physArray (s.tile tl) k) := by
      unfold enter
      simp only [run, clean]
      rfl
    rw [enters]
    refine iteInduction (fun _ => (tileFault_faultsTile s tl (by decide)).setsStay k) (fun _ => .trans ?_ (.touch ..))
    split
    · exact taken
    · exact taken.trans (.failBit ..)

end State

/-! ## What a SWAP makes of its array (R77, R80) -/

/-- A tile whose array k has exchanged its sets and holds the passes `ps`. -/
def swappedTile (k : Nat) (ps : List PassOp) (t : Tile) : Tile :=
  setArr t k { arrOf t k with active := (arrOf t k).shadow, shadow := (arrOf t k).active, untaken := false, passes := ps }

theorem arrOf_swappedTile (k : Nat) (ps : List PassOp) (t : Tile) : arrOf (swappedTile k ps t) k =
    { arrOf t k with active := (arrOf t k).shadow, shadow := (arrOf t k).active, untaken := false, passes := ps } :=
  arrOf_setArr_same ..

namespace State

theorem enterHead_empty {s : State} {tl : TileRef} {k : Nat} (h : (arrOf (s.tile tl) k).passes = []) : s.enterHead tl k = s := by
  unfold enterHead
  rw [h]

theorem enterHead_enters {s : State} {tl : TileRef} {k : Nat} {q : PassOp} {r : List PassOp} (h : (arrOf (s.tile tl) k).passes = q :: r)
    (waits : q.entered = false) (stays : flagF q.word pass_swap = false) : s.enterHead tl k = s.enter tl k q := by
  unfold enterHead
  simp only [h, waits, stays, Bool.or_self, Bool.false_eq_true, if_false]

section
variable {s : State} {tl : TileRef} {k : Nat} {p : PassOp} {rest : List PassOp} (oldest : (arrOf (s.tile tl) k).passes = p :: rest)
include oldest

theorem swap_incomplete (partly : (arrOf (s.tile tl) k).complete = false) : s.swap tl k = s := by
  unfold swap
  simp only [oldest, partly, Bool.not_false, Bool.or_true, Bool.true_or, if_true]

variable (runs : s.unitsRun tl = true)
include runs

/-- A drained array whose oldest pass asks for a complete shadow set takes it. -/
theorem swap_takes (waits : p.entered = false) (asks : flagF p.word pass_swap = true) (complete : (arrOf (s.tile tl) k).complete = true) :
    s.swap tl k = if p.idle then (s.setTile tl (swappedTile k rest (s.tile tl))).enterHead tl k
      else (s.setTile tl (swappedTile k (p :: rest) (s.tile tl))).enter tl k p := by
  unfold swap
  cases idle : p.idle <;>
    simp only [oldest, waits, asks, complete, runs, idle, onTile, swappedTile, Bool.not_true, Bool.or_self, Bool.false_eq_true, if_false,
      if_true]

end
end State

/-! ## What PASS_DRAINED makes of its tile (R76) -/

theorem arrOf_doneTile (now : Nat) (w : Word) (t : Tile) (j : Nat) : arrOf (doneTile now w t) j = arrOf t j :=
  arrOf_congr (sameButStore_doneTile ..).arrays (by rw [status_doneTile]) j

/-- An array written with its own active set leaves every array's. -/
theorem active_setArr (t : Tile) (k : Nat) {a : Arr} (h : a.active = (arrOf t k).active) (j : Nat) :
    (arrOf (setArr t k a) j).active = (arrOf t j).active := by
  have phys : physArray (setArr t k a) j = physArray t j := rfl
  by_cases e : physArray t j = physArray t k
  · have same : arrOf (setArr t k a) j = a := by unfold arrOf; rw [phys, e]; exact Sparse.get_set_same ..
    have before : arrOf t j = arrOf t k := by unfold arrOf; rw [e]
    rw [same, before, h]
  · have other : arrOf (setArr t k a) j = arrOf t j := by unfold arrOf; rw [phys]; exact Sparse.get_set_other _ _ _ e
    rw [other]

/-- A tile whose array k has let the pass of `w` go, which then counts, and still holds the passes `rest`. -/
def drainedTile (now k : Nat) (w : Word) (rest : List PassOp) (t : Tile) : Tile :=
  doneTile now w (setArr t k { arrOf t k with passes := rest })

section
variable (now k : Nat) (w : Word) (rest : List PassOp) (t : Tile)

theorem counter_drainedTile (j : Nat) : counter (drainedTile now k w rest t) j = counter t j + adds w j :=
  counter_doneTile ..

theorem seq_drainedTile : (drainedTile now k w rest t).seq = t.seq := seq_doneTile ..

theorem store_drainedTile : (drainedTile now k w rest t).store = t.store := store_doneTile ..

theorem casks_drainedTile : (drainedTile now k w rest t).casks = t.casks := (sameButStore_doneTile ..).casks

theorem arrOf_drainedTile : arrOf (drainedTile now k w rest t) k = { arrOf t k with passes := rest } :=
  (arrOf_doneTile ..).trans (arrOf_setArr_same ..)

/-- The pass behind works from what it would have worked from before. -/
theorem passRun_drainedTile (q : PassOp) : passRun (drainedTile now k w rest t) q = passRun t q := by
  have same : SameButStore (setArr t k { arrOf t k with passes := rest }) (drainedTile now k w rest t) := sameButStore_doneTile ..
  refine passRun_congr ?_ ?_ ?_ rfl rfl ?_
  · exact (congrArg Tile.loaderA same :)
  · exact (congrArg Tile.loaderB same :)
  · exact (congrArg Tile.fmt same :)
  · unfold drainedTile
    rw [arrOf_doneTile]
    exact active_setArr t k (a := { arrOf t k with passes := rest }) rfl _

end

namespace Entered
variable {k n : Nat} {p : PassOp} {r : PassRun} {t u : Tile} (h : Entered k p r n t u)
include h

theorem line (small : n ≤ 256) {i c : Nat} (hi : i < n) (hcol : c ∈ maskBits (arrDepth k) p.colMask) :
    caskLine u (firstCask k + c) i = takeParts (caskLine t (firstCask k + c) i) r.mode.kind false (partialsOf t.store r i c) := by
  unfold caskLine
  rw [h.casks]
  exact get_takenCasks (deliveryKey k) _ (nodup_deliveryKeys k (nodup_maskBits ..) small)
    (List.mem_product.2 ⟨List.mem_range.2 hi, hcol⟩ : (i, c) ∈ deliveries _ n) t.casks

theorem alone (one : (arrOf t k).passes = [p]) : (arrOf u k).passes = [{ p with entered := true }] := by
  rw [h.arr, one, List.map_singleton, if_pos rfl]

theorem marked (now x : Nat) : Entered k p r n t (markedTile now x u) :=
  ⟨h.flow.marked now x, h.store, h.casks, (arrOf_congr rfl rfl k).trans h.arr⟩

end Entered

namespace State

theorem flowed_setTile {s : State} (hc : Canonical s) (tl : TileRef) (t : Tile) (k : Nat) (p : PassOp) (r : PassRun) (n : Nat) :
    (s.setTile tl t).flowed tl k p r n = s.setTile tl (markedTile s.now (physArray t k) (enteredTile k p r n t)) := by
  unfold flowed
  rw [onTile_setTile hc, touch_setTile hc, tile_setTile_same]

/-- The oldest pass drained leaves its array, counts, and the head of what is left may enter. -/
theorem passDrained_eq {s : State} (hc : Canonical s) {tl : TileRef} {k : Nat} {p : PassOp} {rest : List PassOp}
    (oldest : (arrOf (s.tile tl) k).passes = p :: rest) (runs : s.unitsRun tl = true) (entered : p.entered = true)
    (fit : CountsFit (s.tile tl) p.word) :
    s.passDrained tl k = (s.setTile tl (drainedTile s.now k p.word rest (s.tile tl))).enterHead tl k := by
  have counts := syncDone_setTile hc.tiles tl (setArr (s.tile tl) k { arrOf (s.tile tl) k with passes := rest }) (fit.own fun _ => rfl)
  unfold passDrained drainedTile
  rw [← counts]
  simp only [oldest, entered, runs, Bool.not_true, Bool.or_self, Bool.false_eq_true, if_false]
  rfl

end State

/-- Settles O13: a taken swap writes the exchanged sets before its pass enters, which touches neither; a drained pass leaves, counts, and the
one behind enters on what is left. -/
theorem swapAndDrained : Obligations.SwapAndDrained := by
  unfold Obligations.SwapAndDrained
  intro s tl k p rest hc
  dsimp only
  intro oldest runs
  refine ⟨fun waits asks complete => ⟨fun busy clean => ?enters, fun idle last => ?idle⟩, fun _ partly => ?partly,
    fun entered last fit => ?retires, fun q r entered behind waits stays clean _ small fit run room good => ?next⟩
  case enters =>
    have takes := State.swap_takes oldest runs waits asks complete
    rw [busy, if_neg Bool.false_ne_true] at takes
    have stay := State.enter_setsStay clean (s.setTile tl (swappedTile k (p :: rest) (s.tile tl))) tl k
    rw [← takes] at stay
    obtain ⟨frame, others, store, ps, arr⟩ := stay
    rw [State.tile_setTile_same] at store arr
    rw [arrOf_swappedTile] at arr
    exact ⟨_, rfl, by rw [arr], by rw [arr], by rw [arr], store, frame,
      fun u hu => (others u hu).trans (State.tile_setTile_other s _ hu)⟩
  case idle =>
    have takes := State.swap_takes oldest runs waits asks complete
    have arr := arrOf_swappedTile k rest (s.tile tl)
    rw [idle, if_pos rfl, State.enterHead_empty (by rw [State.tile_setTile_same, arr, last])] at takes
    exact ⟨_, congrArg Host.Outcome.next takes, by rw [arr], by rw [arr], by rw [arr], by rw [arr, last], rfl, rfl⟩
  case partly => exact congrArg Host.Outcome.next (State.swap_incomplete oldest partly)
  case retires =>
    have drains := State.passDrained_eq hc oldest runs entered fit
    have arr := arrOf_drainedTile s.now k p.word rest (s.tile tl)
    rw [State.enterHead_empty (by rw [State.tile_setTile_same, arr, last])] at drains
    exact ⟨_, congrArg Host.Outcome.next drains, by rw [arr, last], fun _ => counter_drainedTile .., seq_drainedTile .., store_drainedTile ..,
      casks_drainedTile ..⟩
  case next =>
    have drains := State.passDrained_eq hc oldest runs entered fit
    have arr := arrOf_drainedTile s.now k p.word rest (s.tile tl)
    have behind' : (arrOf (drainedTile s.now k p.word rest (s.tile tl)) k).passes = [q] := by rw [arr, behind]
    rw [State.enterHead_enters (by rw [State.tile_setTile_same, behind']) waits stays,
      State.enter_clean (by rw [State.tile_setTile_same, passRun_drainedTile, run]) room good clean, State.flowed_setTile hc] at drains
    have h := (entered_enteredTile good k q (passM q.word) (drainedTile s.now k p.word rest (s.tile tl))).marked s.now
      (physArray (drainedTile s.now k p.word rest (s.tile tl)) k)
    refine ⟨_, congrArg Host.Outcome.next drains, h.alone behind', fun j => ?_, ?_, ?_, fun i hi c hcol => ?_⟩
    · rw [h.flow.counter, counter_drainedTile]
    · rw [h.flow.seq, seq_drainedTile]
    · rw [h.store, store_drainedTile]
    · rw [h.line small hi hcol, store_drainedTile]
      unfold caskLine
      rw [casks_drainedTile]

end Sys2Proof.Machine

/-!
PROOFS. Packed casks: the header and the words that the packer writes for a line, and the record read back (R138 to R141).
-/
namespace Sys2Proof.Machine

/-! ## The header of a record (R138, R139) -/

/-- The code of a kind in a header. -/
def CaskKind.packCode : CaskKind → Nat
  | .sum => 0
  | .min => 1
  | .max => 2

/-- The flags and the kind of a line in its header. -/
def packFlags (l : Line) : Nat :=
  bit l.nan * 2 ^ 21 + bit l.pinf * 2 ^ 22 + bit l.ninf * 2 ^ 23 + bit l.ovf * 2 ^ 24 + l.kind.packCode * 2 ^ 25 + bit l.empty * 2 ^ 27

/-- The offset of a record whose words begin at word `lo` of the value. -/
def packOffset (lo : Nat) : Nat := (64 * lo + 65536 - 300) % 65536

/-- The header of a record of `n` words from word `lo` on. -/
def packHeader (l : Line) (lo n : Nat) : Nat := packFlags l + n * 2 ^ 16 + packOffset lo

/-- The n words of a value from word lo on. -/
def caskWords (v : CaskWord) (lo n : Nat) : List Nat := (List.range n).map (fun i => caskWordAt v (lo + i))

/-- How many words the packer writes for a nonzero value. -/
def packSpan (v : CaskWord) : Nat := packHi v (packLo v) - packLo v + 1

theorem packHeader_zero (l : Line) : packHeader l 0 0 = packFlags l + packOffset 0 := by
  unfold packHeader; rw [Nat.zero_mul, Nat.add_zero]

section
variable {l : Line} (hk : l.empty = true → l.kind = .sum)
include hk

theorem packLine_zero (h : l.value = 0) : packLine l = packHeader l 0 0 :: caskWords l.value 0 0 := by
  obtain ⟨v, nan, pinf, ninf, ovf, kind, empty⟩ := l
  unfold packLine
  rw [if_pos h, packHeader_zero, show packOffset 0 = 0xfed4 by decide]
  cases empty with
  | true => obtain rfl : kind = .sum := hk rfl; rfl
  | false => cases kind <;> rfl

theorem packLine_nonzero (h : l.value ≠ 0) :
    packLine l = packHeader l (packLo l.value) (packSpan l.value) :: caskWords l.value (packLo l.value) (packSpan l.value) := by
  obtain ⟨v, nan, pinf, ninf, ovf, kind, empty⟩ := l
  unfold packLine
  rw [if_neg h]
  cases empty with
  | true => obtain rfl : kind = .sum := hk rfl; rfl
  | false => cases kind <;> rfl

end

theorem bit_lt (b : Bool) : bit b < 2 := by cases b <;> decide

theorem packCode_lt (k : CaskKind) : k.packCode < 3 := by cases k <;> decide

theorem packOffset_lt (lo : Nat) : packOffset lo < 65536 := Nat.mod_lt _ (by decide)

theorem testBit_of_bit {x k : Nat} {b : Bool} (h : x / 2 ^ k % 2 = bit b) : x.testBit k = b := by
  rw [Nat.testBit_eq_decide_div_mod_eq, h]
  cases b <;> rfl

/-- What a header says. -/
structure HeaderOf (l : Line) (lo n h : Nat) : Prop where
  offset : h % 65536 = packOffset lo
  count : h / 2 ^ 16 % 16 = n
  long : h.testBit 20 = false
  nan : h.testBit 21 = l.nan
  pinf : h.testBit 22 = l.pinf
  ninf : h.testBit 23 = l.ninf
  ovf : h.testBit 24 = l.ovf
  kind : h / 2 ^ 25 % 4 = l.kind.packCode
  empty : h.testBit 27 = l.empty
  top : h / 2 ^ 28 = 0

theorem packHeader_headerOf (l : Line) {lo n : Nat} (hn : n < 16) : HeaderOf l lo n (packHeader l lo n) := by
  have hk := packCode_lt l.kind
  have ho := packOffset_lt lo
  have nan := bit_lt l.nan
  have pinf := bit_lt l.pinf
  have ninf := bit_lt l.ninf
  have ovf := bit_lt l.ovf
  have empty := bit_lt l.empty
  unfold packHeader packFlags
  constructor
  case long => exact testBit_of_bit (b := false) (by show _ = 0; omega)
  case nan | pinf | ninf | ovf | empty => exact testBit_of_bit (by omega)
  all_goals omega

/-! ## The value of a record (R139) -/

theorem caskWordAt_lt (v : CaskWord) (j : Nat) : caskWordAt v j < 2 ^ 64 := Nat.mod_lt _ (by decide)

/-- Words of a value in a row are the digits of what lies there. -/
theorem ofDigits_caskWords (v : CaskWord) (lo n : Nat) :
    Nat.ofDigits (2 ^ 64) (caskWords v lo n) = v.toNat / 2 ^ (64 * lo) % 2 ^ (64 * n) := by
  induction n with
  | zero => simp [caskWords, Nat.mod_one]
  | succ n ih =>
    have split : caskWords v lo (n + 1) = caskWords v lo n ++ [caskWordAt v (lo + n)] := by
      unfold caskWords; rw [List.range_succ, List.map_append]; rfl
    have length : (caskWords v lo n).length = n := by simp [caskWords]
    rw [split, Nat.ofDigits_append, ih, length, Nat.ofDigits_singleton, ← pow_mul, show 64 * (n + 1) = 64 * n + 64 by ring, pow_add,
      Nat.mod_mul, Nat.div_div_eq_div_mul, ← pow_add, ← mul_add]
    rfl

theorem ofDigits_replicate_top (b n : Nat) : Nat.ofDigits (b + 1) (List.replicate n b) + 1 = (b + 1) ^ n := by
  induction n with
  | zero => rfl
  | succ n ih =>
    rw [List.replicate_succ, Nat.ofDigits_cons, pow_succ, ← ih]
    ring

/-- Words that are all the same. -/
theorem caskWords_same {v : CaskWord} {lo n c : Nat} (h : ∀ j, lo ≤ j → j < lo + n → caskWordAt v j = c) :
    caskWords v lo n = List.replicate n c := by
  unfold caskWords
  refine List.eq_replicate_iff.2 ⟨by simp, fun x hx => ?_⟩
  obtain ⟨i, hi, rfl⟩ := List.mem_map.1 hx
  have := List.mem_range.1 hi
  exact h _ (by omega) (by omega)

/-- The words `lo` to `lo + n - 1` hold a value: those below are zero, those above the sign extension of the last. -/
structure Spans (v : CaskWord) (lo n : Nat) : Prop where
  some : 0 < n
  fits : lo + n ≤ 10
  below : ∀ j < lo, caskWordAt v j = 0
  above : ∀ j, lo + n ≤ j → j < 10 → caskWordAt v j = signExtWord v (lo + n - 1)

theorem caskRange : 2 ^ 640 = 2 ^ (64 * 10) := congrArg (2 ^ ·) (rfl : 640 = 64 * 10)

theorem caskWord_lt (v : CaskWord) : v.toNat < 2 ^ (64 * 10) := by
  have lt : ∀ {k : Nat} (x : BitVec k), x.toNat < 2 ^ k := fun x => x.isLt
  rw [← caskRange]
  exact lt v

theorem eq_zero_of_words {v : CaskWord} (h : ∀ j < 10, caskWordAt v j = 0) : v = 0 := by
  have zero := ofDigits_caskWords v 0 10
  rw [caskWords_same (c := 0) fun j _ hj => h j (by omega), Nat.ofDigits_replicate_zero, Nat.mul_zero, pow_zero, Nat.div_one,
    Nat.mod_eq_of_lt (caskWord_lt v)] at zero
  exact BitVec.eq_of_toNat_eq (zero.symm.trans BitVec.toNat_zero.symm)

theorem packLo_spec {v : CaskWord} (h : v ≠ 0) :
    packLo v < 10 ∧ ∀ j < packLo v, caskWordAt v j = 0 := by
  unfold packLo
  cases e : (List.range 10).find? (fun j => caskWordAt v j != 0) with
  | none =>
    rw [List.find?_eq_none] at e
    exact absurd (eq_zero_of_words fun j hj => by simpa using e j (List.mem_range.2 hj)) h
  | some lo =>
    obtain ⟨-, hlo, hbelow⟩ := List.find?_range_eq_some.1 e
    exact ⟨List.mem_range.1 hlo, fun j hj => by simpa using hbelow j hj⟩

theorem packHi_spec {v : CaskWord} {lo : Nat} (h : lo < 10) :
    lo ≤ packHi v lo ∧ packHi v lo < 10 ∧ ∀ j, packHi v lo < j → j < 10 → caskWordAt v j = signExtWord v (packHi v lo) := by
  unfold packHi
  cases e : (List.range 10).find? (fun j => decide (lo ≤ j) &&
      (List.range 10).all (fun i => decide (i ≤ j) || caskWordAt v i == signExtWord v j)) with
  | none => exact ⟨by simp; omega, by simp, fun j hj hj' => by simp at hj; omega⟩
  | some hi =>
    obtain ⟨found, hhi, -⟩ := List.find?_range_eq_some.1 e
    rw [Bool.and_eq_true, decide_eq_true_eq, List.all_eq_true] at found
    obtain ⟨ge, above⟩ := found
    refine ⟨ge, List.mem_range.1 hhi, fun j hj hj' => ?_⟩
    have := above j (List.mem_range.2 hj')
    rw [Option.getD_some] at hj ⊢
    simpa [Nat.not_le.2 hj] using this

theorem packed_spans {v : CaskWord} (h : v ≠ 0) : Spans v (packLo v) (packSpan v) := by
  obtain ⟨low, below⟩ := packLo_spec h
  obtain ⟨ge, high, above⟩ := packHi_spec (v := v) low
  have last : packLo v + packSpan v = packHi v (packLo v) + 1 := by unfold packSpan; omega
  refine ⟨Nat.succ_pos _, by omega, below, fun j hj hj' => ?_⟩
  rw [last, Nat.add_sub_cancel]
  exact above j (by omega) hj'

/-- The integer that a span stands for, in units of its lowest word. -/
def spanInt (v : CaskWord) (lo n : Nat) : Int :=
  if caskWordAt v (lo + n - 1) / 2 ^ 63 = 1 then ((Nat.ofDigits (2 ^ 64) (caskWords v lo n) : Nat) : Int) - (2 ^ (64 * n) : Nat)
  else (Nat.ofDigits (2 ^ 64) (caskWords v lo n) : Nat)

/-- What a span leaves out of a value is zeros below it and copies of its sign word above it. -/
theorem Spans.toNat_eq {v : CaskWord} {lo n k : Nat} (h : Spans v lo n) (hk : lo + n + k = 10) : v.toNat = 2 ^ (64 * lo) *
    (Nat.ofDigits (2 ^ 64) (caskWords v lo n) + 2 ^ (64 * n) * Nat.ofDigits (2 ^ 64) (List.replicate k (signExtWord v (lo + n - 1)))) := by
  have low : v.toNat % 2 ^ (64 * lo) = 0 := by
    have below := ofDigits_caskWords v 0 lo
    rwa [caskWords_same (c := 0) fun j _ hj => h.below j (by omega), Nat.ofDigits_replicate_zero, Nat.mul_zero, pow_zero, Nat.div_one,
      eq_comm] at below
  have high : v.toNat / (2 ^ (64 * lo) * 2 ^ (64 * n)) < 2 ^ (64 * k) :=
    Nat.div_lt_of_lt_mul (by rw [← pow_add, ← pow_add, ← mul_add, ← mul_add, hk]; exact caskWord_lt v)
  have top := ofDigits_caskWords v (lo + n) k
  rw [caskWords_same (c := signExtWord v (lo + n - 1)) fun j hj hj' => h.above j hj (by omega), mul_add, pow_add, Nat.mod_eq_of_lt high] at top
  rw [ofDigits_caskWords, top, ← Nat.div_div_eq_div_mul, Nat.mod_add_div, Nat.mul_div_cancel' (Nat.dvd_of_mod_eq_zero low)]

/-- A span's integer, at the place of its words, is the value but for the weight of the sign. -/
theorem spanInt_mul {v : CaskWord} {lo n : Nat} (h : Spans v lo n) :
    ∃ c : Int, spanInt v lo n * 2 ^ (64 * lo) = v.toNat + (2 ^ (64 * 10) : Nat) * c := by
  obtain ⟨k, hk⟩ : ∃ k, lo + n + k = 10 := ⟨10 - (lo + n), by have := h.fits; omega⟩
  have parts := h.toNat_eq hk
  have whole : 2 ^ (64 * 10) = 2 ^ (64 * lo) * 2 ^ (64 * n) * (2 ^ 64) ^ k := by rw [← pow_mul, ← pow_add, ← pow_add]; congr 1; omega
  unfold spanInt
  rw [parts, whole]
  unfold signExtWord
  split
  · have ones := ofDigits_replicate_top (2 ^ 64 - 1) k
    refine ⟨-1, ?_⟩
    rw [show 2 ^ 64 - 1 + 1 = 2 ^ 64 by decide] at ones
    rw [← ones]
    push_cast
    ring
  · refine ⟨0, ?_⟩
    rw [Nat.ofDigits_replicate_zero]
    push_cast
    ring

/-- A word of k bits is what it is at any distance of 2^k. -/
theorem ofInt_wrapped {k : Nat} (v : BitVec k) (c : Int) : BitVec.ofInt k (v.toNat + (2 ^ k : Nat) * c) = v := by
  apply BitVec.eq_of_toNat_eq
  rw [BitVec.toNat_ofInt, Int.add_mul_emod_self_left, ← Int.natCast_emod, Int.toNat_natCast, Nat.mod_eq_of_lt v.isLt]

/-- A span gives its value back. -/
theorem ofInt_spanInt {v : CaskWord} {lo n : Nat} (h : Spans v lo n) : BitVec.ofInt 640 (spanInt v lo n * 2 ^ (64 * lo)) = v := by
  obtain ⟨c, e⟩ := spanInt_mul h
  rw [e, ← caskRange]
  exact ofInt_wrapped v c

/-! ## What the packer writes (R138 to R141) -/

/-- A record of the line `l` whose words are those of its value from word `lo` on. -/
structure Records (l : Line) (lo n : Nat) (r : Packed) : Prop where
  header : HeaderOf l lo n r.header
  words : r.words = caskWords l.value lo n
  low : lo < 10
  fits : lo + n ≤ 10
  span : n = 0 ∧ l.value = 0 ∨ l.value ≠ 0 ∧ Spans l.value lo n

namespace Records
variable {l : Line} {lo n : Nat} {r : Packed} (h : Records l lo n r)
include h

theorem lo?_eq : r.lo? = some lo := by
  have low := h.low
  have offset : (r.header % 65536 + 300) % 65536 = 64 * lo := by
    rw [h.header.offset]; unfold packOffset; omega
  unfold Packed.lo?
  rw [offset]
  exact (if_pos (by omega)).trans (by rw [Nat.mul_div_cancel_left _ (by decide)])

theorem value_eq : r.value = l.value := by
  unfold Packed.value
  rw [h.lo?_eq, h.words]
  rcases h.span with ⟨rfl, zero⟩ | ⟨-, span⟩
  · exact zero.symm
  · have last : (caskWords l.value lo n).getLast? = some (caskWordAt l.value (lo + n - 1)) := by
      obtain ⟨k, rfl⟩ : ∃ k, n = k + 1 := ⟨n - 1, by have := span.some; omega⟩
      unfold caskWords
      rw [List.range_succ, List.map_append]
      exact List.getLast?_concat
    have length : (caskWords l.value lo n).length = n := by simp [caskWords]
    have back := ofInt_spanInt span
    unfold spanInt at back
    rw [Nat.ofDigits_eq_foldr] at back
    rw [last, length]
    exact back

theorem kind_eq : r.kind = l.kind := by
  unfold Packed.kind Packed.kindCode
  rw [h.header.kind]
  cases l.kind <;> rfl

theorem line_eq : r.line = l := by
  obtain ⟨-, -, -, nan, pinf, ninf, ovf, -, empty, -⟩ := h.header
  unfold Packed.line Packed.emptyBit
  rw [h.value_eq, h.kind_eq, nan, pinf, ninf, ovf, empty]

/-- A record of the packer passes every check of R141. -/
theorem wellFormed (hr : packLine l = r.header :: r.words) (hz : l.empty = true → l.value = 0) : r.malformed = false := by
  obtain ⟨-, count, long, -, -, -, -, kind, empty, top⟩ := h.header
  have n_eq : r.n = n := count
  have length : r.words.length = n := by rw [h.words]; simp [caskWords]
  have bare : l.empty = true → n = 0 := fun e => h.span.elim And.left fun ⟨nonzero, _⟩ => absurd (hz e) nonzero
  have kinds : r.kindCode < 3 := by unfold Packed.kindCode; rw [kind]; exact packCode_lt l.kind
  have fits := h.fits
  unfold Packed.malformed Packed.emptyBit
  rw [h.lo?_eq, h.line_eq, hr, n_eq, length, top, long, empty]
  simp only [Bool.or_eq_false_iff]
  refine ⟨⟨⟨⟨⟨⟨⟨rfl, trivial⟩, ?kind⟩, ?bare⟩, ?fits⟩, ?length⟩, ?header⟩, ?words⟩
  case kind => exact beq_false_of_ne (Nat.ne_of_lt kinds)
  case bare => cases e : l.empty <;> simp [bare, e]
  case fits => exact decide_eq_false (by omega)
  case length | header | words => simp

end Records

theorem header_lt {l : Line} {lo n h : Nat} (hh : HeaderOf l lo n h) : h < 2 ^ 64 :=
  lt_of_lt_of_le (Nat.lt_of_div_eq_zero (by decide) hh.top) (by decide)

/-- The packer's header and words are a record of the line. -/
theorem packLine_records {l : Line} (h : l.empty = true → l.kind = .sum ∧ l.value = 0) :
    ∃ lo n, ∃ r : Packed, packLine l = r.header :: r.words ∧ Records l lo n r := by
  by_cases zero : l.value = 0
  · exact ⟨0, 0, ⟨_, _⟩, packLine_zero (fun e => (h e).1) zero, packHeader_headerOf l (by decide), rfl, by decide, by decide, .inl ⟨rfl, zero⟩⟩
  · have span := packed_spans zero
    have fits := span.fits
    have some := span.some
    exact ⟨_, _, ⟨_, _⟩, packLine_nonzero (fun e => (h e).1) zero, packHeader_headerOf l (by omega), rfl, by omega, fits, .inr ⟨zero, span⟩⟩

namespace Memory

theorem readN_congr {m m' : List Host.Cell} {a n : Nat} (h : ∀ x, a ≤ x → x < a + n → read m' x = read m x) : readN m' a n = readN m a n := by
  induction n generalizing a with
  | zero => rfl
  | succ n ih =>
    unfold readN
    rw [h a (by omega) (by omega), ih fun x hx hx' => h x (by omega) (by omega)]

theorem readLE_congr {m m' : List Host.Cell} {a n : Nat} (h : ∀ x, a ≤ x → x < a + n → read m' x = read m x) : readLE m' a n = readLE m a n :=
  congrArg le (readN_congr h)

/-- Words written one after another read back, each in its place. -/
theorem readLE_writeN_words (m : List Host.Cell) (a : Nat) {ws : List Nat} (h : ∀ w ∈ ws, w < 2 ^ 64) {i : Nat} (hi : i < ws.length) :
    readLE (writeN m a (ws.flatMap (bytesLE · 8))) (a + 8 * i) 8 = ws[i] := by
  induction ws generalizing m a i with
  | nil => exact absurd hi (Nat.not_lt_zero i)
  | cons w ws ih =>
    rw [List.flatMap_cons, writeN_append, bytesLE_length]
    cases i with
    | zero =>
      have first : readLE (writeN m a (bytesLE w 8)) a 8 = w :=
        (readLE_writeLE m a 8 w).trans (Nat.mod_eq_of_lt (h w List.mem_cons_self))
      exact (readLE_congr fun x _ hx => read_writeN_outside _ _ _ (.inl hx)).trans first
    | succ i =>
      rw [show a + 8 * (i + 1) = a + 8 + 8 * i by omega, ih _ _ (fun w hw => h w (List.mem_cons_of_mem _ hw))]
      rfl

end Memory

/-- A record is read from where its words lie. -/
theorem packedAt_eq {rd : Nat → Nat → Nat} {a : Nat} {r : Packed} (header : rd a 8 = r.header)
    (count : r.header / 2 ^ 16 % 16 = r.words.length) (words : ∀ i (hi : i < r.words.length), rd (a + 8 + 8 * i) 8 = r.words[i]) :
    packedAt rd a = r := by
  unfold packedAt
  dsimp only
  rw [header, count, show (List.range r.words.length).map (fun i => rd (a + 8 + 8 * i) 8) = r.words from
    List.ext_getElem (by simp) fun i _ hi => by simpa using words i hi]

/-- Settles O22: the record that is read back is the one written, its fields are those of the line, and its words span the value. -/
theorem packedCasks : Obligations.PackedCasks := by
  unfold Obligations.PackedCasks
  intro l m a empty
  obtain ⟨lo, n, r, packs, records⟩ := packLine_records empty
  have small : ∀ w ∈ r.header :: r.words, w < 2 ^ 64 := by
    rw [records.words]
    rintro w (_ | ⟨_, hw⟩)
    · exact header_lt records.header
    · obtain ⟨i, -, rfl⟩ := List.mem_map.1 hw
      exact caskWordAt_lt _ _
  have bytes : packBytes l = (r.header :: r.words).flatMap (Memory.bytesLE · 8) := congrArg (List.flatMap (Memory.bytesLE · 8)) packs
  have reads : packedAt (Memory.readLE (Memory.writeN m a (packBytes l))) a = r := by
    rw [bytes]
    refine packedAt_eq (Memory.readLE_writeN_words m a small (i := 0) (Nat.succ_pos _)) ?_ fun i hi => ?_
    · rw [records.header.count, records.words]; simp [caskWords]
    · rw [show a + 8 + 8 * i = a + 8 * (i + 1) by omega]
      exact Memory.readLE_writeN_words m a small (Nat.succ_lt_succ hi)
  dsimp only
  rw [reads]
  exact ⟨packs.symm, records.wellFormed packs fun e => (empty e).2, records.line_eq⟩

end Sys2Proof.Machine

/-!
PROOFS. The write-out of zero and of values that round to zero (R133).
-/
namespace Sys2Proof.Machine

theorem isZero_fin (s : Bool) (m : Nat) (e : Int) : (Val.fin s m e).isZero = true ↔ m = 0 := by
  cases m <;> simp [Val.isZero]

/-! ## Codes that decode to zero (R118, R122) -/

namespace Fmt
variable {f : Fmt}

/-- The zero of a sign: +0 in an integer format, which has no signed zero (R133). -/
def zeroCode (f : Fmt) (neg : Bool) : Nat := if f.isInt then 0 else if neg then 2 ^ (f.w - 1) else 0

/-- A magnitude code that the format can sign: below the sign bit, or a negative integer's. -/
def Signable (f : Fmt) (neg : Bool) (c : Nat) : Prop := c < 2 ^ (f.w - 1) ∨ f.isInt = true ∧ neg = true

/-- In an integer format only code 0 decodes to zero. -/
theorem isZero_decode_int (int : f.isInt = true) {x : Nat} (zero : (f.decode x).isZero = true) : x % 2 ^ f.w = 0 := by
  have small := Nat.mod_lt x (Nat.two_pow_pos f.w)
  unfold decode at zero
  rw [int] at zero
  have mag := (isZero_fin ..).1 zero
  split at mag <;> omega

/-- In the other formats only codes of magnitude 0 decode to zero. -/
theorem isZero_decode_float (float : f.isInt = false) {x : Nat} (zero : (f.decode x).isZero = true) : x % 2 ^ f.w % 2 ^ (f.w - 1) = 0 := by
  unfold decode at zero
  simp only [float, Bool.false_eq_true, if_false] at zero
  split at zero
  · exact absurd zero Bool.false_ne_true
  · split at zero
    · split at zero <;> exact absurd zero Bool.false_ne_true
    · split at zero
      case isTrue subnormal =>
        rw [← Nat.div_add_mod (x % 2 ^ f.w % 2 ^ (f.w - 1)) (2 ^ f.frac), subnormal, (isZero_fin ..).1 zero, Nat.mul_zero]
      case isFalse => exact absurd ((isZero_fin ..).1 zero) (by have := Nat.two_pow_pos f.frac; omega)

theorem two_pow_width (hw : 0 < f.w) : 2 ^ f.w = 2 ^ (f.w - 1) + 2 ^ (f.w - 1) := by
  rw [← Nat.two_mul, ← pow_succ', Nat.sub_add_cancel hw]

/-- The signed code of a magnitude that decodes to zero is the zero of its sign. -/
theorem signed_of_isZero (hw : 0 < f.w) {neg : Bool} {c : Nat} (hc : f.Signable neg c) (zero : (f.decode (f.signed neg c)).isZero = true) :
    f.signed neg c = f.zeroCode neg := by
  have double := two_pow_width hw
  unfold signed zeroCode at *
  cases int : f.isInt with
  | true =>
    have code := isZero_decode_int int zero
    simp only [int, if_true] at code ⊢
    cases neg with
    | true => simpa using code
    | false =>
      have low : c < 2 ^ (f.w - 1) := hc.resolve_right fun h => Bool.false_ne_true h.2
      exact (Nat.mod_eq_of_lt (a := c) (by omega)).symm.trans code
  | false =>
    have code := isZero_decode_float int zero
    have low : c < 2 ^ (f.w - 1) := hc.resolve_right fun h => Bool.false_ne_true (int.symm.trans h.1)
    simp only [int, Bool.false_eq_true, if_false] at code ⊢
    have inside : c + (if neg = true then 2 ^ (f.w - 1) else 0) < 2 ^ f.w := by split <;> omega
    rw [Nat.mod_eq_of_lt inside] at code
    have mag : c = 0 := by
      split at code
      · rwa [Nat.add_mod_right, Nat.mod_eq_of_lt low] at code
      · rwa [Nat.add_zero, Nat.mod_eq_of_lt low] at code
    rw [mag, Nat.zero_add]

/-- The largest magnitude code of a sign, which a rounded code may not pass (R134). -/
def topCode (f : Fmt) (neg : Bool) : Nat := if f.isInt && neg then f.maxCode + 1 else f.maxCode

theorem signable_of_le_topCode (max : f.maxCode < 2 ^ (f.w - 1)) {neg : Bool} {c : Nat} (hc : c ≤ f.topCode neg) : f.Signable neg c := by
  unfold topCode at hc
  split at hc
  · next h => exact .inr (by simpa using h)
  · exact .inl (Nat.lt_of_le_of_lt hc max)

end Fmt

theorem allFormats_max : ∀ f ∈ allFormats, 0 < f.w ∧ f.maxCode < 2 ^ (f.w - 1) := by decide

/-! ## Overflows (R134) -/

/-- A finite overflow answers the largest finite code, infinity or NaN. -/
theorem overflowCode_cases (f : Fmt) (mode : RMode) (pol : Policy) (neg : Bool) :
    overflowCode f mode pol neg = f.largest neg ∨ overflowCode f mode pol neg = infOrNan f neg := by
  unfold overflowCode
  split
  · exact .inl rfl
  · split
    · exact .inl rfl
    · cases mode <;> cases neg <;> simp

theorem isZero_decode_largest : ∀ f ∈ allFormats, ∀ neg, (f.decode (f.largest neg)).isZero = false := by decide

theorem isZero_decode_infOrNan : ∀ f ∈ allFormats, ∀ neg, (f.decode (infOrNan f neg)).isZero = false := by decide

theorem isZero_decode_overflowCode {f : Fmt} (hf : f ∈ allFormats) (mode : RMode) (pol : Policy) (neg : Bool) :
    (f.decode (overflowCode f mode pol neg)).isZero = false := by
  rcases overflowCode_cases f mode pol neg with h | h <;> rw [h]
  · exact isZero_decode_largest f hf neg
  · exact isZero_decode_infOrNan f hf neg

/-! ## Write-out (R131, R133) -/

theorem roundMag_zero (f : Fmt) (mode : RMode) (neg : Bool) (e : Int) : roundMag f mode neg 0 e false = 0 := by
  cases mode <;> rfl

theorem roundTo_zero (f : Fmt) (mode : RMode) (pol : Policy) (neg : Bool) (e : Int) :
    roundTo f mode pol (.fin neg 0 e) false = ⟨0, false, false⟩ := by
  unfold roundTo
  dsimp only
  rw [roundMag_zero, if_neg (Nat.not_lt_zero _)]
  rfl

/-- A finite value that is not zero rounds to a finite overflow or to a signed code. -/
theorem code_roundTo (f : Fmt) (mode : RMode) (pol : Policy) (neg : Bool) {m : Nat} (h : m ≠ 0) (e : Int) :
    (roundTo f mode pol (.fin neg m e) false).code = overflowCode f mode pol neg ∨
    ∃ c ≤ f.topCode neg, (roundTo f mode pol (.fin neg m e) false).code = f.signed neg c := by
  rcases Nat.lt_or_ge (f.topCode neg) (roundMag f mode neg m e false) with beyond | le
  · exact .inl (congrArg Rounded.code (if_pos beyond))
  · exact .inr ⟨_, le, congrArg Rounded.code ((if_neg (Nat.not_lt.2 le)).trans (if_neg (by simp [h])))⟩

/-- A write-out of a finite value rounds it at its scale. -/
theorem writeOut_fin (f : Fmt) (mode : RMode) (pol : Policy) (x : Option Nat) (neg : Bool) (e : Int) :
    ∃ e', ∀ m, writeOut f mode pol x (.fin neg m e) false = roundTo f mode pol (.fin neg m e') false := by
  cases x <;> exact ⟨_, fun _ => rfl⟩

/-- Settles O15: zero rounds to code 0; another value that decodes to zero has not overflowed, so its code is a signed magnitude of 0. -/
theorem zeroResults : Obligations.ZeroResults := by
  unfold Obligations.ZeroResults
  intro f hf mode pol x neg e
  obtain ⟨hw, max⟩ := allFormats_max f hf
  obtain ⟨e', out⟩ := writeOut_fin f mode pol x neg e
  simp only [out]
  refine ⟨roundTo_zero .., fun m hm zero => ?_⟩
  rcases code_roundTo f mode pol neg hm e' with beyond | ⟨c, le, code⟩
  · rw [beyond, isZero_decode_overflowCode hf] at zero
    exact absurd zero Bool.false_ne_true
  · rw [code] at zero ⊢
    exact Fmt.signed_of_isZero hw (Fmt.signable_of_le_topCode max le) zero

end Sys2Proof.Machine

/-!
PROOFS. DW_ACCUMULATE: records into their accumulators, and a malformed one (R141, R188 to R192, R200, R245).
-/
namespace Sys2Proof.Machine

/-! ## Accumulators in 16 bytes (R189) -/

theorem dwBits_lt (a : DwAcc) : dwBits a < 256 ^ 16 := by
  have value : (a.value % (2 ^ 124 : Nat)).toNat < 2 ^ 124 := by omega
  have ovf := bit_lt a.ovf
  have ninf := bit_lt a.ninf
  have pinf := bit_lt a.pinf
  have nan := bit_lt a.nan
  unfold dwBits
  omega

theorem dwOf_range (n : Nat) : -(2 ^ 123 : Int) ≤ (dwOf n).value ∧ (dwOf n).value < (2 ^ 123 : Int) := by
  unfold dwOf
  dsimp only
  split <;> omega

/-- An accumulator whose value fits its 124 bits is read back as it was written. -/
theorem dwOf_dwBits {a : DwAcc} (h : -(2 ^ 123 : Int) ≤ a.value ∧ a.value < (2 ^ 123 : Int)) : dwOf (dwBits a) = a := by
  have ovf := bit_lt a.ovf
  have ninf := bit_lt a.ninf
  have pinf := bit_lt a.pinf
  have nan := bit_lt a.nan
  have value : dwBits a % 2 ^ 124 = (a.value % (2 ^ 124 : Nat)).toNat := by unfold dwBits; omega
  have f124 : (dwBits a).testBit 124 = a.ovf := testBit_of_bit (by unfold dwBits; omega)
  have f125 : (dwBits a).testBit 125 = a.ninf := testBit_of_bit (by unfold dwBits; omega)
  have f126 : (dwBits a).testBit 126 = a.pinf := testBit_of_bit (by unfold dwBits; omega)
  have f127 : (dwBits a).testBit 127 = a.nan := testBit_of_bit (by unfold dwBits; omega)
  unfold dwOf
  rw [value, f124, f125, f126, f127]
  have nat : ((a.value % (2 ^ 124 : Nat)).toNat : Int) = a.value % (2 ^ 124 : Nat) := Int.toNat_of_nonneg (Int.emod_nonneg _ (by decide))
  have signed : (if (a.value % (2 ^ 124 : Nat)).toNat < 2 ^ 123 then ((a.value % (2 ^ 124 : Nat)).toNat : Int)
      else ((a.value % (2 ^ 124 : Nat)).toNat : Int) - (2 ^ 124 : Nat)) = a.value := by
    split <;> omega
  exact congrArg (DwAcc.mk · a.ovf a.ninf a.pinf a.nan) signed

/-- An accumulator that a malformed record marks (R141). -/
def DwAcc.marked (a : DwAcc) : DwAcc := { a with nan := true }

theorem DwAcc.value_marked (a : DwAcc) : a.marked.value = a.value := rfl

/-- A marked accumulator is read back as it was written. -/
theorem dwOf_dwBits_marked (n : Nat) : dwOf (dwBits (dwOf n).marked) = (dwOf n).marked :=
  dwOf_dwBits (by rw [DwAcc.value_marked]; exact dwOf_range n)

/-- An accumulator is 16 bytes of memory. -/
theorem readLE_writeLE_acc (m : List Host.Cell) (a : Nat) (b : DwAcc) : Memory.readLE (Memory.writeLE m a 16 (dwBits b)) a 16 = dwBits b :=
  (Memory.readLE_writeLE ..).trans (Nat.mod_eq_of_lt (dwBits_lt b))

/-! ## What a record reads (R138, R141) -/

theorem Packed.n_le_of_wellFormed {r : Packed} (h : r.malformed = false) : r.n ≤ 10 := by
  unfold Packed.malformed at h
  simp only [Bool.or_eq_false_iff] at h
  obtain ⟨⟨⟨⟨-, range⟩, -⟩, -⟩, -⟩ := h
  split at range
  · exact absurd range (by decide)
  · have := of_decide_eq_false range
    omega

/-- A record of at most ten words lies in 88 bytes. -/
theorem packedAt_congr {rd rd' : Nat → Nat → Nat} {a : Nat} (h : ∀ b, a ≤ b → b + 8 ≤ a + 88 → rd' b 8 = rd b 8) (short : (packedAt rd a).n ≤ 10) :
    packedAt rd' a = packedAt rd a := by
  have count : rd a 8 / 2 ^ 16 % 16 ≤ 10 := short
  unfold packedAt
  dsimp only
  rw [h a (by omega) (by omega)]
  congr 1
  refine List.map_congr_left fun i hi => ?_
  have := List.mem_range.1 hi
  exact h _ (by omega) (by omega)

theorem unitLE_stored (t : Tile) {m : List Host.Cell} (buf : List Byte) {a n : Nat}
    (h : ∀ x, a ≤ x → x < a + n → Memory.read m x = Memory.read t.store x) : unitLE { t with store := m } buf a n = unitLE t buf a n := by
  induction n generalizing a with
  | zero => rfl
  | succ n ih =>
    unfold unitLE unitByte
    dsimp only
    rw [h a (by omega) (by omega), ih fun x hx hx' => h x (by omega) (by omega)]

/-! ## The records of one operation (R190, R200, R245) -/

/-- Record i, as the tile `t` holds it. -/
def dwRecord (t : Tile) (d : DwDesc) (i : Nat) : Packed := packedAt (fun a n => unitLE t t.vecIn a n) (d.src + 88 * i)

/-- The accumulator that record i enters. -/
def dwAcc (t : Tile) (d : DwDesc) (i : Nat) : DwAcc := dwOf (Memory.readLE t.store (dwBase t d + 16 * i) 16)

/-- That accumulator with the record added. -/
def dwSum (t : Tile) (d : DwDesc) (i : Nat) : DwAcc := dwAdd (dwAcc t d i) (dwRecord t d i).line (dwShift t d.slotA d.slotG)

/-- A tile with another store. -/
def storedTile (m : List Host.Cell) (t : Tile) : Tile := { t with store := m }

/-- The store with `b` in the place of accumulator i. -/
def dwPlaced (t : Tile) (d : DwDesc) (i : Nat) (b : DwAcc) : List Host.Cell :=
  Memory.writeLE t.store (dwBase t d + 16 * i) 16 (dwBits b)

theorem readLE_dwPlaced (t : Tile) (d : DwDesc) (i : Nat) (b : DwAcc) :
    Memory.readLE (dwPlaced t d i b) (dwBase t d + 16 * i) 16 = dwBits b := readLE_writeLE_acc ..

/-- The store after the first n records, each taken as the operation found it. -/
def dwStore (ts : List Tensor) (t : Tile) (d : DwDesc) : Nat → List Host.Cell
  | 0 => t.store
  | n + 1 =>
    if maskedElt ts d.tensor (d.elem + n * d.elemStep) then dwStore ts t d n
    else Memory.writeLE (dwStore ts t d n) (dwBase t d + 16 * n) 16 (dwBits (dwSum t d n))

/-- The tile after the first n records. -/
def dwTile (ts : List Tensor) (t : Tile) (d : DwDesc) (n : Nat) : Tile := storedTile (dwStore ts t d n) t

section
variable (ts : List Tensor) (t : Tile) (d : DwDesc)

theorem dwTile_zero : dwTile ts t d 0 = t := rfl

theorem dwTile_masked {n : Nat} (masked : maskedElt ts d.tensor (d.elem + n * d.elemStep) = true) : dwTile ts t d (n + 1) = dwTile ts t d n := by
  unfold dwTile
  rw [dwStore, if_pos masked]

theorem sameFlow_dwTile (n : Nat) : SameFlow t (dwTile ts t d n) := ⟨rfl, rfl, rfl, rfl⟩

theorem sameButStore_dwTile (n : Nat) : SameButStore t (dwTile ts t d n) := rfl

theorem read_dwStore_outside (n : Nat) {x : Nat} (h : x < dwBase t d ∨ dwBase t d + 16 * n ≤ x) :
    Memory.read (dwStore ts t d n) x = Memory.read t.store x := by
  induction n with
  | zero => rfl
  | succ n ih =>
    unfold dwStore
    split
    · exact ih (by omega)
    · exact (Memory.read_writeN_outside _ _ _ (by rw [Memory.bytesLE_length]; omega)).trans (ih (by omega))

theorem readLE_dwStore {n i : Nat} (h : i < n) : Memory.readLE (dwStore ts t d n) (dwBase t d + 16 * i) 16 =
    if maskedElt ts d.tensor (d.elem + i * d.elemStep) then Memory.readLE t.store (dwBase t d + 16 * i) 16 else dwBits (dwSum t d i) := by
  induction n with
  | zero => exact absurd h (Nat.not_lt_zero i)
  | succ n ih =>
    unfold dwStore
    rcases Nat.lt_succ_iff_lt_or_eq.1 h with before | rfl
    · rw [← ih before]
      split
      · rfl
      · exact Memory.readLE_congr fun x _ hx => Memory.read_writeN_outside _ _ _ (by omega)
    · split
      · exact Memory.readLE_congr fun x hx _ => read_dwStore_outside ts t d i (.inr hx)
      · exact readLE_writeLE_acc ..

end

/-- The accumulators lie apart from the records, and from the token index that picks their row. -/
structure DwApart (t : Tile) (d : DwDesc) : Prop where
  records : d.src + 88 * d.count ≤ dwBase t d ∨ dwBase t d + 16 * d.count ≤ d.src
  token : ∀ a, d.token = some a → a + 4 ≤ dwBase t d ∨ dwBase t d + 16 * d.count ≤ a

section
variable {ts : List Tensor} {t : Tile} {d : DwDesc} {n : Nat} (apart : DwApart t d)
include apart

theorem dwBase_dwTile (hn : n ≤ d.count) : dwBase (dwTile ts t d n) d = dwBase t d := by
  have token := apart.token
  unfold dwBase at *
  cases e : d.token with
  | none => rfl
  | some a =>
    have index : Memory.readLE (dwTile ts t d n).store a 4 = Memory.readLE t.store a 4 :=
      Memory.readLE_congr fun x hx hx' => read_dwStore_outside ts t d n (by unfold dwBase; have := token a e; omega)
    dsimp only
    rw [index]

theorem dwRecord_dwTile (hn : n < d.count) (good : (dwRecord t d n).malformed = false) : dwRecord (dwTile ts t d n) d n = dwRecord t d n := by
  have records := apart.records
  exact packedAt_congr (fun b hb hb' => unitLE_stored t t.vecIn fun x hx hx' => read_dwStore_outside ts t d n (by omega))
    (Packed.n_le_of_wellFormed good)

theorem dwSum_dwTile (hn : n < d.count) (good : (dwRecord t d n).malformed = false) : dwSum (dwTile ts t d n) d n = dwSum t d n := by
  have acc : dwAcc (dwTile ts t d n) d n = dwAcc t d n := by
    unfold dwAcc
    rw [dwBase_dwTile apart (Nat.le_of_lt hn)]
    exact congrArg dwOf (Memory.readLE_congr fun x hx _ => read_dwStore_outside ts t d n (.inr hx))
  have shift : dwShift (dwTile ts t d n) d.slotA d.slotG = dwShift t d.slotA d.slotG := rfl
  unfold dwSum
  rw [acc, shift, dwRecord_dwTile apart hn good]

/-- Adding record n to the tile after the first n gives the tile after n + 1. -/
theorem placed_dwTile (hn : n < d.count) (good : (dwRecord t d n).malformed = false)
    (formed : maskedElt ts d.tensor (d.elem + n * d.elemStep) = false) :
    storedTile (dwPlaced (dwTile ts t d n) d n (dwSum (dwTile ts t d n) d n)) (dwTile ts t d n) = dwTile ts t d (n + 1) := by
  have store : dwStore ts t d (n + 1) = dwPlaced (dwTile ts t d n) d n (dwSum (dwTile ts t d n) d n) := by
    rw [dwStore, if_neg (ne_true_of_eq_false formed), dwPlaced, dwSum_dwTile apart hn good, dwBase_dwTile apart (Nat.le_of_lt hn)]
    rfl
  unfold dwTile at store ⊢
  rw [store]
  rfl

end

/-- A tile that has refused a malformed record and marked its accumulator in the store. -/
def refusedTile (m : List Host.Cell) (t : Tile) : Tile := { t with store := m, numFlags := bumpF t.numFlags numFlags_pkBad 1 }

theorem store_refusedTile (m : List Host.Cell) (t : Tile) : (refusedTile m t).store = m := rfl

theorem numFlags_refusedTile (m : List Host.Cell) (t : Tile) : (refusedTile m t).numFlags = bumpF t.numFlags numFlags_pkBad 1 := rfl

/-- The store and the flags of its numerics are nothing that issuing and retiring read. -/
theorem SameFlow.numeric (t : Tile) (m : List Host.Cell) (flags : Word) : SameFlow t { t with store := m, numFlags := flags } :=
  ⟨rfl, rfl, rfl, rfl⟩

theorem sameFlow_refusedTile (m : List Host.Cell) (t : Tile) : SameFlow t (refusedTile m t) := SameFlow.numeric ..

namespace State

section
variable {s : State} {tl : TileRef} {d : DwDesc} {i : Nat}

theorem dwOne_masked (masked : maskedElt s.tensors d.tensor (d.elem + i * d.elemStep) = true) : s.dwOne tl d i = s := by
  unfold dwOne; exact if_pos masked

variable (formed : maskedElt s.tensors d.tensor (d.elem + i * d.elemStep) = false)
include formed

theorem dwOne_adds (good : (dwRecord (s.tile tl) d i).malformed = false) :
    s.dwOne tl d i = s.setTile tl (storedTile (dwPlaced (s.tile tl) d i (dwSum (s.tile tl) d i)) (s.tile tl)) := by
  unfold dwOne
  exact (if_neg (ne_true_of_eq_false formed)).trans (if_neg (ne_true_of_eq_false good))

theorem dwOne_malformed (bad : (dwRecord (s.tile tl) d i).malformed = true) :
    s.dwOne tl d i = (s.setTile tl (storedTile (dwPlaced (s.tile tl) d i (dwAcc (s.tile tl) d i).marked) (s.tile tl))).packedBad tl := by
  unfold dwOne
  exact (if_neg (ne_true_of_eq_false formed)).trans (if_pos bad)

end

/-- Well-formed records are added one by one, and each meets the operands that the operation found. -/
theorem foldl_dwOne {s : State} {tl : TileRef} {d : DwDesc} {n : Nat} (hc : Canonical s) (apart : DwApart (s.tile tl) d) (hn : n ≤ d.count)
    (good : ∀ i < d.count, (dwRecord (s.tile tl) d i).malformed = false ∨ maskedElt s.tensors d.tensor (d.elem + i * d.elemStep) = true) :
    (List.range n).foldl (fun s i => s.dwOne tl d i) s = s.setTile tl (dwTile s.tensors (s.tile tl) d n) := by
  induction n with
  | zero => rw [dwTile_zero, setTile_tile hc]; rfl
  | succ n ih =>
    rw [List.range_succ, List.foldl_append, ih (Nat.le_of_succ_le hn), List.foldl_cons, List.foldl_nil]
    have mask : (s.setTile tl (dwTile s.tensors (s.tile tl) d n)).tensors = s.tensors := rfl
    cases formed : maskedElt s.tensors d.tensor (d.elem + n * d.elemStep) with
    | true => rw [dwOne_masked (by rw [mask]; exact formed), dwTile_masked _ _ _ formed]
    | false =>
      have whole := (good n hn).resolve_right (ne_true_of_eq_false formed)
      rw [dwOne_adds (by rw [mask]; exact formed) (by rw [tile_setTile_same, dwRecord_dwTile apart hn whole]; exact whole),
        tile_setTile_same, setTile_again hc, placed_dwTile apart hn whole formed]

section
variable {s : State} {tl : TileRef} {w : Word}

/-- A VEC that has made its tile `t` retires with it. -/
theorem vecEnd_finishes (hc : Canonical s) (own : (s.tile tl).seq.redo = none) (fit : CountsFit (s.tile tl) w) {t : Tile}
    (h : SameFlow (s.tile tl) t) : ∃ u, Finishes s tl w t ((s.setTile tl t).vecEnd tl w ⟨.clean, none⟩) u :=
  touch_finishes hc own fit h 18

theorem dwAccumulate_runs (hi : Issues s tl .vec w) (hd : badDesc (getF w iw_desc) = false) (hr : getF w ⟨33, 12⟩ = 0)
    (ho : getF w vec_op = 4) {d : DwDesc} (inside : dwBeyond (s.tile tl) d = false) :
    s.dwAccumulate tl d ⟨.clean, none⟩ = ((List.range d.count).foldl (fun s i => s.dwOne tl d i) s).vecEnd tl w ⟨.clean, none⟩ := by
  unfold dwAccumulate
  rw [issueVec_issues hi hd hr ho (by decide), if_neg (ne_true_of_eq_false inside), readStore_clean]

theorem packedBad_storedTile (hc : Canonical s) (tl : TileRef) (t : Tile) (m : List Host.Cell) :
    (s.setTile tl (storedTile m t)).packedBad tl = (s.failBit stepCheckStatus_packed).setTile tl (refusedTile m t) := by
  unfold packedBad
  dsimp only
  rw [tile_setTile_same, setTile_again hc]
  rfl

theorem bits_endWait (s : State) (tl : TileRef) : (s.endWait tl).job.bits = s.job.bits := by
  unfold endWait
  split
  · rfl
  · unfold stall
    split <;> rfl

end

end State

open State

/-- Settles O19: the records are added one by one to a store in which none of them finds another, and the instruction retires; a malformed
record fails the step before it does. -/
theorem dwAccumulate : Obligations.DwAccumulate := by
  unfold Obligations.DwAccumulate
  intro s tl w d hc hi
  dsimp only
  intro fit hd hr ho inside
  have runs := dwAccumulate_runs hi hd hr ho inside
  refine ⟨fun records token good => ?adds, fun one formed bad => ?malformed⟩
  case adds =>
    obtain ⟨u, state, adv, same, store, -⟩ := vecEnd_finishes hc hi.own fit (sameFlow_dwTile s.tensors (s.tile tl) d d.count)
    rw [foldl_dwOne hc ⟨records, token⟩ (le_refl _) good, state] at runs
    refine ⟨u, congrArg Host.Outcome.next runs, adv, (sameButStore_dwTile ..).trans same, fun i hi formed => ?_, fun i hi masked => ?_, fun x hx => ?_⟩
    · rw [store]; exact (readLE_dwStore _ _ _ hi).trans (if_neg (ne_true_of_eq_false formed))
    · rw [store]; exact (readLE_dwStore _ _ _ hi).trans (if_pos masked)
    · rw [store]; exact read_dwStore_outside _ _ _ _ hx
  case malformed =>
    have refused : (List.range d.count).foldl (fun s i => s.dwOne tl d i) s = (s.failBit stepCheckStatus_packed).setTile tl
        (refusedTile (dwPlaced (s.tile tl) d 0 (dwAcc (s.tile tl) d 0).marked) (s.tile tl)) := by
      rw [one, ← packedBad_storedTile hc]
      exact dwOne_malformed formed bad
    have hc' := (failBit_keeps (.refl s) stepCheckStatus_packed).canon hc
    obtain ⟨u, state, -, same, store, -⟩ := vecEnd_finishes (s := s.failBit stepCheckStatus_packed) hc' hi.own fit
      (sameFlow_refusedTile (dwPlaced (s.tile tl) d 0 (dwAcc (s.tile tl) d 0).marked) (s.tile tl))
    rw [refused, state] at runs
    refine ⟨_, congrArg Host.Outcome.next runs, frame_retiredTo _ tl u, fun v hv => tile_retiredTo_other _ u hv, ?check, ?flags, ?acc⟩
    case check =>
      have bits : (retiredTo (s.failBit stepCheckStatus_packed) tl u).job.bits = s.job.bits ||| 2 ^ stepCheckStatus_packed.lo := bits_endWait ..
      rw [bits, testBit_failed]
    case flags => rw [tile_retiredTo_same, same.numFlags, numFlags_refusedTile]
    case acc =>
      rw [tile_retiredTo_same, store]
      have placed := readLE_dwPlaced (s.tile tl) d 0 (dwAcc (s.tile tl) d 0).marked
      unfold dwAcc at placed ⊢
      rw [Nat.mul_zero, Nat.add_zero] at placed
      rw [store_refusedTile, Nat.mul_zero, Nat.add_zero, placed, dwOf_dwBits_marked]
      rfl

end Sys2Proof.Machine

/-!
PROOFS. UPDATE: what a block writes, when the instruction waits or leaves everything, and what it fails (R168 to R177, R301).
-/
namespace Sys2Proof.Machine

/-! ## What an update changes of its tile -/

/-- From `t` to `u` the tile has changed in its store, the flags of its numerics and the slots `k` and `j` alone. -/
structure UpdatedOnly (k j : Nat) (t u : Tile) : Prop where
  frame : u = { t with store := u.store, slots := u.slots, numFlags := u.numFlags }
  slots : ∀ i, i ≠ k → i ≠ j → slotOf u i = slotOf t i

namespace UpdatedOnly
variable {k j : Nat} {t u v : Tile}

theorem refl (t : Tile) : UpdatedOnly k j t t := ⟨rfl, fun _ _ _ => rfl⟩

theorem trans (a : UpdatedOnly k j t u) (b : UpdatedOnly k j u v) : UpdatedOnly k j t v where
  frame := by rw [b.frame, a.frame]
  slots i hk hj := (b.slots i hk hj).trans (a.slots i hk hj)

theorem sameFlow (h : UpdatedOnly k j t u) : SameFlow t u := by
  rw [h.frame]; exact ⟨rfl, rfl, rfl, rfl⟩

theorem sameButStore (h : UpdatedOnly k j t u) : SameButStore { t with slots := u.slots, numFlags := u.numFlags } u := by
  unfold SameButStore; rw [h.frame]

theorem written (t : Tile) (m : List Host.Cell) (flags : Word) : UpdatedOnly k j t { t with store := m, numFlags := flags } :=
  ⟨rfl, fun _ _ _ => rfl⟩

theorem ofMeasure (t : Tile) {i : Nat} (hi : i = k ∨ i = j) (amax : Nat × Int) (bad : Nat) (counts clamped : Bool) :
    UpdatedOnly k j t (measure t i amax bad counts clamped) where
  frame := by rw [measure_eq]
  slots n hk hj := slotOf_measure_other _ (by rcases hi with rfl | rfl <;> assumption) ..

end UpdatedOnly

theorem store_measure (t : Tile) (k : Nat) (amax : Nat × Int) (bad : Nat) (counts clamped : Bool) :
    (measure t k amax bad counts clamped).store = t.store := by
  rw [measure_eq]

section
variable (t : Tile) (d : UpdDesc) (r : UpdRun) (mk : List Bool) (b : Nat)

theorem updMoment_only (a scale : Nat) (xs : List F32) : UpdatedOnly d.slot d.wslot t (updMoment t d r mk a scale b xs).1 :=
  (UpdatedOnly.written t _ _).trans (.ofMeasure _ (.inl rfl) ..)

theorem updMaster_only (es : List UpdElt) (words : List (Nat × Nat)) : UpdatedOnly d.slot d.wslot t (updMaster t d r mk b es words).1 :=
  .written t _ _

theorem updMeta_only : UpdatedOnly d.slot d.wslot t (updMeta t d r mk b) := by
  unfold updMeta
  extract_lets ml
  split
  · exact .refl t
  · exact .written t _ _

theorem updForward_only (es : List UpdElt) (words : List (Nat × Nat)) : UpdatedOnly d.slot d.wslot t (updForward t d r mk b es words).1 :=
  (UpdatedOnly.written t _ _).trans (.ofMeasure _ (.inr rfl) ..)

end

/-- A block's tile after the two moments; LION has one alone (R169). -/
def momentsTile (t : Tile) (d : UpdDesc) (r : UpdRun) (mk : List Bool) (b : Nat) (es : List UpdElt) : Tile :=
  let t1 := (updMoment t d r mk d.mom1 d.mom1Scale b (es.map (·.m))).1
  if r.adamw then (updMoment t1 d r mk d.mom2 d.mom2Scale b (es.map (·.v))).1 else t1

/-- The words that round the elements of block b (R171). -/
def roundWords (d : UpdDesc) (r : UpdRun) (b : Nat) : List (Nat × Nat) :=
  (List.range 32).map (fun j => philoxWords r.seed (d.elem + b * d.blockStep + j * d.elemStep) d.tensor r.vint)

/-- A block's tile after master, metadata and forward copy as well. -/
def weightsTile (t : Tile) (d : UpdDesc) (r : UpdRun) (mk : List Bool) (b : Nat) (es : List UpdElt) : Tile :=
  (updForward (updMeta (updMaster t d r mk b es (roundWords d r b)).1 d r mk b) d r mk b es (roundWords d r b)).1

section
variable {t : Tile} {d : UpdDesc} {r : UpdRun} {b : Nat}

theorem momentsTile_only (t : Tile) (mk : List Bool) (es : List UpdElt) : UpdatedOnly d.slot d.wslot t (momentsTile t d r mk b es) := by
  have first := updMoment_only t d r mk b d.mom1 d.mom1Scale (es.map (·.m))
  unfold momentsTile
  split
  · exact first.trans (updMoment_only ..)
  · exact first

theorem weightsTile_only (t : Tile) (mk : List Bool) (es : List UpdElt) : UpdatedOnly d.slot d.wslot t (weightsTile t d r mk b es) :=
  ((updMaster_only ..).trans (updMeta_only ..)).trans (updForward_only ..)

theorem updBlock_masked (h : (updMask d r b).all id = true) : updBlock t d r b = (t, 0) := by
  unfold updBlock; exact if_pos h

/-- The tile of a block that is not masked whole. -/
theorem tile_updBlock (h : (updMask d r b).all id = false) : (updBlock t d r b).1 =
    if (f32v r.lr).isZero then momentsTile t d r (updMask d r b) b (updElts t d r (updMask d r b) b)
    else weightsTile (momentsTile t d r (updMask d r b) b (updElts t d r (updMask d r b) b)) d r (updMask d r b) b
      (updElts t d r (updMask d r b) b) := by
  unfold updBlock momentsTile weightsTile
  dsimp only
  rw [if_neg (ne_true_of_eq_false h)]
  cases r.adamw <;> cases (f32v r.lr).isZero <;> rfl

theorem updBlock_only (t : Tile) : UpdatedOnly d.slot d.wslot t (updBlock t d r b).1 := by
  cases masked : (updMask d r b).all id with
  | true => rw [updBlock_masked masked]; exact .refl t
  | false =>
    rw [tile_updBlock masked]
    split
    · exact momentsTile_only ..
    · exact (momentsTile_only ..).trans (weightsTile_only ..)

end

theorem tile_updBlocks_succ (t : Tile) (d : UpdDesc) (r : UpdRun) (n : Nat) :
    (updBlocks t d r (n + 1)).1 = (updBlock (updBlocks t d r n).1 d r n).1 := by
  unfold updBlocks
  rw [List.range_succ, List.foldl_append]
  rfl

theorem updBlocks_only (t : Tile) (d : UpdDesc) (r : UpdRun) (n : Nat) : UpdatedOnly d.slot d.wslot t (updBlocks t d r n).1 := by
  induction n with
  | zero => exact .refl t
  | succ n ih => rw [tile_updBlocks_succ]; exact ih.trans (updBlock_only _)

/-! ## Bytes that a learning rate of zero leaves (R168) -/

/-- The byte `x` lies outside the codes of `n` blocks at `a` and their scales at `scale`. -/
structure Beside (f : Fmt) (a scale n x : Nat) : Prop where
  codes : x < a ∨ a + 4 * f.w * n ≤ x
  scales : f.wide = false → x < scale ∨ scale + n ≤ x

theorem length_packCodes (w : Nat) (cs : List Nat) : (packCodes w cs).length = (w * cs.length + 7) / 8 := Memory.bytesLE_length ..

/-- A block of at most 32 codes takes at most four bytes for a bit of a code. -/
theorem length_packCodes_block (w : Nat) {cs : List Nat} (h : cs.length ≤ 32) : (packCodes w cs).length ≤ 4 * w := by
  have bits : w * cs.length ≤ w * 32 := Nat.mul_le_mul_left w h
  rw [length_packCodes]
  omega

theorem length_updMask (d : UpdDesc) (r : UpdRun) (b : Nat) : (updMask d r b).length = 32 := by
  unfold updMask; rw [List.length_map, List.length_range]

theorem length_mergeLanes_le (mk : List Bool) (old new : List Nat) : (mergeLanes mk old new).length ≤ mk.length := by
  unfold mergeLanes; rw [List.length_zipWith]; exact Nat.min_le_left ..

section
variable {r : UpdRun} {a scale n b x : Nat} {mk : List Bool}

theorem read_updMoment_beside (beside : Beside r.momF a scale n x) (hb : b < n) (lanes : mk.length = 32) (t : Tile) (d : UpdDesc)
    (xs : List F32) : Memory.read (updMoment t d r mk a scale b xs).1.store x = Memory.read t.store x := by
  have block : 4 * r.momF.w * b + 4 * r.momF.w ≤ 4 * r.momF.w * n := Nat.mul_le_mul_left (4 * r.momF.w) hb
  have codes (m : List Host.Cell) (old new : List Nat) :
      Memory.read (putCodes m r.momF a b (mergeLanes mk old new)) x = Memory.read m x := by
    have short := length_packCodes_block r.momF.w (lanes ▸ length_mergeLanes_le mk old new)
    have range := beside.codes
    exact Memory.read_writeN_outside _ _ _ (by omega)
  unfold updMoment
  dsimp only
  rw [store_measure]
  cases wide : r.momF.wide with
  | true => exact codes ..
  | false =>
    have scales := beside.scales wide
    exact (Memory.read_write_other _ _ (by omega)).trans (codes ..)

variable {d : UpdDesc} (first : Beside r.momF d.mom1 d.mom1Scale n x) (second : r.adamw = true → Beside r.momF d.mom2 d.mom2Scale n x)
include first second

theorem read_momentsTile_beside (hb : b < n) (lanes : mk.length = 32) (t : Tile) (es : List UpdElt) :
    Memory.read (momentsTile t d r mk b es).store x = Memory.read t.store x := by
  unfold momentsTile
  cases adamw : r.adamw with
  | true => exact (read_updMoment_beside (second adamw) hb lanes ..).trans (read_updMoment_beside first hb lanes ..)
  | false => exact read_updMoment_beside first hb lanes ..

theorem read_updBlock_rateZero (zero : (f32v r.lr).isZero = true) (hb : b < n) (t : Tile) :
    Memory.read (updBlock t d r b).1.store x = Memory.read t.store x := by
  cases masked : (updMask d r b).all id with
  | true => rw [updBlock_masked masked]
  | false =>
    rw [tile_updBlock masked, if_pos zero]
    exact read_momentsTile_beside first second hb (length_updMask ..) t _

theorem read_updBlocks_rateZero (zero : (f32v r.lr).isZero = true) (t : Tile) {i : Nat} (h : i ≤ n) :
    Memory.read (updBlocks t d r i).1.store x = Memory.read t.store x := by
  induction i with
  | zero => rfl
  | succ i ih =>
    rw [tile_updBlocks_succ, read_updBlock_rateZero first second zero h]
    exact ih (Nat.le_of_succ_le h)

end

/-! ## The counted slot (R175) -/

/-- The tile with its blocks updated and their non-finite results counted in the slot of a checked tensor. -/
def updatedTile (t : Tile) (d : UpdDesc) (r : UpdRun) : Tile :=
  let x := updBlocks t d r d.blocks
  let sl := slotOf x.1 d.slot
  { x.1 with
    slots := Sparse.set Slot.reset x.1.slots d.slot
      (if flagF sl.recipe rc_check then { sl with nonfinite := sl.nonfinite + x.2 } else sl) }

theorem updatedTile_only (t : Tile) (d : UpdDesc) (r : UpdRun) : UpdatedOnly d.slot d.wslot t (updatedTile t d r) :=
  (updBlocks_only t d r d.blocks).trans ⟨rfl, fun _ hk _ => Sparse.get_set_other _ _ _ hk⟩

theorem store_updatedTile (t : Tile) (d : UpdDesc) (r : UpdRun) : (updatedTile t d r).store = (updBlocks t d r d.blocks).1.store := rfl

theorem nonfinite_updatedTile {t : Tile} {d : UpdDesc} {r : UpdRun}
    (checked : flagF (slotOf (updBlocks t d r d.blocks).1 d.slot).recipe rc_check = true) :
    (slotOf (updatedTile t d r) d.slot).nonfinite =
      (slotOf (updBlocks t d r d.blocks).1 d.slot).nonfinite + (updBlocks t d r d.blocks).2 := by
  unfold updatedTile
  dsimp only
  rw [if_pos checked]
  exact congrArg Slot.nonfinite (Sparse.get_set_same ..)

/-! ## The instruction -/

namespace State

theorem bits_failFor (s : State) (f : Field) (code : Nat) : (s.failFor f code).job.bits = s.job.bits ||| 2 ^ f.lo := rfl

theorem check_failFor (s : State) (f : Field) (code : Nat) : (s.failFor f code).job.bits.testBit f.lo = true := by
  rw [bits_failFor, testBit_failed]

section
variable {s : State} {tl : TileRef} {w : Word} {d : UpdDesc} (hi : Issues s tl .vec w) (hd : badDesc (getF w iw_desc) = false)
  (hr : getF w ⟨33, 12⟩ = 0) (ho : getF w vec_op = 1)
include hi hd hr ho

theorem update_waits (none : s.updVint = none) (m : StoreIn) :
    s.update tl d m = s.hold tl (if (s.vint (s.committedV + 1)).isSome then stallVerdict else stallCommit) := by
  unfold update
  rw [issueVec_issues hi hd hr ho (by decide), none]

variable {v : Vint} (next : s.updVint = some v)
include next

theorem update_skips (skip : (v.verdict.map (·.skip)).getD false = true) (m : StoreIn) : s.update tl d m = s.finish tl w := by
  unfold update
  rw [issueVec_issues hi hd hr ho (by decide), next]
  exact if_pos skip

variable (runs : (v.verdict.map (·.skip)).getD false = false) {r : UpdRun} (run : s.updRun (s.tile tl) d v = some r)
  (inside : updBeyond d r = false)
include runs run inside

theorem update_rateNotFinite (rate : (f32v r.lr).isFinite = false) (m : StoreIn) :
    s.update tl d m = (s.failFor stepCheckStatus_numeric Err.numeric).finish tl w := by
  unfold update
  rw [issueVec_issues hi hd hr ho (by decide), next]
  simp only [runs, run, inside, rate, Bool.not_false, Bool.false_eq_true, if_false, if_true]

theorem update_updates (rate : (f32v r.lr).isFinite = true) :
    s.update tl d ⟨.clean, none⟩ = s.updateBlocks tl d r w ⟨.clean, none⟩ := by
  unfold update
  rw [issueVec_issues hi hd hr ho (by decide), next]
  simp only [runs, run, inside, rate, Bool.not_true, Bool.false_eq_true, if_false]
  exact readStore_clean ..

end

section
variable {s : State} {tl : TileRef} {w : Word} {d : UpdDesc} {r : UpdRun} {m : StoreIn}

theorem updateBlocks_passes (h : flagF (slotOf (updBlocks (s.tile tl) d r d.blocks).1 d.slot).recipe rc_check = false ∨
    (updBlocks (s.tile tl) d r d.blocks).2 = 0) :
    s.updateBlocks tl d r w m = (s.setTile tl (updatedTile (s.tile tl) d r)).vecEnd tl w m := by
  unfold updateBlocks
  exact if_neg (by rcases h with h | h <;> simp [h])

theorem updateBlocks_fails (checked : flagF (slotOf (updBlocks (s.tile tl) d r d.blocks).1 d.slot).recipe rc_check = true)
    (bad : (updBlocks (s.tile tl) d r d.blocks).2 ≠ 0) : s.updateBlocks tl d r w m =
      ((s.setTile tl (updatedTile (s.tile tl) d r)).vecEnd tl w m).failFor stepCheckStatus_numeric Err.numeric := by
  unfold updateBlocks
  exact if_pos (by simp [checked, bad])

end

end State

open State

/-- Settles O20: an UPDATE that may run is one write of the tile, block by block, and a retirement; a count of non-finite results or a rate
that is none fails the step, and without a verdict the sequencer waits. -/
theorem weightUpdate : Obligations.WeightUpdate := by
  unfold Obligations.WeightUpdate
  intro s tl w d hc hi
  dsimp only
  refine fun fit hd hr ho => ⟨fun none m => ?waits, fun v next => ⟨fun skip m => ?skips, fun r runs run inside =>
    ⟨fun rate quiet => ?writes, fun rate checked bad => ?counts, fun rate m => ?notFinite⟩⟩⟩
  case waits =>
    obtain ⟨u, state, waits⟩ := hold_waits hc tl (if (s.vint (s.committedV + 1)).isSome then stallVerdict else stallCommit)
    exact ⟨u, congrArg Host.Outcome.next ((update_waits hi hd hr ho none m).trans state), waits⟩
  case skips =>
    obtain ⟨u, state, adv, same, store, -⟩ := finish_self hc hi.own fit
    exact ⟨u, congrArg Host.Outcome.next ((update_skips hi hd hr ho next skip m).trans state), adv, same, store⟩
  case writes =>
    have only := updatedTile_only (s.tile tl) d r
    obtain ⟨u, state, adv, same, store, -⟩ := vecEnd_finishes hc hi.own fit only.sameFlow
    have does := (update_updates hi hd hr ho next runs run inside rate).trans ((updateBlocks_passes quiet).trans state)
    refine ⟨u, congrArg Host.Outcome.next does, adv, store, ?same, fun k hk hj => ?slots, fun zero a codes1 scales1 second => ?zero⟩
    case same => rw [same.slots, same.numFlags]; exact only.sameButStore.trans same
    case slots => unfold slotOf; rw [same.slots]; exact only.slots k hk hj
    case zero =>
      rw [store, store_updatedTile]
      exact read_updBlocks_rateZero ⟨codes1, scales1⟩ (fun adamw => ⟨(second adamw).1, (second adamw).2⟩) zero _ le_rfl
  case counts =>
    obtain ⟨u, state, -, same, store, -⟩ := vecEnd_finishes hc hi.own fit (updatedTile_only (s.tile tl) d r).sameFlow
    have does := (update_updates hi hd hr ho next runs run inside rate).trans (updateBlocks_fails checked bad)
    rw [state] at does
    have tile : ((retiredTo s tl u).failFor stepCheckStatus_numeric Err.numeric).tile tl = u := tile_retiredTo_same s tl u
    refine ⟨_, congrArg Host.Outcome.next does, ?store, ?nonfinite, check_failFor ..⟩
    case store => rw [tile]; exact store
    case nonfinite =>
      rw [tile, ← nonfinite_updatedTile checked]
      unfold slotOf
      rw [same.slots]
  case notFinite =>
    have hc' := (failFor_keeps (.refl s) stepCheckStatus_numeric Err.numeric).canon hc
    obtain ⟨u, state, adv, -, store, -⟩ := finish_self (s := s.failFor stepCheckStatus_numeric Err.numeric) hc' hi.own fit
    have does := (update_rateNotFinite hi hd hr ho next runs run inside rate m).trans state
    refine ⟨_, congrArg Host.Outcome.next does, ?store, ?index, ?check, frame_retiredTo _ tl u⟩
    case store => rw [tile_retiredTo_same]; exact store
    case index => rw [tile_retiredTo_same]; exact adv.index
    case check =>
      have bits : (retiredTo (s.failFor stepCheckStatus_numeric Err.numeric) tl u).job.bits =
        (s.failFor stepCheckStatus_numeric Err.numeric).job.bits := bits_endWait ..
      rw [bits, check_failFor]

end Sys2Proof.Machine

/-!
PROOFS. VERDICT_REPORT, its collection at a head, and VERDICT (R37, R175 to R179).
-/
namespace Sys2Proof.Machine
namespace State

/-! ## Vintages -/

/-- A change to an open vintage that keeps its number is read back. -/
theorem vint_onVint (s : State) (v : Nat) {f : Vint → Vint} (hf : ∀ x, (f x).v = x.v) : (s.onVint v f).vint v = (s.vint v).map f := by
  have number : (fun x : Vint => x.v == v) ∘ (fun x => if x.v = v then f x else x) = fun x => x.v == v := by
    funext x; by_cases c : x.v = v <;> simp [c, hf]
  have read : (s.onVint v f).vint v = (s.job.uncommitted.map (fun x => if x.v = v then f x else x)).find? (fun x => x.v == v) := rfl
  rw [read, List.find?_map, number]
  unfold vint
  cases e : s.job.uncommitted.find? (fun x => x.v == v) with
  | none => rfl
  | some y =>
    have at_v : y.v = v := by simpa using List.find?_some e
    rw [Option.map_some, Option.map_some, if_pos at_v]

theorem vint_congr {s t : State} (h : t.job.uncommitted = s.job.uncommitted) (v : Nat) : t.vint v = s.vint v := by unfold vint; rw [h]

theorem current_open {s : State} (h : s.openVintage ≠ noVintage) : s.current s.openVintage s.openAttempt = true := by
  simp [current, h]

theorem current_false {s : State} {v a : Nat} (h : v ≠ s.openVintage ∨ a ≠ s.openAttempt) : s.current v a = false := by
  rcases h with h | h <;> simp [current, h]

theorem domainHead_congr {s t : State} (img : t.img = s.img) (dev : t.dev = s.dev) (fd : t.fd = s.fd) : t.domainHead = s.domainHead := by
  unfold domainHead roleIds me entry image healthy devState devId
  rw [img, dev, fd]

/-! ## A phase noted with a change to its vintage -/

/-- The phase stands in the ledger, and the vintage `v` is changed by `f`. -/
def noted (s : State) (code v : Nat) (f : Vint → Vint) : State := (s.phase code).onVint v f

/-- What the domain head is read from, what is sent, and the tiles stay. -/
theorem noted_frame (s : State) (code v : Nat) (f : Vint → Vint) :
    s.noted code v f = { s with parts := (s.noted code v f).parts, step := (s.noted code v f).step, job := (s.noted code v f).job } := by
  unfold noted onVint onJob refreshCellar phase ledger setPart; rfl

theorem check_noted (s : State) (code v : Nat) (f : Vint → Vint) :
    (s.noted code v f).job.bits = s.job.bits ∧ (s.noted code v f).job.failErr = s.job.failErr := by
  unfold noted onVint onJob refreshCellar phase ledger setPart; exact ⟨rfl, rfl⟩

theorem vint_noted (s : State) (code v : Nat) {f : Vint → Vint} (hf : ∀ x, (f x).v = x.v) : (s.noted code v f).vint v = (s.vint v).map f :=
  (vint_onVint (s.phase code) v hf).trans (congrArg (Option.map f) (vint_congr (by unfold phase ledger setPart; rfl) v))

theorem out_noted (s : State) (code v : Nat) (f : Vint → Vint) : (s.noted code v f).out = s.out := by rw [noted_frame]

theorem tiles_noted (s : State) (code v : Nat) (f : Vint → Vint) : (s.noted code v f).tiles = s.tiles := by rw [noted_frame]

theorem domainHead_noted (s : State) (code v : Nat) (f : Vint → Vint) : (s.noted code v f).domainHead = s.domainHead :=
  domainHead_congr (by rw [noted_frame]) (by rw [noted_frame]) (by rw [noted_frame])

theorem isDomainHead_noted (s : State) (code v : Nat) (f : Vint → Vint) : (s.noted code v f).isDomainHead = s.isDomainHead := by
  unfold isDomainHead devId
  rw [domainHead_noted, noted_frame]

/-! ## The report (R37, R176) -/

/-- The state in which the device's counts are taken for its vintage. -/
def reported (s : State) : State := s.noted 5 s.openVintage (fun x => { x with verdictSent := true })

theorem vint_reported (s : State) : s.reported.vint s.openVintage = (s.vint s.openVintage).map (fun x => { x with verdictSent := true }) :=
  vint_noted s 5 _ fun _ => rfl

theorem domainHead_reported (s : State) : s.reported.domainHead = s.domainHead := domainHead_noted ..

theorem isDomainHead_reported (s : State) : s.reported.isDomainHead = s.isDomainHead := isDomainHead_noted ..

theorem out_reported (s : State) : s.reported.out = s.out := out_noted ..

theorem tiles_reported (s : State) : s.reported.tiles = s.tiles := tiles_noted ..

section
variable {s : State} {y : Vint} (alive : s.alive = true) (running : s.devState = DS.running) (forward : s.job.rollbackAt = none)
  (vint : s.vint s.openVintage = some y)

include alive running forward vint in
theorem verdictReport_eq (unsent : y.verdictSent = false) (trains : s.job.evaluating = false) (reduced : s.reduced = true) :
    s.verdictReport = if s.reported.isDomainHead then s.reported.takeVerdict s.ownCounts
      else s.reported.send (.verdictReport s.reported.domainHead s.ownCounts) := by
  unfold verdictReport
  exact if_neg (by simp [alive, running, forward, vint, unsent, trains, reduced])

include alive running forward vint in
theorem verdictReport_sends (unsent : y.verdictSent = false) (member : s.isDomainHead = false) (trains : s.job.evaluating = false)
    (reduced : s.reduced = true) : s.verdictReport = s.reported.send (.verdictReport s.domainHead s.ownCounts) := by
  rw [verdictReport_eq alive running forward vint unsent trains reduced, isDomainHead_reported, domainHead_reported,
    if_neg (ne_true_of_eq_false member)]

include vint in
theorem verdictReport_idle (h : y.verdictSent = true ∨ s.job.evaluating = true ∨ s.reduced = false) : s.verdictReport = s := by
  unfold verdictReport
  exact if_pos (by rcases h with h | h | h <;> simp [vint, h])

end

/-! ## A report at a head (R176) -/

theorem exec_verdictReportReceived {s : State} (alive : s.alive = true) (running : s.devState = DS.running) (r : VerdictRep) :
    exec (.verdictReportReceived r) s = .next (s.takeVerdict r) :=
  congrArg Host.Outcome.next (if_pos (by simp [alive, running]))

/-- A head with one report more. -/
def collected (s : State) (r : VerdictRep) : State :=
  s.onJob (fun j => { j with
    verdictReps := j.verdictReps ++ [r]
    firstRepAt := if j.firstRepAt.isNone then some s.now else j.firstRepAt })

/-- A report that counts while another is awaited is kept, and nothing is sent. -/
theorem takeVerdict_keeps_report {s : State} {r : VerdictRep} (current : s.current r.vintage r.attempt = true) (awaited : r.device ∈ s.awaited)
    (fresh : ∀ z ∈ s.job.verdictReps, z.device ≠ r.device)
    (missing : ∃ i ∈ s.awaited, i ≠ r.device ∧ ∀ z ∈ s.job.verdictReps, z.device ≠ i) : s.takeVerdict r = s.collected r := by
  have once : s.job.verdictReps.any (fun x => x.device == r.device) = false := by simpa using fresh
  have partly : ((s.collected r).awaited.all fun i => (s.collected r).job.verdictReps.any (fun x => x.device == i)) = false := by
    obtain ⟨i, mem, other, none⟩ := missing
    refine List.all_eq_false.2 ⟨i, mem, ?_⟩
    have reports : (s.collected r).job.verdictReps = s.job.verdictReps ++ [r] := rfl
    simpa [reports, other.symm] using none
  unfold takeVerdict
  rw [if_neg (by simp [current, awaited, once])]
  exact if_neg (ne_true_of_eq_false partly)

theorem takeVerdict_ignores {s : State} {r : VerdictRep}
    (h : r.vintage ≠ s.openVintage ∨ r.attempt ≠ s.openAttempt ∨ ∃ z ∈ s.job.verdictReps, z.device = r.device) : s.takeVerdict r = s := by
  unfold takeVerdict
  refine if_pos ?_
  rcases h with h | h | ⟨z, mem, same⟩
  · simp [current_false (.inl h)]
  · simp [current_false (.inr h)]
  · have twice : s.job.verdictReps.any (fun x => x.device == r.device) = true := List.any_eq_true.2 ⟨z, mem, by simp [same]⟩
    simp [twice]

/-! ## The verdict (R177 to R179) -/

/-- The verdict stands in its vintage; the first that came stays the recorded one. -/
def kept (s : State) (v : Nat) (vd : Verdict) : State :=
  s.noted 6 v (fun x => { x with verdict := some vd, recorded := some (((s.vint v).bind (·.recorded)).getD vd) })

/-- A verdict other than the recorded one fails the step. -/
def compared (s : State) (v : Nat) (vd : Verdict) : State :=
  if ((s.vint v).bind (·.recorded)).any (fun r => !sameVerdict r vd) then (s.kept v vd).failBit stepCheckStatus_divergent else s.kept v vd

/-- The tensors that skip the step stand in the ledger. -/
def skipsRecorded (s : State) (v a : Nat) (vd : Verdict) : State :=
  if vd.skip && !vd.fail then (vd.tensors.filter s.skipTensor).foldl (fun s t => s.ledger 0 3 0 0xff t v a) s else s

/-- A failing verdict fails the step, a skipping one is an EVENT. -/
def told (s : State) (v : Nat) (vd : Verdict) : State :=
  if vd.fail then s.failFor stepCheckStatus_numeric Err.numeric
  else if vd.skip then s.event Err.ok 5 v Src.step false
  else s

/-- The state in which a verdict has been taken. -/
def taken (s : State) (v a : Nat) (vd : Verdict) : State := ((s.compared v vd).skipsRecorded v a vd).told v vd

theorem skipsRecorded_sameBody (s : State) (v a : Nat) (vd : Verdict) : SameBody s (s.skipsRecorded v a vd) := by
  have fold (l : List Nat) : SameBody s (l.foldl (fun s t => s.ledger 0 3 0 0xff t v a) s) :=
    List.foldlRecOn l _ (SameBody.refl s) fun t h _ _ => h.trans (ledger_sameBody ..)
  unfold skipsRecorded
  split
  · exact fold _
  · exact .refl s

/-- A verdict that does not fail the step leaves all but messages and the ledger. -/
theorem told_sameBody (s : State) (v : Nat) {vd : Verdict} (pass : vd.fail = false) : SameBody s (s.told v vd) := by
  unfold told
  rw [if_neg (ne_true_of_eq_false pass)]
  split
  · exact event_sameBody ..
  · exact .refl s

theorem told_fails (s : State) (v : Nat) {vd : Verdict} (fail : vd.fail = true) :
    s.told v vd = s.failFor stepCheckStatus_numeric Err.numeric := by
  unfold told; exact if_pos fail

theorem uncommitted_sameBody {s t : State} (h : SameBody s t) : t.job.uncommitted = s.job.uncommitted := by rw [h.job]

theorem bits_sameBody {s t : State} (h : SameBody s t) : t.job.bits = s.job.bits := by rw [h.job]

theorem failErr_sameBody {s t : State} (h : SameBody s t) : t.job.failErr = s.job.failErr := by rw [h.job]

theorem uncommitted_told (s : State) (v : Nat) (vd : Verdict) : (s.told v vd).job.uncommitted = s.job.uncommitted := by
  cases e : vd.fail with
  | true => rw [told_fails s v e]; rfl
  | false => exact uncommitted_sameBody (told_sameBody s v e)

theorem tiles_told (s : State) (v : Nat) (vd : Verdict) : (s.told v vd).tiles = s.tiles := by
  cases e : vd.fail with
  | true => rw [told_fails s v e]; rfl
  | false => exact (told_sameBody s v e).tiles

/-- What failed the step stays so. -/
theorem testBit_told (s : State) (v : Nat) (vd : Verdict) {k : Nat} (h : s.job.bits.testBit k = true) :
    (s.told v vd).job.bits.testBit k = true := by
  cases e : vd.fail with
  | true => rw [told_fails s v e, bits_failFor, Nat.testBit_or, h, Bool.true_or]
  | false => rw [bits_sameBody (told_sameBody s v e), h]

theorem vint_kept (s : State) (v : Nat) (vd : Verdict) : (s.kept v vd).vint v =
    (s.vint v).map (fun x => { x with verdict := some vd, recorded := some (((s.vint v).bind (·.recorded)).getD vd) }) :=
  vint_noted s 6 v fun _ => rfl

theorem uncommitted_compared (s : State) (v : Nat) (vd : Verdict) : (s.compared v vd).job.uncommitted = (s.kept v vd).job.uncommitted := by
  unfold compared; split <;> rfl

theorem tiles_compared (s : State) (v : Nat) (vd : Verdict) : (s.compared v vd).tiles = s.tiles := by
  have same : (s.kept v vd).tiles = s.tiles := tiles_noted ..
  unfold compared
  split
  · exact (failBit_tiles ..).trans same
  · exact same

section
variable {s : State} {v a : Nat} {vd : Verdict}

theorem verdictIn_eq (alive : s.alive = true) (running : s.devState = DS.running) (current : s.current v a = true)
    (forward : s.job.rollbackAt = none) (first : (s.vint v).bind (·.verdict) = none) :
    s.verdictIn v a vd = s.taken v a vd := by
  unfold verdictIn
  rw [if_neg (by simp [alive, running, current, forward, first])]
  rfl

theorem verdictIn_ignores (h : s.current v a = false ∨ ((s.vint v).bind (·.verdict)).isSome = true) : s.verdictIn v a vd = s := by
  unfold verdictIn
  exact if_pos (by rcases h with h | h <;> simp [h])

/-- The vintage holds the verdict once it has been taken. -/
theorem vint_taken (s : State) (v a : Nat) (vd : Verdict) : (s.taken v a vd).vint v =
    (s.vint v).map (fun x => { x with verdict := some vd, recorded := some (((s.vint v).bind (·.recorded)).getD vd) }) := by
  have skips := uncommitted_sameBody (skipsRecorded_sameBody (s.compared v vd) v a vd)
  have chain : (s.taken v a vd).job.uncommitted = (s.kept v vd).job.uncommitted :=
    (uncommitted_told _ v vd).trans (skips.trans (uncommitted_compared s v vd))
  rw [vint_congr chain v, vint_kept]

theorem tiles_taken (s : State) (v a : Nat) (vd : Verdict) : (s.taken v a vd).tiles = s.tiles :=
  (tiles_told ..).trans ((skipsRecorded_sameBody ..).tiles.trans (tiles_compared ..))

theorem numeric_taken (fail : vd.fail = true) :
    (s.taken v a vd).job.bits.testBit stepCheckStatus_numeric.lo = true := by
  unfold taken; rw [told_fails _ _ fail, check_failFor]

theorem divergent_taken {r : Verdict} (held : (s.vint v).bind (·.recorded) = some r) (differs : sameVerdict r vd = false) :
    (s.taken v a vd).job.bits.testBit stepCheckStatus_divergent.lo = true := by
  have failed : s.compared v vd = (s.kept v vd).failBit stepCheckStatus_divergent := by
    unfold compared; exact if_pos (by simp [held, differs])
  refine testBit_told _ _ _ ?_
  rw [bits_sameBody (skipsRecorded_sameBody ..), failed]
  exact testBit_failed ..

/-- A first verdict that passes leaves the step check. -/
theorem check_taken (held : (s.vint v).bind (·.recorded) = none) (pass : vd.fail = false) :
    (s.taken v a vd).job.bits = s.job.bits ∧ (s.taken v a vd).job.failErr = s.job.failErr := by
  have agrees : s.compared v vd = s.kept v vd := by unfold compared; exact if_neg (by simp [held])
  have body : SameBody (s.compared v vd) (s.taken v a vd) := (skipsRecorded_sameBody (s.compared v vd) v a vd).trans (told_sameBody _ v pass)
  rw [bits_sameBody body, failErr_sameBody body, agrees]
  exact check_noted ..

end

end State

open State

/-- Settles O30: a report is one mark on the vintage and one message, a head keeps it or leaves it, and a verdict that is taken stands in
its vintage, is compared with the recorded one, and fails or tells the step. -/
theorem verdicts : Obligations.Verdicts := by
  unfold Obligations.Verdicts
  intro s y alive running forward opened vint
  have takes (vd : Verdict) (first : y.verdict = none) :
      exec (.verdict s.openVintage s.openAttempt vd) s = .next (s.taken s.openVintage s.openAttempt vd) :=
    congrArg Host.Outcome.next (verdictIn_eq alive running (current_open opened) forward (by rw [vint]; exact first))
  refine ⟨fun unsent member trains reduced => ?sends, fun idle => congrArg Host.Outcome.next (verdictReport_idle vint idle),
    fun r rv ra awaited fresh missing => ?counted, fun r h =>
      (exec_verdictReportReceived alive running r).trans (congrArg Host.Outcome.next (takeVerdict_ignores h)), fun vd first unrecorded => ?taken,
    fun vd r first recorded differs => ?differs, fun v a vd h => congrArg Host.Outcome.next (verdictIn_ignores ?ignored)⟩
  case sends =>
    refine ⟨_, congrArg Host.Outcome.next (verdictReport_sends alive running forward vint unsent member trains reduced),
      congrArg (Msg.verdictReport s.domainHead s.ownCounts :: ·) (out_reported s), ?_, tiles_reported s⟩
    have sent : (s.reported.send (.verdictReport s.domainHead s.ownCounts)).vint s.openVintage = s.reported.vint s.openVintage := rfl
    rw [sent, vint_reported, vint]
    rfl
  case counted =>
    have current : s.current r.vintage r.attempt = true := by rw [rv, ra]; exact current_open opened
    refine ⟨s.collected r, ?_, rfl, rfl⟩
    rw [exec_verdictReportReceived alive running, takeVerdict_keeps_report current awaited fresh missing]
  case taken =>
    have held : (s.vint s.openVintage).bind (·.recorded) = none := by rw [vint]; exact unrecorded
    refine ⟨_, takes vd first, ?_, ?_, numeric_taken, check_taken held, tiles_taken ..⟩
    · rw [vint_taken, vint]; rfl
    · rw [vint_taken, held, vint]; rfl
  case differs =>
    have held : (s.vint s.openVintage).bind (·.recorded) = some r := by rw [vint]; exact recorded
    refine ⟨_, takes vd first, ?_, divergent_taken held differs, tiles_taken ..⟩
    rw [vint_taken, held, vint]; rfl
  case ignored =>
    by_cases now : v = s.openVintage ∧ a = s.openAttempt
    · obtain ⟨rfl, rfl⟩ := now
      refine .inr ?_
      rw [vint]
      exact (h.resolve_left (· rfl)).resolve_left (· rfl)
    · exact .inl (current_false (not_and_or.1 now))

end Sys2Proof.Machine

/-!
PROOFS. PARTIAL_FRAME (R212 to R222, R309): what the slots of an owner take, and what a frame leaves of everything else.
-/
namespace Sys2Proof.Machine

/-! ## Work on slots (R215) -/

/-- From `s` to `u` slots have been worked on for the tile `tl`: its store and its numeric flags may have changed, and HBM and the job. -/
structure SlotsWorked (tl : TileRef) (s u : State) : Prop where
  frame : u = { s with tiles := u.tiles, mem := u.mem, job := u.job }
  others : ∀ v, tkey v ≠ tkey tl → u.tile v = s.tile v
  tile : u.tile tl = { s.tile tl with store := (u.tile tl).store, numFlags := (u.tile tl).numFlags }

namespace SlotsWorked
variable {tl : TileRef} {s u v : State}

theorem refl (tl : TileRef) (s : State) : SlotsWorked tl s s := ⟨rfl, fun _ _ => rfl, rfl⟩

theorem trans (a : SlotsWorked tl s u) (b : SlotsWorked tl u v) : SlotsWorked tl s v :=
  ⟨b.frame.trans (congrArg (fun x : State => { x with tiles := v.tiles, mem := v.mem, job := v.job }) a.frame),
    fun x hx => (b.others x hx).trans (a.others x hx),
    b.tile.trans (congrArg (fun x : Tile => { x with store := (v.tile tl).store, numFlags := (v.tile tl).numFlags }) a.tile)⟩

theorem foldl {α : Type} {f : State → α → State} (l : List α) (s : State) (h : ∀ x a, SlotsWorked tl x (f x a)) :
    SlotsWorked tl s (l.foldl f s) :=
  List.foldlRecOn l f (refl tl s) fun x hx a _ => hx.trans (h x a)

theorem setTile (s : State) {t : Tile} (h : t = { s.tile tl with store := t.store, numFlags := t.numFlags }) :
    SlotsWorked tl s (s.setTile tl t) where
  frame := rfl
  others _ hv := State.tile_setTile_other s t hv
  tile := by rw [State.tile_setTile_same]; exact h

theorem failBit (tl : TileRef) (s : State) (f : Field) : SlotsWorked tl s (s.failBit f) := ⟨rfl, fun _ _ => rfl, rfl⟩

theorem packedBad (tl : TileRef) (s : State) : SlotsWorked tl s (s.packedBad tl) := (setTile s rfl).trans (failBit ..)

theorem putAt (tl : TileRef) (s : State) (a : Nat) (bs : List Byte) : SlotsWorked tl s (s.putAt tl a bs) := by
  unfold State.putAt
  split
  · exact setTile s rfl
  · exact ⟨rfl, fun _ _ => rfl, rfl⟩

theorem slotOp (tl : TileRef) (s : State) (a : Nat) (f : Line → Line) : SlotsWorked tl s (s.slotOp tl a f) := by
  have flagged (l : Line) (u : State) : SlotsWorked tl u
      (if l.ovf then u.onTile tl (fun t => { t with numFlags := setF t.numFlags numFlags_caskOvf 1 }) else u) := by
    split
    · exact setTile u rfl
    · exact refl tl u
  unfold State.slotOp
  extract_lets r spare l u w
  have worked : SlotsWorked tl s w := (putAt ..).trans (flagged l u)
  split
  · exact worked.trans (packedBad ..)
  · exact worked

/-! ## The records of a frame (R217 to R221, R252) -/

theorem combineCmp (tl : TileRef) (s : State) (c : Coll) (f : Frame) (takeMax : Bool) : SlotsWorked tl s (s.combineCmp tl c f takeMax) :=
  foldl _ s fun _ _ => putAt ..

theorem combineSum (tl : TileRef) (s : State) (c : Coll) (f : Frame) : SlotsWorked tl s (s.combineSum tl c f) := by
  unfold State.combineSum
  split
  · exact foldl _ s fun _ _ => slotOp ..
  · exact foldl _ s fun _ _ => slotOp ..

theorem placeReturned (tl : TileRef) (s : State) (c : Coll) (f : Frame) (e : Nat) : SlotsWorked tl s (s.placeReturned tl c f e) := by
  unfold State.placeReturned
  extract_lets t
  split
  · exact refl tl s
  · refine foldl _ s fun x j => ?_
    split
    · exact refl tl x
    · exact putAt ..

theorem combine (tl : TileRef) (s : State) (c : Coll) (f : Frame) : SlotsWorked tl s (s.combine tl c f) := by
  unfold State.combine
  split
  · exact putAt ..
  · exact putAt ..
  · exact placeReturned ..
  · exact combineSum ..
  · exact combineCmp ..
  · exact combineCmp ..

theorem fillUnfed (tl : TileRef) (s : State) (c : Coll) : SlotsWorked tl s (s.fillUnfed tl c) := by
  unfold State.fillUnfed
  split
  · exact refl tl s
  · exact refl tl s
  · exact refl tl s
  · refine foldl _ s fun x j => ?_
    split
    · exact refl tl x
    · exact putAt ..

end SlotsWorked

namespace State

/-! ## What is written where -/

section
variable {s : State} {tl : TileRef} {a : Nat}

theorem store_putAt (h : a < storeBytes) (bs : List Byte) : ((s.putAt tl a bs).tile tl).store = Memory.writeN (s.tile tl).store a bs := by
  unfold putAt
  rw [if_pos h, tile_onTile_same]

/-- A sound slot takes the line that the change makes of its own. -/
theorem store_slotOp (h : a < storeBytes) (sound : badSlot (s.slotAt tl a) = false) (f : Line → Line) :
    ((s.slotOp tl a f).tile tl).store = Memory.writeN (s.tile tl).store a (slotBytes (f (slotLine (s.slotAt tl a)))) := by
  unfold slotOp
  simp only [sound, Bool.false_eq_true, if_false]
  split
  · rw [tile_onTile_same, store_putAt h]
  · exact store_putAt h _

end

/-- Two states show a tile the same slots, in its store and in SCRATCH. -/
structure SameSlots (tl : TileRef) (s u : State) : Prop where
  store : (s.tile tl).store = (u.tile tl).store
  mem : s.mem = u.mem

namespace SameSlots
variable {tl : TileRef} {s u : State}

theorem cmpAt (h : SameSlots tl s u) (a : Nat) : s.cmpAt tl a = u.cmpAt tl a := by
  unfold State.cmpAt bytesAt
  rw [h.store, h.mem]

theorem putAt (h : SameSlots tl s u) (a : Nat) (bs : List Byte) : SameSlots tl (s.putAt tl a bs) (u.putAt tl a bs) := by
  by_cases inner : a < storeBytes
  · refine ⟨by rw [store_putAt inner, store_putAt inner, h.store], ?_⟩
    unfold State.putAt
    rw [if_pos inner, if_pos inner]
    exact h.mem
  · unfold State.putAt
    rw [if_neg inner, if_neg inner]
    exact ⟨h.store, congrArg (Memory.writeN · a bs) h.mem⟩

theorem fillUnfed (h : SameSlots tl s u) (c : Coll) : SameSlots tl (s.fillUnfed tl c) (u.fillUnfed tl c) := by
  unfold State.fillUnfed
  split
  · exact h
  · exact h
  · exact h
  · refine List.foldl_rel h fun j _ x y same => ?_
    rw [same.cmpAt]
    split
    · exact same
    · exact same.putAt ..

end SameSlots

/-! ## The cellar (R309) -/

theorem onVint_frame (s : State) (v : Nat) (f : Vint → Vint) :
    s.onVint v f = { s with job := (s.onVint v f).job, step := (s.onVint v f).step } := by
  unfold onVint onJob refreshCellar; rfl

theorem bits_onVint (s : State) (v : Nat) (f : Vint → Vint) : (s.onVint v f).job.bits = s.job.bits := by
  unfold onVint onJob refreshCellar; rfl

theorem cellarFrame_frame (s : State) (tl : TileRef) (c : Coll) (f : Frame) :
    s.cellarFrame tl c f = { s with job := (s.cellarFrame tl c f).job, step := (s.cellarFrame tl c f).step } := by
  unfold cellarFrame
  extract_lets g
  split
  · rfl
  · split
    · split
      · rfl
      · rfl
    · exact onVint_frame ..

theorem tile_cellarFrame (s : State) (tl u : TileRef) (c : Coll) (f : Frame) : (s.cellarFrame tl c f).tile u = s.tile u :=
  tile_congr (by rw [cellarFrame_frame]) u

/-- The vintage at hand has absorbed a regenerated frame. -/
def absorbing (s : State) (tl : TileRef) (f : Frame) : State :=
  s.onVint s.openVintage (fun v => { v with absorbed := (tl, { f.ident with attempt := 0 }) :: v.absorbed })

section
variable {s : State} {tl : TileRef} {f g : Frame} {y : Vint} (vint : s.vint s.openVintage = some y)
  (first : (tl, { f.ident with attempt := 0 }) ∉ y.absorbed)
include vint first

theorem absorb_first : s.absorb tl f g =
    if setF f.w0 fr_attempt 0 = setF g.w0 fr_attempt 0 ∧ f.w1 = g.w1 ∧ f.w2 = g.w2 ∧ f.recs = g.recs then s.absorbing tl f
    else (s.absorbing tl f).failBit stepCheckStatus_divergent := by
  unfold absorb
  exact if_neg (by simpa [vint] using first)

theorem absorb_frame : s.absorb tl f g = { s with job := (s.absorb tl f g).job, step := (s.absorb tl f g).step } := by
  have absorbs : s.absorbing tl f = { s with job := (s.absorbing tl f).job, step := (s.absorbing tl f).step } := onVint_frame ..
  rw [absorb_first vint first]
  split
  · exact absorbs
  · exact congrArg (failBit · stepCheckStatus_divergent) absorbs

theorem bits_absorb_same (w0 : setF f.w0 fr_attempt 0 = setF g.w0 fr_attempt 0) (w1 : f.w1 = g.w1) (w2 : f.w2 = g.w2)
    (recs : f.recs = g.recs) : (s.absorb tl f g).job.bits = s.job.bits := by
  rw [absorb_first vint first, if_pos ⟨w0, w1, w2, recs⟩]
  exact bits_onVint ..

theorem divergent_absorb (h : f.recs ≠ g.recs) : (s.absorb tl f g).job.bits.testBit stepCheckStatus_divergent.lo = true := by
  rw [absorb_first vint first, if_neg fun ⟨_, _, _, same⟩ => h same]
  exact testBit_failed ..

end

/-! ## The last frame of a collective (R222, R225) -/

theorem syncAdd_counts {s : State} {tl : TileRef} {k n : Nat} (h : counter (s.tile tl) k + n ≤ 0xffffffff) :
    s.syncAdd tl k n = s.setTile tl (countedTile s.now k n (s.tile tl)) := by
  unfold syncAdd
  exact if_neg (Nat.not_lt.2 h)

theorem counter_fillUnfed (s : State) (tl : TileRef) (c : Coll) (j : Nat) :
    counter ((s.fillUnfed tl c).tile tl) j = counter (s.tile tl) j := by
  rw [(SlotsWorked.fillUnfed tl s c).tile]; rfl

theorem accepted_fillUnfed (s : State) (tl : TileRef) (c : Coll) : ((s.fillUnfed tl c).tile tl).accepted = (s.tile tl).accepted := by
  rw [(SlotsWorked.fillUnfed tl s c).tile]

/-- A tile with one more on the counter `k` of a collective, and `w` for what it awaits of the fabric. -/
def collectedTile (now k : Nat) (w : Word) (t : Tile) : Tile := { countedTile now k 1 t with redStatus := w }

theorem counter_collectedTile (now k : Nat) (w : Word) (t : Tile) (j : Nat) :
    counter (collectedTile now k w t) j = counter t j + if j = k then 1 else 0 := counter_countedTile now k 1 t j

section
variable {s : State} {tl : TileRef} {c : Coll} (plain : c.amax = none)
include plain

/-- A collective that brings no amax fills its unfed slots and counts. -/
theorem tile_collDone (fits : counter (s.tile tl) c.counter < 0xffffffff) :
    ∃ now w, (s.collDone tl c).tile tl = collectedTile now c.counter w ((s.fillUnfed tl c).tile tl) := by
  have same := counter_fillUnfed s tl c c.counter
  unfold collDone takeAmax
  simp only [plain]
  rw [tile_onTile_same, syncAdd_counts (by omega), tile_setTile_same]
  split
  · split
    · exact ⟨_, _, rfl⟩
    · exact ⟨_, _, rfl⟩
  · exact ⟨_, _, rfl⟩

theorem tile_collDone_other {u : TileRef} (hu : tkey u ≠ tkey tl) (fits : counter (s.tile tl) c.counter < 0xffffffff) :
    (s.collDone tl c).tile u = s.tile u := by
  have same := counter_fillUnfed s tl c c.counter
  unfold collDone takeAmax
  simp only [plain]
  rw [tile_onTile_other _ _ hu, syncAdd_counts (by omega), tile_setTile_other _ _ hu, (SlotsWorked.fillUnfed tl s c).others u hu]

end

/-! ## A frame that is taken (R213, R222, R228) -/

/-- A tile with one frame more. -/
def framedTile (c : Coll) (f : Frame) (t : Tile) : Tile :=
  { t with
    accepted := f.ident :: t.accepted
    ringGot := if (ringOf t).any (fun r => r.coll == c.id) then t.ringGot + 1 else t.ringGot
    seq := { t.seq with inRows := t.seq.inRows + f.count } }

/-- The state in which the records of a frame stand in their slots and the frame is counted. -/
def framed (s : State) (tl : TileRef) (c : Coll) (f : Frame) : State := (s.combine tl c f).onTile tl (framedTile c f)

/-- The frames of a frame's collective, vintage and attempt that a tile has accepted, that frame among them. -/
def gathered (t : Tile) (f : Frame) : List FrameId :=
  (f.ident :: t.accepted).filter (fun x => x.coll == f.ident.coll && x.vintage == f.ident.vintage && x.attempt == f.ident.attempt)

section
variable (s : State) (tl : TileRef) (c : Coll) (f : Frame)

theorem tile_framed : (s.framed tl c f).tile tl = framedTile c f ((s.combine tl c f).tile tl) := tile_onTile_same ..

theorem tile_framed_other {u : TileRef} (hu : tkey u ≠ tkey tl) : (s.framed tl c f).tile u = s.tile u :=
  (tile_onTile_other _ _ hu).trans ((SlotsWorked.combine tl s c f).others u hu)

theorem framed_frame :
    s.framed tl c f = { s with tiles := (s.framed tl c f).tiles, mem := (s.framed tl c f).mem, job := (s.framed tl c f).job } :=
  congrArg (onTile · tl (framedTile c f)) (SlotsWorked.combine tl s c f).frame

theorem accepted_framed : ((s.framed tl c f).tile tl).accepted = f.ident :: (s.tile tl).accepted := by
  rw [tile_framed, (SlotsWorked.combine tl s c f).tile]; rfl

theorem counters_framed : ((s.framed tl c f).tile tl).counters = (s.tile tl).counters := by
  rw [tile_framed, (SlotsWorked.combine tl s c f).tile]; rfl

theorem counter_framed (j : Nat) : counter ((s.framed tl c f).tile tl) j = counter (s.tile tl) j :=
  congrArg (Sparse.get 0 · j) (counters_framed s tl c f)

theorem casks_framed : ((s.framed tl c f).tile tl).casks = (s.tile tl).casks := by
  rw [tile_framed, (SlotsWorked.combine tl s c f).tile]; rfl

theorem seq_framed : ((s.framed tl c f).tile tl).seq = { (s.tile tl).seq with inRows := (s.tile tl).seq.inRows + f.count } := by
  rw [tile_framed, (SlotsWorked.combine tl s c f).tile]; rfl

theorem framed_sameSlots : SameSlots tl (s.framed tl c f) (s.combine tl c f) := ⟨by rw [tile_framed]; rfl, rfl⟩

theorem takeFrame_eq : s.takeFrame tl c f =
    if (gathered (s.tile tl) f).length = c.expected then (s.framed tl c f).collDone tl c else s.framed tl c f := by
  unfold gathered
  rw [← accepted_framed s tl c f]
  rfl

/-- The tile that has taken the last frame of a collective that brings no amax. -/
theorem tile_framed_collDone (plain : c.amax = none) (fits : counter (s.tile tl) c.counter < 0xffffffff) :
    let u := ((s.framed tl c f).collDone tl c).tile tl
    u.store = (((s.combine tl c f).fillUnfed tl c).tile tl).store ∧ u.accepted = f.ident :: (s.tile tl).accepted ∧
      ∀ j, counter u j = counter (s.tile tl) j + if j = c.counter then 1 else 0 := by
  obtain ⟨now, w, tile⟩ := tile_collDone (s := s.framed tl c f) plain (by rw [counter_framed]; exact fits)
  dsimp only
  rw [tile]
  exact ⟨((framed_sameSlots s tl c f).fillUnfed c).store, (accepted_fillUnfed ..).trans (accepted_framed ..), fun j => by
    rw [counter_collectedTile, counter_fillUnfed, counter_framed]⟩

end

/-! ## The checks of a frame, in their order -/

section
variable {s : State} {tl : TileRef} {f : Frame} (runs : s.stagesRun = true) (unfenced : s.partFenced tl.p = false)
include runs unfenced

theorem partialFrame_bad (bad : s.badFrame tl f = true) : s.partialFrame tl f =
    (s.onTile tl (fun t => { t with redStatus := bumpF t.redStatus redStatus_badFrames 1 })).failBit stepCheckStatus_frame := by
  simp [partialFrame, runs, unfenced, bad]

variable (good : s.badFrame tl f = false)
include good

theorem partialFrame_stale (age : s.frameAge f.ident = .lt) :
    s.partialFrame tl f = s.onTile tl (fun t => { t with redStatus := bumpF t.redStatus redStatus_stale 1 }) := by
  simp [partialFrame, runs, unfenced, good, age]

theorem partialFrame_early (age : s.frameAge f.ident = .gt) : s.partialFrame tl f = s := by
  simp [partialFrame, runs, unfenced, good, age]

variable {c : Coll} (age : s.frameAge f.ident = .eq) (coll : s.collOf tl f.ident.coll = some c)
include age coll

theorem partialFrame_held {g : Frame} (held : s.heldFull tl f.ident = some g) : s.partialFrame tl f = s.absorb tl f g := by
  simp [partialFrame, runs, unfenced, good, age, coll, held]

variable (unheld : s.heldFull tl f.ident = none)
include unheld

theorem partialFrame_again (again : f.ident ∈ (s.tile tl).accepted) : s.partialFrame tl f =
    (s.onTile tl (fun t => { t with redStatus := bumpF t.redStatus redStatus_dup 1 })).failBit stepCheckStatus_frame := by
  simp [partialFrame, runs, unfenced, good, age, coll, unheld, again]

variable (first : f.ident ∉ (s.tile tl).accepted)
include first

theorem partialFrame_first : s.partialFrame tl f =
    if ringFull (s.tile tl) c then s else if frameBeyond c f then s.tileFault tl 9 else s.acceptFrame tl c f := by
  simp [partialFrame, runs, unfenced, good, age, coll, unheld, first]

end

/-! ## What an accepted frame writes -/

section
variable {s : State} {tl : TileRef} {c : Coll} {f : Frame}

theorem store_combine_gather (kind : c.kind = .gather) (inner : collPlace c f < storeBytes) :
    ((s.combine tl c f).tile tl).store = Memory.writeN (s.tile tl).store (collPlace c f) f.recs := by
  have placed : s.combine tl c f = s.putAt tl (collPlace c f) f.recs := by simp only [combine, kind]
  rw [placed, store_putAt inner]

/-- One FP32 value enters one slot. -/
theorem store_combine_sum (kind : c.kind = .sum) (one : f.count = 1) (fp32 : f.payload = 1) (inner : collSlot c f.base < storeBytes)
    (sound : badSlot (s.slotAt tl (collSlot c f.base)) = false) :
    ((s.combine tl c f).tile tl).store = Memory.writeN (s.tile tl).store (collSlot c f.base)
      (slotBytes ((slotLine (s.slotAt tl (collSlot c f.base))).take (Line.ofWide (fmtFp32.decode (readBytes f.recs 0 4))))) := by
  have wide : f.wideFmt = some fmtFp32 := by simp only [Frame.wideFmt, fp32]
  have added : s.combine tl c f =
      s.slotOp tl (collSlot c f.base) (fun l => l.take (Line.ofWide (fmtFp32.decode (readBytes f.recs 0 4)))) := by
    have width : fmtFp32.w / 8 = 4 := rfl
    simp only [combine, kind, combineSum, wide, one, width, List.range_one, List.foldl_cons, List.foldl_nil, Nat.add_zero, Nat.zero_mul]
  rw [added, store_slotOp inner sound]

section
variable (more : (gathered (s.tile tl) f).length ≠ c.expected)
include more

theorem acceptFrame_more : s.acceptFrame tl c f = (s.framed tl c f).cellarFrame tl c f := by
  unfold acceptFrame
  rw [takeFrame_eq, if_neg more]

theorem acceptFrame_more_frame :
    s.acceptFrame tl c f = { s with tiles := (s.acceptFrame tl c f).tiles, mem := (s.acceptFrame tl c f).mem,
                                    job := (s.acceptFrame tl c f).job, step := (s.acceptFrame tl c f).step } := by
  rw [acceptFrame_more more]
  have cellar := cellarFrame_frame (s.framed tl c f) tl c f
  rw [cellar]
  exact congrArg (fun x : State => { x with job := ((s.framed tl c f).cellarFrame tl c f).job,
                                            step := ((s.framed tl c f).cellarFrame tl c f).step }) (framed_frame s tl c f)

theorem tile_acceptFrame_more (u : TileRef) : (s.acceptFrame tl c f).tile u = (s.framed tl c f).tile u := by
  rw [acceptFrame_more more, tile_cellarFrame]

theorem mem_acceptFrame_more : (s.acceptFrame tl c f).mem = (s.combine tl c f).mem := by
  rw [acceptFrame_more more, cellarFrame_frame]; rfl

theorem store_acceptFrame_more : ((s.acceptFrame tl c f).tile tl).store = ((s.combine tl c f).tile tl).store := by
  rw [tile_acceptFrame_more more, (framed_sameSlots s tl c f).store]

end

section
variable (last : (gathered (s.tile tl) f).length = c.expected)
include last

theorem acceptFrame_last : s.acceptFrame tl c f = ((s.framed tl c f).collDone tl c).cellarFrame tl c f := by
  unfold acceptFrame
  rw [takeFrame_eq, if_pos last]

theorem tile_acceptFrame_last (u : TileRef) : (s.acceptFrame tl c f).tile u = ((s.framed tl c f).collDone tl c).tile u := by
  rw [acceptFrame_last last, tile_cellarFrame]

theorem tile_acceptFrame_last_other (plain : c.amax = none) (fits : counter (s.tile tl) c.counter < 0xffffffff) {u : TileRef}
    (hu : tkey u ≠ tkey tl) : (s.acceptFrame tl c f).tile u = s.tile u := by
  rw [tile_acceptFrame_last last, tile_collDone_other plain hu (by rw [counter_framed]; exact fits), tile_framed_other _ _ _ _ hu]

end
end

end State

open State

/-- Settles O33: each check of a frame answers in its order; the slots of an accepted frame change by `combine` alone, which leaves the
rest of the owner and every other tile, and the last expected frame fills what nothing reached and counts once. -/
theorem partialFrames : Obligations.PartialFrames := by
  unfold Obligations.PartialFrames
  intro s tl f _ runs unfenced t
  refine ⟨fun bad => ⟨_, congrArg Host.Outcome.next (partialFrame_bad runs unfenced bad), testBit_failed .., rfl⟩, fun good =>
    ⟨fun age => congrArg Host.Outcome.next (partialFrame_stale runs unfenced good age),
      fun age => congrArg Host.Outcome.next (partialFrame_early runs unfenced good age), fun c g y age coll held vint fresh => ?held,
      fun c age coll unheld => ?unheld⟩⟩
  case held =>
    exact ⟨_, congrArg Host.Outcome.next (partialFrame_held runs unfenced good age coll held), absorb_frame vint fresh,
      bits_absorb_same vint fresh, divergent_absorb vint fresh⟩
  case unheld =>
    have comes (first : f.ident ∉ t.accepted) : exec (.partialFrame tl f) s = .next
        (if ringFull t c then s else if frameBeyond c f then s.tileFault tl 9 else s.acceptFrame tl c f) :=
      congrArg Host.Outcome.next (partialFrame_first runs unfenced good age coll unheld first)
    refine ⟨fun again => ⟨_, congrArg Host.Outcome.next (partialFrame_again runs unfenced good age coll unheld again),
        testBit_failed ..,
        (tile_congr (failBit_tiles ..) tl).trans (tile_onTile_same ..),
        fun u hu => (tile_congr (failBit_tiles ..) u).trans (tile_onTile_other s _ hu)⟩,
      fun first full => by rw [comes first, if_pos full],
      fun first room beyond => ?beyond, fun first room within => ?accepted⟩
    case beyond =>
      have faults := tileFault_faultsTile s tl (code := 9) (by decide)
      exact ⟨_, by rw [comes first, if_neg (by simp [room]), if_pos beyond], faults.faultCode (by decide), faults.store⟩
    case accepted =>
      intro ids done
      have accepts : exec (.partialFrame tl f) s = .next (s.acceptFrame tl c f) := by
        rw [comes first, if_neg (by simp [room]), if_neg (by simp [within])]
      refine ⟨fun more => ?more, fun last plain fits => ?last⟩
      case more =>
        have tile := tile_acceptFrame_more (c := c) more
        have store := store_acceptFrame_more (c := c) more
        exact ⟨_, accepts, acceptFrame_more_frame more, store, mem_acceptFrame_more more, by rw [tile, accepted_framed],
          by rw [tile, counters_framed], by rw [tile, casks_framed], by rw [tile, seq_framed],
          fun u hu => by rw [tile, tile_framed_other _ _ _ _ hu],
          fun kind inner => .writeN (store.trans (store_combine_gather kind inner)),
          fun kind one fp32 inner sound => .writeN (store.trans (store_combine_sum kind one fp32 inner sound))⟩
      case last =>
        obtain ⟨store, accepted, counters⟩ := tile_framed_collDone s tl c f plain fits
        have tile := tile_acceptFrame_last (c := c) last tl
        exact ⟨_, accepts, by rw [tile, store], by rw [tile, accepted], fun j => by rw [tile, counters],
          fun u hu => tile_acceptFrame_last_other last plain fits hu⟩

end Sys2Proof.Machine

/-!
PROOFS. What a change to an open vintage leaves, what keeps a failed step check failed, and what the cellar serves a tile (R223,
R305, R309).
-/
namespace Sys2Proof.Machine

namespace State

/-! ## A change to an open vintage -/

section
variable (s : State) (v : Nat) (f : Vint → Vint)

theorem job_onVint : (s.onVint v f).job = { s.job with uncommitted := s.job.uncommitted.map (fun x => if x.v = v then f x else x) } := by
  unfold onVint onJob refreshCellar; rfl

theorem step_onVint : (s.onVint v f).step = { s.step with cellar := (s.onVint v f).step.cellar } := by
  unfold onVint onJob refreshCellar; rfl

theorem tiles_onVint : (s.onVint v f).tiles = s.tiles := by rw [onVint_frame]

theorem openV_onVint : (s.onVint v f).step.openV = s.step.openV := by rw [step_onVint]

theorem tagOf_onVint (tl : TileRef) : (s.onVint v f).tagOf tl = s.tagOf tl := by
  unfold tagOf openVintage openAttempt
  rw [tile_congr (tiles_onVint s v f), openV_onVint, job_onVint]

theorem frames_onVint (hf : ∀ x, (f x).frames = x.frames) :
    (s.onVint v f).job.uncommitted.map (·.frames) = s.job.uncommitted.map (·.frames) := by
  rw [job_onVint, List.map_map]
  refine List.map_congr_left fun x _ => ?_
  simp only [Function.comp]
  split
  · exact hf x
  · rfl

end

end State

/-! ## Failed conditions of the step check (R305) -/

/-- The conditions of the step check that had failed at `s` have failed at `u`. -/
structure StaysFailed (s u : State) : Prop where
  bits : ∀ k, s.job.bits.testBit k = true → u.job.bits.testBit k = true

namespace StaysFailed
variable {s u v : State}

theorem of_bits (h : u.job.bits = s.job.bits) : StaysFailed s u := ⟨fun k hk => by rwa [h]⟩

theorem refl (s : State) : StaysFailed s s := .of_bits rfl

theorem trans (a : StaysFailed s u) (b : StaysFailed u v) : StaysFailed s v := ⟨fun k hk => b.bits k (a.bits k hk)⟩

theorem foldl {α : Type} {f : State → α → State} (l : List α) (s : State) (h : ∀ x a, StaysFailed x (f x a)) : StaysFailed s (l.foldl f s) :=
  List.foldlRecOn l f (refl s) fun x hx a _ => hx.trans (h x a)

theorem failBit (s : State) (f : Field) : StaysFailed s (s.failBit f) where
  bits k hk := by
    unfold State.failBit
    simp [hk]

theorem setTile (s : State) (tl : TileRef) (t : Tile) : StaysFailed s (s.setTile tl t) := .of_bits rfl

theorem packedBad (s : State) (tl : TileRef) : StaysFailed s (s.packedBad tl) := (setTile s ..).trans (failBit ..)

theorem failFor (s : State) (f : Field) (code : Nat) : StaysFailed s (s.failFor f code) := (failBit s f).trans (.of_bits rfl)

theorem tileFault (s : State) (tl : TileRef) (code : Nat) : StaysFailed s (s.tileFault tl code) := by
  unfold State.tileFault
  extract_lets t st u
  have halts : StaysFailed s u := setTile ..
  split
  · exact setTile ..
  · split
    · exact halts.trans (failFor ..)
    · split
      · exact halts.trans (failFor ..)
      · exact halts.trans (failBit ..)

theorem syncAdd (s : State) (tl : TileRef) (k n : Nat) : StaysFailed s (s.syncAdd tl k n) := by
  unfold State.syncAdd
  extract_lets t v
  split
  · exact (setTile s ..).trans (tileFault ..)
  · exact setTile ..

/-! A frame that a tile takes (R217 to R222). -/

theorem putAt (s : State) (tl : TileRef) (a : Nat) (bs : List Byte) : StaysFailed s (s.putAt tl a bs) := by
  unfold State.putAt
  split
  · exact setTile ..
  · exact .of_bits rfl

theorem slotOp (s : State) (tl : TileRef) (a : Nat) (f : Line → Line) : StaysFailed s (s.slotOp tl a f) := by
  unfold State.slotOp
  extract_lets r spare l u w
  have worked : StaysFailed s w := by
    unfold w
    split
    · exact (putAt ..).trans (setTile ..)
    · exact putAt ..
  split
  · exact worked.trans (packedBad ..)
  · exact worked

theorem combineSum (s : State) (tl : TileRef) (c : Coll) (f : Frame) : StaysFailed s (s.combineSum tl c f) := by
  unfold State.combineSum
  split
  · exact foldl _ s fun _ _ => slotOp ..
  · exact foldl _ s fun _ _ => slotOp ..

theorem placeReturned (s : State) (tl : TileRef) (c : Coll) (f : Frame) (e : Nat) : StaysFailed s (s.placeReturned tl c f e) := by
  unfold State.placeReturned
  extract_lets t
  split
  · exact refl s
  · refine foldl _ s fun x j => ?_
    split
    · exact refl x
    · exact putAt ..

theorem combine (s : State) (tl : TileRef) (c : Coll) (f : Frame) : StaysFailed s (s.combine tl c f) := by
  unfold State.combine
  split
  · exact putAt ..
  · exact putAt ..
  · exact placeReturned ..
  · exact combineSum ..
  · exact foldl _ s fun _ _ => putAt ..
  · exact foldl _ s fun _ _ => putAt ..

theorem fillUnfed (s : State) (tl : TileRef) (c : Coll) : StaysFailed s (s.fillUnfed tl c) := by
  unfold State.fillUnfed
  split
  · exact refl s
  · exact refl s
  · exact refl s
  · refine foldl _ s fun x j => ?_
    split
    · exact refl x
    · exact putAt ..

theorem takeAmax (s : State) (tl : TileRef) (c : Coll) : StaysFailed s (s.takeAmax tl c) := by
  unfold State.takeAmax
  split
  · exact refl s
  · exact .of_bits rfl

theorem collDone (s : State) (tl : TileRef) (c : Coll) : StaysFailed s (s.collDone tl c) :=
  (((fillUnfed s tl c).trans (takeAmax ..)).trans (syncAdd ..)).trans (setTile ..)

theorem takeFrame (s : State) (tl : TileRef) (c : Coll) (f : Frame) : StaysFailed s (s.takeFrame tl c f) := by
  have framed : StaysFailed s (s.framed tl c f) := (combine s tl c f).trans (setTile ..)
  rw [State.takeFrame_eq]
  split
  · exact framed.trans (collDone ..)
  · exact framed

end StaysFailed

/-! ## Frames that the cellar serves (R223, R309) -/

/-- An entry of a map whose every value is changed. -/
theorem Sparse.get_mapV {α : Type} [DecidableEq α] {d : α} {f : α → α} (hd : f d = d) {b : Nat} {m : Sparse α}
    (h : Sparse.wfFrom d b m = true) (k : Nat) : Sparse.get d (Sparse.mapV d f m) k = f (Sparse.get d m k) := by
  induction m generalizing b with
  | nil => exact hd.symm
  | cons x m ih =>
    obtain ⟨j, v⟩ := x
    simp only [Sparse.wfFrom, Bool.and_eq_true, decide_eq_true_eq] at h
    have tail := ih h.2
    unfold Sparse.mapV
    by_cases e : j = k
    · subst e
      rw [Sparse.get_below h.2 (Nat.lt_succ_self j)] at tail
      split
      · next dropped => rw [tail, hd]; simp [Sparse.get, dropped]
      · simp [Sparse.get]
    · split
      · simpa [Sparse.get, e] using tail
      · simpa [Sparse.get, e] using tail

namespace State

section
variable {s : State} (tl : TileRef) (c : Coll)

theorem tile_allTiles (hc : Canonical s) {f : Tile → Tile} (reset : f Tile.reset = Tile.reset) (v : TileRef) :
    (s.allTiles f).tile v = f (s.tile v) := Sparse.get_mapV reset hc.tiles (tkey v)

/-- The amax of a collective changes scale slots alone. -/
theorem seq_takeAmax (hc : Canonical s) (v : TileRef) : ((s.takeAmax tl c).tile v).seq = (s.tile v).seq := by
  unfold takeAmax
  split
  · rfl
  · rw [tile_allTiles hc rfl]

theorem seq_syncAdd (s : State) (tl : TileRef) (k n : Nat) : ((s.syncAdd tl k n).tile tl).seq = (s.tile tl).seq := by
  by_cases fits : counter (s.tile tl) k + n ≤ 0xffffffff
  · rw [syncAdd_counts fits, tile_setTile_same]
    unfold countedTile
    rfl
  · have overflow : s.syncAdd tl k n = (s.setTile tl (racedTile (s.tile tl))).tileFault tl 5 := if_pos (Nat.not_le.1 fits)
    rw [overflow, (tileFault_faultsTile _ tl (by decide)).tile, tile_setTile_same]
    unfold faultedTile racedTile
    rfl

theorem seq_collDone (hc : Canonical s) : ((s.collDone tl c).tile tl).seq = (s.tile tl).seq := by
  have filled : ((s.fillUnfed tl c).tile tl).seq = (s.tile tl).seq := by rw [(SlotsWorked.fillUnfed tl s c).tile]
  have counted : ((((s.fillUnfed tl c).takeAmax tl c).syncAdd tl c.counter 1).tile tl).seq = (s.tile tl).seq := by
    rw [seq_syncAdd, seq_takeAmax _ _ ((fillUnfed_keeps (.refl s) ..).canon hc), filled]
  unfold collDone
  rw [tile_onTile_same]
  split
  · split
    · exact counted
    · exact counted
  · exact counted

theorem skipped_takeFrame (hc : Canonical s) (f : Frame) : ((s.takeFrame tl c f).tile tl).seq.skipped = (s.tile tl).seq.skipped := by
  have framed : Canonical (s.framed tl c f) := (onTile_keeps (combine_keeps (.refl s) tl c f) tl (framedTile c f) fun _ h => h).canon hc
  rw [takeFrame_eq]
  split
  · rw [seq_collDone tl c framed, seq_framed]
  · rw [seq_framed]

/-- What holds before and after every frame taken holds after the cellar has served. -/
theorem serveFrames_induct {P : State → Prop} (first : P s) (next : ∀ u c f, P u → P (u.takeFrame tl c f)) : P (s.serveFrames tl) := by
  unfold serveFrames
  extract_lets ents
  split
  · exact first
  · refine List.foldlRecOn _ _ first fun u hu e _ => ?_
    split
    · dsimp only
      split
      · exact next _ _ _ hu
      · exact hu
    · exact hu

theorem staysFailed_serveFrames : StaysFailed s (s.serveFrames tl) :=
  serveFrames_induct tl (.refl s) fun u c f h => h.trans (.takeFrame u tl c f)

/-- The lots that a tile has skipped stay skipped while the cellar serves it. -/
theorem skipped_serveFrames (hc : Canonical s) : ((s.serveFrames tl).tile tl).seq.skipped = (s.tile tl).seq.skipped := by
  refine (serveFrames_induct tl (P := fun u => Canonical u ∧ (u.tile tl).seq.skipped = (s.tile tl).seq.skipped) ⟨hc, rfl⟩ ?_).2
  exact fun u c f ⟨canon, same⟩ => ⟨(takeFrame_keeps (.refl u) ..).canon canon, (skipped_takeFrame tl c canon f).trans same⟩

/-- A tile whose every frame in the cellar is of this attempt, or not kept whole, is served none. -/
theorem serveFrames_unserved (quiet : Unserved s tl) : s.serveFrames tl = s := by
  unfold serveFrames
  extract_lets ents
  have own : ∀ e ∈ ents, e.tl = tl → e.full = none ∨ e.attempt = s.openAttempt := by
    unfold ents vint
    cases open_ : s.job.uncommitted.find? (fun x => x.v == s.openVintage) with
    | none => simp
    | some y => exact fun e he => quiet y (List.mem_of_find?_eq_some open_) e he
  split
  · rfl
  · refine List.foldlRecOn ents.reverse _ (motive := fun u => u = s) rfl fun u same e he => ?_
    subst same
    have mine := own e (List.mem_reverse.1 he)
    split
    · next f c full _ =>
      refine if_neg fun ⟨here, earlier, _⟩ => ?_
      rcases mine here with absent | now
      · simp [full] at absent
      · exact earlier now
    · rfl

end

end State
end Sys2Proof.Machine

/-!
PROOFS. PREDICATE and END_OF_PHASE (R203, R255 to R257, R317, R512): what the records and the frames of a skip leave alone, and
the end of a lot.
-/
namespace Sys2Proof.Machine

/-! ## Records and frames that leave -/

/-- From `s` to `u` decisions have been recorded and frames have left for the tile `tl`: what issuing and retiring read stays, and so
do the frames that the cellar holds; a failed condition stays failed. -/
structure Reported (tl : TileRef) (s u : State) : Prop where
  frame : u = { s with tiles := u.tiles, job := u.job, step := u.step, out := u.out }
  others : ∀ v, tkey v ≠ tkey tl → u.tile v = s.tile v
  flow : SameFlow (s.tile tl) (u.tile tl)
  tag : u.tagOf tl = s.tagOf tl
  bits : StaysFailed s u
  frames : u.job.uncommitted.map (·.frames) = s.job.uncommitted.map (·.frames)
  attempt : u.openAttempt = s.openAttempt

namespace Reported
variable {tl : TileRef} {s u v : State}

theorem refl (tl : TileRef) (s : State) : Reported tl s s := ⟨rfl, fun _ _ => rfl, .refl _, rfl, .refl s, rfl, rfl⟩

theorem trans (a : Reported tl s u) (b : Reported tl u v) : Reported tl s v where
  frame := b.frame.trans (congrArg (fun x : State => { x with tiles := v.tiles, job := v.job, step := v.step, out := v.out }) a.frame)
  others x hx := (b.others x hx).trans (a.others x hx)
  flow := a.flow.trans b.flow
  tag := b.tag.trans a.tag
  bits := a.bits.trans b.bits
  frames := b.frames.trans a.frames
  attempt := b.attempt.trans a.attempt

theorem foldl {α : Type} {f : State → α → State} (l : List α) (s : State) (h : ∀ x a, Reported tl x (f x a)) :
    Reported tl s (l.foldl f s) :=
  List.foldlRecOn l f (refl tl s) fun x hx a _ => hx.trans (h x a)

theorem failBit (tl : TileRef) (s : State) (f : Field) : Reported tl s (s.failBit f) :=
  ⟨rfl, fun _ _ => rfl, .refl _, rfl, .failBit s f, rfl, rfl⟩

/-- A change to an open vintage, its frames left. -/
theorem onVint (tl : TileRef) (s : State) (n : Nat) {f : Vint → Vint} (hf : ∀ x, (f x).frames = x.frames) : Reported tl s (s.onVint n f) where
  frame := by rw [State.onVint_frame]
  others v _ := State.tile_congr (State.tiles_onVint ..) v
  flow := by rw [State.tile_congr (State.tiles_onVint ..)]; exact .refl _
  tag := State.tagOf_onVint ..
  bits := .of_bits (State.bits_onVint ..)
  frames := State.frames_onVint s n f hf
  attempt := by unfold State.openAttempt; rw [State.openV_onVint]

theorem logSend (tl : TileRef) (s : State) (bs : List Byte) : Reported tl s (s.logSend bs) := by
  unfold State.logSend
  extract_lets k g
  split
  · split
    · exact refl tl s
    · exact failBit ..
  · exact onVint tl s _ fun _ => rfl

theorem onTile (s : State) {f : Tile → Tile} (hf : ∀ t, SameFlow t (f t)) : Reported tl s (s.onTile tl f) where
  frame := rfl
  others _ hv := State.tile_onTile_other s f hv
  flow := by rw [State.tile_onTile_same]; exact hf _
  tag := by
    unfold State.tagOf
    rw [State.tile_onTile_same, (hf (s.tile tl)).seq]
    rfl
  bits := .setTile s tl _
  frames := rfl
  attempt := rfl

theorem send (tl : TileRef) (s : State) (m : Msg) : Reported tl s (s.send m) :=
  ⟨rfl, fun _ _ => rfl, .refl _, rfl, .of_bits rfl, rfl, rfl⟩

theorem routeSend (tl : TileRef) (s : State) (o : FrameOut) (count : Nat) (recs : List Byte) : Reported tl s (s.routeSend tl o count recs) := by
  have logged : Reported tl s (if (s.tile tl).seq.evaluating then s else s.logSend (s.frameOf tl o count recs)) := by
    split
    · exact refl tl s
    · exact logSend ..
  exact (logged.trans (send ..)).trans (onTile _ fun t => sameFlow_ringPassed t o.route)

theorem skipSend (tl : TileRef) (s : State) (empty : Bool) : Reported tl s (s.skipSend tl empty) := by
  unfold State.skipSend
  refine foldl _ s fun x o => ?_
  split
  · exact routeSend ..
  · exact routeSend ..

/-- The records that a frame bears are those of before. -/
theorem frameOf (h : Reported tl s u) : u.frameOf tl = s.frameOf tl := by
  have dev : u.devId = s.devId := by rw [h.frame]; rfl
  unfold State.frameOf
  rw [dev, h.tag]

/-- What the cellar does not serve before it does not serve after. -/
theorem unserved (h : Reported tl s u) (quiet : Unserved s tl) : Unserved u tl := by
  intro y hy e he
  have held : y.frames ∈ s.job.uncommitted.map (·.frames) := h.frames ▸ List.mem_map_of_mem hy
  obtain ⟨x, hx, same⟩ := List.mem_map.1 held
  rw [h.attempt]
  exact quiet x hx e (same ▸ he)

end Reported

namespace State

/-! ## A decision of a predicate (R257) -/

/-- The ledger with the record of a skip; a lot that is not skipped leaves none (log 74). -/
def skipNoted (s : State) (tl : TileRef) (src : Nat) (holds : Bool) : State :=
  if holds then s.stageRecord tl 3 ((s.tile tl).seq.lot % 4096) ((s.tile tl).seq.lot % 65536 * 65536 + src) else s

theorem recordPred_reported (s : State) (tl : TileRef) (src : Nat) (holds : Bool) :
    Reported tl (s.skipNoted tl src holds) (s.recordPred tl src holds) := by
  unfold recordPred
  extract_lets t k noted
  split
  · exact .refl tl _
  · exact .onVint tl _ _ fun _ => rfl

theorem staysFailed_recordPred (s : State) (tl : TileRef) (src : Nat) (holds : Bool) : StaysFailed s (s.recordPred tl src holds) := by
  have noted : StaysFailed s (s.skipNoted tl src holds) := .of_bits (by unfold skipNoted; split <;> rfl)
  exact noted.trans (recordPred_reported ..).bits

theorem recordPred_frame (s : State) (tl : TileRef) (src : Nat) (holds : Bool) : s.recordPred tl src holds =
    { s.skipNoted tl src holds with job := (s.recordPred tl src holds).job, step := (s.recordPred tl src holds).step } := by
  unfold recordPred
  extract_lets t k noted
  split
  · rfl
  · exact onVint_frame ..

theorem tiles_recordPred (s : State) (tl : TileRef) (src : Nat) (holds : Bool) : (s.recordPred tl src holds).tiles = s.tiles := by
  rw [recordPred_frame]
  unfold skipNoted
  split <;> rfl

theorem out_recordPred (s : State) (tl : TileRef) (src : Nat) (holds : Bool) : (s.recordPred tl src holds).out = s.out := by
  rw [recordPred_frame]
  unfold skipNoted
  split <;> rfl

theorem tile_recordPred (s : State) (tl : TileRef) (src : Nat) (holds : Bool) (v : TileRef) :
    (s.recordPred tl src holds).tile v = s.tile v := tile_congr (tiles_recordPred ..) v

theorem recordPred_canonical {s : State} (hc : Canonical s) (tl : TileRef) (src : Nat) (holds : Bool) :
    Canonical (s.recordPred tl src holds) := (recordPred_keeps (.refl s) ..).canon hc

/-- The record that the next append writes, with the vintage and the attempt that it bears. -/
theorem recordAt_ledger_tagged (s : State) (p cls code tile arg v a : Nat) :
    (recordAt (s.ledger p cls code tile arg v a) p (ledgerHead s p)).map (fun r => (r.cls, r.code, r.tile, r.arg, r.vintage, r.attempt)) =
      some (cls, code, tile, arg, v, a) := by
  unfold recordAt ledgerHead ledger part setPart
  simp only [Sparse.get_set_same, find?_put_same, Option.map_some]

/-- A vintage whose record holds that the predicate `k` was judged. -/
def judgedVint (k : Nat × Nat × Nat) (y : Vint) : Vint := { y with judged := if y.judged.contains k then y.judged else k :: y.judged }

theorem contains_judgedVint (k : Nat × Nat × Nat) (y : Vint) : (judgedVint k y).judged.contains k = true := by
  unfold judgedVint
  dsimp only
  split
  · assumption
  · simp

/-- Of a lot that goes on the vintage notes that its predicate was judged, unless the tile runs an evaluation. -/
theorem recordPred_goes (s : State) (tl : TileRef) (src : Nat) : s.recordPred tl src false =
    if (s.tile tl).seq.evaluating then s else s.onVint s.openVintage (judgedVint (predKey tl (s.tile tl) src)) := by
  unfold recordPred judgedVint
  simp only [Bool.false_and, Bool.false_eq_true, if_false]

theorem job_recordPred_goes (s : State) (tl : TileRef) (src : Nat) :
    (s.recordPred tl src false).job = { s.job with uncommitted := (s.recordPred tl src false).job.uncommitted } := by
  rw [recordPred_goes]
  split
  · rfl
  · rw [job_onVint]

theorem vint_recordPred_goes {s : State} {tl : TileRef} (own : (s.tile tl).seq.evaluating = false) (src : Nat) :
    (s.recordPred tl src false).vint s.openVintage = (s.vint s.openVintage).map (judgedVint (predKey tl (s.tile tl) src)) := by
  rw [recordPred_goes, own]
  exact vint_onVint s _ fun _ => rfl

theorem out_routeSend (s : State) (tl : TileRef) (o : FrameOut) (count : Nat) (recs : List Byte) :
    (s.routeSend tl o count recs).out = .frame tl o.route (s.frameOf tl o count recs) :: s.out := by
  have quiet : (if (s.tile tl).seq.evaluating then s else s.logSend (s.frameOf tl o count recs)).out = s.out := by
    obtain ⟨job, step, e⟩ := logSend_eq s (s.frameOf tl o count recs)
    split
    · rfl
    · rw [e]
  exact congrArg (_ :: ·) quiet

/-- What a stage of one output sends in its place (R255). -/
theorem out_skipSend_one {s : State} {tl : TileRef} {o : OutRoute} (one : (s.tile tl).record.map (·.outs) = some [o]) (empty : Bool) :
    (s.skipSend tl empty).out = .frame tl o.frame.route (if empty then s.frameOf tl o.frame 0 []
      else s.frameOf tl o.frame o.frame.count (frameRecs o.frame (Memory.readN (s.tile tl).store o.src o.len))) :: s.out := by
  unfold skipSend
  simp only [one, Option.getD_some, List.foldl_cons, List.foldl_nil]
  split
  · exact out_routeSend ..
  · exact out_routeSend ..

/-! ## The end of a lot (R203, R256, R277, R512) -/

end State

/-- A tile whose lot is over: it is idle at a later place of its schedule, past the phases that are skipped. -/
def endedTile (t : Tile) : Tile :=
  let sched := (t.record.map (·.schedule)).getD []
  let rest := (sched.drop (t.seq.pos + 1)).takeWhile (fun ph => ph.1 && (t.seq.evaluating || t.seq.skipped.contains ph.2))
  let pos := t.seq.pos + 1 + rest.length
  { t with
    status := setF t.status tileStatus_tileState TS.idle
    seq := { t.seq with index := 0, loops := [], wait := none, pos := pos, lot := (sched.getD pos (false, 0)).2, inRows := 0 } }

/-- A tile whose lot stands among the skipped ones. -/
def skippedTile (t : Tile) : Tile := { t with seq := { t.seq with skipped := t.seq.lot :: t.seq.skipped } }

theorem idle_endedTile (t : Tile) : getF (endedTile t).status tileStatus_tileState = TS.idle := getF_setF _ ⟨by decide, by decide⟩ _

theorem progress_endedTile (t : Tile) : getF (endedTile t).status tileStatus_progress = getF t.status tileStatus_progress :=
  getF_setF_beside (by decide) ..

theorem pos_endedTile (t : Tile) : t.seq.pos < (endedTile t).seq.pos := by
  unfold endedTile
  dsimp only
  omega

theorem sameButStore_endedTile (t : Tile) : SameButStore t (endedTile t) := rfl

theorem skipped_endedTile (t : Tile) : (endedTile t).seq.skipped = t.seq.skipped := rfl

theorem skipped_finishedTile (now : Nat) (w : Word) (t : Tile) :
    t.seq.lot ∈ (endedTile (skippedTile (finishedTile now w t))).seq.skipped := by
  rw [skipped_endedTile]
  unfold skippedTile
  rw [seq_finishedTile]
  exact List.mem_cons_self

namespace State

section
variable {s : State} {tl : TileRef} {w : Word}

/-- A lot that ends on a tile that no fault has halted. -/
theorem endLot_runs (runs : getF (s.tile tl).status tileStatus_tileState = TS.running) :
    s.endLot tl = (s.onTile tl endedTile).serveFrames tl := by
  refine if_neg ?_
  rw [runs]
  decide

/-- A tile written where only the job and the step status had changed. -/
theorem setTile_frame {r : State} (h : r = { s with job := r.job, step := r.step }) (u : Tile) :
    r.setTile tl u = { s.setTile tl u with job := r.job, step := r.step } := congrArg (setTile · tl u) h

theorem vint_setTile (s : State) (tl : TileRef) (t : Tile) (v : Nat) : (s.setTile tl t).vint v = s.vint v := rfl

theorem finish_tile (hc : Canonical s) (own : (s.tile tl).seq.redo = none) (fit : OwnFits (s.tile tl) w) :
    s.finish tl w = retiredTo s tl (finishedTile s.now w (s.tile tl)) := by
  have h := finish_setTile hc tl w (s.tile tl) ⟨rfl, rfl, rfl, own⟩ fit
  rwa [setTile_tile hc] at h

/-- The end of a wait leaves the cellar. -/
theorem unserved_retiredTo (quiet : Unserved s tl) (u : Tile) : Unserved (retiredTo s tl u) tl := by
  have cellar : (s.endWait tl).job.uncommitted = s.job.uncommitted ∧ (s.endWait tl).step = s.step := by
    unfold endWait
    split
    · exact ⟨rfl, rfl⟩
    · unfold stall
      split
      · exact ⟨rfl, rfl⟩
      · exact ⟨rfl, rfl⟩
  have attempt : (retiredTo s tl u).openAttempt = s.openAttempt := congrArg (fun x : StepRegs => getF x.openV vintageOpen_attempt) cellar.2
  intro y hy
  rw [attempt]
  exact quiet y (cellar.1 ▸ hy)

theorem retiredTo_again (hc : Canonical s) (t u : Tile) : (retiredTo s tl t).setTile tl u = retiredTo s tl u :=
  setTile_setTile (tiles_endWait hc tl) ..

/-! ## END_OF_PHASE (R512) -/

theorem issueFlow_issues {op : Nat} (hi : Issues s tl .flow w) (ho : getF w flow_op = op) (known : op ≤ 4) (body : Tile → Word → State) :
    s.issueFlow tl op body = body (s.tile tl) w := by
  unfold issueFlow
  rw [issue_issues hi, if_neg (by omega), if_pos ho]

theorem endOfPhase_ends (hc : Canonical s) (hi : Issues s tl .flow w) (ho : getF w flow_op = 4) (fit : OwnFits (s.tile tl) w)
    (quiet : Unserved s tl) : s.endOfPhase tl = retiredTo s tl (endedTile (finishedTile s.now w (s.tile tl))) := by
  have runs : getF ((retiredTo s tl (finishedTile s.now w (s.tile tl))).tile tl).status tileStatus_tileState = TS.running := by
    rw [tile_retiredTo_same]
    exact (retired_finishedTile ..).running
  unfold endOfPhase
  rw [issueFlow_issues hi ho (by decide), finish_tile hc hi.own fit, endLot_runs runs, onTile, tile_retiredTo_same, retiredTo_again hc,
    serveFrames_unserved tl (unserved_retiredTo quiet _)]

/-! ## A skipped lot (R255, R256) -/

/-- The stage sends what stands for its output, and the lot is over and among the skipped ones. -/
def skipLot (s : State) (tl : TileRef) (w : Word) : State :=
  (((s.skipSend tl (flagF w flow_empty)).finish tl w).onTile tl skippedTile).endLot tl

/-- The tile on which the instruction that skips a lot has ended the lot. -/
def skipTile (now : Nat) (w : Word) (t : Tile) : Tile := endedTile (skippedTile (finishedTile now w t))

/-- The state in which a lot has been skipped and the cellar has yet to serve. -/
def skippedTo (s : State) (tl : TileRef) (w : Word) : State :=
  let v := s.skipSend tl (flagF w flow_empty)
  v.setTile tl (skipTile v.now w (v.tile tl))

theorem skipSend_canonical (hc : Canonical s) (empty : Bool) : Canonical (s.skipSend tl empty) := (skipSend_keeps (.refl s) ..).canon hc

theorem skipLot_eq (hc : Canonical s) (own : (s.tile tl).seq.redo = none) (unheld : (s.tile tl).seq.held = none)
    (fit : CountsFit (s.tile tl) w) : s.skipLot tl w = (s.skippedTo tl w).serveFrames tl := by
  have flow := (Reported.skipSend tl s (flagF w flow_empty)).flow
  have canon := skipSend_canonical (tl := tl) hc (flagF w flow_empty)
  unfold skipLot skippedTo skipTile
  extract_lets v
  have unheld' : (v.tile tl).seq.held = none := by rw [flow.seq, unheld]
  have runs : getF ((v.setTile tl (skippedTile (finishedTile v.now w (v.tile tl)))).tile tl).status tileStatus_tileState = TS.running := by
    rw [tile_setTile_same]
    exact (retired_finishedTile ..).running
  rw [finish_tile canon (by rw [flow.seq, own]) (fit.own flow.counter), retiredTo_unheld unheld', onTile_setTile canon, endLot_runs runs,
    onTile_setTile canon]

theorem skippedTo_frame (s : State) (tl : TileRef) (w : Word) : s.skippedTo tl w =
    { s with tiles := (s.skippedTo tl w).tiles, job := (s.skippedTo tl w).job, step := (s.skippedTo tl w).step, out := (s.skippedTo tl w).out } :=
  congrArg (setTile · tl _) (Reported.skipSend tl s (flagF w flow_empty)).frame

theorem tile_skippedTo (s : State) (tl : TileRef) (w : Word) : ∃ now t, SameFlow (s.tile tl) t ∧ (s.skippedTo tl w).tile tl = skipTile now w t :=
  ⟨_, _, (Reported.skipSend tl s (flagF w flow_empty)).flow, tile_setTile_same ..⟩

theorem tile_skippedTo_other (s : State) {u : TileRef} (w : Word) (hu : tkey u ≠ tkey tl) : (s.skippedTo tl w).tile u = s.tile u :=
  (tile_setTile_other _ _ hu).trans ((Reported.skipSend tl s (flagF w flow_empty)).others u hu)

theorem staysFailed_skippedTo (s : State) (tl : TileRef) (w : Word) : StaysFailed s (s.skippedTo tl w) :=
  (Reported.skipSend tl s (flagF w flow_empty)).bits.trans (.setTile ..)

/-- The tile that has skipped its lot. -/
theorem skipped_skippedTo (s : State) (tl : TileRef) (w : Word) :
    let u := (s.skippedTo tl w).tile tl
    getF u.status tileStatus_tileState = TS.idle ∧ u.seq.index = 0 ∧ u.seq.loops = [] ∧ (s.tile tl).seq.lot ∈ u.seq.skipped := by
  obtain ⟨now, t, flow, tile⟩ := s.tile_skippedTo tl w
  dsimp only
  rw [tile, ← flow.seq]
  exact ⟨idle_endedTile _, rfl, rfl, skipped_finishedTile ..⟩

theorem skippedTo_canonical (hc : Canonical s) : Canonical (s.skippedTo tl w) := by
  refine (setTile_keeps (.refl (s.skipSend tl (flagF w flow_empty))) tl _ fun canon => ?_).canon (skipSend_canonical hc _)
  have store := (Keeps.refl (s.skipSend tl (flagF w flow_empty))).tile tl canon
  rwa [← store_finishedTile] at store

/-! ## PREDICATE (R255, R257) -/

/-- What a tile does with the decision on a lot: the lot is skipped, or the sequencer goes on. -/
def decided (s : State) (tl : TileRef) (w : Word) (holds : Bool) : State := if holds then s.skipLot tl w else s.finish tl w

section
variable (hc : Canonical s) (own : (s.tile tl).seq.redo = none) (unheld : (s.tile tl).seq.held = none) (fit : CountsFit (s.tile tl) w)
include hc own unheld fit

theorem recorded_goes (src : Nat) : (s.recordPred tl src false).decided tl w false =
    (s.recordPred tl src false).setTile tl (finishedTile (s.recordPred tl src false).now w (s.tile tl)) := by
  have same := tile_recordPred s tl src false tl
  have h := finish_tile (tl := tl) (w := w) (recordPred_canonical hc tl src false) (by rw [same, own]) (by rw [same]; exact fit.own fun _ => rfl)
  rwa [retiredTo_unheld (by rw [same, unheld]), same] at h

theorem recorded_skips (src : Nat) :
    (s.recordPred tl src true).decided tl w true = ((s.recordPred tl src true).skippedTo tl w).serveFrames tl := by
  have same := tile_recordPred s tl src true tl
  exact skipLot_eq (recordPred_canonical hc tl src true) (by rw [same, own]) (by rw [same, unheld]) (by rw [same]; exact fit)

end

/-- The skip that a decision records and the frames that it sends. -/
theorem reported_skip (s : State) (tl : TileRef) (w : Word) (src : Nat) :
    Reported tl (s.skipNoted tl src true) ((s.recordPred tl src true).skipSend tl (flagF w flow_empty)) :=
  (recordPred_reported ..).trans (.skipSend ..)

theorem recorded_skips_unserved (quiet : Unserved s tl) (src : Nat) :
    ((s.recordPred tl src true).skippedTo tl w).serveFrames tl = (s.recordPred tl src true).skippedTo tl w :=
  serveFrames_unserved tl ((reported_skip s tl w src).unserved quiet)

/-- Beside the record of the skip, a skip changes tiles, the job, the step status and what has been sent. -/
theorem recorded_skips_noted (s : State) (tl : TileRef) (w : Word) (src : Nat) :
    let u := (s.recordPred tl src true).skippedTo tl w
    u = { s.skipNoted tl src true with tiles := u.tiles, job := u.job, step := u.step, out := u.out } := by
  intro u
  exact (skippedTo_frame ..).trans
    (congrArg (fun x : State => { x with tiles := u.tiles, job := u.job, step := u.step, out := u.out }) (recordPred_reported ..).frame)

theorem parts_recorded_skip (s : State) (tl : TileRef) (w : Word) (src : Nat) :
    ((s.recordPred tl src true).skippedTo tl w).parts = (s.skipNoted tl src true).parts := by rw [recorded_skips_noted]

/-- A skip stands where the head of the ledger was (R257, log 74). -/
theorem recordAt_recorded_skip (s : State) (tl : TileRef) (w : Word) (src : Nat) :
    (recordAt ((s.recordPred tl src true).skippedTo tl w) tl.p (ledgerHead s tl.p)).map
        (fun r => (r.cls, r.code, r.tile, r.arg, r.vintage, r.attempt)) =
      some (3, (s.tile tl).seq.lot % 4096, tl.t, (s.tile tl).seq.lot % 65536 * 65536 + src, (s.tagOf tl).1, (s.tagOf tl).2) := by
  rw [recordAt_parts (parts_recorded_skip ..)]
  exact recordAt_ledger_tagged s ..

theorem recorded_skips_frame (s : State) (tl : TileRef) (w : Word) (src : Nat) :
    let u := (s.recordPred tl src true).skippedTo tl w
    u = { s with tiles := u.tiles, parts := u.parts, job := u.job, step := u.step, out := u.out } := by
  intro u
  refine (recorded_skips_noted ..).trans ?_
  rw [show u.parts = (s.skipNoted tl src true).parts from parts_recorded_skip ..]
  unfold skipNoted stageRecord ledger setPart
  rfl

theorem out_recorded_skip {o : OutRoute} (one : (s.tile tl).record.map (·.outs) = some [o]) (w : Word) (src : Nat) :
    ((s.recordPred tl src true).skippedTo tl w).out = .frame tl o.frame.route (if flagF w flow_empty then s.frameOf tl o.frame 0 []
      else s.frameOf tl o.frame o.frame.count (frameRecs o.frame (Memory.readN (s.tile tl).store o.src o.len))) :: s.out := by
  have same := tile_recordPred s tl src true tl
  have header : (s.recordPred tl src true).frameOf tl = s.frameOf tl := (recordPred_reported s tl src true).frameOf
  have sent := out_skipSend_one (s := s.recordPred tl src true) (by rw [same]; exact one) (flagF w flow_empty)
  rwa [header, same, out_recordPred] at sent

/-- The sequencer that goes on at the next word retires its instruction. -/
theorem goTo_next {t : Tile} (h : s.tile tl = t) : s.goTo tl w (t.seq.index + 1) t.seq.loops = s.finish tl w := by subst h; rfl

theorem flagRead_clean (s : State) (tl : TileRef) (isFlag : Bool) : s.flagRead tl isFlag .clean = s := by
  unfold flagRead
  split <;> rfl

section
variable (hi : Issues s tl .flow w) (ho : getF w flow_op = 3) (known : getF w flow_source ≠ 3)
  (desc : getF w flow_source ≠ 0 → badDesc (getF w iw_desc) = false)
  (inner : getF w flow_source = 1 → beyondStore (descAddr (s.tile tl) w) 4 = false)
include hi ho known desc inner

/-- A decision is taken on the record of the vintage, or else on the predicate itself. -/
theorem predicate_eq {now holds : Bool} (hn : s.predHolds tl (s.tile tl) w = now) (hh : (s.recordedPred tl (getF w flow_source)).getD now = holds) :
    s.predicate tl .clean =
      ((if holds = now then s else s.failBit stepCheckStatus_divergent).recordPred tl (getF w flow_source) holds).decided tl w holds := by
  have legal : ¬(getF w flow_source = 3 ∨ getF w flow_source ≠ 0 ∧ badDesc (getF w iw_desc) = true) := fun h =>
    h.elim known fun ⟨read, bad⟩ => by simp [desc read] at bad
  have stored : ¬(getF w flow_source = 1 ∧ beyondStore (descAddr (s.tile tl) w) 4 = true) := fun ⟨read, past⟩ => by
    simp [inner read] at past
  have sound : (getF w flow_source == 1 && Ecc.clean == .uncorrectable) = false := Bool.and_false _
  unfold predicate decided
  rw [issueFlow_issues hi ho (by decide)]
  simp only [if_neg legal, if_neg stored, flagRead_clean, sound, hn, hh, Bool.false_eq_true, if_false]
  split
  · rfl
  · refine goTo_next ?_
    rw [tile_recordPred]
    split <;> rfl

/-- Where the vintage holds no decision the predicate is recorded and followed. -/
theorem predicate_first {now : Bool} (hn : s.predHolds tl (s.tile tl) w = now) (new : s.recordedPred tl (getF w flow_source) = none) :
    s.predicate tl .clean = (s.recordPred tl (getF w flow_source) now).decided tl w now := by
  rw [predicate_eq hi ho known desc inner hn (holds := now) (by rw [new]; rfl), if_pos rfl]

/-- A decision that the predicate now differs from fails the check and is followed. -/
theorem predicate_differs {b : Bool} (held : s.recordedPred tl (getF w flow_source) = some b) (differs : b ≠ s.predHolds tl (s.tile tl) w) :
    s.predicate tl .clean = ((s.failBit stepCheckStatus_divergent).recordPred tl (getF w flow_source) b).decided tl w b := by
  rw [predicate_eq hi ho known desc inner rfl (holds := b) (by rw [held]; rfl), if_neg differs]

end
end
end State
open State

/-- Settles O9: a decision is a record of the vintage and, for a skip, of the ledger; the frames of a skip leave what retiring reads, so
the tile retires and its lot ends as END_OF_PHASE ends one; what the cellar then serves unmakes neither the skip nor the failed check. -/
theorem predicateAndPhase : Obligations.PredicateAndPhase := by
  unfold Obligations.PredicateAndPhase
  intro s tl w hc hi fit
  dsimp only
  refine ⟨fun ho known desc inner unheld => ⟨fun now new => ?goes, fun now new quiet => ?skips, fun b held differs => ?differs⟩,
    fun ho quiet => ?ends⟩
  case goes =>
    have retires := (predicate_first hi ho known desc inner now new).trans (recorded_goes hc hi.own unheld fit _)
    have frame := recordPred_frame s tl (getF w flow_source) false
    refine ⟨_, _, congrArg Host.Outcome.next retires, setTile_frame frame _, job_recordPred_goes .., advanced_finishedTile (.refl _) ..,
      sameButStore_finishedTile .., store_finishedTile .., by rw [seq_finishedTile], fun own y open_ => ?_⟩
    rw [vint_setTile, vint_recordPred_goes own, open_]
    exact ⟨rfl, congrArg some (contains_judgedVint ..)⟩
  case skips =>
    have skips := (predicate_first hi ho known desc inner now new).trans
      ((recorded_skips hc hi.own unheld fit _).trans (recorded_skips_unserved quiet _))
    obtain ⟨idle, start, loops, skipped⟩ := skipped_skippedTo (s.recordPred tl (getF w flow_source) true) tl w
    rw [tile_recordPred] at skipped
    exact ⟨_, congrArg Host.Outcome.next skips, fun o one => out_recorded_skip one w _, recordAt_recorded_skip .., idle, start, loops, skipped,
      recorded_skips_frame .., fun u hu => by rw [tile_skippedTo_other _ w hu, tile_recordPred]⟩
  case differs =>
    have run := predicate_differs hi ho known desc inner held differs
    have canon : Canonical (s.failBit stepCheckStatus_divergent) := (failBit_keeps (.refl s) _).canon hc
    cases b with
    | false =>
      have goes := run.trans (recorded_goes canon hi.own unheld fit _)
      refine ⟨_, congrArg Host.Outcome.next goes, (staysFailed_recordPred ..).bits _ (testBit_failed ..), nofun, fun _ => ?_⟩
      rw [tile_setTile_same, seq_finishedTile, store_finishedTile]
      exact ⟨rfl, rfl⟩
    | true =>
      have skips := run.trans (recorded_skips canon hi.own unheld fit _)
      obtain ⟨-, -, -, skipped⟩ := skipped_skippedTo ((s.failBit stepCheckStatus_divergent).recordPred tl (getF w flow_source) true) tl w
      rw [tile_recordPred] at skipped
      refine ⟨_, congrArg Host.Outcome.next skips, ?_, fun _ => ?_, nofun⟩
      · exact (((staysFailed_recordPred ..).trans (staysFailed_skippedTo ..)).trans (staysFailed_serveFrames tl)).bits _ (testBit_failed ..)
      · rw [skipped_serveFrames tl (skippedTo_canonical (recordPred_canonical canon ..))]
        exact skipped
  case ends =>
    obtain ⟨-, progress, -⟩ := retired_finishedTile s.now w (s.tile tl)
    refine ⟨_, congrArg Host.Outcome.next (endOfPhase_ends hc hi ho (fit.own fun _ => rfl) quiet), idle_endedTile _, rfl, rfl, ?_,
      fun k => counter_finishedTile .., by rw [progress_endedTile, progress],
      (sameButStore_finishedTile ..).trans (sameButStore_endedTile _), store_finishedTile ..⟩
    have later := pos_endedTile (finishedTile s.now w (s.tile tl))
    rwa [seq_finishedTile] at later

end Sys2Proof.Machine

/-!
PROOFS. The loops of a stage program: where a FLOW word sends the sequencer, and with which loops open (R512).
-/
namespace Sys2Proof.Machine

/-- A tile whose FLOW word `w` has retired and completed: the sequencer goes on at word `dest` with the loops `ls` open. -/
def wentTile (now : Nat) (w : Word) (dest : Nat) (ls : List Loop) (t : Tile) : Tile := doneTile now w (goneTile dest ls t)

theorem counter_goneTile (dest : Nat) (ls : List Loop) (t : Tile) (k : Nat) : counter (goneTile dest ls t) k = counter t k := by
  unfold counter goneTile; rfl

theorem status_goneTile (dest : Nat) (ls : List Loop) (t : Tile) : (goneTile dest ls t).status = (retiredTile t).status := by
  unfold retiredTile goneTile; rfl

theorem seq_wentTile (now : Nat) (w : Word) (dest : Nat) (ls : List Loop) (t : Tile) :
    (wentTile now w dest ls t).seq = { t.seq with index := dest, loops := ls, held := none } := by
  unfold wentTile
  rw [seq_doneTile]
  unfold goneTile; rfl

theorem sameButStore_wentTile (now : Nat) (w : Word) (dest : Nat) (ls : List Loop) (t : Tile) : SameButStore t (wentTile now w dest ls t) :=
  SameButStore.trans (by unfold goneTile; rfl) (sameButStore_doneTile ..)

theorem store_wentTile (now : Nat) (w : Word) (dest : Nat) (ls : List Loop) (t : Tile) : (wentTile now w dest ls t).store = t.store :=
  (store_doneTile ..).trans (by unfold goneTile; rfl)

/-- A word that the sequencer leaves for any other advances its tile as one that it leaves for the next. -/
theorem advanced_wentTile (now : Nat) (w : Word) (dest : Nat) (ls : List Loop) (t : Tile) : Advanced t (wentTile now w dest ls t) w dest := by
  obtain ⟨-, progress, running, fault, -⟩ := retired_retiredTile t
  have status : (wentTile now w dest ls t).status = (retiredTile t).status := (status_doneTile ..).trans (status_goneTile ..)
  rw [← status] at progress running fault
  exact ⟨by rw [seq_wentTile], progress, running, fault, fun k => (counter_doneTile ..).trans (by rw [counter_goneTile])⟩

namespace State

section
variable {s : State} {tl : TileRef} {w : Word}

theorem goTo_went (hc : Canonical s) (own : (s.tile tl).seq.redo = none) (fit : OwnFits (s.tile tl) w) (dest : Nat) (ls : List Loop) :
    s.goTo tl w dest ls = retiredTo s tl (wentTile s.now w dest ls (s.tile tl)) := by
  have went := goOn_setTile hc tl (s.tile tl) dest ls ⟨rfl, rfl, rfl, own⟩
  have fit' : OwnFits (goneTile dest ls (s.tile tl)) w := fun named => (counter_goneTile ..).symm ▸ fit named
  rw [setTile_tile hc] at went
  unfold goTo retiredTo wentTile
  rw [went, syncDone_setTile (tiles_endWait hc tl) tl _ fit', now_endWait]

/-- A word that sends the sequencer one of two ways: the tile retires, and shows the way taken. -/
theorem goTo_either (hc : Canonical s) (hi : Issues s tl .flow w) (fit : CountsFit (s.tile tl) w) (c : Prop) [Decidable c]
    (d₁ d₂ : Nat) (l₁ l₂ : List Loop) :
    ∃ u, (if c then s.goTo tl w d₁ l₁ else s.goTo tl w d₂ l₂) = retiredTo s tl u ∧ SameButStore (s.tile tl) u ∧
      u.store = (s.tile tl).store ∧ (c → Advanced (s.tile tl) u w d₁ ∧ u.seq.loops = l₁) ∧
      (¬ c → Advanced (s.tile tl) u w d₂ ∧ u.seq.loops = l₂) := by
  have went (dest : Nat) (ls : List Loop) := goTo_went hc hi.own (fit.own fun _ => rfl) dest ls
  have way (dest : Nat) (ls : List Loop) : Advanced (s.tile tl) (wentTile s.now w dest ls (s.tile tl)) w dest ∧
      (wentTile s.now w dest ls (s.tile tl)).seq.loops = ls := ⟨advanced_wentTile .., by rw [seq_wentTile]⟩
  by_cases h : c
  · rw [if_pos h]
    exact ⟨_, went d₁ l₁, sameButStore_wentTile .., store_wentTile .., fun _ => way d₁ l₁, absurd h⟩
  · rw [if_neg h]
    exact ⟨_, went d₂ l₂, sameButStore_wentTile .., store_wentTile .., fun b => absurd b h, fun _ => way d₂ l₂⟩

variable (hi : Issues s tl .flow w)
include hi

/-- A loop of no iterations is left behind; another is opened at the next word. -/
theorem loopBegin_goes (ho : getF w flow_op = 0) {e : Nat}
    (closed : matchEnd (s.tile tl) 0 ((s.tile tl).seq.index + 1) (4032 - ((s.tile tl).seq.index + 1)) = some e)
    (room : (s.tile tl).seq.loops.length < 8)
    (count : flagF w flow_flagCount = true → badDesc (getF w iw_desc) = false ∧ beyondStore (descAddr (s.tile tl) w) 4 = false) :
    s.loopBegin tl .clean = if loopCount (s.tile tl) w = 0 then s.goTo tl w (e + 1) (s.tile tl).seq.loops
      else s.goTo tl w ((s.tile tl).seq.index + 1)
        ({ body := (s.tile tl).seq.index + 1, endAt := e, left := loopCount (s.tile tl) w } :: (s.tile tl).seq.loops) := by
  have legal : (flagF w flow_flagCount && badDesc (getF w iw_desc) || decide (8 ≤ (s.tile tl).seq.loops.length)) = false := by
    rw [decide_eq_false (Nat.not_le.2 room), Bool.or_false, Bool.and_eq_false_imp]
    exact fun read => (count read).1
  have inner : (flagF w flow_flagCount && beyondStore (descAddr (s.tile tl) w) 4) = false :=
    Bool.and_eq_false_imp.2 fun read => (count read).2
  have sound : (flagF w flow_flagCount && Ecc.clean == .uncorrectable) = false := Bool.and_false _
  unfold loopBegin
  rw [issueFlow_issues hi ho (by decide)]
  simp only [legal, inner, sound, flagRead_clean, closed, Bool.false_eq_true, if_false]

/-- The last iteration leaves the loop; another goes back to its body. -/
theorem loopEnd_goes (ho : getF w flow_op = 1) {l : Loop} {rest : List Loop} (inside : (s.tile tl).seq.loops = l :: rest) :
    s.loopEnd tl = if l.left ≤ 1 then s.goTo tl w ((s.tile tl).seq.index + 1) rest
      else s.goTo tl w l.body ({ l with left := l.left - 1 } :: rest) := by
  unfold loopEnd
  rw [issueFlow_issues hi ho (by decide), inside]

/-- In the last iteration the branch is taken, out of the loops that do not hold its target. -/
theorem branchOnLoopCount_goes (ho : getF w flow_op = 2) {l : Loop} {rest : List Loop} (inside : (s.tile tl).seq.loops = l :: rest)
    (target : getF w flow_target < 4032) :
    s.branchOnLoopCount tl = if l.left ≠ 1 then s.goTo tl w ((s.tile tl).seq.index + 1) (s.tile tl).seq.loops
      else s.goTo tl w (getF w flow_target)
        ((s.tile tl).seq.loops.dropWhile fun l => decide (getF w flow_target < l.body ∨ l.endAt < getF w flow_target)) := by
  unfold branchOnLoopCount
  rw [issueFlow_issues hi ho (by decide)]
  simp only [inside, if_neg (Nat.not_le.2 target)]

end
end State
open State

/-- Settles O8: each of the three words is one choice between two ways to go on, and a word that goes on retires its tile. -/
theorem loops : Obligations.Loops := by
  unfold Obligations.Loops
  intro s tl w hc hi
  dsimp only
  intro fit
  refine ⟨fun e ho closed room count => ?begins, fun l rest ho inside => ?ends, fun l rest ho inside target => ?branches⟩
  case begins =>
    obtain ⟨u, state, same, store, skips, enters⟩ := goTo_either hc hi fit (loopCount (s.tile tl) w = 0) ..
    exact ⟨u, congrArg Host.Outcome.next ((loopBegin_goes hi ho closed room count).trans state), same, store, skips, enters⟩
  case ends =>
    obtain ⟨u, state, same, store, leaves, repeats⟩ := goTo_either hc hi fit (l.left ≤ 1) ..
    exact ⟨u, congrArg Host.Outcome.next ((loopEnd_goes hi ho inside).trans state), same, store, leaves,
      fun more => repeats (Nat.not_le.2 more)⟩
  case branches =>
    obtain ⟨u, state, same, store, stays, leaves⟩ := goTo_either hc hi fit (l.left ≠ 1) ..
    exact ⟨u, congrArg Host.Outcome.next ((branchOnLoopCount_goes hi ho inside target).trans state), same, store, stays,
      fun last => leaves (not_not.2 last)⟩

end Sys2Proof.Machine

/-!
PROOFS. DATA_FEED: the vintages that intake opens, and the bytes of a lot in the cellar (R279, R300, R404).
-/
namespace Sys2Proof.Machine
namespace State

/-! ## Vintages that intake opens (R300) -/

theorem vint_openVint_same (s : State) (v : Nat) : (s.openVint v).vint v = some ((s.vint v).getD (State.newVint v)) := by
  unfold openVint
  cases held : s.vint v with
  | some y => exact held
  | none =>
    refine (List.find?_append : (s.job.uncommitted ++ [newVint v]).find? (fun x => x.v == v) = _).trans ?_
    unfold vint at held
    simp [held, newVint]

theorem vint_openVint_other (s : State) {v w : Nat} (h : v ≠ w) : (s.openVint v).vint w = s.vint w := by
  unfold openVint
  split
  · rfl
  · refine (List.find?_append : (s.job.uncommitted ++ [newVint v]).find? (fun x => x.v == w) = _).trans ?_
    unfold vint
    simp [newVint, h]

theorem tiles_openVint (s : State) (v : Nat) : (s.openVint v).tiles = s.tiles := by unfold openVint; split <;> rfl

theorem openUpTo_next {s : State} {v : Nat} (h : v = s.committedV + 1) : s.openUpTo v = s.openVint v := by
  subst h
  unfold openUpTo
  simp

theorem openUpTo_second {s : State} {v : Nat} (h : v = s.committedV + 2) : s.openUpTo v = (s.openVint (s.committedV + 1)).openVint v := by
  subst h
  unfold openUpTo
  simp

/-- From `s` to `t` the vintage `v` has been opened where it was not: it is as it was, or new. -/
structure OpenedUp (v : Nat) (s t : State) : Prop where
  vint : t.vint v = some ((s.vint v).getD (State.newVint v))
  calm : Calm s t
  tiles : t.tiles = s.tiles

/-- A vintage of the window is open after intake has opened every one up to it. -/
theorem openUpTo_opens {s : State} {v : Nat} (late : s.committedV < v) (near : v ≤ s.committedV + 2) : OpenedUp v s (s.openUpTo v) := by
  rcases (show v = s.committedV + 1 ∨ v = s.committedV + 2 by omega) with next | second
  · rw [openUpTo_next next]
    exact ⟨vint_openVint_same .., openVint_calm (.refl s) v, tiles_openVint ..⟩
  · have earlier : s.committedV + 1 ≠ v := by omega
    rw [openUpTo_second second]
    exact ⟨by rw [vint_openVint_same, vint_openVint_other _ earlier], openVint_calm (openVint_calm (.refl s) _) v,
      (tiles_openVint ..).trans (tiles_openVint ..)⟩

end State

/-! ## Bytes of a lot (R404) -/

/-- A vintage that holds the bytes `m` of a lot, which is complete with `size` of them. -/
def fedVint (size lot : Nat) (m : List Host.Cell) (x : Vint) : Vint :=
  { x with lots := (lot, m) :: x.lots.filter (fun l => l.1 != lot), done := if m.length = size then lot :: x.done else x.done }

theorem lotBytesOf_fedVint (size lot : Nat) (m : List Host.Cell) (x : Vint) : lotBytesOf (fedVint size lot m x) lot = m := by
  simp [lotBytesOf, fedVint]

theorem done_fedVint {lot : Nat} {x : Vint} (open_ : lot ∉ x.done) (size : Nat) (m : List Host.Cell) :
    lot ∈ (fedVint size lot m x).done ↔ m.length = size := by
  unfold fedVint
  split
  · next full => simp [full]
  · next short => simp [short, open_]

theorem notMem_done_newVint (v lot : Nat) : lot ∉ (State.newVint v).done := List.not_mem_nil

namespace State

/-- Bytes that a vintage holds of a lot, none where the vintage is not open. -/
def heldBytes (s : State) (v lot : Nat) : List Host.Cell := ((s.vint v).map (fun y => lotBytesOf y lot)).getD []

/-- Bytes of a complete lot. -/
def lotSize (s : State) : Nat := (s.stepProg.map (·.lotBytes)).getD 0

/-- The state in which bytes of a lot that is not complete have been placed. -/
def lotPlaced (s : State) (v lot off : Nat) (bs : List Byte) : State :=
  (s.openUpTo v).onVint v (fedVint s.lotSize lot (putBytes (s.heldBytes v lot) off bs))

section
variable {s : State} {v lot : Nat} {bs : List Byte} (nonempty : bs ≠ [])
include nonempty

theorem intake_complete {y : Vint} (open_ : s.vint v = some y) (full : lot ∈ y.done) (off : Nat) :
    s.intake v lot off bs = (s, some (if sameBytes (lotBytesOf y lot) off bs then .ok else .err Err.digest)) := by
  unfold intake
  simp [nonempty, open_, full]

theorem intake_places (short : ∀ y, s.vint v = some y → lot ∉ y.done) (off : Nat) :
    s.intake v lot off bs = (s.lotPlaced v lot off bs, some .ok) := by
  have incomplete : ((s.vint v).map (fun x => x.done.contains lot)).getD false = false := by
    cases open_ : s.vint v with
    | none => rfl
    | some y => simpa using short y open_
  unfold intake lotPlaced
  simp only [incomplete, List.isEmpty_iff, nonempty, Bool.false_eq_true, if_false]
  rfl

end

/-- What the cellar shows of a lot whose bytes have been placed. -/
theorem lotPlaced_shows {s : State} {v lot : Nat} (late : s.committedV < v) (near : v ≤ s.committedV + 2)
    (short : ∀ y, s.vint v = some y → lot ∉ y.done) (off : Nat) (bs : List Byte) :
    let m := putBytes (s.heldBytes v lot) off bs
    ((s.lotPlaced v lot off bs).vint v).map (fun y => lotBytesOf y lot) = some m ∧
      ((s.lotPlaced v lot off bs).vint v).map (fun y => decide (lot ∈ y.done)) = some (decide (m.length = s.lotSize)) := by
  intro m
  have fed : (s.lotPlaced v lot off bs).vint v = some (fedVint s.lotSize lot m ((s.vint v).getD (State.newVint v))) := by
    unfold lotPlaced
    rw [vint_onVint (f := fedVint _ _ _) _ _ fun _ => rfl, (openUpTo_opens late near).vint, Option.map_some]
  have short' : lot ∉ ((s.vint v).getD (State.newVint v)).done := by
    cases open_ : s.vint v with
    | none => exact notMem_done_newVint v lot
    | some y => exact short y open_
  rw [fed]
  exact ⟨congrArg some (lotBytesOf_fedVint ..), congrArg some (decide_eq_decide.2 (done_fedVint short' ..))⟩

/-- Placing the bytes leaves the committed vintage, the sessions and the tiles. -/
theorem lotPlaced_calm {s : State} {v : Nat} (late : s.committedV < v) (near : v ≤ s.committedV + 2) (lot off : Nat) (bs : List Byte) :
    Calm s (s.lotPlaced v lot off bs) ∧ (s.lotPlaced v lot off bs).tiles = s.tiles :=
  have opened := openUpTo_opens late near
  ⟨onVint_calm opened.calm v fun _ => rfl, (tiles_onVint ..).trans opened.tiles⟩

/-! ## The check of a feed (R397, R404) -/

section
variable {s : State} {h : DctHdr} {v lot off n : Nat}
  (whole : off + n ≤ s.lotSize) (known : lot < (s.stepProg.map (·.lots)).getD 0) (training : h.evalFlag = false)
include whole known training

theorem feedCheck_committed (begun : s.committedV ≠ noVintage) (past : v ≤ s.committedV) (env : Envelope) :
    s.feedCheck h v lot off n env = Err.range := by
  refine (if_neg (Nat.not_lt.2 whole)).trans ((if_neg (Nat.not_le.2 known)).trans (if_pos ?_))
  simp [training, past, begun]

theorem feedCheck_beyond (far : s.committedV + 2 < v) (env : Envelope) : s.feedCheck h v lot off n env = Err.busy := by
  have ahead : ¬ v ≤ s.committedV := by omega
  refine (if_neg (Nat.not_lt.2 whole)).trans ((if_neg (Nat.not_le.2 known)).trans ((if_neg ?_).trans (if_pos ?_)))
  · simp [ahead]
  · simp [training, far]

end

theorem ensureActive_active {s : State} (h : s.power = PS.active) : s.ensureActive = s := by
  unfold ensureActive
  rw [h, if_neg (by decide)]

end State

/-! ## The message -/

section
variable {s : State} {h : DctHdr} {x : Session} {v lot off : Nat} {bs : List Byte} {env : Envelope} (ht : Turn s h x) (job : s.inJob = true)
include ht job

theorem exec_dataFeed_runs (ok : s.feedCheck h v lot off bs.length env = Err.ok) {t : State} {a : Ans}
    (runs : (if h.evalFlag then (heard s x).ensureActive.evalIntake lot off bs else (heard s x).ensureActive.intake v lot off bs) = (t, some a)) :
    exec (.dataFeed h v lot off bs env) s = .next (t.answer h.session h.seq a Src.dct) :=
  congrArg Host.Outcome.next (ht.dct_runs job ok runs)

theorem exec_dataFeed_failing {e : Nat} (check : s.feedCheck h v lot off bs.length env = e) (bad : e ≠ Err.ok) :
    ∃ t, exec (.dataFeed h v lot off bs env) s = .next t ∧ Answered t h e ∧ OnlyReplied s t := by
  subst check
  exact ⟨_, congrArg Host.Outcome.next (ht.dct_failing job bad), ht.onlyAnswered (.err (s.feedCheck h v lot off bs.length env)) Src.dct⟩

end

/-- Where a message is heard and run, intake finds the cellar as it was. -/
theorem heldBytes_on (s : State) (x : Session) (v lot : Nat) : (heard s x).ensureActive.heldBytes v lot = s.heldBytes v lot := by
  unfold State.heldBytes State.vint
  rw [Turn.on_job]

theorem lotSize_on (s : State) (x : Session) : (heard s x).ensureActive.lotSize = s.lotSize := by
  obtain ⟨ss, pow, parts, out, e⟩ := Turn.on_eq s x
  rw [e]
  rfl

theorem vint_on (s : State) (x : Session) (v : Nat) : (heard s x).ensureActive.vint v = s.vint v := by
  unfold State.vint
  rw [Turn.on_job]

open State

/-- Settles O34: a feed of an open lot is one write of its vintage, opened where it was not; every other feed is answered by what the
check or the complete lot says. -/
theorem dataFeeds : Obligations.DataFeeds := by
  unfold Obligations.DataFeeds
  intro s h x v lot off bs env ht job
  dsimp only
  refine ⟨fun ok training nonempty late near short => ?places, fun y ok training nonempty active open_ full => ?repeats,
    fun whole known training begun => ⟨fun past => ?committed, fun far => ?beyond⟩, fun ok evaluation => ?evaluates, fun bad => ?fails⟩
  case places =>
    have late' : (heard s x).ensureActive.committedV < v := by rwa [Turn.on_committedV]
    have near' : v ≤ (heard s x).ensureActive.committedV + 2 := by rwa [Turn.on_committedV]
    have short' : ∀ y, (heard s x).ensureActive.vint v = some y → lot ∉ y.done := by rwa [vint_on]
    obtain ⟨calm, tiles⟩ := lotPlaced_calm late' near' lot off bs
    obtain ⟨bytes, done⟩ := lotPlaced_shows late' near' short' off bs
    rw [heldBytes_on] at bytes done
    rw [lotSize_on] at done
    have run := exec_dataFeed_runs ht job ok ((if_neg (by simp [training])).trans (intake_places nonempty short' off))
    obtain ⟨t, e, answered, only⟩ := exec_answered ht run calm.sessions
    exact ⟨t, e, answered, by rw [only.vint]; exact bytes, by rw [only.vint]; exact done,
      only.committedV.trans (calm.committedV.trans (Turn.on_committedV s x)), only.tiles.trans (tiles.trans (Turn.on_tiles s x))⟩
  case repeats =>
    have still : (heard s x).ensureActive = heard s x := ensureActive_active active
    have run := exec_dataFeed_runs ht job ok ((if_neg (by simp [training])).trans (intake_complete nonempty ((vint_on s x v).trans open_) full off))
    rw [still] at run
    obtain ⟨answered, only⟩ := ht.onlyAnswered (if sameBytes (lotBytesOf y lot) off bs then .ok else .err Err.digest) Src.dct
    refine ⟨_, run, only, ?_⟩
    rwa [apply_ite Ans.status] at answered
  case committed => exact exec_dataFeed_failing ht job (feedCheck_committed whole known training begun past env) (by decide)
  case beyond => exact exec_dataFeed_failing ht job (feedCheck_beyond whole known training far env) (by decide)
  case evaluates =>
    have run := exec_dataFeed_runs ht job ok ((if_pos evaluation).trans rfl)
    obtain ⟨t, e, answered, only⟩ := exec_answered ht run rfl
    refine ⟨t, e, answered, only.job.trans ?_, only.tiles.trans (Turn.on_tiles s x)⟩
    unfold onJob
    rw [Turn.on_job]
  case fails => exact exec_dataFeed_failing ht job rfl bad

end Sys2Proof.Machine

/-!
PROOFS. IMAGE_LOAD and IMAGE_COMMIT: the bytes of an image that a load keeps, and what step 9 writes (R261 to R267, R290).
-/
namespace Sys2Proof.Machine

/-! ## What step 9 sets up beside registers and job -/

/-- `s` with the tiles, partitions, ports, fabric, domain heads and messages of `t`, and its count of ledger records. -/
def State.setUpAs (s t : State) : State :=
  { s with
    time := t.time, out := t.out, ports := t.ports, parts := t.parts, tiles := t.tiles, fd := t.fd, fabric := t.fabric
    mir := { s.mir with fdCfg := t.mir.fdCfg }, job := { s.job with ledgerSeq := t.job.ledgerSeq } }

/-- From `s` to `t` tiles, partitions, ports and the fabric have been set up: the image, the keys, HBM and every register that a job
turns on stay, but for the heads of the domain, and of the job only the count of ledger records has moved. -/
def Staged (s t : State) : Prop := t = s.setUpAs t

namespace Staged
variable {s t u : State}

theorem refl (s : State) : Staged s s := rfl

theorem trans (a : Staged s t) (b : Staged t u) : Staged s u :=
  calc u = t.setUpAs u := b
    _ = (s.setUpAs t).setUpAs u := congrArg (State.setUpAs · u) a
    _ = s.setUpAs u := rfl

/-- What is set up leaves what a job turns on. -/
theorem stands (h : Staged s t) : t.dev = s.dev ∧ t.img = s.img ∧ t.step = s.step ∧ t.mem = s.mem ∧ t.sec = s.sec ∧
    t.mir.buddyId = s.mir.buddyId ∧ t.job = { s.job with ledgerSeq := t.job.ledgerSeq } := by
  unfold Staged State.setUpAs at h
  refine ⟨?_, ?_, ?_, ?_, ?_, ?_, ?_⟩ <;> rw [h]

theorem foldl {α : Type} {f : State → α → State} (l : List α) (s : State) (h : ∀ x, ∀ a ∈ l, Staged x (f x a)) : Staged s (l.foldl f s) :=
  List.foldlRecOn l f (refl s) fun x hx a ha => hx.trans (h x a ha)

theorem ite {c : Prop} [Decidable c] (ht : Staged s t) (hu : Staged s u) : Staged s (if c then t else u) := by
  split
  · exact ht
  · exact hu

/-! ### Ports taken down (R374, R376, R377, R388) -/

theorem onPort (s : State) (n : Nat) (f : Port → Port) : Staged s (s.onPort n f) := by unfold State.onPort State.setPort; rfl

theorem send (s : State) (m : Msg) : Staged s (s.send m) := by unfold State.send; rfl

theorem sendAll (s : State) (ms : List Msg) : Staged s (s.sendAll ms) := foldl ms s fun x m _ => send x m

theorem chooseParent (s : State) : Staged s s.chooseParent := by
  obtain ⟨w, e⟩ := s.chooseParent_eq
  rw [e]
  rfl

theorem linksLost (s : State) (dev : Nat) : Staged s (s.linksLost dev) := by
  unfold State.linksLost State.accuse
  exact ite (ite (refl s) rfl) (refl s)

theorem abortVia (s : State) (n : Nat) : Staged s (s.abortVia n) := by
  unfold State.abortVia
  dsimp only
  rw [State.foldl_send (f := fun x : Partial => Msg.abort x.out x.route x.seq)]
  rfl

theorem resendVia (s : State) (n : Nat) : Staged s (s.resendVia n) :=
  foldl _ s fun x h _ => by
    dsimp only
    split
    · rw [State.sendOn_eq]; rfl
    · rfl

theorem downWith (s : State) (n st c : Nat) : Staged s (s.downWith n st c) := by
  unfold State.downWith
  exact onPort ..

theorem startPort (s : State) (n : Nat) : Staged s (s.startPort n) := ite (onPort ..) (refl s)

end Staged

/-- A port whose link is down, and went down at the host's asking. -/
def DownAsked (p : Port) : Prop := p.downAt.isSome = true ∧ p.asked = true

namespace State
variable {s : State} {n : Nat}

/-- A device of which a link is down at the host's asking is not isolated (R332). -/
theorem isolated_of_downAsked (hn : n < 36) (h : DownAsked (s.port n)) : s.isolated = false := by
  have down : n ∈ (List.range 36).filter (fun n => (s.port n).downAt.isSome) := List.mem_filter.2 ⟨List.mem_range.2 hn, h.1⟩
  refine Bool.and_eq_false_imp.2 fun _ => Bool.eq_false_iff.2 fun unasked => ?_
  have own := List.all_eq_true.1 unasked n down
  simp [h.2] at own

theorem downAsked_resendVia (m : Nat) (h : DownAsked (s.port n)) : DownAsked ((s.resendVia m).port n) := by
  refine List.foldlRecOn (motive := fun u : State => DownAsked (u.port n)) _ _ h fun u hu x _ => ?_
  dsimp only
  split
  · next k _ =>
    rw [sendOn_eq, port_of_ports (send_ports ..)]
    by_cases same : n = k
    · subst same
      rw [port_onPort_same]
      exact hu
    · rw [port_onPort_other _ _ same]
      exact hu
  · exact hu

/-- A link that goes down at the host's asking takes nothing with it but packets, the time parent and a report. -/
theorem linkDown_staged (hn : n < 36) (asked : (s.port n).asked = true) : Staged s (s.linkDown n) := by
  unfold linkDown
  extract_lets dev known down parted told
  have taken : DownAsked (down.port n) := by
    unfold down
    rw [port_onPort_same]
    exact ⟨rfl, asked⟩
  have kept : DownAsked (parted.port n) := by
    unfold parted
    rw [port_of_ports (chooseParent_ports _)]
    refine downAsked_resendVia n ?_
    rw [port_of_ports (abortVia_ports ..)]
    exact taken
  have heldOn : DownAsked (told.port n) := by
    unfold told
    split
    · rw [port_of_ports (linksLost_ports ..)]; exact kept
    · exact kept
  have parting : Staged s parted :=
    (((Staged.onPort ..).trans (Staged.abortVia ..)).trans (Staged.resendVia ..)).trans (Staged.chooseParent _)
  rw [isolated_of_downAsked hn heldOn, if_neg Bool.false_ne_true]
  exact .ite (parting.trans (Staged.linksLost ..)) parting

theorem squelchPort_staged (s : State) (hn : n < 36) (st c : Nat) : Staged s (s.squelchPort n st c true) := by
  unfold squelchPort
  extract_lets was m told squelched
  have sent : Staged s told := .ite (Staged.sendAll ..) (.refl s)
  have down : Staged s squelched := (sent.trans (Staged.downWith ..)).trans (Staged.onPort ..)
  have asked : (squelched.port n).asked = true := by
    unfold squelched
    rw [port_onPort_same]
  exact .ite (down.trans (linkDown_staged hn asked)) (down.trans (Staged.onPort ..))

/-- The ports that an image releases or holds bring no QUARANTINE (log 69). -/
theorem reholdPorts_staged (s : State) : Staged s s.reholdPorts :=
  Staged.foldl _ s fun x _ hn =>
    .ite (.refl x) (.ite (Staged.startPort ..) (.ite (Staged.downWith ..) (squelchPort_staged x (List.mem_range.1 hn) ..)))

/-! ## Tiles, tables and records (R263, R268, R294) -/

theorem writeTiles_staged (s : State) (i : Image) (role : Option RolePart) (old : List Slot) : Staged s (s.writeTiles i role old) :=
  Staged.foldl _ s fun _ _ _ => by unfold onTile setTile; rfl

theorem writeFabric_staged (s : State) (role : Option RolePart) (keep : Bool) : Staged s (s.writeFabric role keep) := by
  unfold writeFabric; rfl

theorem onPart_staged (s : State) (p : Nat) (f : Part → Part) : Staged s (s.onPart p f) := by unfold onPart setPart; rfl

theorem refreshHeads_staged (s : State) : Staged s s.refreshHeads := by
  obtain ⟨heads, e⟩ : ∃ w, s.refreshHeads = { s with mir := { s.mir with fdCfg := w } } := ⟨_, rfl⟩
  rw [e]
  rfl

theorem ledger_staged (s : State) (p cls code tile arg v a : Nat) : Staged s (s.ledger p cls code tile arg v a) := by
  obtain ⟨parts, seq, e⟩ : ∃ parts seq, s.ledger p cls code tile arg v a = { s with parts := parts, job := { s.job with ledgerSeq := seq } } :=
    ⟨_, _, rfl⟩
  rw [e]
  rfl

/-! ## Registers and job (R263 to R265, R290) -/

/-- The image in force once the load `l` of the image `i` is committed, in the half of the store that the last one leaves (R260). -/
def imageOf (s : State) (l : Load) (i : Image) : Loaded :=
  { hdr := hdrOf l.hdrBytes, digest := Config.sha384 l.hdrBytes, img := i, half := (s.img.cur.map (fun c => 1 - c.half)).getD 0 }

/-- The state that step 9 writes on: a re-trellis keeps it, a new job draws its key and is LOADED. -/
def jobBegun (s : State) (keep : Bool) : State := if keep then s else s.drawJobKeys.beforeEpoch.toState DS.loaded

/-- The image and the registers as step 9 writes them. -/
def regsWritten (s : State) (cur : Loaded) (d : DevEntry) (keep : Bool) : State :=
  ({ s.jobBegun keep with img := { cur := some cur, load := none } }).writeRegs cur.hdr d keep

/-- The job as step 9 writes it. -/
def jobWritten (s : State) (keep : Bool) : State :=
  { s with job := if keep then keptJob s.job else Job.reset, fd := s.freshFd, rst := { s.rst with levels := [] } }

/-- What a device `d` of the image `i` shows once step 9 has written the load `l` over `s`. -/
structure Commits (s : State) (l : Load) (i : Image) (d : DevEntry) (keep : Bool) (t : State) : Prop where
  devState : t.devState = if keep then s.devState else DS.loaded
  load : t.img.load = none
  cur : t.img.cur.map (fun c => (c.hdr, c.img)) = some (hdrOf l.hdrBytes, i)
  committed : t.committedV = if keep then s.committedV else 0
  openVintage : t.openVintage = noVintage
  mem : t.mem = if keep then s.mem else []
  jobKey : t.sec.jobKey = if keep then s.sec.jobKey else some s.sec.draws
  buddy : flagF t.mir.buddyId buddyId_b1Valid = d.b1.isSome
  job : keep = false → t.job = { Job.reset with ledgerSeq := t.job.ledgerSeq }

namespace Commits
variable {s t u : State} {l : Load} {i : Image} {d : DevEntry} {keep : Bool}

/-- What is set up beside registers and job leaves what the device shows. -/
theorem staged (h : Commits s l i d keep t) (e : Staged t u) : Commits s l i d keep u := by
  obtain ⟨dev, img, step, mem, sec, buddy, job⟩ := e.stands
  exact {
    devState := (congrArg (fun r : DevRegs => getF r.state devState_state) dev).trans h.devState
    load := img ▸ h.load
    cur := img ▸ h.cur
    committed := (congrArg (fun r : StepRegs => getF r.committed vintageCommitted_vintage) step).trans h.committed
    openVintage := (congrArg (fun r : StepRegs => getF r.openV vintageOpen_vintage) step).trans h.openVintage
    mem := mem.trans h.mem
    jobKey := sec ▸ h.jobKey
    buddy := buddy ▸ h.buddy
    job := fun new => job.trans (by rw [h.job new]) }

/-- The answer of the final message leaves it as well. -/
theorem onlyReplied (h : Commits s l i d keep t) (e : OnlyReplied t u) : Commits s l i d keep u where
  devState := e.devState.trans h.devState
  load := (congrArg (fun x : State => x.img.load) e.1).trans h.load
  cur := (congrArg (fun x : State => x.img.cur.map fun c => (c.hdr, c.img)) e.1).trans h.cur
  committed := e.committedV.trans h.committed
  openVintage := e.openVintage.trans h.openVintage
  mem := (congrArg State.mem e.1).trans h.mem
  jobKey := (congrArg (fun x : State => x.sec.jobKey) e.1).trans h.jobKey
  buddy := (congrArg (fun x : State => flagF x.mir.buddyId buddyId_b1Valid) e.1).trans h.buddy
  job new := by rw [e.job]; exact h.job new

theorem dropLoad (h : Commits s l i d keep t) : Commits s l i d keep t.dropLoad :=
  { h with load := rfl }

end Commits

theorem flagF_setF_isBit (w : Word) {k : Nat} (h : k < 64) (b : Bool) : flagF (setF w ⟨k, k⟩ (bit b)) ⟨k, k⟩ = b := by
  unfold flagF
  rw [getF_setF _ ⟨Nat.le_refl k, h⟩]
  cases b <;> simp [bit]

section
variable (s : State) (h : ImgHdr) (d : DevEntry) (keep : Bool)

theorem buddyId_writeRegs : flagF (s.writeRegs h d keep).mir.buddyId buddyId_b1Valid = d.b1.isSome := by
  unfold writeRegs
  dsimp only
  rw [flagF_setF_beside (by decide), flagF_setF_beside (by decide), flagF_setF_beside (by decide)]
  exact flagF_setF_isBit _ (by decide) _

theorem devState_jobBegun : (s.jobBegun keep).devState = if keep then s.devState else DS.loaded := by
  cases keep with
  | true => rfl
  | false => exact devState_toState _ _ (by decide)

theorem devState_writeRegs : (s.writeRegs h d keep).devState = s.devState := State.devState_spare ..

theorem openVintage_writeRegs : (s.writeRegs h d keep).openVintage = noVintage := by
  unfold writeRegs openVintage
  dsimp only
  decide

end

/-- The registers and the job of step 9 are what the device then shows (R263, R265). -/
theorem commits_written (s : State) (l : Load) (i : Image) (d : DevEntry) (keep : Bool) :
    Commits s l i d keep ((s.regsWritten (s.imageOf l i) d keep).jobWritten keep) where
  devState := (devState_writeRegs _ (hdrOf l.hdrBytes) d keep).trans (devState_jobBegun s keep)
  load := rfl
  cur := rfl
  committed := by
    cases keep with
    | true => rfl
    | false => exact (by decide : getF (0 : Word) vintageCommitted_vintage = 0)
  openVintage := openVintage_writeRegs _ (hdrOf l.hdrBytes) d keep
  mem := by cases keep <;> rfl
  jobKey := by cases keep <;> rfl
  buddy := buddyId_writeRegs _ (hdrOf l.hdrBytes) d keep
  job new := by subst new; rfl

theorem commitImage_commits {s : State} {l : Load} {x : ImageIn} {d : DevEntry}
    (found : (s.takenImage x.img).devices.find? (fun e => e.id == s.devId) = some d) :
    Commits s l (s.takenImage x.img) d (s.devState == DS.paused) (s.commitImage l x) := by
  refine (commits_written s l (s.takenImage x.img) d (s.devState == DS.paused)).staged ?_
  unfold commitImage
  dsimp only
  rw [found]
  dsimp only
  refine Staged.trans ?_ (ledger_staged ..)
  refine Staged.trans ?_ (reholdPorts_staged _)
  refine Staged.trans ?_ (refreshHeads_staged _)
  refine .ite ?_ (Staged.trans ?_ (Staged.foldl _ _ fun _ _ _ => onPart_staged ..))
  all_goals exact (writeTiles_staged ..).trans (writeFabric_staged ..)

/-! ## IMAGE_COMMIT (R263, R267) -/

/-- The state in which a message has had its effect changes by its answer alone. -/
theorem answer_onlyReplied (t : State) (n q : Nat) (a : Ans) (src : Nat) : OnlyReplied t (t.answer n q a src) :=
  onlyReplied_answer ⟨t.sessions, rfl⟩ n q a src

theorem imageCommit_answers {s : State} {l : Load} {q : Nat} {x : ImageIn} (load : s.img.load = some l) (final : l.finalSeq = some q)
    (input : l.inp = some x) (alive : s.alive = true) (permitted : s.inState [DS.ready, DS.loaded, DS.paused] = true) :
    s.imageCommit = (s.commitImage l x).dropLoad.answer l.session q .ok Src.image := by
  unfold imageCommit
  simp only [load, final, input, alive, permitted, Bool.not_true, Bool.or_self, Bool.false_eq_true, if_false]

/-- A load that has passed its checks is committed and its final message answered. -/
theorem exec_imageCommit_commits {s : State} {l : Load} {q : Nat} {x : ImageIn} {d : DevEntry} (load : s.img.load = some l)
    (final : l.finalSeq = some q) (input : l.inp = some x) (alive : s.alive = true)
    (permitted : s.inState [DS.ready, DS.loaded, DS.paused] = true)
    (found : (s.takenImage x.img).devices.find? (fun e => e.id == s.devId) = some d) :
    ∃ t, exec .imageCommit s = .next t ∧ Commits s l (s.takenImage x.img) d (s.devState == DS.paused) t ∧
      ∃ r, t.out.head? = some (.dct l.session r) ∧ r.seq = q ∧ r.status = Err.ok := by
  have run := imageCommit_answers load final input alive permitted
  refine ⟨_, congrArg Host.Outcome.next run, (commitImage_commits found).dropLoad.onlyReplied (answer_onlyReplied ..), ?_⟩
  obtain ⟨_, _, _, e⟩ := (s.commitImage l x).dropLoad.answer_eq l.session q .ok Src.image
  rw [e]
  exact ⟨_, rfl, rfl, rfl⟩

/-! ## IMAGE_LOAD (R261, R262) -/

theorem sessions_keepLoad (s : State) (l : Load) : (s.keepLoad l).sessions = s.sessions := by unfold keepLoad; rfl

/-- A message that neither ends the load nor brings DEVICES adds its bytes. -/
theorem takeImage_keeps_bytes {s : State} {h : DctHdr} {off : Nat} {bs : List Byte} {l : Load}
    (load : s.loadFor h.session off bs = some l) (more : h.final = false)
    (quiet : l.devicesOk = true ∨ devicesMatch { l with bytes := bytesWith l off bs } = false) (x : ImageIn) :
    s.takeImage h off bs x = (s.keepLoad { l with bytes := bytesWith l off bs }, some .ok) := by
  have unmatched : (!l.devicesOk && devicesMatch { l with bytes := bytesWith l off bs }) = false := by
    rcases quiet with known | absent
    · rw [known]; rfl
    · rw [absent, Bool.and_false]
  unfold takeImage
  simp only [load, unmatched, more, Bool.false_eq_true, if_false]

end State

/-- Where a message is heard and run, the image store is as it was. -/
theorem img_on (s : State) (x : Session) : (heard s x).ensureActive.img = s.img := by
  obtain ⟨ss, pow, parts, out, e⟩ := Turn.on_eq s x
  rw [e]

theorem loadFor_on (s : State) (x : Session) (n off : Nat) (bs : List Byte) :
    (heard s x).ensureActive.loadFor n off bs = s.loadFor n off bs := by
  unfold State.loadFor
  rw [img_on]

section
variable {s : State} {h : DctHdr} {x : Session} (ht : Turn s h x) {off : Nat} {bs : List Byte}
include ht

theorem exec_imageLoad_forbidden (elsewhere : s.inState [DS.ready, DS.loaded, DS.paused] = false) (inp : ImageIn) :
    ∃ t, exec (.imageLoad h off bs inp) s = .next t ∧ Answered t h Err.state ∧ OnlyReplied s t :=
  ⟨_, congrArg Host.Outcome.next (ht.dct_forbidden elsewhere), ht.onlyAnswered (.err Err.state) Src.image⟩

variable (permitted : s.inState [DS.ready, DS.loaded, DS.paused] = true)
include permitted

theorem exec_imageLoad_failing (bad : s.loadCheck h.session off bs ≠ Err.ok) (inp : ImageIn) :
    ∃ t, exec (.imageLoad h off bs inp) s = .next t ∧ Answered t h (s.loadCheck h.session off bs) ∧ OnlyReplied s t :=
  ⟨_, congrArg Host.Outcome.next (ht.dct_failing permitted bad), ht.onlyAnswered (.err (s.loadCheck h.session off bs)) Src.image⟩

/-- A message that its load takes is answered, and the load holds its bytes. -/
theorem exec_imageLoad_keeps_bytes (ok : s.loadCheck h.session off bs = Err.ok) {l : Load} (load : s.loadFor h.session off bs = some l)
    (more : h.final = false) (quiet : l.devicesOk = true ∨ State.devicesMatch { l with bytes := State.bytesWith l off bs } = false)
    (inp : ImageIn) :
    ∃ t, exec (.imageLoad h off bs inp) s = .next t ∧ Answered t h Err.ok ∧
      OnlyReplied ((heard s x).ensureActive.keepLoad { l with bytes := State.bytesWith l off bs }) t :=
  have taken := State.takeImage_keeps_bytes (s := (heard s x).ensureActive) ((loadFor_on s x ..).trans load) more quiet inp
  ⟨_, congrArg Host.Outcome.next (ht.dct_runs permitted ok taken), State.answered_answer (ht.stands (State.sessions_keepLoad ..)) .ok Src.image,
    State.answer_onlyReplied ..⟩

end

open State

/-- Settles O38: a message is answered by the check that it fails, or its load holds its bytes; of a commit the ports that go down with it
bring no QUARANTINE, so that what step 9 writes is what the device then shows. -/
theorem imageLoading : Obligations.ImageLoading := by
  unfold Obligations.ImageLoading
  intro s _
  refine ⟨fun h x off bs inp ht permitted => ⟨fun bad => ?fails, fun l ok load more quiet => ?takes⟩,
    fun h x off bs inp ht elsewhere => ?elsewhere, fun l q x d load final input alive found => ⟨fun new => ?new, fun paused => ?retrellis⟩,
    fun idle => ?idle⟩
  case fails => exact exec_imageLoad_failing ht permitted bad inp
  case takes =>
    obtain ⟨t, run, answered, only⟩ := exec_imageLoad_keeps_bytes ht permitted ok load more quiet inp
    refine ⟨t, run, answered, (congrArg State.img only.1).trans ?_, only.tiles.trans (Turn.on_tiles s x), only.job.trans (Turn.on_job s x)⟩
    unfold keepLoad
    rw [img_on]
  case elsewhere => exact exec_imageLoad_forbidden ht elsewhere inp
  case new =>
    have fresh : (s.devState == DS.paused) = false := by rcases new with e | e <;> rw [e] <;> decide
    have permitted : s.inState [DS.ready, DS.loaded, DS.paused] = true := by simpa [inState] using new.imp_right Or.inl
    obtain ⟨t, run, shows, reply⟩ := exec_imageCommit_commits load final input alive permitted found
    rw [fresh] at shows
    exact ⟨t, run, shows.devState, shows.load, shows.cur, shows.committed, shows.openVintage, shows.mem, shows.jobKey, shows.job rfl,
      shows.buddy, reply⟩
  case retrellis =>
    have kept : (s.devState == DS.paused) = true := beq_iff_eq.2 paused
    have permitted : s.inState [DS.ready, DS.loaded, DS.paused] = true := by simp [inState, paused]
    obtain ⟨t, run, shows, -⟩ := exec_imageCommit_commits load final input alive permitted found
    rw [kept] at shows
    exact ⟨t, run, shows.devState.trans paused, shows.load, shows.committed, shows.openVintage, shows.mem, shows.jobKey⟩
  case idle =>
    refine congrArg Host.Outcome.next ?_
    unfold imageCommit
    rw [idle]

end Sys2Proof.Machine

/-!
PROOFS. The memory controllers: errors counted, channels failed, temperatures read out (R281, R285 to R287).
-/
namespace Sys2Proof.Machine

/-! ## A stack's counts (R285) -/

/-- A stack whose controller has counted `n` errors of a kind, the latest at a pseudo-channel and unit. -/
def countedStack (f : Field) (n pch unit : Nat) (st : Stack) : Stack :=
  { st with ecc := setF (setF (bumpF st.ecc f n) memEccCounts_lastPch pch) memEccCounts_lastUnit unit }

/-- The place of the latest error leaves the counts. -/
theorem getF_countedStack {f : Field} (pchBeside : memEccCounts_lastPch.Beside f) (unitBeside : memEccCounts_lastUnit.Beside f)
    (n pch unit : Nat) (st : Stack) : getF (countedStack f n pch unit st).ecc f = getF (bumpF st.ecc f n) f := by
  unfold countedStack
  dsimp only
  rw [getF_setF_beside unitBeside, getF_setF_beside pchBeside]

/-- The same with one more corrected error of a row. -/
def correctedStack (pch unit : Nat) (st : Stack) : Stack :=
  { countedStack memEccCounts_ceCount 1 pch unit st with
    rowCe := Sparse.set 0 st.rowCe (pch * 2 ^ 24 + rowOfUnit unit) (Sparse.get 0 st.rowCe (pch * 2 ^ 24 + rowOfUnit unit) + 1) }

theorem rowCe_correctedStack (pch unit : Nat) (st : Stack) :
    Sparse.get 0 (correctedStack pch unit st).rowCe (pch * 2 ^ 24 + rowOfUnit unit) =
      Sparse.get 0 st.rowCe (pch * 2 ^ 24 + rowOfUnit unit) + 1 := by
  unfold correctedStack
  dsimp only
  exact Sparse.get_set_same (0 : Nat) st.rowCe _ _

theorem correctedStack_frame (pch unit : Nat) (st : Stack) : correctedStack pch unit st =
    { st with ecc := (correctedStack pch unit st).ecc, rowCe := (correctedStack pch unit st).rowCe } := by
  unfold correctedStack countedStack
  rfl

theorem ceCount_correctedStack (pch unit : Nat) (st : Stack) :
    getF (correctedStack pch unit st).ecc memEccCounts_ceCount = getF (bumpF st.ecc memEccCounts_ceCount 1) memEccCounts_ceCount :=
  getF_countedStack (f := memEccCounts_ceCount) (by decide) (by decide) 1 pch unit st

/-- A stack with a pseudo-channel marked as failed (R287). -/
def failedStack (pch : Nat) (st : Stack) : Stack :=
  { st with repair := setF st.repair memRepair_failedPch (getF st.repair memRepair_failedPch ||| 2 ^ pch) }

namespace State

section
variable (s : State) (p k pch unit : Nat)

theorem setStack_setStack {s : State} (wf : Sparse.wf Stack.reset s.memStacks = true) (p k : Nat) (a b : Stack) :
    (s.setStack p k a).setStack p k b = s.setStack p k b := by
  unfold setStack
  simp only [Sparse.set_set _ _ _ wf]

theorem memCount_eq (f : Field) (n : Nat) : s.memCount p k pch unit f n = s.setStack p k (countedStack f n pch unit (s.stack p k)) := rfl

/-- Before the sixteenth of its row a corrected error is counted and nothing else (R285, R288). -/
theorem hbmCorrected_counts {s : State} (hc : Canonical s) {p k pch unit : Nat}
    (few : Sparse.get 0 (s.stack p k).rowCe (pch * 2 ^ 24 + rowOfUnit unit) ≠ 15) :
    s.hbmCorrected p k pch unit = s.setStack p k (correctedStack pch unit (s.stack p k)) := by
  unfold hbmCorrected
  simp only [memCount_eq, stack_setStack_same]
  rw [if_neg (by unfold countedStack; dsimp only; omega), setStack_setStack hc.memStacks]
  rfl

/-! ## Channels that fail (R287) -/

theorem declareFailed_frame (c : Nat) : s.declareFailed c = { s with out := (s.declareFailed c).out, fd := (s.declareFailed c).fd } := by
  unfold declareFailed
  split <;> rfl

theorem memStacks_declareFailed (c : Nat) : (s.declareFailed c).memStacks = s.memStacks := by rw [declareFailed_frame]

theorem channelFail_frame : s.channelFail p k pch = { s with
    memStacks := (s.channelFail p k pch).memStacks, fd := (s.channelFail p k pch).fd, out := (s.channelFail p k pch).out } := by
  unfold channelFail
  rw [declareFailed_frame]
  rfl

theorem selfFailed_channelFail : (s.channelFail p k pch).fd.selfFailed.isSome = true := selfFailed_declareFailed ..

theorem failedPch_channelFail (low : pch < 32) :
    (getF ((s.channelFail p k pch).stack p k).repair memRepair_failedPch).testBit pch = true := by
  have failed : (s.channelFail p k pch).stack p k = failedStack pch (s.stack p k) := by
    unfold channelFail stack
    rw [memStacks_declareFailed]
    exact stack_setStack_same ..
  rw [failed]
  unfold failedStack
  rw [getF_setF _ ⟨by decide, by decide⟩, Nat.testBit_mod_two_pow, Nat.testBit_or, Nat.testBit_two_pow_self, Bool.or_true, Bool.and_true]
  exact decide_eq_true low

/-- An uncorrectable error in the system area fails its channel (R286). -/
theorem hbmUncorrectable_system {o : Nat} (low : o < sysBytes p) :
    s.hbmUncorrectable p k pch unit o = (s.memCount p k pch unit memEccCounts_ueCount 1).channelFail p k pch := by
  unfold hbmUncorrectable
  exact if_pos low

/-- The first of a channel in a region that a step can lose fails the step (R286). -/
theorem hbmUncorrectable_transient {o : Nat} {r : Region} (high : sysBytes p ≤ o) (here : s.regionAt p o = some r) (lost : transient r.ty = true)
    (first : Sparse.get 0 (s.stack p k).ueInJob pch = 0) : ∃ ms,
    s.hbmUncorrectable p k pch unit o = failBit { s with memStacks := ms } stepCheckStatus_ue := by
  have there : (s.memCount p k pch unit memEccCounts_ueCount 1).regionAt p o = some r := here
  unfold hbmUncorrectable
  simp only [if_neg (Nat.not_lt.2 high), there, lost, if_true]
  rw [if_neg (by rw [memCount_eq, stack_setStack_same]; unfold countedStack; dsimp only; omega)]
  exact ⟨_, rfl⟩

end

/-! ## The scrub and the temperature read-out (R281, R285) -/

theorem patrolScrub_clean (s : State) (p k pch unit : Nat) : s.patrolScrub p k pch unit .clean = s := by
  unfold patrolScrub
  exact ite_self _

section
variable {s : State} (up : s.hbmUp = true) (p k pch unit : Nat)
include up

variable (on : flagF (s.stack p k).ctl memCtl_scrubEn = true)

include on in
theorem patrolScrub_corrected : s.patrolScrub p k pch unit .corrected = s.hbmCorrected p k pch unit := by
  unfold patrolScrub
  simp [up, on]

include on in
theorem patrolScrub_uncorrectable : s.patrolScrub p k pch unit .uncorrectable =
    s.hbmUncorrectable p k pch unit (((unit * 32 + pch) * s.S + k) * 256) := by
  unfold patrolScrub
  simp [up, on]

theorem patrolScrub_onDie (ecs : flagF (s.stack p k).ctl memCtl_ecsEn = true) :
    s.patrolScrub p k pch unit .onDie = s.memCount p k pch unit memEccCounts_ondieCount 1 := by
  unfold patrolScrub
  simp [up, ecs]

/-- The temperature of a partition's hottest stack. -/
def hottest (s : State) (p : Nat) : Nat := ((List.range s.S).map (fun j => (s.stack p j).temp)).foldl max 0

theorem stackTemperature_eq (temp : Nat) : s.stackTemperature p k temp =
    (s.setStack p k { s.stack p k with temp := temp }).onPart p
      (fun a => { a with hbmTemp := (s.setStack p k { s.stack p k with temp := temp }).hottest p }) := by
  unfold stackTemperature
  simp [up, hottest]

end

/-- The stacks of a partition are not hotter than the hottest. -/
theorem temp_le_hottest (s : State) (p : Nat) {k : Nat} (present : k < s.S) : (s.stack p k).temp ≤ s.hottest p := by
  have member : (s.stack p k).temp ∈ (List.range s.S).map (fun j => (s.stack p j).temp) :=
    List.mem_map_of_mem (f := fun j => (s.stack p j).temp) (List.mem_range.2 present)
  unfold hottest
  rw [List.foldl_max]
  obtain ⟨m, most⟩ := Option.isSome_iff_exists.1 (List.isSome_max?_of_mem member)
  rw [most, Option.getD_some]
  exact le_max_of_le_right ((List.max?_eq_some_iff.1 most).2 _ member)

end State

open State

/-- Settles O26: each report of the scrub is counted in its stack, and what it fails beside is the step's bit or the channel. -/
theorem memoryMaintenance : Obligations.MemoryMaintenance := by
  unfold Obligations.MemoryMaintenance
  intro s p k pch unit temp hc up
  refine ⟨congrArg Host.Outcome.next (patrolScrub_clean ..), fun on few => ?corrected, fun on low => ?system,
    fun r on high here lost first => ?lost, fun ecs => ?onDie, ?temperature, rfl⟩
  case corrected =>
    exact ⟨_, congrArg Host.Outcome.next ((patrolScrub_corrected up p k pch unit on).trans (hbmCorrected_counts hc few)),
      rowCe_correctedStack .., correctedStack_frame .., ceCount_correctedStack ..⟩
  case system =>
    refine ⟨_, congrArg Host.Outcome.next ((patrolScrub_uncorrectable up p k pch unit on).trans (hbmUncorrectable_system s p k pch unit low)),
      ?_, selfFailed_channelFail .., failedPch_channelFail _ p k pch⟩
    exact channelFail_frame ..
  case lost =>
    obtain ⟨ms, e⟩ := hbmUncorrectable_transient s p k pch unit high here lost first
    exact ⟨_, congrArg Host.Outcome.next ((patrolScrub_uncorrectable up p k pch unit on).trans e), rfl, testBit_failed ..⟩
  case onDie =>
    exact ⟨_, congrArg Host.Outcome.next (patrolScrub_onDie up p k pch unit ecs), getF_countedStack (by decide) (by decide) .., rfl⟩
  case temperature =>
    refine ⟨_, congrArg Host.Outcome.next (stackTemperature_eq up p k temp), rfl, ?_, fun present => ?_, ?_⟩
    · exact congrArg Stack.temp (stack_setStack_same s p k _)
    · rw [part_onPart_same]
      have h := temp_le_hottest (s.setStack p k { s.stack p k with temp := temp }) p present
      rwa [stack_setStack_same] at h
    · rw [part_onPart_same]
      rfl

end Sys2Proof.Machine

/-!
PROOFS. COPY_ON_WRITE (R295): the wait of a transfer that the copy ends is a record in the ledger of the transfer's tile, wherever that
tile lies (R64, R317).
-/
namespace Sys2Proof.Machine

open State

/-! ## A transfer that has waited for its page -/

namespace Waiting

/-- Device 0 holds role 0, whose partition 0 has one page of STATE and one frame of SNAP. -/
def device : DevEntry :=
  { id := 0, role := 0, b1 := none, b2 := none, tensor := 0, pipeline := 0, replica := 0, domain := 0, job := 0, extra := [], spare := false,
    stateLen := [1] }

def role : RolePart :=
  { role := 0, regions := [{ ty := .state, part := 0, base := 0, len := pageBytes }, { ty := .snap, part := 0, base := pageBytes, len := pageBytes }],
    programs := [], tiles := [], funcs := [], colls := [], peers := [], groups := [], transit := [], cellarNeed := [] }

def image : Image := { Unsorted.image with devices := [device], roles := [role] }

/-- A write of four bytes to that page, at the head of its channel since the count stood at 0. -/
def transfer : Xfer :=
  { word := 0, d := { kind := .toHbm 0, loc := 0, len := 4, gather := none, stash := noStash }, bytes := [1, 2, 3, 4], since := 0, lot := 0,
    rerun := false }

/-- It is a tile of partition 1 that writes, with stalls recorded. -/
def tile : Tile := { Tile.reset with chans := [(0, { Chan.reset with queue := [transfer] })] }

/-- One microsecond later: the snapshot is open, and the page is not copied. -/
def state : State :=
  { State.reset with
    time := { State.reset.time with count := usTicks }
    tiles := [(tkey ⟨1, 0⟩, tile)]
    parts := [(0, { Part.reset with pages := [{ copied := false, racked := false, snap := 0, live := 0 }] })]
    img := { cur := some { hdr := Unsorted.header, digest := 0, img := image, half := 0 }, load := none }
    job := { State.reset.job with sigmaOpen := true } }

theorem canonical : Canonical state where
  mem := rfl
  tiles := by decide
  stores := by
    intro x hx
    rw [List.mem_singleton.1 hx]
    decide
  parts := by decide
  ports := rfl
  memStacks := rfl
  sites := rfl

/-- The copy appends the stall to the ledger of partition 1, which was empty. -/
theorem ledger_grows : ledgerHead state 1 = 0 ∧ ledgerHead (state.copyOnWrite 0 0 false) 1 = 1 := ⟨by decide, by decide⟩

end Waiting

open Waiting

/-- Refutes O25: partitions other than the page's do change. The copy ends the wait of every transfer that stood for the page alone; a
tile of partition 1 whose transfer has stood for a microsecond has that stall recorded in the ring of partition 1. -/
theorem not_pageCopies : ¬ Obligations.PageCopies := by
  unfold Obligations.PageCopies
  intro h
  obtain ⟨copies, -⟩ := h state 0 0 canonical (by decide) rfl (by decide)
  obtain ⟨s', runs, -, -, -, others, -⟩ := copies 1 (by decide) (by decide)
  have copied : state.copyOnWrite 0 0 false = s' := Host.Outcome.next.inj runs
  have same : ledgerHead s' 1 = ledgerHead state 1 := congrArg (fun a : Part => a.ledger.head) (others 1 (by decide))
  obtain ⟨before, after⟩ := ledger_grows
  rw [← copied, before, after] at same
  exact absurd same (by decide)

end Sys2Proof.Machine

/-!
PROOFS. BULK_WRITE and BULK_READ through the page map, the replies that end a retransmission, and EVENT_RETRANSMIT (R292, R399, R400,
R405, R436).
-/
namespace Sys2Proof.Machine

/-! ## Memory where a message runs (R451) -/

/-- From `a` to `b` a partition's rail alone has changed. -/
def RailOnly (a b : Part) : Prop := b = { a with rail := b.rail, queued := b.queued, avsRetried := b.avsRetried }

namespace RailOnly
variable {a b c : Part}

theorem refl (a : Part) : RailOnly a a := rfl

theorem written (a : Part) (rail : Nat) (queued : Option Nat) (retried : Bool) :
    RailOnly a { a with rail := rail, queued := queued, avsRetried := retried } := rfl

theorem trans (h : RailOnly a b) (k : RailOnly b c) : RailOnly a c := by
  unfold RailOnly at h k ⊢
  rw [k, h]

theorem pages (h : RailOnly a b) : b.pages = a.pages := by
  unfold RailOnly at h
  rw [h]

theorem fenceStatus (h : RailOnly a b) : b.fenceStatus = a.fenceStatus := by
  unfold RailOnly at h
  rw [h]

end RailOnly

namespace State

theorem setPart_railOnly (s : State) (p q : Nat) {a : Part} (h : RailOnly (s.part p) a) : RailOnly (s.part q) ((s.setPart p a).part q) := by
  by_cases e : q = p
  · subst e
    rw [part_setPart_same]
    exact h
  · rw [part_setPart_other s a e]
    exact .refl _

theorem part_railWritten (s : State) (f : Field) (p : Nat) (on : Bool) (m : Msg) (q : Nat) : ((s.setRailBit f p on).send m).part q = s.part q := by
  unfold setRailBit send part
  rfl

theorem setRail_railOnly (s : State) (p want q : Nat) : RailOnly (s.part q) ((s.setRail p want).part q) := by
  unfold setRail
  extract_lets a c
  split
  · exact .refl _
  · split
    · exact setPart_railOnly s p q (.written a a.rail (some c) a.avsRetried)
    · split
      · exact .refl _
      · rw [part_railWritten]
        exact setPart_railOnly s p q (.written a c a.queued false)

theorem ensureActive_railOnly (s : State) (q : Nat) : RailOnly (s.part q) (s.ensureActive.part q) := by
  unfold ensureActive setRails
  split
  · exact List.foldlRecOn (motive := fun t : State => RailOnly (s.part q) (t.part q)) (List.range 8) _ (.refl _)
      fun t h p _ => h.trans (setRail_railOnly t p _ q)
  · exact .refl _

end State

namespace Turn

theorem on_railOnly (s : State) (x : Session) (p : Nat) : RailOnly (s.part p) ((heard s x).ensureActive.part p) :=
  (heard s x).ensureActive_railOnly p

theorem on_mem (s : State) (x : Session) : (heard s x).ensureActive.mem = s.mem := by
  obtain ⟨ss, pow, parts, out, e⟩ := on_eq s x
  rw [e]

theorem on_sealed (s : State) (x : Session) : (heard s x).ensureActive.sealed = s.sealed := by
  obtain ⟨ss, pow, parts, out, e⟩ := on_eq s x
  rw [e]
  rfl

theorem on_envelopeErr (s : State) (x : Session) (env : Envelope) : (heard s x).ensureActive.envelopeErr env = s.envelopeErr env := by
  obtain ⟨ss, pow, parts, out, e⟩ := on_eq s x
  rw [e]
  rfl

/-- A partition refuses where the message runs as it did where it came (R436, R444). -/
theorem on_partRefuses (s : State) (x : Session) (p : Nat) : (heard s x).ensureActive.partRefuses p = s.partRefuses p := by
  have retired : (heard s x).ensureActive.partRetired p = s.partRetired p := by
    obtain ⟨ss, pow, parts, out, e⟩ := on_eq s x
    rw [e]
    rfl
  have fenced : (heard s x).ensureActive.partFenced p = s.partFenced p := by
    unfold State.partFenced
    rw [(on_railOnly s x p).fenceStatus]
  unfold State.partRefuses
  rw [retired, fenced]

/-- The page map is as it was (R295). -/
theorem on_phys (s : State) (x : Session) : (heard s x).ensureActive.phys false = s.phys false := by
  have pageOf (a : Nat) : (heard s x).ensureActive.pageOf a = s.pageOf a := by
    obtain ⟨ss, pow, parts, out, e⟩ := on_eq s x
    rw [e]
    rfl
  have page (p i : Nat) : (heard s x).ensureActive.page p i = s.page p i := by
    unfold State.page
    rw [(on_railOnly s x p).pages]
  funext a
  unfold State.phys
  rw [pageOf]
  cases s.pageOf a with
  | none => rfl
  | some i => simp only [page]

theorem on_hbmWrite (s : State) (x : Session) (a : Nat) (bs : List Byte) :
    ((heard s x).ensureActive.hbmWrite a bs).mem = (s.hbmWrite a bs).mem := by
  rw [State.hbmWrite_eq, State.hbmWrite_eq, on_phys, on_mem]

theorem on_hbmRead (s : State) (x : Session) (a n : Nat) : (heard s x).ensureActive.hbmRead false a n = s.hbmRead false a n := by
  induction n generalizing a with
  | zero => rfl
  | succ n ih =>
    unfold State.hbmRead
    rw [ih, on_mem, on_phys]

end Turn

theorem OnlyReplied.mem {s t : State} (h : OnlyReplied s t) : t.mem = s.mem := congrArg (·.mem) h.1

/-! ## BULK_WRITE and BULK_READ (R405) -/

namespace State

theorem hbmWrite_sessions (s : State) (a : Nat) (bs : List Byte) : (s.hbmWrite a bs).sessions = s.sessions := by rw [hbmWrite_eq]

theorem hbmWrite_tiles (s : State) (a : Nat) (bs : List Byte) : (s.hbmWrite a bs).tiles = s.tiles := by rw [hbmWrite_eq]

theorem countRefused_frame (s : State) (p e : Nat) : s.countRefused p e = { s with parts := (s.countRefused p e).parts } := by
  unfold countRefused
  split <;> rfl

theorem countRefused_sessions (s : State) (p e : Nat) : (s.countRefused p e).sessions = s.sessions := by rw [countRefused_frame]

theorem countRefused_mem (s : State) (p e : Nat) : (s.countRefused p e).mem = s.mem := by rw [countRefused_frame]

end State

section
variable {s : State} {h : DctHdr} {x : Session} (ht : Turn s h x) (job : s.inJob = true) {a off : Nat}
include ht job

section
variable {bs : List Byte} {env : Envelope} (full : bs ≠ []) (ok : s.bulkCheck true false (a + off) bs.length = Err.ok)
include full ok

theorem exec_bulkWrite_writes (free : s.partRefuses ((a + off) / windowBytes) = Err.ok) (opens : s.envelopeErr env = Err.ok) :
    exec (.bulkWrite h false a off bs env) s = .next (answeredOk ((heard s x).ensureActive.hbmWrite (a + off) bs) h) := by
  refine congrArg Host.Outcome.next (ht.dct_runs job ok ?_)
  have free' := (Turn.on_partRefuses s x _).trans free
  have opens' := (Turn.on_envelopeErr s x env).trans opens
  simp [full, free', opens']

theorem exec_bulkWrite_refused {e : Nat} (refuses : s.partRefuses ((a + off) / windowBytes) = e) (bad : e ≠ Err.ok) :
    exec (.bulkWrite h false a off bs env) s =
      .next (((heard s x).ensureActive.countRefused ((a + off) / windowBytes) e).answer h.session h.seq (.err e) Src.dct) := by
  refine congrArg Host.Outcome.next (ht.dct_runs job ok ?_)
  have refuses' := (Turn.on_partRefuses s x _).trans refuses
  simp [full, refuses', bad]

end

theorem exec_bulkRead_reads {n : Nat} (full : n ≠ 0) (plain : s.sealed = false) (ok : s.bulkCheck false false (a + off) n = Err.ok)
    (memory : s.bulkAt (a + off) ≠ some .captures) (free : s.partRefuses ((a + off) / windowBytes) = Err.ok) (slot : Nat) :
    exec (.bulkRead h false a off n slot) s = .next ((heard s x).ensureActive.answer h.session h.seq
      { status := Err.ok, words := [], bytes := s.hbmRead false (a + off) n } Src.dct) := by
  refine congrArg Host.Outcome.next (ht.dct_runs (by rw [job, Bool.true_or]) ok ?_)
  have free' := (Turn.on_partRefuses s x _).trans free
  have plain' := (Turn.on_sealed s x).trans plain
  simp [full, free', plain', memory, Turn.on_hbmRead]

end

/-! ## ACK and NAK (R399) -/

namespace State

/-- What is left to be answered without message `q` of session `n`. -/
def unansweredBut (s : State) (n q : Nat) : List Unacked := s.unacked.filter (fun v => v.session != n || v.seq != q)

section
variable {s : State} {h : DctHdr} {x : Session} {q : Nat} {u : Unacked} (ht : Turn s h x)
  (waits : s.unacked.find? (fun z => z.session == x.num && z.seq == q) = some u)
include ht waits

theorem replyIn_takes (acked : Msg → State → State) :
    s.replyIn h q acked = acked u.msg { heard s x with unacked := s.unansweredBut x.num q } := by
  have found : (heard s x).unacked.find? (fun z => z.session == x.num && z.seq == q) = some u := waits
  unfold heard at found
  unfold replyIn
  simp only [ht.serves, ht.sized, ht.session, ht.isOpen, ht.tag, found, Bool.not_true, Bool.false_eq_true, if_false, Bool.or_self]
  rfl

theorem ackIn_takes (plain : ∀ m, u.msg ≠ .manifest m) : s.ackIn h q = { heard s x with unacked := s.unansweredBut x.num q } := by
  unfold ackIn
  rw [replyIn_takes ht waits]
  split
  · next m e => exact absurd e (plain m)
  · rfl

theorem nakIn_takes : s.nakIn h q = { heard s x with unacked := s.unansweredBut x.num q } := replyIn_takes ht waits _

end

/-! ## EVENT_RETRANSMIT (R400) -/

section
variable {s : State} {n q : Nat} {u : Unacked} (waits : s.unacked.find? (fun z => z.session == n && z.seq == q) = some u)
include waits

theorem retransmit_early (early : s.clock < u.sentAt + getF s.dctCfg dctCfg_rtoMs * msTicks) : s.retransmit n q = s := by
  unfold retransmit
  rw [waits]
  exact if_pos (by simp [early])

section
variable (serves : s.servesDct = true) (again : retransmits u.msg = true) (late : u.sentAt + getF s.dctCfg dctCfg_rtoMs * msTicks ≤ s.clock)
include serves again late

theorem retransmit_sends (left : u.tries < getF s.dctCfg dctCfg_retries) : s.retransmit n q =
    { s.send u.msg with unacked := s.unacked.map (fun v =>
      if v.session = n ∧ v.seq = q then { v with tries := v.tries + 1, sentAt := s.clock } else v) } := by
  unfold retransmit
  rw [waits]
  dsimp only
  rw [if_neg (by simp [serves, again, late]), if_pos left]

theorem retransmit_gives_up (spent : getF s.dctCfg dctCfg_retries ≤ u.tries) :
    (s.retransmit n q).out = s.out ∧ (s.retransmit n q).unacked = s.unansweredBut n q := by
  unfold retransmit
  rw [waits]
  dsimp only
  rw [if_neg (by simp [serves, again, late]), if_neg (Nat.not_lt.2 spent)]
  split
  · exact ⟨rfl, rfl⟩
  · exact ⟨rfl, rfl⟩

end
end
end State

open State

/-- Settles O45: bringing the device to ACTIVE changes rails alone, so that a message finds the page map, the memory and the fences where
it runs as they stood when it came. -/
theorem bulkAndReplies : Obligations.BulkAndReplies := by
  unfold Obligations.BulkAndReplies
  intro s h x ht
  refine ⟨fun a off bs env job full ok => ⟨fun free opens => ?writes, fun refuses => ?refused⟩,
    fun a off n k job full plain ok memory free => ?reads, fun u q c waits => ⟨fun plain => ?ack, ?nak⟩,
    fun n q u waits again late => ⟨fun left => ?resent, fun spent => ?lost⟩,
    fun n q u waits early => congrArg Host.Outcome.next (retransmit_early waits early)⟩
  case writes =>
    obtain ⟨answered, only⟩ := answeredOk_answers (ht.stands (hbmWrite_sessions (heard s x).ensureActive (a + off) bs))
    exact ⟨_, exec_bulkWrite_writes ht job full ok free opens, answered, only.mem.trans (Turn.on_hbmWrite ..),
      only.tiles.trans ((hbmWrite_tiles ..).trans (Turn.on_tiles s x))⟩
  case refused =>
    exact ⟨_, exec_bulkWrite_refused ht job full ok rfl refuses, answered_answer (ht.stands (countRefused_sessions ..)) ..,
      (answer_onlyReplied ..).mem.trans ((countRefused_mem ..).trans (Turn.on_mem s x))⟩
  case reads =>
    refine ⟨_, exec_bulkRead_reads ht job full plain ok memory free k, answered_answer (ht.stands rfl) .., ?_,
      (answer_onlyReplied ..).mem.trans (Turn.on_mem s x)⟩
    obtain ⟨ss, rs, w, e⟩ := answer_eq (heard s x).ensureActive h.session h.seq
      { status := Err.ok, words := [], bytes := s.hbmRead false (a + off) n } Src.dct
    rw [e]
    exact ⟨_, rfl, rfl, rfl, rfl, rfl⟩
  case ack => exact ⟨_, congrArg Host.Outcome.next (ackIn_takes ht waits plain), rfl⟩
  case nak => exact ⟨_, congrArg Host.Outcome.next (nakIn_takes ht waits), rfl⟩
  case resent =>
    exact ⟨_, congrArg Host.Outcome.next (retransmit_sends waits ht.serves again late left), rfl, rfl, List.length_map ..⟩
  case lost =>
    obtain ⟨quiet, rest⟩ := retransmit_gives_up waits ht.serves again late spent
    exact ⟨_, rfl, quiet, rest⟩

end Sys2Proof.Machine

/-!
PROOFS. COMMIT, ROLLBACK, REPLAY_START and EVALUATION_END (R42, R278, R279, R297, R298, R307, R308, R311).
-/
namespace Sys2Proof.Machine

/-! ## What a boundary leaves of the vintages -/

/-- From `r` to `s` the device state, the committed vintage and the uncommitted ones are as they were. -/
structure SameVints (r s : State) : Prop where
  state : s.dev.state = r.dev.state
  committed : getF s.step.committed vintageCommitted_vintage = getF r.step.committed vintageCommitted_vintage
  uncommitted : s.job.uncommitted = r.job.uncommitted

namespace SameVints
variable {r s t : State}

theorem refl (s : State) : SameVints s s := ⟨rfl, rfl, rfl⟩

/-- An update of anything else. -/
theorem upd (state : t.dev.state = s.dev.state) (committed : t.step.committed = s.step.committed)
    (uncommitted : t.job.uncommitted = s.job.uncommitted) : SameVints s t := ⟨state, by rw [committed], uncommitted⟩

theorem trans (a : SameVints r s) (b : SameVints s t) : SameVints r t :=
  ⟨b.state.trans a.state, b.committed.trans a.committed, b.uncommitted.trans a.uncommitted⟩

theorem ite {a b : State} {c : Prop} [Decidable c] (ha : SameVints r a) (hb : SameVints r b) : SameVints r (if c then a else b) := by
  split <;> assumption

theorem foldl {α : Type} {f : State → α → State} (l : List α) (h : SameVints r s) (step : ∀ t x, SameVints t (f t x)) :
    SameVints r (l.foldl f s) :=
  List.foldlRecOn (motive := SameVints r) l f h fun t ht x _ => ht.trans (step t x)

theorem of_body (h : SameBody s t) : SameVints s t := ⟨h.state, by rw [h.step], by rw [h.job]⟩

theorem devState (h : SameVints s t) : t.devState = s.devState := congrArg (getF · devState_state) h.state

theorem committedV (h : SameVints s t) : t.committedV = s.committedV := h.committed

theorem vint (h : SameVints s t) (v : Nat) : t.vint v = s.vint v := State.vint_congr h.uncommitted v

/-! ### Snapshot and racking (R298, R302, R303) -/

theorem ledger (s : State) (p cls code tile arg v a : Nat) : SameVints s (s.ledger p cls code tile arg v a) :=
  .of_body (State.ledger_sameBody ..)

theorem event (s : State) (code cls arg src : Nat) (always : Bool) : SameVints s (s.event code cls arg src always) :=
  .of_body (State.event_sameBody ..)

theorem onPart (s : State) (p : Nat) (f : Part → Part) : SameVints s (s.onPart p f) := .upd rfl rfl rfl

theorem allParts (s : State) (f : Part → Part) : SameVints s (s.allParts f) := foldl _ (.refl s) fun t p => onPart t p f

theorem allTiles (s : State) (f : Tile → Tile) : SameVints s (s.allTiles f) := .upd rfl rfl rfl

theorem poolStatus (s : State) : SameVints s s.poolStatus := by
  unfold State.poolStatus
  exact .upd rfl rfl rfl

theorem onJob (s : State) {f : Job → Job} (same : (f s.job).uncommitted = s.job.uncommitted) : SameVints s (s.onJob f) := .upd rfl rfl same

theorem rotateSnapshot (s : State) : SameVints s s.rotateSnapshot := by
  unfold State.rotateSnapshot
  extract_lets returned
  exact ((allParts s _).trans (.upd rfl rfl rfl : SameVints returned { returned with job := { returned.job with sigmaOpen := true } })).trans
    (poolStatus _)

theorem setRackState (s : State) (x : Nat) : SameVints s (s.setRackState x) := by
  unfold State.setRackState
  exact ⟨rfl, getF_setF_beside (g := vintageCommitted_vintage) (by decide) s.step.committed x, rfl⟩

theorem sendAll (s : State) (ms : List Msg) : SameVints s (s.sendAll ms) := by
  obtain ⟨out, e⟩ := s.sendAll_eq ms
  rw [e]
  exact .upd rfl rfl rfl

theorem rackPart (s : State) (bs : List Nat) (p : Nat) : SameVints s (s.rackPart bs p) := by
  unfold State.rackPart
  extract_lets todo sent marked
  have told : SameVints s sent := foldl bs (.refl s) fun t b => (sendAll t _).trans (.upd rfl rfl rfl)
  exact told.trans (.upd rfl rfl rfl)

theorem settleRack (s : State) : SameVints s s.settleRack := by
  unfold State.settleRack
  exact .ite ((setRackState s 0).trans (ledger ..)) (.refl s)

theorem startRacking (s : State) : SameVints s s.startRacking := by
  unfold State.startRacking
  extract_lets mir cleared racking noted
  have begun : SameVints s racking := (.upd rfl rfl rfl : SameVints s cleared).trans ((onJob cleared rfl).trans (setRackState _ 1))
  have noted : SameVints s noted := begun.trans (ledger ..)
  exact (foldl _ noted fun t p => (onPart t p _).trans (rackPart ..)).trans (settleRack _)

/-! ### What falls due beside a commit (R345, R352, R354, R381, R423) -/

theorem answer (s : State) (n q : Nat) (a : Ans) (src : Nat) : SameVints s (s.answer n q a src) := by
  obtain ⟨ss, rs, w, e⟩ := s.answer_eq n q a src
  rw [e]
  exact .upd rfl rfl rfl

theorem loadSlot (s : State) (k : Nat) (x : KeySlot) : SameVints s (s.loadSlot k x) := by
  unfold State.loadSlot State.refreshKeys
  exact .upd rfl rfl rfl

theorem eraseSlots (s : State) (mask : Nat) : SameVints s (s.eraseSlots mask) := by
  unfold State.eraseSlots State.refreshKeys
  exact .upd rfl rfl rfl

theorem applyKeys (s : State) : SameVints s s.applyKeys := by
  unfold State.applyKeys
  refine foldl _ (.upd rfl rfl rfl) fun t d => ?_
  dsimp only
  split
  · exact (loadSlot ..).trans (answer ..)
  · exact (eraseSlots ..).trans (answer ..)

theorem ask (s : State) (duty arg arg2 : Nat) (ctx : List Nat) : SameVints s (s.ask duty arg arg2 ctx) :=
  have told : SameVints s (s.toHosts (.decisionReq s.nextReq duty s.deadline ctx) false) := .of_body (State.toHosts_sameBody ..)
  told.trans (.upd rfl rfl rfl)

theorem swapPort (s : State) (n : Nat) : SameVints s (s.swapPort n) := by
  unfold State.swapPort
  split
  · exact .refl s
  · exact .ite (.refl s) (.ite (.upd rfl rfl rfl) (.upd rfl rfl rfl))

theorem boundaryLanes (s : State) : SameVints s s.boundaryLanes := by
  unfold State.boundaryLanes
  refine .ite (foldl _ (.refl s) fun t n => ?_) (foldl _ (.refl s) swapPort)
  split
  · exact ask ..
  · exact .refl t

theorem startStreams (s : State) (v : Nat) : SameVints s (s.startStreams v) := by
  unfold State.startStreams
  split
  · exact .refl s
  · extract_lets c
    obtain ⟨out, parts, seq, e⟩ := (s.onJob fun j => { j with ckpt := some c }).nextObject_eq
    rw [e]
    exact .upd rfl rfl rfl

theorem startCkpt (s : State) (v : Nat) : SameVints s (s.startCkpt v) := by
  unfold State.startCkpt
  extract_lets due
  have same : SameVints s due := .upd rfl rfl rfl
  exact .ite (.ite (same.trans (event ..)) same) (.ite (same.trans (ask ..)) (same.trans (startStreams ..)))

theorem boundaryDue (s : State) (v : Nat) : SameVints s (s.boundaryDue v) := by
  unfold State.boundaryDue
  extract_lets admitted kept
  have taken : SameVints s admitted := ((applyKeys s).trans (boundaryLanes _)).trans (.upd rfl rfl rfl)
  have same : SameVints s kept := taken.trans (.upd rfl rfl rfl)
  exact .ite (same.trans (startCkpt ..)) same

theorem clearRound (s : State) : SameVints s s.clearRound := .upd rfl rfl rfl

theorem startEval (s : State) (attempt : Nat) : SameVints s (s.startEval attempt) := by
  unfold State.startEval
  extract_lets evaluating
  have begun : SameVints s evaluating := .upd rfl rfl rfl
  exact (begun.trans (allTiles ..)).trans (ledger ..)

end SameVints

namespace State

/-! ## COMMIT (R307, R308) -/

/-- The numbers of the uncommitted vintages. -/
def numbers (s : State) : List Nat := s.job.uncommitted.map (·.v)

theorem numbers_congr {s t : State} (h : t.job.uncommitted = s.job.uncommitted) : t.numbers = s.numbers := by
  unfold numbers
  rw [h]

theorem vint_of_not_mem {s : State} {v : Nat} (h : v ∉ s.numbers) : s.vint v = none := by
  unfold vint
  rw [List.find?_eq_none]
  intro y hy same
  exact h (List.mem_map.2 ⟨y, hy, eq_of_beq same⟩)

theorem numbers_openVint (s : State) (v : Nat) : (s.openVint v).numbers = s.numbers ∨ (s.openVint v).numbers = s.numbers ++ [v] := by
  unfold openVint
  split
  · exact .inl rfl
  · exact .inr (List.map_append : (s.job.uncommitted ++ [newVint v]).map (·.v) = _)

theorem numbers_onVint (s : State) (v : Nat) {f : Vint → Vint} (hf : ∀ x, (f x).v = x.v) : (s.onVint v f).numbers = s.numbers := by
  unfold numbers
  rw [job_onVint, List.map_map]
  refine List.map_congr_left fun x _ => ?_
  simp only [Function.comp]
  split
  · exact hf x
  · rfl

/-- The next step adds its own vintage and no other. -/
theorem numbers_beginStep {s : State} (hv : s.committedV + 1 < noVintage) {w : Nat} (other : w ≠ s.committedV + 1) (closed : w ∉ s.numbers) :
    w ∉ s.beginStep.numbers := by
  have opened : w ∉ (s.openVint (s.committedV + 1)).numbers := by
    rcases numbers_openVint s (s.committedV + 1) with e | e
    · rw [e]; exact closed
    · rw [e]; simp [closed, other]
  unfold beginStep
  rw [if_neg (Nat.not_le.2 hv)]
  dsimp only
  rwa [numbers_onVint _ _ fun x => by split <;> rfl]

/-- What a device shows that has committed the vintage `v`. -/
structure TookCommit (s : State) (v : Nat) (t : State) : Prop where
  devState : t.devState = s.devState
  committed : t.committedV = v
  closed : v ∉ t.numbers

theorem TookCommit.same {s t u : State} {v : Nat} (h : TookCommit s v t) (e : SameVints t u) : TookCommit s v u :=
  ⟨e.devState.trans h.devState, e.committedV.trans h.committed, numbers_congr e.uncommitted ▸ h.closed⟩

/-- The vintage `v` leaves the uncommitted ones and is the committed one (R307). -/
def closedAt (s : State) (v : Nat) : State :=
  let kept := (s.onJob (fun j => { j with uncommitted := j.uncommitted.filter (fun y => y.v != v), minority := [], collExpired := [] })).refreshOpen
  { kept with step := { kept.step with committed := setF kept.step.committed vintageCommitted_vintage v } }

theorem committedV_closedAt (s : State) {v : Nat} (hv : v < noVintage) : (s.closedAt v).committedV = v := by
  unfold closedAt committedV
  dsimp only
  rw [getF_setF _ ⟨by decide, by decide⟩]
  exact Nat.mod_eq_of_lt (hv.trans (by decide))

theorem devState_closedAt (s : State) (v : Nat) : (s.closedAt v).devState = s.devState := by
  unfold closedAt refreshOpen refreshCellar devState
  rfl

theorem numbers_closedAt (s : State) (v : Nat) : v ∉ (s.closedAt v).numbers := by
  have left : (s.closedAt v).numbers = (s.job.uncommitted.filter (fun y => y.v != v)).map (·.v) := by
    unfold closedAt numbers
    dsimp only
    rw [refreshOpen_job]
    rfl
  simp [left]

theorem commitVintage_takes (s : State) {v : Nat} (hv : v < noVintage) : TookCommit s v (s.commitVintage v) := by
  have base : TookCommit s v (s.rotateSnapshot.closedAt v) :=
    ⟨(devState_closedAt ..).trans (SameVints.rotateSnapshot s).devState, committedV_closedAt _ hv, numbers_closedAt _ v⟩
  have rest : SameVints (s.rotateSnapshot.closedAt v) (s.commitVintage v) := by
    unfold commitVintage
    extract_lets x vd rotated kept regs shown racked noted
    exact ((((SameVints.allTiles ..).trans (.startRacking _)).trans (.ledger ..)).trans (.clearRound noted)).trans (.upd rfl rfl rfl)
  exact base.same rest

theorem enterPaused_shows (s : State) : s.enterPaused.devState = DS.paused ∧ s.enterPaused.committedV = s.committedV ∧
    s.enterPaused.numbers = s.numbers := by
  unfold enterPaused
  extract_lets stopped
  have before : SameVints s stopped.refreshOpen := (SameVints.applyKeys s).trans (.upd rfl rfl rfl)
  have after := SameVints.event (stopped.refreshOpen.toState DS.paused) Err.ok 0 stopped.committedV Src.step false
  exact ⟨after.devState.trans (devState_toState _ _ (by decide)),
    after.committedV.trans ((toState_committedV ..).trans before.committedV),
    numbers_congr (after.uncommitted.trans ((congrArg Job.uncommitted (toState_job ..)).trans before.uncommitted))⟩

/-- What the pause at a commit keeps of an uncommitted vintage: its data lots (R308). -/
def pausedVint (x : Vint) : Vint := { newVint x.v with attempt := x.attempt + 1, counted := x.counted, lots := x.lots, done := x.done }

theorem pauseJob_eq (s : State) : s.pauseJob = (s.onJob (fun j => { j with uncommitted := j.uncommitted.map pausedVint })).enterPaused := rfl

theorem pauseJob_shows (s : State) : s.pauseJob.devState = DS.paused ∧ s.pauseJob.committedV = s.committedV ∧ s.pauseJob.numbers = s.numbers := by
  obtain ⟨paused, committed, numbers⟩ := enterPaused_shows (s.onJob (fun j => { j with uncommitted := j.uncommitted.map pausedVint }))
  rw [pauseJob_eq]
  exact ⟨paused, committed, numbers.trans (List.map_map : (s.job.uncommitted.map pausedVint).map (·.v) = _)⟩

section
variable {s : State} {v : Nat}

/-- The step after a commit is at hand, or the job pauses (R308). -/
theorem takeCommit_takes (hv : v + 1 < noVintage) (pause : Bool) : (s.takeCommit v pause).committedV = v ∧ (s.takeCommit v pause).vint v = none ∧
    (s.takeCommit v pause).devState = if pause then DS.paused else s.devState := by
  unfold takeCommit
  extract_lets j kept due begun
  have took : TookCommit s v due :=
    (commitVintage_takes s (Nat.lt_of_succ_lt hv)).same ((((SameVints.onJob _ rfl).trans (.allTiles ..)).trans (.event ..)).trans (.boundaryDue ..))
  cases pause with
  | true =>
    obtain ⟨paused, committed, numbers⟩ := due.pauseJob_shows
    exact ⟨committed.trans took.committed, vint_of_not_mem (numbers ▸ took.closed), paused⟩
  | false =>
    have next : due.committedV + 1 < noVintage := by rw [took.committed]; exact hv
    have calm := beginStep_calm (Calm.refl due) next
    have step : TookCommit s v begun := ⟨calm.devState.trans took.devState, calm.committedV.trans took.committed,
      numbers_beginStep next (by rw [took.committed]; omega) took.closed⟩
    have ends : TookCommit s v (if begun.evalAt v then begun.startEval 0 else begun) := by
      split
      · exact step.same (.startEval ..)
      · exact step
    exact ⟨ends.committed, vint_of_not_mem ends.closed, ends.devState⟩

variable (alive : s.alive = true) (running : s.devState = DS.running)

theorem commitIn_ignores (h : v ≠ s.committedV + 1 ∨ s.acked = false) (pause : Bool) : s.commitIn v pause = s := by
  unfold commitIn
  refine if_pos ?_
  rcases h with h | h <;> simp [h]

section
variable (open_ : (s.vint v).isSome = true) (next : v = s.committedV + 1) (acked : s.acked = true) (rolling : s.job.rollbackAt = none)
include alive running open_ next acked rolling

theorem commitIn_due (pause : Bool) : s.commitIn v pause =
    if s.graftsDue then s.onJob (fun j => { j with heldCommit := some (v, pause) }) else s.takeCommit v pause := by
  have present : (s.vint v).isNone = false := by rw [Option.isNone_eq_false_iff]; exact open_
  unfold commitIn
  refine if_neg ?_
  rw [present, alive, running, acked, rolling, next]
  simp

end
end
end State

/-! ## ROLLBACK (R297, R311) -/

/-- From `r` to `s` the vintages, the step's registers, the racking mismatches and the page maps are as they were. -/
structure SameMap (r s : State) : Prop where
  vints : SameVints r s
  step : s.step = r.step
  mismatch : s.job.rackMismatch = r.job.rackMismatch
  pages : ∀ p, (s.part p).pages = (r.part p).pages

namespace SameMap
variable {r s t : State}

theorem refl (s : State) : SameMap s s := ⟨.refl s, rfl, rfl, fun _ => rfl⟩

theorem trans (a : SameMap r s) (b : SameMap s t) : SameMap r t :=
  ⟨a.vints.trans b.vints, b.step.trans a.step, b.mismatch.trans a.mismatch, fun p => (b.pages p).trans (a.pages p)⟩

/-- An update of anything else. -/
theorem upd (state : t.dev.state = s.dev.state) (step : t.step = s.step) (uncommitted : t.job.uncommitted = s.job.uncommitted)
    (mismatch : t.job.rackMismatch = s.job.rackMismatch) (parts : t.parts = s.parts) : SameMap s t :=
  ⟨.upd state (congrArg StepRegs.committed step) uncommitted, step, mismatch, fun p => by unfold State.part; rw [parts]⟩

theorem of_body (h : SameBody s t) (parts : t.parts = s.parts) : SameMap s t :=
  .upd h.state h.step (by rw [h.job]) (by rw [h.job]) parts

theorem foldl {α : Type} {f : State → α → State} (l : List α) (h : SameMap r s) (step : ∀ t x, SameMap t (f t x)) : SameMap r (l.foldl f s) :=
  List.foldlRecOn (motive := SameMap r) l f h fun t ht x _ => ht.trans (step t x)

theorem openAttempt (h : SameMap s t) : t.openAttempt = s.openAttempt := congrArg (fun r : StepRegs => getF r.openV vintageOpen_attempt) h.step

theorem onJob (s : State) {f : Job → Job} (uncommitted : (f s.job).uncommitted = s.job.uncommitted)
    (mismatch : (f s.job).rackMismatch = s.job.rackMismatch) : SameMap s (s.onJob f) := .upd rfl rfl uncommitted mismatch rfl

theorem ledger (s : State) (p cls code tile arg v a : Nat) : SameMap s (s.ledger p cls code tile arg v a) := by
  have same := State.ledger_sameBody s p cls code tile arg v a
  refine ⟨.of_body same, same.step, by rw [same.job], fun q => ?_⟩
  have only : (s.ledger p cls code tile arg v a).part q = (s.setPart p { s.part p with ledger := _ }).part q := rfl
  rw [only]
  by_cases e : q = p
  · rw [e, State.part_setPart_same]
  · rw [State.part_setPart_other _ _ e]

theorem errRecord (s : State) (code src : Nat) : SameMap s (s.errRecord code src) := by
  obtain ⟨w, e⟩ := s.errRecord_eq code src
  rw [e]
  exact .upd rfl rfl rfl rfl rfl

theorem toHosts (s : State) (m : Msg) (b : Bool) : SameMap s (s.toHosts m b) := by
  unfold State.toHosts
  refine foldl _ (.refl s) fun t x => .of_body (State.sendTo_sameBody ..) ?_
  unfold State.sendTo State.send
  rfl

theorem suppressed (s : State) (w : Word) : SameMap s { s with dev := { s.dev with eventCtl := w } } :=
  .of_body (State.suppressed_sameBody s w) rfl

theorem event (s : State) (code cls arg src : Nat) (always : Bool) : SameMap s (s.event code cls arg src always) := by
  unfold State.event
  extract_lets noted
  have h : SameMap s noted := (ledger ..).trans (errRecord ..)
  split
  · exact h.trans (toHosts ..)
  · exact h.trans (suppressed ..)

theorem endCheckWait (s : State) : SameMap s s.endCheckWait := by
  unfold State.endCheckWait
  split
  · exact .refl s
  · exact (ledger ..).trans (onJob _ rfl rfl)

theorem tileSt (s : State) (tl : TileRef) (st : Nat) : SameMap s (s.tileSt tl st) := by
  unfold State.tileSt
  exact .upd rfl rfl rfl rfl rfl

theorem testFaulted (s : State) : SameMap s s.testFaulted := by
  unfold State.testFaulted
  refine foldl _ (.refl s) fun t x => ?_
  dsimp only
  split
  · exact (.upd rfl rfl rfl rfl rfl : SameMap t (t.setSite ..)).trans (tileSt ..)
  · exact .refl t

theorem haltStages (s : State) : SameMap s s.haltStages := .upd rfl rfl rfl rfl rfl

theorem clearRegions (s : State) (ty : RegionTy) : SameMap s (s.clearRegions ty) := by
  unfold State.clearRegions
  refine foldl _ (.refl s) fun t p => ?_
  split
  · exact .refl t
  · exact .upd rfl rfl rfl rfl rfl

theorem clearRound (s : State) : SameMap s s.clearRound := .upd rfl rfl rfl rfl rfl

theorem dueEval (s : State) : SameMap s (s.onJob (fun j => { j with evalDue := true, evalAttempt := j.evalAttempt + 1 })) := onJob s rfl rfl

theorem takeDecant (s : State) (id : Nat) : SameMap s (s.takeDecant id) := .upd rfl rfl rfl rfl rfl

theorem send (s : State) (m : Msg) : SameMap s (s.send m) := .upd rfl rfl rfl rfl rfl

theorem reportDecant (s : State) : SameMap s s.reportDecant := by
  unfold State.reportDecant
  split
  · exact .refl s
  split
  · exact takeDecant ..
  · exact send ..

/-- With no mismatch counted no partition is racked anew (R302). -/
theorem restartRacking (s : State) (none_ : s.job.rackMismatch = []) : SameMap s s.restartRacking := by
  unfold State.restartRacking
  simp only [none_, List.filter_nil, List.map_nil, List.foldl_nil]
  exact onJob s rfl (by simp only [none_, List.filter_nil])

end SameMap

/-- What the walk of a rollback makes of an entry of the page map (R297). -/
def decantedPage (e : PageEntry) : PageEntry := if e.copied then { e with live := e.snap, snap := 0, copied := false } else e

namespace State

/-- A change to each partition of a list reaches those alone, once. -/
theorem part_foldl_onPart (f : Part → Part) {l : List Nat} (once : l.Nodup) (s : State) (p : Nat) :
    (l.foldl (fun t q => t.onPart q f) s).part p = if p ∈ l then f (s.part p) else s.part p := by
  induction l generalizing s with
  | nil => rfl
  | cons q l ih =>
    obtain ⟨new, once⟩ := List.nodup_cons.1 once
    rw [List.foldl_cons, ih once]
    by_cases e : p = q
    · subst e
      rw [if_neg new, part_onPart_same, if_pos List.mem_cons_self]
    · rw [part_onPart_other _ _ e]
      simp [e]

theorem part_allParts (s : State) (f : Part → Part) {p : Nat} (hp : p < 8) : (s.allParts f).part p = f (s.part p) :=
  (part_foldl_onPart f List.nodup_range s p).trans (if_pos (List.mem_range.2 hp))

theorem part_poolStatus (s : State) (p : Nat) : s.poolStatus.part p = s.part p := by
  unfold poolStatus part
  rfl

theorem decantPages_eq (s : State) : s.decantPages = (s.allParts (fun a => { a with pages := a.pages.map decantedPage })).poolStatus := rfl

theorem pages_decantPages (s : State) {p : Nat} (hp : p < 8) : (s.decantPages.part p).pages = (s.part p).pages.map decantedPage := by
  rw [decantPages_eq, part_poolStatus, part_allParts _ _ hp]

theorem decantPages_vints (s : State) : SameVints s s.decantPages := by
  rw [decantPages_eq]
  exact (SameVints.allParts ..).trans (.poolStatus _)

theorem mismatch_decantPages (s : State) : s.decantPages.job.rackMismatch = s.job.rackMismatch := by
  rw [decantPages_eq, poolStatus_job]
  exact congrArg Job.rackMismatch (List.foldlRecOn (motive := fun t : State => t.job = s.job) _ _ rfl fun t h p _ => h)

/-! ### The attempt to come -/

theorem openAttempt_refreshOpen {s : State} {y : Vint} {ys : List Vint} (h : s.job.uncommitted = y :: ys) :
    s.refreshOpen.openAttempt = y.attempt % 2 ^ 16 := by
  unfold refreshOpen refreshCellar openAttempt
  simp only [h]
  rw [getF_setF_beside (by decide), getF_setF _ ⟨by decide, by decide⟩]
  rfl

/-- What a rollback to the attempt `a` makes of the uncommitted vintage of that place: nothing judged or reported stands (R311). -/
def raisedVint (a : Nat) (x : Vint × Nat) : Vint :=
  { x.1 with attempt := (if x.2 = 0 then a else x.1.attempt + 1), verdict := none, absorbed := [], checked := false, verdictSent := false }

theorem raiseAttempts_eq (s : State) (a : Nat) :
    s.raiseAttempts a = (s.onJob (fun j => { j with uncommitted := j.uncommitted.zipIdx.map (raisedVint a) })).refreshOpen := rfl

theorem openAttempt_raiseAttempts {s : State} {y : Vint} {ys : List Vint} (h : s.job.uncommitted = y :: ys) (a : Nat) :
    (s.raiseAttempts a).openAttempt = a % 2 ^ 16 := by
  have raised : (s.job.uncommitted.zipIdx).map (raisedVint a) = raisedVint a (y, 0) :: (ys.zipIdx 1).map (raisedVint a) := by
    rw [h, List.zipIdx_cons, List.map_cons]
  rw [raiseAttempts_eq]
  refine openAttempt_refreshOpen (y := raisedVint a (y, 0)) (ys := (ys.zipIdx 1).map (raisedVint a)) ?_
  exact raised

theorem devState_raiseAttempts (s : State) (a : Nat) : (s.raiseAttempts a).devState = s.devState := by
  unfold raiseAttempts refreshOpen refreshCellar devState
  rfl

theorem committedV_raiseAttempts (s : State) (a : Nat) : (s.raiseAttempts a).committedV = s.committedV := by
  unfold raiseAttempts committedV
  rw [refreshOpen_committed]
  rfl

theorem mismatch_raiseAttempts (s : State) (a : Nat) : (s.raiseAttempts a).job.rackMismatch = s.job.rackMismatch := by
  unfold raiseAttempts
  rw [refreshOpen_job]
  rfl

theorem part_raiseAttempts (s : State) (a p : Nat) : (s.raiseAttempts a).part p = s.part p := by
  unfold raiseAttempts refreshOpen refreshCellar part
  rfl

/-! ### The rollback, in order -/

/-- What a device shows that has rolled its vintages back to the attempt `a` (R297, R311). -/
structure RolledTo (s : State) (a : Nat) (t : State) : Prop where
  devState : t.devState = s.devState
  committed : t.committedV = s.committedV
  attempt : t.openAttempt = a % 2 ^ 16
  mismatch : t.job.rackMismatch = []
  pages : ∀ p < 8, (t.part p).pages = (s.part p).pages.map decantedPage

section
variable {s t u : State} {a : Nat}

theorem RolledTo.same (h : RolledTo s a t) (e : SameMap t u) : RolledTo s a u :=
  ⟨e.vints.devState.trans h.devState, e.vints.committedV.trans h.committed, e.openAttempt.trans h.attempt, e.mismatch.trans h.mismatch,
    fun p hp => (e.pages p).trans (h.pages p hp)⟩

/-- The pages go back to their snapshot frames and the attempts rise. -/
theorem decantPages_rolls {y : Vint} {ys : List Vint} (h : SameMap s t) (open_ : s.job.uncommitted = y :: ys) (matched : s.job.rackMismatch = []) :
    RolledTo s a (t.decantPages.raiseAttempts a) where
  devState := (devState_raiseAttempts ..).trans ((decantPages_vints t).devState.trans h.vints.devState)
  committed := (committedV_raiseAttempts ..).trans ((decantPages_vints t).committedV.trans h.vints.committedV)
  attempt := openAttempt_raiseAttempts (((decantPages_vints t).uncommitted.trans h.vints.uncommitted).trans open_) a
  mismatch := (mismatch_raiseAttempts ..).trans ((mismatch_decantPages t).trans (h.mismatch.trans matched))
  pages p hp := by rw [part_raiseAttempts, pages_decantPages t hp, h.pages p]

/-- A rollback awaits its replay, with the failure bits cleared. -/
def Awaits (s : State) : Prop := s.job.rollbackAt.isSome = true ∧ s.job.bits = 0

theorem awaits_clearRound (s : State) (now : Nat) :
    (s.clearRound.onJob (fun j => { j with decanted := [], rollbackAt := some now })).Awaits := ⟨rfl, rfl⟩

theorem awaits_event (h : s.Awaits) (code cls arg src : Nat) (always : Bool) : (s.event code cls arg src always).Awaits := by
  unfold Awaits
  rw [(event_sameBody s code cls arg src always).job]
  exact h

theorem awaits_reportDecant (h : s.Awaits) : s.reportDecant.Awaits := by
  unfold reportDecant
  split
  · exact h
  · split
    · exact h
    · exact h

theorem rollbackIn_rolls {y : Vint} {ys : List Vint} (alive : s.alive = true) (running : s.devState = DS.running)
    (open_ : s.job.uncommitted = y :: ys) (own : s.openVintage = y.v) (present : y.v ≠ noVintage) (later : s.openAttempt < a)
    (matched : s.job.rackMismatch = []) (free : s.job.heldCommit = none) :
    RolledTo s a (s.rollbackIn y.v a 0) ∧ (s.rollbackIn y.v a 0).Awaits := by
  have taken : (!s.alive || s.devState != DS.running || y.v != s.openVintage || y.v == noVintage || a ≤ s.openAttempt ||
      s.job.heldCommit.isSome) = false := by
    simp [alive, running, own, present, later, free]
  unfold rollbackIn
  rw [if_neg (by rw [taken]; decide)]
  extract_lets checked wasEval due halted tested roll rolled cleared evaled raised phased waiting
  have stopped : SameMap s halted := ((SameMap.endCheckWait s).trans (.testFaulted _)).trans (.haltStages _)
  have swept : SameMap s cleared := ((stopped.trans (.upd rfl rfl rfl rfl rfl : SameMap halted rolled)).trans (.clearRegions ..)).trans (.clearRegions ..)
  have evaledKept : SameMap s evaled := by
    unfold evaled
    split
    · exact (swept.trans (.clearRegions ..)).trans (.dueEval _)
    · exact swept
  have back := decantPages_rolls (a := a) evaledKept open_ matched
  have round : RolledTo s a waiting :=
    (((back.same (.restartRacking _ back.mismatch)).same (.ledger ..)).same (.clearRound phased)).same (.onJob _ rfl rfl)
  rw [if_neg (by decide)]
  exact ⟨(round.same (.event ..)).same (.reportDecant _), awaits_reportDecant (awaits_event (awaits_clearRound ..) ..)⟩

theorem rollbackIn_ignores {v : Nat} (h : v ≠ s.openVintage ∨ a ≤ s.openAttempt ∨ s.job.heldCommit.isSome = true) (stop : Nat) :
    s.rollbackIn v a stop = s := by
  unfold rollbackIn
  refine if_pos ?_
  rcases h with h | h | h <;> simp [h]

end
section
variable {s t : State}

/-! ## REPLAY_START and EVALUATION_END (R278, R279, R311) -/

theorem unserved_congr {tl : TileRef} (uncommitted : t.job.uncommitted = s.job.uncommitted) (step : t.step = s.step) (h : Unserved s tl) :
    Unserved t tl := by
  have attempt : t.openAttempt = s.openAttempt := congrArg (fun r : StepRegs => getF r.openV vintageOpen_attempt) step
  unfold Unserved
  rw [uncommitted, attempt]
  exact h

/-- With no tile served the cellar changes nothing. -/
theorem serveAll_unserved (quiet : ∀ tl, Unserved s tl) : s.serveAll = s :=
  List.foldlRecOn (motive := fun u => u = s) s.tiles _ rfl fun u same x _ => by rw [same]; exact serveFrames_unserved _ (quiet _)

/-- The replay's first sequence entry, with all else of the tile kept. -/
def replayTile (t : Tile) : Tile := { t with seq := firstSeq t false }

/-- The device that begins its replay, before its tiles do. -/
def replaying (s : State) : State := (s.onJob (fun j => { j with rollbackAt := none })).phase 14

theorem replaying_sameBody (s : State) : SameBody (s.onJob (fun j => { j with rollbackAt := none })) s.replaying := by
  unfold replaying phase
  exact ledger_sameBody ..

theorem replayStart_begins (alive : s.alive = true) (running : s.devState = DS.running) (rolled : s.job.rollbackAt.isSome = true)
    (member : s.isJobHead = false) (noEval : s.job.evalDue = false) (quiet : ∀ tl, Unserved s tl) :
    s.replayStart = s.replaying.allTiles replayTile := by
  have body := replaying_sameBody s
  have due : (s.replaying.allTiles replayTile).job.evalDue = false := (congrArg Job.evalDue body.job).trans noEval
  have kept : (s.replaying.allTiles replayTile).job.uncommitted = s.job.uncommitted := (congrArg Job.uncommitted body.job :)
  have still : (s.replaying.allTiles replayTile).serveAll = s.replaying.allTiles replayTile :=
    serveAll_unserved fun tl => unserved_congr kept body.step (quiet tl)
  have taken : (s.job.rollbackAt.isNone = false) := by rw [Option.isNone_eq_false_iff]; exact rolled
  have begins : s.replayStart = if (s.replaying.allTiles replayTile).serveAll.job.evalDue then
      (s.replaying.allTiles replayTile).serveAll.startEval (s.replaying.allTiles replayTile).serveAll.job.evalAttempt
      else (s.replaying.allTiles replayTile).serveAll := by
    unfold replayStart
    exact if_neg (by simp [alive, running, taken, member])
  rw [begins, still, due]
  rfl

theorem replayStart_ignores (none_ : s.job.rollbackAt = none) : s.replayStart = s := by
  unfold replayStart
  exact if_pos (by simp [none_])

theorem replaying_tile (tl : TileRef) : s.replaying.tile tl = s.tile tl := by
  unfold tile
  rw [(replaying_sameBody s).tiles]
  rfl

theorem tile_replays (hc : Canonical s) (tl : TileRef) : (s.replaying.allTiles replayTile).tile tl = replayTile (s.tile tl) := by
  have canon : Canonical s.replaying := by
    unfold replaying phase
    exact (ledger_keeps (onJob_keeps (.refl s) _) ..).canon hc
  rw [tile_allTiles canon (by rfl), replaying_tile]

/-- A tile at the end of an evaluation: at the first entry of its training sequence, nothing held of the evaluation. -/
def evaluatedTile (t : Tile) : Tile := { boundaryTile false t with lees := [] }

/-- The device whose evaluation has ended, before its ledger and its hosts know. -/
def evaluated (s : State) : State := (s.onJob (fun j => { j with evaluating := false, evalBytes := [] })).allTiles evaluatedTile

theorem evaluationEnd_ends (alive : s.alive = true) (evaluating : s.job.evaluating = true) (quiet : ∀ tl, Unserved s tl) :
    SameBody s.evaluated s.evaluationEnd := by
  have still : s.evaluated.serveAll = s.evaluated := serveAll_unserved fun tl => unserved_congr (s := s) rfl rfl (quiet tl)
  have ends : s.evaluationEnd = (s.evaluated.serveAll.ledger 0 0 16 0xff 0 s.job.evalV s.job.evalAttempt).event Err.ok 9 s.job.evalV Src.step false := by
    unfold evaluationEnd
    exact if_neg (by simp [alive, evaluating])
  rw [ends, still]
  exact (ledger_sameBody ..).trans (event_sameBody ..)

theorem evaluationEnd_ignores (idle : s.job.evaluating = false) : s.evaluationEnd = s := by
  unfold evaluationEnd
  exact if_pos (by simp [idle])

theorem store_evaluated (hc : Canonical s) (tl : TileRef) : (s.evaluated.tile tl).store = (s.tile tl).store := by
  have canon : Canonical (s.onJob (fun j => { j with evaluating := false, evalBytes := [] })) := (onJob_keeps (.refl s) _).canon hc
  unfold evaluated
  rw [tile_allTiles canon (by decide)]
  rfl

end
end State

/-- Settles O32: a boundary and a rollback walked with what each part keeps of the vintages and the page maps; a replay and the end of
an evaluation find no frame in the cellar to serve. -/
theorem commitAndRollback : Obligations.CommitAndRollback := by
  intro s hc alive running
  refine ⟨?commit, ?held, ?noCommit, ?rollback, ?noRollback, ?replay, ?noReplay, ?evaluation, ?noEvaluation⟩
  case commit =>
    intro v pause open_ next below acked rolling free
    obtain ⟨committed, closed, state⟩ := State.takeCommit_takes (s := s) below pause
    have due := (State.commitIn_due alive running open_ next acked rolling pause).trans (if_neg (by rw [free]; decide))
    exact ⟨_, rfl, due ▸ committed, due ▸ closed, due ▸ running ▸ state⟩
  case held =>
    intro v pause open_ next acked rolling grafts
    exact congrArg _ ((State.commitIn_due alive running open_ next acked rolling pause).trans (if_pos grafts))
  case noCommit => exact fun v pause h => congrArg _ (State.commitIn_ignores h pause)
  case rollback =>
    intro a y ys open_ own present later matched free
    obtain ⟨back, waits, clear⟩ := State.rollbackIn_rolls alive running open_ own present later matched free
    exact ⟨_, rfl, back.devState.trans running, back.attempt, back.committed, waits, clear, back.pages⟩
  case noRollback => exact fun v a stop h => congrArg _ (State.rollbackIn_ignores h stop)
  case replay =>
    intro rolled member noEval quiet
    refine ⟨s.replaying.allTiles State.replayTile, congrArg Host.Outcome.next (State.replayStart_begins alive running rolled member noEval quiet), (State.replaying_sameBody s).job, ?_, ?_⟩
    · intro tl
      rw [State.tile_replays hc]
      rfl
    · intro tl
      rw [State.tile_replays hc]
      rfl
  case noReplay => exact fun h => congrArg _ (State.replayStart_ignores h)
  case evaluation =>
    intro evaluating quiet
    have ends := State.evaluationEnd_ends alive evaluating quiet
    refine ⟨_, rfl, congrArg Job.evaluating ends.job, congrArg Job.evalBytes ends.job, ends.committedV, fun tl => ?_⟩
    have same : s.evaluationEnd.tile tl = s.evaluated.tile tl := congrArg (Sparse.get Tile.reset · (tkey tl)) ends.tiles
    exact (congrArg Tile.store same).trans (State.store_evaluated hc tl)
  case noEvaluation => exact fun h => congrArg _ (State.evaluationEnd_ignores h)

end Sys2Proof.Machine

/-!
PROOFS. STEP_CHECK, CHECK_REPORT and AGREEMENT_DEADLINE (R40, R161, R303, R305, R306, R311, R317).
-/
namespace Sys2Proof.Machine

/-! ## What happens before a report -/

/-- From `s` to `t` nothing has changed beside HBM, page maps, the ledger and the wait of the step check. -/
structure Prepared (s t : State) : Prop where
  out : t.out = s.out
  tiles : t.tiles = s.tiles
  step : t.step = s.step
  img : t.img = s.img
  dev : t.dev = s.dev
  fd : t.fd = s.fd
  job : t.job = { s.job with ledgerSeq := t.job.ledgerSeq, checkWait := t.job.checkWait }

namespace Prepared
variable {r s t : State}

theorem refl (s : State) : Prepared s s := ⟨rfl, rfl, rfl, rfl, rfl, rfl, rfl⟩

theorem trans (a : Prepared r s) (b : Prepared s t) : Prepared r t :=
  ⟨b.out.trans a.out, b.tiles.trans a.tiles, b.step.trans a.step, b.img.trans a.img, b.dev.trans a.dev, b.fd.trans a.fd,
    by rw [b.job, a.job]⟩

theorem foldl {α : Type} {f : State → α → State} (l : List α) (s : State) (step : ∀ t x, Prepared t (f t x)) : Prepared s (l.foldl f s) :=
  List.foldlRecOn (motive := Prepared s) l f (.refl s) fun t ht x _ => ht.trans (step t x)

theorem openVintage (h : Prepared s t) : t.openVintage = s.openVintage := congrArg (fun r : StepRegs => getF r.openV vintageOpen_vintage) h.step

theorem vint (h : Prepared s t) (v : Nat) : t.vint v = s.vint v := State.vint_congr (by rw [h.job]) v

theorem domainHead (h : Prepared s t) : t.domainHead = s.domainHead := State.domainHead_congr h.img h.dev h.fd

theorem isDomainHead (h : Prepared s t) : t.isDomainHead = s.isDomainHead := by
  unfold State.isDomainHead State.devId
  rw [h.domainHead, h.dev]

theorem replica (h : Prepared s t) : t.replicaIds.filter t.healthy = s.replicaIds.filter s.healthy := by
  unfold State.replicaIds State.me State.entry State.image State.healthy State.devState State.devId
  rw [h.img, h.dev, h.fd]

/-! ### The wait ends (R40, R317) -/

theorem ledger (s : State) (p cls code tile arg v a : Nat) : Prepared s (s.ledger p cls code tile arg v a) := by
  unfold State.ledger State.setPart; exact ⟨rfl, rfl, rfl, rfl, rfl, rfl, rfl⟩

theorem waitSet (s : State) (w : Option (Nat × Nat)) : Prepared s (s.onJob (fun j => { j with checkWait := w })) :=
  ⟨rfl, rfl, rfl, rfl, rfl, rfl, rfl⟩

theorem endCheckWait (s : State) : Prepared s s.endCheckWait := by
  unfold State.endCheckWait
  split
  · exact .refl s
  · exact (ledger s ..).trans (waitSet _ none)

theorem startCheckWait (s : State) (code : Nat) : Prepared s (s.startCheckWait code) := by
  unfold State.startCheckWait
  split
  · exact .refl s
  · exact (endCheckWait s).trans (waitSet _ _)

/-! ### The histories take their entries (R161, R295) -/

theorem onPart (s : State) (p : Nat) (f : Part → Part) : Prepared s (s.onPart p f) := by
  unfold State.onPart State.setPart; exact ⟨rfl, rfl, rfl, rfl, rfl, rfl, rfl⟩

theorem poolStatus (s : State) : Prepared s s.poolStatus := by
  obtain ⟨w, e⟩ : ∃ w, s.poolStatus = { s with mir := { s.mir with snapPool := w } } := ⟨_, rfl⟩
  rw [e]
  exact ⟨rfl, rfl, rfl, rfl, rfl, rfl, rfl⟩

theorem copyPage (s : State) (p i : Nat) : Prepared s (s.copyPage p i) := by
  unfold State.copyPage
  split
  · exact .refl s
  · extract_lets e m
    clear_value m
    exact ((⟨rfl, rfl, rfl, rfl, rfl, rfl, rfl⟩ : Prepared s { s with mem := m }).trans (onPart _ p _)).trans (poolStatus _)

theorem hbmWrite (s : State) (a : Nat) (bs : List Byte) : Prepared s (s.hbmWrite a bs) := by
  rw [State.hbmWrite_eq]; exact ⟨rfl, rfl, rfl, rfl, rfl, rfl, rfl⟩

theorem writeState (s : State) (a : Nat) (bs : List Byte) : Prepared s (s.writeState a bs) := by
  refine (foldl _ s fun t i => ?_).trans (hbmWrite ..)
  dsimp only
  split
  · split
    · exact copyPage ..
    · exact .refl t
  · exact .refl t

theorem histEntry (s : State) (x : Tensor) : Prepared s (s.histEntry x) := by
  unfold State.histEntry
  split
  · exact .refl s
  · split
    · exact .refl s
    · exact (writeState ..).trans (writeState ..)

theorem writeHist (s : State) (vd : Verdict) : Prepared s (s.writeHist vd) := by
  unfold State.writeHist
  split
  · exact .refl s
  · exact foldl _ s histEntry

end Prepared

namespace State

theorem endCheckWait_some {s : State} {code since : Nat} (waits : s.job.checkWait = some (code, since)) : s.endCheckWait =
    (s.ledger 0 2 code 0xff (min ((s.now - since) / usTicks) 0xffffffff) s.openVintage s.openAttempt).onJob
      (fun j => { j with checkWait := none }) := by
  unfold endCheckWait; rw [waits]

theorem cause_startCheckWait (s : State) (code : Nat) : ((s.startCheckWait code).job.checkWait).map (·.1) = some code := by
  unfold startCheckWait
  split
  · assumption
  · rfl

/-! ## The report of a device (R305) -/

theorem showCheck_frame (s : State) (bits result : Nat) :
    ∃ w, s.showCheck bits result = { s with step := { s.step with check := w } } := by unfold showCheck; exact ⟨_, rfl⟩

theorem out_showCheck (s : State) (bits result : Nat) : (s.showCheck bits result).out = s.out := by
  obtain ⟨w, e⟩ := s.showCheck_frame bits result
  rw [e]

theorem tiles_showCheck (s : State) (bits result : Nat) : (s.showCheck bits result).tiles = s.tiles := by
  obtain ⟨w, e⟩ := s.showCheck_frame bits result
  rw [e]

theorem job_showCheck (s : State) (bits result : Nat) : (s.showCheck bits result).job = s.job := by
  obtain ⟨w, e⟩ := s.showCheck_frame bits result
  rw [e]

/-- The lowest two bits of STEP_CHECK_STATUS are the result. -/
theorem result_showCheck (s : State) (bits : Nat) {result : Nat} (h : result < 4) :
    getF (s.showCheck bits result).step.check stepCheckStatus_result = result := by
  unfold showCheck getF stepCheckStatus_result
  simp only [BitVec.toNat_ofNat]
  omega

/-- The device's report stands in STEP_CHECK_STATUS. -/
def checkShown (s : State) (bits : Nat) : State :=
  (s.showCheck bits (if bits = 0 then 1 else 2)).onJob (fun j => { j with ownReport := none })

theorem checkShown_frame (s : State) (bits : Nat) :
    ∃ w, s.checkShown bits = { s with step := { s.step with check := w }, job := { s.job with ownReport := none } } := by
  unfold checkShown
  obtain ⟨w, e⟩ := s.showCheck_frame bits (if bits = 0 then 1 else 2)
  rw [e]
  exact ⟨w, rfl⟩

theorem result_checkShown (s : State) (bits : Nat) : getF (s.checkShown bits).step.check stepCheckStatus_result = if bits = 0 then 1 else 2 :=
  result_showCheck s bits (by split <;> decide)

theorem check_noted_step (s : State) (code v : Nat) (f : Vint → Vint) : (s.noted code v f).step.check = s.step.check := by
  have changed : (s.noted code v f).step.check = (s.phase code).step.check := by unfold noted; rw [step_onVint]
  have phase : (s.phase code).step = s.step := (ledger_sameBody s ..).step
  rw [changed, phase]

/-- The vintage of a report is checked (R305). -/
def checkMarked (s : State) (r : CheckReport) : State := (s.checkShown r.bits).noted 9 r.vintage (fun x => { x with checked := true })

theorem sendCheck_eq (s : State) (r : CheckReport) : s.sendCheck r =
    if (s.checkMarked r).isDomainHead then (s.checkMarked r).takeCheck r else (s.checkMarked r).send (.check (s.checkMarked r).domainHead r) := rfl

theorem checkMarked_frame (s : State) (r : CheckReport) : s.checkMarked r =
    { s with parts := (s.checkMarked r).parts, step := (s.checkMarked r).step, job := (s.checkMarked r).job } := by
  obtain ⟨w, e⟩ := s.checkShown_frame r.bits
  unfold checkMarked
  rw [noted_frame, e]

theorem dev_checkMarked (s : State) (r : CheckReport) : (s.checkMarked r).dev = s.dev := by rw [checkMarked_frame]

theorem img_checkMarked (s : State) (r : CheckReport) : (s.checkMarked r).img = s.img := by rw [checkMarked_frame]

theorem mem_checkMarked (s : State) (r : CheckReport) : (s.checkMarked r).mem = s.mem := by rw [checkMarked_frame]

theorem out_checkMarked (s : State) (r : CheckReport) : (s.checkMarked r).out = s.out := by rw [checkMarked_frame]

theorem domainHead_checkMarked (s : State) (r : CheckReport) : (s.checkMarked r).domainHead = s.domainHead :=
  domainHead_congr (img_checkMarked s r) (dev_checkMarked s r) (by rw [checkMarked_frame])

theorem isDomainHead_checkMarked (s : State) (r : CheckReport) : (s.checkMarked r).isDomainHead = s.isDomainHead := by
  unfold isDomainHead devId
  rw [domainHead_checkMarked, dev_checkMarked]

theorem vint_checkMarked (s : State) (r : CheckReport) :
    (s.checkMarked r).vint r.vintage = (s.vint r.vintage).map (fun x => { x with checked := true }) := by
  obtain ⟨w, e⟩ := s.checkShown_frame r.bits
  have same : (s.checkShown r.bits).vint r.vintage = s.vint r.vintage := vint_congr (by rw [e]) _
  rw [← same]
  exact vint_noted _ 9 _ fun _ => rfl

theorem result_checkMarked (s : State) (r : CheckReport) :
    getF (s.checkMarked r).step.check stepCheckStatus_result = if r.bits = 0 then 1 else 2 := by
  unfold checkMarked
  rw [check_noted_step, result_checkShown]

theorem sendCheck_member {s : State} (member : s.isDomainHead = false) (r : CheckReport) :
    s.sendCheck r = (s.checkMarked r).send (.check s.domainHead r) := by
  rw [sendCheck_eq, isDomainHead_checkMarked, domainHead_checkMarked, if_neg (ne_true_of_eq_false member)]

/-- A device whose scales agree, alone in its REPLICA group, reports its own conditions. -/
theorem reportCheck_alone {s : State} {y : Vint} (vint : s.vint s.openVintage = some y) (agrees : s.scalesDiffer y = false)
    (alone : (s.replicaIds.filter s.healthy).length ≤ 1) (grad shard : BitVec 384) :
    s.reportCheck grad shard = s.sendCheck (s.ownCheck grad shard) := by
  unfold reportCheck
  simp only [vint, agrees, Bool.false_eq_true, if_false, alone, if_true]

end State

/-! ## What a report leaves of the wait's record (R317) -/

/-- From `s` to `t` the ledgers and the wait of the step check are as they were. -/
structure WaitKept (s t : State) : Prop where
  parts : t.parts = s.parts
  wait : t.job.checkWait = s.job.checkWait

namespace WaitKept
variable {r s t : State}

theorem refl (s : State) : WaitKept s s := ⟨rfl, rfl⟩

theorem trans (a : WaitKept r s) (b : WaitKept s t) : WaitKept r t := ⟨b.parts.trans a.parts, b.wait.trans a.wait⟩

theorem foldl {α : Type} {f : State → α → State} (l : List α) (s : State) (step : ∀ t x, WaitKept t (f t x)) : WaitKept s (l.foldl f s) :=
  List.foldlRecOn (motive := WaitKept s) l f (.refl s) fun t ht x _ => ht.trans (step t x)

theorem send (s : State) (m : Msg) : WaitKept s (s.send m) := ⟨rfl, rfl⟩

theorem onJob (s : State) {f : Job → Job} (same : (f s.job).checkWait = s.job.checkWait) : WaitKept s (s.onJob f) := ⟨rfl, same⟩

theorem failBit (s : State) (f : Field) : WaitKept s (s.failBit f) := ⟨rfl, rfl⟩

theorem onVint (s : State) (v : Nat) (f : Vint → Vint) : WaitKept s (s.onVint v f) := ⟨by rw [State.onVint_frame], by rw [State.job_onVint]⟩

theorem checkShown (s : State) (bits : Nat) : WaitKept s (s.checkShown bits) := by
  obtain ⟨w, e⟩ := s.checkShown_frame bits
  rw [e]
  exact ⟨rfl, rfl⟩

theorem toHosts (s : State) (m : Msg) (b : Bool) : WaitKept s (s.toHosts m b) := by
  unfold State.toHosts
  exact foldl _ s fun _ _ => ⟨rfl, rfl⟩

theorem ask (s : State) (duty arg arg2 : Nat) (ctx : List Nat) : WaitKept s (s.ask duty arg arg2 ctx) := by
  unfold State.ask
  exact (toHosts s _ false).trans ⟨rfl, rfl⟩

theorem headFence (s : State) (id reason reporters : Nat) : WaitKept s (s.headFence id reason reporters) := by
  unfold State.headFence
  split
  · exact .refl s
  · split
    · exact .refl s
    · split
      · exact ask ..
      · exact ⟨rfl, rfl⟩

theorem askFence (s : State) (id reason : Nat) : WaitKept s (s.askFence id reason) := by
  unfold State.askFence
  split
  · exact headFence ..
  · exact send ..

theorem noteMinority (s : State) (ids : List Nat) : WaitKept s (s.noteMinority ids) := by
  unfold State.noteMinority
  refine foldl _ s fun t i => ?_
  split
  · exact askFence ..
  · exact onJob t rfl

theorem decideCheck (s : State) (pass : Bool) : WaitKept s (s.decideCheck pass) := by
  unfold State.decideCheck
  extract_lets r v last stop counted
  have counts : WaitKept s counted := by
    unfold counted
    split
    · exact .refl s
    · exact onVint ..
  split
  · exact send ..
  · exact counts.trans ((noteMinority ..).trans (send ..))

theorem closeCheck (s : State) : WaitKept s s.closeCheck := by
  unfold State.closeCheck
  extract_lets r done
  have held : WaitKept s done := onJob s rfl
  split
  · exact held.trans (ask ..)
  · exact held.trans (decideCheck ..)

/-- A report under the head's own image makes no EVENT. -/
theorem takeCheck {r : CheckReport} (image : r.image = s.imageDigest) : WaitKept s (s.takeCheck r) := by
  unfold State.takeCheck
  extract_lets kept
  have held : WaitKept s kept := onJob s rfl
  rw [if_neg (by simp [image])]
  split
  · exact .refl s
  · split
    · split
      · exact held.trans (closeCheck _)
      · exact held.trans (send ..)
    · exact held

end WaitKept

/-- From `s` to `t` the wait of the step check is as it was, and so is every record of partition 0 that does not stand at the head. -/
structure NotesOnce (s t : State) : Prop where
  wait : t.job.checkWait = s.job.checkWait
  record : ∀ i, i ≠ ledgerHead s 0 → recordAt t 0 i = recordAt s 0 i

namespace NotesOnce
variable {r s t : State}

theorem refl (s : State) : NotesOnce s s := ⟨rfl, fun _ _ => rfl⟩

theorem before (b : NotesOnce s t) (a : WaitKept r s) : NotesOnce r t where
  wait := b.wait.trans a.wait
  record i h := by
    have head : ledgerHead s 0 = ledgerHead r 0 := by unfold ledgerHead State.part; rw [a.parts]
    rw [b.record i (head ▸ h), State.recordAt_parts a.parts]

theorem after (a : NotesOnce r s) (b : WaitKept s t) : NotesOnce r t where
  wait := b.wait.trans a.wait
  record i h := (State.recordAt_parts b.parts 0 i).trans (a.record i h)

theorem noted (s : State) (code v : Nat) (f : Vint → Vint) : NotesOnce s (s.noted code v f) where
  wait := (WaitKept.onVint (s.phase code) v f).wait.trans rfl
  record _ h := (State.recordAt_parts (WaitKept.onVint (s.phase code) v f).parts 0 _).trans (State.recordAt_ledger_other s _ _ _ _ _ _ h)

theorem checkMarked (s : State) (r : CheckReport) : NotesOnce s (s.checkMarked r) := (noted ..).before (.checkShown s r.bits)

theorem sendCheck {r : CheckReport} (image : r.image = s.imageDigest) : NotesOnce s (s.sendCheck r) := by
  have same : r.image = (s.checkMarked r).imageDigest := by
    unfold State.imageDigest
    rw [State.img_checkMarked]
    exact image
  rw [State.sendCheck_eq]
  split
  · exact (checkMarked s r).after (.takeCheck same)
  · exact (checkMarked s r).after (.send ..)

/-- The digests of the group are compared on the report of a device under this head's image. -/
theorem compareDigests {r : CheckReport} (own : s.job.ownReport = some r) (image : r.image = s.imageDigest) :
    NotesOnce s s.compareDigests := by
  unfold State.compareDigests
  rw [own]
  dsimp only
  split
  · exact .refl s
  · exact sendCheck image

/-- Whichever way a device reports, the wait that it ended stays ended, and its record stands. -/
theorem reportCheck (s : State) (grad shard : BitVec 384) : NotesOnce s (s.reportCheck grad shard) := by
  unfold State.reportCheck
  extract_lets u r h
  have compared : WaitKept s u := by
    unfold u
    split
    · split
      · exact .failBit ..
      · exact .refl s
    · exact .refl s
  split
  · exact (sendCheck rfl).before compared
  · split
    · obtain ⟨w, e⟩ := u.showCheck_frame r.bits 3
      rw [e]
      exact (compareDigests rfl rfl).before (compared.trans ⟨rfl, rfl⟩)
    · split
      · exact (sendCheck rfl).before compared
      · exact (sendCheck (s := u.send (.check h r)) (r := { r with grad := 0, shard := 0 }) rfl).before (compared.trans (.send ..))

end NotesOnce

namespace State

/-! ## STEP_CHECK (R303, R305) -/

section
variable {s : State} {y : Vint} (alive : s.alive = true) (running : s.devState = DS.running) (forward : s.job.rollbackAt = none)
  (vint : s.vint s.openVintage = some y)

include alive running forward vint in
/-- Once the verdict and the update are behind a device that has not declared itself failed, it waits or it reports. -/
theorem stepCheck_eq (sound : s.fd.selfFailed = none) (unchecked : y.checked = false) (judged : y.verdict.isSome = true)
    (own : s.job.ownReport = none) (trains : s.job.evaluating = false) (updated : s.updated = true) (grad shard : BitVec 384) :
    s.stepCheck grad shard =
      if s.job.bits = 0 && (!s.acked || s.streaming) then
        (s.startCheckWait (if s.acked then stallStream else stallRacking)).showCheck (if s.acked then 0 else reportBit stepCheckStatus_rack) 3
      else (if s.job.bits = 0 then s.endCheckWait.writeHist (y.verdict.getD noVerdict) else s.endCheckWait).reportCheck grad shard := by
  have bits : s.endCheckWait.job.bits = s.job.bits := by rw [(Prepared.endCheckWait s).job]
  unfold stepCheck
  rw [vint]
  dsimp only
  rw [if_neg (by simp [alive, running, forward, sound, unchecked, Option.isSome_iff_ne_none.1 judged, own, trains, updated]), bits]

include vint in
theorem stepCheck_idle (h : y.checked = true ∨ y.verdict = none ∨ s.job.evaluating = true ∨ s.updated = false ∨ s.fd.selfFailed.isSome = true)
    (grad shard : BitVec 384) : s.stepCheck grad shard = s := by
  unfold stepCheck
  rw [vint]
  exact if_pos (by rcases h with h | h | h | h | h <;> simp [h])

end

/-- A step with a failed condition has no update to wait for (R37). -/
theorem updated_of_bits {s : State} (failed : s.job.bits ≠ 0) : s.updated = true := by simp [updated, failed]

/-- A wait that ends with a report is one record, at the head that it met. -/
theorem stall_reported {s : State} {code since : Nat} (waits : s.job.checkWait = some (code, since)) (grad shard : BitVec 384) :
    (s.endCheckWait.reportCheck grad shard).job.checkWait = none ∧
      (recordAt (s.endCheckWait.reportCheck grad shard) 0 (ledgerHead s 0)).map (fun r => (r.cls, r.code, r.tile, r.arg)) =
        some (2, code, 0xff, min ((s.now - since) / usTicks) 0xffffffff) := by
  obtain ⟨wait, record⟩ := NotesOnce.reportCheck s.endCheckWait grad shard
  have ended := endCheckWait_some waits
  have moved : ledgerHead s 0 ≠ ledgerHead s.endCheckWait 0 := by
    rw [ended]
    exact Ne.symm (ledgerHead_ledger_ne s 0 2 code 0xff _ _ _)
  constructor
  · rw [wait, ended]; rfl
  · rw [record _ moved, ended]
    exact recordAt_ledger s ..

/-! ## CHECK_REPORT (R306, R311) -/

/-- A head with one check report more. -/
def checkCollected (s : State) (r : CheckReport) : State :=
  s.onJob (fun j => { j with
    checkReps := j.checkReps ++ [r]
    firstRepAt := if j.firstRepAt.isNone then some s.now else j.firstRepAt })

/-- A report that counts while another is awaited is kept, and nothing is sent. -/
theorem takeCheck_keeps_report {s : State} {r : CheckReport} (current : s.current r.vintage r.attempt = true) (awaited : r.device ∈ s.awaited)
    (image : r.image = s.imageDigest) (fresh : ∀ z ∈ s.job.checkReps, z.device ≠ r.device)
    (missing : ∃ i ∈ s.awaited, i ≠ r.device ∧ ∀ z ∈ s.job.checkReps, z.device ≠ i) : s.takeCheck r = s.checkCollected r := by
  have once : s.job.checkReps.any (fun x => x.device == r.device) = false := by simpa using fresh
  have partly : ((s.checkCollected r).awaited.all fun i => (s.checkCollected r).job.checkReps.any (fun x => x.device == i)) = false := by
    obtain ⟨i, mem, other, none⟩ := missing
    refine List.all_eq_false.2 ⟨i, mem, ?_⟩
    have reports : (s.checkCollected r).job.checkReps = s.job.checkReps ++ [r] := rfl
    simpa [reports, other.symm] using none
  unfold takeCheck
  rw [if_neg (by simp [image]), if_neg (by simp [current, awaited, once])]
  exact if_neg (ne_true_of_eq_false partly)

/-- Digests are taken at the head of the REPLICA group alone. -/
theorem takeDigest_elsewhere {s : State} (h : s.replicaHead ≠ some s.devId) (r : CheckReport) : s.takeDigest r = s := by
  unfold takeDigest
  exact if_pos (by simp [h])

section
variable {s : State} {r : CheckReport} (alive : s.alive = true) (running : s.devState = DS.running)
include alive running

theorem checkReport_step (step : r.decant = false) : s.checkReport r = (s.takeDigest r).takeCheck r := by
  unfold checkReport
  rw [if_neg (by simp [alive, inJob, inState, running]), if_neg (ne_true_of_eq_false step), if_neg (by rw [running]; decide)]

theorem checkReport_decant (decants : r.decant = true) (head : s.isJobHead = true) (current : s.current r.vintage r.attempt = true) :
    s.checkReport r = s.takeDecant r.device := by
  unfold checkReport
  rw [if_neg (by simp [alive, inJob, inState, running]), if_pos decants]
  exact if_pos (by simp [head, current])

end

theorem mem_takeDecant (s : State) (id : Nat) : id ∈ (s.takeDecant id).job.decanted := by
  have e : (s.takeDecant id).job.decanted = if s.job.decanted.contains id then s.job.decanted else id :: s.job.decanted := rfl
  rw [e]
  split
  · next h => simpa using h
  · exact List.mem_cons_self

/-! ## AGREEMENT_DEADLINE (R306, R445) -/

/-- The code of an error stands in ERR_LAST (R505). -/
theorem code_errRecord (s : State) {code : Nat} (bad : code ≠ Err.ok) (src : Nat) :
    getF (s.errRecord code src).dev.errLast errLast_code = code % 2 ^ 16 := by
  unfold errRecord
  rw [if_neg bad]
  dsimp only
  rw [getF_setF_beside (by decide), getF_setF_beside (by decide), getF_setF _ ⟨by decide, by decide⟩]
  rfl

/-- The deadline is noted with its time-out. -/
def deadlineNoted (s : State) : State := (s.errRecord Err.timeout Src.step).onJob (fun j => { j with askedAt := some s.now })

theorem out_deadlineNoted (s : State) : s.deadlineNoted.out = s.out := by
  obtain ⟨w, e⟩ := s.errRecord_eq Err.timeout Src.step
  unfold deadlineNoted
  rw [e]
  rfl

theorem job_deadlineNoted (s : State) : s.deadlineNoted.job = { s.job with askedAt := some s.now } := by
  obtain ⟨w, e⟩ := s.errRecord_eq Err.timeout Src.step
  unfold deadlineNoted
  rw [e]
  rfl

theorem isJobHead_deadlineNoted (s : State) : s.deadlineNoted.isJobHead = s.isJobHead := by
  obtain ⟨w, e⟩ := s.errRecord_eq Err.timeout Src.step
  unfold deadlineNoted
  rw [e]
  rfl

theorem agreementDeadline_asks {s : State} {t0 : Nat} (alive : s.alive = true) (running : s.devState = DS.running)
    (opened : s.openVintage ≠ noVintage) (first : s.job.firstRepAt = some t0) (unasked : s.job.askedAt = none)
    (due : t0 + s.agreeTicks ≤ s.now) (missing : s.missingIds ≠ []) (undecided : s.pendingOn 3 = []) :
    s.agreementDeadline s.openVintage s.openAttempt =
      if s.isJobHead then s.missingIds.foldl (fun t i => t.startHang i s.openVintage s.openAttempt) s.deadlineNoted
      else s.deadlineNoted.send (.missing s.missingIds) := by
  unfold agreementDeadline
  rw [if_neg (by simp [alive, running, current_open opened, undecided]), first, unasked]
  dsimp only
  rw [if_neg (by simp [Nat.not_lt.2 due, missing]), ← isJobHead_deadlineNoted s]
  rfl

theorem agreementDeadline_unstarted {s : State} (none_ : s.job.firstRepAt = none) (v a : Nat) : s.agreementDeadline v a = s := by
  unfold agreementDeadline
  rw [none_]
  split <;> rfl

/-- HANGs are messages alone, one for each device named. -/
theorem hangs_sent (s : State) (ids : List Nat) (v a : Nat) : (ids.foldl (fun t i => t.startHang i v a) s).job = s.job ∧
    (∀ m ∈ s.out, m ∈ (ids.foldl (fun t i => t.startHang i v a) s).out) ∧
    ∀ i ∈ ids, Msg.hang i v a ∈ (ids.foldl (fun t i => t.startHang i v a) s).out := by
  induction ids generalizing s with
  | nil => exact ⟨rfl, fun _ h => h, fun _ h => absurd h List.not_mem_nil⟩
  | cons i ids ih =>
    obtain ⟨job, keeps, sends⟩ := ih (s.startHang i v a)
    refine ⟨job, fun m h => keeps m (List.mem_cons_of_mem _ h), fun k h => ?_⟩
    rcases List.mem_cons.1 h with rfl | h
    · exact keeps _ List.mem_cons_self
    · exact sends k h

end State

open State

/-- Settles O31: a device waits, and the end of its wait is a record that no report displaces; it reports once, a head keeps one report of
each device, and a deadline names the missing ones. -/
theorem stepChecks : Obligations.StepChecks := by
  unfold Obligations.StepChecks
  intro s y alive running forward opened vint
  have checks := stepCheck_eq alive running forward vint
  refine ⟨?waits, ?reports, ?stall, fun g d h => congrArg Host.Outcome.next (stepCheck_idle vint h g d), ?counts, ?decants, ?deadline,
    fun v a h => congrArg Host.Outcome.next (agreementDeadline_unstarted h v a)⟩
  case waits =>
    intro g d sound unchecked judged own trains updated clean open_
    have runs := (checks sound unchecked judged own trains updated g d).trans
      (if_pos (by rcases open_ with h | h <;> simp [clean, h]))
    have wait := Prepared.startCheckWait s (if s.acked then stallStream else stallRacking)
    refine ⟨_, congrArg Host.Outcome.next runs, result_showCheck _ _ (by decide), (out_showCheck ..).trans wait.out,
      (tiles_showCheck ..).trans wait.tiles, ?_, ?_⟩
    · rw [job_showCheck]
      exact cause_startCheckWait ..
    · rw [vint_congr (congrArg Job.uncommitted (job_showCheck ..)), wait.vint, vint]
      exact congrArg some unchecked
  case reports =>
    intro g d sound unchecked judged own trains updated ready r agrees alone member
    have runs : s.stepCheck g d = r.reportCheck g d := (checks sound unchecked judged own trains updated g d).trans
      (if_neg (by rcases ready with h | ⟨acked, streams⟩ <;> simp [*]))
    have same : Prepared s r := by
      unfold r
      split
      · exact (Prepared.endCheckWait s).trans (Prepared.writeHist ..)
      · exact Prepared.endCheckWait s
    have vint' : r.vint r.openVintage = some y := by rw [same.openVintage, same.vint, vint]
    have sent : s.stepCheck g d = (r.checkMarked (r.ownCheck g d)).send (.check s.domainHead (r.ownCheck g d)) := by
      rw [runs, reportCheck_alone vint' agrees (by rw [same.replica]; exact alone), sendCheck_member (same.isDomainHead.trans member),
        same.domainHead]
    refine ⟨_, congrArg Host.Outcome.next sent, congrArg (Msg.check s.domainHead (r.ownCheck g d) :: ·) (out_checkMarked ..), ?_, ?_, ?_⟩
    · rw [send_step]
      exact result_checkMarked r (r.ownCheck g d)
    · rw [send_mem]
      exact mem_checkMarked ..
    have marked := vint_checkMarked r (r.ownCheck g d)
    have number : (r.ownCheck g d).vintage = s.openVintage := same.openVintage
    rw [number, same.vint, vint] at marked
    rw [vint_congr (congrArg Job.uncommitted (send_job ..)), marked]
    rfl
  case stall =>
    intro g d since code sound unchecked judged own trains failed waits
    have runs : s.stepCheck g d = s.endCheckWait.reportCheck g d :=
      (checks sound unchecked judged own trains (updated_of_bits failed) g d).trans
        ((if_neg (by simp [failed])).trans (by rw [if_neg failed]))
    exact ⟨_, congrArg Host.Outcome.next runs, stall_reported waits g d⟩
  case counts =>
    intro r step elsewhere rv ra awaited image fresh missing
    have current : s.current r.vintage r.attempt = true := by rw [rv, ra]; exact current_open opened
    refine ⟨s.checkCollected r, congrArg Host.Outcome.next ?_, rfl, rfl⟩
    rw [checkReport_step alive running step, takeDigest_elsewhere elsewhere, takeCheck_keeps_report current awaited image fresh missing]
  case decants =>
    intro r decants head rv ra
    have current : s.current r.vintage r.attempt = true := by rw [rv, ra]; exact current_open opened
    exact ⟨_, congrArg Host.Outcome.next (checkReport_decant alive running decants head current), rfl, mem_takeDecant ..⟩
  case deadline =>
    intro t0 first unasked due missing undecided
    have asks := agreementDeadline_asks alive running opened first unasked due missing undecided
    constructor
    · intro member
      refine ⟨_, congrArg Host.Outcome.next (asks.trans (if_neg (ne_true_of_eq_false member))), ?_, ?_, ?_⟩
      · exact congrArg (Msg.missing s.missingIds :: ·) (out_deadlineNoted s)
      · exact job_deadlineNoted s
      · exact code_errRecord s (by decide) Src.step
    · intro head
      obtain ⟨job, -, sends⟩ := hangs_sent s.deadlineNoted s.missingIds s.openVintage s.openAttempt
      exact ⟨_, congrArg Host.Outcome.next (asks.trans (if_pos head)), sends, job.trans (job_deadlineNoted s)⟩

end Sys2Proof.Machine

/-!
PROOFS. RACK_PAGE, RACK_DIGEST and RACK_ACK (R302, R303).
-/
namespace Sys2Proof.Machine
namespace State

/-! ## RACK_STATUS -/

/-- The bits of a byte of RACK_STATUS, which are those of the eight partitions. -/
abbrev RackByte (f : Field) : Prop := Field.Beside rackStatus_mismatches f ∧ f.hi + 1 - f.lo = 8

theorem rackByte_inField (s : State) (b : Nat) : RackByte (s.inField b) := by unfold inField; split <;> decide

theorem rackByte_ackField (s : State) (b : Nat) : RackByte (s.ackField b) := by unfold ackField; split <;> decide

theorem rackBit_frame (s : State) (f : Field) (p : Nat) (on : Bool) :
    ∃ w, s.rackBit f p on = { s with mir := { s.mir with rackStatus := w } } := by unfold rackBit; exact ⟨_, rfl⟩

/-- A number without its bit `p`. -/
theorem testBit_sub_two_pow {m p : Nat} (h : m.testBit p = true) : (m - 2 ^ p).testBit p = false := by
  have quotient : (m - 2 ^ p) / 2 ^ p = m / 2 ^ p - 1 := by simpa using Nat.sub_mul_div m (2 ^ p) 1
  rw [Nat.testBit_eq_decide_div_mod_eq] at h ⊢
  rw [quotient]
  simp only [decide_eq_true_eq, decide_eq_false_iff_not] at h ⊢
  omega

/-- A partition's bit reads as it was set. -/
theorem testBit_rackBit (s : State) {f : Field} (byte : RackByte f) {p : Nat} (hp : p < 8) (on : Bool) :
    (getF (s.rackBit f p on).mir.rackStatus f).testBit p = on := by
  obtain ⟨⟨-, ok, -⟩, width⟩ := byte
  unfold rackBit
  dsimp only
  rw [getF_setF _ ok, width, Nat.testBit_mod_two_pow, decide_eq_true hp, Bool.true_and]
  cases on with
  | true => rw [if_pos rfl, Nat.testBit_or, Nat.testBit_two_pow_self, Bool.or_true]
  | false =>
    rw [if_neg (by decide)]
    split
    · next h => exact testBit_sub_two_pow h
    · next h => simpa using h

theorem rackMiss_frame (s : State) : ∃ w, s.rackMiss = { s with mir := { s.mir with rackStatus := w } } := by
  unfold rackMiss; exact ⟨_, rfl⟩

/-- A mismatch is counted beside the bits. -/
theorem getF_rackMiss (s : State) {f : Field} (byte : RackByte f) : getF s.rackMiss.mir.rackStatus f = getF s.mir.rackStatus f :=
  getF_setF_beside byte.1 ..

theorem settleRack_frame (s : State) :
    s.settleRack = { s with step := s.settleRack.step, parts := s.settleRack.parts, job := s.settleRack.job } := by
  unfold settleRack
  split
  · unfold ledger setPart setRackState; rfl
  · rfl

/-! ## At the buddy (R302) -/

section
variable {s : State} {b p : Nat} (alive : s.alive = true) (reachable : s.partFenced p = false)

include alive reachable in
theorem rackPageIn_places {page a : Nat} (inside : page < s.statePages b p) (mirror : s.mirrorAt b p = some a) (bs : List Byte) :
    s.rackPageIn b p page bs =
      ({ s with mem := Memory.writeN s.mem (a + page * pageBytes) (bs.take pageBytes) }).rackBit (s.inField b) p false := by
  unfold rackPageIn
  rw [if_neg (by simp [alive, reachable, inside]), mirror]

theorem rackPageIn_ignores {page : Nat} (h : s.partFenced p = true ∨ s.statePages b p ≤ page) (bs : List Byte) :
    s.rackPageIn b p page bs = s := by
  unfold rackPageIn
  exact if_pos (by rcases h with h | h <;> simp [h])

include alive reachable in
theorem rackDigestIn_compares {a : Nat} (mirror : s.mirrorAt b p = some a) (v : Nat) (d : BitVec 384) :
    s.rackDigestIn b p v d =
      if Config.sha384 (Memory.readN s.mem a (s.statePages b p * pageBytes)) = d then (s.rackBit (s.inField b) p true).send (.rackAck b p v)
      else (s.rackBit (s.inField b) p false).rackMiss := by
  unfold rackDigestIn
  rw [if_neg (by simp [alive, reachable]), mirror]

/-! ## At the sender (R302, R303) -/

/-- One mismatch more of the partition. -/
def missed (s : State) (p : Nat) : State :=
  s.rackMiss.onJob (fun j => { j with rackMismatch := Sparse.put j.rackMismatch p (Sparse.get 0 s.job.rackMismatch p + 1) })

theorem out_missed (s : State) (p : Nat) : (s.missed p).out = s.out := by
  obtain ⟨w, e⟩ := s.rackMiss_frame
  unfold missed
  rw [e]
  rfl

theorem step_missed (s : State) (p : Nat) : (s.missed p).step = s.step := by
  obtain ⟨w, e⟩ := s.rackMiss_frame
  unfold missed
  rw [e]
  rfl

theorem rackAckIn_ignores {v : Nat} (h : v ≠ s.committedV) (ok : Bool) : s.rackAckIn b p v ok = s := by
  unfold rackAckIn
  exact if_pos (by simp [h])

section
variable (buddy : b ∈ s.buddies) (waits : (getF s.mir.rackStatus (s.ackField b)).testBit p = false)
include alive buddy waits

theorem rackAckIn_acknowledges : s.rackAckIn b p s.committedV true = (s.rackBit (s.ackField b) p true).settleRack := by
  unfold rackAckIn
  rw [if_neg (by simp [alive, buddy, waits]), if_pos rfl]

theorem rackAckIn_fails (spent : getF s.step.ctl stepCtl_replayMax < Sparse.get 0 s.job.rackMismatch p + 1) :
    s.rackAckIn b p s.committedV false = ((s.missed p).failBit stepCheckStatus_rackDigest).errRecord Err.digest Src.step := by
  unfold rackAckIn
  rw [if_neg (by simp [alive, buddy, waits]), if_neg (by decide)]
  have budget : getF (s.missed p).step.ctl stepCtl_replayMax < Sparse.get 0 s.job.rackMismatch p + 1 := by rw [step_missed]; exact spent
  exact if_pos budget

end
end

/-- What is left of a failed check by an error recorded. -/
theorem digestError_shows (s : State) : ((s.failBit stepCheckStatus_rackDigest).errRecord Err.digest Src.step).job.bits.testBit
      stepCheckStatus_rackDigest.lo = true ∧ ((s.failBit stepCheckStatus_rackDigest).errRecord Err.digest Src.step).out = s.out := by
  obtain ⟨w, e⟩ := errRecord_eq (s.failBit stepCheckStatus_rackDigest) Err.digest Src.step
  rw [e]
  exact ⟨testBit_failed .., rfl⟩

end State

open State

/-- Settles O35: a page enters its mirror and clears its partition's bit, a digest sets the bit or clears it, an acknowledgement sets the
sender's bit, and one mismatch too many fails the step check. -/
theorem racking : Obligations.Racking := by
  unfold Obligations.Racking
  intro s b p alive hp
  refine ⟨?page, fun page bs h => congrArg Host.Outcome.next (rackPageIn_ignores h bs), ?digest, ?ack,
    fun v ok h => congrArg Host.Outcome.next (rackAckIn_ignores h ok)⟩
  case page =>
    intro page bs a reachable inside mirror
    refine ⟨_, congrArg Host.Outcome.next (rackPageIn_places alive reachable inside mirror bs), ?_, ?_,
      testBit_rackBit _ (rackByte_inField s b) hp false⟩
    all_goals
      obtain ⟨w, e⟩ := rackBit_frame { s with mem := Memory.writeN s.mem (a + page * pageBytes) (bs.take pageBytes) } (s.inField b) p false
      rw [e]
  case digest =>
    intro v d a reachable mirror
    have compares := rackDigestIn_compares alive reachable mirror v d
    constructor
    · intro same
      refine ⟨_, congrArg Host.Outcome.next (compares.trans (if_pos same)), ?_, ?_⟩
      · obtain ⟨w, e⟩ := s.rackBit_frame (s.inField b) p true
        rw [e]
        rfl
      · rw [send_mir]
        exact testBit_rackBit s (rackByte_inField s b) hp true
    · intro differs
      refine ⟨_, congrArg Host.Outcome.next (compares.trans (if_neg differs)), ?_, ?_⟩
      · obtain ⟨w, e⟩ := s.rackBit_frame (s.inField b) p false
        obtain ⟨w', e'⟩ := (s.rackBit (s.inField b) p false).rackMiss_frame
        rw [e', e]
      · rw [getF_rackMiss _ (rackByte_inField s b), testBit_rackBit s (rackByte_inField s b) hp]
  case ack =>
    intro buddy waits
    constructor
    · refine ⟨_, congrArg Host.Outcome.next (rackAckIn_acknowledges alive buddy waits), ?_, ?_⟩
      · rw [settleRack_frame]
        exact testBit_rackBit s (rackByte_ackField s b) hp true
      · obtain ⟨w, e⟩ := s.rackBit_frame (s.ackField b) p true
        rw [settleRack_frame, e]
    · intro spent
      obtain ⟨failed, out⟩ := digestError_shows (s.missed p)
      exact ⟨_, congrArg Host.Outcome.next (rackAckIn_fails alive buddy waits spent), failed, out.trans (out_missed s p)⟩

end Sys2Proof.Machine

/-!
PROOFS. LEDGER_PULL, DECISION_ANS and DUTY_DEADLINE_EXPIRY (R318, R400, R409).
-/
namespace Sys2Proof.Machine
namespace State

/-! ## Slots pulled (R318) -/

/-- A ring of which the slots from `first` on, `n` of them, have been delivered. -/
def pulledRing (g : Ring) (n first : Nat) : Ring :=
  { g with undelivered := g.undelivered.filter (fun i => decide (i < first ∨ first + n ≤ i)) }

/-- The state in which slots of a partition have been delivered. -/
def pulled (s : State) (p n first : Nat) : State := s.onPart p (fun a => { a with ledger := pulledRing (s.part p).ledger n first })

/-- The slots that a pull names, four words each. -/
def pulledWords (s : State) (p n first : Nat) : List Word := (List.range n).flatMap (fun i => slotWords (s.part p).ledger (first + i))

theorem ledger_pulled (s : State) (p n first : Nat) : ((s.pulled p n first).part p).ledger = pulledRing (s.part p).ledger n first :=
  congrArg Part.ledger (part_onPart_same ..)

theorem part_answer (s : State) (n q : Nat) (a : Ans) (src p : Nat) : (s.answer n q a src).part p = s.part p := by
  obtain ⟨ss, rs, w, e⟩ := s.answer_eq n q a src
  rw [e]
  rfl

/-! ## Requests (R409) -/

/-- A request is changed under its own number. -/
def onDecision (s : State) (id : Nat) (f : Decision → Decision) : State :=
  { s with decisions := s.decisions.map (fun x => if x.id = id then f x else x) }

theorem decisionOf_onDecision (s : State) {id : Nat} {f : Decision → Decision} (hf : ∀ d, (f d).id = d.id) :
    (s.onDecision id f).decisionOf id = (s.decisionOf id).map f := by
  have number : (fun d : Decision => d.id == id) ∘ (fun d => if d.id = id then f d else d) = fun d => d.id == id := by
    funext d; by_cases c : d.id = id <;> simp [c, hf]
  unfold onDecision decisionOf
  rw [List.find?_map, number]
  cases e : s.decisions.find? (fun d => d.id == id) with
  | none => rfl
  | some d =>
    have named : d.id = id := by simpa using List.find?_some e
    rw [Option.map_some, Option.map_some, if_pos named]

theorem markDecision_eq (s : State) (id st : Nat) : s.markDecision id st = s.onDecision id (fun d => { d with st := st }) := rfl

theorem decisionOf_markDecision {s : State} {id : Nat} {d : Decision} (known : s.decisionOf id = some d) (st : Nat) :
    (s.markDecision id st).decisionOf id = some { d with st := st } := by
  rw [markDecision_eq, decisionOf_onDecision s (f := fun d => { d with st := st }) fun _ => rfl, known]
  rfl

theorem decisionOf_congr {s t : State} (h : t.decisions = s.decisions) (id : Nat) : t.decisionOf id = s.decisionOf id := by
  unfold decisionOf; rw [h]

theorem decisions_toHosts (s : State) (m : Msg) (b : Bool) : (s.toHosts m b).decisions = s.decisions := by
  unfold toHosts
  exact List.foldlRecOn (motive := fun t : State => t.decisions = s.decisions) s.hostSessions _ rfl fun _ h _ _ => h

theorem decisions_event (s : State) (code cls arg src : Nat) (always : Bool) : (s.event code cls arg src always).decisions = s.decisions := by
  unfold event
  extract_lets noted
  have same : noted.decisions = s.decisions := by
    obtain ⟨w, e⟩ := errRecord_eq (s.ledger 0 4 code 0xff arg s.openVintage s.openAttempt) code src
    unfold noted
    rw [e]
    rfl
  split
  · exact (decisions_toHosts ..).trans same
  · exact same

theorem decisions_answer (s : State) (n q : Nat) (a : Ans) (src : Nat) : (s.answer n q a src).decisions = s.decisions := by
  obtain ⟨ss, rs, w, e⟩ := s.answer_eq n q a src
  rw [e]

theorem fd_answer (s : State) (n q : Nat) (a : Ans) (src : Nat) : (s.answer n q a src).fd = s.fd := by
  obtain ⟨ss, rs, w, e⟩ := s.answer_eq n q a src
  rw [e]

/-! ## An answer (R409) -/

section
variable {s : State} {id a : Nat} {w : Word}

theorem takeAnswer_unknown (unknown : s.decisionOf id = none) : s.takeAnswer id a w = (s, some (.err Err.range)) := by
  unfold takeAnswer; rw [unknown]

variable {d : Decision} (known : s.decisionOf id = some d)
include known

theorem takeAnswer_decided (decided : d.st = 1) : s.takeAnswer id a w = (s, some (.err Err.busy)) := by
  unfold takeAnswer; rw [known]; exact if_pos decided

theorem takeAnswer_late (late : d.st = 2 ∨ (d.st = 0 ∧ d.deadline ≤ s.now)) : s.takeAnswer id a w = (s, some (.err Err.timeout)) := by
  have undecided : d.st ≠ 1 := by omega
  have past : d.st = 2 ∨ d.deadline ≤ s.now := late.imp_right And.right
  unfold takeAnswer
  rw [known]
  exact (if_neg undecided).trans (if_pos past)

section
variable (pending : d.st = 0) (early : s.now < d.deadline)
include pending early

theorem takeAnswer_timely : s.takeAnswer id a w =
    if !s.permitted d a w then (s, some (.err Err.range)) else ((s.markDecision id 1).settle d a w, some .ok) := by
  have undecided : d.st ≠ 1 := by omega
  have timely : ¬ (d.st = 2 ∨ d.deadline ≤ s.now) := by omega
  unfold takeAnswer
  rw [known]
  exact (if_neg undecided).trans (if_neg timely)

theorem takeAnswer_forbidden (forbidden : s.permitted d a w = false) : s.takeAnswer id a w = (s, some (.err Err.range)) := by
  rw [takeAnswer_timely known pending early, forbidden]
  rfl

/-- The host keeps a member that a head would have fenced. -/
theorem takeAnswer_spares (duty : d.duty = 0) : s.takeAnswer id 1 w = (s.markDecision id 1, some .ok) := by
  have permitted : s.permitted d 1 w = true := by unfold State.permitted; rw [duty]; rfl
  have settles : (s.markDecision id 1).settle d 1 w = s.markDecision id 1 := by unfold settle; rw [duty]; rfl
  rw [takeAnswer_timely known pending early, permitted, settles]
  rfl

end

/-! ## A deadline (R400, R409) -/

theorem deadlinePasses_early (early : s.now < d.deadline) (hosts : s.hostSessions ≠ []) : s.deadlinePasses id = s := by
  unfold deadlinePasses
  rw [known]
  dsimp only
  split
  · rfl
  · exact if_pos ⟨early, hosts⟩

section
variable (pending : d.st = 0) (alive : s.alive = true) (rooted : s.boot.rooted = true) (past : d.deadline ≤ s.now)
include pending alive rooted past

theorem deadlinePasses_past : s.deadlinePasses id =
    if d.duty = 3 then (s.onDecision id (fun x => { x with deadline := s.deadline })).event Err.timeout 0 id Src.step false
    else (s.markDecision id 2).settle d 0 0 := by
  unfold deadlinePasses
  rw [known]
  dsimp only
  rw [if_neg (by simp [alive, rooted, pending]), if_neg (by omega)]
  rfl

/-- The check of a step waits for the host once more. -/
theorem deadlinePasses_again (duty : d.duty = 3) :
    (s.deadlinePasses id).decisionOf id = some { d with deadline := s.deadline } := by
  rw [deadlinePasses_past known pending alive rooted past, if_pos duty, decisionOf_congr (decisions_event ..),
    decisionOf_onDecision s (f := fun d => { d with deadline := s.deadline }) fun _ => rfl, known]
  rfl

/-- A fence that the host has not forbidden in time is taken. -/
theorem deadlinePasses_fences (duty : d.duty = 0) (free : s.isFenced d.arg = false) :
    s.deadlinePasses id = (s.markDecision id 2).takeFence d.arg (d.arg2 / 2 ^ 16) (d.arg2 % 2 ^ 16) := by
  have free' : (s.markDecision id 2).isFenced d.arg = false := free
  rw [deadlinePasses_past known pending alive rooted past, if_neg (by rw [duty]; decide)]
  unfold settle
  rw [duty]
  exact if_neg (ne_true_of_eq_false free')

end
end

theorem decisions_takeFence (s : State) (id reason reporters : Nat) : (s.takeFence id reason reporters).decisions = s.decisions := rfl

end State

open State

/-! ## The messages in their turn -/

namespace Turn
variable {s : State} {h : DctHdr} {x : Session} (ht : Turn s h x)
include ht

theorem rooted : s.boot.rooted = true := by
  have serves := ht.serves
  unfold servesDct at serves
  simp only [Bool.and_eq_true] at serves
  exact serves.1.2

/-- The sender is an open host session. -/
theorem hostSessions_ne_nil : s.hostSessions ≠ [] := by
  have listed : x ∈ s.sessions := List.mem_of_find?_eq_some ht.session
  have host : x ∈ s.hostSessions := List.mem_filter.2 ⟨listed, by simp [ht.isOpen, ht.host]⟩
  exact List.ne_nil_of_mem host

theorem ledgerPull_refused {p n first : Nat} (bad : s.ledgerCheck p n first ≠ Err.ok) :
    s.ledgerPull h p n first = (heard s x).answer h.session h.seq (.err (s.ledgerCheck p n first)) Src.dct := ht.dct_failing rfl bad

theorem ledgerPull_pulls {p n first : Nat} (ok : s.ledgerCheck p n first = Err.ok) : s.ledgerPull h p n first =
    ((heard s x).pulled p n first).answer h.session h.seq { status := Err.ok, words := s.pulledWords p n first, bytes := [] } Src.dct :=
  ht.dct_runs rfl ok rfl

theorem decisionAns_takes (job : s.inJob = true) {id a : Nat} {w : Word} {t : State} {ans : Ans}
    (takes : (heard s x).takeAnswer id a w = (t, some ans)) : s.decisionAns h id a w = t.answer h.session h.seq ans Src.dct :=
  ht.dct_runs job rfl takes

/-- An answer that changes nothing is answered with its code. -/
theorem decisionAns_refused (job : s.inJob = true) {id a : Nat} {w : Word} {e : Nat}
    (refuses : (heard s x).takeAnswer id a w = (heard s x, some (.err e))) :
    ∃ t, exec (.decisionAns h id a w) s = .next t ∧ Answered t h e ∧ OnlyReplied s t :=
  ⟨_, congrArg Host.Outcome.next (ht.decisionAns_takes job refuses), ht.onlyAnswered _ _⟩

end Turn

/-- Settles O36: the slots named are what is answered and delivered; an answer meets its request in one of five ways; a deadline is
early, asks again, or fences. -/
theorem ledgerAndDecisions : Obligations.LedgerAndDecisions := by
  unfold Obligations.LedgerAndDecisions
  intro s h x ht
  refine ⟨?pulls, fun p n first bad => ⟨_, congrArg Host.Outcome.next (ht.ledgerPull_refused bad), ht.onlyAnswered _ _⟩, ?answers,
    fun id d known _ early => congrArg Host.Outcome.next (deadlinePasses_early known early ht.hostSessions_ne_nil), ?deadline⟩
  case pulls =>
    intro p n first ok
    have ring := ledger_pulled (heard s x) p n first
    refine ⟨_, congrArg Host.Outcome.next (ht.ledgerPull_pulls ok), answered_answer (t := (heard s x).pulled p n first) ht.isSome_heard ..,
      ?_, ?_, ?_, fun q other => ?_⟩
    · obtain ⟨ss, rs, w, e⟩ := answer_eq ((heard s x).pulled p n first) h.session h.seq
        { status := Err.ok, words := s.pulledWords p n first, bytes := [] } Src.dct
      rw [e]
      exact ⟨_, rfl, rfl, rfl, rfl, rfl⟩
    · rw [part_answer, ring]; rfl
    · rw [part_answer, ring]; rfl
    · rw [part_answer]
      exact part_onPart_other _ _ other
  case answers =>
    intro id a w job
    refine ⟨fun unknown => ht.decisionAns_refused job (takeAnswer_unknown unknown), fun d known => ⟨?_, ?_, ?_, ?_⟩⟩
    · exact fun decided => ht.decisionAns_refused job (takeAnswer_decided (s := heard s x) known decided)
    · exact fun late => ht.decisionAns_refused job (takeAnswer_late (s := heard s x) known late)
    · exact fun pending early forbidden =>
        ht.decisionAns_refused job (takeAnswer_forbidden (s := heard s x) known pending early forbidden)
    · rintro pending early duty rfl
      have takes := ht.decisionAns_takes job (takeAnswer_spares (w := w) (s := heard s x) known pending early duty)
      refine ⟨_, congrArg Host.Outcome.next takes, answered_answer (t := (heard s x).markDecision id 1) ht.isSome_heard .., ?_, fd_answer ..⟩
      rw [decisionOf_congr (decisions_answer ..), decisionOf_markDecision (s := heard s x) known]
      rfl
  case deadline =>
    intro id d known pending past
    constructor
    · intro duty
      refine ⟨_, rfl, ?_⟩
      rw [deadlinePasses_again known pending ht.alive ht.rooted past duty, Option.map_some, pending]
    · intro duty free
      refine ⟨_, congrArg Host.Outcome.next (deadlinePasses_fences known pending ht.alive ht.rooted past duty free), ?_, isFenced_takeFence ..⟩
      rw [decisionOf_congr (decisions_takeFence ..), decisionOf_markDecision known]
      rfl

end Sys2Proof.Machine

/-!
PROOFS. The step of the queue, and the state after reset (R398, R495).
-/
namespace Sys2Proof.Machine

/-- Settles O1: a step matches on the queue, and the command in front is taken off it. -/
theorem stepRunsTheFront : Obligations.StepRunsTheFront := fun _ _ _ => rfl

/-- Settles O2: with an empty queue a step matches on the released messages. -/
theorem stepWithoutCommand : Obligations.StepWithoutCommand := by
  unfold Obligations.StepWithoutCommand
  intro s idle
  refine ⟨fun c rest waits => ?_, fun none => ?_⟩
  · unfold step; rw [idle, waits]
  · unfold step State.tick; rw [idle, none]

/-! ## Registers at reset that a selector or a condition stands before -/

theorem regValue_reset_ethPortCtl (e : Nat) : State.reset.regValue 0 (.ethPortCtl e) = Eth.reset.ctl :=
  congrArg Eth.ctl (show State.reset.eth e = Eth.reset from ite_self _)

/-- No rail is off at reset, so that a tile's state is read as it stands. -/
theorem regValue_reset_tileStatus (tl : TileRef) : State.reset.regValue 0 (.tileStatus tl) = Tile.reset.status :=
  if_neg (by rw [show getF State.reset.pow.railStatus railStatus_off = 0 by decide, Nat.zero_testBit]; decide)

theorem regValue_reset_partStatus (p : Nat) : State.reset.regValue 0 (.partStatus p) = 0 := by
  have started : State.reset.partWindow p = 0 := rfl
  show setF Part.reset.status partStatus_inWindow (min (State.reset.partWindow p) 255) = 0
  rw [started]
  decide

theorem regValue_reset_lnkHealth (n : Nat) : State.reset.regValue 0 (.lnkHealth n) = Lane.reset.health := by
  show setF Lane.reset.health lnkHealth_lane (min (getF 0 lnkHealth_lane) 4) = _
  decide

theorem regValue_reset_scaleHist (tl : TileRef) : State.reset.regValue 0 (.scaleHist tl) = 0 := by
  show setF (0 &&& scaleHist_maskRw) scaleHist_data (slotWord Slot.reset (getF 0 scaleHist_word) (getF 0 scaleHist_entry)) = 0
  decide

theorem regValue_reset_funcTable (tl : TileRef) : State.reset.regValue 0 (.funcTable tl) = 0 := by
  show setF (0 &&& (funcTable_table.mask ||| funcTable_segment.mask ||| funcTable_word.mask)) funcTable_data
    (funcWord Tile.reset (getF 0 funcTable_table) (getF 0 funcTable_segment) (getF 0 funcTable_word)).toNat = 0
  decide

/-- Settles O4: every map of the reset state is empty, so that each register reads the word that its reset value names. -/
theorem resetState : Obligations.ResetState := by
  unfold Obligations.ResetState
  refine ⟨⟨rfl, rfl, fun _ h => (nomatch h), rfl, rfl, rfl, rfl⟩, by unfold LegalState; decide, fun n k tl =>
    ⟨?words, ?zeros, by decide, rfl, rfl, rfl, rfl, rfl, rfl⟩⟩
  case words =>
    simp only [List.forall_mem_cons, List.not_mem_nil, IsEmpty.forall_iff, implies_true, and_true, regValue_reset_ethPortCtl,
      regValue_reset_tileStatus, regValue_reset_lnkHealth]
    and_intros <;> rfl
  case zeros =>
    simp only [List.forall_mem_cons, List.not_mem_nil, IsEmpty.forall_iff, implies_true, and_true, true_and, regValue_reset_partStatus,
      regValue_reset_scaleHist, regValue_reset_funcTable]
    and_intros <;> rfl

end Sys2Proof.Machine

/-!
PROOFS. The Ethernet ports (R391 to R393, R411): a port's own registers and addresses, and what is answered on a link that is up.
-/
namespace Sys2Proof.Machine
namespace State

/-! ## A port after its training (R391) -/

theorem up_ethSet (x : Eth) (rate : Nat) :
    flagF (ethSet x rate).status ethStatus_up = (flagF x.ctl ethPortCtl_enable && rate != 0) := by
  unfold ethSet
  dsimp only
  rw [flagF_setF_beside (by decide), flagF_setF_beside (by decide), flagF, getF_setF _ ⟨by decide, by decide⟩]
  cases flagF x.ctl ethPortCtl_enable && rate != 0 <;> rfl

theorem rate_ethSet (x : Eth) {rate : Nat} (on : flagF x.ctl ethPortCtl_enable = true) (some : rate ≠ 0) (small : rate < 4) :
    getF (ethSet x rate).status ethStatus_rate = rate := by
  unfold ethSet
  dsimp only
  rw [on, bne_iff_ne.2 some, getF_setF_beside (by decide), getF_setF _ ⟨by decide, by decide⟩]
  exact Nat.mod_eq_of_lt small

theorem flaps_ethSet (x : Eth) (rate : Nat) : getF (ethSet x rate).status ethStatus_flaps = getF x.status ethStatus_flaps := by
  unfold ethSet
  dsimp only
  rw [getF_setF_beside (by decide), getF_setF_beside (by decide), getF_setF_beside (by decide)]

/-! ## The two ports -/

theorem eth_setEth_same (s : State) (e : Nat) (x : Eth) : (s.setEth e x).eth e = x := by
  unfold setEth eth; split <;> rfl

theorem eth_setEth_other (s : State) {e : Nat} (he : e < 2) (x : Eth) : (s.setEth e x).eth (1 - e) = s.eth (1 - e) := by
  interval_cases e <;> rfl

theorem setEth_frame (s : State) (e : Nat) (x : Eth) :
    s.setEth e x = { s with eth0 := (s.setEth e x).eth0, eth1 := (s.setEth e x).eth1 } := by
  unfold setEth; split <;> rfl

theorem ethUp_setEth (s : State) (e : Nat) (x : Eth) :
    (s.setEth e x).ethUp e = (s.alive && s.boot.rooted && decide (e < 2) && flagF x.status ethStatus_up) := by
  have same := s.eth_setEth_same e x
  unfold ethUp
  rw [same, setEth_frame]
  rfl

/-! ## Link changes (R391, R411) -/

section
variable {s : State} {e : Nat} (alive : s.alive = true) (rooted : s.boot.rooted = true) (port : e < 2)
include alive rooted port

theorem ethLink_reaches (up : Bool) (rate : Nat) : s.ethLink e up rate =
    if up then (if flagF (s.eth e).ctl ethPortCtl_enable then s.setEth e (ethSet (s.eth e) rate) else s)
    else if flagF (s.eth e).status ethStatus_up then
      s.setEth e (ethSet { s.eth e with status := bumpF (s.eth e).status ethStatus_flaps 1 } 0)
    else s := by
  unfold ethLink
  rw [alive, rooted, if_neg (by simpa using Nat.le_of_lt_succ port)]

theorem ethLink_up {rate : Nat} (some : rate ≠ 0) (on : flagF (s.eth e).ctl ethPortCtl_enable = true) :
    s.ethLink e true rate = s.setEth e (ethSet (s.eth e) rate) ∧ (s.ethLink e true rate).ethUp e = true := by
  have link : s.ethLink e true rate = s.setEth e (ethSet (s.eth e) rate) := by
    rw [ethLink_reaches alive rooted port, if_pos rfl, if_pos on]
  refine ⟨link, ?_⟩
  rw [link, ethUp_setEth, alive, rooted, decide_eq_true port, up_ethSet, on, bne_iff_ne.2 some]
  rfl

/-- A lost link is down, and its flap is counted. -/
theorem ethLink_down (rate : Nat) (was : flagF (s.eth e).status ethStatus_up = true) :
    (s.ethLink e false rate).ethUp e = false ∧ getF ((s.ethLink e false rate).eth e).status ethStatus_flaps =
      min 255 (getF (s.eth e).status ethStatus_flaps + 1) := by
  rw [ethLink_reaches alive rooted port, if_neg Bool.false_ne_true, if_pos was]
  constructor
  · rw [ethUp_setEth, up_ethSet, bne_self_eq_false, Bool.and_false, Bool.and_false]
  · rw [eth_setEth_same, flaps_ethSet, getF_bumpF _ ⟨by decide, by decide⟩]
    exact Nat.min_comm ..

end

/-! ## What is answered (R391 to R393) -/

section
variable {s : State} {e : Nat} (up : s.ethUp e = true)
include up

theorem routerAdvert_taken (pfx r : Nat) (slaac : flagF (s.eth e).ctl ethPortCtl_slaac = true) :
    let a := pfx * 2 ^ 64 + eui64 (getF (s.eth e).status ethStatus_mac)
    s.routerAdvert e pfx r = s.setEth e { s.eth e with
      addrs := if (s.eth e).addrs.contains a then (s.eth e).addrs else (s.eth e).addrs ++ [a], router := some r } := by
  unfold routerAdvert
  dsimp only
  rw [up, slaac]
  rfl

theorem neighbour_answers (x a : Nat) :
    s.neighbour e x a = if (s.eth e).addrs.contains a then s.send (.eth e ethNd x a) else s := by
  unfold neighbour; rw [up, Bool.true_and]

theorem arp_answers (x a : Nat) : s.arp e x a =
    if onLink4 (s.eth e) x && a == getF (s.eth e).ctl ethPortCtl_ipv4 then s.send (.eth e ethArp x a) else s := by
  unfold arp; dsimp only; rw [up, Bool.true_and]

theorem echo_answers (x : Nat) (v6 : Bool) (d : Nat) : s.echo e x v6 d =
    if v6 then (if onLink6 (s.eth e) x || (s.eth e).router.isSome then s.send (.eth e ethEcho6 x d) else s)
    else if onLink4 (s.eth e) x then s.send (.eth e ethEcho4 x d) else s := by
  unfold echo; rw [up]; rfl

theorem ptpEvent_answers (x k : Nat) :
    s.ptpEvent e x k = if k == ptpDelayReq || k == ptpUnicastReq then s.send (.ptp e x k s.now) else s := by
  unfold ptpEvent; rw [up, Bool.true_and]

end

/-- An address list takes a new address and keeps those it has. -/
theorem mem_addrs_added (l : List Nat) (a : Nat) :
    a ∈ (if l.contains a then l else l ++ [a]) ∧ ∀ b ∈ l, b ∈ (if l.contains a then l else l ++ [a]) := by
  split
  · next h => exact ⟨List.contains_iff_mem.1 h, fun _ => id⟩
  · exact ⟨List.mem_append_right _ (List.mem_singleton_self a), fun _ => List.mem_append_left _⟩

/-- Nothing is answered and no address is taken on a link that is down. -/
theorem eth_down_silent {s : State} {e : Nat} (down : s.ethUp e = false) (x a d : Nat) (v6 : Bool) :
    s.neighbour e x a = s ∧ s.arp e x a = s ∧ s.echo e x v6 d = s ∧ s.ptpEvent e x a = s ∧ s.routerAdvert e x a = s := by
  unfold neighbour arp echo ptpEvent routerAdvert
  rw [down]
  exact ⟨rfl, rfl, rfl, rfl, rfl⟩

end State

/-- Settles O60: a change of a link is one write of its port; each question is answered by its condition on a link that is up. -/
theorem ethernet : Obligations.Ethernet := by
  unfold Obligations.Ethernet
  intro s e alive rooted port
  refine ⟨fun rate small some on => ?up, fun off rate => congrArg Host.Outcome.next ?disabled, fun rate was => ⟨_, rfl, ?down⟩,
    fun up => ?answers, fun down x a d v6 => ?silent⟩
  case up =>
    obtain ⟨link, isUp⟩ := State.ethLink_up alive rooted port some on
    refine ⟨_, rfl, isUp, ?_, ?_⟩
    · rw [link, State.eth_setEth_same, State.rate_ethSet _ on some small]
    · rw [link, State.eth_setEth_other _ port]
  case disabled => rw [State.ethLink_reaches alive rooted port, if_pos rfl, off, if_neg Bool.false_ne_true]
  case down => exact State.ethLink_down alive rooted port rate was
  case silent =>
    obtain ⟨nd, ar, ec, pt, ra⟩ := State.eth_down_silent down x a d v6
    exact ⟨congrArg _ nd, congrArg _ ar, congrArg _ ec, congrArg _ pt, congrArg _ ra⟩
  case answers =>
    refine ⟨fun pfx r slaac => ?advert, fun pfx r off => ?ignored, fun x a own => ?_, fun x a other => ?_, fun x on => ?_,
      fun x a other => ?_, fun x d on => ?_, fun x d on => ?_, fun x k served => ?_, fun x k delay unicast => ?_⟩
    case advert =>
      have taken := State.routerAdvert_taken up pfx r slaac
      obtain ⟨new, old⟩ := State.mem_addrs_added (s.eth e).addrs (pfx * 2 ^ 64 + eui64 (getF (s.eth e).status ethStatus_mac))
      refine ⟨_, congrArg Host.Outcome.next taken, ?_⟩
      rw [State.eth_setEth_same, State.eth_setEth_other _ port]
      exact ⟨new, rfl, old, rfl⟩
    case ignored => exact congrArg Host.Outcome.next (if_pos (by rw [off]; simp))
    · exact congrArg Host.Outcome.next ((State.neighbour_answers up x a).trans (if_pos (List.contains_iff_mem.2 own)))
    · exact congrArg Host.Outcome.next ((State.neighbour_answers up x a).trans (if_neg (other ∘ List.contains_iff_mem.1)))
    · exact congrArg Host.Outcome.next ((State.arp_answers up x _).trans (if_pos (by simp [on])))
    · exact congrArg Host.Outcome.next ((State.arp_answers up x a).trans (if_neg (by simp [other])))
    · exact congrArg Host.Outcome.next (((State.echo_answers up x false d).trans (if_neg Bool.false_ne_true)).trans (if_pos on))
    · exact congrArg Host.Outcome.next (((State.echo_answers up x true d).trans (if_pos rfl)).trans (if_pos (by simpa using on)))
    · exact congrArg Host.Outcome.next ((State.ptpEvent_answers up x k).trans (if_pos (by simpa using served)))
    · exact congrArg Host.Outcome.next ((State.ptpEvent_answers up x k).trans (if_neg (by simp [delay, unicast])))

end Sys2Proof.Machine

/-!
PROOFS. What an EVENT, a record and a message to the hosts leave of a state (R317, R400, R505), and what a walk over a list leaves.
-/
namespace Sys2Proof.Machine

/-- What no turn of a walk changes, the walk does not change. -/
theorem foldl_leaves {σ α β : Type} (view : σ → β) {f : σ → α → σ} (l : List α) (s : σ) (leaves : ∀ s x, view (f s x) = view s) :
    view (l.foldl f s) = view s := by
  induction l generalizing s with
  | nil => rfl
  | cons x l ih => rw [List.foldl_cons, ih, leaves]

/-- A property that every turn keeps, and that the turn of `b` brings, stands after a walk that meets `b`. -/
theorem foldl_brings {σ α : Type} {P : σ → Prop} {f : σ → α → σ} {l : List α} {b : α} (hb : b ∈ l) (s : σ)
    (brings : ∀ s, P (f s b)) (keeps : ∀ s x, P s → P (f s x)) : P (l.foldl f s) := by
  have kept (l : List α) (s : σ) (h : P s) : P (l.foldl f s) := by
    induction l generalizing s with
    | nil => exact h
    | cons x l ih => exact ih _ (keeps s x h)
  induction l generalizing s with
  | nil => exact absurd hb List.not_mem_nil
  | cons x l ih =>
    rcases List.mem_cons.1 hb with rfl | hb
    · exact kept l _ (brings s)
    · exact ih hb _

namespace State

/-- A state without what EVENTs, ledger records and messages leave in it. -/
def unnoted (s : State) : State :=
  { s with
    out := [], parts := [], sessions := [], unacked := []
    dev := { s.dev with errLast := 0, eventCtl := 0 }
    job := { s.job with ledgerSeq := 0 } }

theorem unnoted_ledger (s : State) (p cls code tile arg v a : Nat) : (s.ledger p cls code tile arg v a).unnoted = s.unnoted := rfl

theorem unnoted_errRecord (s : State) (code src : Nat) : (s.errRecord code src).unnoted = s.unnoted := by
  obtain ⟨w, e⟩ := s.errRecord_eq code src
  rw [e]
  rfl

theorem unnoted_toHosts (s : State) (m : Msg) (b : Bool) : (s.toHosts m b).unnoted = s.unnoted :=
  foldl_leaves unnoted _ s fun _ _ => rfl

theorem dev_toHosts (s : State) (m : Msg) (b : Bool) : (s.toHosts m b).dev = s.dev :=
  foldl_leaves State.dev _ s fun _ _ => rfl

theorem parts_toHosts (s : State) (m : Msg) (b : Bool) : (s.toHosts m b).parts = s.parts :=
  foldl_leaves State.parts _ s fun _ _ => rfl

/-- An EVENT is its record, and the message to the hosts or the count of one that the mask holds back. -/
theorem event_ways (s : State) (code cls arg src : Nat) (always : Bool) :
    let noted := (s.ledger 0 4 code 0xff arg s.openVintage s.openAttempt).errRecord code src
    (∃ m, s.event code cls arg src always = noted.toHosts m true) ∨
      ∃ w, s.event code cls arg src always = { noted with dev := { noted.dev with eventCtl := w } } := by
  unfold event
  extract_lets noted
  split
  · exact .inl ⟨_, rfl⟩
  · exact .inr ⟨_, rfl⟩

theorem unnoted_event (s : State) (code cls arg src : Nat) (always : Bool) :
    (s.event code cls arg src always).unnoted = s.unnoted := by
  have noted := (unnoted_errRecord (s.ledger 0 4 code 0xff arg s.openVintage s.openAttempt) code src).trans (unnoted_ledger s ..)
  obtain ⟨m, e⟩ | ⟨w, e⟩ := s.event_ways code cls arg src always
  · rw [e, unnoted_toHosts, noted]
  · rw [e]; exact noted

/-- ERR_LAST after an EVENT is that of its error. -/
theorem errLast_event (s : State) (code cls arg src : Nat) (always : Bool) :
    (s.event code cls arg src always).dev.errLast = (s.errRecord code src).dev.errLast := by
  have noted : ((s.ledger 0 4 code 0xff arg s.openVintage s.openAttempt).errRecord code src).dev.errLast =
      (s.errRecord code src).dev.errLast := by unfold errRecord; split <;> rfl
  obtain ⟨m, e⟩ | ⟨w, e⟩ := s.event_ways code cls arg src always
  · rw [e, dev_toHosts, noted]
  · rw [e]; exact noted

theorem code_event (s : State) {code : Nat} (bad : code ≠ Err.ok) (cls arg src : Nat) (always : Bool) :
    getF (s.event code cls arg src always).dev.errLast errLast_code = code % 2 ^ 16 := by
  rw [errLast_event, code_errRecord s bad]

theorem devState_event (s : State) (code cls arg src : Nat) (always : Bool) :
    (s.event code cls arg src always).devState = s.devState :=
  (congrArg State.devState (s.unnoted_event code cls arg src always) :)

/-- The ring alone of a partition takes a record. -/
theorem part_ledger (s : State) (q cls code tile arg v a p : Nat) :
    (s.ledger q cls code tile arg v a).part p = { s.part p with ledger := ((s.ledger q cls code tile arg v a).part p).ledger } := by
  unfold ledger
  by_cases same : p = q
  · subst same
    have got := part_setPart_same s p
    unfold part setPart at got ⊢
    dsimp only at got ⊢
    rw [got]
  · have got := fun a => part_setPart_other s (p := q) (q := p) a same
    unfold part setPart at got ⊢
    dsimp only at got ⊢
    rw [got]

theorem part_event (s : State) (code cls arg src : Nat) (always : Bool) (p : Nat) :
    (s.event code cls arg src always).part p = { s.part p with ledger := ((s.event code cls arg src always).part p).ledger } := by
  have same : (s.event code cls arg src always).part p = (s.ledger 0 4 code 0xff arg s.openVintage s.openAttempt).part p := by
    obtain ⟨u, noted⟩ := (s.ledger 0 4 code 0xff arg s.openVintage s.openAttempt).errRecord_eq code src
    obtain ⟨m, e⟩ | ⟨w, e⟩ := s.event_ways code cls arg src always
    · rw [e, noted]; unfold part; rw [parts_toHosts]
    · rw [e, noted]; rfl
  rw [same]
  exact part_ledger s ..

end State
end Sys2Proof.Machine

/-!
PROOFS. The module's input stage, its sideband, REFCLK, PPS and the fence of partitions that a dead reference brings (R388, R390,
R435, R479, R480, R485 to R488).
-/
namespace Sys2Proof.Machine

theorem flagF_setF_zero (w : Word) {k : Nat} (h : k < 64) : flagF (setF w ⟨k, k⟩ 0) ⟨k, k⟩ = false := by
  unfold flagF
  rw [getF_setF w ⟨le_refl k, h⟩, Nat.zero_mod]
  rfl

namespace State

/-! ## Fenced partitions (R435) -/

theorem fencePart_frame (s : State) (p reason pst : Nat) : s.fencePart p reason pst =
    { s with fresh := (s.fencePart p reason pst).fresh, parts := (s.fencePart p reason pst).parts } := by
  unfold fencePart useFree onPart setPart; rfl

theorem partFenced_fencePart_same (s : State) (p reason pst : Nat) : (s.fencePart p reason pst).partFenced p = true := by
  unfold fencePart partFenced
  dsimp only
  rw [part_onPart_same]
  dsimp only
  rw [flagF_setF_beside (by decide), flagF_setF_beside (by decide)]
  exact flagF_setF_bit _ (by decide)

theorem part_fencePart_other (s : State) {p q : Nat} (h : q ≠ p) (reason pst : Nat) : (s.fencePart p reason pst).part q = s.part q := by
  unfold fencePart
  exact part_onPart_other (s.useFree) _ h

/-- A fenced partition stays so while others are fenced. -/
theorem partFenced_fencePart (s : State) (p reason pst : Nat) {q : Nat} (h : s.partFenced q = true) :
    (s.fencePart p reason pst).partFenced q = true := by
  by_cases e : q = p
  · subst e; exact partFenced_fencePart_same s q reason pst
  · unfold partFenced at h ⊢; rw [part_fencePart_other s e]; exact h

theorem partFenced_fenceAll (s : State) (reason pst : Nat) {p : Nat} (hp : p < 8) :
    ((List.range 8).foldl (fun s p => s.fencePart p reason pst) s).partFenced p = true :=
  foldl_brings (P := fun s : State => s.partFenced p = true) (List.mem_range.2 hp) s (fun s => partFenced_fencePart_same s p reason pst)
    fun s q => partFenced_fencePart s q reason pst

/-- A state without the registers of its partitions and the values drawn for them. -/
def unparted (s : State) : State := { s with fresh := 0, parts := [] }

theorem unparted_fencePart (s : State) (p reason pst : Nat) : (s.fencePart p reason pst).unparted = s.unparted := by
  rw [fencePart_frame]; rfl

theorem unparted_fenceAll (s : State) (reason pst : Nat) (l : List Nat) :
    (l.foldl (fun s p => s.fencePart p reason pst) s).unparted = s.unparted :=
  foldl_leaves unparted l s fun s p => unparted_fencePart s p reason pst

theorem pins_fenceAll (s : State) (reason pst : Nat) (l : List Nat) :
    (l.foldl (fun s p => s.fencePart p reason pst) s).pins = s.pins :=
  (congrArg State.pins (unparted_fenceAll s reason pst l) :)

/-! ## The input monitor (R479, R485) -/

theorem inputShutdown_on {s : State} (on : s.pins.railsOn = true) : s.inputShutdown = s.railsDown.driveFault := if_pos on

theorem undervoltage_shuts {s : State} {mv us : Nat} (low : mv < 38000) (long : 1000 < us) : s.undervoltage mv us = s.inputShutdown :=
  if_pos ⟨low, long⟩

theorem overvoltage_shuts {s : State} {mv us : Nat} (high : 62000 < mv) (long : 100 < us) : s.overvoltage mv us = s.inputShutdown :=
  if_pos ⟨high, long⟩

theorem undervoltage_short {s : State} {mv us : Nat} (h : 38000 ≤ mv ∨ us ≤ 1000) : s.undervoltage mv us = s :=
  if_neg (by omega)

theorem overvoltage_short {s : State} {mv us : Nat} (h : mv ≤ 62000 ∨ us ≤ 100) : s.overvoltage mv us = s :=
  if_neg (by omega)

/-! ## Sense pair and sideband (R480, R485) -/

theorem senseOpen_once {s : State} (alive : s.alive = true) (closed : s.pins.senseOpen = false) : s.senseOpen =
    ({ s with pins := { s.pins with senseOpen := true } } : State).event Err.absent 4 0 Src.module false := by
  unfold senseOpen; rw [alive, closed]; rfl

theorem sidebandShort_once {s : State} (alive : s.alive = true) {x : OutPin} (new : x ∉ s.pins.shorted) : s.sidebandShort x =
    ({ s with pins := { s.pins with shorted := x :: s.pins.shorted } } : State).event Err.format 3 (pinCode x) Src.module false := by
  unfold sidebandShort; rw [alive, if_neg (by simpa using new)]

theorem sidebandShort_again {s : State} {x : OutPin} (known : x ∈ s.pins.shorted) : s.sidebandShort x = s := by
  unfold sidebandShort; exact if_pos (by simp [known])

/-! ## The reference (R486) -/

section
variable {s : State} (alive : s.alive = true) (lost : s.pins.refclkLost = true) (live : s.pins.refclkDead = false)
include alive lost live

theorem refclkExpiry_dies : s.refclkExpiry = (List.range 8).foldl (fun s p => s.fencePart p 0 pFenced)
    ({ s with pins := { s.pins with refclkDead := true } } : State).driveFault := by
  unfold refclkExpiry; rw [alive, lost, live]; rfl

theorem refclkReturn_inTime : s.refclkReturn =
    ({ s with pins := { s.pins with refclkLost := false } } : State).event Err.ok 4 0 Src.module false := by
  unfold refclkReturn
  have told : ({ s with pins := { s.pins with refclkLost := false } } : State).alive = true := alive
  rw [lost, if_neg (by decide)]
  exact if_pos (by rw [told, live]; rfl)

end

theorem refclkReturn_late {s : State} (lost : s.pins.refclkLost = true) (dead : s.pins.refclkDead = true) :
    s.refclkReturn = { s with pins := { s.pins with refclkLost := false } } := by
  unfold refclkReturn
  rw [lost, if_neg (by decide)]
  exact if_neg (by rw [dead]; simp)

/-! ## PPS (R388, R390) -/

/-- The count is none of the sync registers. -/
theorem clock_syncStatus (s : State) (pins : Pins) (w : Word) :
    ({ s with pins := pins, time := { s.time with syncStatus := w } } : State).clock = s.clock := rfl

theorem ppsEdge_taken {s : State} (alive : s.alive = true) (head : s.isJobHead = true) (on : flagF s.time.syncCtl tsSyncCtl_ppsEn = true)
    (f : Int) : s.ppsEdge f = { s with
      pins := { s.pins with ppsAt := some s.clock }
      time := { s.time with syncStatus := setF (setF s.time.syncStatus tsSyncStatus_ppsLocked 1) tsSyncStatus_freq (freqField f) } } := by
  unfold ppsEdge; rw [alive, head, on]; rfl

theorem freqField_lt (f : Int) : freqField f < 2 ^ 16 := by unfold freqField; omega

theorem ppsLoss_early {s : State} {a : Nat} (last : s.pins.ppsAt = some a) (early : s.clock < a + 2 * secTicks) : s.ppsLoss = s := by
  unfold ppsLoss; rw [last]; exact if_pos early

theorem ppsLoss_late {s : State} {a : Nat} (last : s.pins.ppsAt = some a) (late : a + 2 * secTicks ≤ s.clock) : s.ppsLoss = { s with
      pins := { s.pins with ppsAt := none }
      time := { s.time with syncStatus := setF s.time.syncStatus tsSyncStatus_ppsLocked 0 } } := by
  unfold ppsLoss; rw [last]; exact if_neg (Nat.not_lt.2 late)

theorem setAddress_on {s : State} (on : s.pins.railsOn = true) (a : Nat) : s.setAddress a = { s with i3c := { s.i3c with dyn := some a } } :=
  if_pos on

end State

/-- Settles O59: a shutdown is the loss of all that is volatile; each fault of the module is one record, and a dead reference fences
the eight partitions. -/
theorem moduleSignals : Obligations.ModuleSignals := by
  unfold Obligations.ModuleSignals
  intro s _
  refine ⟨fun on => ⟨fun mv us low long => ?undervoltage, fun mv us high long => ?overvoltage, ?short, fun a => ?address, congrArg Host.Outcome.next (if_pos on)⟩,
    fun mv us h => congrArg Host.Outcome.next (State.undervoltage_short h),
    fun mv us h => congrArg Host.Outcome.next (State.overvoltage_short h),
    fun alive => ⟨fun closed => ?sense, congrArg Host.Outcome.next (if_pos alive), fun x new => ?sideband,
      fun x known => congrArg Host.Outcome.next (State.sidebandShort_again known), fun lost live => ⟨?expiry, ?returns⟩,
      fun dead => congrArg Host.Outcome.next (if_pos (by simp [dead])), fun head on f => ?edge⟩,
    fun other f => congrArg Host.Outcome.next (if_pos (by simp [other])),
    fun lost dead => congrArg Host.Outcome.next (State.refclkReturn_late lost dead), fun a last => ⟨fun early => ?kept, fun late => ?lost⟩, rfl⟩
  case undervoltage =>
    exact ⟨_, congrArg Host.Outcome.next ((State.undervoltage_shuts low long).trans (State.inputShutdown_on on)), rfl, rfl, rfl, rfl⟩
  case overvoltage =>
    exact ⟨_, congrArg Host.Outcome.next ((State.overvoltage_shuts high long).trans (State.inputShutdown_on on)), rfl, rfl, rfl, rfl⟩
  case short => exact ⟨_, congrArg Host.Outcome.next (State.inputShutdown_on on), rfl, rfl, rfl⟩
  case address => exact ⟨congrArg _ (State.setAddress_on on a), congrArg _ (State.setAddress_on on a)⟩
  case sense =>
    have left := State.unnoted_event { s with pins := { s.pins with senseOpen := true } } Err.absent 4 0 Src.module false
    exact ⟨_, congrArg Host.Outcome.next (State.senseOpen_once alive closed), (congrArg State.pins left :),
      State.code_event _ (by decide) .., (congrArg State.devState left :)⟩
  case sideband =>
    have left := State.unnoted_event { s with pins := { s.pins with shorted := x :: s.pins.shorted } } Err.format 3 (pinCode x) Src.module false
    exact ⟨_, congrArg Host.Outcome.next (State.sidebandShort_once alive new), (congrArg State.pins left :), State.code_event _ (by decide) ..⟩
  case expiry =>
    refine ⟨_, congrArg Host.Outcome.next (State.refclkExpiry_dies alive lost live), ?_, ?_, fun p => State.partFenced_fenceAll _ 0 pFenced⟩
    · rw [State.pins_fenceAll]; rfl
    · rw [State.pins_fenceAll]; rfl
  case returns =>
    have left := State.unnoted_event { s with pins := { s.pins with refclkLost := false } } Err.ok 4 0 Src.module false
    exact ⟨_, congrArg Host.Outcome.next (State.refclkReturn_inTime alive lost live), (congrArg State.pins left :), (congrArg State.tiles left :)⟩
  case edge =>
    refine ⟨_, congrArg Host.Outcome.next (State.ppsEdge_taken alive head on f), ?_, ?_, State.clock_syncStatus .., rfl⟩
    · dsimp only
      rw [flagF_setF_beside (by decide)]
      exact flagF_setF_bit _ (by decide)
    · dsimp only
      rw [getF_setF _ ⟨by decide, by decide⟩]
      exact Nat.mod_eq_of_lt (State.freqField_lt f)
  case kept => exact congrArg Host.Outcome.next (State.ppsLoss_early last early)
  case lost =>
    refine ⟨_, congrArg Host.Outcome.next (State.ppsLoss_late last late), rfl, ?_, State.clock_syncStatus ..⟩
    dsimp only
    exact flagF_setF_zero _ (by decide)

end Sys2Proof.Machine

/-!
PROOFS. A message that is the next of its session, and one outside any session, through the checks of R397: run, or failing its check.
-/
namespace Sys2Proof.Machine
namespace State

/-- Answered under a session that does not stand, a message leaves the sessions. -/
theorem session_answer_absent {t : State} {n : Nat} (gone : t.session n = none) (q : Nat) (a : Ans) (src : Nat) :
    (t.answer n q a src).session n = none := by
  obtain ⟨w, e⟩ := errRecord_eq (t.send (.dct n (t.replyOf q a))) a.status src
  have stays : ∀ {u : State} {f : Session → Session}, (∀ y, (f y).num = y.num) → u.session n = none → (u.onSession n f).session n = none := by
    intro u f same none
    have hg : (fun y : Session => y.num == n) ∘ (fun y => if y.num = n then f y else y) = fun y => y.num == n := by
      funext y; by_cases e : y.num = n <;> simp [e, same]
    unfold onSession session at none ⊢
    rw [List.find?_map, hg, none]
    rfl
  have answered : (((t.send (.dct n (t.replyOf q a))).errRecord a.status src).onSession n (answeredIn (t.replyOf q a))).session n = none :=
    stays (fun _ => rfl) (by rw [e]; exact gone)
  rw [answer_steps]
  unfold releaseHeld
  rw [answered]
  exact answered

/-- The reply of an answer is the last message sent. -/
theorem lastReply_answer (t : State) (h : DctHdr) (a : Ans) (src : Nat) : LastReply (t.answer h.session h.seq a src) h a.status := by
  obtain ⟨ss, rs, w, e⟩ := t.answer_eq h.session h.seq a src
  rw [e]
  exact ⟨_, rfl, rfl, rfl⟩

theorem replied_answer (t : State) (h : DctHdr) {a : Ans} (ok : a.status = Err.ok) (src : Nat) :
    Replied (t.answer h.session h.seq a src) h a.words a.bytes := by
  obtain ⟨ss, rs, w, e⟩ := t.answer_eq h.session h.seq a src
  rw [e]
  exact ⟨_, rfl, rfl, ok, rfl, rfl⟩

/-- An answer without an error leaves everything but its session, the reply and a held message released. -/
theorem answer_ok_frame (t : State) (n q : Nat) {a : Ans} (ok : a.status = Err.ok) (src : Nat) : ∃ ss rs, t.answer n q a src =
    { t with out := .dct n (t.replyOf q a) :: t.out, sessions := ss, released := rs } := by
  rw [answer_steps, ok, errRecord_ok]
  obtain ⟨ss, rs, e⟩ := releaseHeld_eq ((t.send (.dct n (t.replyOf q a))).onSession n (answeredIn (t.replyOf q a))) n
  exact ⟨ss, rs, e⟩

end State

/-- Whether a gate admits an open or a pending session (R395, R418). -/
def Gate.admits : Gate → Session → Bool
  | .zero, _ => false
  | .opened, x => x.isOpen
  | .pending, x => !x.isOpen
  | .zeroOrOpen, x => x.isOpen

/-- A message that its gate admits, with its tag, is taken in the order of its session (R395 to R397). -/
theorem dct_sequenced {s : State} {h : DctHdr} {x : Session} {g : Gate} (serves : s.servesDct = true) (sized : h.wellSized = true)
    (nonzero : h.session ≠ 0) (session : s.session h.session = some x) (admits : g.admits x = true) (tag : h.tagOk = true) (c : Instr)
    (permit : Bool) (check src : Nat) (run : State → State × Option Ans) :
    s.dct h c g permit check src run = s.sequenced h c x permit check src run := by
  have sends : (g.admits x && h.tagOk) = true := by rw [admits, tag]; rfl
  unfold State.dct
  rw [serves, sized, if_neg (by decide), if_neg (by decide), if_neg nonzero, session]
  cases g <;> exact if_pos sends

namespace NextOf
variable {s t : State} {h : DctHdr} {x : Session}

/-- The message passes to its permission, its check and its run. -/
theorem dct_eq (hn : NextOf s h x) {g : Gate} (admits : g.admits x = true) (c : Instr) (permit : Bool) (check src : Nat)
    (run : State → State × Option Ans) :
    s.dct h c g permit check src run = (heard s x).execute { h with fromHost := x.fromHost } permit check src run := by
  have turn : ¬ (h.seq < x.next ∨ h.seq = x.next ∧ x.executing = true) := by simp [hn.seq, hn.idle]
  have level : ¬ x.next < h.seq := by simp [hn.seq]
  rw [dct_sequenced hn.serves hn.sized hn.nonzero hn.session admits hn.tag]
  unfold State.sequenced
  rw [if_neg (Nat.not_le.2 hn.limit), if_neg turn, if_neg level]
  rfl

/-- Reserved bytes, sender and device are as they must be. -/
theorem formed (hn : NextOf s h x) :
    (!h.reservedZero || !x.fromHost || (!h.anyDevice && h.device != (heard s x).devId)) = false := by
  have same : (heard s x).devId = s.devId := rfl
  rcases hn.device with d | d <;> simp [hn.reserved, hn.host, same, d]

theorem dct_fails (hn : NextOf s h x) {g : Gate} (admits : g.admits x = true) {c : Instr} {permit : Bool} {check src : Nat}
    {run : State → State × Option Ans} (permitted : permit = true) (bad : check ≠ Err.ok) :
    s.dct h c g permit check src run = (heard s x).answer h.session h.seq (.err check) src := by
  rw [hn.dct_eq admits]; unfold State.execute; simp only [hn.formed, permitted, if_pos bad]; rfl

theorem dct_answers (hn : NextOf s h x) {g : Gate} (admits : g.admits x = true) {c : Instr} {permit : Bool} {check src : Nat}
    {run : State → State × Option Ans} {a : Ans} (permitted : permit = true) (good : check = Err.ok)
    (runs : run (heard s x) = (t, some a)) : s.dct h c g permit check src run = t.answer h.session h.seq a src := by
  rw [hn.dct_eq admits]; unfold State.execute; simp only [hn.formed, permitted, if_neg (not_not.2 good), runs]; rfl

/-- A message whose answer waits is executing. -/
theorem dct_waits (hn : NextOf s h x) {g : Gate} (admits : g.admits x = true) {c : Instr} {permit : Bool} {check src : Nat}
    {run : State → State × Option Ans} (permitted : permit = true) (good : check = Err.ok)
    (runs : run (heard s x) = (t, none)) :
    s.dct h c g permit check src run = t.onSession h.session (fun y => { y with executing := true }) := by
  rw [hn.dct_eq admits]; unfold State.execute; simp only [hn.formed, permitted, if_neg (not_not.2 good), runs]; rfl

theorem session_heard (hn : NextOf s h x) : (heard s x).session h.session = some { x with lastAt := s.clock } := by
  have e : heard s x = s.onSession h.session (fun y => { y with lastAt := s.clock }) := by
    unfold heard; rw [State.session_num hn.session]
  rw [e]
  exact State.session_onSession (f := fun y => { y with lastAt := s.clock }) (fun _ => rfl) hn.session

end NextOf

namespace Bare
variable {s t : State} {h : DctHdr}

/-- A message outside any session passes to its check and its run. -/
theorem dct_answers (hb : Bare s h) {c : Instr} {check src : Nat} {run : State → State × Option Ans} {a : Ans} (good : check = Err.ok)
    (runs : run s = (t, some a)) :
    s.dct { h with fromHost := true } c .zero true check src run = t.answer h.session h.seq a src := by
  have formed : (!h.reservedZero || !true || (!h.anyDevice && h.device != s.devId)) = false := by
    rcases hb.device with d | d <;> simp [hb.reserved, d]
  unfold State.dct
  rw [hb.serves, hb.sized, if_neg (by decide), if_neg (by decide), if_pos hb.session, if_pos ⟨.inl rfl, hb.tag⟩]
  unfold State.execute
  simp only [formed, if_neg (not_not.2 good), runs]
  rfl

end Bare
end Sys2Proof.Machine

/-!
PROOFS. The order of a session's messages (R398): answered again, held, dropped, released; and a number for a new session (R418).
-/
namespace Sys2Proof.Machine

/-- A command that is a message of an open session is one call of the handler of messages, behind a gate that open sessions pass. -/
theorem exec_messageOf {c : Instr} {h : DctHdr} (m : messageOf c = some h) (s : State) : ∃ g permit check src run,
    (∀ x : Session, x.isOpen = true → g.admits x = true) ∧ exec c s = .next (s.dct h c g permit check src run) := by
  unfold messageOf at m
  split at m <;> cases m
  all_goals
    refine ⟨_, _, _, _, _, ?_, rfl⟩
    exact fun _ => id

/-! ## Ahead of its turn or behind it -/

section
variable {s : State} {h : DctHdr} {c : Instr} {x : Session} (limit : h.seq < seqLimit)
include limit

theorem sequenced_past (past : h.seq < x.next ∨ h.seq = x.next ∧ x.executing = true) (permit : Bool) (check src : Nat)
    (run : State → State × Option Ans) : s.sequenced h c x permit check src run =
      match x.replies.find? (fun r => r.seq == h.seq) with
      | some r => ((heard s x).send (.dct x.num r)).bumpDct dctCounters_dup
      | none => (heard s x).bumpDct dctCounters_dup := by
  unfold State.sequenced
  rw [if_neg (Nat.not_le.2 limit), if_pos past]
  rfl

theorem sequenced_ahead (ahead : x.next < h.seq) (permit : Bool) (check src : Nat) (run : State → State × Option Ans) :
    s.sequenced h c x permit check src run =
      if x.next + window < h.seq then (heard s x).bumpDct dctCounters_dropped
      else if x.held.any (fun k => k.1 == h.seq) then (heard s x).bumpDct dctCounters_dup
      else (heard s x).onSession x.num (fun y => { y with held := (h.seq, c) :: y.held }) := by
  have past : ¬ (h.seq < x.next ∨ h.seq = x.next ∧ x.executing = true) := by omega
  unfold State.sequenced
  rw [if_neg (Nat.not_le.2 limit), if_neg past, if_pos ahead]
  rfl

end

namespace State

/-! ## The turn passes on -/

/-- A held message released leaves the rest of its session; what was held for the turn is the one released. -/
theorem session_releaseHeld {u : State} {n : Nat} {x : Session} (stands : u.session n = some x) :
    ∃ y, (u.releaseHeld n).session n = some y ∧ { y with held := x.held } = x ∧
      ∀ k, x.held.find? (fun k => k.1 == x.next) = some k →
        (u.releaseHeld n).released = u.released ++ [k.2] ∧ ∀ j ∈ y.held, j.1 ≠ x.next := by
  unfold releaseHeld
  rw [stands]
  dsimp only
  split
  · next none => exact ⟨x, stands, rfl, fun k found => nomatch none.symm.trans found⟩
  · next k found =>
    refine ⟨_, session_onSession (f := fun y => { y with held := y.held.filter (fun k => k.1 != x.next) }) (fun _ => rfl) stands, rfl,
      fun k' found' => ?_⟩
    cases found.symm.trans found'
    exact ⟨rfl, fun j hj => by simpa using (List.mem_filter.1 hj).2⟩

/-- An answered session keeps the reply, and what it holds for its next turn is released. -/
theorem session_answer {t : State} {n q : Nat} {x : Session} (stands : t.session n = some x) (a : Ans) (src : Nat) :
    ∃ y, (t.answer n q a src).session n = some y ∧ { y with held := x.held } = answeredIn (t.replyOf q a) x ∧
      ∀ k, x.held.find? (fun k => k.1 == q + 1) = some k →
        (t.answer n q a src).released = t.released ++ [k.2] ∧ ∀ j ∈ y.held, j.1 ≠ q + 1 := by
  obtain ⟨w, e⟩ := errRecord_eq (t.send (.dct n (t.replyOf q a))) a.status src
  have sent : ((t.send (.dct n (t.replyOf q a))).errRecord a.status src).session n = some x := by rw [e]; exact stands
  have released : ((t.send (.dct n (t.replyOf q a))).errRecord a.status src).released = t.released := by rw [e]; rfl
  have turned := session_releaseHeld (session_onSession (f := answeredIn (t.replyOf q a)) (fun _ => rfl) sent)
  rw [answer_steps, ← released]
  exact turned

/-! ## A number for a new session (R418) -/

/-- Fewer than eight sessions leave one of the eight numbers. -/
theorem freeSession_free {s : State} (few : s.sessions.length < maxSessions) :
    1 ≤ s.freeSession ∧ s.freeSession ≤ maxSessions ∧ ∀ z ∈ s.sessions, z.num ≠ s.freeSession := by
  have some : ∃ n ∈ (List.range maxSessions).map (· + 1), n ∉ s.sessions.map (·.num) := by
    by_contra all
    push Not at all
    have distinct : ((List.range maxSessions).map (· + 1)).Nodup := List.nodup_range.map (fun a b => Nat.succ.inj)
    have most := (distinct.subperm all).length_le
    simp only [List.length_map, List.length_range] at most
    omega
  obtain ⟨n, inRange, free⟩ := some
  have found : (((List.range maxSessions).map (· + 1)).find? (fun n => s.sessions.all (fun x => x.num != n))).isSome = true :=
    List.find?_isSome.2 ⟨n, inRange, List.all_eq_true.2 fun z hz => bne_iff_ne.2 fun same => free (same ▸ List.mem_map_of_mem hz)⟩
  obtain ⟨k, hk⟩ := Option.isSome_iff_exists.1 found
  have same : s.freeSession = k := by unfold freeSession; rw [hk]; rfl
  have member := List.mem_of_find?_eq_some hk
  have fresh := List.find?_some hk
  rw [same]
  simp only [List.mem_map, List.mem_range] at member
  exact ⟨by omega, by omega, fun z hz => bne_iff_ne.1 (List.all_eq_true.1 fresh z hz)⟩

/-- The pending session that an accepted HELLO makes: a free number, with nothing received, sent, kept or held (R418). -/
def pendingOf (s : State) (h : DctHdr) (x : HelloIn) : Session :=
  { num := s.freeSession, isOpen := false, fromHost := h.fromHost, owner := x.ownerHash, t := x.t, next := 1, txNext := 1, replies := [],
    held := [], lastAt := s.clock, since := s.clock, executing := false, sels := [] }

theorem openPending_accepts {s : State} (h : DctHdr) {x : HelloIn} {l : Lic} (applied : s.boot.applied = some l)
    (owner : l.ownerHash = x.ownerHash) (signed : x.sigOk = true) (few : s.sessions.length < maxSessions) :
    ∃ a : Ans, a.status = Err.ok ∧ s.openPending h x = ({ s.draw with sessions := s.sessions ++ [s.pendingOf h x] }, some a) := by
  unfold openPending
  rw [applied]
  dsimp only
  rw [if_neg (by simp [owner, signed]), if_neg (Nat.not_le.2 few)]
  exact ⟨_, rfl, rfl⟩

/-- Answering outside any session leaves every session with a number. -/
theorem mem_answer_zero {t : State} {y : Session} (member : y ∈ t.sessions) (numbered : y.num ≠ 0) (q : Nat) (a : Ans) (src : Nat) :
    y ∈ (t.answer 0 q a src).sessions := by
  have kept {u : State} (f : Session → Session) (m : y ∈ u.sessions) : y ∈ (u.onSession 0 f).sessions :=
    List.mem_map.2 ⟨y, m, if_neg numbered⟩
  obtain ⟨w, e⟩ := errRecord_eq (t.send (.dct 0 (t.replyOf q a))) a.status src
  have answered := kept (u := (t.send (.dct 0 (t.replyOf q a))).errRecord a.status src) (answeredIn (t.replyOf q a)) (by rw [e]; exact member)
  rw [answer_steps]
  unfold releaseHeld
  split
  · exact answered
  · split
    · exact answered
    · exact kept _ answered

end State

/-- A HELLO outside any session that is accepted makes a pending session (R416 to R418). -/
theorem hello_accepted {s : State} {h : DctHdr} {x : HelloIn} {l : Lic} (hb : Bare s h) (sized : x.bytes = 1904)
    (applied : s.boot.applied = some l) (owner : l.ownerHash = x.ownerHash) (signed : x.sigOk = true)
    (few : s.sessions.length < maxSessions) : ∃ t, exec (.hello h x) s = .next t ∧ LastReply t h Err.ok ∧ ∃ y ∈ t.sessions,
      (∀ z ∈ s.sessions, z.num ≠ y.num) ∧ 1 ≤ y.num ∧ y.num ≤ maxSessions ∧ y.isOpen = false ∧ y.t = x.t ∧ y.next = 1 ∧ y.txNext = 1 ∧
        y.replies = [] ∧ y.held = [] ∧ y.since = s.clock := by
  obtain ⟨a, ok, accepts⟩ := State.openPending_accepts h applied owner signed few
  obtain ⟨one, eight, free⟩ := State.freeSession_free few
  have runs : s.hello h x = _ := hb.dct_answers (if_pos sized) accepts
  refine ⟨_, congrArg Host.Outcome.next runs, ok ▸ State.lastReply_answer .., s.pendingOf h x, ?_, free, one, eight, rfl, rfl, rfl, rfl,
    rfl, rfl, rfl⟩
  rw [hb.session]
  exact State.mem_answer_zero (List.mem_append_right _ (List.mem_singleton_self _)) (Nat.one_le_iff_ne_zero.1 one) ..

/-- Settles O44: a message is taken by its place beside its session's turn; an answer turns the session and releases what it holds. -/
theorem messageOrder : Obligations.MessageOrder := by
  unfold Obligations.MessageOrder
  intro s c h x message serves sized nonzero session opened tag limit
  obtain ⟨g, permit, check, src, run, admits, runs⟩ := exec_messageOf message s
  rw [dct_sequenced serves sized nonzero session (admits x opened) tag] at runs
  refine ⟨fun r past cached => runs.trans (congrArg _ ?resent), fun past uncached => runs.trans (congrArg _ ?counted),
    fun ahead near new => runs.trans (congrArg _ ?held), fun ahead near known => runs.trans (congrArg _ ?again),
    fun far => runs.trans (congrArg _ ?dropped), ?answered, ?opens, fun m ev => ⟨rfl, ?sent⟩⟩
  case resent => rw [sequenced_past limit (.inl past), cached]
  case counted => rw [sequenced_past limit past, uncached]
  case held =>
    have inside : ¬ x.next + window < h.seq := Nat.not_lt.2 near
    have none : x.held.any (fun k => k.1 == h.seq) = false := by simpa using new
    rw [sequenced_ahead limit ahead, if_neg inside, none, if_neg Bool.false_ne_true]
  case again =>
    have inside : ¬ x.next + window < h.seq := Nat.not_lt.2 near
    have one : x.held.any (fun k => k.1 == h.seq) = true := by simpa using known
    rw [sequenced_ahead limit ahead, if_neg inside, if_pos one]
  case dropped =>
    have ahead : x.next < h.seq := Nat.lt_of_le_of_lt (Nat.le_add_right _ _) far
    exact (sequenced_ahead limit ahead ..).trans (if_pos far)
  case answered =>
    rintro rfl turn
    obtain ⟨y, stands, same, turns⟩ := State.session_answer (q := h.seq) turn.session_heard .ok Src.dct
    have replies : y.replies = _ := (congrArg Session.replies same :)
    have answers : s.regWrite h [] = _ := turn.dct_runs rfl rfl (rfl : (heard s x).writeAll (.dct h.session) 0 [] = _)
    refine ⟨_, y, congrArg Host.Outcome.next answers, (turn.onlyAnswered _ _).1, stands, ?_, ?_, turns⟩
    · rw [replies]; exact List.length_take_le ..
    · rw [replies]; rfl
  case opens =>
    intro g i bare sized owner signed few
    obtain ⟨l, applied, same⟩ := Option.map_eq_some_iff.1 owner
    obtain ⟨t, e, -, y, member, free, -, -, -, -, first, sends, cached, kept, -⟩ := hello_accepted bare sized applied same signed few
    exact ⟨t, e, y, member, free, first, sends, cached, kept⟩
  case sent =>
    have found : (s.send m).session x.num = some x := by rw [State.session_num session]; exact session
    exact congrArg (Option.map (·.txNext)) (State.session_onSession (f := fun y => { y with txNext := y.txNext + 1 }) (fun _ => rfl) found)

end Sys2Proof.Machine

/-!
PROOFS. REG_WRITE and REG_READ, pair by pair and address by address (R401, R403, R493).
-/
namespace Sys2Proof.Machine

namespace State

/-- Pairs that are all accepted are written, and the message is answered OK. -/
theorem writeAll_accepted {who : Who} {ps : List (Word × Word)} {s t : State} (writes : WritesTo who s ps t) (i : Nat) :
    s.writeAll who i ps = (t, some .ok) := by
  induction ps generalizing s i with
  | nil => cases writes; rfl
  | cons p ps ih =>
    obtain ⟨ok, rest⟩ := writes
    unfold writeAll
    dsimp only
    rw [if_pos ok, ih rest]

/-- Of pairs of which one fails, those before it are written, and the answer bears its index. -/
theorem writeAll_fails {who : Who} {ps qs : List (Word × Word)} {a v : Word} {s t u : State} {e : Nat} (writes : WritesTo who s ps t)
    (fails : t.writeReg who a.toNat v (BitVec.allOnes 64) = (u, e)) (bad : e ≠ Err.ok) (i : Nat) :
    s.writeAll who i (ps ++ (a, v) :: qs) = (u, some { status := e, words := [BitVec.ofNat 64 (i + ps.length)], bytes := [] }) := by
  induction ps generalizing s i with
  | nil =>
    cases writes
    unfold writeAll
    dsimp only [List.nil_append]
    rw [fails, if_neg bad]
    rfl
  | cons p ps ih =>
    obtain ⟨ok, rest⟩ := writes
    unfold writeAll
    dsimp only [List.cons_append]
    rw [if_pos ok, ih rest, List.length_cons, Nat.add_assoc, Nat.add_comm 1]

/-- The address read alone. -/
theorem readAll_single {s t : State} {who : Who} {a v : Word} (reads : s.readReg who a.toNat = (t, .ok v)) :
    s.readAll who [] 0 [a] = (t, some { status := Err.ok, words := [v], bytes := [] }) := by
  unfold readAll
  rw [reads]
  rfl

theorem readAll_first_fails {s t : State} {who : Who} {a : Word} {e : Nat} (fails : s.readReg who a.toNat = (t, .error e)) (as : List Word) :
    s.readAll who [] 0 (a :: as) = (t, some { status := e, words := [0], bytes := [] }) := by
  unfold readAll
  rw [fails]
  rfl

/-- An unmapped address reads 0 (R493). -/
theorem readReg_unmapped {s : State} {a : Nat} (aligned : a % 8 = 0) (unmapped : s.regAt a = none) (who : Who) :
    s.readReg who a = (s, .ok 0) := by
  unfold readReg
  rw [if_neg (not_not.2 aligned), unmapped]

/-- The answer to a message that failed: the reply, with the error recorded, and nothing else of the state. -/
theorem answer_err_frame (t : State) (h : DctHdr) (a : Ans) (src : Nat) :
    let u := t.answer h.session h.seq a src
    u = { t with out := u.out, sessions := u.sessions, released := u.released, dev := u.dev } ∧
      u.dev = { t.dev with errLast := u.dev.errLast } ∧
      ∃ r, u.out.head? = some (.dct h.session r) ∧ r.seq = h.seq ∧ r.status = a.status ∧ r.payload = a.words := by
  obtain ⟨ss, rs, w, e⟩ := t.answer_eq h.session h.seq a src
  intro u
  have eu : u = _ := e
  rw [eu]
  exact ⟨rfl, rfl, _, rfl, rfl, rfl, rfl⟩

end State

/-- Settles O42: the pairs of a write are walked to the first that fails; a read is the one address, or the first that fails. -/
theorem registerMessages : Obligations.RegisterMessages := by
  unfold Obligations.RegisterMessages
  intro s h x ht
  refine ⟨fun ps s1 writes => ?_, fun ps a v qs s1 s2 e bad writes fails => ?_, fun as long => ?_, fun a v s1 fits reads => ?_,
    fun a fits aligned unmapped => ?_, fun a as e s1 fits bad fails => ?_⟩
  · have runs : s.regWrite h ps = _ := ht.dct_runs rfl rfl (State.writeAll_accepted writes 0)
    obtain ⟨ss, rs, frame⟩ := s1.answer_ok_frame h.session h.seq (a := .ok) rfl Src.dct
    refine ⟨_, congrArg Host.Outcome.next runs, s1.lastReply_answer h .ok Src.dct, ?_⟩
    rw [frame]
  · have runs : s.regWrite h (ps ++ (a, v) :: qs) = _ := ht.dct_runs rfl rfl (State.writeAll_fails writes fails bad 0)
    obtain ⟨frame, dev, r, head, seq, status, words⟩ := s2.answer_err_frame h
      { status := e, words := [BitVec.ofNat 64 (0 + ps.length)], bytes := [] } Src.dct
    exact ⟨_, congrArg Host.Outcome.next runs, frame, dev, r, head, seq, status, words.trans (by rw [Nat.zero_add])⟩
  · have fails : s.regRead h as = _ := ht.dct_failing rfl (by rw [long]; decide)
    refine ⟨_, congrArg Host.Outcome.next fails, ?_⟩
    rw [long]
    exact ht.onlyAnswered _ _
  · have runs : s.regRead h [a] = _ := ht.dct_runs rfl (if_pos fits) (State.readAll_single reads)
    obtain ⟨ss, rs, frame⟩ := s1.answer_ok_frame h.session h.seq (a := { status := Err.ok, words := [v], bytes := [] }) rfl Src.dct
    refine ⟨_, congrArg Host.Outcome.next runs, s1.replied_answer h rfl Src.dct, ?_⟩
    rw [frame]
  · have none : (heard s x).readReg (.dct h.session) a.toNat = (heard s x, .ok 0) := State.readReg_unmapped (s := heard s x) aligned unmapped _
    have runs : s.regRead h [a] = _ := ht.dct_runs rfl (if_pos fits) (State.readAll_single none)
    exact ⟨_, congrArg Host.Outcome.next runs, State.replied_answer _ h rfl Src.dct, (ht.onlyAnswered _ _).2⟩
  · have runs : s.regRead h (a :: as) = _ := ht.dct_runs rfl (if_pos fits) (State.readAll_first_fails fails as)
    obtain ⟨frame, dev, r, head, seq, status, words⟩ := s1.answer_err_frame h { status := e, words := [0], bytes := [] } Src.dct
    exact ⟨_, congrArg Host.Outcome.next runs, frame, r, head, seq, status, words⟩

end Sys2Proof.Machine

/-!
PROOFS. HELLO and FINISH, and the sessions that a time-out closes (R396, R416 to R418).
-/
namespace Sys2Proof.Machine
namespace State

/-! ## A session closed, and one opened -/

theorem session_closeSession_same (s : State) (n : Nat) : (s.closeSession n).session n = none := by
  show (s.sessions.filter (fun x => x.num != n)).find? (fun x => x.num == n) = none
  rw [List.find?_eq_none]
  intro y hy
  simpa using (List.mem_filter.1 hy).2

theorem session_closeSession_other (s : State) {n m : Nat} (other : m ≠ n) : (s.closeSession n).session m = s.session m := by
  show (s.sessions.filter (fun x => x.num != n)).find? (fun x => x.num == m) = s.sessions.find? (fun x => x.num == m)
  rw [List.find?_filter]
  congr 1
  funext y
  by_cases e : y.num = m
  · simp [e, other]
  · simp [e]

/-- The registers that show slots and sessions are all that is brought up to date. -/
theorem refreshKeys_eq (s : State) : ∃ w k, s.refreshKeys = { s with sec := { s.sec with slotStatus := w }, dctCounters := k } :=
  ⟨_, _, rfl⟩

theorem slotMask_refreshKeys (s : State) : s.refreshKeys.slotMask = s.slotMask := by
  obtain ⟨w, k, e⟩ := s.refreshKeys_eq
  rw [e]
  rfl

theorem session_refreshKeys (s : State) (n : Nat) : s.refreshKeys.session n = s.session n := by
  obtain ⟨w, k, e⟩ := s.refreshKeys_eq
  rw [e]
  rfl

theorem length_answer (t : State) (n q : Nat) (a : Ans) (src : Nat) : (t.answer n q a src).sessions.length = t.sessions.length := by
  obtain ⟨w, e⟩ := errRecord_eq (t.send (.dct n (t.replyOf q a))) a.status src
  have turned : (((t.send (.dct n (t.replyOf q a))).errRecord a.status src).onSession n (answeredIn (t.replyOf q a))).sessions.length =
      t.sessions.length := by rw [e]; exact List.length_map _
  rw [answer_steps]
  unfold releaseHeld
  split
  · exact turned
  · split
    · exact turned
    · exact (List.length_map _).trans turned

/-! ## HELLO (R416 to R418) -/

theorem openPending_unowned {s : State} (h : DctHdr) {x : HelloIn} {l : Lic} (applied : s.boot.applied = some l)
    (foreign : l.ownerHash ≠ x.ownerHash ∨ x.sigOk = false) : s.openPending h x = (s, some (.err Err.auth)) := by
  unfold openPending
  rw [applied]
  exact if_pos foreign

theorem openPending_full {s : State} (h : DctHdr) {x : HelloIn} {l : Lic} (applied : s.boot.applied = some l)
    (owner : l.ownerHash = x.ownerHash) (signed : x.sigOk = true) (full : maxSessions ≤ s.sessions.length) :
    s.openPending h x = (s, some (.err Err.busy)) := by
  unfold openPending
  rw [applied]
  dsimp only
  rw [if_neg (by simp [owner, signed]), if_pos full]

/-! ## Time-outs (R396, R418) -/

section
variable {s : State} {n : Nat} {y : Session} (stands : s.session n = some y)
include stands

theorem pendingTimeout_due (alive : s.alive = true) (pending : y.isOpen = false) (due : y.since + secTicks ≤ s.clock) :
    s.pendingTimeout n = s.closeSession n := by
  unfold pendingTimeout
  rw [stands]
  exact if_pos (by simp [alive, pending, due])

theorem pendingTimeout_early (early : y.isOpen = true ∨ s.clock < y.since + secTicks) : s.pendingTimeout n = s := by
  unfold pendingTimeout
  rw [stands]
  refine if_neg ?_
  rcases early with opened | early
  · simp [opened]
  · simp [Nat.not_le.2 early]

theorem idleTimeout_due (alive : s.alive = true) (opened : y.isOpen = true)
    (due : y.lastAt + getF s.dctCfg dctCfg_idleS * secTicks ≤ s.clock) : s.idleTimeout n = s.closeSession n := by
  unfold idleTimeout
  rw [stands]
  exact if_pos (by simp [alive, opened, due])

theorem idleTimeout_early (early : y.isOpen = false ∨ s.clock < y.lastAt + getF s.dctCfg dctCfg_idleS * secTicks) :
    s.idleTimeout n = s := by
  unfold idleTimeout
  rw [stands]
  refine if_neg ?_
  rcases early with pending | early
  · simp [pending]
  · simp [Nat.not_le.2 early]

end
end State

/-! ## FINISH (R418) -/

/-- A session that has become open. -/
def opened (x : Session) : Session := { x with isOpen := true }

section
variable {s : State} {h : DctHdr} {x : Session} {k : Nat} (hn : NextOf s h x)
include hn

theorem finish_opens (pending : x.isOpen = false) (same : x.t = k) : s.keyFinish h k =
    (((heard s x).onSession x.num opened).refreshKeys).answer h.session h.seq
      (((heard s x).onSession x.num opened).refreshKeys.keyReply x.num) Src.security := by
  refine hn.dct_answers (g := .pending) (by simp [Gate.admits, pending]) rfl rfl ?_
  dsimp only
  rw [hn.session_heard]
  exact if_neg (not_not.2 same)

theorem finish_differs (pending : x.isOpen = false) (other : x.t ≠ k) :
    s.keyFinish h k = ((heard s x).closeSession x.num).answer h.session h.seq (.err Err.auth) Src.security := by
  refine hn.dct_answers (g := .pending) (by simp [Gate.admits, pending]) rfl rfl ?_
  dsimp only
  rw [hn.session_heard]
  exact if_pos other

end

/-- Settles O39: a HELLO is accepted, unowned or one too many; a FINISH opens its session or closes it; a time-out closes what is due. -/
theorem sessions : Obligations.Sessions := by
  unfold Obligations.Sessions
  intro s h
  refine ⟨fun x bare sized => ⟨fun l applied owner signed few => ?accepted, fun l applied foreign => ?unowned,
      fun l applied owner signed full => ?full⟩, fun x k next pending => ⟨fun same => ?opens, fun other => ?differs⟩,
    fun n y stands alive pending due => ?_, fun n y stands early => congrArg Host.Outcome.next (State.pendingTimeout_early stands early),
    fun n y stands alive opened due => ?_, fun n y stands early => congrArg Host.Outcome.next (State.idleTimeout_early stands early)⟩
  case accepted =>
    obtain ⟨t, e, reply, y, member, free, one, eight, pending, same, first, -, -, -, since⟩ :=
      hello_accepted bare sized applied owner signed few
    exact ⟨t, e, reply, y, member, free, one, eight, pending, same, first, since⟩
  case unowned =>
    have runs : s.hello h x = _ := bare.dct_answers (if_pos sized) (State.openPending_unowned h applied foreign)
    exact ⟨_, congrArg Host.Outcome.next runs, State.lastReply_answer .., State.length_answer ..⟩
  case full =>
    have runs : s.hello h x = _ := bare.dct_answers (if_pos sized) (State.openPending_full h applied owner signed full)
    exact ⟨_, congrArg Host.Outcome.next runs, State.lastReply_answer .., State.length_answer ..⟩
  case opens =>
    have found : ((heard s x).onSession x.num opened).refreshKeys.session h.session = some (opened { x with lastAt := s.clock }) := by
      rw [State.session_refreshKeys]
      have turned := State.session_onSession (f := opened) (fun _ => rfl) next.session_heard
      rwa [← State.session_num next.session] at turned ⊢
    have stands : (((heard s x).onSession x.num opened).refreshKeys.session h.session).isSome = true := by rw [found]; rfl
    refine ⟨_, congrArg Host.Outcome.next (finish_opens next pending same), State.answered_answer stands _ _, ?_, ?_⟩
    · obtain ⟨y, at_, kept, -⟩ := State.session_answer (q := h.seq) found
        (((heard s x).onSession x.num opened).refreshKeys.keyReply x.num) Src.security
      rw [at_]
      exact congrArg (fun z : Session => some z.isOpen) kept
    · have replied := State.replied_answer ((heard s x).onSession x.num opened).refreshKeys h
        (a := ((heard s x).onSession x.num opened).refreshKeys.keyReply x.num) rfl Src.security
      unfold State.keyReply at replied ⊢
      rw [State.slotMask_refreshKeys, State.session_num next.session] at replied
      rw [State.slotMask_refreshKeys, State.session_num next.session]
      exact replied
  case differs =>
    refine ⟨_, congrArg Host.Outcome.next (finish_differs next pending other), State.lastReply_answer .., ?_⟩
    refine State.session_answer_absent ?_ ..
    rw [← State.session_num next.session]
    exact State.session_closeSession_same ..
  · refine ⟨_, congrArg Host.Outcome.next (State.pendingTimeout_due stands alive pending due), s.session_closeSession_same n, fun m other => ?_⟩
    exact s.session_closeSession_other other
  · refine ⟨_, congrArg Host.Outcome.next (State.idleTimeout_due stands alive opened due), s.session_closeSession_same n, fun m other => ?_⟩
    exact s.session_closeSession_other other

end Sys2Proof.Machine

/-!
PROOFS. The stages of bring-up: what BOOT_STAGE and BOOT_STATUS show as a stage starts, passes or stops, and what the ROM boots (R461 to R464).
-/
namespace Sys2Proof.Machine
namespace State

/-! ## BOOT_STAGE and BOOT_STATUS (R461, R462) -/

/-- What stands where the registers that show it stand. -/
theorem devState_of_dev {s t : State} (h : t.dev = s.dev) : t.devState = s.devState := congrArg (fun d : DevRegs => getF d.state devState_state) h

theorem stageNow_of_stage {s t : State} (h : t.rootstock.stage = s.rootstock.stage) : t.stageNow = s.stageNow :=
  congrArg (getF · bootStage_stage) h

theorem stageNow_setStage (s : State) {k : Nat} (h : k < 16) : (s.setStage k).stageNow = k :=
  (getF_setF (f := bootStage_stage) _ ⟨by decide, by decide⟩ k).trans (Nat.mod_eq_of_lt h)

theorem stageNow_setStatus (s : State) (k code : Nat) : (s.setStatus k code).stageNow = s.stageNow :=
  stageNow_of_stage rfl

theorem status_setStatus (s : State) {k code : Nat} (stage : k ≤ 7) (h : code < 256) :
    getF (s.setStatus k code).rootstock.status (stField k) = code := by
  refine (getF_setF (f := stField k) _ ⟨?_, ?_⟩ code).trans (Nat.mod_eq_of_lt ?_)
  · unfold stField; dsimp only; omega
  · unfold stField; dsimp only; omega
  · unfold stField
    dsimp only
    rwa [show 8 * k + 7 + 1 - 8 * k = 8 by omega]

/-- A stage that starts is the one shown. -/
theorem stageNow_startStage (s : State) {k : Nat} (h : k < 16) : (s.startStage k).stageNow = k :=
  (stageNow_setStatus ..).trans (stageNow_setStage s h)

/-- A stage that starts, and its time, are of the bring-up registers alone. -/
theorem startStage_eq (s : State) (k : Nat) : ∃ w, s.startStage k = { s with rootstock := w } := by
  unfold startStage setStatus setStage
  exact ⟨_, rfl⟩

theorem setMs_eq (s : State) (k ms : Nat) : ∃ w, s.setMs k ms = { s with rootstock := w } := ⟨_, rfl⟩

theorem devState_startStage (s : State) (k : Nat) : (s.startStage k).devState = s.devState := by
  obtain ⟨w, e⟩ := s.startStage_eq k
  rw [e]
  exact devState_of_dev rfl

/-- A stage that passes moves the bring-up registers and the device state alone. -/
theorem passStage_eq (s : State) (k code ds next : Nat) :
    ∃ w d, s.passStage k code ds next = { s with rootstock := w, dev := { s.dev with state := d } } := by
  unfold passStage startStage setStatus setStage toState
  exact ⟨_, _, rfl⟩

/-- A stage that passes leads to its device state and the next stage. -/
theorem devState_passStage (s : State) (k code : Nat) {ds : Nat} (h : ds < 256) (next : Nat) : (s.passStage k code ds next).devState = ds := by
  unfold passStage
  rw [devState_startStage, devState_toState _ ds h]

theorem stageNow_passStage (s : State) (k code ds : Nat) {next : Nat} (h : next < 16) : (s.passStage k code ds next).stageNow = next := by
  unfold passStage
  exact stageNow_startStage _ h

/-! ## A stage that stops (R461, R463) -/

/-- Bring-up has stopped in stage `k` with the status `code` and the error `err`. -/
structure Stopped (s : State) (k code err : Nat) (t : State) : Prop where
  stage : t.stageNow = stageStopped
  status : getF t.rootstock.status (stField k) = code
  error : getF t.dev.errLast errLast_code = err
  fault : t.pins.faultN = (s.pins.faultN && k == 5)
  devState : t.devState = s.devState

theorem errRecord_stands (s : State) (code src : Nat) : (s.errRecord code src).rootstock = s.rootstock ∧
    (s.errRecord code src).pins = s.pins ∧ (s.errRecord code src).devState = s.devState := by
  obtain ⟨w, e⟩ := errRecord_eq s code src
  rw [e]
  exact ⟨rfl, rfl, rfl⟩

/-- What an EVENT leaves of the registers that bring-up and power turn on. -/
theorem event_stands (s : State) (code cls arg src : Nat) (always : Bool) : (s.event code cls arg src always).rootstock = s.rootstock ∧
    (s.event code cls arg src always).pow = s.pow ∧ (s.event code cls arg src always).ports = s.ports :=
  have noted := s.unnoted_event code cls arg src always
  ⟨(congrArg State.rootstock noted :), (congrArg State.pow noted :), (congrArg State.ports noted :)⟩

/-- The stop of a stage before FAULT_N. -/
def stopping (s : State) (k code err : Nat) : State :=
  ({ (s.setStage stageStopped).setStatus k code with
    rootstock := { ((s.setStage stageStopped).setStatus k code).rootstock with
      status := setF ((s.setStage stageStopped).setStatus k code).rootstock.status bootStatus_err err } } : State).errRecord err Src.boot

theorem stopStage_eq (s : State) (k code err : Nat) :
    s.stopStage k code err = if k = 5 then s.stopping k code err else (s.stopping k code err).driveFault := rfl

section
variable (s : State) {k code err : Nat}

theorem stopping_rootstock : (s.stopping k code err).rootstock = { ((s.setStage stageStopped).setStatus k code).rootstock with
    status := setF ((s.setStage stageStopped).setStatus k code).rootstock.status bootStatus_err err } := (errRecord_stands ..).1

theorem stageNow_stopping : (s.stopping k code err).stageNow = stageStopped := by
  refine Eq.trans (stageNow_of_stage (t := s.stopping k code err) (s := s.setStage stageStopped) ?_) (stageNow_setStage s (by decide))
  rw [stopping_rootstock]
  rfl

theorem status_stopping (stage : k ≤ 5) (h : code < 256) : getF (s.stopping k code err).rootstock.status (stField k) = code := by
  have beside : bootStatus_err.Beside (stField k) := by
    unfold Field.Beside stField bootStatus_err
    dsimp only
    omega
  rw [stopping_rootstock]
  exact (getF_setF_beside beside ..).trans (status_setStatus _ (Nat.le_trans stage (by decide)) h)

theorem code_stopping (bad : err ≠ Err.ok) (h : err < 2 ^ 16) : getF (s.stopping k code err).dev.errLast errLast_code = err :=
  (code_errRecord _ bad _).trans (Nat.mod_eq_of_lt h)

theorem pins_stopping : (s.stopping k code err).pins = s.pins :=
  (errRecord_stands ..).2.1.trans (by unfold setStatus setStage; rfl)

theorem devState_stopping : (s.stopping k code err).devState = s.devState :=
  (errRecord_stands ..).2.2.trans (by unfold setStatus setStage; exact devState_of_dev rfl)

theorem stopStage_stopped (stage : k ≤ 5) (status : code < 256) (error : err < 2 ^ 16) (bad : err ≠ Err.ok) :
    Stopped s k code err (s.stopStage k code err) := by
  rw [stopStage_eq]
  by_cases five : k = 5
  · rw [if_pos five]
    exact {
      stage := s.stageNow_stopping
      status := s.status_stopping stage status
      error := s.code_stopping bad error
      fault := by rw [s.pins_stopping, five]; simp
      devState := s.devState_stopping }
  · rw [if_neg five]
    exact {
      stage := (stageNow_of_stage rfl).trans s.stageNow_stopping
      status := s.status_stopping stage status
      error := s.code_stopping bad error
      fault := by simp [five, driveFault]
      devState := (devState_of_dev rfl).trans s.devState_stopping }

end

/-! ## Stage 1 (R463, R464) -/

/-- What a device booted from a copy shows. -/
structure Booted (s : State) (copy : Nat) (t : State) : Prop where
  devState : t.devState = DS.rooted
  stage : t.stageNow = 2
  rooted : t.boot.rooted = true
  clock : t.clock = 0
  draws : t.sec.draws = s.sec.draws + 2
  sealing : t.sec.sealGen = s.sec.draws + 1
  copy : getF t.rootstock.fw fwVersion_copy = copy % 2
  flash : t.flash = s.flash
  i3c : t.i3c = s.i3c

theorem bootFrom_booted (s : State) (copy : Nat) (c : Firmware) (fallback : Bool) : Booted s copy (s.bootFrom copy c fallback) := by
  refine ⟨?_, ?_, rfl, rfl, rfl, rfl, ?_, rfl, rfl⟩
  · exact devState_passStage _ 1 _ (by decide) 2
  · exact stageNow_passStage _ 1 _ _ (by decide)
  · refine (getF_setF_beside (f := fwVersion_fallback) (by decide) _ _).trans ?_
    exact getF_setF (f := fwVersion_copy) _ ⟨by decide, by decide⟩ copy

/-- The ROM boots a copy that it accepts, the newer one where it accepts both. -/
theorem stage1Run_boots {s : State} (ok : fwOk s.flash s.flash.fwA = true ∨ fwOk s.flash s.flash.fwB = true) :
    ∃ copy, Booted s copy s.stage1Run ∧ (fwOk s.flash s.flash.fwA = true → s.flash.fwB.svn ≤ s.flash.fwA.svn → copy = 0) ∧
      (fwOk s.flash s.flash.fwB = true → s.flash.fwA.svn < s.flash.fwB.svn → copy = 1) := by
  unfold stage1Run
  dsimp only
  split
  · next a =>
    refine ⟨0, bootFrom_booted .., fun _ _ => rfl, fun b later => ?_⟩
    simp [b, Nat.not_le.2 later] at a
  · next notA =>
    have b : fwOk s.flash s.flash.fwB = true := by
      rcases ok with a | b
      · simp only [a, Bool.true_and, Bool.or_eq_true, decide_eq_true_eq, Bool.not_eq_true', not_or, Bool.not_eq_false] at notA
        exact notA.2
      · exact b
    rw [if_pos b]
    refine ⟨1, bootFrom_booted .., fun a older => ?_, fun _ _ => rfl⟩
    simp [a, older] at notA

section
variable {s : State} (alive : s.alive = true) (unbooted : s.boot.rooted = false) (stage : s.inStage 1 = true)
include alive unbooted stage

theorem stage1_eq (ms : Nat) : s.stage1 ms = if budgetOf 1 < ms then ((s.startStage 1).setMs 1 ms).stopStage 1 stBudget Err.timeout
    else ((s.startStage 1).setMs 1 ms).stage1Run := by
  unfold stage1
  rw [alive, unbooted, stage, if_neg (by simp)]

/-- Within its budget stage 1 boots. -/
theorem stage1_boots {ms : Nat} (within : ms ≤ 150) (ok : fwOk s.flash s.flash.fwA = true ∨ fwOk s.flash s.flash.fwB = true) :
    ∃ copy, Booted s copy (s.stage1 ms) ∧ (fwOk s.flash s.flash.fwA = true → s.flash.fwB.svn ≤ s.flash.fwA.svn → copy = 0) ∧
      (fwOk s.flash s.flash.fwB = true → s.flash.fwA.svn < s.flash.fwB.svn → copy = 1) := by
  rw [stage1_eq alive unbooted stage, if_neg (show ¬ budgetOf 1 < ms from Nat.not_lt.2 within)]
  obtain ⟨w, begun⟩ := s.startStage_eq 1
  obtain ⟨v, timed⟩ := ({ s with rootstock := w } : State).setMs_eq 1 ms
  rw [begun, timed]
  obtain ⟨copy, booted, newer⟩ := stage1Run_boots (s := { s with rootstock := v }) ok
  exact ⟨copy, ⟨booted.devState, booted.stage, booted.rooted, booted.clock, booted.draws, booted.sealing, booted.copy, booted.flash, booted.i3c⟩,
    newer⟩

end

/-! ## Recovery (R488) -/

/-- A load that verifies takes the place of a failed copy and is booted from. -/
theorem recoveryEnd_boots {s : State} {fw : Firmware} (recovering : s.recovering = true) (loaded : s.i3c.recovery.isSome = true)
    (ok : fwOk s.flash fw = true) : ∃ flash copy, (flash.fwA = fw ∨ flash.fwB = fw) ∧
      Booted { s with i3c := { s.i3c with recovery := none }, flash := flash } copy (s.recoveryEnd fw) := by
  have held : s.i3c.recovery.isNone = false := by simpa [Option.isSome_iff_ne_none] using loaded
  unfold recoveryEnd
  rw [recovering, held]
  dsimp only
  rw [if_neg (by decide), if_neg (by simp [ok])]
  split
  · exact ⟨{ s.flash with fwB := fw }, 1, .inr rfl, bootFrom_booted ..⟩
  · exact ⟨{ s.flash with fwA := fw }, 0, .inl rfl, bootFrom_booted ..⟩

end State
end Sys2Proof.Machine

/-!
PROOFS. Sites, numbers and grade: what the roles and numbers of tile sites leave, and how stage 5 ends (R467 to R471).
-/
namespace Sys2Proof.Machine
namespace State

/-! ## Roles and numbers (R469, R470) -/

/-- The state with its sites, tiles and partitions erased. -/
def unsited (s : State) : State := { s with sites := [], tiles := [], parts := [] }

theorem unsited_setSite (s : State) (p x : Nat) (a : Site) : (s.setSite p x a).unsited = s.unsited := by
  unfold unsited setSite; rfl

theorem unsited_setSiteRole (s : State) (p x role t : Nat) : (s.setSiteRole p x role t).unsited = s.unsited := unsited_setSite ..

theorem unsited_onTile (s : State) (tl : TileRef) (f : Tile → Tile) : (s.onTile tl f).unsited = s.unsited := by
  unfold unsited onTile setTile; rfl

theorem unsited_onPart (s : State) (p : Nat) (f : Part → Part) : (s.onPart p f).unsited = s.unsited := by
  unfold unsited onPart setPart; rfl

theorem unsited_roleSites (s : State) (p : Nat) : (s.roleSites p).unsited = s.unsited :=
  foldl_leaves unsited _ s fun u x => unsited_setSiteRole u p x _ _

theorem unsited_countYieldFor (s : State) (p n : Nat) : (s.countYieldFor p n).unsited = s.unsited := by
  unfold countYieldFor
  exact unsited_onPart ..

theorem unsited_numberTile (s : State) (p : Nat) (xt : Nat × Nat) : (s.numberTile p xt).unsited = s.unsited :=
  (unsited_onTile (s.setSiteRole p xt.1 0 xt.2) ⟨p, xt.2⟩ _).trans (unsited_setSiteRole ..)

theorem unsited_numberPart (s : State) (p n : Nat) : (s.numberPart p n).unsited = s.unsited :=
  (foldl_leaves unsited _ (s.roleSites p) fun u xt => unsited_numberTile u p xt).trans (unsited_roleSites s p)

theorem unsited_dropTiles (s : State) (n : Nat) : (s.dropTiles n).unsited = s.unsited := by
  unfold unsited dropTiles; rfl

/-- No site holds a number, and YIELD_SUMMARY counts against `n` tiles. -/
theorem unsited_roleAll (s : State) (n : Nat) :
    ((List.range 8).foldl (fun s p => (s.roleSites p).countYieldFor p n) s).unsited = s.unsited :=
  foldl_leaves unsited _ s fun u p => (unsited_countYieldFor ..).trans (unsited_roleSites u p)

theorem unsited_numberParts (s : State) (n : Nat) :
    ((List.range 8).foldl (fun s p => (s.numberPart p n).countYieldFor p n) s).unsited = s.unsited :=
  foldl_leaves unsited _ s fun u p => (unsited_countYieldFor ..).trans (unsited_numberPart u p n)

/-! ## The end of stage 5 (R470, R471) -/

/-- LICENCE_STATUS is all that is brought up to date. -/
theorem refreshLicence_eq (s : State) : ∃ w, s.refreshLicence = { s with rootstock := { s.rootstock with lic := w } } := ⟨_, rfl⟩

theorem unapply_eq (s : State) : ∃ w c, s.unapply = { s with
    dev := { s.dev with caps := c }, boot := { s.boot with applied := none }, rootstock := { s.rootstock with lic := w } } := by
  unfold unapply
  obtain ⟨w, e⟩ := refreshLicence_eq
    { s with dev := { s.dev with caps := setF s.dev.caps devCaps_tiles 0 }, boot := { s.boot with applied := none } }
  rw [e]
  exact ⟨w, _, rfl⟩

/-- DEV_CAPS as a licence grants it (R471). -/
def grantedCaps (s : State) (l : Lic) : Word :=
  setF (setF (setF s.dev.caps devCaps_tiles (licTiles l)) devCaps_feat l.features) devCaps_portsEnabled (min l.ports s.portsPresent)

/-- The state with a licence applied, before ports train. -/
def granted (s : State) (l : Lic) : State :=
  { s with
    dev := { s.dev with caps := s.grantedCaps l }
    boot := { s.boot with applied := some l }
    sec := { s.sec with mode := setF s.sec.mode secMode_licIssue l.issue } }

theorem tiles_grantedCaps (s : State) (l : Lic) : getF (s.grantedCaps l) devCaps_tiles = licTiles l := by
  have grade : licTiles l % 2 ^ 8 = licTiles l := Nat.mod_eq_of_lt (by unfold licTiles; split <;> decide)
  unfold grantedCaps
  rw [getF_setF_beside (by decide), getF_setF_beside (by decide)]
  exact (getF_setF (f := devCaps_tiles) _ ⟨by decide, by decide⟩ _).trans grade

/-- A licence applied moves ports and shows in LICENCE_STATUS. -/
theorem applyLicence_staged (s : State) (l : Lic) :
    ∃ w, Staged { s.granted l with rootstock := { s.rootstock with lic := w } } (s.applyLicence l) := by
  obtain ⟨w, e⟩ := (s.granted l).refreshLicence_eq
  have moved := reholdPorts_staged (s.granted l).refreshLicence
  rw [e] at moved
  refine ⟨w, ?_⟩
  rw [show s.applyLicence l = (s.granted l).refreshLicence.reholdPorts from rfl, e]
  exact moved

/-- BOOT_STATUS and BOOT_STAGE as stage 5 ends. -/
def endShown (s : State) (code err : Nat) : State :=
  { s with rootstock := { s.rootstock with
    status := setF (setF s.rootstock.status bootStatus_st5 code) bootStatus_err err
    stage := setF s.rootstock.stage bootStage_stage (if err = Err.ok then 6 else 0xf) } }

theorem endStage5_steps (s : State) (code err : Nat) :
    s.endStage5 code err = ((s.endShown code err).errRecord err Src.boot).toState (if err = Err.ok then DS.ready else DS.linked) := rfl

/-- Stage 5 ends in the device state of its result. -/
theorem devState_endStage5 (s : State) (code err : Nat) :
    (s.endStage5 code err).devState = if err = Err.ok then DS.ready else DS.linked := by
  rw [endStage5_steps]
  exact devState_toState _ _ (by split <;> decide)

/-- What a change of the device state leaves. -/
theorem toState_stands (s : State) (d : Nat) : (s.toState d).rootstock = s.rootstock ∧ (s.toState d).boot = s.boot ∧
    (s.toState d).dev.caps = s.dev.caps ∧ (s.toState d).dev.errLast = s.dev.errLast := by
  obtain ⟨w, e⟩ : ∃ w, s.toState d = { s with dev := { s.dev with state := w } } := by unfold toState; exact ⟨_, rfl⟩
  rw [e]
  exact ⟨rfl, rfl, rfl, rfl⟩

theorem status_endShown (s : State) (code err : Nat) :
    (s.endShown code err).rootstock.status = setF (setF s.rootstock.status bootStatus_st5 code) bootStatus_err err := by
  unfold endShown
  rfl

theorem status_endStage5 (s : State) (code err : Nat) : getF (s.endStage5 code err).rootstock.status bootStatus_st5 = code % 256 := by
  rw [endStage5_steps, (toState_stands ..).1, (errRecord_stands ..).1]
  refine (congrArg (getF · bootStatus_st5) (status_endShown s code err)).trans ?_
  refine (getF_setF_beside (f := bootStatus_err) (by decide) ..).trans ?_
  exact getF_setF (f := bootStatus_st5) _ ⟨by decide, by decide⟩ code

theorem code_endStage5 (s : State) (code : Nat) {err : Nat} (bad : err ≠ Err.ok) :
    getF (s.endStage5 code err).dev.errLast errLast_code = err % 2 ^ 16 := by
  rw [endStage5_steps, (toState_stands ..).2.2.2]
  exact code_errRecord _ bad _

theorem boot_endStage5 (s : State) (code err : Nat) : (s.endStage5 code err).boot = s.boot ∧ (s.endStage5 code err).dev.caps = s.dev.caps := by
  obtain ⟨w, e⟩ := errRecord_eq (s.endShown code err) err Src.boot
  rw [endStage5_steps, (toState_stands ..).2.1, (toState_stands ..).2.2.1, e]
  unfold endShown
  exact ⟨rfl, rfl⟩

/-! ## Numbering all (R469 to R471) -/

section
variable {s : State}

/-- Without a licence nothing is numbered. -/
theorem numberAll_unlicensed (unlicensed : s.goodLicence = none) :
    ∃ u : State, s.numberAll = u.endStage5 st5NoLicence Err.absent := by
  unfold numberAll
  rw [unlicensed]
  exact ⟨_, rfl⟩

theorem applied_unapply (s : State) : s.unapply.boot.applied = none := by
  obtain ⟨w, c, e⟩ := s.unapply_eq
  rw [e]

variable {l : Lic} (licensed : s.goodLicence = some l)
include licensed

/-- A partition short of usable sites leaves the device without a grade. -/
theorem numberAll_short {p : Nat} (hp : p < 8) (short : (s.usableSites p).length < licTiles l) :
    ∃ u : State, s.numberAll = u.endStage5 st5Short Err.yield ∧ u.boot.applied = none := by
  have few : (List.range 8).any (fun p => decide ((s.usableSites p).length < licTiles l)) = true :=
    List.any_eq_true.2 ⟨p, List.mem_range.2 hp, decide_eq_true short⟩
  unfold numberAll
  rw [licensed]
  dsimp only
  rw [if_pos few]
  exact ⟨_, rfl, applied_unapply _⟩

/-- Sites enough in every partition give the grade of the licence. -/
theorem numberAll_enough (enough : ∀ p < 8, licTiles l ≤ (s.usableSites p).length) :
    ∃ u : State, s.numberAll = u.endStage5 st5Passed Err.ok ∧ u.boot.applied = some l ∧ getF u.dev.caps devCaps_tiles = licTiles l := by
  have full : ¬ (List.range 8).any (fun p => decide ((s.usableSites p).length < licTiles l)) = true := by
    intro few
    obtain ⟨p, hp, short⟩ := List.any_eq_true.1 few
    exact absurd (of_decide_eq_true short) (Nat.not_lt.2 (enough p (List.mem_range.1 hp)))
  unfold numberAll
  rw [licensed]
  dsimp only
  rw [if_neg full]
  have kept := unsited_numberParts ((s.dropTiles (licTiles l)).applyLicence l) (licTiles l)
  obtain ⟨w, moved⟩ := (s.dropTiles (licTiles l)).applyLicence_staged l
  refine ⟨_, rfl, ?_, ?_⟩
  · refine (congrArg (fun u : State => u.boot.applied) kept :).trans ?_
    rw [show ((s.dropTiles (licTiles l)).applyLicence l) = _ from moved]
    rfl
  · refine (congrArg (fun u : State => getF u.dev.caps devCaps_tiles) kept :).trans ?_
    change getF ((s.dropTiles (licTiles l)).applyLicence l).dev.caps devCaps_tiles = _
    rw [show ((s.dropTiles (licTiles l)).applyLicence l).dev = _ from moved.stands.1]
    exact tiles_grantedCaps ..

end
end State
end Sys2Proof.Machine

/-!
PROOFS. Reports and what is read of them, licences stored, and debug tokens (R419, R420, R428, R429).
-/
namespace Sys2Proof.Machine
namespace State

/-! ## What stage 5 leaves (R470, R471) -/

/-- The stored licence, the upload buffer of the next one, and the sessions. -/
def lodged (s : State) : Option Lic × Sparse Byte × List Session := (s.flash.licence, s.sec.licBuf, s.sessions)

theorem lodged_staged {s t : State} (h : Staged s t) : t.lodged = s.lodged := by
  unfold Staged setUpAs at h
  rw [h]
  rfl

theorem lodged_unsited {s t : State} (h : t.unsited = s.unsited) : t.lodged = s.lodged := (congrArg lodged h :)

theorem lodged_errRecord (s : State) (code src : Nat) : (s.errRecord code src).lodged = s.lodged := by
  obtain ⟨w, e⟩ := errRecord_eq s code src
  rw [e]
  rfl

theorem lodged_toState (s : State) (k : Nat) : (s.toState k).lodged = s.lodged := by simp [lodged]

theorem lodged_endStage5 (s : State) (code err : Nat) : (s.endStage5 code err).lodged = s.lodged := by
  unfold endStage5
  dsimp only
  rw [lodged_toState, lodged_errRecord]
  simp only [lodged]

theorem lodged_refreshLicence (s : State) : s.refreshLicence.lodged = s.lodged := by
  obtain ⟨w, e⟩ := s.refreshLicence_eq
  rw [e]
  rfl

theorem lodged_unapply (s : State) : s.unapply.lodged = s.lodged := by
  obtain ⟨w, c, e⟩ := s.unapply_eq
  rw [e]
  rfl

theorem lodged_applyLicence (s : State) (l : Lic) : (s.applyLicence l).lodged = s.lodged := by
  obtain ⟨w, moved⟩ := s.applyLicence_staged l
  obtain ⟨c, m, e⟩ : ∃ c m, s.granted l = { s with
      dev := { s.dev with caps := c }, boot := { s.boot with applied := some l }, sec := { s.sec with mode := m } } := ⟨_, _, rfl⟩
  rw [e] at moved
  exact (lodged_staged moved).trans rfl

theorem lodged_advanceFuse (s : State) : s.advanceFuse.lodged = s.lodged := by simp only [lodged, advanceFuse]

theorem lodged_unnumbered (s : State) (n code err : Nat) : ((((List.range 8).foldl (fun s p => (s.roleSites p).countYieldFor p n) s).dropTiles
    0).unapply.endStage5 code err).lodged = s.lodged :=
  (lodged_endStage5 ..).trans ((lodged_unapply _).trans (lodged_unsited ((unsited_dropTiles ..).trans (unsited_roleAll s n))))

/-- A device that numbers its tiles anew keeps its stored licence and its sessions. -/
theorem lodged_numberAll (s : State) : s.numberAll.lodged = s.lodged := by
  unfold numberAll
  split
  · exact lodged_unnumbered ..
  · dsimp only
    split
    · exact lodged_unnumbered ..
    · refine (lodged_endStage5 ..).trans ((lodged_advanceFuse _).trans ?_)
      refine (lodged_unsited (unsited_numberParts ..)).trans ?_
      exact (lodged_applyLicence ..).trans (lodged_unsited (unsited_dropTiles ..))

/-! ## Licences and tokens (R428, R429) -/

theorem uploadCheck_fits {off : Nat} {bs : List Byte} (some : bs ≠ []) (fits : off + bs.length ≤ uploadBytes) :
    uploadCheck off bs = Err.ok := by
  unfold uploadCheck
  rw [if_neg (by simpa using some), if_neg (Nat.not_lt.2 fits)]

/-- A licence that verifies, names this device and is newer is stored. -/
theorem storeLicence_newer {s : State} {l : Lic} (verifies : l.verifies = true) (serial : l.serial = s.flash.serial)
    (newer : ∀ k, s.flash.licence = some k → k.issue < l.issue) :
    ∃ t, s.storeLicence l = (t, Err.ok) ∧ t.lodged = (some l, s.sec.licBuf, s.sessions) := by
  have later : ¬ (s.flash.licence.map (fun x => decide (l.issue ≤ x.issue))).getD false = true := by
    cases e : s.flash.licence with
    | none => simp
    | some k => simpa using newer k e
  unfold storeLicence
  rw [if_neg (by simp [verifies, serial]), if_neg later]
  dsimp only
  refine ⟨_, rfl, ?_⟩
  split
  · exact (lodged_numberAll _).trans (lodged_refreshLicence _)
  · exact lodged_refreshLicence _

theorem storeLicence_fails {s : State} {l : Lic} (bad : l.verifies = false ∨ l.serial ≠ s.flash.serial) :
    s.storeLicence l = (s, Err.auth) := if_pos bad

theorem slots_eraseSlots (s : State) (m : Nat) : (s.eraseSlots m).sec.slots = s.sec.slots.filter (fun y => !m.testBit y.1) := rfl

/-- An accepted token leaves no key (R429). -/
theorem acceptToken_leaves (s : State) : getF s.acceptToken.sec.debugLock debugLock_state = 1 ∧ s.acceptToken.sec.jobKey = none ∧
    s.acceptToken.sec.bootKey = none ∧ s.acceptToken.mem = [] ∧ (∀ k ∈ s.acceptToken.sec.slots, 16 ≤ k.1) ∧
    s.acceptToken.sessions = s.sessions := by
  refine ⟨(getF_setF (f := debugLock_state) _ ⟨by decide, by decide⟩ 1).trans rfl, rfl, rfl, rfl, fun k hk => ?_, rfl⟩
  have left : k ∈ (s.clearJobKeys.eraseSlots (2 ^ 16 - 1)).sec.slots := hk
  rw [slots_eraseSlots, List.mem_filter, Nat.testBit_two_pow_sub_one] at left
  simpa using left.2

theorem takeToken_accepts {s : State} {n : Nat} (ready : s.devState = DS.ready) (unlocked : s.sec.relocked = false)
    (latest : s.sec.report.map (·.nonce) = some n) : s.takeToken n true = (s.acceptToken, Err.ok) := by
  unfold takeToken
  rw [if_neg (not_not.2 ready), if_neg (by simp [unlocked, latest])]

theorem takeToken_elsewhere {s : State} (elsewhere : s.devState ≠ DS.ready) (n : Nat) (ok : Bool) : s.takeToken n ok = (s, Err.state) :=
  if_pos elsewhere

theorem takeToken_fails {s : State} {ok : Bool} (ready : s.devState = DS.ready) (bad : ok = false ∨ s.sec.relocked = true) (n : Nat) :
    s.takeToken n ok = (s, Err.auth) := by
  unfold takeToken
  rw [if_neg (not_not.2 ready), if_pos (bad.elim .inl (.inr ∘ .inl))]

/-! ## Reports (R420) -/

theorem heldCheck_fits {s : State} {n c off : Nat} (some : c ≠ 0) (within : off + c ≤ n) (fits : s.fitsReply c = true) :
    s.heldCheck n c off = Err.ok := by
  unfold heldCheck
  rw [if_neg some, if_neg (Nat.not_lt.2 within), fits]
  rfl

end State

/-! ## Messages of session 0 or an open session (R395) -/

namespace Turn
variable {s t : State} {h : DctHdr} {x : Session}

theorem zeroOrOpen_answers (ht : Turn s h x) {c : Instr} {check : Nat} {run : State → State × Option Ans} {a : Ans}
    (good : check = Err.ok) (runs : run (heard s x) = (t, some a)) :
    s.dct h c .zeroOrOpen true check Src.security run = t.answer h.session h.seq a Src.security :=
  ht.toNextOf.dct_answers (g := .zeroOrOpen) ht.isOpen rfl good runs

/-- The sessions being as they were heard, the answer is the last message sent and the session awaits the next one. -/
theorem answered (ht : Turn s h x) (kept : t.sessions = (heard s x).sessions) (a : Ans) :
    Answered (t.answer h.session h.seq a Src.security) h a.status := by
  refine State.answered_answer ?_ a _
  unfold State.session
  rw [kept]
  exact ht.isSome_heard

/-- What an answer leaves of keys, flash and HBM. -/
theorem answer_stands (t : State) (n q : Nat) (a : Ans) (src : Nat) : (t.answer n q a src).sec = t.sec ∧
    (t.answer n q a src).flash = t.flash ∧ (t.answer n q a src).mem = t.mem := by
  obtain ⟨ss, rs, w, e⟩ := t.answer_eq n q a src
  rw [e]
  exact ⟨rfl, rfl, rfl⟩

/-- A read of held bytes that fits is answered with them. -/
theorem readHeld_answers (ht : Turn s h x) {c : Instr} {check : Nat} (good : check = Err.ok) {held : State → List Byte} (count off : Nat) :
    ∃ t, s.dct h c .zeroOrOpen true check Src.security (fun s => s.readHeld (held s) count off) = t ∧ OnlyReplied s t ∧
      Replied t h [] (((held (heard s x)).drop off).take count) :=
  ⟨_, ht.zeroOrOpen_answers good rfl, (ht.onlyAnswered ..).2, State.replied_answer _ h rfl _⟩

section
variable (ht : Turn s h x) {off : Nat} {bs : List Byte} (some : bs ≠ []) (fits : off + bs.length ≤ uploadBytes)
include ht some fits

theorem licence_adds (more : h.final = false) (l : Lic) :
    s.licence h off bs l = ({ heard s x with sec := { s.sec with licBuf := Memory.writeN s.sec.licBuf off bs } } : State).answer h.session h.seq
      (s.keyReply h.session) Src.security :=
  ht.zeroOrOpen_answers (State.uploadCheck_fits some fits) (by dsimp only; rw [more]; rfl)

/-- The final part of a licence is stored or fails, its buffer emptied. -/
theorem licence_ends (last : h.final = true) {l : Lic} {e : Nat}
    (stores : ({ heard s x with sec := { s.sec with licBuf := [] } } : State).storeLicence l = (t, e)) {a : Ans} (ans : t.keyAns h e = .some a) :
    s.licence h off bs l = t.answer h.session h.seq a Src.security := by
  refine ht.zeroOrOpen_answers (State.uploadCheck_fits some fits) ?_
  dsimp only
  rw [last, if_pos rfl]
  exact (congrArg (fun r : State × Nat => (r.1, r.1.keyAns h r.2)) stores).trans (congrArg _ ans)

theorem debugToken_ends (last : h.final = true) {n e : Nat} {ok : Bool}
    (takes : ({ heard s x with sec := { s.sec with tokBuf := [] } } : State).takeToken n ok = (t, e)) {a : Ans} (ans : t.keyAns h e = .some a) :
    s.debugToken h off bs n ok = t.answer h.session h.seq a Src.security := by
  refine ht.zeroOrOpen_answers (State.uploadCheck_fits some fits) ?_
  dsimp only
  rw [last, if_pos rfl]
  exact (congrArg (fun r : State × Nat => (r.1, r.1.keyAns h r.2)) takes).trans (congrArg _ ans)

end
end Turn

open State in
/-- Settles O41: reports and reads are answered from what the device holds, a licence is stored through the stage 5 that it ends, a token
erases every key. -/
theorem security : Obligations.Security := by
  unfold Obligations.Security
  intro s h x ht
  refine ⟨fun n => ?report, fun r c off held some within fits => ?bytes, fun c off none some => ?absent,
    fun c off some within fits => ?chain, fun off bs l some fits => ⟨fun more => ?part, fun last verifies serial newer => ?stored, fun last bad => ?unverified⟩,
    fun off bs n ok some fits last => ⟨fun ready signed unlocked latest => ?token, fun elsewhere => ?elsewhere, fun ready bad => ?untrusted⟩⟩
  case report =>
    have own : (((heard s x).session h.session).map (·.t)).getD 0 = x.t := by rw [ht.session_heard]; rfl
    have run : s.attestReport h n = _ := ht.zeroOrOpen_answers rfl rfl
    rw [own] at run
    refine ⟨_, congrArg Host.Outcome.next run, ht.answered (by rfl) _, ?_, replied_answer _ h rfl _⟩
    rw [(Turn.answer_stands ..).1]
    rfl
  case bytes =>
    have good : (if c ≠ 0 ∧ s.sec.report = none then Err.absent else s.heldCheck (reportBytes + sigBytes) c off) = Err.ok := by
      rw [if_neg (by simp [held]), heldCheck_fits some within fits]
    obtain ⟨t, run, only, replied⟩ := ht.readHeld_answers (c := .attestReadReport h c off) good
      (held := fun s => ((s.sec.report.map (fun r => r.bytes ++ secretBytes (2000000 + r.nonce) r.sigLen))).getD []) c off
    refine ⟨t, congrArg Host.Outcome.next run, only, ?_⟩
    have same : (heard s x).sec.report = .some r := held
    rwa [same] at replied
  case absent =>
    have run : s.attestReadReport h c off = _ := ht.toNextOf.dct_fails (g := .zeroOrOpen) ht.isOpen rfl
      (by rw [if_pos ⟨some, none⟩]; decide)
    rw [if_pos ⟨some, none⟩] at run
    exact ⟨_, congrArg Host.Outcome.next run, ht.onlyAnswered _ _⟩
  case chain =>
    obtain ⟨t, run, only, replied⟩ := ht.readHeld_answers (c := .attestReadChain h c off) (heldCheck_fits some within fits)
      (held := fun _ => secretBytes 5 chainBytes) c off
    exact ⟨t, congrArg Host.Outcome.next run, only, replied⟩
  case part =>
    exact ⟨_, congrArg Host.Outcome.next (ht.licence_adds some fits more l), ht.answered (by rfl) _, (Turn.answer_stands ..).1, (Turn.answer_stands ..).2.1⟩
  case stored =>
    obtain ⟨t, stores, lodged⟩ := storeLicence_newer (s := { heard s x with sec := { s.sec with licBuf := [] } }) verifies serial newer
    obtain ⟨licence, buffer, sessions⟩ : t.flash.licence = .some l ∧ t.sec.licBuf = [] ∧ t.sessions = (heard s x).sessions := by
      simpa [State.lodged] using lodged
    obtain ⟨sec, flash, -⟩ := Turn.answer_stands t h.session h.seq (t.keyReply h.session) Src.security
    exact ⟨_, congrArg Host.Outcome.next (ht.licence_ends some fits last stores rfl), ht.answered sessions _,
      (congrArg Flash.licence flash).trans licence, (congrArg SecRegs.licBuf sec).trans buffer⟩
  case unverified =>
    have fails := storeLicence_fails (s := { heard s x with sec := { s.sec with licBuf := [] } }) bad
    exact ⟨_, congrArg Host.Outcome.next (ht.licence_ends some fits last fails rfl), ht.answered (by rfl) _, (Turn.answer_stands ..).2.1⟩
  case token =>
    subst signed
    have takes := takeToken_accepts (s := { heard s x with sec := { s.sec with tokBuf := [] } }) ready unlocked latest
    obtain ⟨lock, job, boot, mem, slots, sessions⟩ := acceptToken_leaves { heard s x with sec := { s.sec with tokBuf := [] } }
    refine ⟨_, congrArg Host.Outcome.next (ht.debugToken_ends some fits last takes rfl), ht.answered sessions _, ?_⟩
    rw [(Turn.answer_stands ..).1, (Turn.answer_stands ..).2.2]
    exact ⟨lock, job, boot, mem, slots⟩
  case elsewhere =>
    have takes := takeToken_elsewhere (s := { heard s x with sec := { s.sec with tokBuf := [] } }) elsewhere n ok
    exact ⟨_, congrArg Host.Outcome.next (ht.debugToken_ends some fits last takes rfl), ht.answered (by rfl) _, (Turn.answer_stands ..).1⟩
  case untrusted =>
    have takes := takeToken_fails (s := { heard s x with sec := { s.sec with tokBuf := [] } }) ready bad n
    exact ⟨_, congrArg Host.Outcome.next (ht.debugToken_ends some fits last takes rfl), ht.answered (by rfl) _, (Turn.answer_stands ..).1⟩

end Sys2Proof.Machine

/-!
PROOFS. WRAPPED, ERASE and the sealing pair (R421 to R423).
-/
namespace Sys2Proof.Machine
namespace State

/-- A slot loaded replaces what it held. -/
theorem loadSlot_leaves (s : State) (k : Nat) (x : KeySlot) :
    (s.loadSlot k x).sec.slots = (k, x) :: s.sec.slots.filter (fun y => y.1 != k) ∧ (s.loadSlot k x).sessions = s.sessions ∧
      (s.loadSlot k x).sec = { s.sec with slots := (s.loadSlot k x).sec.slots, slotStatus := (s.loadSlot k x).sec.slotStatus } := by
  unfold loadSlot refreshKeys
  exact ⟨rfl, rfl, rfl⟩

theorem sessions_eraseSlots (s : State) (m : Nat) : (s.eraseSlots m).sessions = s.sessions := by
  unfold eraseSlots refreshKeys
  rfl

/-- Within a running step the operation waits for the boundary. -/
theorem keyOrLater_running {s : State} (running : s.devState = DS.running) (h : DctHdr) (m : Nat) (x : Option KeySlot) :
    s.keyOrLater h m x = ({ s with sec := { s.sec with
      deferred := { mask := m, load := x, session := h.session, seq := h.seq } :: s.sec.deferred } }, none) := if_pos running

theorem keyOrLater_loads {s : State} (elsewhere : s.devState ≠ DS.running) (h : DctHdr) (k : Nat) (x : KeySlot) :
    s.keyOrLater h (2 ^ k) (some x) = (s.loadSlot k x, some ((s.loadSlot k x).keyReply h.session)) := by
  unfold keyOrLater
  rw [if_neg elsewhere, Nat.log2_two_pow]

theorem keyOrLater_erases {s : State} (elsewhere : s.devState ≠ DS.running) (h : DctHdr) (m : Nat) :
    s.keyOrLater h m none = (s.eraseSlots m, some ((s.eraseSlots m).keyReply h.session)) := by
  unfold keyOrLater
  rw [if_neg elsewhere]

/-- The mask of a renewal names the slots 1 to 15. -/
theorem testBit_renewed (n : Nat) : (0xfffe : Nat).testBit n = (decide (1 ≤ n) && decide (n ≤ 15)) := by
  by_cases small : n < 16
  · revert n
    decide
  · have beyond : (0xfffe : Nat) < 2 ^ n := Nat.lt_of_lt_of_le (by decide) (Nat.pow_le_pow_right (n := 2) (by decide) (Nat.not_lt.1 small))
    rw [Nat.testBit_lt_two_pow beyond, decide_eq_false (p := n ≤ 15) (by omega), Bool.and_false]

end State

namespace Turn
variable {s t : State} {h : DctHdr} {x : Session} (ht : Turn s h x)
include ht

theorem wrapped_runs {w : WrapIn} (slot : w.slot ≤ 15) (unwraps : w.unwraps = true) (sealing : w.sealGen = s.sec.sealGen) {a : Ans}
    (runs : (heard s x).keyOrLater h (2 ^ w.slot) (some { keyId := w.keyId, key := w.key }) = (t, some a)) :
    s.wrapped h w = t.answer h.session h.seq a Src.security :=
  ht.dct_runs rfl (if_neg (Nat.not_lt.2 slot)) ((if_neg (by simp [unwraps, sealing, heard, State.onSession])).trans runs)

theorem wrapped_waits {w : WrapIn} (slot : w.slot ≤ 15) (unwraps : w.unwraps = true) (sealing : w.sealGen = s.sec.sealGen)
    (runs : (heard s x).keyOrLater h (2 ^ w.slot) (some { keyId := w.keyId, key := w.key }) = (t, none)) :
    s.wrapped h w = t.onSession h.session (fun y => { y with executing := true }) :=
  ht.toNextOf.dct_waits (g := .opened) ht.isOpen rfl (if_neg (Nat.not_lt.2 slot))
    ((if_neg (by simp [unwraps, sealing, heard, State.onSession])).trans runs)

end Turn

open State in
/-- Settles O40: a key is loaded or waits, slots are erased or the stream keeps slot 0, and each entry to ROOTED and each renewal draws
a pair that no earlier one was. -/
theorem keySlots : Obligations.KeySlots := by
  unfold Obligations.KeySlots
  intro s
  refine ⟨fun h x ht => ⟨fun w slot unwraps sealing => ⟨fun elsewhere => ?loads, fun running => ?waits⟩, fun w slot bad => ?unsealed,
      fun w beyond => ?beyond, fun m free elsewhere => ?erases, fun m zero streaming => ?streams⟩,
    fun ms alive unbooted stage within ok => ?boots, fun fw recovering loaded verifies newer => ?recovers, fun who v accepted => ?renews⟩
  case loads =>
    have run := ht.wrapped_runs slot unwraps sealing
      (keyOrLater_loads (s := heard s x) elsewhere h w.slot { keyId := w.keyId, key := w.key })
    obtain ⟨slots, sessions, rest⟩ := (heard s x).loadSlot_leaves w.slot { keyId := w.keyId, key := w.key }
    refine ⟨_, congrArg Host.Outcome.next run, ht.answered sessions _, ?_, ?_⟩
    · rw [(Turn.answer_stands ..).1]
      exact slots
    · rw [(Turn.answer_stands ..).1]
      exact rest
  case waits =>
    have run := ht.wrapped_waits slot unwraps sealing
      (keyOrLater_running (s := heard s x) running h (2 ^ w.slot) (some { keyId := w.keyId, key := w.key }))
    refine ⟨_, congrArg Host.Outcome.next run, rfl, rfl, ?_⟩
    have executing := session_onSession (f := fun y => { y with executing := true }) (fun _ => rfl) ht.session_heard
    exact congrArg (Option.map Session.executing) executing
  case unsealed =>
    have run : s.wrapped h w = _ := ht.dct_runs rfl (if_neg (Nat.not_lt.2 slot)) (if_pos bad)
    exact ⟨_, congrArg Host.Outcome.next run, ht.onlyAnswered _ _⟩
  case beyond =>
    have run : s.wrapped h w = _ := ht.dct_failing rfl (by rw [if_pos beyond]; decide)
    rw [if_pos beyond] at run
    exact ⟨_, congrArg Host.Outcome.next run, ht.onlyAnswered _ _⟩
  case erases =>
    have idle : ¬ (m % 2 = 1 ∧ (heard s x).streaming = true) := by
      rintro ⟨one, streaming⟩
      rcases free with even | still
      · omega
      · exact Bool.false_ne_true (still.symm.trans streaming)
    have run : s.erase h m = _ := ht.dct_runs rfl rfl
      ((if_neg idle).trans (keyOrLater_erases (s := heard s x) elsewhere h (m % 65536)))
    refine ⟨_, congrArg Host.Outcome.next run, ht.answered (sessions_eraseSlots ..) _, ?_⟩
    rw [(Turn.answer_stands ..).1]
    exact slots_eraseSlots ..
  case streams =>
    have run : s.erase h m = _ := ht.dct_runs rfl rfl (if_pos ⟨zero, streaming⟩)
    exact ⟨_, congrArg Host.Outcome.next run, ht.onlyAnswered _ _⟩
  case boots =>
    obtain ⟨copy, booted, -⟩ := stage1_boots alive unbooted stage within ok
    refine ⟨_, rfl, booted.devState, ?_, ?_⟩
    · rw [booted.sealing]; omega
    · rw [booted.sealing, booted.draws]; omega
  case recovers =>
    obtain ⟨flash, copy, -, booted⟩ := recoveryEnd_boots recovering loaded (fw := fw) (by simp [fwOk, verifies, newer])
    refine ⟨_, rfl, booted.devState, ?_, ?_⟩
    · rw [booted.sealing]; exact Nat.le_succ _
    · rw [booted.sealing, booted.draws]; exact Nat.lt_succ_self _
  case renews =>
    obtain ⟨m, -, e⟩ := exec_accepted rfl accepted
    obtain ⟨sealing, draws, slots⟩ := writeDone_sealRenew s who 0x00040008 (setF v attestCtl_sealRenew 1) m (BitVec.allOnes 64)
    refine ⟨_, e, ?_, ?_, slots.trans ?_⟩
    · rw [sealing]
    · rw [sealing, draws]; exact Nat.lt_succ_self _
    · simp only [testBit_renewed]

end Sys2Proof.Machine

/-!
PROOFS. A port that becomes ACTIVE (R370, R379), and ports that no turn of a walk but their own touches.
-/
namespace Sys2Proof.Machine

/-- A port as it becomes ACTIVE under keys of the draw `gen`. -/
def activated (p : Port) (gen : Nat) : Port :=
  let q := atState p LS.active
  { q with
    status := setF q.status lnkStatus_width (dataLanes p).length
    keyGen := gen, txc := (p.retry.zipIdx.filter (fun x => x.2 % 4 == 0)).length, kaMissed := 0, naks := 0, squelchSeen := false
    downAt := none, asked := false }

theorem linkSt_activated (p : Port) (gen : Nat) : linkSt (activated p gen) = LS.active :=
  (getF_setF_beside (by decide) _ _).trans (linkSt_atState p (by decide))

theorem activeSt_activated (p : Port) (gen : Nat) : activeSt (activated p gen) = true := by
  unfold activeSt
  rw [linkSt_activated]
  rfl

/-- An ACTIVE port has no cause of its being down. -/
theorem downCause_activated (p : Port) (gen : Nat) : getF (activated p gen).status lnkStatus_downCause = 0 := by
  have cleared : getF (atState p LS.active).status lnkStatus_downCause = 0 := by
    unfold atState
    dsimp only
    rw [if_pos rfl, if_pos (.inl rfl)]
    exact (getF_setF (f := lnkStatus_downCause) _ ⟨by decide, by decide⟩ 0)
  exact (getF_setF_beside (by decide) _ _).trans cleared

namespace State

/-- A port becomes ACTIVE: its keys are drawn, its retry buffer is sent again, the time parent is chosen. -/
theorem toActive_eq (s : State) (n : Nat) : ∃ out w, s.toActive n =
    { s.setPort n (activated (s.port n) s.sec.draws) with
      sec := { s.sec with draws := s.sec.draws + 1 }, out := out, time := { s.time with syncStatus := w } } := by
  unfold toActive
  dsimp only
  obtain ⟨w, chosen⟩ := (((s.draw).setPort n (activated (s.port n) s.sec.draws)).sendAll ((((s.port n).retry.zipIdx.filter
    (fun x => x.2 % 4 == 0)).map (·.1)).zipIdx.map (fun x => Msg.bundle n x.1 x.2))).chooseParent_eq
  obtain ⟨out, sent⟩ := ((s.draw).setPort n (activated (s.port n) s.sec.draws)).sendAll_eq ((((s.port n).retry.zipIdx.filter
    (fun x => x.2 % 4 == 0)).map (·.1)).zipIdx.map (fun x => Msg.bundle n x.1 x.2))
  refine ⟨out, w, ?_⟩
  unfold activated at chosen sent
  rw [sent] at chosen
  rw [List.length_map, sent]
  exact chosen

theorem port_toActive_same (s : State) (n : Nat) : (s.toActive n).port n = activated (s.port n) s.sec.draws := by
  obtain ⟨out, w, e⟩ := s.toActive_eq n
  rw [e]
  exact port_setPort_same ..

theorem port_toActive_other (s : State) {n k : Nat} (other : k ≠ n) : (s.toActive n).port k = s.port k := by
  obtain ⟨out, w, e⟩ := s.toActive_eq n
  rw [e]
  exact port_setPort_other s _ other

theorem portActive_toActive (s : State) (n : Nat) : (s.toActive n).portActive n = true := by
  unfold portActive
  rw [port_toActive_same]
  exact activeSt_activated ..

theorem flash_toActive (s : State) (n : Nat) : (s.toActive n).flash = s.flash := by
  obtain ⟨out, w, e⟩ := s.toActive_eq n
  rw [e]
  exact setPort_flash s n (activated (s.port n) s.sec.draws)

end State
end Sys2Proof.Machine

/-!
PROOFS. Power up and down, the stages of bring-up, their budgets, and recovery (R461 to R474, R478, R481, R488).
-/
namespace Sys2Proof.Machine
namespace State

/-! ## Power signals (R478, R481, R482) -/

/-- The module comes out of reset at stage 1 with FAULT_N released. -/
theorem restart_eq (s : State) : ∃ w, getF w.stage bootStage_stage = 1 ∧
    s.restart = { s with pins := { s.pins with faultN := true, refclkDead := false }, rootstock := w } := by
  obtain ⟨w, e⟩ := ({ s with pins := { s.pins with faultN := true, refclkDead := false } } : State).startStage_eq 1
  have shown := stageNow_startStage { s with pins := { s.pins with faultN := true, refclkDead := false } } (k := 1) (by decide)
  rw [e] at shown
  exact ⟨w, shown, e⟩

/-- A power cycle loses what is volatile (R447, R475). -/
theorem powerCycle_leaves (s : State) : s.powerCycle.mem = [] ∧ s.powerCycle.tiles = [] ∧ s.powerCycle.dev = State.reset.dev ∧
    s.powerCycle.flash.fwA = s.flash.fwA ∧ s.powerCycle.flash.licence = s.flash.licence ∧ s.powerCycle.pins.railsOn = s.pins.railsOn := by
  unfold powerCycle
  exact ⟨rfl, rfl, rfl, rfl, rfl, rfl⟩

theorem powerUp_rises {s : State} (off : s.pins.pwrEn = false) : s.powerUp =
    if s.pins.resetN then ({ s with pins := { s.pins with pwrEn := true, railsOn := true, pwrGood := true } } : State).restart
    else { s with pins := { s.pins with pwrEn := true, railsOn := true, pwrGood := true } } := by
  unfold powerUp
  rw [if_neg (by simp [off])]

theorem resetHigh_rises {s : State} (low : s.pins.resetN = false) : s.resetHigh =
    if s.pins.railsOn then ({ s with pins := { s.pins with resetN := true } } : State).restart
    else { s with pins := { s.pins with resetN := true } } := by
  unfold resetHigh
  rw [if_neg (by simp [low])]

/-! ## Stage 1 that fails (R463) -/

section
variable {s : State} (alive : s.alive = true) (unbooted : s.boot.rooted = false) (stage : s.inStage 1 = true) {ms : Nat}
include alive unbooted stage

/-- With neither copy accepted stage 1 stops with ERR_AUTH. -/
theorem stage1_fails (within : ms ≤ 150) (a : fwOk s.flash s.flash.fwA = false) (b : fwOk s.flash s.flash.fwB = false) :
    ∃ code, Stopped s 1 code Err.auth (s.stage1 ms) := by
  obtain ⟨w, begun⟩ := s.startStage_eq 1
  obtain ⟨v, timed⟩ := ({ s with rootstock := w } : State).setMs_eq 1 ms
  rw [stage1_eq alive unbooted stage, if_neg (show ¬ budgetOf 1 < ms from Nat.not_lt.2 within), begun, timed]
  unfold stage1Run
  dsimp only
  rw [a, b, Bool.false_and, if_neg Bool.false_ne_true, if_neg Bool.false_ne_true]
  have stopped := stopStage_stopped { s with rootstock := v } (k := 1)
    (code := if (s.flash.fwA.verifies || s.flash.fwB.verifies) = true then 0x11 else 0x10) (err := Err.auth) (by decide)
    (by split <;> decide) (by decide) (by decide)
  exact ⟨_, stopped.stage, stopped.status, stopped.error, stopped.fault, stopped.devState⟩

theorem stage1_late (late : 150 < ms) : Stopped s 1 0x7f Err.timeout (s.stage1 ms) := by
  obtain ⟨w, begun⟩ := s.startStage_eq 1
  obtain ⟨v, timed⟩ := ({ s with rootstock := w } : State).setMs_eq 1 ms
  rw [stage1_eq alive unbooted stage, if_pos (show budgetOf 1 < ms from late), begun, timed]
  have stopped := stopStage_stopped { s with rootstock := v } (k := 1) (code := 0x7f) (err := Err.timeout) (by decide) (by decide) (by decide) (by decide)
  exact ⟨stopped.stage, stopped.status, stopped.error, stopped.fault, stopped.devState⟩

end

/-! ## Stages 2 and 3 (R465, R466) -/

/-- DEV_CAPS as stage 2 identifies the port dies that answered. -/
def identifiedCaps (s : State) (dies : List Nat) : Word :=
  setF (setF (setF (setF s.dev.caps devCaps_pdiesFused s.flash.pdies) devCaps_pdiesPresent dies.length)
    devCaps_portsPresent (9 * dies.length)) devCaps_stacksFused s.flash.memStacks

theorem caps_identify (s : State) (dies : List Nat) : (s.identify dies).dev.caps = s.identifiedCaps dies := by
  obtain ⟨c, b, l, e⟩ : ∃ (c : Word) (b : Boot) (l : List Nat), c = s.identifiedCaps dies ∧ s.identify dies = l.foldl (fun s n =>
      s.onPort n (fun p => { p with dieLost := true, status := setF p.status lnkStatus_downCause 8 }))
        ({ s with dev := { s.dev with caps := c }, boot := b } : State) := ⟨_, _, _, rfl, rfl⟩
  rw [e.2, foldl_leaves State.dev l _ fun u n => onPort_dev ..]
  exact e.1

theorem pdiesPresent_identifiedCaps (s : State) (dies : List Nat) :
    getF (s.identifiedCaps dies) devCaps_pdiesPresent = dies.length % 8 := by
  unfold identifiedCaps
  rw [getF_setF_beside (by decide), getF_setF_beside (by decide)]
  exact getF_setF (f := devCaps_pdiesPresent) _ ⟨by decide, by decide⟩ _

theorem caps_passStage (s : State) (k code ds next : Nat) : (s.passStage k code ds next).dev.caps = s.dev.caps := by
  obtain ⟨w, d, e⟩ := s.passStage_eq k code ds next
  rw [e]

/-- What a stage that passes leaves. -/
theorem passStage_stands (s : State) (k code ds next : Nat) : (s.passStage k code ds next).tiles = s.tiles ∧
    (s.passStage k code ds next).flash = s.flash ∧ (s.passStage k code ds next).ports = s.ports := by
  obtain ⟨w, d, e⟩ := s.passStage_eq k code ds next
  rw [e]
  exact ⟨rfl, rfl, rfl⟩

theorem tiles_repairRows (s : State) (rows : List (Nat × Nat)) (left : Nat) : (s.repairRows rows left).tiles = s.tiles := by
  unfold repairRows
  exact foldl_leaves State.tiles _ _ fun u p => foldl_leaves State.tiles _ u fun v k => setStack_tiles ..

theorem tiles_marchFails (s : State) (l : List (Nat × Nat)) : (s.marchFails l).tiles = s.tiles :=
  foldl_leaves State.tiles l s fun _ _ => setSite_tiles ..

section
variable {s : State} {k : Nat} (stage : s.inStage k = true)
include stage

/-- The stage that runs is the one shown. -/
theorem stageNow_of_inStage : s.stageNow = k := by
  unfold inStage at stage
  simp only [Bool.and_eq_true, beq_iff_eq] at stage
  exact stage.1.2

end

/-- A stage that stops once its time is written. -/
theorem setMs_stops (s : State) {k code err : Nat} (ms : Nat) (stage : k ≤ 5) (status : code < 256) (error : err < 2 ^ 16) (bad : err ≠ Err.ok) :
    Stopped s k code err ((s.setMs k ms).stopStage k code err) := by
  obtain ⟨v, timed⟩ := s.setMs_eq k ms
  rw [timed]
  have stopped := stopStage_stopped { s with rootstock := v } stage status error bad
  exact ⟨stopped.stage, stopped.status, stopped.error, stopped.fault, stopped.devState⟩

theorem stage2_passes {s : State} (stage : s.inStage 2 = true) {r : Stage2In} (within : r.ms ≤ 50) (pll : r.pllOk = true)
    (refclk : s.pins.refclkLost = false) (links : r.tileLinksOk = true) (die : r.die0Ok = true) :
    ∃ code, s.stage2 r = ((s.setMs 2 r.ms).identify (s.answered r.dies)).passStage 2 code DS.clocked (if s.flash.retired then 4 else 3) := by
  obtain ⟨v, timed⟩ := s.setMs_eq 2 r.ms
  unfold stage2
  rw [stage, timed]
  dsimp only
  rw [if_neg (by decide), if_neg (show ¬ budgetOf 2 < r.ms from Nat.not_lt.2 within), if_neg (by simp [pll, refclk]), if_neg (by simp [links]),
    if_neg (by simp [die])]
  exact ⟨_, rfl⟩

theorem stage2_unlocked {s : State} (stage : s.inStage 2 = true) {r : Stage2In} (within : r.ms ≤ 50) (pll : r.pllOk = false) :
    s.stage2 r = (s.setMs 2 r.ms).stopStage 2 0x20 Err.timeout := by
  unfold stage2
  rw [stage]
  dsimp only
  rw [if_neg (by decide), if_neg (show ¬ budgetOf 2 < r.ms from Nat.not_lt.2 within), if_pos (by simp [pll])]

theorem stage3_passes {s : State} (stage : s.inStage 3 = true) {r : Stage3In} (within : r.ms ≤ 2000) (answered : r.missingStack = false)
    (phy : r.phyFail = false) (rows : r.unrepairable = false) :
    ∃ u, u.tiles = s.tiles ∧ s.stage3 r = ((repairRows u r.repaired r.hpprLeft).marchFails r.storeFails).passStage 3 stPassed DS.memoryReady 4 := by
  obtain ⟨v, timed⟩ := s.setMs_eq 3 r.ms
  unfold stage3
  rw [stage, timed]
  dsimp only
  rw [if_neg (by decide), if_neg (show ¬ budgetOf 3 < r.ms from Nat.not_lt.2 within), if_neg (by simp [answered]), if_neg (by simp [phy]),
    if_neg (by simp [rows])]
  refine ⟨_, ?_, rfl⟩
  rfl

theorem stage3_missing {s : State} (stage : s.inStage 3 = true) {r : Stage3In} (within : r.ms ≤ 2000) (answered : r.missingStack = true) :
    s.stage3 r = (s.setMs 3 r.ms).stopStage 3 0x30 Err.yield := by
  unfold stage3
  rw [stage]
  dsimp only
  rw [if_neg (by decide), if_neg (show ¬ budgetOf 3 < r.ms from Nat.not_lt.2 within), if_pos answered]

/-! ## Stage 4 (R467, R474) -/

/-- The ports of stage 4 at its end: those that have come up are ACTIVE. -/
def linkPorts (s : State) (ports up : List Nat) : State :=
  ports.foldl (fun s n => if up.contains n then (s.onPort n assignLanes).toActive n else s.onPort n (fun p => atState p LS.detect)) s

theorem flash_linkPorts (s : State) (ports up : List Nat) : (s.linkPorts ports up).flash = s.flash :=
  foldl_leaves State.flash ports s fun u n => by
    split
    · exact (flash_toActive ..).trans (onPort_flash ..)
    · exact onPort_flash ..

/-- The turn of another port leaves a port as it is. -/
theorem portActive_linkPorts (s : State) {ports up : List Nat} {n : Nat} (member : n ∈ ports) (came : n ∈ up) :
    (s.linkPorts ports up).portActive n = true := by
  have known : up.contains n = true := List.contains_iff_mem.2 came
  refine foldl_brings (P := fun u : State => u.portActive n = true) member s (fun u => ?_) (fun u m active => ?_)
  · rw [if_pos known]
    exact portActive_toActive ..
  · by_cases same : m = n
    · subst same
      rw [if_pos known]
      exact portActive_toActive ..
    · unfold portActive at active ⊢
      split
      · rw [port_toActive_other _ (Ne.symm same), port_onPort_other _ _ (Ne.symm same)]
        exact active
      · rw [port_onPort_other _ _ (Ne.symm same)]
        exact active

/-- Every compute rail off. -/
theorem off_railsOff (s : State) : getF (s.railsOff 0xff).pow.railStatus railStatus_off = 255 := by
  refine (getF_setF_beside (f := railStatus_settling) (by decide) _ _).trans ?_
  refine (getF_setF (f := railStatus_off) _ ⟨by decide, by decide⟩ _).trans ?_
  refine Nat.eq_of_testBit_eq fun i => ?_
  change ((getF s.pow.railStatus railStatus_off ||| (2 ^ 8 - 1)) % 2 ^ 8).testBit i = (2 ^ 8 - 1 : Nat).testBit i
  rw [Nat.testBit_mod_two_pow, Nat.testBit_or, Nat.testBit_two_pow_sub_one]
  cases decide (i < 8) <;> simp

/-- A device with a retirement record enters RETIRED with its compute rails off (R444, R474). -/
theorem comeUpRetired_shows (s : State) : s.comeUpRetired.devState = DS.retired ∧ s.comeUpRetired.stageNow = stageComplete ∧
    getF s.comeUpRetired.pow.railStatus railStatus_off = 255 ∧ s.comeUpRetired.ports = s.ports := by
  obtain ⟨rootstock, pow, ports⟩ := event_stands (((s.setStage stageComplete).railsOff 0xff).toState DS.retired) Err.retired 2 0 Src.reset true
  refine ⟨?_, ?_, ?_, ?_⟩
  · exact (devState_event ..).trans (devState_toState _ _ (by decide))
  · have shown : s.comeUpRetired.rootstock = (s.setStage stageComplete).rootstock := by
      refine rootstock.trans ?_
      rw [toState_rootstock]
      unfold railsOff
      rfl
    exact (stageNow_of_stage (congrArg BootRegs.stage shown)).trans (stageNow_setStage s (by decide))
  · have shown : s.comeUpRetired.pow = ((s.setStage stageComplete).railsOff 0xff).pow := pow.trans (toState_pow ..)
    exact (congrArg (fun p : PowRegs => getF p.railStatus railStatus_off) shown).trans (off_railsOff _)
  · refine ports.trans ?_
    rw [toState_ports]
    unfold railsOff setStage
    rfl

/-- Stage 4 ends at LINKED, or in RETIRED where a retirement record stands; the ports that came up are ACTIVE. -/
theorem endStage4_ends (s : State) (up rates : List Nat) :
    (s.flash.retired = false → (s.endStage4 up rates).devState = DS.linked ∧ (s.endStage4 up rates).stageNow = 5) ∧
    (s.flash.retired = true → (s.endStage4 up rates).devState = DS.retired ∧ (s.endStage4 up rates).stageNow = 6 ∧
      getF (s.endStage4 up rates).pow.railStatus railStatus_off = 255) ∧
    ∀ n ∈ s.stage4Ports, n ∈ up → (s.endStage4 up rates).portActive n = true := by
  obtain ⟨eth0, eth1, code, linked⟩ : ∃ eth0 eth1 code, s.endStage4 up rates =
      (let u := ({ s.linkPorts s.stage4Ports up with eth0 := eth0, eth1 := eth1 } : State).passStage 4 code DS.linked 5
       if u.flash.retired then (u.setStatus 5 0).comeUpRetired else u) := ⟨_, _, _, rfl⟩
  dsimp only at linked
  generalize at_ : ({ s.linkPorts s.stage4Ports up with eth0 := eth0, eth1 := eth1 } : State) = v at linked
  obtain ⟨-, flash, ports⟩ := v.passStage_stands 4 code DS.linked 5
  have linkPorts_flash : v.flash = s.flash := by rw [← at_]; exact flash_linkPorts ..
  have linkPorts_ports : v.ports = (s.linkPorts s.stage4Ports up).ports := by rw [← at_]
  obtain ⟨state, stage, off, kept⟩ := comeUpRetired_shows ((v.passStage 4 code DS.linked 5).setStatus 5 0)
  rw [flash, linkPorts_flash] at linked
  refine ⟨fun standing => ?_, fun retired => ?_, fun n member came => ?_⟩
  · rw [linked, standing, if_neg (by decide)]
    exact ⟨devState_passStage _ _ _ (by decide) _, stageNow_passStage _ _ _ _ (by decide)⟩
  · rw [linked, if_pos retired]
    exact ⟨state, stage, off⟩
  · have came := portActive_linkPorts s member came
    unfold portActive at came ⊢
    rw [linked]
    split
    · rw [port_of_ports (kept.trans (ports.trans linkPorts_ports))]
      exact came
    · rw [port_of_ports (ports.trans linkPorts_ports)]
      exact came

/-! ## Stage 5 and the budgets (R462, R467 to R471) -/

/-- What a stored licence is judged by. -/
def licensing (s : State) : Option Lic × BitVec 128 := (s.flash.licence, s.flash.serial)

theorem goodLicence_of_licensing {s t : State} (h : t.licensing = s.licensing) : t.goodLicence = s.goodLicence := by
  obtain ⟨licence, serial⟩ := Prod.mk.inj h
  unfold goodLicence
  rw [licence, serial]

theorem licensing_judge (s : State) (r : SiteRes) : (s.judge r).licensing = s.licensing := by
  unfold judge softSite
  dsimp only
  unfold licensing
  rw [onPart_flash]
  split <;> rfl

/-- A pass over the sites leaves the licence as it is. -/
theorem licensing_decideSites (s : State) (units : Nat) (rs : List SiteRes) : (s.decideSites units rs).licensing = s.licensing := by
  have flash : ((s.clearPass).writeBists units rs).flash = s.flash := by
    have cleared : s.clearPass.flash = s.flash := foldl_leaves State.flash _ s fun u p => onPart_flash ..
    exact (foldl_leaves State.flash _ _ fun u p => foldl_leaves State.flash _ u fun v x => setSite_flash ..).trans cleared
  refine (foldl_leaves licensing rs _ licensing_judge).trans ?_
  unfold licensing
  rw [flash]

theorem countPass_eq (s : State) : ∃ w, s.countPass = { s with rootstock := w } := ⟨_, rfl⟩

section
variable {s : State} (stage : s.inStage 5 = true) (linked : s.devState = DS.linked) (rs : List SiteRes) {ms : Nat}
include stage linked

theorem stage5_runs (within : ms ≤ 1000) :
    s.stage5 rs ms = (((s.setMs 5 ms).countPass).decideSites fullUnits (s.withMarch rs)).numberAll := by
  have march : (s.setMs 5 ms).withMarch rs = s.withMarch rs := by
    obtain ⟨w, e⟩ := s.setMs_eq 5 ms
    rw [e]
    rfl
  unfold stage5
  rw [stage, linked, if_neg (by decide)]
  dsimp only
  rw [if_neg (show ¬ budgetOf 5 < ms from Nat.not_lt.2 within), march]
  rfl

omit stage linked in
theorem goodLicence_decided : (((s.setMs 5 ms).countPass).decideSites fullUnits (s.withMarch rs)).goodLicence = s.goodLicence := by
  obtain ⟨w, timed⟩ := s.setMs_eq 5 ms
  obtain ⟨v, counted⟩ := ({ s with rootstock := w } : State).countPass_eq
  rw [timed, counted]
  exact goodLicence_of_licensing (licensing_decideSites ..)

theorem stage5_late (late : 1000 < ms) : Stopped s 5 0x7f Err.timeout (s.stage5 rs ms) := by
  obtain ⟨w, timed⟩ := s.setMs_eq 5 ms
  obtain ⟨v, counted⟩ := ({ s with rootstock := w } : State).countPass_eq
  unfold stage5
  rw [stage, linked, if_neg (by decide)]
  dsimp only
  rw [if_pos (show budgetOf 5 < ms from late), timed, counted]
  have stopped := stopStage_stopped { s with rootstock := v } (k := 5) (code := 0x7f) (err := Err.timeout) (by decide) (by decide) (by decide) (by decide)
  exact ⟨stopped.stage, stopped.status, stopped.error, stopped.fault, stopped.devState⟩

end

section
variable {s : State} {k : Nat} (stage : s.inStage k = true)
include stage

theorem budgetExpiry_stops (first : k ≠ 0) (last : k ≤ 5) (other : k ≠ 4) : s.budgetExpiry = (s.setMs k (budgetOf k)).stopStage k stBudget Err.timeout := by
  unfold budgetExpiry
  dsimp only
  rw [stageNow_of_inStage stage, stage, if_neg (by simp [first]; omega), if_neg other]

end

theorem budgetExpiry_links {s : State} (stage : s.inStage 4 = true) : ∃ up rates, s.budgetExpiry = (s.setMs 4 (budgetOf 4)).endStage4 up rates := by
  unfold budgetExpiry
  dsimp only
  rw [stageNow_of_inStage stage, stage, if_neg (by decide), if_pos rfl]
  exact ⟨_, _, rfl⟩

/-! ## Recovery (R488) -/

section
variable {s : State} (recovering : s.recovering = true)
include recovering

theorem recoveryBegin_fits {len : Nat} (fits : len ≤ recoveryMax) :
    s.recoveryBegin len = { s with i3c := { s.i3c with recovery := some (len, []) } } := by
  unfold recoveryBegin
  rw [recovering, if_neg (by decide), if_neg (Nat.not_lt.2 fits)]

theorem recoveryBegin_long {len : Nat} (long : recoveryMax < len) : s.recoveryBegin len = s.endRecovery := by
  unfold recoveryBegin
  rw [recovering, if_neg (by decide), if_pos long]

theorem recoveryData_eq {len off : Nat} {m : Sparse Byte} {bs : List Byte} (loads : s.i3c.recovery = some (len, m)) : s.recoveryData off bs =
    if len < off + bs.length then s.endRecovery else { s with i3c := { s.i3c with recovery := some (len, Memory.writeN m off bs) } } := by
  unfold recoveryData
  rw [loads]
  dsimp only
  rw [recovering, if_neg (by decide)]

theorem recoveryEnd_fails {fw : Firmware} (loaded : s.i3c.recovery.isSome = true) (bad : fw.verifies = false ∨ fw.svn < s.flash.fuseSvn) :
    s.recoveryEnd fw = { s with i3c := { s.i3c with recovery := none } } := by
  have held : s.i3c.recovery.isNone = false := by simpa [Option.isSome_iff_ne_none] using loaded
  have refused : fwOk s.flash fw = false := by
    rcases bad with bad | old
    · simp [fwOk, bad]
    · simp [fwOk, Nat.not_le.2 old]
  unfold recoveryEnd
  rw [recovering, held, if_neg (by decide)]
  dsimp only
  rw [refused, if_pos (by decide)]

end

theorem endRecovery_shows (s : State) : s.endRecovery.i3c.recovery = none ∧ getF s.endRecovery.rootstock.status bootStatus_st1 = 0x10 :=
  ⟨rfl, status_setStatus _ (k := 1) (by decide) (by decide)⟩

end State

open State in
/-- Settles O58: every stage that passes leads to its device state and the next one, one that fails stops with its code, and recovery ends
in a copy that is booted from. -/
theorem bringUp : Obligations.BringUp := by
  unfold Obligations.BringUp
  intro s _
  refine ⟨fun off => ?rises, ?falls, ?resets, fun low => ?released,
    fun alive unbooted stage ms => ⟨fun within ok => ?boots, fun within a b => ?fails, fun late => ?late⟩,
    fun stage r within => ⟨fun pll refclk links die => ?clocked, fun pll => ?unlocked⟩,
    fun stage r within => ⟨fun answered phy rows => ?memories, fun answered => ?missing⟩,
    fun stage up rates ms => ?links,
    fun stage linked rs ms => ⟨fun within unlicensed => ?unlicensed, fun l within licensed enough => ?ready,
      fun l within licensed short => ?short, fun late => ?overrun⟩,
    fun k stage => ⟨fun stops => ?budget, fun four standing => ?linkBudget⟩,
    fun recovering => ⟨fun len fits => congrArg _ (recoveryBegin_fits recovering fits), fun len long => ?long, fun off bs len m loads => ⟨fun fits => ?adds, fun long => ?beyond⟩,
      fun fw loaded => ⟨fun verifies newer => ?recovers, fun bad => congrArg _ (recoveryEnd_fails recovering loaded bad)⟩⟩⟩
  case rises =>
    refine ⟨_, congrArg Host.Outcome.next (powerUp_rises off), ?_⟩
    obtain ⟨w, one, restarted⟩ := restart_eq { s with pins := { s.pins with pwrEn := true, railsOn := true, pwrGood := true } }
    split
    · rw [restarted]
      exact ⟨rfl, rfl, rfl, fun _ => ⟨one, rfl⟩⟩
    · next low => exact ⟨rfl, rfl, rfl, fun high => absurd high low⟩
  case falls =>
    obtain ⟨mem, tiles, -, fwA, licence, -⟩ := s.powerCycle_leaves
    refine ⟨s.powerDown, rfl, rfl, rfl, ?_⟩
    unfold powerDown
    dsimp only
    split
    · exact ⟨fwA, licence, fun _ => ⟨rfl, rfl, mem, tiles⟩⟩
    · next down => exact ⟨rfl, rfl, fun on => absurd on down⟩
  case resets =>
    obtain ⟨mem, tiles, dev, -, licence, rails⟩ := s.powerCycle_leaves
    refine ⟨s.resetLow, rfl, rfl, ?_⟩
    unfold resetLow
    dsimp only
    split
    · next on => exact ⟨licence, fun _ => ⟨rails.trans on, mem, tiles, devState_of_dev dev⟩⟩
    · next down => exact ⟨rfl, fun on => absurd on down⟩
  case released =>
    refine ⟨_, congrArg Host.Outcome.next (resetHigh_rises low), ?_⟩
    obtain ⟨w, one, restarted⟩ := restart_eq { s with pins := { s.pins with resetN := true } }
    split
    · rw [restarted]
      exact ⟨rfl, fun _ => one⟩
    · next down => exact ⟨rfl, fun on => absurd on down⟩
  case boots =>
    obtain ⟨copy, booted, first, second⟩ := stage1_boots alive unbooted stage within ok
    refine ⟨_, rfl, booted.devState, booted.stage, booted.rooted, booted.clock, fun a newer => ?_, fun b newer => ?_⟩
    · rw [booted.copy, first a newer]
    · rw [booted.copy, second b newer]
  case fails =>
    obtain ⟨code, stopped⟩ := stage1_fails alive unbooted stage within a b
    exact ⟨_, rfl, stopped.stage, stopped.fault.trans (by simp), stopped.error, stopped.devState⟩
  case late =>
    have stopped := stage1_late alive unbooted stage late
    exact ⟨_, rfl, stopped.stage, stopped.fault.trans (by simp), stopped.status⟩
  case clocked =>
    obtain ⟨code, run⟩ := stage2_passes stage within pll refclk links die
    refine ⟨_, congrArg Host.Outcome.next run, devState_passStage _ _ _ (by decide) _, stageNow_passStage _ _ _ _ (by split <;> decide), ?_⟩
    rw [caps_passStage, caps_identify, pdiesPresent_identifiedCaps]
  case unlocked =>
    have stopped := s.setMs_stops (k := 2) (code := 0x20) (err := Err.timeout) r.ms (by decide) (by decide) (by decide) (by decide)
    exact ⟨_, congrArg Host.Outcome.next (stage2_unlocked stage within pll), stopped.stage, stopped.status, stopped.devState⟩
  case memories =>
    obtain ⟨u, tiles, run⟩ := stage3_passes stage within answered phy rows
    refine ⟨_, congrArg Host.Outcome.next run, devState_passStage _ _ _ (by decide) _, stageNow_passStage _ _ _ _ (by decide), ?_⟩
    rw [(passStage_stands ..).1, tiles_marchFails, tiles_repairRows, tiles]
  case missing =>
    have stopped := s.setMs_stops (k := 3) (code := 0x30) (err := Err.yield) r.ms (by decide) (by decide) (by decide) (by decide)
    exact ⟨_, congrArg Host.Outcome.next (stage3_missing stage within answered), stopped.stage, stopped.status, stopped.error⟩
  case links =>
    have run : s.stage4 up rates ms = (s.setMs 4 (min ms (budgetOf 4))).endStage4 up rates := by
      unfold stage4
      rw [stage, if_neg (by decide)]
    obtain ⟨w, timed⟩ := s.setMs_eq 4 (min ms (budgetOf 4))
    rw [timed] at run
    exact ⟨_, congrArg Host.Outcome.next run, endStage4_ends { s with rootstock := w } up rates⟩
  case unlicensed =>
    obtain ⟨u, ends⟩ := numberAll_unlicensed ((goodLicence_decided rs (ms := ms)).trans unlicensed)
    refine ⟨_, congrArg Host.Outcome.next ((stage5_runs stage linked rs within).trans ends), devState_endStage5 .., status_endStage5 .., ?_⟩
    exact code_endStage5 _ _ (by decide)
  case ready =>
    obtain ⟨u, ends, applied, tiles⟩ := numberAll_enough ((goodLicence_decided rs (ms := ms)).trans licensed) enough
    refine ⟨_, congrArg Host.Outcome.next ((stage5_runs stage linked rs within).trans ends), devState_endStage5 .., ?_, ?_⟩
    · rw [(boot_endStage5 ..).1, applied]
    · rw [(boot_endStage5 ..).2, tiles]
  case short =>
    obtain ⟨p, hp, short⟩ := short
    obtain ⟨u, ends, applied⟩ := numberAll_short ((goodLicence_decided rs (ms := ms)).trans licensed) hp short
    refine ⟨_, congrArg Host.Outcome.next ((stage5_runs stage linked rs within).trans ends), devState_endStage5 .., ?_, status_endStage5 ..⟩
    rw [(boot_endStage5 ..).1, applied]
  case overrun =>
    have stopped := stage5_late stage linked rs late
    exact ⟨_, rfl, stopped.devState.trans linked, stopped.status⟩
  case budget =>
    have bounds : k ≠ 0 ∧ k ≤ 5 ∧ k ≠ 4 := by omega
    obtain ⟨first, last, other⟩ := bounds
    have stopped := s.setMs_stops (k := k) (code := 0x7f) (err := Err.timeout) (budgetOf k) last (by decide) (by decide) (by decide)
    exact ⟨_, congrArg Host.Outcome.next (budgetExpiry_stops stage first last other), stopped.stage, stopped.status, stopped.error, stopped.devState,
      stopped.fault⟩
  case linkBudget =>
    subst four
    obtain ⟨up, rates, run⟩ := budgetExpiry_links stage
    obtain ⟨w, timed⟩ := s.setMs_eq 4 (budgetOf 4)
    rw [timed] at run
    exact ⟨_, congrArg Host.Outcome.next run, (endStage4_ends { s with rootstock := w } up rates).1 standing⟩
  case long =>
    exact ⟨_, congrArg Host.Outcome.next (recoveryBegin_long recovering long), s.endRecovery_shows⟩
  case adds =>
    exact congrArg Host.Outcome.next ((recoveryData_eq recovering loads).trans (if_neg (Nat.not_lt.2 fits)))
  case beyond =>
    exact ⟨_, congrArg Host.Outcome.next ((recoveryData_eq recovering loads).trans (if_pos long)), s.endRecovery_shows.1⟩
  case recovers =>
    obtain ⟨flash, copy, taken, booted⟩ := recoveryEnd_boots recovering loaded (fw := fw) (by simp [fwOk, verifies, newer])
    refine ⟨_, rfl, booted.rooted, booted.devState, ?_, ?_⟩
    · rw [booted.i3c]
    · rw [booted.flash]
      exact taken

end Sys2Proof.Machine

/-!
PROOFS. Rails (R453, R455): the bits of RAIL_STATUS, what a rail that moves leaves, and what it is then going to.
-/
namespace Sys2Proof.Machine

/-- A walk brings a property where every turn keeps what the turn of `b` needs. -/
theorem foldl_brings_within {σ α : Type} {I P : σ → Prop} {f : σ → α → σ} {l : List α} {b : α} (hb : b ∈ l) (s : σ) (start : I s)
    (within : ∀ s x, I s → I (f s x)) (brings : ∀ s, I s → P (f s b)) (keeps : ∀ s x, I s → P s → P (f s x)) : P (l.foldl f s) := by
  have kept (l : List α) (s : σ) (hi : I s) (hp : P s) : P (l.foldl f s) := by
    induction l generalizing s with
    | nil => exact hp
    | cons x l ih => exact ih _ (within s x hi) (keeps s x hi hp)
  induction l generalizing s with
  | nil => exact absurd hb List.not_mem_nil
  | cons x l ih =>
    rcases List.mem_cons.1 hb with rfl | hb
    · exact kept l _ (within s b start) (brings s start)
    · exact ih hb _ (within s x start)

/-! ## A bit taken from a number -/

theorem testBit_dropped_bit {m p : Nat} (h : m.testBit p = true) (q : Nat) : (m - 2 ^ p).testBit q = (m.testBit q && decide (q ≠ p)) := by
  have odd : m / 2 ^ p % 2 = 1 := by simpa [Nat.testBit_eq_decide_div_mod_eq] using h
  obtain ⟨a, ha⟩ : ∃ a, m / 2 ^ p = 2 * a + 1 := ⟨m / 2 ^ p / 2, by omega⟩
  have low : m % 2 ^ p < 2 ^ p := Nat.mod_lt _ (Nat.two_pow_pos p)
  have whole : m = 2 ^ p * (2 * a + 1) + m % 2 ^ p := by rw [← ha]; exact (Nat.div_add_mod m (2 ^ p)).symm
  have rest : m - 2 ^ p = 2 ^ p * (2 * a) + m % 2 ^ p := by
    rw [Nat.mul_add, Nat.mul_one] at whole
    omega
  rw [rest, Nat.testBit_two_pow_mul_add _ low]
  conv_rhs => rw [whole, Nat.testBit_two_pow_mul_add _ low]
  rcases Nat.lt_trichotomy q p with below | same | above
  · simp [below, Nat.ne_of_lt below]
  · subst same
    simp
  · obtain ⟨k, hk⟩ : ∃ k, q - p = k + 1 := ⟨q - p - 1, by omega⟩
    rw [if_neg (by omega), if_neg (by omega), hk, Nat.testBit_succ, Nat.testBit_succ, decide_eq_true (by omega), Bool.and_true]
    congr 1
    omega

namespace State

/-! ## The bits of RAIL_STATUS -/

/-- A field of RAIL_STATUS with one bit for each partition. -/
def PartBits (f : Field) : Prop := f.hi = f.lo + 7 ∧ f.hi < 64

/-- What a bit written makes of the bits of its field. -/
def bitsWith (m p : Nat) (on : Bool) : Nat := if on then m ||| 2 ^ p else if m.testBit p then m - 2 ^ p else m

theorem testBit_bitsWith (m p q : Nat) (on : Bool) : (bitsWith m p on).testBit q = if q = p then on else m.testBit q := by
  unfold bitsWith
  cases on with
  | true =>
    rw [if_pos rfl, Nat.testBit_or, Nat.testBit_two_pow]
    by_cases same : q = p
    · simp [same]
    · simp [same, Ne.symm same]
  | false =>
    rw [if_neg Bool.false_ne_true]
    split
    · next set_ =>
      rw [testBit_dropped_bit set_]
      by_cases same : q = p <;> simp [same]
    · next clear_ =>
      by_cases same : q = p
      · rw [if_pos same, same]
        exact Bool.eq_false_iff.2 clear_
      · rw [if_neg same]

theorem railBit_setRailBit (s : State) {f : Field} (hf : PartBits f) {p q : Nat} (hq : q < 8) (on : Bool) :
    (s.setRailBit f p on).railBit f q = if q = p then on else s.railBit f q := by
  obtain ⟨wide, inside⟩ := hf
  have read : getF (s.setRailBit f p on).pow.railStatus f = bitsWith (getF s.pow.railStatus f) p on % 2 ^ (f.hi + 1 - f.lo) :=
    getF_setF _ ⟨by omega, inside⟩ _
  unfold railBit
  rw [read, Nat.testBit_mod_two_pow, testBit_bitsWith, decide_eq_true (by omega), Bool.true_and]

theorem railStatus_setRailBit (s : State) {f g : Field} (beside : f.Beside g) (p : Nat) (on : Bool) :
    getF (s.setRailBit f p on).pow.railStatus g = getF s.pow.railStatus g := getF_setF_beside beside _ _

theorem setRailBit_eq (s : State) (f : Field) (p : Nat) (on : Bool) :
    ∃ w, s.setRailBit f p on = { s with pow := { s.pow with railStatus := w } } := by
  unfold setRailBit
  exact ⟨_, rfl⟩

theorem settling_partBits : PartBits railStatus_settling := ⟨rfl, by decide⟩
theorem fault_partBits : PartBits railStatus_fault := ⟨rfl, by decide⟩

/-! ## Rails that move (R455) -/

/-- From `s` to `t` rails have moved: RAIL_STATUS shows other rails settling, the partitions hold other codes, and codes have been sent. -/
structure RailsMove (s t : State) : Prop where
  frame : t = { s with pow := { s.pow with railStatus := t.pow.railStatus }, parts := t.parts, out := t.out }
  beside : ∀ g : Field, railStatus_settling.Beside g → getF t.pow.railStatus g = getF s.pow.railStatus g
  parts : ∀ q, RailOnly (s.part q) (t.part q)

namespace RailsMove
variable {s t u : State}

theorem refl (s : State) : RailsMove s s := ⟨rfl, fun _ _ => rfl, fun _ => .refl _⟩

theorem trans (h : RailsMove s t) (k : RailsMove t u) : RailsMove s u where
  frame := by
    obtain ⟨ht, -, -⟩ := h
    obtain ⟨hu, -, -⟩ := k
    rw [ht] at hu
    exact hu
  beside g hg := (k.beside g hg).trans (h.beside g hg)
  parts q := (h.parts q).trans (k.parts q)

theorem foldl {α : Type} {f : State → α → State} (l : List α) (s : State) (h : ∀ x a, RailsMove x (f x a)) : RailsMove s (l.foldl f s) :=
  List.foldlRecOn l f (refl s) fun x hx a _ => hx.trans (h x a)

theorem ite {c : Prop} [Decidable c] (ht : RailsMove s t) (hu : RailsMove s u) : RailsMove s (if c then t else u) := by
  split
  · exact ht
  · exact hu

/-- The rails that are off are those that were. -/
theorem railBit_off (h : RailsMove s t) (p : Nat) : t.railBit railStatus_off p = s.railBit railStatus_off p := by
  unfold railBit
  rw [h.beside _ (by decide)]

theorem devState (h : RailsMove s t) : t.devState = s.devState := by rw [h.frame]; rfl

theorem power (h : RailsMove s t) : t.power = s.power := by rw [h.frame]; rfl

theorem clock (h : RailsMove s t) : t.clock = s.clock := by rw [h.frame]; rfl

theorem hot (h : RailsMove s t) (p : Nat) : (t.part p).hot = (s.part p).hot := by
  have only := h.parts p
  unfold RailOnly at only
  rw [only]

/-- The power controller's own registers. -/
theorem pow (h : RailsMove s t) : t.pow = { s.pow with railStatus := t.pow.railStatus } := congrArg State.pow h.frame

end RailsMove

theorem setRail_frame (s : State) (p want : Nat) : ∃ w parts out,
    s.setRail p want = { s with pow := { s.pow with railStatus := w }, parts := parts, out := out } ∧
    ∀ g : Field, railStatus_settling.Beside g → getF w g = getF s.pow.railStatus g := by
  unfold setRail setPart setRailBit send
  extract_lets a c
  split
  · exact ⟨s.pow.railStatus, s.parts, s.out, rfl, fun _ _ => rfl⟩
  · split
    · exact ⟨s.pow.railStatus, _, s.out, rfl, fun _ _ => rfl⟩
    · split
      · exact ⟨s.pow.railStatus, s.parts, s.out, rfl, fun _ _ => rfl⟩
      · exact ⟨_, _, _, rfl, fun g hg => getF_setF_beside hg _ _⟩

theorem setRail_moves (s : State) (p want : Nat) : RailsMove s (s.setRail p want) := by
  obtain ⟨w, parts, out, e, beside⟩ := s.setRail_frame p want
  exact ⟨by rw [e], by rw [e]; exact beside, setRail_railOnly s p want⟩

theorem setRails_moves (s : State) (f : Nat → Nat) : RailsMove s (s.setRails f) := .foldl _ s fun u p => setRail_moves u p (f p)

/-! ### One rail -/

theorem part_setRail_other (s : State) {p q : Nat} (other : q ≠ p) (want : Nat) : (s.setRail p want).part q = s.part q := by
  unfold setRail
  extract_lets a c
  split
  · rfl
  · split
    · exact part_setPart_other s _ other
    · split
      · rfl
      · rw [part_railWritten]
        exact part_setPart_other s _ other

theorem settling_setRail_other (s : State) {p q : Nat} (hq : q < 8) (other : q ≠ p) (want : Nat) :
    (s.setRail p want).railBit railStatus_settling q = s.railBit railStatus_settling q := by
  unfold setRail
  extract_lets a c
  split
  · rfl
  · split
    · rfl
    · split
      · rfl
      · exact (railBit_setRailBit _ settling_partBits hq true).trans (if_neg other)

section
variable {s : State} {p : Nat} (on : s.railBit railStatus_off p = false)
include on

/-- A change that comes while another settles waits for it. -/
theorem setRail_settling (settles : s.railBit railStatus_settling p = true) (want : Nat) :
    s.setRail p want = s.setPart p { s.part p with queued := some (s.railCode p want) } := by
  unfold setRail
  rw [on, settles, if_neg Bool.false_ne_true, if_pos rfl]

variable (settled : s.railBit railStatus_settling p = false)
include settled

theorem setRail_same {want : Nat} (same : (s.part p).rail = s.railCode p want) : s.setRail p want = s := by
  unfold setRail
  rw [on, settled, if_neg Bool.false_ne_true, if_neg Bool.false_ne_true]
  exact if_pos same

/-- A change is written to the regulator. -/
theorem setRail_writes {want : Nat} (new : (s.part p).rail ≠ s.railCode p want) : s.setRail p want =
    ((s.setPart p { s.part p with rail := s.railCode p want, avsRetried := false }).setRailBit railStatus_settling p true).send
      (.railWrite p (s.railCode p want)) := by
  unfold setRail
  rw [on, settled, if_neg Bool.false_ne_true, if_neg Bool.false_ne_true]
  exact if_neg new

end

/-- A rail that has been written settles at its new code. -/
theorem railWritten_shows (s : State) {p : Nat} (hp : p < 8) (c : Nat) :
    let t := ((s.setPart p { s.part p with rail := c, avsRetried := false }).setRailBit railStatus_settling p true).send (.railWrite p c)
    t.out = .railWrite p c :: s.out ∧ t.part p = { s.part p with rail := c, avsRetried := false } ∧
      t.railBit railStatus_settling p = true := by
  intro t
  refine ⟨by unfold t send setRailBit setPart; rfl, ?_, ?_⟩
  · exact (part_railWritten ..).trans (part_setPart_same ..)
  · exact (railBit_setRailBit _ settling_partBits hp true).trans (if_pos rfl)

/-- Where no change waits unless another settles, a rail goes to the code asked of its regulator. -/
theorem railGoal_setRail {s : State} {p : Nat} (on : s.railBit railStatus_off p = false)
    (free : s.railBit railStatus_settling p = false → (s.part p).queued = none) (want : Nat) :
    (s.setRail p want).railGoal p = s.railCode p want := by
  cases settles : s.railBit railStatus_settling p with
  | true =>
    rw [setRail_settling on settles]
    unfold railGoal
    rw [part_setPart_same]
    rfl
  | false =>
    by_cases same : (s.part p).rail = s.railCode p want
    · rw [setRail_same on settles same]
      unfold railGoal
      rw [free settles, ← same]
      rfl
    · rw [setRail_writes on settles same]
      unfold railGoal
      rw [part_railWritten, part_setPart_same, free settles]
      rfl

/-- A rail that has just been told its code waits for a change only while another settles. -/
theorem free_setRail {s : State} {p : Nat} (hp : p < 8) (on : s.railBit railStatus_off p = false)
    (free : s.railBit railStatus_settling p = false → (s.part p).queued = none) (want : Nat) :
    (s.setRail p want).railBit railStatus_settling p = false → ((s.setRail p want).part p).queued = none := by
  intro settled
  cases settles : s.railBit railStatus_settling p with
  | true =>
    rw [setRail_settling on settles] at settled
    exact absurd (settles.symm.trans settled) (by decide)
  | false =>
    by_cases same : (s.part p).rail = s.railCode p want
    · rw [setRail_same on settles same]
      exact free settles
    · rw [setRail_writes on settles same] at settled
      exact absurd ((railWritten_shows s hp _).2.2.symm.trans settled) (by decide)

end State
end Sys2Proof.Machine

/-!
PROOFS. Regulators, the input envelope, balancing and the thermal limits (R444, R455 to R459).
-/
namespace Sys2Proof.Machine
namespace State

/-! ## A device out of service (R444) -/

/-- RAIL_STATUS and the pins. -/
def powered (s : State) : Word × Pins := (s.pow.railStatus, s.pins)

theorem powered_event (s : State) (code cls arg src : Nat) (always : Bool) : (s.event code cls arg src always).powered = s.powered :=
  (congrArg powered (s.unnoted_event code cls arg src always) :)

theorem powered_abandonHandshake (s : State) : s.abandonHandshake.powered = s.powered := by
  obtain ⟨w, k, e⟩ : ∃ w k, s.abandonHandshake = if (!s.handshaking) = true then s else
      ({ s with pow := { s.pow with hs := w, defers := [] } } : State).event Err.busy 4 k Src.power false := ⟨_, _, rfl⟩
  rw [e]
  split
  · rfl
  · exact powered_event ..

theorem powered_abandonLoad (s : State) : s.abandonLoad.powered = s.powered := by
  unfold abandonLoad
  split
  · rfl
  · dsimp only
    split
    · obtain ⟨_, _, _, e⟩ := answer_eq _ _ _ _ _
      rw [e]
      rfl
    · rfl

theorem powered_withdraw (s : State) (f : Scope → Bool) : (s.withdraw f).powered = s.powered := by
  unfold powered withdraw
  rfl

theorem powered_haltStages (s : State) : s.haltStages.powered = s.powered := by
  unfold powered haltStages allTiles
  rfl

theorem powered_dropUncommitted (s : State) : s.dropUncommitted.powered = s.powered := by
  have pages : (s.allParts (fun a => { a with pages := a.pages.map decantedPage })).powered = s.powered :=
    foldl_leaves powered _ s fun u p => by
      unfold powered
      rw [onPart_pow, onPart_pins]
  unfold dropUncommitted
  rw [decantPages_eq]
  generalize s.allParts (fun a => { a with pages := a.pages.map decantedPage }) = u at pages ⊢
  obtain ⟨mir, pooled⟩ : ∃ mir, u.poolStatus = { u with mir := mir } := by
    unfold poolStatus
    exact ⟨_, rfl⟩
  rw [pooled]
  have opened : ∀ v : State, v.refreshOpen.powered = v.powered := fun v => by
    obtain ⟨w, e⟩ : ∃ w, v.refreshOpen = ({ v with step := w } : State).refreshCellar := ⟨_, rfl⟩
    unfold powered
    rw [e, refreshCellar_pow, refreshCellar_pins]
  refine (opened _).trans (Eq.trans ?_ pages)
  unfold powered onJob
  rfl

theorem powered_eq (s : State) {t : State} (h : t.powered = s.powered) : t.pow.railStatus = s.pow.railStatus ∧ t.pins = s.pins :=
  Prod.mk.inj h

/-- A device as it leaves service: nothing runs, waits or is held by a tile. -/
def idled (s : State) : State :=
  (((s.abandonHandshake.abandonLoad.withdraw (fun _ => true)).haltStages).dropUncommitted).allTiles
    (fun t => { resetTile t with prog := [], funcs := [] })

theorem powered_idled (s : State) : s.idled.powered = s.powered := by
  have tiles : s.idled.powered = (((s.abandonHandshake.abandonLoad.withdraw (fun _ => true)).haltStages).dropUncommitted).powered := by
    unfold idled powered
    rw [allTiles_pow, allTiles_pins]
  rw [tiles, powered_dropUncommitted, powered_haltStages, powered_withdraw, powered_abandonLoad, powered_abandonHandshake]

/-- A device that leaves service has its compute rails off. -/
theorem outOfService_leaves {s : State} (serving : s.devState ≠ DS.retired) :
    ∃ u : State, u.powered = s.powered ∧ s.outOfService = ((u.railsOff 0xff).toState DS.retired).event Err.retired 2 0 Src.reset true := by
  have held := s.powered_idled
  unfold outOfService
  unfold idled at held
  rw [if_neg serving]
  dsimp only
  refine ⟨_, ?_, rfl⟩
  generalize (((s.abandonHandshake.abandonLoad.withdraw (fun _ => true)).haltStages).dropUncommitted).allTiles
    (fun t => { resetTile t with prog := [], funcs := [] }) = u at held ⊢
  unfold powered at held ⊢
  dsimp only
  exact held

theorem pins_railsOff (s : State) (mask : Nat) : (s.railsOff mask).pins = s.pins := by
  unfold railsOff
  rfl

theorem railsOff_beside (s : State) (mask : Nat) {g : Field} (off : railStatus_off.Beside g) (settling : railStatus_settling.Beside g) :
    getF (s.railsOff mask).pow.railStatus g = getF s.pow.railStatus g :=
  (getF_setF_beside settling _ _).trans (getF_setF_beside off _ _)

theorem railBit_off_railsOff (s : State) (mask : Nat) {p : Nat} (hp : p < 8) :
    (s.railsOff mask).railBit railStatus_off p = (s.railBit railStatus_off p || mask.testBit p) := by
  have read : getF (s.railsOff mask).pow.railStatus railStatus_off = (getF s.pow.railStatus railStatus_off ||| mask) % 2 ^ 8 :=
    (getF_setF_beside (f := railStatus_settling) (by decide) _ _).trans (getF_setF (f := railStatus_off) _ ⟨by decide, by decide⟩ _)
  unfold railBit
  rw [read, Nat.testBit_mod_two_pow, Nat.testBit_or, decide_eq_true hp, Bool.true_and]

/-- Out of service a device is RETIRED, its pins as they were, and no rail that was off is on. -/
theorem outOfService_shows (s : State) : s.outOfService.devState = DS.retired ∧ s.outOfService.pins = s.pins ∧
    getF s.outOfService.pow.railStatus railStatus_fault = getF s.pow.railStatus railStatus_fault ∧
    (getF s.outOfService.pow.railStatus railStatus_off = getF s.pow.railStatus railStatus_off ∨
      getF s.outOfService.pow.railStatus railStatus_off = 255) := by
  by_cases retired : s.devState = DS.retired
  · have same : s.outOfService = s := if_pos retired
    rw [same]
    exact ⟨retired, rfl, rfl, .inl rfl⟩
  · obtain ⟨u, held, e⟩ := outOfService_leaves retired
    obtain ⟨rails, pins⟩ := s.powered_eq held
    have noted := powered_event ((u.railsOff 0xff).toState DS.retired) Err.retired 2 0 Src.reset true
    obtain ⟨railsNow, pinsNow⟩ := powered_eq _ noted
    rw [toState_pow] at railsNow
    rw [toState_pins] at pinsNow
    rw [e]
    refine ⟨(devState_event ..).trans (devState_toState _ _ (by decide)), pinsNow.trans ?_, ?_, .inr ?_⟩
    · exact (pins_railsOff ..).trans pins
    · rw [railsNow, railsOff_beside _ _ (by decide) (by decide), rails]
    · rw [railsNow]
      exact off_railsOff u

theorem railBit_off_outOfService {s : State} {p : Nat} (hp : p < 8) (off : s.railBit railStatus_off p = true) :
    s.outOfService.railBit railStatus_off p = true := by
  unfold railBit at off ⊢
  obtain ⟨-, -, -, same | all⟩ := s.outOfService_shows
  · rw [same]
    exact off
  · rw [all, show (255 : Nat) = 2 ^ 8 - 1 from rfl, Nat.testBit_two_pow_sub_one]
    exact decide_eq_true hp

/-! ## Regulators (R455) -/

section
variable {s : State} (alive : s.alive = true) {p : Nat} (settles : s.railBit railStatus_settling p = true)
include alive settles

theorem avsTimeout_first (first : (s.part p).avsRetried = false) :
    s.avsTimeout p = (s.setPart p { s.part p with avsRetried := true }).send (.railWrite p (s.part p).rail) := by
  unfold avsTimeout
  rw [alive, settles]
  dsimp only
  rw [if_neg (by decide), first, if_pos (by decide)]

theorem avsTimeout_second (second : (s.part p).avsRetried = true) : ∃ w, getF w railStatus_fault = getF (s.setRailBit railStatus_fault p true).pow.railStatus
    railStatus_fault ∧ s.avsTimeout p = (({ s with pow := { s.pow with railStatus := w } } : State).railsOff (2 ^ p)).outOfService := by
  obtain ⟨v, e⟩ := s.setRailBit_eq railStatus_fault p true
  unfold avsTimeout
  rw [alive, settles]
  dsimp only
  rw [if_neg (by decide), second, if_neg (by decide), e]
  exact ⟨_, getF_setF_beside (f := railStatus_avsTimeouts) (by decide) _ _, rfl⟩

/-- The state in which a regulator has done what it was told. -/
def voltageDone (s : State) (p : Nat) : State :=
  (s.onPart p (fun a => { a with queued := none, avsRetried := false })).setRailBit railStatus_settling p false

theorem avsVdone_eq : s.avsVdone p = match (s.part p).queued with
    | some c => (s.voltageDone p).setRail p c
    | none => s.voltageDone p := by
  unfold avsVdone
  rw [alive, settles, if_neg (by decide)]
  rfl

end

section
variable (s : State) {p : Nat} (hp : p < 8)
include hp

/-- A regulator that is done leaves its rail at its code, with nothing waiting. -/
theorem voltageDone_shows : (s.voltageDone p).out = s.out ∧ (s.voltageDone p).railBit railStatus_settling p = false ∧
    (s.voltageDone p).part p = { s.part p with queued := none, avsRetried := false } ∧
    (s.voltageDone p).railBit railStatus_off p = s.railBit railStatus_off p ∧ (s.voltageDone p).pow.pinLost = s.pow.pinLost := by
  have settled := (railBit_setRailBit (s.onPart p (fun a => { a with queued := none, avsRetried := false })) settling_partBits hp false).trans
    (if_pos rfl)
  have beside := (s.onPart p (fun a => { a with queued := none, avsRetried := false })).railStatus_setRailBit (f := railStatus_settling)
    (g := railStatus_off) (by decide) p false
  rw [onPart_pow] at beside
  have kept := part_onPart_same s p (fun a => { a with queued := none, avsRetried := false })
  obtain ⟨w, e⟩ := (s.onPart p (fun a => { a with queued := none, avsRetried := false })).setRailBit_eq railStatus_settling p false
  unfold voltageDone
  refine ⟨?_, settled, ?_, ?_, ?_⟩
  · rw [e]
    exact onPart_out s p (fun a => { a with queued := none, avsRetried := false })
  · rw [e]
    exact kept
  · unfold railBit
    rw [beside]
  · rw [e]
    dsimp only
    rw [onPart_pow]

/-- The code asked of the regulator once it is done. -/
theorem railCode_voltageDone (valid : s.pow.pinLost = false) (c : Nat) : (s.voltageDone p).railCode p c =
    if (s.part p).hot then min c (s.part p).rail else c := by
  obtain ⟨-, -, part, -, lost⟩ := s.voltageDone_shows hp
  unfold railCode railGoal
  rw [part, lost, valid, if_neg Bool.false_ne_true]
  rfl

end

/-! ## The input envelope (R456, R457) -/

theorem lowerRail_moves (s : State) (p codes : Nat) : RailsMove s (s.lowerRail p codes) := .ite (.refl s) (setRail_moves ..)

theorem raiseRail_moves (s : State) (p : Nat) : RailsMove s (s.raiseRail p) := .ite (.refl s) (setRail_moves ..)

theorem lowerAll_moves (s : State) (codes : Nat) : RailsMove s (s.lowerAll codes) := .foldl _ s fun u p => lowerRail_moves u p codes

theorem raiseAll_moves (s : State) : RailsMove s s.raiseAll := .foldl _ s raiseRail_moves

theorem restoreRails_moves (s : State) : RailsMove s s.restoreRails := .ite (setRails_moves ..) (.ite (setRails_moves ..) (setRails_moves ..))

/-- What a sample of READ_PIN has left. -/
def readings (s : State) : Nat × Nat × Nat × Bool :=
  (getF s.pow.state pwrState_pinW, getF s.pow.state pwrState_pinAvgW, s.pow.lastGoodPin, s.pow.pinLost)

theorem RailsMove.readings {s t : State} (h : RailsMove s t) : t.readings = s.readings := by
  unfold State.readings
  rw [h.pow]

theorem RailsMove.sustainW {s t : State} (h : RailsMove s t) : t.sustainW = s.sustainW := by
  unfold State.sustainW
  rw [h.pow]

theorem RailsMove.excursion {s t : State} (h : RailsMove s t) : t.pow.excursionAt = s.pow.excursionAt := by rw [h.pow]

/-- Steps 4 and 5 leave the readings and the excursion. -/
theorem slowStep_leaves (s : State) (avg : Nat) : (s.slowStep avg).readings = s.readings ∧ (s.slowStep avg).pow.excursionAt = s.pow.excursionAt := by
  unfold slowStep
  split
  · exact ⟨rfl, rfl⟩
  · split
    · have moves := lowerRail_moves { s with pow := { s.pow with slowAt := s.clock } } s.highestRail code5mV
      exact ⟨moves.readings, moves.excursion⟩
    · split
      · have moves := raiseAll_moves { s with pow := { s.pow with slowAt := s.clock } }
        exact ⟨moves.readings, moves.excursion⟩
      · exact ⟨rfl, rfl⟩

theorem underSample_leaves (s : State) : s.underSample.readings = s.readings ∧ s.underSample.pow.excursionAt = none := by
  unfold underSample
  split
  · exact ⟨rfl, rfl⟩
  · next none => exact ⟨rfl, none⟩

/-- The falls of step 3 counted. -/
def fallsCounted (s : State) (falls : Nat) : State := { s with pow := { s.pow with falls := falls } }

/-- Steps 2 and 3 for a sample above the limit, an excursion having begun. -/
def overFrom (s : State) (watts : Nat) : State :=
  let v := if getF s.pow.therm thermLimits_pPeakW < watts + 200 then s.lowerAll code50mV else s
  let due := v.fallsDue (v.pow.excursionAt.getD v.clock)
  if due ≤ v.pow.falls then v else (v.fallsCounted due).lowerAll (code25mV * (due - v.pow.falls))

theorem overFrom_leaves (s : State) (watts : Nat) :
    (s.overFrom watts).readings = s.readings ∧ (s.overFrom watts).pow.excursionAt = s.pow.excursionAt := by
  obtain ⟨v, due, moves, e⟩ : ∃ v due, RailsMove s v ∧ s.overFrom watts = if due ≤ v.pow.falls then v else
      (v.fallsCounted due).lowerAll (code25mV * (due - v.pow.falls)) := ⟨_, _, .ite (lowerAll_moves ..) (.refl s), rfl⟩
  rw [e]
  split
  · exact ⟨moves.readings, moves.excursion⟩
  · have fell := lowerAll_moves (v.fallsCounted due) (code25mV * (due - v.pow.falls))
    have kept : (v.fallsCounted due).readings = v.readings := rfl
    have begun : (v.fallsCounted due).pow.excursionAt = v.pow.excursionAt := rfl
    exact ⟨fell.readings.trans (kept.trans moves.readings), fell.excursion.trans (begun.trans moves.excursion)⟩

/-- An excursion goes on, or begins with a sample above the limit. -/
def excursionBegun (s : State) : State :=
  match s.pow.excursionAt with
  | some _ => s
  | none => { s with pow := { s.pow with excursionAt := some s.clock, falls := 0, state := bumpF s.pow.state pwrState_excursions 1 } }

theorem overSample_eq (s : State) (watts : Nat) : s.overSample watts = s.excursionBegun.overFrom watts := by
  unfold overSample overFrom excursionBegun fallsCounted
  rfl

theorem excursionBegun_some {s : State} {a : Nat} (begun : s.pow.excursionAt = some a) : s.excursionBegun = s := by
  unfold excursionBegun
  rw [begun]

theorem excursionBegun_none {s : State} (idle : s.pow.excursionAt = none) : s.excursionBegun = { s with pow := { s.pow with
    excursionAt := some s.clock, falls := 0, state := bumpF s.pow.state pwrState_excursions 1 } } := by
  unfold excursionBegun
  rw [idle]

theorem overSample_leaves (s : State) (watts : Nat) :
    (s.overSample watts).readings = s.readings ∧ (s.overSample watts).pow.excursionAt = some (s.pow.excursionAt.getD s.clock) := by
  cases begun : s.pow.excursionAt with
  | some a =>
    obtain ⟨readings, excursion⟩ := s.overFrom_leaves watts
    rw [overSample_eq, excursionBegun_some begun]
    exact ⟨readings, excursion.trans begun⟩
  | none =>
    have pin := getF_setF_beside (f := pwrState_excursions) (g := pwrState_pinW) (by decide) s.pow.state
    have mean := getF_setF_beside (f := pwrState_excursions) (g := pwrState_pinAvgW) (by decide) s.pow.state
    obtain ⟨w, counted⟩ : ∃ w, w = bumpF s.pow.state pwrState_excursions 1 := ⟨_, rfl⟩
    obtain ⟨readings, excursion⟩ := overFrom_leaves
      { s with pow := { s.pow with excursionAt := some s.clock, falls := 0, state := w } } watts
    rw [overSample_eq, excursionBegun_none begun, ← counted]
    refine ⟨readings.trans ?_, excursion⟩
    unfold State.readings
    dsimp only
    rw [counted]
    unfold bumpF
    rw [pin, mean]

/-- PWR_STATE with a sample and its mean. -/
def sampleWord (s : State) (watts avg : Nat) : Word :=
  setF (setF s.pow.state pwrState_pinW (min watts 0xffff)) pwrState_pinAvgW (min avg 0xffff)

/-- The state as a sample is kept in `w`, the rails restored that waited for one (R456). -/
def sampleKept (s : State) (w : Word) : State :=
  let u : State := { s with pow := { s.pow with state := w, lastGoodPin := s.clock } }
  if u.pow.pinLost then ({ u with pow := { u.pow with pinLost := false } }).restoreRails else u

/-- Steps 1 to 5, in ACTIVE (R457). -/
def sampleFollowed (s : State) (watts avg : Nat) : State :=
  if s.power != PS.active || s.devState == DS.dormant then s
  else (if s.sustainW < watts then s.overSample watts else s.underSample).slowStep avg

theorem pinSample_eq {s : State} (alive : s.alive = true) (watts avg : Nat) :
    s.pinSample watts avg = (s.sampleKept (s.sampleWord watts avg)).sampleFollowed watts avg := by
  unfold pinSample sampleKept sampleWord sampleFollowed
  rw [alive, if_neg (by decide)]

/-- The state with a valid sample in `w`. -/
def sampled (s : State) (w : Word) : State := { s with pow := { s.pow with state := w, lastGoodPin := s.clock, pinLost := false } }

theorem sampleKept_moves (s : State) (w : Word) : RailsMove (s.sampled w) (s.sampleKept w) := by
  unfold sampleKept sampled
  dsimp only
  split
  · exact restoreRails_moves _
  · next valid =>
    have valid : s.pow.pinLost = false := by simpa using valid
    rw [← valid]
    exact .refl _

theorem sampleWord_shows (s : State) {watts avg : Nat} (hw : watts < 65536) (ha : avg < 65536) :
    getF (s.sampleWord watts avg) pwrState_pinW = watts ∧ getF (s.sampleWord watts avg) pwrState_pinAvgW = avg ∧
      getF (s.sampleWord watts avg) pwrState_state = s.power := by
  unfold sampleWord
  refine ⟨?_, ?_, ?_⟩
  · rw [getF_setF_beside (by decide), Nat.min_eq_left (by omega)]
    exact (getF_setF (f := pwrState_pinW) _ ⟨by decide, by decide⟩ _).trans (Nat.mod_eq_of_lt hw)
  · rw [Nat.min_eq_left (b := 0xffff) (a := avg) (by omega)]
    exact (getF_setF (f := pwrState_pinAvgW) _ ⟨by decide, by decide⟩ _).trans (Nat.mod_eq_of_lt ha)
  · rw [getF_setF_beside (by decide), getF_setF_beside (by decide)]
    rfl

/-- A sample kept shows its values, and leaves state, limits and excursion. -/
theorem sampled_shows {s u : State} {w : Word} {watts avg : Nat} (pin : getF w pwrState_pinW = watts) (mean : getF w pwrState_pinAvgW = avg)
    (state : getF w pwrState_state = s.power) (moves : RailsMove (s.sampled w) u) :
    u.readings = (watts, avg, s.clock, false) ∧ u.pow.excursionAt = s.pow.excursionAt ∧
      u.power = s.power ∧ u.devState = s.devState ∧ u.sustainW = s.sustainW ∧ u.clock = s.clock := by
  refine ⟨?_, moves.excursion, moves.power.trans state, moves.devState, moves.sustainW, moves.clock⟩
  rw [moves.readings]
  unfold readings sampled
  dsimp only
  rw [pin, mean]

/-- Read with no valid sample for 10 ms, every rail that is on goes to 0.60 V. -/
theorem railGoal_pinLoss {s : State} {p : Nat} (hp : p < 8) (lost : s.pow.pinLost = true) (on : s.railBit railStatus_off p = false)
    (free : s.railBit railStatus_settling p = false → (s.part p).queued = none) :
    (s.setRails (fun _ => code060)).railGoal p = code060 := by
  refine foldl_brings_within (σ := State) (l := List.range 8)
    (I := fun u => u.pow.pinLost = true ∧ u.railBit railStatus_off p = false ∧ (u.railBit railStatus_settling p = false → (u.part p).queued = none))
    (P := fun u => u.railGoal p = code060) (List.mem_range.2 hp) s ⟨lost, on, free⟩ ?_ ?_ ?_
  · rintro u q ⟨lost, on, free⟩
    refine ⟨?_, ((setRail_moves u q code060).railBit_off p).trans on, ?_⟩
    · rw [(setRail_moves u q code060).pow]
      exact lost
    · by_cases same : p = q
      · subst same
        exact free_setRail hp on free _
      · rw [part_setRail_other u same, settling_setRail_other u hp same]
        exact free
  · rintro u ⟨lost, on, free⟩
    rw [railGoal_setRail on free]
    unfold railCode
    rw [lost, if_pos rfl]
  · rintro u q ⟨lost, on, free⟩ goal
    by_cases same : p = q
    · subst same
      rw [railGoal_setRail on free]
      unfold railCode
      rw [lost, if_pos rfl]
    · unfold railGoal at goal ⊢
      rw [part_setRail_other u same]
      exact goal

/-! ## Balancing (R458) -/

/-- The first of a walk with the least value. -/
theorem foldl_least (f : Nat → Nat) (l : List Nat) (a : Nat) :
    (l.foldl (fun b p => if f p < f b then p else b) a = a ∨ l.foldl (fun b p => if f p < f b then p else b) a ∈ l) ∧
    f (l.foldl (fun b p => if f p < f b then p else b) a) ≤ f a ∧ ∀ q ∈ l, f (l.foldl (fun b p => if f p < f b then p else b) a) ≤ f q := by
  induction l generalizing a with
  | nil => exact ⟨.inl rfl, Nat.le_refl _, fun q hq => absurd hq List.not_mem_nil⟩
  | cons x l ih =>
    rw [List.foldl_cons]
    obtain ⟨member, start, least⟩ := ih (if f x < f a then x else a)
    have first : f (if f x < f a then x else a) ≤ f a ∧ f (if f x < f a then x else a) ≤ f x := by split <;> omega
    refine ⟨?_, Nat.le_trans start first.1, fun q hq => ?_⟩
    · rcases member with same | inside
      · rw [same]
        split
        · exact .inr List.mem_cons_self
        · exact .inl rfl
      · exact .inr (List.mem_cons_of_mem _ inside)
    · rcases List.mem_cons.1 hq with rfl | hq
      · exact Nat.le_trans start first.2
      · exact least q hq

/-- The code that an interval proposes for the partition `p` of bottleneck `b`, by its code and the two fractions. -/
def proposal (c p b fb fp : Nat) (mayRise held : Bool) : Nat :=
  if p = b then (if c < code090 && mayRise && !held then min code090 (c + code5mV) else c)
  else if fb + 50000 < fp then (if c ≤ code055 then c else max code055 (c - code5mV))
  else c

theorem proposal_bounds {c : Nat} (small : c < 256) (p b fb fp : Nat) (mayRise held : Bool) : proposal c p b fb fp mayRise held < 256 ∧
    proposal c p b fb fp mayRise held ≤ c + code5mV ∧ c ≤ proposal c p b fb fp mayRise held + code5mV ∧
    (c < proposal c p b fb fp mayRise held → p = b) ∧ (proposal c p b fb fp mayRise held < c → fb + 50000 < fp) := by
  unfold proposal code5mV code055 code090
  split
  · next same =>
    split
    · next rises =>
      simp only [Bool.and_eq_true, decide_eq_true_eq] at rises
      omega
    · omega
  · split
    · split <;> omega
    · omega

/-- What an interval proposes for a partition: a step up for the bottleneck, one down for a partition well above it. -/
theorem balanced_at (s : State) (w : List Nat) {p : Nat} (hp : p < 8) : ∃ b < 8, (∀ q < 8, w.getD b 0 ≤ w.getD q 0) ∧
    ∃ c < 256, (s.balanced w)[p]? = some c ∧ c ≤ s.railTarget p + code5mV ∧ s.railTarget p ≤ c + code5mV ∧
      (s.railTarget p < c → p = b) ∧ (c < s.railTarget p → w.getD b 0 + 50000 < w.getD p 0) := by
  obtain ⟨member, -, least⟩ := foldl_least (fun p => w.getD p 0) (List.range 8) 0
  have small : s.railTarget p < 256 := by
    have h := getF_lt s.pow.railSet (railSet_vset p)
    unfold railSet_vset at h
    dsimp only at h
    rwa [show 8 * p + 7 + 1 - 8 * p = 8 by omega] at h
  refine ⟨(List.range 8).foldl (fun b p => if w.getD p 0 < w.getD b 0 then p else b) 0, ?_, fun q hq => least q (List.mem_range.2 hq), ?_⟩
  · rcases member with zero | inside
    · rw [zero]
      decide
    · exact List.mem_range.1 inside
  · unfold balanced
    dsimp only
    rw [List.getElem?_map, List.getElem?_range hp]
    obtain ⟨bound, rises, falls, bottleneck, above⟩ := proposal_bounds small p
      ((List.range 8).foldl (fun b p => if w.getD p 0 < w.getD b 0 then p else b) 0)
      (w.getD ((List.range 8).foldl (fun b p => if w.getD p 0 < w.getD b 0 then p else b) 0) 0) (w.getD p 0) _ _
    exact ⟨_, bound, rfl, rises, falls, bottleneck, above⟩

theorem railSet_vset_ok {p : Nat} (hp : p < 8) : (railSet_vset p).ok := by
  unfold Field.ok railSet_vset
  dsimp only
  omega

theorem railSet_vset_beside {p q : Nat} (hp : p < 8) (hq : q < 8) (other : q ≠ p) : (railSet_vset q).Beside (railSet_vset p) := by
  unfold Field.Beside railSet_vset
  dsimp only
  omega

/-- One turn of the new targets. -/
def targetTold (s : State) (codes : List Nat) (p : Nat) : State :=
  let c := codes.getD p (s.railTarget p)
  let free := s.railGoal p == s.railTarget p
  let u : State := { s with pow := { s.pow with railSet := setF s.pow.railSet (railSet_vset p) c } }
  if free || decide (c < u.railGoal p) then u.setRail p c else u

theorem railSet_targetTold (s : State) (codes : List Nat) (p : Nat) :
    (s.targetTold codes p).pow.railSet = setF s.pow.railSet (railSet_vset p) (codes.getD p (s.railTarget p)) := by
  obtain ⟨told, c, u, set_, e⟩ : ∃ (told : Bool) (c : Nat) (u : State),
      u.pow.railSet = setF s.pow.railSet (railSet_vset p) (codes.getD p (s.railTarget p)) ∧
      s.targetTold codes p = if told then u.setRail p c else u := ⟨_, _, _, rfl, rfl⟩
  have moves : RailsMove u (if told then u.setRail p c else u) := .ite (setRail_moves ..) (.refl u)
  rw [e, moves.pow]
  exact set_

/-- A partition's target is the code given for it. -/
theorem railTarget_applyRails (s : State) {codes : List Nat} {p c : Nat} (hp : p < 8) (given : codes[p]? = some c) (small : c < 256) :
    (s.applyRails codes).railTarget p = c := by
  have own : ∀ u : State, (u.targetTold codes p).railTarget p = c := by
    intro u
    unfold railTarget
    rw [railSet_targetTold, List.getD_eq_getElem?_getD, given, getF_setF _ (railSet_vset_ok hp)]
    refine Nat.mod_eq_of_lt ?_
    unfold railSet_vset
    dsimp only
    rwa [show 8 * p + 7 + 1 - 8 * p = 8 by omega]
  have walk : ∀ l : List Nat, (∀ q ∈ l, q < 8) → ∀ u : State, (p ∈ l ∨ u.railTarget p = c) → (l.foldl (fun u q => u.targetTold codes q) u).railTarget p = c := by
    intro l small u h
    refine foldl_hits (P := fun q u => q = p → State.railTarget u p = c) (b := p) (fun u q _ same => same ▸ own u) (fun u q hq told _ => ?_)
      (h.imp_right fun told _ => told) rfl
    by_cases same : q = p
    · subst same
      exact own u
    · have kept := told rfl
      unfold railTarget at kept ⊢
      rw [railSet_targetTold, getF_setF_beside (railSet_vset_beside hp (small q hq) same)]
      exact kept
  exact walk (List.range 8) (fun q hq => List.mem_range.1 hq) s (.inl (List.mem_range.2 hp))

/-- A proposal that a host decides on waits for its decision. -/
theorem ask_shows (s : State) (duty arg arg2 : Nat) (ctx : List Nat) :
    (s.ask duty arg arg2 ctx).pow = s.pow ∧ (s.ask duty arg arg2 ctx).pendingOn duty ≠ [] := by
  refine ⟨(congrArg State.pow (s.unnoted_toHosts (.decisionReq s.nextReq duty s.deadline ctx) false) :), ?_⟩
  unfold pendingOn ask
  simp

section
variable {s : State} (alive : s.alive = true) (running : s.devState = DS.running) (idle : s.pendingOn 7 = [])
include alive running idle

theorem balancing_eq (w : List Nat) : s.balancing w =
    if s.asks 7 then s.ask 7 (packCodes (s.balanced w)) 0 (s.balanced w) else s.applyRails (s.balanced w) := by
  unfold balancing
  rw [alive, running, idle, if_neg (by decide)]

end

/-! ## Telemetry and the thermal limits (R456, R459) -/

/-- Every partition changed by its number. -/
theorem part_foldl_onPart_own (f : Nat → Part → Part) {l : List Nat} (once : l.Nodup) (s : State) (p : Nat) :
    (l.foldl (fun t q => t.onPart q (f q)) s).part p = if p ∈ l then f p (s.part p) else s.part p := by
  induction l generalizing s with
  | nil => rfl
  | cons q l ih =>
    obtain ⟨fresh, once⟩ := List.nodup_cons.1 once
    rw [List.foldl_cons, ih once]
    by_cases same : p = q
    · subst same
      rw [if_neg fresh, if_pos List.mem_cons_self, part_onPart_same]
    · rw [part_onPart_other s _ same]
      simp [same]

theorem telemetry_shows {s : State} (alive : s.alive = true) (x : Telemetry) : getF (s.telemetry x).pow.state pwrState_tjMax = min x.tjMax 255 ∧
    (∀ p < 8, ((s.telemetry x).part p).tj = x.tj.getD p (s.part p).tj ∧ ((s.telemetry x).part p).hbmTemp = x.hbm.getD p (s.part p).hbmTemp) ∧
    (s.telemetry x).tiles = s.tiles := by
  obtain ⟨v, w, shown, e⟩ : ∃ v w, v = setF s.pow.state pwrState_tjMax (min x.tjMax 255) ∧ s.telemetry x = (List.range 8).foldl (fun s p => s.onPart p (fun a => { a with
      tj := x.tj.getD p a.tj, hbmTemp := x.hbm.getD p a.hbmTemp, vout := x.vout.getD p a.vout, rate := x.rate.getD p a.rate }))
      { s with pow := { s.pow with state := v, railStatus := w } } := by
    unfold telemetry
    rw [alive, if_neg (by decide)]
    exact ⟨_, _, rfl, rfl⟩
  rw [e]
  refine ⟨?_, fun p hp => ?_, foldl_leaves State.tiles _ _ fun u p => onPart_tiles ..⟩
  · rw [foldl_leaves State.pow _ _ fun u p => onPart_pow ..]
    dsimp only
    rw [shown]
    exact (getF_setF (f := pwrState_tjMax) _ ⟨by decide, by decide⟩ _).trans (Nat.mod_eq_of_lt (Nat.lt_succ_of_le (Nat.min_le_right _ _)))
  · rw [part_foldl_onPart_own (fun p a => { a with
      tj := x.tj.getD p a.tj, hbmTemp := x.hbm.getD p a.hbmTemp, vout := x.vout.getD p a.vout, rate := x.rate.getD p a.rate }) List.nodup_range,
      if_pos (List.mem_range.2 hp)]
    exact ⟨rfl, rfl⟩

/-- A partition above a limit is held down; one 3 degrees below both is released. -/
theorem thermalThrottle_shows {s : State} (alive : s.alive = true) (p tj h : Nat) : ∃ hot u,
    (getF s.pow.therm thermLimits_tjThrottle < tj ∨ getF s.pow.therm thermLimits_hbmThrottle < h → hot = true) ∧
    (tj + 3 ≤ getF s.pow.therm thermLimits_tjThrottle ∧ h + 3 ≤ getF s.pow.therm thermLimits_hbmThrottle → hot = false) ∧
    u = s.onPart p (fun a => { a with tj := tj, hbmTemp := h, hot := hot }) ∧
    s.thermalThrottle p tj h = if hot then u.lowerRail p code5mV else u := by
  unfold thermalThrottle
  rw [alive, if_neg (by decide)]
  refine ⟨_, _, ?_, ?_, rfl, rfl⟩
  · intro above
    simp [above]
  · rintro ⟨cool, cooler⟩
    have below : ¬ (getF s.pow.therm thermLimits_tjThrottle < tj ∨ getF s.pow.therm thermLimits_hbmThrottle < h) := by omega
    simp [below, cool, cooler]

theorem thermalTrip_shows {s : State} (alive : s.alive = true) (p : Nat) : (s.thermalTrip p).pins.thermTripN = false ∧
    getF (s.thermalTrip p).pow.railStatus railStatus_off = 255 ∧ (s.thermalTrip p).devState = DS.retired := by
  obtain ⟨u, tripped, e⟩ : ∃ u : State, u.pins.thermTripN = false ∧
      s.thermalTrip p = ((u.railsOff 0xff).event Err.ok 4 p Src.power true).outOfService := by
    unfold thermalTrip
    rw [alive, if_neg (by decide)]
    exact ⟨_, rfl, rfl⟩
  obtain ⟨retired, pins, -, off⟩ := ((u.railsOff 0xff).event Err.ok 4 p Src.power true).outOfService_shows
  obtain ⟨rails, pinsThen⟩ := powered_eq _ (powered_event (u.railsOff 0xff) Err.ok 4 p Src.power true)
  rw [rails, off_railsOff, or_self] at off
  rw [e]
  refine ⟨?_, off, retired⟩
  rw [pins, pinsThen, pins_railsOff]
  exact tripped

end State

open State in
/-- Settles O57: a rail moves by its regulator's answers, samples and losses of them, balancing and the thermal limits, each shown from what
a rail told its code is going to. -/
theorem railsAndThermal : Obligations.RailsAndThermal := by
  unfold Obligations.RailsAndThermal
  intro s _ alive
  refine ⟨fun p hp settles => ⟨fun first => ?first, fun second => ?second, fun nothing => ?nothing, fun c waits new on valid => ⟨fun free => ?told, fun hot rise => ?held⟩⟩,
    fun p settled => ⟨?untimed, ?undone⟩, fun w a hw ha => ?sample, fun early => ?early, fun late => ?late, fun x => ?telemetry,
    fun w running idle => ⟨fun undecided => ?balances, fun decided => ?asks⟩, fun elsewhere w => ?elsewhere, fun p tj h => ?throttle, fun p => ?trip⟩
  case first =>
    refine ⟨_, congrArg Host.Outcome.next (avsTimeout_first alive settles first), rfl, ?_, rfl⟩
    exact congrArg Part.avsRetried (part_setPart_same ..)
  case second =>
    obtain ⟨w, faults, e⟩ := avsTimeout_second alive settles second
    obtain ⟨retired, -, fault, -⟩ := (({ s with pow := { s.pow with railStatus := w } } : State).railsOff (2 ^ p)).outOfService_shows
    refine ⟨_, congrArg Host.Outcome.next e, ?_, railBit_off_outOfService hp ?_, retired⟩
    · have set_ := (railBit_setRailBit s fault_partBits hp true).trans (if_pos rfl)
      unfold railBit at set_ ⊢
      rw [fault, railsOff_beside _ _ (by decide) (by decide), faults]
      exact set_
    · rw [railBit_off_railsOff _ _ hp, Nat.testBit_two_pow_self, Bool.or_true]
  case nothing =>
    have run := avsVdone_eq alive settles
    rw [nothing] at run
    obtain ⟨out, settled, -⟩ := s.voltageDone_shows hp
    exact ⟨_, congrArg Host.Outcome.next run, settled, out⟩
  case told =>
    have run := avsVdone_eq alive settles
    rw [waits] at run
    obtain ⟨out, settled, part, off, -⟩ := s.voltageDone_shows hp
    have code : (s.voltageDone p).railCode p c = c := by
      rw [railCode_voltageDone s hp valid]
      rcases free with cold | fall
      · rw [cold, if_neg Bool.false_ne_true]
      · rw [Nat.min_eq_left (Nat.le_of_lt fall), ite_self]
    have writes := setRail_writes (off.trans on) settled (want := c) (by rw [code, part]; exact Ne.symm new)
    rw [code] at writes
    obtain ⟨told, now, settling⟩ := railWritten_shows (s.voltageDone p) hp c
    refine ⟨_, congrArg Host.Outcome.next (run.trans writes), ?_, ?_, settling⟩
    · rw [told, out]
    · rw [now]
  case held =>
    have run := avsVdone_eq alive settles
    rw [waits] at run
    obtain ⟨out, settled, part, off, -⟩ := s.voltageDone_shows hp
    have code : (s.voltageDone p).railCode p c = (s.part p).rail := by
      rw [railCode_voltageDone s hp valid, hot, if_pos rfl, Nat.min_eq_right (Nat.le_of_lt rise)]
    have same := setRail_same (off.trans on) settled (want := c) (by rw [code, part])
    refine ⟨_, congrArg Host.Outcome.next (run.trans same), out, ?_⟩
    rw [part]
  case untimed =>
    refine congrArg Host.Outcome.next ?_
    unfold avsTimeout
    rw [settled]
    exact if_pos (by simp)
  case undone =>
    refine congrArg Host.Outcome.next ?_
    unfold avsVdone
    rw [settled]
    exact if_pos (by simp)
  case sample =>
    obtain ⟨pinW, meanW, stateW⟩ := s.sampleWord_shows hw ha
    have run := pinSample_eq alive w a
    have moves := s.sampleKept_moves (s.sampleWord w a)
    unfold sampleFollowed at run
    generalize s.sampleKept (s.sampleWord w a) = u at moves run
    generalize s.sampleWord w a = word at pinW meanW stateW moves
    obtain ⟨kept, excursion, power, state, limit, clock⟩ := sampled_shows pinW meanW stateW moves
    rw [power, state, limit] at run
    by_cases quiet : (s.power != PS.active || s.devState == DS.dormant) = true
    · rw [if_pos quiet] at run
      obtain ⟨pin, mean, last, lost⟩ : _ ∧ _ ∧ _ ∧ _ := by simpa [readings] using kept
      refine ⟨_, congrArg Host.Outcome.next run, pin, mean, last, lost, fun active awake => ?_⟩
      simp [active, awake] at quiet
    · rw [if_neg quiet] at run
      obtain ⟨slow, slowExcursion⟩ := slowStep_leaves (if s.sustainW < w then u.overSample w else u.underSample) a
      obtain ⟨overs, overExcursion⟩ := u.overSample_leaves w
      obtain ⟨unders, underExcursion⟩ := u.underSample_leaves
      have shown : (s.pinSample w a).readings = (w, a, s.clock, false) := by
        rw [run, slow]
        split
        · rw [overs, kept]
        · rw [unders, kept]
      obtain ⟨pin, mean, last, lost⟩ : _ ∧ _ ∧ _ ∧ _ := by simpa [readings] using shown
      refine ⟨_, rfl, pin, mean, last, lost, fun _ _ => ⟨fun above none => ?_, fun below => ?_⟩⟩
      · rw [run, slowExcursion, if_pos above, overExcursion, excursion, none, clock]
        rfl
      · rw [run, slowExcursion, if_neg (Nat.not_lt.2 below), underExcursion]
  case early =>
    refine congrArg Host.Outcome.next ?_
    unfold pinLoss
    rw [decide_eq_true early, Bool.or_true, if_pos rfl]
  case late =>
    have run : s.pinLoss = ({ s with pow := { s.pow with pinLost := true } } : State).setRails (fun _ => code060) := by
      unfold pinLoss
      rw [alive, if_neg (by simpa using late)]
    refine ⟨_, congrArg Host.Outcome.next run, ?_, fun p hp on free => railGoal_pinLoss hp rfl on free⟩
    rw [(setRails_moves ..).pow]
  case telemetry => exact ⟨_, rfl, telemetry_shows alive x⟩
  case balances =>
    have run := balancing_eq alive running idle w
    rw [undecided, if_neg Bool.false_ne_true] at run
    refine ⟨_, congrArg Host.Outcome.next run, fun p hp => ?_⟩
    obtain ⟨b, hb, least, c, small, given, rises, falls, bottleneck, above⟩ := s.balanced_at w hp
    rw [railTarget_applyRails s hp given small]
    exact ⟨rises, falls, fun up q hq => bottleneck up ▸ least q hq, fun down => ⟨b, hb, above down⟩⟩
  case asks =>
    have run := balancing_eq alive running idle w
    rw [decided, if_pos rfl] at run
    exact ⟨_, congrArg Host.Outcome.next run, ask_shows ..⟩
  case elsewhere =>
    refine congrArg Host.Outcome.next ?_
    unfold balancing
    exact if_pos (by simp [elsewhere])
  case throttle =>
    obtain ⟨hot, u, holds, releases, held, run⟩ := thermalThrottle_shows alive p tj h
    have part : u.part p = { s.part p with tj := tj, hbmTemp := h, hot := hot } := by rw [held, part_onPart_same]
    have moves : RailsMove u (if hot then u.lowerRail p code5mV else u) := .ite (lowerRail_moves ..) (.refl u)
    have only := moves.parts p
    unfold RailOnly at only
    rw [part] at only
    refine ⟨_, congrArg Host.Outcome.next run, ?_, ?_, fun above => ?_, fun cool => ⟨?_, ?_⟩⟩
    · rw [only]
    · rw [only]
    · rw [only]
      exact holds above
    · rw [only]
      exact releases cool
    · rw [releases cool, if_neg Bool.false_ne_true, held]
      exact onPart_out ..
  case trip => exact ⟨_, rfl, thermalTrip_shows alive p⟩

end Sys2Proof.Machine

/-!
PROOFS. PWR_REQ: the handshake and the states that it enters, the return to ACTIVE, and the dormant watch (R451 to R454).
-/
namespace Sys2Proof.Machine
namespace State

/-! ## The handshake (R452) -/

theorem blockAnswer_pow (s : State) (pow : PowRegs) (b : Nat) : ({ s with pow := pow } : State).blockAnswer b = s.blockAnswer b := rfl

theorem blocks_pow (s : State) (pow : PowRegs) : ({ s with pow := pow } : State).blocks = s.blocks := rfl

/-- A block's refusal: its own, or its last DEFER. -/
def refusalOf (s : State) (n : Nat → Nat) (b : Nat) : Option (Nat × Nat × Nat) := match s.blockAnswer b with
  | .refuse r => some (b, r, n b)
  | .defer _ => if n b = getF s.pow.req pwrReq_deferMax then some (b, 9, n b) else none
  | .accept => none

def defersAt (s : State) (b : Nat) : Bool := match s.blockAnswer b with
  | .defer _ => true
  | _ => false

/-- The blocks that have accepted so far. -/
def acceptedBits (s : State) (bs : List Nat) : Nat :=
  getF s.pow.hs pwrHandshakeStatus_accepted ||| bitsOf (bs.filter (fun b => s.blockAnswer b == .accept))

/-- The state in which the blocks that accept are counted. -/
def counted (s : State) (bs : List Nat) : State :=
  { s with pow := { s.pow with hs := setF s.pow.hs pwrHandshakeStatus_accepted (s.acceptedBits bs) } }

theorem takeAnswers_eq (s : State) (bs : List Nat) (n : Nat → Nat) : s.takeAnswers bs n = match bs.findSome? (s.refusalOf n) with
    | some (b, r, k) => (s.counted bs).refuseHandshake b r k
    | none =>
      if (bs.filter s.defersAt).isEmpty then (s.counted bs).powerEnter
      else { s.counted bs with pow := { (s.counted bs).pow with
        defers := (bs.filter s.defersAt).map (fun b => (b, n b + 1)), askedAt := (s.counted bs).clock } } := by
  unfold takeAnswers refusalOf defersAt counted acceptedBits
  rfl

section
variable {s : State} {bs : List Nat} {n : Nat → Nat}

theorem takeAnswers_refuses (refused : ∃ b ∈ bs, ∃ r, s.blockAnswer b = .refuse r) :
    ∃ b r k, s.takeAnswers bs n = (s.counted bs).refuseHandshake b r k := by
  obtain ⟨b, hb, r, answer⟩ := refused
  have found : (bs.findSome? (s.refusalOf n)).isSome = true :=
    List.findSome?_isSome_iff.2 ⟨b, hb, by unfold refusalOf; rw [answer]; rfl⟩
  obtain ⟨⟨b, r, k⟩, first⟩ := Option.isSome_iff_exists.1 found
  rw [takeAnswers_eq, first]
  exact ⟨b, r, k, rfl⟩

theorem takeAnswers_enters (accepted : ∀ b ∈ bs, s.blockAnswer b = .accept) : s.takeAnswers bs n = (s.counted bs).powerEnter := by
  have unrefused : bs.findSome? (s.refusalOf n) = none := List.findSome?_eq_none_iff.2 fun b hb => by
    unfold refusalOf
    rw [accepted b hb]
  have undeferred : bs.filter s.defersAt = [] := List.filter_eq_nil_iff.2 fun b hb => by
    unfold defersAt
    rw [accepted b hb]
    exact Bool.false_ne_true
  rw [takeAnswers_eq, unrefused, undeferred]
  exact if_pos rfl

theorem takeAnswers_waits (unrefused : ∀ b ∈ bs, ∀ r, s.blockAnswer b ≠ .refuse r) (some_ : ∃ b ∈ bs, s.blockAnswer b ≠ .accept)
    (fresh : ∀ b ∈ bs, n b ≠ getF s.pow.req pwrReq_deferMax) : s.takeAnswers bs n = { s.counted bs with pow := { (s.counted bs).pow with
      defers := (bs.filter s.defersAt).map (fun b => (b, n b + 1)), askedAt := (s.counted bs).clock } } := by
  have none_ : bs.findSome? (s.refusalOf n) = none := List.findSome?_eq_none_iff.2 fun b hb => by
    unfold refusalOf
    cases answer : s.blockAnswer b with
    | accept => rfl
    | defer r => exact if_neg (fresh b hb)
    | refuse r => exact absurd answer (unrefused b hb r)
  have later : ¬ (bs.filter s.defersAt).isEmpty = true := by
    obtain ⟨b, hb, differs⟩ := some_
    intro empty
    have out := List.filter_eq_nil_iff.1 (List.isEmpty_iff.1 empty) b hb
    unfold defersAt at out
    cases answer : s.blockAnswer b with
    | accept => exact differs answer
    | defer r => exact out (by rw [answer])
    | refuse r => exact unrefused b hb r answer
  rw [takeAnswers_eq, none_]
  exact if_neg later

theorem deferring_shows (s : State) (defers : List (Nat × Nat)) (at_ : Nat) :
    ({ s with pow := { s.pow with defers := defers, askedAt := at_ } } : State).power = s.power ∧
    ({ s with pow := { s.pow with defers := defers, askedAt := at_ } } : State).pow.hs = s.pow.hs ∧
    ({ s with pow := { s.pow with defers := defers, askedAt := at_ } } : State).pow.askedAt = at_ := ⟨rfl, rfl, rfl⟩

theorem mem_defers (b : Nat) (unrefused : ∀ r, s.blockAnswer b ≠ .refuse r) (hb : b ∈ bs) (differs : s.blockAnswer b ≠ .accept) :
    b ∈ bs.filter s.defersAt := by
  refine List.mem_filter.2 ⟨hb, ?_⟩
  unfold defersAt
  cases answer : s.blockAnswer b with
  | accept => exact absurd answer differs
  | defer r => rfl
  | refuse r => exact absurd answer (unrefused r)

end

/-- Counting leaves the rest of the handshake, and the power state. -/
theorem counted_shows (s : State) (bs : List Nat) : (s.counted bs).power = s.power ∧ (s.counted bs).hsTarget = s.hsTarget ∧
    getF (s.counted bs).pow.hs pwrHandshakeStatus_result = getF s.pow.hs pwrHandshakeStatus_result ∧ (s.counted bs).devState = s.devState ∧
    (s.counted bs).tiles = s.tiles ∧ (s.counted bs).clock = s.clock := by
  obtain ⟨w, target, result, e⟩ : ∃ w, getF w pwrHandshakeStatus_target = getF s.pow.hs pwrHandshakeStatus_target ∧
      getF w pwrHandshakeStatus_result = getF s.pow.hs pwrHandshakeStatus_result ∧
      s.counted bs = { s with pow := { s.pow with hs := w } } :=
    ⟨_, getF_setF_beside (f := pwrHandshakeStatus_accepted) (by decide) s.pow.hs (s.acceptedBits bs),
      getF_setF_beside (f := pwrHandshakeStatus_accepted) (by decide) s.pow.hs (s.acceptedBits bs), rfl⟩
  rw [e]
  exact ⟨rfl, target, result, rfl, rfl, rfl⟩

/-- A refusal ends the handshake with result 3 and keeps the state. -/
theorem refuseHandshake_shows (s : State) (b r n : Nat) : getF (s.refuseHandshake b r n).pow.hs pwrHandshakeStatus_result = 3 ∧
    (s.refuseHandshake b r n).power = s.power ∧ (s.refuseHandshake b r n).devState = s.devState := by
  obtain ⟨w, k, result, e⟩ : ∃ w k, getF w pwrHandshakeStatus_result = 3 ∧
      s.refuseHandshake b r n = ({ s with pow := { s.pow with hs := w, defers := [] } } : State).event Err.busy 4 k Src.power false := by
    refine ⟨_, _, ?_, rfl⟩
    rw [getF_setF_beside (by decide), getF_setF_beside (by decide), getF_setF_beside (by decide)]
    exact getF_setF (f := pwrHandshakeStatus_result) _ ⟨by decide, by decide⟩ 3
  have pow := (event_stands ({ s with pow := { s.pow with hs := w, defers := [] } } : State) Err.busy 4 k Src.power false).2.1
  rw [e]
  refine ⟨?_, ?_, devState_event ..⟩
  · rw [pow]
    exact result
  · unfold power
    rw [pow]

/-! ## The states entered (R453) -/

/-- The state in which the handshake has succeeded. -/
def agreed (s : State) : State :=
  ({ s with pow := { s.pow with hs := setF s.pow.hs pwrHandshakeStatus_result 2, defers := [] } } : State).event Err.ok 4 s.hsTarget Src.power false

theorem powerEnter_eq (s : State) : s.powerEnter =
    if s.hsTarget = PS.idle then (s.agreed.setPower PS.idle).setRails (fun _ => code055)
    else if s.hsTarget = PS.retain then (s.agreed.setPower PS.retain).setRails (fun _ => code050)
    else if s.hsTarget = PS.dormant then
      (((s.agreed.allTiles (fun t => { resetTile t with prog := [], funcs := [] })).setPower PS.dormant).railsOff 0xff).toState DS.dormant
    else s.agreed.railsDown := by
  unfold powerEnter agreed
  rfl

theorem agreed_shows (s : State) : getF s.agreed.pow.hs pwrHandshakeStatus_result = 2 ∧ s.agreed.tiles = s.tiles := by
  have result := getF_setF (f := pwrHandshakeStatus_result) s.pow.hs ⟨by decide, by decide⟩ 2
  unfold agreed
  generalize setF s.pow.hs pwrHandshakeStatus_result 2 = w at *
  generalize entered : ({ s with pow := { s.pow with hs := w, defers := [] } } : State) = u
  have pow := (event_stands u Err.ok 4 s.hsTarget Src.power false).2.1
  have tiles : (u.event Err.ok 4 s.hsTarget Src.power false).tiles = u.tiles := (congrArg State.tiles (unnoted_event ..) :)
  rw [pow, tiles, ← entered]
  exact ⟨result, rfl⟩

theorem power_setPower (s : State) {x : Nat} (h : x < 8) : (s.setPower x).power = x :=
  (getF_setF (f := pwrState_state) _ ⟨by decide, by decide⟩ x).trans (Nat.mod_eq_of_lt h)

theorem setPower_leaves (s : State) (x : Nat) : (s.setPower x).devState = s.devState ∧ (s.setPower x).pow.table = s.pow.table ∧
    (s.setPower x).pow.hs = s.pow.hs := by
  obtain ⟨w, e⟩ : ∃ w, s.setPower x = { s with pow := { s.pow with state := w } } := ⟨_, rfl⟩
  rw [e]
  exact ⟨rfl, rfl, rfl⟩

theorem tiles_setPower (s : State) (x : Nat) : (s.setPower x).tiles = s.tiles := by
  unfold setPower
  rfl

theorem railsOff_stands (s : State) (mask : Nat) : (s.railsOff mask).power = s.power ∧ (s.railsOff mask).pow.hs = s.pow.hs ∧
    (s.railsOff mask).tiles = s.tiles := by
  obtain ⟨w, e⟩ : ∃ w, s.railsOff mask = { s with pow := { s.pow with railStatus := w } } := ⟨_, rfl⟩
  rw [e]
  exact ⟨rfl, rfl, rfl⟩

/-- Rails that move leave the handshake. -/
theorem RailsMove.hs {s t : State} (h : RailsMove s t) : t.pow.hs = s.pow.hs := by rw [h.pow]

/-- IDLE and RETAIN. -/
theorem powerEnter_quiet {s : State} (quiet : s.hsTarget = PS.idle ∨ s.hsTarget = PS.retain) :
    s.powerEnter.power = s.hsTarget ∧ getF s.powerEnter.pow.hs pwrHandshakeStatus_result = 2 := by
  obtain ⟨x, f, known, run⟩ : ∃ x f, (x = s.hsTarget ∧ x < 8) ∧ s.powerEnter = (s.agreed.setPower x).setRails f := by
    rcases quiet with idle | retain
    · rw [powerEnter_eq, if_pos idle, idle]
      exact ⟨PS.idle, _, ⟨rfl, by decide⟩, rfl⟩
    · rw [powerEnter_eq, retain, if_neg (by decide), if_pos rfl]
      exact ⟨PS.retain, _, ⟨rfl, by decide⟩, rfl⟩
  obtain ⟨same, small⟩ := known
  have moves := (s.agreed.setPower x).setRails_moves f
  rw [run]
  refine ⟨moves.power.trans ((power_setPower _ small).trans same), ?_⟩
  rw [moves.hs, (setPower_leaves _ _).2.2]
  exact s.agreed_shows.1

/-- DORMANT: the tiles are cleared. -/
theorem powerEnter_dormant {s : State} (target : s.hsTarget = PS.dormant) (wf : Sparse.wf Tile.reset s.tiles = true) :
    s.powerEnter.power = PS.dormant ∧ getF s.powerEnter.pow.hs pwrHandshakeStatus_result = 2 ∧ s.powerEnter.devState = DS.dormant ∧
      ∀ tl, (s.powerEnter.tile tl).store = [] := by
  have e := s.powerEnter_eq
  rw [target, if_neg (by decide), if_neg (by decide), if_pos rfl] at e
  obtain ⟨result, tiles⟩ := s.agreed_shows
  obtain ⟨v, power, hs, cleared, run⟩ : ∃ v : State, v.power = PS.dormant ∧ v.pow.hs = s.agreed.pow.hs ∧
      v.tiles = (s.agreed.allTiles (fun t => { resetTile t with prog := [], funcs := [] })).tiles ∧ s.powerEnter = v.toState DS.dormant := by
    refine ⟨_, ?_, ?_, ?_, e⟩
    · exact (railsOff_stands _ _).1.trans (power_setPower (s.agreed.allTiles (fun t => { resetTile t with prog := [], funcs := [] })) (by decide))
    · rw [(railsOff_stands _ _).2.1, (setPower_leaves _ _).2.2, allTiles_pow]
    · rw [(railsOff_stands _ _).2.2, tiles_setPower]
  have read : ∀ tl, s.powerEnter.tile tl = { resetTile (s.agreed.tile tl) with prog := [], funcs := [] } := by
    intro tl
    unfold tile
    rw [run, toState_tiles, cleared]
    exact Sparse.get_mapV (f := fun t : Tile => { resetTile t with prog := [], funcs := [] }) (by decide) (tiles ▸ wf) (tkey tl)
  refine ⟨?_, ?_, ?_, fun tl => ?_⟩
  · rw [run]
    unfold State.power at power ⊢
    rw [toState_pow]
    exact power
  · rw [run, toState_pow, hs]
    exact result
  · rw [run]
    exact devState_toState _ _ (by decide)
  · rw [read]
    rfl

/-- OFF: the rails go down. -/
theorem powerEnter_off {s : State} (target : s.hsTarget = targetOff) : ∃ v : State, s.powerEnter = v.railsDown := by
  have e := s.powerEnter_eq
  rw [target, if_neg (by decide), if_neg (by decide), if_neg (by decide)] at e
  exact ⟨_, e⟩

/-! ## The return to ACTIVE (R451, R453) -/

theorem leaveDormant_shows (s : State) : s.leaveDormant.devState = DS.loaded ∧ s.leaveDormant.power = PS.active ∧
    getF s.leaveDormant.pow.railStatus railStatus_off = 0 ∧ s.leaveDormant.pow.table = s.pow.table := by
  have state : (s.drawJobKeys.toState DS.loaded).devState = DS.loaded := devState_toState _ _ (by decide)
  have table : (s.drawJobKeys.toState DS.loaded).pow.table = s.pow.table := by
    rw [toState_pow]
    unfold drawJobKeys
    rfl
  unfold leaveDormant
  generalize s.drawJobKeys.toState DS.loaded = u at *
  have power := power_setPower u (x := PS.active) (by decide)
  obtain ⟨sameState, sameTable, -⟩ := u.setPower_leaves PS.active
  replace state := sameState.trans state
  replace table := sameTable.trans table
  generalize u.setPower PS.active = v at *
  obtain ⟨w, off, e⟩ : ∃ w, getF w railStatus_off = 0 ∧
      v.railsOn = ({ v with pow := { v.pow with railStatus := w } } : State).setRails v.railTarget :=
    ⟨_, getF_setF (f := railStatus_off) v.pow.railStatus ⟨by decide, by decide⟩ 0, by unfold railsOn; rfl⟩
  rw [e]
  have moves := ({ v with pow := { v.pow with railStatus := w } } : State).setRails_moves v.railTarget
  exact ⟨moves.devState.trans state, moves.power.trans power, (moves.beside _ (by decide)).trans off,
    (congrArg PowRegs.table moves.pow).trans table⟩

theorem ensureActive_shows {s : State} (quiet : s.power = PS.idle ∨ s.power = PS.retain) :
    s.ensureActive.power = PS.active ∧ s.ensureActive.devState = s.devState := by
  have moves := (s.setPower PS.active).setRails_moves (s.setPower PS.active).railTarget
  have e : s.ensureActive = (s.setPower PS.active).setRails (s.setPower PS.active).railTarget := if_pos quiet
  rw [e]
  exact ⟨moves.power.trans (power_setPower s (by decide)), moves.devState⟩

/-! ## PWR_REQ written (R451, R452) -/

/-- The state with PWR_REQ as written. -/
def requested (s : State) (v allow : Word) : State := { s with pow := { s.pow with req := Reg.pwrReq.merged v allow s.pow.req } }

theorem writeDone_powerGo (s : State) (who : Who) (a : Nat) {v : Word} (m allow : Word) (go : flagF v pwrReq_go = true) :
    s.writeDone who a .pwrReq v m allow = (s.requested v allow).powerGo (getF v pwrReq_target) :=
  (writeDone_noSel rfl ..).trans (if_pos go)

/-- The state in which the blocks are asked for a target. -/
def asking (s : State) (target : Nat) : State :=
  { s with pow := { s.pow with
      hs := setF (setF (0xff000000 : Word) pwrHandshakeStatus_target target) pwrHandshakeStatus_result 1, defers := [] } }

theorem powerGo_asks (s : State) {target : Nat} (leaves : target ≠ PS.active) :
    s.powerGo target = (s.asking target).takeAnswers (s.asking target).blocks (fun _ => 0) := by
  unfold powerGo asking
  exact if_neg leaves

theorem asking_shows (s : State) {target : Nat} (h : target < 8) : (s.asking target).hsTarget = target ∧
    getF (s.asking target).pow.hs pwrHandshakeStatus_result = 1 ∧ (s.asking target).power = s.power ∧ (s.asking target).devState = s.devState ∧
    (s.asking target).tiles = s.tiles ∧ (s.asking target).clock = s.clock := by
  obtain ⟨w, at_, one, e⟩ : ∃ w, getF w pwrHandshakeStatus_target = target ∧ getF w pwrHandshakeStatus_result = 1 ∧
      s.asking target = { s with pow := { s.pow with hs := w, defers := [] } } :=
    ⟨_, (getF_setF_beside (f := pwrHandshakeStatus_result) (by decide) _ 1).trans
        ((getF_setF (f := pwrHandshakeStatus_target) _ ⟨by decide, by decide⟩ target).trans (Nat.mod_eq_of_lt h)),
      getF_setF (f := pwrHandshakeStatus_result) _ ⟨by decide, by decide⟩ 1, rfl⟩
  rw [e]
  exact ⟨at_, one, rfl, rfl, rfl, rfl⟩

/-- A bit that is written reads as written. -/
theorem getLsbD_merged_rw (r : Reg) (v old : Word) {i : Nat} (inside : i < 64) (rw_ : r.rw.getLsbD i = true) (sel : r.sel.getLsbD i = false)
    (w1c : r.w1c.getLsbD i = false) (w1s : r.w1s.getLsbD i = false) : (r.merged v (BitVec.allOnes 64) old).getLsbD i = v.getLsbD i := by
  have kept : (r.rw &&& ~~~r.sel).getLsbD i = true := by
    rw [BitVec.getLsbD_and, BitVec.getLsbD_not, rw_, sel, decide_eq_true inside]
    rfl
  have uncleared : (v &&& r.w1c).getLsbD i = false := by rw [BitVec.getLsbD_and, w1c, Bool.and_false]
  have unset : (v &&& r.w1s).getLsbD i = false := by rw [BitVec.getLsbD_and, w1s, Bool.and_false]
  unfold Reg.merged
  dsimp only
  rw [BitVec.and_allOnes (x := r.rw &&& ~~~r.sel), BitVec.and_allOnes (x := v &&& r.w1c), BitVec.and_allOnes (x := v &&& r.w1s),
    BitVec.getLsbD_or, unset, Bool.or_false, BitVec.getLsbD_and, BitVec.getLsbD_not, uncleared, decide_eq_true inside, BitVec.getLsbD_or,
    BitVec.getLsbD_and, BitVec.getLsbD_and (x := v), BitVec.getLsbD_not, kept, decide_eq_true inside]
  simp only [Bool.not_true, Bool.not_false, Bool.and_true, Bool.and_false, Bool.false_or]

theorem deferMax_merged (v old : Word) : getF (Reg.pwrReq.merged v (BitVec.allOnes 64) old) pwrReq_deferMax = getF v pwrReq_deferMax := by
  refine Nat.eq_of_testBit_eq fun i => ?_
  rw [testBit_getF, testBit_getF]
  by_cases inside : i < pwrReq_deferMax.hi + 1 - pwrReq_deferMax.lo
  · have small : i < 4 := inside
    have bits : ∀ i < 4, Reg.pwrReq.rw.getLsbD (pwrReq_deferMax.lo + i) = true ∧ Reg.pwrReq.sel.getLsbD (pwrReq_deferMax.lo + i) = false ∧
        Reg.pwrReq.w1c.getLsbD (pwrReq_deferMax.lo + i) = false ∧ Reg.pwrReq.w1s.getLsbD (pwrReq_deferMax.lo + i) = false := by decide
    obtain ⟨rw_, sel, w1c, w1s⟩ := bits i small
    rw [getLsbD_merged_rw _ v old (by unfold pwrReq_deferMax; dsimp only; omega) rw_ sel w1c w1s]
  · rw [decide_eq_false inside, Bool.false_and, Bool.false_and]

/-! ## The dormant watch (R454) -/

/-- The last entry that matched. -/
def hitNoted (s : State) (i : Nat) : State := { s with pow := { s.pow with dormantCfg := setF s.pow.dormantCfg dormantCfg_lastHit i } }

theorem tableAct_eq (s : State) (i : Nat) : s.tableAct i = match getF (Sparse.get 0 s.pow.table i) dormantTable_action with
    | 2 => (s.hitNoted i).event Err.ok 4 i Src.power false
    | 3 => if (s.hitNoted i).devState = DS.dormant then (s.hitNoted i).leaveDormant else s.hitNoted i
    | 4 => (s.hitNoted i).declareFailed (if getF (Sparse.get 0 s.pow.table i) dormantTable_source = 0 then causeFabric else 0)
    | _ => s.hitNoted i := by
  unfold tableAct hitNoted
  rfl

theorem hitNoted_stays (s : State) (i : Nat) : (s.hitNoted i).devState = s.devState ∧ (s.hitNoted i).power = s.power ∧
    (s.hitNoted i).pow.table = s.pow.table := by
  obtain ⟨w, e⟩ : ∃ w, s.hitNoted i = { s with pow := { s.pow with dormantCfg := w } } := ⟨_, rfl⟩
  rw [e]
  exact ⟨rfl, rfl, rfl⟩

theorem event_stays (s : State) (code kind a src : Nat) (urgent : Bool) : (s.event code kind a src urgent).devState = s.devState ∧
    (s.event code kind a src urgent).power = s.power ∧ (s.event code kind a src urgent).pow.table = s.pow.table := by
  have pow := (event_stands s code kind a src urgent).2.1
  unfold State.power
  rw [pow]
  exact ⟨devState_event .., rfl, rfl⟩

theorem declareFailed_stays (s : State) (cause : Nat) : (s.declareFailed cause).devState = s.devState ∧
    (s.declareFailed cause).power = s.power ∧ (s.declareFailed cause).pow.table = s.pow.table := by
  rw [declareFailed_frame]
  exact ⟨rfl, rfl, rfl⟩

/-- An action other than a wake leaves the device state and the power registers that the walk reads. -/
theorem tableAct_stays {s : State} {i : Nat} (other : getF (Sparse.get 0 s.pow.table i) dormantTable_action ≠ 3 ∨ s.devState ≠ DS.dormant) :
    (s.tableAct i).devState = s.devState ∧ (s.tableAct i).power = s.power ∧ (s.tableAct i).pow.table = s.pow.table := by
  obtain ⟨state, power, table⟩ := s.hitNoted_stays i
  rw [tableAct_eq, ← state, ← power, ← table]
  rw [← state, ← table] at other
  generalize s.hitNoted i = u at *
  split
  · exact event_stays ..
  · next three =>
    rw [if_neg (other.elim (absurd three) id)]
    exact ⟨rfl, rfl, rfl⟩
  · exact declareFailed_stays ..
  · exact ⟨rfl, rfl, rfl⟩

theorem tableAct_wakes {s : State} {i : Nat} (wakes : getF (Sparse.get 0 s.pow.table i) dormantTable_action = 3) (dormant : s.devState = DS.dormant) :
    (s.tableAct i).devState = DS.loaded ∧ (s.tableAct i).power = PS.active ∧ (s.tableAct i).pow.table = s.pow.table := by
  obtain ⟨state, -, table⟩ := s.hitNoted_stays i
  rw [tableAct_eq, wakes]
  generalize s.hitNoted i = u at *
  obtain ⟨loaded, active, -, kept⟩ := u.leaveDormant_shows
  rw [show (match (3 : Nat) with
      | 2 => u.event Err.ok 4 i Src.power false
      | 3 => if u.devState = DS.dormant then u.leaveDormant else u
      | 4 => u.declareFailed (if getF (Sparse.get 0 s.pow.table i) dormantTable_source = 0 then causeFabric else 0)
      | _ => u) = if u.devState = DS.dormant then u.leaveDormant else u from rfl, if_pos (state.trans dormant)]
  exact ⟨loaded, active, kept.trans table⟩

/-- A wake among the actions returns the device to LOADED. -/
theorem foldl_tableAct_wakes {s : State} {l : List Nat} {i : Nat} (hi : i ∈ l) (dormant : s.devState = DS.dormant)
    (wakes : getF (Sparse.get 0 s.pow.table i) dormantTable_action = 3) :
    (l.foldl tableAct s).devState = DS.loaded ∧ (l.foldl tableAct s).power = PS.active := by
  refine foldl_brings_within (σ := State) (I := fun u => u.pow.table = s.pow.table ∧
      (u.devState = DS.dormant ∨ u.devState = DS.loaded ∧ u.power = PS.active))
    (P := fun u => u.devState = DS.loaded ∧ u.power = PS.active) hi s ⟨rfl, .inl dormant⟩ ?_ ?_ ?_
  · rintro u j ⟨table, where_⟩
    by_cases wake : getF (Sparse.get 0 u.pow.table j) dormantTable_action = 3 ∧ u.devState = DS.dormant
    · obtain ⟨state, power, kept⟩ := tableAct_wakes wake.1 wake.2
      exact ⟨kept.trans table, .inr ⟨state, power⟩⟩
    · obtain ⟨state, power, kept⟩ := tableAct_stays (not_and_or.1 wake)
      rw [state, power]
      exact ⟨kept.trans table, where_⟩
  · rintro u ⟨table, where_⟩
    rcases where_ with asleep | awake
    · obtain ⟨state, power, -⟩ := tableAct_wakes (i := i) (by rw [table]; exact wakes) asleep
      exact ⟨state, power⟩
    · obtain ⟨state, power, -⟩ := tableAct_stays (s := u) (i := i) (.inr (by rw [awake.1]; decide))
      rw [state, power]
      exact awake
  · rintro u j - awake
    obtain ⟨state, power, -⟩ := tableAct_stays (s := u) (i := j) (.inr (by rw [awake.1]; decide))
    rw [state, power]
    exact awake

/-- The state in which the wake is counted. -/
def wakeCounted (s : State) : State := { s with pow := { s.pow with dormantCfg := bumpF s.pow.dormantCfg dormantCfg_wakes 1 } }

theorem wakeCounted_eq (s : State) : ∃ w, s.wakeCounted = { s with pow := { s.pow with dormantCfg := w } } := ⟨_, rfl⟩

theorem dormantWake_eq {s : State} (up : s.linksUp = true) (dormant : s.devState = DS.dormant) (sources : List Int) : ∃ w,
    s.dormantWake sources = ((s.tableHits sources).foldl tableAct { s with pow := { s.pow with dormantCfg := w } }).sendBeat
      (bitsOf ((s.tableHits sources).filter (fun i => getF (Sparse.get 0 s.pow.table i) dormantTable_action == 1))) := by
  have run : s.dormantWake sources = ((s.wakeCounted.tableHits sources).foldl tableAct s.wakeCounted).sendBeat
      (bitsOf ((s.wakeCounted.tableHits sources).filter (fun i => getF (Sparse.get 0 s.wakeCounted.pow.table i) dormantTable_action == 1))) := by
    unfold dormantWake wakeCounted
    exact if_neg (by rw [up, dormant]; decide)
  obtain ⟨w, e⟩ := s.wakeCounted_eq
  rw [run, e]
  exact ⟨w, rfl⟩

/-! ## The question asked again (R452) -/

section
variable {s : State} (alive : s.alive = true) (running : s.handshaking = true)
    (due : s.pow.askedAt + getF s.pow.req pwrReq_deferMs * msTicks ≤ s.clock)
include alive running due

theorem deferReask_eq : s.deferReask = if !s.powerMay s.hsTarget then s.refuseHandshake 0 1 0
    else s.takeAnswers (s.pow.defers.map (·.1)) (fun b => Sparse.get 0 s.pow.defers b) := by
  unfold deferReask
  rw [alive, running, if_neg (by simpa using due)]

end
end State

/-- What a power command writes: its target, with go. -/
theorem powerWord (v : Word) {target : Nat} (h : target < 8) : flagF (setF (setF v pwrReq_target target) pwrReq_go 1) pwrReq_go = true ∧
    getF (setF (setF v pwrReq_target target) pwrReq_go 1) pwrReq_target = target ∧
    getF (setF (setF v pwrReq_target target) pwrReq_go 1) pwrReq_deferMax = getF v pwrReq_deferMax := by
  refine ⟨flagF_setF_bit _ (by decide), ?_, ?_⟩
  · rw [getF_setF_beside (by decide)]
    exact (getF_setF (f := pwrReq_target) _ ⟨by decide, by decide⟩ target).trans (Nat.mod_eq_of_lt h)
  · rw [getF_setF_beside (by decide), getF_setF_beside (by decide)]

/-- A power command is its request. -/
theorem exec_power {s : State} {c : Instr} {who : Who} {v : Word} {target : Nat} (h : target < 8)
    (writes : asWrite c = some (who, 0x00030008, setF (setF v pwrReq_target target) pwrReq_go 1)) (accepted : Accepted s c .pwrReq) :
    ∃ u, exec c s = .next (u.powerGo target) ∧ ∃ req, u = { s with pow := { s.pow with req := req } } ∧
      getF req pwrReq_deferMax = getF v pwrReq_deferMax := by
  obtain ⟨go, at_, deferMax⟩ := powerWord v h
  obtain ⟨m, -, e⟩ := exec_accepted writes accepted
  rw [State.writeDone_powerGo s who _ m _ go, at_] at e
  exact ⟨_, e, _, rfl, (State.deferMax_merged _ _).trans deferMax⟩

open State in
/-- Settles O56: a handshake enters its target once every block accepts, ends with a refusal, or waits for the blocks that defer; the return
to ACTIVE and a wake bring the rails back. -/
theorem powerStates : Obligations.PowerStates := by
  unfold Obligations.PowerStates
  intro s canonical
  refine ⟨fun who v accepted => ?active, fun c target who v listed accepted => ?leaves,
    fun alive running => ⟨fun early => ?early, fun due => ⟨fun mayNot => ?mayNot, fun may quiet accept => ?reenters⟩⟩, fun idle => ?idle,
    fun up dormant src => ⟨fun quiet => ?quiet, fun wakes _ => ?wakes⟩, fun awake src => ?awake⟩
  case active =>
    obtain ⟨u, e, req, held, -⟩ := exec_power (target := PS.active) (by decide) rfl accepted
    rw [show u.powerGo PS.active = if u.devState = DS.dormant then u.leaveDormant else u.ensureActive from rfl] at e
    have state : u.devState = s.devState := by rw [held]; rfl
    have power : u.power = s.power := by rw [held]; rfl
    refine ⟨_, e, fun dormant => ?_, fun awake quiet => ?_⟩
    · obtain ⟨loaded, active, off, -⟩ := u.leaveDormant_shows
      rw [if_pos (state.trans dormant)]
      exact ⟨loaded, active, off⟩
    · rw [if_neg (fun dormant => awake (state.symm.trans dormant))]
      rw [← power] at quiet
      obtain ⟨active, kept⟩ := ensureActive_shows quiet
      exact ⟨active, kept.trans state⟩
  case leaves =>
    obtain ⟨small, leaves, writes, known⟩ : target < 8 ∧ target ≠ PS.active ∧
        asWrite c = some (who, 0x00030008, setF (setF v pwrReq_target target) pwrReq_go 1) ∧
        (target = PS.idle ∨ target = PS.retain ∨ target = PS.dormant ∨ target = targetOff) := by
      simp only [List.mem_cons, Prod.mk.injEq, List.not_mem_nil, or_false] at listed
      rcases listed with ⟨rfl, rfl⟩ | ⟨rfl, rfl⟩ | ⟨rfl, rfl⟩ | ⟨rfl, rfl⟩
      · exact ⟨by decide, by decide, rfl, .inl rfl⟩
      · exact ⟨by decide, by decide, rfl, .inr (.inl rfl)⟩
      · exact ⟨by decide, by decide, rfl, .inr (.inr (.inl rfl))⟩
      · exact ⟨by decide, by decide, rfl, .inr (.inr (.inr rfl))⟩
    obtain ⟨u, e, req, held, deferMax⟩ := exec_power small writes accepted
    rw [powerGo_asks u leaves] at e
    obtain ⟨at_, one, powerA, stateA, tilesA, clockA⟩ := u.asking_shows small
    have asked : (∀ b, (u.asking target).blockAnswer b = s.blockAnswer b) ∧ (u.asking target).blocks = s.blocks := by
      obtain ⟨pow, e⟩ : ∃ pow, u.asking target = { s with pow := pow } := by
        rw [held]
        exact ⟨_, rfl⟩
      rw [e]
      exact ⟨blockAnswer_pow s pow, blocks_pow s pow⟩
    obtain ⟨answers, blocks⟩ := asked
    have maxA : getF (u.asking target).pow.req pwrReq_deferMax = getF v pwrReq_deferMax := by rw [held]; exact deferMax
    have powerU : u.power = s.power := by rw [held]; rfl
    have stateU : u.devState = s.devState := by rw [held]; rfl
    have tilesU : u.tiles = s.tiles := by rw [held]
    have clockU : u.clock = s.clock := by rw [held]; rfl
    rw [blocks] at e
    clear held
    generalize u.asking target = w at *
    obtain ⟨powerC, targetC, resultC, stateC, tilesC, clockC⟩ := w.counted_shows s.blocks
    refine ⟨fun accept => ?_, fun refused => ?_, fun unrefused some_ more => ?_⟩
    · rw [takeAnswers_enters fun b hb => (answers b).trans (accept b hb)] at e
      have target' := targetC.trans at_
      refine ⟨_, e, fun quiet => ?_, fun dormant => ?_, fun off => ?_⟩
      · rcases known with idle | retain | dormant | off
        · obtain ⟨power, result⟩ := powerEnter_quiet (s := w.counted s.blocks) (.inl (target'.trans idle))
          exact ⟨power.trans target', result⟩
        · obtain ⟨power, result⟩ := powerEnter_quiet (s := w.counted s.blocks) (.inr (target'.trans retain))
          exact ⟨power.trans target', result⟩
        · obtain ⟨power, result, -⟩ := powerEnter_dormant (s := w.counted s.blocks) (target'.trans dormant)
            (by rw [tilesC, tilesA, tilesU]; exact canonical.tiles)
          exact ⟨power.trans dormant.symm, result⟩
        · exact absurd quiet (by rw [off]; decide)
      · obtain ⟨-, -, state, stores⟩ := powerEnter_dormant (s := w.counted s.blocks) (target'.trans dormant)
          (by rw [tilesC, tilesA, tilesU]; exact canonical.tiles)
        exact ⟨state, stores⟩
      · obtain ⟨z, down⟩ := powerEnter_off (s := w.counted s.blocks) (target'.trans off)
        rw [down]
        exact ⟨rfl, rfl, z.powerCycle_leaves.1, z.powerCycle_leaves.2.1⟩
    · obtain ⟨b, hb, r, answer⟩ := refused
      obtain ⟨b, r, k, refuses⟩ := takeAnswers_refuses (s := w) (bs := s.blocks) (n := fun _ => 0) ⟨b, hb, r, (answers b).trans answer⟩
      rw [refuses] at e
      obtain ⟨result, power, state⟩ := (w.counted s.blocks).refuseHandshake_shows b r k
      exact ⟨_, e, result, by rw [power, powerC, powerA, powerU], by rw [state, stateC, stateA, stateU]⟩
    · have waits := takeAnswers_waits (s := w) (bs := s.blocks) (n := fun _ => 0) (fun b hb r same => unrefused b hb r ((answers b).symm.trans same))
        (some_.imp fun b hb => ⟨hb.1, fun same => hb.2 ((answers b).symm.trans same)⟩) (fun b hb same => more (maxA.symm.trans same.symm))
      rw [waits, clockC, clockA, clockU] at e
      obtain ⟨samePower, sameHs, asked⟩ := deferring_shows (w.counted s.blocks) ((s.blocks.filter w.defersAt).map (fun b => (b, 0 + 1))) s.clock
      refine ⟨_, e, (congrArg (getF · pwrHandshakeStatus_result) sameHs).trans (resultC.trans one), ?_, asked, fun b hb differs => ?_⟩
      · exact samePower.trans (powerC.trans (powerA.trans powerU))
      · exact List.mem_map.2 ⟨b, mem_defers b (fun r same => unrefused b hb r ((answers b).symm.trans same)) hb
          (fun same => differs ((answers b).symm.trans same)), rfl⟩
  case early =>
    refine congrArg Host.Outcome.next ?_
    unfold deferReask
    rw [decide_eq_true early, Bool.or_true, if_pos rfl]
  case mayNot =>
    have run := deferReask_eq alive running due
    rw [mayNot, if_pos (by decide)] at run
    obtain ⟨result, power, -⟩ := s.refuseHandshake_shows 0 1 0
    exact ⟨_, congrArg Host.Outcome.next run, result, power⟩
  case reenters =>
    have run := deferReask_eq alive running due
    rw [may, if_neg (by decide), takeAnswers_enters (fun b hb => by
      obtain ⟨x, hx, rfl⟩ := List.mem_map.1 hb
      exact accept x hx)] at run
    obtain ⟨-, target, -⟩ := s.counted_shows (s.pow.defers.map (·.1))
    rw [← target] at quiet
    obtain ⟨power, result⟩ := powerEnter_quiet quiet
    exact ⟨_, congrArg Host.Outcome.next run, power.trans target, result⟩
  case idle =>
    refine congrArg Host.Outcome.next ?_
    unfold deferReask
    rw [idle]
    exact if_pos (by simp)
  case quiet =>
    obtain ⟨w, run⟩ := dormantWake_eq up dormant src
    rw [quiet] at run
    refine ⟨_, congrArg Host.Outcome.next run, dormant, ?_⟩
    have beat : ({ s with pow := { s.pow with dormantCfg := w } } : State).sendBeat 0 =
        ({ s with pow := { s.pow with dormantCfg := w } } : State).send (.beat s.myHead s.now s.devState s.progressSum 0) := rfl
    rw [← dormant]
    exact congrArg State.out beat
  case wakes =>
    obtain ⟨i, hi, wake⟩ := wakes
    obtain ⟨w, run⟩ := dormantWake_eq up dormant src
    obtain ⟨state, power⟩ := foldl_tableAct_wakes (s := { s with pow := { s.pow with dormantCfg := w } }) hi dormant wake
    refine ⟨_, congrArg Host.Outcome.next run, ?_, ?_⟩
    · exact state
    · exact power
  case awake =>
    refine congrArg Host.Outcome.next ?_
    unfold dormantWake
    exact if_pos (by simp [awake])

end Sys2Proof.Machine

/-!
PROOFS. What a lost link and a port that leaves ACTIVE keep of the port: its place in time, its counts, and the causes that hold it (R371,
R376, R379, R513).
-/
namespace Sys2Proof.Machine

/-! ## A port on which packets are sent again -/

/-- A port that differs at most in what sending packets changes. -/
def Resent (p q : Port) : Prop := ∃ txSeq txc retry used, q = { p with txSeq := txSeq, txc := txc, retry := retry, used := used }

theorem Resent.refl (p : Port) : Resent p p := ⟨_, _, _, _, rfl⟩

theorem Resent.trans {p q r : Port} (h : Resent p q) (k : Resent q r) : Resent p r := by
  obtain ⟨_, _, _, _, rfl⟩ := h
  obtain ⟨_, _, _, _, rfl⟩ := k
  exact ⟨_, _, _, _, rfl⟩

namespace State

theorem port_sendOn (s : State) (m : Nat) (pk : Packet) (n : Nat) : Resent (s.port n) ((s.sendOn m pk).port n) := by
  rw [sendOn_eq, port_of_ports (send_ports ..)]
  by_cases same : n = m
  · subst same
    rw [port_onPort_same]
    exact ⟨_, _, _, _, rfl⟩
  · rw [port_onPort_other s _ same]
    exact .refl _

theorem port_resendVia (s : State) (m n : Nat) : Resent (s.port n) ((s.resendVia m).port n) := by
  unfold resendVia
  refine List.foldlRecOn _ _ (motive := fun u : State => Resent (s.port n) (u.port n)) (Resent.refl _) fun u sent h _ => ?_
  dsimp only
  split
  · exact sent.trans (port_sendOn ..)
  · exact sent

/-- A port whose link is lost. -/
def lostPort (p : Port) (now : Nat) : Port := { p with retry := [], used := [], naks := 0, kaMissed := 0, hops := 0x3f, downAt := some now }

theorem port_linkDown (s : State) (n : Nat) : Resent (lostPort (s.port n) s.clock) ((s.linkDown n).port n) := by
  unfold linkDown
  extract_lets dev known down parted told
  have lost : down.port n = lostPort (s.port n) s.clock := port_onPort_same ..
  have sent : Resent (lostPort (s.port n) s.clock) (parted.port n) := by
    unfold parted
    rw [port_of_ports (chooseParent_ports _), ← lost, ← port_of_ports (abortVia_ports down n) n]
    exact port_resendVia ..
  have heard : told.port n = parted.port n := by
    unfold told
    split
    · exact port_of_ports (linksLost_ports ..) n
    · rfl
  split
  · rw [port_of_ports (quarantine_ports _), heard]
    exact sent
  · rw [heard]
    exact sent

end State

/-- A port that differs at most in what the loss of its link changes. -/
def Loosed (p q : Port) : Prop := ∃ txSeq txc retry used naks kaMissed hops downAt asked, q = { p with
  txSeq := txSeq, txc := txc, retry := retry, used := used, naks := naks, kaMissed := kaMissed, hops := hops, downAt := downAt, asked := asked }

theorem Loosed.samePort {p q : Port} (h : Loosed p q) : SamePort p q := by
  obtain ⟨_, _, _, _, _, _, _, _, _, rfl⟩ := h
  exact ⟨rfl, rfl, rfl, rfl⟩

theorem Loosed.ctl {p q : Port} (h : Loosed p q) : q.ctl = p.ctl := by
  obtain ⟨_, _, _, _, _, _, _, _, _, rfl⟩ := h
  rfl

/-! ## The count of failed tags -/

def authFails (p : Port) : Nat := getF p.status lnkStatus_authFail

theorem authFails_atState (p : Port) (st : Nat) : authFails (atState p st) = authFails p := by
  unfold authFails atState
  dsimp only
  split <;> split <;> simp only [getF_setF_beside (f := lnkStatus_width) (g := lnkStatus_authFail) (by decide),
    getF_setF_beside (f := lnkStatus_downCause) (g := lnkStatus_authFail) (by decide),
    getF_setF_beside (f := lnkStatus_up) (g := lnkStatus_authFail) (by decide),
    getF_setF_beside (f := lnkStatus_state) (g := lnkStatus_authFail) (by decide)]

theorem SamePort.authFails {p q : Port} (h : SamePort p q) : authFails q = authFails p := congrArg (getF · lnkStatus_authFail) h.status

namespace State

/-- The cause with which a port goes down: the first of the one at hand and of those that stand (R513). -/
def causeOf (s : State) (n c : Nat) : Nat := firstCause (c :: (if (s.port n).squelchSeen then [5] else []) ++ s.standing n)

/-- A port that goes down with a cause. -/
def downPort (p : Port) (now st k : Nat) : Port :=
  let p := atState (if activeSt p then (flapPort p now).1 else p) st
  { p with status := setF p.status lnkStatus_downCause k }

theorem port_downWith (s : State) (n st c : Nat) : (s.downWith n st c).port n = downPort (s.port n) s.clock st (s.causeOf n c) :=
  port_onPort_same ..

theorem authFails_downPort (p : Port) (now st k : Nat) : authFails (downPort p now st k) = authFails p := by
  have flapped : authFails (flapPort p now).1 = authFails p := by
    unfold flapPort authFails
    rfl
  have moved : authFails (atState (if activeSt p then (flapPort p now).1 else p) st) = authFails p := by
    rw [authFails_atState]
    split
    · exact flapped
    · rfl
  unfold downPort
  generalize atState (if activeSt p then (flapPort p now).1 else p) st = q at *
  exact (getF_setF_beside (f := lnkStatus_downCause) (g := lnkStatus_authFail) (by decide) _ _).trans moved

theorem downCause_downPort (p : Port) (now st : Nat) {k : Nat} (h : k < 16) : getF (downPort p now st k).status lnkStatus_downCause = k :=
  (getF_setF (f := lnkStatus_downCause) _ ⟨by decide, by decide⟩ k).trans (Nat.mod_eq_of_lt h)

/-- A port squelched is a port down, but for what its lost link leaves. -/
theorem port_squelchPort (s : State) (n st c : Nat) (asked : Bool) :
    Loosed (downPort (s.port n) s.clock st (s.causeOf n c)) ((s.squelchPort n st c asked).port n) := by
  unfold squelchPort
  extract_lets was m told held
  obtain ⟨out, sent⟩ : ∃ out, told = { s with out := out } := by
    unfold told
    split
    · exact s.sendAll_eq _
    · exact ⟨_, rfl⟩
  have down : held.port n = { downPort (s.port n) s.clock st (s.causeOf n c) with asked := asked } := by
    unfold held
    rw [port_onPort_same, port_downWith, sent]
    rfl
  clear_value held
  split
  · obtain ⟨_, _, _, _, e⟩ := port_linkDown held n
    rw [e, down]
    exact ⟨_, _, _, _, _, _, _, _, _, rfl⟩
  · rw [port_onPort_same, down]
    exact ⟨_, _, _, _, _, _, _, _, _, rfl⟩

theorem ctl_downPort (p : Port) (now st k : Nat) : (downPort p now st k).ctl = p.ctl := by
  have flapped : (flapPort p now).1.ctl = p.ctl := by
    unfold flapPort
    rfl
  have moved (q : Port) : (atState q st).ctl = q.ctl := by
    unfold atState
    rfl
  unfold downPort
  dsimp only
  rw [moved]
  split
  · exact flapped
  · rfl

theorem ctl_squelchPort (s : State) (n st c : Nat) (asked : Bool) : ((s.squelchPort n st c asked).port n).ctl = (s.port n).ctl :=
  (port_squelchPort ..).ctl.trans (ctl_downPort ..)

theorem authFails_squelchPort (s : State) (n st c : Nat) (asked : Bool) :
    authFails ((s.squelchPort n st c asked).port n) = authFails (s.port n) :=
  (port_squelchPort ..).samePort.authFails.trans (authFails_downPort ..)

theorem authFails_damp (s : State) (n : Nat) : authFails ((s.damp n).port n) = authFails (s.port n) := by
  unfold damp
  rw [port_onPort_same]
  exact authFails_squelchPort ..

theorem authFails_toRetrain (s : State) (n c : Nat) (asked : Bool) : authFails ((s.toRetrain n c asked).port n) = authFails (s.port n) := by
  have counted : authFails (retrainingPort (s.port n) s.clock c asked) = authFails (s.port n) := by
    refine (getF_setF_beside (f := lnkStatus_retrains) (g := lnkStatus_authFail) (by decide) _ _).trans ?_
    exact authFails_atState ..
  rw [toRetrain_eq]
  split
  · rw [authFails_damp, port_setPort_same]
    exact counted
  · rw [port_setPort_same]
    exact counted

/-! ## The causes that stand (R513) -/

/-- A change of a port that leaves its control, its squelch and its die leaves the causes that stand. -/
theorem standing_onPort (s : State) (n : Nat) {f : Port → Port} (ctl : (f (s.port n)).ctl = (s.port n).ctl)
    (squelch : (f (s.port n)).squelchedFor = (s.port n).squelchedFor) (die : (f (s.port n)).dieLost = (s.port n).dieLost) :
    (s.onPort n f).standing n = s.standing n := by
  unfold standing
  dsimp only
  rw [port_onPort_same, ctl, squelch, die]
  rfl

end State
end Sys2Proof.Machine

/-!
PROOFS. Flits, resends and keepalives on an ACTIVE port (R368, R370, R371, R379, R385).
-/
namespace Sys2Proof.Machine

/-! ## A bundle as it comes in (R368, R371) -/

/-- Every flit of a bundle came in undamaged. -/
def undamaged (fs : List FlitIn) : Bool := fs.all (fun f => f.crcOk && !f.uncorr)

/-- The flits of a bundle carry the numbers that follow. -/
def inOrder (x : Nat) (fs : List FlitIn) : Bool := fs.zipIdx.all (fun f => getF f.1.hdr flit_seq == (x + f.2) % 4096)

/-- The flits of a bundle were taken before. -/
def takenBefore (x : Nat) (fs : List FlitIn) : Bool := fs.all (fun f => decide (2048 ≤ seqAhead x (getF f.hdr flit_seq)))

theorem undamaged_of_clean {fs : List FlitIn} (clean : ∀ f ∈ fs, f.crcOk = true ∧ f.uncorr = false) : undamaged fs = true :=
  List.all_eq_true.2 fun f hf => by
    obtain ⟨crc, corr⟩ := clean f hf
    rw [crc, corr]
    rfl

theorem not_undamaged {fs : List FlitIn} (damaged : ∃ f ∈ fs, f.crcOk = false ∨ f.uncorr = true) : undamaged fs = false := by
  obtain ⟨f, hf, bad⟩ := damaged
  refine List.all_eq_false.2 ⟨f, hf, ?_⟩
  rcases bad with crc | corr
  · simp [crc]
  · simp [corr]

theorem inOrder_of_numbers {x : Nat} {fs : List FlitIn} (numbers : ∀ i f, fs[i]? = some f → getF f.hdr flit_seq = (x + i) % 4096) :
    inOrder x fs = true :=
  List.all_eq_true.2 fun ⟨f, i⟩ hf => beq_iff_eq.2 (numbers i f (List.mk_mem_zipIdx_iff_getElem?.1 hf))

theorem not_inOrder {x i : Nat} {f : FlitIn} {fs : List FlitIn} (at_ : fs[i]? = some f) (gap : getF f.hdr flit_seq ≠ (x + i) % 4096) :
    inOrder x fs = false :=
  List.all_eq_false.2 ⟨(f, i), List.mk_mem_zipIdx_iff_getElem?.2 at_, by simpa using gap⟩

theorem not_takenBefore {x : Nat} {fs : List FlitIn} (new : ∃ f ∈ fs, seqAhead x (getF f.hdr flit_seq) < 2048) : takenBefore x fs = false := by
  obtain ⟨f, hf, ahead⟩ := new
  exact List.all_eq_false.2 ⟨f, hf, by simpa using ahead⟩

/-- The number awaited is no distance ahead. -/
theorem seqAhead_self (x : Nat) : seqAhead x (x % 4096) = 0 := by
  unfold seqAhead
  omega

/-- A port that has counted the codewords of a bundle. -/
def fecCounted (fs : List FlitIn) (p : Port) : Port :=
  { p with fec := bumpF (bumpF p.fec lnkFecCounts_cwCorr (fs.map (·.corr)).sum) lnkFecCounts_cwUncorr (fs.filter (·.uncorr)).length }

theorem fecCounted_eq (fs : List FlitIn) (p : Port) : ∃ w, fecCounted fs p = { p with fec := w } := ⟨_, rfl⟩

/-- A port that has taken a bundle. -/
def bundleTaken (fs : List FlitIn) (p : Port) : Port :=
  let p := fs.foldl (fun (p : Port) f => takeCredit (ackRetry p (getF f.hdr flit_ack)) f.hdr) p
  { p with rxSeq := (p.rxSeq + 4) % 4096, naks := 0 }

theorem ackRetry_eq (p : Port) (ack : Nat) : ∃ retry, ackRetry p ack = { p with retry := retry } := by
  unfold ackRetry
  split
  · exact ⟨_, rfl⟩
  · exact ⟨_, rfl⟩

theorem rxSeq_bundleTaken (fs : List FlitIn) (p : Port) : (bundleTaken fs p).rxSeq = (p.rxSeq + 4) % 4096 := by
  refine congrArg (fun x => (x + 4) % 4096) (foldl_leaves Port.rxSeq fs p fun q f => ?_)
  obtain ⟨retry, e⟩ := ackRetry_eq q (getF f.hdr flit_ack)
  rw [e]
  rfl

/-- A port with one more failed tag. -/
def tagFailed (now : Nat) (p : Port) : Port :=
  { p with
    status := bumpF p.status lnkStatus_authFail 1
    authTimes := now :: p.authTimes.filter (fun t => decide (now < t + 1000 * msTicks)) }

theorem tagFailed_eq (now : Nat) (p : Port) : ∃ w times, tagFailed now p = { p with status := w, authTimes := times } := ⟨_, _, rfl⟩

/-- A port with one more NAK sent. -/
def nakked (p : Port) : Port := { p with fec := bumpF p.fec lnkFecCounts_naks 1, naks := p.naks + 1 }

theorem nakked_eq (p : Port) : ∃ w, nakked p = { p with fec := w, naks := p.naks + 1 } := ⟨_, rfl⟩

namespace State
variable {s : State} {n : Nat}

/-- A change of one port changes nothing but the ports. -/
theorem onPort_only (s : State) (n : Nat) (f : Port → Port) : s.onPort n f = { s with ports := (s.onPort n f).ports } := by
  unfold onPort setPort
  rfl

/-- A port whose status is as it was is as ACTIVE as it was. -/
theorem portActive_of_status {t : State} (h : (t.port n).status = (s.port n).status) : t.portActive n = s.portActive n := by
  unfold portActive activeSt linkSt
  rw [h]

theorem flitBundle_eq (up : s.linksUp = true) (active : s.portActive n = true) (fs : List FlitIn) (tagOk : Bool) :
    s.flitBundle n fs tagOk =
      if !undamaged fs then (s.onPort n (fecCounted fs)).sendNak n
      else if takenBefore (s.port n).rxSeq fs then s.onPort n (fecCounted fs)
      else if !inOrder (s.port n).rxSeq fs then (s.onPort n (fecCounted fs)).sendNak n
      else if !tagOk then (s.onPort n (fecCounted fs)).tagFailure n
      else (s.onPort n (fecCounted fs)).onPort n (bundleTaken fs) := by
  have rxSeq : ((s.onPort n (fecCounted fs)).port n).rxSeq = (s.port n).rxSeq := by
    obtain ⟨w, e⟩ := fecCounted_eq fs (s.port n)
    rw [port_onPort_same, e]
  rw [← rxSeq]
  unfold flitBundle takeBundle undamaged takenBefore inOrder bundleTaken fecCounted
  rw [up, active]
  exact if_neg (by decide)

/-- A NAK, and after the eighth a retrain. -/
theorem sendNak_eq (s : State) (n : Nat) : s.sendNak n =
    if 8 ≤ (s.port n).naks + 1 then
      ((s.onPort n nakked).send (.flit n 2 (s.port n).txSeq (((s.port n).rxSeq + 4095) % 4096) true)).toRetrain n 2 false
    else (s.onPort n nakked).send (.flit n 2 (s.port n).txSeq (((s.port n).rxSeq + 4095) % 4096) true) := by
  unfold sendNak nakked onPort
  rfl

/-- A bundle refused, before the eighth NAK. -/
theorem sendNak_asks (few : (s.port n).naks < 7) :
    (s.sendNak n).out = .flit n 2 (s.port n).txSeq (((s.port n).rxSeq + 4095) % 4096) true :: s.out ∧
      (s.sendNak n).port n = nakked (s.port n) := by
  rw [sendNak_eq, if_neg (by omega)]
  constructor
  · unfold send
    dsimp only
    rw [onPort_out]
  · rw [port_of_ports (send_ports ..), port_onPort_same]

theorem sendNak_retrains (many : 7 ≤ (s.port n).naks) : (s.sendNak n).portActive n = false := by
  rw [sendNak_eq, if_pos (by omega)]
  exact portActive_toRetrain ..

/-- A tag that fails is counted; the third within a second disables the port, another retrains it. -/
theorem tagFailure_eq (s : State) (n : Nat) : s.tagFailure n =
    if 2 ≤ ((s.port n).authTimes.filter (fun t => decide (s.clock < t + 1000 * msTicks))).length then
      (s.onPort n (tagFailed s.clock)).squelchPort n LS.disabled 6 false
    else (s.onPort n (tagFailed s.clock)).toRetrain n 2 false := by
  unfold tagFailure tagFailed onPort
  rfl

theorem tagFailure_counts (s : State) (n : Nat) : (s.tagFailure n).portActive n = false ∧
    authFails ((s.tagFailure n).port n) = getF (bumpF (s.port n).status lnkStatus_authFail 1) lnkStatus_authFail := by
  have counted : authFails ((s.onPort n (tagFailed s.clock)).port n) =
      getF (bumpF (s.port n).status lnkStatus_authFail 1) lnkStatus_authFail := by
    rw [port_onPort_same]
    unfold authFails tagFailed
    rfl
  rw [tagFailure_eq, ← counted]
  split
  · exact ⟨activeSt_of_linkSt (squelchPort_moved _ n 6 false (by decide)).link (by decide), authFails_squelchPort ..⟩
  · exact ⟨portActive_toRetrain .., authFails_toRetrain ..⟩

theorem tagFailure_disables (many : 2 ≤ ((s.port n).authTimes.filter (fun t => decide (s.clock < t + 1000 * msTicks))).length) :
    linkSt ((s.tagFailure n).port n) = LS.disabled ∧ ((s.port n).squelchSeen = false → s.standing n = [] →
      getF ((s.tagFailure n).port n).status lnkStatus_downCause = 6) := by
  rw [tagFailure_eq, if_pos many]
  refine ⟨(squelchPort_moved _ n 6 false (by decide)).link, fun unseen free => ?_⟩
  have six : (s.onPort n (tagFailed s.clock)).causeOf n 6 = 6 := by
    unfold causeOf
    obtain ⟨w, times, e⟩ := tagFailed_eq s.clock (s.port n)
    rw [standing_onPort s n (by rw [e]) (by rw [e]) (by rw [e]), port_onPort_same, free, e]
    dsimp only
    rw [unseen]
    decide
  rw [(port_squelchPort ..).samePort.status, six]
  exact downCause_downPort _ _ _ (by decide)

/-- A failed tag after the codewords are counted is the failed tag. -/
theorem tagFailure_fecCounted (s : State) (n : Nat) (fs : List FlitIn) :
    (((s.onPort n (fecCounted fs)).port n).authTimes = (s.port n).authTimes ∧
      ((s.onPort n (fecCounted fs)).port n).status = (s.port n).status) ∧
    ((s.onPort n (fecCounted fs)).port n).squelchSeen = (s.port n).squelchSeen ∧
      (s.onPort n (fecCounted fs)).standing n = s.standing n ∧ (s.onPort n (fecCounted fs)).clock = s.clock := by
  obtain ⟨w, e⟩ := fecCounted_eq fs (s.port n)
  rw [standing_onPort s n (by rw [e]) (by rw [e]) (by rw [e]), port_onPort_same, e]
  exact ⟨⟨rfl, rfl⟩, rfl, rfl, congrArg (·.count) (onPort_time ..)⟩

theorem nakResend_eq (up : s.linksUp = true) (active : s.portActive n = true) (ack : Nat) : s.nakResend n ack =
    match (ackRetry (s.port n) ack).retry.head? with
    | none => s.setPort n (ackRetry (s.port n) ack)
    | some q =>
      let u := (s.setPort n { ackRetry (s.port n) ack with txc := (ackRetry (s.port n) ack).txc + 1 }).send
        (.bundle n q ((ackRetry (s.port n) ack).txc + 1))
      if rekeyAt ≤ (ackRetry (s.port n) ack).txc + 1 then u.toRetrain n 2 false else u := by
  unfold nakResend
  rw [up, active]
  rfl

theorem keepaliveMiss_eq (up : s.linksUp = true) (active : s.portActive n = true) : s.keepaliveMiss n =
    let u := s.onPort n (fun p => { p with kaMissed := (s.port n).kaMissed + 1 })
    if 5 ≤ (s.port n).kaMissed + 1 then u.toRetrain n 1 false else u := by
  unfold keepaliveMiss
  rw [up, active]
  rfl

end State

open State in
/-- Settles O53: a bundle is taken, dropped, asked for again or distrusted; a resend takes a new transmit count; keepalives are recorded. -/
theorem linkFlits : Obligations.LinkFlits := by
  unfold Obligations.LinkFlits
  intro s n _ up active
  refine ⟨fun fs tagOk refused => ?refused, fun fs tagOk clean before => ?stale, fun fs some_ clean numbers => ?ordered,
    fun ack empty => ?nothingKept, fun ack q first room => ?resends, ?keepaliveSend, fun d pt ts ds sq hd hpt => ?keepalive,
    fun d pt ts ds sq => ?mistagged, fun few => ?missed, fun many => ?lost⟩
  case refused =>
    have run : s.flitBundle n fs tagOk = (s.onPort n (fecCounted fs)).sendNak n := by
      rw [flitBundle_eq up active]
      rcases refused with damaged | ⟨new, i, f, at_, gap⟩
      · rw [not_undamaged damaged]
        rfl
      · rw [not_takenBefore new, not_inOrder at_ gap]
        cases undamaged fs <;> rfl
    obtain ⟨w, e⟩ := fecCounted_eq fs (s.port n)
    have counted : (s.onPort n (fecCounted fs)).port n = { s.port n with fec := w } := (port_onPort_same ..).trans e
    refine ⟨fun few => ⟨_, congrArg Host.Outcome.next run, ?_⟩, fun many => ⟨_, congrArg Host.Outcome.next run, ?_⟩⟩
    · obtain ⟨out, port⟩ := sendNak_asks (s := s.onPort n (fecCounted fs)) (n := n) (by rw [counted]; exact few)
      obtain ⟨w', nak⟩ := nakked_eq { s.port n with fec := w }
      rw [counted, nak] at port
      rw [counted, onPort_out] at out
      refine ⟨out, ?_, ?_, (portActive_of_status ?_).trans active⟩
      · rw [port]
      · rw [port]
      · rw [port]
    · exact sendNak_retrains (by rw [counted]; exact many)
  case stale =>
    have run : s.flitBundle n fs tagOk = s.onPort n (fecCounted fs) := by
      rw [flitBundle_eq up active, undamaged_of_clean clean,
        show takenBefore (s.port n).rxSeq fs = true from List.all_eq_true.2 fun f hf => decide_eq_true (before f hf)]
      rfl
    refine ⟨_, congrArg Host.Outcome.next run, ?_, onPort_only ..⟩
    obtain ⟨w, e⟩ := fecCounted_eq fs (s.port n)
    rw [port_onPort_same, e]
  case ordered =>
    obtain ⟨f, fs', rfl⟩ := List.exists_cons_of_ne_nil some_
    have new : takenBefore (s.port n).rxSeq (f :: fs') = false := not_takenBefore ⟨f, .head _, by
      rw [numbers 0 f rfl, Nat.add_zero, seqAhead_self]
      decide⟩
    have run tagOk := flitBundle_eq up active (f :: fs') tagOk
    rw [undamaged_of_clean clean, new, inOrder_of_numbers numbers] at run
    refine ⟨⟨_, congrArg Host.Outcome.next (run true), ?_, ?_, ?_⟩, _, congrArg Host.Outcome.next (run false), ?_⟩
    · obtain ⟨w, e⟩ := fecCounted_eq (f :: fs') (s.port n)
      exact (congrArg Port.rxSeq (port_onPort_same ..)).trans ((rxSeq_bundleTaken ..).trans (by rw [port_onPort_same, e]))
    · exact (congrArg Port.naks (port_onPort_same ..)).trans rfl
    · exact (onPort_only ..).trans (by rw [onPort_only s n]; rfl)
    · obtain ⟨⟨times, status⟩, seen, free, clock⟩ := s.tagFailure_fecCounted n (f :: fs')
      obtain ⟨down, counts⟩ := (s.onPort n (fecCounted (f :: fs'))).tagFailure_counts n
      rw [status] at counts
      refine ⟨down, counts, fun many => ?_⟩
      rw [← times, ← clock] at many
      rw [← seen, ← free]
      exact tagFailure_disables many
  case nothingKept =>
    have run := nakResend_eq up active ack
    rw [empty] at run
    exact congrArg Host.Outcome.next run
  case resends =>
    have run := nakResend_eq up active ack
    obtain ⟨retry, e⟩ := ackRetry_eq (s.port n) ack
    rw [first] at run
    rw [e] at run
    dsimp only at run
    rw [if_neg (Nat.not_le.2 room)] at run
    have port := port_setPort_same s n { s.port n with retry := retry, txc := (s.port n).txc + 1 }
    refine ⟨_, congrArg Host.Outcome.next run, rfl, ?_, (portActive_of_status ?_).trans active⟩
    · rw [port_of_ports (send_ports ..), port]
    · rw [port_of_ports (send_ports ..), port]
  case keepaliveSend =>
    refine congrArg Host.Outcome.next ?_
    unfold keepaliveSend
    rw [up, active]
    rfl
  case keepalive =>
    have run : s.keepaliveIn n d pt sq true = s.onPort n (fun p => { p with
        kaMissed := 0, squelchSeen := p.squelchSeen || sq, status := setF (setF p.status lnkStatus_peerDev d) lnkStatus_peerPort pt }) := by
      unfold keepaliveIn
      rw [up, active]
      rfl
    refine ⟨_, congrArg Host.Outcome.next run, ?_, ?_, ?_, onPort_only ..⟩
    · rw [port_onPort_same]
    · rw [port_onPort_same]
      exact (getF_setF_beside (f := lnkStatus_peerPort) (g := lnkStatus_peerDev) (by decide) _ _).trans
        ((getF_setF (f := lnkStatus_peerDev) _ ⟨by decide, by decide⟩ d).trans (Nat.mod_eq_of_lt hd))
    · rw [port_onPort_same]
      exact (getF_setF (f := lnkStatus_peerPort) _ ⟨by decide, by decide⟩ pt).trans (Nat.mod_eq_of_lt hpt)
  case mistagged =>
    have run : s.keepaliveIn n d pt sq false = s.tagFailure n := by
      unfold keepaliveIn
      rw [up, active]
      rfl
    exact ⟨_, congrArg Host.Outcome.next run, (s.tagFailure_counts n).1⟩
  case missed =>
    have run := (keepaliveMiss_eq up active).trans (if_neg (by omega))
    refine ⟨_, congrArg Host.Outcome.next run, ?_, (portActive_of_status ?_).trans active⟩
    · rw [port_onPort_same]
    · rw [port_onPort_same]
  case lost =>
    have run := (keepaliveMiss_eq up active).trans (if_pos (by omega))
    exact ⟨_, congrArg Host.Outcome.next run, portActive_toRetrain ..⟩

end Sys2Proof.Machine

/-!
PROOFS. Training and retraining of a port, its lanes, damping, and the writes of LNK_CTL (R331, R379 to R382, R387, R424).
-/
namespace Sys2Proof.Machine

/-- A walk brings a property where every turn among its list keeps what the turn of `b` needs. -/
theorem foldl_brings_among {σ α : Type} {I P : σ → Prop} {f : σ → α → σ} {l : List α} {b : α} (hb : b ∈ l) (s : σ) (start : I s)
    (within : ∀ s, ∀ x ∈ l, I s → I (f s x)) (brings : ∀ s, I s → P (f s b)) (keeps : ∀ s, ∀ x ∈ l, I s → P s → P (f s x)) :
    P (l.foldl f s) := by
  have kept (m : List α) (sub : m ⊆ l) (s : σ) (hi : I s) (hp : P s) : P (m.foldl f s) := by
    induction m generalizing s with
    | nil => exact hp
    | cons x m ih =>
      obtain ⟨hx, sub⟩ := List.cons_subset.1 sub
      exact ih sub _ (within s x hx hi) (keeps s x hx hi hp)
  obtain ⟨before, after, rfl⟩ := List.append_of_mem hb
  rw [List.foldl_append, List.foldl_cons]
  have reached : I (before.foldl f s) :=
    List.foldlRecOn before f start fun u hu x hx => within u x (List.mem_append_left _ hx) hu
  have mid : b ∈ before ++ b :: after := hb
  exact kept after (fun x hx => List.mem_append_right _ (.tail b hx)) _ (within _ b mid reached) (brings _ reached)

/-! ## Lanes tried (R379) -/

/-- A lane tried: open without energy, good again with it. -/
def triedLane (energised : Nat) (p : Port) (k : Nat) : Port :=
  let st := laneSt p k
  let p := setLane p k { laneOf p k with mapped := none }
  if !energised.testBit k then setLaneSt p k (if st = LaneSt.good ∨ st = LaneSt.failed then LaneSt.opened else st)
  else if st = LaneSt.opened ∨ (st = LaneSt.failed ∧ getF (laneOf p k).health lnkHealth_verdict ≠ 3) then setLaneSt p k LaneSt.good
  else p

theorem laneSt_triedLane_other {j k : Nat} (hj : j < 5) (hk : k < 5) (other : j ≠ k) (e : Nat) (p : Port) :
    laneSt (triedLane e p k) j = laneSt p j := by
  unfold triedLane
  dsimp only
  split
  · rw [laneSt_setLaneSt_other hj hk other, laneSt_setLane]
  · split
    · rw [laneSt_setLaneSt_other hj hk other, laneSt_setLane]
    · exact laneSt_setLane ..

/-- A good lane stays good with energy and is open without; one that is open for want of energy stays so. -/
theorem laneSt_triedLane {k : Nat} (hk : k < 5) (e : Nat) {p : Port}
    (h : laneSt p k = LaneSt.good ∨ laneSt p k = LaneSt.opened ∧ e.testBit k = false) :
    laneSt (triedLane e p k) k = if e.testBit k then LaneSt.good else LaneSt.opened := by
  unfold triedLane
  dsimp only
  cases dark : e.testBit k with
  | false =>
    have open_ : (if laneSt p k = LaneSt.good ∨ laneSt p k = LaneSt.failed then LaneSt.opened else laneSt p k) = LaneSt.opened := by
      rcases h with good | ⟨opened, -⟩
      · exact if_pos (.inl good)
      · rw [opened]
        decide
    rw [if_pos (by decide), open_, if_neg (by decide)]
    exact laneSt_setLaneSt_same hk (by decide) _
  | true =>
    have good : laneSt p k = LaneSt.good := h.resolve_right (fun x => absurd (dark.symm.trans x.2) (by decide))
    rw [if_neg (by decide), good, if_neg (by rintro (h | ⟨h, -⟩) <;> exact absurd h (by decide)), if_pos rfl, laneSt_setLane]
    exact good

theorem laneSt_tried {k : Nat} (hk : k < 5) (e : Nat) {p : Port} (good : laneSt p k = LaneSt.good) :
    laneSt ((List.range 5).foldl (triedLane e) p) k = if e.testBit k then LaneSt.good else LaneSt.opened := by
  have kept (u : Port) (j : Nat) (hj : j ∈ List.range 5) (h : laneSt u k = LaneSt.good ∨ laneSt u k = LaneSt.opened ∧ e.testBit k = false) :
      laneSt (triedLane e u j) k = LaneSt.good ∨ laneSt (triedLane e u j) k = LaneSt.opened ∧ e.testBit k = false := by
    by_cases same : k = j
    · subst same
      rw [laneSt_triedLane hk e h]
      cases e.testBit k
      · exact .inr ⟨rfl, rfl⟩
      · exact .inl rfl
    · rw [laneSt_triedLane_other hk (List.mem_range.1 hj) same]
      exact h
  refine foldl_brings_among (I := fun u => laneSt u k = LaneSt.good ∨ laneSt u k = LaneSt.opened ∧ e.testBit k = false)
    (P := fun u => laneSt u k = if e.testBit k then LaneSt.good else LaneSt.opened) (List.mem_range.2 hk) p (.inl good) kept
    (fun u h => laneSt_triedLane hk e h) fun u j hj h p => ?_
  by_cases same : k = j
  · subst same
    exact laneSt_triedLane hk e h
  · rw [laneSt_triedLane_other hk (List.mem_range.1 hj) same]
    exact p

theorem laneSt_atState (p : Port) (st k : Nat) : laneSt (atState p st) k = laneSt p k := by
  unfold laneSt atState
  rfl

/-! ## A lane trained (R379) -/

/-- A port with a lane's TRAIN flit taken. -/
def trainedPort (t : TrainIn) (p : Port) : Port :=
  let p := setLane p t.lane { laneOf p t.lane with mapped := some t.sender }
  { p with
    laneMap := setF (setF p.laneMap (laneMap_inv t.lane) (bit t.inverted)) (laneMap_precode t.lane) (bit t.precode)
    status := setF (setF p.status lnkStatus_peerDev t.peerDev) lnkStatus_peerPort t.peerPort }

theorem linkSt_trainedPort (t : TrainIn) (p : Port) : linkSt (trainedPort t p) = linkSt p :=
  (getF_setF_beside (f := lnkStatus_peerPort) (g := lnkStatus_state) (by decide) _ _).trans
    (getF_setF_beside (f := lnkStatus_peerDev) (g := lnkStatus_state) (by decide) p.status _)

theorem mapped_trainedPort (t : TrainIn) (p : Port) : (laneOf (trainedPort t p) t.lane).mapped = some t.sender := by
  obtain ⟨w, v, e⟩ : ∃ w v, trainedPort t p =
      { setLane p t.lane { laneOf p t.lane with mapped := some t.sender } with laneMap := w, status := v } := ⟨_, _, rfl⟩
  rw [e]
  exact congrArg Lane.mapped (laneOf_setLane_same p t.lane { laneOf p t.lane with mapped := some t.sender })

/-- Every good lane is mapped. -/
def allMapped (p : Port) : Bool := (goodLanes p).all (fun k => (laneOf p k).mapped.isSome)

/-- Lanes that are as they were are mapped as they were. -/
theorem allMapped_congr {p q : Port} (lanes : q.lanes = p.lanes) (status : ∀ k < 5, laneSt q k = laneSt p k) : allMapped q = allMapped p := by
  have good : goodLanes q = goodLanes p := List.filter_congr fun k hk => by rw [status k (List.mem_range.1 hk)]
  unfold allMapped laneOf
  rw [good, lanes]

/-- A port whose width is chosen. -/
theorem assigned_shows (p : Port) : linkSt (assignLanes (atState p LS.eq)) = LS.eq ∧ (assignLanes (atState p LS.eq)).lanes = p.lanes ∧
    ∀ k < 5, laneSt (assignLanes (atState p LS.eq)) k = laneSt p k := by
  have same := assignLanes_sameLanes (atState p LS.eq)
  refine ⟨same.linkSt.trans (linkSt_atState p (by decide)), same.lanes.trans ?_, fun k hk => (same.laneSt hk).trans (laneSt_atState ..)⟩
  unfold atState
  rfl

namespace State
variable {s : State} {n : Nat}

theorem trainLane_eq (s : State) (n : Nat) (t : TrainIn) : s.trainLane n t =
    let u := s.onPort n (trainedPort t)
    if (u.expectedPeer n).any (fun e => e != (t.peerDev, t.peerPort)) then
      (u.downWith n LS.disabled 4).event Err.format 3 (n * 2 ^ 22 + t.peerDev * 64 + t.peerPort) Src.link false
    else if allMapped (u.port n) then u.onPort n (fun p => assignLanes (atState p LS.eq))
    else u := by
  unfold trainLane trainedPort allMapped
  rfl

theorem expectedPeer_onPort (s : State) (n : Nat) (f : Port → Port) : (s.onPort n f).expectedPeer n = s.expectedPeer n := by
  unfold expectedPeer
  rw [onPort_fabric]

theorem trainLane_refuses {t : TrainIn} {e : Nat × Nat} (peer : s.expectedPeer n = some e) (other : e ≠ (t.peerDev, t.peerPort)) :
    linkSt ((s.trainLane n t).port n) = LS.disabled := by
  have unexpected : ((s.onPort n (trainedPort t)).expectedPeer n).any (fun e => e != (t.peerDev, t.peerPort)) = true := by
    rw [expectedPeer_onPort, peer]
    simpa using other
  rw [trainLane_eq]
  dsimp only
  rw [if_pos unexpected, port_of_ports (event_stands ..).2.2]
  exact (downWith_moved _ n 4 (by decide)).link

theorem trainLane_maps {t : TrainIn} (peer : ∀ e, s.expectedPeer n = some e → e = (t.peerDev, t.peerPort)) (map : linkSt (s.port n) = LS.map) :
    (laneOf ((s.trainLane n t).port n) t.lane).mapped = some t.sender ∧
      linkSt ((s.trainLane n t).port n) = if allMapped ((s.trainLane n t).port n) then LS.eq else LS.map := by
  have expected : ¬ ((s.onPort n (trainedPort t)).expectedPeer n).any (fun e => e != (t.peerDev, t.peerPort)) = true := by
    rw [expectedPeer_onPort]
    cases at_ : s.expectedPeer n with
    | none => exact Bool.false_ne_true
    | some e => simp [peer e at_]
  have trained : (s.onPort n (trainedPort t)).port n = trainedPort t (s.port n) := port_onPort_same ..
  rw [trainLane_eq]
  dsimp only
  rw [if_neg expected]
  split
  · next mapped =>
    rw [port_onPort_same]
    rw [trained] at mapped ⊢
    obtain ⟨state, lanes, status⟩ := assigned_shows (trainedPort t (s.port n))
    rw [allMapped_congr lanes status, mapped, state]
    refine ⟨?_, rfl⟩
    rw [← mapped_trainedPort t (s.port n)]
    unfold laneOf
    rw [lanes]
  · next unmapped =>
    rw [trained] at unmapped ⊢
    rw [linkSt_trainedPort]
    exact ⟨mapped_trainedPort .., map⟩

/-! ## A lane lost (R381) -/

/-- A lane that is lost keeps its status, as do the others. -/
theorem laneSt_lostLane (s : State) (n : Nat) {j k : Nat} (hj : j < 5) (hk : k < 5) :
    laneSt ((s.loseLane n k).port n) j = laneSt (s.port n) j := by
  unfold loseLane
  dsimp only
  split
  · split
    · rw [port_setPort_same]
      exact getF_status_setF_logical hk hj _ 7
    · rfl
  · split
    · split
      · rw [port_onPort_same]
        exact (swapIn_sameLanes _ hk).laneSt hj
      · rw [laneSt_toRetrain, port_onPort_same]
        exact (assignLanes_sameLanes _).laneSt hj
    · split
      · rw [port_onPort_same]
        exact (assignLanes_sameLanes _).laneSt hj
      · rfl

/-- The place of a lane in a port with a lane that has just failed. -/
theorem logical_failedPort (p : Port) {j k : Nat} (hj : j < 5) (hk : k < 5) (now : Nat) :
    getF (failedPort p k now).laneMap (laneMap_logical j) = getF p.laneMap (laneMap_logical j) := by
  have marked (q : Port) (st : Nat) : getF (setLaneSt q k st).laneMap (laneMap_logical j) = getF q.laneMap (laneMap_logical j) :=
    getF_logical_setF_status hk hj _ st
  have recorded (q : Port) (l : Lane) : (setLane q k l).laneMap = q.laneMap := rfl
  unfold failedPort
  dsimp only
  obtain ⟨l, e | e⟩ := flapLane_eq (setLaneSt (setLane p k { laneOf p k with
    health := setF (laneOf p k).health lnkHealth_verdict 3 }) k LaneSt.failed) k now
  · rw [e, recorded, marked, recorded]
  · rw [e, marked, recorded, marked, recorded]

theorem standby_failedPort (p : Port) {k : Nat} (hk : k < 5) (now : Nat) : standby (failedPort p k now) = standby p := by
  unfold standby
  have same : ∀ l : List Nat, (∀ j ∈ l, j < 5) → l.find? (fun j => getF (failedPort p k now).laneMap (laneMap_logical j) == 4) =
      l.find? (fun j => getF p.laneMap (laneMap_logical j) == 4) := by
    intro l small
    induction l with
    | nil => rfl
    | cons j l ih => rw [List.find?_cons, List.find?_cons, logical_failedPort p (small j (.head l)) hk, ih fun i hi => small i (.tail j hi)]
  exact same _ fun j hj => List.mem_range.1 hj

/-- A lane whose place another takes carries no data. -/
theorem not_mem_dataLanes_swapIn {p : Port} {k : Nat} (hk : k < 5) (some_ : (standby p).isSome = true) : k ∉ dataLanes (swapIn p k) := by
  obtain ⟨j, by_⟩ := Option.isSome_iff_exists.1 some_
  have seven : getF (swapIn p k).laneMap (laneMap_logical k) = 7 := by
    have e : (swapIn p k).laneMap = setF (setF p.laneMap (laneMap_logical j) (getF p.laneMap (laneMap_logical k))) (laneMap_logical k) 7 := by
      unfold swapIn
      rw [by_]
    rw [e, getF_setF _ (laneMap_logical_ok hk)]
    exact Nat.mod_eq_of_lt (by unfold laneMap_logical; dsimp only; rw [show 8 * k + 7 + 1 - (8 * k + 5) = 3 by omega]; decide)
  intro data
  have below := of_decide_eq_true (List.mem_filter.1 data).2
  omega

/-- A data lane of an ACTIVE port fails: the lane that stands by takes its place, or the port retrains. -/
theorem failLane_shows {k : Nat} (active : s.portActive n = true) (data : k ∈ dataLanes (s.port n)) :
    ((standby (s.port n)).isSome = true → (s.failLane n k).portActive n = true ∧ k ∉ dataLanes ((s.failLane n k).port n)) ∧
    (standby (s.port n) = none → (s.failLane n k).portActive n = false) := by
  have hk := mem_dataLanes_lt data
  have port : (s.onPort n (failedPort · k s.clock)).port n = failedPort (s.port n) k s.clock := port_onPort_same ..
  have data' : (!(dataLanes ((s.onPort n (failedPort · k s.clock)).port n)).contains k) = false := by
    rw [port, dataLanes_failedPort _ hk]
    simpa using data
  have status : ((s.onPort n (failedPort · k s.clock)).port n).status = (s.port n).status := by rw [port, failedPort_status]
  have active' : activeSt ((s.onPort n (failedPort · k s.clock)).port n) = true := by
    unfold activeSt linkSt
    rw [status]
    exact active
  have standing : standby ((s.onPort n (failedPort · k s.clock)).port n) = standby (s.port n) := by rw [port, standby_failedPort _ hk]
  rw [failLane_eq]
  generalize s.onPort n (failedPort · k s.clock) = u at *
  unfold loseLane
  dsimp only
  rw [data', if_neg Bool.false_ne_true, if_pos active', ← standing]
  refine ⟨fun some_ => ?_, fun none_ => ?_⟩
  · rw [if_pos some_]
    unfold portActive
    rw [port_onPort_same]
    refine ⟨?_, not_mem_dataLanes_swapIn hk some_⟩
    unfold activeSt at active' ⊢
    rw [(swapIn_sameLanes _ hk).linkSt]
    exact active'
  · rw [none_, if_neg (show ¬ (none : Option Nat).isSome = true from Bool.false_ne_true)]
    exact portActive_toRetrain ..

/-- A lane whose codeword lock was lost: it may be tried again. -/
def lockLost (k : Nat) (p : Port) : Port := setLane p k { laneOf p k with health := setF (laneOf p k).health lnkHealth_verdict 0 }

theorem laneFailure_eq {k : Nat} (up : s.linksUp = true) (active : s.portActive n = true) (lost : Bool) : s.laneFailure n k lost =
    if lost then (s.failLane n k).onPort n (lockLost k) else s.failLane n k := by
  unfold laneFailure lockLost
  rw [up, active]
  exact if_neg (by simp)

/-- A port with the record of a lane changed is that port in its state, its lanes' statuses and its data lanes. -/
theorem lockLost_beside (s : State) (n k : Nat) : (s.onPort n (lockLost k)).portActive n = s.portActive n ∧
    laneSt ((s.onPort n (lockLost k)).port n) k = laneSt (s.port n) k ∧
    dataLanes ((s.onPort n (lockLost k)).port n) = dataLanes (s.port n) := by
  unfold portActive activeSt
  rw [port_onPort_same]
  unfold lockLost
  rw [linkSt_setLane, laneSt_setLane, dataLanes_setLane]
  exact ⟨rfl, rfl, rfl⟩

/-! ## Writes of LNK_CTL (R379, R387) -/

/-- The state with LNK_CTL as stored. -/
def controlled (s : State) (n : Nat) (w : Word) : State := s.onPort n (fun p => { p with ctl := w })

theorem port_controlled (s : State) (n : Nat) (w : Word) : (s.controlled n w).port n = { s.port n with ctl := w } := port_onPort_same ..

theorem writeDone_lnkCtl (s : State) (who : Who) (a n : Nat) (w m allow : Word) :
    ∃ ctl, s.writeDone who a (.lnkCtl n) w m allow = (s.controlled n ctl).lnkWritten n w m :=
  ⟨_, writeDone_noSel rfl ..⟩

/-- Of LNK_CTL, disable acts where it is written anew. -/
theorem acts_disable (n : Nat) (cur w : Word) :
    ((Reg.lnkCtl n).acted cur w (BitVec.allOnes 64) &&& lnkCtl_disable.mask != 0) = (flagF cur lnkCtl_disable != flagF w lnkCtl_disable) := by
  have bit : ((Reg.lnkCtl n).acted cur w (BitVec.allOnes 64)).getLsbD 2 = (cur.getLsbD 2 != w.getLsbD 2) := by
    rw [acted_allOnes, BitVec.getLsbD_or, BitVec.getLsbD_and, BitVec.getLsbD_and, BitVec.getLsbD_xor,
      show (Reg.lnkCtl n).rw = lnkCtl_maskRw from rfl, show lnkCtl_maskRw.getLsbD 2 = true by decide,
      show (Reg.lnkCtl n).wo ||| (Reg.lnkCtl n).w1c ||| (Reg.lnkCtl n).w1s = lnkCtl_maskWo ||| 0 ||| 0 from rfl,
      show (lnkCtl_maskWo ||| 0 ||| 0).getLsbD 2 = false by decide, Bool.and_true, Bool.and_false,
      Bool.or_false]
  have flag (v : Word) : flagF v lnkCtl_disable = v.getLsbD 2 := by
    unfold flagF lnkCtl_disable
    rw [getF_bit]
    cases v.getLsbD 2 <;> rfl
  rw [show lnkCtl_disable.mask = BitVec.twoPow 64 2 by decide, BitVec.and_twoPow, bit, flag, flag]
  cases cur.getLsbD 2 <;> cases w.getLsbD 2 <;> decide

end State

/-- An accepted write of LNK_CTL. -/
theorem exec_lnkCtl {s : State} {n : Nat} {c : Instr} {who : Who} {w : Word} (writes : asWrite c = some (who, portBase n, w))
    (accepted : Accepted s c (.lnkCtl n)) : ∃ ctl m, exec c s = .next ((s.controlled n ctl).lnkWritten n w m) ∧
      (m &&& lnkCtl_disable.mask != 0) = (flagF (s.port n).ctl lnkCtl_disable != flagF w lnkCtl_disable) := by
  obtain ⟨m, reaches, e⟩ := exec_accepted writes accepted
  obtain ⟨ctl, done⟩ := State.writeDone_lnkCtl s who (portBase n) n w m (BitVec.allOnes 64)
  refine ⟨ctl, m, e.trans (congrArg Host.Outcome.next done), ?_⟩
  rw [← reaches.acted]
  exact State.acts_disable ..

namespace State
variable {s : State} {n : Nat}

theorem lnkWritten_eq {w m : Word} {acts : Bool} (h : (m &&& lnkCtl_disable.mask != 0) = acts) : s.lnkWritten n w m =
    let t := if acts then s.disablePort n (flagF w lnkCtl_disable) else s
    let t := if flagF w lnkCtl_qualify then t.qualifyPort n else t
    if flagF w lnkCtl_retrain then t.retrainPort n else t := by
  unfold lnkWritten
  rw [h]

/-- A port with nothing to send again is in the state it was in. -/
theorem linkSt_emptied (p : Port) (used : Sparse Nat) (naks missed : Nat) :
    linkSt { p with retry := [], used := used, naks := naks, kaMissed := missed } = linkSt p := rfl

theorem linkSt_toDetect (s : State) (n : Nat) : linkSt ((s.toDetect n).port n) = LS.detect ∧ ((s.toDetect n).port n).retry = [] := by
  unfold toDetect
  rw [port_onPort_same]
  exact ⟨(linkSt_emptied ..).trans (linkSt_atState _ (by decide)), rfl⟩

theorem dampingRelease_eq (up : s.linksUp = true) : s.dampingRelease n none =
    if linkSt (s.port n) = LS.damped ∧ s.dampOver (s.port n) (s.port n).penalty (s.port n).penAt (s.port n).dampedAt = true then
      (s.onPort n (fun p => { p with dampedAt := none })).toDetect n
    else s := by
  unfold dampingRelease
  rw [up]
  rfl

/-- Full training of a port; it is damped where its exit from ACTIVE brought its figure to suppress. -/
theorem linkSt_qualifyPort (standing : linkSt (s.port n) ≠ LS.disabled) : linkSt ((s.qualifyPort n).port n) =
    if s.portActive n && (flapPort (s.port n) s.clock).2 then LS.damped else LS.detect := by
  unfold qualifyPort
  rw [if_neg standing]
  extract_lets was hot down trained
  have detect : linkSt (down.port n) = LS.detect := by
    unfold down
    rw [port_onPort_same]
    exact ((downWith_moved s n 2 (by decide)).stays ⟨rfl, rfl, rfl, rfl⟩).link
  clear_value down
  have there : linkSt (trained.port n) = LS.detect := by
    unfold trained
    split
    · exact (linkDown_samePorts down n n).linkSt.trans detect
    · exact (linkSt_toDetect ..).1
  clear_value trained
  unfold hot
  split
  · exact (damp_moved trained n).link
  · exact there

theorem linkSt_disablePort (s : State) (n : Nat) : linkSt ((s.disablePort n true).port n) = LS.disabled ∧
    flagF ((s.disablePort n true).port n).ctl lnkCtl_disable = true := by
  unfold disablePort
  rw [if_pos rfl]
  refine ⟨(squelchPort_moved _ n 7 true (by decide)).link, ?_⟩
  rw [ctl_squelchPort, port_onPort_same]
  exact flagF_setF_bit _ (by decide)

end State

open State in
/-- Settles O54: a port trains state by state, retrains or is damped, and takes the writes that retrain, qualify and disable it. -/
theorem linkTraining : Obligations.LinkTraining := by
  unfold Obligations.LinkTraining
  intro s n _ up
  refine ⟨fun retrain => ⟨fun early => ?early, fun due => ?due, fun lanes => ?complete⟩, fun detect e => ?detect,
    fun map x _ => ⟨fun refused => ?refused, fun expected => ?mapped⟩, fun enabled unmapped x => ?untrained, fun enabled k hk => ?short,
    fun locked => ?lock, fun keys => ⟨?keys, ?refusedKeys⟩, fun active k lost data => ?failure, fun damped => ⟨fun past => ?released, fun not => ?held⟩,
    fun who v accepted noQualify same active => ?retrain, fun who v accepted noRetrain same enabled => ?qualify,
    fun who v accepted noRetrain noQualify on off => ?disable⟩
  case early =>
    refine congrArg Host.Outcome.next ?_
    unfold retrainTimeout
    exact if_pos (by rw [decide_eq_true early, Bool.or_true])
  case due =>
    have run : s.retrainTimeout n = (s.downWith n LS.detect (s.port n).retrainCause).linkDown n := by
      unfold retrainTimeout
      dsimp only
      rw [up, retrain, decide_eq_false (Nat.not_lt.2 due)]
      exact if_neg (by decide)
    refine ⟨_, congrArg Host.Outcome.next run, ?_, ?_⟩
    · exact (linkDown_samePorts _ n n).linkSt.trans (downWith_moved s n _ (by decide)).link
    · obtain ⟨_, _, _, _, e⟩ := port_linkDown (s.downWith n LS.detect (s.port n).retrainCause) n
      rw [e]
      rfl
  case complete =>
    have run : s.retrainComplete n = s.toActive n := by
      unfold retrainComplete
      rw [up, retrain]
      exact if_pos (by simpa using lanes)
    obtain ⟨out, w, e⟩ := s.toActive_eq n
    refine ⟨_, congrArg Host.Outcome.next run, portActive_toActive s n, ?_, ?_, by rw [e]⟩
    · rw [port_toActive_same]
      exact downCause_activated ..
    · rw [port_toActive_same]
      rfl
  case detect =>
    have run : s.detectTimeout n e = s.onPort n (fun p => atState ((List.range 5).foldl (triedLane e) p) LS.map) := by
      unfold detectTimeout triedLane
      rw [up, detect]
      exact if_neg (by decide)
    refine ⟨_, congrArg Host.Outcome.next run, ?_, fun k hk good => ?_, onPort_only ..⟩
    · rw [port_onPort_same]
      exact linkSt_atState _ (by decide)
    · rw [port_onPort_same, laneSt_atState]
      exact laneSt_tried hk e good
  case refused =>
    obtain ⟨e, peer, other⟩ := refused
    have run : s.train n x = s.trainLane n x := by
      unfold train
      rw [up, map]
      rfl
    exact ⟨_, congrArg Host.Outcome.next run, trainLane_refuses peer other⟩
  case mapped =>
    have run : s.train n x = s.trainLane n x := by
      unfold train
      rw [up, map]
      rfl
    exact ⟨_, congrArg Host.Outcome.next run, trainLane_maps expected map⟩
  case untrained =>
    refine congrArg Host.Outcome.next ?_
    unfold train
    rw [if_neg (by rw [up]; decide), if_neg enabled, if_neg unmapped]
  case short =>
    have run : s.laneShort n k = (s.onPort n (fun p => setLaneSt p k LaneSt.shorted)).loseLane n k := by
      unfold laneShort
      exact if_neg (by rw [up]; simpa using enabled)
    refine ⟨_, congrArg Host.Outcome.next run, ?_⟩
    rw [laneSt_lostLane _ n hk hk, port_onPort_same]
    exact laneSt_setLaneSt_same hk (by decide) _
  case lock =>
    have run : s.fecLock n = s.onPort n (fun p => atState p LS.keys) := by
      unfold fecLock
      exact if_pos (by rw [up]; simpa using locked)
    refine ⟨_, congrArg Host.Outcome.next run, ?_, onPort_only ..⟩
    rw [port_onPort_same]
    exact linkSt_atState _ (by decide)
  case keys =>
    have run : s.linkKeyExchange n true = s.toActive n := by
      unfold linkKeyExchange
      rw [up, keys]
      rfl
    refine ⟨_, congrArg Host.Outcome.next run, portActive_toActive s n, ?_⟩
    rw [port_toActive_same]
    rfl
  case refusedKeys =>
    have run : s.linkKeyExchange n false = s.downWith n LS.disabled 6 := by
      unfold linkKeyExchange
      rw [up, keys]
      rfl
    refine ⟨_, congrArg Host.Outcome.next run, (downWith_moved s n 6 (by decide)).link, ?_⟩
    unfold downWith
    exact onPort_sec ..
  case failure =>
    have run := laneFailure_eq up active (k := k) lost
    have marked := laneSt_failLane active data
    have rest := failLane_shows active data
    refine ⟨_, congrArg Host.Outcome.next run, ?_⟩
    split
    · obtain ⟨sameActive, sameLane, sameData⟩ := (s.failLane n k).lockLost_beside n k
      rw [sameActive, sameLane, sameData]
      exact ⟨marked, rest⟩
    · exact ⟨marked, rest⟩
  case released =>
    exact ⟨_, congrArg Host.Outcome.next ((dampingRelease_eq up).trans (if_pos ⟨damped, past⟩)), linkSt_toDetect ..⟩
  case held =>
    exact congrArg Host.Outcome.next ((dampingRelease_eq up).trans (if_neg fun h => absurd (not.symm.trans h.2) (by decide)))
  case retrain =>
    obtain ⟨ctl, m, e, acts⟩ := exec_lnkCtl rfl accepted
    rw [flagF_setF_beside (by decide), same, bne_self_eq_false] at acts
    rw [lnkWritten_eq acts, flagF_setF_beside (f := lnkCtl_retrain) (g := lnkCtl_qualify) (by decide), noQualify,
      show flagF (setF v lnkCtl_retrain 1) lnkCtl_retrain = true from flagF_setF_bit v (by decide)] at e
    refine ⟨_, e, ?_⟩
    have here : (s.controlled n ctl).portActive n = true := (portActive_of_status (by rw [port_controlled])).trans active
    change (if (s.controlled n ctl).portActive n then (s.controlled n ctl).toRetrain n 2 true else s.controlled n ctl).portActive n = false
    rw [if_pos here]
    exact portActive_toRetrain ..
  case qualify =>
    obtain ⟨ctl, m, e, acts⟩ := exec_lnkCtl rfl accepted
    rw [flagF_setF_beside (by decide), same, bne_self_eq_false] at acts
    rw [lnkWritten_eq acts, flagF_setF_beside (f := lnkCtl_qualify) (g := lnkCtl_retrain) (by decide), noRetrain,
      show flagF (setF v lnkCtl_qualify 1) lnkCtl_qualify = true from flagF_setF_bit v (by decide)] at e
    have port := port_controlled s n ctl
    have here : (s.controlled n ctl).portActive n = s.portActive n := portActive_of_status (by rw [port])
    have figure : (flapPort ((s.controlled n ctl).port n) (s.controlled n ctl).clock).2 = (flapPort (s.port n) s.clock).2 := by
      rw [port]
      rfl
    have qualified := linkSt_qualifyPort (s := s.controlled n ctl) (n := n) (by rw [port]; exact enabled)
    rw [here, figure] at qualified
    exact ⟨_, e, qualified⟩
  case disable =>
    obtain ⟨ctl, m, e, acts⟩ := exec_lnkCtl rfl accepted
    rw [on, off] at acts
    rw [lnkWritten_eq acts, on, noQualify, noRetrain] at e
    exact ⟨_, e, linkSt_disablePort ..⟩

end Sys2Proof.Machine

/-!
PROOFS. What reports, refusals and fences of other devices leave as it was: the resets that run, the clock, the fences of the partitions
and the tiles (R435, R439, R445).
-/
namespace Sys2Proof.Machine

/-- From `r` to `s` the resets, the clock and the fences of the partitions are as they were. -/
structure Guarded (r s : State) : Prop where
  rst : s.rst = r.rst
  clock : s.clock = r.clock
  fence : ∀ p, (s.part p).fenceStatus = (r.part p).fenceStatus

namespace Guarded
variable {r s t : State}

theorem refl (s : State) : Guarded s s := ⟨rfl, rfl, fun _ => rfl⟩

theorem trans (a : Guarded r s) (b : Guarded s t) : Guarded r t :=
  ⟨b.rst.trans a.rst, b.clock.trans a.clock, fun p => (b.fence p).trans (a.fence p)⟩

theorem foldl {α : Type} {f : State → α → State} (l : List α) (s : State) (step : ∀ t x, Guarded t (f t x)) : Guarded s (l.foldl f s) :=
  List.foldlRecOn (motive := Guarded s) l f (.refl s) fun t ht x _ => ht.trans (step t x)

theorem ite {c : Prop} [Decidable c] (hs : Guarded r s) (ht : Guarded r t) : Guarded r (if c then s else t) := by
  split
  · exact hs
  · exact ht

/-- A change of anything else. -/
theorem upd (rst : s.rst = r.rst) (time : s.time = r.time) (parts : s.parts = r.parts) : Guarded r s :=
  ⟨rst, congrArg (·.count) time, fun p => congrArg (fun l => (Sparse.get Part.reset l p).fenceStatus) parts⟩

theorem partFenced (h : Guarded r s) (p : Nat) : s.partFenced p = r.partFenced p := congrArg (flagF · fenceStatus_fenced) (h.fence p)

end Guarded

/-- From `r` to `s` the tiles are as they were as well. -/
structure Steady (r s : State) : Prop where
  guarded : Guarded r s
  tiles : s.tiles = r.tiles

namespace Steady
variable {r s t : State}

theorem refl (s : State) : Steady s s := ⟨.refl s, rfl⟩

theorem trans (a : Steady r s) (b : Steady s t) : Steady r t := ⟨a.guarded.trans b.guarded, b.tiles.trans a.tiles⟩

theorem foldl {α : Type} {f : State → α → State} (l : List α) (s : State) (step : ∀ t x, Steady t (f t x)) : Steady s (l.foldl f s) :=
  List.foldlRecOn (motive := Steady s) l f (.refl s) fun t ht x _ => ht.trans (step t x)

theorem ite {c : Prop} [Decidable c] (hs : Steady r s) (ht : Steady r t) : Steady r (if c then s else t) := by
  split
  · exact hs
  · exact ht

theorem upd (rst : s.rst = r.rst) (time : s.time = r.time) (parts : s.parts = r.parts) (tiles : s.tiles = r.tiles) : Steady r s :=
  ⟨.upd rst time parts, tiles⟩

theorem tile (h : Steady r s) (tl : TileRef) : s.tile tl = r.tile tl := congrArg (Sparse.get Tile.reset · (tkey tl)) h.tiles

end Steady

namespace State

/-! ## Messages, records and EVENTs -/

theorem send_steady (s : State) (m : Msg) : Steady s (s.send m) := .upd rfl rfl rfl rfl

theorem sendAll_steady (s : State) (ms : List Msg) : Steady s (s.sendAll ms) := .foldl ms s send_steady

theorem onJob_steady (s : State) (f : Job → Job) : Steady s (s.onJob f) := .upd rfl rfl rfl rfl

theorem failBit_steady (s : State) (f : Field) : Steady s (s.failBit f) := by
  unfold failBit
  exact .upd rfl rfl rfl rfl

theorem sec_steady (s : State) (x : SecRegs) : Steady s { s with sec := x } := .upd rfl rfl rfl rfl

theorem fabric_steady (s : State) (x : Fabric) : Steady s { s with fabric := x } := .upd rfl rfl rfl rfl

theorem onFd_steady (s : State) (f : Fd → Fd) : Steady s (s.onFd f) := .upd rfl rfl rfl rfl

/-- A change of a partition that leaves its fence. -/
theorem onPart_guarded (s : State) (p : Nat) {f : Part → Part} (same : ∀ a, (f a).fenceStatus = a.fenceStatus) : Guarded s (s.onPart p f) := by
  refine ⟨onPart_rst .., congrArg (·.count) (onPart_time ..), fun q => ?_⟩
  by_cases here : q = p
  · subst here
    rw [part_onPart_same, same]
  · rw [part_onPart_other s f here]

theorem onPart_steady (s : State) (p : Nat) {f : Part → Part} (same : ∀ a, (f a).fenceStatus = a.fenceStatus) : Steady s (s.onPart p f) :=
  ⟨onPart_guarded s p same, onPart_tiles ..⟩

theorem ledger_steady (s : State) (p cls code tile arg v a : Nat) : Steady s (s.ledger p cls code tile arg v a) := by
  refine ⟨⟨?_, ?_, fun q => ?_⟩, ?_⟩
  · unfold ledger setPart
    rfl
  · unfold ledger setPart
    rfl
  · rw [part_ledger]
  · unfold ledger setPart
    rfl

theorem event_steady (s : State) (code cls arg src : Nat) (always : Bool) : Steady s (s.event code cls arg src always) := by
  have noted := s.unnoted_event code cls arg src always
  refine ⟨⟨(congrArg State.rst noted :), (congrArg State.clock noted :), fun p => ?_⟩, (congrArg State.tiles noted :)⟩
  rw [part_event]

theorem toHosts_steady (s : State) (m : Msg) (isEvent : Bool) : Steady s (s.toHosts m isEvent) := by
  have told := s.unnoted_toHosts m isEvent
  exact .upd (congrArg State.rst told :) (congrArg State.time told :) (parts_toHosts ..) (congrArg State.tiles told :)

theorem ask_steady (s : State) (duty arg arg2 : Nat) (ctx : List Nat) : Steady s (s.ask duty arg arg2 ctx) := by
  unfold ask
  exact (toHosts_steady s (.decisionReq s.nextReq duty s.deadline ctx) false).trans (.upd rfl rfl rfl rfl)

theorem errRecord_steady (s : State) (code src : Nat) : Steady s (s.errRecord code src) := by
  obtain ⟨w, e⟩ := s.errRecord_eq code src
  rw [e]
  exact .upd rfl rfl rfl rfl

/-! ## The report of a step (R305 to R307) -/

theorem onVint_steady (s : State) (v : Nat) (f : Vint → Vint) : Steady s (s.onVint v f) := by
  rw [onVint_frame]
  exact .upd rfl rfl rfl rfl

theorem takeFence_steady (s : State) (id reason reporters : Nat) : Steady s (s.takeFence id reason reporters) := by
  unfold takeFence
  exact (onFd_steady ..).trans (send_steady ..)

theorem headFence_steady (s : State) (id reason reporters : Nat) : Steady s (s.headFence id reason reporters) := by
  unfold headFence
  exact .ite (.refl s) (.ite (.refl s) (.ite (ask_steady ..) (takeFence_steady ..)))

theorem askFence_steady (s : State) (id reason : Nat) : Steady s (s.askFence id reason) := by
  unfold askFence
  exact .ite (headFence_steady ..) (send_steady ..)

theorem noteMinority_steady (s : State) (ids : List Nat) : Steady s (s.noteMinority ids) := by
  unfold noteMinority
  exact .foldl ids s fun t i => .ite (askFence_steady ..) (onJob_steady ..)

theorem decideCheck_steady (s : State) (pass : Bool) : Steady s (s.decideCheck pass) := by
  unfold decideCheck
  extract_lets r v last stop counted
  have counts : Steady s counted := .ite (.refl s) (onVint_steady ..)
  exact .ite (send_steady ..) (counts.trans ((noteMinority_steady ..).trans (send_steady ..)))

theorem closeCheck_steady (s : State) : Steady s s.closeCheck := by
  unfold closeCheck
  extract_lets r done
  have held : Steady s done := onJob_steady ..
  exact .ite (held.trans (ask_steady ..)) (held.trans (decideCheck_steady ..))

theorem takeCheck_steady (s : State) (r : CheckReport) : Steady s (s.takeCheck r) := by
  unfold takeCheck
  extract_lets kept
  have held : Steady s kept := onJob_steady ..
  exact .ite (event_steady ..) (.ite (.refl s) (.ite (.ite (held.trans (closeCheck_steady _)) (held.trans (send_steady ..))) held))

theorem checkMarked_steady (s : State) (r : CheckReport) : Steady s (s.checkMarked r) := by
  obtain ⟨w, e⟩ := s.checkShown_frame r.bits
  have shown : Steady s (s.checkShown r.bits) := by
    rw [e]
    exact .upd rfl rfl rfl rfl
  unfold checkMarked noted phase
  exact shown.trans ((ledger_steady ..).trans (onVint_steady ..))

theorem sendCheck_steady (s : State) (r : CheckReport) : Steady s (s.sendCheck r) := by
  rw [sendCheck_eq]
  exact .ite ((checkMarked_steady s r).trans (takeCheck_steady ..)) ((checkMarked_steady s r).trans (send_steady ..))

theorem failingReport_steady (s : State) : Steady s s.failingReport := by
  unfold failingReport
  split
  · exact .refl s
  · extract_lets failed
    have marked : Steady s failed := (failBit_steady ..).trans (onJob_steady ..)
    exact .ite marked (marked.trans (sendCheck_steady ..))

/-! ## What a reset does first (R439, R446, R451) -/

theorem RailsMove.steady {s t : State} (h : RailsMove s t) : Steady s t := by
  obtain ⟨frame, -, parts⟩ := h
  refine ⟨⟨?_, ?_, fun p => (parts p).fenceStatus⟩, ?_⟩
  · rw [frame]
  · rw [frame]
    rfl
  · rw [frame]

theorem setPower_steady (s : State) (x : Nat) : Steady s (s.setPower x) := by
  obtain ⟨w, e⟩ : ∃ w, s.setPower x = { s with pow := { s.pow with state := w } } := ⟨_, rfl⟩
  rw [e]
  exact .upd rfl rfl rfl rfl

theorem toState_steady (s : State) (d : Nat) : Steady s (s.toState d) :=
  .upd (toState_rst ..) (toState_time ..) (toState_parts ..) (toState_tiles ..)

theorem railsOn_steady (s : State) : Steady s s.railsOn := by
  obtain ⟨w, e⟩ : ∃ w, s.railsOn = ({ s with pow := { s.pow with railStatus := w } } : State).setRails s.railTarget :=
    ⟨_, by unfold railsOn; rfl⟩
  rw [e]
  refine Steady.trans (s := { s with pow := { s.pow with railStatus := w } }) (.upd rfl rfl rfl rfl) ?_
  exact RailsMove.steady (setRails_moves ..)

theorem drawJobKeys_steady (s : State) : Steady s s.drawJobKeys := by
  obtain ⟨sec, e⟩ : ∃ sec, s.drawJobKeys = { s with sec := sec, mem := [] } := ⟨_, rfl⟩
  rw [e]
  exact .upd rfl rfl rfl rfl

theorem leaveDormant_steady (s : State) : Steady s s.leaveDormant := by
  unfold leaveDormant
  exact (drawJobKeys_steady s).trans ((toState_steady ..).trans ((setPower_steady ..).trans (railsOn_steady _)))

theorem ensureActive_steady (s : State) : Steady s s.ensureActive := by
  unfold ensureActive
  exact .ite ((setPower_steady ..).trans (RailsMove.steady (setRails_moves ..))) (.refl s)

theorem handshakeEnded_steady (s : State) (w : Word) : Steady s { s with pow := { s.pow with hs := w, defers := [] } } := .upd rfl rfl rfl rfl

theorem refuseHandshake_steady (s : State) (b r n : Nat) : Steady s (s.refuseHandshake b r n) := by
  unfold refuseHandshake
  exact (handshakeEnded_steady ..).trans (event_steady ..)

theorem answer_steady (s : State) (n q : Nat) (a : Ans) (src : Nat) : Steady s (s.answer n q a src) := by
  obtain ⟨_, _, _, e⟩ := s.answer_eq n q a src
  rw [e]
  exact .upd rfl rfl rfl rfl

theorem abandonLoad_steady (s : State) : Steady s s.abandonLoad := by
  unfold abandonLoad
  split
  · exact .refl s
  · dsimp only
    split
    · exact Steady.trans (s := { s with img := { s.img with load := none } }) (.upd rfl rfl rfl rfl) (answer_steady ..)
    · exact .upd rfl rfl rfl rfl

/-- A reset first brings power back, refuses a handshake, abandons a load and fails the step. -/
theorem beforeReset_steady (s : State) (p : Nat) : Steady s (s.beforeReset p) := by
  unfold beforeReset
  extract_lets up refused
  have on : Steady s up := .ite (leaveDormant_steady s) (ensureActive_steady s)
  have ended : Steady s refused := .ite (on.trans (refuseHandshake_steady ..)) on
  refine ended.trans ((abandonLoad_steady _).trans ?_)
  unfold failNow
  exact .ite (failingReport_steady _) (.refl _)

/-! ## QUARANTINE (R332) -/

theorem allTiles_guarded (s : State) (f : Tile → Tile) : Guarded s (s.allTiles f) := .upd (allTiles_rst ..) (allTiles_time ..) (allTiles_parts ..)

theorem haltStages_guarded (s : State) : Guarded s s.haltStages := by
  unfold haltStages
  exact (allTiles_guarded s haltTile).trans (.upd rfl rfl rfl)

theorem clearJobKeys_steady (s : State) : Steady s s.clearJobKeys := by
  obtain ⟨sec, e⟩ : ∃ sec, s.clearJobKeys = { s with sec := sec, mem := [] } := ⟨_, rfl⟩
  rw [e]
  exact .upd rfl rfl rfl rfl

theorem refreshKeys_steady (s : State) : Steady s s.refreshKeys := by
  obtain ⟨sec, w, e⟩ : ∃ sec w, s.refreshKeys = { s with sec := sec, dctCounters := w } := ⟨_, _, rfl⟩
  rw [e]
  exact .upd rfl rfl rfl rfl

theorem eraseSlots_steady (s : State) (mask : Nat) : Steady s (s.eraseSlots mask) := by
  unfold eraseSlots
  exact (sec_steady ..).trans (refreshKeys_steady _)

theorem quarantine_guarded (s : State) : Guarded s s.quarantine := by
  unfold quarantine
  extract_lets erased
  have gone : Guarded s erased := (haltStages_guarded s).trans
    ((abandonLoad_steady _).trans ((clearJobKeys_steady _).trans (eraseSlots_steady ..))).guarded
  exact gone.trans ((sec_steady erased { erased.sec with deferred := [] }).trans (toState_steady ..)).guarded

/-! ## Ports that go down (R376, R377, R379) -/

theorem onPort_steady (s : State) (n : Nat) (f : Port → Port) : Steady s (s.onPort n f) :=
  .upd (onPort_rst ..) (onPort_time ..) (onPort_parts ..) (onPort_tiles ..)

theorem abortVia_steady (s : State) (n : Nat) : Steady s (s.abortVia n) := by
  unfold abortVia
  dsimp only
  exact (fabric_steady ..).trans (.foldl _ _ fun t x => send_steady ..)

theorem sendOn_steady (s : State) (n : Nat) (pk : Packet) : Steady s (s.sendOn n pk) := by
  rw [sendOn_eq]
  exact (onPort_steady ..).trans (send_steady ..)

theorem resendVia_steady (s : State) (n : Nat) : Steady s (s.resendVia n) := by
  unfold resendVia
  refine .foldl _ s fun t h => ?_
  dsimp only
  split
  · exact (fabric_steady ..).trans (sendOn_steady ..)
  · exact fabric_steady ..

theorem chooseParent_steady (s : State) : Steady s s.chooseParent := by
  obtain ⟨w, e⟩ := s.chooseParent_eq
  rw [e]
  exact ⟨⟨rfl, rfl, fun _ => rfl⟩, rfl⟩

theorem accuse_steady (s : State) (dev first : Nat) : Steady s (s.accuse dev first) := by
  unfold accuse
  split
  · exact .refl s
  · exact .upd rfl rfl rfl rfl

theorem linksLost_steady (s : State) (dev : Nat) : Steady s (s.linksLost dev) := by
  unfold linksLost
  exact .ite (accuse_steady ..) (.refl s)

theorem linkDown_guarded (s : State) (n : Nat) : Guarded s (s.linkDown n) := by
  unfold linkDown
  extract_lets dev known down parted told
  have left : Steady s parted :=
    (onPort_steady ..).trans ((abortVia_steady ..).trans ((resendVia_steady ..).trans (chooseParent_steady _)))
  have heard : Steady s told := .ite (left.trans (linksLost_steady ..)) left
  exact .ite (heard.guarded.trans (quarantine_guarded _)) heard.guarded

theorem downWith_steady (s : State) (n st c : Nat) : Steady s (s.downWith n st c) := by
  unfold downWith
  exact onPort_steady ..

theorem squelchPort_guarded (s : State) (n st c : Nat) (asked : Bool) : Guarded s (s.squelchPort n st c asked) := by
  unfold squelchPort
  extract_lets was m told held
  have sent : Steady s told := .ite (sendAll_steady ..) (.refl s)
  have down : Steady s held := sent.trans ((downWith_steady ..).trans (onPort_steady ..))
  exact .ite (down.guarded.trans (linkDown_guarded ..)) (down.trans (onPort_steady ..)).guarded

theorem startPort_steady (s : State) (n : Nat) : Steady s (s.startPort n) := by
  unfold startPort
  exact .ite (onPort_steady ..) (.refl s)

theorem reholdPorts_guarded (s : State) : Guarded s s.reholdPorts := by
  unfold reholdPorts
  exact .foldl _ s fun t n => .ite (.refl t) (.ite (startPort_steady ..).guarded (.ite (downWith_steady ..).guarded (squelchPort_guarded ..)))

end State
end Sys2Proof.Machine

/-!
PROOFS. The start of a reset: its scope, its fences, and what it leaves of the tiles (R435, R439, R440).
-/
namespace Sys2Proof.Machine

/-! ## Maps of tiles changed by their keys -/

/-- What holds of the default and of every changed value holds of what is read. -/
theorem Sparse.get_changed {α : Type} [DecidableEq α] {d : α} {P : α → Prop} (start : P d) (f : Nat × α → Nat × α) {k : Nat}
    (same : ∀ x, (f x).1 = x.1) (m : Sparse α) (holds : ∀ v, P (f (k, v)).2) :
    P (Sparse.get d ((m.map f).filter (fun x => x.2 != d)) k) := by
  induction m with
  | nil => exact start
  | cons x m ih =>
    obtain ⟨j, v⟩ := x
    rw [List.map_cons, List.filter_cons]
    split
    · have key := same (j, v)
      by_cases here : j = k
      · subst here
        rw [show f (j, v) = (j, (f (j, v)).2) from Prod.ext key rfl]
        unfold Sparse.get
        rw [if_pos rfl]
        exact holds v
      · rw [show f (j, v) = (j, (f (j, v)).2) from Prod.ext key rfl]
        unfold Sparse.get
        rw [if_neg here]
        exact ih
    · exact ih

/-- A key whose value is not changed reads as it did. -/
theorem Sparse.get_unchanged {α : Type} [DecidableEq α] {d : α} (f : Nat × α → Nat × α) {k : Nat} (same : ∀ x, (f x).1 = x.1)
    (kept : ∀ v, (f (k, v)).2 = v) {b : Nat} {m : Sparse α} (wf : Sparse.wfFrom d b m = true) :
    Sparse.get d ((m.map f).filter (fun x => x.2 != d)) k = Sparse.get d m k := by
  induction m generalizing b with
  | nil => rfl
  | cons x m ih =>
    obtain ⟨j, v⟩ := x
    simp only [Sparse.wfFrom, Bool.and_eq_true, decide_eq_true_eq] at wf
    obtain ⟨⟨-, some_⟩, rest⟩ := wf
    have e : f (j, v) = (j, (f (j, v)).2) := Prod.ext (same (j, v)) rfl
    rw [List.map_cons, List.filter_cons]
    by_cases here : j = k
    · subst here
      have value : f (j, v) = (j, v) := Prod.ext (same (j, v)) (kept v)
      rw [value, if_pos (by simpa using some_)]
      unfold Sparse.get
      rw [if_pos rfl, if_pos rfl]
    · rw [show Sparse.get d ((j, v) :: m) k = Sparse.get d m k from if_neg here, ← ih rest]
      split
      · rw [e]
        exact if_neg here
      · rfl

theorem store_resetTile (t : Tile) : (resetTile t).store = [] := rfl

/-- After every tile is reset no store holds anything. -/
theorem Sparse.store_mapV_resetTile (m : Sparse Tile) (k : Nat) : (Sparse.get Tile.reset (Sparse.mapV Tile.reset resetTile m) k).store = [] := by
  induction m with
  | nil => rfl
  | cons x m ih =>
    obtain ⟨j, v⟩ := x
    unfold Sparse.mapV
    split
    · exact ih
    · unfold Sparse.get
      split
      · exact store_resetTile v
      · exact ih

namespace State

/-! ## A partition seized by a reset (R435) -/

/-- A partition is fenced, its transfers are dropped and its tiles captured. -/
def seized (s : State) (p reason level cause object : Nat) (ts : List Tile) : State :=
  ((s.fencePart p reason pResetting).dropTransfers p).capture p level cause object ts

theorem dropTransfers_frame (s : State) (p : Nat) : ∃ fresh parts, s.dropTransfers p = { s with fresh := fresh, parts := parts } := by
  unfold dropTransfers onPart setPart
  dsimp only
  exact ⟨_, _, rfl⟩

theorem capture_frame (s : State) (p level cause object : Nat) (ts : List Tile) :
    ∃ fresh parts, s.capture p level cause object ts = { s with fresh := fresh, parts := parts } := by
  unfold capture setPart
  exact ⟨_, _, rfl⟩

theorem seized_frame (s : State) (p reason level cause object : Nat) (ts : List Tile) :
    ∃ fresh parts, s.seized p reason level cause object ts = { s with fresh := fresh, parts := parts } := by
  obtain ⟨_, _, captured⟩ := ((s.fencePart p reason pResetting).dropTransfers p).capture_frame p level cause object ts
  obtain ⟨_, _, dropped⟩ := (s.fencePart p reason pResetting).dropTransfers_frame p
  unfold seized
  rw [captured, dropped, fencePart_frame]
  exact ⟨_, _, rfl⟩

theorem capture_steady (s : State) (p level cause object : Nat) (ts : List Tile) : Steady s (s.capture p level cause object ts) := by
  obtain ⟨fresh, parts, e⟩ := s.capture_frame p level cause object ts
  refine ⟨⟨by rw [e], by rw [e]; rfl, fun q => ?_⟩, by rw [e]⟩
  unfold capture
  by_cases here : q = p
  · subst here
    rw [part_setPart_same]
  · rw [part_setPart_other _ _ here]
    rfl

theorem partFenced_dropTransfers (s : State) (p q : Nat) : (s.dropTransfers p).partFenced q = s.partFenced q := by
  unfold dropTransfers partFenced
  dsimp only
  by_cases here : q = p
  · subst here
    rw [part_onPart_same]
    exact flagF_setF_beside (f := fenceStatus_errored) (g := fenceStatus_fenced) (by decide) _ _
  · rw [part_onPart_other _ _ here]
    rfl

theorem partFenced_seized_same (s : State) (p reason level cause object : Nat) (ts : List Tile) :
    (s.seized p reason level cause object ts).partFenced p = true := by
  unfold seized
  rw [(capture_steady ..).guarded.partFenced, partFenced_dropTransfers, partFenced_fencePart_same]

theorem partFenced_seized (s : State) (p reason level cause object : Nat) (ts : List Tile) {q : Nat} (h : s.partFenced q = true) :
    (s.seized p reason level cause object ts).partFenced q = true := by
  unfold seized
  rw [(capture_steady ..).guarded.partFenced, partFenced_dropTransfers, partFenced_fencePart s p reason pResetting h]

/-! ## A partition reset begins (R438, R440) -/

/-- The tiles of a partition reset. -/
def partReset (s : State) (p : Nat) : List (Nat × Tile) :=
  (s.tiles.map (fun x => if x.1 / 256 = p then (x.1, resetTile x.2) else x)).filter (fun x => x.2 != Tile.reset)

theorem noteReset_eq (s : State) (level cause parts : Nat) : ∃ w, s.noteReset level cause parts = { s with rst := { s.rst with history := w } } :=
  ⟨_, rfl⟩

theorem startPart_eq (s : State) (p cause reason object : Nat) :
    let u := (((s.beforeReset p).withdraw (ofPart p)).fencePart p reason pResetting).dropTransfers p
    let u := (u.capture p 1 cause object (u.partTiles p)).noteReset 1 cause (2 ^ p)
    let v : State := { u with tiles := u.partReset p, rst := { u.rst with active := u.rst.active.filter (fun r => !ofPart p r.1) } }
    s.startPart p cause reason object = v.beginReset (.part p) (v.partTimeout p) := by
  unfold startPart partReset
  rfl

theorem withdraw_frame (s : State) (f : Scope → Bool) :
    ∃ decisions held, s.withdraw f = { s with decisions := decisions, rst := { s.rst with held := held } } := by
  unfold withdraw
  exact ⟨_, _, rfl⟩

/-- A partition reset: it runs, the partition is fenced, and its tiles alone have lost what they held. -/
theorem startPart_shows (s : State) (p cause reason object : Nat) :
    (Scope.part p, s.clock, (s.startPart p cause reason object).partTimeout p) ∈ (s.startPart p cause reason object).rst.active ∧
    (s.startPart p cause reason object).partFenced p = true ∧ (s.startPart p cause reason object).tiles = s.partReset p := by
  have before := s.beforeReset_steady p
  obtain ⟨decisions, held, withdrawn⟩ := (s.beforeReset p).withdraw_frame (ofPart p)
  rw [startPart_eq]
  dsimp only
  generalize (s.beforeReset p).withdraw (ofPart p) = u0 at *
  have fenced := partFenced_seized_same u0 p reason 1 cause object (((u0.fencePart p reason pResetting).dropTransfers p).partTiles p)
  obtain ⟨fresh, parts, frame⟩ := u0.seized_frame p reason 1 cause object (((u0.fencePart p reason pResetting).dropTransfers p).partTiles p)
  unfold seized at fenced frame
  generalize ((u0.fencePart p reason pResetting).dropTransfers p).capture p 1 cause object
    (((u0.fencePart p reason pResetting).dropTransfers p).partTiles p) = u1 at *
  obtain ⟨w, noted⟩ := u1.noteReset_eq 1 cause (2 ^ p)
  rw [noted]
  have clock : u1.clock = s.clock := by
    rw [frame, withdrawn]
    exact before.guarded.clock
  have tiles : u1.partReset p = s.partReset p := by
    unfold partReset
    rw [frame, withdrawn, ← before.tiles]
  refine ⟨?_, fenced, tiles⟩
  rw [← clock]
  exact .head _

theorem tile_partReset {s t : State} (canonical : Canonical s) {p : Nat} (tiles : t.tiles = s.partReset p) :
    (∀ k < 256, (t.tile ⟨p, k⟩).store = []) ∧ ∀ q k, q ≠ p → k < 256 → t.tile ⟨q, k⟩ = s.tile ⟨q, k⟩ := by
  have part (q k : Nat) (hk : k < 256) : (q * 256 + k) / 256 = q := by omega
  have same : ∀ x : Nat × Tile, (if x.1 / 256 = p then (x.1, resetTile x.2) else x).1 = x.1 := fun x => by split <;> rfl
  refine ⟨fun k hk => ?_, fun q k other hk => ?_⟩
  · unfold tile
    rw [tiles]
    refine Sparse.get_changed (P := fun t : Tile => t.store = []) rfl _ same s.tiles fun v => ?_
    dsimp only
    rw [if_pos (show tkey ⟨p, k⟩ / 256 = p from part p k hk)]
    exact store_resetTile v
  · unfold tile
    rw [tiles]
    refine Sparse.get_unchanged _ same (fun v => ?_) canonical.tiles
    dsimp only
    rw [if_neg (by rw [show tkey ⟨q, k⟩ = q * 256 + k from rfl, part q k hk]; exact other)]

/-! ## A compute reset begins (R347, R439) -/

theorem countPart_guarded (s : State) (p start : Nat) : Guarded s (s.countPart p start) := by
  unfold countPart
  exact onPart_guarded s p fun _ => rfl

theorem noteReset_fence (s : State) (level cause parts p : Nat) : (s.noteReset level cause parts).partFenced p = s.partFenced p ∧
    (s.noteReset level cause parts).clock = s.clock := by
  obtain ⟨w, e⟩ := s.noteReset_eq level cause parts
  rw [e]
  exact ⟨rfl, rfl⟩

theorem refreshOpen_steady (s : State) : Steady s s.refreshOpen := by
  obtain ⟨w, e⟩ : ∃ w, s.refreshOpen = ({ s with step := w } : State).refreshCellar := ⟨_, rfl⟩
  rw [e]
  exact .upd (refreshCellar_rst ..) (refreshCellar_time ..) (refreshCellar_parts ..) (refreshCellar_tiles ..)

/-- The image, the job and the assignment of the ID are gone. -/
def imageGone (s : State) : State :=
  { s with
    img := { cur := none, load := none }
    job := { Job.reset with ledgerSeq := s.job.ledgerSeq, gen := s.job.gen }
    fd := Fd.reset, fabric := Fabric.reset
    dev := { s.dev with id := setF s.dev.id devId_assigned 0, state := setF s.dev.state Machine.devState_spare 0 }
    sec := { s.sec with mode := setF s.sec.mode secMode_sealed 0 } }

theorem imageGone_guarded (s : State) : Guarded s s.imageGone := .upd rfl rfl rfl

/-- No port is squelched. -/
def unsquelched (s : State) : State := (List.range 36).foldl (fun s n => s.onPort n (fun p => { p with squelchedFor := none })) s

theorem unsquelched_guarded (s : State) : Guarded s s.unsquelched := .foldl _ _ fun _ _ => (onPort_steady ..).guarded

theorem discardImage_eq (s : State) :
    s.discardImage = if !s.inState [DS.fenced, DS.quarantine] then s else s.imageGone.unsquelched.refreshOpen.reholdPorts := by
  unfold discardImage imageGone unsquelched
  rfl

theorem discardImage_guarded (s : State) : Guarded s s.discardImage := by
  rw [discardImage_eq]
  refine .ite (.refl s) ?_
  have gone := s.imageGone_guarded.trans s.imageGone.unsquelched_guarded
  generalize s.imageGone.unsquelched = t at *
  exact gone.trans (t.refreshOpen_steady.guarded.trans (reholdPorts_guarded _))

/-- The clock at the end of a fold of partitions seized. -/
theorem seizedAll_shows (s : State) (reason cause object : Nat) :
    let t := (List.range 8).foldl (fun s p => s.seized p reason 2 cause object (s.partTiles p)) s
    t.clock = s.clock ∧ ∀ p < 8, t.partFenced p = true := by
  refine ⟨foldl_leaves State.clock _ s fun u p => ?_, fun p hp => ?_⟩
  · obtain ⟨_, _, e⟩ := u.seized_frame p reason 2 cause object (u.partTiles p)
    rw [e]
    rfl
  · exact foldl_brings (P := fun u : State => u.partFenced p = true) (List.mem_range.2 hp) s (fun u => partFenced_seized_same ..)
      fun u q h => partFenced_seized u q reason 2 cause object _ h

/-- The partition resets in progress are counted. -/
def countRunning (s : State) : State := s.rst.active.foldl (fun s r => match r.1 with
  | .part p => s.countPart p r.2.1
  | _ => s) s

theorem clock_countRunning (s : State) : s.countRunning.clock = s.clock :=
  foldl_leaves State.clock _ s fun u r => by
    split
    · exact (countPart_guarded ..).clock
    · rfl

theorem startCompute_eq (s : State) (cause reason object : Nat) :
    let u := ((s.beforeReset 0).withdraw (fun _ => true)).countRunning
    let u := (List.range 8).foldl (fun s p => s.seized p reason 2 cause object (s.partTiles p)) u
    let u := (u.noteReset 2 cause 0xff).discardImage
    s.startCompute cause reason object = ({ u.allTiles resetTile with rst := { u.rst with active := [] } } : State).beginReset .compute computeBound := by
  unfold startCompute seized countRunning
  rfl

/-- A compute reset: it runs, every partition is fenced, and no tile holds anything. -/
theorem startCompute_shows (s : State) (cause reason object : Nat) :
    (Scope.compute, s.clock, computeBound) ∈ (s.startCompute cause reason object).rst.active ∧
    (∀ p < 8, (s.startCompute cause reason object).partFenced p = true) ∧
    ∀ tl, ((s.startCompute cause reason object).tile tl).store = [] := by
  have before := (s.beforeReset_steady 0).guarded.clock
  obtain ⟨decisions, held, withdrawn⟩ := (s.beforeReset 0).withdraw_frame (fun _ => true)
  have counted := ((s.beforeReset 0).withdraw (fun _ => true)).clock_countRunning
  rw [show ((s.beforeReset 0).withdraw (fun _ => true)).clock = s.clock by rw [withdrawn]; exact before] at counted
  rw [startCompute_eq]
  dsimp only
  generalize ((s.beforeReset 0).withdraw (fun _ => true)).countRunning = u0 at *
  obtain ⟨clock, fenced⟩ := u0.seizedAll_shows reason cause object
  generalize (List.range 8).foldl (fun s p => s.seized p reason 2 cause object (s.partTiles p)) u0 = u1 at *
  have gone := (u1.noteReset 2 cause 0xff).discardImage_guarded
  have now : (u1.noteReset 2 cause 0xff).discardImage.clock = s.clock :=
    gone.clock.trans ((u1.noteReset_fence 2 cause 0xff 0).2.trans (clock.trans counted))
  have held' : ∀ p < 8, (u1.noteReset 2 cause 0xff).discardImage.partFenced p = true := fun p hp =>
    (gone.partFenced p).trans ((u1.noteReset_fence 2 cause 0xff p).1.trans (fenced p hp))
  generalize (u1.noteReset 2 cause 0xff).discardImage = u2 at *
  refine ⟨?_, held', fun tl => ?_⟩
  · rw [← now]
    exact .head _
  · exact Sparse.store_mapV_resetTile u2.tiles (tkey tl)

end State
end Sys2Proof.Machine

/-!
PROOFS. The end of a reset: what reloading, self-tests, numbering and restarts leave of the resets that run and of the fences
(R438, R440, R444, R446).
-/
namespace Sys2Proof.Machine
namespace State

/-! ## Sites and their tests (R348, R466 to R472) -/

theorem setSite_guarded (s : State) (p x : Nat) (a : Site) : Guarded s (s.setSite p x a) :=
  .upd (setSite_rst ..) (setSite_time ..) (setSite_parts ..)

theorem onTile_guarded (s : State) (tl : TileRef) (f : Tile → Tile) : Guarded s (s.onTile tl f) :=
  .upd (onTile_rst ..) (onTile_time ..) (onTile_parts ..)

theorem setSiteRole_guarded (s : State) (p x role t : Nat) : Guarded s (s.setSiteRole p x role t) := setSite_guarded ..

theorem softSite_guarded (s : State) (p x units : Nat) : Guarded s (s.softSite p x units) := by
  unfold softSite
  exact .ite (.refl s) (.upd rfl rfl rfl)

theorem siteBad_guarded (s : State) (p x units : Nat) : Guarded s (s.siteBad p x units) := by
  unfold siteBad
  exact ((s.setSiteRole_guarded ..).trans (softSite_guarded ..)).trans (onPart_guarded _ _ fun _ => rfl)

theorem countYieldFor_guarded (s : State) (p n : Nat) : Guarded s (s.countYieldFor p n) := by
  unfold countYieldFor
  exact onPart_guarded s p fun _ => rfl

theorem countYield_guarded (s : State) (p : Nat) : Guarded s (s.countYield p) := countYieldFor_guarded ..

theorem loadCode_guarded (s : State) (tl : TileRef) : Guarded s (s.loadCode tl) := by
  unfold loadCode
  split
  · exact onTile_guarded ..
  · exact .refl s

theorem reloadPart_guarded (s : State) (p : Nat) : Guarded s (s.reloadPart p) := .foldl _ _ fun _ _ => loadCode_guarded ..

theorem trySpares_guarded (s : State) (p : Nat) (xs rs : List Nat) : Guarded s (s.trySpares p xs rs).1 := by
  induction xs generalizing s rs with
  | nil => exact .refl s
  | cons x xs ih =>
    unfold trySpares
    dsimp only
    split
    · exact setSite_guarded ..
    · exact ((s.setSite_guarded ..).trans (siteBad_guarded ..)).trans (ih ..)

theorem declareFailed_guarded (s : State) (c : Nat) : Guarded s (s.declareFailed c) := by
  rw [declareFailed_frame]
  exact .upd rfl rfl rfl

theorem vacated_guarded (s : State) (p old : Nat) : Guarded s (s.vacated p old) :=
  ((s.siteBad_guarded ..).trans (failBit_steady ..).guarded).trans (onJob_steady ..).guarded

theorem spareFailed_guarded (s : State) (tl : TileRef) : Guarded s (s.spareFailed tl) := onTile_guarded ..

theorem entered_guarded (s : State) (tl : TileRef) (x : Nat) : Guarded s (s.entered tl x) :=
  (((setSiteRole_guarded ..).trans (onTile_guarded ..)).trans (loadCode_guarded ..)).trans (countYield_guarded ..)

/-- A tile's graft: the spares are tried, its site is left, and the tile enters the first that passed. -/
theorem graftTile_eq (s : State) (tl : TileRef) (rs : List Nat) {t : State} {found : Option Nat}
    (tries : s.trySpares tl.p (s.spareSites tl.p) rs = (t, found)) :
    let u := (if found = (s.spareSites tl.p).head? then t else t.spareFailed tl).vacated tl.p (getF (s.tile tl).map tileMap_site)
    s.graftTile tl rs = found.elim ((u.countYield tl.p).declareFailed causeNoSpare) (u.entered tl) := by
  unfold graftTile
  dsimp only
  rw [tries]
  cases found <;> rfl

theorem graftTile_guarded (s : State) (tl : TileRef) (rs : List Nat) : Guarded s (s.graftTile tl rs) := by
  have spares := s.trySpares_guarded tl.p (s.spareSites tl.p) rs
  rcases tries : s.trySpares tl.p (s.spareSites tl.p) rs with ⟨t, found⟩
  rw [tries] at spares
  rw [graftTile_eq s tl rs tries]
  have left := (spares.trans (.ite (c := found = (s.spareSites tl.p).head?) (.refl t) (t.spareFailed_guarded tl))).trans
    (vacated_guarded _ tl.p (getF (s.tile tl).map tileMap_site))
  cases found with
  | none => exact left.trans ((countYield_guarded ..).trans (declareFailed_guarded ..))
  | some x => exact left.trans (entered_guarded ..)

theorem resetTests_guarded (s : State) (rs : List SiteRes) : Guarded s (s.resetTests rs) := by
  unfold resetTests
  dsimp only
  refine Guarded.trans (.foldl _ _ fun t r => ?_) (.foldl _ _ fun t r => ?_)
  · split
    · exact setSite_guarded ..
    · exact (setSite_guarded ..).trans ((siteBad_guarded ..).trans (countYield_guarded ..))
  · split
    · exact setSite_guarded ..
    · exact (setSite_guarded ..).trans (graftTile_guarded ..)

theorem judge_guarded (s : State) (r : SiteRes) : Guarded s (s.judge r) := by
  unfold judge
  exact (softSite_guarded ..).trans (onPart_guarded _ _ fun _ => rfl)

theorem testSites_guarded (s : State) (rs : List SiteRes) : Guarded s (s.testSites rs) := by
  unfold testSites
  refine .foldl _ _ fun t r => ?_
  dsimp only
  split
  · exact judge_guarded ..
  · split
    · exact (judge_guarded ..).trans (graftTile_guarded ..)
    · exact (judge_guarded ..).trans ((setSiteRole_guarded ..).trans (countYield_guarded ..))

theorem writeBists_guarded (s : State) (units : Nat) (rs : List SiteRes) : Guarded s (s.writeBists units rs) :=
  .foldl _ _ fun _ _ => .foldl _ _ fun _ _ => setSite_guarded ..

theorem countPass_guarded (s : State) : Guarded s s.countPass := .upd rfl rfl rfl

/-! ## Racking and streams that start again (R446) -/

theorem mir_guarded (s : State) (m : MirRegs) : Guarded s { s with mir := m } := .upd rfl rfl rfl

theorem rackPart_guarded (s : State) (bs : List Nat) (p : Nat) : Guarded s (s.rackPart bs p) := by
  unfold rackPart
  dsimp only
  refine Guarded.trans ?_ (mir_guarded _ _)
  refine Guarded.trans ?_ (onPart_guarded _ _ fun _ => rfl)
  exact .foldl _ _ fun _ _ => ((sendAll_steady ..).trans (send_steady ..)).guarded

theorem startObject_guarded (s : State) (x : Stream2) : Guarded s (s.startObject x) :=
  ((sendAll_steady ..).trans (ledger_steady ..)).guarded

theorem unrack_guarded (s : State) (p : Nat) : Guarded s (s.unrack p) := by
  unfold unrack
  exact onPart_guarded s p fun _ => rfl

theorem restartPart_guarded (s : State) (p : Nat) : Guarded s (s.restartPart p) := by
  unfold restartPart
  extract_lets late t
  have racked : Guarded s t := .ite (.refl s) ((s.unrack_guarded p).trans (rackPart_guarded ..))
  clear_value t
  split
  · exact racked.trans (.ite (startObject_guarded ..) (.refl _))
  · exact racked

theorem reportDecant_guarded (s : State) : Guarded s s.reportDecant := by
  unfold reportDecant
  exact .ite (.refl s) (.ite (onJob_steady ..).guarded (send_steady ..).guarded)

theorem afterReset_guarded (s : State) : Guarded s s.afterReset := by
  unfold afterReset
  exact .ite (quarantine_guarded s) (.ite (reportDecant_guarded s) (.refl s))

theorem afterReset_retired {s : State} (retired : s.devState = DS.retired) : s.afterReset = s := by
  unfold afterReset
  rw [retired, show decide (DS.retired = DS.fenced) = false from rfl, show decide (DS.retired = DS.running) = false from rfl,
    Bool.false_and, Bool.false_and, if_neg Bool.false_ne_true, if_neg Bool.false_ne_true]

theorem afterReset_idle {s : State} (apart : s.devState ≠ DS.fenced) (none : s.job.rollbackAt = none) : s.afterReset = s := by
  unfold afterReset
  rw [none, decide_eq_false apart, Bool.false_and, Option.isSome_none, Bool.and_false, if_neg Bool.false_ne_true,
    if_neg Bool.false_ne_true]

/-! ## The counts of resets (R443, R444) -/

theorem outOfService_retired (s : State) : s.outOfService.devState = DS.retired := s.outOfService_shows.1

/-- A device that keeps a retirement record, and no reset runs on it. -/
def struckOff (s : State) : State :=
  { s with
    flash := { s.flash with retired := true }
    rst := { s.rst with active := [], history := setF s.rst.history rstHistory_lastLevel 3 } }

theorem struckOff_shows (s : State) : s.struckOff.rst.active = [] ∧ s.struckOff.flash.retired = true := ⟨rfl, rfl⟩

theorem outOfService_eq {s : State} (serving : s.devState ≠ DS.retired) :
    s.outOfService = ((s.idled.struckOff.railsOff 0xff).toState DS.retired).event Err.retired 2 0 Src.reset true := by
  unfold outOfService idled struckOff
  exact if_neg serving

theorem railsOff_stays (s : State) (mask : Nat) : (s.railsOff mask).rst = s.rst ∧ (s.railsOff mask).flash = s.flash := by
  unfold railsOff
  exact ⟨rfl, rfl⟩

/-- A device that leaves service has no reset that runs. -/
theorem active_outOfService {s : State} (serving : s.devState ≠ DS.retired) :
    s.outOfService.rst.active = [] ∧ s.outOfService.flash.retired = true := by
  rw [outOfService_eq serving]
  obtain ⟨active, flash⟩ := s.idled.struckOff_shows
  obtain ⟨rst, kept⟩ := s.idled.struckOff.railsOff_stays 0xff
  generalize s.idled.struckOff.railsOff 0xff = u at *
  have noted := (u.toState DS.retired).unnoted_event Err.retired 2 0 Src.reset true
  have still : (u.toState DS.retired).rst.active = [] ∧ (u.toState DS.retired).flash.retired = true := by
    rw [toState_rst, toState_flash, rst, kept]
    exact ⟨active, flash⟩
  exact ⟨(congrArg (·.rst.active) noted :).trans still.1, (congrArg (·.flash.retired) noted :).trans still.2⟩

/-- No reset runs that did not run before. -/
def ResetsWithin (s t : State) : Prop := ∀ r ∈ t.rst.active, r ∈ s.rst.active

theorem outOfService_within (s : State) : ResetsWithin s s.outOfService := by
  by_cases retired : s.devState = DS.retired
  · rw [show s.outOfService = s from if_pos retired]
    exact fun _ hr => hr
  · intro r hr
    rw [(active_outOfService retired).1] at hr
    cases hr

/-- The partitions that were retired are noted in RST_HISTORY. -/
theorem retirePart_eq (s : State) (p : Nat) : ∃ w, s.retirePart p =
    let u := (s.fencePart p (getF (s.part p).fenceStatus fenceStatus_reason) pRetired).railsOff (2 ^ p)
    ({ u with rst := { u.rst with history := w } } : State).outOfService := ⟨_, rfl⟩

theorem history_within (s : State) (w : Word) : ResetsWithin s { s with rst := { s.rst with history := w } } := fun _ hr => hr

theorem retirePart_within (s : State) (p : Nat) : ResetsWithin s (s.retirePart p) := by
  obtain ⟨w, e⟩ := s.retirePart_eq p
  rw [e]
  dsimp only
  have same : ((s.fencePart p (getF (s.part p).fenceStatus fenceStatus_reason) pRetired).railsOff (2 ^ p)).rst = s.rst := by
    rw [(railsOff_stays ..).1, fencePart_frame]
  generalize (s.fencePart p (getF (s.part p).fenceStatus fenceStatus_reason) pRetired).railsOff (2 ^ p) = u at *
  exact fun r hr => same ▸ u.history_within w r (outOfService_within _ r hr)

theorem retirePart_retired (s : State) (p : Nat) : (s.retirePart p).devState = DS.retired := outOfService_retired _

/-- The counts change nothing, or they retire the device. -/
theorem checkCounts_shows (s : State) : ResetsWithin s s.checkCounts ∧ (s.checkCounts = s ∨ s.checkCounts.devState = DS.retired) := by
  unfold checkCounts
  extract_lets full
  clear_value full
  have parts : ResetsWithin s (full.foldl retirePart s) ∧ (full.foldl retirePart s = s ∨ (full.foldl retirePart s).devState = DS.retired) :=
    List.foldlRecOn (motive := fun t => ResetsWithin s t ∧ (t = s ∨ t.devState = DS.retired)) full retirePart ⟨fun _ hr => hr, .inl rfl⟩
      fun t ht p _ => ⟨fun r hr => ht.1 r (t.retirePart_within p r hr), .inr (t.retirePart_retired p)⟩
  split
  · exact ⟨fun r hr => parts.1 r (outOfService_within _ r hr), .inr (outOfService_retired _)⟩
  · exact parts

/-! ## Numbering after the tests of a pass (R469 to R472) -/

theorem refreshLicence_guarded (s : State) : Guarded s s.refreshLicence := .upd rfl rfl rfl

theorem unapply_guarded (s : State) : Guarded s s.unapply := .upd rfl rfl rfl

theorem applyLicence_guarded (s : State) (l : Lic) : Guarded s (s.applyLicence l) := by
  unfold applyLicence
  refine Guarded.trans ?_ (reholdPorts_guarded _)
  refine Guarded.trans ?_ (refreshLicence_guarded _)
  exact .upd rfl rfl rfl

theorem endStage5_guarded (s : State) (code err : Nat) : Guarded s (s.endStage5 code err) := by
  unfold endStage5
  refine Guarded.trans ?_ (toState_steady ..).guarded
  refine Guarded.trans ?_ (errRecord_steady ..).guarded
  exact .upd rfl rfl rfl

theorem roleSites_guarded (s : State) (p : Nat) : Guarded s (s.roleSites p) := .foldl _ _ fun _ _ => setSiteRole_guarded ..

theorem numberTile_guarded (s : State) (p : Nat) (xt : Nat × Nat) : Guarded s (s.numberTile p xt) := by
  unfold numberTile
  exact (setSiteRole_guarded ..).trans (onTile_guarded ..)

theorem numberPart_guarded (s : State) (p n : Nat) : Guarded s (s.numberPart p n) :=
  (s.roleSites_guarded p).trans (.foldl _ _ fun t xt => t.numberTile_guarded p xt)

theorem advanceFuse_guarded (s : State) : Guarded s s.advanceFuse := by
  unfold advanceFuse
  exact .upd rfl rfl rfl

theorem numberAll_guarded (s : State) : Guarded s s.numberAll := by
  have roles (n : Nat) : Guarded s ((List.range 8).foldl (fun s p => (s.roleSites p).countYieldFor p n) s) :=
    .foldl _ _ fun t p => (t.roleSites_guarded p).trans (countYieldFor_guarded ..)
  have dropped (t : State) (n : Nat) : Guarded t (t.dropTiles n) := .upd rfl rfl rfl
  unfold numberAll
  split
  · exact (roles 0).trans ((dropped _ 0).trans ((unapply_guarded _).trans (endStage5_guarded ..)))
  · dsimp only
    split
    · exact (roles _).trans ((dropped _ 0).trans ((unapply_guarded _).trans (endStage5_guarded ..)))
    · refine Guarded.trans ?_ (endStage5_guarded ..)
      refine Guarded.trans ?_ (advanceFuse_guarded _)
      refine Guarded.trans ?_ (.foldl _ _ fun t p => (t.numberPart_guarded p _).trans (countYieldFor_guarded ..))
      exact (dropped s _).trans (applyLicence_guarded ..)

theorem clearPass_guarded (s : State) : Guarded s s.clearPass := by
  exact .foldl _ _ fun t p => onPart_guarded t p fun _ => rfl

theorem passStage5_guarded (s : State) (units : Nat) (rs : List SiteRes) : Guarded s (s.passStage5 units rs) := by
  unfold passStage5 decideSites
  exact (s.countPass_guarded.trans ((clearPass_guarded _).trans ((writeBists_guarded ..).trans (.foldl _ _ judge_guarded)))).trans
    (numberAll_guarded _)

end State
end Sys2Proof.Machine

/-!
PROOFS. Resets that the host asks for, their completion and their escalation at the time-out (R435, R438, R440, R441, R444, R447,
R448).
-/
namespace Sys2Proof.Machine
namespace State

/-! ## A partition fenced by the host (R435, R448) -/

theorem fenceCtl_capture (s : State) (p level cause object : Nat) (ts : List Tile) :
    ((s.capture p level cause object ts).part p).fenceCtl = (s.part p).fenceCtl := by
  unfold capture
  rw [part_setPart_same]

theorem hostFence_shows (s : State) (p : Nat) : (s.hostFence p).partFenced p = true ∧
    getF ((s.hostFence p).part p).fenceCtl fenceCtl_fence = 1 ∧ (s.hostFence p).tiles = s.tiles ∧
    (s.hostFence p).rst.active = s.rst.active := by
  unfold hostFence
  extract_lets a b c
  have woken : Steady s a := .ite (leaveDormant_steady s) (ensureActive_steady s)
  clear_value a
  have before : Steady s b.abandonLoad :=
    (woken.trans (.ite (refuseHandshake_steady a p 4 0) (.refl a))).trans (abandonLoad_steady b)
  have fenced : c.partFenced p = true := partFenced_fencePart_same ..
  have same : c.tiles = s.tiles ∧ c.rst = s.rst := by
    unfold c
    rw [fencePart_frame]
    exact ⟨before.tiles, before.guarded.rst⟩
  clear_value c
  obtain ⟨tiles, rst⟩ := same
  have held : Steady c (c.onPart p (fun a => { a with fenceCtl := setF a.fenceCtl fenceCtl_fence 1 })) := onPart_steady c p fun _ => rfl
  have captured := held.trans (capture_steady _ p 1 RC.host 0xffff (c.partTiles p))
  refine ⟨(captured.guarded.partFenced p).trans fenced, ?_, captured.tiles.trans tiles,
    congrArg (·.active) (captured.guarded.rst.trans rst)⟩
  rw [fenceCtl_capture, part_onPart_same]
  exact getF_setF_bit _ (by decide)

/-- fence of FENCE_CTL: the partition is fenced and held, and no tile changes. -/
theorem fenceWritten_shows (s : State) (p : Nat) : (s.fenceWritten p).partFenced p = true ∧
    getF ((s.fenceWritten p).part p).fenceCtl fenceCtl_fence = 1 ∧ (s.fenceWritten p).tiles = s.tiles ∧
    (s.fenceWritten p).rst.active = s.rst.active := by
  unfold fenceWritten
  split
  next fenced =>
    have held : Steady s (s.onPart p (fun a => { a with fenceCtl := setF a.fenceCtl fenceCtl_fence 1 })) := onPart_steady s p fun _ => rfl
    refine ⟨(held.guarded.partFenced p).trans fenced, ?_, held.tiles, congrArg (·.active) held.guarded.rst⟩
    rw [part_onPart_same]
    exact getF_setF_bit _ (by decide)
  · exact s.hostFence_shows p

/-! ## A reset that the host asks for (R447, R448) -/

/-- A compute reset asked for is one, whatever else the write clears. -/
theorem writeDone_compute (s : State) (who : Who) (a : Nat) {v : Word} (m allow : Word) (asked : flagF v rstCtl_compute = true) :
    ∃ u : State, u.clock = s.clock ∧ s.writeDone who a .rstCtl v m allow = u.startCompute RC.host FS.compute 0xffff := by
  rw [writeDone_noSel rfl]
  unfold writeActs
  dsimp only
  rw [if_pos asked]
  refine ⟨_, ?_, rfl⟩
  split <;> rfl

theorem writeDone_partReset (s : State) (who : Who) (a : Nat) (p : Nat) (v m allow : Word) :
    s.writeDone who a (.partReset p) v m allow = s.startPart p RC.host FS.host 0xffff := writeDone_noSel rfl ..

theorem writeDone_fenceCtl (s : State) (who : Who) (a : Nat) (p : Nat) (v m allow : Word) :
    s.writeDone who a (.fenceCtl p) v m allow = s.fenceWritten p := writeDone_noSel rfl ..

/-! ## A reset at its time-out (R441, R444) -/

/-- A reset no longer runs. -/
def ended (s : State) (sc : Scope) : State := { s with rst := { s.rst with active := s.rst.active.filter (fun r => r.1 != sc) } }

theorem ended_without (s : State) (sc : Scope) : ∀ r ∈ (s.ended sc).rst.active, r.1 ≠ sc := fun r hr => by
  simpa using (List.mem_filter.1 hr).2

/-- A reset that hung is counted. -/
def hung (s : State) (sc : Scope) : State :=
  { s with rst := { s.rst with active := s.rst.active.filter (fun r => r.1 != sc), history := bumpF s.rst.history rstHistory_hung 1 } }

theorem rst_changed (s : State) (x : RstRegs) : ({ s with rst := x } : State).clock = s.clock ∧
    ({ s with rst := x } : State).devState = s.devState := ⟨rfl, rfl⟩

theorem hung_stays (s : State) (sc : Scope) : (s.hung sc).clock = s.clock ∧ (s.hung sc).devState = s.devState := by
  unfold hung
  exact s.rst_changed _

theorem raiseLevels_clock (s : State) (f : Scope → Bool) (l : Nat) : (s.raiseLevels f l).clock = s.clock := rfl

/-- The start of a compute reset is kept for its count. -/
def countStart (s : State) (start : Nat) : State := { s with rst := { s.rst with compStarts := start :: s.rst.compStarts } }

theorem countStart_stays (s : State) (start : Nat) : (s.countStart start).rst.active = s.rst.active ∧
    (s.countStart start).devState = s.devState := ⟨rfl, rfl⟩

theorem resetTimeout_early {s : State} {sc : Scope} {start b : Nat} (runs : s.rst.active.find? (fun r => r.1 == sc) = some (sc, start, b))
    (early : s.clock < start + b) : s.resetTimeout sc = s := by
  unfold resetTimeout
  split
  · rfl
  next found =>
    cases runs.symm.trans found
    rw [if_pos (by rw [decide_eq_true early, Bool.or_true])]

/-- A device that has its rails finds a reset past its bound. -/
theorem timedOut {s : State} {start b : Nat} (alive : s.alive = true) (late : start + b ≤ s.clock) :
    ¬ (!s.alive || decide (s.clock < start + b)) = true := by
  rw [decide_eq_false (Nat.not_lt.2 late), alive]
  decide

section
variable {s : State} {sc : Scope} {start b : Nat} (runs : s.rst.active.find? (fun r => r.1 == sc) = some (sc, start, b)) (alive : s.alive = true)
  (late : start + b ≤ s.clock)
include runs alive late

theorem resetTimeout_compute (here : sc = .compute) : s.resetTimeout sc = ((s.hung .compute).countStart start).outOfService := by
  subst here
  unfold resetTimeout
  split
  next gone => cases runs.symm.trans gone
  next found =>
    cases runs.symm.trans found
    exact if_neg (timedOut alive late)

theorem resetTimeout_part {p : Nat} (here : sc = .part p) : s.resetTimeout sc =
    (((s.hung (.part p)).countPart p start).raiseLevels (ofPart p) 2).startCompute RC.escalation FS.compute 0xffff := by
  subst here
  unfold resetTimeout
  split
  next gone => cases runs.symm.trans gone
  next found =>
    cases runs.symm.trans found
    exact if_neg (timedOut alive late)

theorem resetTimeout_unit {p t u : Nat} (here : sc = .unit p t u) : s.resetTimeout sc =
    ((s.hung (.unit p t u)).raiseLevels (fun o => o == .unit p t u) 1).startPart p RC.escalation FS.escalation 0xffff := by
  subst here
  unfold resetTimeout
  split
  next gone => cases runs.symm.trans gone
  next found =>
    cases runs.symm.trans found
    exact if_neg (timedOut alive late)

end

/-! ## A reset that completes (R438, R440, R446) -/

section
variable {s : State} {sc : Scope} {start b : Nat} (runs : s.rst.active.find? (fun r => r.1 == sc) = some (sc, start, b)) (alive : s.alive = true)
include runs alive

theorem resetComplete_unit {p t u : Nat} (rs : List SiteRes) (here : sc = .unit p t u) :
    s.resetComplete sc rs = ((s.ended sc).onTile ⟨p, t⟩ (fun x => clearUnit x u)).afterReset := by
  unfold resetComplete ended
  subst here
  rw [runs, alive]
  rfl

theorem resetComplete_memPort {p k c : Nat} (rs : List SiteRes) (here : sc = .memPort p k c) :
    s.resetComplete sc rs = (s.ended sc).afterReset := by
  unfold resetComplete ended
  subst here
  rw [runs, alive]
  rfl

theorem resetComplete_router {p : Nat} (rs : List SiteRes) (here : sc = .router p) : s.resetComplete sc rs = (s.ended sc).afterReset := by
  unfold resetComplete ended
  subst here
  rw [runs, alive]
  rfl

/-- A partition reset completes: programs are loaded, the sites tested, the reset counted and the fence lifted. -/
theorem resetComplete_part {p : Nat} (rs : List SiteRes) (here : sc = .part p) : s.resetComplete sc rs =
    (((((((s.ended sc).reloadPart p).resetTests (rs.filter (fun r => r.p == p))).countPart p start).unfencePart p).restartPart p).checkCounts).afterReset := by
  unfold resetComplete ended
  subst here
  rw [runs, alive]
  rfl

end

theorem unfencePart_shows (s : State) (p : Nat) : (s.unfencePart p).partFenced p = false ∧ (s.unfencePart p).rst = s.rst := by
  unfold unfencePart
  refine ⟨?_, onPart_rst ..⟩
  unfold partFenced
  rw [part_onPart_same]
  refine (flagF_setF_beside (f := fenceStatus_reason) (g := fenceStatus_fenced) (by decide) _ _).trans ?_
  unfold flagF
  rw [getF_setF _ ⟨by decide, by decide⟩]
  rfl

/-- The fence of a partition that is not retired is lifted. -/
def liftFences (s : State) : State := (List.range 8).foldl (fun s p => if s.partRetired p then s else s.unfencePart p) s

theorem rst_liftFences (s : State) : s.liftFences.rst = s.rst :=
  foldl_leaves State.rst _ s fun t p => by
    split
    · rfl
    · exact (t.unfencePart_shows p).2

section
variable {s : State} {sc : Scope} {start b : Nat} (runs : s.rst.active.find? (fun r => r.1 == sc) = some (sc, start, b)) (alive : s.alive = true)
include runs alive

/-- A compute reset completes: with an image its sites are tested and its partitions restart, without one stage 5 is passed again. -/
theorem resetComplete_compute (rs : List SiteRes) (here : sc = .compute) : s.resetComplete sc rs =
    let t := ((s.ended sc).countStart start).liftFences
    if t.img.cur.isNone then (t.passStage5 quickUnits rs).checkCounts
    else ((List.range 8).foldl (fun s p => s.restartPart p)
      (((((List.range 8).foldl (fun s p => s.reloadPart p) t).clearPass.writeBists quickUnits rs).testSites rs).countPass)).checkCounts.afterReset := by
  unfold resetComplete ended countStart liftFences
  subst here
  rw [runs, alive]
  rfl

end
end State

/-- What guards the resets lets none begin. -/
theorem Guarded.within {s t : State} (h : Guarded s t) : State.ResetsWithin s t := fun _ hr => congrArg (·.active) h.rst ▸ hr

namespace State
section
variable {s : State} {sc : Scope} {start b : Nat} (runs : s.rst.active.find? (fun r => r.1 == sc) = some (sc, start, b)) (alive : s.alive = true)
include runs alive

/-- A partition as its reset completes: it is not fenced, and no reset has begun. -/
theorem resetComplete_part_shows {p : Nat} (rs : List SiteRes) (here : sc = .part p) :
    ResetsWithin (s.ended sc) (s.resetComplete sc rs) ∧
    ((s.resetComplete sc rs).devState ≠ DS.retired → (s.resetComplete sc rs).partFenced p = false) := by
  rw [resetComplete_part runs alive rs here]
  have tested : Guarded (s.ended sc) _ := ((s.ended sc).reloadPart_guarded p).trans
    ((resetTests_guarded _ (rs.filter (fun r => r.p == p))).trans (countPart_guarded _ p start))
  generalize (((s.ended sc).reloadPart p).resetTests (rs.filter (fun r => r.p == p))).countPart p start = t at *
  obtain ⟨lifted, kept⟩ := t.unfencePart_shows p
  have restarted := (t.unfencePart p).restartPart_guarded p
  have within : ResetsWithin (s.ended sc) ((t.unfencePart p).restartPart p) := fun r hr =>
    tested.within r (congrArg (·.active) kept ▸ restarted.within r hr)
  have free : ((t.unfencePart p).restartPart p).partFenced p = false := (restarted.partFenced p).trans lifted
  generalize (t.unfencePart p).restartPart p = u at *
  obtain ⟨counted, ways⟩ := u.checkCounts_shows
  refine ⟨fun r hr => within r (counted r ((afterReset_guarded _).within r hr)), fun serving => ?_⟩
  rcases ways with same | retired
  · rw [same] at serving ⊢
    exact ((afterReset_guarded u).partFenced p).trans free
  · rw [afterReset_retired retired] at serving
    exact absurd retired serving

theorem resetComplete_compute_within (rs : List SiteRes) (here : sc = .compute) : ResetsWithin (s.ended sc) (s.resetComplete sc rs) := by
  rw [resetComplete_compute runs alive rs here]
  dsimp only
  have lifted : ResetsWithin (s.ended sc) ((s.ended sc).countStart start).liftFences := fun r hr => by
    rw [rst_liftFences, (countStart_stays ..).1] at hr
    exact hr
  generalize ((s.ended sc).countStart start).liftFences = t at *
  split
  · have passed := t.passStage5_guarded quickUnits rs
    exact fun r hr => lifted r (passed.within r ((checkCounts_shows _).1 r hr))
  · have reloaded : Guarded t ((List.range 8).foldl (fun s p => s.reloadPart p) t) := .foldl _ _ reloadPart_guarded
    generalize (List.range 8).foldl (fun s p => s.reloadPart p) t = u at *
    have tested : Guarded u (((u.clearPass.writeBists quickUnits rs).testSites rs).countPass) :=
      ((clearPass_guarded u).trans (writeBists_guarded ..)).trans ((testSites_guarded ..).trans (countPass_guarded _))
    generalize ((u.clearPass.writeBists quickUnits rs).testSites rs).countPass = v at *
    have restarted : Guarded v ((List.range 8).foldl (fun s p => s.restartPart p) v) := .foldl _ _ restartPart_guarded
    generalize (List.range 8).foldl (fun s p => s.restartPart p) v = w at *
    have all := reloaded.trans (tested.trans restarted)
    exact fun r hr => lifted r (all.within r (w.checkCounts_shows.1 r ((afterReset_guarded _).within r hr)))

/-- A reset that completes runs no longer, and none begins. -/
theorem resetComplete_within (rs : List SiteRes) : ResetsWithin (s.ended sc) (s.resetComplete sc rs) := by
  cases here : sc with
  | unit p t u =>
    subst here
    rw [resetComplete_unit runs alive rs rfl]
    exact ((onTile_guarded ..).trans (afterReset_guarded _)).within
  | memPort p k c =>
    subst here
    rw [resetComplete_memPort runs alive rs rfl]
    exact (afterReset_guarded _).within
  | router p =>
    subst here
    rw [resetComplete_router runs alive rs rfl]
    exact (afterReset_guarded _).within
  | part p =>
    subst here
    exact (resetComplete_part_shows runs alive rs rfl).1
  | compute =>
    subst here
    exact resetComplete_compute_within runs alive rs rfl

end

/-- A unit whose reset completes is cleared, and nothing else changes. -/
theorem afterReset_onTile {s : State} (tl : TileRef) (f : Tile → Tile) (apart : s.devState ≠ DS.fenced) (none : s.job.rollbackAt = none) :
    (s.onTile tl f).afterReset = s.onTile tl f := by
  refine afterReset_idle ?_ ?_
  · unfold devState
    rw [onTile_dev]
    exact apart
  · rw [onTile_job]
    exact none

end State

/-- Settles O52: each request is a start or a fence of its scope, and each end a chain that begins no reset. -/
theorem resets : Obligations.Resets := by
  unfold Obligations.Resets
  intro s canonical
  refine ⟨?compute, ?part, ?fence, fun sc start b runs alive => ⟨fun early => ?early, fun late => ⟨?retires, ?raises, ?unit⟩, ?ends,
    ?cleared, ?lifted⟩⟩
  case compute =>
    intro who v h
    obtain ⟨m, -, e⟩ := exec_accepted rfl h
    obtain ⟨u, clock, done⟩ := s.writeDone_compute who 0x00080000 m (BitVec.allOnes 64) (v := setF v rstCtl_compute 1)
      (flagF_setF_bit v (by decide))
    have shows := u.startCompute_shows RC.host FS.compute 0xffff
    rw [clock] at shows
    exact ⟨_, e.trans (congrArg Host.Outcome.next done), shows⟩
  case part =>
    intro who p v _ h
    obtain ⟨m, -, e⟩ := exec_accepted rfl h
    obtain ⟨active, fenced, tiles⟩ := s.startPart_shows p RC.host FS.host 0xffff
    obtain ⟨erased, others⟩ := State.tile_partReset canonical tiles
    exact ⟨_, e.trans (congrArg Host.Outcome.next (s.writeDone_partReset ..)), active, fenced, erased, fun q k other hk =>
      congrArg (·.store) (others q k other hk)⟩
  case fence =>
    intro who p v _ h
    obtain ⟨m, -, e⟩ := exec_accepted rfl h
    exact ⟨_, e.trans (congrArg Host.Outcome.next (s.writeDone_fenceCtl ..)), s.fenceWritten_shows p⟩
  case early => exact congrArg Host.Outcome.next (State.resetTimeout_early runs early)
  case retires =>
    intro here serving
    refine ⟨_, congrArg Host.Outcome.next (State.resetTimeout_compute runs alive late here), State.outOfService_retired _,
      (State.active_outOfService ?_).2⟩
    rw [(State.countStart_stays ..).2, (s.hung_stays .compute).2]
    exact serving
  case raises =>
    intro p here
    refine ⟨_, congrArg Host.Outcome.next (State.resetTimeout_part runs alive late here), ?_⟩
    have shows := ((((s.hung (.part p)).countPart p start).raiseLevels (State.ofPart p) 2).startCompute_shows RC.escalation FS.compute 0xffff).1
    rw [State.raiseLevels_clock, (State.countPart_guarded ..).clock, (s.hung_stays (.part p)).1] at shows
    exact shows
  case unit =>
    intro p t u here
    refine ⟨_, congrArg Host.Outcome.next (State.resetTimeout_unit runs alive late here), ?_⟩
    have shows := (((s.hung (.unit p t u)).raiseLevels (fun o => o == .unit p t u) 1).startPart_shows p RC.escalation FS.escalation 0xffff).1
    rw [State.raiseLevels_clock, (s.hung_stays (.unit p t u)).1] at shows
    exact shows
  case ends =>
    intro rs
    exact ⟨_, rfl, fun r hr => s.ended_without sc r (State.resetComplete_within runs alive rs r hr)⟩
  case cleared =>
    intro p t u rs here apart none
    exact congrArg Host.Outcome.next ((State.resetComplete_unit runs alive rs here).trans
      (State.afterReset_onTile (s := s.ended sc) ⟨p, t⟩ (fun x => clearUnit x u) apart none))
  case lifted =>
    intro p rs here _
    exact ⟨_, rfl, (State.resetComplete_part_shows runs alive rs here).2⟩

end Sys2Proof.Machine

/-!
PROOFS. Watchdogs, HANG and the replay deadline, and the resets that they start (R430, R432 to R434, R439, R441, R445).
-/
namespace Sys2Proof.Machine

theorem Guarded.covered {s t : State} (h : Guarded s t) (o : Scope) : t.covered o = s.covered o := by
  unfold State.covered
  rw [h.rst, show t.partFenced = s.partFenced from funext h.partFenced]

namespace State

/-! ## An engine reset (R439) -/

/-- The object's level, the latest of its resets. -/
def levelled (s : State) (o : Scope) (level : Nat) : State :=
  { s with rst := { s.rst with levels := (o, level) :: s.rst.levels.filter (fun x => x.1 != o) } }

theorem levelled_shows (s : State) (o : Scope) (level : Nat) : (o, level) ∈ (s.levelled o level).rst.levels ∧
    (s.levelled o level).clock = s.clock ∧ (s.levelled o level).tiles = s.tiles := ⟨.head _, rfl, rfl⟩

theorem beginReset_shows (s : State) (sc : Scope) (b : Nat) : (sc, s.clock, b) ∈ (s.beginReset sc b).rst.active ∧
    (s.beginReset sc b).tiles = s.tiles ∧ (s.beginReset sc b).rst.levels = s.rst.levels := ⟨.head _, rfl, rfl⟩

/-- An engine reset: it runs, and neither tiles nor levels change. -/
theorem startEngine_shows (s : State) (sc : Scope) (p cause object : Nat) (ts : List Tile) :
    let t := s.startEngine sc p cause object ts
    (sc, s.clock, engineBound) ∈ t.rst.active ∧ t.tiles = s.tiles ∧ t.rst.levels = s.rst.levels := by
  unfold startEngine
  have before := (s.beforeReset_steady p).trans (capture_steady _ p 0 cause object ts)
  generalize (s.beforeReset p).capture p 0 cause object ts = u at *
  obtain ⟨w, noted⟩ := u.noteReset_eq 0 cause (2 ^ p)
  have levels : (u.noteReset 0 cause (2 ^ p)).rst.levels = s.rst.levels := by
    rw [noted]
    exact congrArg (·.levels) before.guarded.rst
  have tiles : (u.noteReset 0 cause (2 ^ p)).tiles = s.tiles := by
    rw [noted]
    exact before.tiles
  have clock := (u.noteReset_fence 0 cause (2 ^ p) p).2.trans before.guarded.clock
  generalize u.noteReset 0 cause (2 ^ p) = v at *
  dsimp only
  have counted : Steady v (v.onPart p (fun a => { a with status := bumpF a.status partStatus_engineResets 1 })) := onPart_steady v p fun _ => rfl
  generalize v.onPart p (fun a => { a with status := bumpF a.status partStatus_engineResets 1 }) = x at *
  obtain ⟨active, kept, same⟩ := x.beginReset_shows sc engineBound
  rw [counted.guarded.clock, clock] at active
  exact ⟨active, kept.trans (counted.tiles.trans tiles), same.trans ((congrArg (·.levels) counted.guarded.rst).trans levels)⟩

/-! ## The first reset of an object (R432, R441) -/

section
variable {s : State} {o : Scope} (free : s.covered o = false) (first : s.rst.levels.find? (fun x => x.1 == o) = none)
include free first

theorem expire_first (base cause object : Nat) (ts : List Tile) : s.expire o base cause object ts = s.takeReset o base cause FS.watchdog object ts := by
  unfold expire
  rw [free, first]
  exact if_neg Bool.false_ne_true

/-- An object of a partition whose first level is its engine. -/
theorem expire_engine {p : Nat} (part : scopePart o = some p) (cause object : Nat) (ts : List Tile) :
    s.expire o 0 cause object ts = (s.levelled o 0).startEngine o p cause object ts := by
  rw [expire_first free first]
  unfold takeReset
  rw [part]
  rfl

theorem expire_part {p : Nat} (part : scopePart o = some p) (cause object : Nat) (ts : List Tile) :
    s.expire o 1 cause object ts = (s.levelled o 1).startPart p cause FS.watchdog object := by
  rw [expire_first free first]
  unfold takeReset
  rw [part]
  rfl

theorem expire_compute (cause object : Nat) (ts : List Tile) :
    s.expire o 2 cause object ts = (s.levelled o 2).startCompute cause FS.compute object := by
  rw [expire_first free first]
  rfl

end

/-! ## Watchdogs of a tile (R432) -/

theorem tileFault_guarded (s : State) (tl : TileRef) (code : Nat) : Guarded s (s.tileFault tl code) := by
  have set (t : Tile) : Guarded s (s.setTile tl t) := .upd (setTile_rst ..) (setTile_time ..) (setTile_parts ..)
  have fails (u : State) (f : Field) (c : Nat) : Guarded u (u.failFor f c) := .upd rfl rfl rfl
  unfold tileFault
  refine .ite (set _) (.ite ((set _).trans (fails ..)) (.ite ((set _).trans (fails ..)) ((set _).trans (failBit_steady ..).guarded)))

section
variable {s : State} {tl : TileRef} {u : Nat} (ready : s.resettable = true) (busy : unitBusy (s.tile tl) u = true)
  (free : s.covered (.unit tl.p tl.t u) = false)
include ready busy free

theorem tileUnitWatchdog_late (late : Sparse.get 0 (s.tile tl).marks u + getF s.rst.ctl rstCtl_unitMs * msTicks < s.now) :
    s.tileUnitWatchdog tl u = (s.tileFault tl 8).expire (.unit tl.p tl.t u) 0 RC.unit (getF (s.tile tl).map tileMap_site) [s.tile tl] := by
  unfold tileUnitWatchdog
  dsimp only
  rw [ready, busy, free, decide_eq_true late]
  exact if_neg (by decide)

theorem tileUnitWatchdog_early (early : s.now ≤ Sparse.get 0 (s.tile tl).marks u + getF s.rst.ctl rstCtl_unitMs * msTicks) :
    s.tileUnitWatchdog tl u = s := by
  unfold tileUnitWatchdog
  dsimp only
  rw [ready, busy, free, decide_eq_false (Nat.not_lt.2 early)]
  exact if_pos (by decide)

/-- A unit's watchdog: its engine reset runs and its tile has fault 0x08. -/
theorem tileUnitWatchdog_shows (first : s.rst.levels.find? (fun x => x.1 == .unit tl.p tl.t u) = none)
    (late : Sparse.get 0 (s.tile tl).marks u + getF s.rst.ctl rstCtl_unitMs * msTicks < s.now) :
    let t := s.tileUnitWatchdog tl u
    (Scope.unit tl.p tl.t u, s.clock, engineBound) ∈ t.rst.active ∧ getF (t.tile tl).status tileStatus_faultCode = 8 ∧
      (Scope.unit tl.p tl.t u, 0) ∈ t.rst.levels := by
  rw [tileUnitWatchdog_late ready busy free late]
  have faulted := s.tileFault_guarded tl 8
  have code := (s.tileFault_faultsTile tl (code := 8) (by decide)).faultCode (by decide)
  rw [expire_engine (by rw [faulted.covered]; exact free) (by rw [faulted.rst]; exact first) rfl]
  dsimp only
  generalize s.tileFault tl 8 = v at *
  obtain ⟨level, clock, tiles⟩ := v.levelled_shows (.unit tl.p tl.t u) 0
  obtain ⟨active, kept, levels⟩ := (v.levelled (.unit tl.p tl.t u) 0).startEngine_shows (.unit tl.p tl.t u) tl.p RC.unit
    (getF (s.tile tl).map tileMap_site) [s.tile tl]
  rw [clock, faulted.clock] at active
  have same : ((v.levelled (.unit tl.p tl.t u) 0).startEngine (.unit tl.p tl.t u) tl.p RC.unit
      (getF (s.tile tl).map tileMap_site) [s.tile tl]).tile tl = v.tile tl :=
    congrArg (Sparse.get Tile.reset · (tkey tl)) (kept.trans tiles)
  exact ⟨active, same ▸ code, levels ▸ level⟩

end

theorem heartbeatWatchdog_late {s : State} {tl : TileRef} (ready : s.resettable = true)
    (program : ((s.tile tl).record.bind (·.program)).isSome = true) (late : (s.tile tl).heartbeat + 4 * s.hbTicks tl < s.now) :
    s.heartbeatWatchdog tl = s.expire (.unit tl.p tl.t heartbeatUnit) 1 RC.heartbeat (getF (s.tile tl).map tileMap_site) [] := by
  unfold heartbeatWatchdog
  dsimp only
  rw [ready, ← Option.not_isSome, program, decide_eq_true late]
  exact if_neg (by decide)

/-- A partition reset that a watchdog starts. -/
theorem levelled_startPart (s : State) (o : Scope) (p cause object : Nat) :
    let t := (s.levelled o 1).startPart p cause FS.watchdog object
    (Scope.part p, s.clock, t.partTimeout p) ∈ t.rst.active ∧ t.partFenced p = true := by
  obtain ⟨active, fenced, -⟩ := (s.levelled o 1).startPart_shows p cause FS.watchdog object
  rw [(s.levelled_shows o 1).2.1] at active
  exact ⟨active, fenced⟩

/-! ## Watchdogs of a memory port and of a router (R432, R441) -/

section
variable {s : State} {p k pch : Nat} (ready : s.resettable = true) (part : p ≤ 7) (stack : k < s.S) (channel : pch ≤ 31)
  (free : s.covered (.memPort p k pch) = false)
include ready part stack channel free

theorem memoryPortWatchdog_eq : s.memoryPortWatchdog p k pch =
    if s.rst.levels.any (fun x => x.1 == .memPort p k pch && x.2 == 1) then s.channelFail p k pch
    else s.expire (.memPort p k pch) 0 RC.memPort (portNumber k pch) [] := by
  unfold memoryPortWatchdog
  dsimp only
  rw [ready, free, if_neg (by simp; omega)]

theorem memoryPortWatchdog_first (first : s.rst.levels.find? (fun x => x.1 == .memPort p k pch) = none) :
    s.memoryPortWatchdog p k pch = (s.levelled (.memPort p k pch) 0).startEngine (.memPort p k pch) p RC.memPort (portNumber k pch) [] := by
  have none_ : s.rst.levels.any (fun x => x.1 == .memPort p k pch && x.2 == 1) = false :=
    List.any_eq_false.2 fun x hx both => List.find?_eq_none.1 first x hx (Bool.and_eq_true_iff.1 both).1
  rw [memoryPortWatchdog_eq ready part stack channel free, if_neg (by rw [none_]; exact Bool.false_ne_true),
    expire_engine free first rfl]

theorem memoryPortWatchdog_again (again : (Scope.memPort p k pch, 1) ∈ s.rst.levels) :
    s.memoryPortWatchdog p k pch = s.channelFail p k pch := by
  rw [memoryPortWatchdog_eq ready part stack channel free, if_pos (List.any_eq_true.2 ⟨_, again, by simp⟩)]

end

section
variable {s : State} {p : Nat} (ready : s.resettable = true) (part : p ≤ 7)
include ready part

theorem routerWatchdog_own : s.routerWatchdog p false = s.expire (.router p) 1 RC.router p [] := by
  unfold routerWatchdog
  rw [ready, if_neg (by simp; omega)]
  rfl

theorem routerWatchdog_die : s.routerWatchdog p true = s.expire (.router (p + 8)) 2 RC.router p [] := by
  unfold routerWatchdog
  rw [ready, if_neg (by simp; omega)]
  rfl

end

/-! ## The wait of a collective (R434) -/

/-- Records of the contributors whose frames are missing. -/
def noteMissing (s : State) (tl : TileRef) (ids : List Nat) : State :=
  ids.foldl (fun s d => s.ledger tl.p 4 Err.timeout tl.t d s.openVintage s.openAttempt) s

/-- The state without its ledger. -/
def unledgered (s : State) : State := { s with parts := [], job := { s.job with ledgerSeq := 0 } }

theorem unledgered_same {s t : State} (h : t.unledgered = s.unledgered) : t.tiles = s.tiles ∧ t.rst = s.rst ∧ t.out = s.out ∧
    t.isJobHead = s.isJobHead ∧ t.job.collExpired = s.job.collExpired :=
  ⟨(congrArg State.tiles h :), (congrArg State.rst h :), (congrArg State.out h :), (congrArg isJobHead h :),
    (congrArg (·.job.collExpired) h :)⟩

theorem unledgered_noteMissing (s : State) (tl : TileRef) (ids : List Nat) : (s.noteMissing tl ids).unledgered = s.unledgered :=
  foldl_leaves unledgered ids s fun _ _ => rfl

/-- The wait's second expiry: HANG at the job head, which is asked to from elsewhere. -/
def waitAgain (s : State) (ids : List Nat) : State :=
  if s.isJobHead then ids.foldl (fun s d => s.startHang d s.openVintage s.openAttempt) s else s.send (.missing ids)

/-- The state without what it has sent. -/
def unsent (s : State) : State := { s with out := [] }

theorem waitAgain_leaves (s : State) (ids : List Nat) : (s.waitAgain ids).unsent = s.unsent := by
  unfold waitAgain
  split
  · exact foldl_leaves unsent ids s fun _ _ => rfl
  · rfl

theorem waitAgain_elsewhere {s : State} (elsewhere : s.isJobHead = false) (ids : List Nat) :
    (s.waitAgain ids).out = .missing ids :: s.out := by
  unfold waitAgain
  rw [if_neg (by rw [elsewhere]; exact Bool.false_ne_true)]
  rfl

/-- A collective whose wait has expired in this vintage. -/
def noteExpired (s : State) (id : Nat) : State := s.onJob (fun j => { j with collExpired := id :: j.collExpired })

theorem noteExpired_stays (s : State) (id : Nat) : (s.noteExpired id).tiles = s.tiles ∧ (s.noteExpired id).rst = s.rst ∧
    (s.noteExpired id).out = s.out ∧ (s.noteExpired id).isJobHead = s.isJobHead ∧
    (s.noteExpired id).job.collExpired = id :: s.job.collExpired := ⟨rfl, rfl, rfl, rfl, rfl⟩

section
variable {s : State} {tl : TileRef} {id : Nat} {c : Coll}
  (named : List.find? (fun (c : Coll) => c.id == id && c.owner == tl) ((s.role.map (·.colls)).getD []) = some c) (alive : s.alive = true)
  (waiting : getF (s.tile tl).status tileStatus_tileState = TS.waiting) {v : Nat} (waits : (s.tile tl).seq.wait = some (c.counter, v))
  (free : s.covered (.unit tl.p tl.t 19) = false) (limited : c.timeoutUs ≠ 0)
  (late : Sparse.get 0 (s.tile tl).marks (256 + c.counter) + c.timeoutUs * usTicks < s.now)
include named alive waiting waits free limited late

/-- A wait that expires faults the tile; the second time the missing are named (R434). -/
theorem collectiveWaitExpiry_late : s.collectiveWaitExpiry tl id =
    let u := ((s.tileFault tl 8).noteMissing tl (missingFrom (s.tile tl) c)).noteExpired id
    if !s.job.collExpired.contains id then u else u.waitAgain (missingFrom (s.tile tl) c) := by
  unfold collectiveWaitExpiry noteMissing noteExpired waitAgain
  split
  next gone => cases named.symm.trans gone
  next found =>
    cases named.symm.trans found
    refine if_neg ?_
    rw [alive, waiting, waits, free, decide_eq_false limited, decide_eq_false (Nat.not_le.2 late)]
    simp

theorem collectiveWaitExpiry_shows : let t := s.collectiveWaitExpiry tl id
    getF (t.tile tl).status tileStatus_faultCode = 8 ∧ t.job.collExpired = id :: s.job.collExpired ∧ t.rst = s.rst ∧
      (id ∈ s.job.collExpired → s.isJobHead = false → t.out = .missing (missingFrom (s.tile tl) c) :: s.out) := by
  rw [collectiveWaitExpiry_late named alive waiting waits free limited late]
  generalize missingFrom (s.tile tl) c = ids
  have code := (s.tileFault_faultsTile tl (code := 8) (by decide)).faultCode (by decide)
  have rst := (s.tileFault_guarded tl 8).rst
  have first : (s.tileFault tl 8).out = s.out ∧ (s.tileFault tl 8).isJobHead = s.isJobHead ∧
      (s.tileFault tl 8).job.collExpired = s.job.collExpired := by
    unfold tileFault
    rw [if_neg (by decide), if_neg (by decide), if_neg (by decide)]
    exact ⟨rfl, rfl, rfl⟩
  generalize s.tileFault tl 8 = x at *
  obtain ⟨out, head, expired⟩ := first
  obtain ⟨tiles₁, rst₁, out₁, head₁, expired₁⟩ := unledgered_same (x.unledgered_noteMissing tl ids)
  generalize x.noteMissing tl ids = y at *
  obtain ⟨tiles₂, rst₂, out₂, head₂, expired₂⟩ := y.noteExpired_stays id
  dsimp only
  generalize y.noteExpired id = z at *
  have fault : getF (z.tile tl).status tileStatus_faultCode = 8 :=
    (congrArg (fun l => getF (Sparse.get Tile.reset l (tkey tl)).status tileStatus_faultCode) (tiles₂.trans tiles₁) :).trans code
  have resets : z.rst = s.rst := rst₂.trans (rst₁.trans rst)
  have noted' : z.job.collExpired = id :: s.job.collExpired := by rw [expired₂, expired₁, expired]
  have elsewhere : z.isJobHead = s.isJobHead := head₂.trans (head₁.trans head)
  have sent : z.out = s.out := out₂.trans (out₁.trans out)
  split
  next fresh => exact ⟨fault, noted', resets, fun again => absurd again (by simpa using fresh)⟩
  · have kept := z.waitAgain_leaves ids
    refine ⟨(congrArg (fun u : State => getF (u.tile tl).status tileStatus_faultCode) kept :).trans fault,
      (congrArg (·.job.collExpired) kept :).trans noted', (congrArg State.rst kept :).trans resets, fun _ apart => ?_⟩
    rw [waitAgain_elsewhere (elsewhere.trans apart), sent]

end

/-! ## The rootstock's watchdog (R430) -/

theorem rootstockWatchdog_takesOver {s : State} (alive : s.alive = true) (rooted : s.boot.rooted = true)
    (standby : flagF s.sec.mode secMode_standbyOk = true) :
    let t := s.rootstockWatchdog true
    t = { s with sec := { s.sec with mode := t.sec.mode } } ∧
      getF t.sec.mode secMode_core = (1 - getF s.sec.mode secMode_core) % 2 ∧ flagF t.sec.mode secMode_standbyOk = false := by
  have e : s.rootstockWatchdog true = { s with sec := { s.sec with
      mode := setF (setF s.sec.mode secMode_standbyOk 0) secMode_core (1 - getF s.sec.mode secMode_core) } } := by
    unfold rootstockWatchdog
    rw [alive, rooted, standby]
    rfl
  rw [e]
  refine ⟨rfl, getF_setF _ ⟨by decide, by decide⟩ _, ?_⟩
  refine (flagF_setF_beside (f := secMode_core) (g := secMode_standbyOk) (by decide) _ _).trans ?_
  unfold flagF
  rw [getF_setF _ ⟨by decide, by decide⟩]
  rfl

theorem rootstockWatchdog_fails {s : State} (alive : s.alive = true) (rooted : s.boot.rooted = true) :
    (s.rootstockWatchdog false).pins.faultN = false ∧ (s.rootstockWatchdog false).tiles = s.tiles := by
  unfold rootstockWatchdog
  rw [alive, rooted, Bool.and_false, if_neg (by decide), if_neg (by decide)]
  exact ⟨rfl, rfl⟩

/-! ## HANG and the replay deadline (R445) -/

theorem hangIn_starts {s : State} {v a : Nat} (alive : s.alive = true) (running : s.devState = DS.running) (now : s.current v a = true)
    (none : ∀ r ∈ s.rst.active, r.1 ≠ .compute) : s.hangIn v a = s.startCompute RC.hang FS.hang 0xffff := by
  have clear : s.rst.active.any (fun r => r.1 == .compute) = false := List.any_eq_false.2 fun r hr => by simpa using none r hr
  unfold hangIn
  rw [alive, running, now, clear]
  exact if_neg (by decide)

theorem hangIn_stale {s : State} {v a : Nat} (stale : s.current v a = false) : s.hangIn v a = s := by
  unfold hangIn
  rw [stale, Bool.not_false, Bool.or_true, Bool.true_or, if_pos rfl]

section
variable {s : State} {t₀ : Nat} (replays : s.job.rollbackAt = some t₀)
include replays

theorem replayDeadline_early (early : s.now < t₀ + 2000 * msTicks + 2 * s.agreeTicks) : s.replayDeadline = s := by
  unfold replayDeadline
  rw [replays]
  exact if_pos (by rw [decide_eq_true early, Bool.or_true])

theorem replayDeadline_late (alive : s.alive = true) (running : s.devState = DS.running) (head : s.isJobHead = true)
    (late : t₀ + 2000 * msTicks + 2 * s.agreeTicks ≤ s.now) : s.replayDeadline =
      ((s.jobIds.filter s.healthy).filter (fun i => !s.job.decanted.contains i)).foldl (fun s i => s.askFence i FR.jobRequest) s := by
  unfold replayDeadline
  rw [replays]
  refine if_neg ?_
  rw [alive, running, head, decide_eq_false (Nat.not_lt.2 late)]
  decide

end

end State

/-- Settles O51: each watchdog's first expiry is the start of its object's first reset. -/
theorem watchdogs : Obligations.Watchdogs := by
  unfold Obligations.Watchdogs
  intro s _
  refine ⟨?unit, ?heartbeat, ?port, ?router, ?wait, ?standby, ?fails, ?hang, ?stale, ?early, ?late⟩
  case unit =>
    intro tl u ready busy free first
    exact ⟨fun late => ⟨_, rfl, State.tileUnitWatchdog_shows ready busy free first late⟩,
      fun early => congrArg Host.Outcome.next (State.tileUnitWatchdog_early ready busy free early)⟩
  case heartbeat =>
    intro tl ready program free first late
    exact ⟨_, congrArg Host.Outcome.next ((State.heartbeatWatchdog_late ready program late).trans (State.expire_part free first rfl ..)),
      s.levelled_startPart (.unit tl.p tl.t heartbeatUnit) tl.p RC.heartbeat (getF (s.tile tl).map tileMap_site)⟩
  case port =>
    intro p k pch ready part stack channel free
    refine ⟨fun first => ⟨_, congrArg Host.Outcome.next (State.memoryPortWatchdog_first ready part stack channel free first), ?_⟩,
      fun again => ⟨_, congrArg Host.Outcome.next (State.memoryPortWatchdog_again ready part stack channel free again),
        s.selfFailed_channelFail p k pch, (congrArg State.rst (s.channelFail_frame p k pch) :)⟩⟩
    have active := ((s.levelled (.memPort p k pch) 0).startEngine_shows (.memPort p k pch) p RC.memPort (State.portNumber k pch) []).1
    rw [(s.levelled_shows (.memPort p k pch) 0).2.1] at active
    exact active
  case router =>
    intro p ready part
    have own : scopePart (.router p) = some p := congrArg some (Nat.mod_eq_of_lt (Nat.lt_succ_of_le part))
    refine ⟨fun free first => ⟨_, congrArg Host.Outcome.next
        ((State.routerWatchdog_own ready part).trans (State.expire_part free first own ..)), (s.levelled_startPart (.router p) p RC.router p).1⟩,
      fun free first => ⟨_, congrArg Host.Outcome.next
        ((State.routerWatchdog_die ready part).trans (State.expire_compute free first ..)), ?_⟩⟩
    have active := ((s.levelled (.router (p + 8)) 2).startCompute_shows RC.router FS.compute p).1
    rw [(s.levelled_shows (.router (p + 8)) 2).2.1] at active
    exact active
  case wait =>
    intro tl id c k v named alive waiting waits here free limited late
    subst here
    exact ⟨_, rfl, State.collectiveWaitExpiry_shows named alive waiting waits free limited late⟩
  case standby =>
    intro alive rooted ok
    exact ⟨_, rfl, State.rootstockWatchdog_takesOver alive rooted ok⟩
  case fails =>
    intro alive rooted
    exact ⟨_, rfl, State.rootstockWatchdog_fails alive rooted⟩
  case hang =>
    intro v a alive running now none
    obtain ⟨active, fenced, -⟩ := s.startCompute_shows RC.hang FS.hang 0xffff
    exact ⟨_, congrArg Host.Outcome.next (State.hangIn_starts alive running now none), active, fenced⟩
  case stale => exact fun v a stale => congrArg Host.Outcome.next (State.hangIn_stale stale)
  case early => exact fun t₀ replays early => congrArg Host.Outcome.next (State.replayDeadline_early replays early)
  case late =>
    exact fun t₀ replays alive running head late => congrArg Host.Outcome.next (State.replayDeadline_late replays alive running head late)

end Sys2Proof.Machine

/-!
PROOFS. A device that receives its own FENCE while a restore that has already written is under way (R332, R363).
-/
namespace Sys2Proof.Machine
namespace OwnFence

/-- Device 0, the one member of job 0. -/
def entry : DevEntry :=
  { id := 0, role := 0, b1 := none, b2 := none, tensor := 0, pipeline := 0, replica := 0, domain := 0, job := 0, extra := [],
    spare := false, stateLen := [] }

def program : StepProg :=
  { lots := 1, lotSize := 1, lotBytes := 4, lr := [], b1 := 0, b2 := 0, eps := 0, wd := 0, maxnorm := 0, evalPeriod := 0, evalPhase := 0,
    ckptPeriod := 0, endpoints := 1, deadlineMs := 1, last := 1 }

def header : ImgHdr :=
  { sealed := false, jobId := 0, jobSeed := 0, imageLen := 0, sections := 0, roles := 0, devices := 1, caps := 0, stacksMin := 0,
    pdiesMin := 0, tilesReq := 0, mirror := 0, portsReq := 0, suppress := 0, q := 1, missHb := 4, agree := 0, replay := 0,
    layoutDigest := 0, dirDigest := 0 }

def loaded : Loaded :=
  { hdr := header, digest := 0, half := 0
    img := { devices := [entry], groupBytes := [], tensors := [], recipes := [], formats := [], step := program, roles := [] } }

/-- The device in PAUSED, with a restore under way that some device has written for (R362). -/
def restoring : State :=
  { State.reset with
    boot := { State.reset.boot with rooted := true }
    dev := { DevRegs.reset with state := setF 0 devState_state DS.paused }
    img := { cur := some loaded, load := none }
    job := { Job.reset with restore := some { cands := [], reports := [], wrote := true } } }

/-- The FENCE of device 0, for reports on it. -/
def fence : FenceMsg := { fenced := 0, head := 1, ts := 0, reason := FR.reports, reporters := 1 }

/-- The fence quarantines the device, and the end of its restore takes it from there to LOADED. -/
theorem devState_fenceAll : (restoring.fenceAll fence).devState = DS.loaded := by decide +kernel

end OwnFence

/-- Refutes O49: of a device fenced while its restore has written, the end of the restore (R363) clears the job after the fence has
entered QUARANTINE, and leaves it LOADED. -/
theorem not_fences : ¬ Obligations.Fences := by
  unfold Obligations.Fences
  intro holds
  obtain ⟨-, -, own, -⟩ := holds OwnFence.restoring OwnFence.fence (by decide) (by decide)
  obtain ⟨t, e, quarantined, -⟩ := own (by decide) (by decide) (by decide) (by decide) (by decide)
  have same : OwnFence.restoring.fenceAll OwnFence.fence = t := Host.Outcome.next.inj e
  rw [← same, OwnFence.devState_fenceAll] at quarantined
  exact absurd quarantined (by decide)

end Sys2Proof.Machine

/-!
PROOFS. A take-over whose fenced ID is that of a spare's entry (R340).
-/
namespace Sys2Proof.Machine
namespace SpareTakesOver

/-- The entry that the take-over is for: a spare's. -/
def entry : DevEntry := { OwnFence.entry with id := 1, spare := true }

def loaded : Loaded := { OwnFence.loaded with img := { OwnFence.loaded.img with devices := [OwnFence.entry, entry] } }

/-- The graft of device 1, its state loaded, at the spare that is device 0. -/
def graft : Graft :=
  { fenced := 1, spare := some 0, planned := false, phase := GP.takeOver, matched := [], mismatches := 0, source := 2 }

/-- Device 0 in LOADED with that graft, its time base disciplined. -/
def ready : State :=
  { State.reset with
    boot := { State.reset.boot with rooted := true }
    dev := { DevRegs.reset with state := setF (setF 0 devState_state DS.loaded) devState_spare 1 }
    img := { cur := some loaded, load := none }
    time := { State.reset.time with syncStatus := setF 0 tsSyncStatus_locked 1 }
    fd := { Fd.reset with taken := some graft } }

/-- The registers that the take-over writes are those of the entry, and the device is a spare still. -/
theorem isSpareHere_takeOver : (ready.takeOver 0 false).isSpareHere = true := by decide +kernel

theorem canonical_ready : Canonical ready where
  mem := rfl
  tiles := rfl
  stores := fun _ hx => nomatch hx
  parts := rfl
  ports := rfl
  memStacks := rfl
  sites := rfl

end SpareTakesOver

/-- Refutes O50: the entry of the fenced ID may be that of a spare, and the device that takes over that ID stands as a spare, as the
entry says. -/
theorem not_grafts : ¬ Obligations.Grafts := by
  unfold Obligations.Grafts
  intro holds
  obtain ⟨-, -, -, -, -, takesOver, -⟩ := holds SpareTakesOver.ready SpareTakesOver.canonical_ready (by decide) (by decide)
  obtain ⟨t, e, -, member, -⟩ := takesOver SpareTakesOver.graft SpareTakesOver.loaded SpareTakesOver.entry 0 false
    rfl rfl (by decide) rfl rfl (by decide) (by decide)
  have same : SpareTakesOver.ready.takeOver 0 false = t := Host.Outcome.next.inj e
  rw [← same, SpareTakesOver.isSpareHere_takeOver] at member
  exact absurd member (by decide)

end Sys2Proof.Machine

/-!
PROOFS. BEATs, missed BEATs, reports on a device and its fence (R326 to R330, R338).
-/
namespace Sys2Proof.Machine
namespace State

/-! ## What the choice of a spare leaves of a head (R337, R345) -/

/-- What a BEAT that has been kept shows: the latest BEATs, the tiles and the memory. -/
def seen (s : State) : List BeatSt × Sparse Tile × Sparse Byte := (s.fd.beats, s.tiles, s.mem)

theorem seen_event (s : State) (code cls arg src : Nat) (always : Bool) : (s.event code cls arg src always).seen = s.seen :=
  (congrArg seen (s.unnoted_event code cls arg src always) :)

theorem seen_ask (s : State) (duty arg arg2 : Nat) (ctx : List Nat) : (s.ask duty arg arg2 ctx).seen = s.seen := by
  unfold ask
  exact (congrArg seen (s.unnoted_toHosts (.decisionReq s.nextReq duty s.deadline ctx) false) :)

theorem graftStatus_eq (s : State) (g : Graft) (err : Nat) : ∃ m, s.graftStatus g err = ({ s with mir := m } : State).errRecord err Src.fault :=
  ⟨_, rfl⟩

theorem seen_mir (s : State) (m : MirRegs) (err : Nat) : (({ s with mir := m } : State).errRecord err Src.fault).seen = s.seen :=
  (congrArg seen (unnoted_errRecord { s with mir := m } err Src.fault) :)

theorem seen_graftStatus (s : State) (g : Graft) (err : Nat) : (s.graftStatus g err).seen = s.seen := by
  obtain ⟨m, e⟩ := s.graftStatus_eq g err
  rw [e, seen_mir]

theorem seen_putGraft (s : State) (g : Graft) (err : Nat) : (s.putGraft g err).seen = s.seen := seen_graftStatus ..

theorem seen_send (s : State) (m : Msg) : (s.send m).seen = s.seen := rfl

theorem seen_waiting (s : State) (w : Fd → List Nat) : (s.onFd (fun f => { f with waiting := w f })).seen = s.seen := rfl

theorem seen_fences (s : State) (w : Fd → List FenceEnt) : (s.onFd (fun f => { f with fences := w f })).seen = s.seen := rfl

theorem seen_wakeFor (s : State) (id spare : Nat) (planned : Bool) : (s.wakeFor id spare planned).seen = s.seen :=
  (seen_send ..).trans (seen_putGraft ..)

theorem seen_awaitSpare (s : State) (id : Nat) : (s.awaitSpare id).seen = s.seen := (seen_waiting ..).trans (seen_putGraft ..)

theorem seen_noSpare (s : State) (id : Nat) : (s.noSpare id).seen = s.seen := by
  unfold noSpare
  extract_lets g t u
  have put : t.seen = s.seen := (seen_waiting ..).trans ((seen_putGraft ..).trans (seen_fences ..))
  clear_value t
  split
  · split
    · exact (seen_event ..).trans put
    · exact (seen_event ..).trans put
  · exact put

theorem seen_selectSpare (s : State) (id : Nat) : (s.selectSpare id).seen = s.seen := by
  unfold selectSpare
  split
  · split
    · exact seen_awaitSpare ..
    · exact seen_noSpare ..
  · split
    · exact seen_ask ..
    · exact seen_wakeFor ..

theorem seen_selectWaiting (s : State) : s.selectWaiting.seen = s.seen :=
  foldl_leaves seen _ s fun t _ => by
    split
    · exact seen_selectSpare ..
    · rfl

theorem seen_settleWaiting (s : State) : s.settleWaiting.seen = s.seen := by
  unfold settleWaiting
  split
  · rfl
  · exact foldl_leaves seen _ s seen_noSpare

theorem seen_noteAdmitted (s : State) (id : Nat) : (s.noteAdmitted id).seen = s.seen := by
  unfold noteAdmitted
  split
  · extract_lets t
    split <;> rfl
  · rfl

/-! ## BEATs (R326) -/

section
variable {s : State} {id : Nat} (up : s.linksUp = true) (image : s.img.cur.isSome = true)
include up image

theorem beatSend_member (member : s.inJob = true) (role : s.isSpareHere = false) : s.beatSend = s.sendBeat 0 := by
  unfold beatSend
  rw [up, Option.isNone_eq_false_iff.2 image, member, role, if_neg (by decide), if_pos (by decide)]

theorem beatIn_watched (watched : s.watches id = true) (ts st : Nat) (d : BitVec 384) :
    (s.beatIn id ts st d).beatOf id = some { id := id, lastTs := ts, misses := 0, st := st, image := d } ∧
    (s.beatIn id ts st d).tiles = s.tiles ∧ (s.beatIn id ts st d).mem = s.mem := by
  unfold beatIn
  rw [up, Option.isNone_eq_false_iff.2 image, watched, if_neg (by decide)]
  extract_lets b t u
  have kept : t.seen = (b :: s.fd.beats.filter (fun x => x.id != id), s.tiles, s.mem) := rfl
  clear_value t
  have noted : u.seen = t.seen := by
    unfold u
    split
    · exact seen_noteAdmitted ..
    · rfl
  clear_value u
  have all : (if u.isDomainHead then u.selectWaiting.settleWaiting else u).seen = t.seen := by
    split
    · exact (seen_settleWaiting _).trans ((seen_selectWaiting u).trans noted)
    · exact noted
  generalize (if u.isDomainHead then u.selectWaiting.settleWaiting else u) = v at *
  rw [kept] at all
  obtain ⟨beats, tiles, mem⟩ : v.fd.beats = _ ∧ v.tiles = _ ∧ v.mem = _ := by
    unfold seen at all
    exact ⟨congrArg (·.1) all, congrArg (·.2.1) all, congrArg (·.2.2) all⟩
  refine ⟨?_, tiles, mem⟩
  unfold beatOf
  rw [beats]
  exact List.find?_cons_of_pos (beq_self_eq_true id)

end

theorem beatIn_unwatched {s : State} {id : Nat} (unwatched : s.watches id = false) (ts st : Nat) (d : BitVec 384) : s.beatIn id ts st d = s := by
  unfold beatIn
  exact if_pos (by rw [unwatched, Bool.not_false, Bool.or_true])

/-! ## A head that fences (R329, R330) -/

theorem headFence_takes {s : State} {id : Nat} (standing : s.isFenced id = false) (decides : s.asks 0 = false)
    (none : ∀ d ∈ s.pendingOn 0, d.arg ≠ id) (reason n : Nat) : s.headFence id reason n = s.takeFence id reason n := by
  unfold headFence
  rw [standing, decides, if_neg (by decide), if_neg (by simpa using none), if_neg (by decide)]

theorem headFence_fenced {s : State} {id : Nat} (fenced : s.isFenced id = true) (reason n : Nat) : s.headFence id reason n = s := if_pos fenced

theorem takeFence_out (s : State) (id reason n : Nat) : ∃ m, (s.takeFence id reason n).out.head? = some (.fence m) ∧ m.fenced = id :=
  ⟨_, rfl, rfl⟩

/-! ## Missed BEATs (R330, R338) -/

/-- The latest BEAT of a member whose next ones have not come. -/
def missedBeat (id n : Nat) (b : BeatSt) : BeatSt := if b.id = id then { b with misses := n } else b

theorem missedBeat_stays (id n : Nat) (b : BeatSt) : (missedBeat id n b).id = b.id ∧ (missedBeat id n b).lastTs = b.lastTs := by
  unfold missedBeat
  split <;> exact ⟨rfl, rfl⟩

/-- Whether a list of latest BEATs tells of more than half of the domain. -/
def heardBy (s : State) (accused : Nat) (beats : List BeatSt) : Bool :=
  let ids := s.domainIds.filter (fun i => s.healthy i && i != accused)
  let heard := ids.filter (fun i =>
    (i == s.devId && decide (s.domainIds.length < 16)) ||
      (beats.any (fun b => b.id == i && decide (s.now ≤ b.lastTs + s.missHb * s.beatPeriod i))))
  decide (ids.length < 2 * heard.length)

/-- A head that notes a member's missed BEATs. -/
def noteMissed (s : State) (id : Nat) : State := s.onFd (fun f => { f with beats := f.beats.map (missedBeat id s.missHb) })

theorem heardMost_noteMissed (s : State) (id : Nat) : (s.noteMissed id).heardMost id = s.heardMost id := by
  have any (i : Nat) : (s.fd.beats.map (missedBeat id s.missHb)).any
      (fun b => b.id == i && decide (s.now ≤ b.lastTs + s.missHb * s.beatPeriod i)) =
        s.fd.beats.any (fun b => b.id == i && decide (s.now ≤ b.lastTs + s.missHb * s.beatPeriod i)) := by
    rw [List.any_map]
    refine congrArg s.fd.beats.any (funext fun b => ?_)
    rw [Function.comp_apply, (missedBeat_stays id s.missHb b).1, (missedBeat_stays id s.missHb b).2]
  calc (s.noteMissed id).heardMost id = s.heardBy id (s.fd.beats.map (missedBeat id s.missHb)) := rfl
    _ = s.heardBy id s.fd.beats := by
      unfold heardBy
      simp only [any]
    _ = s.heardMost id := rfl

section
variable {s : State} {id : Nat}

/-- Nothing is missed of a device that is fenced, or is in a graft as its spare. -/
theorem beatMiss_spared (spared : s.isFenced id = true ∨ s.inGraft id = true) : s.beatMiss id = s := by
  unfold beatMiss
  extract_lets soon
  clear_value soon
  refine if_pos ?_
  rcases spared with h | h
  · rw [h, Bool.or_true, Bool.true_or]
  · rw [h, Bool.or_true]

theorem beatMiss_soon {b : BeatSt} (heard : s.beatOf id = some b) (soon : s.now < b.lastTs + s.missHb * s.beatPeriod id) : s.beatMiss id = s := by
  unfold beatMiss
  rw [heard]
  extract_lets early
  have : early = true := decide_eq_true soon
  exact if_pos (by rw [this, Bool.or_true, Bool.true_or, Bool.true_or])

variable (up : s.linksUp = true) (image : s.img.cur.isSome = true) (watched : s.watches id = true) (standing : s.isFenced id = false)
  (out : s.inGraft id = false) (late : ∀ b, s.beatOf id = some b → b.lastTs + s.missHb * s.beatPeriod id ≤ s.now)
include up image watched standing out late

theorem beatMiss_late : s.beatMiss id =
    if !(s.noteMissed id).heardMost id then
      (if (s.noteMissed id).isJobHead then (s.noteMissed id).event Err.timeout 1 id Src.fault false
        else ((s.noteMissed id).errRecord Err.timeout Src.fault).send (.noQuorum s.jobHead id))
    else (s.noteMissed id).headFence id (if s.isSpare id then FR.spareLost else FR.missed) 0 := by
  have over_ : (match s.beatOf id with
      | some b => decide (s.now < b.lastTs + s.missHb * s.beatPeriod id)
      | none => false) = false := by
    split
    next b heard => exact decide_eq_false (Nat.not_lt.2 (late b heard))
    · rfl
  unfold beatMiss
  extract_lets soon
  have : soon = false := over_
  rw [up, Option.isNone_eq_false_iff.2 image, watched, standing, out, this, if_neg (by decide)]
  unfold noteMissed missedBeat
  rfl

/-- A head that does not hear most of its domain reports that it cannot fence. -/
theorem beatMiss_noQuorum (deaf : s.heardMost id = false) (elsewhere : s.isJobHead = false) :
    (s.beatMiss id).out = .noQuorum s.jobHead id :: s.out ∧ getF (s.beatMiss id).dev.errLast errLast_code = Err.timeout ∧
    (s.beatMiss id).isFenced id = false := by
  have apart : (s.noteMissed id).isJobHead = false := elsewhere
  rw [beatMiss_late up image watched standing out late, heardMost_noteMissed, deaf, apart, if_pos (by decide), if_neg (by decide)]
  have code := code_errRecord (s.noteMissed id) (code := Err.timeout) (src := Src.fault) (by decide)
  obtain ⟨w, e⟩ := (s.noteMissed id).errRecord_eq Err.timeout Src.fault
  rw [e] at code ⊢
  exact ⟨rfl, code, standing⟩

/-- One that does fences. -/
theorem beatMiss_fences (hears : s.heardMost id = true) (decides : s.asks 0 = false) (none : ∀ d ∈ s.pendingOn 0, d.arg ≠ id) :
    (s.beatMiss id).isFenced id = true ∧ ∃ m, (s.beatMiss id).out.head? = some (.fence m) ∧ m.fenced = id := by
  rw [beatMiss_late up image watched standing out late, heardMost_noteMissed, hears, if_neg (by decide),
    headFence_takes (s := s.noteMissed id) standing decides none]
  exact ⟨isFenced_takeFence .., takeFence_out ..⟩

end

/-! ## Reports (R327 to R329) -/

section
variable {s : State} {id : Nat} (up : s.linksUp = true) (image : s.img.cur.isSome = true) (watched : s.watches id = true)
include up image watched

theorem report_standing (standing : s.isFenced id = false) (rep ts : Nat) : s.report rep id ts = s.onFd (fun f => { f with
    accuses := withReport (s.accuseOf id) id rep ts :: f.accuses.filter (fun x => x.accused != id) }) := by
  unfold report
  rw [up, Option.isNone_eq_false_iff.2 image, watched, standing, if_neg (by decide), if_neg (by decide)]

theorem report_fenced (fenced : s.isFenced id = true) (rep ts : Nat) : s.report rep id ts = s.onFd (fun f => { f with
    fences := f.fences.map (fun y => if y.id = id then { y with reports := min (y.reports + 1) 0x3ff } else y) }) := by
  unfold report
  rw [up, Option.isNone_eq_false_iff.2 image, watched, fenced, if_neg (by decide), if_pos rfl]

theorem selfFailIn_watched : s.selfFailIn id = s.headFence id (if s.inGraft id then FR.selfTest else FR.selfFail) 0 := by
  unfold selfFailIn
  rw [up, Option.isNone_eq_false_iff.2 image, watched, if_neg (by decide)]

end

section
variable {s : State} {id : Nat} {a : Accuse} (accused : s.accuseOf id = some a)
include accused

theorem reportWait_early (early : a.reporters.length < s.quorum ∨ s.now < a.firstTs + msTicks) : s.reportWait id = s := by
  unfold reportWait
  rw [accused]
  refine if_pos ?_
  rcases early with few | soon
  · rw [decide_eq_true few, Bool.or_true, Bool.true_or]
  · rw [decide_eq_true soon, Bool.or_true]

variable (up : s.linksUp = true) (watched : s.watches id = true) (enough : s.quorum ≤ a.reporters.length)
  (late : a.firstTs + msTicks ≤ s.now)
include up watched enough late

theorem reportWait_due : s.reportWait id =
    if (s.beatOf id).any (fun b => decide (a.firstTs < b.lastTs)) then
      s.onFd (fun f => { f with accuses := f.accuses.filter (fun x => x.accused != id) })
    else s.headFence id FR.reports a.reporters.length := by
  unfold reportWait
  rw [accused]
  refine if_neg ?_
  rw [up, watched, decide_eq_false (Nat.not_lt.2 enough), decide_eq_false (Nat.not_lt.2 late)]
  decide

theorem reportWait_cleared {b : BeatSt} (heard : s.beatOf id = some b) (since : a.firstTs < b.lastTs) :
    s.reportWait id = s.onFd (fun f => { f with accuses := f.accuses.filter (fun x => x.accused != id) }) := by
  rw [reportWait_due accused up watched enough late, heard]
  exact if_pos (decide_eq_true since)

theorem reportWait_fences (silent : ∀ b, s.beatOf id = some b → b.lastTs ≤ a.firstTs) :
    s.reportWait id = s.headFence id FR.reports a.reporters.length := by
  rw [reportWait_due accused up watched enough late]
  refine if_neg ?_
  cases heard : s.beatOf id with
  | none => exact Bool.false_ne_true
  | some b => simpa using silent b heard

end

/-- The end of the wait of a fenced device makes no second FENCE. -/
theorem reportWait_fenced {s : State} {id : Nat} (fenced : s.isFenced id = true) :
    (s.reportWait id).out = s.out ∧ (s.reportWait id).fd.fences = s.fd.fences := by
  unfold reportWait
  split
  · exact ⟨rfl, rfl⟩
  · rw [headFence_fenced fenced]
    split
    · exact ⟨rfl, rfl⟩
    · split <;> exact ⟨rfl, rfl⟩

end State

/-- Settles O48: each command has its rule; a head's fence is taken once, since headFence leaves a fenced device. -/
theorem heartbeats : Obligations.Heartbeats := by
  unfold Obligations.Heartbeats
  intro s id up image
  refine ⟨?send, ?kept, ?ignored, ?graft, ?missed, ?soon, ?report, ?wait, ?early, ?fails, ?once⟩
  case send => exact fun member role => congrArg Host.Outcome.next (State.beatSend_member up image member role)
  case kept => exact fun ts st pr d watched => ⟨_, rfl, State.beatIn_watched up image watched ts st d⟩
  case ignored => exact fun ts st pr d unwatched => congrArg Host.Outcome.next (State.beatIn_unwatched unwatched ts st d)
  case graft => exact fun grafted => congrArg Host.Outcome.next (State.beatMiss_spared (.inr grafted))
  case missed =>
    intro watched standing out late
    exact ⟨fun deaf elsewhere => ⟨_, rfl, State.beatMiss_noQuorum up image watched standing out late deaf elsewhere⟩,
      fun hears decides none => ⟨_, rfl, State.beatMiss_fences up image watched standing out late hears decides none⟩⟩
  case soon => exact fun b heard soon => congrArg Host.Outcome.next (State.beatMiss_soon heard soon)
  case report => exact fun rep ts watched standing => congrArg Host.Outcome.next (State.report_standing up image watched standing rep ts)
  case wait =>
    intro a accused watched enough late
    refine ⟨fun ⟨b, heard, since⟩ => congrArg Host.Outcome.next (State.reportWait_cleared accused up watched enough late heard since),
      fun silent standing decides none => ⟨_, congrArg Host.Outcome.next (State.reportWait_fences accused up watched enough late silent), ?_⟩⟩
    exact State.isFenced_headFence _ _ decides none
  case early => exact fun a accused early => congrArg Host.Outcome.next (State.reportWait_early accused early)
  case fails =>
    intro ts cause watched _ decides none
    exact ⟨_, congrArg Host.Outcome.next (State.selfFailIn_watched up image watched), State.isFenced_headFence _ _ decides none⟩
  case once =>
    intro fenced watched
    exact ⟨fun rep ts => congrArg Host.Outcome.next (State.report_fenced up image watched fenced rep ts),
      congrArg Host.Outcome.next (State.beatMiss_spared (.inl fenced)),
      fun ts cause => congrArg Host.Outcome.next ((State.selfFailIn_watched up image watched).trans (State.headFence_fenced fenced ..)),
      _, rfl, State.reportWait_fenced fenced⟩

end Sys2Proof.Machine

/-!
PROOFS. Checkpoint streams: the outcome of an object, the deadline, and the manifest (R351, R353, R355 to R358, R360).
-/
namespace Sys2Proof.Machine

/-- The streams of a list, those of a partition changed. -/
def changedStreams (p : Nat) (f : Stream2 → Stream2) (l : List Stream2) : List Stream2 := l.map (fun x => if x.p = p then f x else x)

/-- A stream of the partition after a change is a changed one. -/
theorem mem_changedStreams {p : Nat} {f : Stream2 → Stream2} {l : List Stream2} {y : Stream2} (h : y ∈ changedStreams p f l) (here : y.p = p) :
    ∃ x, y = f x := by
  obtain ⟨x, -, e⟩ := List.mem_map.1 h
  by_cases at_ : x.p = p
  · rw [if_pos at_] at e
    exact ⟨x, e.symm⟩
  · rw [if_neg at_] at e
    exact absurd (e ▸ here) at_

namespace State

/-! ## The outcome of a stream (R355 to R357) -/

theorem ckpt_nextObject (s : State) : s.nextObject.job.ckpt = s.job.ckpt ∧ s.nextObject.tiles = s.tiles ∧ s.nextObject.mem = s.mem := by
  obtain ⟨out, parts, seq, e⟩ := s.nextObject_eq
  rw [e]
  exact ⟨rfl, rfl, rfl⟩

/-- A writer's outcome changes the devices that are done alone. -/
theorem ckptOutcome_shows {s : State} {c : Ckpt} (runs : s.job.ckpt = some c) :
    (∃ devs, s.ckptOutcome.job.ckpt = some { c with doneDevs := devs }) ∧ s.ckptOutcome.tiles = s.tiles ∧ s.ckptOutcome.mem = s.mem := by
  unfold ckptOutcome
  split
  next none_ => cases runs.symm.trans none_
  next found =>
    cases runs.symm.trans found
    split
    · obtain ⟨ckpt, tiles, mem⟩ := s.ckpt_nextObject
      exact ⟨⟨c.doneDevs, ckpt.trans runs⟩, tiles, mem⟩
    · extract_lets ok t
      have noted : t.job.ckpt = some c ∧ t.tiles = s.tiles ∧ t.mem = s.mem := ⟨runs, rfl, rfl⟩
      clear_value t
      obtain ⟨ckpt, tiles, mem⟩ := noted
      split
      · split
        · exact ⟨⟨_, rfl⟩, tiles, mem⟩
        · exact ⟨⟨c.doneDevs, ckpt⟩, tiles, mem⟩
      · exact ⟨⟨c.doneDevs, ckpt⟩, tiles, mem⟩

theorem ckpt_onStream {s : State} {c : Ckpt} (runs : s.job.ckpt = some c) (p : Nat) (f : Stream2 → Stream2) :
    (s.onStream p f).job.ckpt = some { c with streams := changedStreams p f c.streams } := by
  unfold onStream onJob
  dsimp only
  rw [runs]
  rfl

/-- A stream changed and its outcome: each stream of the partition is a changed one. -/
theorem settled_onStream {s : State} {c : Ckpt} (runs : s.job.ckpt = some c) (p : Nat) (f : Stream2 → Stream2) {c' : Ckpt}
    (now : (s.onStream p f).ckptOutcome.job.ckpt = some c') {y : Stream2} (hy : y ∈ c'.streams) (here : y.p = p) : ∃ x, y = f x := by
  obtain ⟨⟨devs, e⟩, -⟩ := ckptOutcome_shows (ckpt_onStream runs p f)
  cases e.symm.trans now
  exact mem_changedStreams hy here

section
variable {s : State} {c : Ckpt} (alive : s.alive = true) (runs : s.job.ckpt = some c)
include runs

theorem objectAck_other {p : Nat} {d : BitVec 384} (other : s.streamOf p = none ∨ d ≠ s.objDigest c.v p) : s.objectAck p d = s := by
  unfold objectAck
  refine if_pos ?_
  rw [runs]
  rcases other with none_ | digest
  · rw [none_, Option.isNone_none, Bool.or_true, Bool.true_or]
  · rw [Option.map_some, bne_iff_ne.2 fun e => digest (Option.some.inj e).symm, Bool.or_true]

include alive

theorem objectAck_own {p : Nat} {x : Stream2} (stream : s.streamOf p = some x) :
    s.objectAck p (s.objDigest c.v p) = (s.onStream p (fun x => { x with done := true })).ckptOutcome := by
  unfold objectAck
  refine if_neg ?_
  rw [runs, alive, stream, Option.map_some, bne_self_eq_false, Option.isNone_some]
  decide

theorem objectTimeout_next {p : Nat} {x : Stream2} (stream : s.streamOf p = some x)
    (refused : x.refused + 1 < (s.ckptItem.map (·.endpoints)).getD 0) :
    let y := { x with refused := x.refused + 1, endpoint := (x.endpoint + 1) % (s.ckptItem.map (·.endpoints)).getD 0 }
    s.objectTimeout p = (s.onStream p (fun _ => y)).sendObject c.v y := by
  unfold objectTimeout
  rw [stream, alive, runs]
  dsimp only
  rw [if_neg (by decide), if_neg (Nat.not_le.2 refused)]
  rfl

end

theorem objectTimeout_last {s : State} (alive : s.alive = true) {p : Nat} {x : Stream2} (stream : s.streamOf p = some x)
    (refused : (s.ckptItem.map (·.endpoints)).getD 0 ≤ x.refused + 1) :
    s.objectTimeout p = (s.onStream p (fun x => { x with refused := x.refused + 1, failed := true })).ckptOutcome := by
  unfold objectTimeout
  rw [stream, alive]
  dsimp only
  rw [if_neg (by decide), if_pos refused]

theorem out_sendAll (s : State) (ms : List Msg) : (s.sendAll ms).out = ms.reverse ++ s.out := by
  unfold sendAll
  induction ms generalizing s with
  | nil => rfl
  | cons m ms ih =>
    rw [List.foldl_cons, ih, List.reverse_cons, List.append_assoc]
    rfl

/-- An object that goes out again, from its first chunk. -/
theorem sendObject_onStream {s : State} {c : Ckpt} (runs : s.job.ckpt = some c) {p : Nat} {y : Stream2} (here : y.p = p) :
    let t := (s.onStream p (fun _ => y)).sendObject c.v y
    t = { s with job := t.job, out := t.out } ∧
      t.out = ((s.storedChunks c.v p).mapIdx (fun i b => Msg.object (s.objName c.v p) y.endpoint i b)).reverse ++ s.out ∧
      t.job.ckpt = some { c with streams := changedStreams p (fun _ => y) c.streams } := by
  subst here
  have changed := ckpt_onStream runs y.p (fun _ => y)
  have same : (s.onStream y.p (fun _ => y)).sendObject c.v y =
      (s.onStream y.p (fun _ => y)).sendAll ((s.storedChunks c.v y.p).mapIdx (fun i b => Msg.object (s.objName c.v y.p) y.endpoint i b)) := rfl
  rw [same]
  generalize (s.storedChunks c.v y.p).mapIdx (fun i b => Msg.object (s.objName c.v y.p) y.endpoint i b) = ms
  obtain ⟨out, e⟩ := (s.onStream y.p (fun _ => y)).sendAll_eq ms
  have sent := (s.onStream y.p (fun _ => y)).out_sendAll ms
  rw [e] at sent ⊢
  exact ⟨rfl, sent, changed⟩

/-! ## The deadline (R356) -/

/-- An object without an acknowledgement at the deadline has failed. -/
def lapsed (x : Stream2) : Stream2 := if x.done then x else { x with failed := true }

theorem lapsed_settled (x : Stream2) : (lapsed x).done = true ∨ (lapsed x).failed = true := by
  unfold lapsed
  split
  next done => exact .inl done
  · exact .inr rfl

section
variable {s : State} {c : Ckpt} (runs : s.job.ckpt = some c)
include runs

theorem ckptDeadline_early (early : s.now < c.startAt + (s.ckptItem.map (·.deadlineMs)).getD 0 * msTicks) : s.ckptDeadline = s := by
  unfold ckptDeadline
  rw [runs]
  exact if_pos (by rw [decide_eq_true early, Bool.or_true])

/-- At the deadline every stream is done or has failed. -/
theorem ckptDeadline_late (alive : s.alive = true) (streams : s.streaming = true)
    (late : c.startAt + (s.ckptItem.map (·.deadlineMs)).getD 0 * msTicks ≤ s.now) :
    s.ckptDeadline.streaming = false ∧
      ∀ c', s.ckptDeadline.job.ckpt = some c' → ∀ y ∈ c'.streams, y.done = true ∨ y.failed = true := by
  have e : s.ckptDeadline = (s.onJob (fun j => { j with ckpt := some { c with streams := c.streams.map lapsed } })).ckptOutcome := by
    unfold ckptDeadline lapsed
    rw [runs]
    refine if_neg ?_
    rw [alive, streams, decide_eq_false (Nat.not_lt.2 late)]
    decide
  obtain ⟨⟨devs, now⟩, -⟩ := ckptOutcome_shows
    (s := s.onJob (fun j => { j with ckpt := some { c with streams := c.streams.map lapsed } })) rfl
  have settled : ∀ y ∈ c.streams.map lapsed, y.done = true ∨ y.failed = true := fun y hy => by
    obtain ⟨x, -, rfl⟩ := List.mem_map.1 hy
    exact lapsed_settled x
  rw [e]
  refine ⟨?_, fun c' h => ?_⟩
  · unfold streaming
    rw [now]
    refine List.any_eq_false.2 fun y hy => ?_
    rcases settled y hy with done | failed
    · rw [done, Bool.not_true, Bool.false_and]
      decide
    · rw [failed, Bool.not_true, Bool.and_false]
      decide
  · cases now.symm.trans h
    exact settled

/-! ## The manifest (R358, R360) -/

theorem manifestWrite_sent (sent : c.sent = true) : s.manifestWrite = s := by
  unfold manifestWrite
  rw [runs]
  exact if_pos (by rw [sent, Bool.or_true, Bool.true_or, Bool.true_or, Bool.true_or])

/-- The manifest goes to the storage sessions once every object is written. -/
theorem manifestWrite_writes (alive : s.alive = true) (head : s.isJobHead = true) (unsent : c.sent = false) (still : s.streaming = false)
    (good : ∀ y ∈ c.streams, y.failed = false) (written : s.allWritten c = true) :
    s.manifestWrite.job.ckpt = some { c with sent := true } ∧
      ((∃ z ∈ s.sessions, z.isOpen = true ∧ z.fromHost = false) → s.manifestWrite.out.head? = some (.manifest (s.manifestOf c))) := by
  have sound : c.streams.any (·.failed) = false := List.any_eq_false.2 fun y hy => by rw [good y hy]; decide
  have e : s.manifestWrite = ((s.sessions.filter (fun x => x.isOpen && !x.fromHost)).foldl
      (fun t x => t.sendTo x (.manifest (s.manifestOf c)) false) s).onJob (fun j => { j with ckpt := some { c with sent := true } }) := by
    unfold manifestWrite
    rw [runs]
    refine if_neg ?_
    rw [alive, head, unsent, still, sound, written]
    decide
  rw [e]
  refine ⟨rfl, fun ⟨z, hz, opened, storage⟩ => ?_⟩
  have there : z ∈ s.sessions.filter (fun x => x.isOpen && !x.fromHost) := List.mem_filter.2 ⟨hz, by rw [opened, storage]; decide⟩
  exact foldl_brings (P := fun t : State => t.out.head? = some (.manifest (s.manifestOf c))) there s (fun _ => rfl) fun _ _ _ => rfl

theorem ownObjects_manifestOf {x : Nat × Nat × BitVec 384} (own : x ∈ s.ownObjects) :
    x ∈ (s.manifestOf c).objects ∧ x.2.2 = Config.sha384 (s.storedChunks c.v x.2.1).flatten := by
  refine ⟨List.mem_eraseDups.2 (List.mem_append_right _ own), ?_⟩
  unfold ownObjects at own
  rw [runs] at own
  obtain ⟨y, -, rfl⟩ := List.mem_map.1 own
  rfl

end

theorem manifestOf_image {s : State} {im : Loaded} (image : s.img.cur = some im) (c : Ckpt) :
    (s.manifestOf c).recipes = im.img.recipes ∧ (s.manifestOf c).seed = im.hdr.jobSeed := by
  unfold manifestOf State.image
  dsimp only
  rw [image]
  exact ⟨rfl, rfl⟩

end State

/-- Settles O37: what each command makes of the streams, and the fields of the manifest. -/
theorem checkpoints : Obligations.Checkpoints := by
  unfold Obligations.Checkpoints
  intro s c alive runs
  refine ⟨?acked, ?other, ?next, ?last, ?late, ?early, ?manifest, rfl, rfl, ?own, ?image, ?sent⟩
  case acked =>
    intro p x stream
    obtain ⟨-, tiles, mem⟩ := State.ckptOutcome_shows (State.ckpt_onStream runs p (fun x => { x with done := true }))
    refine ⟨_, congrArg Host.Outcome.next (State.objectAck_own alive runs stream), fun c' now y hy here => ?_, tiles, mem⟩
    obtain ⟨x, rfl⟩ := State.settled_onStream runs p _ now hy here
    rfl
  case other => exact fun p d other => congrArg Host.Outcome.next (State.objectAck_other runs other)
  case next =>
    intro p x stream refused
    have here : x.p = p := by
      unfold State.streamOf at stream
      rw [runs] at stream
      have found := List.find?_some (show c.streams.find? _ = some x from stream)
      simpa using (Bool.and_eq_true_iff.1 (Bool.and_eq_true_iff.1 found).1).1
    obtain ⟨frame, out, ckpt⟩ := State.sendObject_onStream (y := { x with
      refused := x.refused + 1, endpoint := (x.endpoint + 1) % (s.ckptItem.map (·.endpoints)).getD 0 }) runs here
    refine ⟨_, congrArg Host.Outcome.next (State.objectTimeout_next alive runs stream refused), frame, out, fun c' now y hy at_ => ?_⟩
    cases ckpt.symm.trans now
    obtain ⟨-, rfl⟩ := mem_changedStreams hy at_
    exact ⟨rfl, rfl⟩
  case last =>
    intro p x stream refused
    refine ⟨_, congrArg Host.Outcome.next (State.objectTimeout_last alive stream refused), fun c' now y hy here => ?_⟩
    obtain ⟨x, rfl⟩ := State.settled_onStream runs p _ now hy here
    rfl
  case late => exact fun streams late => ⟨_, rfl, State.ckptDeadline_late runs alive streams late⟩
  case early => exact fun early => congrArg Host.Outcome.next (State.ckptDeadline_early runs early)
  case manifest => exact fun head unsent still good written => ⟨_, rfl, State.manifestWrite_writes runs alive head unsent still good written⟩
  case own => exact fun x own => State.ownObjects_manifestOf runs own
  case image => exact fun im image => State.manifestOf_image image c
  case sent => exact fun sent => congrArg Host.Outcome.next (State.manifestWrite_sent runs sent)

end Sys2Proof.Machine
